-- ==== Sys2Proof/Word.lean ====
section
/-! DEFINITION. Word types of the PX4 (R5, R40, R46) and sparse maps as plain data. -/

namespace Sys2Proof

/-- One byte (R5). -/
abbrev Byte := BitVec 8
/-- One 32-bit register, constant or payload word (R12, R46). -/
abbrev Word := BitVec 32
/-- One instruction word, table word or register pair (R40, R47). -/
abbrev DWord := BitVec 64
/-- A mask with one bit per lane: em, a predicate, a mask of faulting lanes (R22, R46, R383). -/
abbrev LaneMask := BitVec 32

/-- A sparse map as plain data: keys strictly rising, no entry equal to what an unlisted key reads as. -/
abbrev NMap (α : Type) := List (Nat × α)

/-- Bit `n` of a lane mask. -/
def laneBit (m : LaneMask) (l : Nat) : Bool := m.getLsbD l

/-- The thirty-two lanes in ascending order (R22). -/
def allLanes : List Nat := List.range 32

end Sys2Proof
end

