-- ==== Sys2Proof/Config.lean ====
section
/-! DEFINITION. What the spec leaves to one implementation, as constants with no body: nothing in Lean can evaluate
them, so whatever is proved holds for every value. The assumption log names each. -/

namespace Sys2Proof.Config

/-- R439: how far the GTC reading of die `d` stands ahead of the device's earliest, used modulo 4 (at most 3 ticks). -/
opaque gtcSkew : Nat → Nat

/-- The value that the implementation returns for a special function (R210): which function (the OP code), the F32 operand
bits. Only its values within R211 are used. -/
opaque sfu : Nat → Word → Word

/-- A byte that the spec leaves undefined (overlapping copies, R135), by a fresh number. -/
opaque freeByte : Nat → Byte

/-- A number that the spec leaves open (a choice among several), by a fresh number. -/
opaque freeChoice : Nat → Nat

/-- R294: the routing from a source core to a destination device, as a choice among the links of the device that were trained at load. -/
opaque linkRoute : Nat → Nat → Nat

/-- R298: the tile whose router stands at a link port, as y × 16 + x on the port's die; the spec places no port. -/
opaque portTile : Nat → Nat

/-- R397: the pool lines that a device held in state A when it died, by its number and a fresh number. -/
opaque deadLines : Nat → Nat → List Nat

/-- R432: the key that ROM holds for key slots 0 to 3. -/
opaque romKey : Nat → List Byte

/-- The hash of (block slot, colour, tag) that indexes the spill filter (R34), used modulo 65,536. -/
opaque spillHash : Nat → Nat → Nat → Nat

/-- Where an image says how a block is placed (R73, R348): the count of cores, 0 for all, and the home shift, by the image's
bytes and the block id. The spec gives the directive and not its place in the image. -/
opaque placeOf : List Byte → Nat → Nat × Nat

/-- The span table of an image (R313): producer, consumer, lanes, and adders as (format, injected span, port). The spec gives
what it records and not its layout. -/
opaque spanTable : List Byte → List (Nat × Nat × Nat × List (Nat × Nat × Nat))

/-- The bytes that the span table of an image takes (R346, detail 3), by the image's bytes. -/
opaque spanTableLen : List Byte → Nat

/-- SHA3-256 of a byte string (R344, R402, R433): a standard the spec names and does not restate. -/
opaque sha3 : List Byte → List Byte

/-- ML-DSA-44 verification: public key, digest, signature (R344, R402). -/
opaque mlDsaVerify : List Byte → List Byte → List Byte → Bool

/-- The ML-DSA-44 signature that the device makes with its identity key over a digest (R433). -/
opaque mlDsaSign : List Byte → List Byte

end Sys2Proof.Config
end

