-- ==== Sys2Proof/Machine/Map.lean ====
section
/-! DEFINITION. Sparse maps and byte memory as sorted lists in one canonical form, and the byte-order, sign and bit
helpers that every meaning uses (R5, R8). -/

namespace Sys2Proof

/-! ## Sparse maps -/

/-- The value listed at a key. -/
def NMap.at? {α : Type} : NMap α → Nat → Option α
  | [], _ => none
  | (j, v) :: m, k => if j = k then some v else NMap.at? m k

/-- The value at a key, or the default of an unlisted key. -/
def NMap.atD {α : Type} (m : NMap α) (k : Nat) (d : α) : α := (m.at? k).getD d

/-- List a value at a key, keeping the keys rising. -/
def NMap.ins {α : Type} : NMap α → Nat → α → NMap α
  | [], k, v => [(k, v)]
  | (j, w) :: m, k, v =>
    if k < j then (k, v) :: (j, w) :: m
    else if k = j then (k, v) :: m
    else (j, w) :: NMap.ins m k v

/-- Unlist a key. -/
def NMap.del {α : Type} (m : NMap α) (k : Nat) : NMap α := m.filter fun e => e.1 != k

/-- Write a value, unlisting the key when the value is the default. -/
def NMap.put {α : Type} [DecidableEq α] (d : α) (m : NMap α) (k : Nat) (v : α) : NMap α :=
  if v = d then m.del k else m.ins k v

/-- The keys in rising order. -/
def NMap.keyList {α : Type} (m : NMap α) : List Nat := m.map Prod.fst

/-- Keys strictly rising from a bound. -/
def NMap.rising {α : Type} : Nat → NMap α → Bool
  | _, [] => true
  | lo, (k, _) :: m => lo ≤ k && NMap.rising (k + 1) m

/-- The canonical form: keys strictly rising, no entry equal to the default. -/
def NMap.canon {α : Type} [DecidableEq α] (d : α) (m : NMap α) : Bool :=
  NMap.rising 0 m && m.all fun e => e.2 ≠ d

/-! ## Memory -/

/-- What an unlisted byte of memory reads as (assumption 9). -/
def Memory.unlisted : Byte := 0

/-- One byte of memory. -/
def Memory.read (m : List Host.Cell) (a : Nat) : Byte := NMap.atD m a Memory.unlisted

/-- Write one byte, keeping the canonical form. -/
def Memory.write (m : List Host.Cell) (a : Nat) (b : Byte) : List Host.Cell := NMap.put Memory.unlisted m a b

/-- The canonical form of memory. -/
def Memory.wf (m : List Host.Cell) : Bool := NMap.canon Memory.unlisted m

/-- `n` bytes from `a` upward. -/
def Memory.readBytes (m : List Host.Cell) (a n : Nat) : List Byte := (List.range n).map fun i => Memory.read m (a + i)

/-- Write bytes from `a` upward. -/
def Memory.writeBytes (m : List Host.Cell) : Nat → List Byte → List Host.Cell
  | _, [] => m
  | a, b :: bs => Memory.writeBytes (Memory.write m a b) (a + 1) bs

/-- Bytes of a byte map (a frame, a typed buffer, a table), unlisted reading zero. -/
def NMap.readBytes (m : NMap Byte) (a n : Nat) : List Byte := (List.range n).map fun i => m.atD (a + i) 0

def NMap.writeBytes (m : NMap Byte) : Nat → List Byte → NMap Byte
  | _, [] => m
  | a, b :: bs => NMap.writeBytes (m.put 0 a b) (a + 1) bs

/-! ## Bytes and numbers, little-endian (R5) -/

/-- The number of a byte string, lowest byte first. -/
def leNat : List Byte → Nat
  | [] => 0
  | b :: bs => b.toNat + 256 * leNat bs

/-- The lowest `n` bytes of a number. -/
def natLe : Nat → Nat → List Byte
  | 0, _ => []
  | n + 1, v => BitVec.ofNat 8 v :: natLe n (v / 256)

/-- R8: sign extension of the low `w` bits of a number. -/
def sextN (v w : Nat) : Int :=
  let u := v % 2 ^ w
  if u < 2 ^ (w - 1) then u else (u : Int) - 2 ^ w

/-- The two's-complement pattern of an integer in `w` bits. -/
def ofIntN (i : Int) (w : Nat) : Nat := (i % (2 ^ w : Int)).toNat

/-- Bits [lo + n − 1 : lo] of a number. -/
def field (v lo n : Nat) : Nat := v / 2 ^ lo % 2 ^ n

/-- Set or clear a bit of a number. -/
def setField (v lo n x : Nat) : Nat :=
  v / 2 ^ (lo + n) * 2 ^ (lo + n) + x % 2 ^ n * 2 ^ lo + v % 2 ^ lo

/-- A 32-bit word of a number. -/
def w32 (n : Nat) : Word := BitVec.ofNat 32 n
/-- A 64-bit word of a number. -/
def w64 (n : Nat) : DWord := BitVec.ofNat 64 n
/-- The pair of a low and a high word (R47). -/
def pair (lo hi : Word) : DWord := BitVec.ofNat 64 (lo.toNat + 2 ^ 32 * hi.toNat)
def loWord (d : DWord) : Word := BitVec.ofNat 32 d.toNat
def hiWord (d : DWord) : Word := BitVec.ofNat 32 (d.toNat / 2 ^ 32)

/-- A boolean as 1 or 0. -/
def bit01 (b : Bool) : Nat := if b then 1 else 0

/-- The mask whose bits satisfy a test. -/
def maskOf (p : Nat → Bool) : LaneMask :=
  BitVec.ofNat 32 (allLanes.foldr (fun l acc => if p l then acc + 2 ^ l else acc) 0)

/-- The lanes set in a mask, ascending. -/
def maskLanes (m : LaneMask) : List Nat := allLanes.filter (laneBit m)

/-- Number of set bits below `w`. -/
def popcount (v w : Nat) : Nat := (List.range w).foldl (fun n i => n + v / 2 ^ i % 2) 0

/-- floor(log2 n) for n > 0; 0 for 0. -/
def log2Floor (n : Nat) : Nat := Nat.log2 n

/-- The first element with the least key. -/
def minBy? {α : Type} (key : α → Nat) : List α → Option α
  | [] => none
  | a :: as =>
    match minBy? key as with
    | none => some a
    | some b => if key a ≤ key b then some a else some b

/-- Insertion into a list ordered by a relation; stable for equal elements. -/
def insertBy {α : Type} (le : α → α → Bool) (a : α) : List α → List α
  | [] => [a]
  | b :: bs => if le a b then a :: b :: bs else b :: insertBy le a bs

/-- Stable insertion sort. -/
def sortBy {α : Type} (le : α → α → Bool) : List α → List α
  | [] => []
  | a :: as => insertBy le a (sortBy le as)

/-- Replace the elements that satisfy a test. -/
def replaceIf {α : Type} (p : α → Bool) (f : α → α) (l : List α) : List α := l.map fun a => if p a then f a else a

/-- Remove duplicates, keeping first occurrences. -/
def dedup {α : Type} [DecidableEq α] : List α → List α
  | [] => []
  | a :: as => a :: (dedup as).filter (· ≠ a)

/-- CRC-32 of IEEE 802.3 (R351): one byte into a running value. -/
def crcByte (crc : Word) (b : Byte) : Word :=
  (List.range 8).foldl
    (fun c _ => if c.getLsbD 0 then (c >>> 1) ^^^ 0xEDB88320#32 else c >>> 1) (crc ^^^ (b.zeroExtend 32))

def crcBytes (crc : Word) (bs : List Byte) : Word := bs.foldl crcByte crc

end Sys2Proof
end

