-- ==== Sys2Proof/Syntax.lean ====
section
/-! DEFINITION. The syntax: operand codes, the seven word formats (R42, R50 to R55), tokens (R12), packets (R293),
and Instr, one constructor per row of spec/opcode_table.json. -/

namespace Sys2Proof

/-! ## Operand codes and small fields -/

/-- The special registers of R46, codes 0xD0 to 0xDE in order. -/
inductive Special where
  | lane | inst | tag | colour | width | grp | core | die | dev | ncores | gtclo | gtchi | slot | team | clus
  deriving DecidableEq, Repr

/-- An operand code that R46 does not reserve. -/
inductive Operand where
  | v (n : Fin 128) | k (n : Fin 64) | inp (n : Fin 8) | sp (x : Special) | p (n : Fin 7) | em | zero
  deriving DecidableEq, Repr

/-- Field C: an operand code, or IMM8 when IC = 1 (R42, R44). -/
inductive Src3 where
  | op (o : Operand) | imm (b : Byte)
  deriving DecidableEq, Repr

/-- The guard (R43): G = 7 always, else predicate pG, inverted by GN. -/
inductive Guard where
  | always | pred (n : Fin 7) (neg : Bool)
  deriving DecidableEq, Repr

/-- The type codes of R48; `h16` is T = 0xE, S16 or N16 by MOD[2]. -/
inductive Ty where
  | b32 | s32 | n32 | s64 | n64 | f32 | f16 | bf16 | e4m3 | e5m2 | e3m2 | e2m3 | e2m1 | rn32 | h16
  deriving DecidableEq, Repr

/-- The scopes of R50 and R277, narrowest first. -/
inductive Scope where
  | grp | team | clus | die | dev | dom | pool | sys
  deriving DecidableEq, Repr

/-- The ORDER field of R50. -/
inductive Order where
  | rlx | acq | rel | ar
  deriving DecidableEq, Repr

/-- The partitions of a core's SRAM (R150). -/
inductive Buf where
  | frame | w | a | c
  deriving DecidableEq, Repr

/-! ## Formats -/

/-- Format F0 (R42). -/
structure F0 where
  fn : BitVec 4
  d : Operand
  a : Operand
  b : Operand
  c : Src3
  g : Guard
  t : Ty
  md : BitVec 3
  x : Byte
  deriving DecidableEq, Repr

/-- Format F1 (R50). -/
structure F1 where
  fn : BitVec 4
  d : Operand
  a : Operand
  b : Operand
  c : Src3
  g : Guard
  scope : Scope
  order : Order
  flag : BitVec 4
  l1pol : BitVec 2
  l2pol : BitVec 2
  deriving DecidableEq, Repr

/-- Format F2 (R51). -/
structure F2 where
  fn : BitVec 4
  dblk : BitVec 12
  slot : BitVec 3
  tag : Operand
  pay : Operand
  g : Guard
  col : Operand
  plen : BitVec 4
  rsc : Scope
  deriving DecidableEq, Repr

/-- Format F3 (R52). -/
structure F3 where
  fn : BitVec 4
  d : Operand
  a : Operand
  b : Operand
  fb : Operand
  g : Guard
  shape : BitVec 4
  spar : BitVec 2
  gangb : Bool
  flag : BitVec 4
  deriving DecidableEq, Repr

/-- Format F4 (R53). -/
structure F4 where
  fn : BitVec 4
  desc : Operand
  a : Operand
  b : Operand
  c : Src3
  g : Guard
  tbuf : BitVec 3
  flag : BitVec 4
  tok : Bool
  texit : BitVec 3
  deriving DecidableEq, Repr

/-- Format F5, the clause header (R55). -/
structure F5 where
  wait : BitVec 12
  set0 : BitVec 4
  v0 : Bool
  set1 : BitVec 4
  v1 : Bool
  len : BitVec 7
  deriving DecidableEq, Repr

/-- Format F6 (R54). -/
structure F6 where
  fn : BitVec 4
  d : Operand
  a : Operand
  b : Operand
  c : Src3
  g : Guard
  code : BitVec 12
  deriving DecidableEq, Repr

/-! ## Tokens and packets -/

/-- What the KIND of R293 says of a token: ordinary, end of stream (R372), handler (R384), notify (R309). -/
inductive TokKind where
  | normal | eos | handler | notify
  deriving DecidableEq, Repr

/-- A token (R12); PLEN is the payload's length minus one. -/
structure Token where
  kind : TokKind
  blk : BitVec 12
  slot : BitVec 3
  colour : BitVec 12
  wlog : BitVec 3
  rscope : Scope
  tag : Word
  payload : List Word
  deriving DecidableEq, Repr

/-- The notify fields of a put block or multicast header (R307, R328). -/
structure Notify where
  blk : BitVec 12
  slot : BitVec 3
  colour : BitVec 12
  wlog : BitVec 3
  tag : Word
  tagadd : Bool
  deriving DecidableEq, Repr

/-- One constituent of a combining add (R333): its sender's request, addend, and whether it expects a reply. -/
structure Constituent where
  dev : Nat
  inc : Byte
  core : Nat
  reqid : Nat
  addend : DWord
  reply : Bool
  deriving DecidableEq, Repr

/-- A multicast message (R320, R330, R331), or one of the packets that it travels as (R293): its group's root and the sender's WSZ, window
offsets with the bytes each item writes, the notify fields, the message's length, the postmark once the root has stamped it, and the
packet's number among how many. -/
structure McMsg where
  group : Nat
  root : Nat
  wsz : Nat
  items : List (Nat × List Byte)
  notify : Option Notify
  len : Nat
  stamped : Bool
  postmark : Word
  part : Nat
  parts : Nat
  deriving DecidableEq, Repr

/-- What a packet carries beside its header (R293). A put or get of more than 256 bytes travels as parts, each with its offset in the
transfer and the transfer's length, which is 0 in the read of one lane; a part of a get's data goes back with its offset. The notify fields
of a put go with the length of the whole put (R309). `unlisted` is a packet of a KIND that the table does not list. -/
inductive PktBody where
  | token (t : Token)
  | read (off bytes total : Nat)
  | write (data : List (Nat × Byte))
  | atomic (fn : BitVec 4) (b c : DWord)
  | put (off total : Nat) (data : List Byte) (notify : Option (Notify × Nat))
  | multicast (m : McMsg)
  | combine (wide : Bool) (cons : List Constituent)
  | query (reqid : Nat)
  | reply (status cause : Byte) (data : List Word)
  | part (off : Nat) (data : List Byte)
  | ack (status cause : Byte) (offset : Nat)
  | receipt (words : List Word) (members : List Byte)
  | deadLetter (record : List DWord)
  | management
  | unlisted (kind : Nat)
  deriving DecidableEq, Repr

/-- A packet (R293). LEN is the length of what the body carries. -/
structure Packet where
  key : BitVec 16
  inc : Byte
  srcDev : Nat
  dstDev : Nat
  srcCore : Nat
  tasid : Nat
  tva : Nat
  reqid : Nat
  body : PktBody
  deriving DecidableEq, Repr

/-- Where a packet arrives: a link port of this device, or a port of a switch (R296, R298), or a mesh or die-edge
guard at the input of a tile's router (R297). -/
inductive Place where
  | devPort (port : Nat) | swPort (sw port : Nat) | guardOf (tile : Nat) (edge : Bool)
  deriving DecidableEq, Repr

/-- What the module flash holds at power-good (R429, R431); bytes are given whole so that signatures can be checked. -/
structure Flash where
  firmware : List Byte
  firmwareSig : List Byte
  gradeRec : List Byte
  mapRec : List Byte
  idRec : List Byte
  clocksOk : Bool
  memoryOk : Bool
  trihorn : BitVec 36
  onolo : BitVec 4
  pool : Nat
  deriving DecidableEq, Repr

/-- A member of a replication tree (R320, R324): its device and its member index. -/
structure TreeMember where
  dev : Nat
  midx : Nat
  deriving DecidableEq, Repr

/-! ## The instructions and events, one constructor per row of spec/opcode_table.json -/

/-- One row of the table of operations and events: an instruction word with its decoded fields, or an event with
the place where it happens and what an outside agent supplies. -/
inductive Instr where
  /-- R17: A token reaches a core's matching store and is checked against the table of cases, then stored or discarded. -/
  | tokenArrival (core idx : Nat)
  /-- R362: An EOS token reaches the sink's counting core and adds one to the count, reporting the sink when the count reaches EOSX. -/
  | eosCount (core idx : Nat)
  /-- R19: The collection deadline of the oldest waiting instance passes and its colour is collected with every waiting instance, up to 32/g. -/
  | collectionDeadline (core slot : Nat)
  /-- R21: A postponed collection is made in the first cycle in which a group slot, registers and a team entry are free. -/
  | postponedCollection (core : Nat)
  /-- R34: The core spills 32 partial instances to the poste restante when matching entries or frame memory run short, and sets their filter bits. -/
  | spill (core : Nat)
  /-- R35: A spill or refill record lands, and the tokens held at the spill port are merged where the record now is. -/
  | spillRecordLanded (core idx : Nat)
  /-- R36: While at least 1,024 matching entries are free, the core refills spilled records, complete ones first. -/
  | refill (core : Nat)
  /-- R30: A group that passes its last word or executes EXIT commits: it waits for flags, validates, passes stores, frees frames and sends its queue. -/
  | blockCommit (core grp : Nat)
  /-- R281: A held token is delivered once the commit's effects are visible at its release scope, widened to the smallest scope that contains the consumer. -/
  | delayedTokenRelease (core idx : Nat)
  /-- R57: A long-latency operation completes, writes its result and decrements its completion flag counter. -/
  | longLatencyCompletion (core grp idx : Nat)
  /-- R111: A renewal reply returns and either confirms a speculative use or installs new data and aborts every group that used the old data. -/
  | speculativeRenewalReply (core idx : Nat)
  /-- R356: A ready group's pass-over count reaches 1,024, and the group is promoted one priority and its count returns to zero. -/
  | passOverPromotion (core grp : Nat)
  /-- R358: After 64 consecutive idle cycles the core gates the clocks of its issue logic and units. -/
  | clockGate (core : Nat)
  /-- R358: A wake event on a gated core starts a restart of 72 cycles. -/
  | coreWake (core : Nat)
  /-- R358: The wake timer fires 72 cycles before the earliest collection deadline of a gated core and starts a restart. -/
  | deadlineWakeTimer (core : Nat)
  /-- R358: The 72-cycle restart ends and issue resumes. -/
  | restartEnd (core : Nat)
  /-- R58: A clause header holds the group until every flag in WAIT_MASK is clear and then issues the clause. -/
  | clauseHeader (f : F5)
  /-- R67: Issues, does nothing and takes one issue slot. -/
  | nop
  /-- R68: A word with a reserved or disallowed encoding is reached at issue and takes the ILLEGAL or PRIVILEGE trap, aborting the block. -/
  | illegalEncoding (word : DWord)
  /-- R368: Queues one token per instance with an active lane, with payload from the leader's registers, for step 5 of commit. -/
  | send (f : F2)
  /-- R368: Queues one token per instance with an active lane, with payload gathered from the instance's lanes. -/
  | sendv (f : F2)
  /-- R369: Queues a token that hands the instance's frame to a new complete consumer instance on the same core. -/
  | sendf (f : F2)
  /-- R371: With an active lane, ends the block and starts its commit; with none, does nothing. -/
  | exit (f : F2)
  /-- R372: Queues one end-of-stream token per instance with an active lane to a sink block. -/
  | eos (f : F2)
  /-- R373: Allocates one colour per instance from the core's reserve, which becomes live at step 3 of commit. -/
  | colalloc (f : F0)
  /-- R374: Frees each distinct named colour and its children after step 5 of commit, discarding their uncollected instances. -/
  | colfree (f : F0)
  /-- R373: Allocates a child colour of width g × 2^k per instance. -/
  | packc (f : F0)
  /-- R373: Allocates a child colour of width g / 2^k per instance. -/
  | unpackc (f : F0)
  /-- R375: Sets the collection timer of a pigeonhole at step 3 of commit. -/
  | bintimTimer (f : F0)
  /-- R375: Sets the priority of a pigeonhole at step 3 of commit. -/
  | bintimPrio (f : F0)
  /-- R376: Checks a request to load a block into a slot and, at commit, unbinds the victim and fetches the record. -/
  | ldblk (f : F0)
  /-- R376: The fetch of a block record into the block store completes and the block becomes resident, releasing its held tokens. -/
  | blockFetchComplete (core slot : Nat)
  /-- R377: Sends configuration commands to a tile at step 5 of commit, on a steward only. -/
  | cfgw (f : F6)
  /-- R378: Holds the group until a named queue's occupancy is at or below a threshold, or 65,536 cycles pass. -/
  | qwait (f : F0)
  /-- R378: A QWAIT reaches 65,536 cycles and releases its group, writing 0. -/
  | qwaitTimeout (core grp : Nat)
  /-- R169: Copies a 32-bit value or a pair. -/
  | mov (f : F0)
  /-- R169: Reads a constant whose index varies per lane. -/
  | movk (f : F0)
  /-- R169: Writes an immediate widened to the type. -/
  | movi (f : F0)
  /-- R169: Replaces one byte of a register with an immediate. -/
  | moviBy (f : F0)
  /-- R170: Integer addition, wrapping or saturating. -/
  | add (f : F0)
  /-- R170: Integer subtraction, wrapping or saturating. -/
  | sub (f : F0)
  /-- R170: Integer multiplication, low part. -/
  | mul (f : F0)
  /-- R170: Integer multiplication, high part. -/
  | mulhi (f : F0)
  /-- R170: Integer multiply-add. -/
  | mad (f : F0)
  /-- R170: Integer multiply-add into the doubled width. -/
  | madw (f : F0)
  /-- R172: Long-latency integer division toward zero on the divide unit. -/
  | div (f : F0)
  /-- R172: Long-latency integer remainder on the divide unit. -/
  | rem (f : F0)
  /-- R170: Integer absolute value. -/
  | abs (f : F0)
  /-- R170: Integer negation. -/
  | neg (f : F0)
  /-- R170: Integer minimum. -/
  | min (f : F0)
  /-- R170: Integer maximum. -/
  | max (f : F0)
  /-- R174: Shift left. -/
  | shl (f : F0)
  /-- R174: Logical shift right. -/
  | shr (f : F0)
  /-- R174: Arithmetic shift right. -/
  | sar (f : F0)
  /-- R174: Rotate left. -/
  | rol (f : F0)
  /-- R175: Bitwise AND. -/
  | and (f : F0)
  /-- R175: Bitwise OR. -/
  | or (f : F0)
  /-- R175: Bitwise exclusive OR. -/
  | xor (f : F0)
  /-- R175: Bitwise NOT. -/
  | not (f : F0)
  /-- R175: Bitwise AND with the complement of b. -/
  | andn (f : F0)
  /-- R176: Bit-field extract. -/
  | bfe (f : F0)
  /-- R176: Bit-field insert. -/
  | bfi (f : F0)
  /-- R177: Bit reversal. -/
  | brev (f : F0)
  /-- R177: Count leading zeros. -/
  | clz (f : F0)
  /-- R177: Count trailing zeros. -/
  | ctz (f : F0)
  /-- R177: Count set bits. -/
  | popc (f : F0)
  /-- R178: Selects A or B by a condition. -/
  | sel (f : F0)
  /-- R178: Integer comparison writing 1 or 0, optionally ANDed with a source. -/
  | cmp (f : F0)
  /-- R179: Forms a 64-bit address from a base and a shifted index. -/
  | lea (f : F0)
  /-- R180: Integer-to-integer conversion. -/
  | cvti (f : F0)
  /-- R181: Predicate AND with optional inversions. -/
  | pand (f : F0)
  /-- R181: Predicate OR with optional inversions. -/
  | por (f : F0)
  /-- R181: Predicate exclusive OR with optional inversions. -/
  | pxor (f : F0)
  /-- R181: Predicate inversion. -/
  | pnot (f : F0)
  /-- R184: Moves a value between lanes of a segment. -/
  | shfl (f : F0)
  /-- R185: Writes whether all, any or uniform participants hold a value. -/
  | vote (f : F0)
  /-- R185: Writes the mask of participants with a nonzero value. -/
  | ballot (f : F0)
  /-- R186: Writes the mask of participants whose key equals the lane's key. -/
  | matchAny (f : F0)
  /-- R186: Writes the participant mask if all keys are equal, else 0. -/
  | matchAll (f : F0)
  /-- R187: Reduction over the participants of a segment. -/
  | redg (f : F0)
  /-- R187: Inclusive or exclusive prefix over the participants of a segment. -/
  | scang (f : F0)
  /-- R188: Reads em, the active mask or the firing mask. -/
  | emrd (f : F0)
  /-- R188: Sets em to em AND the leader's value. -/
  | emwrAnd (f : F0)
  /-- R188: Sets em to the firing mask AND the leader's value. -/
  | emwrSet (f : F0)
  /-- R202: Floating addition, rounded once. -/
  | fadd (f : F0)
  /-- R202: Floating subtraction, rounded once. -/
  | fsub (f : F0)
  /-- R202: Floating multiplication, rounded once. -/
  | fmul (f : F0)
  /-- R202: Fused floating multiply-add. -/
  | ffma (f : F0)
  /-- R203: Floating minimum. -/
  | fmin (f : F0)
  /-- R203: Floating maximum. -/
  | fmax (f : F0)
  /-- R203: Clears the sign bit. -/
  | fabs (f : F0)
  /-- R203: Inverts the sign bit. -/
  | fneg (f : F0)
  /-- R204: Floating comparison. -/
  | fcmp (f : F0)
  /-- R205: Writes a one-hot class mask. -/
  | fclass (f : F0)
  /-- R206: Rounds to an integral value of the same format. -/
  | frnd (f : F0)
  /-- R207: Converts between floating and integer types. -/
  | fcvt (f : F0)
  /-- R202: Correctly rounded floating division. -/
  | fdiv (f : F0)
  /-- R202: Correctly rounded square root. -/
  | fsqrt (f : F0)
  /-- R208: Packed addition of two 16-bit halves. -/
  | hadd2 (f : F0)
  /-- R208: Packed multiplication of two 16-bit halves. -/
  | hmul2 (f : F0)
  /-- R208: Packed fused multiply-add of two 16-bit halves. -/
  | hfma2 (f : F0)
  /-- R209: Reads the floating status word. -/
  | sflgRd (f : F0)
  /-- R209: Reads and then clears the floating status word. -/
  | sflgRdc (f : F0)
  /-- R209: ORs bits into the floating status word. -/
  | sflgSet (f : F0)
  /-- R209: Clears bits of the floating status word. -/
  | sflgClr (f : F0)
  /-- R211: Reciprocal on the special-function unit. -/
  | rcp (f : F0)
  /-- R211: Reciprocal square root on the special-function unit. -/
  | rsq (f : F0)
  /-- R211: Base-2 exponential on the special-function unit. -/
  | exp2 (f : F0)
  /-- R211: Base-2 logarithm on the special-function unit. -/
  | log2 (f : F0)
  /-- R211: Sine on the special-function unit. -/
  | sin (f : F0)
  /-- R211: Cosine on the special-function unit. -/
  | cos (f : F0)
  /-- R211: Hyperbolic tangent on the special-function unit. -/
  | tanh (f : F0)
  /-- R211: Logistic sigmoid on the special-function unit. -/
  | sigm (f : F0)
  /-- R215: Evaluates a bound activation-table version as a segmented quadratic. -/
  | teval (f : F0)
  /-- R216: Issues a copy of a table image from W into the non-current version of a table. -/
  | tload (f : F0)
  /-- R216: A TLOAD copy begins once no group other than the issuer is bound to the target version. -/
  | tloadCopy (core table : Nat)
  /-- R217: Makes a table's other version current at step 3 of commit. -/
  | tswap (f : F0)
  /-- R234: Quantises F32 values by a block scale into packed narrow codes. -/
  | qnt (f : F0)
  /-- R235: Converts packed narrow codes times a scale back to F32. -/
  | dqnt (f : F0)
  /-- R233: Computes the smallest BS20 scale that avoids overflow of a narrow type. -/
  | scale (f : F0)
  /-- R236: Packs three BS20 scales into a 64-bit word. -/
  | bspack (f : F0)
  /-- R236: Extracts one BS20 scale from a scale word. -/
  | bsunpack (f : F0)
  /-- R237: Converts one packed narrow code to F32. -/
  | cvtnUp (f : F0)
  /-- R237: Rounds an F32 into one code of a packed register. -/
  | cvtnDn (f : F0)
  /-- R237: Rearranges sixteen byte-form six-bit codes into the dense form. -/
  | cvtnDense (f : F0)
  /-- R237: Rearranges the dense six-bit form into byte form. -/
  | cvtnBytes (f : F0)
  /-- R238: Keeps the N largest of 64 codes and writes them with a mask. -/
  | spcmp (f : F0)
  /-- R239: Expands kept codes and a mask back to 64 codes. -/
  | spexp (f : F0)
  /-- R240: Converts an S32 to an RN32 word, tainting out-of-range values. -/
  | rncv (f : F0)
  /-- R240: Converts an RN32 word to its integer by CRT, or a sentinel if tainted. -/
  | rncrt (f : F0)
  /-- R241: Residue addition channel by channel. -/
  | rnadd (f : F0)
  /-- R241: Residue subtraction channel by channel. -/
  | rnsub (f : F0)
  /-- R241: Residue multiplication channel by channel. -/
  | rnmul (f : F0)
  /-- R241: Residue multiply-add channel by channel. -/
  | rnmad (f : F0)
  /-- R241: Residue negation channel by channel. -/
  | rnneg (f : F0)
  /-- R242: Converts an RN32 word times a scale to F32. -/
  | rnscl (f : F0)
  /-- R253: Queues a dense matrix multiply-accumulate into a C tile. -/
  | mma (f : F3)
  /-- R256: Queues a matrix multiply-accumulate with rows gathered through the latch. -/
  | gmma (f : F3)
  /-- R257: Sets the team's gang COUNT at step 3 of commit. -/
  | gang (f : F3)
  /-- R262: Builds and checks a format-block word. -/
  | fmtb (f : F3)
  /-- R256: Loads the group's gather latch with row indices. -/
  | gthr (f : F3)
  /-- R255: Queues a matrix multiply-accumulate with a sparse B operand. -/
  | spmma (f : F3)
  /-- R254: Queues an INT8 residue matrix multiply-accumulate. -/
  | rnmma (f : F3)
  /-- R263: Zeroes a C tile. -/
  | accz (f : F3)
  /-- R264: Loads a 16 × 16 fragment of a C tile into lane registers. -/
  | accld (f : F3)
  /-- R264: Stores lane registers into a fragment of a C tile. -/
  | accst (f : F3)
  /-- R264: Adds lane registers into a C fragment as F32. -/
  | accstAdd (f : F3)
  /-- R264: Adds lane registers into a C fragment as RN32. -/
  | accstRnadd (f : F3)
  /-- R265: Converts every RN32 word of a tile to F32 by a scale. -/
  | acccvRn (f : F3)
  /-- R265: Multiplies every F32 word of a tile by a scale. -/
  | acccvSc (f : F3)
  /-- R258: An open rendezvous latch reaches 1,024 cycles and fails, queueing its members one by one. -/
  | gangRendezvousTimeout (core : Nat)
  /-- R160: Loads from the instance's frame. -/
  | ldf (f : F1)
  /-- R160: Stores into the instance's frame under line lock and undo image. -/
  | stf (f : F1)
  /-- R160: Long-latency load from the W buffer. -/
  | ldw (f : F1)
  /-- R160: Long-latency load from the A buffer. -/
  | lda (f : F1)
  /-- R160: Stores into the core's A buffer. -/
  | sta (f : F1)
  /-- R163: Buffers a store into a cluster neighbour's A buffer, passed at step 3 of commit. -/
  | staNb (f : F1)
  /-- R163: A deposit reaches its target core and is written once its line is present and unlocked. -/
  | neighbourDeposit (core idx : Nat)
  /-- R160: Long-latency load from the C buffer. -/
  | ldc (f : F1)
  /-- R160: Stores into the C buffer. -/
  | stc (f : F1)
  /-- R164: Reads presence bits of typed-buffer lines without waiting. -/
  | pres (f : F1)
  /-- R165: Atomic read-modify-write of A-buffer words, returning the old value. -/
  | atoma (f : F1)
  /-- R158: A presence bit is set and parked requests and groups on that line proceed. -/
  | presenceSetResume (core : Nat) (buf : Buf) (line : Nat)
  /-- R286: Loads global memory through L1 and L2 under leases. -/
  | ldg (f : F1)
  /-- R287: Writes bytes into the store buffer for performance after commit. -/
  | stg (f : F1)
  /-- R288: Performs an atomic read at the line's owner. -/
  | fetch (f : F1)
  /-- R289: Buffers an atomic read-modify-write performed at the owner after commit, with optional return tokens. -/
  | atom (f : F1)
  /-- R290: Buffers a reduction performed at the owner after commit. -/
  | red (f : F1)
  /-- R291: Orders the block's accesses at a scope. -/
  | fence (f : F1)
  /-- R292: Makes the commit an arrival on a team barrier channel and holds its tokens. -/
  | bar (f : F1)
  /-- R292: Makes the commit an arrival on a cluster barrier channel and holds its tokens. -/
  | cbar (f : F1)
  /-- R292: An arrival is counted once the commit's effects are visible at team or clus. -/
  | barrierArrival (core idx : Nat)
  /-- R125: Hint that brings a line into L1 under a lease. -/
  | cprefL1 (f : F1)
  /-- R125: Hint that brings a line into L2. -/
  | cprefL2 (f : F1)
  /-- R125: Hint that gathers all 32 permits and the data. -/
  | cprefEx (f : F1)
  /-- R126: Drops the core's L1 copy of a line. -/
  | cinvLine (f : F1)
  /-- R126: Drops every line of the core's L1. -/
  | cinvAll (f : F1)
  /-- R127: Returns permits and writes back a line after step 3 of commit. -/
  | cflushLine (f : F1)
  /-- R127: Flushes every pool and host line of the die's slices after commit. -/
  | cflushDie (f : F1)
  /-- R128: Sets the group's lease length. -/
  | lset (f : F1)
  /-- R136: Deferred memory-to-memory copy. -/
  | cpyMm (f : F4)
  /-- R136: Immediate copy from memory into the W or A buffer. -/
  | cpyIn (f : F4)
  /-- R136: Deferred copy from the A or C buffer to memory. -/
  | cpyOut (f : F4)
  /-- R137: Immediate tiled copy from memory into a buffer. -/
  | cpytIn (f : F4)
  /-- R137: Deferred tiled copy from a buffer to memory. -/
  | cpytOut (f : F4)
  /-- R138: Immediate gather of one element per lane into a buffer. -/
  | cpygIn (f : F4)
  /-- R138: Deferred scatter of one element per lane to memory. -/
  | cpysOut (f : F4)
  /-- R139: Deferred fill of memory with a pattern. -/
  | cpyfMm (f : F4)
  /-- R139: Immediate fill of a buffer with a pattern. -/
  | cpyfIn (f : F4)
  /-- R140: Deferred copy between memory and the pool. -/
  | cpypMm (f : F4)
  /-- R140: Immediate copy from the pool into a buffer. -/
  | cpypIn (f : F4)
  /-- R140: Deferred copy from a buffer into the pool. -/
  | cpypOut (f : F4)
  /-- R141: Immediate copy of words arriving on a span into the A buffer. -/
  | cpyspIn (f : F4)
  /-- R141: Deferred push of A-buffer bytes onto a span. -/
  | cpyspOut (f : F4)
  /-- R141: Deferred push of C-buffer bytes onto a span. -/
  | cpyspOutc (f : F4)
  /-- R129: The Courier engine begins a queued command when fewer than four are in progress. -/
  | courierCommandStart (core : Nat)
  /-- R146: A Courier command ends, clears its flag or sends its completion token with status. -/
  | courierCommandComplete (core idx : Nat)
  /-- R123: A request reaches a Courier-owned line, and the engine writes and releases that line next. -/
  | courierRecall (core line : Nat)
  /-- R306: Queues remote loads that leave at commit and reply by token. -/
  | rld (f : F1)
  /-- R306: Queues remote stores that leave at commit through the write-combining buffer. -/
  | rst (f : F1)
  /-- R306: Queues remote atomics performed at the target owner. -/
  | ratom (f : F1)
  /-- R308: Queues a bulk put to a peer, with optional notify token. -/
  | rput (f : F1)
  /-- R310: Queues a bulk get from a peer into local memory. -/
  | rget (f : F1)
  /-- R315: Pushes lane data onto a span at step 5 of commit. -/
  | spw (f : F1)
  /-- R330: Sends one multicast message of items per instance to a group. -/
  | mcst (f : F1)
  /-- R331: Sends a bulk multicast message through the Courier engine. -/
  | mcput (f : F1)
  /-- R336: Combining fetch-and-add to a peer word with a reply token. -/
  | cfaa (f : F1)
  /-- R336: Combining add to a peer word with no reply. -/
  | cfaan (f : F1)
  /-- R402: Aborts the block with a TRAP fault at issue. -/
  | trap (f : F6)
  /-- R402: Acts as a breakpoint trap when BKEN is set, else as NOP. -/
  | bkpt (f : F6)
  /-- R387: Claims a parked fault and makes its collection ready at commit. -/
  | resume (f : F6)
  /-- R387: Resumes a trapped collection, skipping the trapping word once. -/
  | resumePast (f : F6)
  /-- R387: Claims a parked fault and discards its collection at commit. -/
  | abort (f : F6)
  /-- R387: Ends the region at step 3 of commit. -/
  | abortRegion (f : F6)
  /-- R402: Reads a system register into lanes at issue. -/
  | srrd (f : F6)
  /-- R402: Writes a system register at step 3 of commit. -/
  | srwr (f : F6)
  /-- R402: Reads one word of a parked fault record. -/
  | fltrdWord (f : F6)
  /-- R402: Reads the FID of the oldest unclaimed parked fault on the core. -/
  | fltrdNext (f : F6)
  /-- R402: Quenches the region at commit and ends it with HALTED at quiescence. -/
  | halt (f : F6)
  /-- R402: Asks the Clolas engine at commit to verify a signature, answering by token. -/
  | sigchk (f : F6)
  /-- R402: Installs a key signed by slot 0 into a key slot at commit. -/
  | keyset (f : F6)
  /-- R392: Asks the steward to save and release a region. -/
  | preemptSave (f : F6)
  /-- R395: Asks the steward to restore a saved region. -/
  | preemptRestore (f : F6)
  /-- R403: A SIGCHK or KEYSET verification completes and its token is sent with status. -/
  | clolasVerifyDone (idx : Nat)
  /-- R106: An L1 miss or renewal reaches its slice, which returns data with a lease, EXP and VER. -/
  | leaseRequest (die pos idx : Nat)
  /-- R273: A committed store-buffer line reaches its slice and is lined up behind outstanding leases. -/
  | storeLineArrival (idx : Nat)
  /-- R108: The slice's GTC reaches EXPMAX and a lined-up write is performed with a new VER. -/
  | linedUpWritePerform (die pos idx : Nat)
  /-- R274: The owner applies an atomic or reduction, one per mesh cycle in arrival order. -/
  | atomicAtOwner (die pos idx : Nat)
  /-- R275: The owner performs an atomic read behind lined-up writes. -/
  | fetchAtOwner (die pos idx : Nat)
  /-- R114: An agent's read-permit request reaches the home, which sends or forwards one permit with data. -/
  | permitGets (die line : Nat)
  /-- R114: An agent's write request reaches the home, which sends free permits and recalls the rest. -/
  | permitGetx (die line : Nat)
  /-- R114: An agent returns permits, with data if it holds the owner permit. -/
  | permitPut (die line : Nat)
  /-- R114: A DATA or RETRY reply reaches the requesting agent. -/
  | permitReply (die line : Nat)
  /-- R115: A permit request is not satisfied within 500 ns and fails. -/
  | permitRequestTimeout (die line : Nat)
  /-- R116: An agent's persistent request enters the home's persistent table. -/
  | persistentRequest (die line : Nat)
  /-- R116: The home activates the next persistent entry and tells every agent of the line. -/
  | persistentActivation (die pos : Nat)
  /-- R116: The requester ends its persistent request after its one access. -/
  | deactivate (die line : Nat)
  /-- R117: The pool device snoops a line and the device-level home recalls, waits, writes back and answers. -/
  | backInvalidationSnoop (line : Nat) (toI : Bool)
  /-- R121: The host snoops one 64-byte half and the device-level home recalls, writes back and answers. -/
  | hostSnoop (line : Nat) (high inval : Bool)
  /-- R90: A free walker takes a queued TLB miss and walks the page tables. -/
  | pageWalk (die : Nat)
  /-- R94: A walk completes and answers the misses it covers with a leaf or a failure. -/
  | walkResult (die idx : Nat)
  /-- R97: A request arriving over the fabric is translated at the target die's ingress MMU. -/
  | ingressTranslation (die idx : Nat)
  /-- R99: A write of GO to TLBINV_CTL starts a device-wide invalidation of an ASID's pages. -/
  | tlbinvGo (die : Nat) (value : DWord)
  /-- R99: The invalidation's waits end and DONE is set. -/
  | tlbinvDone (die : Nat)
  /-- R296: A packet reaches a switch or device link port and is checked for key and incarnation. -/
  | linkPacketArrival (place : Place) (pkt : Packet)
  /-- R299: A dead-letter notice reaches the sending device, which writes the record and sends the handler token. -/
  | deadLetterNotice (pkt : Packet)
  /-- R306: A remote read, write, atomic or put is performed at the target owner. -/
  | remoteRequestAtTarget (die idx : Nat)
  /-- R305: A reply or acknowledgement returns and, when all parts are in, the reply token is sent. -/
  | remoteReply (pkt : Packet)
  /-- R304: No reply comes within 50 µs and the request completes with TIMEOUT. -/
  | remoteTimeout (reqid : Nat)
  /-- R311: A write-combining entry has waited 256 ticks and is sent as one write. -/
  | writeCombineDrain (core idx : Nat)
  /-- R314: Span words land in the consumer's landing buffer in push order. -/
  | spanWordArrival (span : Nat)
  /-- R314: A credit returns to the producer as CPYSP.IN takes 128 bytes. -/
  | spanCreditReturn (span : Nat)
  /-- R316: A pier adder adds word n of both streams once both are present. -/
  | pierAdderSum (span adder : Nat)
  /-- R294: A link is declared failed after retransmission cannot deliver. -/
  | linkFailure (link : Nat)
  /-- R320: A multicast message reaches its root, takes a postmark and goes down the tree. -/
  | multicastStamp (sw : Nat) (pkt : Packet)
  /-- R321: A message reaches a member and is applied, held, discarded or refused by postmark. -/
  | multicastArrival (pkt : Packet)
  /-- R322: A group's gap timer reaches 100 µs and the member marks the group BROKEN. -/
  | gapTimerExpiry (group : Nat)
  /-- R324: A member's answer is merged at a switch on the way up the tree. -/
  | memberAnswer (sw group : Nat) (postmark : Word) (midx : Nat) (status : Byte)
  /-- R324: A member gives no answer within 50 µs of stamping and counts as TIMEOUT. -/
  | memberAnswerTimeout (sw group : Nat) (postmark : Word)
  /-- R324: The root's receipt reaches the sender and is delivered per instance. -/
  | returnReceipt (pkt : Packet)
  /-- R334: A combining request reaches a switch and is merged with a waiting one, taking a decombining record. -/
  | combiningMerge (sw port : Nat) (pkt : Packet)
  /-- R333: The window of a combined request's oldest input passes and the request goes on. -/
  | combiningWindowExpiry (sw idx : Nat)
  /-- R334: A reply reaches a held record and is split among its inputs. -/
  | decombineReply (sw : Nat) (pkt : Packet)
  /-- R334: An uncorrectable error discards a decombining record. -/
  | recordError (sw idx : Nat)
  /-- R334: A switch reset forwards waiting requests uncombined and discards every record. -/
  | switchReset (sw : Nat)
  /-- R337: A CFAA lane without a reply after 4 µs queries the owner's reply log. -/
  | cfaaQuery (reqid : Nat)
  /-- R337: The owner die answers APPLIED or NOT_SEEN from its reply log. -/
  | replyLogQuery (die : Nat) (pkt : Packet)
  /-- R337: A reply-log entry ages out after 64 µs and held requests proceed. -/
  | replyLogAging (die : Nat)
  /-- R397: A device sends a heartbeat to its leaf switches every 1 µs. -/
  | heartbeat (sw dev : Nat)
  /-- R397: A leaf switch hears no heartbeat for 50 µs and declares the device dead. -/
  | heartbeatTimeout (sw dev : Nat)
  /-- R397: A device learns a peer is dead, advances its incarnation entry and completes requests UNREACHABLE. -/
  | deathNotice (dev : Nat)
  /-- R398: A device learns it was declared dead and ends every region and takes a new incarnation. -/
  | declaredDead (inc : Byte)
  /-- R296: The fabric manager sends a joining device the incarnations of the domain. -/
  | incarnationExchange (own : Byte) (peers : List (Nat × Byte))
  /-- R296: A management packet programs a port's membership table. -/
  | membershipTableProgram (place : Place) (keys : List (BitVec 16))
  /-- R396: A die's Onolo link fails and its pool regions are marked lost on every die. -/
  | poolLinkFailure (die : Nat)
  /-- R340: A write to a token port posts a launch token into the launch queue or is rejected. -/
  | tokenPost (off : Nat) (bytes : List (Nat × Byte))
  /-- R345: The steward takes a LAUNCH token, verifies, checks, places and configures the graph. -/
  | launch
  /-- R361: The steward takes a RECONFIG token, checks the new record and awaits quiescence. -/
  | reconfig
  /-- R361: At quiescence the old region ends and the new region is armed on its tiles. -/
  | reconfigSwap (region : Nat)
  /-- R351: A BEGIN command discards the shadow and starts a new configuration stream. -/
  | beginStream (tile : Nat)
  /-- R350: A configuration command writes a field of the tile's shadow. -/
  | configFieldWrite (tile : Nat)
  /-- R351: The second CRC piece ends the stream and the tile acknowledges ACCEPT or a rejection. -/
  | crcEnd (tile : Nat)
  /-- R353: Marks an accepted shadow committed. -/
  | commitStream (tile : Nat)
  /-- R353: Discards the tile's shadow. -/
  | rollbackStream (tile : Nat)
  /-- R353: Makes a committed shadow live and fetches every block record. -/
  | armTile (tile : Nat)
  /-- R360: Every 1,024 ticks the keystone tree sums idleness and token counts of the region. -/
  | keystoneSweep (region : Nat)
  /-- R363: Once every sink has reported and the region is quiescent, COMPLETE is written. -/
  | regionComplete (region : Nat)
  /-- R364: A rate-limiter window of RL_WINDOW × 64 cycles ends and admission restarts. -/
  | rateLimitWindow (core : Nat)
  /-- R373: The steward refills a core's reserve of free colour ids when fewer than 16 remain. -/
  | colourReserveRefill (core : Nat) (ids : List Nat)
  /-- R391: A region ends: issue stops, queues are discarded, and ABORTED or COMPLETE is written at quiescence. -/
  | regionEnd (region : Nat)
  /-- R392: A group still uncommitted 20 µs after QUENCH is aborted. -/
  | quenchTimeout (core grp : Nat)
  /-- R392: Once its marker has passed and the drain is complete, a core writes its save-area section. -/
  | coreSave (core : Nat)
  /-- R319: A write clears MEMBER of a multicast group entry. -/
  | mcgrpRevoke (value : DWord)
  /-- R400: A write zeroes a pool line and clears its poison. -/
  | poisonClr (value : DWord)
  /-- R400: A write clears the lost mark of a pool region. -/
  | poolRegionClear (value : DWord)
  /-- R402: A write to a system or management register with no row of its own sets its writable fields. -/
  | registerWrite (off : Nat) (value : DWord)
  /-- R429: Power-good and reset start bring-up through ROM, firmware, records, clocks, memory and links to READY. -/
  | powerGoodReset (flash : Flash)
  /-- R437: Writing the key ends every region, advances the incarnation and restarts bring-up. -/
  | resetctl (value : Word)
  /-- R433: A GO write asks the Clolas root for a signed quote. -/
  | attCtlGo (value : DWord)
  /-- R433: The quote is written and ATT_STAT.DONE is set. -/
  | quoteDone
  /-- R435: The throttle input or a die above 105 °C halves every arithmetic clock. -/
  | throttleAssert
  /-- R435: The condition has been clear for 1 ms and full clock returns. -/
  | throttleClear
  /-- R428: A host access through the CXL.mem decoder is performed at the line's home slice. -/
  | hostCxlMemAccess (addr : Nat) (bytes : List Byte)
  /-- R392: The steward of the target region takes a pre-emption save or restore request and starts the marker and quench phases or the restore. -/
  | preemptRequest (idx : Nat)
  /-- R392: A QUENCH reaches a core, which stops making collections and starts the 20 µs count after which uncommitted groups are aborted. -/
  | quench (core : Nat)
  /-- R258: The pre-emption marker reaches a port or core input, so that later region tokens go to the poste restante and an open rendezvous latch fails. -/
  | preemptionMarker (core port : Nat)
  /-- R396: A failed Onolo link of a die retrains and is shown trained again, after which lost regions may be cleared. -/
  | poolLinkRetrain (die : Nat)
  /-- R333: A key-0 management packet from the fabric manager sets a switch's CEN and CWIN combining controls. -/
  | combiningControlProgram (sw : Nat) (cen : Bool) (cwin : BitVec 10)
  /-- R320: The fabric manager programs a multicast group's root, replication tree and member indices into the switches. -/
  | replicationTreeProgram (sw group : Nat) (next : Word) (members : List TreeMember)
  deriving DecidableEq, Repr

end Sys2Proof
end

