-- ==== Sys2Proof/Machine/State.lean ====
section
/-! DEFINITION. The state of one PX4 device and the Trihorn switches it meets, as plain data, the reasons a step can
stop, and the state after reset. Maps are sparse lists (NMap); the default an unlisted key reads as is given with each
accessor. -/

namespace Sys2Proof.Machine

/-! ## Reasons to stop -/

/-- Why the machine stops with a fault. A fault of the PX4 itself (R380) is no stop: it is a next state. -/
inductive Fault where
  /-- Raised by every meaning of an instruction word when no group stands in the issuing slot. `step` never issues so.
  Safe: the machine stops where the hardware has no such event. -/
  | noIssuer
  deriving DecidableEq, Repr

/-- Why the model gives no next state. -/
inductive Refusal where
  /-- Raised by an arm of `exec` that has no meaning yet. Safe. -/
  | notModelled (mnemonic : String)
  deriving DecidableEq, Repr

/-! ## Block faults -/

/-- The classes of R382. -/
inductive Cls where
  | trap | breakpoint | illegal | privilege | translation | poolRegion | localAccess | globalAccess | remoteAccess
  | matrixOperand | courierOperand | courier | token | sbufOverflow | linePoisoned | memError | refill | spillFull
  | stalled | region | spanBroken | mcGap | deadLetter | deviceDead | poolLink | handler | halted | mcStatus
  deriving DecidableEq, Repr

/-- A block fault: class, cause, translation level, faulting lanes, address of the lowest, and DETAIL (R383). -/
structure Flt where
  cls : Cls
  cause : Nat := 0
  level : Nat := 0
  lanes : LaneMask := 0
  addr : Nat := 0
  detail : Nat := 0
  deriving DecidableEq, Repr

/-! ## Groups -/

/-- One 32-bit register result of a long-latency operation, for one lane (R57). -/
structure RegWrite where
  reg : Operand
  lane : Nat
  val : Word
  deriving DecidableEq, Repr

/-- One lane's access of a load that is not complete: place (canonical physical address, or buffer offset), size, and
the bytes once read; of a memory access also the cache class, L2POL (R105), and the virtual address. -/
structure Access where
  lane : Nat
  addr : Nat
  size : Nat
  cache : Nat
  pol : Nat
  va : Nat
  got : Option (List Byte)
  deriving DecidableEq, Repr

/-- What a long-latency operation (R57) waits for; a load keeps its L1 policy and lease length (R105, R106). -/
inductive OpKind where
  | result | tload (table : Nat) | bufLoad (b : Buf) | atoma (fn : BitVec 4) (bc : List (Word × Word))
  | load (noAlloc lru : Bool) (ll : Nat) | fetch | matrix
  | courier
  deriving DecidableEq, Repr

/-- An outstanding long-latency operation of a group (R57). `num` numbers the operations of a core in issue order; a dead
operation was issued before an abort, and its results are discarded (R59); `flt` is the fault it met, while an earlier operation
of the block can still fault (R100). -/
structure LongOp where
  num : Nat
  flag : Option Nat
  word : Nat
  kind : OpKind
  ready : Bool
  dst : Operand
  size : BitVec 4
  accs : List Access
  overlay : List (Nat × Byte)
  writes : List RegWrite
  fl : Word
  dead : Bool
  flt : Option Flt
  deriving DecidableEq, Repr

/-- The undo image of one frame or typed-buffer line, which is also the group's lock of the line (R27, R29, R268). -/
structure UndoLine where
  buf : Buf
  line : Nat
  image : List Byte
  deriving DecidableEq, Repr

/-- One atomic or reduction on a 4- or 8-byte word of a line (R272, R289); `slot` names the entry of the commit's
return list that takes the old value. -/
structure AtomOp where
  addr : Nat
  fn : BitVec 4
  b : DWord
  c : DWord
  word : Nat
  ret : Option (Nat × Nat)
  deriving DecidableEq, Repr

/-- One global line of a store buffer (R27, R272): bytes stored, then the operations in order; `lo` and `hi` are the
first and last fence epochs that placed an effect in it (R280); `marks` names, for each word that did, its lanes and
the lowest address (R101); `pol` is the L2POL that places the line (R105). -/
structure SbLine where
  line : Nat
  bytes : List (Nat × Byte)
  ops : List AtomOp
  lo : Nat
  hi : Nat
  marks : List (Nat × LaneMask × Nat)
  uncached : Bool
  pol : Nat
  deriving DecidableEq, Repr

/-- The bytes of one target line of a cluster neighbour's A buffer (R163). -/
structure Deposit where
  tile : Nat
  line : Nat
  bytes : List (Nat × Byte)
  epoch : Nat
  commit : Nat
  num : Option Nat
  deriving DecidableEq, Repr

/-- A speculative use of an expired L1 line (R111), with the number of the renewal that it waits for, and the load that used it: its
operation number, word, lanes on the line and their lowest lane's address (R285). -/
structure SpecUse where
  line : Nat
  ver : Word
  num : Nat
  confirmed : Bool
  op : Nat
  word : Nat
  lanes : LaneMask
  addr : Nat
  deriving DecidableEq, Repr

/-- The reply, receipt or completion token a request owes to one instance (R305, R324, R336, R403). -/
structure TokenDue where
  blk : BitVec 12
  slot : BitVec 3
  colour : BitVec 12
  wlog : BitVec 3
  rscope : Scope
  tag : Word
  deriving DecidableEq, Repr

/-- One lane of a remote operator: lane within the instance, peer leaf resolved to device, ASID and address (R306). -/
structure RemLane where
  pos : Nat
  dev : Nat
  tasid : Nat
  tva : Nat
  va : Nat
  b : DWord
  c : DWord
  deriving DecidableEq, Repr

/-- The kinds of per-lane remote operator (R306, R336). -/
inductive RemKind where
  | rld | rst | ratom | cfaa | cfaan
  deriving DecidableEq, Repr

/-- The forms of Courier command (R131, R308, R310, R331). -/
inductive CopyForm where
  | mm | inn | out | tin | tout | gin | sout | fmm | fin | pmm | pin | pout | spin | spout | spoutc | rput | rget | mcput
  deriving DecidableEq, Repr

/-- A Courier command (R129): the leader's operands, per-lane elements, the firing stamp of its group (R143), the leader
lane, and what it has done: destination lines written, bytes taken from a span, whether it repeats the span's landing record (R141), the
source lines read so far, each whole (R123, R143), and whether the present part of a bulk command has left. A put or get goes part by part,
one for each 4 KiB page of its target (R95): `target` is the target's first address, `base` and `part` the offset and length of the present
part. `urgent` lists destination lines that were recalled and are written next (R123). -/
structure CopyCmd where
  num : Nat
  form : CopyForm
  buf : Buf
  grp : Nat
  bid : Nat
  bslot : Nat
  commit : Nat
  word : Nat
  colour : Nat
  asid : Nat
  priv : Bool
  dst : Nat
  src : Nat
  off : Nat
  len : Nat
  rows : Nat
  rowb : Nat
  pitch : Int
  esize : Nat
  lanes : List (Nat × Int)
  pattern : Word
  span : Nat
  rel : Option Scope
  due : List TokenDue
  tok : Bool
  notify : Option Notify
  remote : Option (Nat × Nat × Nat)
  mc : Option (Nat × Nat)
  running : Bool
  doneLines : List Nat
  status : Byte
  cause : Byte
  stamp : Nat
  lead : Nat
  moved : Nat
  again : Bool
  got : NMap (List Byte)
  sent : Bool
  target : Nat
  base : Nat
  part : Nat
  urgent : List Nat
  deriving DecidableEq, Repr

/-- One descriptor of a send queue (R28), in program order; a remote word has one, with the token and the lanes of each instance (R300); `lateTok` is the completion token of a deferred copy of no lane (R146);
`colFree` stands for the free of colours after step 5 (R374). -/
inductive SendItem where
  | token (t : Token)
  | frameTok (t : Token) (entry : Nat)
  | atomRet (ret : Nat) (t : TokenDue) (words : Nat)
  | copyTok (opnum : Nat) (t : TokenDue)
  | lateTok (t : TokenDue) (payload : List Word)
  | copy (c : CopyCmd)
  | flush (lines : List Nat) (die : Bool) (epoch : Nat)
  | remote (k : RemKind) (fn : BitVec 4) (size word : Nat) (rel : Option Scope) (parts : List (Option TokenDue × List RemLane))
  | mcst (rel : Option Scope) (due : Option TokenDue) (msg : Option McMsg)
  | spw (span : Nat) (rel : Option Scope) (words : List Word)
  | cfgw (cmds : List (Nat × Word))
  | halt
  | sigchk (due : List TokenDue) (key data sig len : Nat)
  | keyset (due : List TokenDue) (slot keyRec : Nat)
  | preempt (due : List TokenDue) (restore : Bool) (a pa : Nat)
  | colFree (ids : List Nat)
  deriving DecidableEq, Repr

/-- A change that an instruction of the block makes at step 3 of commit (R33), or after step 5 (COLFREE). -/
inductive Deferred where
  | colAlloc (id wlog : Nat) (parent : Option Nat)
  | colFree (ids : List Nat)
  | gang (count : Nat)
  | tswap (table : Nat)
  | timer (slot : Nat) (value : Nat)
  | prio (slot : Nat) (value : Nat)
  | ldblk (slot bid : Nat)
  | sysWrite (code : BitVec 12) (value : DWord)
  | resume (fid : Nat) (past : Bool)
  | abort (fid : Nat)
  | abortRegion
  deriving DecidableEq, Repr

/-- Where a group stands (R354): able to issue, at a clause header or unit or queue (it tries its word again), parked on
an absent line, held by QWAIT since a cycle, or past its last word. -/
inductive GStatus where
  | ready | waiting | parked (b : Buf) (line : Nat) | qwait (since : Nat) | committing
  deriving DecidableEq, Repr

/-- A collected group (R21, R22). `commit` is the number of its commit while it keeps its slot after step 4, as long as step 5 waits
for a Courier entry or for credits (R129, R315). `base` is the priority it fired with (R356); `place` is the place of a store that waits in
the order of its lines: its issue number, buffer and lines (R157, R158). `areaWait` is the pc of a word that the full area holds, once its record is written
(R28). -/
structure Group where
  bslot : Nat
  bid : Nat
  colour : Nat
  wlog : Nat
  insts : List Nat
  tags : List Word
  em : LaneMask
  emFire : LaneMask
  team : Nat
  prio : Nat
  passOver : Nat
  stamp : Nat
  pc : Nat
  status : GStatus
  regs : NMap Word
  preds : NMap LaneMask
  flags : NMap Nat
  ops : List LongOp
  fpsr : Word
  sr : NMap (BitVec 16)
  ll : Nat
  gtchi : Option Word
  latch : Option (List (Option Word))
  tbind : NMap Nat
  undo : List UndoLine
  tileUndo : List UndoLine
  sbuf : List SbLine
  deposits : List Deposit
  fences : List Scope
  acqWait : Bool
  sendq : List SendItem
  validation : List SpecUse
  mismatches : Nat
  footprint : List Nat
  l1used : List Nat
  deferred : List Deferred
  bars : List (Bool × Nat × Nat)
  replaying : Bool
  passWord : Option Nat
  resumes : Nat
  commit : Option Nat
  base : Nat
  place : Option (Nat × Buf × List Nat)
  areaWait : Option Nat
  deriving DecidableEq, Repr

/-! ## The matching store, pigeonholes and parks -/

/-- How far an instance is (R16, R18, R386). -/
inductive EntryPhase where
  | incomplete | complete | inGroup (g : Nat) | parked (fid : Nat)
  deriving DecidableEq, Repr

/-- A matching entry (R16) with its completion time and collection deadline in cycles (R19); `frame` is the byte offset
of its frame, `lines` the frame lines it holds (R153). -/
structure Entry where
  bid : Nat
  colour : Nat
  tag : Word
  presence : Byte
  stamps : NMap Nat
  latest : Nat
  frame : Nat
  lines : Nat
  phase : EntryPhase
  completed : Nat
  deadline : Nat
  deriving DecidableEq, Repr

/-- A spilled record (R34) under the number its entry had: the entry and its frame bytes; whether it has landed, and whether it
is on its way back (R35). -/
structure SpillRec where
  num : Nat
  entry : Entry
  bytes : List (Nat × Byte)
  landed : Bool
  toCore : Bool
  deriving DecidableEq, Repr

/-- A token at a core's input, with its packet's header (R298), its sender for R14 and R383, the sending group slot, whether it is counted
under R360, and the entry whose frame SENDF hands on with it (R369). A handler token is on its way until the writes of the device's units
that came before number `after` are performed: its record is visible then (R384). -/
structure InTok where
  tok : Token
  key : BitVec 16
  inc : Byte
  tasid : Nat
  srcDev : Nat
  srcCore : Nat
  counted : Bool
  grp : Option Nat
  frame : Option Nat
  after : Nat := 0
  deriving DecidableEq, Repr

/-- A block slot with its pigeonhole (R21, R60, R348, R350, R376). `due` is the due cycle of a postponed collection. -/
structure BlockSlot where
  bid : Nat
  timer : Nat
  prio : Nat
  pfirst : Nat
  pcount : Nat
  hs : Nat
  eosx : Nat
  recPA : Nat
  resident : Bool
  closing : Bool
  storeAt : Nat
  lastColl : Nat
  hdr : List DWord
  body : List DWord
  deriving DecidableEq, Repr

/-- A parked collection (R386) with its fault record and the operations of its block that still run (R59). -/
structure ParkEnt where
  fid : Nat
  region : Nat
  cls : Nat
  record : List DWord
  bslot : Nat
  bid : Nat
  colour : Nat
  wlog : Nat
  insts : List Nat
  tags : List Word
  em : LaneMask
  prio : Nat
  word : Nat
  resumes : Nat
  claim : Option Nat
  verdict : Option Bool
  refill : Option Nat
  ops : List LongOp
  deriving DecidableEq, Repr

/-- One barrier channel (R292): the count of its generation so far, its n, its generation number, and the commits that arrived, as core and
number. -/
structure Channel where
  count : Nat
  need : Nat
  gen : Nat
  from_ : List (Nat × Nat)
  deriving DecidableEq, Repr

/-- A team entry (R25) with its gang register (R257) and barrier channels (R292). -/
structure Team where
  colour : Option Nat
  gcount : Nat
  gfails : Nat
  chans : NMap Channel
  deriving DecidableEq, Repr

/-- An arrival at a barrier that is not counted yet (R292): cluster or team, colour or team number, channel, instances,
the count n it carries, and its commit. -/
structure Arrival where
  clus : Bool
  owner : Nat
  chan : Nat
  insts : Nat
  need : Nat
  commit : Nat
  deriving DecidableEq, Repr

/-! ## Caches, copies, units and configuration of a core -/

/-- An L1 line (R102, R107): data, expiry tick and version. -/
structure L1Line where
  line : Nat
  exp : Nat
  ver : Word
  data : List Byte
  deriving DecidableEq, Repr

/-- A memory or peer leaf, or a run, as a TLB holds it (R84, R93). -/
structure TlbEnt where
  asid : Nat
  va : Nat
  size : Nat
  leaf : DWord
  deriving DecidableEq, Repr

/-- A numbered renewal of an expired line (R111): the version sent, whether its load has L1POL 2 and, once sent back, the answer's expiry
tick, version and data (`data` empty when the version is current). -/
structure Renewal where
  num : Nat
  line : Nat
  ver : Word
  lru : Bool
  back : Bool
  newExp : Nat
  newVer : Word
  data : List Byte
  deriving DecidableEq, Repr

/-- A write-combining entry (R311), keyed by device, ASID and target line. -/
structure WcEnt where
  dev : Nat
  tasid : Nat
  line : Nat
  bytes : List (Nat × Byte)
  since : Nat
  reqs : List Nat
  commit : Nat
  drained : Bool
  deriving DecidableEq, Repr

/-- The matrix operations (R260). -/
inductive MatKind where
  | mma | spmma | rnmma | accz | accld | accst | accstAdd | accstRn | acccvRn | acccvSc
  deriving DecidableEq, Repr

/-- A queued matrix operation with what was captured at issue (R250). -/
structure MatOp where
  num : Nat
  grp : Nat
  kind : MatKind
  tile : Nat
  aoff : Nat
  boff : Nat
  fmt : DWord
  shape : Nat
  spar : Nat
  latch : Option (List (Option Word))
  scale : Word
  frag : List (Nat × Nat × Word)
  active : LaneMask
  dst : Operand
  key : Nat × Nat × Nat × Nat × Nat × DWord × Nat
  fused : Nat
  done : Bool
  deriving DecidableEq, Repr

/-- The rendezvous latch of a matrix unit (R258): members in arrival order, the cycle it opened, and whether it is complete and
waits for a free queue entry. -/
structure GangLatch where
  members : List MatOp
  opened : Nat
  full : Bool
  deriving DecidableEq, Repr

/-- One activation-table version (R213): its image bytes. -/
structure TableVer where
  bytes : NMap Byte
  deriving DecidableEq, Repr

/-- A TLOAD in flight (R216). -/
structure TloadCmd where
  num : Nat
  grp : Nat
  table : Nat
  ver : Nat
  off : Nat
  deriving DecidableEq, Repr

/-- The landing buffer and landing record of a span's consumer end (R141, R314); `owner` numbers the CPYSP.IN whose words the record
saves. -/
structure Landing where
  span : Nat
  words : List Word
  record : Option (Nat × Nat × Nat)
  owner : Nat
  saved : List Word
  deriving DecidableEq, Repr

/-- The state of a tile's latest configuration stream (R353). -/
inductive StreamState where
  | none | open_ | accepted | rejectedCrc | rejectedField | committed | armed | rolledBack
  deriving DecidableEq, Repr

/-- The fields of the core element and rate limiter of R350, and the route table. -/
structure CoreCfg where
  part : Nat
  asid : Nat
  key : Nat
  tenant : Nat
  core : Nat
  ncores : Nat
  prVA : Nat
  prSize : Nat
  clus : Nat
  clpos : Nat
  ovl : Nat
  bdirPA : Nat
  rlCount : Nat
  rlWindow : Nat
  routes : NMap Nat
  slots : NMap BlockSlot
  deriving DecidableEq, Repr

/-- A tile's configuration receiver (R351 to R353): commands that arrived and wait; the stream's state and shadow; the last piece
written at element × 64 + field, with 65,536 × the count of its command; CRC and first bad command (its count, element, field);
and what the acknowledgement says. -/
structure CfgStream where
  cmds : List Word
  state : StreamState
  shadow : Option CoreCfg
  pieces : NMap Nat
  seq : Nat
  count : Nat
  crc : Word
  crcLow : Option Nat
  bad : Option (Nat × Nat × Nat)
  ackPA : Nat
  deriving DecidableEq, Repr

/-- A committed token or request that awaits its release (R30 step 5, R281, R278). `bars` names the barriers that hold it:
cluster or team, colour or team number, channel, and the generation plus one, or 0 while the arrival is not counted; `after` lists the
commits of the generations that opened, which must be visible too (R292); `sent` marks the tokens of the commit's own send words, which R14
orders. -/
structure OutItem where
  commit : Nat
  grp : Nat
  asid : Nat
  scope : Scope
  bars : List (Bool × Nat × Nat × Nat)
  after : List (Nat × Nat)
  sent : Bool
  item : SendItem
  deriving DecidableEq, Repr

/-- A commit whose effects are not all visible (R278): its lines in transit or lined up with their fence epochs, deposits, the
fence epochs of its CFLUSH words, remote requests, earlier commits of the core that had lines pending, and lines that no cache holds,
numbered from 2^64, with their epochs. `entered` says that every
line found room in the pending-line filter; `domRel` that the commit releases at dom or wider (R311); `word2` holds BID, COLOUR, SLOT and GRP for records (R383). -/
structure CommitRec where
  num : Nat
  grp : Nat
  lines : List (Nat × Nat × Nat)
  deposits : List Nat
  flushes : List Nat
  remote : List Nat
  before : List Nat
  fences : List Scope
  uncached : List (Nat × Nat × Nat)
  entered : Bool
  domRel : Bool
  word2 : Nat
  deriving DecidableEq, Repr

/-- The old values that the ATOM words of a commit return (R289): per return list the due token, words an instance, and
(instance lane, word) values that came back; `need` is how many lanes must still be performed. -/
structure AtomRet where
  commit : Nat
  ret : Nat
  due : TokenDue
  words : Nat
  vals : List (Nat × DWord)
  need : Nat
  dead : Bool
  deriving DecidableEq, Repr

/-- Clock gating (R358): running with the idle cycles counted so far, gated, or restarting until a cycle. -/
inductive Gate where
  | running (idleSince : Option Nat) | gated | restarting (until_ : Nat)
  deriving DecidableEq, Repr

/-- One core, with its tile's configuration receiver. `handed` lists frames that SENDF hands on, whose consumer does not exist
yet: entry number, byte offset and lines (R369); `sources` lists source instances, as (block, tag), that wait for room (R11). -/
structure Core where
  cfg : CoreCfg
  stream : CfgStream
  region : Option Nat
  consts : NMap Word
  entries : NMap Entry
  handed : List (Nat × Nat × Nat)
  frame : NMap Byte
  bufW : NMap Byte
  bufA : NMap Byte
  bufC : NMap Byte
  absent : List (Buf × Nat × Nat)
  teams : NMap Team
  clusBars : NMap Channel
  groups : NMap Group
  inbox : List InTok
  outbox : List OutItem
  atomRets : List AtomRet
  commits : List CommitRec
  nextNum : Nat
  spilled : List SpillRec
  spillHeld : List InTok
  filter : List Nat
  spillStop : Bool
  overlay : List InTok
  overlayAsked : List Nat
  barArrivals : List Arrival
  courier : List CopyCmd
  landing : List Landing
  matq : List MatOp
  gang : Option GangLatch
  divq : List Nat
  tables : NMap TableVer
  tcur : NMap Nat
  tloads : List TloadCmd
  l1 : List L1Line
  l1tlb : List TlbEnt
  renewals : List Renewal
  pendFilter : List (Nat × Nat)
  wcb : List WcEnt
  park : List ParkEnt
  parkOver : List ParkEnt
  reserve : List Nat
  deposits : List Deposit
  gate : Gate
  sent : Nat
  received : Nat
  eosCount : NMap Nat
  rlCount : Nat
  rlStart : Nat
  quenched : Option Nat
  markers : List Nat
  saved : Bool
  sources : List (Nat × Word)
  deriving DecidableEq, Repr

/-! ## Slices, permits and translation -/

/-- A request at a slice (R109). A load carries its operation's number, or 0 for a prefetch; a renewal carries the version it
holds (R111); `halves` marks the 64-byte halves it touches (R119). `lru` is L1POL 2, and `pol` L2POL (R105). `turn` is the place in the
order of an access that a Courier engine or a die's ingress makes when it is served (R122, R123, R306); `agent` is a write that a steward,
a core's fault logic or the host's CXL.mem makes (R428); `permit` is the request for permits of a die's agent slice, at the home (R114). -/
inductive SliceReq where
  | load (core line num : Nat) (ver : Option Word) (ll : Nat) (noLease lru : Bool) (pol halves : Nat)
  | fetch (core line num pol halves : Nat)
  | update (commit core : Nat) (l : SbLine)
  | turn (line tag : Nat) (write : Bool)
  | agent (line : Nat) (bytes : List (Nat × Byte))
  | permit (die line : Nat)
  deriving DecidableEq, Repr

/-- A queued request: its requester number, the mesh cycle in which it arrived (R109), and its place in the order of all arrivals. -/
structure SliceEnt where
  who : Nat
  at_ : Nat
  seq : Nat
  req : SliceReq
  deriving DecidableEq, Repr

/-- An L2 line (R102): lease limit, version, permits held, owner permit, keep mark, Courier owner, and its place in the order of use: a
higher rank was used more recently, rank 0 least recently (R105). -/
structure L2Line where
  line : Nat
  expmax : Nat
  ver : Word
  permits : Nat
  owner : Bool
  keep : Bool
  courier : Option Nat
  rank : Nat
  deriving DecidableEq, Repr

/-- What an agent has asked for on a line (R114 to R116): failures, when it asked first and last, and a reply on its way: RETRY, or
permits (with the owner permit or not). A persistent request whose one access is performed has a reply of no permits. `pol` is the L2POL
that the line is placed with (R105). -/
structure PermitReq where
  line : Nat
  exclusive : Bool
  fails : Nat
  first : Nat
  sent : Nat
  reply : Option (Option (Nat × Bool))
  persistent : Bool
  pol : Nat
  deriving DecidableEq, Repr

/-- An entry of a home's persistent table (R116); `since` is the place in the order of arrivals at which it was activated. -/
structure Persist where
  die : Nat
  line : Nat
  exclusive : Bool
  active : Bool
  since : Nat
  deriving DecidableEq, Repr

/-- What a snoop asks of a line: the pool's, to I or to S (R117); the host's, of one half, invalidating or for data (R121). -/
inductive Snoop where
  | pool (toI : Bool)
  | host (high inval : Bool)
  deriving DecidableEq, Repr

/-- A snoop that recalls a line (R114, R117, R121), with the mesh cycle in which it came (R109). -/
structure Recall where
  line : Nat
  snoop : Snoop
  at_ : Nat
  deriving DecidableEq, Repr

/-- An L2 slice (R102, R109, R110, R116); `turn` is the die whose persistent request was active last, while the table has held
entries since; `uses` counts uses of lines for their ranks. -/
structure Slice where
  lines : List L2Line
  counter : Word
  floor : Nat
  queue : List SliceEnt
  asks : List PermitReq
  persist : List Persist
  turn : Option Nat
  uses : Nat
  deriving DecidableEq, Repr

/-- The states of a pool line at its device-level home (R117). -/
inductive PoolState where
  | i | s | a
  deriving DecidableEq, Repr

/-- The CXL.cache state of a 64-byte half (R119). -/
inductive Half where
  | i | s | e | m
  deriving DecidableEq, Repr

/-- Who waits for a walk (R94), and the access that it wants: a group as core × 64 + group slot, a Courier command, or a request at a
die's ingress, under numbers of their own; a write, by a privileged block, through a peer window. -/
structure Waiter where
  who : Nat
  write : Bool
  priv : Bool
  peer : Bool
  deriving DecidableEq, Repr

/-- A queued TLB miss (R94) with those who wait for it. -/
structure Miss where
  asid : Nat
  page : Nat
  who : List Waiter
  deriving DecidableEq, Repr

/-- What a walk found (R90): a leaf with its page base and size, or a cause and level. -/
inductive WalkOut where
  | leaf (va size : Nat) (e : DWord)
  | fail (cause level : Nat)
  deriving DecidableEq, Repr

/-- A walk in flight (R94), with the non-leaf entries that it read. -/
structure Walk where
  asid : Nat
  page : Nat
  who : List Waiter
  out : WalkOut
  seen : List (Nat × Nat)
  deriving DecidableEq, Repr

/-- The failure that a walk left for one who waited for it (R94). -/
structure XlFail where
  who : Nat
  asid : Nat
  page : Nat
  cause : Nat
  level : Nat
  deriving DecidableEq, Repr

/-- The TLB invalidation registers (R98); `after` lists the commits, as core and number, that had begun step 3 at GO (R99, step 4). -/
structure TlbInv where
  va : Nat
  asid : Nat
  npg : Nat
  busy : Bool
  done : Bool
  after : List (Nat × Nat)
  deriving DecidableEq, Repr

/-- A request accepted at a die's ingress (R97, R306, R308) under a number: its packet, or the first of its parts, and the port it came by;
the physical place and cache class of its next byte once that byte's page is translated; the bytes performed so far, and those whose
packets have come; and the bytes of a put. -/
structure IngressReq where
  num : Nat
  pkt : Packet
  port : Nat
  avail : Nat
  place : Option (Nat × Nat)
  done : Nat
  data : List Byte
  deriving DecidableEq, Repr

/-- The translation structures, ingress and translation registers of one die (R93, R94, R97, R98), and its reply log: SRC_DEV,
INC, REQID and the tick of each constituent applied (R337). -/
structure Die where
  l2tlb : List TlbEnt
  walkCache : List (Nat × Nat × Nat)
  ingressTlb : List TlbEnt
  missq : List Miss
  walks : List Walk
  failed : List XlFail
  ingress : List IngressReq
  nextIngress : Nat
  replyLog : List (Nat × Byte × Nat × Nat)
  tlbinv : TlbInv
  deriving DecidableEq, Repr

/-! ## The device, its regions and the fabric -/

/-- A colour of a grid (R15, R373): live, lane width, parent. -/
structure Colour where
  live : Bool
  wlog : Nat
  parent : Option Nat
  deriving DecidableEq, Repr

/-- A sink block of a region (R362). -/
structure Sink where
  bid : Nat
  expect : Nat
  core : Nat
  reported : Bool
  deriving DecidableEq, Repr

/-- How a region is ending: aborted (R391), halted by a block (R402), or being saved into the area at `pa` (R392). -/
inductive Ending where
  | aborted | halted (bid : Nat) | saving (pa : Nat)
  deriving DecidableEq, Repr

/-- One block of a loaded image as the region keeps it: record address, arity, frame cells, class and placement. -/
structure BlockInfo where
  bid : Nat
  recPA : Nat
  hdr : List DWord
  body : List DWord
  place : Nat
  hs : Nat
  deriving DecidableEq, Repr

/-- A span that a launch binds (R313): grid cores of its ends, lanes, links on its path, and adders as (format, injected span). -/
structure SpanPlan where
  producer : Nat
  consumer : Nat
  lanes : Nat
  links : List Nat
  adders : List (Nat × Nat)
  deriving DecidableEq, Repr

/-- A launch that passed its checks (R345, steps 1 to 4): the record's fields, the blocks with their placement, the cores in grid
order, and the spans. -/
structure Plan where
  recPA : Nat
  seq : Nat
  asid : Nat
  key : Nat
  tenant : Nat
  wlog : Nat
  complPA : Nat
  reportPA : Nat
  tagCount : Nat
  tagFirst : Nat
  consts : List Word
  eos : List Nat
  prVA : Nat
  prSize : Nat
  pltVA : Nat
  rlCount : Nat
  rlWindow : Nat
  part : Nat
  clw : Nat
  clh : Nat
  ovl : Nat
  dataPA : Nat
  dataLen : Nat
  dataVA : Nat
  steward : Bool
  blocks : List BlockInfo
  cores : List Nat
  spans : List SpanPlan
  deriving DecidableEq, Repr

/-- A sweep of the keystone tree that found every core idle but for its barrier hold (R292, R360): its tick, the totals of sent and
received tokens, and whether the holds were empty too. -/
structure Sweep where
  at_ : Nat
  totals : Nat × Nat
  idle : Bool
  deriving DecidableEq, Repr

/-- An armed region (R343, R345). `sweep` holds the last sweep if it found the cores idle, `stalled` the token totals when its
cores last reported stalled instances (R39), `reconfig` the launch that waits for the swap (R361), `ports` the links that its packets are
routed over (R294). -/
structure Region where
  num : Nat
  asid : Nat
  key : Nat
  tenant : Nat
  cores : List Nat
  steward : Bool
  recPA : Nat
  complPA : Nat
  seq : Nat
  armedAt : Nat
  colours : NMap Colour
  flth : Word
  fid : Nat
  sinks : List Sink
  blocks : List BlockInfo
  sweep : Option Sweep
  quiescent : Bool
  stalled : Option (Nat × Nat)
  ending : Option Ending
  reconfig : Option Plan
  ports : List Nat
  deriving DecidableEq, Repr

/-- A multicast group entry (R318) as fields. -/
structure McEntry where
  valid : Bool
  send : Bool
  member : Bool
  broken : Bool
  key : Nat
  root : Nat
  nmemb : Nat
  tva : Nat
  wsz : Nat
  midx : Nat
  tasid : Nat
  maxlen : Nat
  nextpm : Word
  deriving DecidableEq, Repr

/-- A multicast message that a member holds or applies (R321 to R323): the port it came by, whether only its header is held, whether it lies
in the hold store or in the hold area in HBM (R322), and how many of its line-sized pieces are written. -/
structure McHeld where
  group : Nat
  postmark : Word
  pkt : Packet
  port : Nat
  header : Bool
  inStore : Bool
  done : Nat
  deriving DecidableEq, Repr

/-- One outstanding request that left this device (R304, R337), or a bulk or multicast request. `data` holds the parts of a get that came
back; a read that is `held` waits for a write-combining entry before it leaves (R312). -/
structure Request where
  reqid : Nat
  core : Nat
  commit : Nat
  kind : RemKind
  bulk : Option CopyForm
  wide : Bool
  size : Nat
  dev : Nat
  pkt : Packet
  pos : Nat
  va : Nat
  bundle : Nat
  left : Nat
  lastAsk : Nat
  done : Option (Byte × Byte × DWord)
  written : Nat
  data : List (Nat × List Byte)
  held : Bool
  deriving DecidableEq, Repr

/-- The requests of one instance that one reply token answers (R305): data words a lane, lanes, and word 2 of a record. -/
structure Bundle where
  num : Nat
  core : Nat
  asid : Nat
  commit : Nat
  due : Option TokenDue
  words : Nat
  width : Nat
  word2 : Nat
  deriving DecidableEq, Repr

/-- What the poste restante of a saved core holds (R34, R386), and the source instances that still wait for room (R11): the save area has no
place for them (R394). -/
structure SavedPr where
  spilled : List SpillRec
  parkOver : List ParkEnt
  sources : List (Nat × Word)
  deriving DecidableEq, Repr

/-- A saved region (R392) under the number that its save area carries, its cores in grid order. -/
structure SavedRegion where
  num : Nat
  cores : List SavedPr
  deriving DecidableEq, Repr

/-- Work of the Clolas engine (R402, R403). -/
inductive ClolasJob where
  | sigchk (core commit asid : Nat) (due : List TokenDue) (key data sig len : Nat)
  | keyset (core commit asid : Nat) (due : List TokenDue) (slot keyRec : Nat)
  deriving DecidableEq, Repr

/-- A pre-emption request at the steward (R392, R395). -/
structure PreemptJob where
  core : Nat
  commit : Nat
  asid : Nat
  due : List TokenDue
  restore : Bool
  arg : Nat
  pa : Nat
  started : Bool
  deriving DecidableEq, Repr

/-- The bring-up states of R429. -/
inductive DevStage where
  | rom | firmware | records | clocks | memory | links | ready | recovery
  deriving DecidableEq, Repr

/-- The device's registers, stewards and tables. `held` lists packets of a new key that wait for a swap, with their port (R361).
`portKeys` is the membership table of each link port (R296), `portErrors` its error log (R293), `stewardRecs` the records of the steward log (R296); `arrived` lists the
packets that a link port accepted and that wait for the unit they are for. -/
structure Device where
  devNum : Nat
  ctxTab : Nat
  mcTab : Nat
  gradeB : Bool
  clockMHz : Nat
  serial : DWord
  withheld : List Nat
  identity : List Byte
  recDigests : List (List Byte)
  stage : DevStage
  cause : Byte
  inc : Byte
  incOf : NMap Byte
  incExchanged : Bool
  trihorn : BitVec 36
  onolo : BitVec 4
  temps : NMap (BitVec 16)
  watts : BitVec 16
  throttle : Bool
  throttles : Word
  regulator : Bool
  coolSince : Nat
  gtcOn : Bool
  restart : Option Byte
  attNonce : BitVec 256
  attQpa : Nat
  attBusy : Bool
  attDone : Bool
  attWritten : Option Nat
  posted : Word
  rejected : Nat
  launchq : List (List DWord)
  poolRegions : Nat
  lost : List Nat
  keys : NMap (List Byte)
  mcHeld : List McHeld
  mcGap : NMap Nat
  tileTenant : NMap Nat
  portTenant : NMap Nat
  keyTenant : NMap Nat
  portKeys : NMap (List (BitVec 16))
  portErrors : NMap Nat
  arrived : List (Nat × Packet)
  log : NMap Nat
  stewardRecs : List (List DWord)
  nextRegion : Nat
  regions : List Region
  requests : List Request
  bundles : List Bundle
  nextReq : Nat
  clolas : List ClolasJob
  preempts : List PreemptJob
  saves : List SavedRegion
  stewardq : List Plan
  nextSave : Nat
  held : List (Nat × Packet)
  deriving DecidableEq, Repr

/-- One span (R313, R314): its ends, lanes and the links on its path (link ports below 36, die-edge ports from 36 on), words in
flight, credits in bytes, adders on its path as (format, injected span), and whether it is broken. -/
structure Span where
  handle : Nat
  region : Nat
  producer : Nat
  consumer : Nat
  lanes : Nat
  links : List Nat
  credits : Nat
  sentBytes : Nat
  takenBytes : Nat
  waiting : List Word
  flight : List Word
  adders : List (Nat × Nat)
  atAdder : List (List Word)
  broken : Bool
  deriving DecidableEq, Repr

/-- A stamped message whose receipt is not complete (R320, R324). -/
structure McFlight where
  group : Nat
  postmark : Word
  stamped : Nat
  pkt : Packet
  answers : List (Nat × Byte)
  deriving DecidableEq, Repr

/-- The replication tree a switch holds as root (R320). -/
structure McTree where
  group : Nat
  next : Word
  members : List TreeMember
  deriving DecidableEq, Repr

/-- A combined request waiting in a window (R333): its inputs (port, arrival tick, packet). -/
structure Waiting where
  inputs : List (Nat × Nat × Packet)
  deriving DecidableEq, Repr

/-- A decombining record (R334): the request number that went on and its inputs, as (port, packet, addend, reply expected). -/
structure DecRec where
  reqid : Nat
  wide : Bool
  inputs : List (Nat × Packet × DWord × Bool)
  deriving DecidableEq, Repr

/-- A Trihorn switch (R296, R320, R333, R334, R397). `arrived` lists messages, combining requests and replies to combined requests
that a port accepted, with their port and the switch cycle in which they came (R333, R335); `out` what the switch sent on; `errors` the
packets of unlisted KIND that each port counted (R293). -/
structure Switch where
  num : Nat
  portKeys : NMap (List (BitVec 16))
  trees : List McTree
  flights : List McFlight
  rootWait : List Packet
  cen : Bool
  cwin : BitVec 10
  merged : Word
  ovf : Word
  lostc : Word
  waiting : List Waiting
  records : List DecRec
  nextReq : Nat
  heard : NMap Nat
  dead : List Nat
  arrived : List (Nat × Nat × Packet)
  out : List Packet
  errors : NMap Nat
  deriving DecidableEq, Repr

/-- The storage of a core whose uncorrectable error ends the region (R389), with the byte offset in it. -/
inductive SramPart where
  | w | a | c | frameRestore | table | tileUndo
  deriving DecidableEq, Repr

/-- A soft error at the moment that it is detected (R399). -/
inductive SoftError where
  | register (core grp : Nat)
  | l1 (core line : Nat)
  | memory (line : Nat)
  | frame (core grp off : Nat)
  | sram (core : Nat) (part : SramPart) (off : Nat)
  deriving DecidableEq, Repr

/-- Who moves next (log entry 2): the issue logic of a core, an event, a soft error, or a sensor of the package (R436: the hottest
reading of a die, in 1/16 °C, and the power in watts; R435: the throttle input of the module's regulators). -/
inductive Actor where
  | issue (core : Nat)
  | event (e : Instr)
  | softError (x : SoftError)
  | temperature (die : Nat) (v : BitVec 16)
  | power (v : BitVec 16)
  | regulator (on : Bool)
  deriving DecidableEq, Repr

/-- One turn: GTC ticks, arithmetic cycles and mesh cycles that pass first, then who moves. -/
structure Turn where
  ticks : Nat
  cycles : Nat
  mesh : Nat
  actor : Actor
  deriving DecidableEq, Repr

/-- The whole state. `mem` holds each line's valid data, wherever the owner permit is; `stale` holds what the pool itself
still holds of a line that the device changed and has not written back (R117, R118); `arrivals` numbers the requests at slices. -/
structure State where
  schedule : List Turn
  cur : Nat × Nat
  freeCount : Nat
  gtc : Nat
  arith : Nat
  mesh : Nat
  arrivals : Nat
  mem : List Host.Cell
  stale : List (Nat × List Byte)
  poisoned : List Nat
  memErr : List Nat
  dev : Device
  cores : NMap Core
  dies : NMap Die
  slices : NMap Slice
  poolState : NMap PoolState
  hostState : NMap Half
  recalls : List Recall
  transit : List (Nat × SliceReq)
  wire : List Packet
  spans : List Span
  switches : List Switch
  deriving DecidableEq, Repr

/-! ## Reset values -/

/-- A block slot that binds no block (R350: BID 0xFFF leaves the slot unbound). -/
def BlockSlot.unbound : BlockSlot :=
  { bid := 0xFFF, timer := 0, prio := 0, pfirst := 0, pcount := 0, hs := 0, eosx := 0, recPA := 0, resident := false,
    closing := false, storeAt := 0, lastColl := 0, hdr := [], body := [] }

/-- The live configuration of a tile that no stream has armed. -/
def CoreCfg.none : CoreCfg :=
  { part := 0, asid := 0, key := 0, tenant := 0, core := 0, ncores := 0, prVA := 0, prSize := 0, clus := 0, clpos := 0,
    ovl := 0xFFF, bdirPA := 0, rlCount := 0, rlWindow := 0, routes := [], slots := [] }

/-- No stream since reset (R353). -/
def CfgStream.none : CfgStream :=
  { cmds := [], state := .none, shadow := .none, pieces := [], seq := 0, count := 0, crc := 0xFFFFFFFF, crcLow := .none,
    bad := .none, ackPA := 0 }

/-- A channel with no arrival (R292). -/
def Channel.empty : Channel := { count := 0, need := 0, gen := 0, from_ := [] }

/-- An unbound team entry; the gang register is zero (R257). -/
def Team.unbound : Team := { colour := none, gcount := 0, gfails := 0, chans := [] }

/-- A table version of zero bytes (R213). -/
def TableVer.zero : TableVer := { bytes := [] }

/-- A core after reset: SRAM cleared (R429), every store and queue empty. -/
def Core.empty : Core :=
  { cfg := CoreCfg.none, stream := CfgStream.none, region := none, consts := [], entries := [], handed := [], frame := [], bufW := [],
    bufA := [], bufC := [], absent := [], teams := [], clusBars := [], groups := [], inbox := [], outbox := [],
    atomRets := [], commits := [], nextNum := 1, spilled := [], spillHeld := [], filter := [], spillStop := false,
    overlay := [], overlayAsked := [], barArrivals := [], courier := [], landing := [], matq := [], gang := none,
    divq := [], tables := [], tcur := [], tloads := [], l1 := [], l1tlb := [], renewals := [], pendFilter := [],
    wcb := [], park := [], parkOver := [], reserve := [], deposits := [], gate := .running none, sent := 0, received := 0,
    eosCount := [], rlCount := 0, rlStart := 0, quenched := none, markers := [], saved := false, sources := [] }

/-- A slice after reset. -/
def Slice.empty : Slice := { lines := [], counter := 0, floor := 0, queue := [], asks := [], persist := [], turn := none, uses := 0 }

/-- A die after reset: the translation structures hold only valid entries, so none (R93). -/
def Die.empty : Die :=
  { l2tlb := [], walkCache := [], ingressTlb := [], missq := [], walks := [], failed := [], ingress := [], nextIngress := 0, replyLog := [],
    tlbinv := { va := 0, asid := 0, npg := 0, busy := false, done := false, after := [] } }

/-- A switch with its default controls (R333). -/
def Switch.empty (num : Nat) : Switch :=
  { num := num, portKeys := [], trees := [], flights := [], rootWait := [], cen := true, cwin := 32, merged := 0, ovf := 0,
    lostc := 0, waiting := [], records := [], nextReq := 0, heard := [], dead := [], arrived := [], out := [], errors := [] }

/-- The device after reset, in state ROM (R429). -/
def Device.reset : Device :=
  { devNum := 0, ctxTab := 0, mcTab := 0x200000, gradeB := false, clockMHz := 3000, serial := 0, withheld := [], identity := [], recDigests := [],
    stage := .rom, cause := 0, inc := 0, incOf := [], incExchanged := false, trihorn := 0, onolo := 0, temps := [],
    watts := 0, throttle := false, throttles := 0, regulator := false, coolSince := 0, gtcOn := false, restart := none, attNonce := 0,
    attQpa := 0, attBusy := false, attDone := false, attWritten := none,
    posted := 0, rejected := 0, launchq := [], poolRegions := 0, lost := [],
    keys := [], mcHeld := [],
    mcGap := [], tileTenant := [], portTenant := [], keyTenant := [], portKeys := [], portErrors := [], arrived := [], log := [], stewardRecs := [], nextRegion := 1,
    regions := [], requests := [], bundles := [], nextReq := 0, clolas := [], preempts := [], saves := [], stewardq := [],
    nextSave := 1, held := [] }

/-- The machine right after reset. -/
def State.reset : State :=
  { schedule := [], cur := (0, 0), freeCount := 0, gtc := 0, arith := 0, mesh := 0, arrivals := 0, mem := [], stale := [], poisoned := [],
    memErr := [], dev := Device.reset, cores := [], dies := [], slices := [], poolState := [], hostState := [],
    recalls := [], transit := [], wire := [], spans := [], switches := [] }

end Sys2Proof.Machine
end

