-- ==== Sys2Proof/Machine/Places.lean ====
section
/-! DEFINITION. Places: the address ranges and views of R78 to R81, home and agent slices (R80, R103, R104), and the accessors
of the state's parts. -/

namespace Sys2Proof.Machine

/-- The outcome of a step. -/
abbrev Out := Host.Outcome State Fault Refusal

/-! ## Places -/

/-- The die of a core index: tiles are die × 256 + y × 16 + x, the steward core of die d is 1024 + d. -/
def dieOf (ci : Nat) : Nat := if ci < 1024 then ci / 256 else ci - 1024
def tileX (ci : Nat) : Nat := ci % 16
def tileY (ci : Nat) : Nat := ci / 16 % 16
def tileAt (die y x : Nat) : Nat := die * 256 + y * 16 + x

/-- Bytes of HBM on one die (R79). -/
def hbmDie : Nat := 0x1800000000
/-- The ranges of R78. -/
inductive Zone where
  | hbm | pool | host | window | hole
  deriving DecidableEq, Repr

def zoneOf (pa : Nat) : Zone :=
  if pa < 0x6000000000 then .hbm
  else if 0x1000000000000 ≤ pa ∧ pa < 0x1006000000000 then .hbm
  else if 0x2000000000000 ≤ pa ∧ pa < 0x2400000000000 then .pool
  else if 0x8000000000000 ≤ pa ∧ pa < 0xC000000000000 then .host
  else if 0xF000000000000 ≤ pa ∧ pa < 0xF000001000000 then .window
  else .hole

/-- R79: the two HBM views name the same bytes; every other address names itself. The linear view is the canonical one. -/
def canonPA (pa : Nat) : Nat :=
  if 0x1000000000000 ≤ pa ∧ pa < 0x1006000000000 then
    let q := pa - 0x1000000000000
    q / 4096 % 4 * hbmDie + q / 4096 / 4 * 4096 + q % 4096
  else pa

/-- The 128-byte line of a canonical address (R102). -/
def lineOf (pa : Nat) : Nat := pa / 128

def lineZone (ln : Nat) : Zone := zoneOf (ln * 128)

/-- R81: the pool region of a pool line. -/
def poolRegionOf (ln : Nat) : Nat := (ln * 128 - 0x2000000000000) / 2 ^ 30

/-- The number from which R80 and R103 compute a slice position. -/
def slicePosArg (ln : Nat) : Nat :=
  match lineZone ln with
  | .hbm => ln % (hbmDie / 128)
  | .pool => ln - 0x2000000000000 / 128
  | .host => ln - 0x8000000000000 / 128
  | _ => ln

/-- The die of a line's home slice or device-level home (R80, R104). -/
def homeDie (ln : Nat) : Nat :=
  match lineZone ln with
  | .hbm => ln / (hbmDie / 128)
  | .pool => poolRegionOf ln % 4
  | _ => 0

/-- Enabled slices of a die: 192 in grade A, 180 in grade B (R80). -/
def slicesPerDie (s : State) : Nat := if s.dev.gradeB then 180 else 192

/-- R80, R103: the position, among a die's enabled slices, of the home or agent slice of a line. -/
def slicePos (s : State) (ln : Nat) : Nat :=
  let l := slicePosArg ln
  (l ^^^ (l / 2 ^ 17)) % slicesPerDie s

/-- The key of a slice: die × 256 + position. -/
def sliceKey (die pos : Nat) : Nat := die * 256 + pos
def homeSlice (s : State) (ln : Nat) : Nat := sliceKey (homeDie ln) (slicePos s ln)
def agentSlice (s : State) (die ln : Nat) : Nat := sliceKey die (slicePos s ln)

/-! ## Accessors -/

def State.core (s : State) (ci : Nat) : Core := s.cores.atD ci Core.empty
def State.setCore (s : State) (ci : Nat) (c : Core) : State := { s with cores := s.cores.put Core.empty ci c }
def State.modCore (s : State) (ci : Nat) (f : Core → Core) : State := s.setCore ci (f (s.core ci))
def State.slice (s : State) (k : Nat) : Slice := s.slices.atD k Slice.empty
def State.setSlice (s : State) (k : Nat) (x : Slice) : State := { s with slices := s.slices.put Slice.empty k x }
def State.die (s : State) (d : Nat) : Die := s.dies.atD d Die.empty
def State.setDie (s : State) (d : Nat) (x : Die) : State := { s with dies := s.dies.put Die.empty d x }
def State.setDev (s : State) (x : Device) : State := { s with dev := x }
def Core.group? (c : Core) (gi : Nat) : Option Group := c.groups.at? gi
def Core.setGroup (c : Core) (gi : Nat) (g : Group) : Core := { c with groups := c.groups.ins gi g }
def Core.dropGroup (c : Core) (gi : Nat) : Core := { c with groups := c.groups.del gi }
def State.setGroup (s : State) (ci gi : Nat) (g : Group) : State := s.modCore ci fun c => c.setGroup gi g
def Core.slot (c : Core) (si : Nat) : BlockSlot := c.cfg.slots.atD si BlockSlot.unbound
def Core.setSlot (c : Core) (si : Nat) (b : BlockSlot) : Core :=
  { c with cfg := { c.cfg with slots := c.cfg.slots.put BlockSlot.unbound si b } }
def Core.team (c : Core) (t : Nat) : Team := c.teams.atD t Team.unbound
def Core.setTeam (c : Core) (t : Nat) (x : Team) : Core := { c with teams := c.teams.put Team.unbound t x }

/-- A frame or typed buffer as a byte map (R151). -/
def Core.buf (c : Core) : Buf → NMap Byte
  | .frame => c.frame
  | .w => c.bufW
  | .a => c.bufA
  | .c => c.bufC
def Core.setBuf (c : Core) (b : Buf) (m : NMap Byte) : Core :=
  match b with
  | .frame => { c with frame := m }
  | .w => { c with bufW := m }
  | .a => { c with bufA := m }
  | .c => { c with bufC := m }

/-- The bytes of a partition (R150, R152). -/
def Core.partSize (c : Core) (b : Buf) : Nat :=
  65536 * (match b with
    | .frame => field c.cfg.part 0 4
    | .w => field c.cfg.part 4 4
    | .a => field c.cfg.part 8 4
    | .c => field c.cfg.part 12 4)

/-- R158: a frame line, and a buffer line that no copy has marked absent, is present. -/
def Core.present (c : Core) (b : Buf) (line : Nat) : Bool := !c.absent.any fun x => x.1 == b && x.2.1 == line

/-- Lane width of a group's colour (R15). -/
def Group.width (g : Group) : Nat := 2 ^ g.wlog
/-- The instance of a lane (R22). -/
def Group.instOf (g : Group) (l : Nat) : Nat := l / g.width
def Group.tagOf (g : Group) (i : Nat) : Word := (g.tags[i]?).getD 0

/-- The body of the group's block, in its block slot. -/
def Core.bodyOf (c : Core) (g : Group) : List DWord := (c.slot g.bslot).body
/-- Header word n of the group's block. -/
def Core.hdrOf (c : Core) (g : Group) (n : Nat) : DWord := ((c.slot g.bslot).hdr[n]?).getD 0
/-- REGD (R61). -/
def hdrRegd (h : List DWord) : Nat := field ((h[1]?).getD 0).toNat 56 8
/-- FRMC (R61). -/
def hdrFrmc (h : List DWord) : Nat := field ((h[1]?).getD 0).toNat 48 8
def hdrTimer (h : List DWord) : Nat := field ((h[0]?).getD 0).toNat 48 16
def hdrLen (h : List DWord) : Nat := field ((h[0]?).getD 0).toNat 41 7 + 1
def hdrArity (h : List DWord) : Nat := field ((h[0]?).getD 0).toNat 37 4
def hdrNexit (h : List DWord) : Nat := field ((h[0]?).getD 0).toNat 33 4
def hdrWcls (h : List DWord) : Nat := field ((h[0]?).getD 0).toNat 30 3
def hdrPrio (h : List DWord) : Nat := field ((h[0]?).getD 0).toNat 28 2
def hdrSink (h : List DWord) : Bool := ((h[0]?).getD 0).getLsbD 27
def hdrPriv (h : List DWord) : Bool := ((h[0]?).getD 0).getLsbD 26
def hdrGang (h : List DWord) : Bool := ((h[0]?).getD 0).getLsbD 25
def hdrBid (h : List DWord) : Nat := field ((h[1]?).getD 0).toNat 16 12
def hdrSbl (h : List DWord) : Nat := field ((h[1]?).getD 0).toNat 40 8
def hdrFlags (h : List DWord) : Nat := field ((h[1]?).getD 0).toNat 28 12
/-- R62: the exit-table entry e. -/
def hdrExit (h : List DWord) (e : Nat) : Nat := field ((h[2 + e / 4]?).getD 0).toNat (16 * (e % 4)) 16

def Core.slotHdr (c : Core) (g : Group) : List DWord := (c.slot g.bslot).hdr
/-- PRIV of the group's block (R60). -/
def Core.priv (c : Core) (g : Group) : Bool := hdrPriv (c.slotHdr g)

/-- The GTC as read on a die (R4, R439). -/
def State.gtcAt (s : State) (die : Nat) : Nat := s.gtc + Config.gtcSkew die % 4

def State.region? (s : State) (num : Nat) : Option Region := s.dev.regions.find? fun r => r.num == num
def State.coreRegion? (s : State) (ci : Nat) : Option Region := (s.core ci).region.bind s.region?
def State.setRegion (s : State) (r : Region) : State :=
  s.setDev { s.dev with regions := replaceIf (fun x => x.num == r.num) (fun _ => r) s.dev.regions }
/-- Numbers of the regions of tiles that a steward graph armed begin here: no word of a program can name them (log entry 110). -/
def looseBase : Nat := 2 ^ 32
def Region.loose (r : Region) : Bool := decide (looseBase ≤ r.num)

/-- The region that uses an ASID, if one is armed. -/
def State.asidRegion? (s : State) (asid : Nat) : Option Region := s.dev.regions.find? fun r => r.asid == asid

/-- A colour of a region: colour 0 is live from launch (R15); unlisted colours are not live. -/
def Region.colour (r : Region) (id : Nat) : Colour :=
  r.colours.atD id { live := false, wlog := 0, parent := none }

/-- A fresh number for a free value. -/
def State.fresh (s : State) : Nat × State := (s.freeCount, { s with freeCount := s.freeCount + 1 })

/-- Every device register and every unit's log count something under a number (R351, R362, R377). -/
def State.stewardLog (s : State) (what : Nat) : State :=
  s.setDev { s.dev with log := s.dev.log.put 0 what (s.dev.log.atD what 0 + 1) }

end Sys2Proof.Machine
end

