-- ==== Sys2Proof/Machine/Slices.lean ====
section
/-! DEFINITION. Slices: the line in a slice (R102, R105, R110), permits (R113), pool and host states (R117, R119), the queue of
requests and their turn (R108, R109, R116), and the writes of device agents (R109, R428). -/

namespace Sys2Proof.Machine

/-! ## Memory as it has been performed -/

def State.memByte (s : State) (pa : Nat) : Byte := Memory.read s.mem (canonPA pa)
def State.memBytes (s : State) (pa n : Nat) : List Byte := (List.range n).map fun i => s.memByte (pa + i)
def State.mem64 (s : State) (pa : Nat) : DWord := w64 (leNat (s.memBytes pa 8))

/-- Store bytes at canonical addresses from `pa` upward, with no other effect. -/
def State.pokeBytes (s : State) : Nat → List Byte → State
  | _, [] => s
  | pa, b :: bs => State.pokeBytes { s with mem := Memory.write s.mem (canonPA pa) b } (pa + 1) bs

/-! ## A line at a slice -/

/-- The slice where a die's agents meet a line: its home slice, or the die's agent slice (R103). -/
def sliceAt (s : State) (die ln : Nat) : Nat := agentSlice s die ln

/-- The slice that holds a line's permits for the device (R104, R113). -/
def permitHome (s : State) (ln : Nat) : Nat := homeSlice s ln

/-- The line's state at a slice; an unlisted line starts at the slice's lease floor and write counter (R110). At its home
it holds the permits that no agent holds (R113), counted with those listed elsewhere. -/
def Slice.line? (x : Slice) (ln : Nat) : Option L2Line := x.lines.find? fun l => l.line == ln
def Slice.freshLine (x : Slice) (ln : Nat) : L2Line :=
  { line := ln, expmax := x.floor, ver := x.counter, permits := 0, owner := false, keep := false, courier := none, rank := 0 }
def Slice.lineD (x : Slice) (ln : Nat) : L2Line := (x.line? ln).getD (x.freshLine ln)
def Slice.setLine (x : Slice) (l : L2Line) : Slice :=
  if x.lines.any (fun y => y.line == l.line) then { x with lines := replaceIf (fun y => y.line == l.line) (fun _ => l) x.lines }
  else { x with lines := insertBy (fun a b => a.line ≤ b.line) l x.lines }
def Slice.dropLine (x : Slice) (ln : Nat) : Slice := { x with lines := x.lines.filter fun y => y.line != ln }

/-- R108: a performed write takes the next value of the slice's write counter as the line's VER. -/
def Slice.bump (x : Slice) (ln : Nat) : Slice :=
  let n := x.counter + 1
  { x with counter := n }.setLine { x.lineD ln with ver := n }

/-- A line leaves a slice: the lease floor rises while its leases run (R110). The write counter moves on, so that no later fill of
the line has the version of a copy from before (R111; log entry 160). -/
def Slice.unlist (x : Slice) (now ln : Nat) : Slice :=
  let e := (x.lineD ln).expmax
  { x with floor := if now < e then max x.floor e else x.floor, counter := x.counter + 1 }.dropLine ln

/-! ## Permits (R113) -/

/-- The permits of a reply on its way to an agent for the line, and whether the owner permit is one. -/
def Slice.inFlight (x : Slice) (ln : Nat) : Nat × Bool :=
  match x.asks.find? fun a => a.line == ln with
  | some a => match a.reply with
    | some (some r) => r
    | _ => (0, false)
  | none => (0, false)

/-- Permits that slices other than the home hold, or that are on their way to one. -/
def State.permitsOut (s : State) (ln : Nat) : Nat :=
  (s.slices.map fun e => (match e.2.line? ln with | some l => l.permits | none => 0) + (e.2.inFlight ln).1).foldl (· + ·) 0

/-- The permits of a slice; the home holds what no agent holds. -/
def State.permitsAt (s : State) (k ln : Nat) : Nat :=
  if k = permitHome s ln then 32 - s.permitsOut ln else ((s.slice k).lineD ln).permits

/-- The slice that holds the owner permit. -/
def State.ownerAt (s : State) (ln : Nat) : Nat :=
  match s.slices.find? fun e => (e.2.inFlight ln).2 || (match e.2.line? ln with | some l => l.owner | none => false) with
  | some e => e.1
  | none => permitHome s ln

/-- Set a slice's permits and owner permit; the home's count follows from the others. A slice without a permit holds no data. -/
def State.setPermits (s : State) (k ln n : Nat) (owner : Bool) : State :=
  if k = permitHome s ln then s
  else if n = 0 then (if ((s.slice k).line? ln).isSome then s.setSlice k ((s.slice k).unlist (s.gtcAt (k / 256)) ln) else s)
  else s.setSlice k ((s.slice k).setLine { (s.slice k).lineD ln with permits := n, owner := owner })

/-- A home that holds no permit any more holds no data. -/
def State.homeLoses (s : State) (ln : Nat) : State :=
  let k := permitHome s ln
  if s.permitsAt k ln = 0 then s.setSlice k ((s.slice k).unlist (s.gtcAt (k / 256)) ln) else s

/-! ## Pool and host states -/

/-- The device-level home acquires S or A from the pool (R117). -/
def State.poolAcquire (s : State) (ln : Nat) (write : Bool) : State :=
  if lineZone ln = .pool then
    let cur := s.poolState.atD ln .i
    let new := if write then PoolState.a else if cur == .a then .a else .s
    { s with poolState := s.poolState.put .i ln new }
  else s

def State.half (s : State) (ln h : Nat) : Half := s.hostState.atD (2 * ln + h) .i
def State.setHalf (s : State) (ln h : Nat) (x : Half) : State := { s with hostState := s.hostState.put .i (2 * ln + h) x }

/-- The bridge fetches the halves that an access touches: RdShared for a load, RdOwn for a write (R119). A half that RdShared
fetches is S here, where the rule allows S or E (log entry 142). -/
def State.hostAcquire (s : State) (ln halves : Nat) (write : Bool) : State :=
  if lineZone ln = .host then
    [0, 1].foldl (fun s h =>
      if halves / 2 ^ h % 2 = 0 then s
      else
        match s.half ln h, write with
        | .i, false => s.setHalf ln h .s
        | .i, true => s.setHalf ln h .e
        | .s, true => s.setHalf ln h .e
        | _, _ => s) s
  else s

/-- R120: a host line held in one half only. -/
def State.halfHeld (s : State) (ln : Nat) : Bool :=
  lineZone ln == .host && (s.half ln 0 == .i || s.half ln 1 == .i)

/-- The halves that bytes of a line touch. -/
def halvesOf (offs : List Nat) : Nat := bit01 (offs.any fun o => o % 128 < 64) + 2 * bit01 (offs.any fun o => 64 ≤ o % 128)

/-! ## Writes performed at a slice -/

/-- The pool's own copy of a line is kept from the first change that is not written back. -/
def State.keepStale (s : State) (ln : Nat) : State :=
  if lineZone ln = .pool ∧ !(s.stale.any fun x => x.1 == ln) then { s with stale := s.stale ++ [(ln, s.memBytes (ln * 128) 128)] }
  else s

/-- The pool holds what the device holds. -/
def State.writeBack (s : State) (ln : Nat) : State := { s with stale := s.stale.filter fun x => x.1 != ln }

/-- A line that is written whole reports no error any more (R399). -/
def State.healLine (s : State) (ln : Nat) (whole : Bool) : State :=
  if whole then { s with memErr := s.memErr.filter (· != ln) } else s

/-- Bytes of one line, by offset in the line, stored at a slice that holds all 32 permits; the line takes a new version
(R108), and a host half becomes M (R119). -/
def State.storeLine (s : State) (k ln : Nat) (bytes : List (Nat × Byte)) : State :=
  let s := s.keepStale ln
  let s := s.poolAcquire ln true
  let hs := halvesOf (bytes.map Prod.fst)
  let s := s.hostAcquire ln hs true
  let s := if lineZone ln = .host then
      [0, 1].foldl (fun s h => if hs / 2 ^ h % 2 = 1 then s.setHalf ln h .m else s) s
    else s
  let s := bytes.foldl (fun s e => { s with mem := Memory.write s.mem (ln * 128 + e.1) e.2 }) s
  let s := s.healLine ln ((List.range 128).all fun i => bytes.any fun e => e.1 == i)
  s.setSlice k ((s.slice k).bump ln)

/-! ## The queue of a slice (R109) -/

/-- The line of a request, and whether it is a write. -/
def SliceReq.line : SliceReq → Nat
  | .load _ ln _ _ _ _ _ _ _ => ln
  | .fetch _ ln _ _ _ => ln
  | .update _ _ l => l.line
  | .turn ln _ _ => ln
  | .agent ln _ => ln
  | .permit _ ln => ln
def SliceReq.writes : SliceReq → Bool
  | .load _ _ _ _ _ _ _ _ _ => false
  | .fetch _ _ _ _ _ => false
  | .update _ _ _ => true
  | .turn _ _ w => w
  | .agent _ _ => true
  | .permit _ _ => false

/-- The requester numbers of R109 at a slice of die `die`: a core by tile index, another die's agent. -/
def requester (die ci : Nat) : Nat := if dieOf ci = die ∧ ci < 1024 then ci % 256 else if ci < 1024 then 385 + dieOf ci else 391
/-- The Courier engine of a core, at a slice of its die; a die's ingress; the host bridge; the steward. -/
def reqCourier (ci : Nat) : Nat := if ci < 1024 then 192 + ci % 256 else 391
def reqIngress : Nat := 384
/-- The agent slices of a die, at slices of other dies; the pool agent of the device-level home. -/
def reqAgent (die : Nat) : Nat := 385 + die
def reqPool : Nat := 389
def reqHost : Nat := 390
def reqSteward : Nat := 391

/-- A request joins a slice's queue, behind earlier ones; those of one mesh cycle stand by requester number (R109). -/
def State.enqueue (s : State) (k who : Nat) (r : SliceReq) : State :=
  let e : SliceEnt := { who := who, at_ := s.mesh, seq := s.arrivals, req := r }
  let x := s.slice k
  { s with arrivals := s.arrivals + 1 }.setSlice k
    { x with queue := insertBy (fun a b => a.at_ < b.at_ || (a.at_ == b.at_ && a.who < b.who)) e x.queue }

def State.unqueue (s : State) (k idx : Nat) : State := s.setSlice k { s.slice k with queue := (s.slice k).queue.eraseIdx idx }

/-- A request for the line stands at the slice. -/
def Slice.asked (x : Slice) (ln : Nat) : Bool := x.queue.any fun q => q.req.line == ln

/-- A write is lined up on the line at the slice (R108). -/
def Slice.linedUp (x : Slice) (ln : Nat) : Bool := x.queue.any fun q => q.req.line == ln && q.req.writes

/-- Requests for the line that stand before a place of the queue (R109). -/
def Slice.behind (x : Slice) (idx ln : Nat) : Bool := (x.queue.take idx).any fun q => q.req.line == ln

/-! ## Asking for permits (R114, R116) -/

def State.askOf (s : State) (k ln : Nat) : Option PermitReq := (s.slice k).asks.find? fun a => a.line == ln
def State.modAsk (s : State) (k ln : Nat) (f : PermitReq → PermitReq) : State :=
  let x := s.slice k
  s.setSlice k { x with asks := replaceIf (fun a => a.line == ln) f x.asks }

/-- An agent asks its home for a permit, or for all 32 (R114), for an access of a given L2POL. -/
def State.ask (s : State) (k ln : Nat) (exclusive : Bool) (pol : Nat) : State :=
  let x := s.slice k
  if x.asks.any fun a => a.line == ln && (a.exclusive || !exclusive) then s
  else if x.asks.any fun a => a.line == ln then s.modAsk k ln fun a => { a with exclusive := true }
  else
    let a : PermitReq := { line := ln, exclusive := exclusive, fails := 0, first := s.gtc, sent := s.gtc, reply := none,
                           persistent := false, pol := pol }
    s.setSlice k { x with asks := x.asks ++ [a] }

/-- The slice's persistent request on the line has had its one access. -/
def State.served (s : State) (k ln : Nat) : State :=
  s.modAsk k ln fun a => if a.persistent then { a with reply := some (some (0, false)) } else a

/-- No further access until the persistent request that was served is ended. -/
def State.spent (s : State) (k ln : Nat) : Bool :=
  match s.askOf k ln with
  | some a => a.persistent && a.reply.isSome
  | none => false

/-- An entry of a home's persistent table is active for the line (R116), or a snoop recalls it (R117, R121): no lease is granted. -/
def State.persistActive (s : State) (ln : Nat) : Bool :=
  (s.slice (permitHome s ln)).persist.any fun p => p.line == ln && p.active
def State.recalling (s : State) (ln : Nat) : Bool := s.recalls.any fun r => r.line == ln

/-- The requester number of a snoop: the pool agent's or the host bridge's (R109). -/
def Snoop.who : Snoop → Nat
  | .pool _ => reqPool
  | .host _ _ => reqHost

/-- A request comes before a snoop: in an earlier mesh cycle, or in the same one by requester number (R109). -/
def SliceEnt.beforeSnoop (q : SliceEnt) (r : Recall) : Bool := q.at_ < r.at_ || (q.at_ == r.at_ && q.who < r.snoop.who)

/-- The permits of the line are promised away from the slice: to another die's active entry, or to a snoop. Of the requests there, only
those that came before go first (R109, R116, R121). -/
def State.barred (s : State) (k ln : Nat) (q : SliceEnt) : Bool :=
  s.recalls.any (fun r => r.line == ln && !q.beforeSnoop r) ||
    (s.slice (permitHome s ln)).persist.any fun p => p.line == ln && p.active && p.since ≤ q.seq && sliceAt s p.die ln != k

/-- Nothing at the slice keeps its permits there: its leases on the line have run out, no Courier engine owns the line, and no write that
comes first, and could be performed, is lined up (R108, R109, R116, R122). -/
def State.letsGoPast (s : State) (k ln : Nat) (first : SliceEnt → Bool) : Bool :=
  let x := s.slice k
  let l := x.lineD ln
  decide (l.expmax ≤ s.gtcAt (k / 256)) && l.courier.isNone &&
    !(x.queue.any (fun q => first q && q.req.line == ln && q.req.writes) && s.permitsAt k ln == 32)

/-- The same, where the writes that arrived before a place in the order of arrivals come first. -/
def State.letsGo (s : State) (k ln seq : Nat) : Bool := s.letsGoPast k ln fun q => q.seq < seq

/-- The agent gives its permits to the home and drops the line, if nothing keeps them there. The device-level home's own slice is no agent
there: it keeps the line listed (log entry 151). -/
def State.putBack (s : State) (k ln : Nat) : Option State :=
  let home := permitHome s ln
  if k = home then some s
  else if !s.letsGo k ln s.arrivals || (s.slice k).linedUp ln || (s.askOf k ln).isSome then none
  else if ((s.slice k).line? ln).isSome then some (s.setSlice k ((s.slice k).unlist (s.gtcAt (k / 256)) ln))
  else some s

/-! ## Eviction (R105, R110) -/

/-- The device-level home writes back what it holds. The halves of a host line that it evicts become E where they were M, and stay as
they are otherwise (log entry 143). -/
def State.homeClean (s : State) (ln : Nat) : State :=
  if s.ownerAt ln ≠ permitHome s ln then s
  else
    match lineZone ln with
    | .pool =>
      let s := s.writeBack ln
      { s with poolState := s.poolState.put .i ln (if s.poolState.atD ln .i == .i then .i else .s) }
    | .host => [0, 1].foldl (fun s h => if s.half ln h == .m then s.setHalf ln h .e else s) s
    | _ => s

/-- The set of a line in a slice of 256 sets of 16 ways (R102; log entry 36). -/
def setOf (ln : Nat) : Nat := ln % 256

/-- A line may be evicted: nothing waits for it, no engine owns it, and an agent's permits can go home (R110, R114). -/
def State.mayEvict (s : State) (k : Nat) (l : L2Line) : Bool :=
  let x := s.slice k
  l.courier.isNone && !(x.asks.any fun a => a.line == l.line) && !x.asked l.line &&
    (k == permitHome s l.line || decide (l.expmax ≤ s.gtcAt (k / 256)))

/-- R110: a full set evicts the least recently used of the lines that may go, one whose leases have run out where there is one; a keep
line only when every way of the set is marked keep (R105). None when no line may go. -/
def State.evictFor (s : State) (k ln : Nat) : Option State :=
  let ways := (s.slice k).lines.filter fun l => setOf l.line == setOf ln
  if ways.length < 16 then some s
  else
    let free := ways.filter fun l => (!l.keep || ways.all fun w => w.keep) && s.mayEvict k l
    let past := free.filter fun l => decide (l.expmax ≤ s.gtcAt (k / 256))
    (minBy? (fun l => l.rank) (if past.isEmpty then free else past)).map fun v =>
      let s := s.setSlice k ((s.slice k).unlist (s.gtcAt (k / 256)) v.line)
      if k = permitHome s v.line then s.homeClean v.line else s

/-- A line is filled or used at a slice (R105, R110): it is listed, most recently used, or least recently used when a line of L2POL 1 is
filled. None while its set has no room. A keep mark stays with the line while the slice lists it (log entry 166). -/
def State.placeLine (s : State) (k ln pol : Nat) : Option State :=
  let here := ((s.slice k).line? ln).isSome
  (if here then some s else s.evictFor k ln).map fun s =>
    let x := s.slice k
    let l := x.lineD ln
    if pol = 1 then (if here then s else s.setSlice k (x.setLine { l with rank := 0 }))
    else s.setSlice k ({ x with uses := x.uses + 1 }.setLine { l with rank := x.uses + 1, keep := l.keep || pol == 2 })

/-! ## The turn of a request (R108, R109, R113, R116) -/

/-- What an access needs at a slice: to read, one permit; at an owner, all 32; to write, all 32 and every lease run out. -/
inductive Need where
  | read | own | write
  deriving DecidableEq, Repr

/-- The line takes its place for an access (R105, R110). A write goes once its leases have run out: a line that is filled takes the slice's
lease floor, which the eviction for it may have raised (R108). -/
def State.seat (s : State) (k ln pol : Nat) (write : Bool) : Bool × State :=
  match s.placeLine k ln pol with
  | none => (false, s)
  | some s => (!write || decide (((s.slice k).lineD ln).expmax ≤ s.gtcAt (k / 256)), s)

/-- The slice lets the line go before the request at a place of its queue. -/
def State.barredAt (s : State) (k idx ln : Nat) : Bool :=
  match (s.slice k).queue[idx]? with
  | some q => s.barred k ln q
  | none => false

/-- The request at a place of a slice's queue may be performed; where it lacks permits, the slice asks for them. Reads do not wait for
the writes that are lined up (R108). `mine` names the Courier engine that the access is for. -/
def State.mayServe (s : State) (k idx ln : Nat) (need : Need) (pol : Nat) (mine : Option Nat) : Bool × State :=
  let x := s.slice k
  let l := x.lineD ln
  if (need != .read && (x.behind idx ln || s.barredAt k idx ln)) || (l.courier.isSome && l.courier != mine) || s.spent k ln then (false, s)
  else if s.permitsAt k ln < (if need == .read then 1 else 32) then (false, s.ask k ln (need != .read) pol)
  else (need != .write || decide (l.expmax ≤ s.gtcAt (k / 256)), s)

/-- An access that is made when its turn comes: its place joins the queue once, and leaves it with the turn. `alloc` says that the line
is placed in the slice. -/
def State.takeTurn (s : State) (k who ln tag : Nat) (write alloc : Bool) (mine : Option Nat) : Bool × State :=
  let same (e : SliceEnt) : Bool := e.who == who && e.req == .turn ln tag write
  let s := if (s.slice k).queue.any same then s else s.enqueue k who (.turn ln tag write)
  match (s.slice k).queue.findIdx? same with
  | none => (false, s)
  | some idx =>
    match s.mayServe k idx ln (if write then .write else .read) 0 mine with
    | (false, s) => (false, s)
    | (true, s) =>
      match if alloc then s.seat k ln 0 write else (true, s) with
      | (false, s) => (false, s)
      | (true, s) => (true, (s.unqueue k idx).served k ln)

/-- The places that a requester holds under a tag leave the queues. -/
def State.dropTurns (s : State) (who tag : Nat) : State :=
  let mine (e : SliceEnt) : Bool := e.who == who && match e.req with
    | .turn _ t _ => t == tag
    | _ => false
  { s with slices := s.slices.map fun e => if e.2.queue.any mine then (e.1, { e.2 with queue := e.2.queue.filter fun q => !mine q }) else e }

/-! ## Writes of device agents (R109, R428) -/

/-- A lined-up write of an agent is performed when its turn comes, behind the agent's earlier writes. One of no bytes is a read of the line: it
takes the read's turn and place, and changes no byte (R428). -/
def State.tryAgent (s : State) (k idx : Nat) : State :=
  match (s.slice k).queue[idx]? with
  | some e =>
    match e.req with
    | .agent ln bs =>
      let earlier := s.slices.any fun y => y.2.queue.any fun q => q.who == e.who && q.seq < e.seq && match q.req with
        | .agent _ _ => true
        | _ => false
      if earlier then s
      else
        match s.mayServe k idx ln (if bs.isEmpty then .read else .write) 0 none with
        | (false, s) => s
        | (true, s) =>
          match s.seat k ln 0 (!bs.isEmpty) with
          | (false, s) => s
          | (true, s) =>
            let s := s.unqueue k idx
            (if bs.isEmpty then s else s.storeLine k ln bs).served k ln
    | _ => s
  | none => s

/-- Bytes by offset in a line, for an agent's write of bytes at an address. -/
def linePart (pa : Nat) (bs : List Byte) (ln : Nat) : List (Nat × Byte) :=
  bs.zipIdx.filterMap fun e =>
    let a := canonPA (pa + e.2)
    if lineOf a = ln then some (a % 128, e.1) else none

/-- An access of an agent to one line is lined up at its home slice, and performed at once where nothing keeps it (R108, R109). -/
def State.lineAgent (s : State) (who ln : Nat) (bs : List (Nat × Byte)) : State :=
  let k := permitHome s ln
  let s := s.enqueue k who (.agent ln bs)
  match (s.slice k).queue.findIdx? fun q => q.seq + 1 == s.arrivals with
  | some idx => s.tryAgent k idx
  | none => s

/-- A write by an agent, line by line. -/
def State.lineWrite (s : State) (who pa : Nat) (bs : List Byte) : State :=
  (dedup ((List.range bs.length).map fun i => lineOf (canonPA (pa + i)))).foldl (fun s ln => s.lineAgent who ln (linePart pa bs ln)) s

/-- A write by the steward, a core's fault logic or another unit of the device. -/
def State.agentWrite (s : State) (pa : Nat) (bs : List Byte) : State := s.lineWrite reqSteward pa bs

/-- The writes of the device's units that came before number `n` in the order of all arrivals are performed. -/
def State.agentDone (s : State) (n : Nat) : Bool :=
  s.slices.all fun x => x.2.queue.all fun q => q.who != reqSteward || decide (n ≤ q.seq) || match q.req with
    | .agent _ _ => false
    | _ => true

/-- The writes of the device's units that are lined up, the latest first, as (address, byte). -/
def State.agentQueue (s : State) : List (Nat × Byte) :=
  let es := s.slices.flatMap fun x => x.2.queue.filterMap fun q => match q.req with
    | .agent ln bs => if q.who = reqSteward then some (q.seq, bs.map fun b => (ln * 128 + b.1, b.2)) else none
    | _ => none
  (sortBy (fun a b => b.1 ≤ a.1) es).flatMap fun e => e.2

/-- Memory as the device's units read it: with their own writes that are lined up. -/
def agentByte (s : State) (q : List (Nat × Byte)) (pa : Nat) : Byte :=
  match q.find? fun e => e.1 == canonPA pa with
  | some e => e.2
  | none => s.memByte pa
def State.rdByte (s : State) (pa : Nat) : Byte := agentByte s s.agentQueue pa
def State.rdBytes (s : State) (pa n : Nat) : List Byte :=
  let q := s.agentQueue
  (List.range n).map fun i => agentByte s q (pa + i)
def State.rdNat (s : State) (pa n : Nat) : Nat := leNat (s.rdBytes pa n)
def State.rd64 (s : State) (pa : Nat) : DWord := w64 (s.rdNat pa 8)

end Sys2Proof.Machine
end

