-- ==== Sys2Proof/Machine/Mesh.lean ====
section
/-! DEFINITION. Packets within a device: where a record comes from (R380), dead-letter records (R298), and the guards of the package mesh
(R297, R440). -/

namespace Sys2Proof.Machine

/-- Words 2 to 7 with named words; every other word zero. -/
def tailOf (ws : List (Nat × Nat)) : List DWord := (List.range 6).map fun i => w64 (NMap.atD ws (i + 2) 0)

/-- Where a record comes from (R380): the SRC field. -/
def srcCore (ci : Nat) : Nat := if ci < 1024 then dieOf ci * 4096 + ci % 256 else 3 * 2 ^ 14 + dieOf ci * 4096
def srcIngress (die : Nat) : Nat := 2 ^ 14 + die * 4096
def srcPort (port : Nat) : Nat := 2 * 2 ^ 14 + port / 9 * 4096 + port
def srcSteward (die : Nat) : Nat := 3 * 2 ^ 14 + die * 4096

/-- SRC_CORE of a core (R293). -/
def srcOfCore (ci : Nat) : Nat := if ci < 1024 then ci else 0x3FF

/-! ## Dead letters (R298) -/

/-- The KIND code of a packet (R293). -/
def pktKind : PktBody → Nat
  | .token t => match t.kind with
    | .normal => 0x01
    | .eos => 0x02
    | .handler => 0x03
    | .notify => 0x04
  | .read _ _ _ => 0x10
  | .write _ => 0x11
  | .atomic _ _ _ => 0x12
  | .put _ _ _ _ => 0x13
  | .multicast _ => 0x14
  | .combine _ _ => 0x15
  | .query _ => 0x16
  | .reply _ _ _ | .part _ _ => 0x20
  | .ack _ _ _ => 0x21
  | .receipt _ _ => 0x22
  | .deadLetter _ => 0x30
  | .management => 0x3F
  | .unlisted kind => kind

/-- The causes of R298. -/
def dlColourDead : Nat := 1
def dlWidth : Nat := 2
def dlNoSlot : Nat := 3
def dlKey : Nat := 4
def dlParapet : Nat := 5
def dlIncarnation : Nat := 6
def dlNoRoute : Nat := 7

/-- PLACE of a tile, and of a device link port (0xFF with no trained link) (R298). -/
def placeTile (ci : Nat) : Nat := dieOf ci * 256 + tileX ci * 16 + tileY ci
/-- R298, PLACE_KIND 1: the die and the port; with no trained link the die is 0 (log entry 173). -/
def placePort (port : Nat) : Nat := (if port = 0xFF then 0 else port / 9 * 256) + port
/-- The tile whose router stands at a link port: the port's die, and a tile that the spec does not name (log entry 81). -/
def linkTile (port : Nat) : Nat := tileAt (port / 9) (Config.portTile port % 192 / 16) (Config.portTile port % 16)
/-- PLACE of the guard of a link port (R298). -/
def placeLinkGuard (port : Nat) : Nat := placeTile (linkTile port)
def placeSwitch (sw port : Nat) : Nat := sw * 256 + port

/-- Payload words n and n + 1 as one record word. -/
def payPair (ws : List Word) (n : Nat) : Nat := ((ws[n]?).getD 0).toNat + 2 ^ 32 * ((ws[n + 1]?).getD 0).toNat

/-- Words 2 to 7 of a dead-letter record (R298). -/
def deadTail (cause kind place : Nat) (p : Packet) : List DWord :=
  let w2 := cause * 2 ^ 56 + kind * 2 ^ 52 + place % 2 ^ 20 * 2 ^ 32 + p.srcDev * 2 ^ 16 + p.srcCore
  let w3 := p.key.toNat * 2 ^ 48 + p.inc.toNat * 2 ^ 40 + pktKind p.body * 2 ^ 32 + p.dstDev * 2 ^ 16 + p.tasid
  match p.body with
  | .token t =>
    tailOf [(2, w2), (3, w3),
      (4, t.blk.toNat * 2 ^ 52 + t.slot.toNat * 2 ^ 49 + t.colour.toNat * 2 ^ 36 + t.wlog.toNat * 2 ^ 32 + t.tag.toNat),
      (5, payPair t.payload 0), (6, payPair t.payload 2), (7, payPair t.payload 4)]
  | .read _ _ _ | .write _ | .atomic _ _ _ | .put _ _ _ _ | .combine _ _ => tailOf [(2, w2), (3, w3), (5, p.tva % 2 ^ 56)]
  | _ => tailOf [(2, w2), (3, w3)]

/-! ## The guards of the package mesh (R297, R440) -/

/-- R297: a key's tenant matches that of a place; key 0 passes. -/
def State.tenantOk (s : State) (key : BitVec 16) (tenant : Nat) : Bool :=
  key == 0 || s.dev.keyTenant.atD key.toNat 0 == tenant

/-- Package position of a tile, and the tile at a position. -/
def pkgX (ci : Nat) : Nat := 16 * (dieOf ci % 2) + tileX ci
def pkgY (ci : Nat) : Nat := 12 * (dieOf ci / 2) + tileY ci
def pkgTile (x y : Nat) : Nat := tileAt (x / 16 + 2 * (y / 12)) (y % 12) (x % 16)

/-- The numbers from a to b, both included, in order. -/
def towards (a b : Nat) : List Nat :=
  if a ≤ b then (List.range (b - a + 1)).map (a + ·) else (List.range (a - b + 1)).map (a - ·)

/-- The tiles on the path between two tiles: along x first, then along y. -/
def pkgPath (a b : Nat) : List Nat :=
  ((towards (pkgX a) (pkgX b)).map fun x => pkgTile x (pkgY a)) ++
    ((towards (pkgY a) (pkgY b)).drop 1).map fun y => pkgTile (pkgX b) y

/-- R297, R415: the first tile on its path whose guard drops a packet of a core's key, and whether the packet enters it through a
die edge. -/
def State.guardStop (s : State) (ci cj : Nat) : Option (Nat × Bool) :=
  if ci < 1024 ∧ cj < 1024 then
    let path := pkgPath ci cj
    (path.zip (path.drop 1)).findSome? fun e =>
      if s.tenantOk (BitVec.ofNat 16 (s.core ci).cfg.key) (s.dev.tileTenant.atD e.2 0) then none
      else some (e.2, dieOf e.1 != dieOf e.2)
  else none

/-- The input port of a tile's router at which a packet from a neighbouring tile comes: from the west, the east, the north or the south
of the package mesh (log entry 156). -/
def hopPort (a b : Nat) : Nat :=
  if pkgY a = pkgY b then bit01 (pkgX b < pkgX a) else 2 + bit01 (pkgY b < pkgY a)

/-- The input port by which a core's packets from a source come: its own by none, those of its package by the last hop of their path, and
those of link ports, engines and stewards by port 4 (log entry 156). -/
def State.inPort (s : State) (ci srcDev srcCore : Nat) : Option Nat :=
  if srcDev ≠ s.dev.devNum ∨ srcCore = 0x3FF ∨ 1024 ≤ ci then some 4
  else if srcCore = ci then none
  else match (pkgPath srcCore ci).reverse with
    | b :: a :: _ => some (hopPort a b)
    | _ => none

/-- A core's token as a packet within its device (R293). -/
def State.meshPacket (s : State) (ci : Nat) (t : Token) : Packet :=
  { key := BitVec.ofNat 16 (s.core ci).cfg.key, inc := s.dev.inc, srcDev := s.dev.devNum, dstDev := s.dev.devNum,
    srcCore := srcOfCore ci, tasid := (s.core ci).cfg.asid, tva := 0, reqid := 0, body := .token t }

end Sys2Proof.Machine
end

