-- ==== Sys2Proof/Machine/Ops.lean ====
section
/-! DEFINITION. The named operations over the state that every meaning shares: fault records (R380 to R385), aborts (R31), taking a
block fault (R382, R386) and the return from one (R387). -/

namespace Sys2Proof.Machine

/-! ## Context descriptors and fault records -/

/-- Word n of an ASID's context descriptor (R88). An uncorrectable error there is not reported: R92 gives WALK_ERROR to region and table
entries only (log entry 145). -/
def State.ctxWord (s : State) (asid n : Nat) : Nat := (s.mem64 (s.dev.ctxTab + 32 * asid + 8 * n)).toNat
def State.ctxValid (s : State) (asid : Nat) : Bool := s.ctxWord asid 0 / 2 ^ 63 % 2 == 1
/-- FLOG of an ASID (R88). -/
def State.flog (s : State) (asid : Nat) : Nat := field (s.ctxWord asid 3) 6 46 * 64

/-- Word n of a group's entry in the multicast group table (R318). -/
def State.mcAt (s : State) (group n : Nat) : Nat := s.dev.mcTab + 32 * (group % 4096) + 8 * n
def State.mcWrite (s : State) (group n v : Nat) : State := s.agentWrite (s.mcAt group n) (natLe 8 v)

def Cls.code : Cls → Nat
  | .trap => 1 | .breakpoint => 2 | .illegal => 3 | .privilege => 4 | .translation => 5 | .poolRegion => 6
  | .localAccess => 7 | .globalAccess => 8 | .remoteAccess => 9 | .matrixOperand => 10 | .courierOperand => 11
  | .courier => 12 | .token => 13 | .sbufOverflow => 14 | .linePoisoned => 15 | .memError => 16 | .refill => 17
  | .spillFull => 18 | .stalled => 19 | .region => 20 | .spanBroken => 21 | .mcGap => 22 | .deadLetter => 23
  | .deviceDead => 24 | .poolLink => 25 | .handler => 26 | .halted => 27 | .mcStatus => 28

/-- R381: write a record of eight words to an ASID's fault record area, or count it LOST when the area is full. -/
def State.writeRecord (s : State) (asid : Nat) (ws : List DWord) : State :=
  if !s.ctxValid asid then s
  else
    let f := s.flog asid
    let slots := 2 ^ field (s.rdNat f 8) 0 5
    let wr := field (s.rdNat (f + 8) 8) 0 32
    let rd := field (s.rdNat (f + 16) 8) 0 32
    if (wr + 2 ^ 32 - rd) % 2 ^ 32 = slots then
      s.agentWrite (f + 24) (natLe 4 (field (s.rdNat (f + 24) 8) 0 32 + 1))
    else
      let s := s.agentWrite (f + 8) (natLe 4 (wr + 1))
      s.agentWrite (f + 64 + 64 * (wr % slots)) (ws.flatMap fun w => natLe 8 w.toNat)

/-- The tile of grid core k as the sending core's route table gives it (R348): its offsets when VALID, else the placed
tile. -/
def State.routeTile (s : State) (r : Region) (from_ k : Nat) : Nat :=
  let e := (s.core from_).cfg.routes.atD k 0
  if e / 2 ^ 15 % 2 = 1 then
    let dy := sextN (field e 8 5) 5
    let dx := sextN (field e 0 5) 5
    tileAt (field e 13 2) ((tileY from_ : Int) + dy).toNat ((tileX from_ : Int) + dx).toNat
  else (r.cores[k]?).getD from_

/-- The route entry at which the placement list of a block begins on a core: PFIRST of its slot (R350), or 0. -/
def Core.firstRoute (c : Core) (bid : Nat) : Nat := ((c.cfg.slots.find? fun x => x.2.bid == bid).map fun x => x.2.pfirst).getD 0

/-- R13: the home core of an instance of block `bid` with the given tag, as seen from a core. -/
def State.homeCore (s : State) (r : Region) (from_ bid : Nat) (tag : Nat) : Option Nat :=
  (r.blocks.find? fun b => b.bid == bid).map fun b =>
    s.routeTile r from_ ((s.core from_).firstRoute bid + tag / 2 ^ b.hs % max b.place 1)

/-- A token put at a core's input, where TOKEN_ARRIVAL meets it. -/
def State.toInbox (s : State) (ci : Nat) (t : InTok) : State := s.modCore ci fun c => { c with inbox := c.inbox ++ [t] }

/-- The next fault identifier of a region: it skips 0 and 0xFFFF_FFFF (R380). -/
def nextFid (n : Nat) : Nat := if n + 1 ≥ 0xFFFFFFFF then 1 else n + 1

/-- R380: a record takes the next FID of the region that it belongs to; 0 without one. -/
def State.takeFid (s : State) (r? : Option Region) : Nat × State :=
  match r? with
  | some r => (r.fid, s.setRegion { r with fid := nextFid r.fid })
  | none => (0, s)

/-- R380: write one record with a given stamp for an ASID, under the next FID of the region that it belongs to, if one is armed. `tail` is
words 2 to 7. Answers the FID. -/
def State.recordFor (s : State) (r? : Option Region) (asid src stamp : Nat) (cls : Cls) (parked ends : Bool) (tail : List DWord) :
    Nat × State :=
  let (fid, s) := s.takeFid r?
  let w1 := cls.code * 2 ^ 56 + bit01 parked * 2 ^ 51 + bit01 ends * 2 ^ 50 + src * 2 ^ 32 + fid
  (fid, s.writeRecord asid ([w64 stamp, w64 w1] ++ tail))

/-- The tile of another tenant at which a region's handler token is dropped (R297): on a core's path to its handler, or, of one that no core
sends, at the handler's own tile. -/
def State.handlerStop (s : State) (r : Region) (who : Option Nat) (dst : Nat) : Option (Nat × Bool) :=
  match who with
  | some ci => s.guardStop ci dst
  | none => if dst < 1024 ∧ !s.tenantOk (BitVec.ofNat 16 r.key) (s.dev.tileTenant.atD dst 0) then some (dst, false) else none

/-- R384: the handler token of a record, to the handler block's home core with the faulting core's index as its tag. It comes once the
record is visible. One that a guard drops leaves a record of its own, and no further token. -/
def State.sendHandler (s : State) (r : Region) (fid cls parked ends : Nat) (who : Option Nat) : State :=
  let flth := r.flth.toNat
  if flth / 2 ^ 31 % 2 = 0 then s
  else
    let hbid := field flth 0 12
    let hcol := field flth 16 12
    let col := r.colour hcol
    let tag := match who with
      | some ci => (s.core ci).cfg.core
      | none => 0
    let src := match who with
      | some ci => srcOfCore ci
      | none => 0x3FF
    let t : Token := { kind := .handler, blk := BitVec.ofNat 12 hbid, slot := 0, colour := BitVec.ofNat 12 hcol,
                       wlog := BitVec.ofNat 3 (if col.live then col.wlog else 0), rscope := .dev, tag := w32 tag,
                       payload := [w32 fid, w32 (cls * 2 ^ 24 + parked * 2 ^ 19 + ends * 2 ^ 18)] }
    let at_ := who.getD ((r.cores[0]?).getD 0)
    let dst := (s.homeCore r at_ hbid tag).getD at_
    let p : Packet := { key := BitVec.ofNat 16 r.key, inc := s.dev.inc, srcDev := s.dev.devNum, dstDev := s.dev.devNum, srcCore := src,
                        tasid := r.asid, tva := 0, reqid := 0, body := .token t }
    match s.handlerStop r who dst with
    | some (tile, edge) =>
      (s.recordFor (s.region? r.num) r.asid (srcCore tile) (s.gtcAt (dieOf tile)) .deadLetter false false
        (deadTail dlParapet (if edge then 4 else 3) (placeTile tile) p)).2
    | none => s.toInbox dst { tok := t, key := p.key, inc := p.inc, tasid := p.tasid, srcDev := s.dev.devNum, srcCore := src, counted := false,
                              grp := none, frame := none, after := s.arrivals }

/-- R380, R384: write one record and send the handler token of the region that it belongs to, if one is armed. `who` is the core that took
the fault, if one did. Answers the FID. -/
def State.raiseFor (s : State) (r? : Option Region) (asid src stamp : Nat) (cls : Cls) (parked ends : Bool) (tail : List DWord)
    (who : Option Nat) (quiet : Bool) : Nat × State :=
  let (fid, s) := s.recordFor r? asid src stamp cls parked ends tail
  match r? with
  | some r => (fid, if quiet then s else s.sendHandler r fid cls.code (bit01 parked) (bit01 ends) who)
  | none => (fid, s)

/-- The region that a record for an ASID belongs to: that of the core that took the fault, else the one that uses the ASID. -/
def State.recordRegion? (s : State) (asid : Nat) (who : Option Nat) : Option Region :=
  match (who.bind s.coreRegion?).filter fun r => r.asid == asid with
  | some r => some r
  | none => s.asidRegion? asid

def State.raiseAt (s : State) (asid src stamp : Nat) (cls : Cls) (parked ends : Bool) (tail : List DWord)
    (who : Option Nat) (quiet : Bool) : Nat × State :=
  s.raiseFor (s.recordRegion? asid who) asid src stamp cls parked ends tail who quiet

/-- A record stamped as its die reads the GTC now. -/
def State.raise (s : State) (asid src : Nat) (die : Nat) (cls : Cls) (parked ends : Bool) (tail : List DWord)
    (who : Option Nat) (quiet : Bool) : Nat × State :=
  s.raiseAt asid src (s.gtcAt die) cls parked ends tail who quiet

/-! ## Aborting a group (R31) -/

/-- R198: the generator state of a lane at firing. -/
def srSeed (k63 : Word) (l : Nat) : BitVec 16 :=
  let x := (BitVec.ofNat 16 k63.toNat) ^^^ BitVec.ofNat 16 (0x9E37 * (l + 1))
  if x = 0 then 1 else x

/-- The operations that an abort does not withdraw (R59, R173, R216): loads, fetches, divisions, Courier copies and table loads. An
ATOMA has either written, and its undo image goes back, or will write nothing. -/
def OpKind.runsOn : OpKind → Bool
  | .bufLoad _ | .load _ _ _ | .fetch | .courier | .tload _ | .result => true
  | .atoma _ _ | .matrix => false

/-- The operations that can fault after their word has issued (R27, R100, R148). -/
def OpKind.faults : OpKind → Bool
  | .load _ _ _ | .fetch | .courier | .atoma _ _ => true
  | .result | .tload _ | .bufLoad _ | .matrix => false

/-- An operation issued before number `num`, or its speculative use of a line, can still fault the block (R100, R111). -/
def Group.mayFault (g : Group) (num : Nat) : Bool :=
  (g.ops.any fun o => o.num < num && !o.dead && !o.ready && o.kind.faults) ||
    g.validation.any fun v => v.op < num && !v.confirmed

/-- The operations of a group that its abort leaves running, dead (R59). One that met its fault has ended, and its flag clears (R148). -/
def Group.runOn (g : Group) : List LongOp :=
  (g.ops.filter fun o => o.kind.runsOn && o.flt.isNone).map fun o => { o with dead := true }

/-- The group as it stands at firing and at every replay: registers, predicates, flags and buffers empty (R155, R197, R198,
R128, R256, R31); it keeps its instances, lanes and frames. Long-latency operations in flight run on dead (R59). -/
def Group.restart (c : Core) (g : Group) : Group :=
  { g with em := g.emFire, pc := 0, status := .ready, prio := g.base, passOver := 0, regs := [], preds := [], flags := [],
           ops := g.runOn,
           fpsr := 0, sr := allLanes.map fun l => (l, srSeed (c.consts.atD 63 0) l), ll := 2048, gtchi := none,
           latch := none, tbind := c.tcur, undo := [], tileUndo := [], sbuf := [], deposits := [], fences := [],
           acqWait := false, sendq := [], validation := [], footprint := [], l1used := [], deferred := [], bars := [],
           replaying := true, place := none, areaWait := none }

/-- Write back undo images; the last taken is restored first. -/
def Core.restoreUndo (c : Core) (us : List UndoLine) : Core :=
  us.foldr (fun u c => c.setBuf u.buf ((c.buf u.buf).writeBytes (u.line * 128) u.image)) c

/-- Queue entries of the matrix unit in use; a fused operation takes one (R258). -/
def Core.matEntries (c : Core) : Nat :=
  (c.matq.filter fun m => m.fused == 0).length + (dedup ((c.matq.map fun m => m.fused).filter (· != 0))).length

/-- A complete latch enters the queue when an entry is free (R258). -/
def Core.fuseLatch (c : Core) : Core :=
  match c.gang with
  | some l =>
    if l.full && c.matEntries < 8 then
      match l.members with
      | [] => { c with gang := none }
      | m :: _ => { c with gang := none, matq := c.matq ++ l.members.map fun x => { x with fused := m.num + 1 } }
    else c
  | none => c

/-- Withdraw what an uncommitted group holds outside itself: matrix operations that wait (R269), latch membership (R258), colour
ids (R373), slots closed by LDBLK (R376) and claims (R387). -/
def Core.withdraw (c : Core) (gi : Nat) (g : Group) : Core :=
  let ids := g.deferred.filterMap fun d => match d with
    | .colAlloc id _ _ => some id
    | _ => none
  let closed := g.deferred.filterMap fun d => match d with
    | .ldblk si _ => some si
    | _ => none
  let c := Core.fuseLatch { c with
    matq := c.matq.filter fun m => m.grp != gi
    gang := match c.gang with
      | some l =>
        let ms := l.members.filter fun m => m.grp != gi
        if ms.isEmpty then none else some { l with members := ms }
      | none => none
    reserve := sortBy (· ≤ ·) (c.reserve ++ ids)
    park := c.park.map fun p => if p.claim == some gi then { p with claim := none, verdict := none } else p }
  closed.foldl (fun c si => c.setSlot si { c.slot si with closing := false }) c

/-- R31: restore every undo image of the group and release its locks, on its core. -/
def Core.undoGroup (c : Core) (gi : Nat) (g : Group) : Core :=
  (c.restoreUndo (g.undo ++ g.tileUndo)).withdraw gi g

/-- The number of a group slot in the die's miss queue (R94). -/
def groupNum (ci gi : Nat) : Nat := ci * 64 + gi

/-- A group that aborts or leaves waits for no walk any more; a walk goes on, and its leaf is cached (R94). -/
def State.dropMisses (s : State) (ci gi : Nat) : State :=
  let d := s.die (dieOf ci)
  let who := groupNum ci gi
  s.setDie (dieOf ci) { d with failed := d.failed.filter fun f => f.who != who,
                               missq := d.missq.map fun m => { m with who := m.who.filter (·.who != who) },
                               walks := d.walks.map fun w => { w with who := w.who.filter (·.who != who) } }

/-- R31: abort a group and replay it at once, as after a wound, a lease-version mismatch or a soft error. -/
def State.abortReplay (s : State) (ci gi : Nat) : State :=
  (s.dropMisses ci gi).modCore ci fun c =>
    match c.group? gi with
    | none => c
    | some g => let c := c.undoGroup gi g; c.setGroup gi { g.restart c with mismatches := 0 }

/-- The matching entries of a group change phase (R386). -/
def Core.setPhase (c : Core) (ids : List Nat) (ph : EntryPhase) : Core :=
  { c with entries := c.entries.map fun e => if ids.contains e.1 then (e.1, { e.2 with phase := ph }) else e }

/-- A group leaves its slot; its team entry unbinds if its colour is dead and this was its last group (R25, R374). -/
def State.leaveSlot (s : State) (ci gi : Nat) : State :=
  let s := s.dropMisses ci gi
  let c := s.core ci
  match c.group? gi with
  | none => s
  | some g =>
    let c := c.dropGroup gi
    let live := match s.coreRegion? ci with
      | some r => (r.colour g.colour).live
      | none => true
    let c := if !live && !(c.groups.any fun e => e.2.colour == g.colour) then
        { c with teams := c.teams.filter fun t => t.2.colour != some g.colour }
      else c
    s.setCore ci c

/-- Divisions that nobody waits for leave the divide unit's queue. -/
def Core.dropDivs (c : Core) (os : List LongOp) : Core := { c with divq := c.divq.filter fun n => !os.any fun o => o.num == n }

/-- Discard a group with no verdict to come, as at a region's end (R391). -/
def State.discardGroup (s : State) (ci gi : Nat) : State :=
  match (s.core ci).group? gi with
  | none => s
  | some g => (s.modCore ci fun c => (c.undoGroup gi g).dropDivs g.ops).leaveSlot ci gi

/-- R391, step 1: every core of the region stops collecting and issuing, and every uncommitted group is discarded; step 3:
queued tokens and requests are discarded, with the flushes among them; a discarded token counts as received, so that the tree finds the
region quiescent. -/
def State.beginEnd (s : State) (num : Nat) (how : Ending) : State :=
  match s.region? num with
  | none => s
  | some r =>
    let s := s.setRegion { r with ending := some how }
    r.cores.foldl (fun s ci =>
      let s := (s.core ci).groups.keyList.foldl (fun s gi => s.discardGroup ci gi) s
      s.modCore ci fun c => { c with outbox := [], commits := c.commits.map fun q => { q with flushes := [] }, inbox := [], atomRets := [], overlay := [], spillHeld := [], barArrivals := [],
                                     sources := [], received := c.received + (c.inbox.filter fun t => t.counted).length }) s

/-! ## Taking a block fault (R382 to R386) and the return from it (R387) -/

/-- Words 2 to 7 of a block fault (R383). -/
def blockTail (g : Group) (gi cause word level : Nat) (lanes : LaneMask) (addr : Nat) (detail : Nat) : List DWord :=
  tailOf [(2, cause % 256 * 2 ^ 56 + word % 256 * 2 ^ 48 + level % 16 * 2 ^ 44 + g.bid * 2 ^ 32 + g.colour * 2 ^ 16 +
              g.bslot * 2 ^ 8 + gi),
          (3, lanes.toNat * 2 ^ 32 + g.emFire.toNat), (4, addr % 2 ^ 56),
          (5, g.insts.length * 2 ^ 32 + (g.tagOf 0).toNat), (6, detail), (7, min g.resumes 255)]

/-- A parked collection takes a park entry, or goes to the poste restante when all 64 are taken (R386). -/
def Core.addPark (c : Core) (p : ParkEnt) : Core :=
  if c.park.length < 64 then { c with park := c.park ++ [p] } else { c with parkOver := c.parkOver ++ [p] }

/-- TAKING A BLOCK FAULT. The block aborts (R31): undo images go back, its buffer, queue and registers are gone. Its record
is written and, unless the region ends, the collection is parked with a copy of the record and leaves its group slot
(R386). With no handler enabled, or in the handler block itself, the region ends instead (R385). -/
def State.takeFault (s : State) (ci gi : Nat) (word : Nat) (f : Flt) : State :=
  let c := s.core ci
  match c.group? gi with
  | none => s
  | some g =>
    let asid := c.cfg.asid
    let flth := match s.coreRegion? ci with
      | some r => r.flth.toNat
      | none => 0
    let ends := flth / 2 ^ 31 % 2 = 0 || g.bid == field flth 0 12
    let tail := blockTail g gi f.cause word f.level f.lanes f.addr f.detail
    let s := s.setCore ci (c.undoGroup gi g)
    let stamp := w64 (s.gtcAt (dieOf ci))
    let (fid, s) := s.raise asid (srcCore ci) (dieOf ci) f.cls (!ends) ends tail (some ci) false
    if ends then
      let (_, s) := s.raiseFor (s.recordRegion? asid (some ci)) asid (srcSteward (dieOf ci)) (s.gtcAt (dieOf ci)) .handler false true
        (tailOf [(6, fid)]) none true
      match (s.core ci).region with
      | some num => (s.discardGroup ci gi).beginEnd num .aborted
      | none => s.discardGroup ci gi
    else
      let w1 := f.cls.code * 2 ^ 56 + 2 ^ 51 + srcCore ci * 2 ^ 32 + fid
      let p : ParkEnt := { fid := fid, region := ((s.core ci).region).getD 0, cls := f.cls.code,
                           record := [stamp, w64 w1] ++ tail, bslot := g.bslot, bid := g.bid, colour := g.colour,
                           wlog := g.wlog, insts := g.insts, tags := g.tags, em := g.emFire, prio := (c.slot g.bslot).prio, word := word,
                           resumes := g.resumes, claim := none, verdict := none, refill := none, ops := g.runOn }
      (s.leaveSlot ci gi).modCore ci fun c => (c.setPhase g.insts (.parked fid)).addPark p

/-- An outstanding operation meets a fault. The first in program order is the one that the block takes: the operation keeps its
fault while an earlier one can still fault (R100). It has ended with its fault, so it does not run on past the abort (R148). -/
def State.failOp (s : State) (ci gi num : Nat) (f : Flt) : State :=
  match (s.core ci).group? gi with
  | none => s
  | some g =>
    match g.ops.find? fun o => o.num == num && !o.dead with
    | none => s
    | some o =>
      let s := s.setGroup ci gi { g with ops := replaceIf (fun p => p.num == num) (fun p => { p with flt := some f }) g.ops }
      if g.mayFault num then s else s.takeFault ci gi o.word f

/-- The lowest free group slot of the 64 (R21). -/
def Core.freeGroup? (c : Core) : Option Nat := (List.range 64).find? fun i => (c.group? i).isNone

/-- R155: registers a block of this demand takes of the core's 65,536. -/
def regsTaken (regd : Nat) : Nat := 32 * ((regd + 7) / 8) * 8
def Core.regsUsed (c : Core) : Nat := (c.groups.map fun e => regsTaken (hdrRegd (c.slotHdr e.2))).foldl (· + ·) 0

/-- The team entry of a colour, or the lowest free one (R25). -/
def Core.teamFor? (c : Core) (colour : Nat) : Option Nat :=
  match (List.range 64).find? fun t => (c.team t).colour == some colour with
  | some t => some t
  | none => (List.range 64).find? fun t => (c.team t).colour.isNone

/-- Put a collection in a group slot: fire it with a new stamp, em, priority and table binding (R21, R22, R25, R214). A resumed one
brings the operations of its aborted run that still run (R59). -/
def State.fire (s : State) (ci : Nat) (gi team bslot bid colour wlog : Nat) (insts : List Nat) (tags : List Word)
    (em : LaneMask) (resumes : Nat) (passWord : Option Nat) (ops : List LongOp) : State :=
  s.modCore ci fun c =>
    let g : Group := { bslot := bslot, bid := bid, colour := colour, wlog := wlog, insts := insts, tags := tags, em := em,
                       emFire := em, team := team, prio := (c.slot bslot).prio, passOver := 0, stamp := s.gtcAt (dieOf ci),
                       pc := 0, status := .ready, regs := [], preds := [], flags := [], ops := ops, fpsr := 0, sr := [],
                       ll := 2048, gtchi := none, latch := none, tbind := [], undo := [], tileUndo := [], sbuf := [],
                       deposits := [], fences := [], acqWait := false, sendq := [], validation := [], mismatches := 0,
                       footprint := [], l1used := [], deferred := [], bars := [], replaying := false, passWord := passWord,
                       resumes := resumes, commit := none, base := (c.slot bslot).prio, place := none, areaWait := none }
    let t := c.team team
    let c := c.setTeam team { t with colour := some colour }
    let c := c.setSlot bslot { c.slot bslot with lastColl := s.arith }
    let c := { c with gate := match c.gate with
                              | .running _ => .running none
                              | other => other }
    (c.setGroup gi { g.restart c with replaying := false }).setPhase insts (.inGroup gi)

/-- Bring a parked record back from the poste restante when a park entry is free (R386). -/
def Core.refillPark (c : Core) : Core :=
  match c.parkOver with
  | [] => c
  | p :: ps => if c.park.length < 64 then { c with park := c.park ++ [p], parkOver := ps } else c

/-- The claim of a verdict that has taken effect and waits for room: no group slot has this number, so nobody withdraws it. -/
def noGroup : Nat := 64

/-- THE RETURN FROM A FAULT: RESUME makes the collection ready again under R21, with a new firing stamp and one more
resume; with `past`, the replay treats the record's word as NOP (R387). While no group slot, registers or team entry are
free the collection waits as a due collection: its verdict stays in the park entry. -/
def State.resumeParked (s : State) (ci fid : Nat) (past : Bool) : State :=
  let c := s.core ci
  match c.park.find? fun p => p.fid == fid with
  | none => s
  | some p =>
    match p.refill with
    | some _ => s.setCore ci { c with park := c.park.map fun q => if q.fid == fid then { q with verdict := some past, claim := some noGroup } else q }
    | none =>
      match c.freeGroup?, c.teamFor? p.colour with
      | some gi, some t =>
        if c.regsUsed + regsTaken (hdrRegd (c.slot p.bslot).hdr) ≤ 65536 then
          let s := s.setCore ci ({ c with park := c.park.filter fun q => q.fid != fid }.refillPark)
          s.fire ci gi t p.bslot p.bid p.colour p.wlog p.insts p.tags p.em (min (p.resumes + 1) 255)
            (if past then some p.word else none) p.ops
        else s.setCore ci { c with park := c.park.map fun q => if q.fid == fid then { q with verdict := some past, claim := some noGroup } else q }
      | _, _ => s.setCore ci { c with park := c.park.map fun q => if q.fid == fid then { q with verdict := some past, claim := some noGroup } else q }

/-- Free matching entries and their frames (R30 step 4, R387 ABORT): entries go, and their frame lines with them. -/
def Core.freeEntries (c : Core) (ids : List Nat) : Core :=
  { c with entries := c.entries.filter fun e => !ids.contains e.1 }

/-- R387 ABORT: the instances of a parked collection are gone; an ABORT of a REFILL discards the spilled record. -/
def State.abortParked (s : State) (ci fid : Nat) : State :=
  s.modCore ci fun c =>
    match c.park.find? fun p => p.fid == fid with
    | none => c
    | some p =>
      let c := match p.refill with
        | some n => { c with spilled := c.spilled.filter fun r => r.num != n }
        | none => c.freeEntries p.insts
      ({ c with park := c.park.filter fun q => q.fid != fid }.dropDivs p.ops).refillPark

/-! ## Running a word of the issuing group -/

/-- Give the issuing core and group to a meaning; an issue with no group in the slot is not an event of the machine. -/
def withIssuer (s : State) (k : Core → Group → State) : Out :=
  match (s.core s.cur.1).group? s.cur.2 with
  | none => .fault .noIssuer
  | some g => .next (k (s.core s.cur.1) g)

/-- Past the word: the pc moves on, and the group is ready (R58). Issuing returns the pass-over count to zero (R356). -/
def Group.advance (g : Group) : Group := { g with pc := g.pc + 1, status := .ready, passOver := 0, place := none }

/-- Store the issuing group with its word done. -/
def State.finish (s : State) (g : Group) : State := s.setGroup s.cur.1 s.cur.2 g.advance

/-- The word waits at issue (R354): the group tries it again. -/
def State.hold (s : State) (g : Group) : State := s.setGroup s.cur.1 s.cur.2 { g with status := .waiting }

/-- The issuing group takes a block fault at its current word, once no earlier operation of the block can fault (R100). A fault of the word as
a whole has LANES 0 (log entry 176). -/
def State.faultWord (s : State) (g : Group) (f : Flt) : State :=
  if g.mayFault (s.core s.cur.1).nextNum then s.hold g else s.takeFault s.cur.1 s.cur.2 g.pc f

/-- R68, R69: a privileged word in a block without PRIV takes the PRIVILEGE trap; else its effect. -/
def privileged (s : State) (c : Core) (g : Group) (k : State) : State :=
  if c.priv g then k else s.faultWord g { cls := .privilege }

/-- R68, R257: a ganged form in a block without GANG takes the PRIVILEGE trap; else its effect. -/
def ganged (s : State) (c : Core) (g : Group) (k : State) : State :=
  if hdrGang (c.slotHdr g) then k else s.faultWord g { cls := .privilege }

end Sys2Proof.Machine
end

