-- ==== Sys2Proof/Machine/Registers.lean ====
section
/-! DEFINITION. The device register window: what its offsets read (R82, R340, R436), and token posts (R340, R341). -/

namespace Sys2Proof.Machine

/-! ## Reading -/

def stageCode : DevStage → Nat
  | .rom => 1
  | .firmware => 2
  | .records => 3
  | .clocks => 4
  | .memory => 5
  | .links => 6
  | .ready => 7
  | .recovery => 15

/-- DEVSTAT (R436). -/
def Device.devstat (d : Device) : Nat :=
  stageCode d.stage + d.cause.toNat * 2 ^ 8 + bit01 d.gradeB * 2 ^ 16 + (if d.gradeB then 720 else 768) * 2 ^ 32

/-- Free entries of the launch queue (R340). -/
def Device.launchFree (d : Device) : Nat := 64 - d.launchq.length

/-- The 64-bit register at a window offset that is a multiple of 8; undefined places and write-only fields read zero. -/
def State.windowWord (s : State) (off : Nat) : Nat :=
  let d := s.dev
  if off = 0x100000 then d.devstat
  else if off = 0x100008 then d.serial.toNat
  else if d.stage == .recovery then 0
  else if off = 0x1000 then d.posted.toNat * 2 ^ 32 + d.rejected * 2 ^ 16
  else if off = 0x1008 then d.launchFree
  else if off = 0x100010 then s.gtcAt 0 % 2 ^ 64
  else if off = 0x100018 then d.trihorn.toNat + d.onolo.toNat * 2 ^ 36
  else if 0x100020 ≤ off ∧ off < 0x100040 then (d.temps.atD ((off - 0x100020) / 8) 0).toNat
  else if off = 0x100040 then d.watts.toNat
  else if off = 0x100048 then bit01 d.throttle + d.throttles.toNat * 2 ^ 32
  else if 0x100100 ≤ off ∧ off < 0x100120 then field d.attNonce.toNat (8 * (off - 0x100100)) 64
  else if off = 0x100120 then field d.attQpa 6 46 * 64
  else if off = 0x100128 then bit01 d.attBusy + bit01 d.attDone * 2
  else 0

/-- A byte of the window. -/
def State.windowByte (s : State) (off : Nat) : Byte := BitVec.ofNat 8 (s.windowWord (off / 8 * 8) / 2 ^ (8 * (off % 8)))

/-- The base of the register window (R78). -/
def windowBase : Nat := 0xF000000000000

/-- Bytes that an access which no cache serves reads: the window's registers, or memory (R82). -/
def State.uncachedBytes (s : State) (pa n : Nat) : List Byte :=
  (List.range n).map fun i => if zoneOf (pa + i) = .window then s.windowByte (pa + i - windowBase) else s.memByte (pa + i)

/-! ## Token posts -/

/-- R341: the launch token is well formed. -/
def tokenOk (ws : List DWord) : Bool :=
  let w (i : Nat) : Nat := ((ws[i]?).getD 0).toNat
  (w 0 == 1 || w 0 == 2) && field (w 1) 52 12 == 0 && w 1 % 64 == 0 && field (w 2) 32 32 == 0 &&
  (if w 0 == 1 then w 3 == 0 else field (w 3) 16 48 == 0) && w 4 + w 5 + w 6 + w 7 == 0

/-- A write or token rejected at a port; the count saturates. -/
def State.rejectPost (s : State) : State := s.setDev { s.dev with rejected := min (s.dev.rejected + 1) 65535 }

/-- A token post at one port; one before READY or during a reset is rejected (R340, R430, R437). -/
def State.postToken (s : State) (ws : List DWord) : State :=
  if s.dev.stage == .ready && s.dev.restart.isNone && tokenOk ws && s.dev.launchq.length < 64 then
    s.setDev { s.dev with launchq := s.dev.launchq ++ [ws], posted := s.dev.posted + 1 }
  else s.rejectPost

/-- One indivisible write of bytes at window offsets: each port it covers whole takes a token, each it touches otherwise
counts a rejection (R340). In RECOVERY the ports do not respond (R429). -/
def State.postWrite (s : State) (bytes : List (Nat × Byte)) : State :=
  if s.dev.stage == .recovery then s else
  (List.range 64).foldl (fun s n =>
    let mine := bytes.filter fun e => e.1 / 64 == n
    if mine.isEmpty then s
    else if (List.range 64).all fun i => mine.any fun e => e.1 == 64 * n + i then
      let at_ (i : Nat) : Byte := ((mine.find? fun e => e.1 == 64 * n + i).map Prod.snd).getD 0
      s.postToken ((List.range 8).map fun k => w64 (leNat ((List.range 8).map fun j => at_ (64 * n + 8 * k + j - 64 * n))))
    else s.rejectPost) s

/-! ## Other writes to the window (R433, R436, R437) -/

/-- R118, R398: lines that the device changed and did not write back are lost; the pool keeps its own copies. -/
def State.dropPool (s : State) : State :=
  let s := s.stale.foldl (fun s x => s.pokeBytes (x.1 * 128) x.2) s
  { s with stale := [], poolState := [] }

/-- The reset that waits for the regions to end (R398, R437): the pool is not written back, the incarnation is the new one, and bring-up starts
again at ROM, with key slots 0 to 3 to be loaded and the others empty (R432). -/
def State.tryRestart (s : State) : State :=
  match s.dev.restart with
  | none => s
  | some inc =>
    if !s.dev.regions.isEmpty then s
    else
      let s := s.dropPool
      s.setDev { s.dev with inc := inc, stage := .rom, cause := 0, keys := [], posted := 0, rejected := 0, launchq := [], stewardq := [],
                            attBusy := false, attDone := false, attWritten := none, throttles := 0, incExchanged := false, restart := none }

/-- R391, R398, R437: every armed region ends, and then the device restarts under an incarnation. -/
def State.restartAs (s : State) (inc : Byte) : State :=
  let s := (s.dev.regions.map fun r => r.num).foldl (fun s n => s.beginEnd n .aborted) s
  (s.setDev { s.dev with restart := some inc }).tryRestart

/-- RESETCTL (R437): every region ends, the incarnation advances, and bring-up starts again at ROM. -/
def State.resetDevice (s : State) : State := s.restartAs (s.dev.inc + 1)

/-- ATT_CTL (R433): GO starts a quote; a write while BUSY is discarded. -/
def State.attGo (s : State) (v : DWord) : State :=
  if s.dev.attBusy then s
  else
    let go := v.getLsbD 63
    s.setDev { s.dev with attQpa := field v.toNat 6 46 * 64, attBusy := go, attDone := !go && s.dev.attDone }

/-- A write of 64 bits to the register at a window offset that is a multiple of 8: its writable fields are set (R436). -/
def State.writeWindow64 (s : State) (off : Nat) (v : DWord) : State :=
  if s.dev.stage == .recovery && off != 0x100200 then s
  else if 0x100100 ≤ off ∧ off < 0x100120 then
    if s.dev.attBusy then s
    else s.setDev { s.dev with attNonce := BitVec.ofNat 256 (setField s.dev.attNonce.toNat (8 * (off - 0x100100)) 64 v.toNat) }
  else if off = 0x100120 then s.attGo v
  else if off = 0x100200 then (if v.toNat % 2 ^ 32 = 0x52455345 then s.resetDevice else s)
  else s

/-- One indivisible store of bytes at window offsets: token ports, then each other register it touches; bytes of a register that
are not stored keep their value. -/
def State.windowStore (s : State) (bytes : List (Nat × Byte)) : State :=
  let s := s.postWrite bytes
  let regs := dedup ((bytes.filter fun e => 4096 ≤ e.1).map fun e => e.1 / 8 * 8)
  regs.foldl (fun s off =>
    let bs := (List.range 8).map fun i =>
      ((bytes.find? fun e => e.1 == off + i).map Prod.snd).getD (s.windowByte (off + i))
    s.writeWindow64 off (w64 (leNat bs))) s

/-! ## Events of the window -/

/-- TOKEN_POST: an agent's write of bytes from a window offset upward; the bytes name their offsets from it. -/
def execTokenPost (off : Nat) (bytes : List (Nat × Byte)) (s : State) : Out :=
  .next (s.postWrite (bytes.map fun e => (off + e.1, e.2)))

/-- ATT_CTL_GO: the host writes ATT_CTL. -/
def execAttCtlGo (value : DWord) (s : State) : Out := .next (if s.dev.stage == .recovery then s else s.attGo value)

/-- RESETCTL: the host writes the register. -/
def execResetctl (value : Word) (s : State) : Out :=
  .next (if value = 0x52455345 then s.resetDevice else s)

end Sys2Proof.Machine
end

