-- ==== Sys2Proof/Machine/Translate.lean ====
section
/-! DEFINITION. Translation: page tables and the walk (R84 to R92), the translation structures (R93, R94), and the
translation of an access. -/

namespace Sys2Proof.Machine

/-! ## Causes of R92 -/

def xNotMapped : Nat := 1
def xWrite : Nat := 2
def xPriv : Nat := 3
def xKind : Nat := 4
def xLeafFormat : Nat := 5
def xTablePA : Nat := 6
def xPaRange : Nat := 7
def xAddress : Nat := 8
def xPeerEntry : Nat := 9
def xWalkError : Nat := 10
def xNoContext : Nat := 11

/-! ## Leaves (R84 to R87) -/

def leafW (e : DWord) : Bool := e.getLsbD 2
def leafP (e : DWord) : Bool := e.getLsbD 3
def leafKind (e : DWord) : Nat := field e.toNat 4 2
def leafCache (e : DWord) : Nat := field e.toNat 6 2
def leafCont (e : DWord) : Nat := field e.toNat 8 4
/-- OA of a memory leaf; TPN × 4096 of a peer leaf. -/
def leafOut (e : DWord) : Nat := if leafKind e = 1 then field e.toNat 12 36 * 4096 else field e.toNat 12 40 * 4096
def leafPeerIx (e : DWord) : Nat := field e.toNat 48 16

/-- Page size of a leaf at level k, a run included (R85). -/
def leafSize (k : Nat) (e : DWord) : Nat := 2 ^ (48 - 9 * k) * 2 ^ leafCont e

/-- The cache classes that R78 allows in a range. -/
def classAllowed (z : Zone) (cache : Nat) : Bool :=
  match z with
  | .hbm | .pool => cache ≤ 1
  | .host => cache ≤ 2
  | .window => cache == 2
  | .hole => true

/-- The leaf's place in its run, and the base that its page or run maps to. -/
def runBase (k : Nat) (e : DWord) : Nat := leafOut e - leafOut e % leafSize k e

/-- R87: malformed, for a leaf at index `ix` of a level-k table. -/
def leafMalformed (k ix : Nat) (e : DWord) : Bool :=
  let s := 2 ^ (48 - 9 * k)
  let cont := leafCont e
  let peer := leafKind e == 1
  (cont != 0 && cont != 4) || leafCache e == 3 || leafKind e > 1 || (cont == 4 && k == 1) ||
  (peer && leafCache e != 0) || (!peer && field e.toNat 52 12 != 0) ||
  (if cont == 0 then leafOut e % s != 0 else leafOut e % (16 * s) != ix % 16 * s) ||
  (!peer && !classAllowed (zoneOf (runBase k e)) (leafCache e))

/-- R87, R92: the page lies wholly inside one range of R78, and in the configured pool. -/
def paInRange (s : State) (base size : Nat) : Bool :=
  let last := base + size - 1
  match zoneOf base with
  | .hole => false
  | .pool => zoneOf last == .pool && decide (last < 0x2000000000000 + s.dev.poolRegions * 2 ^ 30)
  | .hbm => zoneOf last == .hbm && decide (base / 2 ^ 48 = last / 2 ^ 48)
  | z => zoneOf last == z

def isHbm (pa : Nat) : Bool := zoneOf pa == .hbm

/-! ## The walk (R90) -/

/-- The key of a non-leaf entry in the walk cache: level and the index bits above it; level 0 is the region entry. -/
def walkKey (k va : Nat) : Nat := k + 8 * (va / 2 ^ (48 - 9 * k))

/-- A read of eight bytes, none on an uncorrectable error. -/
def State.walkRead (s : State) (pa : Nat) : Option DWord :=
  if s.memErr.contains (lineOf (canonPA pa)) then none else some (s.mem64 pa)

/-- Levels k upward from table t; `n` levels remain. Answers the outcome and the non-leaf entries read. -/
def walkFrom (s : State) (va : Nat) : Nat → Nat → Nat → List (Nat × Nat) → WalkOut × List (Nat × Nat)
  | 0, k, _, seen => (.fail xLeafFormat k, seen)
  | n + 1, k, t, seen =>
    let lo := 48 - 9 * k
    let ix := field va lo 9
    match s.walkRead (t + 8 * ix) with
    | none => (.fail xWalkError k, seen)
    | some e =>
      if !e.getLsbD 0 then (.fail xNotMapped k, seen)
      else if !e.getLsbD 1 then
        if k = 4 ∨ field e.toNat 52 12 + field e.toNat 2 10 ≠ 0 then (.fail xLeafFormat k, seen)
        else
          let t' := field e.toNat 12 40 * 4096
          if isHbm t' then walkFrom s va n (k + 1) t' (seen ++ [(walkKey k va, t')]) else (.fail xTablePA k, seen)
      else if leafMalformed k ix e then (.fail xLeafFormat k, seen)
      else if leafKind e = 0 ∧ !paInRange s (runBase k e) (leafSize k e) then (.fail xPaRange k, seen)
      else (.leaf (va - va % leafSize k e) (leafSize k e) e, seen)

/-- The deepest table that the walk cache holds for an address: its level and base. -/
def cachedTable (d : Die) (asid va : Nat) : Option (Nat × Nat) :=
  [3, 2, 1, 0].findSome? fun k =>
    (d.walkCache.find? fun x => x.1 == asid && x.2.1 == walkKey k va).map fun x => (k + 1, x.2.2)

/-- R90: the walk of a die, from the deepest cached table. The permission checks of R91 are made on the leaf by the access. -/
def walk (s : State) (die asid va : Nat) : WalkOut × List (Nat × Nat) :=
  if !s.ctxValid asid then (.fail xNoContext 0, [])
  else if 2 ^ 56 ≤ va then (.fail xAddress 0, [])
  else
    match cachedTable (s.die die) asid va with
    | some (k, t) => walkFrom s va (5 - k) k t []
    | none =>
      let regtab := field (s.ctxWord asid 0) 12 40 * 4096
      if !isHbm regtab then (.fail xTablePA 0, [])
      else match s.walkRead (regtab + 8 * field va 48 8) with
      | none => (.fail xWalkError 0, [])
      | some e =>
        if !e.getLsbD 0 then (.fail xNotMapped 0, [])
        else if field e.toNat 52 12 + field e.toNat 1 11 ≠ 0 then (.fail xLeafFormat 0, [])
        else
          let t := field e.toNat 12 40 * 4096
          if isHbm t then walkFrom s va 4 1 t [(walkKey 0 va, t)] else (.fail xTablePA 0, [])

/-! ## The translation structures (R93) -/

def TlbEnt.covers (x : TlbEnt) (asid va : Nat) : Bool := x.asid == asid && x.va ≤ va && va < x.va + x.size

/-- Add an entry to a fully associative structure of n entries; an old one leaves a full structure. -/
def tlbAdd (n : Nat) (l : List TlbEnt) (x : TlbEnt) : List TlbEnt := (x :: l.filter (· != x)).take n

def Core.fillTlb (c : Core) (x : TlbEnt) : Core := { c with l1tlb := tlbAdd 64 c.l1tlb x }

/-- The set of an entry in the L2 TLB of 1,024 sets of 8 ways (R93): its page number modulo 1,024 (log entry 144). -/
def TlbEnt.set (x : TlbEnt) : Nat := x.va / x.size % 1024

/-- Add an entry to the L2 TLB; an old one of its set leaves a full set. -/
def l2tlbAdd (l : List TlbEnt) (x : TlbEnt) : List TlbEnt :=
  let rest := l.filter (· != x)
  x :: rest.filter (fun y => y.set != x.set) ++ (rest.filter fun y => y.set == x.set).take 7

/-- A walk's non-leaf entries join the walk cache, which holds 512 of levels 1 to 3 and the region entries; its leaf joins the L2 TLB for
the die's cores, and the ingress TLB for its ingress. Only a walk that found its leaf caches anything (R93, R97). -/
def Die.install (d : Die) (asid : Nat) (seen : List (Nat × Nat)) (x : TlbEnt) (cores ingress : Bool) : Die :=
  let new := seen.map fun e => (asid, e.1, e.2)
  let all := new ++ d.walkCache.filter fun y => !new.any fun z => z.1 == y.1 && z.2.1 == y.2.1
  { d with walkCache := all.filter (fun y => y.2.1 % 8 == 0) ++ (all.filter fun y => y.2.1 % 8 != 0).take 512,
           l2tlb := if cores then l2tlbAdd d.l2tlb x else d.l2tlb,
           ingressTlb := if ingress then tlbAdd 1024 d.ingressTlb x else d.ingressTlb }

/-! ## An access on a leaf (R89, R91) -/

/-- What an access asks for: a write, made by a privileged block, and whether a peer window is required. -/
structure Want where
  write : Bool
  priv : Bool
  peer : Bool
  deriving DecidableEq, Repr

/-- Where an access goes: a canonical physical address with its cache class, or a peer's device, ASID and address. -/
inductive Target where
  | mem (pa cache : Nat)
  | peer (dev tasid tva : Nat)
  deriving DecidableEq, Repr

/-- R89: the target of an access through a peer leaf. An uncorrectable error in the peer table is not reported: R92 gives WALK_ERROR to
region and table entries only (log entry 145). -/
def peerTarget (s : State) (asid va size : Nat) (e : DWord) : Except (Nat × Nat) Target :=
  let ix := leafPeerIx e
  if field (s.ctxWord asid 2) 0 17 ≤ ix then .error (xPeerEntry, 0)
  else
    let at_ := field (s.ctxWord asid 1) 12 40 * 4096 + 16 * ix
    let w0 := (s.mem64 at_).toNat
    let w1 := (s.mem64 (at_ + 8)).toNat
    let tva := field w1 12 44 * 4096 + leafOut e / size * size + va % size
    if field w0 63 1 = 0 ∨ field w0 29 34 ≠ 0 ∨ field w1 0 12 + field w1 56 8 ≠ 0 ∨ 2 ^ 56 ≤ tva then
      .error (xPeerEntry, 0)
    else .ok (.peer (field w0 16 13) (field w0 0 16) tva)

/-- The page of the management registers in the register window (R436). -/
def isManagement (pa : Nat) : Bool := zoneOf pa == .window && pa % 2 ^ 24 / 4096 == 0x100

/-- The kind and permission checks of an access, and where it goes. A wrong kind is reported before a missing permission, in the order of
R303 (log entry 30). Causes after the walk carry the leaf's level, which no TLB entry keeps apart from its size. The management registers are
reached only through a leaf with P = 1 (R436; log entry 165). -/
def onLeaf (s : State) (asid va : Nat) (w : Want) (x : TlbEnt) : Except (Nat × Nat) Target :=
  let lvl := if x.size < 2 ^ 21 then 4 else if x.size < 2 ^ 30 then 3 else if x.size < 2 ^ 39 then 2 else 1
  let peer := leafKind x.leaf == 1
  if peer != w.peer then .error (xKind, lvl)
  else if w.write && !leafW x.leaf then .error (xWrite, lvl)
  else if leafP x.leaf && !w.priv then .error (xPriv, lvl)
  else if peer then
    match peerTarget s asid va x.size x.leaf with
    | .error e => .error (e.1, lvl)
    | .ok t => .ok t
  else
    let pa := canonPA (leafOut x.leaf - leafOut x.leaf % x.size + va % x.size)
    if isManagement pa && !leafP x.leaf then .error (xPriv, lvl) else .ok (.mem pa (leafCache x.leaf))

/-- An address with a bit of 63:56 set fails before any table is read; the context is checked first (R77, R90). -/
def State.addressCause (s : State) (asid : Nat) : Nat := if s.ctxValid asid then xAddress else xNoContext

/-- A lookup in the L1 TLB of a core and the L2 TLB of its die. -/
def State.tlbLookup (s : State) (ci asid va : Nat) : Option TlbEnt :=
  match (s.core ci).l1tlb.find? fun x => x.covers asid va with
  | some x => some x
  | none => (s.die (dieOf ci)).l2tlb.find? fun x => x.covers asid va

/-- Where an address stands now by its tables, whatever the TLBs hold: a lookup of the model, which changes nothing. -/
def State.translateNow (s : State) (ci asid va : Nat) (w : Want) : Except (Nat × Nat) Target :=
  if 2 ^ 56 ≤ va then .error (s.addressCause asid, 0)
  else
    match s.tlbLookup ci asid va with
    | some x => onLeaf s asid va w x
    | none =>
      match walk s (dieOf ci) asid va with
      | (.fail cause level, _) => .error (cause, level)
      | (.leaf base size e, _) => onLeaf s asid va w { asid := asid, va := base, size := size, leaf := e }

/-! ## Accesses through the TLBs and the miss queue (R94, R95, R100) -/

/-- What one access finds: a target, a failure, or nothing yet. -/
inductive LaneXl where
  | hit (t : Target) (x : TlbEnt)
  | fail (cause level : Nat)
  | miss

/-- The failure that a walk left for a waiter. -/
def Die.failure? (d : Die) (who asid va : Nat) : Option XlFail :=
  d.failed.find? fun f => f.who == who && f.asid == asid && f.page == va / 4096

/-- One access of a waiter, by a core. -/
def laneXl (s : State) (ci who asid va : Nat) (w : Want) : LaneXl :=
  if 2 ^ 56 ≤ va then .fail (s.addressCause asid) 0
  else
    match s.tlbLookup ci asid va with
    | some x =>
      match onLeaf s asid va w x with
      | .ok t => .hit t x
      | .error e => .fail e.1 e.2
    | none =>
      match (s.die (dieOf ci)).failure? who asid va with
      | some f => .fail f.cause f.level
      | none => .miss

/-- A waiter with what it wants. -/
def Want.by (w : Want) (who : Nat) : Waiter := { who := who, write := w.write, priv := w.priv, peer := w.peer }
def Waiter.want (x : Waiter) : Want := { write := x.write, priv := x.priv, peer := x.peer }

/-- A miss enters the die's miss queue, merged with a queued miss or a walk of the same page; a full queue takes none. -/
def Die.addMiss (d : Die) (asid page : Nat) (who : Waiter) : Die :=
  let join (l : List Waiter) : List Waiter := if l.contains who then l else l ++ [who]
  if d.walks.any fun x => x.asid == asid && x.page == page then
    { d with walks := replaceIf (fun x => x.asid == asid && x.page == page) (fun x => { x with who := join x.who }) d.walks }
  else if d.missq.any fun x => x.asid == asid && x.page == page then
    { d with missq := replaceIf (fun x => x.asid == asid && x.page == page) (fun x => { x with who := join x.who }) d.missq }
  else if d.missq.length < 1024 then { d with missq := d.missq ++ [{ asid := asid, page := page, who := [who] }] }
  else d

/-- R101: the access touches a pool line of a lost region. -/
def State.lostPA (s : State) (pa : Nat) : Bool := zoneOf pa == .pool && s.dev.lost.contains (poolRegionOf (lineOf pa))

/-- What translating the places of a word gives: it waits for walks, some fail, or each has its target. -/
inductive Places where
  | wait (s : State)
  | fail (fs : List (Nat × Nat × Nat × Nat))
  | ok (s : State) (ts : List (Nat × Nat × Target))

/-- Translate places, given as (lane, address, want), for a waiter (R94, R95); failures are (lane, address, cause, level). The core's L1
TLB takes what was used. -/
def State.xlPlaces (s : State) (ci who asid : Nat) (ps : List (Nat × Nat × Want)) : Places :=
  let rs := ps.map fun p => (p, laneXl s ci who asid p.2.1 p.2.2)
  let misses := rs.filterMap fun r => match r.2 with
    | .miss => some (r.1.2.1 / 4096, r.1.2.2.by who)
    | _ => none
  if !misses.isEmpty then
    .wait (s.setDie (dieOf ci) (misses.foldl (fun d p => d.addMiss asid p.1 p.2) (s.die (dieOf ci))))
  else
    let fails := rs.filterMap fun r => match r.2 with
      | .fail cause level => some (r.1.1, r.1.2.1, cause, level)
      | _ => none
    if !fails.isEmpty then .fail fails
    else
      let hits := rs.filterMap fun r => match r.2 with
        | .hit t x => some (r.1.1, r.1.2.1, t, x)
        | _ => none
      .ok (s.modCore ci fun c => hits.foldl (fun c h => c.fillTlb h.2.2.2) c) (hits.map fun h => (h.1, h.2.1, h.2.2.1))

/-- The fault of failing places (R100): the lowest faulting lane's cause, level and address, and the faulting lanes. -/
def xlFault (fs : List (Nat × Nat × Nat × Nat)) : Flt :=
  match fs with
  | f :: _ => { cls := .translation, cause := f.2.2.1, level := f.2.2.2, addr := f.2.1, lanes := maskOf fun l => fs.any fun x => x.1 == l }
  | [] => { cls := .translation }

/-- What translating the lanes of a word gives: it waits for walks, faults, or has a target for each lane. -/
inductive Lanes where
  | wait (s : State)
  | fault (f : Flt)
  | ok (s : State) (ts : List (Nat × Target))

/-- Translate the active lanes of a word of a group. The pool-region check of R101 follows. -/
def State.xlLanes (s : State) (ci gi : Nat) (asid : Nat) (w : Want) (lanes : List (Nat × Nat)) : Lanes :=
  match s.xlPlaces ci (groupNum ci gi) asid (lanes.map fun l => (l.1, l.2, w)) with
  | .wait s => .wait s
  | .fail fs => .fault (xlFault fs)
  | .ok s' ts =>
    let lost := ts.filter fun t => match t.2.2 with
      | .mem pa _ => s.lostPA pa
      | .peer _ _ _ => false
    match lost with
    | h :: _ => .fault { cls := .poolRegion, lanes := maskOf fun l => lost.any fun x => x.1 == l, addr := h.2.1 }
    | [] => .ok s' (ts.map fun t => (t.1, t.2.2))

/-- The pages a word translated join the group's footprint (R99). -/
def Group.foot (g : Group) (vas : List Nat) : Group := { g with footprint := dedup (g.footprint ++ vas.map (· / 4096)) }

/-- What waits under a number leaves the miss queue and the walks of a die, and the failures left for it are gone. -/
def Die.dropWaiter (d : Die) (who : Nat) : Die :=
  { d with failed := d.failed.filter fun f => f.who != who,
           missq := d.missq.map fun m => { m with who := m.who.filter (·.who != who) },
           walks := d.walks.map fun w => { w with who := w.who.filter (·.who != who) } }
def State.dropWaiter (s : State) (die who : Nat) : State := s.setDie die ((s.die die).dropWaiter who)

/-- What an engine finds for one address. -/
inductive EngineXl where
  | wait
  | fail (cause level : Nat)
  | ok (t : Target)

/-- The numbers of those who wait for walks: groups below 2^20, Courier commands below 2^40, and a die's ingress from there on. -/
def ingressNum (num : Nat) : Nat := 2 ^ 40 + num
def isIngress (who : Nat) : Bool := decide (2 ^ 40 ≤ who)

/-- A Courier command translates through its core's L1 TLB, and waits in the miss queue as a group does (R94, R129). -/
def engineNum (num : Nat) : Nat := 2 ^ 20 + num
def State.engineXl (s : State) (ci num asid va : Nat) (w : Want) : EngineXl × State :=
  match s.xlPlaces ci (engineNum (num * 2048 + ci)) asid [(0, va, w)] with
  | .wait s => (.wait, s)
  | .fail fs => match fs with
    | f :: _ => (.fail f.2.2.1 f.2.2.2, s)
    | [] => (.wait, s)
  | .ok s ts => match ts with
    | t :: _ => (.ok t.2.2, s)
    | [] => (.wait, s)

/-! ## Walks (R94) -/

/-- A free walker takes the oldest queued miss and walks. -/
def execPageWalk (die : Nat) (s : State) : Out :=
  let d := s.die die
  match d.missq with
  | [] => .next s
  | m :: rest =>
    if 64 ≤ d.walks.length then .next s
    else
      let (out, seen) := walk s die m.asid (m.page * 4096)
      let w : Walk := { asid := m.asid, page := m.page, who := m.who, out := out, seen := seen }
      .next (s.setDie die { d with missq := rest, walks := d.walks ++ [w] })

/-- The cores whose groups or engines are among the waiters. -/
def waiterCore (who : Nat) : Option Nat :=
  if who < 2 ^ 20 then some (who / 64) else if who < 2 ^ 40 then some ((who - 2 ^ 20) % 2048) else none

/-- A walk completes: a leaf answers the misses it covers, a failure only the misses merged with it. A leaf that no waiter may use is a
failed walk for each, and nothing is cached (R90, R93). -/
def execWalkResult (die idx : Nat) (s : State) : Out :=
  let d := s.die die
  match d.walks[idx]? with
  | none => .next s
  | some w =>
    let d := { d with walks := d.walks.eraseIdx idx }
    let failed (ws : List Waiter) (c : Waiter → Nat × Nat) : List XlFail :=
      ws.map fun x => { who := x.who, asid := w.asid, page := w.page, cause := (c x).1, level := (c x).2 }
    match w.out with
    | .fail cause level => .next (s.setDie die { d with failed := d.failed ++ failed w.who fun _ => (cause, level) })
    | .leaf base size e =>
      let x : TlbEnt := { asid := w.asid, va := base, size := size, leaf := e }
      let (hit, rest) := d.missq.partition fun m => x.covers m.asid (m.page * 4096)
      let check (page : Nat) (y : Waiter) : Option (Nat × Nat) :=
        match onLeaf s w.asid (page * 4096) y.want x with
        | .error c => some c
        | .ok _ => none
      let good := w.who.any (fun y => (check w.page y).isNone) || hit.any fun m => m.who.any fun y => (check m.page y).isNone
      if good || w.who.isEmpty then
        let all := w.who ++ hit.flatMap fun m => m.who
        let s := s.setDie die ({ d with missq := rest }.install w.asid w.seen x (all.isEmpty || all.any fun y => !isIngress y.who)
          (all.any fun y => isIngress y.who))
        let who := dedup (all.filterMap fun y => waiterCore y.who)
        .next (who.foldl (fun s ci => s.modCore ci fun c => c.fillTlb x) s)
      else .next (s.setDie die { d with failed := d.failed ++ failed w.who fun y => (check w.page y).getD (0, 0) })

end Sys2Proof.Machine
end

