-- ==== Sys2Proof/Machine/Cache.lean ====
section
/-! DEFINITION. Where lines are served and performed (R103, R274), uncached bytes (R82, R105), the L1 (R105, R107), and leases (R106
to R108). -/

namespace Sys2Proof.Machine

/-! ## Places -/

/-- The slice that performs a committed line: with operations, the owner of R274; without, the slice of R103. -/
def updateSlice (s : State) (die ln : Nat) (ops : Bool) : Nat :=
  match lineZone ln with
  | .pool => sliceAt s die ln
  | _ => if ops then homeSlice s ln else sliceAt s die ln

/-- The slice that performs a FETCH (R274, R275). -/
def fetchSlice (s : State) (die ln : Nat) : Nat := updateSlice s die ln true

/-- Bytes that no cache holds: stored in the window's registers or in memory at once (R82, R105). -/
def State.storeUncached (s : State) (bytes : List (Nat × Byte)) : State :=
  let (win, rest) := bytes.partition fun e => zoneOf e.1 == .window
  let s := rest.foldl (fun s e => { s with mem := Memory.write s.mem e.1 e.2 }) s
  if win.isEmpty then s else s.windowStore (win.map fun e => (e.1 - windowBase, e.2))

/-! ## The L1 (R102, R105, R107, R112) -/

/-- What an L1 finds for a line: live data, expired data that may be used speculatively, or nothing (R107, R111). -/
inductive L1Find where
  | live (l : L1Line)
  | expired (l : L1Line)
  | miss
  deriving DecidableEq, Repr

def Core.l1Find (c : Core) (now ln : Nat) : L1Find :=
  match c.l1.find? fun x => x.line == ln with
  | none => .miss
  | some l => if now + 8 ≤ l.exp then .live l else if now ≤ l.exp + 2 ^ 20 then .expired l else .miss

/-- The set of a line in the L1 of 128 sets of 8 ways (R102; log entry 36). -/
def l1Set (ln : Nat) : Nat := ln % 128

/-- Install a line in its set, at the end when it is inserted least recently used. A set keeps its lines by the time of their filling: a hit
does not reorder them (log entry 36). -/
def Core.l1Put (c : Core) (l : L1Line) (lru : Bool) : Core :=
  let rest := c.l1.filter fun x => x.line != l.line
  let others := rest.filter fun x => l1Set x.line != l1Set l.line
  let mine := (rest.filter fun x => l1Set x.line == l1Set l.line).take 7
  { c with l1 := if lru then others ++ mine ++ [l] else l :: (others ++ mine) }

def Core.l1Drop (c : Core) (ln : Nat) : Core := { c with l1 := c.l1.filter fun x => x.line != ln }

/-! ## Leases (R106, R108) -/

/-- The length granted on a line. -/
def leaseLen (ln ll : Nat) : Nat :=
  match lineZone ln with
  | .pool => min ll 2048
  | .host => min ll 256
  | _ => ll

/-- The slice grants a lease of the length: EXP and the slice with its EXPMAX raised. -/
def Slice.grant (x : Slice) (now ln len : Nat) : Nat × Slice :=
  let l := x.lineD ln
  (now + len, x.setLine { l with expmax := max l.expmax (now + len) })

end Sys2Proof.Machine
end

