-- ==== Sys2Proof/Machine/Flags.lean ====
section
/-! DEFINITION. The flag computations: the sticky status word (R196, R197, R209) and the completion-flag counters (R57). -/

namespace Sys2Proof.Machine

/-- R196: set sticky bits. -/
def Group.setFl (g : Group) (fl : Nat) : Group := if fl = 0 then g else { g with fpsr := g.fpsr ||| w32 fl }

/-- The bits that any of several results set. -/
def orFl (fls : List Nat) : Nat := fls.foldl (· ||| ·) 0

/-- R57: the counter of completion flag f. -/
def Group.flagCount (g : Group) (f : Nat) : Nat := g.flags.atD f 0

/-- R57: FLAG values 0 to 11 name a flag; 12 to 15 none. -/
def flagOf (n : Nat) : Option Nat := if n < 12 then some n else none

/-- R57: a counter holds at most 63; an operation that would make it 64 waits. -/
def Group.flagFull (g : Group) (f : Option Nat) : Bool :=
  match f with
  | some n => 63 ≤ g.flagCount n
  | none => false

def Group.flagUp (g : Group) (f : Option Nat) : Group :=
  match f with
  | some n => { g with flags := g.flags.put 0 n (g.flagCount n + 1) }
  | none => g

def Group.flagDown (g : Group) (f : Option Nat) : Group :=
  match f with
  | some n => { g with flags := g.flags.put 0 n (g.flagCount n - 1) }
  | none => g

end Sys2Proof.Machine
end

