-- ==== Sys2Proof/Machine/Float.lean ====
section
/-! DEFINITION. Floating point, computed exactly and rounded once: formats (R190, R191, R219, R220), rounding (R193,
R194), NaNs (R195), sticky flags (R196), stochastic rounding (R198, R199), and the scalar operations (R202 to R207). -/

namespace Sys2Proof

/-! ## Formats and values -/

/-- What the top of the exponent range means: infinities and NaNs; one NaN code (E4M3); ordinary values. -/
inductive FKind where
  | ieee | oneNan | plain
  deriving DecidableEq, Repr

/-- A floating format: exponent bits, fraction bits, bias (R190, R219). -/
structure FFmt where
  eb : Nat
  mb : Nat
  bias : Nat
  kind : FKind
  deriving DecidableEq, Repr

def fF32 : FFmt := ⟨8, 23, 127, .ieee⟩
def fF16 : FFmt := ⟨5, 10, 15, .ieee⟩
def fBF16 : FFmt := ⟨8, 7, 127, .ieee⟩
def fE4M3 : FFmt := ⟨4, 3, 7, .oneNan⟩
def fE5M2 : FFmt := ⟨5, 2, 15, .ieee⟩
def fE3M2 : FFmt := ⟨3, 2, 3, .plain⟩
def fE2M3 : FFmt := ⟨2, 3, 1, .plain⟩
def fE2M1 : FFmt := ⟨2, 1, 1, .plain⟩

def FFmt.width (f : FFmt) : Nat := f.eb + f.mb + 1
def FFmt.signBit (f : FFmt) : Nat := 2 ^ (f.eb + f.mb)
def FFmt.infPat (f : FFmt) : Nat := (2 ^ f.eb - 1) * 2 ^ f.mb
/-- The largest finite pattern (R191, R220). -/
def FFmt.maxPat (f : FFmt) : Nat :=
  match f.kind with
  | .ieee => f.infPat - 1
  | .oneNan => 2 ^ (f.eb + f.mb) - 2
  | .plain => 2 ^ (f.eb + f.mb) - 1
/-- The canonical NaN (R191, R220); +0 where the format has none (R222). -/
def FFmt.nanPat (f : FFmt) : Nat :=
  match f.kind with
  | .ieee => f.infPat + 2 ^ (f.mb - 1)
  | .oneNan => 2 ^ (f.eb + f.mb) - 1
  | .plain => 0

/-- A floating value: a NaN (signalling or not), an infinity, or (−1)^neg × m × 2^e. -/
inductive FVal where
  | nan (sig : Bool)
  | inf (neg : Bool)
  | fin (neg : Bool) (m : Nat) (e : Int)
  deriving DecidableEq, Repr

/-- The value of a pattern (R191, R219). -/
def FFmt.val (f : FFmt) (bits : Nat) : FVal :=
  let neg := bits / f.signBit % 2 == 1
  let e := bits / 2 ^ f.mb % 2 ^ f.eb
  let m := bits % 2 ^ f.mb
  let top := e == 2 ^ f.eb - 1
  if f.kind == .ieee && top then (if m = 0 then .inf neg else .nan (m < 2 ^ (f.mb - 1)))
  else if f.kind == .oneNan && top && m == 2 ^ f.mb - 1 then .nan false
  else if e = 0 then .fin neg m (1 - (f.bias : Int) - f.mb)
  else .fin neg (m + 2 ^ f.mb) ((e : Int) - f.bias - f.mb)

def FVal.isNan : FVal → Bool
  | .nan _ => true
  | _ => false
def FVal.isSnan : FVal → Bool
  | .nan s => s
  | _ => false
def FVal.isZero : FVal → Bool
  | .fin _ m _ => m == 0
  | _ => false
def FVal.neg : FVal → Bool
  | .nan _ => false
  | .inf n => n
  | .fin n _ _ => n
/-- The value with its sign inverted. -/
def FVal.negate : FVal → FVal
  | .nan s => .nan s
  | .inf n => .inf !n
  | .fin n m e => .fin (!n) m e

/-! ## Flags (R196) -/

def fNV : Nat := 1
def fDZ : Nat := 2
def fOF : Nat := 4
def fUF : Nat := 8
def fNX : Nat := 16
def fFMT : Nat := 32

/-- A result pattern with the flags it sets. -/
structure FRes where
  bits : Nat
  fl : Nat
  deriving DecidableEq, Repr

/-- NV for a signalling NaN among the operands (R195). -/
def nvSig (vs : List FVal) : Nat := if vs.any FVal.isSnan then fNV else 0

/-! ## Rounding -/

/-- The rounding modes of R49; stochastic rounding carries the lane's random value (R199). -/
inductive Rnd where
  | ne | z | u | d | sr (q : Nat)
  deriving DecidableEq, Repr

/-- MOD[1:0] as a rounding mode (R49). -/
def Rnd.ofMod (n : Nat) : Rnd :=
  match n % 4 with
  | 0 => .ne
  | 1 => .z
  | 2 => .u
  | _ => .d

/-- Whether the magnitude n + rem / 2^sh (plus a little when `st`) rounds up to n + 1. -/
def Rnd.up (r : Rnd) (neg : Bool) (n rem sh : Nat) (st : Bool) : Bool :=
  let inexact := rem != 0 || st
  match r with
  | .ne => if sh = 0 then false else decide (2 ^ (sh - 1) < rem) || (rem == 2 ^ (sh - 1) && (st || n % 2 == 1))
  | .z => false
  | .u => inexact && !neg
  | .d => inexact && neg
  | .sr q => inexact && decide (q < rem * 65536 / 2 ^ sh)

/-- Round the magnitude (m, plus a little when `st`) × 2^e to a multiple of 2^q: the multiple, and whether inexact. -/
def roundAt (r : Rnd) (neg : Bool) (m : Nat) (e q : Int) (st : Bool) : Nat × Bool :=
  if q ≤ e then
    let n := m * 2 ^ (e - q).toNat
    (if r.up neg n 0 0 st then n + 1 else n, st)
  else
    let sh := (q - e).toNat
    let n := m / 2 ^ sh
    let rem := m % 2 ^ sh
    (if r.up neg n rem sh st then n + 1 else n, rem != 0 || st)

/-- R193, R194, R222: round (−1)^neg × m × 2^e (a little more when `st`; then m has many more bits than the format) to the
format; `sat` is `.SAT` of an arithmetic form. -/
def FFmt.round (f : FFmt) (r : Rnd) (sat neg : Bool) (m : Nat) (e : Int) (st : Bool) : FRes :=
  let s := if neg then f.signBit else 0
  if m = 0 && !st then ⟨s, 0⟩
  else
    let top : Int := Nat.log2 m + e
    let qU : Int := top - f.mb
    let qMin : Int := 1 - (f.bias : Int) - f.mb
    let q := max qU qMin
    let emin : Int := 1 - (f.bias : Int)
    let maxQ : Int := (f.maxPat / 2 ^ f.mb : Nat) - (f.bias : Int) - f.mb
    let q := match r with
      | .sr _ => min q maxQ
      | _ => q
    let (n, inexact) := roundAt r neg m e q st
    let tiny := if emin ≤ top then false else
      let (nU, _) := roundAt r neg m e qU st
      decide ((nU : Int) < 2 ^ (emin - qU).toNat)
    let be : Nat := (q + f.mb + f.bias).toNat
    let pat := be * 2 ^ f.mb + n - 2 ^ f.mb
    if f.maxPat < pat then
      match r with
      | .sr q' =>
        -- R199: beyond the largest finite value, lo is that value and hi the infinity
        let lo := (f.maxPat % 2 ^ f.mb + 2 ^ f.mb) * 2 ^ (maxQ - min e maxQ).toNat
        let x := m * 2 ^ (e - min e maxQ).toNat
        if (x - lo) * 65536 / 2 ^ (maxQ - min e maxQ).toNat ≤ q' then ⟨s + f.maxPat, fNX⟩
        else ⟨s + (if f.kind == .ieee then f.infPat else f.maxPat), fOF + fNX⟩
      | _ =>
        let toInf := f.kind == .ieee && !sat && (match r with
          | .ne => true
          | .z => false
          | .u => !neg
          | .d => neg
          | .sr _ => true)
        ⟨s + (if toInf then f.infPat else f.maxPat), fOF + fNX⟩
    else ⟨s + pat, (if inexact then fNX else 0) + (if tiny && inexact then fUF else 0)⟩

/-- An infinite result, or the largest finite value under `.SAT` (R193). -/
def FFmt.infRes (f : FFmt) (sat neg : Bool) (fl : Nat) : FRes :=
  ⟨(if neg then f.signBit else 0) + (if sat then f.maxPat else f.infPat), fl⟩
def FFmt.nanRes (f : FFmt) (fl : Nat) : FRes := ⟨f.nanPat, fl⟩
def FFmt.zero (f : FFmt) (neg : Bool) : Nat := if neg then f.signBit else 0

/-- Round an exact integer multiple i × 2^e; `zneg` is the sign of an exact zero. -/
def FFmt.roundInt (f : FFmt) (r : Rnd) (sat : Bool) (i : Int) (e : Int) (zneg : Bool) : FRes :=
  if i = 0 then ⟨f.zero zneg, 0⟩ else f.round r sat (i < 0) i.natAbs e false

/-- The signed multiple of 2^e of a finite value, for an e at most its own exponent. -/
def signedAt (neg : Bool) (m : Nat) (e0 e : Int) : Int :=
  let i : Int := (m * 2 ^ (e0 - e).toNat : Nat)
  if neg then -i else i

/-- R194: the sign of an exact zero sum of parts with the given signs, both zeros. -/
def zeroSumSign (r : Rnd) (bothZero n1 n2 : Bool) : Bool :=
  if bothZero && n1 == n2 then n1 else r == .d

/-! ## Arithmetic (R202) -/

/-- a × b + c; `mul` omits the addition, `add` takes b as 1. -/
def ffma (f : FFmt) (r : Rnd) (sat : Bool) (a b c : FVal) : FRes :=
  let sig := nvSig [a, b, c]
  let badMul := match a, b with
    | .inf _, .fin _ m _ => m == 0
    | .fin _ m _, .inf _ => m == 0
    | _, _ => false
  if badMul then f.nanRes fNV
  else if a.isNan || b.isNan || c.isNan then f.nanRes sig
  else
    let pn := a.neg != b.neg
    match a, b, c with
    | .fin _ ma ea, .fin _ mb eb, .fin nc mc ec =>
      let ep := ea + eb
      let e := min ep ec
      let i := signedAt pn (ma * mb) ep e + signedAt nc mc ec e
      f.roundInt r sat i e (zeroSumSign r (ma * mb == 0 && mc == 0) pn nc)
    | .fin _ _ _, .fin _ _ _, .inf nc => f.infRes sat nc 0
    | _, _, .inf nc => if pn == nc then f.infRes sat pn 0 else f.nanRes fNV
    | _, _, _ => f.infRes sat pn 0

def fadd (f : FFmt) (r : Rnd) (sat : Bool) (a b : FVal) : FRes :=
  let sig := nvSig [a, b]
  if a.isNan || b.isNan then f.nanRes sig
  else
    match a, b with
    | .fin na ma ea, .fin nb mb eb =>
      let e := min ea eb
      f.roundInt r sat (signedAt na ma ea e + signedAt nb mb eb e) e (zeroSumSign r (ma == 0 && mb == 0) na nb)
    | .inf n, .fin _ _ _ => f.infRes sat n 0
    | .fin _ _ _, .inf n => f.infRes sat n 0
    | _, _ => if a.neg == b.neg then f.infRes sat a.neg 0 else f.nanRes fNV

def fsub (f : FFmt) (r : Rnd) (sat : Bool) (a b : FVal) : FRes := fadd f r sat a b.negate

def fmul (f : FFmt) (r : Rnd) (sat : Bool) (a b : FVal) : FRes :=
  let sig := nvSig [a, b]
  let n := a.neg != b.neg
  if a.isNan || b.isNan then f.nanRes sig
  else
    match a, b with
    | .fin _ ma ea, .fin _ mb eb => f.round r sat n (ma * mb) (ea + eb) false
    | .inf _, .fin _ m _ => if m = 0 then f.nanRes fNV else f.infRes sat n 0
    | .fin _ m _, .inf _ => if m = 0 then f.nanRes fNV else f.infRes sat n 0
    | _, _ => f.infRes sat n 0

def fdiv (f : FFmt) (r : Rnd) (sat : Bool) (a b : FVal) : FRes :=
  let sig := nvSig [a, b]
  let n := a.neg != b.neg
  if a.isNan || b.isNan then f.nanRes sig
  else
    match a, b with
    | .inf _, .inf _ => f.nanRes fNV
    | .inf _, .fin _ _ _ => f.infRes sat n 0
    | .fin _ _ _, .inf _ => ⟨f.zero n, 0⟩
    | .fin _ ma ea, .fin _ mb eb =>
      if mb = 0 then (if ma = 0 then f.nanRes fNV else f.infRes sat n fDZ)
      else
        let x := ma * 2 ^ 96
        f.round r sat n (x / mb) (ea - eb - 96) (x % mb != 0)
    | _, _ => f.nanRes sig

/-- floor(√n) for n < 2^(2 × bits), one bit at a time. -/
def isqrt (n bits : Nat) : Nat :=
  (List.range bits).foldl (fun x i => let y := x + 2 ^ (bits - 1 - i); if y * y ≤ n then y else x) 0

/-- √(m × 2^e), m > 0, as a truncated root with its exponent and whether it is inexact. -/
def sqrtParts (m : Nat) (e : Int) : Nat × Int × Bool :=
  let odd := e % 2 == 1
  let m' := m * 2 ^ (120 + bit01 odd)
  let e' := e - 120 - bit01 odd
  let x := isqrt m' 80
  (x, e' / 2, x * x != m')

def fsqrt (f : FFmt) (r : Rnd) (sat : Bool) (a : FVal) : FRes :=
  match a with
  | .nan s => f.nanRes (if s then fNV else 0)
  | .inf n => if n then f.nanRes fNV else f.infRes sat false 0
  | .fin n m e =>
    if m = 0 then ⟨f.zero n, 0⟩
    else if n then f.nanRes fNV
    else
      let (x, e', st) := sqrtParts m e
      f.round r sat false x e' st

/-! ## Comparison, class, rounding to integral (R203 to R206) -/

/-- Order of two values that are not NaN, −0 equal to +0: whether a < b. -/
def FVal.lt (a b : FVal) : Bool :=
  match a, b with
  | .inf na, .inf nb => na && !nb
  | .inf na, .fin _ _ _ => na
  | .fin _ _ _, .inf nb => !nb
  | .fin na ma ea, .fin nb mb eb =>
    let e := min ea eb
    decide (signedAt na ma ea e < signedAt nb mb eb e)
  | _, _ => false

/-- The order of FMIN and FMAX, in which −0 lies below +0 (R203). -/
def FVal.ltZ (a b : FVal) : Bool := a.lt b || (a.isZero && b.isZero && a.neg && !b.neg)

/-- R203: FMIN, or FMAX, on patterns. -/
def fminmax (f : FFmt) (isMax : Bool) (x y : Nat) : FRes :=
  let a := f.val x
  let b := f.val y
  let fl := nvSig [a, b]
  if a.isNan && b.isNan then f.nanRes fl
  else if a.isNan then ⟨y, fl⟩
  else if b.isNan then ⟨x, fl⟩
  else if isMax then ⟨if a.ltZ b then y else x, fl⟩
  else ⟨if b.ltZ a then y else x, fl⟩

/-- R204: the conditions EQ, NE, LT, LE, GT, GE, UN, ORD. -/
def fcmp (cond : Nat) (a b : FVal) : Bool × Nat :=
  let un := a.isNan || b.isNan
  let lt := a.lt b
  let gt := b.lt a
  let sig := nvSig [a, b]
  let any := if un then fNV else 0
  match cond with
  | 0 => (!un && !lt && !gt, sig)
  | 1 => (un || lt || gt, sig)
  | 2 => (!un && lt, any)
  | 3 => (!un && !gt, any)
  | 4 => (!un && gt, any)
  | 5 => (!un && !lt, any)
  | 6 => (un, sig)
  | _ => (!un, sig)

/-- R205: the class bit. -/
def fclass (f : FFmt) (bits : Nat) : Nat :=
  match f.val bits with
  | .nan true => 1
  | .nan false => 2
  | .inf n => if n then 4 else 512
  | .fin n m _ =>
    let sub := bits / 2 ^ f.mb % 2 ^ f.eb == 0
    if m = 0 then (if n then 32 else 64)
    else if sub then (if n then 16 else 128)
    else if n then 8 else 256

/-- R206: FRND on a pattern. -/
def frnd (f : FFmt) (r : Rnd) (bits : Nat) : FRes :=
  match f.val bits with
  | .nan s => f.nanRes (if s then fNV else 0)
  | .inf _ => ⟨bits, 0⟩
  | .fin n m e =>
    if m = 0 || 0 ≤ e then ⟨bits, 0⟩
    else
      let (i, _) := roundAt r n m e 0 false
      ⟨(f.round .ne false n i 0 false).bits, 0⟩

/-! ## Conversions (R207, R222, R223) -/

/-- Float to float, into a wide format. -/
def fconv (g : FFmt) (r : Rnd) (a : FVal) : FRes :=
  match a with
  | .nan s => g.nanRes (if s then fNV else 0)
  | .inf n => g.infRes false n 0
  | .fin n m e => g.round r false n m e false

/-- Integer to float. -/
def i2f (g : FFmt) (r : Rnd) (i : Int) : FRes := g.roundInt r false i 0 false

/-- Float to integer with range lo to hi (R207): always saturating. -/
def f2i (r : Rnd) (lo hi : Int) (a : FVal) : Int × Nat :=
  match a with
  | .nan _ => (0, fNV)
  | .inf n => (if n then lo else hi, fNV)
  | .fin n m e =>
    let (k, inexact) := roundAt r n m e 0 false
    let i : Int := if n then -(k : Int) else k
    if hi < i then (hi, fNV) else if i < lo then (lo, fNV) else (i, if inexact then fNX else 0)

/-- R222: an exact value, or a special, into a narrow code. -/
def toNarrow (g : FFmt) (r : Rnd) (a : FVal) : FRes :=
  match a with
  | .nan s => ⟨g.nanPat, if s || g.kind == .plain then fNV else 0⟩
  | .inf n =>
    match g.kind with
    | .ieee => g.infRes false n 0
    | .oneNan => ⟨g.nanPat, fNV⟩
    | .plain => ⟨g.zero n + g.maxPat, fNV⟩
  | .fin n m e => g.round r false n m e false

/-- R198: one step of the 16-bit Galois generator. -/
def srAdvance (x : BitVec 16) : BitVec 16 := if x.getLsbD 0 then (x >>> 1) ^^^ 0xB400#16 else x >>> 1

/-! ## Block scales (R224) -/

/-- The value of a BS20 scale: none for a NaN scale, else m × 2^e. -/
def bs20 (s : Nat) : Option (Nat × Int) :=
  let e := s / 4096 % 256
  let m := s % 4096
  if e = 255 then none
  else if e = 0 then some (m, -126 - 12)
  else some (m + 4096, (e : Int) - 127 - 12)

end Sys2Proof
end

