-- ==== Sys2Proof/Machine/Operands.lean ====
section
/-! DEFINITION. Every operand form: guards and active lanes (R43), sources and specials (R22, R46, R47), immediates (R45),
typed reads (R166, R167, R192), and destinations (R46, R47). -/

namespace Sys2Proof.Machine

/-- A word in issue: the state, its core and its group. -/
structure Ctx where
  s : State
  c : Core
  g : Group

/-! ## Lanes -/

/-- R43: the lanes active for a guard. -/
def Group.active (g : Group) : Guard → LaneMask
  | .always => g.em
  | .pred n neg => g.em &&& (if neg then ~~~ (g.preds.atD n.val 0) else g.preds.atD n.val 0)

/-- The lowest active lane, the leader of a word (R130, R250). -/
def leader? (m : LaneMask) : Option Nat := allLanes.find? (laneBit m)

/-- The instances of the group with an active lane, ascending (R368). -/
def Group.activeInsts (g : Group) (act : LaneMask) : List Nat :=
  (List.range (32 / g.width)).filter fun i => allLanes.any fun l => l / g.width == i && laneBit act l

/-- The lowest active lane of an instance (R368). -/
def Group.instLeader? (g : Group) (act : LaneMask) (i : Nat) : Option Nat :=
  allLanes.find? fun l => l / g.width == i && laneBit act l

/-! ## Sources -/

/-- Register n of lane l (R155). -/
def Group.reg (g : Group) (n l : Nat) : Word := g.regs.atD (n * 32 + l) 0

/-- R16: word 0 of cell n of the lane's instance, in its frame; of a cell that its block has not, what lies there in frame memory (log entry
154). -/
def Ctx.input (x : Ctx) (n l : Nat) : Word :=
  match (x.g.insts[x.g.instOf l]?).bind x.c.entries.at? with
  | some e => w32 (leNat (x.c.frame.readBytes (e.frame + 64 * n) 4))
  | none => 0

/-- The GTC sample of the word (R47). -/
def Ctx.gtc (x : Ctx) : DWord := w64 (x.s.gtcAt (dieOf x.s.cur.1))

/-- The special registers (R22, R46, R47). -/
def Ctx.special (x : Ctx) (sp : Special) (l : Nat) : Word :=
  match sp with
  | .lane => w32 l
  | .inst => w32 (x.g.instOf l)
  | .tag => x.g.tagOf (x.g.instOf l)
  | .colour => w32 (x.g.colour + x.g.wlog * 4096)
  | .width => w32 x.g.width
  | .grp => w32 x.s.cur.2
  | .core => w32 x.c.cfg.core
  | .die => w32 (dieOf x.s.cur.1)
  | .dev => w32 x.s.dev.devNum
  | .ncores => w32 x.c.cfg.ncores
  | .gtclo => loWord x.gtc
  | .gtchi => x.g.gtchi.getD (hiWord x.gtc)
  | .slot => w32 x.g.bslot
  | .team => w32 x.g.team
  | .clus => w32 x.c.cfg.clus

/-- A 32-bit source in lane l (R46, R47). -/
def Ctx.rd (x : Ctx) (o : Operand) (l : Nat) : Word :=
  match o with
  | .v n => x.g.reg n.val l
  | .k n => x.c.consts.atD n.val 0
  | .inp n => x.input n.val l
  | .sp s => x.special s l
  | .p n => w32 (bit01 (laneBit (x.g.preds.atD n.val 0) l))
  | .em => w32 (bit01 (laneBit x.g.em l))
  | .zero => 0

/-- Register code `o` plus j, for pairs, quads and runs (R47, R160, R230). -/
def opPlus (o : Operand) (j : Nat) : Operand :=
  match o with
  | .v n => if h : n.val + j < 128 then .v ⟨n.val + j, h⟩ else .zero
  | .k n => if h : n.val + j < 64 then .k ⟨n.val + j, h⟩ else .zero
  | .inp n => .inp n
  | .sp s => .sp s
  | .p n => .p n
  | .em => .em
  | .zero => .zero

/-- A 64-bit source: the pair, or the whole GTC for %gtclo (R47). -/
def Ctx.rd64 (x : Ctx) (o : Operand) (l : Nat) : DWord :=
  match o with
  | .sp .gtclo => x.gtc
  | .v _ | .k _ | .zero => pair (x.rd o l) (x.rd (opPlus o 1) l)
  | _ => (x.rd o l).zeroExtend 64

/-- A source of 1 or 2 registers. -/
def Ctx.rdN (x : Ctx) (n : Nat) (o : Operand) (l : Nat) : DWord :=
  if n = 2 then x.rd64 o l else (x.rd o l).zeroExtend 64

def opIsGtclo (o : Operand) : Bool := o == .sp .gtclo
def srcIsGtclo : Src3 → Bool
  | .op o => opIsGtclo o
  | .imm _ => false

/-- R47: a word that reads %gtclo in an active lane latches the high half of its sample. -/
def Ctx.latch (x : Ctx) (act : LaneMask) (os : List Operand) : Ctx :=
  if act ≠ 0 ∧ os.any opIsGtclo then { x with g := { x.g with gtchi := some (hiWord x.gtc) } } else x

/-! ## Types and immediates -/

/-- Width and signedness of an integer type; T = 0xE takes its sign from MOD[2] (R48, R49, R166). -/
def tyWidth : Ty → Nat
  | .s64 | .n64 => 64
  | .h16 => 16
  | _ => 32
def tySigned (t : Ty) (md : BitVec 3) : Bool :=
  match t with
  | .s32 | .s64 => true
  | .h16 => !md.getLsbD 2
  | _ => false
/-- Registers of a value of the type (R47). -/
def tyRegs : Ty → Nat
  | .s64 | .n64 => 2
  | _ => 1

/-- R167: the range of an integer type, and narrowing. -/
def loOf (w : Nat) (signed : Bool) : Int := if signed then -(2 ^ (w - 1) : Int) else 0
def hiOf (w : Nat) (signed : Bool) : Int := if signed then 2 ^ (w - 1) - 1 else 2 ^ w - 1
def fit (i : Int) (w : Nat) (signed sat : Bool) : Int :=
  if sat then min (max i (loOf w signed)) (hiOf w signed)
  else if signed then sextN (ofIntN i w) w
  else (ofIntN i w : Int)

/-- The value of a pattern of an integer type (R167). -/
def valOf (w : Nat) (signed : Bool) (d : DWord) : Int := if signed then sextN d.toNat w else (d.toNat % 2 ^ w : Nat)

/-- An integer as the pattern written to its registers: 16-bit results fill the register, extended (R166). -/
def putInt (i : Int) : DWord := w64 (ofIntN i 64)

/-- The E4M3 code of an immediate, converted exactly (R45). -/
def immFloat (f : FFmt) (b : Byte) : Nat := (fconv f .ne (fE4M3.val b.toNat)).bits

/-- R240: residues of an integer. -/
def rnOf (v : Int) : Nat := (v % 1023).toNat + (v % 1024).toNat * 2 ^ 10 + (v % 1025).toNat * 2 ^ 20

/-- R45: IMM8 read for a type, as a register pattern. -/
def immOf (t : Ty) (md : BitVec 3) (b : Byte) : DWord :=
  match t with
  | .f32 => w64 (immFloat fF32 b)
  | .f16 => w64 (immFloat fF16 b)
  | .bf16 => w64 (immFloat fBF16 b)
  | .e4m3 | .e5m2 | .e3m2 | .e2m3 | .e2m1 => b.zeroExtend 64
  | .rn32 => w64 (rnOf (sextN b.toNat 8))
  | .b32 | .s32 | .s64 => putInt (sextN b.toNat 8)
  | .n32 | .n64 => b.zeroExtend 64
  | .h16 => if md.getLsbD 2 then b.zeroExtend 64 else putInt (sextN b.toNat 8)

/-- The second source of a two-source word: B, or the immediate in C (R44), of n registers. -/
def Ctx.src2 (x : Ctx) (f : F0) (n l : Nat) : DWord :=
  match f.c with
  | .imm b => immOf f.t f.md b
  | .op _ => x.rdN n f.b l

/-- The third source: C, or its immediate (R44). -/
def Ctx.src3 (x : Ctx) (f : F0) (n l : Nat) : DWord :=
  match f.c with
  | .imm b => immOf f.t f.md b
  | .op o => x.rdN n o l

/-- A count, position or index: B, or the zero-extended immediate in C (R166). -/
def Ctx.count2 (x : Ctx) (b : Operand) (c : Src3) (l : Nat) : Nat :=
  match c with
  | .imm i => i.toNat
  | .op _ => (x.rd b l).toNat
/-- A count in C (R166). -/
def Ctx.count3 (x : Ctx) (c : Src3) (l : Nat) : Nat :=
  match c with
  | .imm i => i.toNat
  | .op o => (x.rd o l).toNat
/-- The condition or AND source in C (R178). -/
def Ctx.cond3 (x : Ctx) (c : Src3) (l : Nat) : Bool :=
  match c with
  | .imm _ => true
  | .op o => x.rd o l != 0

/-! ## Destinations -/

/-- Write one register in one lane. -/
def Group.setReg (g : Group) (n l : Nat) (v : Word) : Group := { g with regs := g.regs.put 0 (n * 32 + l) v }

/-- Set or clear a predicate in one lane. -/
def Group.setPred (g : Group) (n l : Nat) (v : Bool) : Group :=
  let m := g.preds.atD n 0
  let b : LaneMask := BitVec.ofNat 32 (2 ^ l)
  { g with preds := g.preds.put 0 n (if v then m ||| b else m &&& ~~~ b) }

/-- Write a result of n registers to a destination in one lane: a v register, pair or quad; a predicate receives
(result ≠ 0); zero discards (R46, R47). -/
def Group.setDst (g : Group) (d : Operand) (n l : Nat) (v : Nat) : Group :=
  match d with
  | .v r => (List.range n).foldl (fun g j => if r.val + j < 128 then g.setReg (r.val + j) l (w32 (v / 2 ^ (32 * j))) else g) g
  | .p q => g.setPred q.val l (v % 2 ^ 32 != 0)
  | _ => g

/-- Write results to several lanes. -/
def Group.setLanes (g : Group) (d : Operand) (n : Nat) (vs : List (Nat × Nat)) : Group :=
  vs.foldl (fun g e => g.setDst d n e.1 e.2) g

/-! ## Whole words over lanes -/

/-- The operands that an F0 word reads, for the GTC latch. -/
def f0Sources (f : F0) : List Operand :=
  [f.a, f.b] ++ (match f.c with | .op o => [o] | .imm _ => [])

/-- The word's context after its GTC latch, and its active lanes. -/
def f0Ctx (f : F0) (s : State) (c : Core) (g : Group) : Ctx × LaneMask :=
  let act := g.active f.g
  ((⟨s, c, g⟩ : Ctx).latch act (f0Sources f), act)

/-- An F0 word that computes one result of n registers in each active lane from that lane alone: every source is read
before any destination is written. -/
def laneWord (s : State) (f : F0) (n : Nat) (k : Ctx → Nat → DWord) : Out :=
  withIssuer s fun c g =>
    let (x, act) := f0Ctx f s c g
    s.finish (x.g.setLanes f.d n ((maskLanes act).map fun l => (l, (k x l).toNat)))

/-- An F0 word whose results also set sticky flags. -/
def laneFloat (s : State) (f : F0) (k : Ctx → Nat → FRes) : Out :=
  withIssuer s fun c g =>
    let (x, act) := f0Ctx f s c g
    let rs := (maskLanes act).map fun l => (l, k x l)
    s.finish ((x.g.setLanes f.d 1 (rs.map fun r => (r.1, r.2.bits))).setFl (orFl (rs.map fun r => r.2.fl)))

end Sys2Proof.Machine
end

