-- ==== Sys2Proof/Machine/LongOps.lean ====
section
/-! DEFINITION. Long-latency operations (R57): marking a flag at issue, and completing. -/

namespace Sys2Proof.Machine

/-- A long-latency operation with nothing to wait for. -/
def LongOp.plain (num : Nat) (flag : Option Nat) (word : Nat) (kind : OpKind) : LongOp :=
  { num := num, flag := flag, word := word, kind := kind, ready := true, dst := .zero, size := 0, accs := [],
    overlay := [], writes := [], fl := 0, dead := false, flt := none }

/-- Issue an operation: it takes the core's next number, marks its flag, and the group moves on. `chg` changes the core
besides. The word waits while its flag's counter holds 63. -/
def State.startOp (s : State) (g : Group) (flag : Option Nat) (mk : Nat → LongOp) (chg : Nat → Core → Core) : State :=
  if g.flagFull flag then s.hold g
  else
    let n := (s.core s.cur.1).nextNum
    let s := s.modCore s.cur.1 fun c => chg n { c with nextNum := n + 1 }
    s.finish { g.flagUp flag with ops := g.ops ++ [mk n] }

/-- The results of n registers per lane as single register writes (R57). -/
def regWrites (d : Operand) (n : Nat) (vs : List (Nat × Nat)) : List RegWrite :=
  vs.flatMap fun e => (List.range n).map fun j => { reg := opPlus d j, lane := e.1, val := w32 (e.2 / 2 ^ (32 * j)) }

/-- Write the results of an operation and clear its flag; a dead operation writes nothing (R59, R197). -/
def Group.completeOp (g : Group) (o : LongOp) : Group :=
  let g := { g with ops := g.ops.filter fun p => p.num != o.num }
  if o.dead then g
  else
    let g := o.writes.foldl (fun g w => g.setDst w.reg 1 w.lane w.val.toNat) g
    (g.setFl o.fl.toNat).flagDown o.flag

/-- The group slot that waits for operation `num`: the slot that it was issued from, or where a resumed collection stands now. -/
def Core.opSlot (c : Core) (num : Nat) : Option (Nat × Group) := c.groups.find? fun e => e.2.ops.any fun o => o.num == num

/-- The operations of a parked collection without operation `num`. -/
def ParkEnt.lessOp (num : Nat) (p : ParkEnt) : ParkEnt := { p with ops := p.ops.filter fun o => o.num != num }

/-- An operation ends: it completes, or is removed when it is dead, from its group or from a parked collection; a group whose last
dead operation ends binds the tables that are current (R59, R214). -/
def Core.endOp (c : Core) (num : Nat) : Core :=
  match c.opSlot num with
  | none => { c with park := c.park.map (ParkEnt.lessOp num), parkOver := c.parkOver.map (ParkEnt.lessOp num) }
  | some (gi, g) =>
    match g.ops.find? fun o => o.num == num with
    | none => c
    | some o =>
      let g := g.completeOp o
      c.setGroup gi (if o.dead && !g.ops.any (fun p => p.dead) then { g with tbind := c.tcur } else g)

/-- The operation is still one that its group waits for: neither dead nor gone. -/
def Core.opAlive (c : Core) (gi num : Nat) : Bool :=
  match c.group? gi with
  | none => false
  | some g => g.ops.any fun o => o.num == num && !o.dead

end Sys2Proof.Machine
end

