-- ==== Sys2Proof/Machine/Integer.lean ====
section
/-! DEFINITION. The integer, bit, selection and address words (R166 to R181). -/

namespace Sys2Proof.Machine

/-! ## Moves (R169) -/

def execMov (f : F0) (s : State) : Out := laneWord s f (tyRegs f.t) fun x l => x.rdN (tyRegs f.t) f.a l

/-- The constant that MOVK reads: base N plus the lane's index; past k63 it reads zero (R169). -/
def movkValue (c : Core) (t : Ty) (base idx : Nat) : DWord :=
  let i := base + idx
  if tyRegs t = 2 then
    let j := i - i % 2
    if j ≤ 62 then pair (c.consts.atD j 0) (c.consts.atD (j + 1) 0) else 0
  else if i ≤ 63 then (c.consts.atD i 0).zeroExtend 64 else 0

def kIndex : Operand → Nat
  | .k n => n.val
  | _ => 0

def execMovk (f : F0) (s : State) : Out :=
  laneWord s f (tyRegs f.t) fun x l => movkValue x.c f.t (kIndex f.a) (x.count2 f.b f.c l)

def execMovi (f : F0) (s : State) : Out := laneWord s f (tyRegs f.t) fun x l => x.src3 f (tyRegs f.t) l

/-- MOVI.BYp replaces byte p = FN − 4 (R169). -/
def execMoviBy (f : F0) (s : State) : Out :=
  laneWord s f 1 fun x l =>
    let p := f.fn.toNat - 4
    w64 (setField (x.rd f.a l).toNat (8 * p) 8 (x.count3 f.c l))

/-! ## Arithmetic (R167, R170, R171) -/

/-- The value of an operand pattern of the word's type. -/
def f0Val (f : F0) (d : DWord) : Int := valOf (tyWidth f.t) (tySigned f.t f.md) d

/-- fit(r, T, MOD[0]) as the pattern written. -/
def f0Fit (f : F0) (sat : Bool) (r : Int) : DWord := putInt (fit r (tyWidth f.t) (tySigned f.t f.md) sat)

def f0Sat (f : F0) : Bool := f.md.getLsbD 0

/-- A two-source word that writes fit(op a b). -/
def arith2 (s : State) (f : F0) (sat : Bool) (op : Int → Int → Int) : Out :=
  let n := tyRegs f.t
  laneWord s f n fun x l => f0Fit f sat (op (f0Val f (x.rdN n f.a l)) (f0Val f (x.src2 f n l)))

/-- A one-source word that writes fit(op a). -/
def arith1 (s : State) (f : F0) (sat : Bool) (op : Int → Int) : Out :=
  let n := tyRegs f.t
  laneWord s f n fun x l => f0Fit f sat (op (f0Val f (x.rdN n f.a l)))

def execAdd (f : F0) (s : State) : Out := arith2 s f (f0Sat f) (· + ·)
def execSub (f : F0) (s : State) : Out := arith2 s f (f0Sat f) (· - ·)
def execMul (f : F0) (s : State) : Out := arith2 s f (f0Sat f) (· * ·)
/-- floor(a × b / 2^w). -/
def execMulhi (f : F0) (s : State) : Out := arith2 s f false fun a b => a * b / (2 ^ tyWidth f.t : Int)
def execMad (f : F0) (s : State) : Out :=
  let n := tyRegs f.t
  laneWord s f n fun x l =>
    f0Fit f (f0Sat f) (f0Val f (x.rdN n f.a l) * f0Val f (x.rdN n f.b l) + f0Val f (x.src3 f n l))
/-- T′ of MADW has twice the width of T. -/
def execMadw (f : F0) (s : State) : Out :=
  let w := 2 * tyWidth f.t
  let sg := tySigned f.t f.md
  let n := w / 32
  laneWord s f n fun x l =>
    let r := f0Val f (x.rdN 1 f.a l) * f0Val f (x.rdN 1 f.b l) + valOf w sg (x.src3 f n l)
    putInt (fit r w sg (f0Sat f))
def execAbs (f : F0) (s : State) : Out := arith1 s f (f0Sat f) fun a => if a < 0 then -a else a
def execNeg (f : F0) (s : State) : Out := arith1 s f (f0Sat f) fun a => -a
def execMin (f : F0) (s : State) : Out := arith2 s f false min
def execMax (f : F0) (s : State) : Out := arith2 s f false max

/-! ## Division (R172, R173) -/

/-- The quotient and the remainder of R172. -/
def divRem (w : Nat) (sg sat : Bool) (a b : Int) : Int × Int :=
  if b = 0 then
    (if sat then (if 0 < a then hiOf w sg else if a < 0 then loOf w sg else 0)
     else if sg then -1 else hiOf w sg, a)
  else
    let e := Int.tdiv a b
    (fit e w sg sat, a - b * e)

/-- A division enters the core's one divide unit: one word in progress and four that wait; a fifth waits at issue. -/
def divWord (s : State) (f : F0) (pick : Int × Int → Int) : Out :=
  withIssuer s fun c g =>
    if 5 ≤ c.divq.length then s.hold g
    else
      let n := tyRegs f.t
      let (x, act) := f0Ctx f s c g
      let vs := (maskLanes act).map fun l =>
        (l, (putInt (pick (divRem (tyWidth f.t) (tySigned f.t f.md) (f0Sat f) (f0Val f (x.rdN n f.a l))
              (f0Val f (x.src2 f n l))))).toNat)
      let flag := flagOf (f.x.toNat % 16)
      s.startOp x.g flag (fun num => { LongOp.plain num flag g.pc .result with dst := f.d, writes := regWrites f.d n vs })
        fun num c => { c with divq := c.divq ++ [num] }

def execDiv (f : F0) (s : State) : Out := divWord s f Prod.fst
def execRem (f : F0) (s : State) : Out := divWord s f Prod.snd

/-! ## Bits and shifts (R174 to R177) -/

/-- A word on width-w patterns. -/
def bits2 (s : State) (f : F0) (op : Nat → Nat → Nat → Nat) : Out :=
  let n := tyRegs f.t
  let w := 32 * n
  laneWord s f n fun x l => w64 (op w (x.rdN n f.a l).toNat (x.src2 f n l).toNat % 2 ^ w)

/-- A shift of the width-w pattern of A by the unmasked count. -/
def shiftWord (s : State) (f : F0) (op : Nat → Nat → Nat → Nat) : Out :=
  let n := tyRegs f.t
  let w := 32 * n
  laneWord s f n fun x l => w64 (op w ((x.rdN n f.a l).toNat % 2 ^ w) (x.count2 f.b f.c l))

def shlN (w a n : Nat) : Nat := if n < w then a * 2 ^ n % 2 ^ w else 0
def shrN (w a n : Nat) : Nat := if n < w then a / 2 ^ n else 0
/-- An arithmetic shift, whatever the signedness of T (R174). -/
def sarN (w a n : Nat) : Nat :=
  if n < w then ofIntN (sextN a w / (2 ^ n : Int)) w else if a / 2 ^ (w - 1) % 2 = 1 then 2 ^ w - 1 else 0
def rolN (w a n : Nat) : Nat := a * 2 ^ (n % w) % 2 ^ w + a / 2 ^ (w - n % w)

def execShl (f : F0) (s : State) : Out := shiftWord s f shlN
def execShr (f : F0) (s : State) : Out := shiftWord s f shrN
def execSar (f : F0) (s : State) : Out := shiftWord s f sarN
def execRol (f : F0) (s : State) : Out := shiftWord s f rolN

def execAnd (f : F0) (s : State) : Out := bits2 s f fun _ a b => a &&& b
def execOr (f : F0) (s : State) : Out := bits2 s f fun _ a b => a ||| b
def execXor (f : F0) (s : State) : Out := bits2 s f fun _ a b => a ^^^ b
def execAndn (f : F0) (s : State) : Out := bits2 s f fun w a b => a &&& (2 ^ w - 1 - b % 2 ^ w)
def execNot (f : F0) (s : State) : Out :=
  let n := tyRegs f.t
  laneWord s f n fun x l => w64 (2 ^ (32 * n) - 1 - (x.rdN n f.a l).toNat % 2 ^ (32 * n))

/-- R176: BFE. -/
def bfeN (signed : Bool) (a p n : Nat) : Nat :=
  if 32 ≤ p ∨ n = 0 then 0
  else
    let n := min n (32 - p)
    let v := field a p n
    if signed then ofIntN (sextN v n) 32 else v

/-- R176: BFI. -/
def bfiN (a b c : Nat) : Nat :=
  let p := c % 256
  let n := c / 256 % 256
  if 32 ≤ p ∨ n = 0 then a else setField a p (min n (32 - p)) b

def execBfe (f : F0) (s : State) : Out :=
  laneWord s f 1 fun x l => w64 (bfeN (f.t == .s32) (x.rd f.a l).toNat (x.rd f.b l).toNat (x.count3 f.c l))
def execBfi (f : F0) (s : State) : Out :=
  laneWord s f 1 fun x l => w64 (bfiN (x.rd f.a l).toNat (x.rd f.b l).toNat (x.count3 f.c l))

/-- R177: bit j moves to bit w − 1 − j. -/
def brevN (w a : Nat) : Nat := (List.range w).foldl (fun acc j => acc + a / 2 ^ j % 2 * 2 ^ (w - 1 - j)) 0
def clzN (w a : Nat) : Nat := if a = 0 then w else w - 1 - Nat.log2 a
def ctzN (w a : Nat) : Nat := ((List.range w).find? fun j => a / 2 ^ j % 2 == 1).getD w

def execBrev (f : F0) (s : State) : Out :=
  let n := tyRegs f.t
  laneWord s f n fun x l => w64 (brevN (32 * n) (x.rdN n f.a l).toNat)
/-- A count of the width-w pattern into one register (R177). -/
def countWord (s : State) (f : F0) (op : Nat → Nat → Nat) : Out :=
  let n := tyRegs f.t
  laneWord s f 1 fun x l => w64 (op (32 * n) (x.rdN n f.a l).toNat)
def execClz (f : F0) (s : State) : Out := countWord s f clzN
def execCtz (f : F0) (s : State) : Out := countWord s f ctzN
def execPopc (f : F0) (s : State) : Out := countWord s f fun w a => popcount a w

/-! ## Selection, comparison, addresses, conversion, predicates (R178 to R181) -/

def execSel (f : F0) (s : State) : Out :=
  let n := tyRegs f.t
  laneWord s f n fun x l => if x.cond3 f.c l then x.rdN n f.a l else x.rdN n f.b l

/-- The condition FN[2:0] of CMP (R178). -/
def cmpHolds (cond : Nat) (a b : Int) : Bool :=
  match cond with
  | 0 => a == b
  | 1 => a != b
  | 2 => decide (a < b)
  | 3 => decide (a ≤ b)
  | 4 => decide (b < a)
  | _ => decide (b ≤ a)

def execCmp (f : F0) (s : State) : Out :=
  let n := tyRegs f.t
  laneWord s f 1 fun x l =>
    let r := cmpHolds (f.fn.toNat % 8) (f0Val f (x.rdN n f.a l)) (f0Val f (x.src2 f n l))
    w64 (bit01 (r && (f.fn.toNat < 8 || x.cond3 f.c l)))

/-- R179: A + ext(B) × 2^s modulo 2^64; a shift of 64 or more leaves A. -/
def leaN (signed : Bool) (a : Nat) (b : Word) (sh : Nat) : Nat :=
  if 64 ≤ sh then a else ofIntN (a + (if signed then sextN b.toNat 32 else (b.toNat : Int)) * 2 ^ sh) 64

def execLea (f : F0) (s : State) : Out :=
  laneWord s f 2 fun x l => w64 (leaN (f.t == .s32) (x.rd64 f.a l).toNat (x.rd f.b l) (x.count3 f.c l))

/-- R180: width and signedness of the source type that FN selects. -/
def cvtiSrc (fn : Nat) : Nat × Bool := (8 * 2 ^ (fn / 2), fn % 2 == 0)

def execCvti (f : F0) (s : State) : Out :=
  let (w, sg) := cvtiSrc f.fn.toNat
  laneWord s f (tyRegs f.t) fun x l =>
    f0Fit f (f0Sat f) (valOf w sg (x.rdN (if w = 64 then 2 else 1) f.a l))

/-- A predicate word: FN[0] inverts A and FN[1] inverts B (R181). -/
def predWord (s : State) (f : F0) (op : Bool → Bool → Bool) : Out :=
  laneWord s f 1 fun x l =>
    let a := (x.rd f.a l != 0) != f.fn.getLsbD 0
    let b := (x.rd f.b l != 0) != f.fn.getLsbD 1
    w64 (bit01 (op a b))

def execPand (f : F0) (s : State) : Out := predWord s f (· && ·)
def execPor (f : F0) (s : State) : Out := predWord s f (· || ·)
def execPxor (f : F0) (s : State) : Out := predWord s f (· != ·)
def execPnot (f : F0) (s : State) : Out := predWord s f fun a _ => !a

end Sys2Proof.Machine
end

