-- ==== Sys2Proof/Machine/FloatWords.lean ====
section
/-! DEFINITION. The floating-point words and SFLG (R200 to R209). -/

namespace Sys2Proof.Machine

/-- The format of a floating type (R190). -/
def fmtOfTy : Ty → FFmt
  | .f16 => fF16
  | .bf16 => fBF16
  | .e4m3 => fE4M3
  | .e5m2 => fE5M2
  | .e3m2 => fE3M2
  | .e2m3 => fE2M3
  | .e2m1 => fE2M1
  | _ => fF32

/-- A scalar source pattern: F16 and BF16 read bits 15:0 (R192). -/
def fPat (f : FFmt) (d : DWord) : Nat := d.toNat % 2 ^ f.width
def fVal (f : FFmt) (d : DWord) : FVal := f.val (fPat f d)

/-- MOD as rounding mode and saturation (R49). -/
def f0Rnd (f : F0) : Rnd := Rnd.ofMod f.md.toNat
def f0FSat (f : F0) : Bool := f.md.getLsbD 2

/-- A two-source floating word. -/
def float2 (s : State) (f : F0) (op : FFmt → Rnd → Bool → FVal → FVal → FRes) : Out :=
  let fm := fmtOfTy f.t
  laneFloat s f fun x l => op fm (f0Rnd f) (f0FSat f) (fVal fm (x.rdN 1 f.a l)) (fVal fm (x.src2 f 1 l))

def execFadd (f : F0) (s : State) : Out := float2 s f fadd
def execFsub (f : F0) (s : State) : Out := float2 s f fsub
def execFmul (f : F0) (s : State) : Out := float2 s f fmul
def execFdiv (f : F0) (s : State) : Out := float2 s f fdiv
def execFfma (f : F0) (s : State) : Out :=
  let fm := fmtOfTy f.t
  laneFloat s f fun x l =>
    ffma fm (f0Rnd f) (f0FSat f) (fVal fm (x.rdN 1 f.a l)) (fVal fm (x.rdN 1 f.b l)) (fVal fm (x.src3 f 1 l))
def execFsqrt (f : F0) (s : State) : Out :=
  let fm := fmtOfTy f.t
  laneFloat s f fun x l => fsqrt fm (f0Rnd f) (f0FSat f) (fVal fm (x.rdN 1 f.a l))

def execFmin (f : F0) (s : State) : Out :=
  let fm := fmtOfTy f.t
  laneFloat s f fun x l => fminmax fm false (fPat fm (x.rdN 1 f.a l)) (fPat fm (x.src2 f 1 l))
def execFmax (f : F0) (s : State) : Out :=
  let fm := fmtOfTy f.t
  laneFloat s f fun x l => fminmax fm true (fPat fm (x.rdN 1 f.a l)) (fPat fm (x.src2 f 1 l))

/-- R203: the sign bit cleared. -/
def execFabs (f : F0) (s : State) : Out :=
  let fm := fmtOfTy f.t
  laneWord s f 1 fun x l => w64 (fPat fm (x.rdN 1 f.a l) % fm.signBit)
/-- R203: the sign bit inverted. -/
def execFneg (f : F0) (s : State) : Out :=
  let fm := fmtOfTy f.t
  laneWord s f 1 fun x l => w64 (fPat fm (x.rdN 1 f.a l) ^^^ fm.signBit)

def execFcmp (f : F0) (s : State) : Out :=
  let fm := fmtOfTy f.t
  laneFloat s f fun x l =>
    let (r, fl) := fcmp (f.fn.toNat % 8) (fVal fm (x.rdN 1 f.a l)) (fVal fm (x.src2 f 1 l))
    ⟨bit01 (r && (f.fn.toNat < 8 || x.cond3 f.c l)), fl⟩

def execFclass (f : F0) (s : State) : Out :=
  let fm := fmtOfTy f.t
  laneWord s f 1 fun x l => w64 (fclass fm (fPat fm (x.rdN 1 f.a l)))

def execFrnd (f : F0) (s : State) : Out :=
  let fm := fmtOfTy f.t
  laneFloat s f fun x l => frnd fm (f0Rnd f) (fPat fm (x.rdN 1 f.a l))

/-! ## Conversion (R207) and stochastic rounding (R198) -/

/-- A lane's generator state, and its advance: the random value and the group with the new state. -/
def Group.srOf (g : Group) (l : Nat) : BitVec 16 := g.sr.atD l 0
def Group.srStep (g : Group) (l : Nat) : Nat × Group :=
  let q := srAdvance (g.srOf l)
  (q.toNat, { g with sr := g.sr.put 0 l q })

/-- The type code of R48 that FN carries in FCVT. -/
def tyOfFn : Nat → Ty
  | 1 => .s32
  | 2 => .n32
  | 3 => .s64
  | 4 => .n64
  | 5 => .f32
  | 6 => .f16
  | _ => .bf16
def isFloatTy : Ty → Bool
  | .f32 | .f16 | .bf16 => true
  | _ => false

/-- One conversion from type `src` to type `dst`. -/
def fcvtOne (src dst : Ty) (r : Rnd) (d : DWord) : FRes :=
  if isFloatTy src then
    let a := fVal (fmtOfTy src) d
    if isFloatTy dst then fconv (fmtOfTy dst) r a
    else
      let w := tyWidth dst
      let sg := tySigned dst 0
      let (i, fl) := f2i r (loOf w sg) (hiOf w sg) a
      ⟨(putInt i).toNat, fl⟩
  else i2f (fmtOfTy dst) r (valOf (tyWidth src) (tySigned src 0) d)

/-- Each conversion with `.SR` advances the state of each active lane once and uses the new state. -/
def execFcvt (f : F0) (s : State) : Out :=
  let src := tyOfFn f.fn.toNat
  let nd := tyRegs f.t
  withIssuer s fun c g =>
    let (x, act) := f0Ctx f s c g
    let sr := f.md.getLsbD 2
    let rs := (maskLanes act).map fun l =>
      let r := if sr then Rnd.sr (srAdvance (g.srOf l)).toNat else f0Rnd f
      (l, fcvtOne src f.t r (x.rdN (tyRegs src) f.a l))
    let g := if sr then (maskLanes act).foldl (fun g l => (g.srStep l).2) x.g else x.g
    s.finish ((g.setLanes f.d nd (rs.map fun e => (e.1, e.2.bits))).setFl (orFl (rs.map fun e => e.2.fl)))

/-! ## Packed halves (R208) -/

/-- Apply an operation to the low and the high half of each source. -/
def packed (s : State) (f : F0) (three : Bool) (op : FVal → FVal → FVal → FRes) : Out :=
  let fm := fmtOfTy f.t
  laneFloat s f fun x l =>
    let a := (x.rd f.a l).toNat
    let dup (d : DWord) : Nat := match f.c with
      | .imm _ => d.toNat % 65536 * 65537
      | .op _ => d.toNat
    let b := if three then (x.rd f.b l).toNat else dup (x.src2 f 1 l)
    let c := if three then dup (x.src3 f 1 l) else 0
    let lo := op (fm.val (a % 65536)) (fm.val (b % 65536)) (fm.val (c % 65536))
    let hi := op (fm.val (a / 65536)) (fm.val (b / 65536)) (fm.val (c / 65536))
    ⟨lo.bits + hi.bits * 65536, lo.fl ||| hi.fl⟩

def execHadd2 (f : F0) (s : State) : Out := packed s f false fun a b _ => fadd (fmtOfTy f.t) (f0Rnd f) (f0FSat f) a b
def execHmul2 (f : F0) (s : State) : Out := packed s f false fun a b _ => fmul (fmtOfTy f.t) (f0Rnd f) (f0FSat f) a b
def execHfma2 (f : F0) (s : State) : Out := packed s f true fun a b c => ffma (fmtOfTy f.t) (f0Rnd f) (f0FSat f) a b c

/-! ## SFLG (R209) -/

/-- SFLG with a destination: every active lane receives the status word; `clear` then clears it. -/
def sflgRead (s : State) (f : F0) (clear : Bool) : Out :=
  withIssuer s fun _ g =>
    let act := g.active f.g
    let g' := g.setLanes f.d 1 ((maskLanes act).map fun l => (l, g.fpsr.toNat))
    s.finish (if clear && act != 0 then { g' with fpsr := 0 } else g')

/-- SFLG with a mask from the lowest active lane, or the immediate. -/
def sflgWrite (s : State) (f : F0) (k : Word → Word → Word) : Out :=
  withIssuer s fun c g =>
    let (x, act) := f0Ctx f s c g
    match leader? act with
    | none => s.finish g
    | some l => s.finish { x.g with fpsr := k g.fpsr (w32 (x.count2 f.a f.c l % 64)) }

def execSflgRd (f : F0) (s : State) : Out := sflgRead s f false
def execSflgRdc (f : F0) (s : State) : Out := sflgRead s f true
def execSflgSet (f : F0) (s : State) : Out := sflgWrite s f fun st v => st ||| v
def execSflgClr (f : F0) (s : State) : Out := sflgWrite s f fun st v => st &&& ~~~ v

end Sys2Proof.Machine
end

