-- ==== Sys2Proof/Machine/Narrow.lean ====
section
/-! DEFINITION. Narrow codes, block scales and sparse groups (R219 to R239). -/

namespace Sys2Proof.Machine

/-! ## Codes in registers (R221) -/

/-- Bits of a code's place in a packed register, and codes in a register. -/
def codeStep (t : Ty) : Nat :=
  match t with
  | .e2m1 => 4
  | _ => 8
def codesPerReg (t : Ty) : Nat := 32 / codeStep t

/-- Code k of a packed register. -/
def codeAt (t : Ty) (w k : Nat) : Nat := w / 2 ^ (codeStep t * k) % 2 ^ (fmtOfTy t).width

/-- The code that the format writes for a NaN: its canonical NaN, or +0 (R220, R222). -/
def nanCode (t : Ty) : Nat := (fmtOfTy t).nanPat

/-- The 20 bits of a scale in a register (R224). -/
def scaleBits (w : Word) : Nat := w.toNat % 2 ^ 20

/-- A value divided by a scale m × 2^e, m > 0, rounded once to a narrow code (R222). -/
def divNarrow (f : FFmt) (r : Rnd) (a : FVal) (m : Nat) (e : Int) : FRes :=
  match a with
  | .fin n ma ea => f.round r false n (ma * 2 ^ 96 / m) (ea - e - 96) (ma * 2 ^ 96 % m != 0)
  | _ => toNarrow f r a

/-- A value multiplied by a scale m × 2^e and rounded once to F32, under the product cases of R202. -/
def mulScale (r : Rnd) (a : FVal) (m : Nat) (e : Int) : FRes :=
  match a with
  | .nan sg => fF32.nanRes (if sg then fNV else 0)
  | .inf n => if m = 0 then fF32.nanRes fNV else fF32.infRes false n 0
  | .fin n ma ea => fF32.round r false n (ma * m) (ea + e) false

/-- R235, R242: an overflow gives ±∞, with OF and NX, in every rounding mode. -/
def overInf (neg : Bool) (y : FRes) : FRes := if y.fl &&& fOF ≠ 0 then fF32.infRes false neg y.fl else y

/-! ## SCALE, QNT, DQNT (R233 to R235) -/

/-- R233: the smallest scale s with s ≥ m × 2^e / L, for m > 0. Scale patterns count multiples of the spacing. -/
def smallestScale (t : Ty) (m : Nat) (e : Int) : Nat :=
  match (fmtOfTy t).val (fmtOfTy t).maxPat with
  | .fin _ ml el =>
    let x := m * 2 ^ 96 / ml
    let st := m * 2 ^ 96 % ml != 0
    let e0 := e - el - 96
    let q : Int := max (-138) ((Nat.log2 x : Int) + e0 - 12)
    let sh := (q - e0).toNat
    let n := x / 2 ^ sh + bit01 (x % 2 ^ sh != 0 || st)
    n + (q + 138).toNat * 4096
  | _ => 0

/-- R233: SCALE of one F32 value. -/
def scaleOf (t : Ty) (a : FVal) : FRes :=
  match a with
  | .nan sg => ⟨0xFF000, fFMT + (if sg then fNV else 0)⟩
  | .inf _ => ⟨0xFF000, fFMT⟩
  | .fin _ m e => ⟨if m = 0 then 0x7F000 else smallestScale t m e, 0⟩

def execScale (f : F0) (s : State) : Out := laneFloat s f fun x l => scaleOf f.t (fVal fF32 (x.rdN 1 f.a l))

/-- R234: one element. Under a NaN scale or a zero scale a signalling NaN sets no NV (log entry 171). -/
def qntOne (t : Ty) (r : Rnd) (sc : Nat) (a : FVal) : FRes :=
  match bs20 sc with
  | none => ⟨nanCode t, fFMT⟩
  | some (m, e) => if m = 0 then ⟨0, fFMT⟩ else divNarrow (fmtOfTy t) r a m e

/-- The elements of one lane, code k upward, with the generator that `.SR` advances once for each. -/
def qntLane (t : Ty) (md : BitVec 3) (sc : Nat) (g : Group) (l : Nat) (vals : List FVal) : List FRes × Group :=
  vals.foldl (fun acc a =>
    if md.getLsbD 2 then
      let (q, g) := acc.2.srStep l
      (acc.1 ++ [qntOne t (.sr q) sc a], g)
    else (acc.1 ++ [qntOne t (Rnd.ofMod md.toNat) sc a], acc.2)) ([], g)

/-- Codes packed lowest first, each in `step` bits. -/
def packCodes (step : Nat) (cs : List Nat) : Nat := cs.foldr (fun c acc => c + 2 ^ step * acc) 0

def execQnt (f : F0) (s : State) : Out :=
  withIssuer s fun c g =>
    let (x, act) := f0Ctx f s c g
    let n := codesPerReg f.t
    let (g, outs) := (maskLanes act).foldl (fun acc l =>
      let vals := (List.range n).map fun k => fF32.val (x.rd (opPlus f.a k) l).toNat
      let r := qntLane f.t f.md (scaleBits (x.rd f.b l)) acc.1 l vals
      (r.2, acc.2 ++ [(l, r.1)])) (x.g, ([] : List (Nat × List FRes)))
    s.finish ((g.setLanes f.d 1 (outs.map fun e => (e.1, packCodes (codeStep f.t) (e.2.map FRes.bits)))).setFl
      (orFl (outs.map fun e => orFl (e.2.map FRes.fl))))

/-- R235: one element. -/
def dqntOne (t : Ty) (r : Rnd) (sc code : Nat) : FRes :=
  let a := (fmtOfTy t).val code
  match bs20 sc with
  | none => fF32.nanRes (fFMT ||| nvSig [a])
  | some (m, e) => overInf a.neg (mulScale r a m e)

/-- A word that writes a run of n registers from D in each active lane. -/
def laneRun (s : State) (f : F0) (k : Ctx → Nat → List (Nat × FRes)) : Out :=
  withIssuer s fun c g =>
    let (x, act) := f0Ctx f s c g
    let rs := (maskLanes act).map fun l => (l, k x l)
    s.finish ((rs.foldl (fun g e => e.2.foldl (fun g r => g.setDst (opPlus f.d r.1) 1 e.1 r.2.bits) g) x.g).setFl
      (orFl (rs.map fun e => orFl (e.2.map fun r => r.2.fl))))

def execDqnt (f : F0) (s : State) : Out :=
  laneRun s f fun x l =>
    let w := (x.rd f.a l).toNat
    let sc := scaleBits (x.rd f.b l)
    (List.range (codesPerReg f.t)).map fun k => (k, dqntOne f.t (f0Rnd f) sc (codeAt f.t w k))

/-! ## Scale words (R236) -/

def execBspack (f : F0) (s : State) : Out :=
  laneWord s f 2 fun x l =>
    w64 (scaleBits (x.rd f.a l) + scaleBits (x.rd f.b l) * 2 ^ 20 + scaleBits (w32 (x.count3 f.c l)) * 2 ^ 40)

def execBsunpack (f : F0) (s : State) : Out :=
  laneWord s f 1 fun x l => w64 (field (x.rd64 f.a l).toNat (20 * x.count3 f.c l) 20)

/-! ## CVTN (R237) -/

def execCvtnUp (f : F0) (s : State) : Out :=
  laneFloat s f fun x l =>
    let j := x.count2 f.b f.c l
    if j < codesPerReg f.t then fconv fF32 .ne ((fmtOfTy f.t).val (codeAt f.t (x.rd f.a l).toNat j)) else ⟨0, 0⟩

/-- CVTN.DN. Of a six-bit type, bits 7:6 of the other codes' bytes keep what B holds there, and those of code j become zero (log entry
155). -/
def execCvtnDn (f : F0) (s : State) : Out :=
  withIssuer s fun c g =>
    let (x, act) := f0Ctx f s c g
    let sr := f.md.getLsbD 2
    let step := codeStep f.t
    let rs := (maskLanes act).map fun l =>
      let r := if sr then Rnd.sr (srAdvance (g.srOf l)).toNat else f0Rnd f
      let v := toNarrow (fmtOfTy f.t) r (fF32.val (x.rd f.a l).toNat)
      (l, setField (x.rd f.b l).toNat (step * x.count3 f.c l) step v.bits, v.fl)
    let g := if sr then (maskLanes act).foldl (fun g l => (g.srStep l).2) x.g else x.g
    s.finish ((g.setLanes f.d 1 (rs.map fun e => (e.1, e.2.1))).setFl (orFl (rs.map fun e => e.2.2)))

/-- The registers of a run, lowest first, as one number. -/
def Ctx.runNat (x : Ctx) (o : Operand) (n l : Nat) : Nat :=
  packCodes 32 ((List.range n).map fun k => (x.rd (opPlus o k) l).toNat)

/-- A number as n registers with no flags. -/
def regsOf (n v : Nat) : List (Nat × FRes) := (List.range n).map fun k => (k, ⟨field v (32 * k) 32, 0⟩)

def execCvtnDense (f : F0) (s : State) : Out :=
  laneRun s f fun x l =>
    let v := x.runNat f.a 4 l
    regsOf 3 (packCodes 6 ((List.range 16).map fun k => field v (8 * k) 6))

def execCvtnBytes (f : F0) (s : State) : Out :=
  laneRun s f fun x l =>
    let v := x.runNat f.a 3 l
    regsOf 4 (packCodes 8 ((List.range 16).map fun k => field v (6 * k) 6))

/-! ## Sparse groups (R226, R238, R239) -/

/-- N of the sparse forms: FN 1, 2, 3 keep 32, 16, 8. -/
def sparseN (fn : Nat) : Nat :=
  match fn with
  | 1 => 32
  | 2 => 16
  | _ => 8

/-- The registers of N packed codes. -/
def valueRegs (t : Ty) (n : Nat) : Nat := n / codesPerReg t

/-- R238: the kept indices, ascending: the N of largest magnitude, lower indices first among equals. -/
def keptOf (magn : List Nat) (n : Nat) : List Nat :=
  let order := sortBy (fun a b => (magn[b]?).getD 0 ≤ (magn[a]?).getD 0) (List.range 64)
  sortBy (· ≤ ·) (order.take n)

def execSpcmp (f : F0) (s : State) : Out :=
  laneRun s f fun x l =>
    let w := (fmtOfTy f.t).width
    let v := x.runNat f.a (64 / codesPerReg f.t) l
    let codes := (List.range 64).map fun i => field v (codeStep f.t * i) w
    let n := sparseN f.fn.toNat
    let ks := keptOf (codes.map fun cd => cd % 2 ^ (w - 1)) n
    let mask := ks.foldl (fun m i => m + 2 ^ i) 0
    regsOf (valueRegs f.t n) (packCodes (codeStep f.t) (ks.map fun i => (codes[i]?).getD 0)) ++
      [(8, ⟨field mask 0 32, 0⟩), (9, ⟨field mask 32 32, 0⟩)]

/-- R239, R226: 64 codes from kept codes and a mask; an ill-formed group is 64 zeros. -/
def expandCodes (mask n : Nat) (kept : Nat → Nat) : List Nat × Bool :=
  if popcount mask 64 = n then
    ((List.range 64).map fun i => if mask / 2 ^ i % 2 = 1 then kept (popcount (mask % 2 ^ i) 64) else 0, true)
  else ((List.range 64).map fun _ => 0, false)

def execSpexp (f : F0) (s : State) : Out :=
  laneRun s f fun x l =>
    let w := (fmtOfTy f.t).width
    let n := sparseN f.fn.toNat
    let v := x.runNat f.a (valueRegs f.t n) l
    let mask := x.runNat (opPlus f.a 8) 2 l
    let r := expandCodes mask n fun k => field v (codeStep f.t * k) w
    (regsOf (64 / codesPerReg f.t) (packCodes (codeStep f.t) r.1)).map fun e =>
      (e.1, ⟨e.2.bits, if r.2 then 0 else fFMT⟩)

end Sys2Proof.Machine
end

