-- ==== Sys2Proof/Machine/Lines.lean ====
section
/-! DEFINITION. Lines of frames and typed buffers: the order of requests to one line (R157, R266), line locks and wounds
(R29), undo images (R27, R268), the places that matrix operations touch (R245 to R248), and clusters (R24, R163). -/

namespace Sys2Proof.Machine

/-- The lines of n bytes from an offset. -/
def spanLines (o n : Nat) : List Nat := if n = 0 then [] else (List.range ((o + n - 1) / 128 + 1 - o / 128)).map (o / 128 + ·)

/-! ## Matrix operands (R245 to R249) -/

/-- M and N of a SHAPE (R245). -/
def shapeM (sh : Nat) : Nat :=
  match sh with
  | 0 => 16
  | 1 | 3 => 32
  | 2 | 4 | 6 => 64
  | _ => 128
def shapeN (sh : Nat) : Nat :=
  match sh with
  | 0 => 16
  | 1 | 2 => 32
  | 3 | 4 | 5 => 64
  | _ => 128

/-- The fields of a format-block word (R248). -/
def fbATy (w : DWord) : Nat := field w.toNat 0 4
def fbBTy (w : DWord) : Nat := field w.toNat 4 4
/-- A block length from its code (R248). -/
def blenOf (x : Nat) : Nat := if x = 0 then 0 else 8 * 2 ^ x
def fbABlen (w : DWord) : Nat := blenOf (field w.toNat 8 2)
def fbBBlen (w : DWord) : Nat := blenOf (field w.toNat 10 2)
def fbK (w : DWord) : Nat := 64 * field w.toNat 16 8
def fbAPitch (w : DWord) : Nat := 16 * field w.toNat 32 15
def fbBPitch (w : DWord) : Nat := 16 * field w.toNat 48 15
def fbValid (w : DWord) : Bool := w.getLsbD 63

/-- Bits of an element type code (R247, R248). -/
def elemBits (ty : Nat) : Nat :=
  match ty with
  | 5 => 32
  | 6 | 7 => 16
  | 10 | 11 => 6
  | 12 => 4
  | _ => 8

/-- Bytes of n codes; six-bit codes fill groups of 16 (R247). -/
def codeBytes (ty n : Nat) : Nat := if elemBits ty = 6 then (n + 15) / 16 * 12 else n * elemBits ty / 8

def align8 (n : Nat) : Nat := (n + 7) / 8 * 8

/-- Kept values of each group of 64 by SPAR; 64 when dense (R226). -/
def sparKept (spar : Nat) : Nat :=
  match spar with
  | 0 => 64
  | 1 => 32
  | 2 => 16
  | _ => 8

/-- Offsets of a strip's masks and scale words, and its length (R247). -/
def stripMasks (ty k spar : Nat) : Nat := align8 (codeBytes ty (k / 64 * sparKept spar))
def stripScales (ty k spar : Nat) : Nat :=
  if spar = 0 then align8 (codeBytes ty k) else stripMasks ty k spar + 8 * (k / 64)
def stripLen (ty k spar blen : Nat) : Nat :=
  if blen = 0 then (if spar = 0 then codeBytes ty k else stripMasks ty k spar + 8 * (k / 64))
  else stripScales ty k spar + 8 * ((k / blen + 2) / 3)

/-- The A row that tile row i reads: row i, or the latch's index; none for a null row (R253, R256). -/
def MatOp.rowOf (m : MatOp) (i : Nat) : Option Nat :=
  match m.latch with
  | none => some i
  | some es =>
    match es[i]? with
    | some (some w) => some w.toNat
    | _ => none

/-- Operations that read strips. -/
def MatKind.multiplies : MatKind → Bool
  | .mma | .spmma | .rnmma => true
  | _ => false
/-- Operations on a fragment (R264). -/
def MatKind.fragment : MatKind → Bool
  | .accld | .accst | .accstAdd | .accstRn => true
  | _ => false

/-- The byte ranges (offset, length) of an operation in A, W and C. -/
def MatOp.aSpans (m : MatOp) : List (Nat × Nat) :=
  if m.kind.multiplies then
    (List.range (shapeM m.shape)).filterMap fun i =>
      (m.rowOf i).map fun r => (m.aoff + r * fbAPitch m.fmt, stripLen (fbATy m.fmt) (fbK m.fmt) 0 (fbABlen m.fmt))
  else []
def MatOp.wSpans (m : MatOp) : List (Nat × Nat) :=
  if m.kind.multiplies then
    (List.range (shapeN m.shape)).map fun j =>
      (m.boff + j * fbBPitch m.fmt, stripLen (fbBTy m.fmt) (fbK m.fmt) m.spar (fbBBlen m.fmt))
  else []
def MatOp.cSpans (m : MatOp) : List (Nat × Nat) :=
  let n := shapeN m.shape
  if m.kind.fragment then (maskLanes m.active).map fun l => (m.tile + 4 * (l / 2 * n + 8 * (l % 2)), 32)
  else
    (List.range (shapeM m.shape)).filterMap fun i =>
      if m.kind.multiplies && (m.rowOf i).isNone then none else some (m.tile + 4 * (i * n), 4 * n)

def spansLines (ss : List (Nat × Nat)) : List Nat := dedup (ss.flatMap fun x => spanLines x.1 x.2)

/-- The lines of a buffer that an operation touches. -/
def MatOp.lines (m : MatOp) : Buf → List Nat
  | .frame => []
  | .w => spansLines m.wSpans
  | .a => spansLines m.aSpans
  | .c => spansLines m.cSpans
/-- Whether the operation writes the C lines it touches. -/
def MatOp.writesC (m : MatOp) : Bool :=
  match m.kind with
  | .accld => false
  | _ => true

/-! ## Courier copies of buffer bytes (R131, R136 to R141) -/

/-- The immediate forms: their destination is a buffer (R131). -/
def CopyForm.immediate : CopyForm → Bool
  | .inn | .tin | .gin | .fin | .pin | .spin => true
  | .mm | .out | .tout | .sout | .fmm | .pmm | .pout | .spout | .spoutc | .rput | .rget | .mcput => false
/-- The forms that read a buffer. -/
def CopyForm.readsBuf : CopyForm → Bool
  | .out | .tout | .sout | .pout | .spout | .spoutc => true
  | .mm | .inn | .tin | .gin | .fmm | .fin | .pmm | .pin | .spin | .rput | .rget | .mcput => false

/-- Bytes that a command moves. -/
def CopyCmd.size (x : CopyCmd) : Nat :=
  match x.form with
  | .tin | .tout => x.rows * x.rowb
  | .gin | .sout => x.esize * x.lanes.length
  | _ => x.len
/-- The lane and element index of byte j of a gather or scatter. -/
def CopyCmd.elem (x : CopyCmd) (j : Nat) : Nat × Int := (x.lanes[j / x.esize]?).getD (0, 0)
/-- The buffer offset of byte j. -/
def CopyCmd.bufAt (x : CopyCmd) (j : Nat) : Nat :=
  match x.form with
  | .gin | .sout => x.off + x.esize * (x.elem j).1 + j % x.esize
  | _ => x.off + j
/-- The address of byte j in a memory range at a base. -/
def CopyCmd.memAt (x : CopyCmd) (base j : Nat) : Nat :=
  match x.form with
  | .tin | .tout => ofIntN ((base : Int) + (j / x.rowb : Nat) * x.pitch + (j % x.rowb : Nat)) 64
  | .gin | .sout => ofIntN ((base : Int) + (x.elem j).2 * x.esize + (j % x.esize : Nat)) 64
  | _ => (base + j) % 2 ^ 64
/-- The buffer lines that a command reads or writes. -/
def CopyCmd.bufLines (x : CopyCmd) : List Nat := dedup ((List.range x.size).map fun j => x.bufAt j / 128)

/-! ## Locks and wounds (R29) -/

/-- A group holds the lock of a line while it holds its undo image. -/
def Group.locks (g : Group) (b : Buf) (line : Nat) : Bool :=
  (g.undo ++ g.tileUndo).any fun u => u.buf == b && u.line == line

/-- R29: firing stamp, then the lower slot. -/
def olderThan (ga : Group) (a : Nat) (gb : Group) (b : Nat) : Bool :=
  ga.stamp < gb.stamp || (ga.stamp == gb.stamp && a < b)

/-- The other groups that lock one of the lines. -/
def Core.holders (c : Core) (gi : Nat) (b : Buf) (lines : List Nat) : List (Nat × Group) :=
  c.groups.filter fun e => e.1 != gi && lines.any fun ln => e.2.locks b ln

/-- R29: the group accesses lines. When an older group holds one, it waits (none); younger holders are wounded. -/
def State.claim (s : State) (ci gi : Nat) (b : Buf) (lines : List Nat) : Option State :=
  match (s.core ci).group? gi with
  | none => none
  | some g =>
    let hs := (s.core ci).holders gi b lines
    if hs.any fun h => olderThan h.2 h.1 g gi then none
    else some (hs.foldl (fun s h => s.abortReplay ci h.1) s)

/-! ## The order of requests to one line (R157, R158, R266)

Every request carries the number that its core gave it at issue, or when a deposit reached it; a deferred copy carries its commit's. A
request is performed behind the earlier ones to its line, whatever their streams. The one exception is what R29 needs against deadlock: a
request never stands behind one that waits for the commit of its own group or of a younger one (log entry 146). -/

/-- No copy issued before number `num` still holds the line absent (R142, R158). -/
def Core.presentFor (c : Core) (num : Nat) (b : Buf) (line : Nat) : Bool :=
  !c.absent.any fun x => x.1 == b && x.2.1 == line && x.2.2 < num

/-- Matrix operations issued and not performed: in the queue or in the rendezvous latch. -/
def Core.matOps (c : Core) : List MatOp :=
  (c.matq.filter fun m => !m.done) ++ (match c.gang with
    | some l => l.members
    | none => [])

/-- The next operations of the matrix unit: the head of the queue, with the members fused with it (R259). -/
def Core.matHead (c : Core) : List MatOp :=
  match c.matq with
  | [] => []
  | m :: _ => if m.fused = 0 then [m] else c.matq.filter fun x => x.fused == m.fused

/-- The buffer of an operation that waits for lines of a typed buffer. -/
def OpKind.buf? : OpKind → Option Buf
  | .bufLoad b => some b
  | .atoma _ _ => some .a
  | _ => none
def OpKind.writesBuf : OpKind → Bool
  | .atoma _ _ => true
  | _ => false

/-- The W lines that a TLOAD reads (R216). -/
def TloadCmd.lines (x : TloadCmd) : List Nat := spanLines x.off 4128

/-- A firing stamp and a group slot: what R29 compares. -/
abbrev Age := Nat × Nat
def Age.before (a b : Age) : Bool := a.1 < b.1 || (a.1 == b.1 && a.2 < b.2)

/-- A request to lines of the core that is not performed: its number, the age of the group that it acts for (none: it acts for a block that
has committed on another core), its lines with what it writes, and whether it is the matrix unit's. -/
structure LineReq where
  num : Nat
  age : Option Age
  lines : List (Buf × Nat × Bool)
  unit : Bool
  deriving DecidableEq, Repr

/-- Buffer loads ask for each line alone; an ATOMA for all of its lines at once (R165). -/
def LongOp.lineReqs (o : LongOp) (age : Age) : List LineReq :=
  match o.kind.buf? with
  | none => []
  | some b =>
    if o.ready || o.dead || o.flt.isSome then []
    else
      let lines := dedup ((o.accs.filter fun a => a.got.isNone).map fun a => a.addr / 128)
      if o.kind.writesBuf then [⟨o.num, some age, lines.map fun ln => (b, ln, true), false⟩]
      else lines.map fun ln => ⟨o.num, some age, [(b, ln, false)], false⟩

/-- The requests of a group: its operations', and that of a store that waits. -/
def Group.lineReqs (g : Group) (gi : Nat) : List LineReq :=
  (g.ops.flatMap fun o => o.lineReqs (g.stamp, gi)) ++
    match g.place with
    | some p => [⟨p.1, some (g.stamp, gi), p.2.2.map fun ln => (p.2.1, ln, true), false⟩]
    | none => []

/-- A matrix operation reads its A and W lines, and reads or writes its C lines. -/
def MatOp.lineReq (m : MatOp) (stamp : Nat) : LineReq :=
  ⟨m.num, some (stamp, m.grp),
    [Buf.a, .w, .c].flatMap fun b => (m.lines b).map fun ln => (b, ln, b == .c && m.writesC), true⟩

/-- R143: a deferred copy whose commit began step 3 holds a line for reading until the engine has read it. -/
def CopyCmd.lineReqs (x : CopyCmd) (commit : Nat) : List LineReq :=
  if x.form.readsBuf then
    (x.bufLines.filter fun ln => (x.got.at? ln).isNone).map fun ln => ⟨commit, some (x.stamp, x.grp), [(x.buf, ln, false)], false⟩
  else []

/-- R163: a deposit that has reached the core. -/
def Deposit.lineReqs (d : Deposit) : List LineReq :=
  match d.num with
  | some n => [⟨n, none, [(.a, d.line, true)], false⟩]
  | none => []

/-- Every request of the core that is not performed, the earliest first. Immediate copies are not among them: the lines that they write are
absent for later requests (R142). -/
def Core.lineReqs (c : Core) : List LineReq :=
  sortBy (fun a b => a.num ≤ b.num)
    ((c.groups.flatMap fun e => e.2.lineReqs e.1) ++
      (c.matOps.map fun m => m.lineReq (((c.group? m.grp).map fun g => g.stamp).getD 0)) ++
      (c.tloads.map fun x => ⟨x.num, none, x.lines.map fun ln => (.w, ln, false), false⟩) ++
      (c.courier.flatMap fun x => x.lineReqs x.commit) ++
      (c.outbox.flatMap fun o => match o.item with
        | .copy x => x.lineReqs o.commit
        | _ => []) ++
      c.deposits.flatMap Deposit.lineReqs)

/-- The groups for whose commit a request waits at the locks of its lines: the older ones (R29), and any for a deposit (R163). -/
def Core.lockDeps (c : Core) (r : LineReq) : List Age :=
  (c.groups.filter fun e =>
    (match r.age with
      | some a => Age.before (e.2.stamp, e.1) a
      | none => true) && r.lines.any fun x => e.2.locks x.1 x.2.1).map fun e => (e.2.stamp, e.1)

/-- A request of this age may stand behind one that waits for these groups' commits: all of them are older. -/
def bides (deps : List Age) (age : Option Age) : Bool :=
  match age with
  | some a => deps.all fun d => d.before a
  | none => true

/-- The order of two requests matters: they meet at a line that one of them writes. -/
def LineReq.meets (q r : LineReq) : Bool :=
  q.lines.any fun x => r.lines.any fun y => x.1 == y.1 && x.2.1 == y.2.1 && (x.2.2 || y.2.2)

/-- The requests with all the groups whose commits each one waits for, be it behind others. -/
def Core.lineDeps (c : Core) : List (LineReq × List Age) :=
  c.lineReqs.foldl (fun acc r =>
    let ahead := acc.filter fun q => q.1.num < r.num && q.1.meets r && bides q.2 r.age
    acc ++ [(r, c.lockDeps r ++ ahead.flatMap Prod.snd)]) []

/-- An earlier request than number `num` holds a request of this age to the line back; `unit` says whether the matrix unit's count. -/
def Core.heldBack (c : Core) (num : Nat) (age : Option Age) (b : Buf) (line : Nat) (write unit : Bool) : Bool :=
  c.lineDeps.any fun q => q.1.num < num && (unit || !q.1.unit) && bides q.2 age &&
    q.1.lines.any fun x => x.1 == b && x.2.1 == line && (write || x.2.2)

/-- An earlier request to the line, issued before number `num`, is not performed. -/
def Core.lineBusy (c : Core) (num : Nat) (age : Option Age) (b : Buf) (line : Nat) (write : Bool) : Bool :=
  c.heldBack num age b line write true

/-- R29, R157: the request numbered `num` of a group comes to its lines. It is performed when no earlier request to one of them waits and no
older group holds one; younger holders are wounded, and a request that waited for one of them goes first. -/
def State.reach (s : State) (ci gi num : Nat) (b : Buf) (lines : List Nat) (write : Bool) : Bool × State :=
  let age := ((s.core ci).group? gi).map fun g => (g.stamp, gi)
  let busy (s : State) : Bool := lines.any fun ln => (s.core ci).lineBusy num age b ln write
  if busy s then (false, s)
  else
    match s.claim ci gi b lines with
    | none => (false, s)
    | some t => (!busy t, t)

/-! ## Undo images -/

/-- Bytes of a line. -/
def Core.lineBytes (c : Core) (b : Buf) (line : Nat) : List Byte := (c.buf b).readBytes (line * 128) 128

/-- The image of a line for a group: its first, when it took one already. -/
def Core.imageFor (c : Core) (g : Group) (b : Buf) (line : Nat) : UndoLine :=
  match (g.undo ++ g.tileUndo).find? fun u => u.buf == b && u.line == line with
  | some u => u
  | none => { buf := b, line := line, image := c.lineBytes b line }

/-- Images in the store buffer for the lines that have none there (R27). -/
def Core.takeImages (c : Core) (g : Group) (b : Buf) (lines : List Nat) : Group :=
  let new := lines.filter fun ln => !g.undo.any fun u => u.buf == b && u.line == ln
  { g with undo := g.undo ++ new.map fun ln => c.imageFor g b ln }

/-- Store-buffer entries of a group (R27): distinct global lines (R272), undo images and lines of neighbours. -/
def Group.sbEntries (g : Group) : Nat := (dedup (g.sbuf.map fun b => b.line)).length + g.undo.length + g.deposits.length

/-- R27: the block needs a 129th entry. -/
def Group.sbOver (g : Group) : Bool := 128 < g.sbEntries

/-! ## Clusters (R24, R163) -/

def Core.clusPos (c : Core) : Nat := field c.cfg.clpos 0 8
def Core.clusW (c : Core) : Nat := field c.cfg.clpos 8 4 + 1
def Core.clusH (c : Core) : Nat := field c.cfg.clpos 12 4 + 1
def Core.clusSize (c : Core) : Nat := c.clusW * c.clusH

/-- The tile at position p of the cluster of core `ci`, row-major from the lowest x and y (R163). -/
def clusTile (c : Core) (ci p : Nat) : Nat :=
  tileAt (dieOf ci) (tileY ci - c.clusPos / c.clusW + p / c.clusW) (tileX ci - c.clusPos % c.clusW + p % c.clusW)

end Sys2Proof.Machine
end

