-- ==== Sys2Proof/Machine/Residue.lean ====
section
/-! DEFINITION. Residue words (R227 to R229, R240 to R243). -/

namespace Sys2Proof.Machine

/-- The channels and taint of an RN32 word as every residue instruction reads it (R227). -/
structure Residue where
  c1 : Nat
  c2 : Nat
  c3 : Nat
  taint : Bool
  deriving DecidableEq, Repr

def rnRead (w : Nat) : Residue := ⟨field w 0 10 % 1023, field w 10 10, field w 20 11 % 1025, field w 31 1 == 1⟩

/-- The canonical word of channels and a taint. -/
def Residue.word (r : Residue) : Nat := r.c1 + r.c2 * 2 ^ 10 + r.c3 * 2 ^ 20 + bit01 r.taint * 2 ^ 31

/-- M = 1023 × 1024 × 1025 (R229). -/
def rnM : Nat := 1073740800

/-- crt(c1, c2, c3) of R8: each term is 1 modulo its own modulus and 0 modulo the others. -/
def Residue.crt (r : Residue) : Nat :=
  (r.c1 * (1024 * 1025 * 512) + r.c2 * (1023 * 1025 * 1023) + r.c3 * (1023 * 1024 * 513)) % rnM

/-- The signed reading (R227). -/
def Residue.signed (r : Residue) : Int := if r.crt < 536870400 then r.crt else (r.crt : Int) - rnM

/-- R240: RNCV. -/
def rnConvert (v : Int) : Nat := rnOf v + bit01 (decide (v < -536870400) || decide (536870399 < v)) * 2 ^ 31

/-- R240: RNCRT. -/
def rnCrt (raw : Bool) (w : Nat) : FRes :=
  let r := rnRead w
  if r.taint then ⟨if raw then 0xFFFFFFFF else 0x80000000, fFMT⟩
  else ⟨if raw then r.crt else ofIntN r.signed 32, 0⟩

/-- R241: channel by channel. -/
def rnZip (op : Int → Int → Int) (a b : Residue) : Residue :=
  ⟨(op a.c1 b.c1 % 1023).toNat, (op a.c2 b.c2 % 1024).toNat, (op a.c3 b.c3 % 1025).toNat, a.taint || b.taint⟩

/-- A residue word of two sources. -/
def rn2 (s : State) (f : F0) (op : Int → Int → Int) : Out :=
  laneWord s f 1 fun x l => w64 (rnZip op (rnRead (x.rd f.a l).toNat) (rnRead (x.src2 f 1 l).toNat)).word

def execRncv (f : F0) (s : State) : Out := laneWord s f 1 fun x l => w64 (rnConvert (sextN (x.rd f.a l).toNat 32))
def execRncrt (f : F0) (s : State) : Out := laneFloat s f fun x l => rnCrt (f.fn == 1) (x.rd f.a l).toNat
def execRnadd (f : F0) (s : State) : Out := rn2 s f (· + ·)
def execRnsub (f : F0) (s : State) : Out := rn2 s f (· - ·)
def execRnmul (f : F0) (s : State) : Out := rn2 s f (· * ·)
def execRnmad (f : F0) (s : State) : Out :=
  laneWord s f 1 fun x l =>
    let p := rnZip (· * ·) (rnRead (x.rd f.a l).toNat) (rnRead (x.rd f.b l).toNat)
    w64 (rnZip (· + ·) p (rnRead (x.src3 f 1 l).toNat)).word
def execRnneg (f : F0) (s : State) : Out :=
  laneWord s f 1 fun x l => w64 (rnZip (fun a _ => -a) (rnRead (x.rd f.a l).toNat) ⟨0, 0, 0, false⟩).word

/-- R242: the signed reading times a scale, rounded once; used by RNSCL and ACCCV. -/
def rnScale (r : Rnd) (w sc : Nat) : FRes :=
  let x := rnRead w
  match x.taint, bs20 sc with
  | false, some (m, e) => overInf (x.signed < 0) (fF32.round r false (x.signed < 0) (x.signed.natAbs * m) e false)
  | _, _ => fF32.nanRes fFMT

def execRnscl (f : F0) (s : State) : Out :=
  laneFloat s f fun x l => rnScale (f0Rnd f) (x.rd f.a l).toNat (scaleBits (x.rd f.b l))

end Sys2Proof.Machine
end

