-- ==== Sys2Proof/Machine/Tables.lean ====
section
/-! DEFINITION. Activation tables (R213 to R217): TEVAL, TLOAD, TLOAD_COPY and TSWAP. -/

namespace Sys2Proof.Machine

/-! ## The table store -/

/-- The key of a version of a table. -/
def tableKey (t v : Nat) : Nat := 2 * t + v

/-- An F32 field of a table image (R213). -/
def TableVer.f32 (v : TableVer) (off : Nat) : Nat := leNat (v.bytes.readBytes off 4)

/-- C0[n] + t × rne(C1[n] + t × C2[n]), rounded (R215). -/
def TableVer.poly (v : TableVer) (n : Nat) (t : FVal) : FRes :=
  let co (k : Nat) : FVal := fF32.val (v.f32 (32 + 16 * n + 4 * k))
  let inner := ffma fF32 .ne false t (co 2) (co 1)
  let y := ffma fF32 .ne false t (fF32.val inner.bits) (co 0)
  ⟨y.bits, inner.fl ||| y.fl⟩

/-- R215: the value outside the range, by mode. A NaN pattern in LOWV or HIGHV is written as it stands (log entry 169). -/
def TableVer.edge (v : TableVer) (mode n : Nat) (t : FVal) (off x : Nat) : FRes :=
  match mode with
  | 0 => v.poly n t
  | 1 => ⟨v.f32 off, 0⟩
  | 2 => ⟨x, 0⟩
  | _ => ⟨0, 0⟩

/-- The integer and the fraction of a finite value from 0 to below 256; the fraction of an exact integer, and of −0, is +0 (log entry
149). -/
def splitFloor (m : Nat) (e : Int) : Nat × FVal :=
  if 0 ≤ e then (m * 2 ^ e.toNat, .fin false 0 0)
  else (m / 2 ^ (-e).toNat, .fin false (m % 2 ^ (-e).toNat) e)

/-- R215: TEVAL of one pattern; only NV is set. -/
def TableVer.eval (v : TableVer) (x : Nat) : FRes :=
  let a := fF32.val x
  if a.isNan then fF32.nanRes (nvSig [a])
  else
    let d := fsub fF32 .ne false a (fF32.val (v.f32 0))
    let u := fmul fF32 .ne false (fF32.val d.bits) (fF32.val (v.f32 4))
    let modes := v.f32 16
    let one : FVal := .fin false 1 0
    let y := match fF32.val u.bits with
      | .nan _ => fF32.nanRes fNV
      | .inf true => v.edge (modes % 4) 0 (.fin false 0 0) 8 x
      | .inf false => v.edge (modes / 4 % 4) 255 one 12 x
      | .fin neg m e =>
        if neg && m != 0 then v.edge (modes % 4) 0 (.fin false 0 0) 8 x
        else
          let nt := splitFloor m e
          if 256 ≤ nt.1 then v.edge (modes / 4 % 4) 255 one 12 x else v.poly nt.1 nt.2
    ⟨y.bits, (d.fl ||| u.fl ||| y.fl) &&& fNV⟩

/-- The table number in the immediate. -/
def tableOf (f : F0) : Nat :=
  match f.c with
  | .imm b => b.toNat
  | .op _ => 0

def execTeval (f : F0) (s : State) : Out :=
  withIssuer s fun c g =>
    let (x, act) := f0Ctx f s c g
    let t := tableOf f
    let v := c.tables.atD (tableKey t (g.tbind.atD t 0)) TableVer.zero
    let rs := (maskLanes act).map fun l => (l, v.eval (x.rd f.a l).toNat)
    s.startOp x.g (flagOf (f.x.toNat % 16))
      (fun num => { LongOp.plain num (flagOf (f.x.toNat % 16)) g.pc .result with
        dst := f.d, writes := regWrites f.d 1 (rs.map fun r => (r.1, r.2.bits)), fl := w32 (orFl (rs.map fun r => r.2.fl)) })
      fun _ c => c

/-! ## TLOAD and TSWAP (R216, R217) -/

/-- Causes of a local access fault (R161). -/
def causeRange : Nat := 1
def causeAlign : Nat := 2
def causeNoFrame : Nat := 3
def causeNeighbour : Nat := 4
def causeData : Nat := 5

/-- The mask of one lane. -/
def laneMask1 (l : Nat) : LaneMask := BitVec.ofNat 32 (2 ^ l)

def execTload (f : F0) (s : State) : Out :=
  withIssuer s fun c g =>
    let (x, act) := f0Ctx f s c g
    let t := tableOf f
    let ver := 1 - c.tcur.atD t 0
    let flag := flagOf (f.x.toNat % 16)
    match leader? act with
    | none => s.startOp x.g flag (fun num => LongOp.plain num flag g.pc .result) fun _ c => c
    | some l =>
      let o := (x.rd f.a l).toNat
      if c.partSize .w < o + 4128 then
        s.faultWord g { cls := .localAccess, cause := causeRange, lanes := laneMask1 l, addr := o }
      else if o % 16 ≠ 0 then
        s.faultWord g { cls := .localAccess, cause := causeAlign, lanes := laneMask1 l, addr := o }
      else if g.tbind.atD t 0 = ver then s.abortReplay s.cur.1 s.cur.2
      else
        s.startOp x.g flag (fun num => { LongOp.plain num flag g.pc (.tload t) with ready := false })
          fun num c => { c with tloads := c.tloads ++ [{ num := num, grp := s.cur.2, table := t, ver := ver, off := o }] }

/-- R214: the groups bound to a version. A group whose aborted operations are outstanding holds no binding. The count falls when a bound
group commits: at step 4, although the group keeps its slot while step 5 waits (log entry 148). -/
def Core.boundTo (c : Core) (t v : Nat) (but : Option Nat) : Bool :=
  c.groups.any fun e => some e.1 != but && e.2.commit.isNone && !(e.2.ops.any fun o => o.dead) && e.2.tbind.atD t 0 == v

/-- An operation of a group is done but for its completion. -/
def Group.markReady (g : Group) (num : Nat) : Group :=
  { g with ops := replaceIf (fun o => o.num == num) (fun o => { o with ready := true }) g.ops }

/-- The same for an operation of a parked collection (R59). -/
def Core.parkReady (c : Core) (num : Nat) : Core :=
  let mark (p : ParkEnt) : ParkEnt := { p with ops := replaceIf (fun o => o.num == num) (fun o => { o with ready := true }) p.ops }
  { c with park := c.park.map mark, parkOver := c.parkOver.map mark }

/-- TLOAD_COPY: the oldest TLOAD of the table copies, once no other group is bound to its version and every earlier copy into its lines of
W has written them (R216). -/
def execTloadCopy (core table : Nat) (s : State) : Out :=
  let c := s.core core
  match c.tloads.find? fun x => x.table == table with
  | none => .next s
  | some x =>
    let issuer := c.opSlot x.num
    if c.boundTo table x.ver (issuer.map Prod.fst) || x.lines.any fun ln => !c.presentFor x.num .w ln then .next s
    else
      let img : TableVer := { bytes := NMap.writeBytes [] 0 (c.bufW.readBytes x.off 4128) }
      let c := { c with tables := c.tables.put TableVer.zero (tableKey table x.ver) img,
                        tloads := c.tloads.filter fun y => y.num != x.num }
      let c := match issuer with
        | some (gi, g) => c.setGroup gi (g.markReady x.num)
        | none => c.parkReady x.num
      .next (s.setCore core c)

def execTswap (f : F0) (s : State) : Out :=
  withIssuer s fun _ g =>
    s.finish (if g.active f.g = 0 then g else { g with deferred := g.deferred ++ [.tswap (tableOf f)] })

end Sys2Proof.Machine
end

