-- ==== Sys2Proof/WellFormed.lean ====
section
/-! DEFINITION. Which instruction words are well formed: the codes of operands and types (R46, R48), the fields of a
word as numbers, the table of what each OP and FN accepts (R66, R168, R183, R200, R230, R260, R159, R284, R124, R133,
R301, R326, R365, R366, R401), and the tests of R68 in the order of its rows. -/

namespace Sys2Proof

/-! ## Codes -/

/-- The codes 0xD0 to 0xDE count from here (R46). -/
def Special.index : Special → Nat
  | .lane => 0 | .inst => 1 | .tag => 2 | .colour => 3 | .width => 4 | .grp => 5 | .core => 6 | .die => 7 | .dev => 8
  | .ncores => 9 | .gtclo => 10 | .gtchi => 11 | .slot => 12 | .team => 13 | .clus => 14

def Special.ofIndex : Nat → Option Special
  | 0 => some .lane | 1 => some .inst | 2 => some .tag | 3 => some .colour | 4 => some .width | 5 => some .grp
  | 6 => some .core | 7 => some .die | 8 => some .dev | 9 => some .ncores | 10 => some .gtclo | 11 => some .gtchi
  | 12 => some .slot | 13 => some .team | 14 => some .clus | _ => none

/-- The operand code of R46. -/
def Operand.code : Operand → Nat
  | .v n => n.val
  | .k n => 0x80 + n.val
  | .inp n => 0xC0 + n.val
  | .sp x => 0xD0 + x.index
  | .p n => 0xE0 + n.val
  | .em => 0xE7
  | .zero => 0xFF

/-- The operand of a code; none for a reserved code (R46). -/
def Operand.ofCode (n : Nat) : Option Operand :=
  if h : n < 128 then some (.v ⟨n, h⟩)
  else if h : n - 0x80 < 64 then some (.k ⟨n - 0x80, h⟩)
  else if h : n - 0xC0 < 8 then some (.inp ⟨n - 0xC0, h⟩)
  else if n < 0xD0 then none
  else if n < 0xE0 then (Special.ofIndex (n - 0xD0)).map .sp
  else if h : n - 0xE0 < 7 then some (.p ⟨n - 0xE0, h⟩)
  else if n = 0xE7 then some .em
  else if n = 0xFF then some .zero
  else none

/-- The code of R48. -/
def Ty.code : Ty → Nat
  | .b32 => 0 | .s32 => 1 | .n32 => 2 | .s64 => 3 | .n64 => 4 | .f32 => 5 | .f16 => 6 | .bf16 => 7 | .e4m3 => 8
  | .e5m2 => 9 | .e3m2 => 10 | .e2m3 => 11 | .e2m1 => 12 | .rn32 => 13 | .h16 => 14

def Ty.ofCode : Nat → Option Ty
  | 0 => some .b32 | 1 => some .s32 | 2 => some .n32 | 3 => some .s64 | 4 => some .n64 | 5 => some .f32
  | 6 => some .f16 | 7 => some .bf16 | 8 => some .e4m3 | 9 => some .e5m2 | 10 => some .e3m2 | 11 => some .e2m3
  | 12 => some .e2m1 | 13 => some .rn32 | 14 => some .h16 | _ => none

/-- The SCOPE code of R50. -/
def Scope.code : Scope → Nat
  | .grp => 0 | .team => 1 | .clus => 2 | .die => 3 | .dev => 4 | .dom => 5 | .pool => 6 | .sys => 7

def Scope.ofCode : Nat → Scope
  | 0 => .grp | 1 => .team | 2 => .clus | 3 => .die | 4 => .dev | 5 => .dom | 6 => .pool | _ => .sys

/-- The ORDER code of R50. -/
def Order.code : Order → Nat
  | .rlx => 0 | .acq => 1 | .rel => 2 | .ar => 3

def Order.ofCode : Nat → Order
  | 0 => .rlx | 1 => .acq | 2 => .rel | _ => .ar

/-- Field C and bit IC of a third source (R44). -/
def Src3.code : Src3 → Nat
  | .op o => o.code
  | .imm b => b.toNat

def Src3.ic : Src3 → Nat
  | .op _ => 0
  | .imm _ => 1

/-- Fields G and GN of a guard (R43). -/
def Guard.g : Guard → Nat
  | .always => 7
  | .pred n _ => n.val

def Guard.gn : Guard → Nat
  | .always => 0
  | .pred _ neg => neg.toNat

/-! ## The fields of a word as numbers -/

/-- The fields that F0, F1, F3, F4 and F6 share (R42, R50, R52 to R54): OP, FN, the three operand fields at 51:28 (`d`
is DESC in F4), field C (FB in F3), IC, G, GN, and bits 14:0 as `lo`. -/
structure Raw where
  op : Nat
  fn : Nat
  d : Nat
  a : Nat
  b : Nat
  c : Nat
  ic : Nat
  g : Nat
  gn : Nat
  lo : Nat
  deriving DecidableEq, Repr

/-- The fields of F2 (R51); `z` is bits 20:19. -/
structure Raw2 where
  op : Nat
  fn : Nat
  dblk : Nat
  slot : Nat
  tag : Nat
  pay : Nat
  z : Nat
  g : Nat
  gn : Nat
  col : Nat
  plen : Nat
  rsc : Nat
  deriving DecidableEq, Repr

/-- The fields of F5 (R55); `z` is bits 26:0. -/
structure Raw5 where
  wait : Nat
  set0 : Nat
  v0 : Nat
  set1 : Nat
  v1 : Nat
  len : Nat
  z : Nat
  deriving DecidableEq, Repr

/-- A word cut into its fields by the format that OP selects (R41). -/
inductive Fields where
  | std (r : Raw) | tok (r : Raw2) | clause (r : Raw5)
  deriving DecidableEq, Repr

def F0.lo (f : F0) : Nat := f.t.code * 2048 + f.md.toNat * 256 + f.x.toNat
def F1.lo (f : F1) : Nat :=
  f.scope.code * 4096 + f.order.code * 1024 + f.flag.toNat * 64 + f.l1pol.toNat * 16 + f.l2pol.toNat * 4
def F3.lo (f : F3) : Nat := f.shape.toNat * 2048 + f.spar.toNat * 512 + f.gangb.toNat * 256 + f.flag.toNat * 16
def F4.lo (f : F4) : Nat := f.tbuf.toNat * 4096 + f.flag.toNat * 256 + f.tok.toNat * 128 + f.texit.toNat * 16
def F6.lo (f : F6) : Nat := f.code.toNat * 8

def F0.raw (op : Nat) (f : F0) : Raw :=
  ⟨op, f.fn.toNat, f.d.code, f.a.code, f.b.code, f.c.code, f.c.ic, f.g.g, f.g.gn, f.lo⟩
/-- Field D of an F1 word holds an operand code or, where the entry has a return field, an exit number, which the syntax
writes as the v operand of that code (R284, R301, R326). -/
def F1.raw (op : Nat) (f : F1) : Raw :=
  ⟨op, f.fn.toNat, f.d.code, f.a.code, f.b.code, f.c.code, f.c.ic, f.g.g, f.g.gn, f.lo⟩
def F3.raw (op : Nat) (f : F3) : Raw :=
  ⟨op, f.fn.toNat, f.d.code, f.a.code, f.b.code, f.fb.code, 0, f.g.g, f.g.gn, f.lo⟩
def F4.raw (op : Nat) (f : F4) : Raw :=
  ⟨op, f.fn.toNat, f.desc.code, f.a.code, f.b.code, f.c.code, f.c.ic, f.g.g, f.g.gn, f.lo⟩
def F6.raw (op : Nat) (f : F6) : Raw :=
  ⟨op, f.fn.toNat, f.d.code, f.a.code, f.b.code, f.c.code, f.c.ic, f.g.g, f.g.gn, f.lo⟩
def F2.raw (op : Nat) (f : F2) : Raw2 :=
  ⟨op, f.fn.toNat, f.dblk.toNat, f.slot.toNat, f.tag.code, f.pay.code, 0, f.g.g, f.g.gn, f.col.code, f.plen.toNat,
    f.rsc.code⟩
def F5.raw (f : F5) : Raw5 :=
  ⟨f.wait.toNat, f.set0.toNat, f.v0.toNat, f.set1.toNat, f.v1.toNat, f.len.toNat, 0⟩

/-! ## What each entry accepts -/

/-- What an operand field accepts (R44, R46, R47). Counts are registers; a pair or quad is aligned to its length. -/
inductive Use where
  /-- Not read or written: the field holds 0xFF. -/
  | off
  /-- A field of Courier words that is not read and holds 0x00 (R133). -/
  | nil
  /-- A source of 1, 2 or 4 registers. -/
  | s (n : Nat)
  /-- A source of an arithmetic word: as `s`, and em as a single register (R171). -/
  | se (n : Nat)
  /-- A destination of n registers; `p`: a predicate is allowed; `z`: code 0xFF is allowed. -/
  | d (n : Nat) (p z : Bool)
  /-- A run of n v registers aligned to `al`, read or written. -/
  | run (n al : Nat)
  /-- A k constant of any index (MOVK). -/
  | k
  /-- A v or k operand of n registers. -/
  | vk (n : Nat)
  /-- p0 to p6, em or zero (R181). -/
  | bit
  /-- p0 to p6 as a destination (R181). -/
  | pd
  /-- em (R183). -/
  | em
  /-- A return field: an exit 0 to 7 or, when `opt`, 0xFF (R284, R301). -/
  | exit (opt : Bool)
  deriving DecidableEq, Repr

/-- Whether an operand of this use passes R46, R47, R160 and R230 at register demand `regd`. -/
def Use.ok (u : Use) (regd : Nat) (o : Operand) : Bool :=
  match u, o with
  | .off, _ => true
  | .nil, _ => true
  | .exit _, _ => true
  | .s n, .v i => i.val % n == 0 && i.val + n ≤ regd
  | .s n, .k i => i.val % n == 0 && i.val + n ≤ 64
  | .s n, .inp _ => n == 1
  | .s n, .sp x => n == 1 || (n == 2 && x == .gtclo)
  | .s n, .p _ => n == 1
  | .s _, .em => false
  | .s n, .zero => n ≤ 2
  | .se n, .v i => i.val % n == 0 && i.val + n ≤ regd
  | .se n, .k i => i.val % n == 0 && i.val + n ≤ 64
  | .se n, .inp _ => n == 1
  | .se n, .sp x => n == 1 || (n == 2 && x == .gtclo)
  | .se n, .p _ => n == 1
  | .se n, .em => n == 1
  | .se n, .zero => n ≤ 2
  | .d n _ _, .v i => i.val % n == 0 && i.val + n ≤ regd
  | .d n p _, .p _ => p && n == 1
  | .d _ _ z, .zero => z
  | .d _ _ _, _ => false
  | .run n al, .v i => i.val % al == 0 && i.val + n ≤ regd
  | .run _ _, _ => false
  | .k, .k _ => true
  | .k, _ => false
  | .vk n, .v i => i.val % n == 0 && i.val + n ≤ regd
  | .vk n, .k i => i.val % n == 0 && i.val + n ≤ 64
  | .vk _, _ => false
  | .bit, .p _ => true
  | .bit, .em => true
  | .bit, .zero => true
  | .bit, _ => false
  | .pd, .p _ => true
  | .pd, _ => false
  | .em, .em => true
  | .em, _ => false

/-- The uses of the four operand fields, the T codes, MOD values and IC values accepted, whether X[3:0] or FLAG is a
completion flag, and whether the immediate is one of `imms` (empty: any). -/
structure Entry where
  d : Use
  a : Use
  b : Use
  c : Use
  ts : List Nat := [0]
  md : List Nat := [0]
  ics : List Nat := [0]
  long : Bool := false
  imms : List Nat := []
  deriving DecidableEq, Repr

/-- Registers of an operand of type code t (R47). -/
def wideOf (t : Nat) : Nat := if t = 3 ∨ t = 4 then 2 else 1

/-- The second source: 0xFF when the immediate replaces it (R44). -/
def Use.unlessImm (ic : Nat) (u : Use) : Use := if ic = 1 then .off else u

/-- MOD values when MOD[0] may be set, for type code t (R49, R168): T = 0xE adds MOD[2]. -/
def mdSat (t : Nat) : List Nat := if t = 14 then [0, 1, 4, 5] else [0, 1]
/-- MOD values when no MOD bit but the signedness of T = 0xE may be set. -/
def mdNone (t : Nat) : List Nat := if t = 14 then [0, 4] else [0]
/-- The integer types of R168. -/
def tsNum : List Nat := [1, 2, 3, 4, 14]
def tsBits : List Nat := [0, 1, 2, 3, 4]
def tsFloat : List Nat := [5, 6, 7]
def tsNarrow : List Nat := [8, 9, 10, 11, 12]
def mdAll : List Nat := [0, 1, 2, 3, 4, 5, 6, 7]
def mdRound : List Nat := [0, 1, 2, 3]

/-- The instructions of R366 in format F0. -/
def entrySteer (op ic : Nat) : Option Entry :=
  match op with
  | 0x07 => some { d := .d 1 false false, a := (Use.s 1).unlessImm ic, b := .off, c := .off, ics := [0, 1] }
  | 0x08 => some { d := .off, a := .s 1, b := .off, c := .off }
  | 0x09 | 0x0A => some { d := .d 1 false false, a := .s 1, b := (Use.s 1).unlessImm ic, c := .off, ics := [0, 1] }
  | 0x0B => some { d := .off, a := .s 1, b := (Use.s 1).unlessImm ic, c := .off, ics := [0, 1] }
  | 0x0C => some { d := .d 1 false true, a := .s 1, b := .s 1, c := .off }
  | 0x0E => some { d := .d 1 false true, a := (Use.s 1).unlessImm ic, b := .off, c := .off, ics := [0, 1] }
  | _ => none

/-- The table of R168. DIV and REM take em as the other words of the Arithmetic part do (log entry 168). -/
def entryInt (op fn t ic : Nat) : Option Entry :=
  let w := wideOf t
  let b := (Use.s w).unlessImm ic
  let be := (Use.se w).unlessImm ic
  match op with
  | 0x10 => some { d := .d w true true, a := .s w, b := .off, c := .off, ts := [0, 4] }
  | 0x11 => some { d := .d w true true, a := .k, b := (Use.s 1).unlessImm ic, c := .off, ts := [0, 4], ics := [0, 1] }
  | 0x12 =>
    if fn = 0 then some { d := .d w true true, a := .off, b := .off, c := .off, ts := [0, 1, 2, 3, 4, 5, 6, 7, 14],
                          md := mdNone t, ics := [1] }
    else some { d := .d 1 false true, a := .s 1, b := .off, c := .off, ics := [1] }
  | 0x13 | 0x14 | 0x15 =>
    some { d := .d w true true, a := .se w, b := be, c := .off, ts := tsNum, md := mdSat t, ics := [0, 1] }
  | 0x16 => some { d := .d w true true, a := .se w, b := be, c := .off, ts := tsNum, md := mdNone t, ics := [0, 1] }
  | 0x17 => some { d := .d w true true, a := .se w, b := .se w, c := (Use.se w).unlessImm ic, ts := tsNum, md := mdSat t,
                   ics := [0, 1] }
  | 0x18 =>
    let n := if t = 14 then 1 else 2
    some { d := .d n false true, a := .se 1, b := .se 1, c := (Use.se n).unlessImm ic, ts := [1, 2, 14], md := mdSat t,
           ics := [0, 1] }
  | 0x19 => some { d := .d w true true, a := .se w, b := be, c := .off, ts := tsNum, md := mdSat t, ics := [0, 1],
                   long := true }
  | 0x1A => some { d := .d w true true, a := .se w, b := be, c := .off, ts := tsNum, md := mdNone t, ics := [0, 1],
                   long := true }
  | 0x1B => some { d := .d w true true, a := .se w, b := .off, c := .off, ts := [1, 3, 14], md := [0, 1] }
  | 0x1C => some { d := .d w true true, a := .se w, b := .off, c := .off, ts := tsNum, md := mdSat t }
  | 0x1D | 0x1E =>
    some { d := .d w true true, a := .se w, b := be, c := .off, ts := tsNum, md := mdNone t, ics := [0, 1] }
  | 0x1F | 0x20 | 0x21 | 0x22 =>
    some { d := .d w true true, a := .s w, b := (Use.s 1).unlessImm ic, c := .off, ts := tsBits, ics := [0, 1] }
  | 0x23 | 0x24 | 0x25 | 0x27 =>
    some { d := .d w true true, a := .s w, b := b, c := .off, ts := tsBits, ics := [0, 1] }
  | 0x26 => some { d := .d w true true, a := .s w, b := .off, c := .off, ts := tsBits }
  | 0x28 => some { d := .d 1 true true, a := .s 1, b := .s 1, c := (Use.s 1).unlessImm ic, ts := [0, 1, 2],
                   ics := [0, 1] }
  | 0x29 => some { d := .d 1 false true, a := .s 1, b := .s 1, c := .s 1 }
  | 0x2A => some { d := .d w false true, a := .s w, b := .off, c := .off, ts := [0, 4] }
  | 0x2B | 0x2C | 0x2D => some { d := .d 1 true true, a := .s w, b := .off, c := .off, ts := [0, 4] }
  | 0x2E => some { d := .d w false true, a := .s w, b := .s w, c := .s 1, ts := [0, 4] }
  | 0x2F => some { d := .d 1 true true, a := .s w, b := b, c := if 8 ≤ fn then .s 1 else .off,
                   ts := [0, 1, 2, 3, 4, 14], md := mdNone t, ics := if 8 ≤ fn then [0] else [0, 1] }
  | 0x30 => some { d := .d 2 false true, a := .vk 2, b := .s 1, c := (Use.s 1).unlessImm ic, ts := [1, 2],
                   ics := [0, 1] }
  | 0x31 => some { d := .d w true true, a := .s (if 6 ≤ fn then 2 else 1), b := .off, c := .off, ts := tsNum,
                   md := mdSat t }
  | 0x32 | 0x33 | 0x34 => some { d := .pd, a := .bit, b := .bit, c := .off }
  | 0x35 => some { d := .pd, a := .bit, b := .off, c := .off }
  | _ => none

/-- The table of R183; MOD[1] is `.INST` and MOD[0] saturates an ADD of REDG or SCANG (R182). -/
def entryLane (op fn t ic : Nat) : Option Entry :=
  let w := wideOf t
  match op with
  | 0x40 => some { d := .d w false true, a := .s w, b := (Use.s 1).unlessImm ic, c := .off, ts := [0, 4], md := [0, 2],
                   ics := [0, 1] }
  | 0x41 => some { d := .d 1 true true, a := .s w, b := .off, c := .off, ts := if fn = 2 then [0, 4] else [0],
                   md := [0, 2] }
  | 0x42 => some { d := .d 1 false true, a := .s 1, b := .off, c := .off, md := [0, 2] }
  | 0x43 => some { d := .d 1 false true, a := .s w, b := .off, c := .off, ts := [0, 4, 5, 6, 7], md := [0, 2] }
  | 0x44 | 0x45 =>
    some { d := .d w false true, a := .s w, b := .off, c := .off, ts := if fn % 8 < 3 then [1, 2, 3, 4] else tsBits,
           md := if fn % 8 = 0 then [0, 1, 2, 3] else [0, 2] }
  | 0x46 => some { d := .d 1 false true, a := .em, b := .off, c := .off }
  | 0x47 => some { d := .em, a := .s 1, b := .off, c := .off }
  | _ => none

/-- The table of R200. -/
def entryFloat (op fn t ic : Nat) : Option Entry :=
  let b := (Use.s 1).unlessImm ic
  let d := Use.d 1 true true
  match op with
  | 0x50 | 0x51 | 0x52 | 0x5C =>
    some { d := d, a := .s 1, b := b, c := .off, ts := tsFloat, md := mdAll, ics := [0, 1] }
  | 0x53 => some { d := d, a := .s 1, b := .s 1, c := b, ts := tsFloat, md := mdAll, ics := [0, 1] }
  | 0x54 | 0x55 => some { d := d, a := .s 1, b := b, c := .off, ts := tsFloat, ics := [0, 1] }
  | 0x56 | 0x57 => some { d := d, a := .s 1, b := .off, c := .off, ts := tsFloat }
  | 0x58 => some { d := d, a := .s 1, b := b, c := if 8 ≤ fn then .s 1 else .off, ts := tsFloat,
                   ics := if 8 ≤ fn then [0] else [0, 1] }
  | 0x59 => some { d := .d 1 false true, a := .s 1, b := .off, c := .off, ts := tsFloat }
  | 0x5A => some { d := d, a := .s 1, b := .off, c := .off, ts := tsFloat, md := mdRound }
  | 0x5B =>
    some { d := .d (wideOf t) false true, a := .s (wideOf fn), b := .off, c := .off,
           ts := [1, 2, 3, 4, 5, 6, 7].filter fun x => x != fn && (5 ≤ fn || 5 ≤ x),
           md := if t = 6 ∨ t = 7 then [0, 1, 2, 3, 4] else mdRound }
  | 0x5D => some { d := d, a := .s 1, b := .off, c := .off, ts := tsFloat, md := mdAll }
  | 0x5E | 0x5F =>
    some { d := .d 1 false true, a := .s 1, b := b, c := .off, ts := [6, 7], md := mdAll, ics := [0, 1] }
  | 0x60 => some { d := .d 1 false true, a := .s 1, b := .s 1, c := b, ts := [6, 7], md := mdAll, ics := [0, 1] }
  | 0x61 =>
    if fn < 2 then some { d := d, a := .off, b := .off, c := .off }
    else some { d := .off, a := b, b := .off, c := .off, ics := [0, 1] }
  | 0x70 | 0x71 | 0x72 | 0x73 | 0x74 | 0x75 | 0x76 | 0x77 =>
    some { d := d, a := .s 1, b := .off, c := .off, ts := tsFloat }
  | 0x78 => some { d := .d 1 false true, a := .s 1, b := .off, c := .off, ts := [5], ics := [1], long := true,
                   imms := List.range 8 }
  | 0x79 => some { d := .off, a := .s 1, b := .off, c := .off, ics := [1], long := true, imms := List.range 8 }
  | 0x7A => some { d := .off, a := .off, b := .off, c := .off, ics := [1], imms := List.range 8 }
  | _ => none

/-- The table of R230; `.SR` (MOD 4) stands only with rounding mode 0. No source of it takes em (log entry 170). -/
def entryNarrow (op fn t ic : Nat) : Option Entry :=
  let b := (Use.s 1).unlessImm ic
  let d := Use.d 1 false true
  let n := if t = 12 then 8 else 4
  let m := if t = 12 then 8 else 16
  match op with
  | 0x80 => some { d := d, a := .run n n, b := .s 1, c := .off, ts := tsNarrow, md := [0, 1, 2, 3, 4] }
  | 0x81 => some { d := .run n n, a := .s 1, b := .s 1, c := .off, ts := tsNarrow, md := mdRound }
  | 0x82 => some { d := d, a := .s 1, b := .off, c := .off, ts := tsNarrow }
  | 0x83 => some { d := .d 2 false false, a := .s 1, b := .s 1, c := .s 1 }
  | 0x84 => some { d := d, a := .vk 2, b := .off, c := .off, ics := [1], imms := [0, 1, 2] }
  | 0x85 =>
    if fn = 0 then some { d := d, a := .s 1, b := b, c := .off, ts := tsNarrow, ics := [0, 1] }
    else if fn = 1 then some { d := d, a := .s 1, b := .s 1, c := .off, ts := tsNarrow, md := [0, 1, 2, 3, 4],
                               ics := [1], imms := List.range n }
    else if fn = 2 then some { d := .run 3 4, a := .run 4 4, b := .off, c := .off, ts := [10, 11] }
    else some { d := .run 4 4, a := .run 3 4, b := .off, c := .off, ts := [10, 11] }
  | 0x86 => some { d := .run 10 8, a := .run m m, b := .off, c := .off, ts := [10, 11, 12] }
  | 0x87 => some { d := .run m m, a := .run 10 8, b := .off, c := .off, ts := [10, 11, 12] }
  | 0x88 | 0x89 | 0x8E => some { d := d, a := .s 1, b := .off, c := .off, ts := [13] }
  | 0x8A | 0x8B | 0x8C => some { d := d, a := .s 1, b := b, c := .off, ts := [13], ics := [0, 1] }
  | 0x8D => some { d := d, a := .s 1, b := .s 1, c := b, ts := [13], ics := [0, 1] }
  | 0x8F => some { d := d, a := .s 1, b := .s 1, c := .off, ts := [13], md := mdRound }
  | _ => none

/-- The matrix table of R260; field C is FB. -/
def entryMatrix (op fn : Nat) : Option Entry :=
  match op with
  | 0x90 | 0x91 | 0x95 | 0x96 => some { d := .s 1, a := .s 1, b := .s 1, c := .vk 2, long := true }
  | 0x92 => some { d := .d 1 false true, a := .s 1, b := .off, c := .off }
  | 0x93 => some { d := .d 2 false false, a := .s 1, b := .s 1, c := .off }
  | 0x94 => some { d := .off, a := .run (fn + 1) 1, b := .off, c := .off }
  | 0x97 => some { d := .s 1, a := .off, b := .off, c := .off, long := true }
  | 0x98 | 0x99 => some { d := .run 8 8, a := .s 1, b := .off, c := .off, long := true }
  | 0x9A => some { d := .s 1, a := .s 1, b := .off, c := .off, long := true }
  | _ => none

/-- Registers of an access of size code FN[2:0] (R159, R160). -/
def sizeRegs (fn : Nat) : Nat := if fn % 8 = 6 then 4 else if fn % 8 = 5 then 2 else 1

/-- The F1 tables of R159, R284, R124, R301 and R326. -/
def entryMem (op fn ic : Nat) : Option Entry :=
  let n := sizeRegs fn
  let b := (Use.s 1).unlessImm ic
  let bDbl := if 12 ≤ fn then Use.s 2 else Use.s 1
  let cCas := if fn = 9 then Use.s 1 else if fn = 14 then Use.s 2 else Use.off
  match op with
  | 0xA0 => some { d := .d n true (n != 4), a := .s 1, b := b, c := .off, ics := [0, 1] }
  | 0xA2 | 0xA3 | 0xA5 => some { d := .d n true (n != 4), a := .s 1, b := b, c := .off, ics := [0, 1], long := true }
  | 0xA1 | 0xA4 | 0xA6 => some { d := .off, a := .s 1, b := .s n, c := b, ics := [0, 1] }
  | 0xA7 => some { d := .d 1 true true, a := .s 1, b := .off, c := .off }
  | 0xA8 => some { d := .d 1 false true, a := .s 1, b := .s 1, c := cCas, long := true }
  | 0xB0 => some { d := .d n true true, a := .vk 2, b := b, c := .off, ics := [0, 1], long := true }
  | 0xB1 => some { d := .off, a := .vk 2, b := .s n, c := b, ics := [0, 1] }
  | 0xB2 => some { d := .d n false true, a := .vk 2, b := .off, c := .off, long := true }
  | 0xB3 => some { d := .exit true, a := .vk 2, b := bDbl, c := cCas }
  | 0xB4 => some { d := .off, a := .vk 2, b := bDbl, c := .off }
  | 0xB5 => some { d := .off, a := .off, b := .off, c := .off }
  | 0xB6 | 0xB7 => some { d := .off, a := b, b := .off, c := .off, ics := [0, 1] }
  | 0xB8 => some { d := .off, a := .vk 2, b := b, c := .off, ics := [0, 1] }
  | 0xB9 | 0xBA =>
    if fn = 0 then some { d := .off, a := .vk 2, b := b, c := .off, ics := [0, 1] }
    else some { d := .off, a := .off, b := .off, c := .off }
  | 0xBB => some { d := .off, a := b, b := .off, c := .off, ics := [0, 1] }
  | 0xD0 => some { d := .exit false, a := .vk 2, b := b, c := .off, ics := [0, 1] }
  | 0xD1 => some { d := .exit true, a := .vk 2, b := .s n, c := b, ics := [0, 1] }
  | 0xD2 => some { d := .exit true, a := .vk 2, b := bDbl, c := cCas }
  | 0xD3 => some { d := .exit true, a := .vk 2, b := .vk 2, c := .vk 4 }
  | 0xD4 => some { d := .exit false, a := .vk 2, b := .vk 2, c := .s 1 }
  | 0xD5 => some { d := .off, a := .s 1, b := .s n, c := .off }
  | 0xD6 => some { d := .exit true, a := .vk 4, b := .s n, c := .s 1 }
  | 0xD7 => some { d := .exit true, a := .vk 4, b := .vk 2, c := .s 1 }
  | 0xD8 => some { d := .exit false, a := .vk 2, b := bDbl, c := .off }
  | 0xD9 => some { d := .off, a := .vk 2, b := bDbl, c := .off }
  | _ => none

/-- The Courier table of R133; field D is DESC. An immediate form has FN 1 (R131). The 64-bit A source of CPY.MM and CPYP.MM is an even v or k
pair (log entry 71). -/
def entryCopy (op fn ic : Nat) : Option Entry :=
  let desc := Use.run 2 2
  let b := (Use.s 1).unlessImm ic
  let sizes := [4, 8, 16, 32, 64, 128]
  match op with
  | 0xC0 | 0xC5 =>
    some { d := desc, a := if fn = 0 then .vk 2 else .s 1, b := .s 1, c := .off, long := fn = 1 }
  | 0xC1 => some { d := desc, a := .s 1, b := .s 1, c := .s 1, long := fn = 1 }
  | 0xC2 | 0xC3 => some { d := desc, a := .s 1, b := .s 1, c := b, ics := [0, 1], imms := sizes, long := fn = 1 }
  | 0xC4 =>
    if fn = 0 then some { d := desc, a := .s 1, b := b, c := .off, ics := [0, 1] }
    else some { d := .nil, a := .s 1, b := .s 1, c := b, ics := [0, 1], long := true }
  | 0xC6 => some { d := .nil, a := .s 1, b := .s 1, c := .s 1, long := fn = 1 }
  | _ => none

/-- The F6 tables of R366 and R401. -/
def entrySys (op fn : Nat) : Option Entry :=
  match op with
  | 0x0D => some { d := .off, a := .s 1, b := .s 1, c := .off }
  | 0xE0 => some { d := .off, a := .s 1, b := .off, c := .off }
  | 0xE1 => some { d := .d 1 false true, a := .s 1, b := .off, c := .off }
  | 0xE2 => some { d := if fn = 0 then .d 1 false true else .off, a := if fn = 0 then .s 1 else .off, b := .off, c := .off }
  | 0xE3 => some { d := .d (fn + 1) false false, a := .off, b := .off, c := .off }
  | 0xE4 => some { d := .off, a := .vk (fn + 1), b := .off, c := .off }
  | 0xE5 => if fn = 0 then some { d := .d 2 false false, a := .s 1, b := .off, c := .off }
            else some { d := .d 1 false false, a := .off, b := .off, c := .off }
  | 0xE6 | 0xE7 => some { d := .off, a := .off, b := .off, c := .off }
  | 0xE8 => some { d := .exit false, a := .vk 2, b := .vk 2, c := .s 1 }
  | 0xE9 => some { d := .exit false, a := .vk 2, b := .off, c := .off }
  | 0xEA => some { d := .exit false, a := .s 1, b := .vk 2, c := .off }
  | _ => none

/-- The formats of R41 that share the layout of Raw. -/
inductive Fmt where
  | f0 | f1 | f2 | f3 | f4 | f5 | f6
  deriving DecidableEq, Repr

/-- The format that OP selects (R66); none for a reserved OP. NOP (0x01) is F0. -/
def fmtOf (op : Nat) : Option Fmt :=
  if op = 0 then some .f5
  else if op = 1 then some .f0
  else if op ≤ 6 then some .f2
  else if op = 0x0D then some .f6
  else if op ≤ 0x0E then some .f0
  else if op < 0x10 then none
  else if op ≤ 0x35 then some .f0
  else if op < 0x40 then none
  else if op ≤ 0x47 then some .f0
  else if op < 0x50 then none
  else if op ≤ 0x61 then some .f0
  else if op < 0x70 then none
  else if op ≤ 0x7A then some .f0
  else if op < 0x80 then none
  else if op ≤ 0x8F then some .f0
  else if op ≤ 0x9A then some .f3
  else if op < 0xA0 then none
  else if op ≤ 0xA8 then some .f1
  else if op < 0xB0 then none
  else if op ≤ 0xBB then some .f1
  else if op < 0xC0 then none
  else if op ≤ 0xC6 then some .f4
  else if op < 0xD0 then none
  else if op ≤ 0xD9 then some .f1
  else if op < 0xE0 then none
  else if op ≤ 0xEA then some .f6
  else none

/-- The entry of an OP that shares the layout of Raw, at the FN, T and IC of the word. -/
def entryOf (op fn t ic : Nat) : Option Entry :=
  if op < 0x10 then (if op = 0x0D then entrySys op fn else entrySteer op ic)
  else if op < 0x40 then entryInt op fn t ic
  else if op < 0x50 then entryLane op fn t ic
  else if op < 0x80 then entryFloat op fn t ic
  else if op < 0x90 then entryNarrow op fn t ic
  else if op < 0xA0 then entryMatrix op fn
  else if op < 0xC0 then entryMem op fn ic
  else if op < 0xD0 then entryCopy op fn ic
  else if op < 0xE0 then entryMem op fn ic
  else entrySys op fn

/-- The FN values in use for each OP; empty for a reserved OP. -/
def fnsOf (op : Nat) : List Nat :=
  match op with
  | 0x0B | 0x43 | 0x47 | 0x89 | 0x95 | 0x96 | 0x9A | 0xB9 | 0xBA | 0xC4 | 0xE1 | 0xE2 | 0xE3 | 0xE4 | 0xE5 | 0xEA => [0, 1]
  | 0x0E | 0x32 | 0x33 | 0x34 | 0x40 | 0x61 | 0x85 | 0x94 | 0xB6 | 0xB7 => [0, 1, 2, 3]
  | 0x12 => [0, 4, 5, 6, 7]
  | 0x2F | 0x45 => [0, 1, 2, 3, 4, 5, 8, 9, 10, 11, 12, 13]
  | 0x31 => [0, 1, 2, 3, 4, 5, 6, 7]
  | 0x41 | 0x46 | 0x99 | 0xB8 | 0xC0 | 0xC5 => [0, 1, 2]
  | 0x44 => [0, 1, 2, 3, 4, 5]
  | 0x58 => [0, 1, 2, 3, 4, 5, 6, 7, 8, 9, 10, 11, 12, 13, 14, 15]
  | 0x5B => [1, 2, 3, 4, 5, 6, 7]
  | 0x86 | 0x87 | 0xC6 => [1, 2, 3]
  | 0xA0 | 0xA2 | 0xA3 | 0xA5 | 0xB0 => [0, 1, 2, 3, 4, 5, 6]
  | 0xA1 | 0xA6 | 0xB1 => [0, 2, 4, 5, 6]
  | 0xA4 => [0, 2, 4, 5, 6, 8, 10, 12, 13, 14]
  | 0xA7 => [1, 2, 3, 5, 6, 7]
  | 0xA8 => [0, 1, 2, 3, 4, 5, 6, 7, 8, 9, 10, 11]
  | 0xB2 | 0xD0 | 0xD5 | 0xD6 => [4, 5]
  | 0xB3 | 0xD2 => [0, 1, 2, 3, 4, 5, 6, 7, 8, 9, 10, 11, 12, 13, 14]
  | 0xB4 => [0, 1, 2, 3, 4, 5, 6, 7, 10, 11, 12]
  | 0xC1 => [1, 2]
  | 0xC2 => [1]
  | 0xC3 => [2]
  | 0xD1 => [0, 2, 4, 5]
  | 0xD8 | 0xD9 => [0, 12]
  | _ => if (fmtOf op).isSome then [0] else []

/-! ## The tests of R68 -/

/-- The checks of R68 and R75 that concern one word. -/
inductive Check where
  | reservedOp | reservedFn | reservedField | operand (code : Nat) | attrRow
  deriving DecidableEq, Repr

/-- A field that the entry does not use holds 0xFF, or 0x00 for DESC (R44, R133); a return field holds an exit (R284). -/
def Use.fieldOk (u : Use) (v : Nat) : Bool :=
  match u with
  | .off => v == 0xFF
  | .nil => v == 0
  | .exit opt => v ≤ 7 || (opt && v == 0xFF)
  | _ => true

/-- R43: G = 7 with GN = 1 is reserved. -/
def guardOk (g gn : Nat) : Bool := g ≤ 7 && gn ≤ 1 && !(g == 7 && gn == 1)

/-- The SCOPE and ORDER values of each F1 entry (R159, R124, R284, R301, R326). -/
def scopeOrderOk (op scope order : Nat) : Bool :=
  if op < 0xB0 then scope == 0 && order == 0
  else if op = 0xB0 ∨ op = 0xB2 then order ≤ 1 && (order != 0 || scope == 0)
  else if op = 0xB1 ∨ op = 0xB4 then (order == 0 || order == 2) && (order != 0 || scope == 0)
  else if op = 0xB3 then order == 0 || order == 2
  else if op = 0xB5 then 1 ≤ order && 1 ≤ scope
  else if op = 0xB6 then order == 3 && scope == 1
  else if op = 0xB7 then order == 3 && scope == 2
  else if op < 0xC0 then scope == 0 && order == 0
  else if op = 0xD0 ∨ op = 0xD4 then order == 0
  else order == 0 || order == 2

/-- L1POL and L2POL (R284, R124): L1POL on LDG and CPREF, L2POL on LDG, STG, FETCH, ATOM, RED and CPREF. -/
def polOk (op l1 l2 : Nat) : Bool :=
  (l1 == 0 || (l1 ≤ 2 && (op == 0xB0 || op == 0xB8))) &&
  (l2 == 0 || (l2 ≤ 2 && ((0xB0 ≤ op && op ≤ 0xB4) || op == 0xB8)))

/-- The TBUF values of R133. -/
def tbufOk (op fn tbuf : Nat) : Bool :=
  if op = 0xC6 then tbuf == 4
  else if fn = 0 then tbuf == 0
  else if fn = 1 then tbuf == 1 || tbuf == 2
  else tbuf == 2 || tbuf == 3

/-- The system register codes of R81, R98, R152, R319 and R400. -/
def sysRegs : List Nat := [0x100, 0x101, 0x102, 0x103, 0x110, 0x120, 0x130, 0x131, 0x132, 0x133, 0x134]

/-- Those that need PRIV (R98, R319, R400). -/
def sysRegsPriv : List Nat := [0x100, 0x101, 0x102, 0x103, 0x120, 0x131, 0x132]

/-- The CODE values of R366 and R401. KEYSET takes slots 4 to 15 (R401). -/
def codeOk (op fn code : Nat) : Bool :=
  match op with
  | 0xE0 | 0xE6 => true
  | 0xE3 | 0xE4 => sysRegs.contains code
  | 0xE5 => if fn = 0 then code ≤ 7 else code == 0
  | 0xE8 => code ≤ 15
  | 0xE9 => 4 ≤ code && code ≤ 15
  | _ => code == 0

/-- Bits 14:0 of a word of the given format and entry. -/
def loOk (fm : Fmt) (e : Entry) (r : Raw) : Bool :=
  match fm with
  | .f0 =>
    e.ts.contains (r.lo / 2048) && e.md.contains (r.lo / 256 % 8) &&
      (if e.long then r.lo / 16 % 16 == 0 else r.lo % 256 == 0)
  | .f1 =>
    scopeOrderOk r.op (r.lo / 4096) (r.lo / 1024 % 4) && (if e.long then r.op != 0xB2 || r.lo / 64 % 16 < 12 else 12 ≤ r.lo / 64 % 16) &&
      polOk r.op (r.lo / 16 % 4) (r.lo / 4 % 4) && r.lo % 4 == 0
  | .f3 =>
    (if r.op == 0x92 || r.op == 0x93 || r.op == 0x94 then r.lo / 2048 == 0 else r.lo / 2048 ≤ 7) &&
      (if r.op == 0x95 then 1 ≤ r.lo / 512 % 4 else r.lo / 512 % 4 == 0) &&
      (r.lo / 256 % 2 == 0 || r.op == 0x90 || r.op == 0x91 || r.op == 0x95 || r.op == 0x96) &&
      (e.long || 12 ≤ r.lo / 16 % 16) && r.lo % 16 == 0
  | .f4 =>
    tbufOk r.op r.fn (r.lo / 4096) && (e.long || 12 ≤ r.lo / 256 % 16) &&
      (r.lo / 128 % 2 == 1 || r.lo / 16 % 8 == 0) && r.lo % 16 == 0
  | .f6 => codeOk r.op r.fn (r.lo / 8) && r.lo % 8 == 0
  | _ => false

/-- The third row of R68 for a word of the shared layout. -/
def fieldsOk (fm : Fmt) (e : Entry) (r : Raw) : Bool :=
  e.d.fieldOk r.d && e.a.fieldOk r.a && e.b.fieldOk r.b &&
  (if r.ic = 1 then e.imms.isEmpty || e.imms.contains r.c else e.c.fieldOk r.c) &&
  e.ics.contains r.ic && guardOk r.g r.gn && loOk fm e r

/-- One operand test: the offending code of the fourth row of R68. -/
def Use.bad (u : Use) (regd v : Nat) : Option Nat :=
  match u with
  | .off | .nil | .exit _ => none
  | _ =>
    match Operand.ofCode v with
    | none => some v
    | some o => if u.ok regd o then none else some v

/-- The fourth row of R68, taking the operands in the order D, A, B, C. -/
def operandBad (e : Entry) (regd : Nat) (r : Raw) : Option Nat :=
  (e.d.bad regd r.d).orElse fun _ => (e.a.bad regd r.a).orElse fun _ => (e.b.bad regd r.b).orElse fun _ =>
    if r.ic = 1 then none else e.c.bad regd r.c

/-- The type code of an F0 word. -/
def Raw.t (fm : Fmt) (r : Raw) : Nat := if fm = .f0 then r.lo / 2048 else 0

/-- NOP has every other bit zero except G = 7 (R67). -/
def Raw.nop : Raw := ⟨1, 0, 0, 0, 0, 0, 0, 7, 0, 0⟩

/-- R68 rows 1 to 4 for a word of the shared layout, at register demand `regd`. -/
def checkStd (regd : Nat) (r : Raw) : Option Check :=
  match fmtOf r.op with
  | none => some .reservedOp
  | some fm =>
    if !(fnsOf r.op).contains r.fn then some .reservedFn
    else if r.op = 1 then (if r = Raw.nop then none else some .reservedField)
    else
      match entryOf r.op r.fn (r.t fm) r.ic with
      | none => some .reservedOp
      | some e =>
        if !fieldsOk fm e r then some .reservedField
        else (operandBad e regd r).map .operand

/-- R68 for an F2 word (R365): SEND, SENDV, SENDF, EXIT, EOS. The run PAY_OP to PAY_OP + PLEN lies below `regd` (R51). -/
def checkTok (regd : Nat) (r : Raw2) : Option Check :=
  if r.fn != 0 then some .reservedFn
  else if !(r.z == 0 && guardOk r.g r.gn) then some .reservedField
  else if r.op = 5 then
    (if r.dblk + r.slot + r.tag + r.pay + r.col + r.plen + r.rsc = 0 then none else some .reservedField)
  else if r.op = 6 && !(r.pay == 0 && r.col == 0 && r.plen == 0) then some .reservedField
  else
    (((Use.s 1).bad regd r.tag).orElse fun _ =>
      if r.op = 6 then none
      else ((Use.run (r.plen + 1) 1).bad regd r.pay).orElse fun _ => (Use.s 1).bad regd r.col).map .operand

/-- R55: the third row of R68 for a clause header. -/
def checkClause (r : Raw5) : Option Check :=
  if r.z == 0 && (r.v0 == 1 || r.set0 == 0) && (r.v1 == 1 || r.set1 == 0) && (r.v0 == 0 || r.set0 ≤ 11) &&
    (r.v1 == 0 || r.set1 ≤ 11) && !(r.v0 == 1 && r.v1 == 1 && r.set0 == r.set1)
  then none else some .reservedField

/-- The word-level tests of R68, rows 1 to 4. -/
def Fields.check (regd : Nat) : Fields → Option Check
  | .std r => checkStd regd r
  | .tok r => checkTok regd r
  | .clause r => checkClause r

/-! ## Well-formed instructions -/

/-- The OP of an instruction word's constructor and the FN values that select it (R66); none for an event. -/
def Instr.key : Instr → Option (Nat × List Nat)
  | .tokenArrival _ _ => none
  | .eosCount _ _ => none
  | .collectionDeadline _ _ => none
  | .postponedCollection _ => none
  | .spill _ => none
  | .spillRecordLanded _ _ => none
  | .refill _ => none
  | .blockCommit _ _ => none
  | .delayedTokenRelease _ _ => none
  | .longLatencyCompletion _ _ _ => none
  | .speculativeRenewalReply _ _ => none
  | .passOverPromotion _ _ => none
  | .clockGate _ => none
  | .coreWake _ => none
  | .deadlineWakeTimer _ => none
  | .restartEnd _ => none
  | .clauseHeader _ => some (0x00, [])
  | .nop => some (0x01, [0])
  | .send _ => some (0x02, [0])
  | .sendv _ => some (0x03, [0])
  | .sendf _ => some (0x04, [0])
  | .exit _ => some (0x05, [0])
  | .eos _ => some (0x06, [0])
  | .colalloc _ => some (0x07, [0])
  | .colfree _ => some (0x08, [0])
  | .packc _ => some (0x09, [0])
  | .unpackc _ => some (0x0A, [0])
  | .bintimTimer _ => some (0x0B, [0])
  | .bintimPrio _ => some (0x0B, [1])
  | .ldblk _ => some (0x0C, [0])
  | .blockFetchComplete _ _ => none
  | .cfgw _ => some (0x0D, [0])
  | .qwait _ => some (0x0E, [0, 1, 2, 3])
  | .qwaitTimeout _ _ => none
  | .mov _ => some (0x10, [0])
  | .movk _ => some (0x11, [0])
  | .movi _ => some (0x12, [0])
  | .moviBy _ => some (0x12, [4, 5, 6, 7])
  | .add _ => some (0x13, [0])
  | .sub _ => some (0x14, [0])
  | .mul _ => some (0x15, [0])
  | .mulhi _ => some (0x16, [0])
  | .mad _ => some (0x17, [0])
  | .madw _ => some (0x18, [0])
  | .div _ => some (0x19, [0])
  | .rem _ => some (0x1A, [0])
  | .abs _ => some (0x1B, [0])
  | .neg _ => some (0x1C, [0])
  | .min _ => some (0x1D, [0])
  | .max _ => some (0x1E, [0])
  | .shl _ => some (0x1F, [0])
  | .shr _ => some (0x20, [0])
  | .sar _ => some (0x21, [0])
  | .rol _ => some (0x22, [0])
  | .and _ => some (0x23, [0])
  | .or _ => some (0x24, [0])
  | .xor _ => some (0x25, [0])
  | .not _ => some (0x26, [0])
  | .andn _ => some (0x27, [0])
  | .bfe _ => some (0x28, [0])
  | .bfi _ => some (0x29, [0])
  | .brev _ => some (0x2A, [0])
  | .clz _ => some (0x2B, [0])
  | .ctz _ => some (0x2C, [0])
  | .popc _ => some (0x2D, [0])
  | .sel _ => some (0x2E, [0])
  | .cmp _ => some (0x2F, [0, 1, 2, 3, 4, 5, 8, 9, 10, 11, 12, 13])
  | .lea _ => some (0x30, [0])
  | .cvti _ => some (0x31, [0, 1, 2, 3, 4, 5, 6, 7])
  | .pand _ => some (0x32, [0, 1, 2, 3])
  | .por _ => some (0x33, [0, 1, 2, 3])
  | .pxor _ => some (0x34, [0, 1, 2, 3])
  | .pnot _ => some (0x35, [0])
  | .shfl _ => some (0x40, [0, 1, 2, 3])
  | .vote _ => some (0x41, [0, 1, 2])
  | .ballot _ => some (0x42, [0])
  | .matchAny _ => some (0x43, [0])
  | .matchAll _ => some (0x43, [1])
  | .redg _ => some (0x44, [0, 1, 2, 3, 4, 5])
  | .scang _ => some (0x45, [0, 1, 2, 3, 4, 5, 8, 9, 10, 11, 12, 13])
  | .emrd _ => some (0x46, [0, 1, 2])
  | .emwrAnd _ => some (0x47, [0])
  | .emwrSet _ => some (0x47, [1])
  | .fadd _ => some (0x50, [0])
  | .fsub _ => some (0x51, [0])
  | .fmul _ => some (0x52, [0])
  | .ffma _ => some (0x53, [0])
  | .fmin _ => some (0x54, [0])
  | .fmax _ => some (0x55, [0])
  | .fabs _ => some (0x56, [0])
  | .fneg _ => some (0x57, [0])
  | .fcmp _ => some (0x58, [0, 1, 2, 3, 4, 5, 6, 7, 8, 9, 10, 11, 12, 13, 14, 15])
  | .fclass _ => some (0x59, [0])
  | .frnd _ => some (0x5A, [0])
  | .fcvt _ => some (0x5B, [1, 2, 3, 4, 5, 6, 7])
  | .fdiv _ => some (0x5C, [0])
  | .fsqrt _ => some (0x5D, [0])
  | .hadd2 _ => some (0x5E, [0])
  | .hmul2 _ => some (0x5F, [0])
  | .hfma2 _ => some (0x60, [0])
  | .sflgRd _ => some (0x61, [0])
  | .sflgRdc _ => some (0x61, [1])
  | .sflgSet _ => some (0x61, [2])
  | .sflgClr _ => some (0x61, [3])
  | .rcp _ => some (0x70, [0])
  | .rsq _ => some (0x71, [0])
  | .exp2 _ => some (0x72, [0])
  | .log2 _ => some (0x73, [0])
  | .sin _ => some (0x74, [0])
  | .cos _ => some (0x75, [0])
  | .tanh _ => some (0x76, [0])
  | .sigm _ => some (0x77, [0])
  | .teval _ => some (0x78, [0])
  | .tload _ => some (0x79, [0])
  | .tloadCopy _ _ => none
  | .tswap _ => some (0x7A, [0])
  | .qnt _ => some (0x80, [0])
  | .dqnt _ => some (0x81, [0])
  | .scale _ => some (0x82, [0])
  | .bspack _ => some (0x83, [0])
  | .bsunpack _ => some (0x84, [0])
  | .cvtnUp _ => some (0x85, [0])
  | .cvtnDn _ => some (0x85, [1])
  | .cvtnDense _ => some (0x85, [2])
  | .cvtnBytes _ => some (0x85, [3])
  | .spcmp _ => some (0x86, [1, 2, 3])
  | .spexp _ => some (0x87, [1, 2, 3])
  | .rncv _ => some (0x88, [0])
  | .rncrt _ => some (0x89, [0, 1])
  | .rnadd _ => some (0x8A, [0])
  | .rnsub _ => some (0x8B, [0])
  | .rnmul _ => some (0x8C, [0])
  | .rnmad _ => some (0x8D, [0])
  | .rnneg _ => some (0x8E, [0])
  | .rnscl _ => some (0x8F, [0])
  | .mma _ => some (0x90, [0])
  | .gmma _ => some (0x91, [0])
  | .gang _ => some (0x92, [0])
  | .fmtb _ => some (0x93, [0])
  | .gthr _ => some (0x94, [0, 1, 2, 3])
  | .spmma _ => some (0x95, [0, 1])
  | .rnmma _ => some (0x96, [0, 1])
  | .accz _ => some (0x97, [0])
  | .accld _ => some (0x98, [0])
  | .accst _ => some (0x99, [0])
  | .accstAdd _ => some (0x99, [1])
  | .accstRnadd _ => some (0x99, [2])
  | .acccvRn _ => some (0x9A, [0])
  | .acccvSc _ => some (0x9A, [1])
  | .gangRendezvousTimeout _ => none
  | .ldf _ => some (0xA0, [0, 1, 2, 3, 4, 5, 6])
  | .stf _ => some (0xA1, [0, 2, 4, 5, 6])
  | .ldw _ => some (0xA2, [0, 1, 2, 3, 4, 5, 6])
  | .lda _ => some (0xA3, [0, 1, 2, 3, 4, 5, 6])
  | .sta _ => some (0xA4, [0, 2, 4, 5, 6])
  | .staNb _ => some (0xA4, [8, 10, 12, 13, 14])
  | .neighbourDeposit _ _ => none
  | .ldc _ => some (0xA5, [0, 1, 2, 3, 4, 5, 6])
  | .stc _ => some (0xA6, [0, 2, 4, 5, 6])
  | .pres _ => some (0xA7, [1, 2, 3, 5, 6, 7])
  | .atoma _ => some (0xA8, [0, 1, 2, 3, 4, 5, 6, 7, 8, 9, 10, 11])
  | .presenceSetResume _ _ _ => none
  | .ldg _ => some (0xB0, [0, 1, 2, 3, 4, 5, 6])
  | .stg _ => some (0xB1, [0, 2, 4, 5, 6])
  | .fetch _ => some (0xB2, [4, 5])
  | .atom _ => some (0xB3, [0, 1, 2, 3, 4, 5, 6, 7, 8, 9, 10, 11, 12, 13, 14])
  | .red _ => some (0xB4, [0, 1, 2, 3, 4, 5, 6, 7, 10, 11, 12])
  | .fence _ => some (0xB5, [0])
  | .bar _ => some (0xB6, [0, 1, 2, 3])
  | .cbar _ => some (0xB7, [0, 1, 2, 3])
  | .barrierArrival _ _ => none
  | .cprefL1 _ => some (0xB8, [0])
  | .cprefL2 _ => some (0xB8, [1])
  | .cprefEx _ => some (0xB8, [2])
  | .cinvLine _ => some (0xB9, [0])
  | .cinvAll _ => some (0xB9, [1])
  | .cflushLine _ => some (0xBA, [0])
  | .cflushDie _ => some (0xBA, [1])
  | .lset _ => some (0xBB, [0])
  | .cpyMm _ => some (0xC0, [0])
  | .cpyIn _ => some (0xC0, [1])
  | .cpyOut _ => some (0xC0, [2])
  | .cpytIn _ => some (0xC1, [1])
  | .cpytOut _ => some (0xC1, [2])
  | .cpygIn _ => some (0xC2, [1])
  | .cpysOut _ => some (0xC3, [2])
  | .cpyfMm _ => some (0xC4, [0])
  | .cpyfIn _ => some (0xC4, [1])
  | .cpypMm _ => some (0xC5, [0])
  | .cpypIn _ => some (0xC5, [1])
  | .cpypOut _ => some (0xC5, [2])
  | .cpyspIn _ => some (0xC6, [1])
  | .cpyspOut _ => some (0xC6, [2])
  | .cpyspOutc _ => some (0xC6, [3])
  | .courierCommandStart _ => none
  | .courierCommandComplete _ _ => none
  | .courierRecall _ _ => none
  | .rld _ => some (0xD0, [4, 5])
  | .rst _ => some (0xD1, [0, 2, 4, 5])
  | .ratom _ => some (0xD2, [0, 1, 2, 3, 4, 5, 6, 7, 8, 9, 10, 11, 12, 13, 14])
  | .rput _ => some (0xD3, [0])
  | .rget _ => some (0xD4, [0])
  | .spw _ => some (0xD5, [4, 5])
  | .mcst _ => some (0xD6, [4, 5])
  | .mcput _ => some (0xD7, [0])
  | .cfaa _ => some (0xD8, [0, 12])
  | .cfaan _ => some (0xD9, [0, 12])
  | .trap _ => some (0xE0, [0])
  | .bkpt _ => some (0xE6, [0])
  | .resume _ => some (0xE1, [0])
  | .resumePast _ => some (0xE1, [1])
  | .abort _ => some (0xE2, [0])
  | .abortRegion _ => some (0xE2, [1])
  | .srrd _ => some (0xE3, [0, 1])
  | .srwr _ => some (0xE4, [0, 1])
  | .fltrdWord _ => some (0xE5, [0])
  | .fltrdNext _ => some (0xE5, [1])
  | .halt _ => some (0xE7, [0])
  | .sigchk _ => some (0xE8, [0])
  | .keyset _ => some (0xE9, [0])
  | .preemptSave _ => some (0xEA, [0])
  | .preemptRestore _ => some (0xEA, [1])
  | .clolasVerifyDone _ => none
  | .leaseRequest _ _ _ => none
  | .storeLineArrival _ => none
  | .linedUpWritePerform _ _ _ => none
  | .atomicAtOwner _ _ _ => none
  | .fetchAtOwner _ _ _ => none
  | .permitGets _ _ => none
  | .permitGetx _ _ => none
  | .permitPut _ _ => none
  | .permitReply _ _ => none
  | .permitRequestTimeout _ _ => none
  | .persistentRequest _ _ => none
  | .persistentActivation _ _ => none
  | .deactivate _ _ => none
  | .backInvalidationSnoop _ _ => none
  | .hostSnoop _ _ _ => none
  | .pageWalk _ => none
  | .walkResult _ _ => none
  | .ingressTranslation _ _ => none
  | .tlbinvGo _ _ => none
  | .tlbinvDone _ => none
  | .linkPacketArrival _ _ => none
  | .deadLetterNotice _ => none
  | .remoteRequestAtTarget _ _ => none
  | .remoteReply _ => none
  | .remoteTimeout _ => none
  | .writeCombineDrain _ _ => none
  | .spanWordArrival _ => none
  | .spanCreditReturn _ => none
  | .pierAdderSum _ _ => none
  | .linkFailure _ => none
  | .multicastStamp _ _ => none
  | .multicastArrival _ => none
  | .gapTimerExpiry _ => none
  | .memberAnswer _ _ _ _ _ => none
  | .memberAnswerTimeout _ _ _ => none
  | .returnReceipt _ => none
  | .combiningMerge _ _ _ => none
  | .combiningWindowExpiry _ _ => none
  | .decombineReply _ _ => none
  | .recordError _ _ => none
  | .switchReset _ => none
  | .cfaaQuery _ => none
  | .replyLogQuery _ _ => none
  | .replyLogAging _ => none
  | .heartbeat _ _ => none
  | .heartbeatTimeout _ _ => none
  | .deathNotice _ => none
  | .declaredDead _ => none
  | .incarnationExchange _ _ => none
  | .membershipTableProgram _ _ => none
  | .poolLinkFailure _ => none
  | .tokenPost _ _ => none
  | .launch => none
  | .reconfig => none
  | .reconfigSwap _ => none
  | .beginStream _ => none
  | .configFieldWrite _ => none
  | .crcEnd _ => none
  | .commitStream _ => none
  | .rollbackStream _ => none
  | .armTile _ => none
  | .keystoneSweep _ => none
  | .regionComplete _ => none
  | .rateLimitWindow _ => none
  | .colourReserveRefill _ _ => none
  | .regionEnd _ => none
  | .quenchTimeout _ _ => none
  | .coreSave _ => none
  | .mcgrpRevoke _ => none
  | .poisonClr _ => none
  | .poolRegionClear _ => none
  | .registerWrite _ _ => none
  | .powerGoodReset _ => none
  | .resetctl _ => none
  | .attCtlGo _ => none
  | .quoteDone => none
  | .throttleAssert => none
  | .throttleClear => none
  | .hostCxlMemAccess _ _ => none
  | .illegalEncoding _ => none
  | .preemptRequest _ => none
  | .quench _ => none
  | .preemptionMarker _ _ => none
  | .poolLinkRetrain _ => none
  | .combiningControlProgram _ _ _ => none
  | .replicationTreeProgram _ _ _ _ => none

/-- The fields of an instruction word; none for an event. -/
def Instr.fields (i : Instr) : Option Fields :=
  match i with
  | .tokenArrival _ _ => none
  | .eosCount _ _ => none
  | .collectionDeadline _ _ => none
  | .postponedCollection _ => none
  | .spill _ => none
  | .spillRecordLanded _ _ => none
  | .refill _ => none
  | .blockCommit _ _ => none
  | .delayedTokenRelease _ _ => none
  | .longLatencyCompletion _ _ _ => none
  | .speculativeRenewalReply _ _ => none
  | .passOverPromotion _ _ => none
  | .clockGate _ => none
  | .coreWake _ => none
  | .deadlineWakeTimer _ => none
  | .restartEnd _ => none
  | .clauseHeader f => some (.clause f.raw)
  | .nop => some (.std Raw.nop)
  | .send f => some (.tok (f.raw 0x02))
  | .sendv f => some (.tok (f.raw 0x03))
  | .sendf f => some (.tok (f.raw 0x04))
  | .exit f => some (.tok (f.raw 0x05))
  | .eos f => some (.tok (f.raw 0x06))
  | .colalloc f => some (.std (f.raw 0x07))
  | .colfree f => some (.std (f.raw 0x08))
  | .packc f => some (.std (f.raw 0x09))
  | .unpackc f => some (.std (f.raw 0x0A))
  | .bintimTimer f => some (.std (f.raw 0x0B))
  | .bintimPrio f => some (.std (f.raw 0x0B))
  | .ldblk f => some (.std (f.raw 0x0C))
  | .blockFetchComplete _ _ => none
  | .cfgw f => some (.std (f.raw 0x0D))
  | .qwait f => some (.std (f.raw 0x0E))
  | .qwaitTimeout _ _ => none
  | .mov f => some (.std (f.raw 0x10))
  | .movk f => some (.std (f.raw 0x11))
  | .movi f => some (.std (f.raw 0x12))
  | .moviBy f => some (.std (f.raw 0x12))
  | .add f => some (.std (f.raw 0x13))
  | .sub f => some (.std (f.raw 0x14))
  | .mul f => some (.std (f.raw 0x15))
  | .mulhi f => some (.std (f.raw 0x16))
  | .mad f => some (.std (f.raw 0x17))
  | .madw f => some (.std (f.raw 0x18))
  | .div f => some (.std (f.raw 0x19))
  | .rem f => some (.std (f.raw 0x1A))
  | .abs f => some (.std (f.raw 0x1B))
  | .neg f => some (.std (f.raw 0x1C))
  | .min f => some (.std (f.raw 0x1D))
  | .max f => some (.std (f.raw 0x1E))
  | .shl f => some (.std (f.raw 0x1F))
  | .shr f => some (.std (f.raw 0x20))
  | .sar f => some (.std (f.raw 0x21))
  | .rol f => some (.std (f.raw 0x22))
  | .and f => some (.std (f.raw 0x23))
  | .or f => some (.std (f.raw 0x24))
  | .xor f => some (.std (f.raw 0x25))
  | .not f => some (.std (f.raw 0x26))
  | .andn f => some (.std (f.raw 0x27))
  | .bfe f => some (.std (f.raw 0x28))
  | .bfi f => some (.std (f.raw 0x29))
  | .brev f => some (.std (f.raw 0x2A))
  | .clz f => some (.std (f.raw 0x2B))
  | .ctz f => some (.std (f.raw 0x2C))
  | .popc f => some (.std (f.raw 0x2D))
  | .sel f => some (.std (f.raw 0x2E))
  | .cmp f => some (.std (f.raw 0x2F))
  | .lea f => some (.std (f.raw 0x30))
  | .cvti f => some (.std (f.raw 0x31))
  | .pand f => some (.std (f.raw 0x32))
  | .por f => some (.std (f.raw 0x33))
  | .pxor f => some (.std (f.raw 0x34))
  | .pnot f => some (.std (f.raw 0x35))
  | .shfl f => some (.std (f.raw 0x40))
  | .vote f => some (.std (f.raw 0x41))
  | .ballot f => some (.std (f.raw 0x42))
  | .matchAny f => some (.std (f.raw 0x43))
  | .matchAll f => some (.std (f.raw 0x43))
  | .redg f => some (.std (f.raw 0x44))
  | .scang f => some (.std (f.raw 0x45))
  | .emrd f => some (.std (f.raw 0x46))
  | .emwrAnd f => some (.std (f.raw 0x47))
  | .emwrSet f => some (.std (f.raw 0x47))
  | .fadd f => some (.std (f.raw 0x50))
  | .fsub f => some (.std (f.raw 0x51))
  | .fmul f => some (.std (f.raw 0x52))
  | .ffma f => some (.std (f.raw 0x53))
  | .fmin f => some (.std (f.raw 0x54))
  | .fmax f => some (.std (f.raw 0x55))
  | .fabs f => some (.std (f.raw 0x56))
  | .fneg f => some (.std (f.raw 0x57))
  | .fcmp f => some (.std (f.raw 0x58))
  | .fclass f => some (.std (f.raw 0x59))
  | .frnd f => some (.std (f.raw 0x5A))
  | .fcvt f => some (.std (f.raw 0x5B))
  | .fdiv f => some (.std (f.raw 0x5C))
  | .fsqrt f => some (.std (f.raw 0x5D))
  | .hadd2 f => some (.std (f.raw 0x5E))
  | .hmul2 f => some (.std (f.raw 0x5F))
  | .hfma2 f => some (.std (f.raw 0x60))
  | .sflgRd f => some (.std (f.raw 0x61))
  | .sflgRdc f => some (.std (f.raw 0x61))
  | .sflgSet f => some (.std (f.raw 0x61))
  | .sflgClr f => some (.std (f.raw 0x61))
  | .rcp f => some (.std (f.raw 0x70))
  | .rsq f => some (.std (f.raw 0x71))
  | .exp2 f => some (.std (f.raw 0x72))
  | .log2 f => some (.std (f.raw 0x73))
  | .sin f => some (.std (f.raw 0x74))
  | .cos f => some (.std (f.raw 0x75))
  | .tanh f => some (.std (f.raw 0x76))
  | .sigm f => some (.std (f.raw 0x77))
  | .teval f => some (.std (f.raw 0x78))
  | .tload f => some (.std (f.raw 0x79))
  | .tloadCopy _ _ => none
  | .tswap f => some (.std (f.raw 0x7A))
  | .qnt f => some (.std (f.raw 0x80))
  | .dqnt f => some (.std (f.raw 0x81))
  | .scale f => some (.std (f.raw 0x82))
  | .bspack f => some (.std (f.raw 0x83))
  | .bsunpack f => some (.std (f.raw 0x84))
  | .cvtnUp f => some (.std (f.raw 0x85))
  | .cvtnDn f => some (.std (f.raw 0x85))
  | .cvtnDense f => some (.std (f.raw 0x85))
  | .cvtnBytes f => some (.std (f.raw 0x85))
  | .spcmp f => some (.std (f.raw 0x86))
  | .spexp f => some (.std (f.raw 0x87))
  | .rncv f => some (.std (f.raw 0x88))
  | .rncrt f => some (.std (f.raw 0x89))
  | .rnadd f => some (.std (f.raw 0x8A))
  | .rnsub f => some (.std (f.raw 0x8B))
  | .rnmul f => some (.std (f.raw 0x8C))
  | .rnmad f => some (.std (f.raw 0x8D))
  | .rnneg f => some (.std (f.raw 0x8E))
  | .rnscl f => some (.std (f.raw 0x8F))
  | .mma f => some (.std (f.raw 0x90))
  | .gmma f => some (.std (f.raw 0x91))
  | .gang f => some (.std (f.raw 0x92))
  | .fmtb f => some (.std (f.raw 0x93))
  | .gthr f => some (.std (f.raw 0x94))
  | .spmma f => some (.std (f.raw 0x95))
  | .rnmma f => some (.std (f.raw 0x96))
  | .accz f => some (.std (f.raw 0x97))
  | .accld f => some (.std (f.raw 0x98))
  | .accst f => some (.std (f.raw 0x99))
  | .accstAdd f => some (.std (f.raw 0x99))
  | .accstRnadd f => some (.std (f.raw 0x99))
  | .acccvRn f => some (.std (f.raw 0x9A))
  | .acccvSc f => some (.std (f.raw 0x9A))
  | .gangRendezvousTimeout _ => none
  | .ldf f => some (.std (f.raw 0xA0))
  | .stf f => some (.std (f.raw 0xA1))
  | .ldw f => some (.std (f.raw 0xA2))
  | .lda f => some (.std (f.raw 0xA3))
  | .sta f => some (.std (f.raw 0xA4))
  | .staNb f => some (.std (f.raw 0xA4))
  | .neighbourDeposit _ _ => none
  | .ldc f => some (.std (f.raw 0xA5))
  | .stc f => some (.std (f.raw 0xA6))
  | .pres f => some (.std (f.raw 0xA7))
  | .atoma f => some (.std (f.raw 0xA8))
  | .presenceSetResume _ _ _ => none
  | .ldg f => some (.std (f.raw 0xB0))
  | .stg f => some (.std (f.raw 0xB1))
  | .fetch f => some (.std (f.raw 0xB2))
  | .atom f => some (.std (f.raw 0xB3))
  | .red f => some (.std (f.raw 0xB4))
  | .fence f => some (.std (f.raw 0xB5))
  | .bar f => some (.std (f.raw 0xB6))
  | .cbar f => some (.std (f.raw 0xB7))
  | .barrierArrival _ _ => none
  | .cprefL1 f => some (.std (f.raw 0xB8))
  | .cprefL2 f => some (.std (f.raw 0xB8))
  | .cprefEx f => some (.std (f.raw 0xB8))
  | .cinvLine f => some (.std (f.raw 0xB9))
  | .cinvAll f => some (.std (f.raw 0xB9))
  | .cflushLine f => some (.std (f.raw 0xBA))
  | .cflushDie f => some (.std (f.raw 0xBA))
  | .lset f => some (.std (f.raw 0xBB))
  | .cpyMm f => some (.std (f.raw 0xC0))
  | .cpyIn f => some (.std (f.raw 0xC0))
  | .cpyOut f => some (.std (f.raw 0xC0))
  | .cpytIn f => some (.std (f.raw 0xC1))
  | .cpytOut f => some (.std (f.raw 0xC1))
  | .cpygIn f => some (.std (f.raw 0xC2))
  | .cpysOut f => some (.std (f.raw 0xC3))
  | .cpyfMm f => some (.std (f.raw 0xC4))
  | .cpyfIn f => some (.std (f.raw 0xC4))
  | .cpypMm f => some (.std (f.raw 0xC5))
  | .cpypIn f => some (.std (f.raw 0xC5))
  | .cpypOut f => some (.std (f.raw 0xC5))
  | .cpyspIn f => some (.std (f.raw 0xC6))
  | .cpyspOut f => some (.std (f.raw 0xC6))
  | .cpyspOutc f => some (.std (f.raw 0xC6))
  | .courierCommandStart _ => none
  | .courierCommandComplete _ _ => none
  | .courierRecall _ _ => none
  | .rld f => some (.std (f.raw 0xD0))
  | .rst f => some (.std (f.raw 0xD1))
  | .ratom f => some (.std (f.raw 0xD2))
  | .rput f => some (.std (f.raw 0xD3))
  | .rget f => some (.std (f.raw 0xD4))
  | .spw f => some (.std (f.raw 0xD5))
  | .mcst f => some (.std (f.raw 0xD6))
  | .mcput f => some (.std (f.raw 0xD7))
  | .cfaa f => some (.std (f.raw 0xD8))
  | .cfaan f => some (.std (f.raw 0xD9))
  | .trap f => some (.std (f.raw 0xE0))
  | .bkpt f => some (.std (f.raw 0xE6))
  | .resume f => some (.std (f.raw 0xE1))
  | .resumePast f => some (.std (f.raw 0xE1))
  | .abort f => some (.std (f.raw 0xE2))
  | .abortRegion f => some (.std (f.raw 0xE2))
  | .srrd f => some (.std (f.raw 0xE3))
  | .srwr f => some (.std (f.raw 0xE4))
  | .fltrdWord f => some (.std (f.raw 0xE5))
  | .fltrdNext f => some (.std (f.raw 0xE5))
  | .halt f => some (.std (f.raw 0xE7))
  | .sigchk f => some (.std (f.raw 0xE8))
  | .keyset f => some (.std (f.raw 0xE9))
  | .preemptSave f => some (.std (f.raw 0xEA))
  | .preemptRestore f => some (.std (f.raw 0xEA))
  | .clolasVerifyDone _ => none
  | .leaseRequest _ _ _ => none
  | .storeLineArrival _ => none
  | .linedUpWritePerform _ _ _ => none
  | .atomicAtOwner _ _ _ => none
  | .fetchAtOwner _ _ _ => none
  | .permitGets _ _ => none
  | .permitGetx _ _ => none
  | .permitPut _ _ => none
  | .permitReply _ _ => none
  | .permitRequestTimeout _ _ => none
  | .persistentRequest _ _ => none
  | .persistentActivation _ _ => none
  | .deactivate _ _ => none
  | .backInvalidationSnoop _ _ => none
  | .hostSnoop _ _ _ => none
  | .pageWalk _ => none
  | .walkResult _ _ => none
  | .ingressTranslation _ _ => none
  | .tlbinvGo _ _ => none
  | .tlbinvDone _ => none
  | .linkPacketArrival _ _ => none
  | .deadLetterNotice _ => none
  | .remoteRequestAtTarget _ _ => none
  | .remoteReply _ => none
  | .remoteTimeout _ => none
  | .writeCombineDrain _ _ => none
  | .spanWordArrival _ => none
  | .spanCreditReturn _ => none
  | .pierAdderSum _ _ => none
  | .linkFailure _ => none
  | .multicastStamp _ _ => none
  | .multicastArrival _ => none
  | .gapTimerExpiry _ => none
  | .memberAnswer _ _ _ _ _ => none
  | .memberAnswerTimeout _ _ _ => none
  | .returnReceipt _ => none
  | .combiningMerge _ _ _ => none
  | .combiningWindowExpiry _ _ => none
  | .decombineReply _ _ => none
  | .recordError _ _ => none
  | .switchReset _ => none
  | .cfaaQuery _ => none
  | .replyLogQuery _ _ => none
  | .replyLogAging _ => none
  | .heartbeat _ _ => none
  | .heartbeatTimeout _ _ => none
  | .deathNotice _ => none
  | .declaredDead _ => none
  | .incarnationExchange _ _ => none
  | .membershipTableProgram _ _ => none
  | .poolLinkFailure _ => none
  | .tokenPost _ _ => none
  | .launch => none
  | .reconfig => none
  | .reconfigSwap _ => none
  | .beginStream _ => none
  | .configFieldWrite _ => none
  | .crcEnd _ => none
  | .commitStream _ => none
  | .rollbackStream _ => none
  | .armTile _ => none
  | .keystoneSweep _ => none
  | .regionComplete _ => none
  | .rateLimitWindow _ => none
  | .colourReserveRefill _ _ => none
  | .regionEnd _ => none
  | .quenchTimeout _ _ => none
  | .coreSave _ => none
  | .mcgrpRevoke _ => none
  | .poisonClr _ => none
  | .poolRegionClear _ => none
  | .registerWrite _ _ => none
  | .powerGoodReset _ => none
  | .resetctl _ => none
  | .attCtlGo _ => none
  | .quoteDone => none
  | .throttleAssert => none
  | .throttleClear => none
  | .hostCxlMemAccess _ _ => none
  | .illegalEncoding _ => none
  | .preemptRequest _ => none
  | .quench _ => none
  | .preemptionMarker _ _ => none
  | .poolLinkRetrain _ => none
  | .combiningControlProgram _ _ _ => none
  | .replicationTreeProgram _ _ _ _ => none

/-- An instruction word is well formed when its fields pass rows 1 to 4 of R68 in a block of the largest register
demand and its FN is one that selects it. An event is no instruction word. -/
def Instr.wellFormed (i : Instr) : Bool :=
  match i.fields, i.key with
  | some (.std r), some (_, fns) => fns.contains r.fn && checkStd 128 r == none
  | some (.tok r), some (_, fns) => fns.contains r.fn && checkTok 128 r == none
  | some (.clause r), _ => checkClause r == none
  | _, _ => false

/-- R57: the word is long-latency. -/
def Instr.longLatency (i : Instr) : Bool :=
  match i.fields with
  | some (.std r) =>
    match fmtOf r.op with
    | some fm => (match entryOf r.op r.fn (r.t fm) r.ic with | some e => e.long | none => false)
    | none => false
  | _ => false

/-- R68, row 5: the word needs PRIV (R366, R401, R98, R319, R400, R124). -/
def Fields.needsPriv : Fields → Bool
  | .std r =>
    r.op == 0x0D || r.op == 0xE7 || r.op == 0xE8 || r.op == 0xE9 || r.op == 0xEA || (r.op == 0xBA && r.fn == 1) ||
      ((r.op == 0xE3 || r.op == 0xE4) && sysRegsPriv.contains (r.lo / 8))
  | _ => false

/-- R68, row 5, and R257: the word is a ganged form. -/
def Fields.needsGang : Fields → Bool
  | .std r => r.op == 0x92 || ((r.op == 0x90 || r.op == 0x91 || r.op == 0x95 || r.op == 0x96) && r.lo / 256 % 2 == 1)
  | _ => false

end Sys2Proof
end

