-- ==== Sys2Proof/Machine/Local.lean ====
section
/-! DEFINITION. Local access words (R159 to R165), their deferred service, deposits (R163) and presence (R158). -/

namespace Sys2Proof.Machine

/-! ## Sizes and addresses (R159, R160) -/

/-- Bytes of a size code. -/
def sizeBytes (code : Nat) : Nat :=
  match code % 8 with
  | 0 | 1 => 1
  | 2 | 3 => 2
  | 4 => 4
  | 5 => 8
  | _ => 16

/-- A loaded value, widened to its registers: N zero-extends, S sign-extends (R160). -/
def widenLoad (code : Nat) (bs : List Byte) : Nat :=
  let v := leNat bs
  match code % 8 with
  | 1 => ofIntN (sextN v 8) 32
  | 3 => ofIntN (sextN v 16) 32
  | _ => v

/-- The operands an F1 word reads, for the GTC latch. -/
def f1Ctx (f : F1) (s : State) (c : Core) (g : Group) : Ctx × LaneMask :=
  let act := g.active f.g
  ((⟨s, c, g⟩ : Ctx).latch act ([f.a, f.b] ++ (match f.c with | .op o => [o] | .imm _ => [])), act)

/-- The byte offset of a load in lane l: base plus B or the scaled immediate. -/
def loadOffset (x : Ctx) (f : F1) (l : Nat) : Nat :=
  (x.rd f.a l).toNat + (match f.c with
    | .imm b => b.toNat * sizeBytes f.fn.toNat
    | .op _ => (x.rd f.b l).toNat)
/-- The byte offset of a store: base plus C or the scaled immediate. -/
def storeOffset (x : Ctx) (f : F1) (l : Nat) : Nat :=
  (x.rd f.a l).toNat + (match f.c with
    | .imm b => b.toNat * sizeBytes f.fn.toNat
    | .op o => (x.rd o l).toNat)

/-- The data of a store: `n` registers from the operand (R160); a pair is a 64-bit source, for which %gtclo gives the whole GTC
(R47). -/
def Ctx.dataNat (x : Ctx) (o : Operand) (n l : Nat) : Nat :=
  if n ≤ 2 then (x.rdN n o l).toNat else x.runNat o n l
def storeData (x : Ctx) (f : F1) (l : Nat) : List Byte :=
  natLe (sizeBytes f.fn.toNat) (x.dataNat f.b (sizeRegs f.fn.toNat) l)

/-! ## Checks (R161) -/

/-- The lanes that fail a test. -/
def failing (act : LaneMask) (p : Nat → Bool) : LaneMask := maskOf fun l => laneBit act l && p l

/-- The first cause, in the order given, that some active lane fails. -/
def firstCause (cls : Cls) (act : LaneMask) (addr : Nat → Nat) : List (Nat × (Nat → Bool)) → Option Flt
  | [] => none
  | (cause, p) :: rest =>
    let m := failing act p
    match leader? m with
    | some l => some { cls := cls, cause := cause, lanes := m, addr := addr l }
    | none => firstCause cls act addr rest

/-- FRMC of the group's block (R153). -/
def Core.frmc (c : Core) (g : Group) : Nat := hdrFrmc (c.slotHdr g)

/-- R161 for an access of `size` bytes at `off`, aligned to `al`. -/
def localCheck (c : Core) (g : Group) (b : Buf) (act : LaneMask) (off : Nat → Nat) (size al : Nat) : Option Flt :=
  let limit := match b with
    | .frame => 64 * c.frmc g
    | _ => c.partSize b
  firstCause .localAccess act off
    [(causeNoFrame, fun _ => b == .frame && c.frmc g == 0), (causeRange, fun l => decide (limit < off l + size)),
     (causeAlign, fun l => off l % al != 0)]

/-- The frame offset in the partition of a lane's instance (R154). -/
def frameBase (c : Core) (g : Group) (l : Nat) : Nat :=
  match (g.insts[g.instOf l]?).bind c.entries.at? with
  | some e => e.frame
  | none => 0

/-! ## Frame loads -/

/-- LDF reads at issue; it waits for, or wounds, other groups that lock the lines, and then reads what their undo images
put back (R29, R31). -/
def execLdf (f : F1) (s : State) : Out :=
  withIssuer s fun c g =>
    let (x, act) := f1Ctx f s c g
    let size := sizeBytes f.fn.toNat
    match localCheck c g .frame act (loadOffset x f) size size with
    | some e => s.faultWord g e
    | none =>
      let at_ (l : Nat) : Nat := frameBase c g l + loadOffset x f l
      match s.claim s.cur.1 s.cur.2 .frame (dedup ((maskLanes act).map fun l => at_ l / 128)) with
      | none => s.hold g
      | some s => s.finish (x.g.setLanes f.d (sizeRegs f.fn.toNat)
          ((maskLanes act).map fun l => (l, widenLoad f.fn.toNat ((s.core s.cur.1).frame.readBytes (at_ l) size))))

/-! ## Stores -/

/-- Bytes written in place by ascending lanes: a higher lane wins (R156). -/
def Core.pokeBuf (c : Core) (b : Buf) (ws : List (Nat × List Byte)) : Core :=
  c.setBuf b (ws.foldl (fun m w => m.writeBytes w.1 w.2) (c.buf b))

/-- A store that waits keeps its place in the order of its lines: the number it came with (R157, R158). -/
def State.waitPlace (s : State) (g : Group) (num : Nat) (b : Buf) (lines : List Nat) (st : GStatus) : State :=
  let s := if g.place.isSome then s else s.modCore s.cur.1 fun c => { c with nextNum := num + 1 }
  s.setGroup s.cur.1 s.cur.2 { g with status := st, place := some (num, b, lines) }

/-- A store in place: the group parks on a line that an earlier copy holds absent (R158), waits for earlier requests and older locks,
takes its images and writes. -/
def localStore (s : State) (x : Ctx) (b : Buf) (ws : List (Nat × List Byte)) : State :=
  let (ci, gi) := s.cur
  let lines := dedup (ws.map fun w => w.1 / 128)
  let num := match x.g.place with
    | some p => p.1
    | none => x.c.nextNum
  match lines.find? fun ln => !x.c.presentFor num b ln with
  | some ln => s.waitPlace x.g num b lines (.parked b ln)
  | none =>
    match s.reach ci gi num b lines true with
    | (false, s) => s.waitPlace x.g num b lines .waiting
    | (true, s) =>
      let g := (s.core ci).takeImages x.g b lines
      if g.sbOver then s.faultWord x.g { cls := .sbufOverflow }
      else (s.modCore ci fun c => c.pokeBuf b ws).finish g

def execStf (f : F1) (s : State) : Out :=
  withIssuer s fun c g =>
    let (x, act) := f1Ctx f s c g
    let size := sizeBytes f.fn.toNat
    match localCheck c g .frame act (storeOffset x f) size size with
    | some e => s.faultWord g e
    | none => localStore s x .frame ((maskLanes act).map fun l => (frameBase c g l + storeOffset x f l, storeData x f l))

/-- A store to a typed buffer of the core. -/
def bufStore (b : Buf) (f : F1) (s : State) : Out :=
  withIssuer s fun c g =>
    let (x, act) := f1Ctx f s c g
    let size := sizeBytes f.fn.toNat
    match localCheck c g b act (storeOffset x f) size size with
    | some e => s.faultWord g e
    | none => localStore s x b ((maskLanes act).map fun l => (storeOffset x f l, storeData x f l))

def execSta (f : F1) (s : State) : Out := bufStore .a f s
def execStc (f : F1) (s : State) : Out := bufStore .c f s

/-- STA.NB: bytes wait in the store buffer, one entry a target line, until step 3 of commit (R163). -/
def Group.deposit (g : Group) (tile off : Nat) (bs : List Byte) : Group :=
  let line := off / 128
  let at_ := off % 128
  let put (m : List (Nat × Byte)) : List (Nat × Byte) :=
    (List.range bs.length).foldl (fun m i => NMap.ins m (at_ + i) ((bs[i]?).getD 0)) m
  let same (d : Deposit) : Bool := d.tile == tile && d.line == line
  let new : Deposit := { tile := tile, line := line, bytes := put [], epoch := g.fences.length, commit := 0, num := none }
  if g.deposits.any same then { g with deposits := replaceIf same (fun d => { d with bytes := put d.bytes }) g.deposits }
  else { g with deposits := g.deposits ++ [new] }

/-- The cluster position and the offset that the address of a lane names (R163). -/
def nbPos (x : Ctx) (f : F1) (l : Nat) : Nat := storeOffset x f l / 2 ^ 24 % 256
def nbOff (x : Ctx) (f : F1) (l : Nat) : Nat := storeOffset x f l % 2 ^ 24

/-- R161 for STA.NB. -/
def nbFault (s : State) (c : Core) (f : F1) (x : Ctx) (act : LaneMask) : Option Flt :=
  let size := sizeBytes f.fn.toNat
  let limit (l : Nat) : Nat := (s.core (clusTile c s.cur.1 (nbPos x f l))).partSize .a
  firstCause .localAccess act (storeOffset x f)
    [(causeNeighbour, fun l => decide (c.clusSize ≤ nbPos x f l)),
     (causeRange, fun l => decide (nbPos x f l < c.clusSize ∧ limit l < nbOff x f l + size)),
     (causeAlign, fun l => nbOff x f l % size != 0)]

def execStaNb (f : F1) (s : State) : Out :=
  withIssuer s fun c g =>
    let (x, act) := f1Ctx f s c g
    match nbFault s c f x act with
    | some e => s.faultWord g e
    | none =>
      let put (g : Group) (l : Nat) : Group := g.deposit (clusTile c s.cur.1 (nbPos x f l)) (nbOff x f l) (storeData x f l)
      let g := (maskLanes act).foldl put x.g
      if g.sbOver then s.faultWord x.g { cls := .sbufOverflow } else s.finish g

/-! ## Long-latency loads and ATOMA -/

/-- The operations of ATOMA on 32-bit words (R165), with the flags of `.FADD`. -/
def atomaWord (fn : Nat) (x b cmp : Word) : FRes :=
  let sx (w : Word) : Int := sextN w.toNat 32
  let n (w : Word) : FRes := ⟨w.toNat, 0⟩
  match fn with
  | 0 => n (x + b)
  | 1 => n (if sx x ≤ sx b then x else b)
  | 2 => n (if sx x ≤ sx b then b else x)
  | 3 => n (if x.toNat ≤ b.toNat then x else b)
  | 4 => n (if x.toNat ≤ b.toNat then b else x)
  | 5 => n (x &&& b)
  | 6 => n (x ||| b)
  | 7 => n (x ^^^ b)
  | 8 => n b
  | 9 => n (if x = cmp then b else x)
  | 10 => fadd fF32 .ne false (fF32.val x.toNat) (fF32.val b.toNat)
  | _ => ⟨(rnZip (· + ·) (rnRead x.toNat) (rnRead b.toNat)).word, 0⟩

/-- Bytes read, with the block's own earlier stores in place of memory (R272). -/
def overlayBytes (ov : List (Nat × Byte)) (addr : Nat) (bs : List Byte) : List Byte :=
  bs.zipIdx.map fun e => ((ov.find? fun x => x.1 == addr + e.2).map Prod.snd).getD e.1

/-- An operation's accesses are all served: its results are ready. -/
def LongOp.serveDone (o : LongOp) : LongOp :=
  let vals := o.accs.map fun a => (a.lane, widenLoad o.size.toNat (overlayBytes o.overlay a.addr (a.got.getD [])))
  if o.accs.all fun a => a.got.isSome then { o with ready := true, writes := regWrites o.dst (sizeRegs o.size.toNat) vals }
  else o

def Group.setOp (g : Group) (o : LongOp) : Group := { g with ops := replaceIf (fun p => p.num == o.num) (fun _ => o) g.ops }

/-- One access of a buffer load is served, if no earlier request to its line waits and no older group locks it. -/
def serveAccess (ci gi : Nat) (b : Buf) (o : LongOp) (acc : State × List Access) (a : Access) : State × List Access :=
  let (s, done) := acc
  let c := s.core ci
  let ln := a.addr / 128
  if a.got.isSome || !c.presentFor o.num b ln then (s, done ++ [a])
  else
    match s.reach ci gi o.num b [ln] false with
    | (false, s) => (s, done ++ [a])
    | (true, s) => (s, done ++ [{ a with got := some (((s.core ci).buf b).readBytes a.addr a.size) }])

/-- ATOMA as one write: lanes in ascending order, each receiving the word before its own operation (R165). -/
def atomaRun (fn : Nat) (bufA : NMap Byte) (accs : List Access) (bc : List (Word × Word)) : NMap Byte × List (Nat × Nat) × Nat :=
  (accs.zip bc).foldl (fun acc e =>
    let x := w32 (leNat (acc.1.readBytes e.1.addr 4))
    let r := atomaWord fn x e.2.1 e.2.2
    (acc.1.writeBytes e.1.addr (natLe 4 r.bits), acc.2.1 ++ [(e.1.lane, x.toNat)], acc.2.2 ||| r.fl)) (bufA, [], 0)

/-- Serve what can be served of an operation that waits for lines of a typed buffer (R157, R158). -/
def State.serveLocal (s : State) (ci gi num : Nat) : State :=
  match (s.core ci).group? gi with
  | none => s
  | some g =>
    match g.ops.find? fun o => o.num == num with
    | none => s
    | some o =>
      if o.ready || o.dead || o.flt.isSome then s
      else
        match o.kind with
        | .bufLoad b =>
          let r := o.accs.foldl (serveAccess ci gi b o) (s, [])
          r.1.modCore ci fun c =>
            match c.group? gi with
            | some g => c.setGroup gi (g.setOp { o with accs := r.2 }.serveDone)
            | none => c
        | .atoma fn bc =>
          let lines := dedup (o.accs.map fun a => a.addr / 128)
          if lines.any fun ln => !(s.core ci).presentFor num .a ln then s
          else
            match s.reach ci gi num .a lines true with
            | (false, s) => s
            | (true, s) =>
              let c := s.core ci
              let g' := c.takeImages g .a lines
              if g'.sbOver then s.failOp ci gi num { cls := .sbufOverflow }
              else
                let r := atomaRun fn.toNat c.bufA o.accs bc
                let o := { o with ready := true, writes := regWrites o.dst 1 r.2.1, fl := w32 r.2.2 }
                s.setCore ci ({ c with bufA := r.1 }.setGroup gi (g'.setOp o))
        | _ => s

/-- Issue a buffer load or ATOMA and serve what can be served at once. -/
def State.startLocal (s : State) (g : Group) (flag : Option Nat) (mk : Nat → LongOp) : State :=
  let (ci, gi) := s.cur
  if g.flagFull flag then s.hold g
  else
    let n := (s.core ci).nextNum
    (s.startOp g flag mk fun _ c => c).serveLocal ci gi n

/-- The accesses of the active lanes to a typed buffer. -/
def localAccs (act : LaneMask) (size : Nat) (off : Nat → Nat) : List Access :=
  (maskLanes act).map fun l =>
    { lane := l, addr := off l, size := size, cache := 0, pol := 0, va := off l, got := none }

/-- A long-latency load from a typed buffer. -/
def bufLoadWord (b : Buf) (f : F1) (s : State) : Out :=
  withIssuer s fun c g =>
    let (x, act) := f1Ctx f s c g
    let size := sizeBytes f.fn.toNat
    match localCheck c g b act (loadOffset x f) size size with
    | some e => s.faultWord g e
    | none =>
      let flag := flagOf f.flag.toNat
      s.startLocal x.g flag fun num => LongOp.serveDone
        { LongOp.plain num flag g.pc (.bufLoad b) with
          ready := false, dst := f.d, size := f.fn,
          accs := localAccs act size (loadOffset x f) }

def execLdw (f : F1) (s : State) : Out := bufLoadWord .w f s
def execLda (f : F1) (s : State) : Out := bufLoadWord .a f s
def execLdc (f : F1) (s : State) : Out := bufLoadWord .c f s

def execAtoma (f : F1) (s : State) : Out :=
  withIssuer s fun c g =>
    let (x, act) := f1Ctx f s c g
    let off (l : Nat) : Nat := (x.rd f.a l).toNat
    match localCheck c g .a act off 4 4 with
    | some e => s.faultWord g e
    | none =>
      let flag := flagOf f.flag.toNat
      let bc := (maskLanes act).map fun l => (x.rd f.b l, w32 (x.count3 f.c l))
      s.startLocal x.g flag fun num =>
        { LongOp.plain num flag g.pc (.atoma f.fn bc) with
          ready := false, dst := f.d, size := 4,
          accs := localAccs act 4 off }

/-! ## PRES (R164) -/

/-- The buffer that FN[1:0] names. -/
def presBuf (fn : Nat) : Buf :=
  match fn % 4 with
  | 1 => .w
  | 2 => .a
  | _ => .c

/-- The presence bit of a line; a line beyond the partition reads 0. -/
def Core.presBit (c : Core) (b : Buf) (line : Nat) : Bool := decide (line * 128 < c.partSize b) && c.present b line

def execPres (f : F1) (s : State) : Out :=
  withIssuer s fun c g =>
    let (x, act) := f1Ctx f s c g
    let b := presBuf f.fn.toNat
    s.finish (x.g.setLanes f.d 1 ((maskLanes act).map fun l =>
      let ln := (x.rd f.a l).toNat / 128
      (l, if f.fn.toNat / 4 = 0 then bit01 (c.presBit b ln)
          else (List.range 32).foldl (fun m j => m + bit01 (c.presBit b (ln + j)) * 2 ^ j) 0)))

/-! ## PRESENCE_SET_RESUME (R158) -/

/-- The operations of a core that wait for lines of a typed buffer, in issue order. -/
def Core.waitingLocal (c : Core) : List (Nat × Nat) :=
  sortBy (fun a b => a.2 ≤ b.2)
    (c.groups.flatMap fun e => (e.2.ops.filter fun o => !o.ready && !o.dead && o.kind.buf?.isSome).map fun o => (e.1, o.num))

/-- Requests that wait for a line proceed in issue order. -/
def State.serveAll (s : State) (ci : Nat) : State :=
  ((s.core ci).waitingLocal).foldl (fun s e => s.serveLocal ci e.1 e.2) s

/-- NEIGHBOUR_DEPOSIT: a deposit reaches the core, behind the earlier ones of its commit to its line, and takes its place in the order of
the line's requests (R157). It is written once its line is present and not locked by an uncommitted group; requests behind it go on. The
commit that sent it counts it performed (R163). -/
def execNeighbourDeposit (core idx : Nat) (s : State) : Out :=
  let c := s.core core
  match c.deposits[idx]? with
  | none => .next s
  | some d =>
    let num := d.num.getD c.nextNum
    if (c.deposits.take idx).any (fun e => e.line == d.line && e.tile == d.tile && e.commit == d.commit) then .next s
    else if !c.presentFor num .a d.line || (c.groups.any fun e => e.2.locks .a d.line) || c.lineBusy num none .a d.line true then
      .next (s.setCore core { c with
        nextNum := max c.nextNum (num + 1)
        deposits := c.deposits.take idx ++ { d with num := some num } :: c.deposits.drop (idx + 1) })
    else
      let c := c.setBuf .a (d.bytes.foldl (fun m e => m.put 0 (d.line * 128 + e.1) e.2) c.bufA)
      let s := s.setCore core { c with deposits := c.deposits.eraseIdx idx }
      let done (r : CommitRec) : CommitRec := { r with deposits := r.deposits.erase d.epoch }
      .next ((s.modCore d.tile fun q => { q with commits := replaceIf (fun r => r.num == d.commit) done q.commits }).serveAll core)

/-- Groups parked on the line are ready when no earlier copy holds it absent for them. -/
def Core.wakeParked (c : Core) (b : Buf) (line : Nat) : Core :=
  { c with groups := c.groups.map fun e =>
      if e.2.status == .parked b line && c.presentFor (match e.2.place with | some p => p.1 | none => c.nextNum) b line
      then (e.1, { e.2 with status := .ready }) else e }

/-- A copy gave a line up: groups parked on it are ready, and requests that wait are served. -/
def State.wakeLine (s : State) (ci : Nat) (b : Buf) (line : Nat) : State :=
  (s.modCore ci fun c => c.wakeParked b line).serveAll ci

/-- PRESENCE_SET_RESUME: the presence bit of a line was set, and what waited for it goes on. What a copy still holds absent stays so. -/
def execPresenceSetResume (core : Nat) (buf : Buf) (line : Nat) (s : State) : Out := .next (s.wakeLine core buf line)

end Sys2Proof.Machine
end

