-- ==== Sys2Proof/Machine/Global.lean ====
section
/-! DEFINITION. The global access words (R272, R284 to R292): LDG, STG, FETCH, ATOM, RED, FENCE, BAR and CBAR, and how a load
finds its line (R105 to R111). -/

namespace Sys2Proof.Machine

/-! ## Addresses and checks (R285) -/

def causeGAlign : Nat := 1
def causeClass : Nat := 2

/-- A 64-bit base plus a signed offset, modulo 2^64. -/
def addrOf (base : DWord) (off : Int) : Nat := ofIntN ((base.toNat : Int) + off) 64

/-- The signed offset of a word: register or immediate, both sign-extended. -/
def signedOff (x : Ctx) (b : Operand) (c : Src3) (l : Nat) : Int :=
  match c with
  | .imm i => sextN i.toNat 8
  | .op _ => sextN (x.rd b l).toNat 32

def loadAddr (x : Ctx) (f : F1) (l : Nat) : Nat := addrOf (x.rd64 f.a l) (signedOff x f.b f.c l)
def storeAddr (x : Ctx) (f : F1) (l : Nat) : Nat :=
  match f.c with
  | .imm i => addrOf (x.rd64 f.a l) (sextN i.toNat 8)
  | .op o => addrOf (x.rd64 f.a l) (sextN (x.rd o l).toNat 32)
/-- FETCH, ATOM and RED have no offset. -/
def bareAddr (x : Ctx) (f : F1) (l : Nat) : Nat := (x.rd64 f.a l).toNat

/-- Check alignment, then translate the active lanes; `k` runs with each lane's place. Waiting and faulting are as R94, R100
and R285 say. -/
def withLanes (s : State) (x : Ctx) (act : LaneMask) (write : Bool) (al : Nat) (va : Nat → Nat)
    (k : State → Group → List (Nat × Target) → State) : State :=
  match firstCause .globalAccess act va [(causeGAlign, fun l => va l % al != 0)] with
  | some e => s.faultWord x.g e
  | none =>
    let w : Want := { write := write, priv := x.c.priv x.g, peer := false }
    match s.xlLanes s.cur.1 s.cur.2 x.c.cfg.asid w ((maskLanes act).map fun l => (l, va l)) with
    | .wait s => s.hold x.g
    | .fault e => s.faultWord x.g e
    | .ok s ts => k s (x.g.foot ((maskLanes act).map va)) ts

def targetPA : Target → Nat
  | .mem pa _ => pa
  | .peer _ _ tva => tva
def targetCache : Target → Nat
  | .mem _ c => c
  | .peer _ _ _ => 0

/-! ## Acquire and release (R280, R282) -/

/-- After an acquire, a load or FETCH waits for every earlier one and for every speculative use. -/
def Group.acqBlocked (g : Group) : Bool :=
  g.acqWait && ((g.ops.any fun o => !o.dead && !o.ready && (match o.kind with | .load _ _ _ | .fetch => true | _ => false)) ||
    g.validation.any fun v => !v.confirmed)

def orderAcq : Order → Bool
  | .acq | .ar => true
  | _ => false
def orderRel : Order → Bool
  | .rel | .ar => true
  | _ => false

/-- FENCE.rel before a word. -/
def Group.release (g : Group) (f : F1) : Group := if orderRel f.order then { g with fences := g.fences ++ [f.scope] } else g
/-- FENCE.acq after a word. -/
def Group.acquire (g : Group) (f : F1) : Group := if orderAcq f.order then { g with acqWait := true } else g

/-! ## How a load finds its line -/

/-- The bytes of an access in a line's data. -/
def lineSlice (data : List Byte) (addr n : Nat) : List Byte := (data.drop (addr % 128)).take n

/-- A request of the operation for the line stands at its slice, or at its owner. -/
def State.loadQueued (s : State) (ci ln num : Nat) : Bool :=
  [sliceAt s (dieOf ci) ln, fetchSlice s (dieOf ci) ln].any fun k => (s.slice k).queue.any fun q => match q.req with
    | .load c l n _ _ _ _ _ _ => c == ci && l == ln && n == num
    | .fetch c l n _ _ => c == ci && l == ln && n == num
    | _ => false

/-- The pending-line filter holds the line (R278). -/
def Core.pending (c : Core) (ln : Nat) : Bool := c.pendFilter.any fun x => x.1 == ln

/-- A renewal of an expired line starts unless one is on its way to the slice (R111); the number that the use waits for. -/
def State.renew (s : State) (ci : Nat) (l : L1Line) (ll halves : Nat) (lru : Bool) (pol : Nat) : Nat × State :=
  match (s.core ci).renewals.find? fun r => r.line == l.line && r.ver == l.ver && !r.back with
  | some r => (r.num, s)
  | none =>
    let n := (s.core ci).nextNum
    let r : Renewal := { num := n, line := l.line, ver := l.ver, lru := lru, back := false, newExp := 0, newVer := 0, data := [] }
    let s := s.modCore ci fun c => { c with nextNum := n + 1, renewals := c.renewals ++ [r] }
    let k := sliceAt s (dieOf ci) l.line
    (n, s.enqueue k (requester (dieOf ci) ci) (.load ci l.line n (some l.ver) ll false lru pol halves))

/-- R31, R111: the group may use an expired line before its renewal returns. -/
def Group.maySpeculate (g : Group) (l : L1Line) : Bool :=
  g.mismatches < 4 && ((g.validation.any fun v => v.line == l.line && v.ver == l.ver) || g.validation.length < 64)

/-- An access uses an expired line: the use joins the list, or its entry waits for the later renewal. The entry names the first word that
used the line and waits for it, with its lanes there and the lowest lane's address (R285). -/
def Group.speculate (g : Group) (l : L1Line) (num op word : Nat) (a : Access) : Group :=
  let same (v : SpecUse) : Bool := v.line == l.line && v.ver == l.ver
  let use : SpecUse := { line := l.line, ver := l.ver, num := num, confirmed := false, op := op, word := word,
                         lanes := laneMask1 a.lane, addr := a.va }
  let join (v : SpecUse) : SpecUse :=
    if v.confirmed then use
    else if v.op = op then { v with num := num, lanes := v.lanes ||| laneMask1 a.lane }
    else { v with num := num }
  if g.validation.any same then { g with validation := replaceIf same join g.validation }
  else { g with validation := g.validation ++ [use] }

/-- The halves of a line that the unserved accesses touch (R119). -/
def lineHalves (accs : List Access) (ln : Nat) : Nat :=
  halvesOf ((accs.filter fun a => a.addr / 128 == ln && a.got.isNone).map fun a => a.addr)

/-- An earlier load or FETCH of the group has not read the line: later ones wait, so that a block's reads of one location see writes in
non-decreasing order (R279). -/
def Core.readFirst (c : Core) (gi num ln : Nat) : Bool :=
  match c.group? gi with
  | none => false
  | some g => g.ops.any fun p => p.num < num && !p.dead && !p.ready && p.flt.isNone &&
      (match p.kind with | .load _ _ _ | .fetch => true | _ => false) && p.accs.any fun b => b.addr / 128 == ln && b.got.isNone

/-- One access of a load, not served yet: read at once when uncached, from a live or expired L1 line, or asked of the slice; a load of
L1POL 1 or a page of CACHE 1 takes no part in the L1 (R105). A line in the pending-line filter waits (R278), as does one that an earlier load
of the group has not read. -/
def resolveAccess (ci gi : Nat) (o : LongOp) (noAlloc lru : Bool) (ll : Nat) (acc : State × List Access) (a : Access) :
    State × List Access :=
  let (s, done) := acc
  let c := s.core ci
  let ln := a.addr / 128
  let keep := (s, done ++ [a])
  let hs := lineHalves o.accs ln
  let bare := noAlloc || a.cache == 1
  if a.got.isSome || c.pending ln || c.readFirst gi o.num ln then keep
  else if a.cache = 2 then (s, done ++ [{ a with got := some (s.uncachedBytes a.addr a.size) }])
  else
    let k := sliceAt s (dieOf ci) ln
    let ask (s : State) : State :=
      if s.loadQueued ci ln o.num then s
      else s.enqueue k (requester (dieOf ci) ci) (.load ci ln o.num none ll bare lru a.pol hs)
    match (if bare then .miss else c.l1Find (s.gtcAt (dieOf ci)) ln) with
    | .live l => (s, done ++ [{ a with got := some (lineSlice l.data a.addr a.size) }])
    | .miss => (ask s, done ++ [a])
    | .expired l =>
      match c.group? gi with
      | none => keep
      | some g =>
        let (n, s') := s.renew ci l ll hs lru a.pol
        if g.maySpeculate l then
          (s'.setGroup ci gi (g.speculate l n o.num o.word a), done ++ [{ a with got := some (lineSlice l.data a.addr a.size) }])
        else (s', done ++ [a])

/-- One access of a FETCH, asked of the slice where its core meets the line, on its way to the owner (R103, R275). -/
def resolveFetch (ci gi : Nat) (o : LongOp) (acc : State × List Access) (a : Access) : State × List Access :=
  let (s, done) := acc
  let ln := a.addr / 128
  if a.got.isSome || (s.core ci).pending ln || (s.core ci).readFirst gi o.num ln || s.loadQueued ci ln o.num then (s, done ++ [a])
  else
    (s.enqueue (sliceAt s (dieOf ci) ln) (requester (dieOf ci) ci) (.fetch ci ln o.num a.pol (lineHalves o.accs ln)), done ++ [a])

/-- The lines that a load has just read from the L1: accesses served now that need no slice (R107, R111, R399). -/
def l1Reads (before after : List Access) : List Nat :=
  (before.zip after).filterMap fun p => if p.1.got.isNone && p.2.got.isSome && p.1.cache == 0 then some (p.1.addr / 128) else none

/-- The lines join those that the group has used from the L1. -/
def Group.usesL1 (g : Group) (lines : List Nat) : Group := { g with l1used := dedup (g.l1used ++ lines) }

/-- Serve what can be served of a load or FETCH. -/
def State.serveGlobal (s : State) (ci gi num : Nat) : State :=
  match ((s.core ci).group? gi).bind fun g => g.ops.find? fun o => o.num == num with
  | none => s
  | some o =>
    if o.ready || o.dead || o.flt.isSome then s
    else
      let r := match o.kind with
        | .load noAlloc lru ll => o.accs.foldl (resolveAccess ci gi o noAlloc lru ll) (s, [])
        | .fetch => o.accs.foldl (resolveFetch ci gi o) (s, [])
        | _ => (s, o.accs)
      r.1.modCore ci fun c =>
        match c.group? gi with
        | some g => c.setGroup gi ((g.usesL1 (l1Reads o.accs r.2)).setOp { o with accs := r.2 }.serveDone)
        | none => c

/-- The bytes that the block has stored at the places of accesses (R272). -/
def Group.overlayOf (g : Group) (accs : List Access) : List (Nat × Byte) :=
  accs.flatMap fun a => (g.sbuf.filter fun b => b.line == a.addr / 128).flatMap fun b =>
    (b.bytes.map fun e => (b.line * 128 + e.1, e.2)).filter fun e => a.addr ≤ e.1 && e.1 < a.addr + a.size

/-- Issue a load or FETCH of the accesses and serve what can be served at once. -/
def State.startGlobal (s : State) (g : Group) (f : F1) (kind : OpKind) (overlay : Bool) (accs : List Access) : State :=
  let flag := flagOf f.flag.toNat
  if g.flagFull flag then s.hold g
  else
    let num := (s.core s.cur.1).nextNum
    let g' := { g with acqWait := false }.acquire f
    let mk (n : Nat) : LongOp := LongOp.serveDone
      { LongOp.plain n flag g.pc kind with ready := false, dst := f.d, size := f.fn, accs := accs,
                                           overlay := if overlay then g.overlayOf accs else [] }
    (s.startOp g' flag mk fun _ c => c).serveGlobal s.cur.1 s.cur.2 num

/-- An uncached access meets a poisoned line or an uncorrectable error (R397, R399). -/
def State.badLine (s : State) (ln : Nat) : Option Cls :=
  if s.poisoned.contains ln then some .linePoisoned else if s.memErr.contains ln then some .memError else none

def execLdg (f : F1) (s : State) : Out :=
  withIssuer s fun c g =>
    let (x, act) := f1Ctx f s c g
    if g.acqBlocked then s.hold g
    else
      withLanes s x act false (sizeBytes f.fn.toNat) (loadAddr x f) fun s g ts =>
        let accs := ts.map fun t => ({ lane := t.1, addr := targetPA t.2, size := sizeBytes f.fn.toNat,
                                       cache := targetCache t.2, pol := f.l2pol.toNat, va := loadAddr x f t.1, got := none } : Access)
        s.startGlobal g f (.load (f.l1pol == 1) (f.l1pol == 2) g.ll) true accs

/-- R285: CLASS, for atomics and FETCH. -/
def classCheck (ts : List (Nat × Target)) (va : Nat → Nat) : Option Flt :=
  match ts.filter fun t => targetCache t.2 == 2 || zoneOf (targetPA t.2) == .window with
  | [] => none
  | t :: rest => some { cls := .globalAccess, cause := causeClass, addr := va t.1,
                        lanes := maskOf fun l => (t :: rest).any fun u => u.1 == l }

def execFetch (f : F1) (s : State) : Out :=
  withIssuer s fun c g =>
    let (x, act) := f1Ctx f s c g
    if g.acqBlocked then s.hold g
    else
      withLanes s x act false (sizeBytes f.fn.toNat) (bareAddr x f) fun s g ts =>
        match classCheck ts (bareAddr x f) with
        | some e => s.faultWord g e
        | none =>
          let accs := ts.map fun t => ({ lane := t.1, addr := targetPA t.2, size := sizeBytes f.fn.toNat,
                                         cache := 0, pol := f.l2pol.toNat, va := bareAddr x f t.1, got := none } : Access)
          s.startGlobal g f .fetch false accs

/-! ## The store buffer (R272) -/

/-- The L2POL of a line on which words of two policies met: keep if one asks for it, else the most recently used place (log entry 150). -/
def polJoin (a b : Nat) : Nat := if a = 2 ∨ b = 2 then 2 else min a b

/-- The store-buffer line of a place, changed by `k`, or a new one. -/
def Group.onLine (g : Group) (ln : Nat) (uncached : Bool) (pol : Nat) (k : SbLine → SbLine) : Group :=
  let same (b : SbLine) : Bool := b.line == ln && b.uncached == uncached
  if g.sbuf.any same then { g with sbuf := replaceIf same (fun b => { k b with pol := polJoin b.pol pol }) g.sbuf }
  else
    let e := g.fences.length
    { g with sbuf := g.sbuf ++ [k { line := ln, bytes := [], ops := [], lo := e, hi := e, marks := [], uncached := uncached, pol := pol }] }

/-- A word's mark on a line: its lanes there and the lowest address (R101), and the fence epoch (R280). -/
def SbLine.mark (b : SbLine) (word l va epoch : Nat) : SbLine :=
  let ms := if b.marks.any fun m => m.1 == word then
      b.marks.map fun m => if m.1 = word then (word, m.2.1 ||| laneMask1 l, min m.2.2 va) else m
    else b.marks ++ [(word, laneMask1 l, va)]
  { b with marks := ms, hi := epoch }

/-- A line has one entry whatever the cache classes of its pages (R272): bytes that are stored anew leave the part of the other class. -/
def Group.shed (g : Group) (ln : Nat) (uncached : Bool) (offs : List Nat) : Group :=
  let part (b : SbLine) : Bool := b.line == ln && b.uncached == uncached
  let less (b : SbLine) : SbLine := if part b then { b with bytes := b.bytes.filter fun e => !offs.contains e.1 } else b
  { g with sbuf := (g.sbuf.map less).filter fun b => !(part b && b.bytes.isEmpty && b.ops.isEmpty) }

/-- Bytes stored by one lane. -/
def Group.storeBytes (g : Group) (pol word l va : Nat) (t : Target) (bs : List Byte) : Group :=
  let pa := targetPA t
  let g := g.shed (pa / 128) (targetCache t != 2) ((List.range bs.length).map fun i => pa % 128 + i)
  g.onLine (pa / 128) (targetCache t == 2) pol fun b =>
    let bytes := (List.range bs.length).foldl (fun m i => NMap.ins m (pa % 128 + i) ((bs[i]?).getD 0)) b.bytes
    { b with bytes := bytes }.mark word l va g.fences.length

/-- An operation placed by one lane. -/
def Group.placeOp (g : Group) (pol word l va : Nat) (t : Target) (op : AtomOp) : Group :=
  g.onLine (targetPA t / 128) false pol fun b => { b with ops := b.ops ++ [op] }.mark word l va g.fences.length

/-- Finish a word that placed effects, or abort the block for want of an entry (R27). -/
def State.finishStore (s : State) (g0 g : Group) : State :=
  if g.sbOver then s.faultWord g0 { cls := .sbufOverflow } else s.finish g

def execStg (f : F1) (s : State) : Out :=
  withIssuer s fun c g =>
    let (x, act) := f1Ctx f s c g
    withLanes s x act true (sizeBytes f.fn.toNat) (storeAddr x f) fun s g ts =>
      s.finishStore g (ts.foldl (fun g t => g.storeBytes f.l2pol.toNat g.pc t.1 (storeAddr x f t.1) t.2 (storeData x f t.1)) (g.release f))

/-! ## Atomics and reductions (R289, R290) -/

/-- The width in bytes of an atomic's word. -/
def atomBytes (fn : Nat) : Nat := if 12 ≤ fn then 8 else 4

/-- The new word of an operation, from the old word (R165, R289). -/
def atomNew (fn : Nat) (x b c : DWord) : DWord :=
  match fn with
  | 12 => x + b
  | 13 => b
  | 14 => if x = c then b else x
  | _ => w64 (atomaWord fn (loWord x) (loWord b) (loWord c)).bits

/-- Exit e of the group's block, as the address of a token to an instance (R62). -/
def dueOf (c : Core) (g : Group) (e i : Nat) (rscope : Scope) : TokenDue :=
  let x := hdrExit (c.slotHdr g) e
  { blk := BitVec.ofNat 12 x, slot := BitVec.ofNat 3 (x / 2 ^ 12), colour := BitVec.ofNat 12 g.colour,
    wlog := BitVec.ofNat 3 g.wlog, rscope := rscope, tag := g.tagOf i }

/-- The instances of em at collection, ascending (R22). -/
def Group.firedInsts (g : Group) : List Nat := g.activeInsts g.emFire

/-- The exit that a return field names. -/
def exitOf (o : Operand) : Option Nat := if o.code < 8 then some o.code else none

/-- Queue a descriptor for step 5 of commit (R28). -/
def Group.queue (g : Group) (it : SendItem) : Group := { g with sendq := g.sendq ++ [it] }

/-- ATOM and RED: the operations of the active lanes, and the return tokens of exit D. -/
def atomWord (s : State) (f : F1) : Out :=
  withIssuer s fun c g =>
    let (x, act) := f1Ctx f s c g
    let n := atomBytes f.fn.toNat
    withLanes s x act true n (bareAddr x f) fun s g ts =>
      match classCheck ts (bareAddr x f) with
      | some e => s.faultWord g e
      | none =>
        let g0 := g
        let rel := g.release f
        let ret (l : Nat) : Option (Nat × Nat) :=
          (exitOf f.d).map fun _ => (32 * g0.sendq.length + g0.instOf l, l % g0.width)
        let val (o : Operand) (l : Nat) : DWord := x.rdN (n / 4) o l
        let cmp (l : Nat) : DWord := match f.c with
          | .op o => val o l
          | .imm _ => 0
        let g := ts.foldl (fun g t =>
          g.placeOp f.l2pol.toNat g.pc t.1 (bareAddr x f t.1) t.2
            { addr := targetPA t.2, fn := f.fn, b := val f.b t.1, c := cmp t.1, word := g.pc, ret := ret t.1 }) rel
        let g := match exitOf f.d with
          | none => g
          | some e => g.firedInsts.foldl (fun g i =>
              g.queue (.atomRet (32 * g0.sendq.length + i) (dueOf c g0 e i f.scope) (n / 4))) g
        s.finishStore g0 g

def execAtom (f : F1) (s : State) : Out := atomWord s f
def execRed (f : F1) (s : State) : Out := atomWord s f

/-! ## Fences and barriers (R291, R292) -/

def execFence (f : F1) (s : State) : Out := withIssuer s fun _ g => s.finish ((g.release f).acquire f)

/-- R292: the count, from the lowest lane of em at collection or the immediate, between 1 and 16,777,215. -/
def barCount (x : Ctx) (f : F1) : Nat :=
  let v := match f.c with
    | .imm b => b.toNat
    | .op _ => match leader? x.g.emFire with
      | some l => (x.rd f.a l).toNat
      | none => 0
  min (max v 1) 16777215

/-- BAR and CBAR: one arrival on the channel at commit, however many times the word issues; its count is that of the word issued first (log
entry 172). -/
def barWord (s : State) (f : F1) (clus : Bool) : Out :=
  withIssuer s fun c g =>
    let (x, _) := f1Ctx f s c g
    let ch := f.fn.toNat
    let g := (x.g.release f).acquire f
    let g := if g.bars.any fun b => b.1 == clus && b.2.1 == ch then g
      else { g with bars := g.bars ++ [(clus, ch, barCount x f)] }
    s.finish g

def execBar (f : F1) (s : State) : Out := barWord s f false
def execCbar (f : F1) (s : State) : Out := barWord s f true

end Sys2Proof.Machine
end

