-- ==== Sys2Proof/Machine/CacheCtl.lean ====
section
/-! DEFINITION. Cache-control words (R124 to R128). -/

namespace Sys2Proof.Machine

/-- The failures that walks left for a group are used up: the next access walks again (R93). -/
def State.dropFails (s : State) (ci gi : Nat) : State :=
  let d := s.die (dieOf ci)
  s.setDie (dieOf ci) { d with failed := d.failed.filter fun f => f.who != groupNum ci gi }

/-- A hint waits at issue for the walks of its lanes (R94), then runs for each active lane that translates to memory; a failure drops its
lane's part (R125, R126). The pages translated join the group's footprint (R99). -/
def hintWord (s : State) (f : F1) (k : State → Group → Nat → Nat → State) : Out :=
  withIssuer s fun c g =>
    let (x, act) := f1Ctx f s c g
    let (ci, gi) := s.cur
    let w : Want := { write := false, priv := c.priv g, peer := false }
    let ls := maskLanes act
    let asid := c.cfg.asid
    let lane (s : State) (l : Nat) : LaneXl := laneXl s ci (groupNum ci gi) asid (loadAddr x f l) w
    let misses := ls.filterMap fun l => match lane s l with
      | .miss => some (loadAddr x f l / 4096)
      | _ => none
    if !misses.isEmpty then
      (s.setDie (dieOf ci) (misses.foldl (fun d p => d.addMiss asid p (w.by (groupNum ci gi))) (s.die (dieOf ci)))).hold x.g
    else
      let hits := ls.filter fun l => match lane s l with
        | .hit _ _ => true
        | _ => false
      let s := ls.foldl (fun s l =>
        match lane s l with
        | .hit (.mem pa cache) e => k (s.modCore ci fun c => c.fillTlb e) g pa cache
        | _ => s) s
      (s.dropFails ci gi).finish (x.g.foot (hits.map (loadAddr x f)))

/-- A line that a prefetch may bring nearer: cached, and in no lost region (R125). -/
def prefetchable (s : State) (pa cache : Nat) : Bool := cache != 2 && zoneOf pa != .window && !s.lostPA pa

/-- CPREF.L1: as a load that misses (R125). -/
def execCprefL1 (f : F1) (s : State) : Out :=
  hintWord s f fun s g pa cache =>
    let ln := pa / 128
    if !prefetchable s pa cache then s
    else
      s.enqueue (sliceAt s (dieOf s.cur.1) ln) (requester (dieOf s.cur.1) s.cur.1)
        (.load s.cur.1 ln 0 none g.ll (cache == 1 || f.l1pol == 1) (f.l1pol == 2) f.l2pol.toNat (halvesOf [pa]))

/-- The line comes to a slice that holds the permits it needs: the device-level home has it from the pool or the host first (R117, R119).
A hint that finds no room is dropped. -/
def State.prefetched (s : State) (k ln halves pol : Nat) (write : Bool) : State :=
  ((s.poolAcquire ln write).hostAcquire ln halves write |>.placeLine k ln pol).getD s

/-- CPREF.L2 and CPREF.EX: the line is placed in the die's slice, which asks for the permits that it lacks. -/
def prefetchWord (write : Bool) (f : F1) (s : State) : Out :=
  hintWord s f fun s _ pa cache =>
    let ln := pa / 128
    let k := sliceAt s (dieOf s.cur.1) ln
    if !prefetchable s pa cache then s
    else if s.permitsAt k ln < (if write then 32 else 1) then s.ask k ln write f.l2pol.toNat
    else s.prefetched k ln (if write then 3 else halvesOf [pa]) f.l2pol.toNat write

def execCprefL2 (f : F1) (s : State) : Out := prefetchWord false f s
def execCprefEx (f : F1) (s : State) : Out := prefetchWord true f s

/-- CINV.LINE: a lane that translates to memory drops its line from the L1, a lost pool line too (R126). -/
def execCinvLine (f : F1) (s : State) : Out := hintWord s f fun s _ pa _ => s.modCore s.cur.1 fun c => c.l1Drop (pa / 128)

def execCinvAll (f : F1) (s : State) : Out :=
  withIssuer s fun _ g =>
    if g.active f.g = 0 then s.finish g else (s.modCore s.cur.1 fun c => { c with l1 := [] }).finish g

/-- CFLUSH.LINE waits in the send queue (R127); uncached lines take no part. -/
def execCflushLine (f : F1) (s : State) : Out :=
  withIssuer s fun c g =>
    let (x, act) := f1Ctx f s c g
    let va (l : Nat) : Nat := loadAddr x f l
    let w : Want := { write := false, priv := c.priv g, peer := false }
    match s.xlLanes s.cur.1 s.cur.2 c.cfg.asid w ((maskLanes act).map fun l => (l, va l)) with
    | .wait s => s.hold g
    | .fault e => s.faultWord g e
    | .ok s ts =>
      let g := x.g.foot ((maskLanes act).map va)
      let cached := ts.filter fun t => targetCache t.2 != 2 && zoneOf (targetPA t.2) != .window
      s.finish (g.queue (.flush (dedup (cached.map fun t => targetPA t.2 / 128)) false g.fences.length))

def execCflushDie (f : F1) (s : State) : Out :=
  withIssuer s fun c g =>
    privileged s c g (s.finish (if g.active f.g = 0 then g else g.queue (.flush [] true g.fences.length)))

/-- R128: LL from the lowest active lane, or the immediate. -/
def lsetLen (x : Ctx) (f : F1) (l : Nat) : Nat :=
  match f.c with
  | .imm b => if b = 0 then 2048 else b.toNat * 256
  | .op _ => let v := (x.rd f.a l).toNat; if v = 0 then 2048 else min (max v 64) 65536

def execLset (f : F1) (s : State) : Out :=
  withIssuer s fun c g =>
    let (x, act) := f1Ctx f s c g
    match leader? act with
    | none => s.finish x.g
    | some l => s.finish { x.g with ll := lsetLen x f l }

end Sys2Proof.Machine
end

