-- ==== Sys2Proof/Machine/Send.lean ====
section
/-! DEFINITION. What leaves a commit: visibility at a scope (R277, R278, R281), the delivery of tokens (R13, R14), spans
(R314), dead letters (R298, R299), the guards of the package mesh (R297, R440), and records of effects that fail after step 3
(R276, R383). -/

namespace Sys2Proof.Machine

/-! ## Scopes -/

def scopeRank : Scope → Nat
  | .grp => 0
  | .team => 1
  | .clus => 2
  | .die => 3
  | .dev => 4
  | .dom => 5
  | .pool => 6
  | .sys => 7
def scopeMax (a b : Scope) : Scope := if scopeRank a < scopeRank b then b else a

/-- The smallest scope around core `ci` that contains core `cj` (R281). -/
def State.scopeTo (s : State) (ci cj : Nat) : Scope :=
  if ci = cj then .team
  else if dieOf ci ≠ dieOf cj then .dev
  else if (s.core ci).region.isSome && (s.core ci).region == (s.core cj).region && (s.core ci).cfg.clus == (s.core cj).cfg.clus
    then .clus
  else .die

/-! ## Visibility (R278) -/

def Core.commit? (c : Core) (n : Nat) : Option CommitRec := c.commits.find? fun r => r.num == n
def Core.setCommit (c : Core) (n : Nat) (f : CommitRec → CommitRec) : Core :=
  { c with commits := replaceIf (fun r => r.num == n) f c.commits }

/-- Nothing of a commit waits any more. -/
def CommitRec.done (r : CommitRec) : Bool :=
  r.lines.isEmpty && r.deposits.isEmpty && r.flushes.isEmpty && r.remote.isEmpty && r.uncached.isEmpty

/-- The lines of the earlier commits that were pending are performed. -/
def Core.earlierDone (c : Core) (r : CommitRec) : Bool :=
  r.before.all fun n => match c.commit? n with
    | some q => q.lines.isEmpty && q.uncached.isEmpty
    | none => true

def Core.visClus (c : Core) (r : CommitRec) : Bool := r.lines.isEmpty && r.deposits.isEmpty && c.earlierDone r
def Core.visDev (c : Core) (r : CommitRec) : Bool := c.visClus r && r.flushes.isEmpty
def Core.visDom (c : Core) (r : CommitRec) : Bool := c.visDev r && r.remote.isEmpty

/-- A commit's effects are visible at a scope. -/
def Core.visible (c : Core) (n : Nat) (sc : Scope) : Bool :=
  match c.commit? n with
  | none => true
  | some r =>
    match sc with
    | .grp | .team => r.entered || c.visClus r
    | .clus => c.visClus r
    | .die | .dev => c.visDev r
    | .dom | .pool => c.visDom r
    | .sys => c.visDom r && r.uncached.isEmpty

/-- A descriptor that performs a remote store, put or atomic (R278). -/
def SendItem.remoteWrite : SendItem → Bool
  | .remote .rld _ _ _ _ _ => false
  | .remote _ _ _ _ _ _ => true
  | .copy x => x.form == .rput
  | _ => false

/-- Remote stores, puts and atomics of the commit that have not left yet. -/
def Core.remoteWaits (c : Core) (n : Nat) : Bool :=
  (c.outbox.any fun o => o.commit == n && o.item.remoteWrite) ||
    c.courier.any fun x => x.commit == n && x.form == .rput

/-- Every flush of a commit has completed (R127). -/
def Core.flushed (c : Core) (n : Nat) : Bool :=
  match c.commit? n with
  | some r => r.flushes.isEmpty
  | none => true

/-- A token may be delivered at a scope: every effect of its commit is visible there (R281), and its flushes have completed (R127). -/
def Core.tokenVisible (c : Core) (n : Nat) (sc : Scope) : Bool :=
  c.visible n sc && c.flushed n && (scopeRank sc < 5 || !c.remoteWaits n)

/-! ## Tokens -/

/-- The token that a due names, with its payload. -/
def TokenDue.token (d : TokenDue) (payload : List Word) : Token :=
  { kind := .normal, blk := d.blk, slot := d.slot, colour := d.colour, wlog := d.wlog, rscope := d.rscope, tag := d.tag,
    payload := payload }

/-- Queue an item at a core to leave under R281. -/
def Core.post (c : Core) (commit grp : Nat) (scope : Scope) (it : SendItem) : Core :=
  { c with outbox := c.outbox ++ [{ commit := commit, grp := grp, asid := c.cfg.asid, scope := scope, bars := [], after := [], sent := false, item := it }] }

/-- A due token with its payload joins the sending core's outbox. -/
def Core.postDue (c : Core) (commit grp : Nat) (d : TokenDue) (payload : List Word) : Core :=
  c.post commit grp d.rscope (.token (d.token payload))

/-- Where a token goes: its home core, or the counting core of a sink for an end-of-stream token (R13, R362). A block that no
core holds is met at the first core of the grid. -/
def State.tokenCore (s : State) (r : Region) (ci : Nat) (t : Token) : Nat :=
  match t.kind with
  | .eos => s.routeTile r ci 0
  | _ => (s.homeCore r ci t.blk.toNat t.tag.toNat).getD (s.routeTile r ci 0)

/-! ## Dead letters (R298, R299) -/

/-- A dead-letter record in an ASID's area; no handler token follows the loss of a handler token (R384). -/
def State.deadLetter (s : State) (asid src die : Nat) (tail : List DWord) (handlerLost : Bool) (who : Option Nat) : State :=
  (s.raise asid src die .deadLetter false false tail who handlerLost).2

/-- A core's token as it stands at the input of a core of its device; it counts in its region's totals (R360). -/
def State.ownToken (s : State) (ci : Nat) (t : Token) : InTok :=
  let p := s.meshPacket ci t
  { tok := t, key := p.key, inc := p.inc, tasid := p.tasid, srcDev := p.srcDev, srcCore := p.srcCore, counted := true, grp := none,
    frame := none }

/-- Deliver a token of a region's core to the input of its core (R13); it counts as sent (R360). A guard on its way that stops it
drops it with a record in the sender's area (R297, R299, R416). -/
def State.deliver (s : State) (ci : Nat) (grp : Option Nat) (t : Token) (frame : Option Nat) : State :=
  match s.coreRegion? ci with
  | none => s
  | some r =>
    let dst := match frame with
      | some _ => ci
      | none => s.tokenCore r ci t
    match s.guardStop ci dst with
    | some (tile, edge) =>
      s.deadLetter (s.core ci).cfg.asid (srcCore tile) (dieOf tile)
        (deadTail dlParapet (if edge then 4 else 3) (placeTile tile) (s.meshPacket ci t)) (t.kind == .handler) none
    | none =>
      let s := s.modCore ci fun c => { c with sent := c.sent + 1 }
      s.toInbox dst { s.ownToken ci t with grp := grp, frame := frame }

/-! ## Records after step 3 (R383) -/

/-- Word 2 of a record about a committed block: CAUSE and WORD over BID, COLOUR, SLOT and GRP. -/
def lateWord2 (base cause word : Nat) : Nat := cause % 256 * 2 ^ 56 + word % 256 * 2 ^ 48 + base % 2 ^ 48

/-- BID, COLOUR, SLOT and GRP of a group (R383). -/
def word2Base (bid colour bslot gi : Nat) : Nat := bid * 2 ^ 32 + colour * 2 ^ 16 + bslot * 2 ^ 8 + gi

/-- A record of a core that parks nothing, followed by its handler token. -/
def State.lateRecord (s : State) (ci : Nat) (cls : Cls) (tail : List DWord) : State :=
  (s.raise (s.core ci).cfg.asid (srcCore ci) (dieOf ci) cls false false tail (some ci) false).2

/-! ## Spans (R313, R314) -/

/-- Bytes of credit of a span's producer: 32 credits of 128 bytes. -/
def spanCredit : Nat := 4096

/-- The span of a region with a handle, by its place in the list of spans. -/
def State.spanIx (s : State) (num handle : Nat) : Option Nat :=
  s.spans.findIdx? fun x => x.region == num && x.handle == handle

/-- The span of a core's region with a handle. -/
def State.coreSpan (s : State) (ci handle : Nat) : Option (Nat × Span) :=
  ((s.core ci).region.bind fun num => s.spanIx num handle).bind fun i => (s.spans[i]?).map fun x => (i, x)

def State.setSpan (s : State) (i : Nat) (x : Span) : State := { s with spans := s.spans.set i x }

/-- Words that have credit enter the span. -/
def Span.flush (x : Span) : Span :=
  let n := min x.waiting.length (x.credits / 4)
  { x with waiting := x.waiting.drop n, flight := x.flight ++ x.waiting.take n, credits := x.credits - 4 * n,
           sentBytes := x.sentBytes + 4 * n }

/-- Push words; a broken span discards them (R317). -/
def Span.push (x : Span) (ws : List Word) : Span :=
  if x.broken then x else { x with waiting := x.waiting ++ ws }.flush

/-- The consumer takes bytes: credits of 128 bytes return (R314). -/
def Span.take (x : Span) (bytes : Nat) : Span :=
  let n := x.takenBytes + bytes
  { x with takenBytes := n, credits := x.credits + 128 * (n / 128 - x.takenBytes / 128) }.flush

/-- The forms that push words on a span. -/
def CopyForm.pushesSpan : CopyForm → Bool
  | .spout | .spoutc => true
  | _ => false

/-- An item that pushes words on a span. -/
def SendItem.pushes (it : SendItem) (span : Nat) : Bool :=
  match it with
  | .spw sp _ _ => sp == span
  | .copy x => x.form.pushesSpan && x.span == span
  | _ => false

/-- Commands of the engine that push on a span. -/
def Core.spanCopies (c : Core) (span : Nat) : List CopyCmd :=
  c.courier.filter fun x => x.form.pushesSpan && x.span == span

end Sys2Proof.Machine
end

