-- ==== Sys2Proof/Machine/Courier.lean ====
section
/-! DEFINITION. The Courier words (R129 to R141) and the progress of the engine's copies (R142 to R148). -/

namespace Sys2Proof.Machine

/-! ## Commands from words (R133) -/

/-- The operands an F4 word reads, for the GTC latch. -/
def f4Ctx (f : F4) (s : State) (c : Core) (g : Group) : Ctx × LaneMask :=
  let act := g.active f.g
  ((⟨s, c, g⟩ : Ctx).latch act ([f.a, f.b] ++ (match f.c with | .op o => [o] | .imm _ => [])), act)

/-- The buffer that TBUF names; CPYSP.OUTC reads C, the other span forms A. -/
def tbufOf (n : Nat) (form : CopyForm) : Buf :=
  match n, form with
  | 1, _ => .w
  | 3, _ => .c
  | _, .spoutc => .c
  | _, _ => .a

/-- A command of the group at its word, with every operand field zero. -/
def copyBase (x : Ctx) (word : Nat) (form : CopyForm) (buf : Buf) (l : Nat) : CopyCmd :=
  { num := 0, form := form, buf := buf, grp := x.s.cur.2, bid := x.g.bid, bslot := x.g.bslot, commit := 0, word := word,
    colour := x.g.colour, asid := x.c.cfg.asid, priv := x.c.priv x.g, dst := 0, src := 0, off := 0, len := 0, rows := 0,
    rowb := 0, pitch := 0, esize := 0, lanes := [], pattern := 0, span := 0, rel := none, due := [], tok := false,
    notify := none, remote := none, mc := none, running := false, doneLines := [], status := 0, cause := 0,
    stamp := x.g.stamp, lead := l, moved := 0, again := false, got := [], sent := false, target := 0, base := 0, part := 0, urgent := [] }

/-- The fill pattern: the register, or the sign-extended immediate (R133). -/
def patternOf (x : Ctx) (o : Operand) (c : Src3) (l : Nat) : Word :=
  match c with
  | .imm b => w32 (ofIntN (sextN b.toNat 8) 32)
  | .op _ => x.rd o l

/-- The third operand of a fill into a buffer, as a register. -/
def src3Op : Src3 → Operand
  | .op o => o
  | .imm _ => .zero

/-- Read the operands of a form from the leader lane, and the per-lane elements. -/
def copyRead (x : Ctx) (f : F4) (act : LaneMask) (l : Nat) (k : CopyCmd) : CopyCmd :=
  let desc := (x.rd64 f.desc l).toNat
  let a := (x.rd f.a l).toNat
  let b := (x.rd f.b l).toNat
  let c := x.count3 f.c l
  match k.form with
  | .mm | .pmm => { k with dst := desc, src := (x.rd64 f.a l).toNat, len := b }
  | .inn | .pin => { k with src := desc, off := a, len := b }
  | .out | .pout => { k with dst := desc, off := a, len := b }
  | .tin => { k with src := desc, off := a, rows := b / 2 ^ 16, rowb := b % 2 ^ 16, pitch := sextN c 32 }
  | .tout => { k with dst := desc, off := a, rows := b / 2 ^ 16, rowb := b % 2 ^ 16, pitch := sextN c 32 }
  | .gin => { k with src := desc, off := b, esize := c,
                     lanes := (maskLanes act).map fun j => (j, sextN (x.rd f.a j).toNat 32) }
  | .sout => { k with dst := desc, off := b, esize := c,
                      lanes := (maskLanes act).map fun j => (j, sextN (x.rd f.a j).toNat 32) }
  | .fmm => { k with dst := desc, len := a, pattern := patternOf x f.b f.c l }
  | .fin => { k with off := a, len := b, pattern := patternOf x (src3Op f.c) f.c l }
  | .spin | .spout | .spoutc => { k with span := a, off := b, len := c }
  | .rput | .rget | .mcput => k

/-! ## Issue checks (R135) -/

def usesBuf (k : CopyForm) : Bool := k.immediate || k.readsBuf
def isGather : CopyForm → Bool
  | .gin | .sout => true
  | _ => false
def isSpan : CopyForm → Bool
  | .spin | .spout | .spoutc => true
  | _ => false
def isPool : CopyForm → Bool
  | .pmm | .pin | .pout => true
  | _ => false
/-- The forms whose destination, or source, is memory of the device. -/
def dstMem : CopyForm → Bool
  | .mm | .out | .tout | .sout | .fmm | .pmm | .pout | .rget => true
  | _ => false
def srcMem : CopyForm → Bool
  | .mm | .inn | .tin | .gin | .pmm | .pin | .rput | .mcput => true
  | _ => false

/-- The memory ranges of a command, destination first, as (base, write). -/
def CopyCmd.ranges (k : CopyCmd) : List (Nat × Bool) :=
  (if dstMem k.form then [(k.dst, true)] else []) ++ (if srcMem k.form then [(k.src, false)] else [])

def elementSizes : List Nat := [4, 8, 16, 32, 64, 128]

/-- RANGE: the lanes whose buffer range breaks the partition. -/
def copyRange (c : Core) (k : CopyCmd) : LaneMask :=
  let part := c.partSize k.buf
  if !usesBuf k.form || k.size = 0 then 0
  else if isGather k.form then maskOf fun l => k.lanes.any fun e => e.1 == l && decide (part < k.off + k.esize * l + k.esize)
  else if part < k.off + k.size then laneMask1 k.lead else 0

/-- ALIGN: a buffer offset, length, ROWB, memory address or pitch of a form other than CPY.MM is not a multiple of 4. -/
def copyAlign (k : CopyCmd) : Bool :=
  k.form != .mm && (k.off % 4 != 0 || k.len % 4 != 0 || k.rowb % 4 != 0 || k.pitch % 4 != 0 || k.ranges.any fun r => r.1 % 4 != 0)

def copyElement (k : CopyCmd) : Bool :=
  isGather k.form && (!elementSizes.contains k.esize || k.off % k.esize != 0 || k.ranges.any fun r => r.1 % k.esize != 0)

def copyOverlap (k : CopyCmd) : Bool :=
  k.form == .mm && k.len != 0 && decide (k.dst < k.src + k.len) && decide (k.src < k.dst + k.len)

/-- SPAN: the handle names no end of this core of the kind that the form needs. -/
def copySpan (s : State) (ci : Nat) (k : CopyCmd) : Bool :=
  isSpan k.form &&
    match s.coreSpan ci k.span with
    | none => true
    | some (_, x) => if k.form == .spin then x.consumer != ci else x.producer != ci

/-- The first failing check of 0x01 to 0x05, with its lanes. -/
def copyCheck (s : State) (ci : Nat) (c : Core) (k : CopyCmd) : Option (Nat × LaneMask) :=
  let one := laneMask1 k.lead
  if copyRange c k ≠ 0 then some (1, copyRange c k)
  else if copyAlign k then some (2, one)
  else if copyElement k then some (3, one)
  else if copyOverlap k then some (4, one)
  else if copySpan s ci k then some (5, one)
  else none

/-- The places to translate at issue, as (lane, address, write): the first page of each range, or each element. -/
def CopyCmd.firsts (k : CopyCmd) : List (Nat × Nat × Bool) :=
  if k.size = 0 then []
  else if isGather k.form then
    k.ranges.flatMap fun r => (List.range k.lanes.length).map fun i => ((k.elem (i * k.esize)).1, k.memAt r.1 (i * k.esize), r.2)
  else k.ranges.map fun r => (k.lead, r.1, r.2)

/-- What translating a command at issue gives. -/
inductive CopyXl where
  | wait (s : State)
  | fault (f : Flt)
  | ok (s : State)

/-- R135: translation, the pool-region check except for CPYP, and check POOL. The word waits at issue for its walks (R94). -/
def copyXl (s : State) (ci gi : Nat) (k : CopyCmd) : CopyXl :=
  let want (w : Bool) : Want := { write := w, priv := k.priv, peer := false }
  match s.xlPlaces ci (groupNum ci gi) k.asid (k.firsts.map fun p => (p.1, p.2.1, want p.2.2)) with
  | .wait s => .wait s
  | .fail fs => .fault (xlFault fs)
  | .ok s' ts =>
    let good := ts.filterMap fun t => match t.2.2 with
      | .mem pa _ => some (t.1, t.2.1, pa)
      | .peer _ _ _ => none
    let lost := good.filter fun e => s'.lostPA e.2.2 && !isPool k.form
    match lost with
    | e :: _ => .fault { cls := .poolRegion, addr := e.2.1, lanes := maskOf fun l => lost.any fun x => x.1 == l }
    | [] =>
      let pools := (good.filter fun e => zoneOf e.2.2 == .pool).length
      if isPool k.form ∧ !good.isEmpty ∧ pools ≠ 1 then
        .fault { cls := .courierOperand, cause := 6, lanes := laneMask1 k.lead }
      else .ok s'

/-! ## Issue -/

/-- The completion token of a word: exit TEXIT, the group's colour, the leader's tag (R146). -/
def copyDue (x : Ctx) (f : F4) (tag : Word) (sc : Scope) : TokenDue :=
  { dueOf x.c x.g f.texit.toNat 0 sc with tag := tag }

/-- The landing record of a span's consumer end (R141). -/
def Core.landingOf (c : Core) (i : Nat) : Landing :=
  (c.landing.find? fun y => y.span == i).getD { span := i, words := [], record := none, owner := 0, saved := [] }
def Core.setLanding (c : Core) (y : Landing) : Core :=
  { c with landing := c.landing.filter (fun z => z.span != y.span) ++ [y] }

/-- A CPYSP.IN repeats the record, or discards it and starts its own, under the number of its command. -/
def Core.landRecord (c : Core) (g : Group) (i : Nat) (k : CopyCmd) : CopyCmd × Core :=
  let y := c.landingOf i
  let key := ((g.insts[0]?).getD 0, k.off, k.len)
  if y.record == some key && (g.replaying || g.resumes != 0) then ({ k with again := true }, c)
  else (k, c.setLanding { y with record := some key, owner := k.num, saved := [] })

/-- An immediate command enters the queue: its flag is marked and its destination lines are absent (R132, R142). Commands that the engine has
begun count among the 32 of R129 until they end (log entry 167). -/
def startCopy (s : State) (x : Ctx) (f : F4) (k : CopyCmd) : State :=
  let flag := flagOf f.flag.toNat
  let ci := s.cur.1
  if 32 ≤ (s.core ci).courier.length || x.g.flagFull flag then s.hold x.g
  else
    let num := (s.core ci).nextNum
    let tok := copyDue x f (x.g.tagOf (x.g.instOf k.lead)) .dev
    let g := if f.tok then x.g.queue (.copyTok num tok) else x.g
    let mk (n : Nat) : LongOp := { LongOp.plain n flag x.g.pc .courier with ready := false }
    let chg (n : Nat) (c : Core) : Core :=
      let (k, c) := match (if k.form == .spin then s.coreSpan ci k.span else none) with
        | some (i, _) => c.landRecord x.g i { k with num := n }
        | none => (k, c)
      let k := { k with num := n, tok := f.tok, due := [tok] }
      { c with courier := c.courier ++ [k], absent := c.absent ++ k.bufLines.map fun ln => (k.buf, ln, n) }
    s.startOp g flag mk chg

/-- A word with no active lane makes no command: its flag is marked and cleared, and a completion token is queued, or sent after step 5
for a deferred form (R146). No lane leads, so the tag is a free value (assumption log). -/
def emptyCopy (s : State) (x : Ctx) (f : F4) (form : CopyForm) : State :=
  let flag := flagOf f.flag.toNat
  if form.immediate && x.g.flagFull flag then s.hold x.g
  else
    let (n, s) := s.fresh
    let tok := copyDue x f (w32 (Config.freeChoice n)) .dev
    let g := if f.tok then x.g.queue (if form.immediate then .token (tok.token [0, 0]) else .lateTok tok [0, 0]) else x.g
    if form.immediate then s.startOp g flag (fun num => LongOp.plain num flag x.g.pc .result) fun _ c => c
    else s.finish g

/-- A Courier word of a form. -/
def copyWord (form : CopyForm) (f : F4) (s : State) : Out :=
  withIssuer s fun c g =>
    let (x, act) := f4Ctx f s c g
    match leader? act with
    | none => emptyCopy s x f form
    | some l =>
      let k := copyRead x f act l (copyBase x g.pc form (tbufOf f.tbuf.toNat form) l)
      match copyCheck s s.cur.1 c k with
      | some e => s.faultWord g { cls := .courierOperand, cause := e.1, lanes := e.2 }
      | none =>
        match copyXl s s.cur.1 s.cur.2 k with
        | .wait s => s.hold x.g
        | .fault e => s.faultWord g e
        | .ok s =>
          let x := { x with g := x.g.foot (k.firsts.map fun p => p.2.1) }
          if form.immediate then startCopy s x f k
          else
            let due := if f.tok then [copyDue x f (g.tagOf (g.instOf l)) .dev] else []
            s.finish (x.g.queue (.copy { k with tok := f.tok, due := due }))

def execCpyMm (f : F4) (s : State) : Out := copyWord .mm f s
def execCpyIn (f : F4) (s : State) : Out := copyWord .inn f s
def execCpyOut (f : F4) (s : State) : Out := copyWord .out f s
def execCpytIn (f : F4) (s : State) : Out := copyWord .tin f s
def execCpytOut (f : F4) (s : State) : Out := copyWord .tout f s
def execCpygIn (f : F4) (s : State) : Out := copyWord .gin f s
def execCpysOut (f : F4) (s : State) : Out := copyWord .sout f s
def execCpyfMm (f : F4) (s : State) : Out := copyWord .fmm f s
def execCpyfIn (f : F4) (s : State) : Out := copyWord .fin f s
def execCpypMm (f : F4) (s : State) : Out := copyWord .pmm f s
def execCpypIn (f : F4) (s : State) : Out := copyWord .pin f s
def execCpypOut (f : F4) (s : State) : Out := copyWord .pout f s
def execCpyspIn (f : F4) (s : State) : Out := copyWord .spin f s
def execCpyspOut (f : F4) (s : State) : Out := copyWord .spout f s
def execCpyspOutc (f : F4) (s : State) : Out := copyWord .spoutc f s

/-! ## Progress of the engine -/

/-- Why a copy stops: STATUS and CAUSE of R147, with the level and address of a block fault (R148). -/
structure CopyStop where
  status : Nat
  cause : Nat
  level : Nat
  addr : Nat
  deriving DecidableEq, Repr

/-- The destination place of byte j, and the destination lines in ascending order (R129). -/
def CopyCmd.dstAt (k : CopyCmd) (j : Nat) : Nat := if k.form.immediate then k.bufAt j else k.memAt k.dst j
def CopyCmd.units (k : CopyCmd) : List Nat := sortBy (· ≤ ·) (dedup ((List.range k.size).map fun j => k.dstAt j / 128))
def CopyCmd.bytesOf (k : CopyCmd) (u : Nat) : List Nat := (List.range k.size).filter fun j => k.dstAt j / 128 == u
/-- The destination line is written whole. -/
def CopyCmd.whole (k : CopyCmd) (u : Nat) : Bool :=
  (List.range 128).all fun i => (k.bytesOf u).any fun j => k.dstAt j % 128 == i

/-- R135: the pool range holds the page at `pa` as it holds the range's first page. -/
def poolLike (s : State) (ci : Nat) (k : CopyCmd) (base pa : Nat) (write : Bool) : Bool :=
  match s.translateNow ci k.asid base { write := write, priv := k.priv, peer := false } with
  | .ok (.mem first _) => (zoneOf first == .pool) == (zoneOf pa == .pool)
  | _ => true

/-- Why the engine stops at a place that translates. A page that breaks the pool range is a failed translation to which the spec gives no
level: 0 here (log entry 152). -/
def placeStop (s : State) (ci : Nat) (k : CopyCmd) (base va pa : Nat) (write whole : Bool) : Option CopyStop :=
  if isPool k.form && !poolLike s ci k base pa write then some ⟨1, xPaRange, 0, va⟩
  else if s.lostPA pa then some ⟨2, 0, 0, va⟩
  else if s.poisoned.contains (lineOf pa) && !(write && whole && isPool k.form) then some ⟨3, 0, 0, va⟩
  else if !write && s.memErr.contains (lineOf pa) then some ⟨4, 0, 0, va⟩
  else none

/-- An address of the engine: it waits for a walk, stops the copy, or has its physical place and cache class. -/
inductive EngineAt where
  | wait
  | stop (e : CopyStop)
  | ok (pa cache : Nat)
  deriving DecidableEq, Repr

def engineAddr (s : State) (ci : Nat) (k : CopyCmd) (base va : Nat) (write whole : Bool) : EngineAt × State :=
  match s.engineXl ci k.num k.asid va { write := write, priv := k.priv, peer := false } with
  | (.wait, s) => (.wait, s)
  | (.fail cause level, s) => (.stop ⟨1, cause, level, va⟩, s)
  | (.ok (.peer _ _ _), s) => (.stop ⟨1, xKind, 0, va⟩, s)
  | (.ok (.mem pa cache), s) =>
    match placeStop s ci k base va pa write whole with
    | some e => (.stop e, s)
    | none => (.ok pa cache, s)

/-- The stop that an access would meet now, as a lookup that changes nothing. -/
def stopNow (s : State) (ci : Nat) (k : CopyCmd) (base va : Nat) (write : Bool) : Option CopyStop :=
  match s.translateNow ci k.asid va { write := write, priv := k.priv, peer := false } with
  | .error e => some ⟨1, e.1, e.2, va⟩
  | .ok (.peer _ _ _) => some ⟨1, xKind, 0, va⟩
  | .ok (.mem pa _) => placeStop s ci k base va pa write false

/-- The requests of a bulk command, in the order of its parts, and that of the present part. -/
def State.bulkReqs (s : State) (ci : Nat) (k : CopyCmd) : List Request :=
  s.dev.requests.filter fun r => r.core == ci && r.bundle == k.num && r.bulk == some k.form
def State.bulkReq (s : State) (ci : Nat) (k : CopyCmd) : Option Request := (s.bulkReqs ci k).getLast?

/-- The bytes that came back for a request, up to the first that has not. -/
def Request.front (r : Request) : List Byte :=
  (sortBy (fun a b => a.1 ≤ b.1) r.data).foldl (fun bs d => if d.1 = bs.length then bs ++ d.2 else bs) []

/-- The bytes that came back for a get (R310), request by request; a request leaves once those before it are answered whole. -/
def State.gotBytes (s : State) (ci : Nat) (k : CopyCmd) : List Byte := (s.bulkReqs ci k).flatMap Request.front

/-! ## Reading source lines (R123, R143, R144) -/

/-- What the engine meets at a line: it is done with it, it waits, or the copy stops. -/
inductive UnitEnd where
  | done | wait
  | stop (e : CopyStop)
  deriving DecidableEq, Repr

/-- Groups that lock a line, other than the command's own group. -/
def copyHolders (c : Core) (k : CopyCmd) (u : Nat) : List (Nat × Group) :=
  c.groups.filter fun e => e.2.locks k.buf u && !(e.1 == k.grp && e.2.stamp == k.stamp)

/-- An older group locks the line (R29, R143). -/
def copyLocked (c : Core) (k : CopyCmd) (u : Nat) : Bool :=
  (copyHolders c k u).any fun h => h.2.stamp < k.stamp || (h.2.stamp == k.stamp && h.1 < k.grp)

/-- Younger groups that lock the line are wounded. -/
def State.copyWounds (s : State) (ci : Nat) (k : CopyCmd) (u : Nat) : State :=
  (copyHolders (s.core ci) k u).foldl (fun s h => s.abortReplay ci h.1) s

/-- The source line of byte j: of the virtual range, or of the buffer. -/
def CopyCmd.srcLine (k : CopyCmd) (j : Nat) : Nat := (if srcMem k.form then k.memAt k.src j else k.bufAt j) / 128

/-- A line of the buffer is read, behind the requests that came to it before step 3 of the commit; a line that an older group locks waits for
its commit, and a younger group is wounded. -/
def readBufLine (s : State) (ci : Nat) (k : CopyCmd) (ln : Nat) : UnitEnd × CopyCmd × State :=
  let free (c : Core) : Bool := c.presentFor k.commit k.buf ln && !c.lineBusy k.commit (some (k.stamp, k.grp)) k.buf ln false
  if !free (s.core ci) || copyLocked (s.core ci) k ln then (.wait, k, s)
  else
    let s := s.copyWounds ci k ln
    if !free (s.core ci) then (.wait, k, s)
    else (.done, { k with got := k.got.ins ln ((s.core ci).lineBytes k.buf ln) }, s)

/-- A line of memory is read whole, by a coherent read at the slice of the engine's die, without a lease. A CPYP leaves a pool line in no
agent slice (R140). -/
def readMemLine (s : State) (ci : Nat) (k : CopyCmd) (va : Nat) : UnitEnd × CopyCmd × State :=
  match engineAddr s ci k k.src va false false with
  | (.wait, s) => (.wait, k, s)
  | (.stop e, s) => (.stop e, k, s)
  | (.ok pa cache, s) =>
    let ln := lineOf pa
    let put (bs : List Byte) : CopyCmd := { k with got := k.got.ins (va / 128) bs }
    if cache = 2 ∨ zoneOf pa = .window then (.done, put (s.uncachedBytes (ln * 128) 128), s)
    else
      let at_ := sliceAt s (dieOf ci) ln
      match s.takeTurn at_ (reqCourier ci) ln k.num false false (some ci) with
      | (false, s) => (.wait, k, s)
      | (true, s) =>
        let s := (s.poolAcquire ln false).hostAcquire ln 3 false
        (.done, put (s.memBytes (ln * 128) 128), if isPool k.form then (s.putBack at_ ln).getD s else s)

/-- The source line of byte j is read, unless it was; byte j of a get has come back. -/
def readSrc (s : State) (ci : Nat) (k : CopyCmd) (j : Nat) : UnitEnd × CopyCmd × State :=
  if k.form == .rget then (if j < (s.gotBytes ci k).length then .done else .wait, k, s)
  else if (k.got.at? (k.srcLine j)).isSome then (.done, k, s)
  else if srcMem k.form then readMemLine s ci k (k.memAt k.src j)
  else if k.form.readsBuf then readBufLine s ci k (k.srcLine j)
  else (.done, k, s)

/-- Byte j of the source, once its line is read: of the reply to a get, of memory or the buffer, or of the fill pattern. -/
def srcVal (s : State) (ci : Nat) (k : CopyCmd) (j : Nat) : Byte :=
  if k.form == .rget then ((s.gotBytes ci k)[j]?).getD 0
  else if srcMem k.form then (((k.got.atD (k.srcLine j) [])[k.memAt k.src j % 128]?)).getD 0
  else if k.form.readsBuf then (((k.got.atD (k.srcLine j) [])[k.bufAt j % 128]?)).getD 0
  else BitVec.ofNat 8 (k.pattern.toNat / 2 ^ (8 * (j % 4)))

/-- The engine reads the buffer lines of a deferred copy as they can be read, and holds them no more (R143). -/
def readAhead (s : State) (ci : Nat) (k : CopyCmd) : CopyCmd × State :=
  if k.form.readsBuf then
    k.bufLines.foldl (fun acc ln =>
      if (acc.1.got.at? ln).isSome then acc
      else let r := readBufLine acc.2 ci acc.1 ln; (r.2.1, r.2.2)) (k, s)
  else (k, s)

/-- The bytes of a destination line by offset, later bytes of the copy in place of earlier ones; none while a source line waits. -/
inductive LineData where
  | bytes (bs : List (Nat × Byte))
  | stop (e : CopyStop)
  | wait
  deriving DecidableEq, Repr

def lineData (s : State) (ci : Nat) (k : CopyCmd) (u : Nat) : LineData × CopyCmd × State :=
  (k.bytesOf u).foldl (fun acc j =>
    match acc with
    | (.bytes bs, k, s) =>
      match readSrc s ci k j with
      | (.done, k, s) => (.bytes (NMap.ins bs (k.dstAt j % 128) (srcVal s ci k j)), k, s)
      | (.stop e, k, s) => (.stop e, k, s)
      | (.wait, k, s) => (.wait, k, s)
    | other => other) (.bytes [], k, s)

/-- R135, overlap through two mappings: destination bytes that are source bytes, or whose source bytes are destination bytes,
take some byte of the source range (a free choice). -/
def overlapFix (s : State) (ci : Nat) (k : CopyCmd) (u : Nat) (bs : List (Nat × Byte)) : List (Nat × Byte) × State :=
  if k.form != .mm && k.form != .pmm then (bs, s)
  else
    let pa (base j : Nat) (write : Bool) : Option Nat :=
      match s.translateNow ci k.asid (k.memAt base j) { write := write, priv := k.priv, peer := false } with
      | .ok (.mem pa _) => some pa
      | _ => none
    let js := List.range k.size
    let from_ := js.filterMap fun j => pa k.src j false
    let dsts := js.filterMap fun j => pa k.dst j true
    let hit (j : Nat) : Bool :=
      (match pa k.dst j true with | some p => from_.contains p | none => false) ||
      (match pa k.src j false with | some p => dsts.contains p | none => false)
    (k.bytesOf u).foldl (fun acc j =>
      if hit j then
        let (n, s) := acc.2.fresh
        let src := (from_[Config.freeChoice n % from_.length]?).getD 0
        (NMap.ins acc.1 (k.dstAt j % 128) (s.memByte src), s)
      else acc) (bs, s)

/-! ## Ownership of memory lines (R122) -/

/-- Release a line (R122, R123). -/
def State.disown (s : State) (ci ln : Nat) : State :=
  let k := sliceAt s (dieOf ci) ln
  match (s.slice k).line? ln with
  | some l => if l.courier == some ci then s.setSlice k ((s.slice k).setLine { l with courier := none }) else s
  | none => s

/-- Lines that the engine of a core owns. -/
def State.ownedBy (s : State) (ci : Nat) : List Nat :=
  s.slices.flatMap fun e => (e.2.lines.filter fun l => l.courier == some ci).map fun l => l.line

/-- Take a line for the engine: its write is lined up at the slice of the engine's die, and when its turn comes, with all 32 permits and the
leases run out, the line is the engine's. An engine owns at most 256 lines (R122). -/
def State.ownLine (s : State) (ci num ln : Nat) : Bool × State :=
  let k := sliceAt s (dieOf ci) ln
  if ((s.slice k).lineD ln).courier == some ci then (true, s)
  else if 256 ≤ (s.ownedBy ci).length then (false, s)
  else
    match s.takeTurn k (reqCourier ci) ln num true true none with
    | (false, s) => (false, s)
    | (true, s) => (true, s.setSlice k ((s.slice k).setLine { (s.slice k).lineD ln with courier := some ci }))

/-- The address at which a destination line is reached. -/
def CopyCmd.unitVA (k : CopyCmd) (u : Nat) : Nat :=
  match (k.bytesOf u)[0]? with
  | some j => k.dstAt j
  | none => u * 128

/-- R146: the RSCOPE of the completion token, by the places of the destination, also where the copy stopped before it reached them. -/
def CopyCmd.destScope (s : State) (ci : Nat) (k : CopyCmd) : Scope :=
  let zones := k.units.filterMap fun u =>
    match s.translateNow ci k.asid (k.unitVA u) { write := false, priv := true, peer := false } with
    | .ok (.mem pa _) => some (zoneOf pa)
    | _ => none
  if !dstMem k.form then .dev
  else if zones.contains .host then .sys
  else if zones.contains .pool then .pool
  else .dev

/-- An earlier command of the engine has not written the line (R145). -/
def writtenFirst (s : State) (ci : Nat) (k : CopyCmd) (ln : Nat) : Bool :=
  (s.core ci).courier.any fun y => y.num < k.num && dstMem y.form && y.units.any fun u =>
    !y.doneLines.contains u &&
      match s.translateNow ci y.asid (y.unitVA u) { write := true, priv := y.priv, peer := false } with
      | .ok (.mem pa _) => lineOf pa == ln
      | _ => false

/-- Write one destination line in memory as one write (R145), and release it. -/
def memUnit (s : State) (ci : Nat) (k : CopyCmd) (u : Nat) : UnitEnd × CopyCmd × State :=
  match engineAddr s ci k k.dst (k.unitVA u) true (k.whole u) with
  | (.wait, s) => (.wait, k, s)
  | (.stop e, s) => (.stop e, k, s)
  | (.ok pa cache, s) =>
    let ln := lineOf pa
    let bare := cache == 2 || zoneOf pa == .window
    let (own, s) := if writtenFirst s ci k ln then (false, s) else if bare then (true, s) else s.ownLine ci k.num ln
    if !own then (.wait, k, s)
    else
      match lineData s ci k u with
      | (.wait, k, s) => (.wait, k, s)
      | (.stop e, k, s) => (.stop e, k, s.disown ci ln)
      | (.bytes bs, k, s) =>
        let (bs, s) := overlapFix s ci k u bs
        let s := if bare then s.storeUncached (bs.map fun e => (ln * 128 + e.1, e.2))
          else ({ s with poisoned := s.poisoned.filter (· != ln) }.storeLine (sliceAt s (dieOf ci) ln) ln bs).disown ci ln
        (.done, { k with doneLines := k.doneLines ++ [u] }, s)

/-! ## Buffer lines (R142, R143) -/

/-- The marks of a command leave the lines, and the lines are woken. -/
def State.unmark (s : State) (ci : Nat) (k : CopyCmd) (lines : List Nat) : State :=
  let s := s.modCore ci fun c =>
    { c with absent := c.absent.filter fun a => !(a.1 == k.buf && a.2.2 == k.num && lines.contains a.2.1) }
  lines.foldl (fun s ln => s.wakeLine ci k.buf ln) s

/-- The line may not be written yet: an older group locks it, or an earlier request to it is not performed (R29, R157). -/
def bufBlocked (c : Core) (k : CopyCmd) (u : Nat) : Bool :=
  copyLocked c k u || !c.presentFor k.num k.buf u || c.lineBusy k.num (some (k.stamp, k.grp)) k.buf u true

/-- Write one destination line of a buffer: younger groups that lock it are wounded, and a request that waited for one of them goes first. -/
def bufUnit (s : State) (ci : Nat) (k : CopyCmd) (u : Nat) : UnitEnd × CopyCmd × State :=
  if bufBlocked (s.core ci) k u then (.wait, k, s)
  else
    match lineData s ci k u with
    | (.wait, k, s) => (.wait, k, s)
    | (.stop e, k, s) => (.stop e, k, s)
    | (.bytes bs, k, s) =>
      let s := s.copyWounds ci k u
      if bufBlocked (s.core ci) k u then (.wait, k, s)
      else
        let s := s.modCore ci fun c =>
          c.setBuf k.buf (bs.foldl (fun m e => m.put 0 (u * 128 + e.1) e.2) (c.buf k.buf))
        (.done, { k with doneLines := k.doneLines ++ [u] }, s.unmark ci k [u])

/-- The destination lines in the order in which they are written: recalled ones first (R123), then ascending (R129). -/
def CopyCmd.order (k : CopyCmd) : List Nat := (k.urgent.filter fun u => k.units.contains u) ++ k.units

def copyUnit (s : State) (ci : Nat) (k : CopyCmd) (u : Nat) : UnitEnd × CopyCmd × State :=
  if k.form.immediate then bufUnit s ci k u else memUnit s ci k u

/-- Write the lines in order until one waits or the copy stops. -/
def copyLines (s : State) (ci : Nat) (k : CopyCmd) : List Nat → UnitEnd × CopyCmd × State
  | [] => (.done, k, s)
  | u :: us =>
    if k.doneLines.contains u then copyLines s ci k us
    else
      match copyUnit s ci k u with
      | (.done, k, s) => copyLines s ci k us
      | r => r

/-! ## The end of a command (R146 to R148) -/

/-- Word 1 of the status: the lanes not written, or the offset of the first byte not written. -/
def CopyCmd.progress (k : CopyCmd) : Nat :=
  let left := (List.range k.size).filter fun j => !k.doneLines.contains (k.dstAt j / 128)
  if isGather k.form then (maskOf fun l => left.any fun j => (k.elem j).1 == l).toNat
  else if k.form == .spin && k.doneLines.isEmpty then k.moved
  else (left[0]?).getD k.size

def statusWord (status cause : Nat) : Word := w32 (status * 2 ^ 24 + cause * 2 ^ 16)

def Core.dropCopy (c : Core) (num : Nat) : Core := { c with courier := c.courier.filter fun k => k.num != num }
def Core.setCopy (c : Core) (k : CopyCmd) : Core := { c with courier := replaceIf (fun y => y.num == k.num) (fun _ => k) c.courier }

/-- The token of an immediate command takes its payload in the send queue. -/
def Group.settle (g : Group) (num : Nat) (payload : List Word) : Group :=
  { g with sendq := g.sendq.map fun it => match it with
      | .copyTok n t => if n = num then .token (t.token payload) else it
      | it => it }

/-- The class of the block fault that a stop of an immediate copy raises (R148). -/
def stopClass (status : Nat) : Cls :=
  match status with
  | 1 => .translation
  | 2 => .poolRegion
  | 3 => .linePoisoned
  | _ => .memError

/-- What a command waits for leaves the miss queue and the slices. -/
def State.dropEngine (s : State) (ci num : Nat) : State :=
  (s.dropWaiter (dieOf ci) (engineNum (num * 2048 + ci))).dropTurns (reqCourier ci) num

/-- The block fault of a stop (R100, R148): of a gather, of every lane whose element meets a failure of the kind, at the lowest; else of the
leader lane. -/
def stopFault (s : State) (ci : Nat) (k : CopyCmd) (e : CopyStop) : Flt :=
  let fails := if isGather k.form then
      (List.range k.lanes.length).filterMap fun i =>
        match stopNow s ci k k.src (k.memAt k.src (i * k.esize)) false with
        | some x => if x.status = e.status then some ((k.elem (i * k.esize)).1, x) else none
        | none => none
    else []
  match fails with
  | f :: _ => { cls := stopClass e.status, cause := f.2.cause, level := f.2.level, addr := f.2.addr,
                lanes := maskOf fun l => fails.any fun x => x.1 == l }
  | [] => { cls := stopClass e.status, cause := e.cause, level := e.level, addr := e.addr, lanes := laneMask1 k.lead }

/-- An immediate command ends: presence is restored, and its flag clears; or the block faults while it still waits for it. -/
def State.endImmediate (s : State) (ci : Nat) (k : CopyCmd) (stop : Option CopyStop) (goesOn : Bool) : State :=
  let fault := stop.map (stopFault s ci k)
  let s := ((s.modCore ci fun c => c.dropCopy k.num).dropEngine ci k.num).unmark ci k k.bufLines
  let close (w0 : Word) : State :=
    s.modCore ci fun c =>
      let c := match c.group? k.grp with
        | some g => c.setGroup k.grp (g.settle k.num [w0, w32 k.progress])
        | none => c
      c.endOp k.num
  match stop, fault with
  | some e, some f =>
    if (s.core ci).opAlive k.grp k.num && !goesOn then s.failOp ci k.grp k.num f else close (statusWord e.status e.cause)
  | _, _ => close 0

/-- The physical line of a destination line in memory that is still to be written and that the engine owns before it does. -/
def unitLine (s : State) (ci : Nat) (k : CopyCmd) (u : Nat) : Option Nat :=
  match s.translateNow ci k.asid (k.unitVA u) { write := true, priv := k.priv, peer := false } with
  | .ok (.mem pa cache) => if cache = 2 ∨ zoneOf pa = .window ∨ s.lostPA pa then none else some (lineOf pa)
  | _ => none

/-- Lines of the engine that no other running command of it will write are released. -/
def State.disownAll (s : State) (ci : Nat) (k : CopyCmd) : State :=
  let others := (s.core ci).courier.filter fun y => y.num != k.num && y.running && dstMem y.form
  let kept := others.flatMap fun y => (y.units.filter fun u => !y.doneLines.contains u).filterMap (unitLine s ci y)
  (s.ownedBy ci).foldl (fun s ln => if kept.contains ln then s else s.disown ci ln) s

/-- A deferred command ends: its completion token joins the outbox, or a COURIER record tells of its failure. -/
def State.endDeferred (s : State) (ci : Nat) (k : CopyCmd) (status cause : Nat) : State :=
  let w0 := statusWord status cause
  let w1 := w32 k.progress
  let scope := k.destScope s ci
  let s := ((s.disownAll ci k).modCore ci fun c => c.dropCopy k.num).dropEngine ci k.num
  match k.due with
  | d :: _ => s.modCore ci fun c => c.postDue k.commit k.grp { d with rscope := scope } [w0, w1]
  | [] =>
    if status = 0 then s
    else s.lateRecord ci .courier (tailOf [(2, lateWord2 (word2Base k.bid k.colour k.bslot k.grp) 0 k.word),
                                            (6, w0.toNat * 2 ^ 32 + w1.toNat)])

/-- Source lines that no byte still to be written needs are forgotten. -/
def CopyCmd.forget (k : CopyCmd) : CopyCmd :=
  if srcMem k.form then
    let need := ((List.range k.size).filter fun j => !k.doneLines.contains (k.dstAt j / 128)).map k.srcLine
    { k with got := k.got.filter fun e => need.contains e.1 }
  else k

/-- Lines at once: a copy between memory, buffers and patterns moves what it can, and ends when it is done or stops. -/
def State.runCopy (s : State) (ci : Nat) (k : CopyCmd) : State :=
  let (k, s) := readAhead s ci k
  match copyLines s ci k k.order with
  | (.wait, k, s) => s.modCore ci fun c => c.setCopy k.forget
  | (.done, k, s) => if k.form.immediate then s.endImmediate ci k none false else s.endDeferred ci k 0 0
  | (.stop e, k, s) =>
    if k.form.immediate then s.endImmediate ci k (some e) (k.form == .pin && e.status == 2) else s.endDeferred ci k e.status e.cause

/-! ## Spans (R141) -/

/-- Words from bytes, lowest first. -/
def wordsOf (bs : List Byte) : List Word := (List.range (bs.length / 4)).map fun i => w32 (leNat ((bs.drop (4 * i)).take 4))

/-- Write bytes of a span's words to the A buffer at an offset, if no line of them is blocked. -/
def landBytes (s : State) (ci : Nat) (k : CopyCmd) (at_ : Nat) (ws : List Word) : Option State :=
  let bs := ws.flatMap fun w => natLe 4 w.toNat
  let lines := spanLines at_ bs.length
  let blocked (s : State) : Bool := lines.any fun u => bufBlocked (s.core ci) k u
  if blocked s then none
  else
    let s := lines.foldl (fun s u => s.copyWounds ci k u) s
    if blocked s then none
    else
      let s := s.modCore ci fun c => c.setBuf .a ((c.buf .a).writeBytes at_ bs)
      -- a line is present once the copy's last byte in it is written
      some (s.unmark ci k (lines.filter fun u => decide ((u + 1) * 128 ≤ at_ + bs.length ∨ k.off + k.len ≤ at_ + bs.length)))

/-- CPYSP.OUT and OUTC push their words once their lines are read, behind earlier pushes on the span. -/
def State.pushCopy (s : State) (ci : Nat) (k : CopyCmd) : State :=
  let (k, s) := readAhead s ci k
  let s := s.modCore ci fun c => c.setCopy k
  let c := s.core ci
  let waits := (c.outbox.any fun o => o.commit < k.commit && o.item.pushes k.span) ||
    (c.spanCopies k.span).any fun y => y.num < k.num
  if waits || k.bufLines.any fun ln => (k.got.at? ln).isNone then s
  else
    let ws := wordsOf ((List.range k.len).map (srcVal s ci k))
    let s := match s.coreSpan ci k.span with
      | some (i, x) => s.setSpan i (x.push ws)
      | none => s
    s.endDeferred ci { k with doneLines := k.units } 0 0

/-- CPYSP.IN ends: with its bytes in place; or from the landing record; or on a broken span, with status MEM_ERROR (R317), and so too when
the record holds what landed before the span broke. -/
def State.landCopy (s : State) (ci : Nat) (k : CopyCmd) : State :=
  match s.coreSpan ci k.span with
  | none => s.endImmediate ci k (some ⟨4, 0, 0, 0⟩) true
  | some (i, x) =>
    if k.again then
      if (s.core ci).courier.any fun y => y.num < k.num && y.form == .spin && y.span == k.span then s
      else
        let ws := ((s.core ci).landingOf i).saved
        match landBytes s ci k k.off ws with
        | none => s
        | some s =>
          if 4 * ws.length < k.len then s.endImmediate ci { k with moved := 4 * ws.length } (some ⟨4, 0, 0, 0⟩) true
          else s.endImmediate ci { k with doneLines := k.units } none false
    else if k.len ≤ k.moved then s.endImmediate ci { k with doneLines := k.units } none false
    else if x.broken && ((s.core ci).landingOf i).words.isEmpty then s.endImmediate ci k (some ⟨4, 0, 0, 0⟩) true
    else s

end Sys2Proof.Machine
end

