-- ==== Sys2Proof/Machine/Remote.lean ====
section
/-! DEFINITION. The fabric words (R300 to R315): RLD, RST, RATOM, RPUT, RGET and SPW, how their requests leave the device, and the
write-combining buffer (R311, R312). -/

namespace Sys2Proof.Machine

/-! ## Leaving the device -/

/-- The trained Trihorn links (R436). -/
def State.trained (s : State) : List Nat := (List.range 36).filter fun n => s.dev.trihorn.getLsbD n

/-- The link port through which a core's packets to a device leave, if the device has one: routes are fixed when the region is armed
(R294). -/
def State.portTo (s : State) (ci dst : Nat) : Option Nat :=
  let ps := match s.coreRegion? ci with
    | some r => r.ports
    | none => s.trained
  ps[Config.linkRoute ci dst % ps.length]?

/-- Why a packet does not leave: cause, PLACE_KIND and PLACE. A route over a failed link leads nowhere. -/
def State.leaveStop (s : State) (ci : Nat) (key : BitVec 16) (dst : Nat) : Option (Nat × Nat × Nat) :=
  match s.portTo ci dst with
  | none => some (dlNoRoute, 1, placePort 0xFF)
  | some port =>
    if !s.dev.trihorn.getLsbD port then some (dlNoRoute, 1, placePort (if s.trained.isEmpty then 0xFF else port))
    else if s.tenantOk key (s.dev.portTenant.atD port 0) then none
    else some (dlParapet, 4, placeLinkGuard port)

/-- A packet goes onto the wire, or is dropped at the device's own port with its record; answers the cause of a drop. -/
def State.sendPacket (s : State) (ci asid : Nat) (p : Packet) : Option Nat × State :=
  match s.leaveStop ci p.key p.dstDev with
  | none => (none, { s with wire := s.wire ++ [p] })
  | some (cause, kind, place) =>
    let port := (s.portTo ci p.dstDev).getD 0
    (some cause, s.deadLetter asid (srcPort port) (port / 9) (deadTail cause kind place p) false none)

/-! ## Requests (R304, R305) -/

/-- The next request number. -/
def State.takeReq (s : State) : Nat × State :=
  let n := s.dev.nextReq
  (n, s.setDev { s.dev with nextReq := (n + 1) % 65536 })

def State.packetFrom (s : State) (ci reqid : Nat) (dev tasid tva : Nat) (body : PktBody) : Packet :=
  { key := BitVec.ofNat 16 (s.core ci).cfg.key, inc := s.dev.inc, srcDev := s.dev.devNum, dstDev := dev,
    srcCore := srcOfCore ci, tasid := tasid, tva := tva, reqid := reqid, body := body }

/-- A request that performs a remote write counts in its commit until it is acknowledged (R278). -/
def RemKind.writes : RemKind → Bool
  | .rld => false
  | .rst | .ratom | .cfaa | .cfaan => true

/-- Complete a request once: status, cause and value. Its commit no longer waits for it. -/
def State.finishReq (s : State) (reqid : Nat) (status cause : Byte) (val : DWord) : State :=
  match s.dev.requests.find? fun r => r.reqid == reqid && r.done.isNone with
  | none => s
  | some r =>
    let s := s.setDev { s.dev with
      requests := replaceIf (fun q => q.reqid == reqid) (fun q => { q with done := some (status, cause, val) }) s.dev.requests }
    s.modCore r.core fun c =>
      { c.setCommit r.commit fun q => { q with remote := q.remote.filter (· != reqid) } with
        wcb := c.wcb.filter fun e => !(e.drained && e.reqs.contains reqid) }

/-- The failing lanes of a bundle's requests, lowest first. -/
def failedReqs (rs : List Request) : List Request :=
  sortBy (fun a b => a.pos ≤ b.pos) (rs.filter fun r => match r.done with
    | some (st, _, _) => st != 0
    | none => false)

/-- The reply payload of a bundle: R304's words, then the lanes' data (R289, R305); a failing lane's data are zero. -/
def bundlePayload (b : Bundle) (rs : List Request) : List Word :=
  let bad := failedReqs rs
  let w0 := match bad with
    | r :: _ => match r.done with
      | some (st, ca, _) => statusWord st.toNat ca.toNat
      | none => 0
    | [] => 0
  let mask := maskOf fun j => bad.any fun r => r.pos % b.width == j
  let val (j : Nat) : Nat :=
    match rs.find? fun r => r.pos % b.width == j with
    | some r => match r.done with
      | some (0, _, v) => v.toNat
      | _ => 0
    | none => 0
  [w0, mask] ++ (List.range (b.width * b.words)).map fun j => w32 (val (j / b.words) / 2 ^ (32 * (j % b.words)))

/-- A bundle whose requests are all done sends its token, or for a failed CFAAN a record (R336). -/
def State.settleBundle (s : State) (num : Nat) : State :=
  match s.dev.bundles.find? fun b => b.num == num with
  | none => s
  | some b =>
    let rs := s.dev.requests.filter fun r => r.bundle == num && r.bulk.isNone
    if rs.any fun r => r.done.isNone then s
    else
      let s := s.setDev { s.dev with bundles := s.dev.bundles.filter fun x => x.num != num,
                                     requests := s.dev.requests.filter fun r => !(r.bundle == num && r.bulk.isNone) }
      let s := match b.due with
        | some d => s.modCore b.core fun c => c.postDue b.commit 0 d (bundlePayload b rs)
        | none => s
      match (failedReqs rs).filter fun r => r.kind == .cfaan with
      | [] => s
      | r :: rest =>
        let (st, ca) := match r.done with
          | some (st, ca, _) => (st.toNat, ca.toNat)
          | none => (0, 0)
        s.lateRecord b.core .remoteAccess
          (tailOf [(2, lateWord2 b.word2 st (b.word2 / 2 ^ 48)),
                   (3, (maskOf fun l => (r :: rest).any fun q => q.pos == l).toNat * 2 ^ 32), (4, r.va % 2 ^ 56), (6, ca)])

/-- Send a request's packet; one that the device drops completes with DROPPED, on the source side (R299, R304). -/
def State.launchReq (s : State) (reqid : Nat) : State :=
  match s.dev.requests.find? fun r => r.reqid == reqid with
  | none => s
  | some r =>
    match s.sendPacket r.core (s.core r.core).cfg.asid r.pkt with
    | (none, s) => s
    | (some cause, s) => s.finishReq reqid 3 (BitVec.ofNat 8 (0x80 + cause)) 0

/-- An entry for a target line, of which some bytes are read. -/
def WcEnt.meets (e : WcEnt) (dev tasid tva size : Nat) : Bool :=
  e.dev == dev && e.tasid == tasid && e.line == tva / 128 && e.bytes.any fun b => decide (tva % 128 ≤ b.1 ∧ b.1 < tva % 128 + size)

/-- A drained entry that is not acknowledged holds bytes that a read wants. -/
def Core.wcBusy (c : Core) (dev tasid tva size : Nat) : Bool := c.wcb.any fun e => e.drained && e.meets dev tasid tva size

/-- The reads of a core that waited for an entry leave once it is acknowledged (R312). -/
def State.wakeReads (s : State) (ci : Nat) : State :=
  let go := s.dev.requests.filter fun r => r.core == ci && r.held && !(s.core ci).wcBusy r.dev r.pkt.tasid r.pkt.tva r.size
  go.foldl (fun s r =>
    let now := s.gtcAt (dieOf ci)
    let off (q : Request) : Request := if q.reqid = r.reqid then { q with held := false, left := now, lastAsk := now } else q
    ((s.setDev { s.dev with requests := s.dev.requests.map off }).launchReq r.reqid).settleBundle r.bundle) s

/-- Complete a request and settle its bundle; reads that waited for it go on. -/
def State.closeReq (s : State) (reqid : Nat) (status cause : Byte) (val : DWord) : State :=
  match s.dev.requests.find? fun r => r.reqid == reqid with
  | none => s
  | some r => ((s.finishReq reqid status cause val).settleBundle r.bundle).wakeReads r.core

/-- The request of one lane, not yet sent. -/
def State.newReq (s : State) (ci commit : Nat) (kind : RemKind) (bulk : Option CopyForm) (size bundle : Nat) (l : RemLane)
    (body : Nat → PktBody) : Nat × State :=
  let (n, s) := s.takeReq
  let r : Request := { reqid := n, core := ci, commit := commit, kind := kind, bulk := bulk, wide := size == 8, size := size,
                       dev := l.dev, pkt := s.packetFrom ci n l.dev l.tasid l.tva (body n), pos := l.pos, va := l.va,
                       bundle := bundle, left := s.gtcAt (dieOf ci), lastAsk := s.gtcAt (dieOf ci), done := none, written := 0, data := [], held := false }
  let s := s.setDev { s.dev with requests := s.dev.requests ++ [r] }
  let s := if kind.writes && (bulk.isNone || bulk == some .rput) then
      s.modCore ci fun c => c.setCommit commit fun q => { q with remote := q.remote ++ [n] }
    else s
  (n, s)

/-! ## The write-combining buffer (R311, R312) -/

/-- An entry of a target line. -/
def WcEnt.on (e : WcEnt) (l : RemLane) : Bool := e.dev == l.dev && e.tasid == l.tasid && e.line == l.tva / 128

/-- Entries that are not drained. -/
def Core.wcOpen (c : Core) : List WcEnt := c.wcb.filter fun e => !e.drained

/-- Drain the entry at a place of the buffer: its bytes go as one write. -/
def State.drainWc (s : State) (ci idx : Nat) : State :=
  match (s.core ci).wcb[idx]? with
  | none => s
  | some e =>
    if e.drained then s
    else
      let s := s.modCore ci fun c => { c with wcb := c.wcb.set idx { e with drained := true } }
      let now := s.gtcAt (dieOf ci)
      let go (r : Request) : Request := if e.reqs.contains r.reqid then { r with left := now, lastAsk := now } else r
      let s := s.setDev { s.dev with requests := s.dev.requests.map go }
      let lead := (e.reqs[0]?).getD 0
      let first := ((minBy? (fun b => b.1) e.bytes).map fun b => b.1).getD 0
      let p := s.packetFrom ci lead e.dev e.tasid (e.line * 128 + first) (.write (e.bytes.map fun b => (b.1 - first, b.2)))
      match s.sendPacket ci (s.core ci).cfg.asid p with
      | (none, s) => s
      | (some cause, s) => e.reqs.foldl (fun s r => s.closeReq r 3 (BitVec.ofNat 8 (0x80 + cause)) 0) s

/-- Drain every open entry that satisfies a test, oldest first. -/
def State.drainIf (s : State) (ci : Nat) (p : WcEnt → Bool) : State :=
  (List.range (s.core ci).wcb.length).foldl (fun s _ =>
    match (s.core ci).wcb.findIdx? fun e => !e.drained && p e with
    | some i => s.drainWc ci i
    | none => s) s

/-- Bytes join the entry of their line, or take a free one, draining the oldest when 32 are open. -/
def State.combineWc (s : State) (ci commit reqid : Nat) (l : RemLane) (bs : List Byte) : State :=
  let put (m : List (Nat × Byte)) : List (Nat × Byte) :=
    (List.range bs.length).foldl (fun m i => NMap.ins m (l.tva % 128 + i) ((bs[i]?).getD 0)) m
  if ((s.core ci).wcOpen).any fun e => e.on l then
    let join (e : WcEnt) : WcEnt := { e with bytes := put e.bytes, reqs := e.reqs ++ [reqid] }
    s.modCore ci fun c => { c with wcb := replaceIf (fun e => !e.drained && e.on l) join c.wcb }
  else
    let s := if 32 ≤ ((s.core ci).wcOpen).length then
        match (s.core ci).wcb.findIdx? fun e => !e.drained with
        | some i => s.drainWc ci i
        | none => s
      else s
    let new : WcEnt := { dev := l.dev, tasid := l.tasid, line := l.tva / 128, bytes := put [], since := s.gtcAt (dieOf ci),
                         reqs := [reqid], commit := commit, drained := false }
    s.modCore ci fun c => { c with wcb := c.wcb ++ [new] }

/-- The bytes of a read, where one open entry covers all of them (R312). -/
def Core.wcCovers (c : Core) (l : RemLane) (size : Nat) : Option (List Byte) :=
  (c.wcOpen.find? fun e => e.on l).bind fun e =>
    let got := (List.range size).filterMap fun i => (e.bytes.find? fun b => b.1 == l.tva % 128 + i).map Prod.snd
    if got.length = size then some got else none

/-! ## One lane's request leaves (R306, R311, R312) -/

/-- A read looks in the buffer first: an entry that covers it answers it; one that covers part of it is drained, and the read leaves once
that is acknowledged; else it leaves at once (R312). -/
def State.leaveRead (s : State) (ci n size : Nat) (l : RemLane) : State :=
  match (s.core ci).wcCovers l size with
  | some bs => s.finishReq n 0 0 (w64 (leNat bs))
  | none =>
    let s := s.drainIf ci fun e => e.meets l.dev l.tasid l.tva size
    if (s.core ci).wcBusy l.dev l.tasid l.tva size then
      s.setDev { s.dev with requests := replaceIf (fun q => q.reqid == n) (fun q => { q with held := true }) s.dev.requests }
    else s.launchReq n

def State.leaveLane (s : State) (ci commit : Nat) (k : RemKind) (fn : BitVec 4) (size bundle : Nat) (alone : Bool)
    (l : RemLane) : State :=
  match k with
  | .rld =>
    let (n, s) := s.newReq ci commit k none size bundle l fun _ => .read 0 size 0
    s.leaveRead ci n size l
  | .rst =>
    let bs := natLe size l.b.toNat
    let (n, s) := s.newReq ci commit k none size bundle l fun _ => .write (bs.zipIdx.map fun e => (e.2, e.1))
    if alone then (s.drainIf ci fun e => e.on l).launchReq n else s.combineWc ci commit n l bs
  | .ratom =>
    let (n, s) := s.newReq ci commit k none size bundle l fun _ => .atomic fn l.b l.c
    s.launchReq n
  | .cfaa | .cfaan =>
    let (n, s) := s.newReq ci commit k none size bundle l fun n =>
      .combine (size == 8) [{ dev := s.dev.devNum, inc := s.dev.inc, core := srcOfCore ci, reqid := n, addend := l.b,
                              reply := k == .cfaa }]
    s.launchReq n

/-- The requests of one instance leave; a lane-less instance is answered at once. -/
def State.leaveInst (s : State) (ci : Nat) (o : OutItem) (k : RemKind) (fn : BitVec 4) (size word : Nat)
    (rel : Option Scope) (part : Option TokenDue × List RemLane) : State :=
  let base := match (s.core ci).commit? o.commit with
    | some r => r.word2
    | none => 0
  let n := (s.core ci).nextNum
  let s := s.modCore ci fun c => { c with nextNum := n + 1 }
  let words := match k with
    | .rld | .ratom | .cfaa => if part.1.isSome then (if size = 8 then 2 else 1) else 0
    | .rst | .cfaan => 0
  let num := 2 ^ 40 + n * 2048 + ci
  let width := match part.1 with
    | some d => 2 ^ d.wlog.toNat
    | none => 32
  let b : Bundle := { num := num, core := ci, asid := o.asid, commit := o.commit, due := part.1, words := words, width := width,
                      word2 := word % 256 * 2 ^ 48 + base % 2 ^ 48 }
  let s := s.setDev { s.dev with bundles := s.dev.bundles ++ [b] }
  (part.2.foldl (fun s l => s.leaveLane ci o.commit k fn size num rel.isSome l) s).settleBundle num

/-- A remote word leaves, instance by instance. -/
def State.leaveRemote (s : State) (ci : Nat) (o : OutItem) (k : RemKind) (fn : BitVec 4) (size word : Nat)
    (rel : Option Scope) (parts : List (Option TokenDue × List RemLane)) : State :=
  parts.foldl (fun s part => s.leaveInst ci o k fn size word rel part) s

/-! ## The words at issue (R301, R303) -/

/-- The fault of failing peer translations (R303): an address that reaches no peer leaf goes before a leaf without W, and the mask holds the
lanes that fail that cause. -/
def peerFault (fs : List (Nat × Nat × Nat × Nat)) : Flt :=
  match (fs.filter fun f => f.2.2.1 != xWrite) ++ fs with
  | f :: _ => xlFault (fs.filter fun x => x.2.2.1 == f.2.2.1)
  | [] => xlFault fs

/-- Check causes in order, then translate the active lanes to peers; `k` runs with each lane's target. -/
def withPeers (s : State) (x : Ctx) (act : LaneMask) (write : Bool) (va : Nat → Nat) (checks : List (Nat × (Nat → Bool)))
    (k : State → Group → List (Nat × Target) → State) : State :=
  match firstCause .remoteAccess act va checks with
  | some e => s.faultWord x.g e
  | none =>
    let w : Want := { write := write, priv := x.c.priv x.g, peer := true }
    match s.xlPlaces s.cur.1 (groupNum s.cur.1 s.cur.2) x.c.cfg.asid ((maskLanes act).map fun l => (l, va l, w)) with
    | .wait s => s.hold x.g
    | .fail fs => s.faultWord x.g (peerFault fs)
    | .ok s ts => k s (x.g.foot ((maskLanes act).map va)) (ts.map fun t => (t.1, t.2.2))

/-- The release scope of a fabric word (R301). -/
def f1Rel (f : F1) : Option Scope := if orderRel f.order then some f.scope else none

/-- The token that exit D owes to an instance, at SCOPE. -/
def f1Due (c : Core) (g : Group) (f : F1) (i : Nat) : Option TokenDue := (exitOf f.d).map fun e => dueOf c g e i f.scope

/-- Queue the lane requests of a word as one descriptor: the lanes and the token of each instance of em_fire (R300). -/
def queueLanes (c : Core) (g : Group) (f : F1) (k : RemKind) (size : Nat) (ls : List (Nat × RemLane)) : Group :=
  let parts := g.firedInsts.filterMap fun i =>
    let mine := (ls.filter fun e => g.instOf e.1 == i).map Prod.snd
    let due := f1Due c g f i
    if mine.isEmpty && due.isNone then none else some (due, mine)
  (g.release f).queue (.remote k f.fn size g.pc (f1Rel f) parts)

/-- RLD, RST, RATOM, CFAA and CFAAN: one request an active lane. -/
def laneRemote (s : State) (f : F1) (k : RemKind) (size al : Nat) (addr : Ctx → Nat → Nat) (b c : Ctx → Nat → DWord) : Out :=
  withIssuer s fun core g =>
    let (x, act) := f1Ctx f s core g
    withPeers s x act k.writes (addr x) [(1, fun l => addr x l % al != 0)] fun s g ts =>
      let ls := ts.filterMap fun t => match t.2 with
        | .peer dev tasid tva => some (t.1, ({ pos := t.1, dev := dev, tasid := tasid, tva := tva, va := addr x t.1,
                                               b := b x t.1, c := c x t.1 } : RemLane))
        | .mem _ _ => none
      s.finish (queueLanes core g f k size ls)

def execRld (f : F1) (s : State) : Out :=
  let n := sizeBytes f.fn.toNat
  laneRemote s f .rld n n (fun x l => loadAddr x f l) (fun _ _ => 0) fun _ _ => 0

def execRst (f : F1) (s : State) : Out :=
  let n := sizeBytes f.fn.toNat
  laneRemote s f .rst n n (fun x l => storeAddr x f l) (fun x l => x.rdN (n / 4) f.b l) fun _ _ => 0

def execRatom (f : F1) (s : State) : Out :=
  let n := atomBytes f.fn.toNat
  laneRemote s f .ratom n n (fun x l => bareAddr x f l) (fun x l => x.rdN (n / 4) f.b l) fun x l =>
    match f.c with
    | .op o => x.rdN (n / 4) o l
    | .imm _ => 0

/-- The run of four registers of a put block or multicast header, in the leader lane. -/
def runOf4 (x : Ctx) (o : Operand) (l : Nat) : Nat → Nat := fun j => (x.rd (opPlus o j) l).toNat

def src3Operand : Src3 → Operand
  | .op o => o
  | .imm _ => .zero

/-- The notify fields of R307 in words 1 and 2 of a block; none when NV = 0. -/
def notifyOf (w1 w2 : Nat) (tagadd : Bool) : Option Notify :=
  if field w1 15 1 = 1 then
    some { blk := BitVec.ofNat 12 w1, slot := BitVec.ofNat 3 (w1 / 2 ^ 12), colour := BitVec.ofNat 12 (w1 / 2 ^ 16),
           wlog := BitVec.ofNat 3 (w1 / 2 ^ 28), tag := w32 w2, tagadd := tagadd }
  else none

/-- R307: the notify fields that are read keep to the layout. -/
def notifyBad (w1 : Nat) : Bool := field w1 15 1 == 1 && (field w1 0 12 == 0xFFF || decide (5 < field w1 28 3))

/-- The first pages of a bulk word: of its target, through a peer leaf, and of its local range, in memory. -/
def bulkXl (s : State) (x : Ctx) (l : Nat) (target : Option (Nat × Bool)) (here : Option (Nat × Bool)) : Places :=
  let want (w peer : Bool) : Want := { write := w, priv := x.c.priv x.g, peer := peer }
  let ps := (target.toList.map fun t => (l, t.1, want t.2 true)) ++ here.toList.map fun h => (l, h.1, want h.2 false)
  match s.xlPlaces s.cur.1 (groupNum s.cur.1 s.cur.2) x.c.cfg.asid ps with
  | .ok s ts => .ok s ts
  | .wait s => .wait s
  | .fail fs => .fail (fs.take 1)

/-- The fault of a local page in a lost pool region (R101). -/
def bulkLost (s : State) (l : Nat) (ts : List (Nat × Nat × Target)) : Option Flt :=
  ts.findSome? fun t => match t.2.2 with
    | .mem pa _ => if s.lostPA pa then some { cls := .poolRegion, addr := t.2.1, lanes := laneMask1 l } else none
    | .peer _ _ _ => none

/-- Where the first page of a bulk word's target is; the pages behind it are translated as the transfer reaches them (R95, R303;
log entry 178). -/
def bulkPeer (ts : List (Nat × Nat × Target)) : Option (Nat × Nat × Nat) :=
  ts.findSome? fun t => match t.2.2 with
    | .peer dev tasid tva => some (dev, tasid, tva)
    | .mem _ _ => none

/-- The largest bulk length (R303). -/
def bulkMax : Nat := 1048576

/-- A bulk word: its checks in order, its translations, and a deferred command with a token for every instance. -/
def bulkWord (s : State) (f : F1) (form : CopyForm) : Out :=
  withIssuer s fun c g =>
    let (x, act) := f1Ctx f s c g
    match leader? act with
    | none => s.finish (queueLanes c x.g f .rst 4 [])
    | some l =>
      let put := form == .rput
      let target := (x.rd64 f.a l).toNat
      let here := (x.rd64 f.b l).toNat
      let blk := runOf4 x (src3Operand f.c) l
      let len := if put then blk 0 else x.count3 f.c l
      let fault (cause addr : Nat) : State :=
        s.faultWord g { cls := .remoteAccess, cause := cause, lanes := laneMask1 l, addr := addr }
      if target % 4 ≠ 0 ∨ here % 4 ≠ 0 then fault 1 target
      else if len % 4 ≠ 0 ∨ bulkMax < len then fault 2 target
      else if put ∧ (notifyBad (blk 1) ∨ blk 1 / 2 ^ 31 ≠ 0 ∨ blk 3 ≠ 0) then fault 3 target
      else
        match bulkXl s x l (some (target, put)) (if len = 0 then none else some (here, !put)) with
        | .wait s => s.hold x.g
        | .fail fs => s.faultWord g (xlFault fs)
        | .ok s ts =>
          match bulkLost s l ts with
          | some e => s.faultWord g e
          | none =>
            let k := { copyBase x g.pc form .frame l with
              dst := if put then 0 else here, src := if put then here else 0, len := len, rel := f1Rel f,
              due := x.g.firedInsts.filterMap fun i => f1Due c g f i,
              notify := if put then notifyOf (blk 1) (blk 2) false else none, remote := bulkPeer ts, target := target }
            s.finish (((x.g.release f).foot [target, here]).queue (.copy k))

def execRput (f : F1) (s : State) : Out := bulkWord s f .rput
def execRget (f : F1) (s : State) : Out := bulkWord s f .rget

/-- SPW: the data of the active lanes, ascending, low word first (R315). -/
def execSpw (f : F1) (s : State) : Out :=
  withIssuer s fun c g =>
    let (x, act) := f1Ctx f s c g
    match leader? act with
    | none => s.finish (x.g.release f)
    | some l =>
      let h := (x.rd f.a l).toNat
      let ok := match s.coreSpan s.cur.1 h with
        | some (_, sp) => sp.producer == s.cur.1
        | none => false
      if ok then
        let ws := (maskLanes act).flatMap fun j =>
          if f.fn = 5 then [loWord (x.rd64 f.b j), hiWord (x.rd64 f.b j)] else [x.rd f.b j]
        s.finish ((x.g.release f).queue (.spw h (f1Rel f) ws))
      else s.faultWord g { cls := .remoteAccess, cause := 4, lanes := laneMask1 l }

end Sys2Proof.Machine
end

