-- ==== Sys2Proof/Decode.lean ====
section
/-! DEFINITION. Decoding a 64-bit instruction word: cut it into fields by its format (R40 to R42, R50 to R55), apply
the tests of R68 in their order, and build the instruction; and the encoder. -/

namespace Sys2Proof

/-! ## Cutting a word into fields -/

/-- Bits hi:lo of a word, as a number. -/
def bits (w lo n : Nat) : Nat := w / 2 ^ lo % 2 ^ n

/-- The fields of F0, F1, F3, F4 and F6 (R42, R50, R52 to R54). -/
def Raw.ofNat (w : Nat) : Raw :=
  ⟨bits w 56 8, bits w 52 4, bits w 44 8, bits w 36 8, bits w 28 8, bits w 20 8, bits w 19 1, bits w 16 3, bits w 15 1,
    bits w 0 15⟩

/-- The fields of F2 (R51). -/
def Raw2.ofNat (w : Nat) : Raw2 :=
  ⟨bits w 56 8, bits w 52 4, bits w 40 12, bits w 37 3, bits w 29 8, bits w 21 8, bits w 19 2, bits w 16 3, bits w 15 1,
    bits w 7 8, bits w 3 4, bits w 0 3⟩

/-- The fields of F5 (R55). -/
def Raw5.ofNat (w : Nat) : Raw5 :=
  ⟨bits w 44 12, bits w 40 4, bits w 39 1, bits w 35 4, bits w 34 1, bits w 27 7, bits w 0 27⟩

/-- R41: the format follows from OP alone. -/
def Fields.ofNat (w : Nat) : Fields :=
  match fmtOf (bits w 56 8) with
  | some .f2 => .tok (Raw2.ofNat w)
  | some .f5 => .clause (Raw5.ofNat w)
  | _ => .std (Raw.ofNat w)

/-! ## Building the instruction -/

/-- The guard of G and GN (R43). -/
def Guard.ofRaw (g gn : Nat) : Guard :=
  if h : g < 7 then .pred ⟨g, h⟩ (gn == 1) else .always

/-- Field C with IC (R44). -/
def Src3.ofRaw (c ic : Nat) : Option Src3 :=
  if ic = 1 then some (.imm (BitVec.ofNat 8 c)) else (Operand.ofCode c).map .op

def F0.ofRaw (r : Raw) : Option F0 :=
  match Operand.ofCode r.d, Operand.ofCode r.a, Operand.ofCode r.b, Src3.ofRaw r.c r.ic, Ty.ofCode (r.lo / 2048) with
  | some d, some a, some b, some c, some t =>
    some { fn := BitVec.ofNat 4 r.fn, d := d, a := a, b := b, c := c, g := Guard.ofRaw r.g r.gn, t := t,
           md := BitVec.ofNat 3 (r.lo / 256), x := BitVec.ofNat 8 r.lo }
  | _, _, _, _, _ => none

def F1.ofRaw (r : Raw) : Option F1 :=
  match Operand.ofCode r.d, Operand.ofCode r.a, Operand.ofCode r.b, Src3.ofRaw r.c r.ic with
  | some d, some a, some b, some c =>
    some { fn := BitVec.ofNat 4 r.fn, d := d, a := a, b := b, c := c, g := Guard.ofRaw r.g r.gn,
           scope := Scope.ofCode (r.lo / 4096), order := Order.ofCode (r.lo / 1024 % 4),
           flag := BitVec.ofNat 4 (r.lo / 64), l1pol := BitVec.ofNat 2 (r.lo / 16), l2pol := BitVec.ofNat 2 (r.lo / 4) }
  | _, _, _, _ => none

def F2.ofRaw (r : Raw2) : Option F2 :=
  match Operand.ofCode r.tag, Operand.ofCode r.pay, Operand.ofCode r.col with
  | some tag, some pay, some col =>
    some { fn := BitVec.ofNat 4 r.fn, dblk := BitVec.ofNat 12 r.dblk, slot := BitVec.ofNat 3 r.slot, tag := tag,
           pay := pay, g := Guard.ofRaw r.g r.gn, col := col, plen := BitVec.ofNat 4 r.plen, rsc := Scope.ofCode r.rsc }
  | _, _, _ => none

def F3.ofRaw (r : Raw) : Option F3 :=
  match Operand.ofCode r.d, Operand.ofCode r.a, Operand.ofCode r.b, Operand.ofCode r.c with
  | some d, some a, some b, some c =>
    some { fn := BitVec.ofNat 4 r.fn, d := d, a := a, b := b, fb := c, g := Guard.ofRaw r.g r.gn,
           shape := BitVec.ofNat 4 (r.lo / 2048), spar := BitVec.ofNat 2 (r.lo / 512), gangb := r.lo / 256 % 2 == 1,
           flag := BitVec.ofNat 4 (r.lo / 16) }
  | _, _, _, _ => none

def F4.ofRaw (r : Raw) : Option F4 :=
  match Operand.ofCode r.d, Operand.ofCode r.a, Operand.ofCode r.b, Src3.ofRaw r.c r.ic with
  | some d, some a, some b, some c =>
    some { fn := BitVec.ofNat 4 r.fn, desc := d, a := a, b := b, c := c, g := Guard.ofRaw r.g r.gn,
           tbuf := BitVec.ofNat 3 (r.lo / 4096), flag := BitVec.ofNat 4 (r.lo / 256), tok := r.lo / 128 % 2 == 1,
           texit := BitVec.ofNat 3 (r.lo / 16) }
  | _, _, _, _ => none

def F6.ofRaw (r : Raw) : Option F6 :=
  match Operand.ofCode r.d, Operand.ofCode r.a, Operand.ofCode r.b, Src3.ofRaw r.c r.ic with
  | some d, some a, some b, some c =>
    some { fn := BitVec.ofNat 4 r.fn, d := d, a := a, b := b, c := c, g := Guard.ofRaw r.g r.gn,
           code := BitVec.ofNat 12 (r.lo / 8) }
  | _, _, _, _ => none

def F5.ofRaw (r : Raw5) : F5 :=
  { wait := BitVec.ofNat 12 r.wait, set0 := BitVec.ofNat 4 r.set0, v0 := r.v0 == 1, set1 := BitVec.ofNat 4 r.set1,
    v1 := r.v1 == 1, len := BitVec.ofNat 7 r.len }

/-- The F0 instruction of an OP and FN (R66). -/
def ctorF0 (op fn : Nat) : Option (F0 → Instr) :=
  match op with
  | 0x07 => some .colalloc
  | 0x08 => some .colfree
  | 0x09 => some .packc
  | 0x0A => some .unpackc
  | 0x0B => if fn = 0 then some .bintimTimer else some .bintimPrio
  | 0x0C => some .ldblk
  | 0x0E => some .qwait
  | 0x10 => some .mov
  | 0x11 => some .movk
  | 0x12 => if fn = 0 then some .movi else some .moviBy
  | 0x13 => some .add
  | 0x14 => some .sub
  | 0x15 => some .mul
  | 0x16 => some .mulhi
  | 0x17 => some .mad
  | 0x18 => some .madw
  | 0x19 => some .div
  | 0x1A => some .rem
  | 0x1B => some .abs
  | 0x1C => some .neg
  | 0x1D => some .min
  | 0x1E => some .max
  | 0x1F => some .shl
  | 0x20 => some .shr
  | 0x21 => some .sar
  | 0x22 => some .rol
  | 0x23 => some .and
  | 0x24 => some .or
  | 0x25 => some .xor
  | 0x26 => some .not
  | 0x27 => some .andn
  | 0x28 => some .bfe
  | 0x29 => some .bfi
  | 0x2A => some .brev
  | 0x2B => some .clz
  | 0x2C => some .ctz
  | 0x2D => some .popc
  | 0x2E => some .sel
  | 0x2F => some .cmp
  | 0x30 => some .lea
  | 0x31 => some .cvti
  | 0x32 => some .pand
  | 0x33 => some .por
  | 0x34 => some .pxor
  | 0x35 => some .pnot
  | 0x40 => some .shfl
  | 0x41 => some .vote
  | 0x42 => some .ballot
  | 0x43 => if fn = 0 then some .matchAny else some .matchAll
  | 0x44 => some .redg
  | 0x45 => some .scang
  | 0x46 => some .emrd
  | 0x47 => if fn = 0 then some .emwrAnd else some .emwrSet
  | 0x50 => some .fadd
  | 0x51 => some .fsub
  | 0x52 => some .fmul
  | 0x53 => some .ffma
  | 0x54 => some .fmin
  | 0x55 => some .fmax
  | 0x56 => some .fabs
  | 0x57 => some .fneg
  | 0x58 => some .fcmp
  | 0x59 => some .fclass
  | 0x5A => some .frnd
  | 0x5B => some .fcvt
  | 0x5C => some .fdiv
  | 0x5D => some .fsqrt
  | 0x5E => some .hadd2
  | 0x5F => some .hmul2
  | 0x60 => some .hfma2
  | 0x61 => if fn = 0 then some .sflgRd else if fn = 1 then some .sflgRdc else if fn = 2 then some .sflgSet else some .sflgClr
  | 0x70 => some .rcp
  | 0x71 => some .rsq
  | 0x72 => some .exp2
  | 0x73 => some .log2
  | 0x74 => some .sin
  | 0x75 => some .cos
  | 0x76 => some .tanh
  | 0x77 => some .sigm
  | 0x78 => some .teval
  | 0x79 => some .tload
  | 0x7A => some .tswap
  | 0x80 => some .qnt
  | 0x81 => some .dqnt
  | 0x82 => some .scale
  | 0x83 => some .bspack
  | 0x84 => some .bsunpack
  | 0x85 => if fn = 0 then some .cvtnUp else if fn = 1 then some .cvtnDn else if fn = 2 then some .cvtnDense else some .cvtnBytes
  | 0x86 => some .spcmp
  | 0x87 => some .spexp
  | 0x88 => some .rncv
  | 0x89 => some .rncrt
  | 0x8A => some .rnadd
  | 0x8B => some .rnsub
  | 0x8C => some .rnmul
  | 0x8D => some .rnmad
  | 0x8E => some .rnneg
  | 0x8F => some .rnscl
  | _ => none

/-- The F1 instruction of an OP and FN (R66). -/
def ctorF1 (op fn : Nat) : Option (F1 → Instr) :=
  match op with
  | 0xA0 => some .ldf
  | 0xA1 => some .stf
  | 0xA2 => some .ldw
  | 0xA3 => some .lda
  | 0xA4 => if fn < 8 then some .sta else some .staNb
  | 0xA5 => some .ldc
  | 0xA6 => some .stc
  | 0xA7 => some .pres
  | 0xA8 => some .atoma
  | 0xB0 => some .ldg
  | 0xB1 => some .stg
  | 0xB2 => some .fetch
  | 0xB3 => some .atom
  | 0xB4 => some .red
  | 0xB5 => some .fence
  | 0xB6 => some .bar
  | 0xB7 => some .cbar
  | 0xB8 => if fn = 0 then some .cprefL1 else if fn = 1 then some .cprefL2 else some .cprefEx
  | 0xB9 => if fn = 0 then some .cinvLine else some .cinvAll
  | 0xBA => if fn = 0 then some .cflushLine else some .cflushDie
  | 0xBB => some .lset
  | 0xD0 => some .rld
  | 0xD1 => some .rst
  | 0xD2 => some .ratom
  | 0xD3 => some .rput
  | 0xD4 => some .rget
  | 0xD5 => some .spw
  | 0xD6 => some .mcst
  | 0xD7 => some .mcput
  | 0xD8 => some .cfaa
  | 0xD9 => some .cfaan
  | _ => none

/-- The F2 instruction of an OP (R365). -/
def ctorF2 (op : Nat) : Option (F2 → Instr) :=
  match op with
  | 0x02 => some .send
  | 0x03 => some .sendv
  | 0x04 => some .sendf
  | 0x05 => some .exit
  | 0x06 => some .eos
  | _ => none

/-- The F3 instruction of an OP and FN (R260). -/
def ctorF3 (op fn : Nat) : Option (F3 → Instr) :=
  match op with
  | 0x90 => some .mma
  | 0x91 => some .gmma
  | 0x92 => some .gang
  | 0x93 => some .fmtb
  | 0x94 => some .gthr
  | 0x95 => some .spmma
  | 0x96 => some .rnmma
  | 0x97 => some .accz
  | 0x98 => some .accld
  | 0x99 => if fn = 0 then some .accst else if fn = 1 then some .accstAdd else some .accstRnadd
  | 0x9A => if fn = 0 then some .acccvRn else some .acccvSc
  | _ => none

/-- The F4 instruction of an OP and FN (R133). -/
def ctorF4 (op fn : Nat) : Option (F4 → Instr) :=
  match op with
  | 0xC0 => if fn = 0 then some .cpyMm else if fn = 1 then some .cpyIn else some .cpyOut
  | 0xC1 => if fn = 1 then some .cpytIn else some .cpytOut
  | 0xC2 => some .cpygIn
  | 0xC3 => some .cpysOut
  | 0xC4 => if fn = 0 then some .cpyfMm else some .cpyfIn
  | 0xC5 => if fn = 0 then some .cpypMm else if fn = 1 then some .cpypIn else some .cpypOut
  | 0xC6 => if fn = 1 then some .cpyspIn else if fn = 2 then some .cpyspOut else some .cpyspOutc
  | _ => none

/-- The F6 instruction of an OP and FN (R366, R401). -/
def ctorF6 (op fn : Nat) : Option (F6 → Instr) :=
  match op with
  | 0x0D => some .cfgw
  | 0xE0 => some .trap
  | 0xE1 => if fn = 0 then some .resume else some .resumePast
  | 0xE2 => if fn = 0 then some .abort else some .abortRegion
  | 0xE3 => some .srrd
  | 0xE4 => some .srwr
  | 0xE5 => if fn = 0 then some .fltrdWord else some .fltrdNext
  | 0xE6 => some .bkpt
  | 0xE7 => some .halt
  | 0xE8 => some .sigchk
  | 0xE9 => some .keyset
  | 0xEA => if fn = 0 then some .preemptSave else some .preemptRestore
  | _ => none

/-- A built instruction: its constructor applied to its fields, where both exist. -/
def applyCtor {α : Type} (c : Option (α → Instr)) (f : Option α) : Option Instr :=
  match c, f with
  | some c, some f => some (c f)
  | _, _ => none

/-- The instruction of checked fields. -/
def Fields.build : Fields → Option Instr
  | .clause r => some (.clauseHeader (F5.ofRaw r))
  | .tok r => applyCtor (ctorF2 r.op) (F2.ofRaw r)
  | .std r =>
    if r.op = 1 then some .nop
    else
      match fmtOf r.op with
      | some .f0 => applyCtor (ctorF0 r.op r.fn) (F0.ofRaw r)
      | some .f1 => applyCtor (ctorF1 r.op r.fn) (F1.ofRaw r)
      | some .f3 => applyCtor (ctorF3 r.op r.fn) (F3.ofRaw r)
      | some .f4 => applyCtor (ctorF4 r.op r.fn) (F4.ofRaw r)
      | some .f6 => applyCtor (ctorF6 r.op r.fn) (F6.ofRaw r)
      | _ => none

/-- Decode a word in a block of register demand `regd`: the first row of R68 that it fails, or the instruction. -/
def decodeFields (regd : Nat) (fs : Fields) : Except Check Instr :=
  match fs.check regd with
  | some c => .error c
  | none =>
    match fs.build with
    | some i => .ok i
    | none => .error .reservedOp

/-- Decode a 64-bit word (R40, R68). -/
def decode (regd : Nat) (w : DWord) : Except Check Instr := decodeFields regd (Fields.ofNat w.toNat)

/-- R40: a word is stored little-endian; the eight bytes from its lowest address. -/
def wordOfBytes (bs : List Byte) : DWord :=
  BitVec.ofNat 64 (bs.foldr (fun b acc => b.toNat + 256 * acc) 0)

/-- Decode the first eight bytes of a list, and the rest of the list. -/
def decodeBytes (regd : Nat) (bs : List Byte) : Except Check (Instr × List Byte) :=
  (decode regd (wordOfBytes (bs.take 8))).map fun i => (i, bs.drop 8)

/-- The instruction the decoder reads from a word given by the host's numbering: bit 0 is the least significant bit of
the one 64-bit word; bits at and above `nbits` are zero. -/
def decodeTableWord (nbits w : Nat) : Option Instr :=
  match decode 128 (BitVec.ofNat 64 (w % 2 ^ nbits)) with
  | .ok i => some i
  | .error _ => none

/-! ## The encoder -/

/-- The word of the fields of the shared layout (R42, R50, R52 to R54). -/
def Raw.toNat (r : Raw) : Nat :=
  r.op * 2 ^ 56 + r.fn * 2 ^ 52 + r.d * 2 ^ 44 + r.a * 2 ^ 36 + r.b * 2 ^ 28 + r.c * 2 ^ 20 + r.ic * 2 ^ 19 +
    r.g * 2 ^ 16 + r.gn * 2 ^ 15 + r.lo

/-- The word of the fields of F2 (R51). -/
def Raw2.toNat (r : Raw2) : Nat :=
  r.op * 2 ^ 56 + r.fn * 2 ^ 52 + r.dblk * 2 ^ 40 + r.slot * 2 ^ 37 + r.tag * 2 ^ 29 + r.pay * 2 ^ 21 + r.z * 2 ^ 19 +
    r.g * 2 ^ 16 + r.gn * 2 ^ 15 + r.col * 2 ^ 7 + r.plen * 2 ^ 3 + r.rsc

/-- The word of the fields of F5 (R55); OP is zero. -/
def Raw5.toNat (r : Raw5) : Nat :=
  r.wait * 2 ^ 44 + r.set0 * 2 ^ 40 + r.v0 * 2 ^ 39 + r.set1 * 2 ^ 35 + r.v1 * 2 ^ 34 + r.len * 2 ^ 27 + r.z

def Fields.toNat : Fields → Nat
  | .std r => r.toNat
  | .tok r => r.toNat
  | .clause r => r.toNat

/-- The word of an instruction; none for an event. -/
def encode (i : Instr) : Option DWord := i.fields.map fun fs => BitVec.ofNat 64 fs.toNat

end Sys2Proof
end

