-- ==== Sys2Proof/Machine/Area.lean ====
section
/-! DEFINITION. What a core's poste restante area holds: spilled records (R34), payload beyond the payload stores (R28), and tokens beyond
the barrier hold (R292). -/

namespace Sys2Proof.Machine

/-- Bytes of a record: its entry of 32 bytes and its frame lines (assumption log). -/
def recBytes (e : Entry) : Nat := 32 + 128 * e.lines

/-- Bytes that a descriptor captures in the payload store (R28; log entry 65): 4 for a word, 8 for an address, an operand or the element of
a lane. -/
def SendItem.payloadBytes : SendItem → Nat
  | .token t | .frameTok t _ => 4 * t.payload.length
  | .copy k => 64 + 8 * k.lanes.length
  | .remote _ _ _ _ _ parts => (parts.map fun p => 24 * p.2.length).foldl (· + ·) 0
  | .mcst _ _ (some m) => 24 + (m.items.map fun p => 8 + p.2.length).foldl (· + ·) 0
  | .spw _ _ words => 4 * words.length
  | .cfgw cmds => 8 * cmds.length
  | .sigchk _ _ _ _ _ => 24
  | .keyset _ _ _ | .preempt _ _ _ _ => 16
  | .mcst _ _ none | .atomRet _ _ _ | .copyTok _ _ | .lateTok _ _ | .flush _ _ _ | .halt | .colFree _ => 0

/-- Bytes of the payload store and of a record of payload. -/
def payloadStore : Nat := 8192
def payloadRecord : Nat := 2048

/-- Records of payload that a group has in the area. -/
def Group.payloadRecords (g : Group) : Nat :=
  ((g.sendq.map SendItem.payloadBytes).foldl (· + ·) 0 - payloadStore + (payloadRecord - 1)) / payloadRecord

/-- Tokens of the barrier hold, and bytes of one in the area (R292, R394). -/
def barrierHoldSize : Nat := 1024
def heldTokenBytes : Nat := 80

/-- Bytes of the area in use. -/
def Core.spillUsed (c : Core) : Nat :=
  (c.spilled.map fun r => recBytes r.entry).foldl (· + ·) 0 +
    payloadRecord * (c.groups.map fun e => e.2.payloadRecords).foldl (· + ·) 0 +
    heldTokenBytes * ((c.outbox.filter fun o => !o.bars.isEmpty).length - barrierHoldSize)

/-- The word that led here put payload into an area that cannot take it (R28). -/
def State.payloadFull (s : State) (ci gi : Nat) (before : Group) : Bool :=
  let c := s.core ci
  match c.group? gi with
  | some g => before.payloadRecords < g.payloadRecords && c.cfg.prSize * 4096 < c.spillUsed
  | none => false

/-- The word waits at issue, and the core writes SPILL_FULL when this wait begins, whatever the word waited for before (R28, R37). -/
def State.payloadHold (s : State) (ci gi : Nat) (g : Group) : State :=
  let t := s.setGroup ci gi { g with status := .waiting, areaWait := some g.pc }
  if g.areaWait == some g.pc then t
  else
    let c := s.core ci
    (t.raise c.cfg.asid (srcCore ci) (dieOf ci) .spillFull false false (tailOf [(6, c.spilled.length)]) (some ci) false).2

end Sys2Proof.Machine
end

