-- ==== Sys2Proof/Machine/Issue.lean ====
section
/-! DEFINITION. Issue: fetching the next word of a group, decoding it under R68, the register interlock (R58), and the choice
of a ready group (R354 to R356). The meanings of words come in as a function, so that this file stands before them. -/

namespace Sys2Proof.Machine

/-! ## The registers of a word -/

/-- How many registers an operand field of this use names. -/
def useRegs : Use → Nat
  | .s n | .se n => n
  | .d n _ _ => n
  | .run n _ => n
  | .vk n => n
  | .bit => 1
  | .pd => 1
  | _ => 0

/-- The operand codes a field names, from its first. -/
def useCodes (u : Use) (v : Nat) : List Nat := if v = 0xFF then [] else (List.range (useRegs u)).map (v + ·)

/-- The code of the predicate that guards a word. -/
def guardCodes (g : Nat) : List Nat := if g < 7 then [0xE0 + g] else []

/-- R58: the codes of the registers and predicates that a word reads or writes. -/
def touchedCodes : Fields → List Nat
  | .std r =>
    guardCodes r.g ++
      (match fmtOf r.op with
        | none => []
        | some fm =>
          match entryOf r.op r.fn (r.t fm) r.ic with
          | none => []
          | some e => useCodes e.d r.d ++ useCodes e.a r.a ++ useCodes e.b r.b ++ (if r.ic = 1 then [] else useCodes e.c r.c))
  | .tok r =>
    if r.op = 5 then guardCodes r.g
    else guardCodes r.g ++ [r.tag, r.col] ++ (if r.op = 6 then [] else (List.range (r.plen + 1)).map (r.pay + ·))
  | .clause _ => []

/-- The codes that an outstanding operation will write (R57). -/
def LongOp.codes (o : LongOp) : List Nat :=
  let n := match o.kind with
    | .load _ _ _ | .fetch | .bufLoad _ => sizeRegs o.size.toNat
    | .matrix => 8
    | _ => 1
  let d := match o.dst with
    | .zero => []
    | x => (List.range n).map (x.code + ·)
  d ++ o.writes.map fun w => w.reg.code

/-- R58: the word reads or writes a register that an outstanding operation will write. -/
def Group.interlocked (g : Group) (fs : Fields) : Bool :=
  let cs := touchedCodes fs
  g.ops.any fun o => !o.dead && o.codes.any fun x => cs.contains x

/-! ## Fetch and decode -/

/-- A group whose next word stands in its block: it neither parks (R158) nor commits (R30), and no operation of an abort is
outstanding (R59). -/
def Group.canTry (c : Core) (g : Group) : Bool :=
  (match g.status with
    | .ready | .waiting | .qwait _ => true
    | .parked _ _ | .committing => false) &&
  g.commit.isNone && g.pc < (c.bodyOf g).length && !g.ops.any fun o => o.dead

/-- The word at the group's pc, in its block slot (R60). -/
def fetchWord (c : Core) (g : Group) : DWord := ((c.bodyOf g)[g.pc]?).getD 0

/-- The instruction that issuing the word means: the decoded one; or, for a word that R68 rejects, taking the ILLEGAL
trap. -/
def fetchInstr (c : Core) (g : Group) : Instr :=
  match decode (hdrRegd (c.slotHdr g)) (fetchWord c g) with
  | .ok i => i
  | .error _ => .illegalEncoding (fetchWord c g)

/-- The group tries its next word: with RESUME.PAST the trapping word acts as NOP once (R387); a word that the interlock
stops waits; any other runs, unless its payload finds the poste restante area full (R28). -/
def tryGroup (run : Instr → State → Out) (s : State) (ci gi : Nat) : Out :=
  let c := s.core ci
  match c.group? gi with
  | none => .next s
  | some g =>
    if g.canTry c then
      let s := { s with cur := (ci, gi) }
      if g.passWord == some g.pc then .next (s.finish { g with passWord := none })
      else if g.interlocked (Fields.ofNat (fetchWord c g).toNat) then .next (s.hold g)
      else
        match run (fetchInstr c g) s with
        | .next t => .next (if t.payloadFull ci gi g then s.payloadHold ci gi g else t)
        | o => o
    else .next s

/-! ## The choice of a group (R354 to R356) -/

/-- The group still stands before its word. -/
def State.isHeld (s : State) (ci gi : Nat) : Bool :=
  match (s.core ci).group? gi with
  | none => false
  | some g =>
    match g.status with
    | .waiting | .parked _ _ | .qwait _ => true
    | .ready | .committing => false

/-- What the group's next word would leave, when the group is ready for it (R354). -/
def readyResult (run : Instr → State → Out) (s : State) (ci gi : Nat) : Option Out :=
  match (s.core ci).group? gi with
  | none => none
  | some g =>
    if !g.canTry (s.core ci) then none
    else
      match tryGroup run s ci gi with
      | .next t => if t.isHeld ci gi then none else some (.next t)
      | o => some o

/-- R355: the highest priority first; replays first within a priority; then the oldest firing stamp. -/
def Group.before (a b : Group) : Bool :=
  if a.prio != b.prio then b.prio < a.prio
  else if a.replaying != b.replaying then a.replaying
  else a.stamp ≤ b.stamp

/-- R356: a ready group that is not selected adds one to its pass-over count. -/
def Core.passOver (c : Core) (gi : Nat) : Core :=
  match c.group? gi with
  | none => c
  | some g => c.setGroup gi { g with passOver := min (g.passOver + 1) 1024 }

/-- What a group that is not ready leaves by trying: a TLB miss it queues, a line it parks on. -/
def tryWait (run : Instr → State → Out) (ci : Nat) (s : State) (gi : Nat) : State :=
  match tryGroup run s ci gi with
  | .next t => if t.isHeld ci gi then t else s
  | _ => s

/-- Cycles of a restart (R358). -/
def restartCycles : Nat := 72

/-- A gated core starts its restart. -/
def State.restartCore (s : State) (ci : Nat) : State := s.modCore ci fun c => { c with gate := .restarting (s.arith + restartCycles) }

/-- One vector pipe of a core is free: groups that are not ready try and wait, and of the ready ones the first by R355
issues one word. A gated or restarting core issues nothing; a gated one on which an event has made a group ready starts its restart
(R358). -/
def issueCore (run : Instr → State → Out) (s : State) (ci : Nat) : Out :=
  match (s.core ci).gate with
  | .running _ =>
    let s := (s.core ci).groups.keyList.foldl (tryWait run ci) s
    let c := s.core ci
    let ready := c.groups.filter fun e => (readyResult run s ci e.1).isSome
    match sortBy (fun a b => a.2.before b.2) ready with
    | [] => .next s
    | e :: others =>
      let passed (c : Core) : Core := others.foldl (fun c o => c.passOver o.1) { c with gate := .running none }
      tryGroup run (s.modCore ci passed) ci e.1
  | .gated =>
    .next (if (s.core ci).groups.keyList.any fun gi => (readyResult run s ci gi).isSome then s.restartCore ci else s)
  | .restarting _ => .next s

/-! ## Whose turn it is -/

/-- Time passes: ticks of the GTC once bring-up has started it (R429), arithmetic cycles and mesh cycles. -/
def State.pass (s : State) (t : Turn) : State :=
  { s with gtc := if s.dev.gtcOn then s.gtc + t.ticks else s.gtc, arith := s.arith + t.cycles, mesh := s.mesh + t.mesh }

/-- A die is above 105 °C, or the regulators assert the throttle input (R435). -/
def Device.hot (d : Device) : Bool := d.regulator || d.temps.any fun t => 105 * 16 < t.2.toInt

/-- The throttle condition after one of its inputs changed: it halves the clocks and is counted, or has been clear since now. -/
def State.sense (s : State) (d : Device) : State :=
  s.setDev (if d.hot then { d with throttle := true, throttles := if d.throttle then d.throttles else d.throttles + 1 }
    else if s.dev.hot then { d with coolSince := s.gtc } else d)

/-- One step: the head of the schedule moves, after what ends the cycle when cycles pass first; with an empty schedule, the group that
issued last goes on. -/
def stepWith (run : Instr → State → Out) (soft : SoftError → State → State) (endCycle : State → State) (s : State) : Out :=
  match s.schedule with
  | [] => tryGroup run s s.cur.1 s.cur.2
  | t :: ts =>
    let s := { s with schedule := ts }
    let s := (if t.cycles = 0 then s else endCycle s).pass t
    match t.actor with
    | .issue ci => issueCore run s ci
    | .event e => if e.fields.isNone then run e s else .next s
    | .softError x => .next (soft x s)
    | .temperature die v => .next (s.sense { s.dev with temps := s.dev.temps.put 0 die v })
    | .regulator on => .next (s.sense { s.dev with regulator := on })
    | .power v => .next (s.setDev { s.dev with watts := v })

/-! ## Placing a word -/

/-- A block header that lets every word run: REGD 128, PRIV and GANG set (R60, R61). -/
def placeHeader : List DWord := [w64 (2 ^ 26 + 2 ^ 25), w64 (128 * 2 ^ 56), 0, 0]

/-- A group of one firing of block slot 0, with all lanes enabled (R21, R22). -/
def placeGroup (c : Core) : Group :=
  { bslot := 0, bid := 0, colour := 0, wlog := 0, insts := [], tags := [], em := 0xFFFFFFFF, emFire := 0xFFFFFFFF,
    team := 0, prio := 0, passOver := 0, stamp := 0, pc := 0, status := .ready, regs := [], preds := [], flags := [],
    ops := [], fpsr := 0, sr := allLanes.map fun l => (l, srSeed (c.consts.atD 63 0) l), ll := 2048, gtchi := none,
    latch := none, tbind := c.tcur, undo := [], tileUndo := [], sbuf := [], deposits := [], fences := [], acqWait := false,
    sendq := [], validation := [], mismatches := 0, footprint := [], l1used := [], deferred := [], bars := [], replaying := false,
    passWord := none, resumes := 0, commit := none, base := 0, place := none, areaWait := none }

/-- The word stands as the body of block slot 0 of core 0, a group of that slot stands in group slot 0, and the schedule is
empty, so that the next step runs the word. -/
def State.placeWord (s : State) (w : DWord) : State :=
  let s := s.modCore 0 fun c =>
    let c := c.setSlot 0 { c.slot 0 with bid := 0, resident := true, hdr := placeHeader, body := [w] }
    c.setGroup 0 (placeGroup c)
  { s with schedule := [], cur := (0, 0) }

end Sys2Proof.Machine
end

