-- ==== Sys2Proof/Machine/Steering.lean ====
section
/-! DEFINITION. The clause header and NOP (R58, R67), and the token and graph words (R365 to R378): sends, EXIT, EOS, colours,
pigeonhole controls, LDBLK, CFGW and QWAIT. -/

namespace Sys2Proof.Machine

/-! ## Clause header and NOP -/

/-- R58: the header issues once every flag of WAIT_MASK is clear. -/
def execClauseHeader (f : F5) (s : State) : Out :=
  withIssuer s fun _ g =>
    if (List.range 12).any fun n => f.wait.getLsbD n && g.flags.atD n 0 != 0 then s.hold g else s.finish g

def execNop (s : State) : Out := withIssuer s fun _ g => s.finish g

/-! ## Sends (R367 to R372) -/

/-- The operands an F2 word reads, for the GTC latch. -/
def f2Ctx (f : F2) (s : State) (c : Core) (g : Group) : Ctx × LaneMask :=
  let act := g.active f.g
  ((⟨s, c, g⟩ : Ctx).latch act [f.tag, f.col], act)

/-- The instances with an active lane, each with its leader. -/
def Group.leaders (g : Group) (act : LaneMask) : List (Nat × Nat) :=
  (g.activeInsts act).filterMap fun i => (g.instLeader? act i).map fun l => (i, l)

/-- R367, R368: the token of one instance, with TAG and colour from its leader. -/
def f2Token (x : Ctx) (f : F2) (kind : TokKind) (l : Nat) (payload : List Word) : Token :=
  let col := (x.rd f.col l).toNat
  { kind := kind, blk := f.dblk, slot := f.slot, colour := BitVec.ofNat 12 col, wlog := BitVec.ofNat 3 (col / 2 ^ 12),
    rscope := f.rsc, tag := x.rd f.tag l, payload := payload }

/-- The payload from the leader's registers. -/
def leaderPay (x : Ctx) (f : F2) (l : Nat) : List Word :=
  (List.range (f.plen.toNat + 1)).map fun j => x.rd (opPlus f.pay j) l

/-- The payload gathered from the instance's lanes; an inactive lane gives 0. -/
def gatherPay (x : Ctx) (f : F2) (act : LaneMask) (i : Nat) : List Word :=
  let w := x.g.width
  (List.range (f.plen.toNat + 1)).map fun j =>
    let l := w * i + j % w
    if laneBit act l then x.rd (opPlus f.pay (j / w)) l else 0

/-- Queue one descriptor for each instance with an active lane, in ascending order. -/
def sendWord (s : State) (f : F2) (mk : Ctx → LaneMask → Nat × Nat → SendItem) : Out :=
  withIssuer s fun c g =>
    let (x, act) := f2Ctx f s c g
    s.finish ((g.leaders act).foldl (fun g' il => g'.queue (mk x act il)) x.g)

def execSend (f : F2) (s : State) : Out :=
  sendWord s f fun x _ il => .token (f2Token x f .normal il.2 (leaderPay x f il.2))

def execEos (f : F2) (s : State) : Out :=
  sendWord s f fun x _ il => .token { f2Token x f .eos il.2 [] with colour := 0, wlog := 0 }

def causeFrameHome : Nat := 1
def causeFrameTwice : Nat := 2
def causeWidthRun : Nat := 3

/-- The active lanes of the instances that fail a check of their own (R370). -/
def Group.failing (g : Group) (act : LaneMask) (bad : Nat × Nat → Bool) : LaneMask :=
  maskOf fun l => laneBit act l && (g.leaders act).any fun il => il.1 == l / g.width && bad il

/-- R370 WIDTH_RUN: in a block of class any, the payload is a whole number of runs of g words. -/
def execSendv (f : F2) (s : State) : Out :=
  withIssuer s fun c g =>
    let act := g.active f.g
    if hdrWcls (c.slotHdr g) = 7 ∧ (f.plen.toNat + 1) % g.width ≠ 0 ∧ act ≠ 0 then
      s.faultWord g { cls := .token, cause := causeWidthRun, lanes := act }
    else
      let x := (f2Ctx f s c g).1
      s.finish ((g.leaders act).foldl
        (fun g' il => g'.queue (.token (f2Token x f .normal il.2 (gatherPay x f act il.1)))) x.g)

/-- The block has already handed on the frame of the entry. -/
def Group.handed (g : Group) (entry : Nat) : Bool :=
  g.sendq.any fun it => match it with
    | .frameTok _ e => e == entry
    | _ => false

/-- The matching entry of an instance of the group. -/
def Group.entryOf (g : Group) (i : Nat) : Nat := (g.insts[i]?).getD 0

/-- R13, R369: the token's home core is the issuing core. -/
def homeHere (x : Ctx) (f : F2) (l : Nat) : Bool :=
  match x.s.coreRegion? x.s.cur.1 with
  | some r => x.s.homeCore r x.s.cur.1 f.dblk.toNat (x.rd f.tag l).toNat == some x.s.cur.1
  | none => false

def execSendf (f : F2) (s : State) : Out :=
  withIssuer s fun c g =>
    let (x, act) := f2Ctx f s c g
    let ls := g.leaders act
    let far := g.failing act fun il => !homeHere x f il.2
    let twice := g.failing act fun il => g.handed (g.entryOf il.1)
    if far ≠ 0 then s.faultWord g { cls := .token, cause := causeFrameHome, lanes := far }
    else if twice ≠ 0 then s.faultWord g { cls := .token, cause := causeFrameTwice, lanes := twice }
    else
      s.finish (ls.foldl
        (fun g' il => g'.queue (.frameTok (f2Token x f .normal il.2 (leaderPay x f il.2)) (g.entryOf il.1))) x.g)

/-- R371. -/
def execExit (f : F2) (s : State) : Out :=
  withIssuer s fun _ g =>
    if g.active f.g = 0 then s.finish g
    else s.setGroup s.cur.1 s.cur.2 { g.advance with status := .committing }

/-! ## Colours (R373, R374) -/

/-- Ids that are not free in the grid: live, in a core's reserve, held by a group, or granted and not yet live (R373, R374). -/
def State.idsTaken (s : State) (r : Region) : List Nat :=
  0 :: (r.colours.filter fun e => e.2.live).map Prod.fst ++
    r.cores.flatMap fun ci =>
      let c := s.core ci
      c.reserve ++ c.groups.flatMap fun e => e.2.colour :: e.2.deferred.filterMap fun d => match d with
        | .colAlloc id _ _ => some id
        | _ => none

def State.idFree (s : State) (r : Region) (id : Nat) : Bool := decide (1 ≤ id ∧ id ≤ 4095) && !(s.idsTaken r).contains id

/-- The steward finds no free id in the grid. -/
def State.noFreeId (s : State) (ci : Nat) : Bool :=
  match s.coreRegion? ci with
  | none => true
  | some r =>
    let taken := s.idsTaken r
    (List.range 4096).all fun id => taken.contains id

/-- The live colour that a colour word names; all ones means no colour (R367). -/
def State.liveColour (s : State) (ci w : Nat) : Option Nat :=
  match s.coreRegion? ci with
  | none => none
  | some r =>
    let x := r.colour (w % 4096)
    if x.live ∧ w ≠ 0xFFFFFFFF then some (w % 4096) else none

/-- The least k with w ≤ 2^k (R15). -/
def ceilLog2 (w : Nat) : Nat := ((List.range 6).find? fun k => w ≤ 2 ^ k).getD 0

/-- What one instance asks for: log2 of the granted width and the parent; none where no colour is allocated. -/
abbrev ColAsk := Option (Nat × Option Nat)

/-- R373: allocate in ascending instance order, lowest ids first, and write the colour words. -/
def colWord (s : State) (f : F0) (ask : Ctx → Nat → ColAsk) : Out :=
  withIssuer s fun c g =>
    let (x, act) := f0Ctx f s c g
    let asks := (g.leaders act).map fun il => (il.1, ask x il.2)
    let want := (asks.filter fun a => a.2.isSome).length
    if c.reserve.length < want ∧ !s.noFreeId s.cur.1 then s.hold g
    else
      let step (acc : List Nat × Group) (a : Nat × ColAsk) : List Nat × Group :=
        let lanes := (maskLanes act).filter fun l => l / g.width == a.1
        let put (g : Group) (v : Nat) : Group := g.setLanes f.d 1 (lanes.map fun l => (l, v))
        match a.2, acc.1 with
        | some (k, parent), id :: ids =>
          (ids, put { acc.2 with deferred := acc.2.deferred ++ [.colAlloc id k parent] } (id + k * 4096))
        | _, ids => (ids, put acc.2 0xFFFFFFFF)
      let r := asks.foldl step (c.reserve, x.g)
      (s.modCore s.cur.1 fun c => { c with reserve := r.1 }).finish r.2

def execColalloc (f : F0) (s : State) : Out :=
  colWord s f fun x l =>
    let w := x.count2 f.a f.c l
    if w = 0 ∨ 32 < w then none else some (ceilLog2 w, none)

/-- PACKC and UNPACKC: the source colour, k from 1 to 5, and the new width. -/
def childAsk (f : F0) (wider : Bool) (x : Ctx) (l : Nat) : ColAsk :=
  let w := (x.rd f.a l).toNat
  let k := x.count2 f.b f.c l
  match x.s.liveColour x.s.cur.1 w with
  | none => none
  | some id =>
    let g := w / 4096 % 8
    if k = 0 ∨ 5 < k ∨ 5 < g then none
    else if wider then (if 5 < g + k then none else some (g + k, some id))
    else if g < k then none else some (g - k, some id)

def execPackc (f : F0) (s : State) : Out := colWord s f (childAsk f true)
def execUnpackc (f : F0) (s : State) : Out := colWord s f (childAsk f false)

/-- COLFREE: each distinct colour of the active instances' leaders, once. Colour 0 and colours that are not live are
ignored. -/
def execColfree (f : F0) (s : State) : Out :=
  withIssuer s fun c g =>
    let (x, act) := f0Ctx f s c g
    let ids := dedup ((g.leaders act).filterMap fun il => s.liveColour s.cur.1 (x.rd f.a il.2).toNat)
    let ids := ids.filter (· != 0)
    s.finish (if ids.isEmpty then x.g else { x.g with deferred := x.g.deferred ++ [.colFree ids] })

/-! ## Pigeonholes and block slots (R375, R376) -/

/-- Changes of pigeonholes, the active lanes in ascending order. -/
def bintimWord (s : State) (f : F0) (mk : Nat → Nat → Deferred) : Out :=
  withIssuer s fun c g =>
    let (x, act) := f0Ctx f s c g
    s.finish { x.g with deferred := x.g.deferred ++
      (maskLanes act).map fun l => mk (x.rd f.a l).toNat (x.count2 f.b f.c l) }

def execBintimTimer (f : F0) (s : State) : Out := bintimWord s f fun slot v => .timer slot (v % 65536)
def execBintimPrio (f : F0) (s : State) : Out := bintimWord s f fun slot v => .prio slot (min v 3)

/-- R60, R359: the record address of a block in the region's block directory, 0 when it is absent. The steward keeps the directory of
a region that it armed; a tile that a steward graph armed reads the one at BDIR_PA. -/
def State.blockRec (s : State) (c : Core) (bid : Nat) : Nat :=
  match (c.region.bind s.region?).filter fun r => !r.loose with
  | some r => ((r.blocks.find? fun b => b.bid == bid).map fun b => b.recPA).getD 0
  | none => if bid < 4095 then s.rdNat (c.cfg.bdirPA + 8 * bid) 8 else 0

/-- Words of the block store: header and body (R40, R64). -/
def storeWords : Nat := 8192

/-- The header words of a record. -/
def State.recHdr (s : State) (pa : Nat) : List DWord := (List.range 4).map fun i => s.rd64 (pa + 8 * i)

/-- The runs of the block store in use, as (first word, words), but for one slot. -/
def Core.storeRuns (c : Core) (but : Nat) : List (Nat × Nat) :=
  (c.cfg.slots.filter fun e => e.1 != but && e.2.bid != 0xFFF).map fun e => (e.2.storeAt, 4 + hdrLen e.2.hdr)

/-- The lowest run of free words of a length. -/
def freeRun? (used : List (Nat × Nat)) (n : Nat) : Option Nat :=
  ((sortBy (· ≤ ·) (0 :: used.map fun r => r.1 + r.2)).find? fun a =>
    decide (a + n ≤ storeWords) && used.all fun r => a + n ≤ r.1 || r.1 + r.2 ≤ a)

/-- R376 status 2: the block of a slot has an instance, a group or a held token on the core. -/
def Core.slotBusy (c : Core) (slot : Nat) : Bool :=
  let b := (c.slot slot).bid
  b != 0xFFF &&
    ((c.entries.any fun e => e.2.bid == b) || (c.spilled.any fun r => r.entry.bid == b) ||
      (c.groups.any fun e => e.2.bslot == slot) || (c.overlay ++ c.spillHeld).any fun t => t.tok.blk.toNat == b)

/-- The status of a request: the first row of R376, after acceptance, that applies. -/
def ldblkStatus (s : State) (c : Core) (bid slot : Nat) : Nat :=
  let pa := s.blockRec c bid
  if pa = 0 then 1
  else if 127 < slot ∨ c.slotBusy slot then 2
  else if (freeRun? (c.storeRuns slot) (4 + hdrLen (s.recHdr pa))).isNone then 3
  else if c.cfg.slots.any fun e => e.2.bid == bid && e.2.resident then 4
  else 0

def execLdblk (f : F0) (s : State) : Out :=
  withIssuer s fun c g =>
    let (x, act) := f0Ctx f s c g
    match leader? act with
    | none => s.finish x.g
    | some l =>
      let bid := (x.rd f.a l).toNat
      let slot := (x.rd f.b l).toNat
      let st := ldblkStatus s c bid slot
      let g := x.g.setLanes f.d 1 ((maskLanes act).map fun l => (l, st))
      if st = 0 then
        (s.modCore s.cur.1 fun c => c.setSlot slot { c.slot slot with closing := true }).finish
          { g with deferred := g.deferred ++ [.ldblk slot bid] }
      else s.finish g

/-! ## CFGW and QWAIT (R377, R378) -/

/-- On a steward only, even with PRIV. -/
def execCfgw (f : F6) (s : State) : Out :=
  withIssuer s fun c g =>
    privileged s c g
      (if s.cur.1 < 1024 then s.faultWord g { cls := .privilege }
      else
        let act := g.active f.g
        let x := (⟨s, c, g⟩ : Ctx).latch act [f.a, f.b]
        s.finish (if act = 0 then x.g
          else x.g.queue (.cfgw ((maskLanes act).map fun l => ((x.rd f.a l).toNat, x.rd f.b l)))))

/-- The occupancy of a queue of the core: Courier entries, matrix queue entries, matching entries, spilled records. -/
def Core.occupancy (c : Core) (q : Nat) : Nat :=
  match q with
  | 0 => c.courier.length
  | 1 => c.matEntries
  | 2 => c.entries.length
  | _ => c.spilled.length

/-- The cycles after which QWAIT releases its group. -/
def qwaitLimit : Nat := 65536

/-- QWAIT ends: D receives 1 or 0 in every active lane. -/
def State.qwaitEnd (s : State) (ci gi : Nat) (f : F0) (g : Group) (v : Nat) : State :=
  s.setGroup ci gi (g.setLanes f.d 1 ((maskLanes (g.active f.g)).map fun l => (l, v))).advance

/-- The cycle in which the group's wait began: this one, when it begins now. -/
def qwaitSince (s : State) (g : Group) : Nat :=
  match g.status with
  | .qwait t => t
  | _ => s.arith

def execQwait (f : F0) (s : State) : Out :=
  withIssuer s fun c g =>
    let (x, act) := f0Ctx f s c g
    match leader? act with
    | none => s.finish x.g
    | some l =>
      if c.occupancy f.fn.toNat ≤ x.count2 f.a f.c l then s.qwaitEnd s.cur.1 s.cur.2 f x.g 1
      else if qwaitSince s g + qwaitLimit ≤ s.arith then s.qwaitEnd s.cur.1 s.cur.2 f x.g 0
      else s.setGroup s.cur.1 s.cur.2 { g with status := .qwait (qwaitSince s g) }

/-- The QWAIT that a group stands at, with the cycle its wait began. -/
def qwaitAt (c : Core) (g : Group) : Option (F0 × Nat) :=
  match g.status with
  | .qwait t =>
    match fetchInstr c g with
    | .qwait f => some (f, t)
    | _ => none
  | _ => none

/-- The QWAIT that the group stands at would end now: the queue is at its threshold, or the time is over. -/
def State.qwaitOver (s : State) (ci : Nat) (g : Group) : Bool :=
  let c := s.core ci
  match qwaitAt c g with
  | none => false
  | some (f, t) =>
    let act := g.active f.g
    let x : Ctx := ⟨s, c, g⟩
    match leader? act with
    | none => true
    | some l => decide (c.occupancy f.fn.toNat ≤ x.count2 f.a f.c l) || decide (t + qwaitLimit ≤ s.arith)

/-- QWAIT_TIMEOUT: a QWAIT that has waited 65,536 cycles releases its group and writes 0. -/
def execQwaitTimeout (core grp : Nat) (s : State) : Out :=
  match (s.core core).group? grp with
  | none => .next s
  | some g =>
    match qwaitAt (s.core core) g with
    | none => .next s
    | some (f, t) => .next (if t + qwaitLimit ≤ s.arith then s.qwaitEnd core grp f g 0 else s)

end Sys2Proof.Machine
end

