-- ==== Sys2Proof/Machine/EvMatch.lean ====
section
/-! DEFINITION. The matching store and its events: token arrival (R11, R16 to R18), sinks (R362), collection (R19 to R25), and
the poste restante (R34 to R37). -/

namespace Sys2Proof.Machine

/-! ## Blocks and frames -/

/-- The slot that holds a block and admits instances of it (R359, R376). -/
def Core.residentSlot (c : Core) (bid : Nat) : Option (Nat × BlockSlot) :=
  c.cfg.slots.find? fun e => e.2.bid == bid && e.2.resident && !e.2.closing

/-- Frame lines of a block (R153). -/
def frameLines (h : List DWord) : Nat := (hdrFrmc h + 1) / 2

/-- The runs of frame memory in use, as (first line, lines): entries and frames handed on. -/
def Core.frameRuns (c : Core) : List (Nat × Nat) :=
  let mine := c.entries.map fun e => (e.2.frame / 128, e.2.lines)
  let onward := c.handed.map fun h => (h.2.1 / 128, h.2.2)
  (mine ++ onward).filter fun r => r.2 != 0

/-- A frame handed on with the entry's number (R369): its offset and lines. -/
def Core.handedOn (c : Core) (id : Nat) : Option (Nat × Nat) :=
  (c.handed.find? fun h => h.1 == id).map fun h => (h.2.1, h.2.2)

def Core.freeFrameLines (c : Core) : Nat := c.partSize .frame / 128 - (c.frameRuns.map Prod.snd).foldl (· + ·) 0

/-- Where a frame of n lines goes, as a byte offset: the lowest free run of lines. The spec says how many lines a frame takes and neither
that they are contiguous nor where they lie: contiguity and the lowest place are the model's choice (R16, R153; log entry 153). -/
def Core.freeFrame? (c : Core) (n : Nat) : Option Nat :=
  let used := c.frameRuns
  (((sortBy (· ≤ ·) (0 :: used.map fun r => r.1 + r.2)).find? fun a =>
    decide ((a + n) * 128 ≤ c.partSize .frame) && used.all fun r => a + n ≤ r.1 || r.1 + r.2 ≤ a)).map (· * 128)

/-- Zero a run of frame lines (R153). -/
def Core.clearFrame (c : Core) (at_ lines : Nat) : Core :=
  { c with frame := c.frame.filter fun e => !(at_ ≤ e.1 && e.1 < at_ + 128 * lines) }

/-- Entries of the matching store (R16). -/
def matchEntries : Nat := 4096

/-- Entries in use, with those that records on their way back will take (R36). -/
def Core.entriesUsed (c : Core) : Nat := c.entries.length + (c.spilled.filter fun r => r.toCore).length

/-! ## Refusals of the matching store (R17, R298, R383) -/

/-- The packet that a dead letter of a token names. -/
def tokenPacket (s : State) (t : InTok) : Packet :=
  { key := t.key, inc := t.inc, srcDev := t.srcDev, dstDev := s.dev.devNum, srcCore := t.srcCore, tasid := t.tasid, tva := 0, reqid := 0,
    body := .token t.tok }

/-- A token is discarded with a dead-letter record of the consumer's ASID (R298, R299); a frame handed on with it is freed. -/
def State.refuse (s : State) (ci : Nat) (t : InTok) (cause : Nat) : State :=
  let s := s.modCore ci fun c => { c with handed := c.handed.filter fun h => some h.1 != t.frame }
  s.deadLetter (s.core ci).cfg.asid (srcCore ci) (dieOf ci) (deadTail cause 0 (placeTile ci) (tokenPacket s t))
    (t.tok.kind == .handler) (some ci)

/-- The fault record of a token at the matching store: WIDTH 0x10 or DUPLICATE 0x11. -/
def State.tokenRecord (s : State) (ci : Nat) (t : InTok) (cause kept : Nat) : State :=
  let k := t.tok
  s.lateRecord ci .token (tailOf
    [(2, cause * 2 ^ 56 + k.blk.toNat * 2 ^ 32 + k.colour.toNat * 2 ^ 16 + k.slot.toNat * 2 ^ 8 + k.wlog.toNat),
     (3, t.srcDev * 2 ^ 16 + t.srcCore % 1024), (4, kept), (5, k.tag.toNat), (6, s.gtcAt (dieOf ci)),
     (7, ((k.payload[0]?).getD 0).toNat)])

/-! ## Instances -/

def Entry.is (e : Entry) (t : Token) : Bool := e.bid == t.blk.toNat && e.colour == t.colour.toNat && e.tag == t.tag

/-- A cell's bytes: the payload, then zeros (R16). -/
def cellBytes (t : Token) : List Byte := (List.range 16).flatMap fun i => natLe 4 ((t.payload[i]?).getD 0).toNat

/-- The presence bits of an arity, all set. -/
def fullPresence (arity : Nat) : Nat := 2 ^ arity - 1

/-- The entry after a payload arrived at a tick; complete when its last presence bit is set (R18). -/
def Entry.receive (e : Entry) (t : Token) (now cycle arity period : Nat) : Entry :=
  let p := e.presence ||| BitVec.ofNat 8 (2 ^ t.slot.toNat)
  let e := { e with presence := p, stamps := e.stamps.ins t.slot.toNat now, latest := now }
  if p.toNat = fullPresence arity then { e with phase := .complete, completed := cycle, deadline := cycle + 4 * period } else e

/-- The index of an instance in the spill filter (R34). -/
def filterIx (c : Core) (e : Entry) : Nat :=
  let slot := match c.cfg.slots.find? fun x => x.2.bid == e.bid with
    | some x => x.1
    | none => 0
  Config.spillHash slot e.colour e.tag.toNat % 65536

def tokenEntry (t : Token) : Entry :=
  { bid := t.blk.toNat, colour := t.colour.toNat, tag := t.tag, presence := 0, stamps := [], latest := 0, frame := 0,
    lines := 0, phase := .incomplete, completed := 0, deadline := 0 }

/-- Where the matching store finds an instance (R35). -/
inductive Found where
  | resident (id : Nat) (e : Entry)
  | spilled (r : SpillRec)
  | moving
  | absent
  deriving DecidableEq, Repr

def Core.lookup (c : Core) (t : Token) : Found :=
  match c.entries.find? fun e => e.2.is t with
  | some e => .resident e.1 e.2
  | none =>
    if c.filter.contains (filterIx c (tokenEntry t)) then
      match c.spilled.find? fun r => r.entry.is t with
      | some r => if r.landed && !r.toCore then .spilled r else .moving
      | none => .absent
    else .absent

/-! ## Collection (R19 to R25) -/

/-- The complete instances of a block and colour that wait, oldest first, then by tag. -/
def Core.waitingOf (c : Core) (bid colour : Nat) : List (Nat × Entry) :=
  sortBy (fun a b => a.2.completed < b.2.completed || (a.2.completed == b.2.completed && a.2.tag.toNat ≤ b.2.tag.toNat))
    (c.entries.filter fun e => e.2.bid == bid && e.2.colour == colour && e.2.phase == .complete)

/-- A collection that is due: due cycle, completion of its oldest instance, slot, colour. -/
structure DueColl where
  due : Nat
  oldest : Nat
  slot : Nat
  colour : Nat
  deriving DecidableEq, Repr

def DueColl.before (a b : DueColl) : Bool :=
  if a.due != b.due then a.due < b.due
  else if a.oldest != b.oldest then a.oldest < b.oldest
  else if a.slot != b.slot then a.slot < b.slot
  else a.colour ≤ b.colour

/-- The collections of a pigeonhole by count: colours that have 32/g complete instances waiting (R19). -/
def Core.dueByCount (c : Core) (wlogOf : Nat → Nat) (slot : Nat) (b : BlockSlot) : List DueColl :=
  let wait := c.entries.filter fun e => e.2.bid == b.bid && e.2.phase == .complete
  (dedup (wait.map fun e => e.2.colour)).filterMap fun col =>
    let ws := c.waitingOf b.bid col
    match ws[32 / 2 ^ wlogOf col - 1]?, ws with
    | some n, o :: _ => some { due := n.2.completed, oldest := o.2.completed, slot := slot, colour := col }
    | _, _ => none

/-- The collections of a pigeonhole by deadline: the colour of its oldest waiting instance, or of each of those that completed in one
cycle, once its deadline has passed (R19). -/
def Core.dueByDeadline (c : Core) (now slot : Nat) (b : BlockSlot) : List DueColl :=
  let wait := c.entries.filter fun e => e.2.bid == b.bid && e.2.phase == .complete
  match minBy? (fun e => e.2.completed) wait with
  | some o =>
    if o.2.deadline ≤ now then
      (dedup ((wait.filter fun e => e.2.completed == o.2.completed).map fun e => e.2.colour)).map fun col =>
        { due := o.2.deadline, oldest := o.2.completed, slot := slot, colour := col }
    else []
  | none => []

/-- The due collections of a core in the order of R21. -/
def State.dueColls (s : State) (ci : Nat) : List DueColl :=
  let c := s.core ci
  match s.coreRegion? ci with
  | none => []
  | some r =>
    sortBy DueColl.before
      (c.cfg.slots.flatMap fun e =>
        if e.2.resident then c.dueByCount (fun col => (r.colour col).wlog) e.1 e.2 ++ c.dueByDeadline s.arith e.1 e.2 else [])

/-- Some colour has reached its count on a core (R19). -/
def State.countReached (s : State) (ci : Nat) : Bool :=
  match s.coreRegion? ci with
  | none => false
  | some r => (s.core ci).cfg.slots.any fun e => e.2.resident && !((s.core ci).dueByCount (fun col => (r.colour col).wlog) e.1 e.2).isEmpty

/-- Make one collection, if a group slot, registers and a team entry are free. -/
def State.collect (s : State) (ci : Nat) (d : DueColl) : Option State :=
  let c := s.core ci
  let b := c.slot d.slot
  match s.coreRegion? ci, c.freeGroup?, c.teamFor? d.colour with
  | some r, some gi, some t =>
    if c.regsUsed + regsTaken (hdrRegd b.hdr) ≤ 65536 then
      let wlog := (r.colour d.colour).wlog
      let insts := (c.waitingOf b.bid d.colour).take (32 / 2 ^ wlog)
      let n := insts.length * 2 ^ wlog
      some (s.fire ci gi t d.slot b.bid d.colour wlog (insts.map Prod.fst) (insts.map fun e => e.2.tag)
        (maskOf fun l => l < n) 0 none [])
    else none
  | _, _, _ => none

/-- The first due collection that the resources cover. -/
def State.collectOne (s : State) (ci : Nat) : Option State := (s.dueColls ci).findSome? fun d => s.collect ci d

/-- A core may collect: it runs clocked, is not quenched, and its region does not end (R358, R391, R392). -/
def State.mayCollect (s : State) (ci : Nat) : Bool :=
  (match (s.core ci).gate with
    | .running _ => true
    | .gated | .restarting _ => false) &&
  (s.core ci).quenched.isNone &&
  match s.coreRegion? ci with
  | some r => r.ending.isNone
  | none => false

def State.collectN (s : State) (ci : Nat) : Nat → State
  | 0 => s
  | n + 1 =>
    match s.collectOne ci with
    | some s => State.collectN s ci n
    | none => s

/-- Source instances that wait are created, in order, while the core has room beyond its last 64 entries (R11, R34). -/
def Core.makeSources (now tick : Nat) (c : Core) : List (Nat × Word) → Core
  | [] => { c with sources := [] }
  | x :: rest =>
    match c.residentSlot x.1 with
    | none => { c with sources := x :: rest }
    | some (_, b) =>
      let lines := frameLines b.hdr
      match c.freeFrame? lines with
      | none => { c with sources := x :: rest }
      | some at_ =>
        if matchEntries ≤ c.entriesUsed + 64 then { c with sources := x :: rest }
        else
          let e : Entry := { bid := x.1, colour := 0, tag := x.2, presence := 0, stamps := [], latest := tick, frame := at_,
                             lines := lines, phase := .complete, completed := now, deadline := now + 4 * b.timer }
          let c := c.clearFrame at_ lines
          Core.makeSources now tick { c with nextNum := c.nextNum + 1, entries := c.entries.ins c.nextNum e } rest

/-- Make every due collection that the resources cover, resumed collections with them (R21, R387). -/
def State.collectAll (s : State) (ci : Nat) : State :=
  let s := if (s.core ci).sources.isEmpty then s
    else s.modCore ci fun c => c.makeSources s.arith (s.gtcAt (dieOf ci)) c.sources
  if s.mayCollect ci then
    let again := (s.core ci).park.filter fun p => p.verdict.isSome && p.refill.isNone
    let s := again.foldl (fun s p => s.resumeParked ci p.fid (p.verdict.getD false)) s
    s.collectN ci 64
  else s

/-- A collection by count is made in the cycle in which the count is reached, with those that are due before it; what is due by its
deadline alone waits for that event (R19, R20). -/
def State.collectReached (s : State) (ci : Nat) : State := if s.countReached ci then s.collectAll ci else s

/-- The end of an arithmetic cycle: the counts that were reached in it are collected, so that every instance that completed in the cycle
takes its place by tag, and every colour by its oldest instance (R19). -/
def State.endCycle (s : State) : State := s.cores.keyList.foldl State.collectReached s

/-- COLLECTION_DEADLINE: a deadline of the slot has passed. -/
def execCollectionDeadline (core slot : Nat) (s : State) : Out :=
  if (s.dueColls core).any fun d => d.slot == slot then .next (s.collectAll core) else .next s

/-- POSTPONED_COLLECTION: what was postponed is collected when its resources are free. -/
def execPostponedCollection (core : Nat) (s : State) : Out := .next (s.collectAll core)

/-! ## The matching store (R16, R17, R35) -/

/-- R17: a token of the wrong width is discarded, with a fault record of its own; of a handler token the dead letter alone tells (R384). -/
def State.refuseWidth (s : State) (ci : Nat) (t : InTok) : State :=
  let s := s.refuse ci t dlWidth
  if t.tok.kind == .handler then s else s.tokenRecord ci t 0x10 0

/-- R17 for a token whose block is resident: each row in order. -/
def State.matchToken (s : State) (ci : Nat) (t : InTok) (slot : Nat) (b : BlockSlot) : State :=
  let c := s.core ci
  let k := t.tok
  let now := s.gtcAt (dieOf ci)
  let col := match s.coreRegion? ci with
    | some r => r.colour k.colour.toNat
    | none => { live := false, wlog := 0, parent := none }
  let arity := hdrArity b.hdr
  let cls := hdrWcls b.hdr
  if !col.live then s.refuse ci t dlColourDead
  else if k.wlog.toNat ≠ col.wlog ∨ 5 < k.wlog.toNat ∨ (cls ≤ 5 ∧ cls ≠ k.wlog.toNat) then s.refuseWidth ci t
  else if arity ≤ k.slot.toNat then s.refuse ci t dlNoSlot
  else
    let freed (s : State) : State := s.modCore ci fun c => { c with handed := c.handed.filter fun h => some h.1 != t.frame }
    match c.lookup k with
    | .moving => s.modCore ci fun c => { c with spillHeld := c.spillHeld ++ [t] }
    | .spilled r =>
      if r.entry.presence.getLsbD k.slot.toNat || t.frame.isSome then
        (freed s).tokenRecord ci t 0x11 (r.entry.stamps.atD k.slot.toNat 0)
      else
        let e := r.entry.receive k now s.arith arity b.timer
        let bytes := (cellBytes k).zipIdx.foldl (fun m x => NMap.put 0 m (64 * k.slot.toNat + x.2) x.1) r.bytes
        let new (x : SpillRec) : SpillRec := { x with entry := e, bytes := bytes }
        s.modCore ci fun c => { c with spilled := replaceIf (fun x => x.num == r.num) new c.spilled }
    | .resident id e =>
      if e.presence.getLsbD k.slot.toNat || t.frame.isSome then
        (freed s).tokenRecord ci t 0x11 (e.stamps.atD k.slot.toNat 0)
      else
        s.modCore ci fun c =>
          { c with entries := c.entries.ins id (e.receive k now s.arith arity b.timer),
                   frame := c.frame.writeBytes (e.frame + 64 * k.slot.toNat) (cellBytes k) }
    | .absent =>
      let place := match t.frame with
        | some id => (c.handedOn id).map Prod.fst
        | none => c.freeFrame? (frameLines b.hdr)
      match if c.entriesUsed < matchEntries then place else none with
      | none => s.toInbox ci { t with counted := false }
      | some at_ =>
        let id := c.nextNum
        let c := if t.frame.isSome then c else c.clearFrame at_ (frameLines b.hdr)
        let e := { tokenEntry k with frame := at_, lines := match t.frame with
          | some h => ((c.handedOn h).map Prod.snd).getD 0
          | none => frameLines b.hdr }
        let c := { c with nextNum := id + 1, handed := c.handed.filter fun h => some h.1 != t.frame,
                          entries := c.entries.ins id (e.receive k now s.arith arity b.timer),
                          frame := c.frame.writeBytes (at_ + 64 * k.slot.toNat) (cellBytes k),
                          cfg := (c.setSlot slot b).cfg }
        s.setCore ci c

/-- A resident instance can be made for a token: a free entry and a free frame. -/
def Core.canAllocate (c : Core) (t : InTok) (b : BlockSlot) : Bool :=
  decide (c.entriesUsed < matchEntries) && (t.frame.isSome || (c.freeFrame? (frameLines b.hdr)).isSome)

/-! ## Overlays (R359) -/

/-- Where the overlay loader may put a block: the lowest free slot; else the least recently collected slot whose block has no
instance, group or held token; else none. -/
def Core.overlaySlot (c : Core) : Nat :=
  match (List.range 128).find? fun i => (c.slot i).bid == 0xFFF && !(c.slot i).closing with
  | some i => i
  | none =>
    match minBy? (fun i => (c.slot i).lastColl) ((List.range 128).filter fun i => !c.slotBusy i && !(c.slot i).closing) with
    | some i => i
    | none => 0xFFFFFFFF

/-- Ask the overlay loader for a block that is not resident, once. -/
def State.askOverlay (s : State) (ci bid : Nat) : State :=
  let c := s.core ci
  if c.overlayAsked.contains bid then s
  else
    let wlog := match s.coreRegion? ci with
      | some r => (r.colour 0).wlog
      | none => 0
    let ask : Token := { kind := .normal, blk := BitVec.ofNat 12 c.cfg.ovl, slot := 0, colour := 0, wlog := BitVec.ofNat 3 wlog,
                         rscope := .team, tag := w32 c.cfg.core, payload := [w32 bid, w32 c.overlaySlot] }
    (s.modCore ci fun c => { c with overlayAsked := c.overlayAsked ++ [bid] }).deliver ci none ask none

/-- Hold a token for a block that is not resident. -/
def State.holdOverlay (s : State) (ci : Nat) (t : InTok) : State :=
  (s.modCore ci fun c => { c with overlay := c.overlay ++ [t] }).askOverlay ci t.tok.blk.toNat

/-! ## Shortage (R34, R37) -/

/-- The largest frame demand of the blocks placed on the core, bound or not (R34, R359). -/
def State.maxFrame (s : State) (ci : Nat) : Nat :=
  let c := s.core ci
  let placed : List BlockInfo := match s.coreRegion? ci with
    | some r => r.blocks.filter fun (b : BlockInfo) => b.place == 0 || decide (c.cfg.core < b.place)
    | none => []
  ((c.cfg.slots.map fun e => frameLines e.2.hdr) ++ placed.map fun (b : BlockInfo) => frameLines b.hdr).foldl max 0

/-- R34: the core runs short of entries, or of frame memory: no run of lines takes the largest frame (log entry 153). -/
def State.short (s : State) (ci : Nat) : Bool :=
  decide (matchEntries < (s.core ci).entriesUsed + 64) || ((s.core ci).freeFrame? (s.maxFrame ci)).isNone

/-- The 32 partial instances that a spill takes: those whose latest token arrived longest ago (R34). -/
def Core.spillVictims (c : Core) : List (Nat × Entry) :=
  (sortBy (fun a b => a.2.latest ≤ b.2.latest) (c.entries.filter fun e => e.2.phase == .incomplete)).take 32

/-- The area cannot take the next spill (R37). -/
def Core.areaFull (c : Core) : Bool :=
  decide (c.cfg.prSize * 4096 < c.spillUsed + (c.spillVictims.map fun e => recBytes e.2).foldl (· + ·) 0)

/-- Tokens that an overlay hold takes (R359). -/
def overlayHold : Nat := 64

/-- The core accepts no token: it wrote SPILL_FULL, is still short, and its area has no room (R37); or its overlay hold is full (R359). -/
def State.stopped (s : State) (ci : Nat) : Bool :=
  ((s.core ci).spillStop && s.short ci && (s.core ci).areaFull) || decide (overlayHold ≤ (s.core ci).overlay.length)

/-! ## Arrival -/

/-- Tokens of one group to one core arrive in order (R14): no earlier one of the same group stands at the input. -/
def Core.arrivesNext (c : Core) (idx : Nat) (t : InTok) : Bool :=
  !(c.inbox.take idx).any fun u => t.grp.isSome && u.srcDev == t.srcDev && u.srcCore == t.srcCore && u.grp == t.grp

/-- The rate limiter admits another token (R364). -/
def Core.admits (c : Core) : Bool := c.cfg.rlCount == 0 || c.rlCount < c.cfg.rlCount

/-- Take a token from the input, counting it (R360, R364). -/
def Core.accept (c : Core) (idx : Nat) (t : InTok) : Core :=
  { c with inbox := c.inbox.eraseIdx idx, spillStop := false, rlCount := c.rlCount + 1, received := c.received + bit01 t.counted }

/-- A token behind a pre-emption marker goes to the poste restante as a record of its own, or into the instance's (R392). -/
def State.matchSaved (s : State) (ci : Nat) (t : InTok) (b : BlockSlot) : State :=
  let c := s.core ci
  let k := t.tok
  let now := s.gtcAt (dieOf ci)
  match c.lookup k with
  | .resident _ _ | .spilled _ | .moving => s.matchToken ci t 0 b
  | .absent =>
    let e := { tokenEntry k with lines := frameLines b.hdr }.receive k now s.arith (hdrArity b.hdr) b.timer
    let bytes := (cellBytes k).zipIdx.foldl (fun m x => NMap.put 0 m (64 * k.slot.toNat + x.2) x.1) []
    let r : SpillRec := { num := c.nextNum, entry := e, bytes := bytes, landed := true, toCore := false }
    s.setCore ci { c with nextNum := c.nextNum + 1, spilled := c.spilled ++ [r], filter := dedup (c.filter ++ [filterIx c e]) }

/-- Whether R17 refuses a token whatever instance it is for. -/
def State.badToken (s : State) (ci : Nat) (t : Token) (b : BlockSlot) : Bool :=
  let col := match s.coreRegion? ci with
    | some r => r.colour t.colour.toNat
    | none => { live := false, wlog := 0, parent := none }
  !col.live || decide (t.wlog.toNat ≠ col.wlog ∨ 5 < t.wlog.toNat ∨ (hdrWcls b.hdr ≤ 5 ∧ hdrWcls b.hdr ≠ t.wlog.toNat)) ||
    decide (hdrArity b.hdr ≤ t.slot.toNat)

/-- A token that is not for a resident block: refused for its colour or width, or for its block (R17, R359). -/
def State.refuseUnknown (s : State) (ci : Nat) (t : InTok) : State :=
  let col := match s.coreRegion? ci with
    | some r => r.colour t.tok.colour.toNat
    | none => { live := false, wlog := 0, parent := none }
  if !col.live then s.refuse ci t dlColourDead
  else if t.tok.wlog.toNat ≠ col.wlog then s.refuseWidth ci t
  else s.refuse ci t dlNoSlot

/-- A token that comes by a port behind the marker of a save (R392). -/
def State.behindMarker (s : State) (ci : Nat) (t : InTok) : Bool :=
  match s.inPort ci t.srcDev t.srcCore with
  | some p => (s.core ci).markers.contains p
  | none => false

/-- Put a token that left the input into the matching store, its hold, or the dead letters. -/
def State.place (s : State) (ci : Nat) (t : InTok) : State :=
  let c := s.core ci
  let bid := t.tok.blk.toNat
  match c.residentSlot bid with
  | some (slot, b) =>
    if s.behindMarker ci t && !s.badToken ci t.tok b then s.matchSaved ci t b else s.matchToken ci t slot b
  | none =>
    if c.cfg.ovl != 0xFFF && s.blockRec c bid != 0 then s.holdOverlay ci t else s.refuseUnknown ci t

/-- The core can take the token now: it has an entry and a frame for it, or needs none (R37). -/
def State.canPlace (s : State) (ci : Nat) (t : InTok) : Bool :=
  let c := s.core ci
  match c.residentSlot t.tok.blk.toNat with
  | some (_, b) =>
    s.badToken ci t.tok b || (match c.lookup t.tok with
      | .absent => c.canAllocate t b || s.behindMarker ci t
      | _ => true)
  | none => true

/-- TOKEN_ARRIVAL: a token at the core's input reaches the matching store. -/
def execTokenArrival (core idx : Nat) (s : State) : Out :=
  let c := s.core core
  match c.inbox[idx]? with
  | none => .next s
  | some t =>
    if t.tok.kind == .eos || !s.agentDone t.after || s.stopped core || !c.arrivesNext idx t || !c.admits || !s.canPlace core t then .next s
    else .next ((s.setCore core (c.accept idx t)).place core t)

/-- EOS_COUNT: an end-of-stream token reaches its counting core; at EOSX the sink is reported; later ones go to the steward
log (R362). -/
def execEosCount (core idx : Nat) (s : State) : Out :=
  let c := s.core core
  match c.inbox[idx]?, s.coreRegion? core with
  | some t, some r =>
    let bid := t.tok.blk.toNat
    if t.tok.kind != .eos || s.stopped core || !c.arrivesNext idx t || !c.admits then .next s
    else
      let s := s.setCore core (c.accept idx t)
      match r.sinks.find? fun k => k.bid == bid with
      | none => .next (s.stewardLog 362)
      | some k =>
        if k.reported then .next (s.stewardLog 362)
        else
          let n := c.eosCount.atD bid 0 + 1
          let s := s.modCore core fun c => { c with eosCount := c.eosCount.put 0 bid n }
          if n < k.expect then .next s
          else .next (s.setRegion { r with sinks := replaceIf (fun x => x.bid == bid) (fun x => { x with reported := true }) r.sinks })
  | _, _ => .next s

/-! ## The poste restante (R34 to R37) -/

/-- Take an entry into a record of the area. -/
def Core.spillEntry (c : Core) (x : Nat × Entry) : Core :=
  let bytes := (List.range (128 * x.2.lines)).filterMap fun i =>
    let b := c.frame.atD (x.2.frame + i) 0
    if b = 0 then none else some (i, b)
  let r : SpillRec := { num := x.1, entry := { x.2 with frame := 0 }, bytes := bytes, landed := false, toCore := false }
  let c := c.clearFrame x.2.frame x.2.lines
  { c with entries := c.entries.filter fun e => e.1 != x.1, spilled := c.spilled ++ [r],
           filter := dedup (c.filter ++ [filterIx c x.2]) }

/-- SPILL: 32 partial instances, those whose latest token arrived longest ago, leave for the area. When the area cannot take
them the core stops accepting tokens and writes SPILL_FULL (R37). -/
def execSpill (core : Nat) (s : State) : Out :=
  let c := s.core core
  if !s.short core then .next s
  else if c.areaFull then
    if c.spillStop then .next s
    else .next ((s.setCore core { c with spillStop := true }).lateRecord core .spillFull (tailOf [(6, c.spilled.length)]))
  else .next (s.setCore core (c.spillVictims.foldl Core.spillEntry { c with spillStop := false }))

/-- Filter bits without a record are cleared (R36). -/
def Core.sweepFilter (c : Core) : Core :=
  { c with filter := c.filter.filter fun h => c.spilled.any fun r => filterIx c r.entry == h }

/-- The tokens held at the spill port for an instance are merged where it now is. -/
def State.mergeHeld (s : State) (ci : Nat) (e : Entry) : State :=
  let (mine, rest) := (s.core ci).spillHeld.partition fun t => e.is t.tok
  mine.foldl (fun s t => s.place ci t) (s.modCore ci fun c => { c with spillHeld := rest })

/-- SPILL_RECORD_LANDED: a spill has landed in the area, or a refill in the core. -/
def execSpillRecordLanded (core idx : Nat) (s : State) : Out :=
  let c := s.core core
  match c.spilled[idx]? with
  | none => .next s
  | some r =>
    if r.toCore then
      match c.freeFrame? r.entry.lines with
      | none => .next s
      | some at_ =>
        let e := { r.entry with frame := at_ }
        let c := (c.clearFrame at_ e.lines)
        let c := { c with spilled := c.spilled.eraseIdx idx, entries := c.entries.ins r.num e,
                          frame := r.bytes.foldl (fun m (b : Nat × Byte) => m.put 0 (at_ + b.1) b.2) c.frame }
        .next ((s.setCore core c.sweepFilter).mergeHeld core e)
    else if r.landed then .next s
    else
      let s := s.setCore core { c with spilled := c.spilled.set idx { r with landed := true } }
      .next (s.mergeHeld core r.entry)

/-- The virtual address of a record: the area's base plus the records before it. -/
def recVA (c : Core) (num : Nat) : Nat :=
  c.cfg.prVA + ((c.spilled.takeWhile fun r => r.num != num).map fun r => recBytes r.entry).foldl (· + ·) 0

/-- A record that waits for a verdict on its refill fault. -/
def Core.refillParked (c : Core) (num : Nat) : Bool :=
  (c.park ++ c.parkOver).any fun p => p.refill == some num && p.verdict.isNone

/-- A refill met a translation fault: its instances wait in the fault park for a verdict (R36, R387). -/
def State.refillFault (s : State) (ci : Nat) (r : SpillRec) (cause : Nat) : State :=
  let c := s.core ci
  let tail := tailOf [(2, cause * 2 ^ 56), (4, recVA c r.num % 2 ^ 56)]
  let stamp := w64 (s.gtcAt (dieOf ci))
  let (fid, s) := s.raise c.cfg.asid (srcCore ci) (dieOf ci) .refill true false tail (some ci) false
  let w1 := Cls.refill.code * 2 ^ 56 + 2 ^ 51 + srcCore ci * 2 ^ 32 + fid
  let p : ParkEnt := { fid := fid, region := (c.region).getD 0, cls := Cls.refill.code, record := [stamp, w64 w1] ++ tail,
                       bslot := 0, bid := r.entry.bid, colour := r.entry.colour, wlog := 0, insts := [], tags := [], em := 0,
                       prio := 0, word := 0, resumes := 0, claim := none, verdict := none, refill := some r.num, ops := [] }
  s.modCore ci fun c => c.addPark p

/-- REFILL: with 1,024 entries free, the next record comes back: complete ones first, then in order of spilling. -/
def execRefill (core : Nat) (s : State) : Out :=
  let c := s.core core
  let ready := c.spilled.filter fun r => r.landed && !r.toCore && !c.refillParked r.num
  let pick := match ready.find? fun r => r.entry.phase == .complete with
    | some r => some r
    | none => ready[0]?
  match pick with
  | none => .next s
  | some r =>
    if matchEntries < c.entriesUsed + 1024 || (c.freeFrame? r.entry.lines).isNone || c.quenched.isSome then .next s
    else
      let s := s.modCore core fun c => { c with park := c.park.filter fun p => p.refill != some r.num }.refillPark
      match s.engineXl core r.num c.cfg.asid (recVA c r.num) { write := false, priv := true, peer := false } with
      | (.wait, s) => .next s
      | (.fail cause _, s) => .next ((s.dropWaiter (dieOf core) (engineNum (r.num * 2048 + core))).refillFault core r cause)
      | (.ok _, s) =>
        let go (x : SpillRec) : SpillRec := { x with toCore := true }
        .next (s.modCore core fun c => { c with spilled := replaceIf (fun x => x.num == r.num) go c.spilled })

end Sys2Proof.Machine
end

