-- ==== Sys2Proof/Machine/EvPermit.lean ====
section
/-! DEFINITION. Permits on the move (R113 to R116): requests, recalls, replies, persistent requests, the snoops of pool and host
(R117, R121), and CFLUSH on a line (R127). -/

namespace Sys2Proof.Machine

/-! ## Holders -/

/-- The slices that hold permits of a line, the home among them. -/
def State.holdersOf (s : State) (ln : Nat) : List Nat :=
  let home := permitHome s ln
  (home :: (s.slices.keyList.filter (· != home))).filter fun k => s.permitsAt k ln != 0

/-- The agent's own GETX or persistent request on the line is in progress (R114). -/
def Slice.wants (x : Slice) (ln : Nat) : Bool := x.asks.any fun a => a.line == ln && (a.exclusive || a.persistent)

/-- n permits pass from a slice to another, the owner permit with them or not. -/
def State.movePermits (s : State) (from_ dst ln n : Nat) (owner : Bool) : State :=
  let o := s.ownerAt ln
  let a := s.permitsAt from_ ln
  let b := s.permitsAt dst ln
  let s := s.setPermits from_ ln (a - n) (o == from_ && !owner)
  (s.setPermits dst ln (b + n) (owner || o == dst)).homeLoses ln

/-- Every holder that lets its permits go sends them all to a slice (R114, R116), which places the line there. Writes that were lined up
before a place in the order of arrivals go first. -/
def State.gather (s : State) (dst ln pol seq : Nat) (may : Nat → Bool) : State :=
  match (s.holdersOf ln).filter fun k => k != dst && may k && s.letsGo k ln seq with
  | [] => s
  | ks =>
    match s.placeLine dst ln pol with
    | none => s
    | some s => ks.foldl (fun s k => s.movePermits k dst ln (s.permitsAt k ln) (s.ownerAt ln == k)) s

/-- A persistent request of another die is active for the line (R114). -/
def State.persistOther (s : State) (die ln : Nat) : Bool :=
  (s.slice (permitHome s ln)).persist.any fun p => p.line == ln && p.active && p.die != die

/-- The home answers RETRY while a persistent request for the line is active for another requester, or a snoop recalls the line (R114). -/
def State.turnsAway (s : State) (die ln : Nat) : Bool := s.persistOther die ln || s.recalling ln

/-- The request of a slice leaves the queue of its home. -/
def State.dropPermit (s : State) (k ln : Nat) : State :=
  let home := permitHome s ln
  let x := s.slice home
  s.setSlice home { x with queue := x.queue.filter fun q => q.req != .permit (k / 256) ln }

/-- A reply leaves for the agent. -/
def State.reply (s : State) (k ln : Nat) (r : Option (Nat × Bool)) : State :=
  ((s.dropPermit k ln).modAsk k ln fun a => { a with reply := some r }).homeLoses ln

/-- A request that another for the line stands before: a write, an access that needs every permit, or another agent's request (R109). -/
def SliceReq.holdsUp : SliceReq → Bool
  | .load _ _ _ _ _ _ _ _ _ => false
  | .turn _ _ w => w
  | .fetch _ _ _ _ _ | .update _ _ _ | .agent _ _ | .permit _ _ => true

/-- An agent's request joins the queue of its home, and is taken from the next mesh cycle on, in its turn (R109): the place in the order of
arrivals with which it is taken. The home's own slice needs no message. -/
def State.permitTurn (s : State) (k ln : Nat) : Option Nat × State :=
  let home := permitHome s ln
  let die := k / 256
  let x := s.slice home
  if k = home then (some s.arrivals, s)
  else
    match x.queue.findIdx? fun q => q.req == .permit die ln with
    | none => (none, s.enqueue home (reqAgent die) (.permit die ln))
    | some idx =>
      let first := !(x.queue.take idx).any fun q => q.req.line == ln && q.req.holdsUp
      ((x.queue[idx]?).bind fun q => if q.at_ < s.mesh ∧ first then some q.seq else none, s)

/-! ## Requests at the home (R114) -/

/-- One read permit for the agent, whose request has a place in the order of arrivals: from the home's free ones; else from the owner holder. A
holder's last permit stays while something keeps it there. -/
def State.grantRead (s : State) (k ln seq : Nat) : State :=
  let home := permitHome s ln
  let o := s.ownerAt ln
  let free := s.permitsAt home ln
  let s := s.poolAcquire ln false
  let last (h : Nat) : Bool := decide (2 ≤ s.permitsAt h ln) || s.letsGo h ln seq
  if ((s.slice home).lineD ln).courier.isSome then s
  else if o = home ∧ 2 ≤ free ∧ k ≠ home then s.reply k ln (some (1, false))
  else if o ≠ home ∧ (s.slice o).wants ln then s.reply k ln none
  else if o ≠ home ∧ 1 ≤ free ∧ k ≠ home then (if last home then s.reply k ln (some (1, false)) else s)
  else if (o ≠ home ∧ (s.slice o).linedUp ln) ∨ ((s.slice o).lineD ln).courier.isSome ∨ !last o then s
  else
    let n := s.permitsAt o ln
    if o = home then s.reply k ln (some (1, n == 1))
    else (s.setPermits o ln (n - 1) (n != 1)).reply k ln (some (1, n == 1))

/-- PERMIT_GETS: an agent's request for a read permit reaches the home, and is taken when its turn comes. -/
def execPermitGets (die line : Nat) (s : State) : Out :=
  let k := sliceAt s die line
  match s.askOf k line with
  | none => .next s
  | some a =>
    if a.exclusive || a.persistent || a.reply.isSome then .next s
    else if s.turnsAway die line then .next (s.reply k line none)
    else
      match s.permitTurn k line with
      | (none, s) => .next s
      | (some seq, s) => .next (s.grantRead k line seq)

/-- PERMIT_GETX: an agent's request for all 32 reaches the home, and when its turn comes it sends what it can; a holder that wants the line
itself answers RETRY. Holders whose leases run keep their permits until the event comes again. -/
def execPermitGetx (die line : Nat) (s : State) : Out :=
  let k := sliceAt s die line
  match s.askOf k line with
  | none => .next s
  | some a =>
    if !a.exclusive || a.persistent || a.reply.isSome then .next s
    else if s.turnsAway die line then .next (s.reply k line none)
    else
      match s.permitTurn k line with
      | (none, s) => .next s
      | (some seq, s) =>
      let home := permitHome s line
      let s := s.poolAcquire line true
      let busy := (s.holdersOf line).any fun h => h != k && h != home && (s.slice h).wants line
      let s := s.gather k line a.pol seq fun h => h == home || !(s.slice h).wants line
      .next (if busy then s.reply k line none else if s.permitsAt k line = 32 then s.reply k line (some (0, false)) else s)

/-- PERMIT_PUT: an agent evicts the line and returns its permits. -/
def execPermitPut (die line : Nat) (s : State) : Out := .next ((s.putBack (sliceAt s die line) line).getD s)

/-! ## Replies and failures (R115) -/

/-- Ticks after which a request fails, and after which an agent asks persistently. -/
def askTimeout : Nat := 500
def askPatience : Nat := 2000

/-- A request failed: it is sent again, or the agent turns to a persistent request. -/
def PermitReq.failed (a : PermitReq) (now : Nat) : PermitReq :=
  let n := a.fails + 1
  if 3 ≤ n ∨ a.first + askPatience ≤ now then { a with fails := n, reply := none, persistent := true }
  else { a with fails := n, reply := none, sent := now }

/-- PERMIT_REPLY: DATA or RETRY reaches the agent; data wait while the line's set has no room. -/
def execPermitReply (die line : Nat) (s : State) : Out :=
  let k := sliceAt s die line
  match s.askOf k line with
  | none => .next s
  | some a =>
    if a.persistent then .next s
    else
      match a.reply with
      | none => .next s
      | some none => .next (s.modAsk k line fun a => a.failed s.gtc)
      | some (some (n, owner)) =>
        match s.placeLine k line a.pol with
        | none => .next s
        | some s =>
          let own := owner || s.ownerAt line == k
          let had := s.permitsAt k line
          let x := s.slice k
          let s := s.setSlice k { x with asks := x.asks.filter fun b => b.line != line }
          .next (s.setPermits k line (had + n) own)

/-- PERMIT_REQUEST_TIMEOUT: a request is not satisfied within 500 ns, or 2 µs have passed since the first attempt (R115). -/
def execPermitRequestTimeout (die line : Nat) (s : State) : Out :=
  let k := sliceAt s die line
  match s.askOf k line with
  | none => .next s
  | some a =>
    if a.persistent || a.reply.isSome || decide (s.gtc < a.sent + askTimeout ∧ s.gtc < a.first + askPatience) then .next s
    else .next ((s.dropPermit k line).modAsk k line fun a => a.failed s.gtc)

/-! ## Persistent requests (R116) -/

/-- PERSISTENT_REQUEST: the agent's oldest starving line enters its home's table, one at a time. -/
def execPersistentRequest (die line : Nat) (s : State) : Out :=
  let k := sliceAt s die line
  let home := permitHome s line
  match s.askOf k line with
  | none => .next s
  | some a =>
    let mine := (s.slice k).asks.filter fun b => b.persistent
    let first := mine.all fun b => a.first ≤ b.first
    let held := mine.any fun b => (s.slice (permitHome s b.line)).persist.any fun p => p.die == die && p.line == b.line
    let x := s.slice home
    if !a.persistent || !first || held || x.persist.any (fun p => p.die == die) then .next s
    else
      let p : Persist := { die := die, line := line, exclusive := a.exclusive, active := false, since := 0 }
      .next (s.setSlice home { x with persist := x.persist ++ [p] })

/-- The entry to activate: the first to arrive; after another, the next die in ascending order, cyclically. -/
def Slice.nextPersist (x : Slice) : Option Persist :=
  match x.turn with
  | none => x.persist[0]?
  | some d => minBy? (fun p => (p.die + 3 - d) % 4) x.persist

/-- The holders send what they can to the requester of the active entry, unless a snoop recalls the line. -/
def State.feedPersist (s : State) (home : Nat) : State :=
  match (s.slice home).persist.find? fun p => p.active with
  | none => s
  | some p =>
    if s.recalling p.line then s
    else
      let s := s.poolAcquire p.line p.exclusive
      let k := sliceAt s p.die p.line
      s.gather k p.line (((s.askOf k p.line).map fun a => a.pol).getD 0) p.since fun _ => true

/-- PERSISTENT_ACTIVATION: the home activates the next entry, or the holders go on sending to the active one. -/
def execPersistentActivation (die pos : Nat) (s : State) : Out :=
  let home := sliceKey die pos
  let x := s.slice home
  if x.persist.any fun p => p.active then .next (s.feedPersist home)
  else
    match x.nextPersist with
    | none => .next s
    | some p =>
      let on (q : Persist) : Persist := if q.die = p.die then { q with active := true, since := s.arrivals } else q
      .next ((s.setSlice home { x with persist := x.persist.map on, turn := some p.die }).feedPersist home)

/-- DEACTIVATE: the requester has its permits and has made its access, or waits for none. -/
def execDeactivate (die line : Nat) (s : State) : Out :=
  let k := sliceAt s die line
  let home := permitHome s line
  let x := s.slice home
  match x.persist.find? fun p => p.die == die && p.line == line && p.active with
  | none => .next s
  | some p =>
    let enough := if p.exclusive then s.permitsAt k line == 32 else s.permitsAt k line != 0
    if enough && (s.spent k line || !(s.slice k).asked line) then
      let rest := x.persist.filter fun q => q.die != die
      let s := s.setSlice home { x with persist := rest, turn := if rest.isEmpty then none else x.turn }
      let y := s.slice k
      .next (s.setSlice k { y with asks := y.asks.filter fun b => b.line != line })
    else .next s

/-! ## Snoops (R117, R121) -/

/-- A snoop is registered, and recalls the line from then on. -/
def State.beginRecall (s : State) (ln : Nat) (sn : Snoop) : State :=
  if s.recalls.any fun r => r.line == ln && r.snoop == sn then s
  else { s with recalls := s.recalls ++ [{ line := ln, snoop := sn, at_ := s.mesh }] }

/-- The permits that nothing keeps go home; whether all are there, with nothing that keeps them at the home itself. -/
def State.recallStep (s : State) (ln : Nat) (sn : Snoop) : Bool × State :=
  match s.recalls.find? fun r => r.line == ln && r.snoop == sn with
  | none => (false, s)
  | some r =>
    let home := permitHome s ln
    let go (s : State) (k : Nat) : Bool := s.letsGoPast k ln fun q => q.beforeSnoop r
    let s := (s.holdersOf ln).foldl (fun s k =>
      if k != home && go s k then s.movePermits k home ln (s.permitsAt k ln) (s.ownerAt ln == k) else s) s
    (s.permitsAt home ln == 32 && go s home, s)

/-- The answer to a snoop ends its recall. -/
def State.endRecall (s : State) (ln : Nat) (sn : Snoop) : State :=
  { s with recalls := s.recalls.filter fun r => !(r.line == ln && r.snoop == sn) }

/-- BACK_INVALIDATION_SNOOP: the pool asks for a line; the home answers once it has every permit again and the leases have run out. -/
def execBackInvalidationSnoop (line : Nat) (toI : Bool) (s : State) : Out :=
  if lineZone line ≠ .pool then .next s
  else
    match (s.beginRecall line (.pool toI)).recallStep line (.pool toI) with
    | (false, s) => .next s
    | (true, s) =>
      let s := (s.endRecall line (.pool toI)).writeBack line
      if toI then
        let k := permitHome s line
        let s := if ((s.slice k).line? line).isSome then s.setSlice k ((s.slice k).unlist (s.gtcAt (k / 256)) line) else s
        .next { s with poolState := s.poolState.put .i line .i }
      else .next { s with poolState := s.poolState.put .i line (if s.poolState.atD line .i == .i then .i else .s) }

/-- HOST_SNOOP of one half: M is written back; the half goes to S or I, and an invalid half stays so. -/
def execHostSnoop (line : Nat) (high inval : Bool) (s : State) : Out :=
  if lineZone line ≠ .host then .next s
  else
    match (s.beginRecall line (.host high inval)).recallStep line (.host high inval) with
    | (false, s) => .next s
    | (true, s) =>
      let s := s.endRecall line (.host high inval)
      let h := bit01 high
      .next (if inval then s.setHalf line h .i else if s.half line h == .i then s else s.setHalf line h .s)

/-! ## CFLUSH (R127) -/

/-- Flush one line from a core; none while it must wait. -/
def State.flushLine (s : State) (ci ln : Nat) : Option State :=
  let die := dieOf ci
  if lineZone ln = .hbm ∧ homeDie ln = die then some s
  else (s.putBack (sliceAt s die ln) ln).map fun s => s.homeClean ln

/-- The pool and host lines that slices of a die hold. -/
def State.dieLines (s : State) (die : Nat) : List Nat :=
  (s.slices.filter fun e => e.1 / 256 == die).flatMap fun e =>
    (e.2.lines.filter fun l => lineZone l.line == .pool || lineZone l.line == .host).map fun l => l.line

end Sys2Proof.Machine
end

