-- ==== Sys2Proof/Machine/EvSlice.lean ====
section
/-! DEFINITION. Requests at the slices: leases (R106 to R111), committed lines (R108, R273, R280), atomics (R274, R289) and
atomic reads (R275), and what failing lines do (R101, R118, R276, R399). -/

namespace Sys2Proof.Machine

/-- The request at a place of a slice's queue. -/
def Slice.reqAt (x : Slice) (idx : Nat) : Option SliceReq := (x.queue[idx]?).map fun e => e.req

/-! ## Failing lines -/

/-- Why a slice cannot serve a line: a lost pool region, poison, an uncorrectable error. -/
def State.lineStop (s : State) (ln : Nat) : Option Cls :=
  if s.lostPA (ln * 128) then some .poolRegion else s.badLine ln

/-- The group of a core that waits for an operation, and the operation. -/
def Core.opOwner (c : Core) (num : Nat) : Option (Nat × Group × LongOp) :=
  c.groups.findSome? fun e => (e.2.ops.find? fun o => o.num == num).map fun o => (e.1, e.2, o)

/-- The accesses of an operation that wait for a line. -/
def LongOp.onLine (o : LongOp) (ln : Nat) : List Access := o.accs.filter fun a => a.addr / 128 == ln && a.got.isNone

/-- A load or FETCH meets a failing line: the block faults at its word, while it still waits for it (R100, R101, R285). -/
def State.faultLoad (s : State) (ci ln num : Nat) (cls : Cls) : State :=
  match (s.core ci).opOwner num with
  | none => s
  | some (gi, _, o) =>
    let hit := o.onLine ln
    s.failOp ci gi num { cls := cls, lanes := maskOf fun l => hit.any fun a => a.lane == l,
                         addr := ((minBy? (fun a => a.lane) hit).map fun a => a.va).getD 0 }

/-- The speculative use of a line that a group has not confirmed. -/
def Group.useOf (g : Group) (ln : Nat) : Option SpecUse := g.validation.find? fun v => v.line == ln && !v.confirmed

/-- An earlier operation of a block that used the line speculatively can still fault (R100). -/
def Core.useWaits (c : Core) (ln : Nat) : Bool :=
  c.groups.any fun e => match e.2.useOf ln with
    | some v => e.2.mayFault v.op
    | none => false

/-- A renewal meets a failing line: the groups that used the line speculatively fault, each at the first word that did, with its lanes
there (R285). -/
def State.faultUses (s : State) (ci ln : Nat) (cls : Cls) : State :=
  let s := s.modCore ci fun c => { c.l1Drop ln with renewals := c.renewals.filter fun r => r.line != ln }
  (s.core ci).groups.foldl (fun s e =>
    match e.2.useOf ln with
    | some v => s.takeFault ci e.1 v.word { cls := cls, lanes := v.lanes, addr := v.addr }
    | none => s) s

/-! ## Loads at a slice (R106, R108, R111, R120) -/

/-- The half of a host line that an access touches is held, as every other line is (R120). -/
def State.halfThere (s : State) (ln : Nat) (a : Access) : Bool :=
  lineZone ln != .host || s.half ln (a.addr % 128 / 64) != .i

/-- The bytes of a line reach the accesses of an operation that touch a half which is there. -/
def State.deliverLine (s : State) (ci ln num : Nat) (data : List Byte) : State :=
  match (s.core ci).opOwner num with
  | none => s
  | some (gi, g, o) =>
    let fill (a : Access) : Access :=
      if a.addr / 128 = ln ∧ a.got.isNone ∧ s.halfThere ln a then { a with got := some (lineSlice data a.addr a.size) } else a
    s.modCore ci fun c => c.setGroup gi (g.setOp { o with accs := o.accs.map fill }.serveDone)

/-- A slice serves a load, prefetch or renewal whose line is listed there. No lease is granted while a write is lined up (R108), a
persistent request is active (R116), a snoop recalls the line (R121), or the line is half-held (R120). -/
def State.serveLoad (s : State) (k ci ln num : Nat) (ver : Option Word) (ll : Nat) (noLease lru : Bool) (halves : Nat) : State :=
  let s := (s.hostAcquire ln halves false).poolAcquire ln false
  let data := s.memBytes (ln * 128) 128
  let now := s.gtcAt (k / 256)
  let x := s.slice k
  let leased := !noLease && !x.linedUp ln && !s.halfHeld ln && !s.persistActive ln && !s.recalling ln
  let (exp, x) := if leased then x.grant now ln (leaseLen ln ll) else (0, x)
  let s := (s.setSlice k x).served k ln
  let cur := (x.lineD ln).ver
  match ver with
  | some v =>
    let back (r : Renewal) : Renewal :=
      { r with back := true, newExp := exp, newVer := cur, data := if cur = v then [] else data }
    s.modCore ci fun c => { c with renewals := replaceIf (fun r => r.num == num) back c.renewals }
  | none =>
    let s := s.deliverLine ci ln num data
    if leased then s.modCore ci fun c => c.l1Put { line := ln, exp := exp, ver := cur, data := data } lru else s

/-- LEASE_REQUEST: the slice takes the load at a place of its queue. Without a permit it asks for one; a line of a Courier engine
waits for its recall. -/
def execLeaseRequest (die pos idx : Nat) (s : State) : Out :=
  let k := sliceKey die pos
  match (s.slice k).reqAt idx with
  | some (.load ci ln num ver ll noLease lru pol halves) =>
    match s.lineStop ln with
    | some cls =>
      if ver.isSome && (s.core ci).useWaits ln then .next s
      else
        let s := s.unqueue k idx
        .next (if ver.isSome then s.faultUses ci ln cls else if num = 0 then s else s.faultLoad ci ln num cls)
    | none =>
      match s.mayServe k idx ln .read pol none with
      | (false, s) => .next s
      | (true, s) =>
        match s.placeLine k ln pol with
        | none => .next s
        | some s => .next ((s.unqueue k idx).serveLoad k ci ln num ver ll noLease lru halves)
  | _ => .next s

/-! ## Fences between lines (R280) -/

/-- The number of a line that no cache holds in a commit's record, where a cached line of the same place has its own; and the place. -/
def bareNum (ln : Nat) : Nat := 2 ^ 64 + ln
def placeNum (num : Nat) : Nat := num % 2 ^ 64

/-- The scope of fence j of a commit, and whether it asks for more than what step 3 has done. -/
def CommitRec.fenceScope (r : CommitRec) (j : Nat) : Scope := (r.fences[j]?).getD .dev
def CommitRec.fenceWaits (r : CommitRec) (j : Nat) : Bool := !(decide (scopeRank (r.fenceScope j) ≤ 1) && r.entered)

/-- Line y waits for line `me` at a fence of the commit; lines are (number, first epoch, last epoch). -/
def CommitRec.waitsFor (r : CommitRec) (y me : Nat × Nat × Nat) : Bool :=
  (List.range y.2.2).any fun j => decide (me.2.1 ≤ j) && r.fenceWaits j

/-- Of two lines that wait for each other, the one that goes first (log entry 62). -/
def goesFirst (a b : Nat × Nat × Nat) : Bool :=
  if a.2.2 ≠ b.2.2 then a.2.2 < b.2.2 else if a.2.1 ≠ b.2.1 then a.2.1 < b.2.1 else placeNum a.1 < placeNum b.1

/-- What must be visible before effects after fence j of a commit: the lines with effects before it, but for the line that asks
and lines that themselves wait for that one and go second; the deposits and CFLUSH words before it; and the lines that were pending at
step 3. -/
def fenceOpen (c : Core) (r : CommitRec) (me : Nat × Nat × Nat) (j : Nat) (sc : Scope) : Bool :=
  if scopeRank sc ≤ 1 ∧ r.entered then true
  else
    let past (y : Nat × Nat × Nat) : Bool :=
      placeNum y.1 == placeNum me.1 || decide (j < y.2.1) || (r.waitsFor y me && goesFirst me y)
    r.lines.all past && r.uncached.all past &&
      r.deposits.all (fun e => decide (j < e)) && c.earlierDone r &&
      (decide (scopeRank sc ≤ 2) || r.flushes.all fun e => decide (j < e))

/-- The fences before a line's last effect are open, and the bytes of the same place that no cache holds, on which its operations work
(R272), are performed. -/
def fencesOpen (c : Core) (commit num : Nat) : Bool :=
  match c.commit? commit with
  | none => true
  | some r =>
    match (r.lines ++ r.uncached).find? fun y => y.1 == num with
    | none => true
    | some me => !(r.uncached.any fun y => y.1 == bareNum num) && (List.range me.2.2).all fun j => fenceOpen c r me j (r.fenceScope j)

/-! ## Performing a committed line (R273, R274, R289) -/

/-- The payload of a return token, lane by lane of the instance, low word first. -/
def AtomRet.payload (a : AtomRet) : List Word :=
  (List.range (2 ^ a.due.wlog.toNat * a.words)).map fun j =>
    w32 ((NMap.atD a.vals (j / a.words) 0).toNat / 2 ^ (32 * (j % a.words)))

/-- A return list whose lanes are all performed sends its token; one with a failed lane sends none. -/
def Core.settleRets (c : Core) (commit : Nat) : Core :=
  let grp := match c.commit? commit with
    | some r => r.grp
    | none => 0
  let due := c.atomRets.filter fun a => a.commit == commit && a.need == 0
  let c := { c with atomRets := c.atomRets.filter fun a => !(a.commit == commit && a.need == 0) }
  (due.filter fun a => !a.dead).foldl (fun c a => c.postDue commit grp a.due a.payload) c

/-- Lane values, or lanes that failed, join their return list. -/
def Core.addVals (c : Core) (commit : Nat) (ops : List AtomOp) (olds : Option (List DWord)) : Core :=
  (ops.zipIdx).foldl (fun c e =>
    match e.1.ret with
    | none => c
    | some (id, lane) =>
      let put (a : AtomRet) : AtomRet :=
        match olds with
        | some vs => { a with vals := NMap.ins a.vals lane ((vs[e.2]?).getD 0), need := a.need - 1 }
        | none => { a with need := a.need - 1, dead := true }
      { c with atomRets := replaceIf (fun a => a.commit == commit && a.ret == id) put c.atomRets }) c

/-- The bytes that an update leaves, and the old value of each operation: stored bytes first, then the operations in order. -/
def State.updateBytes (s : State) (l : SbLine) : List (Nat × Byte) × List DWord :=
  l.ops.foldl (fun acc o =>
    let at_ := o.addr % 128
    let n := atomBytes o.fn.toNat
    let cur (i : Nat) : Byte :=
      match acc.1.find? fun e => e.1 == at_ + i with
      | some e => e.2
      | none => s.memByte (o.addr + i)
    let old := w64 (leNat ((List.range n).map cur))
    let new := natLe n (atomNew o.fn.toNat old o.b o.c).toNat
    (new.zipIdx.foldl (fun m e => NMap.ins m (at_ + e.2) e.1) acc.1, acc.2 ++ [old])) (l.bytes, [])

def removeFirst {α : Type} (p : α → Bool) : List α → List α
  | [] => []
  | a :: as => if p a then as else a :: removeFirst p as

/-- The commit no longer waits for the line: its core's pending-line filter and its records lose it. -/
def State.lineDone (s : State) (ci commit ln : Nat) : State :=
  s.modCore ci fun c =>
    let c := { c with pendFilter := c.pendFilter.erase (ln, commit) }
    c.setCommit commit fun r => { r with lines := removeFirst (fun y => y.1 == ln) r.lines }

/-- Loads of a core that waited for a line in the pending-line filter go on (R278). -/
def State.retryLoads (s : State) (ci : Nat) : State :=
  (s.core ci).groups.foldl (fun s e => e.2.ops.foldl (fun s o => s.serveGlobal ci e.1 o.num) s) s

/-- The update of a failing line is not performed: a record is written and its ATOM tokens are not sent (R276). -/
def State.failUpdate (s : State) (ci commit : Nat) (l : SbLine) (cls : Cls) : State :=
  let base := match (s.core ci).commit? commit with
    | some r => r.word2
    | none => 0
  let (word, va) := match minBy? (fun m => m.1) l.marks with
    | some m => (m.1, m.2.2)
    | none => (0, l.line * 128)
  let s := s.modCore ci fun c => (c.addVals commit l.ops none).settleRets commit
  let s := s.lateRecord ci cls (tailOf [(2, lateWord2 base 0 word), (4, va % 2 ^ 56)])
  (s.lineDone ci commit l.line).retryLoads ci

/-- The update is performed at the slice, where its line is listed, as one write. -/
def State.performUpdate (s : State) (k ci commit : Nat) (l : SbLine) : State :=
  let (bytes, olds) := s.updateBytes l
  let s := (s.storeLine k l.line bytes).served k l.line
  let s := s.modCore ci fun c => (c.addVals commit l.ops (some olds)).settleRets commit
  (s.lineDone ci commit l.line).retryLoads ci

/-- An uncorrectable error does not stop an update that writes the whole line (R399). -/
def SbLine.whole (l : SbLine) : Bool := (List.range 128).all fun i => l.bytes.any fun e => e.1 == i

def State.updateStop (s : State) (l : SbLine) : Option Cls :=
  match s.lineStop l.line with
  | some .memError => if l.whole then none else some .memError
  | r => r

/-- A lined-up write is performed once it is its turn, its fences are open, the leases have run out, and all 32 permits are held
(R108, R113). -/
def State.tryUpdate (s : State) (k idx ci commit : Nat) (l : SbLine) : State :=
  match s.updateStop l with
  | some cls => (s.unqueue k idx).failUpdate ci commit l cls
  | none =>
    if !fencesOpen (s.core ci) commit l.line then s
    else
      match s.mayServe k idx l.line .write l.pol none with
      | (false, s) => s
      | (true, s) =>
        match s.seat k l.line l.pol true with
        | (false, s) => s
        | (true, s) => (s.unqueue k idx).performUpdate k ci commit l

/-- LINED_UP_WRITE_PERFORM: a line with stores only, or a write of a unit of the device. -/
def execLinedUpWritePerform (die pos idx : Nat) (s : State) : Out :=
  let k := sliceKey die pos
  match (s.slice k).reqAt idx with
  | some (.update commit ci l) => .next (if l.ops.isEmpty then s.tryUpdate k idx ci commit l else s)
  | some (.agent _ _) => .next (s.tryAgent k idx)
  | _ => .next s

/-- The requester number under which a core's request reaches an owner that is not the slice where the core meets the line (R109). -/
def forwarded (ci : Nat) : Nat := reqAgent (dieOf ci)

/-- A request that is not at its owner yet goes on to it, behind the earlier requests for its line (R103, R274). -/
def State.toOwner (s : State) (k idx owner ci ln : Nat) (r : SliceReq) : State :=
  if (s.slice k).behind idx ln then s else (s.unqueue k idx).enqueue owner (forwarded ci) r

/-- ATOMIC_AT_OWNER: a line with atomics or reductions. -/
def execAtomicAtOwner (die pos idx : Nat) (s : State) : Out :=
  let k := sliceKey die pos
  match (s.slice k).reqAt idx with
  | some (.update commit ci l) =>
    let owner := updateSlice s (dieOf ci) l.line true
    .next (if l.ops.isEmpty then s
      else if k ≠ owner then s.toOwner k idx owner ci l.line (.update commit ci l)
      else s.tryUpdate k idx ci commit l)
  | _ => .next s

/-- FETCH_AT_OWNER: in arrival order, at the owner that holds all 32 permits, of a host line with E of the halves that it reads (R274,
R275). -/
def execFetchAtOwner (die pos idx : Nat) (s : State) : Out :=
  let k := sliceKey die pos
  match (s.slice k).reqAt idx with
  | some (.fetch ci ln num pol halves) =>
    let owner := fetchSlice s (dieOf ci) ln
    match s.lineStop ln with
    | some cls => .next ((s.unqueue k idx).faultLoad ci ln num cls)
    | none =>
      if k ≠ owner then .next (s.toOwner k idx owner ci ln (.fetch ci ln num pol halves))
      else
        match s.mayServe k idx ln .own pol none with
        | (false, s) => .next s
        | (true, s) =>
          match s.placeLine k ln pol with
          | none => .next s
          | some s =>
            let s := (((s.unqueue k idx).poolAcquire ln true).hostAcquire ln halves true).served k ln
            .next (s.deliverLine ci ln num (s.memBytes (ln * 128) 128))
  | _ => .next s

/-! ## Committed lines on their way (R273) -/

/-- STORE_LINE_ARRIVAL: a line of a commit reaches the slice where its core meets it, and is lined up (R103, R108); one that no cache holds
is performed at once, behind its fences (R105). -/
def execStoreLineArrival (idx : Nat) (s : State) : Out :=
  match s.transit[idx]? with
  | some (_, .update commit ci l) =>
    let rest := s.transit.eraseIdx idx
    if l.uncached then
      if fencesOpen (s.core ci) commit (bareNum l.line) then
        let s := { s with transit := rest }.storeUncached (l.bytes.map fun (e : Nat × Byte) => (l.line * 128 + e.1, e.2))
        let done (c : Core) : Core := { c with pendFilter := c.pendFilter.erase (l.line, commit) }.setCommit commit fun r =>
          { r with uncached := removeFirst (fun y => y.1 == bareNum l.line) r.uncached }
        .next ((s.modCore ci done).retryLoads ci)
      else .next s
    else
      let s := { s with transit := rest }
      let k := sliceAt s (dieOf ci) l.line
      .next (s.enqueue k (requester (k / 256) ci) (.update commit ci l))
  | _ => .next s

end Sys2Proof.Machine
end

