-- ==== Sys2Proof/Machine/Matrix.lean ====
section
/-! DEFINITION. The matrix unit (R245 to R270): issue, checks, the rendezvous latch, and performing an operation. -/

namespace Sys2Proof.Machine

/-! ## Format-block words (R248, R249, R262) -/

/-- The type classes of R249. -/
inductive MatClass where
  | f32 | half | narrow | low | residue
  deriving DecidableEq, Repr

def matClass (a b : Nat) : Option MatClass :=
  if a = 5 ∧ b = 5 then some .f32
  else if (a = 6 ∧ b = 6) ∨ (a = 7 ∧ b = 7) then some .half
  else if a = 1 ∧ b = 1 then some .residue
  else if 10 ≤ a ∧ a ≤ 12 ∧ 10 ≤ b ∧ b ≤ 12 then some .low
  else if 8 ≤ a ∧ a ≤ 12 ∧ 8 ≤ b ∧ b ≤ 12 then some .narrow
  else none

/-- Q of R249. -/
def chunkLen : MatClass → Nat
  | .f32 => 8
  | .half => 16
  | .narrow | .low | .residue => 32

def narrowTy (t : Nat) : Bool := 8 ≤ t && t ≤ 12

/-- R262: the first check that a format-block word fails, 0 when it passes. -/
def fmtbReason (w : DWord) : Nat :=
  let lo := (loWord w).toNat
  let hi := (hiWord w).toNat
  if (matClass (fbATy w) (fbBTy w)).isNone then 1
  else if (fbABlen w != 0 || fbBBlen w != 0) && !(narrowTy (fbATy w) && narrowTy (fbBTy w)) then 2
  else if fbK w = 0 then 3
  else if fbAPitch w = 0 ∨ fbBPitch w = 0 then 4
  else if field lo 24 8 + field lo 12 4 + field hi 15 1 ≠ 0 then 5
  else 0

/-- The classes that a form accepts (R249). -/
def MatKind.accepts (k : MatKind) (c : MatClass) : Bool :=
  match k, c with
  | .mma, .residue => false
  | .mma, _ => true
  | .spmma, .low => true
  | .rnmma, .residue => true
  | _, _ => false

/-- R262: FMTB of a low and a high word. -/
def fmtbWord (a b : Word) : DWord :=
  let r := fmtbReason (pair a b)
  if r = 0 then pair a (w32 (setField b.toNat 31 1 1))
  else pair (w32 (setField a.toNat 24 8 r)) (w32 (setField b.toNat 31 1 0))

/-! ## Operands of a multiplication (R247, R252) -/

/-- An element: its code's value, and its block's scale (none for a NaN scale). -/
structure Elem where
  v : FVal
  sc : Option (Nat × Int)
  deriving DecidableEq, Repr

/-- The value of a code of an element type (R248). -/
def elemVal (ty code : Nat) : FVal :=
  match ty with
  | 1 => .fin (decide (128 ≤ code)) (sextN code 8).natAbs 0
  | 5 => fF32.val code
  | 6 => fF16.val code
  | 7 => fBF16.val code
  | 8 => fE4M3.val code
  | 9 => fE5M2.val code
  | 10 => fE3M2.val code
  | 11 => fE2M3.val code
  | _ => fE2M1.val code

/-- Code n of a strip: the memory forms of R221 are bit streams, lowest bit first. -/
def stripCode (buf : NMap Byte) (off ty n : Nat) : Nat :=
  let w := elemBits ty
  leNat (buf.readBytes (off + w * n / 8) 5) / 2 ^ (w * n % 8) % 2 ^ w

/-- The scale of element k (R225). -/
def stripScale (buf : NMap Byte) (off ty k spar blen n : Nat) : Option (Nat × Int) :=
  if blen = 0 then some (1, 0)
  else
    let t := n / blen
    bs20 (field (leNat (buf.readBytes (off + stripScales ty k spar + 8 * (t / 3)) 8)) (20 * (t % 3)) 20)

/-- The mask of group q of a sparse strip (R226). -/
def stripMask (buf : NMap Byte) (off ty k spar q : Nat) : Nat :=
  leNat (buf.readBytes (off + stripMasks ty k spar + 8 * q) 8)

/-- The code of element n before compression; 0 where the mask does not keep it or the group is ill-formed (R255). -/
def elemCode (buf : NMap Byte) (off ty k spar n : Nat) : Nat :=
  if spar = 0 then stripCode buf off ty n
  else
    let m := stripMask buf off ty k spar (n / 64)
    if popcount m 64 = sparKept spar ∧ m / 2 ^ (n % 64) % 2 = 1 then
      stripCode buf off ty (n / 64 * sparKept spar + popcount (m % 2 ^ (n % 64)) 64)
    else 0

/-- The K elements of a strip. -/
def stripElems (buf : NMap Byte) (off ty k spar blen : Nat) : List Elem :=
  (List.range k).map fun n => ⟨elemVal ty (elemCode buf off ty k spar n), stripScale buf off ty k spar blen n⟩

/-- A sparse strip holds an ill-formed group (R226). -/
def stripIll (buf : NMap Byte) (off ty k spar : Nat) : Bool :=
  spar != 0 && (List.range (k / 64)).any fun q => popcount (stripMask buf off ty k spar q) 64 != sparKept spar

/-- A product: a NaN with the flags it sets, an infinity, or an exact number (R252, R253). -/
inductive Prod where
  | nan (fl : Nat)
  | inf (neg : Bool)
  | fin (neg : Bool) (m : Nat) (e : Int)
  deriving DecidableEq, Repr

/-- R252. -/
def elemProd (a b : Elem) : Prod :=
  let neg := a.v.neg != b.v.neg
  let fmt := if a.sc.isNone || b.sc.isNone then fFMT else 0
  let sig := nvSig [a.v, b.v]
  match a.sc, b.sc with
  | some (ma, ea), some (mb, eb) =>
    match a.v, b.v with
    | .nan _, _ => .nan sig
    | _, .nan _ => .nan sig
    | .fin _ m e, .fin _ m' e' => .fin neg (m * ma * m' * mb) (e + ea + e' + eb)
    | .inf _, .fin _ m _ => if m * ma * mb = 0 then .nan fNV else .inf neg
    | .fin _ m _, .inf _ => if m * ma * mb = 0 then .nan fNV else .inf neg
    | .inf _, .inf _ => if ma * mb = 0 then .nan fNV else .inf neg
  | _, _ => .nan (fmt ||| sig)

def Prod.isZero : Prod → Bool
  | .fin _ m _ => m == 0
  | _ => false

/-- The exact fixed-point sum in units of 2^base, each product truncated toward zero, and whether a truncation dropped
something (R253). -/
def fixedSum (base : Int) (ps : List Prod) : Int × Bool :=
  ps.foldl (fun acc p =>
    match p with
    | .fin neg m e =>
      if base ≤ e then (acc.1 + signedAt neg m e base, acc.2)
      else
        let sh := (base - e).toNat
        let q : Int := (m / 2 ^ sh : Nat)
        (acc.1 + (if neg then -q else q), acc.2 || m % 2 ^ sh != 0)
    | _ => acc) (0, false)

/-- R253: chunkadd of an F32 pattern and a chunk of products. -/
def chunkAdd (x : Nat) (ps : List Prod) : FRes :=
  let xv := fF32.val x
  let nans := ps.filterMap fun p => match p with
    | .nan fl => some fl
    | _ => none
  let infs := ps.filterMap fun p => match p with
    | .inf n => some n
    | _ => none
  if ps.all Prod.isZero then ⟨x, 0⟩
  else if !nans.isEmpty || xv.isNan || (infs.contains true && infs.contains false) then
    fF32.nanRes (orFl nans ||| nvSig [xv] ||| (if infs.contains true && infs.contains false then fNV else 0))
  else
    match infs with
    | n :: _ =>
      match xv with
      | .inf nx => if nx == n then ⟨x, 0⟩ else fF32.nanRes fNV
      | _ => fF32.infRes false n 0
    | [] =>
      let tops := ps.filterMap fun p => match p with
        | .fin _ m e => if m = 0 then none else some ((Nat.log2 m : Int) + e)
        | _ => none
      let emax := tops.foldl max (tops.headD 0)
      let base := emax - 60
      let (sum, dropped) := fixedSum base ps
      let nx := if dropped then fNX else 0
      if sum = 0 then ⟨x, nx⟩
      else
        match xv with
        | .fin n m e =>
          let lo := min e base
          let r := fF32.roundInt .ne false (signedAt n m e lo + sum * (2 ^ (base - lo).toNat : Int)) lo false
          ⟨r.bits, r.fl ||| nx⟩
        | _ => ⟨x, nx⟩

/-- Consecutive chunks of q; `fuel` bounds their number. -/
def chunksOf {α : Type} (q : Nat) : Nat → List α → List (List α)
  | 0, _ => []
  | n + 1, l => if l.isEmpty then [] else l.take q :: chunksOf q n (l.drop q)

/-- One element of a floating form (R253). -/
def floatElem (q : Nat) (x : Nat) (a b : List Elem) : FRes :=
  let ps := a.zipWith elemProd b
  (chunksOf q ps.length ps).foldl (fun acc ch => let r := chunkAdd acc.bits ch; ⟨r.bits, acc.fl ||| r.fl⟩) ⟨x, 0⟩

/-- The integer of an S8 element. -/
def elemInt (a : Elem) : Int :=
  match a.v with
  | .fin n m _ => if n then -(m : Int) else m
  | _ => 0

/-- One element of RNMMA (R254). -/
def residueElem (x : Nat) (a b : List Elem) : Nat :=
  let sum : Int := (a.zipWith (fun p q => elemInt p * elemInt q) b).foldl (· + ·) 0
  let r := rnRead x
  (⟨((r.c1 + sum) % 1023).toNat, ((r.c2 + sum) % 1024).toNat, ((r.c3 + sum) % 1025).toNat, r.taint⟩ : Residue).word

/-! ## What an operation computes -/

def cWord (buf : NMap Byte) (o : Nat) : Nat := leNat (buf.readBytes o 4)

/-- The C words that a multiplication writes, and its flags. -/
def MatOp.product (m : MatOp) (c : Core) : List (Nat × Nat) × Nat :=
  let k := fbK m.fmt
  let n := shapeN m.shape
  let q := match matClass (fbATy m.fmt) (fbBTy m.fmt) with
    | some cl => chunkLen cl
    | none => 32
  let offB (j : Nat) : Nat := m.boff + j * fbBPitch m.fmt
  let cols := (List.range n).map fun j => stripElems c.bufW (offB j) (fbBTy m.fmt) k m.spar (fbBBlen m.fmt)
  let rows := (List.range (shapeM m.shape)).filterMap fun i => (m.rowOf i).map fun r =>
    (i, stripElems c.bufA (m.aoff + r * fbAPitch m.fmt) (fbATy m.fmt) k 0 (fbABlen m.fmt))
  let ill := !rows.isEmpty && (List.range n).any fun j => stripIll c.bufW (offB j) (fbBTy m.fmt) k m.spar
  let out := rows.flatMap fun r => (List.range n).map fun j =>
    let at_ := m.tile + 4 * (r.1 * n + j)
    let x := cWord c.bufC at_
    let b := (cols[j]?).getD []
    if m.kind == .rnmma then (at_, (⟨residueElem x r.2 b, 0⟩ : FRes)) else (at_, floatElem q x r.2 b)
  (out.map fun e => (e.1, e.2.bits), orFl (out.map fun e => e.2.fl) ||| (if ill then fFMT else 0))

/-- The place of fragment word t of lane l (R264). -/
def MatOp.fragAt (m : MatOp) (l t : Nat) : Nat := m.tile + 4 * (l / 2 * shapeN m.shape + 8 * (l % 2) + t)

/-- The C words written, the flags, and the register results of an operation. -/
def MatOp.effect (m : MatOp) (c : Core) : List (Nat × Nat) × Nat × List RegWrite :=
  let tileWords := (List.range (shapeM m.shape * shapeN m.shape)).map fun i => m.tile + 4 * i
  let frag (k : Nat → Nat → FRes) : List (Nat × Nat) × Nat × List RegWrite :=
    let rs := m.frag.map fun e => (m.fragAt e.1 e.2.1, k (cWord c.bufC (m.fragAt e.1 e.2.1)) e.2.2.toNat)
    (rs.map fun r => (r.1, r.2.bits), orFl (rs.map fun r => r.2.fl), [])
  let each (k : Nat → FRes) : List (Nat × Nat) × Nat × List RegWrite :=
    let rs := tileWords.map fun a => (a, k (cWord c.bufC a))
    (rs.map fun r => (r.1, r.2.bits), orFl (rs.map fun r => r.2.fl), [])
  let mode := Rnd.ofMod (field m.scale.toNat 20 2)
  match m.kind with
  | .mma | .spmma | .rnmma => let r := m.product c; (r.1, r.2, [])
  | .accz => (tileWords.map fun a => (a, 0), 0, [])
  | .accld =>
    ([], 0, (maskLanes m.active).flatMap fun l => (List.range 8).map fun t =>
      { reg := opPlus m.dst t, lane := l, val := w32 (cWord c.bufC (m.fragAt l t)) })
  | .accst => frag fun _ v => ⟨v, 0⟩
  | .accstAdd => frag fun x v => fadd fF32 .ne false (fF32.val x) (fF32.val v)
  | .accstRn => frag fun x v => ⟨(rnZip (· + ·) (rnRead x) (rnRead v)).word, 0⟩
  | .acccvRn => each fun x => rnScale mode x (scaleBits m.scale)
  | .acccvSc => each fun x =>
      match bs20 (scaleBits m.scale) with
      | none => fF32.nanRes (fFMT ||| nvSig [fF32.val x])
      | some (sm, se) => mulScale mode (fF32.val x) sm se

/-! ## Performing (R266 to R269) -/

/-- The age of the group of an operation. -/
def Core.matAge (c : Core) (m : MatOp) : Option Age := (c.group? m.grp).map fun g => (g.stamp, m.grp)

/-- The operation's lines are present (R270), and earlier requests to them are served (R266); the unit's own go in its queue's order. -/
def Core.matOpen (c : Core) (m : MatOp) : Bool :=
  [Buf.a, .w, .c].all fun b => (m.lines b).all fun ln =>
    c.presentFor m.num b ln && !c.heldBack m.num (c.matAge m) b ln (b == .c && m.writesC) false

/-- Operation m of a fused operation stays with member x, which is not performed: what x waits for are commits of groups older than m's. A
member that waits for m's group, or for a younger one, does not keep m (R29; log entry 147). -/
def Core.matBides (c : Core) (m x : MatOp) : Bool :=
  (c.lineDeps.filter fun q => q.1.unit && q.1.num == x.num).all fun q => bides q.2 (c.matAge m)

/-- Images in the tile undo store (R268). -/
def Core.tileImages (c : Core) : Nat := (c.groups.map fun e => e.2.tileUndo.length).foldl (· + ·) 0

/-- The lines of an operation that need a new image. -/
def Group.newTileLines (g : Group) (m : MatOp) : List Nat :=
  if m.writesC then (m.lines .c).filter fun ln => !g.tileUndo.any fun u => u.buf == .c && u.line == ln else []

/-- R268: while the store has too little room, abort the youngest of the groups that hold images and the requester. -/
def State.makeRoom (s : State) (ci gi : Nat) (m : MatOp) : Nat → State
  | 0 => s
  | fuel + 1 =>
    let c := s.core ci
    match c.group? gi with
    | none => s
    | some g =>
      if !(c.matq.any fun x => x.num == m.num) || c.tileImages + (g.newTileLines m).length ≤ 512 then s
      else
        let cands := c.groups.filter fun e => e.1 == gi || !e.2.tileUndo.isEmpty
        match sortBy (fun a b => olderThan b.2 b.1 a.2 a.1) cands with
        | [] => s
        | e :: _ => State.makeRoom (s.abortReplay ci e.1) ci gi m fuel

/-- Perform one operation whole, once no older group locks a line of it; younger ones are wounded (R29, R267). Its results are in place;
its flag clears in `Core.matFinish`. -/
def State.performOp (s : State) (ci : Nat) (m : MatOp) : State :=
  if !(s.core ci).matOpen m then s
  else
    match (s.claim ci m.grp .a (m.lines .a)).bind fun s => s.claim ci m.grp .c (m.lines .c) with
    | none => s
    | some s =>
      if !(s.core ci).matOpen m then s
      else
        let s := s.makeRoom ci m.grp m 65
        let c := s.core ci
        match c.group? m.grp with
        | none => s
        | some g =>
          if !(c.matq.any fun x => x.num == m.num) then s
          else
            let r := m.effect c
            let g' := { g with
              tileUndo := g.tileUndo ++ (g.newTileLines m).map fun ln => c.imageFor g .c ln
              ops := replaceIf (fun o => o.num == m.num) (fun o => { o with writes := r.2.2, fl := w32 r.2.1 }) g.ops }
            s.setCore ci ({ c with
              bufC := r.1.foldl (fun b (w : Nat × Nat) => b.writeBytes w.1 (natLe 4 w.2)) c.bufC
              matq := replaceIf (fun x => x.num == m.num) (fun x => { x with done := true }) c.matq }.setGroup m.grp g')

/-- R259: the flags of the head's members clear when all of them are performed. -/
def Core.matFinish (c : Core) : Core :=
  let left := c.matHead.filter fun m => !m.done
  let out := c.matHead.filter fun m => m.done && !left.any fun x => c.matBides m x
  let ready (o : LongOp) : LongOp := { o with ready := true }
  let c := out.foldl (fun c m => match c.group? m.grp with
    | some g => c.setGroup m.grp { g with ops := replaceIf (fun o => o.num == m.num) ready g.ops }
    | none => c) c
  Core.fuseLatch { c with matq := c.matq.filter fun x => !out.any fun m => m.num == x.num }

/-- The unit performs the head of its queue, if its lines allow. Fused members are performed one after another, each under the locks that
the earlier ones took (R267); their B lines hold the same bytes for all of them, since the members that wait hold the lines for reading. A
member goes ahead of one that waits for its group's commit or for a younger one's (log entry 147). -/
def State.performHead (s : State) (ci : Nat) : State :=
  let c := s.core ci
  let ms := c.matHead.filter fun m => !m.done
  let go := ms.filter fun m => ms.all fun x => c.matOpen x || (x.num != m.num && !c.matBides m x)
  (go.foldl (fun s m => s.performOp ci m) s).modCore ci Core.matFinish

/-! ## Issue (R250, R251) -/

def causeFormat : Nat := 1
def causeMatAlign : Nat := 2
def causeMatRange : Nat := 3
def causePitch : Nat := 4
def causeLatch : Nat := 5
def causeGangCount : Nat := 6
def causeUndo : Nat := 7

/-- The C lines the group would hold uncommitted with this operation (R251, R268). -/
def undoNeed (c : Core) (gi : Nat) (g : Group) (m : MatOp) : Nat :=
  let mine := (c.matOps.filter fun x => x.grp == gi) ++ [m]
  let held := (g.tileUndo.filter fun u => u.buf == .c).map fun u => u.line
  (dedup (held ++ (mine.filter MatOp.writesC).flatMap fun x => x.lines .c)).length

/-- R251: the first failing cause in table order. -/
def matCheck (c : Core) (gi : Nat) (g : Group) (m : MatOp) (gathered : Bool) : Option Nat :=
  let mult := m.kind.multiplies
  let fmtBad := mult && (!fbValid m.fmt || fmtbReason m.fmt != 0 ||
    !(match matClass (fbATy m.fmt) (fbBTy m.fmt) with | some cl => m.kind.accepts cl | none => false))
  let alignBad := if mult then m.aoff % 16 + m.boff % 16 + m.tile % 128 != 0
    else if m.kind.fragment then m.tile % 32 != 0 else m.tile % 128 != 0
  let past (b : Buf) (ss : List (Nat × Nat)) : Bool := ss.any fun x => decide (c.partSize b < x.1 + x.2)
  let cEnd := if m.kind.fragment then m.tile + 4 * (15 * shapeN m.shape + 16) else m.tile + 4 * (shapeM m.shape * shapeN m.shape)
  let rangeBad := decide (c.partSize .c < cEnd) || past .a m.aSpans || past .w m.wSpans
  let pitchBad := mult && (decide (fbAPitch m.fmt < stripLen (fbATy m.fmt) (fbK m.fmt) 0 (fbABlen m.fmt)) ||
    decide (fbBPitch m.fmt < stripLen (fbBTy m.fmt) (fbK m.fmt) m.spar (fbBBlen m.fmt)))
  let latchBad := gathered && (match g.latch with | some es => decide (es.length < shapeM m.shape) | none => true)
  if fmtBad then some causeFormat
  else if alignBad then some causeMatAlign
  else if rangeBad then some causeMatRange
  else if pitchBad then some causePitch
  else if latchBad then some causeLatch
  else if m.writesC && 512 < undoNeed c gi g m then some causeUndo
  else none

/-- R258: a failure of an open latch: its members enter the queue one by one, and FAILS of their team increments. A complete one, which
only waits for a queue entry, does not fail. -/
def Core.failLatch (c : Core) : Core :=
  match c.gang with
  | none => c
  | some l =>
    if l.full then c
    else
    let c := { c with gang := none, matq := c.matq ++ l.members }
    match l.members.head?.bind fun m => (c.group? m.grp).map fun g => g.team with
    | none => c
    | some t => c.setTeam t { c.team t with gfails := min ((c.team t).gfails + 1) 255 }

/-- An operation that enters the queue waits at issue while the rendezvous latch holds an earlier one that shares a line with it and one of
the two writes the line: ganging changes no tile word (R259, R266; log entry 177). -/
def Core.latchMeets (c : Core) (m : MatOp) : Bool :=
  match c.gang with
  | none => false
  | some l => l.members.any fun x => (x.writesC || m.writesC) && (x.lines .c).any fun ln => (m.lines .c).contains ln

/-- The operation enters the queue alone; none: it waits at issue. -/
def Core.queueOp (c : Core) (m : MatOp) : Option Core :=
  if c.matEntries < 8 && !c.latchMeets m then some { c with matq := c.matq ++ [m] } else none

/-- What a ganged arrival does (R258); none: it waits at issue. A latch that has been open for 1,024 cycles fails first. -/
def Core.gangArrive (c : Core) (now count : Nat) (m : MatOp) : Option Core :=
  if count = 0 then c.queueOp m
  else
    let opened (c : Core) : Core := { c with gang := some { members := [m], opened := now, full := false } }
    match c.gang with
    | none => some (opened c)
    | some l =>
      if l.full then none
      else
        match l.members.head? with
        | none => some (opened c)
        | some h =>
          if now - l.opened < 1024 ∧ h.key = m.key ∧ !(l.members.any fun x => x.grp == m.grp) then
            some (Core.fuseLatch { c with gang := some { l with members := l.members ++ [m], full := l.members.length + 1 == count } })
          else some (opened c.failLatch)

/-- Issue an operation built by `mk` from its number. A word that waits for its flag's counter or for the unit has not issued, and keeps
its gather latch. -/
def matIssue (s : State) (x : Ctx) (flag : Option Nat) (gathered gang : Bool) (mk : Nat → MatOp) : State :=
  let m := mk x.c.nextNum
  match matCheck x.c s.cur.2 x.g m gathered with
  | some cause => s.faultWord x.g { cls := .matrixOperand, cause := cause }
  | none =>
    let place (c : Core) : Option Core := if gang then c.gangArrive s.arith (c.team x.g.team).gcount m else c.queueOp m
    if x.g.flagFull flag || (place x.c).isNone then s.hold x.g
    else
      let g := if gathered then { x.g with latch := none } else x.g
      s.startOp g flag (fun num => { LongOp.plain num flag x.g.pc .matrix with ready := false, dst := m.dst })
        fun _ c => (place c).getD c

/-- An operation with every field that its kind does not use at zero. -/
def MatOp.plain (num grp : Nat) (kind : MatKind) (tile shape : Nat) : MatOp :=
  { num := num, grp := grp, kind := kind, tile := tile, aoff := 0, boff := 0, fmt := 0, shape := shape, spar := 0,
    latch := none, scale := 0, frag := [], active := 0, dst := .zero, key := (0, 0, 0, 0, 0, 0, 0), fused := 0, done := false }

/-- The context of an F3 word with its active lanes. -/
def f3Ctx (f : F3) (s : State) (c : Core) (g : Group) : Ctx × LaneMask :=
  let act := g.active f.g
  ((⟨s, c, g⟩ : Ctx).latch act [f.d, f.a, f.b, f.fb], act)

/-- A matrix word: with no active lane it makes no operation, and its flag is marked and then cleared (R250). -/
def matWord (s : State) (f : F3) (k : Ctx → LaneMask → Nat → State) : Out :=
  withIssuer s fun c g =>
    let (x, act) := f3Ctx f s c g
    let flag := flagOf f.flag.toNat
    let body := match leader? act with
      | none => s.startOp x.g flag (fun num => LongOp.plain num flag g.pc .result) fun _ c => c
      | some l => k x act l
    if f.gangb then ganged s c g body else body

/-- A multiplication; `op` is its OP, part of the key of R258. -/
def multiply (s : State) (f : F3) (op : Nat) (kind : MatKind) (gathered : Bool) : Out :=
  matWord s f fun x _ l =>
    let fmt := x.rd64 f.fb l
    let boff := (x.rd f.b l).toNat
    matIssue s x (flagOf f.flag.toNat) gathered f.gangb fun num =>
      { MatOp.plain num s.cur.2 kind (x.rd f.d l).toNat f.shape.toNat with
        aoff := (x.rd f.a l).toNat, boff := boff, fmt := fmt, spar := f.spar.toNat,
        latch := if gathered then some (x.g.latch.getD []) else none,
        key := (x.g.team, op, f.fn.toNat, f.shape.toNat, f.spar.toNat, fmt, boff) }

def execMma (f : F3) (s : State) : Out := multiply s f 0x90 .mma false
def execGmma (f : F3) (s : State) : Out := multiply s f 0x91 .mma true
def execSpmma (f : F3) (s : State) : Out := multiply s f 0x95 .spmma (f.fn == 1)
def execRnmma (f : F3) (s : State) : Out := multiply s f 0x96 .rnmma (f.fn == 1)

/-! ## Tile words (R262 to R265) -/

def execAccz (f : F3) (s : State) : Out :=
  matWord s f fun x _ l =>
    matIssue s x (flagOf f.flag.toNat) false false fun num =>
      MatOp.plain num s.cur.2 .accz (x.rd f.d l).toNat f.shape.toNat

def execAccld (f : F3) (s : State) : Out :=
  matWord s f fun x act l =>
    matIssue s x (flagOf f.flag.toNat) false false fun num =>
      { MatOp.plain num s.cur.2 .accld (x.rd f.a l).toNat f.shape.toNat with active := act, dst := f.d }

/-- ACCST, ACCST.ADD and ACCST.RNADD capture the eight registers of each active lane. -/
def accStore (s : State) (f : F3) (kind : MatKind) : Out :=
  matWord s f fun x act l =>
    let frag := (maskLanes act).flatMap fun i => (List.range 8).map fun t => (i, t, x.rd (opPlus f.d t) i)
    matIssue s x (flagOf f.flag.toNat) false false fun num =>
      { MatOp.plain num s.cur.2 kind (x.rd f.a l).toNat f.shape.toNat with active := act, frag := frag }

def execAccst (f : F3) (s : State) : Out := accStore s f .accst
def execAccstAdd (f : F3) (s : State) : Out := accStore s f .accstAdd
def execAccstRnadd (f : F3) (s : State) : Out := accStore s f .accstRn

/-- ACCCV takes its scale word from the leader. -/
def accConvert (s : State) (f : F3) (kind : MatKind) : Out :=
  matWord s f fun x _ l =>
    matIssue s x (flagOf f.flag.toNat) false false fun num =>
      { MatOp.plain num s.cur.2 kind (x.rd f.d l).toNat f.shape.toNat with scale := x.rd f.a l }

def execAcccvRn (f : F3) (s : State) : Out := accConvert s f .acccvRn
def execAcccvSc (f : F3) (s : State) : Out := accConvert s f .acccvSc

def execFmtb (f : F3) (s : State) : Out :=
  withIssuer s fun c g =>
    let (x, act) := f3Ctx f s c g
    s.finish (x.g.setLanes f.d 2 ((maskLanes act).map fun l => (l, (fmtbWord (x.rd f.a l) (x.rd f.b l)).toNat)))

/-! ## Gather latch and gang register (R256 to R258) -/

/-- GTHR: entry e takes register A + e / 32 in lane e mod 32, or the null index when that lane is inactive. -/
def execGthr (f : F3) (s : State) : Out :=
  withIssuer s fun c g =>
    let (x, act) := f3Ctx f s c g
    let es := (List.range (32 * (f.fn.toNat + 1))).map fun e =>
      if laneBit act (e % 32) then some (x.rd (opPlus f.a (e / 32)) (e % 32)) else none
    s.finish { x.g with latch := some es }

/-- The gang register of a team: COUNT in bits 2:0, FAILS in bits 15:8 (R257). -/
def Team.gangReg (t : Team) : Nat := t.gcount % 8 + t.gfails % 256 * 256

def execGang (f : F3) (s : State) : Out :=
  withIssuer s fun c g =>
    let (x, act) := f3Ctx f s c g
    ganged s c g <|
      match leader? act with
      | none => s.finish x.g
      | some l =>
        let v := (x.rd f.a l).toNat
        if v = 1 ∨ 6 < v then s.faultWord g { cls := .matrixOperand, cause := causeGangCount }
        else
          let g' := x.g.setLanes f.d 1 ((maskLanes act).map fun i => (i, (c.team g.team).gangReg))
          s.finish { g' with deferred := g'.deferred ++ [.gang v] }

/-- GANG_RENDEZVOUS_TIMEOUT: a latch open for 1,024 cycles fails (R258). -/
def execGangRendezvousTimeout (core : Nat) (s : State) : Out :=
  let c := s.core core
  match c.gang with
  | some l => .next (if !l.full && 1024 ≤ s.arith - l.opened then s.setCore core c.failLatch else s)
  | none => .next s

end Sys2Proof.Machine
end

