-- ==== Sys2Proof/Machine/Multicast.lean ====
section
/-! DEFINITION. The multicast and combining words (R326 to R331, R336): MCST, MCPUT, CFAA and CFAAN, and return receipts as
tokens (R324). -/

namespace Sys2Proof.Machine

/-! ## The group table (R318) -/

/-- The entry of a group as the table in HBM holds it. -/
def State.mcEntry (s : State) (group : Nat) : McEntry :=
  let w (n : Nat) : Nat := (s.rd64 (s.mcAt group n)).toNat
  { valid := field (w 0) 63 1 == 1, send := field (w 0) 62 1 == 1, member := field (w 0) 61 1 == 1, broken := field (w 0) 60 1 == 1,
    key := field (w 0) 32 16, root := field (w 0) 16 12, nmemb := field (w 0) 0 13, tva := field (w 1) 12 44 * 4096,
    wsz := field (w 1) 0 6, midx := field (w 2) 16 12, tasid := field (w 2) 0 16, maxlen := field (w 3) 32 17,
    nextpm := w32 (w 3) }
/-- MAXLEN; 0 means 448. -/
def McEntry.cap (e : McEntry) : Nat := if e.maxlen = 0 then 448 else e.maxlen

def causeGroup : Nat := 5
def causeWindow : Nat := 6

/-- GROUP: the sender's entry is not valid, may not send, or carries another key. -/
def groupBad (s : State) (c : Core) (word : Nat) : Bool :=
  let e := s.mcEntry word
  decide (4095 < word) || !e.valid || !e.send || e.key != c.cfg.key

/-- The receipt of an instance that sent nothing (R324). -/
def emptyReceipt : List Word := List.replicate 8 0

/-- One descriptor for each instance of em_fire: its message, or its empty receipt. -/
def queueMessages (c : Core) (g : Group) (f : F1) (msg : Nat → Option McMsg) : Group :=
  g.firedInsts.foldl (fun g' i =>
    match msg i, f1Due c g f i with
    | none, none => g'
    | m, due => g'.queue (.mcst (f1Rel f) due m)) (g.release f)

/-! ## MCST -/

/-- Bytes of a message with n items of the word's width (R329). -/
def mcstLen (n w : Nat) : Nat := 16 + n * (if w = 8 then 12 else 8)

def execMcst (f : F1) (s : State) : Out :=
  withIssuer s fun c g =>
    let (x, act) := f1Ctx f s c g
    match leader? act with
    | none => s.finish (queueMessages c x.g f fun _ => none)
    | some l0 =>
      let w := sizeBytes f.fn.toNat
      let h := runOf4 x f.a l0
      let e := s.mcEntry (h 0)
      let off (l : Nat) : Nat := x.count3 f.c l
      let lanesOf (i : Nat) : List Nat := (maskLanes act).filter fun l => g.instOf l == i
      match firstCause .remoteAccess act off
          [(causeGroup, fun _ => groupBad s c (h 0)), (1, fun l => off l % w != 0),
           (2, fun l => decide (e.cap < mcstLen (lanesOf (g.instOf l)).length w)),
           (3, fun _ => notifyBad (h 1) || h 3 != 0), (causeWindow, fun l => decide (2 ^ e.wsz < off l + w))] with
      | some flt => s.faultWord g flt
      | none =>
        let nt := notifyOf (h 1) (h 2) (field (h 1) 31 1 == 1)
        s.finish (queueMessages c x.g f fun i =>
          match lanesOf i with
          | [] => none
          | ls => some { group := h 0, root := e.root, wsz := e.wsz, items := ls.map fun l => (off l, natLe w (x.rdN (w / 4) f.b l).toNat),
                         notify := nt, len := mcstLen ls.length w, stamped := false,
                         postmark := 0, part := 0, parts := 1 })

/-! ## MCPUT -/

def execMcput (f : F1) (s : State) : Out :=
  withIssuer s fun c g =>
    let (x, act) := f1Ctx f s c g
    match leader? act with
    | none => s.finish (queueMessages c x.g f fun _ => none)
    | some l =>
      let h := runOf4 x f.a l
      let e := s.mcEntry (h 0)
      let src := (x.rd64 f.b l).toNat
      let len := x.count3 f.c l
      let one := laneMask1 l
      let fault (cause : Nat) : State := s.faultWord g { cls := .remoteAccess, cause := cause, lanes := one, addr := src }
      if groupBad s c (h 0) then fault causeGroup
      else if h 3 % 4 ≠ 0 ∨ src % 4 ≠ 0 then fault 1
      else if len % 4 ≠ 0 ∨ 65536 < len ∨ e.cap < len then fault 2
      else if notifyBad (h 1) then fault 3
      else if 2 ^ e.wsz < h 3 + len then fault causeWindow
      else
        match bulkXl s x l none (if len = 0 then none else some (src, false)) with
        | .wait s => s.hold x.g
        | .fail fs => s.faultWord g (xlFault fs)
        | .ok s ts =>
        match bulkLost s l ts with
        | some flt => s.faultWord g flt
        | none =>
          let live := g.activeInsts act
          let k := { copyBase x g.pc .mcput .frame l with
            src := src, len := len, rel := f1Rel f, notify := notifyOf (h 1) (h 2) (field (h 1) 31 1 == 1),
            due := live.filterMap fun i => f1Due c g f i, mc := some (h 0, h 3) }
          let g1 := ((x.g.release f).foot [src]).queue (.copy k)
          s.finish (g.firedInsts.foldl (fun g' i =>
            match f1Due c g f i with
            | some d => if live.contains i then g' else g'.queue (.mcst none (some d) none)
            | none => g') g1)

/-! ## CFAA and CFAAN -/

def execCfaa (f : F1) (s : State) : Out :=
  let n := atomBytes f.fn.toNat
  laneRemote s f .cfaa n n (fun x l => bareAddr x f l) (fun x l => x.rdN (n / 4) f.b l) fun _ _ => 0

def execCfaan (f : F1) (s : State) : Out :=
  let n := atomBytes f.fn.toNat
  laneRemote s f .cfaan n n (fun x l => bareAddr x f l) (fun x l => x.rdN (n / 4) f.b l) fun _ _ => 0

/-- The bytes that a message writes, as the notify token reports them (R332). -/
def McMsg.bytes (m : McMsg) : Nat := (m.items.map fun i => i.2.length).foldl (· + ·) 0

/-! ## The packets of a message (R293) -/

/-- The bytes of an item, in pieces of at most 256. -/
def itemChunks (it : Nat × List Byte) : List (Nat × List Byte) :=
  (List.range ((it.2.length + 255) / 256)).map fun i => (it.1 + 256 * i, (it.2.drop (256 * i)).take 256)

/-- Items by packet: `acc` are those of the packet that has room left, and each takes `extra` bytes beside its own. -/
def packItems (extra : Nat) : Nat → List (Nat × List Byte) → List (Nat × List Byte) → List (List (Nat × List Byte))
  | _, acc, [] => [acc]
  | room, acc, it :: rest =>
    let n := it.2.length + extra
    if n ≤ room then packItems extra (room - n) (acc ++ [it]) rest else acc :: packItems extra (256 - n) [it] rest

/-- The packets that a message travels as, of at most 256 data bytes each: an MCPUT's bytes; of an MCST the header's 16 bytes, and each item
with its offset, as R329 counts them. -/
def McMsg.split (m : McMsg) : List McMsg :=
  let ps := if m.len = McMsg.bytes m then packItems 0 256 [] (m.items.flatMap itemChunks) else packItems 4 240 [] m.items
  ps.zipIdx.map fun e => { m with items := e.1, part := e.2, parts := ps.length }

/-- The message that packets make up. -/
def McMsg.join (m : McMsg) (ps : List McMsg) : McMsg :=
  let whole := { m with items := ps.flatMap fun (q : McMsg) => q.items, part := 0, parts := 1 }
  match whole.items with
  | it :: _ :: _ => if whole.len = McMsg.bytes whole then { whole with items := [(it.1, whole.items.flatMap Prod.snd)] } else whole
  | _ => whole

/-- The packets of a message, from the packet of any of them. -/
def Packet.splitMessage (p : Packet) (m : McMsg) : List Packet := (McMsg.split m).map fun q => { p with body := .multicast q }

/-- A packet of the message that a packet belongs to. -/
def sameMessage (p q : Packet) : Bool :=
  match p.body, q.body with
  | .multicast a, .multicast b => p.srcDev == q.srcDev && p.srcCore == q.srcCore && p.reqid == q.reqid && a.group == b.group &&
      a.stamped == b.stamped && a.postmark == b.postmark
  | _, _ => false

/-- The whole message of a packet, once all its packets are among those that came. -/
def wholeMessage (p : Packet) (m : McMsg) (came : List Packet) : Option McMsg :=
  let ps := sortBy (fun a b => a.part ≤ b.part) ((came.filter (sameMessage p)).filterMap fun q => match q.body with
    | .multicast a => some a
    | _ => none)
  if ps.length = m.parts then some (McMsg.join m ps) else none

/-! ## Messages leave, and receipts return -/

/-- A message goes to its group's root (R320), packet by packet under one number; one that the device drops is answered with DROPPED on the
source side. `owner` names the bundle or the Courier command that waits. -/
def State.sendMessage (s : State) (ci commit : Nat) (owner : Nat) (m : McMsg) : Option Nat × Nat × State :=
  let l : RemLane := { pos := 0, dev := 0, tasid := 0, tva := 0, va := 0, b := 0, c := 0 }
  let (n, s) := s.newReq ci commit .rst (some .mcput) 0 owner l fun _ => .multicast m
  match s.dev.requests.find? fun r => r.reqid == n with
  | none => (none, n, s)
  | some r =>
    let (cause, s) := (Packet.splitMessage r.pkt m).foldl (fun (acc : Option Nat × State) p =>
      match acc with
      | (none, s) => s.sendPacket ci (s.core ci).cfg.asid p
      | r => r) (none, s)
    (cause, n, s)

/-- The receipt words of a message that no member applied: STATUS, CAUSE and NFAIL (R320, R331). -/
def failedReceipt (status cause nmemb : Nat) : List Word :=
  [statusWord status cause, 0, w32 (nmemb % 8192)] ++ List.replicate 5 0

/-- A request of a message ends; its commit no longer waits for it. -/
def State.dropReq (s : State) (reqid : Nat) : State :=
  match s.dev.requests.find? fun r => r.reqid == reqid with
  | none => s
  | some r =>
    (s.setDev { s.dev with requests := s.dev.requests.filter fun q => q.reqid != reqid }).modCore r.core fun c =>
      c.setCommit r.commit fun q => { q with remote := q.remote.filter (· != reqid) }

/-- An instance's message leaves, or its empty receipt is posted. A receipt has STATUS bits 31:24 and zeros below, but for the
CAUSE of a drop. -/
def State.leaveMessage (s : State) (ci : Nat) (o : OutItem) (due : Option TokenDue) (msg : Option McMsg) : State :=
  match msg with
  | none =>
    match due with
    | some d => s.modCore ci fun c => c.postDue o.commit o.grp d emptyReceipt
    | none => s
  | some m =>
    let n := (s.core ci).nextNum
    let num := 2 ^ 40 + n * 2048 + ci
    let s := s.modCore ci fun c => { c with nextNum := n + 1 }
    let b : Bundle := { num := num, core := ci, asid := o.asid, commit := o.commit, due := due, words := 6, width := 1, word2 := 0 }
    let s := s.setDev { s.dev with bundles := s.dev.bundles ++ [b] }
    match s.sendMessage ci o.commit num m with
    | (none, _, s) => s
    | (some cause, n, s) =>
      let s := (s.dropReq n).setDev { (s.dropReq n).dev with bundles := (s.dropReq n).dev.bundles.filter fun x => x.num != num }
      match due with
      | some d => s.modCore ci fun c =>
          c.postDue o.commit o.grp d (failedReceipt 3 (0x80 + cause) (s.mcEntry m.group).nmemb)
      | none => s

end Sys2Proof.Machine
end

