-- ==== Sys2Proof/Machine/SysRegs.lean ====
section
/-! DEFINITION. The system registers (R81, R98, R152, R319, R400): what they read, what writing them does, TLB invalidation
(R99), and the events of their writes. -/

namespace Sys2Proof.Machine

/-! ## Codes -/

def srXlctx : Nat := 0x100
def srTlbVa : Nat := 0x101
def srTlbCtl : Nat := 0x102
def srTlbStat : Nat := 0x103
def srPart : Nat := 0x110
def srRevoke : Nat := 0x120
def srFlth : Nat := 0x130
def srPoison : Nat := 0x131
def srPoolRegion : Nat := 0x132
def srDevinc : Nat := 0x133
def srPoolSize : Nat := 0x134

/-- The registers that need PRIV. -/
def srNeedsPriv (code : Nat) : Bool :=
  [srXlctx, srTlbVa, srTlbCtl, srTlbStat, srRevoke, srPoison, srPoolRegion].contains code

/-- What a register reads on a core; write-only fields read zero. -/
def State.sysRead (s : State) (ci code : Nat) : DWord :=
  let c := s.core ci
  let t := (s.die (dieOf ci)).tlbinv
  if code = srXlctx then w64 (c.cfg.asid % 2 ^ 16)
  else if code = srTlbVa then w64 t.va
  else if code = srTlbCtl then w64 (t.asid * 2 ^ 32 + t.npg)
  else if code = srTlbStat then w64 (bit01 t.busy + 2 * bit01 t.done)
  else if code = srPart then w64 (c.cfg.part % 2 ^ 16)
  else if code = srFlth then (match s.coreRegion? ci with | some r => r.flth.zeroExtend 64 | none => 0)
  else if code = srPoolRegion then w64 s.dev.lost.length
  else if code = srDevinc then w64 s.dev.inc.toNat
  else if code = srPoolSize then w64 s.dev.poolRegions
  else 0

/-! ## TLB invalidation (R99) -/

/-- A range of pages: [lo, hi) in bytes; NPG = 0 names every page. -/
def TlbInv.covers (t : TlbInv) (asid va size : Nat) : Bool :=
  t.asid == asid && (t.npg == 0 || decide (va < t.va + t.npg * 4096 ∧ t.va < va + size))

/-- Entries that overlap the range leave a structure. -/
def TlbInv.keep (t : TlbInv) (l : List TlbEnt) : List TlbEnt := l.filter fun x => !t.covers x.asid x.va x.size

/-- The range of a walk-cache entry's subtree. -/
def walkSpan (key : Nat) : Nat × Nat := (key / 8 * 2 ^ (48 - 9 * (key % 8)), 2 ^ (48 - 9 * (key % 8)))

/-- Steps 1 and 2 on one die: entries go, walks that overlap start again, and a walk of another page forgets the tables of the range that it
read. -/
def Die.invalidate (d : Die) (t : TlbInv) : Die :=
  let hit (w : Walk) : Bool := t.covers w.asid (w.page * 4096) 4096 ||
    (match w.out with
      | .leaf va size _ => t.covers w.asid va size
      | .fail _ _ => false)
  let again := (d.walks.filter hit).map fun w => ({ asid := w.asid, page := w.page, who := w.who } : Miss)
  { d with l2tlb := t.keep d.l2tlb, ingressTlb := t.keep d.ingressTlb,
           walkCache := d.walkCache.filter fun e => !t.covers e.1 (walkSpan e.2.1).1 (walkSpan e.2.1).2,
           walks := (d.walks.filter fun w => !hit w).map fun w =>
             { w with seen := w.seen.filter fun e => !t.covers w.asid (walkSpan e.1).1 (walkSpan e.1).2 }, missq := again ++ d.missq,
           failed := d.failed.filter fun f => !t.covers f.asid (f.page * 4096) 4096 }

/-- Step 3: the uncommitted groups of the ASID whose footprint holds a page of the range abort and replay. -/
def State.invalidateGroups (s : State) (t : TlbInv) : State :=
  s.cores.keyList.foldl (fun s ci =>
    let c := s.core ci
    let hit := c.groups.filter fun e => c.cfg.asid == t.asid && e.2.footprint.any fun p => t.covers c.cfg.asid (p * 4096) 4096
    hit.foldl (fun s e => s.abortReplay ci e.1) s) s

/-- A request that holds an address translated at issue. -/
def SendItem.holdsXl : SendItem → Bool
  | .copy k => k.remote.isSome
  | .remote _ _ _ _ _ _ | .mcst _ _ _ | .flush _ _ _ | .sigchk _ _ _ _ _ | .keyset _ _ _ | .preempt _ _ _ _ => true
  | _ => false

/-- A commit has not finished step 3, or keeps requests that hold translations. -/
def Core.heldXl (c : Core) (num : Nat) : Bool :=
  (c.commits.any fun r => r.num == num && (!r.lines.isEmpty || !r.uncached.isEmpty)) ||
    c.outbox.any fun o => o.commit == num && o.item.holdsXl

/-- The commits of an ASID that began step 3 and have not finished it, as core and number (R99, step 4). -/
def State.xlCommits (s : State) (asid : Nat) : List (Nat × Nat) :=
  s.cores.flatMap fun e => if e.2.cfg.asid == asid then (e.2.commits.filter fun r => e.2.heldXl r.num).map fun r => (e.1, r.num) else []

/-- A write of TLBINV_CTL on a die: its fields are set, and GO starts an invalidation; while BUSY it is discarded. -/
def State.tlbCtl (s : State) (die : Nat) (v : DWord) : State :=
  let d := s.die die
  if d.tlbinv.busy then s
  else
    let t := { d.tlbinv with asid := field v.toNat 32 16, npg := field v.toNat 0 28 }
    if !v.getLsbD 63 then s.setDie die { d with tlbinv := t }
    else
      let s := s.setDie die { d with tlbinv := { t with busy := true, done := false, after := s.xlCommits t.asid } }
      let s := [0, 1, 2, 3].foldl (fun s k => s.setDie k ((s.die k).invalidate t)) s
      let s := s.cores.keyList.foldl (fun s ci => s.modCore ci fun c => { c with l1tlb := t.keep c.l1tlb }) s
      s.invalidateGroups t

def execTlbinvGo (die : Nat) (value : DWord) (s : State) : Out := .next (s.tlbCtl die value)

/-- A Courier command holds a translation in the range: of its bytes while it runs, of a peer's window from issue. -/
def CopyCmd.holdsXl (k : CopyCmd) (t : TlbInv) : Bool :=
  k.asid == t.asid && (k.remote.isSome || (k.running &&
    (k.ranges.any fun r => t.npg == 0 || (List.range k.size).any fun j => t.covers k.asid (k.memAt r.1 j) 1)))

/-- TLBINV_DONE: nothing that holds a translation of the range runs any more (R99, steps 4 and 5). -/
def execTlbinvDone (die : Nat) (s : State) : Out :=
  let d := s.die die
  let t := d.tlbinv
  let copies := s.cores.any fun e => e.2.courier.any fun k => k.holdsXl t
  let remote := s.dies.any fun e => e.2.ingress.any fun r => r.place.isSome && t.covers r.pkt.tasid (r.pkt.tva + r.done) 1
  let commits := t.after.any fun x => (s.core x.1).heldXl x.2
  if !t.busy || copies || remote || commits then .next s
  else .next (s.setDie die { d with tlbinv := { t with busy := false, done := true, after := [] } })

/-! ## Other writes -/

/-- POISON_CLR: the pool line reads zero, and neither poison nor an error is left (R397, R400). -/
def State.poisonClear (s : State) (v : DWord) : State :=
  let pa := 0x2000000000000 + field v.toNat 7 39 * 128
  let ln := lineOf pa
  let s := (s.agentWrite pa (List.replicate 128 0))
  { s with poisoned := s.poisoned.filter (· != ln), memErr := s.memErr.filter (· != ln),
           stale := s.stale.filter fun x => x.1 != ln }

/-- POOL_REGION: CLEAR takes the lost mark from a region once the link of its die has trained again (R396). -/
def State.poolRegionWrite (s : State) (v : DWord) : State :=
  let r := field v.toNat 0 16
  if v.getLsbD 31 && s.dev.onolo.getLsbD (r % 4) then s.setDev { s.dev with lost := s.dev.lost.filter (· != r) } else s

/-- MCGRP_REVOKE: MEMBER of the entry is cleared (R319). -/
def State.revoke (s : State) (v : DWord) : State :=
  let n := field v.toNat 0 12
  s.mcWrite n 0 (setField (s.rd64 (s.mcAt n 0)).toNat 61 1 0)

/-- The bits of FLTH (R400). -/
def flthMask : Word := 0xCFFF0FFF

/-- A write of a register by a core; read-only registers and fields ignore it. -/
def State.sysWrite (s : State) (ci code : Nat) (v : DWord) : State :=
  let d := dieOf ci
  if code = srTlbVa then
    let x := s.die d
    if x.tlbinv.busy then s else s.setDie d { x with tlbinv := { x.tlbinv with va := field v.toNat 12 44 * 4096 } }
  else if code = srTlbCtl then s.tlbCtl d v
  else if code = srRevoke then s.revoke v
  else if code = srFlth then
    match s.coreRegion? ci with
    | some r => s.setRegion { r with flth := loWord v &&& flthMask }
    | none => s
  else if code = srPoison then s.poisonClear v
  else if code = srPoolRegion then s.poolRegionWrite v
  else s

def execMcgrpRevoke (value : DWord) (s : State) : Out := .next (s.revoke value)
def execPoisonClr (value : DWord) (s : State) : Out := .next (if s.dev.stage = .recovery then s else s.poisonClear value)
def execPoolRegionClear (value : DWord) (s : State) : Out := .next (if s.dev.stage = .recovery then s else s.poolRegionWrite value)

/-- REGISTER_WRITE. `off` is an offset of the 16 MiB device register window for a write of 64 bits by the host; or, beyond the
window, 0x1000000 × (core + 1) + system code for a write by that core (R402, R436). -/
def execRegisterWrite (off : Nat) (value : DWord) (s : State) : Out :=
  if 0x1000000 ≤ off then .next (s.sysWrite (off / 0x1000000 - 1) (off % 0x1000000) value)
  else .next (s.windowStore ((List.range 8).map fun i => (off / 8 * 8 + i, BitVec.ofNat 8 (value.toNat / 2 ^ (8 * i)))))

end Sys2Proof.Machine
end

