-- ==== Sys2Proof/Machine/System.lean ====
section
/-! DEFINITION. The system words (R387, R388, R401 to R403) and the trap of a word that R68 rejects. -/

namespace Sys2Proof.Machine

/-- The operands an F6 word reads, for the GTC latch. -/
def f6Ctx (f : F6) (s : State) (c : Core) (g : Group) : Ctx × LaneMask :=
  let act := g.active f.g
  ((⟨s, c, g⟩ : Ctx).latch act [f.a, f.b], act)

/-! ## Traps -/

/-- R68, last row: the word lacks only an attribute of its block, PRIV or GANG. -/
def lacksAttr (hdr : List DWord) (word : DWord) : Bool :=
  let fs := Fields.ofNat word.toNat
  (fs.needsPriv && !hdrPriv hdr) || (fs.needsGang && !hdrGang hdr)

/-- R68: a word that does not decode takes ILLEGAL; one that lacks only an attribute of its block takes PRIVILEGE. Of any other word
there is no such trap, and nothing happens. -/
def execIllegalEncoding (word : DWord) (s : State) : Out :=
  withIssuer s fun c g =>
    match decode (hdrRegd (c.slotHdr g)) word with
    | .ok _ => if lacksAttr (c.slotHdr g) word then s.faultWord g { cls := .privilege } else s
    | .error _ => s.faultWord g { cls := .illegal }

def execTrap (f : F6) (s : State) : Out :=
  withIssuer s fun c g =>
    let (x, act) := f6Ctx f s c g
    match leader? act with
    | none => s.finish x.g
    | some l => s.faultWord g { cls := .trap, lanes := act, addr := (x.rd f.a l).toNat, detail := f.code.toNat }

/-- BKEN of the region (R400). -/
def State.bken (s : State) (ci : Nat) : Bool :=
  match s.coreRegion? ci with
  | some r => r.flth.getLsbD 30
  | none => false

def execBkpt (f : F6) (s : State) : Out :=
  withIssuer s fun _ g =>
    let act := g.active f.g
    if act = 0 ∨ !s.bken s.cur.1 then s.finish g
    else s.faultWord g { cls := .breakpoint, lanes := act, detail := f.code.toNat }

/-! ## Verdicts (R387, R388) -/

/-- The status of a verdict on a FID by a group. -/
def verdictStatus (c : Core) (gi fid : Nat) (past : Bool) : Nat :=
  match c.park.find? fun p => p.fid == fid with
  | none => 1
  | some p =>
    if c.region != some p.region then 1
    else if p.claim.isSome && p.claim != some gi then 2
    else if past && p.cls != Cls.trap.code && p.cls != Cls.breakpoint.code then 3
    else 0

/-- Claim a parked fault for the issuing group and note the verdict for step 3 of commit; D receives the status. -/
def verdictWord (s : State) (f : F6) (past : Bool) (verdict : Nat → Deferred) : Out :=
  withIssuer s fun c g =>
    let (x, act) := f6Ctx f s c g
    match leader? act with
    | none => s.finish x.g
    | some l =>
      let fid := (x.rd f.a l).toNat
      let st := verdictStatus c s.cur.2 fid past
      let g := x.g.setLanes f.d 1 ((maskLanes act).map fun l => (l, st))
      if st = 0 then
        let claim (p : ParkEnt) : ParkEnt := if p.fid = fid then { p with claim := some s.cur.2 } else p
        (s.modCore s.cur.1 fun c => { c with park := c.park.map claim }).finish { g with deferred := g.deferred ++ [verdict fid] }
      else s.finish g

def execResume (f : F6) (s : State) : Out := verdictWord s f false fun fid => .resume fid false
def execResumePast (f : F6) (s : State) : Out := verdictWord s f true fun fid => .resume fid true
def execAbort (f : F6) (s : State) : Out := verdictWord s f false fun fid => .abort fid

def execAbortRegion (f : F6) (s : State) : Out :=
  withIssuer s fun _ g =>
    s.finish (if g.active f.g = 0 then g else { g with deferred := g.deferred ++ [.abortRegion] })

/-! ## Registers and records (R402) -/

def execSrrd (f : F6) (s : State) : Out :=
  withIssuer s fun c g =>
    if srNeedsPriv f.code.toNat && !c.priv g then s.faultWord g { cls := .privilege }
    else
      let v := (s.sysRead s.cur.1 f.code.toNat).toNat
      let n := if f.fn = 0 then 1 else 2
      s.finish (g.setLanes f.d n ((maskLanes (g.active f.g)).map fun l => (l, v)))

def execSrwr (f : F6) (s : State) : Out :=
  withIssuer s fun c g =>
    if srNeedsPriv f.code.toNat && !c.priv g then s.faultWord g { cls := .privilege }
    else
      let (x, act) := f6Ctx f s c g
      match leader? act with
      | none => s.finish x.g
      | some l =>
        let v := if f.fn = 0 then (x.rd f.a l).zeroExtend 64 else x.rd64 f.a l
        s.finish { x.g with deferred := x.g.deferred ++ [.sysWrite f.code v] }

def execFltrdWord (f : F6) (s : State) : Out :=
  withIssuer s fun c g =>
    let (x, act) := f6Ctx f s c g
    match leader? act with
    | none => s.finish x.g
    | some l =>
      let v := match c.park.find? fun p => p.fid == (x.rd f.a l).toNat with
        | some p => ((p.record[f.code.toNat]?).getD 0).toNat
        | none => 0
      s.finish (x.g.setLanes f.d 2 ((maskLanes act).map fun l => (l, v)))

def execFltrdNext (f : F6) (s : State) : Out :=
  withIssuer s fun c g =>
    let v := match c.park.find? fun p => p.claim.isNone && c.region == some p.region with
      | some p => p.fid
      | none => 0xFFFFFFFF
    s.finish (g.setLanes f.d 1 ((maskLanes (g.active f.g)).map fun l => (l, v)))

/-! ## Requests to the steward and the Clolas engine (R402, R403) -/

/-- The tokens that exit D owes to every instance, at sys. -/
def f6Dues (c : Core) (g : Group) (f : F6) : List TokenDue :=
  match exitOf f.d with
  | some e => g.firedInsts.map fun i => dueOf c g e i .sys
  | none => []

/-- A privileged word that queues a request when a lane is active. -/
def requestWord (s : State) (f : F6) (mk : Ctx → Nat → List TokenDue → SendItem) : Out :=
  withIssuer s fun c g =>
    privileged s c g
      (let r := f6Ctx f s c g
      match leader? r.2 with
      | none => s.finish r.1.g
      | some l => s.finish (r.1.g.queue (mk r.1 l (f6Dues c g f))))

def execHalt (f : F6) (s : State) : Out := requestWord s f fun _ _ _ => .halt
def execSigchk (f : F6) (s : State) : Out :=
  requestWord s f fun x l due =>
    .sigchk due f.code.toNat (x.rd64 f.a l).toNat (x.rd64 f.b l).toNat (x.count3 f.c l)
def execKeyset (f : F6) (s : State) : Out := requestWord s f fun x l due => .keyset due f.code.toNat (x.rd64 f.a l).toNat
def execPreemptSave (f : F6) (s : State) : Out :=
  requestWord s f fun x l due => .preempt due false (x.rd f.a l).toNat (x.rd64 f.b l).toNat
def execPreemptRestore (f : F6) (s : State) : Out :=
  requestWord s f fun x l due => .preempt due true (x.rd f.a l).toNat (x.rd64 f.b l).toNat

end Sys2Proof.Machine
end

