-- ==== Sys2Proof/Machine/EvGroup.lean ====
section
/-! DEFINITION. Commit (R30, R33, R101, R112), the release of tokens and requests (R281), the freeing of colours (R374), barriers
(R292), long-latency completion (R57), renewals (R111), issue fairness (R356), clock gating (R358), and block fetch (R376). -/

namespace Sys2Proof.Machine

/-! ## Freeing colours (R374, R292, R25) -/

/-- The children of colours, recursively. -/
def Region.familyN (r : Region) : Nat → List Nat → List Nat
  | 0, ids => ids
  | n + 1, ids =>
    let more := (r.colours.filter fun e => e.2.live && !ids.contains e.1 &&
      (match e.2.parent with | some p => ids.contains p | none => false)).map Prod.fst
    if more.isEmpty then ids else Region.familyN r n (ids ++ more)
def Region.family (r : Region) (ids : List Nat) : List Nat := r.familyN 4096 ids

/-- A barrier reference of a held token belongs to one of the colours on a core. -/
def Core.barOf (c : Core) (ids : List Nat) (b : Bool × Nat × Nat × Nat) : Bool :=
  if b.1 then ids.contains b.2.1 else (match (c.team b.2.1).colour with | some k => ids.contains k | none => false)

/-- The token of an outbox item. -/
def SendItem.token? : SendItem → Option Token
  | .token t => some t
  | .frameTok t _ => some t
  | _ => none

/-- An outbox item that leaves as a token. -/
def SendItem.isToken (it : SendItem) : Bool := it.token?.isSome

/-- The instances, held tokens and barrier channels of dead colours go from one core; a token held by a barrier, or for a record on its way,
leaves a dead letter. -/
def State.dropColour (s : State) (ci : Nat) (ids : List Nat) : State :=
  let c := s.core ci
  let dead := (c.outbox.filter fun o => o.bars.any fun b => c.barOf ids b).filterMap fun o => o.item.token?.map (s.ownToken ci)
  let held := c.spillHeld.filter fun t => ids.contains t.tok.colour.toNat
  let spilled := c.spilled.filter fun r => !ids.contains r.entry.colour
  let kept (e : Nat × Entry) : Bool :=
    !ids.contains e.2.colour || (match e.2.phase with
      | .incomplete | .complete => false
      | .inGroup _ | .parked _ => true)
  let arrives (a : Arrival) : Bool := !c.barOf ids (a.clus, a.owner, a.chan, 0)
  let used (k : Nat) : Bool := c.groups.any fun e => e.2.colour == k
  let teams := c.teams.map fun t =>
    match t.2.colour with
    | some k => if ids.contains k then (t.1, if used k then { t.2 with chans := [] } else Team.unbound) else t
    | none => t
  let c := { c with
    entries := c.entries.filter kept
    spilled := spilled
    spillHeld := c.spillHeld.filter fun t => !ids.contains t.tok.colour.toNat
    filter := c.filter.filter fun h => spilled.any fun r => filterIx c r.entry == h
    outbox := c.outbox.filter fun o => !o.bars.any fun b => c.barOf ids b
    barArrivals := c.barArrivals.filter arrives
    clusBars := c.clusBars.filter fun e => !ids.contains (e.1 / 4)
    teams := teams.filter fun t => t.2 != Team.unbound }
  (dead ++ held).foldl (fun s t => s.refuse ci t dlColourDead) (s.setCore ci c)

/-- Colours and their children die in the grid. -/
def State.freeColours (s : State) (num : Nat) (ids : List Nat) : State :=
  match s.region? num with
  | none => s
  | some r =>
    let ids := r.family (ids.filter fun k => k != 0 && (r.colour k).live)
    let off := ids.foldl (fun m k => m.put { live := false, wlog := 0, parent := none } k { live := false, wlog := 0, parent := none }) r.colours
    let s := s.setRegion { r with colours := off }
    r.cores.foldl (fun s ci => s.dropColour ci ids) s

/-! ## Changes at step 3 (R33) -/

/-- LDBLK at commit: the victim is unbound, and the slot waits for its record (R376). -/
def State.bindSlot (s : State) (ci slot bid : Nat) : State :=
  s.modCore ci fun c =>
    let pa := s.blockRec c bid
    let hdr := s.recHdr pa
    match freeRun? (c.storeRuns slot) (4 + hdrLen hdr) with
    | none => c.setSlot slot BlockSlot.unbound
    | some at_ =>
      let info := (s.coreRegion? ci).bind fun r => r.blocks.find? fun b => b.bid == bid
      let (count, hs) := match info with
        | some b => (b.place, b.hs)
        | none => (1, 0)
      c.setSlot slot { bid := bid, timer := hdrTimer hdr, prio := hdrPrio hdr, pfirst := 0, pcount := count, hs := hs, eosx := 0,
                       recPA := pa, resident := false, closing := false, storeAt := at_, lastColl := 0, hdr := hdr, body := [] }

/-- A change of the block at step 3. -/
def State.applyDeferred (s : State) (ci : Nat) (g : Group) (d : Deferred) : State :=
  let onSlot (slot : Nat) (f : BlockSlot → BlockSlot) : State :=
    s.modCore ci fun c => if slot ≤ 127 ∧ (c.slot slot).bid ≠ 0xFFF then c.setSlot slot (f (c.slot slot)) else c
  match d with
  | .colAlloc id wlog parent =>
    match s.coreRegion? ci with
    | some r => s.setRegion { r with colours := r.colours.ins id { live := true, wlog := wlog, parent := parent } }
    | none => s
  | .colFree _ => s
  | .gang count => s.modCore ci fun c => c.setTeam g.team { c.team g.team with gcount := count }
  | .tswap table => s.modCore ci fun c => { c with tcur := c.tcur.put 0 table (1 - c.tcur.atD table 0) }
  | .timer slot v => onSlot slot fun b => { b with timer := v }
  | .prio slot v => onSlot slot fun b => { b with prio := v }
  | .ldblk slot bid => s.bindSlot ci slot bid
  | .sysWrite code v => s.sysWrite ci code.toNat v
  | .resume fid past => s.resumeParked ci fid past
  | .abort fid => s.abortParked ci fid
  | .abortRegion => s

/-! ## Step 1 and the checks before step 3 -/

/-- The group passed its last word or executed EXIT. -/
def Group.atEnd (c : Core) (g : Group) : Bool :=
  g.commit.isNone && (g.status == .committing || decide ((c.bodyOf g).length ≤ g.pc)) && !g.ops.any fun o => o.dead

/-- Steps 1 and 2: flags and operations clear, TLOADs of swapped tables done (R217), speculative uses confirmed. -/
def Core.mayCommit (c : Core) (g : Group) : Bool :=
  g.flags.all (fun f => f.2 == 0) && g.ops.isEmpty && g.validation.all (fun v => v.confirmed) &&
    !g.deferred.any fun d => match d with
      | .tswap t => c.tloads.any fun x => x.table == t
      | _ => false

/-- R101 before step 3: a store-buffer line in a lost region, as the fault that it raises. -/
def State.lostAtCommit (s : State) (g : Group) : Option Flt :=
  let lost := g.sbuf.filter fun b => !b.uncached && s.lostPA (b.line * 128)
  let marks := lost.flatMap fun b => b.marks
  (minBy? (fun m => m.1) marks).map fun m =>
    let mine := marks.filter fun n => n.1 == m.1
    { cls := .poolRegion, lanes := mine.foldl (fun x n => x ||| n.2.1) 0,
      addr := ((minBy? (fun n => n.2.2) mine).map fun n => n.2.2).getD 0 }

/-! ## Step 3 to step 5 -/

/-- A release of the commit at dom or wider, by a word or a token (R311). -/
def Group.domRel (g : Group) : Bool :=
  let wide (sc : Scope) : Bool := 5 ≤ scopeRank sc
  g.fences.any wide || g.sendq.any fun it => match it with
    | .token t => wide t.rscope
    | .frameTok t _ => wide t.rscope
    | .atomRet _ t _ => wide t.rscope
    | .remote _ _ _ _ rel parts => rel.any wide || parts.any fun p => p.1.any fun d => wide d.rscope
    | .lateTok t _ => wide t.rscope
    | .mcst rel due _ => rel.any wide || due.any fun d => wide d.rscope
    | .spw _ rel _ => rel.any wide
    | .copy k => k.rel.any wide || k.due.any fun d => wide d.rscope
    | .sigchk due _ _ _ _ | .keyset due _ _ | .preempt due _ _ _ => !due.isEmpty
    | _ => false

/-- The fence epochs of a line's first and last effects, over its parts of both classes (R272, R280). -/
def Group.epochs (g : Group) (ln : Nat) : Nat × Nat :=
  let ps := g.sbuf.filter fun b => b.line == ln
  (((ps.map fun b => b.lo).min?).getD 0, ((ps.map fun b => b.hi).max?).getD 0)

/-- The record of a commit as step 3 begins. -/
def commitRec (c : Core) (gi num : Nat) (g : Group) : CommitRec :=
  let cached := g.sbuf.filter fun b => !b.uncached
  { num := num, grp := gi, lines := cached.map fun b => (b.line, g.epochs b.line), deposits := g.deposits.map fun d => d.epoch,
    flushes := g.sendq.filterMap fun it => match it with
      | .flush _ _ e => some e
      | _ => none,
    remote := [], before := (c.commits.filter fun r => !r.lines.isEmpty || !r.uncached.isEmpty).map fun r => r.num, fences := g.fences,
    uncached := (g.sbuf.filter fun b => b.uncached).map fun b => (bareNum b.line, g.epochs b.line),
    entered := decide (c.pendFilter.length + g.sbuf.length ≤ 256), domRel := g.domRel,
    word2 := word2Base g.bid g.colour g.bslot gi }

/-- Step 3: lines and deposits pass, L1 copies go (R112), locks go with the undo images, and changes are made. -/
def State.commitPass (s : State) (ci gi num : Nat) (g : Group) : State :=
  let c := s.core ci
  let r := commitRec c gi num g
  let room := 256 - c.pendFilter.length
  let c := { c with
    nextNum := num + 1
    commits := c.commits ++ [r]
    pendFilter := c.pendFilter ++ (g.sbuf.take room).map fun (b : SbLine) => (b.line, num)
    l1 := c.l1.filter fun l => !g.sbuf.any fun b => b.line == l.line }
  let c := c.setGroup gi { g with undo := [], tileUndo := [], sbuf := [], deposits := [] }
  let s := s.setCore ci c
  let s := { s with transit := s.transit ++ g.sbuf.map fun (b : SbLine) => (ci, SliceReq.update num ci b) }
  let s := g.deposits.foldl (fun s d =>
    s.modCore d.tile fun t => { t with deposits := t.deposits ++ [{ d with tile := ci, commit := num }] }) s
  g.deferred.foldl (fun s d => s.applyDeferred ci g d) s

/-- Step 4: entries and frames are freed; frames that SENDF hands on stay under their entry's number. -/
def State.commitFree (s : State) (ci : Nat) (g : Group) : State :=
  s.modCore ci fun c =>
    let onward := g.sendq.filterMap fun it => match it with
      | .frameTok _ e => (c.entries.at? e).map fun x => (e, x.frame, x.lines)
      | _ => none
    { c.freeEntries g.insts with handed := c.handed ++ onward }

/-- The barriers that hold the tokens of the commit (R292). -/
def Group.barRefs (g : Group) : List (Bool × Nat × Nat × Nat) :=
  g.bars.map fun b => (b.1, if b.1 then g.colour else g.team, b.2.1, 0)

/-- Step 5 for one descriptor: it joins the outbox; an ATOM's return list begins, and one with no lane sends its token. -/
def Core.sendItem (c : Core) (gi num : Nat) (g : Group) (ops : List AtomOp) (it : SendItem) : Core :=
  let wide := g.bars.foldl (fun sc b => scopeMax sc (if b.1 then .clus else .team)) .grp
  let out (sc : Scope) (bars : List (Bool × Nat × Nat × Nat)) (it : SendItem) : Core :=
    { c with outbox := c.outbox ++ [{ commit := num, grp := gi, asid := c.cfg.asid, scope := sc, bars := bars, after := [],
                                      sent := it.isToken, item := it }] }
  match it with
  | .token t => out (scopeMax t.rscope wide) g.barRefs it
  | .frameTok t _ => out (scopeMax t.rscope wide) g.barRefs it
  | .atomRet id d words =>
    let n := (ops.filter fun o => match o.ret with
      | some r => r.1 == id
      | none => false).length
    if n = 0 then c.postDue num gi d (AtomRet.payload { commit := num, ret := id, due := d, words := words, vals := [], need := 0, dead := false })
    else { c with atomRets := c.atomRets ++ [{ commit := num, ret := id, due := d, words := words, vals := [], need := n, dead := false }] }
  | .copy k => out .grp [] (.copy { k with commit := num })
  | .lateTok d p => c.postDue num gi d p
  | it => out .grp [] it

/-- Instances of a collection (R292). -/
def Group.instCount (g : Group) : Nat := popcount g.emFire.toNat 32 / g.width

/-- Step 5: descriptors in program order, barrier arrivals, and colours to free. -/
def State.commitSend (s : State) (ci gi num : Nat) (g : Group) : State :=
  let ops := g.sbuf.flatMap fun b => b.ops
  let s := if g.domRel then s.drainIf ci fun _ => true else s
  s.modCore ci fun c =>
    let c := g.sendq.foldl (fun c it => c.sendItem gi num g ops it) c
    let arrivals := g.bars.map fun b =>
      ({ clus := b.1, owner := if b.1 then g.colour else g.team, chan := b.2.1, insts := g.instCount, need := b.2.2, commit := num } : Arrival)
    let frees := g.deferred.filterMap fun d => match d with
      | .colFree ids => some (SendItem.colFree ids)
      | _ => none
    let c := { c with barArrivals := c.barArrivals ++ arrivals }
    frees.foldl (fun c it => c.post num gi .grp it) c

/-- A committed group leaves its slot once its deferred copies have entered the Courier queue and its span words are pushed (R129, R315). -/
def State.releaseSlots (s : State) (ci : Nat) : State :=
  let c := s.core ci
  let stays (num : Nat) : Bool :=
    (c.outbox.any fun o => o.commit == num && match o.item with
      | .copy _ => true
      | .spw _ _ _ => true
      | _ => false)
  let gone := c.groups.filter fun e => match e.2.commit with
    | some n => !stays n
    | none => false
  gone.foldl (fun s e => s.leaveSlot ci e.1) s

/-- Commits with nothing left to wait for are forgotten. -/
def State.sweepCommits (s : State) (ci : Nat) : State :=
  s.modCore ci fun c =>
    let used (n : Nat) : Bool := (c.outbox.any fun o => o.commit == n) || (c.courier.any fun k => k.commit == n) ||
      (c.atomRets.any fun a => a.commit == n) || c.barArrivals.any fun a => a.commit == n
    { c with commits := c.commits.filter fun r => !r.done || used r.num }

/-- Steps 3 to 5 as one: a commit cannot be aborted after step 3 begins (R30). -/
def State.commitGroup (s : State) (ci gi : Nat) (g : Group) : State :=
  let num := (s.core ci).nextNum
  let s := ((s.commitPass ci gi num g).commitFree ci g).commitSend ci gi num g
  let left := { g with status := .committing, insts := [], undo := [], tileUndo := [], sbuf := [], deposits := [], sendq := [],
                       deferred := [], bars := [], footprint := [], l1used := [], validation := [], commit := some num }
  let s := s.modCore ci fun c => c.setGroup gi left
  let s := (s.serveAll ci).releaseSlots ci
  let s := match (if g.deferred.contains .abortRegion then (s.core ci).region else none) with
    | some num => s.beginEnd num .aborted
    | none => s
  s.sweepCommits ci

/-- BLOCK_COMMIT: the group commits once nothing of steps 1 and 2 waits; a lost pool line faults it (R101). -/
def execBlockCommit (core grp : Nat) (s : State) : Out :=
  match (s.core core).group? grp with
  | none => .next s
  | some g =>
    if !g.atEnd (s.core core) then .next s
    else if !(s.core core).mayCommit g then .next (s.setGroup core grp { g with status := .committing })
    else
      match s.lostAtCommit g with
      | some f =>
        let word := ((minBy? (fun m => m.1) ((g.sbuf.filter fun b => !b.uncached && s.lostPA (b.line * 128)).flatMap
          fun b => b.marks)).map fun m => m.1).getD 0
        .next (s.takeFault core grp word f)
      | none => .next (s.commitGroup core grp g)

/-! ## Tokens and requests leave (R14, R281, R300) -/

/-- R14: an earlier token of the group slot's send words to the same core of this die has not left, whatever holds it. ATOM return tokens,
the tokens of deferred copies and of requests are no tokens of a send word: they neither wait nor keep others waiting (R292, R38). -/
def State.tokenBehind (s : State) (r : Region) (ci idx : Nat) (o : OutItem) (dst : Nat) : Bool :=
  o.sent && dieOf ci == dieOf dst &&
    ((s.core ci).outbox.take idx).any fun p => p.sent && p.grp == o.grp && match p.item with
      | .frameTok _ _ => ci == dst
      | .token t => s.tokenCore r ci t == dst
      | _ => false

/-- A request of the same commit stands before the item (R300). -/
def Core.requestBehind (c : Core) (idx : Nat) (o : OutItem) : Bool :=
  (c.outbox.take idx).any fun p => p.commit == o.commit && !p.item.isToken && match p.item with
    | .flush _ _ _ => false
    | _ => true

/-- The item leaves the outbox. -/
def State.takeOut (s : State) (ci idx : Nat) : State := s.modCore ci fun c => { c with outbox := c.outbox.eraseIdx idx }

/-- A release word's commit is visible at its scope; at dom and wider, the puts that left before it are performed too (R278, R300). -/
def Core.relOpen (c : Core) (o : OutItem) (rel : Option Scope) : Bool :=
  match rel with
  | none => true
  | some sc => c.visible o.commit sc && (scopeRank sc < 5 || !c.courier.any fun k => k.commit == o.commit && k.form == .rput)

/-- A tile word of CFGW (R377) names a tile that is not withheld. -/
def State.tileOfWord (s : State) (w : Nat) : Option Nat :=
  let ci := tileAt (field w 8 2) (field w 4 4) (field w 0 4)
  if w < 1024 ∧ field w 4 4 < 12 ∧ !s.dev.withheld.contains ci then some ci else none

/-- One command reaches a tile's receiver, or the steward log (R377). -/
def State.sendCmd (s : State) (w : Nat) (v : Word) : State :=
  match s.tileOfWord w with
  | none => s.stewardLog 377
  | some ci => s.modCore ci fun c => { c with stream := { c.stream with cmds := c.stream.cmds ++ [v] } }

/-- R392: QUENCH reaches a core: it collects no more, and its rendezvous latch fails. -/
def State.quenchCore (s : State) (ci : Nat) : State :=
  s.modCore ci fun c => if c.quenched.isNone then { c.failLatch with quenched := some (s.gtcAt (dieOf ci)) } else c

/-- QUENCH reaches every core of a region. -/
def State.quenchRegion (s : State) (num : Nat) : State :=
  match s.region? num with
  | none => s
  | some r => r.cores.foldl State.quenchCore s

/-- CFLUSH lines that may go: the commit's own lines of the set that precede the flush are performed (R127). -/
def flushReady (r? : Option CommitRec) (epoch : Nat) (ln : Nat) : Bool :=
  match r? with
  | none => true
  | some r => r.lines.all fun y => y.1 != ln || decide (epoch < y.2.2)

/-- The pool and host lines of the commit itself that are not performed yet, with others: a flush of the die sees them too (R127). -/
def State.ownAnd (s : State) (ci : Nat) (o : OutItem) (lines : List Nat) : List Nat :=
  let mine := match (s.core ci).commit? o.commit with
    | some r => (r.lines.map fun y => y.1).filter fun ln => lineZone ln == .pool || lineZone ln == .host
    | none => []
  dedup (lines ++ mine)

/-- A CFLUSH goes on with the lines that it has left; done, its commit counts it. -/
def State.runFlush (s : State) (ci idx : Nat) (o : OutItem) (lines : List Nat) (epoch : Nat) : State :=
  let r? := (s.core ci).commit? o.commit
  let (s, left) := lines.foldl (fun (acc : State × List Nat) ln =>
    if flushReady r? epoch ln then
      match acc.1.flushLine ci ln with
      | some s => (s, acc.2)
      | none => (acc.1, acc.2 ++ [ln])
    else (acc.1, acc.2 ++ [ln])) (s, [])
  if left.isEmpty then
    (s.takeOut ci idx).modCore ci fun c => c.setCommit o.commit fun r => { r with flushes := r.flushes.erase epoch }
  else
    s.modCore ci fun c => { c with outbox := c.outbox.set idx { o with item := .flush left false epoch } }

/-- A remote word leaves for the fabric, with the drains of R311. -/
def State.runRemote (s : State) (ci idx : Nat) (o : OutItem) (k : RemKind) (fn : BitVec 4) (size word : Nat)
    (rel : Option Scope) (parts : List (Option TokenDue × List RemLane)) : State :=
  let wide := match (s.core ci).commit? o.commit with
    | some r => r.domRel
    | none => false
  let s := (s.takeOut ci idx).leaveRemote ci o k fn size word rel parts
  if wide then s.drainIf ci fun _ => true else s

/-- SPW pushes the words that find credit; the item stays with the rest, and step 5 of its commit waits for them (R315). -/
def State.runSpw (s : State) (ci idx : Nat) (o : OutItem) (span : Nat) (rel : Option Scope) (words : List Word) : State :=
  match s.coreSpan ci span with
  | none => s.takeOut ci idx
  | some (i, x) =>
    let n := if x.broken then words.length else if x.waiting.isEmpty then min words.length (x.credits / 4) else 0
    let s := s.setSpan i (x.push (words.take n))
    if n = words.length then s.takeOut ci idx
    else s.modCore ci fun c => { c with outbox := c.outbox.set idx { o with item := .spw span rel (words.drop n) } }

/-- A request, in program order within its commit (R300). A copy that pushes on a span waits for the pushes of earlier commits on it (R314). -/
def State.runRequest (s : State) (ci idx : Nat) (o : OutItem) : State :=
  let c := s.core ci
  match o.item with
  | .copy k =>
    let sameGroup := (c.outbox.take idx).any fun p => p.grp == o.grp && match p.item with
      | .copy _ => true
      | _ => false
    let behind := k.form.pushesSpan && (c.outbox.take idx).any fun p => p.item.pushes k.span
    if sameGroup || behind || !c.relOpen o (if k.form == .rput || k.form == .mcput then k.rel else none) || 32 ≤ c.courier.length then s
    else
      (s.takeOut ci idx).modCore ci fun c =>
        { c with nextNum := c.nextNum + 1, courier := c.courier ++ [{ k with num := c.nextNum, commit := o.commit }] }
  | .remote k fn size word rel parts => if c.relOpen o rel then s.runRemote ci idx o k fn size word rel parts else s
  | .mcst rel due msg => if c.relOpen o rel then (s.takeOut ci idx).leaveMessage ci o due msg else s
  | .spw span rel words =>
    let earlier := ((c.outbox.take idx).any fun p => p.item.pushes span) || (c.spanCopies span).any fun k => k.commit ≤ o.commit
    if earlier || !c.relOpen o rel then s else s.runSpw ci idx o span rel words
  | .cfgw cmds =>
    let earlier := (c.outbox.take idx).any fun p => match p.item with
      | .cfgw _ => true
      | _ => false
    if earlier then s else cmds.foldl (fun s e => s.sendCmd e.1 e.2) (s.takeOut ci idx)
  | .halt =>
    match (s.core ci).region with
    | none => s.takeOut ci idx
    | some num =>
      let bid := match c.commit? o.commit with
        | some r => r.word2 / 2 ^ 32 % 4096
        | none => 0
      let s := (s.takeOut ci idx).quenchRegion num
      match s.region? num with
      | some r => if r.ending.isNone then s.setRegion { r with ending := some (.halted bid) } else s
      | none => s
  | .sigchk due key data sig len =>
    let s := s.takeOut ci idx
    s.setDev { s.dev with clolas := s.dev.clolas ++ [.sigchk ci o.commit o.asid due key data sig len] }
  | .keyset due slot keyRec =>
    let s := s.takeOut ci idx
    s.setDev { s.dev with clolas := s.dev.clolas ++ [.keyset ci o.commit o.asid due slot keyRec] }
  | .preempt due restore a pa =>
    let s := s.takeOut ci idx
    let j : PreemptJob := { core := ci, commit := o.commit, asid := o.asid, due := due, restore := restore, arg := a, pa := pa, started := false }
    s.setDev { s.dev with preempts := s.dev.preempts ++ [j] }
  | .colFree ids =>
    let waits := (c.outbox.take idx).any fun p => p.commit == o.commit && p.bars.isEmpty
    if waits then s
    else
      match c.region with
      | some num => (s.takeOut ci idx).freeColours num ids
      | none => s.takeOut ci idx
  | .token _ | .frameTok _ _ | .atomRet _ _ _ | .copyTok _ _ | .lateTok _ _ | .flush _ _ _ => s

/-- Span words of the commit wait for credit before the token of one of its send words (R315). -/
def Core.spanBehind (c : Core) (idx : Nat) (o : OutItem) : Bool :=
  o.sent && (c.outbox.take idx).any fun p => p.commit == o.commit && match p.item with
    | .spw _ _ _ => true
    | _ => false

/-- A token leaves when its barriers are open, its commit and those that arrived with it are visible at its scope widened to the consumer,
and earlier tokens to that core have left (R14, R281, R292). -/
def State.runToken (s : State) (ci idx : Nat) (o : OutItem) (t : Token) (frame : Option Nat) : State :=
  match s.coreRegion? ci with
  | none => s
  | some r =>
    let dst := if frame.isSome then ci else s.tokenCore r ci t
    let sc := scopeMax o.scope (s.scopeTo ci dst)
    let seen := (s.core ci).tokenVisible o.commit sc && o.after.all fun a => (s.core a.1).tokenVisible a.2 sc
    if !o.bars.isEmpty || !seen || (s.core ci).spanBehind idx o || s.tokenBehind r ci idx o dst then s
    else (s.takeOut ci idx).deliver ci (some o.grp) t frame

/-- DELAYED_TOKEN_RELEASE: an item of a core's outbox leaves when nothing holds it. -/
def execDelayedTokenRelease (core idx : Nat) (s : State) : Out :=
  match (s.core core).outbox[idx]? with
  | none => .next s
  | some o =>
    let s := match o.item with
      | .token t => s.runToken core idx o t none
      | .frameTok t e => s.runToken core idx o t (some e)
      | .flush lines die epoch =>
        s.runFlush core idx o (if die then s.ownAnd core o (s.dieLines (dieOf core)) else lines) epoch
      | _ => if (s.core core).requestBehind idx o then s else s.runRequest core idx o
    .next ((s.releaseSlots core).sweepCommits core)

/-! ## Barriers (R292) -/

/-- The core that keeps a colour's cluster counters. -/
def clusKeeper (c : Core) (ci : Nat) : Nat := clusTile c ci 0

/-- The cores of a core's cluster. -/
def clusCores (c : Core) (ci : Nat) : List Nat := (List.range c.clusSize).map fun p => clusTile c ci p

/-- The channel after an arrival of n instances of a commit with count `need`; whether the generation opened. -/
def Channel.arrive (h : Channel) (insts need : Nat) (who : Nat × Nat) : Channel × Bool :=
  let n := if h.count = 0 then need else h.need
  let k := h.count + insts
  if n ≤ k then ({ count := 0, need := 0, gen := h.gen + 1, from_ := [] }, true)
  else ({ count := k, need := n, gen := h.gen, from_ := h.from_ ++ [who] }, false)

/-- The tokens of a commit learn which generation holds them. -/
def Core.tieBars (c : Core) (a : Arrival) (gen : Nat) : Core :=
  let tie (b : Bool × Nat × Nat × Nat) : Bool × Nat × Nat × Nat :=
    if b.1 = a.clus ∧ b.2.1 = a.owner ∧ b.2.2.1 = a.chan ∧ b.2.2.2 = 0 then (b.1, b.2.1, b.2.2.1, gen + 1) else b
  { c with outbox := c.outbox.map fun o => if o.commit = a.commit then { o with bars := o.bars.map tie } else o }

/-- A generation opened: it holds no token any more; its tokens wait for what all its commits stored. -/
def Core.openBars (c : Core) (a : Arrival) (gen : Nat) (who : List (Nat × Nat)) : Core :=
  let of_ (b : Bool × Nat × Nat × Nat) : Bool := b.1 == a.clus && b.2.1 == a.owner && b.2.2.1 == a.chan && b.2.2.2 == gen + 1
  { c with outbox := c.outbox.map fun o =>
      if o.bars.any of_ then { o with bars := o.bars.filter fun b => !of_ b, after := o.after ++ who } else o }

/-- BARRIER_ARRIVAL: an arrival is counted once its commit is visible at team or clus. -/
def execBarrierArrival (core idx : Nat) (s : State) : Out :=
  let c := s.core core
  match c.barArrivals[idx]? with
  | none => .next s
  | some a =>
    if !c.visible a.commit (if a.clus then .clus else .team) then .next s
    else
      let s := s.modCore core fun c => { c with barArrivals := c.barArrivals.eraseIdx idx }
      if a.clus then
        let k := clusKeeper c core
        let key := a.owner * 4 + a.chan
        let old := (s.core k).clusBars.atD key Channel.empty
        let (h, opened) := old.arrive a.insts a.need (core, a.commit)
        let s := s.modCore k fun c => { c with clusBars := c.clusBars.put Channel.empty key h }
        let s := s.modCore core fun c => c.tieBars a old.gen
        .next (if opened then (clusCores c core).foldl (fun s ci => s.modCore ci fun c => c.openBars a old.gen (old.from_ ++ [(core, a.commit)])) s else s)
      else
        .next (s.modCore core fun c =>
          let t := c.team a.owner
          let old := t.chans.atD a.chan Channel.empty
          let (h, opened) := old.arrive a.insts a.need (core, a.commit)
          let c := (c.setTeam a.owner { t with chans := t.chans.put Channel.empty a.chan h }).tieBars a old.gen
          if opened then c.openBars a old.gen (old.from_ ++ [(core, a.commit)]) else c)

/-! ## Long-latency completion (R57, R59) -/

/-- An operation that can be served is served; a matrix operation is performed when its turn has come. -/
def State.serveOp (s : State) (ci gi : Nat) (o : LongOp) : State :=
  if o.ready || o.flt.isSome then s
  else
    match o.kind with
    | .load _ _ _ | .fetch => s.serveGlobal ci gi o.num
    | .bufLoad _ | .atoma _ _ => s.serveLocal ci gi o.num
    | .matrix => s.performHead ci
    | .result | .tload _ | .courier => s

/-- An operation may end now: it is complete, or dead with nothing that it still does; a division ends in its unit's order (R173), and a copy
with its command. -/
def Core.opEnds (c : Core) (o : LongOp) : Bool :=
  (match o.kind with
    | .courier => false
    | .load _ _ _ | .fetch | .bufLoad _ => o.ready || o.dead
    | _ => o.ready) &&
  (!c.divq.contains o.num || c.divq.head? == some o.num)

/-- The operation ends and leaves the divide unit's queue. -/
def State.closeOp (s : State) (ci num : Nat) : State :=
  (s.modCore ci fun c => let c := c.endOp num; { c with divq := c.divq.filter (· != num) }).serveAll ci

/-- LONG_LATENCY_COMPLETION: the result is written and the flag decremented, or the fault that the operation met is taken once no earlier one
can still fault (R100). `grp` from 64 on names the parked collections, whose operations of the aborted run end there (R59). -/
def execLongLatencyCompletion (core grp idx : Nat) (s : State) : Out :=
  if 64 ≤ grp then
    let c := s.core core
    match ((c.park ++ c.parkOver)[grp - 64]?).bind fun p => p.ops[idx]? with
    | none => .next s
    | some o => .next (if c.opEnds o then s.closeOp core o.num else s)
  else
    match ((s.core core).group? grp).bind fun g => g.ops[idx]? with
    | none => .next s
    | some o =>
      match o.flt with
      | some f => .next (s.failOp core grp o.num f)
      | none =>
        let s := s.serveOp core grp o
        match (((s.core core).group? grp).bind fun g => g.ops.find? fun p => p.num == o.num) with
        | none => .next s
        | some p => .next (if (s.core core).opEnds p then s.closeOp core p.num else s)

/-! ## Renewals (R111) -/

/-- The answer confirms the uses that wait for it. -/
def Group.confirm (g : Group) (r : Renewal) : Group :=
  { g with validation := g.validation.map fun v => if v.num = r.num then { v with confirmed := true } else v }

/-- A version changed: the group is aborted and replayed, one mismatch further (R31). -/
def State.mismatch (s : State) (ci gi n : Nat) : State :=
  (s.abortReplay ci gi).modCore ci fun c =>
    match c.group? gi with
    | some g => c.setGroup gi { g with mismatches := n + 1 }
    | none => c

/-- SPECULATIVE_RENEWAL_REPLY: the answer confirms the uses of the line, or installs new data and aborts the groups that used the
old. A lease comes with it unless the slice gave none. -/
def execSpeculativeRenewalReply (core idx : Nat) (s : State) : Out :=
  match (s.core core).renewals[idx]? with
  | none => .next s
  | some r =>
    if !r.back then .next s
    else
      let s := s.modCore core fun c => { c with renewals := c.renewals.eraseIdx idx }
      if r.data.isEmpty then
        let s := s.modCore core fun c =>
          { c with groups := c.groups.map fun e => (e.1, e.2.confirm r),
                   l1 := c.l1.map fun l => if l.line = r.line ∧ l.ver = r.ver ∧ r.newExp ≠ 0 then { l with exp := max l.exp r.newExp } else l }
        .next (s.retryLoads core)
      else
        let users := (s.core core).groups.filter fun e => e.2.validation.any fun v => v.line == r.line && v.ver == r.ver && !v.confirmed
        let s := s.modCore core fun c =>
          if r.newExp = 0 then c.l1Drop r.line else c.l1Put { line := r.line, exp := r.newExp, ver := r.newVer, data := r.data } r.lru
        .next ((users.foldl (fun s e => s.mismatch core e.1 e.2.mismatches) s).retryLoads core)

/-! ## Fairness and clock gating (R356, R358) -/

def execPassOverPromotion (core grp : Nat) (s : State) : Out :=
  match (s.core core).group? grp with
  | none => .next s
  | some g => .next (if g.passOver < 1024 then s else s.setGroup core grp { g with prio := min (g.prio + 1) 3, passOver := 0 })

/-- Before a word that has not waited yet, a clause header whose flags are clear, or a QWAIT that would end. A group that waits at another
word for a queue or unit is not ready (R354); when it can go on, the core's next issue turn finds that out (`issueCore`; log entry 181). -/
def State.looksReady (s : State) (ci : Nat) (g : Group) : Bool :=
  g.canTry (s.core ci) && (match g.status with
    | .ready => true
    | .waiting =>
      match fetchInstr (s.core ci) g with
      | .clauseHeader f => !(List.range 12).any fun n => f.wait.getLsbD n && g.flags.atD n 0 != 0
      | _ => false
    | .qwait _ => s.qwaitOver ci g
    | _ => false)

/-- A ready group, a collection that could be made, or a busy unit. -/
def State.coreBusy (s : State) (ci : Nat) : Bool :=
  let c := s.core ci
  (c.groups.any fun e => s.looksReady ci e.2 || e.2.atEnd c) || (!(s.dueColls ci).isEmpty && s.mayCollect ci) ||
    !c.matq.isEmpty || !c.divq.isEmpty || c.groups.any fun e => e.2.ops.any fun o => o.kind == .result

/-- Cycles of idleness before gating. -/
def idleCycles : Nat := 64

/-- CLOCK_GATE: the core counts idle cycles, and gates after 64. -/
def execClockGate (core : Nat) (s : State) : Out :=
  match (s.core core).gate with
  | .running since =>
    let gate := if s.coreBusy core then Gate.running none
      else match since with
        | none => .running (some s.arith)
        | some t => if t + idleCycles ≤ s.arith then .gated else .running (some t)
    .next (s.modCore core fun c => { c with gate := gate })
  | _ => .next s

/-- CORE_WAKE: an event made a group ready or a collection due. A group that waited at issue for a unit or queue wakes the core by an issue
turn. -/
def execCoreWake (core : Nat) (s : State) : Out :=
  let c := s.core core
  match c.gate with
  | .gated => .next (if (c.groups.any fun e => s.looksReady core e.2) || !(s.dueColls core).isEmpty then s.restartCore core else s)
  | _ => .next s

/-- DEADLINE_WAKE_TIMER: 72 cycles before the earliest deadline of a waiting instance. -/
def execDeadlineWakeTimer (core : Nat) (s : State) : Out :=
  let c := s.core core
  let near := c.entries.any fun e => e.2.phase == .complete && decide (e.2.deadline ≤ s.arith + restartCycles)
  match c.gate with
  | .gated => .next (if near then s.restartCore core else s)
  | _ => .next s

def execRestartEnd (core : Nat) (s : State) : Out :=
  match (s.core core).gate with
  | .restarting t => .next (if t ≤ s.arith then s.modCore core fun c => { c with gate := .running none } else s)
  | _ => .next s

/-! ## Block fetch (R359, R376) -/

/-- BLOCK_FETCH_COMPLETE: the record is in the block store; the tokens held for it go to the matching store in order. So do those of a
block that stayed because its LDBLK was undone (R376). -/
def execBlockFetchComplete (core slot : Nat) (s : State) : Out :=
  let b := (s.core core).slot slot
  if b.bid = 0xFFF ∨ b.closing then .next s
  else
    let body := if b.resident then b.body else (List.range (hdrLen b.hdr)).map fun i => s.rd64 (b.recPA + 8 * (4 + i))
    let c := (s.core core).setSlot slot { b with body := body, resident := true }
    let (mine, rest) := c.overlay.partition fun t => t.tok.blk.toNat == b.bid
    let s := s.setCore core { c with overlay := rest, overlayAsked := c.overlayAsked.filter (· != b.bid) }
    .next (mine.foldl (fun s t => s.place core t) s)

end Sys2Proof.Machine
end

