-- ==== Sys2Proof/Machine/EvCourier.lean ====
section
/-! DEFINITION. The Courier engine's events (R122, R123, R129, R142 to R148) and its bulk fabric commands (R308, R310, R331). -/

namespace Sys2Proof.Machine

/-! ## Bulk commands -/

/-- A command that the fabric answers. -/
def isBulk : CopyForm → Bool
  | .rput | .rget | .mcput => true
  | _ => false

/-- STATUS of R304 for the stop of a local range. -/
def localStatus (e : CopyStop) : Nat :=
  match e.status with
  | 1 => 1
  | 2 => 5
  | 3 => 6
  | _ => 7

/-- Lines of the source of a put or message, and the offset of the first byte on each. -/
def CopyCmd.srcLines (k : CopyCmd) : Nat := if k.len = 0 then 0 else (k.src + k.len - 1) / 128 - k.src / 128 + 1
def CopyCmd.lineFirst (k : CopyCmd) (i : Nat) : Nat := (k.src / 128 + i) * 128 - k.src

/-- What reading the source of a put or message meets: all of it is read, it waits, or it stops at an offset. -/
inductive SrcEnd where
  | done | wait
  | stop (off : Nat) (e : CopyStop)
  deriving DecidableEq, Repr

/-- The source lines are read in ascending order (R308, R331). -/
def readSource (s : State) (ci : Nat) (k : CopyCmd) : SrcEnd × CopyCmd × State :=
  (List.range k.srcLines).foldl (fun acc i =>
    match acc with
    | (.done, k, s) =>
      if (k.got.at? (k.src / 128 + i)).isSome then (.done, k, s)
      else
        match readMemLine s ci k (k.src + k.lineFirst i) with
        | (.done, k, s) => (.done, k, s)
        | (.wait, k, s) => (.wait, k, s)
        | (.stop e, k, s) => (.stop (k.lineFirst i) e, k, s)
    | r => r) (.done, k, s)

/-- The first n source bytes, once they are read. -/
def sourceBytes (s : State) (ci : Nat) (k : CopyCmd) (n : Nat) : List Byte := (List.range n).map (srcVal s ci k)

/-- The tokens that a bulk command owes, with their payload; the command ends. -/
def State.payDues (s : State) (ci : Nat) (k : CopyCmd) (payload : List Word) : State :=
  (((s.disownAll ci k).modCore ci fun c => c.dropCopy k.num).dropEngine ci k.num).modCore ci fun c =>
    k.due.foldl (fun c d => c.postDue k.commit k.grp d payload) c

/-- A bulk command ends with STATUS, CAUSE and the offset of the first byte not written (R304). -/
def State.endBulk (s : State) (ci : Nat) (k : CopyCmd) (status cause offset : Nat) : State :=
  let s := s.setDev { s.dev with requests := s.dev.requests.filter fun q => !(q.core == ci && q.bundle == k.num && q.bulk == some k.form) }
  s.payDues ci k [statusWord status cause, w32 offset]

/-- Where the present part of a bulk command goes: it waits for a walk, its page reaches no peer, or it has its target. -/
inductive PeerAt where
  | wait
  | fail (cause : Nat)
  | ok (dev tasid tva : Nat)
  deriving DecidableEq, Repr

/-- The peer of the present part: the first page was translated at issue (R303), a later one is by the engine (R95). -/
def peerAt (s : State) (ci : Nat) (k : CopyCmd) (write : Bool) : PeerAt × State :=
  match (if k.base = 0 then k.remote else none) with
  | some (dev, tasid, tva) => (.ok dev tasid tva, s)
  | none =>
    match s.engineXl ci k.num k.asid (k.target + k.base) { write := write, priv := k.priv, peer := true } with
    | (.wait, s) => (.wait, s)
    | (.fail cause _, s) => (.fail cause, s)
    | (.ok (.peer dev tasid tva), s) => (.ok dev tasid tva, s)
    | (.ok (.mem _ _), s) => (.fail xKind, s)

/-- The bytes of the present part, of n in all: up to the end of its 4 KiB page of the target (R95). -/
def CopyCmd.pageLeft (k : CopyCmd) (n : Nat) : Nat := min (n - k.base) (4096 - (k.target + k.base) % 4096)

/-- A bulk transfer travels in packets of at most 256 bytes, none of which leaves its 4 KiB at the target (R293, R95). -/
def bulkParts (tva : Nat) : Nat → Nat → List (Nat × Nat)
  | 0, _ => []
  | fuel + 1, left =>
    if left = 0 then []
    else
      let n := min left (min 256 (4096 - tva % 4096))
      (tva, n) :: bulkParts (tva + n) fuel (left - n)

/-- The parts of a transfer of n bytes as (offset, length); one empty part when there are none. -/
def partsOf (tva n : Nat) : List (Nat × Nat) :=
  match (bulkParts tva (n / 4 + 1) n).map fun p => (p.1 - tva, p.2) with
  | [] => [(0, 0)]
  | ps => ps

/-- The request of a part of n bytes leaves for its target, packet by packet under one number. -/
def State.sendPart (s : State) (ci : Nat) (k : CopyCmd) (kind : RemKind) (dev tasid tva n : Nat) (body : Nat → Nat → PktBody) : State :=
  let l : RemLane := { pos := 0, dev := dev, tasid := tasid, tva := tva, va := k.target + k.base, b := 0, c := 0 }
  let ps := partsOf tva n
  let first := (ps[0]?).getD (0, 0)
  let s := s.modCore ci fun c => c.setCopy { k with sent := true, part := n }
  let (num, s) := s.newReq ci k.commit kind (some k.form) n k.num l fun _ => body first.1 first.2
  let s := s.launchReq num
  (ps.drop 1).foldl (fun s p =>
    if s.dev.requests.any fun r => r.reqid == num && r.done.isNone then
      (s.sendPacket ci (s.core ci).cfg.asid (s.packetFrom ci num dev tasid (tva + p.1) (body p.1 p.2))).2
    else s) s

/-- The present part of a transfer of n bytes leaves, once its page of the target is translated; a page that fails ends the command, with
the bytes before it (R95, R304). -/
def State.sendBulk (s : State) (ci : Nat) (k : CopyCmd) (kind : RemKind) (n : Nat) (body : Nat → Nat → Nat → PktBody) : State :=
  match peerAt s ci k kind.writes with
  | (.wait, s) => s.modCore ci fun c => c.setCopy k
  | (.fail cause, s) => s.endBulk ci k (if k.base = 0 then 1 else 2) (0x80 + cause) k.base
  | (.ok dev tasid tva, s) => s.sendPart ci k kind dev tasid tva (k.pageLeft n) (body (k.pageLeft n))

/-- The present part of a put: of the `moved` bytes that go in all. The last part of a whole put has the notify token (R308). -/
def State.putPart (s : State) (ci : Nat) (k : CopyCmd) : State :=
  let bs := (sourceBytes s ci k k.moved).drop k.base
  s.sendBulk ci k .rst k.moved fun total o n =>
    .put o total ((bs.drop o).take n) (if k.base + total = k.len then k.notify.map fun t => (t, k.len) else none)

/-- RPUT: once its source is read, its bytes leave, up to a local page that fails (R308). -/
def State.startPut (s : State) (ci : Nat) (k : CopyCmd) : State :=
  match readSource s ci k with
  | (.wait, k, s) => s.modCore ci fun c => c.setCopy k
  | (.stop off e, k, s) =>
    if off = 0 then s.endBulk ci k (localStatus e) (0x80 + e.cause) 0
    else s.putPart ci { k with status := BitVec.ofNat 8 (localStatus e), cause := BitVec.ofNat 8 (0x80 + e.cause), moved := off }
  | (.done, k, s) => if k.len = 0 ∧ k.notify.isNone then s.endBulk ci k 0 0 0 else s.putPart ci { k with moved := k.len }

/-- MCPUT: one message leaves, or a failing local page answers at once (R331). -/
def State.startMcput (s : State) (ci : Nat) (k : CopyCmd) : State :=
  let (group, off) := k.mc.getD (0, 0)
  let e := s.mcEntry group
  let nmemb := e.nmemb
  match readSource s ci k with
  | (.wait, k, s) => s.modCore ci fun c => c.setCopy k
  | (.stop _ e, k, s) => s.payDues ci k (failedReceipt (localStatus e) 0 nmemb)
  | (.done, k, s) =>
    let bs := sourceBytes s ci k k.len
    let items := if bs.isEmpty then [] else [(off, bs)]
    let m : McMsg := { group := group, root := e.root, wsz := e.wsz, items := items,
                        notify := k.notify, len := k.len, stamped := false, postmark := 0, part := 0, parts := 1 }
    match (s.modCore ci fun c => c.setCopy { k with sent := true }).sendMessage ci k.commit k.num m with
    | (none, _, s) => s
    | (some cause, n, s) => (s.dropReq n).payDues ci k (failedReceipt 3 (0x80 + cause) nmemb)

/-! ## Ownership (R122) -/

/-- The engine takes the lines that are still to be written in ascending order, as far as it has them now; it owns at most 256, and takes
more as it releases those that it has written. -/
def State.ownAhead (s : State) (ci : Nat) (k : CopyCmd) : State :=
  if dstMem k.form then
    ((k.units.filter fun u => !k.doneLines.contains u).foldl (fun (acc : Bool × State) u =>
      if !acc.1 then acc
      else
        match unitLine acc.2 ci k u with
        | some ln => if writtenFirst acc.2 ci k ln then (false, acc.2) else acc.2.ownLine ci k.num ln
        | none => (true, acc.2)) (true, s)).2
  else s

/-! ## Start (R122, R129, R131) -/

/-- The present part of a get. -/
def State.getPart (s : State) (ci : Nat) (k : CopyCmd) : State := s.sendBulk ci k .rld k.len fun total o n => .read o n total

/-- RGET: the read of its first part leaves, and its destination lines are taken (R310, R122). -/
def State.startGet (s : State) (ci : Nat) (k : CopyCmd) : State :=
  if k.len = 0 then s.endBulk ci k 0 0 0 else (s.getPart ci k).ownAhead ci k

/-- A deferred command begins after its block's lines are performed at their slices. -/
def copyReady (c : Core) (k : CopyCmd) : Bool :=
  k.form.immediate || match c.commit? k.commit with
    | some r => r.lines.isEmpty && r.uncached.isEmpty
    | none => true

/-- COURIER_COMMAND_START: the next command of the queue begins, when fewer than four are in progress. -/
def execCourierCommandStart (core : Nat) (s : State) : Out :=
  let c := s.core core
  match c.courier.find? fun k => !k.running with
  | none => .next s
  | some k =>
    if 4 ≤ (c.courier.filter fun y => y.running).length || !copyReady c k then .next s
    else
      let k := { k with running := true }
      let s := s.modCore core fun c => c.setCopy k
      .next (match k.form with
        | .rput => s.startPut core k
        | .rget => s.startGet core k
        | .mcput => s.startMcput core k
        | _ => s.ownAhead core k)

/-! ## Progress and end (R142, R145, R146) -/

/-- STATUS of a transfer that ends with the answer to one of its parts: what fails at the target behind other bytes is PARTIAL (R304). -/
def bulkStatus (base st : Nat) : Nat := if st = 1 ∧ base ≠ 0 then 2 else st

/-- The answer to a part of a put: the next part leaves; the local stop counts only after what the target wrote. -/
def State.finishPut (s : State) (ci : Nat) (k : CopyCmd) (written : Nat) (st ca : Byte) : State :=
  if st != 0 then s.endBulk ci k (bulkStatus k.base st.toNat) ca.toNat (k.base + written)
  else if k.base + k.part < k.moved then s.putPart ci { k with base := k.base + k.part, sent := false }
  else if k.status != 0 then s.endBulk ci k (if k.status = 1 then 2 else k.status.toNat) k.cause.toNat k.moved
  else s.endBulk ci k 0 0 k.len

/-- A put goes on with the answer to its part; one whose part has not left, as its source is not read or its page not translated, tries again. -/
def State.runPut (s : State) (ci : Nat) (k : CopyCmd) : State :=
  if !k.sent then (if k.base = 0 then s.startPut ci k else s.putPart ci k)
  else
    match s.bulkReq ci k with
    | none => s
    | some r =>
      match r.done with
      | none => s
      | some (st, ca, _) => s.finishPut ci k r.written st ca

/-- The next part of a get leaves once the present one is answered with OK. -/
def State.nextGet (s : State) (ci : Nat) (k : CopyCmd) : State :=
  let answered := match (s.bulkReq ci k).bind fun r => r.done with
    | some (st, _, _) => st == 0
    | none => false
  if !k.sent then s.getPart ci k
  else if answered && decide (k.base + k.part < k.len) then s.getPart ci { k with base := k.base + k.part, sent := false }
  else s

/-- A get writes the bytes that have come back, in ascending order, and ends when its last answer is complete (R310). -/
def State.writeGet (s : State) (ci : Nat) (k : CopyCmd) : State :=
  let s := s.ownAhead ci k
  let ended := if k.sent then ((s.bulkReq ci k).bind fun r => r.done).filter fun d => d.1 != 0 || decide (k.len ≤ k.base + k.part) else none
  let n := if ended.isSome then min k.len (s.gotBytes ci k).length else k.len
  let part := { k with len := n }
  match copyLines s ci part part.order, ended with
  | (.stop e, p, s), _ =>
    let off := p.progress
    s.endBulk ci k (if localStatus e = 1 ∧ off ≠ 0 then 2 else localStatus e) (0x80 + e.cause) off
  | (.done, _, s), some (st, ca, _) => if st = 0 then s.endBulk ci k 0 0 k.len else s.endBulk ci k (bulkStatus n st.toNat) ca.toNat n
  | (_, p, s), _ => s.modCore ci fun c => c.setCopy { p with len := k.len }

/-- A running get: its next part leaves, and the bytes that have come back are written. -/
def State.runGet (s : State) (ci : Nat) (k : CopyCmd) : State :=
  let s := s.nextGet ci k
  match (s.core ci).courier.find? fun y => y.num == k.num with
  | none => s
  | some k => s.writeGet ci k

/-- COURIER_COMMAND_COMPLETE: a running command goes on as far as it can, and ends when it is done or stops. -/
def execCourierCommandComplete (core idx : Nat) (s : State) : Out :=
  match (s.core core).courier[idx]? with
  | none => .next s
  | some k =>
    if !k.running then .next s
    else
      let s := match k.form with
        | .rput => s.runPut core k
        | .rget => s.runGet core k
        | .mcput => if k.sent then s else s.startMcput core k
        | .spout | .spoutc => s.pushCopy core k
        | .spin => s.landCopy core k
        | _ => (s.ownAhead core k).runCopy core k
      .next ((s.releaseSlots core).sweepCommits core)

/-! ## Recall (R123) -/

/-- Someone waits for the line: a request or an agent at a slice, or a snoop. -/
def State.lineWanted (s : State) (ln : Nat) : Bool :=
  s.recalling ln || s.slices.any fun e => e.2.asked ln || e.2.asks.any fun a => a.line == ln

/-- COURIER_RECALL: the engine writes the line next and releases it; while the line must wait, no other goes before it (R123). -/
def execCourierRecall (core line : Nat) (s : State) : Out :=
  let owned := (s.ownedBy core).contains line
  let pick := (s.core core).courier.findSome? fun k =>
    if k.running && dstMem k.form then
      (k.units.find? fun u => !k.doneLines.contains u && unitLine s core k u == some line).map fun u => (k, u)
    else none
  match pick with
  | none => .next s
  | some (k, u) =>
    if !owned || !s.lineWanted line then .next s
    else
      .next (match memUnit s core k u with
        | (.wait, k, s) => s.modCore core fun c => c.setCopy { k with urgent := k.urgent.filter (· != u) ++ [u] }
        | (.done, k, s) => s.modCore core fun c => c.setCopy k
        | (.stop e, k, s) =>
          if k.form == .rget then
            s.endBulk core k (if localStatus e = 1 ∧ k.progress ≠ 0 then 2 else localStatus e) (0x80 + e.cause) k.progress
          else s.endDeferred core k e.status e.cause)

end Sys2Proof.Machine
end

