-- ==== Sys2Proof/Machine/EvLink.lean ====
section
/-! DEFINITION. The fabric's events: packets at ports and guards (R294 to R299), requests at their target (R97, R306 to R310),
replies (R304, R305), the write-combining buffer's drains (R311), spans (R314 to R317), heartbeats, deaths and incarnations
(R296, R397, R398), and the pool links (R396). -/

namespace Sys2Proof.Machine

/-! ## Switches -/

def State.switch (s : State) (n : Nat) : Switch := (s.switches.find? fun x => x.num == n).getD (Switch.empty n)
def State.setSwitch (s : State) (x : Switch) : State :=
  if s.switches.any fun y => y.num == x.num then { s with switches := replaceIf (fun y => y.num == x.num) (fun _ => x) s.switches }
  else { s with switches := insertBy (fun a b => a.num ≤ b.num) x s.switches }
def State.modSwitch (s : State) (n : Nat) (f : Switch → Switch) : State := s.setSwitch (f (s.switch n))

/-- Two packets that take one route, so that they arrive in the order in which they left (R294): of one source to one device, or to one
root. The copies that a root sends have no order (R320). -/
def sameRoute (p q : Packet) : Bool :=
  let root (p : Packet) : Option Nat := match p.body with
    | .multicast m => if m.stamped then none else some m.root
    | _ => some 0x10000
  p.srcDev == q.srcDev && p.srcCore == q.srcCore && p.dstDev == q.dstDev && (root p).isSome && root p == root q

/-- No earlier packet of its route stands before a packet on its way; one that is not on its way comes from outside. -/
def inOrder (l : List Packet) (p : Packet) : Bool :=
  match l.find? fun q => q == p || sameRoute q p with
  | some q => q == p
  | none => true
def State.inOrder (s : State) (p : Packet) : Bool :=
  if s.wire.contains p then Sys2Proof.Machine.inOrder s.wire p
  else s.switches.all fun x => !x.out.contains p || Sys2Proof.Machine.inOrder x.out p

/-- A packet that arrives is on its way no more. -/
def State.takeFlight (s : State) (p : Packet) : State :=
  if s.wire.contains p then { s with wire := s.wire.erase p }
  else { s with switches := s.switches.map fun x => { x with out := x.out.erase p } }

/-- A packet of the device itself under a key: tokens, replies and notices that no core sends (R293). -/
def State.ownPacket (s : State) (key : BitVec 16) (dst reqid : Nat) (body : PktBody) : Packet :=
  { key := key, inc := s.dev.inc, srcDev := s.dev.devNum, dstDev := dst, srcCore := 0x3FF, tasid := 0, tva := 0, reqid := reqid,
    body := body }

/-- The ASID of the graph of a key on this device. -/
def State.keyAsid (s : State) (key : Nat) : Option Nat := (s.dev.regions.find? fun r => r.key == key).map fun r => r.asid

/-- A packet that no core sends leaves; one that cannot is dropped at the port, with a record for the graph of its key, or in the steward
log (R299). -/
def State.emit (s : State) (p : Packet) : State :=
  match s.leaveStop 0x3FF p.key p.dstDev with
  | none => { s with wire := s.wire ++ [p] }
  | some (cause, kind, place) =>
    let port := (s.portTo 0x3FF p.dstDev).getD 0
    match s.keyAsid p.key.toNat with
    | some asid => s.deadLetter asid (srcPort port) (port / 9) (deadTail cause kind place p) false none
    | none => s.stewardLog 299

/-! ## Completing requests -/

/-- A receipt of a message, or a failure in its place, reaches the tokens that wait for it (R324, R331). -/
def State.giveReceipt (s : State) (reqid : Nat) (words : List Word) : State :=
  match s.dev.requests.find? fun r => r.reqid == reqid && r.bulk == some .mcput with
  | none => s
  | some r =>
    let s := s.dropReq reqid
    match s.dev.bundles.find? fun b => b.num == r.bundle with
    | some b =>
      let s := s.setDev { s.dev with bundles := s.dev.bundles.filter fun x => x.num != b.num }
      match b.due with
      | some d => s.modCore b.core fun c => c.postDue b.commit 0 d words
      | none => s
    | none =>
      match (s.core r.core).courier.find? fun k => k.num == r.bundle with
      | some k => s.payDues r.core k words
      | none => s

/-- The group of a message. -/
def groupOf (p : Packet) : Nat :=
  match p.body with
  | .multicast m => m.group
  | _ => 0

/-- Complete a request of any kind with a failure. -/
def State.failReq (s : State) (reqid status cause : Nat) : State :=
  match s.dev.requests.find? fun r => r.reqid == reqid with
  | none => s
  | some r =>
    let st := BitVec.ofNat 8 status
    let ca := BitVec.ofNat 8 cause
    match r.bulk with
    | some .mcput => s.giveReceipt reqid (failedReceipt status cause (s.mcEntry (groupOf r.pkt)).nmemb)
    | some _ => s.finishReq reqid st ca 0
    | none => s.closeReq reqid st ca 0

/-- Requests that share a packet: the stores of a drained write-combining entry leave as one (R311). -/
def State.packetReqs (s : State) (reqid : Nat) : List Nat :=
  match s.dev.requests.find? fun r => r.reqid == reqid with
  | none => []
  | some r =>
    match (s.core r.core).wcb.find? fun e => e.drained && e.reqs.contains reqid with
    | some e => e.reqs
    | none => [reqid]

/-- A request that has left its core: it is not in an open write-combining entry, and waits for none (R311, R312). -/
def State.hasLeft (s : State) (r : Request) : Bool :=
  r.done.isNone && !r.held && !(s.core r.core).wcOpen.any fun e => e.reqs.contains r.reqid

/-! ## Dead letters on the way (R296 to R299) -/

/-- The record of a drop, with a stamp, as its notice carries it. -/
def dropRecord (stamp src cause kind place : Nat) (p : Packet) : List DWord :=
  [w64 stamp, w64 (Cls.deadLetter.code * 2 ^ 56 + src * 2 ^ 32)] ++ deadTail cause kind place p

/-- A number that no request has. -/
def noRequest : Nat := 65536

/-- Who hears of a drop, of which request, and the incarnation that sent it: the sender, or every constituent of a combined request. A copy
that a root sent is no request: a member that it does not reach counts as one that gives no answer (R324). -/
def notified (p : Packet) : List (Nat × Nat × Byte) :=
  match p.body with
  | .combine _ cons => cons.map fun c => (c.dev, c.reqid, c.inc)
  | .multicast m => [(p.srcDev, if m.stamped then noRequest else p.reqid, p.inc)]
  | .deadLetter _ | .management | .unlisted _ => []
  | _ => [(p.srcDev, p.reqid, p.inc)]

/-- R299: the record goes to the sender's ASID, and a dropped request completes with DROPPED. -/
def State.takeNotice (s : State) (reqid : Nat) (record : List DWord) : State :=
  let w (i : Nat) : Nat := ((record[i]?).getD 0).toNat
  let from_ := field (w 2) 0 10
  let kind := field (w 3) 32 8
  let asid := if from_ ≠ 0x3FF then some (s.core from_).cfg.asid else s.keyAsid (field (w 3) 48 16)
  let s := match asid with
    | some asid => (s.raiseAt asid (field (w 1) 32 16) (w 0) .deadLetter false false (record.drop 2) none (kind == 3)).2
    | none => s.stewardLog 299
  if 0x10 ≤ kind ∧ kind ≤ 0x15 then (s.packetReqs reqid).foldl (fun s n => s.failReq n 3 (field (w 2) 56 8)) s else s

/-- A packet dropped at this device: its notices leave under key 0, and this device takes its own at once. -/
def State.dropPacket (s : State) (src stamp cause kind place : Nat) (p : Packet) : State :=
  let rec_ := dropRecord stamp src cause kind place p
  (notified p).foldl (fun s e =>
    if e.1 = s.dev.devNum then s.takeNotice e.2.1 rec_ else s.emit (s.ownPacket 0 e.1 e.2.1 (.deadLetter rec_))) s

/-- A packet dropped at a switch: its notices go back under key 0, with the sender's own number and incarnation (log entry 83). -/
def State.dropAtSwitch (s : State) (sw port cause : Nat) (p : Packet) : State :=
  let rec_ := dropRecord s.gtc (2 * 2 ^ 14 + sw % 4096) cause 2 (placeSwitch sw port) p
  let ns := (notified p).map fun e => { s.ownPacket 0 e.1 e.2.1 (.deadLetter rec_) with srcDev := e.1, inc := e.2.2 }
  s.modSwitch sw fun x => { x with out := x.out ++ ns }

/-- DEAD_LETTER_NOTICE: a notice that a port accepted is taken. -/
def execDeadLetterNotice (pkt : Packet) (s : State) : Out :=
  match s.dev.arrived.find? fun e => e.2 == pkt, pkt.body with
  | some e, .deadLetter rec_ =>
    .next (s.setDev { s.dev with arrived := s.dev.arrived.erase e }|>.takeNotice pkt.reqid rec_)
  | _, _ => .next s

/-! ## Arrival at a port (R296, R297, R393) -/

/-- The launch that waits for its swap and whose key a packet has (R361). -/
def State.swapOf (s : State) (key : BitVec 16) : Option Plan :=
  s.dev.regions.findSome? fun r => if r.key = key.toNat then none else r.reconfig.filter fun q => q.key == key.toNat

/-- The tile of a new region that a token is for (R13, R362). -/
def Plan.tileOf (q : Plan) (t : Token) : Nat :=
  let first := (q.cores[0]?).getD 0
  match t.kind, q.blocks.find? fun (b : BlockInfo) => b.bid == t.blk.toNat with
  | .eos, _ => first
  | _, some b => (q.cores[t.tag.toNat / 2 ^ b.hs % max b.place 1]?).getD first
  | _, none => first

/-- The tile at whose ingress a packet of a new key waits. -/
def State.heldTile (s : State) (p : Packet) : Option Nat :=
  match p.body with
  | .token t => (s.swapOf p.key).map fun q => q.tileOf t
  | _ => none

/-- Packets of a new key that a tile's ingress holds; back-pressure holds the rest on the wire (R361). -/
def heldLimit : Nat := 256
def State.heldBack (s : State) (p : Packet) : Bool :=
  match s.heldTile p with
  | some tile => decide (heldLimit ≤ (s.dev.held.filter fun e => s.heldTile e.2 == some tile).length)
  | none => false

/-- The guard of a tile stops packets of a key (R297, R440). -/
def State.tileShut (s : State) (key : BitVec 16) (tile : Nat) : Bool := decide (tile < 1024) && !s.tenantOk key (s.dev.tileTenant.atD tile 0)

/-- A packet from a port is dropped at the guard of the tile that it is for. -/
def State.dropAtTile (s : State) (tile : Nat) (p : Packet) : State :=
  s.dropPacket (srcCore tile) (s.gtcAt (dieOf tile)) dlParapet 3 (placeTile tile) p

/-- A token from another device, for a graph of this one, at the guard of its tile and then at its input (R297, R440). One of a key whose
region waits for its swap is held (R361). -/
def State.tokenIn (s : State) (port : Nat) (p : Packet) (t : Token) : State :=
  if (s.heldTile p).isSome then s.setDev { s.dev with held := s.dev.held ++ [(port, p)] }
  else
  match s.asidRegion? p.tasid with
  | none => s.deadLetter p.tasid (srcPort port) (port / 9) (deadTail dlNoSlot 1 (placePort port) p) (t.kind == .handler) none
  | some r =>
    let tile := s.tokenCore r ((r.cores[0]?).getD 0) t
    if s.tileShut p.key tile then s.dropAtTile tile p
    else
      let grp := if p.srcCore = 0x3FF then none else some p.srcCore
      s.toInbox tile { tok := t, key := p.key, inc := p.inc, tasid := p.tasid, srcDev := p.srcDev, srcCore := p.srcCore, counted := false,
                       grp := grp, frame := none }

/-- A request joins a die's ingress. -/
def Die.addIngress (d : Die) (port avail : Nat) (p : Packet) (data : List Byte) : Die :=
  let r : IngressReq := { num := d.nextIngress, pkt := p, port := port, avail := avail, place := none, done := 0, data := data }
  { d with ingress := d.ingress ++ [r], nextIngress := d.nextIngress + 1 }

/-- A later part of a transfer joins its first; one whose transfer has ended is discarded (R293, R308). -/
def Die.addPart (d : Die) (p : Packet) (off n : Nat) (data : List Byte) : Die :=
  let mine (r : IngressReq) : Bool := r.pkt.srcDev == p.srcDev && r.pkt.srcCore == p.srcCore && r.pkt.reqid == p.reqid && r.avail == off
  { d with ingress := replaceIf mine (fun r => { r with avail := r.avail + n, data := r.data ++ data }) d.ingress }

/-- The bytes that a transfer moves in all. -/
def bodyTotal : PktBody → Nat
  | .read _ n total => if total = 0 then n else total
  | .put _ n _ _ => n
  | _ => 0

/-- A transfer whose next bytes have not come. -/
def IngressReq.starved (r : IngressReq) : Bool := decide (r.avail ≤ r.done ∧ r.done < bodyTotal r.pkt.body)

/-- A transfer of which a packet was dropped on its way is forgotten when another request of its source has its number. -/
def Die.dropStarved (d : Die) (p : Packet) : Die :=
  { d with ingress := d.ingress.filter fun r =>
      !(r.starved && r.pkt.srcDev == p.srcDev && r.pkt.srcCore == p.srcCore && r.pkt.reqid == p.reqid) }

/-- An accepted packet goes to the unit it is for. A packet of an unlisted KIND is discarded and counted (R293). -/
def State.acceptPacket (s : State) (port : Nat) (p : Packet) : State :=
  let die := port / 9
  let d := s.die die
  match p.body with
  | .token t => s.tokenIn port p t
  | .read off n _ => s.setDie die (if off = 0 then (d.dropStarved p).addIngress port n p [] else d.addPart p off n [])
  | .put off _ data _ =>
    s.setDie die (if off = 0 then (d.dropStarved p).addIngress port data.length p data else d.addPart p off data.length data)
  | .write _ | .atomic _ _ _ | .combine _ _ => s.setDie die ((d.dropStarved p).addIngress port 0 p [])
  | .multicast _ | .query _ | .reply _ _ _ | .part _ _ | .ack _ _ _ | .receipt _ _ | .deadLetter _ =>
    s.setDev { s.dev with arrived := s.dev.arrived ++ [(port, p)] }
  | .management => s
  | .unlisted _ => s.setDev { s.dev with portErrors := s.dev.portErrors.put 0 port (s.dev.portErrors.atD port 0 + 1) }

/-- The incarnation that the device holds for a source: its own for itself (R296). -/
def Device.incFor (d : Device) (src : Nat) : Byte := if src = d.devNum then d.inc else d.incOf.atD src 0

/-- A packet of another incarnation than the device holds for its source. A management packet comes from the fabric manager, which is no
device and has none (log entry 83). -/
def State.staleInc (s : State) (p : Packet) : Bool :=
  match p.body with
  | .management => false
  | _ => p.inc != s.dev.incFor p.srcDev

/-- A token for an ASID with no armed region (R393). -/
def State.orphan (s : State) (p : Packet) : Bool :=
  match p.body with
  | .token _ => (s.asidRegion? p.tasid).isNone
  | _ => false

/-- A device's link port: guard, exchange, key, incarnation. Key 0 passes every guard and table. A drop for its incarnation returns no
notice; its record goes to the steward log (R296). The release of a region takes its key out of the tables: a token that still comes for it
is dropped with cause NO_SLOT, not KEY (R393). -/
def State.atDevPort (s : State) (port : Nat) (p : Packet) : State :=
  let src := srcPort port
  let now := s.gtcAt (port / 9)
  if p.key ≠ 0 ∧ !s.tenantOk p.key (s.dev.portTenant.atD port 0) then s.dropPacket src now dlParapet 4 (placeLinkGuard port) p
  else if p.key ≠ 0 ∧ !s.dev.incExchanged then s.stewardLog 296
  else if p.key ≠ 0 ∧ !(s.dev.portKeys.atD port []).contains p.key then
    if s.orphan p && !s.staleInc p then s.acceptPacket port p else s.dropPacket src now dlKey 1 (placePort port) p
  else if s.staleInc p then
    s.setDev { s.dev with stewardRecs := s.dev.stewardRecs ++ [dropRecord now src dlIncarnation 1 (placePort port) p] }
  else s.acceptPacket port p

/-- A combined request is answered to the switch that made it. -/
def combinedBy (reqid : Nat) : Option Nat := if reqid < 65536 then none else some (reqid / 65536 - 1)

/-- A switch port: key, then route. Messages at a root, combining requests and replies to combined requests wait for their event, stamped
with the switch cycle of their arrival (R333); the rest goes on. -/
def State.atSwPort (s : State) (sw port : Nat) (p : Packet) : State :=
  let x := s.switch sw
  let wait : State := s.setSwitch { x with arrived := x.arrived ++ [(port, s.gtc, p)] }
  let on : State := if x.dead.contains p.dstDev then s.dropAtSwitch sw port dlNoRoute p else s.setSwitch { x with out := x.out ++ [p] }
  if p.key ≠ 0 ∧ !(x.portKeys.atD port []).contains p.key then s.dropAtSwitch sw port dlKey p
  else
    match p.body with
    | .unlisted _ => s.setSwitch { x with errors := x.errors.put 0 port (x.errors.atD port 0 + 1) }
    | .multicast m =>
      if m.stamped then on else if m.root = sw then wait else s.setSwitch { x with out := x.out ++ [p] }
    | .combine _ _ => if x.dead.contains p.dstDev then s.dropAtSwitch sw port dlNoRoute p else wait
    | .reply _ _ _ => if combinedBy p.reqid = some sw then wait else on
    | _ => on

/-- A guard at a tile's router: a packet of another tenant goes no further (R297); any other stays on its way. -/
def State.atGuard (s : State) (tile : Nat) (edge : Bool) (p : Packet) : State :=
  if s.tenantOk p.key (s.dev.tileTenant.atD tile 0) then s
  else (s.takeFlight p).dropPacket (srcCore tile) (s.gtcAt (dieOf tile)) dlParapet (if edge then 4 else 3) (placeTile tile) p

/-- LINK_PACKET_ARRIVAL: a packet arrives behind the earlier ones of its route. -/
def execLinkPacketArrival (place : Place) (pkt : Packet) (s : State) : Out :=
  .next (if !s.inOrder pkt then s
    else
      match place with
      | .devPort port => if s.heldBack pkt then s else (s.takeFlight pkt).atDevPort port pkt
      | .swPort sw port => (s.takeFlight pkt).atSwPort sw port pkt
      | .guardOf tile edge => s.atGuard tile edge pkt)

/-! ## Requests at their target (R97, R306 to R310) -/

/-- The statuses of R304 and R324. -/
def stXlate : Nat := 1
def stPartial : Nat := 2
def stDropped : Nat := 3
def stUnreachable : Nat := 4
def stRejected : Nat := 8
def stTimeout : Nat := 9
def stValueLost : Nat := 12

/-- STATUS of a line that cannot be accessed. -/
def lineStatus (c : Cls) : Nat :=
  match c with
  | .poolRegion => 5
  | .linePoisoned => 6
  | _ => 7

/-- A request that writes. -/
def bodyWrites : PktBody → Bool
  | .write _ | .atomic _ _ _ | .put _ _ _ _ | .combine _ _ | .multicast _ => true
  | _ => false

/-- R97: what stops a request before any table is read: no context, or none for requests from outside, or an address out of range. -/
def State.ingressStop (s : State) (asid va : Nat) : Option (Nat × Nat) :=
  if !s.ctxValid asid || s.ctxWord asid 2 / 2 ^ 24 % 2 = 0 then some (xNoContext, 0)
  else if 2 ^ 56 ≤ va then some (xAddress, 0)
  else none

/-- A memory place on a leaf, for a request from outside: never privileged, and never through a peer leaf (R97). -/
def ingressLeaf (s : State) (asid va : Nat) (write : Bool) (x : TlbEnt) : Except (Nat × Nat) (Nat × Nat) :=
  match onLeaf s asid va { write := write, priv := false, peer := false } x with
  | .ok (.mem pa cache) => .ok (pa, cache)
  | .ok (.peer _ _ _) => .error (xKind, 0)
  | .error e => .error e

/-- What an address of a request finds at the ingress: it waits for a walk, fails, or has a place. -/
inductive IngressXl where
  | wait
  | fail (cause level : Nat)
  | ok (pa cache : Nat)
  deriving DecidableEq, Repr

/-- R97: translate an address of an ASID at a die's ingress, for a request with a number: the ingress TLB, then the die's miss queue and
walkers. -/
def State.ingressXl (s : State) (die num asid va : Nat) (write : Bool) : IngressXl × State :=
  let d := s.die die
  let who := ingressNum num
  match s.ingressStop asid va with
  | some e => (.fail e.1 e.2, s)
  | none =>
    match d.ingressTlb.find? fun x => x.covers asid va with
    | some x => (match ingressLeaf s asid va write x with
      | .ok p => .ok p.1 p.2
      | .error e => .fail e.1 e.2, s)
    | none =>
      match d.failure? who asid va with
      | some f => (.fail f.cause f.level, s)
      | none => (.wait, s.setDie die (d.addMiss asid (va / 4096) ({ write := write, priv := false, peer := false : Want }.by who)))

/-- Where an address stands at an ingress by the tables as they are: a lookup of the model, which changes nothing. -/
def State.ingressNow (s : State) (die asid va : Nat) (write : Bool) : Except (Nat × Nat) (Nat × Nat) :=
  match s.ingressStop asid va with
  | some e => .error e
  | none =>
    match (s.die die).ingressTlb.find? fun x => x.covers asid va with
    | some x => ingressLeaf s asid va write x
    | none =>
      match (walk s die asid va).1 with
      | .fail cause level => .error (cause, level)
      | .leaf base size e => ingressLeaf s asid va write { asid := asid, va := base, size := size, leaf := e }

/-- The record of an address that failed at the target. -/
def State.ingressRecord (s : State) (die asid cause level va : Nat) : State :=
  (s.raise asid (srcIngress die) die .translation false false
    (tailOf [(2, cause * 2 ^ 56 + level * 2 ^ 44), (4, va % 2 ^ 56)]) none false).2

/-- Words of 32 bits, low first. -/
def dataWords (n v : Nat) : List Word := (List.range n).map fun i => w32 (v / 2 ^ (32 * i))
def wordsVal (ws : List Word) : Nat := ws.foldr (fun w acc => w.toNat + 2 ^ 32 * acc) 0

/-- The answers to a request: a reply for what returns data, else an acknowledgement; each constituent of an add that expects no
reply is acknowledged alone. -/
def State.answer (s : State) (p : Packet) (status cause offset : Nat) (data : List Word) : State :=
  let st := BitVec.ofNat 8 status
  let ca := BitVec.ofNat 8 cause
  let rep (s : State) : State := s.emit (s.ownPacket p.key p.srcDev p.reqid (.reply st ca data))
  match p.body with
  | .read _ _ _ | .atomic _ _ _ => rep s
  | .combine _ cons =>
    let s := if cons.any fun c => c.reply then rep s else s
    (cons.filter fun c => !c.reply).foldl (fun s c => s.emit (s.ownPacket p.key c.dev c.reqid (.ack st ca 0))) s
  | _ => s.emit (s.ownPacket p.key p.srcDev p.reqid (.ack st ca offset))

def State.dropIngress (s : State) (die idx : Nat) : State :=
  s.setDie die { s.die die with ingress := (s.die die).ingress.eraseIdx idx }
def State.setIngress (s : State) (die idx : Nat) (r : IngressReq) : State :=
  s.setDie die { s.die die with ingress := (s.die die).ingress.set idx r }

/-- The number under which a request of a die's ingress waits for its turn at slices, and its requester number there: the die's ingress, or
at another die's slice that of the die (R109). -/
def ownerTag (die num : Nat) : Nat := 4 * num + die
def ownerWho (die k : Nat) : Nat := if k / 256 = die then reqIngress else reqAgent die

/-- A request of the ingress waits for nothing any more. -/
def State.dropWaits (s : State) (die num : Nat) : State :=
  ((s.dropWaiter die (ingressNum num)).dropTurns reqIngress (ownerTag die num)).dropTurns (reqAgent die) (ownerTag die num)

/-- The request ends at its target. -/
def State.endIngress (s : State) (die idx : Nat) (r : IngressReq) (status cause : Nat) : State :=
  ((s.dropIngress die idx).dropWaits die r.num).answer r.pkt status cause r.done []

/-- Whether the request still moves bytes that have come, so that it needs a page. -/
def IngressReq.needsPage (r : IngressReq) : Bool :=
  match r.pkt.body with
  | .read _ _ _ | .put _ _ _ _ => decide (r.done < r.avail)
  | _ => true

/-- A transfer that may reach several pages; its record names the failing page (R308), that of a lane its address (R97). -/
def bodyBulk : PktBody → Bool
  | .put _ _ _ _ => true
  | .read _ _ total => total != 0
  | _ => false

/-- INGRESS_TRANSLATION: the page of a request's next byte. A failing page ends the request there (R308). -/
def execIngressTranslation (die idx : Nat) (s : State) : Out :=
  match (s.die die).ingress[idx]? with
  | none => .next s
  | some r =>
    if r.place.isSome || !r.needsPage then .next s
    else
      let va := r.pkt.tva + r.done
      match s.ingressXl die r.num r.pkt.tasid va (bodyWrites r.pkt.body) with
      | (.wait, s) => .next s
      | (.ok pa cache, s) => .next (s.setIngress die idx { r with place := some (pa, cache) })
      | (.fail cause level, s) =>
        let s := s.ingressRecord die r.pkt.tasid cause level (if bodyBulk r.pkt.body then va / 4096 * 4096 else va)
        .next (s.endIngress die idx r (if r.done = 0 then stXlate else stPartial) cause)

/-- What an access at the owner meets: done, waiting, or a line that cannot be accessed. -/
inductive OwnerEnd where
  | done (bytes : List Byte)
  | wait
  | stop (c : Cls)
  deriving DecidableEq, Repr

/-- Read n bytes of one line at its owner, when the request's turn comes; no lease (R306). -/
def State.readAtOwner (s : State) (die num pa cache n : Nat) : OwnerEnd × State :=
  let ln := lineOf pa
  if cache = 2 ∨ zoneOf pa = .window then (.done (s.uncachedBytes pa n), s)
  else
    match s.lineStop ln with
    | some c => (.stop c, s)
    | none =>
      let k := fetchSlice s die ln
      match s.takeTurn k (ownerWho die k) ln (ownerTag die num) false true none with
      | (false, s) => (.wait, s)
      | (true, s) =>
        let hs := halvesOf ((List.range n).map fun i => pa % 128 + i)
        let s := (s.hostAcquire ln hs false).poolAcquire ln false
        (.done (s.memBytes pa n), s)

/-- Perform stored bytes and operations on one line at its owner as one write, lined up behind the leases (R108); answers the old value of
the last operation. -/
def State.writeAtOwner (s : State) (die num cache : Nat) (l : SbLine) : OwnerEnd × State :=
  let pa := l.line * 128
  let (bytes, olds) := s.updateBytes l
  let old := match olds.getLast? with
    | some v => natLe 8 v.toNat
    | none => []
  if cache = 2 ∨ zoneOf pa = .window then (.done old, s.storeUncached (bytes.map fun (e : Nat × Byte) => (pa + e.1, e.2)))
  else
    match s.updateStop l with
    | some c => (.stop c, s)
    | none =>
      let k := fetchSlice s die l.line
      match s.takeTurn k (ownerWho die k) l.line (ownerTag die num) true true none with
      | (false, s) => (.wait, s)
      | (true, s) => (.done old, s.storeLine k l.line bytes)

/-- A line of stored bytes and operations. -/
def plainLine (ln : Nat) (bytes : List (Nat × Byte)) (ops : List AtomOp) : SbLine :=
  { line := ln, bytes := bytes, ops := ops, lo := 0, hi := 0, marks := [], uncached := false, pol := 0 }

/-- The target line that a request touches next, and whether a line is among those that it still touches with the bytes that have come. -/
def IngressReq.nextLine (r : IngressReq) : Nat := (r.pkt.tva + r.done) / 128
def IngressReq.touches (r : IngressReq) (ln : Nat) : Bool :=
  decide (r.nextLine ≤ ln) &&
    (if bodyTotal r.pkt.body = 0 then ln == r.nextLine else decide (r.done < r.avail ∧ ln ≤ (r.pkt.tva + r.avail - 1) / 128))

/-- An earlier request of the same core to the same line stands before (R294, R306). -/
def Die.sameLineBefore (d : Die) (idx : Nat) (q : IngressReq) : Bool :=
  (d.ingress.take idx).any fun r => r.pkt.srcDev == q.pkt.srcDev && r.pkt.srcCore == q.pkt.srcCore && r.pkt.tasid == q.pkt.tasid &&
    r.touches q.nextLine

/-- Bytes of the next line of a transfer: up to the line's end, and to its own. -/
def lineLeft (pa left : Nat) : Nat := min left (128 - pa % 128)

/-- The place of the next byte; a new page must be translated, and a transfer whose next bytes have not come holds no translation. -/
def IngressReq.past (r : IngressReq) (n : Nat) : IngressReq :=
  let va := r.pkt.tva + r.done + n
  { r with done := r.done + n, place := if va % 4096 = 0 ∨ r.avail ≤ r.done + n then none else r.place.map fun p => (p.1 + n, p.2) }

/-- The cause with which R17 refuses a token: colour, width, slot. -/
def State.refusalCause (s : State) (ci : Nat) (t : Token) : Nat :=
  match s.coreRegion? ci with
  | none => dlColourDead
  | some r =>
    let col := r.colour t.colour.toNat
    let fixed := match (s.core ci).residentSlot t.blk.toNat with
      | some (_, b) => hdrWcls b.hdr
      | none => 7
    if !col.live then dlColourDead
    else if t.wlog.toNat ≠ col.wlog ∨ 5 < t.wlog.toNat ∨ (fixed ≤ 5 ∧ fixed ≠ t.wlog.toNat) then dlWidth
    else dlNoSlot

/-- What a notify token meets (R309, R332): it waits, or is delivered, or dropped with a cause. -/
inductive NotifyEnd where
  | wait
  | done (cause : Option Nat)
  deriving DecidableEq, Repr

/-- Deliver a notify token at the matching store of its home core, by a packet that came by a port: behind the swap that its key waits for
(R361), at the guard of its tile (R440), and only where the store can tell its fate (R17, R309). A block that must be fetched is asked
for first. -/
def State.notifyIn (s : State) (port asid : Nat) (t : Token) (p : Packet) : NotifyEnd × State :=
  let q := { p with body := PktBody.token t }
  match s.swapOf p.key, s.asidRegion? asid with
  | some _, _ => (.wait, s)
  | none, none => (.done (some dlNoSlot), s.deadLetter asid (srcPort port) (port / 9) (deadTail dlNoSlot 1 (placePort port) q) false none)
  | none, some r =>
    let ci := s.tokenCore r ((r.cores[0]?).getD 0) t
    if s.tileShut p.key ci then (.done (some dlParapet), s.dropAtTile ci q)
    else
      let c := s.core ci
      let it : InTok := { tok := t, key := p.key, inc := p.inc, tasid := asid, srcDev := p.srcDev, srcCore := p.srcCore, counted := false,
                          grp := none, frame := none }
      let put (bad : Bool) : NotifyEnd × State :=
        (.done (if bad then some (s.refusalCause ci t) else none), (s.modCore ci fun c => { c with rlCount := c.rlCount + 1 }).place ci it)
      match c.residentSlot t.blk.toNat with
      | some (_, b) =>
        if s.stopped ci || !c.admits || !s.canPlace ci it || c.lookup t == .moving then (.wait, s) else put (s.badToken ci t b)
      | none =>
        if c.cfg.ovl != 0xFFF && s.blockRec c t.blk.toNat != 0 then (.wait, s.askOverlay ci t.blk.toNat)
        else if s.stopped ci || !c.admits then (.wait, s)
        else put true

/-- The notify token of a put (R309). -/
def putToken (n : Notify) (len dev : Nat) : Token :=
  { kind := .notify, blk := n.blk, slot := n.slot, colour := n.colour, wlog := n.wlog, rscope := .dev, tag := n.tag,
    payload := [w32 len, w32 dev] }

/-- A put whose bytes are all written delivers its notify token, and is answered. -/
def State.endPut (s : State) (die idx : Nat) (r : IngressReq) (notify : Option (Notify × Nat)) : State :=
  match notify with
  | none => s.endIngress die idx r 0 0
  | some (n, len) =>
    match s.notifyIn r.port r.pkt.tasid (putToken n len r.pkt.srcDev) r.pkt with
    | (.wait, s) => s
    | (.done none, s) => s.endIngress die idx r 0 0
    | (.done (some cause), s) => s.endIngress die idx r stRejected cause

/-- Room in the reply log of a die for more constituents (R337). -/
def replyLogSize : Nat := 16384
def Die.logRoom (d : Die) (n : Nat) : Bool := decide (d.replyLog.length + n ≤ replyLogSize)

/-- The constituents of an applied add join the log of the owner's die. -/
def State.logAdds (s : State) (die : Nat) (cons : List Constituent) : State :=
  let d := s.die die
  s.setDie die { d with replyLog := d.replyLog ++ cons.map fun c => (c.dev, c.inc, c.reqid, s.gtcAt die) }

/-- One step of a request at its owner. -/
def State.serveRemote (s : State) (die idx : Nat) (r : IngressReq) : State :=
  let (pa, cache) := r.place.getD (0, 0)
  let ln := lineOf pa
  let close (s : State) (data : List Word) : State := ((s.dropIngress die idx).dropWaits die r.num).answer r.pkt 0 0 0 data
  let write (l : SbLine) : OwnerEnd × State := s.writeAtOwner die r.num cache l
  match r.pkt.body with
  | .read _ _ _ =>
    let total := bodyTotal r.pkt.body
    let m := lineLeft pa (r.avail - r.done)
    if m = 0 then s
    else
      match s.readAtOwner die r.num pa cache m with
      | (.wait, s) => s
      | (.stop c, s) => s.endIngress die idx r (lineStatus c) 0
      | (.done bs, s) =>
        if r.done + m < total then (s.setIngress die idx (r.past m)).emit (s.ownPacket r.pkt.key r.pkt.srcDev r.pkt.reqid (.part r.done bs))
        else close s (wordsOf bs)
  | .write data =>
    match write (plainLine ln (data.map fun b => (pa % 128 + b.1, b.2)) []) with
    | (.wait, s) => s
    | (.stop c, s) => s.endIngress die idx r (lineStatus c) 0
    | (.done _, s) => close s []
  | .atomic fn b c =>
    match write (plainLine ln [] [{ addr := pa, fn := fn, b := b, c := c, word := 0, ret := none }]) with
    | (.wait, s) => s
    | (.stop c, s) => s.endIngress die idx r (lineStatus c) 0
    | (.done old, s) => close s (dataWords (atomBytes fn.toNat / 4) (leNat old))
  | .combine wide cons =>
    let sum := (cons.map fun c => c.addend.toNat).foldl (· + ·) 0
    let owner := fetchSlice s die ln / 256
    if !(s.die owner).logRoom cons.length then s
    else
      match write (plainLine ln [] [{ addr := pa, fn := if wide then 12 else 0, b := w64 sum, c := 0, word := 0, ret := none }]) with
      | (.wait, s) => s
      | (.stop c, s) => s.endIngress die idx r (lineStatus c) 0
      | (.done old, s) => close (s.logAdds owner cons) (dataWords (if wide then 2 else 1) (leNat old))
  | .put _ total _ notify =>
    if total ≤ r.done then s.endPut die idx r notify
    else
      let m := lineLeft pa (r.avail - r.done)
      let bytes := ((r.data.drop r.done).take m).zipIdx.map fun e => (pa % 128 + e.2, e.1)
      if m = 0 then s
      else
        match write (plainLine ln bytes []) with
        | (.wait, s) => s
        | (.stop c, s) => s.endIngress die idx r (lineStatus c) 0
        | (.done _, s) =>
          let r := r.past m
          let s := s.setIngress die idx r
          if r.done < total then s else s.endPut die idx r notify
  | _ => s.dropIngress die idx

/-- REMOTE_REQUEST_AT_TARGET: the request at a place of the ingress is performed, as far as its page goes. -/
def execRemoteRequestAtTarget (die idx : Nat) (s : State) : Out :=
  match (s.die die).ingress[idx]? with
  | none => .next s
  | some r =>
    if (r.place.isNone && r.needsPage) || (s.die die).sameLineBefore idx r then .next s
    else .next (s.serveRemote die idx r)

/-! ## Replies (R304, R305, R311, R337) -/

/-- Ticks after which a request completes with TIMEOUT. -/
def requestTimeout : Nat := 50000

/-- Change the request with a number. -/
def State.modReq (s : State) (reqid : Nat) (f : Request → Request) : State :=
  s.setDev { s.dev with requests := s.dev.requests.map fun (q : Request) => if q.reqid = reqid then f q else q }

/-- Bytes of a get that came back, at their offset in the part; the last packet of an answer has the bytes at its end. -/
def Request.addData (r : Request) (off : Nat) (bs : List Byte) : Request := { r with data := r.data ++ [(off, bs)] }

/-- Ticks between the wakes of the loop of R337. -/
def queryPeriod : Nat := 4000

/-- When a request completes with TIMEOUT: after 50 µs (R304); a CFAA lane at the first wake of its loop after them (R337). -/
def Request.limit (r : Request) : Nat :=
  let t := r.left + requestTimeout
  if r.kind = .cfaa then r.lastAsk + queryPeriod * ((t - r.lastAsk + queryPeriod - 1) / queryPeriod) else t

/-- The time of a request has passed (R304, R337). -/
def State.overdue (s : State) (r : Request) : Bool :=
  r.bulk != some .mcput && s.hasLeft r && decide (r.limit ≤ s.gtcAt (dieOf r.core))

/-- A reply or acknowledgement completes its requests, behind the guard of its core's tile (R440); what comes after the end is discarded, and
what comes after the time of R304 completes them with TIMEOUT. A get is complete once all its bytes have come. An empty reply to a query says
NOT_SEEN. -/
def State.takeReply (s : State) (p : Packet) : State :=
  match s.dev.requests.find? fun r => r.reqid == p.reqid && r.done.isNone with
  | none => s
  | some r =>
    if s.tileShut p.key r.core then s.dropAtTile r.core p
    else if s.overdue r then (s.packetReqs r.reqid).foldl (fun s n => s.failReq n stTimeout 0) s
    else
      match p.body with
      | .part off bs => if r.bulk = some .rget then s.modReq r.reqid fun q => q.addData off bs else s
      | .reply st ca data =>
        if r.bulk = some .rget then
          let bs := data.flatMap fun w => natLe 4 w.toNat
          let q := if st = 0 then r.addData (r.size - bs.length) bs else r
          let s := s.modReq r.reqid fun _ => q
          if st = 0 ∧ q.front.length < r.size then s else s.finishReq r.reqid st ca 0
        else if r.kind = .cfaa ∧ st = 0 ∧ data.isEmpty then s
        else s.closeReq r.reqid st ca (w64 (wordsVal data))
      | .ack st ca offset =>
        if r.bulk.isSome then (s.modReq r.reqid fun q => { q with written := offset }).finishReq r.reqid st ca 0
        else (s.packetReqs r.reqid).foldl (fun s n => s.closeReq n st ca 0) s
      | _ => s

/-- REMOTE_REPLY: a reply that a port accepted is taken, in the order in which they came. -/
def execRemoteReply (pkt : Packet) (s : State) : Out :=
  match s.dev.arrived.find? fun e => e.2 == pkt || sameRoute e.2 pkt && e.2.reqid == pkt.reqid with
  | some e =>
    if e.2 != pkt then .next s
    else
      match pkt.body with
      | .reply _ _ _ | .part _ _ | .ack _ _ _ => .next ((s.setDev { s.dev with arrived := s.dev.arrived.erase e }).takeReply pkt)
      | _ => .next s
  | none => .next s

/-- REMOTE_TIMEOUT: no reply within 50 µs of the request leaving its core. -/
def execRemoteTimeout (reqid : Nat) (s : State) : Out :=
  match s.dev.requests.find? fun r => r.reqid == reqid with
  | none => .next s
  | some r =>
    .next (if s.overdue r then s.failReq reqid stTimeout 0 else s)

/-- WRITE_COMBINE_DRAIN: an entry has waited 256 ticks (R311). -/
def execWriteCombineDrain (core idx : Nat) (s : State) : Out :=
  match (s.core core).wcb[idx]? with
  | none => .next s
  | some e => .next (if e.since + 256 ≤ s.gtcAt (dieOf core) then s.drainWc core idx else s)

/-! ## Spans (R313 to R317) -/

/-- The span ends at a pier adder of another span. -/
def State.injected (s : State) (x : Span) : Bool :=
  s.spans.any fun y => y.region == x.region && y.adders.any fun a => a.2 == x.handle

/-- Add a word to the stream with a number. -/
def addAt (l : List (List Word)) (i : Nat) (w : Word) : List (List Word) :=
  (List.range (max l.length (i + 1))).map fun j => let ws := (l[j]?).getD []; if j = i then ws ++ [w] else ws

/-- Words go to the adder with a number, or past the last one to the consumer's landing buffer; those of an injected span wait there for
the adder at its end (R316). -/
def State.spanForward (s : State) (i adder : Nat) (w : Word) : State :=
  match s.spans[i]? with
  | none => s
  | some x =>
    if adder < x.adders.length ∨ s.injected x then s.setSpan i { x with atAdder := addAt x.atAdder adder w }
    else
      s.modCore x.consumer fun c => let y := c.landingOf i; c.setLanding { y with words := y.words ++ [w] }

/-- SPAN_WORD_ARRIVAL: the next word in flight arrives. -/
def execSpanWordArrival (span : Nat) (s : State) : Out :=
  match s.spans[span]? with
  | none => .next s
  | some x =>
    match x.flight with
    | [] => .next s
    | w :: ws =>
      if x.broken then .next s
      else .next ((s.setSpan span { x with flight := ws }).spanForward span 0 w)

/-- The CPYSP.IN that takes words from a span's landing buffer now: the first in the queue that is not done. -/
def Core.spanTaker (c : Core) (handle : Nat) : Option CopyCmd :=
  (c.courier.filter fun k => k.form == .spin && k.span == handle)[0]?

/-- SPAN_CREDIT_RETURN: CPYSP.IN takes up to 128 bytes, and credits return. -/
def execSpanCreditReturn (span : Nat) (s : State) : Out :=
  match s.spans[span]? with
  | none => .next s
  | some x =>
    match (s.core x.consumer).spanTaker x.handle with
    | none => .next s
    | some k =>
      let y := (s.core x.consumer).landingOf span
      let n := min (min y.words.length 32) ((k.len - k.moved) / 4)
      if !k.running || k.again || n = 0 then .next s
      else
        let ws := y.words.take n
        match landBytes s x.consumer k (k.off + k.moved) ws with
        | none => .next s
        | some s =>
          let s := s.modCore x.consumer fun c =>
            let y := c.landingOf span
            (c.setLanding { y with words := y.words.drop n, saved := if y.owner = k.num then y.saved ++ ws else y.saved }).setCopy
              { k with moved := k.moved + 4 * n }
          .next ((s.setSpan span (x.take (4 * n))).releaseSlots x.producer)

/-- R316: the sum of two words in a format: F32, BF16 halves, S32, RN32; rounded to nearest even, with no flag. -/
def pierSum (fmt : Nat) (a b : Word) : Word :=
  match fmt with
  | 0 => w32 (fadd fF32 .ne false (fF32.val a.toNat) (fF32.val b.toNat)).bits
  | 1 =>
    let half (i : Nat) : Nat := (fadd fBF16 .ne false (fBF16.val (field a.toNat (16 * i) 16)) (fBF16.val (field b.toNat (16 * i) 16))).bits
    w32 (half 0 + 2 ^ 16 * half 1)
  | 2 => a + b
  | _ => w32 (rnZip (· + ·) (rnRead a.toNat) (rnRead b.toNat)).word

/-- PIER_ADDER_SUM: word n of both streams is present. -/
def execPierAdderSum (span adder : Nat) (s : State) : Out :=
  match s.spans[span]? with
  | none => .next s
  | some x =>
    match x.adders[adder]?, (x.atAdder[adder]?).getD [] with
    | some (fmt, other), w :: ws =>
      match s.spanIx x.region other with
      | none => .next s
      | some j =>
        match s.spans[j]? with
        | none => .next s
        | some y =>
          match (y.atAdder[y.adders.length]?).getD [] with
          | [] => .next s
          | v :: vs =>
            if x.broken || y.broken then .next s
            else
              let s := s.setSpan j ({ y with atAdder := y.atAdder.set y.adders.length vs }.take 4)
              let s := s.setSpan span { x with atAdder := x.atAdder.set adder ws }
              .next ((s.spanForward span (adder + 1) (pierSum fmt w v)).releaseSlots y.producer)
    | _, _ => .next s

/-- SRC of a failed link: its port, or the tile that a packet enters through the die edge (R380, R440). -/
def linkSrc (link : Nat) : Nat :=
  if link < 36 then srcPort link else 2 * 2 ^ 14 + dieOf ((link - 36) / 2) * 4096 + (link - 36) / 2 % 256
def linkDie (link : Nat) : Nat := if link < 36 then link / 9 else dieOf ((link - 36) / 2)

/-- A span breaks: its words are lost, and its region hears of it (R317). -/
def State.breakSpan (s : State) (link i : Nat) : State :=
  match s.spans[i]? with
  | none => s
  | some x =>
    if x.broken || !x.links.contains link || x.region == 0 then s
    else
      let s := s.setSpan i { x with broken := true, flight := [], waiting := [], atAdder := x.atAdder.map fun _ => [] }
      let s := s.releaseSlots x.producer
      match s.region? x.region with
      | some r =>
        (s.raiseFor (some r) r.asid (linkSrc link) (s.gtcAt (linkDie link)) .spanBroken false false (tailOf [(6, x.handle)]) none false).2
      | none => s

/-! ## Links (R294, R304) -/

/-- LINK_FAILURE: link n of the device (36 and above: a die-edge port) fails. Requests that left through it are UNREACHABLE, what is still
on it is lost, and the spans it carries break. -/
def execLinkFailure (link : Nat) (s : State) : Out :=
  let on (p : Packet) : Bool := p.srcDev == s.dev.devNum && s.portTo p.srcCore p.dstDev == some link
  let lost := s.dev.requests.filter fun r => s.hasLeft r && s.portTo r.core r.pkt.dstDev == some link
  let s := lost.foldl (fun s r => s.failReq r.reqid stUnreachable 0) s
  let s := { s with wire := s.wire.filter fun p => !on p }
  let s := s.setDev { s.dev with trihorn := s.dev.trihorn &&& ~~~(BitVec.ofNat 36 (2 ^ link)) }
  .next ((List.range s.spans.length).foldl (fun s i => s.breakSpan link i) s)

/-! ## Heartbeats, deaths and incarnations (R296, R397, R398) -/

/-- Ticks between heartbeats, and without one until a device is declared dead. -/
def heartbeatPeriod : Nat := 1000
def heartbeatLimit : Nat := 50000

/-- HEARTBEAT: a device's heartbeat reaches a leaf switch. -/
def execHeartbeat (sw dev : Nat) (s : State) : Out :=
  .next (s.modSwitch sw fun x => { x with heard := x.heard.ins dev s.gtc })

/-- HEARTBEAT_TIMEOUT: a leaf switch has heard none for 50 µs; every switch of the domain learns of the death. -/
def execHeartbeatTimeout (sw dev : Nat) (s : State) : Out :=
  let x := s.switch sw
  match x.heard.at? dev with
  | none => .next s
  | some t =>
    if s.gtc < t + heartbeatLimit ∨ x.dead.contains dev then .next s
    else
      let kill (y : Switch) : Switch := if y.dead.contains dev then y else { y with dead := y.dead ++ [dev] }
      .next { s with switches := s.switches.map kill }

/-- A record to every armed region. -/
def State.toRegions (s : State) (src die : Nat) (cls : Cls) (tail : List DWord) : State :=
  s.dev.regions.foldl (fun s r => (s.raiseFor (s.region? r.num) r.asid src (s.gtcAt die) cls false false tail none false).2) s

/-- R397: the pool marks poisoned the lines that a dead device held in state A; which they were is its affair (a free choice). -/
def State.scrub (s : State) (dev : Nat) : State :=
  let (n, s) := s.fresh
  let ls := (Config.deadLines dev n).filter fun ln => lineZone ln == .pool && s.poolState.atD ln .i == .i
  { s with poisoned := dedup (s.poisoned ++ ls) }

/-- DEATH_NOTICE. -/
def execDeathNotice (dev : Nat) (s : State) : Out :=
  if dev = s.dev.devNum then .next s
  else
    let inc := s.dev.incOf.atD dev 0 + 1
    let s := s.setDev { s.dev with incOf := s.dev.incOf.put 0 dev inc }
    let out := s.dev.requests.filter fun r => (s.hasLeft r || r.held) && r.dev == dev && r.bulk != some .mcput
    let s := out.foldl (fun s r => s.failReq r.reqid stUnreachable 0) s
    .next ((s.toRegions (srcSteward 0) 0 .deviceDead (tailOf [(6, dev * 2 ^ 16 + inc.toNat)])).scrub dev)

/-- DECLARED_DEAD: the lines held in state A are poisoned, every region ends without pool write-back, and then the device takes its new
incarnation; it rejoins only through a new bring-up (R398). In RECOVERY it stays there (R430). -/
def execDeclaredDead (inc : Byte) (s : State) : Out :=
  if s.dev.stage = .recovery then .next s
  else
    let held := (s.poolState.filter fun e => e.2 == .a).map Prod.fst
    .next ({ s with poisoned := dedup (s.poisoned ++ held) }.restartAs inc)

/-- INCARNATION_EXCHANGE: at LINKS the device learns its own incarnation and every peer's; later, those of devices that join. -/
def execIncarnationExchange (own : Byte) (peers : List (Nat × Byte)) (s : State) : Out :=
  let put (m : NMap Byte) : NMap Byte := peers.foldl (fun m e => m.put 0 e.1 e.2) m
  match s.dev.stage with
  | .links => .next (s.setDev { s.dev with inc := own, incOf := put [], incExchanged := true })
  | .ready => .next (s.setDev { s.dev with incOf := put s.dev.incOf })
  | _ => .next s

/-- MEMBERSHIP_TABLE_PROGRAM: the fabric manager programs a port's 256 keys. -/
def execMembershipTableProgram (place : Place) (keys : List (BitVec 16)) (s : State) : Out :=
  let ks := keys.take 256
  match place with
  | .devPort port => .next (s.setDev { s.dev with portKeys := s.dev.portKeys.put [] port ks })
  | .swPort sw port => .next (s.modSwitch sw fun x => { x with portKeys := x.portKeys.put [] port ks })
  | .guardOf _ _ => .next s

/-! ## Pool links (R118, R396) -/

/-- A request at a slice for a line of a lost region ends as its line's failure says. -/
def State.failQueued (s : State) (q : SliceReq) : State :=
  match q with
  | .load ci ln num ver _ _ _ _ _ =>
    if ver.isSome then s.faultUses ci ln .poolRegion else if num = 0 then s else s.faultLoad ci ln num .poolRegion
  | .fetch ci ln num _ _ => s.faultLoad ci ln num .poolRegion
  | .update commit ci l => s.failUpdate ci commit l .poolRegion
  | .turn _ _ _ | .agent _ _ | .permit _ _ => s

/-- A renewal waits whose block can still fault at an earlier word; its own event ends it (R100). -/
def State.staysQueued (s : State) (q : SliceReq) : Bool :=
  match q with
  | .load ci ln _ ver _ _ _ _ _ => ver.isSome && (s.core ci).useWaits ln
  | _ => false

/-- Lines of lost regions leave the slices, with what waited for them (R118). -/
def State.dropLost (s : State) (k : Nat) : State :=
  let out (ln : Nat) : Bool := s.lostPA (ln * 128)
  let goes (q : SliceEnt) : Bool := out q.req.line && !s.staysQueued q.req
  let gone := (s.slice k).queue.filter goes
  let x := ((s.slice k).lines.filter fun l => out l.line).foldl (fun (x : Slice) l => x.unlist (s.gtcAt (k / 256)) l.line) (s.slice k)
  let persist := x.persist.filter fun p => !out p.line
  let s1 := s.setSlice k { x with
    queue := x.queue.filter fun q => !goes q
    asks := x.asks.filter fun a => !out a.line
    persist := persist
    turn := if persist.isEmpty then none else x.turn }
  gone.foldl (fun s q => s.failQueued q.req) s1

/-- POOL_LINK_FAILURE: the regions of the die's link are lost on every die; their lines are discarded, and each armed region gets a
record. -/
def execPoolLinkFailure (die : Nat) (s : State) : Out :=
  let new := (List.range s.dev.poolRegions).filter fun r => r % 4 == die % 4 && !s.dev.lost.contains r
  let s := s.setDev { s.dev with lost := sortBy (· ≤ ·) (s.dev.lost ++ new),
                                 onolo := s.dev.onolo &&& ~~~(BitVec.ofNat 4 (2 ^ (die % 4))) }
  let back := s.stale.filter fun x => s.lostPA (x.1 * 128)
  let s := back.foldl (fun s x => s.pokeBytes (x.1 * 128) x.2) s
  let keep (c : Core) : Core := { c with l1 := c.l1.filter fun l => !s.lostPA (l.line * 128) }
  let s := { s with stale := s.stale.filter fun x => !s.lostPA (x.1 * 128),
                    poolState := s.poolState.filter fun e => !s.lostPA (e.1 * 128),
                    recalls := s.recalls.filter fun r => !s.lostPA (r.line * 128),
                    cores := s.cores.map fun (e : Nat × Core) => (e.1, keep e.2) }
  let s := s.slices.keyList.foldl (fun s k => s.dropLost k) s
  .next (s.toRegions (srcSteward (die % 4)) (die % 4) .poolLink (tailOf [(6, die % 4 * 2 ^ 32 + new.length)]))

/-- POOL_LINK_RETRAIN: the link is trained again; its regions stay lost until they are cleared. -/
def execPoolLinkRetrain (die : Nat) (s : State) : Out :=
  .next (s.setDev { s.dev with onolo := s.dev.onolo ||| BitVec.ofNat 4 (2 ^ (die % 4)) })

end Sys2Proof.Machine
end

