-- ==== Sys2Proof/Machine/EvCombine.lean ====
section
/-! DEFINITION. Combining fetch-and-add at the switches (R333 to R335), and the reply log (R337). -/

namespace Sys2Proof.Machine

/-! ## Requests and windows (R333) -/

/-- The constituents of a combining request, and its width. -/
def consOf (p : Packet) : List Constituent :=
  match p.body with
  | .combine _ cons => cons
  | _ => []
def wideOf (p : Packet) : Bool :=
  match p.body with
  | .combine w _ => w
  | _ => false

/-- Two requests that may combine. -/
def sameAdd (p q : Packet) : Bool :=
  p.dstDev == q.dstDev && p.tasid == q.tasid && p.tva == q.tva && wideOf p == wideOf q && p.key == q.key

/-- The sum of addends, and whether a reply is expected. -/
def addendOf (cons : List Constituent) : DWord := (cons.map fun c => c.addend).foldl (· + ·) 0
def expects (cons : List Constituent) : Bool := cons.any fun c => c.reply

def Waiting.packets (w : Waiting) : List Packet := w.inputs.map fun i => i.2.2
def Waiting.cons (w : Waiting) : List Constituent := w.packets.flatMap consOf
def Waiting.oldest (w : Waiting) : Nat := ((minBy? (fun i => i.2.1) w.inputs).map fun i => i.2.1).getD 0

/-- A waiting request takes a decombining record: it is a merge with a CFAA in it (R334). -/
def Waiting.needsRecord (w : Waiting) : Bool := decide (2 ≤ w.inputs.length) && expects w.cons

/-- Records of the table, and what one request may hold. -/
def recordTable : Nat := 8192
def maxInputs : Nat := 8
def maxCons : Nat := 64

def Switch.recordsUsed (x : Switch) : Nat := x.records.length + (x.waiting.filter fun w => w.needsRecord).length

/-- Inputs by arrival, then by port (R335). -/
def Waiting.join (w : Waiting) (i : Nat × Nat × Packet) : Waiting :=
  { w with inputs := insertBy (fun a b => a.2.1 < b.2.1 || (a.2.1 == b.2.1 && a.1 < b.1)) i w.inputs }

/-- A waiting request goes on: alone as it is, or as one request under a number of the switch, with its record. -/
def Switch.goOn (x : Switch) (w : Waiting) : Switch :=
  match w.packets with
  | [] => x
  | [p] => { x with out := x.out ++ [p] }
  | p :: _ =>
    let n := 65536 * (x.num + 1) + x.nextReq
    let q := { p with reqid := n, srcCore := 0x3FF, body := PktBody.combine (wideOf p) w.cons }
    let r : DecRec := { reqid := n, wide := wideOf p, inputs := w.inputs.map fun i => (i.1, i.2.2, addendOf (consOf i.2.2), expects (consOf i.2.2)) }
    { x with out := x.out ++ [q], nextReq := (x.nextReq + 1) % 65536, records := if w.needsRecord then x.records ++ [r] else x.records }

/-- A request that is full goes on at once. -/
def Waiting.full (w : Waiting) : Bool := decide (maxInputs ≤ w.inputs.length ∨ maxCons ≤ w.cons.length)

/-- The waiting request that a newcomer may join. -/
def Switch.partner (x : Switch) (now : Nat) (p : Packet) : Option Nat :=
  x.waiting.findIdx? fun w => (w.packets.any fun q => sameAdd p q) && decide (now ≤ w.oldest + x.cwin.toNat) &&
    decide (w.inputs.length < maxInputs) && decide (w.cons.length + (consOf p).length ≤ maxCons)

/-- A combining request that a port accepted and that comes next: inputs stand by the switch cycle of their arrival, then by port, and those
of one port in the order in which they came (R335). -/
def Switch.nextAdd (x : Switch) (port : Nat) (pkt : Packet) : Option (Nat × Nat × Packet) :=
  let adds := x.arrived.filter fun e => match e.2.2.body with
    | .combine _ _ => sameAdd e.2.2 pkt
    | _ => false
  ((sortBy (fun a b => a.2.1 < b.2.1 || (a.2.1 == b.2.1 && a.1 ≤ b.1)) adds)[0]?).filter fun e => e.1 == port && e.2.2 == pkt

/-- COMBINING_MERGE: a combining request that the port accepted is merged, or waits, or goes on. Its window runs from the cycle of its
arrival (R333). -/
def execCombiningMerge (sw port : Nat) (pkt : Packet) (s : State) : Out :=
  let x := s.switch sw
  match x.nextAdd port pkt, pkt.body with
  | some e, .combine _ _ =>
    let x := { x with arrived := x.arrived.erase e }
    if !x.cen then .next (s.setSwitch { x with out := x.out ++ [pkt] })
    else
      match x.partner e.2.1 pkt with
      | none =>
        let w : Waiting := { inputs := [e] }
        .next (s.setSwitch (if w.full then x.goOn w else { x with waiting := x.waiting ++ [w] }))
      | some i =>
        match x.waiting[i]? with
        | none => .next s
        | some w =>
          let v := w.join e
          if v.needsRecord && !w.needsRecord && decide (recordTable ≤ x.recordsUsed) then
            .next (s.setSwitch { x with ovf := x.ovf + 1, out := x.out ++ [pkt] })
          else
            let x := { x with merged := x.merged + 1 }
            .next (s.setSwitch (if v.full then { x with waiting := x.waiting.eraseIdx i }.goOn v
              else { x with waiting := x.waiting.set i v }))
  | _, _ => .next s

/-- COMBINING_WINDOW_EXPIRY: the window of the oldest input has passed. -/
def execCombiningWindowExpiry (sw idx : Nat) (s : State) : Out :=
  let x := s.switch sw
  match x.waiting[idx]? with
  | none => .next s
  | some w =>
    .next (if s.gtc < w.oldest + x.cwin.toNat then s else s.setSwitch ({ x with waiting := x.waiting.eraseIdx idx }.goOn w))

/-! ## Replies and records (R334) -/

/-- The replies to a record's inputs: the value before each. -/
def splitReply (p : Packet) (st ca : Byte) (v : Nat) (wide : Bool) : List (Nat × Packet × DWord × Bool) → List Packet
  | [] => []
  | (_, q, add, wants) :: rest =>
    let n := if wide then 2 else 1
    let mine : Packet := { p with dstDev := q.srcDev, reqid := q.reqid, body := .reply st ca (if st = 0 then dataWords n v else []) }
    (if wants then [mine] else []) ++ splitReply p st ca ((v + add.toNat) % 2 ^ (32 * n)) wide rest

/-- DECOMBINE_REPLY: the reply to a combined request is split, or discarded without its record. -/
def execDecombineReply (sw : Nat) (pkt : Packet) (s : State) : Out :=
  let x := s.switch sw
  match x.arrived.find? fun e => e.2.2 == pkt, pkt.body with
  | some e, .reply st ca data =>
    let x := { x with arrived := x.arrived.erase e }
    match x.records.find? fun r => r.reqid == pkt.reqid with
    | none => .next (s.setSwitch { x with lostc := x.lostc + 1 })
    | some r =>
      .next (s.setSwitch { x with records := x.records.erase r,
                                  out := x.out ++ splitReply pkt st ca (wordsVal data) r.wide r.inputs })
  | _, _ => .next s

/-- RECORD_ERROR: a record is discarded. -/
def execRecordError (sw idx : Nat) (s : State) : Out :=
  let x := s.switch sw
  .next (if idx < x.records.length then s.setSwitch { x with records := x.records.eraseIdx idx, lostc := x.lostc + 1 } else s)

/-- SWITCH_RESET: waiting requests go on uncombined, then every record is discarded. -/
def execSwitchReset (sw : Nat) (s : State) : Out :=
  .next (s.modSwitch sw fun x => { x with out := x.out ++ x.waiting.flatMap fun w => w.packets, waiting := [], records := [] })

/-- COMBINING_CONTROL_PROGRAM. -/
def execCombiningControlProgram (sw : Nat) (cen : Bool) (cwin : BitVec 10) (s : State) : Out :=
  .next (s.modSwitch sw fun x => { x with cen := cen, cwin := cwin })

/-! ## The reply log (R337) -/

/-- Ticks between queries, and an entry's least stay in the log. -/
def logStay : Nat := 64000

/-- CFAA_QUERY: a lane without a reply asks the owner's log, or is at its end. -/
def execCfaaQuery (reqid : Nat) (s : State) : Out :=
  match s.dev.requests.find? fun r => r.reqid == reqid && r.done.isNone with
  | none => .next s
  | some r =>
    let now := s.gtcAt (dieOf r.core)
    if r.kind != .cfaa || decide (now < r.lastAsk + queryPeriod) then .next s
    else if r.left + requestTimeout ≤ now then .next (s.failReq reqid stTimeout 0)
    else
      let ask (q : Request) : Request := if q.reqid = reqid then { q with lastAsk := now } else q
      let s := s.setDev { s.dev with requests := s.dev.requests.map ask }
      match s.sendPacket r.core (s.core r.core).cfg.asid { r.pkt with body := .query reqid } with
      | (_, s) => .next s

/-- The die whose owner slice performs an add, as its query finds it. -/
def State.ownerDie (s : State) (die : Nat) (p : Packet) : Option Nat :=
  match s.ingressNow die p.tasid p.tva true with
  | .ok (pa, _) => some (fetchSlice s die (lineOf pa) / 256)
  | .error _ => none

/-- REPLY_LOG_QUERY: APPLIED when the owner's die has the constituent in its log, else NOT_SEEN, which is an empty reply. -/
def execReplyLogQuery (die : Nat) (pkt : Packet) (s : State) : Out :=
  match s.dev.arrived.find? fun e => e.2 == pkt, pkt.body with
  | some e, .query n =>
    let right := match s.ownerDie (e.1 / 9) pkt with
      | some d => d == die
      | none => true
    if !right then .next s
    else
      let s := s.setDev { s.dev with arrived := s.dev.arrived.erase e }
      let seen := (s.die die).replyLog.any fun y => y.1 == pkt.srcDev && y.2.1 == pkt.inc && y.2.2.1 == n
      .next (s.emit (s.ownPacket pkt.key pkt.srcDev n (.reply (if seen then BitVec.ofNat 8 stValueLost else 0) 0 [])))
  | _, _ => .next s

/-- REPLY_LOG_AGING: entries of 64 µs and more leave the log. -/
def execReplyLogAging (die : Nat) (s : State) : Out :=
  let d := s.die die
  .next (s.setDie die { d with replyLog := d.replyLog.filter fun y => decide (s.gtcAt die < y.2.2.2 + logStay) })

end Sys2Proof.Machine
end

