-- ==== Sys2Proof/Machine/Idle.lean ====
section
/-! DEFINITION. When a core is idle and a region quiescent (R360). -/

namespace Sys2Proof.Machine

/-- The core's barrier hold: tokens and arrivals that wait for a generation (R292). -/
def Core.barrierHold (c : Core) : Bool := (c.outbox.any fun o => !o.bars.isEmpty) || !c.barArrivals.isEmpty

/-- What keeps a core from being idle in every case: groups, queues, requests, copies, spills, and accepted tokens that are not counted. -/
def State.coreQuiet (s : State) (ci : Nat) : Bool :=
  let c := s.core ci
  c.groups.isEmpty && (c.outbox.all fun o => !o.bars.isEmpty) && c.courier.isEmpty && c.matq.isEmpty && c.wcb.isEmpty &&
    (c.commits.all fun r => r.done) && c.atomRets.isEmpty && (c.inbox.all fun t => t.counted) && c.spillHeld.isEmpty &&
    (c.spilled.all fun r => r.landed && !r.toCore) && !(s.dev.requests.any fun q => q.core == ci) &&
    !(s.dev.bundles.any fun b => b.core == ci) &&
    !(s.dev.clolas.any fun j => match j with
      | .sigchk k _ _ _ _ _ _ _ => k == ci
      | .keyset k _ _ _ _ _ => k == ci) &&
    !s.dev.preempts.any fun j => j.core == ci

/-- No complete instance, parked collection, held overlay token or waiting source. -/
def Core.nothingDue (c : Core) : Bool :=
  !(c.entries.any fun e => e.2.phase == .complete) && c.park.isEmpty && c.parkOver.isEmpty && c.overlay.isEmpty && c.sources.isEmpty

/-- R360: the core is idle. In a region that ends or is saved, instances, parked collections and holds do not count (R391, R392). -/
def State.coreIdle (s : State) (ending : Bool) (ci : Nat) : Bool :=
  s.coreQuiet ci && (ending || (s.core ci).nothingDue)

/-- The totals of sent and received tokens of a region's cores. -/
def State.tokenTotals (s : State) (r : Region) : Nat × Nat :=
  r.cores.foldl (fun t ci => (t.1 + (s.core ci).sent, t.2 + (s.core ci).received)) (0, 0)

/-- The region is quiescent: the tree has reported it so, every core is idle, and no count has changed since (R360). -/
def State.quietNow (s : State) (r : Region) : Bool :=
  let t := s.tokenTotals r
  r.quiescent && (r.sweep.map fun w => w.totals) == some t && t.1 == t.2 &&
    r.cores.all fun ci => s.coreIdle r.ending.isSome ci && (r.ending.isSome || !(s.core ci).barrierHold)

end Sys2Proof.Machine
end

