-- ==== Sys2Proof/Machine/EvConfig.lean ====
section
/-! DEFINITION. The configuration stream of a tile (R349 to R353, R425): commands, the shadow, the acknowledgement word, and ARM.
Each event takes the command at the head of the tile's receiver, when it is one of its kind. -/

namespace Sys2Proof.Machine

/-! ## Commands -/

/-- The control element (R350). -/
def cfgControl : Nat := 0x0FF

/-- ELEMENT, FIELD and VALUE of a command (R349). -/
def cmdEl (w : Word) : Nat := field w.toNat 22 10
def cmdFld (w : Word) : Nat := field w.toNat 16 6
def cmdVal (w : Word) : Nat := field w.toNat 0 16

/-- What a command is: BEGIN, the second CRC piece, COMMIT, ROLLBACK or ARM, or any other field write. -/
inductive CmdKind where
  | begin_ | crcLast | commit | rollback | arm | fieldWrite
  deriving DecidableEq, Repr

def cmdKind (w : Word) : CmdKind :=
  if cmdEl w = cfgControl then
    match cmdFld w with
    | 0 => .begin_
    | 2 => .crcLast
    | 8 => .commit
    | 9 => .rollback
    | 10 => .arm
    | _ => .fieldWrite
  else .fieldWrite

/-- Where a field of an element begins and how many pieces it has (R350); none for a field that is not listed. -/
def cfgField (el fld : Nat) : Option (Nat × Nat) :=
  if el < 0x80 then
    if fld < 4 then some (0, 4) else if fld < 10 then some (fld, 1) else if fld < 12 then some (10, 2) else none
  else if el = 0x80 then
    if fld < 6 then some (fld, 1) else if fld < 10 then some (6, 4) else if fld < 12 then some (10, 2)
    else if fld < 15 then some (fld, 1) else if 16 ≤ fld ∧ fld < 20 then some (16, 4) else none
  else if el = 0x81 then (if fld < 2 then some (fld, 1) else none)
  else if el = cfgControl then (if 4 ≤ fld ∧ fld < 8 then some (4, 4) else none)
  else if 0x100 ≤ el then (if fld = 0 then some (0, 1) else none)
  else none

/-- R150: the limits of a partition. -/
def partOk (v : Nat) : Bool :=
  let f := field v 0 4
  let w := field v 4 4
  let a := field v 8 4
  let c := field v 12 4
  1 ≤ f && f ≤ 8 && 4 ≤ w && w ≤ 12 && 2 ≤ a && a ≤ 8 && 2 ≤ c && c ≤ 8 && f + w + a + c ≤ 24

/-- A tile of the package that is not withheld. -/
def State.tileEnabled (s : State) (ci : Nat) : Bool := ci < 1024 && tileY ci < 12 && !s.dev.withheld.contains ci

/-- The tile that a VALID route entry of a tile names, when it lies on the die and is enabled. -/
def State.routeTarget (s : State) (tile v : Nat) : Option Nat :=
  let y := (tileY tile : Int) + sextN (field v 8 5) 5
  let x := (tileX tile : Int) + sextN (field v 0 5) 5
  if 0 ≤ y ∧ y < 12 ∧ 0 ≤ x ∧ x < 16 then
    let ci := tileAt (field v 13 2) y.toNat x.toNat
    if s.tileEnabled ci then some ci else none
  else none

/-- Whether a piece's value lies in the range of its field (R350). -/
def State.pieceOk (s : State) (tile el fld v : Nat) : Bool :=
  if el < 0x80 then
    match fld with
    | 3 => v < 16
    | 4 => v ≤ 0xFFF
    | 6 => v ≤ 3
    | 7 => v < 768
    | 8 => 1 ≤ v
    | 9 => v < 32
    | _ => true
  else if el = 0x80 then
    match fld with
    | 0 => partOk v
    | 2 => v != 0
    | 3 => v < 16
    | 4 => v < 768
    | 5 => 1 ≤ v && v ≤ 768
    | 9 => v < 256
    | 14 => v ≤ 0xFFF
    | 19 => v < 16
    | _ => true
  else if el = cfgControl then
    match fld with
    | 4 => v % 8 == 0
    | 7 => v < 16
    | _ => true
  else if 0x100 ≤ el then field v 5 3 == 0 && (v / 2 ^ 15 == 0 || (s.routeTarget tile v).isSome)
  else true

/-! ## The shadow -/

/-- Write a whole field of the configuration. -/
def CoreCfg.set (c : CoreCfg) (el base v : Nat) : CoreCfg :=
  if el < 0x80 then
    let b := c.slots.atD el BlockSlot.unbound
    let b := match base with
      | 0 => { b with recPA := v }
      | 4 => { b with bid := v }
      | 5 => { b with timer := v }
      | 6 => { b with prio := v }
      | 7 => { b with pfirst := v }
      | 8 => { b with pcount := v }
      | 9 => { b with hs := v }
      | 10 => { b with eosx := v }
      | _ => b
    { c with slots := c.slots.put BlockSlot.unbound el b }
  else if el = 0x80 then
    match base with
    | 0 => { c with part := v }
    | 1 => { c with asid := v }
    | 2 => { c with key := v }
    | 3 => { c with tenant := v }
    | 4 => { c with core := v }
    | 5 => { c with ncores := v }
    | 6 => { c with prVA := v }
    | 10 => { c with prSize := v }
    | 12 => { c with clus := v }
    | 13 => { c with clpos := v }
    | 14 => { c with ovl := v }
    | 16 => { c with bdirPA := v }
    | _ => c
  else if el = 0x81 then (if base = 0 then { c with rlCount := v } else { c with rlWindow := v })
  else { c with routes := c.routes.put 0 (el - 0x100) v }

/-- The value of a field as the configuration holds it. -/
def CoreCfg.get (c : CoreCfg) (el base : Nat) : Nat :=
  if el < 0x80 then
    let b := c.slots.atD el BlockSlot.unbound
    if base = 0 then b.recPA else if base = 10 then b.eosx else 0
  else if el = 0x80 then
    if base = 6 then c.prVA else if base = 10 then c.prSize else if base = 16 then c.bdirPA else 0
  else 0

/-- The pieces of a field put together; a piece that the stream has not written keeps the old value's bits. -/
def joinPieces (p : NMap Nat) (el base n old : Nat) : Nat :=
  (List.range n).foldl (fun v i =>
    match p.at? (el * 64 + base + i) with
    | some x => setField v (16 * i) 16 (x % 65536)
    | none => v) old

/-- The count of the command that wrote a field last, 0 when none did. -/
def CfgStream.orderOf (t : CfgStream) (el fld : Nat) : Nat := t.pieces.atD (el * 64 + fld) 0 / 65536

/-- A bad command of the stream; the first stands. -/
def CfgStream.noteBad (t : CfgStream) (el fld : Nat) : CfgStream :=
  match t.bad with
  | some _ => t
  | .none => { t with bad := some (t.count, el, fld) }

/-- The CRC over a command, before the first CRC piece (R351). -/
def CfgStream.sum (t : CfgStream) (w : Word) : CfgStream :=
  if t.crcLow.isSome then t else { t with crc := crcBytes t.crc (natLe 4 w.toNat) }

/-- A command of the stream other than its CRC pieces counts. -/
def CfgStream.received (t : CfgStream) (w : Word) : CfgStream := { t.sum w with count := t.count + 1 }

/-- BEGIN starts a stream with a fresh shadow (R351). -/
def CfgStream.start (t : CfgStream) (live : CoreCfg) (w : Word) : CfgStream :=
  { t with state := .open_, shadow := some live, pieces := [], seq := cmdVal w, count := 0,
           crc := crcBytes 0xFFFFFFFF (natLe 4 w.toNat), crcLow := .none, bad := .none }

/-- A field write of the stream (R349, R350). ACKPA is the receiver's own. -/
def CfgStream.write (s : State) (tile : Nat) (live : CoreCfg) (t : CfgStream) (w : Word) : CfgStream :=
  let el := cmdEl w
  let fld := cmdFld w
  let v := cmdVal w
  if el = cfgControl ∧ fld = 1 then { t with crcLow := some v }
  else
    let t := t.received w
    match cfgField el fld with
    | .none => t.noteBad el fld
    | some (base, n) =>
      if !s.pieceOk tile el fld v then t.noteBad el fld
      else
        let t := { t with pieces := t.pieces.ins (el * 64 + fld) (t.count * 65536 + v) }
        if fld + 1 ≠ base + n then t
        else if el = cfgControl then { t with ackPA := joinPieces t.pieces el base n t.ackPA }
        else
          let sh := t.shadow.getD live
          { t with shadow := some (sh.set el base (joinPieces t.pieces el base n (sh.get el base))) }

/-- PCOUNT against NCORES, made when the stream ends: the later of the two commands is bad (R351). -/
def CfgStream.pairChecks (t : CfgStream) (sh : CoreCfg) : List (Nat × Nat × Nat) :=
  sh.slots.filterMap fun e =>
    let a := t.orderOf e.1 8
    let b := t.orderOf 0x80 5
    if e.2.pcount ≤ sh.ncores ∨ (a = 0 ∧ (b = 0 ∨ e.2.bid = 0xFFF)) then .none
    else if a < b then some (b, 0x80, 5) else some (a, e.1, 8)

/-- The first bad command of the stream. -/
def CfgStream.firstBad (t : CfgStream) (sh : CoreCfg) : Option (Nat × Nat × Nat) :=
  minBy? (fun x => x.1) (t.bad.toList ++ t.pairChecks sh)

/-- The end of the stream: its verdict (R351). -/
def CfgStream.finish (t : CfgStream) (live : CoreCfg) (w : Word) : CfgStream :=
  let bad := t.firstBad (t.shadow.getD live)
  let st : StreamState :=
    if (~~~t.crc).toNat ≠ cmdVal w * 65536 + t.crcLow.getD 0 then .rejectedCrc
    else if bad.isSome then .rejectedField else .accepted
  { t with state := st, bad := bad }

/-! ## The acknowledgement (R352) -/

/-- STATUS of a stream's state. -/
def StreamState.status : StreamState → Nat
  | .accepted => 1
  | .rejectedCrc => 2
  | .rejectedField => 3
  | .committed => 4
  | .armed => 5
  | .rolledBack | .none | .open_ => 6

/-- The acknowledgement word; BADEL and BADFLD name the first bad command, whatever the status (R352, R425). -/
def CfgStream.ack (t : CfgStream) (status : Nat) : Nat :=
  let (el, fld) := match t.bad with
    | some b => (b.2.1, b.2.2)
    | .none => (0, 0)
  status * 2 ^ 56 + t.seq * 2 ^ 40 + el * 2 ^ 30 + fld * 2 ^ 24 + t.count % 2 ^ 24

/-- Store the receiver and write its acknowledgement at ACKPA. -/
def State.acknowledge (s : State) (tile : Nat) (t : CfgStream) (status : Nat) : State :=
  (s.modCore tile fun c => { c with stream := t }).agentWrite t.ackPA (natLe 8 (t.ack status))

/-! ## ARM (R353) -/

/-- Every bound slot fetches its record into the block store, in ascending order, and is resident (R353). -/
def State.fetchSlots (s : State) (cfg : CoreCfg) : CoreCfg :=
  let out := cfg.slots.foldl (fun (acc : NMap BlockSlot × List (Nat × Nat)) e =>
    let b := e.2
    if b.bid = 0xFFF then acc
    else
      let hdr := s.recHdr b.recPA
      let n := 4 + hdrLen hdr
      match freeRun? acc.2 n with
      | none => acc
      | some at_ =>
        let body := (List.range (hdrLen hdr)).map fun i => s.rd64 (b.recPA + 8 * (4 + i))
        (acc.1.ins e.1 { b with resident := true, closing := false, storeAt := at_, lastColl := 0, hdr := hdr, body := body },
         acc.2 ++ [(at_, n)])) ([], [])
  { cfg with slots := out.1 }

/-- A core as ARM leaves it: the configuration live, storage zero and present (R151, R213), queues and counters empty, and the
windows of the rate limiter counted from now (R364). The numbers of operations go on. -/
def State.armCore (s : State) (ci : Nat) (cfg : CoreCfg) : State :=
  s.modCore ci fun c =>
    { Core.empty with cfg := s.fetchSlots cfg, stream := { c.stream with shadow := none, state := .armed }, region := c.region,
                      consts := c.consts, nextNum := c.nextNum, rlStart := s.arith }

/-! ## The events -/

/-- Take the command at the head of a tile's receiver, if it is of the kind; else nothing happens. -/
def withCmd (s : State) (tile : Nat) (k : CmdKind) (f : State → Core → CfgStream → Word → State) : Out :=
  let c := s.core tile
  match c.stream.cmds with
  | [] => .next s
  | w :: rest =>
    if cmdKind w ≠ k then .next s
    else
      let t := { c.stream with cmds := rest }
      .next (f (s.modCore tile fun c => { c with stream := t }) c t w)

/-- A stream is open: BEGIN came and its second CRC piece did not. -/
def CfgStream.isOpen (t : CfgStream) : Bool := t.state == .open_

/-- BEGIN_STREAM. -/
def execBeginStream (tile : Nat) (s : State) : Out :=
  withCmd s tile .begin_ fun s c t w => s.modCore tile fun x => { x with stream := t.start c.cfg w }

/-- CONFIG_FIELD_WRITE. Outside a stream the command is discarded and counted in the steward log. -/
def execConfigFieldWrite (tile : Nat) (s : State) : Out :=
  withCmd s tile .fieldWrite fun s c t w =>
    if t.isOpen then s.modCore tile fun x => { x with stream := t.write s tile c.cfg w } else s.stewardLog 351

/-- CRC: the second CRC piece. -/
def execCrcEnd (tile : Nat) (s : State) : Out :=
  withCmd s tile .crcLast fun s c t w =>
    if t.isOpen then
      let t := t.finish c.cfg w
      s.acknowledge tile t t.state.status
    else s.stewardLog 351

/-- COMMIT, ROLLBACK and ARM: within a stream a bad command; outside it they act when the value is 1 (R353). -/
def controlCmd (s : State) (tile : Nat) (k : CmdKind) (act : State → CoreCfg → CfgStream → State) : Out :=
  withCmd s tile k fun s c t w =>
    if t.isOpen then s.modCore tile fun x => { x with stream := (t.received w).noteBad (cmdEl w) (cmdFld w) }
    else if cmdVal w = 1 then act s c.cfg t
    else s

/-- COMMIT_STREAM. -/
def execCommitStream (tile : Nat) (s : State) : Out :=
  controlCmd s tile .commit fun s _ t =>
    let t := if t.state = .accepted then { t with state := .committed } else t
    s.acknowledge tile t t.state.status

/-- ROLLBACK_STREAM: the live configuration stays as it was. -/
def execRollbackStream (tile : Nat) (s : State) : Out :=
  controlCmd s tile .rollback fun s _ t =>
    let t := match t.state with
      | .armed | .none => t
      | _ => { t with state := .rolledBack, shadow := none }
    s.acknowledge tile t t.state.status

/-- An armed region has the tile and is not quiescent now: only the keystone report permits ARM there (R360). -/
def State.armBarred (s : State) (tile : Nat) : Bool :=
  match s.coreRegion? tile with
  | some r => !s.quietNow r
  | none => false

/-- A tile leaves the region that an earlier stream of a steward graph put it into. -/
def State.leaveLoose (s : State) (tile : Nat) : State :=
  match (s.coreRegion? tile).filter Region.loose with
  | none => s
  | some r =>
    let cores := r.cores.filter (· != tile)
    let s := s.modCore tile fun c => { c with region := none }
    if cores.isEmpty then s.setDev { s.dev with regions := s.dev.regions.filter fun x => x.num != r.num } else s.setRegion { r with cores := cores }

/-- The next number for a region of tiles that a steward graph arms. -/
def State.looseNum (s : State) : Nat := (s.dev.regions.map fun r => r.num + 1).foldl max looseBase

/-- A tile that a steward graph armed runs its image in one region with the other such tiles of its ASID and KEY, ordered by CORE (R419,
R427). No stream gives the width of colour 0: it is a free value (log entry 110). -/
def State.joinLoose (s : State) (tile : Nat) : State :=
  let cfg := (s.core tile).cfg
  let bound := (cfg.slots.map Prod.snd).filter fun b => b.bid != 0xFFF
  let blocks : List BlockInfo := bound.map fun b => { bid := b.bid, recPA := b.recPA, hdr := b.hdr, body := b.body, place := b.pcount, hs := b.hs }
  let (n, s) := s.fresh
  let old := s.dev.regions.find? fun r => r.loose && r.asid == cfg.asid && r.key == cfg.key && r.ending.isNone
  let r := old.getD {
    num := s.looseNum, asid := cfg.asid, key := cfg.key, tenant := cfg.tenant, cores := [], steward := false, recPA := 0, complPA := 0, seq := 0,
    armedAt := s.gtc, colours := [(0, { live := true, wlog := Config.freeChoice n % 6, parent := none })], flth := 0, fid := 1, sinks := [],
    blocks := [], sweep := none, quiescent := false, stalled := none, ending := none, reconfig := none, ports := s.trained }
  let sinks : List Sink := (bound.filter fun b => hdrSink b.hdr).map fun b =>
    { bid := b.bid, expect := b.eosx, core := s.routeTile r tile b.pfirst, reported := b.eosx == 0 }
  let r := { r with
    cores := sortBy (fun a b => (s.core a).cfg.core ≤ (s.core b).cfg.core) (r.cores ++ [tile])
    blocks := r.blocks ++ blocks.filter fun b => !r.blocks.any fun x => x.bid == b.bid
    sinks := r.sinks ++ sinks.filter fun k => !r.sinks.any fun x => x.bid == k.bid
    quiescent := false, sweep := none }
  let s := if old.isSome then s.setRegion r else s.setDev { s.dev with regions := s.dev.regions ++ [r] }
  s.modCore tile fun c => { c with region := some r.num }

/-- ARM_TILE: a committed shadow becomes the live configuration. An ARM that would do so waits while the region of the tile is not
quiescent. A tile of no launched region runs its image in a region of the steward graph's making. -/
def execArmTile (tile : Nat) (s : State) : Out :=
  if (s.core tile).stream.state = .committed ∧ s.armBarred tile then .next s
  else controlCmd s tile .arm fun s live t =>
    if t.state = .committed then
      let s := ((s.modCore tile fun c => { c with stream := t }).leaveLoose tile).armCore tile (t.shadow.getD live)
      let s := if (s.core tile).region.isNone then s.joinLoose tile else s
      let t := (s.core tile).stream
      s.acknowledge tile t t.state.status
    else s.acknowledge tile t t.state.status

end Sys2Proof.Machine
end

