-- ==== Sys2Proof/Machine/EvMcast.lean ====
section
/-! DEFINITION. Sequenced multicast: the root's stamp (R320), members (R321 to R323, R332), answers and receipts (R324), and the
replication tree of a group. -/

namespace Sys2Proof.Machine

/-! ## The root (R320) -/

/-- Unreceipted messages of a group that the root admits. -/
def rootLimit : Nat := 64

def Switch.tree (x : Switch) (group : Nat) : Option McTree := x.trees.find? fun t => t.group == group

/-- Messages of a group that wait at the root. -/
def Switch.waits (x : Switch) (group : Nat) : List Packet := x.rootWait.filter fun p => groupOf p == group

/-- The root stamps a message and sends a copy to each member, packet by packet (R293). -/
def Switch.stamp (x : Switch) (now : Nat) (t : McTree) (p : Packet) (m : McMsg) : Switch :=
  let m := { m with stamped := true, postmark := t.next }
  let copies := t.members.flatMap fun (k : TreeMember) => Packet.splitMessage { p with dstDev := k.dev } m
  let f : McFlight := { group := t.group, postmark := t.next, stamped := now, pkt := p, answers := [] }
  { x with trees := replaceIf (fun y => y.group == t.group) (fun y => { y with next := t.next + 1 }) x.trees,
           flights := x.flights ++ [f], out := x.out ++ copies }

/-- A message that the switch accepted and that comes next of its core and group: two of them are stamped in the order in which they left
(R320). -/
def Switch.nextMessage (x : Switch) (pkt : Packet) : Option (Nat × Nat × Packet) :=
  let same (q : Packet) : Bool := q.srcDev == pkt.srcDev && q.srcCore == pkt.srcCore && groupOf q == groupOf pkt && (match q.body with
    | .multicast _ => true
    | _ => false)
  (x.arrived.find? fun e => same e.2.2).filter fun e => e.2.2 == pkt

/-- A later message of the core to the group has come, so that no packet of a message is still on its way (R294). -/
def Switch.passed (x : Switch) (pkt : Packet) : Bool :=
  x.arrived.any fun e => e.2.2.srcDev == pkt.srcDev && e.2.2.srcCore == pkt.srcCore && groupOf e.2.2 == groupOf pkt &&
    (match e.2.2.body with
      | .multicast _ => true
      | _ => false) && !sameMessage pkt e.2.2

/-- The packets of a message leave those that wait at the switch. -/
def Switch.takeMessage (x : Switch) (pkt : Packet) : Switch := { x with arrived := x.arrived.filter fun e => !sameMessage pkt e.2.2 }

/-- MULTICAST_STAMP: a message of which all packets reached the switch named ROOT, or that waits there, takes its postmark; with no tree of the
group it is dropped. A message that lost a packet on its way takes none. -/
def execMulticastStamp (sw : Nat) (pkt : Packet) (s : State) : Out :=
  let x := s.switch sw
  match pkt.body with
  | .multicast m =>
    match x.nextMessage pkt with
    | some e =>
      let came := x.arrived.map fun y => y.2.2
      match wholeMessage pkt m came with
      | none => .next (if x.passed pkt then s.setSwitch (x.takeMessage pkt) else s)
      | some m =>
        let p := { pkt with body := PktBody.multicast m }
        let x := x.takeMessage pkt
        match x.tree m.group with
        | none => .next ((came.filter (sameMessage pkt)).foldl (fun s q => s.dropAtSwitch sw e.1 dlNoRoute q) (s.setSwitch x))
        | some t =>
          if rootLimit ≤ (x.flights.filter fun f => f.group == m.group).length || !(x.waits m.group).isEmpty then
            .next (s.setSwitch { x with rootWait := x.rootWait ++ [p] })
          else .next (s.setSwitch (x.stamp s.gtc t p m))
    | none =>
      if (x.waits m.group)[0]? != some pkt || rootLimit ≤ (x.flights.filter fun f => f.group == m.group).length then .next s
      else
        match x.tree m.group with
        | none => .next s
        | some t => .next (s.setSwitch ({ x with rootWait := x.rootWait.erase pkt }.stamp s.gtc t pkt m))
  | _ => .next s

/-- REPLICATION_TREE_PROGRAM: a group's next postmark and members at its root; no member, no tree. -/
def execReplicationTreeProgram (sw group : Nat) (next : Word) (members : List TreeMember) (s : State) : Out :=
  let x := s.switch sw
  let rest := x.trees.filter fun t => t.group != group
  let t : McTree := { group := group, next := next, members := members }
  .next (s.setSwitch { x with trees := if members.isEmpty then rest else rest ++ [t] })

/-! ## A member applies a message (R321 to R323) -/

/-- Statuses of R324. -/
def stRevoked : Nat := 10
def stBroken : Nat := 11

/-- A member's answer leaves for its leaf. -/
def State.mcAnswer (s : State) (p : Packet) (group : Nat) (postmark : Word) (status : Nat) : State :=
  s.emit { s.ownPacket p.key p.srcDev p.reqid (.ack (BitVec.ofNat 8 status) 0 postmark.toNat) with tasid := group }

/-- The pieces of a message that each lie in one line, in order. -/
def McMsg.pieces (m : McMsg) : List (Nat × List Byte) :=
  m.items.flatMap fun it =>
    let len := it.2.length
    (spanLines it.1 len).map fun ln =>
      let lo := max it.1 (128 * ln)
      (lo, (it.2.drop (lo - it.1)).take (min (it.1 + len) (128 * (ln + 1)) - lo))

/-- How far the application of a message goes: it waits, or ends with an outcome. -/
inductive McEnd where
  | wait
  | ends (status : Nat)
  deriving DecidableEq, Repr

/-- Store how many pieces a held message has written. -/
def State.mcProgress (s : State) (h : McHeld) (n : Nat) : State :=
  s.setDev { s.dev with mcHeld := replaceIf (fun y => y.group == h.group && y.postmark == h.postmark) (fun y => { y with done := n }) s.dev.mcHeld }

/-- The outcome of an application that failed at a piece: bytes before it were written, or not. -/
def failedAt (n : Nat) : Nat := if n = 0 then stXlate else stPartial

/-- The die at whose ingress a message is applied, and its number there. -/
def McHeld.die (h : McHeld) : Nat := h.port / 9
def McHeld.num (h : McHeld) : Nat := 2 ^ 60 + h.group * 2 ^ 32 + h.postmark.toNat

/-- Write the pieces from number n on. -/
def State.mcWritePieces (s : State) (h : McHeld) (e : McEntry) (n : Nat) : List (Nat × List Byte) → McEnd × State
  | [] => (.ends 0, s)
  | (off, bs) :: rest =>
    let va := e.tva + off
    match s.ingressXl h.die h.num e.tasid va true with
    | (.wait, s) => (.wait, s)
    | (.fail cause level, s) => (.ends (failedAt n), s.ingressRecord h.die e.tasid cause level (va / 4096 * 4096))
    | (.ok pa cache, s) =>
      let bytes := bs.zipIdx.map fun b => (pa % 128 + b.2, b.1)
      match s.writeAtOwner h.die h.num cache (plainLine (lineOf pa) bytes []) with
      | (.wait, s) => (.wait, s)
      | (.stop c, s) => (.ends (lineStatus c), s)
      | (.done _, s) => State.mcWritePieces (s.mcProgress h (n + 1)) h e (n + 1) rest

/-- The notify token of a message (R332). -/
def mcToken (n : Notify) (m : McMsg) (midx dev : Nat) : Token :=
  { kind := .notify, blk := n.blk, slot := n.slot, colour := n.colour, wlog := n.wlog, rscope := .dev,
    tag := if n.tagadd then n.tag + w32 midx else n.tag, payload := [w32 (McMsg.bytes m), w32 dev, m.postmark] }

/-- Apply the message whose turn it is. -/
def State.mcApply (s : State) (h : McHeld) (e : McEntry) : McEnd × State :=
  match h.pkt.body with
  | .multicast m =>
    if h.header || decide (e.wsz < m.wsz) then (.ends stXlate, s)
    else
      match s.mcWritePieces h e h.done ((McMsg.pieces m).drop h.done) with
      | (.ends 0, s) =>
        match m.notify with
        | none => (.ends 0, s)
        | some n =>
          match s.notifyIn h.port e.tasid (mcToken n m e.midx h.pkt.srcDev) h.pkt with
          | (.wait, s) => (.wait, s)
          | (.done none, s) => (.ends 0, s)
          | (.done (some _), s) => (.ends stRejected, s)
      | r => r
  | _ => (.ends 0, s)

/-- A held message leaves the hold store. -/
def State.mcDrop (s : State) (h : McHeld) : State :=
  (s.setDev { s.dev with mcHeld := s.dev.mcHeld.filter fun y => !(y.group == h.group && y.postmark == h.postmark) }).dropWaits h.die h.num

/-- The gap timer of a group starts again while messages are held, else it stops (R322). -/
def State.mcGapRestart (s : State) (group : Nat) : State :=
  if s.dev.mcHeld.any fun h => h.group == group then s.setDev { s.dev with mcGap := s.dev.mcGap.ins group s.gtc }
  else s.setDev { s.dev with mcGap := s.dev.mcGap.del group }

/-- NEXTPM of an entry. -/
def State.mcNext (s : State) (group : Nat) (n : Word) : State :=
  s.mcWrite group 3 (setField (s.rd64 (s.mcAt group 3)).toNat 0 32 n.toNat)

/-- Answer every held message of a group and drop it. -/
def State.mcFlush (s : State) (group status : Nat) : State :=
  let held := s.dev.mcHeld.filter fun h => h.group == group
  (held.foldl (fun s h => (s.mcAnswer h.pkt group h.postmark status).mcDrop h) s).mcGapRestart group

/-- Apply the messages whose turn has come, one after another, at most n of them. -/
def State.mcTurn (s : State) (group : Nat) : Nat → State
  | 0 => s
  | n + 1 =>
    let e := s.mcEntry group
    if !e.valid || !e.member then s.mcFlush group stRevoked
    else if e.broken then s
    else
      match s.dev.mcHeld.find? fun h => h.group == group && h.postmark == e.nextpm with
      | none => s
      | some h =>
        match s.mcApply h e with
        | (.wait, s) => s
        | (.ends st, s) =>
          State.mcTurn ((((s.mcAnswer h.pkt group h.postmark st).mcNext group (e.nextpm + 1)).mcDrop h).mcGapRestart group) group n

/-- Messages that the hold store takes, and the longest; any other lies in the hold area in HBM (R322). -/
def holdStore : Nat := 4096
def holdBytes : Nat := 448
def State.storeTakes (s : State) (len : Nat) : Bool :=
  decide (len ≤ holdBytes ∧ (s.dev.mcHeld.filter fun h => h.inStore).length < holdStore)

/-- A stamped message reaches this device at a port. What the hold store cannot take waits in the hold area, whose place in HBM no rule gives
(log entry 175). -/
def State.mcArrive (s : State) (port : Nat) (p : Packet) (m : McMsg) : State :=
  let e := s.mcEntry m.group
  let d := m.postmark - e.nextpm
  let header := d != 0 && decide (e.cap < m.len)
  let h : McHeld := { group := m.group, postmark := m.postmark, pkt := p, port := port, header := header,
                      inStore := d != 0 && s.storeTakes (if header then 0 else m.len), done := 0 }
  if !e.member || !e.valid || e.key != p.key.toNat then s.mcAnswer p m.group m.postmark stRevoked
  else if e.broken then s.mcAnswer p m.group m.postmark stBroken
  else if 2 ^ 31 ≤ d.toNat then s.stewardLog 321
  else
    let s := s.setDev { s.dev with mcHeld := s.dev.mcHeld ++ [h] }
    if d = 0 then s
    else if (s.dev.mcGap.at? m.group).isSome then s
    else s.setDev { s.dev with mcGap := s.dev.mcGap.ins m.group s.gtc }

/-- Enough turns for every held message. -/
def State.mcTurns (s : State) (group : Nat) : State := s.mcTurn group (s.dev.mcHeld.length + 1)

/-- MULTICAST_ARRIVAL: a message of which a port accepted all packets is applied, held, discarded or refused; one whose writes wait goes on. -/
def execMulticastArrival (pkt : Packet) (s : State) : Out :=
  match pkt.body with
  | .multicast m =>
    match s.dev.arrived.find? fun e => e.2 == pkt with
    | some e =>
      match wholeMessage pkt m (s.dev.arrived.map fun y => y.2) with
      | none => .next s
      | some m =>
        let s := s.setDev { s.dev with arrived := s.dev.arrived.filter fun y => !sameMessage pkt y.2 }
        .next ((s.mcArrive e.1 { pkt with body := PktBody.multicast m } m).mcTurns m.group)
    | none => .next (if s.dev.mcHeld.any fun h => h.pkt == pkt then s.mcTurns m.group else s)
  | _ => .next s

/-- Ticks of the gap timer. -/
def gapLimit : Nat := 100000

/-- GAP_TIMER_EXPIRY: the group is BROKEN; its held messages are answered, and a record of the gap is written (R322). -/
def execGapTimerExpiry (group : Nat) (s : State) : Out :=
  match s.dev.mcGap.at? group with
  | none => .next s
  | some t =>
    let e := s.mcEntry group
    let held := s.dev.mcHeld.filter fun h => h.group == group
    if s.gtc < t + gapLimit || held.any fun h => h.postmark == e.nextpm then .next s
    else
      match minBy? (fun (h : McHeld) => (h.postmark - e.nextpm).toNat) held with
      | none => .next s
      | some low =>
        let s := s.mcWrite group 0 (setField (s.rd64 (s.mcAt group 0)).toNat 60 1 1)
        let s := (s.mcFlush group stBroken)
        .next (s.raise e.tasid (srcIngress low.die) low.die .mcGap false false
          (tailOf [(4, low.postmark.toNat), (6, group * 2 ^ 32 + e.nextpm.toNat)]) none false).2

/-! ## Answers and receipts (R324) -/

/-- A member's status among the answers; a missing one is TIMEOUT. -/
def McFlight.statusOf (f : McFlight) (midx : Nat) : Byte := ((f.answers.find? fun a => a.1 == midx).map Prod.snd).getD 9

/-- The eight words of a receipt over the members' statuses by index. -/
def receiptWords (postmark : Word) (ms : List Byte) : List Word :=
  let bad := (ms.zipIdx.filter fun e => e.1 != 0).map fun e => (e.2, e.1.toNat)
  let st := ((bad[0]?).map Prod.snd).getD 0
  let entry (i : Nat) : Nat := match bad[i]? with
    | some (ix, m) => m % 16 * 2 ^ 12 + ix % 2 ^ 12
    | none => 0
  let nfail := bad.length
  [w32 (st * 2 ^ 24), postmark, w32 (bit01 (decide (10 < nfail)) * 2 ^ 31 + (ms.length - nfail) * 2 ^ 16 + nfail)] ++
    (List.range 5).map fun j => w32 (entry (2 * j) + 2 ^ 16 * entry (2 * j + 1))

/-- The root sends the receipt of a flight, and forgets it. -/
def Switch.receipt (x : Switch) (f : McFlight) : Switch :=
  let n := match x.tree f.group with
    | some t => t.members.length
    | none => f.answers.length
  let ms := (List.range n).map f.statusOf
  let p := { f.pkt with dstDev := f.pkt.srcDev, srcCore := 0x3FF, body := PktBody.receipt (receiptWords f.postmark ms) ms }
  { x with flights := x.flights.filter fun y => !(y.group == f.group && y.postmark == f.postmark), out := x.out ++ [p] }

/-- Every member of the tree has answered. -/
def Switch.complete (x : Switch) (f : McFlight) : Bool :=
  match x.tree f.group with
  | some t => t.members.all fun k => f.answers.any fun a => a.1 == k.midx
  | none => true

/-- This device's own answer on its way up, if it gave one. -/
def State.ownAnswer (s : State) (f : McFlight) (status : Byte) : Option Packet :=
  s.wire.find? fun p => p.tasid == f.group && p.dstDev == f.pkt.srcDev && p.reqid == f.pkt.reqid && match p.body with
    | .ack st _ pm => st == status && pm == f.postmark.toNat
    | _ => false

/-- Ticks after which a member that has not answered counts as TIMEOUT. -/
def answerLimit : Nat := 50000

/-- MEMBER_ANSWER: an answer within 50 µs is merged on its way up; with the last one the root sends the receipt. This device answers only what it
answered. -/
def execMemberAnswer (sw group : Nat) (postmark : Word) (midx : Nat) (status : Byte) (s : State) : Out :=
  let x := s.switch sw
  match x.flights.find? fun f => f.group == group && f.postmark == postmark, (x.tree group).bind fun t => t.members.find? fun k => k.midx == midx with
  | some f, some k =>
    let mine := k.dev == s.dev.devNum
    let own := s.ownAnswer f status
    if f.answers.any (fun a => a.1 == midx) || (mine && own.isNone) || decide (f.stamped + answerLimit ≤ s.gtc) then .next s
    else
      let s := match mine, own with
        | true, some p => { s with wire := s.wire.erase p }
        | _, _ => s
      let f := { f with answers := f.answers ++ [(midx, status)] }
      let x := { x with flights := replaceIf (fun y => y.group == group && y.postmark == postmark) (fun _ => f) x.flights }
      .next (s.setSwitch (if x.complete f then x.receipt f else x))
  | _, _ => .next s

/-- MEMBER_ANSWER_TIMEOUT. -/
def execMemberAnswerTimeout (sw group : Nat) (postmark : Word) (s : State) : Out :=
  let x := s.switch sw
  match x.flights.find? fun f => f.group == group && f.postmark == postmark with
  | none => .next s
  | some f => .next (if s.gtc < f.stamped + answerLimit then s else s.setSwitch (x.receipt f))

/-- Two bits of a member in an MC_STATUS record. -/
def mst2 (st : Byte) : Nat := if st = 0 then 0 else if st = 10 then 1 else if st = 9 then 3 else 2

/-- Words 2 to 7 of record m of an MC_STATUS run. -/
def mcStatusTail (postmark : Word) (group nparts m : Nat) (ms : List Byte) : List DWord :=
  let bits (i : Nat) : Nat :=
    ((List.range 32).map fun j => (match ms[160 * m + 32 * i + j]? with
      | some st => mst2 st
      | none => 0) * 2 ^ (2 * j)).foldl (· + ·) 0
  tailOf ((2, postmark.toNat * 2 ^ 32 + group * 2 ^ 16 + m * 2 ^ 8 + nparts) :: (List.range 5).map fun i => (i + 3, bits i))

/-- Free slots of an ASID's fault record area (R381). -/
def State.logFree (s : State) (asid : Nat) : Nat :=
  let f := s.flog asid
  2 ^ field (s.rdNat f 8) 0 5 - (field (s.rdNat (f + 8) 8) 0 32 + 2 ^ 32 - field (s.rdNat (f + 16) 8) 0 32) % 2 ^ 32

/-- The run of MC_STATUS records: all of it, or LOST grows by its length; the records take their FIDs in either case. One handler token
follows the whole run, for its first record (R324, R381, R384). -/
def State.mcStatusRun (s : State) (asid src die : Nat) (postmark : Word) (group : Nat) (ms : List Byte) : State :=
  let n := (ms.length + 159) / 160
  let full := s.ctxValid asid && decide (s.logFree asid < n)
  let record (s : State) (m : Nat) : State :=
    if full then (s.takeFid (s.recordRegion? asid none)).2
    else (s.raise asid src die .mcStatus false false (mcStatusTail postmark group n m ms) none true).2
  let f := s.flog asid
  let t := (List.range n).foldl record
    (if full then s.agentWrite (f + 24) (natLe 4 (field (s.rdNat (f + 24) 8) 0 32 + n)) else s)
  match s.recordRegion? asid none with
  | some r => t.sendHandler r r.fid Cls.mcStatus.code 0 0 none
  | none => t

/-- RETURN_RECEIPT: a receipt that a port accepted. With FULL the run is written before it is delivered: the receipt waits, its statuses
taken, while writes of the device's units are lined up. -/
def execReturnReceipt (pkt : Packet) (s : State) : Out :=
  match s.dev.arrived.find? fun e => e.2 == pkt, pkt.body with
  | some e, .receipt words ms =>
    let s := s.setDev { s.dev with arrived := s.dev.arrived.erase e }
    match s.dev.requests.find? fun r => r.reqid == pkt.reqid && r.bulk == some .mcput with
    | none => .next s
    | some r =>
      if s.tileShut pkt.key r.core then .next (s.dropAtTile r.core pkt)
      else
      let full := ((words[2]?).getD 0).getLsbD 31
      let s := if full && !ms.isEmpty then
          s.mcStatusRun (s.core r.core).cfg.asid (srcPort e.1) (e.1 / 9) ((words[1]?).getD 0) (groupOf r.pkt) ms
        else s
      if full && !s.agentDone s.arrivals then
        .next (s.setDev { s.dev with arrived := s.dev.arrived ++ [(e.1, { pkt with body := .receipt words [] })] })
      else .next (s.giveReceipt pkt.reqid words)
  | _, _ => .next s

end Sys2Proof.Machine
end

