-- ==== Sys2Proof/Machine/LoadCheck.lean ====
section
/-! DEFINITION. The load checks: the image header (R344, R346), the blocks of an image (R60 to R65, R75), and the load report (R76). -/

namespace Sys2Proof.Machine

/-! ## Failures -/

/-- One failure of a load (R76). -/
structure LoadFail where
  check : Nat
  bid : Nat
  word : Nat
  edge : Nat
  detail : Nat
  deriving DecidableEq, Repr

/-- EDGE where no edge is concerned. -/
def noEdge : Nat := 0x7FFF

/-- A failure of the image or the launch as a whole (R346). -/
def wholeFail (check detail : Nat) : LoadFail := { check := check, bid := 0xFFF, word := 0, edge := noEdge, detail := detail }

/-- An entry of the report. -/
def LoadFail.toNat (f : LoadFail) : Nat :=
  f.check % 2 ^ 8 * 2 ^ 56 + f.bid % 2 ^ 12 * 2 ^ 44 + f.word % 2 ^ 8 * 2 ^ 36 + f.edge % 2 ^ 15 * 2 ^ 21 + f.detail % 2 ^ 21

/-- The order of the report: BID, WORD, EDGE, CHECK, and then DETAIL. -/
def LoadFail.le (a b : LoadFail) : Bool :=
  if a.bid != b.bid then a.bid < b.bid
  else if a.word != b.word then a.word < b.word
  else if a.edge != b.edge then a.edge < b.edge
  else if a.check != b.check then a.check < b.check
  else a.detail ≤ b.detail

/-- The load report: the count of all failures and at most 64 entries (R76). -/
def reportBytes (fs : List LoadFail) : List Byte :=
  natLe 8 fs.length ++ ((sortBy LoadFail.le fs).take 64).flatMap fun f => natLe 8 f.toNat

/-! ## Block records -/

/-- A block record of an image (R60, R64). -/
structure ImgBlock where
  recPA : Nat
  hdr : List DWord
  body : List DWord
  port : List DWord
  deriving DecidableEq, Repr

def State.imgBlock (s : State) (pa : Nat) : ImgBlock :=
  let hdr := s.recHdr pa
  let n := hdrLen hdr
  { recPA := pa, hdr := hdr, body := (List.range n).map fun i => s.rd64 (pa + 8 * (4 + i)),
    port := (List.range 4).map fun i => s.rd64 (pa + 8 * (4 + n + i)) }

def ImgBlock.bid (b : ImgBlock) : Nat := hdrBid b.hdr
def ImgBlock.nexit (b : ImgBlock) : Nat := min (hdrNexit b.hdr) 8
def ImgBlock.arity (b : ImgBlock) : Nat := min (hdrArity b.hdr) 8
def ImgBlock.edge (b : ImgBlock) (e : Nat) : Nat := 8 * b.bid + e

/-- Port descriptor j: slots 0 to 7, then exits 0 to 7 (R64). -/
def ImgBlock.desc (b : ImgBlock) (j : Nat) : Nat := field ((b.port[j / 4]?).getD 0).toNat (16 * (j % 4)) 16
/-- The word of the record that holds descriptor j. -/
def ImgBlock.portWord (b : ImgBlock) (j : Nat) : Nat := 4 + b.body.length + j / 4

/-- VALID, successor slot and successor block of exit e (R62). -/
def ImgBlock.exit (b : ImgBlock) (e : Nat) : Nat := hdrExit b.hdr e
def exitValid (x : Nat) : Bool := x / 2 ^ 15 % 2 == 1
def exitSlot (x : Nat) : Nat := field x 12 3
def exitBid (x : Nat) : Nat := field x 0 12

/-- The lowest exit of a block with this successor and slot (R63). -/
def ImgBlock.exitTo (b : ImgBlock) (bid slot : Nat) : Option Nat :=
  (List.range b.nexit).find? fun e => exitValid (b.exit e) && exitBid (b.exit e) == bid && exitSlot (b.exit e) == slot

def findBlock (bs : List ImgBlock) (bid : Nat) : Option ImgBlock := bs.find? fun b => b.bid == bid

/-- A failure at a word of the record, with no edge. -/
def ImgBlock.at_ (b : ImgBlock) (check word detail : Nat) : LoadFail :=
  { check := check, bid := b.bid, word := word, edge := noEdge, detail := detail }
/-- A failure on exit e's edge; DETAIL names the descriptor and the consumer's slot for check 0x0D. -/
def ImgBlock.onEdge (b : ImgBlock) (check word e : Nat) : LoadFail :=
  { check := check, bid := b.bid, word := word, edge := b.edge e,
    detail := if check = 0x0D then b.desc (8 + e) + exitSlot (b.exit e) * 2 ^ 16 else 0 }

/-! ## Header, frame and store-buffer checks -/

/-- Word 0 breaks R60. -/
def badWord0 (w : Nat) : Bool := 8 < field w 37 4 || 8 < field w 33 4 || field w 30 3 == 6 || field w 0 25 != 0
/-- Word 1 breaks R61. -/
def badWord1 (w : Nat) : Bool := 128 < field w 56 8 || field w 16 12 == 0xFFF || field w 0 16 != 0

/-- Check 0x01; `seen` holds the block ids before. -/
def ImgBlock.headerFails (b : ImgBlock) (seen : List Nat) : List LoadFail :=
  let w (i : Nat) : Nat := ((b.hdr[i]?).getD 0).toNat
  (if badWord0 (w 0) then [b.at_ 0x01 0 0] else []) ++
    (if badWord1 (w 1) || seen.contains b.bid then [b.at_ 0x01 1 0] else [])

/-- The words that make entries in the store buffer (R162, R289, R290). -/
def isStore : Fields → Bool
  | .std r => [0xA1, 0xA4, 0xA6, 0xA8, 0xB1, 0xB3, 0xB4].contains r.op
  | _ => false

def ImgBlock.fields (b : ImgBlock) : List Fields := b.body.map fun w => Fields.ofNat w.toNat

/-- Checks 0x0B on FRMC and 0x0C. The frame partition holds the block's frame. -/
def ImgBlock.sizeFails (b : ImgBlock) (frameG : Nat) : List LoadFail :=
  let frmc := hdrFrmc b.hdr
  let sbl := hdrSbl b.hdr
  (if frmc < hdrArity b.hdr ∨ frameG * 65536 < 128 * frameLines b.hdr then [b.at_ 0x0B 1 0] else []) ++
    (if 128 < sbl ∨ sbl < (b.fields.filter isStore).length then [b.at_ 0x0C 1 0] else [])

/-! ## Word checks (R68) -/

/-- The first row of R68 that a word fails. -/
def wordFail (h : List DWord) (fs : Fields) : Option (Nat × Nat) :=
  match fs.check (hdrRegd h) with
  | some .reservedOp => some (2, 0)
  | some .reservedFn => some (3, 0)
  | some .reservedField => some (4, 0)
  | some (.operand code) => some (5, code % 256)
  | some .attrRow => some (6, 0)
  | none => if (fs.needsPriv && !hdrPriv h) || (fs.needsGang && !hdrGang h) then some (6, 0) else none

/-- The word's fields have the meaning that rows 1 to 3 fix. -/
def legible (h : List DWord) (fs : Fields) : Bool :=
  match wordFail h fs with
  | some (n, _) => 5 ≤ n
  | none => true

def ImgBlock.wordFails (b : ImgBlock) : List LoadFail :=
  b.fields.zipIdx.filterMap fun x => (wordFail b.hdr x.1).map fun f => b.at_ f.1 (4 + x.2) f.2

/-! ## Clauses and flags (R55 to R57) -/

/-- Format and entry of a word of the shared layout. -/
def wordEntry : Fields → Option (Raw × Fmt × Sys2Proof.Entry)
  | .std r =>
    match fmtOf r.op with
    | none => none
    | some fm => (entryOf r.op r.fn (r.t fm) r.ic).map fun e => (r, fm, e)
  | _ => none

/-- FLAG of a word (R42, R50, R52, R53). -/
def rawFlag (fm : Fmt) (r : Raw) : Nat :=
  match fm with
  | .f0 => r.lo % 16
  | .f1 => r.lo / 64 % 16
  | .f3 => r.lo / 16 % 16
  | .f4 => r.lo / 256 % 16
  | _ => 15

/-- A long-latency word: its flag and the codes of the registers that it writes (R57). -/
def wordLong (fs : Fields) : Option (Nat × List Nat) :=
  match wordEntry fs with
  | none => none
  | some (r, fm, e) =>
    if !e.long then none
    else
      let writes := match e.d with
        | .d n _ _ => if r.d = 0xFF then [] else (List.range n).map (r.d + ·)
        | .run n _ => if r.op = 0x98 then (List.range n).map (r.d + ·) else []
        | _ => []
      some (rawFlag fm r, writes)

/-- Clause headers of a body: position, length, declared flags, wait mask. -/
def clauses (fs : List Fields) : List (Nat × Nat × List Nat × Nat) :=
  fs.zipIdx.filterMap fun x =>
    match x.1 with
    | .clause r => some (x.2, r.len, (if r.v0 = 1 then [r.set0] else []) ++ (if r.v1 = 1 then [r.set1] else []), r.wait)
    | _ => none

/-- The clause that covers word i: the last header before it, if it reaches so far. -/
def clauseAt (cs : List (Nat × Nat × List Nat × Nat)) (i : Nat) : Option (List Nat) :=
  match (cs.filter fun c => c.1 < i).getLast? with
  | some c => if i ≤ c.1 + c.2.1 then some c.2.2.1 else none
  | none => none

/-- Check 0x07. -/
def ImgBlock.clauseFails (b : ImgBlock) : List LoadFail :=
  let fs := b.fields
  let cs := clauses fs
  let heads := cs.filterMap fun c =>
    if fs.length ≤ c.1 + c.2.1 ∨ cs.any fun d => c.1 < d.1 && d.1 ≤ c.1 + c.2.1 then some (b.at_ 0x07 (4 + c.1) 0) else none
  let words := fs.zipIdx.filterMap fun x =>
    if !legible b.hdr x.1 then none
    else
      match wordLong x.1 with
      | none => none
      | some (flag, writes) =>
        let ok := match clauseAt cs x.2 with
          | none => false
          | some decl => if flag < 12 then decl.contains flag else writes.isEmpty
        if ok then none else some (b.at_ 0x07 (4 + x.2) 0)
  heads ++ words

/-- Check 0x08. -/
def ImgBlock.waitFails (b : ImgBlock) : List LoadFail :=
  let cs := clauses b.fields
  let waits := cs.filterMap fun c =>
    let decl := (cs.filter fun d => d.1 < c.1).flatMap fun d => d.2.2.1
    if (List.range 12).any fun f => c.2.2.2 / 2 ^ f % 2 == 1 && !decl.contains f then some (b.at_ 0x08 (4 + c.1) 0) else none
  let union := cs.flatMap fun c => c.2.2.1
  let flags := hdrFlags b.hdr
  waits ++ (if (List.range 12).all fun f => (flags / 2 ^ f % 2 == 1) == union.contains f then [] else [b.at_ 0x08 1 0])

/-- Check 0x09: the words that touch a register of an earlier long-latency word with no wait between. -/
def ImgBlock.hazardFails (b : ImgBlock) : List LoadFail :=
  let fs := b.fields
  let cs := clauses fs
  let longs := fs.zipIdx.filterMap fun x =>
    if legible b.hdr x.1 then (wordLong x.1).bind fun l => if l.1 < 12 ∧ l.2 ≠ [] then some (x.2, l.1, l.2) else none else none
  fs.zipIdx.filterMap fun x =>
    let touched := if legible b.hdr x.1 then touchedCodes x.1 else []
    let hit := longs.any fun l =>
      l.1 < x.2 && l.2.2.any (fun r => touched.contains r) &&
        !cs.any fun c => l.1 < c.1 && c.1 < x.2 && c.2.2.2 / 2 ^ l.2.1 % 2 == 1
    if hit then some (b.at_ 0x09 (4 + x.2) 0) else none

/-! ## Exits and edges (R62 to R65) -/

/-- The exit numbers that words of formats F1, F4 and F6 name (R133, R284, R301, R326, R401). -/
def wordExit (fs : Fields) : Option Nat :=
  match wordEntry fs with
  | none => none
  | some (r, fm, e) =>
    if fm = .f4 then (if r.lo / 128 % 2 = 1 then some (r.lo / 16 % 8) else none)
    else
      match e.d with
      | .exit _ => if r.d ≤ 7 then some r.d else none
      | _ => none

/-- PLENM1 that the descriptor of such an exit must have, if the block's width class allows the word (R146, R289, R305, R324, R401). -/
def exitPlen (h : List DWord) (r : Raw) : Option Nat :=
  let fixed := hdrWcls h ≤ 5
  let g := 2 ^ hdrWcls h
  let data (w cap extra : Nat) : Option Nat := if fixed && g * w ≤ cap then some (extra + g * w - 1) else none
  match r.op with
  | 0xB3 => data (if 12 ≤ r.fn then 2 else 1) 16 0
  | 0xD0 => data (if r.fn = 5 then 2 else 1) 14 2
  | 0xD2 | 0xD8 => data (if 12 ≤ r.fn then 2 else 1) 14 2
  | 0xD1 | 0xD3 | 0xD4 => if fixed && g ≤ 16 then some 1 else none
  | 0xD6 | 0xD7 => some 7
  | _ => some 1

/-- Checks 0x0A and 0x0D of a word that names an exit by number. -/
def ImgBlock.numberedFails (b : ImgBlock) (i : Nat) (fs : Fields) : List LoadFail :=
  match wordExit fs, wordEntry fs with
  | some e, some (r, _, _) =>
    if b.nexit ≤ e then [b.at_ 0x0A (4 + i) 0]
    else
      match exitPlen b.hdr r with
      | some n => if field (b.desc (8 + e)) 4 12 = n * 256 then [] else [b.onEdge 0x0D (4 + i) e]
      | none => [b.onEdge 0x0D (4 + i) e]
  | _, _ => []

/-- Checks 0x0A, 0x0B and 0x0D of an F2 word (R63, R65, R365, R368, R369). -/
def ImgBlock.tokenFails (bs : List ImgBlock) (b : ImgBlock) (i : Nat) (r : Raw2) : List LoadFail :=
  if r.op = 5 then []
  else
    match b.exitTo r.dblk r.slot with
    | none => [b.at_ 0x0A (4 + i) 0]
    | some e =>
      let next := findBlock bs r.dblk
      if r.op = 6 then
        (match next with
          | some n => if hdrSink n.hdr then [] else [b.onEdge 0x0A (4 + i) e]
          | none => [b.onEdge 0x0A (4 + i) e])
      else
        let wrongLen := r.plen ≠ field (b.desc (8 + e)) 12 4
        let wrongRun := r.op = 3 ∧ hdrWcls b.hdr ≤ 5 ∧ (r.plen + 1) % 2 ^ hdrWcls b.hdr ≠ 0
        (if wrongLen ∨ wrongRun then [b.onEdge 0x0D (4 + i) e] else []) ++
          (match next with
            | some n =>
              if r.op = 4 ∧ (hdrArity n.hdr ≠ 1 ∨ frameLines b.hdr < frameLines n.hdr) then [b.at_ 0x0B (4 + i) 0] else []
            | none => [])

/-- Whether only EOS words send along an edge: they are exempt from agreement (R365). -/
def ImgBlock.eosOnly (b : ImgBlock) (e : Nat) : Bool :=
  let uses := b.fields.filterMap fun f => match f with
    | .tok r => if r.op ≠ 5 ∧ b.exitTo r.dblk r.slot = some e then some r.op else none
    | _ => none
  !uses.isEmpty && uses.all fun op => op == 6

/-- R64: a descriptor in use is valid, with a type of R48. -/
def descOk (d : Nat) : Bool := d % 2 == 1 && field d 1 3 == 0 && field d 8 4 ≤ 14

/-- R65: the producer's and the consumer's descriptors agree. -/
def descAgree (p c : Nat) : Bool := field p 4 12 == field c 4 12 || (field c 4 8 == 0 && field p 12 4 == field c 12 4)

/-- Checks 0x0A and 0x0D of the exit table, the descriptors and the edges. -/
def ImgBlock.edgeFails (bs : List ImgBlock) (b : ImgBlock) : List LoadFail :=
  let exits := (List.range 8).flatMap fun e =>
    let x := b.exit e
    let word := 2 + e / 4
    if b.nexit ≤ e then (if x = 0 then [] else [b.onEdge 0x0A word e])
    else if !exitValid x then [b.onEdge 0x0A word e]
    else
      match findBlock bs (exitBid x) with
      | none => [b.onEdge 0x0A word e]
      | some n =>
        if hdrArity n.hdr ≤ exitSlot x then [b.onEdge 0x0A word e]
        else if b.eosOnly e || descAgree (b.desc (8 + e)) (n.desc (exitSlot x)) then []
        else [b.onEdge 0x0D (b.portWord (8 + e)) e]
  let descs := (List.range 16).flatMap fun j =>
    let d := b.desc j
    let used := if j < 8 then j < b.arity else j - 8 < b.nexit
    if (if used then descOk d else d == 0) then []
    else [b.at_ 0x0D (b.portWord j) (d + j * 2 ^ 16)]
  exits ++ descs

/-- Every word's checks on exits. -/
def ImgBlock.exitFails (bs : List ImgBlock) (b : ImgBlock) : List LoadFail :=
  b.fields.zipIdx.flatMap fun x =>
    if !legible b.hdr x.1 then []
    else
      match x.1 with
      | .tok r => b.tokenFails bs x.2 r
      | f => b.numberedFails x.2 f

/-- R75 for one block. -/
def ImgBlock.fails (bs : List ImgBlock) (frameG : Nat) (b : ImgBlock) (seen : List Nat) : List LoadFail :=
  b.headerFails seen ++ b.wordFails ++ b.clauseFails ++ b.waitFails ++ b.hazardFails ++ b.edgeFails bs ++ b.exitFails bs ++
    b.sizeFails frameG

/-- R75 for every block of an image. -/
def blockFails (bs : List ImgBlock) (frameG : Nat) : List LoadFail :=
  bs.zipIdx.flatMap fun x => x.1.fails bs frameG ((bs.take x.2).map ImgBlock.bid)

/-! ## The image header (R344) -/

/-- The fields of an image header. -/
structure ImgHdr where
  version : Nat
  nblk : Nat
  clw : Nat
  clh : Nat
  dirOff : Nat
  spanOff : Nat
  dataOff : Nat
  dataLen : Nat
  ovl : Nat
  sigOff : Nat
  dataVA : Nat
  constOff : Nat
  part : Nat
  deriving DecidableEq, Repr

def State.imgHdr (s : State) (pa : Nat) : ImgHdr :=
  let w (off n : Nat) : Nat := s.rdNat (pa + off) n
  { version := w 0 2, nblk := w 2 2, clw := field (w 4 4) 0 4, clh := field (w 4 4) 4 4, dirOff := w 8 4, spanOff := w 0xC 4,
    dataOff := w 0x10 4, dataLen := w 0x14 4, ovl := field (w 0x18 4) 0 12, sigOff := w 0x1C 4, dataVA := field (w 0x20 8) 0 56,
    constOff := w 0x28 4, part := field (w 0x2C 4) 0 16 }

/-- Words of the directory. -/
def ImgHdr.entries (h : ImgHdr) : Nat := if 1 ≤ h.nblk ∧ h.nblk ≤ 4095 then h.nblk else 0

/-- Byte offset of block i's record. -/
def State.dirEntry (s : State) (pa : Nat) (h : ImgHdr) (i : Nat) : Nat := s.rdNat (pa + h.dirOff + 8 * i) 4

/-- A part of the image lies behind its header and before SIG_OFF. -/
def ImgHdr.inside (h : ImgHdr) (off len : Nat) : Bool := 64 ≤ off && off + len ≤ h.sigOff

/-- The blocks of an image, in directory order. -/
def State.imgBlocks (s : State) (pa : Nat) (h : ImgHdr) : List ImgBlock :=
  (List.range h.entries).map fun i => s.imgBlock (pa + s.dirEntry pa h i)

/-- The details of check HEADER for the image (R346). -/
def State.imgFails (s : State) (pa : Nat) (h : ImgHdr) : List LoadFail :=
  let d1 := h.version != 1
  let d2 := h.entries == 0
  let offs := (List.range h.entries).map fun i => s.dirEntry pa h i
  let d3 := !(h.inside h.dirOff (8 * h.entries) && (h.spanOff == 0 || h.inside h.spanOff (Config.spanTableLen (s.rdBytes pa h.sigOff))) &&
    (h.dataLen == 0 || h.inside h.dataOff h.dataLen) && (h.constOff == 0 || h.inside h.constOff 264) &&
    offs.all fun o => h.inside o (8 * (8 + hdrLen (s.recHdr (pa + o)))))
  let d4 := offs.any fun o => o % 8 != 0
  let d5 := h.ovl != 0xFFF && !(s.imgBlocks pa h).any fun b => b.bid == h.ovl
  ([(d1, 1), (d2, 2), (d3, 3), (d4, 4), (d5, 5)].filter fun (x : Bool × Nat) => x.1).map fun x => wholeFail 0x01 x.2

/-- The default partition of R344. -/
def defaultPart : Nat := 4 + 8 * 16 + 6 * 256 + 6 * 4096
def ImgHdr.partOf (h : ImgHdr) : Nat := if h.part = 0 then defaultPart else h.part

/-! ## The signature (R344) -/

/-- The public key of a Clolas slot: slots 0 to 3 from ROM, 4 to 15 as KEYSET filled them; empty when none (R432). -/
def State.keyOf (s : State) (slot : Nat) : List Byte := if slot < 4 then Config.romKey slot else s.dev.keys.atD slot []

/-- Bytes of an ML-DSA-44 signature. -/
def sigLen : Nat := 2420

/-- The trailer names a filled key slot, and its signature is valid. -/
def State.signedOk (s : State) (pa len : Nat) (h : ImgHdr) : Bool :=
  let t := pa + h.sigOff
  let slot := s.rdNat t 1
  if len < h.sigOff + 4 + sigLen ∨ s.rdNat (t + 1) 3 ≠ 0 ∨ 16 ≤ slot ∨ (s.keyOf slot).isEmpty then false
  else Config.mlDsaVerify (s.keyOf slot) (Config.sha3 (s.rdBytes pa h.sigOff)) (s.rdBytes (t + 4) sigLen)

end Sys2Proof.Machine
end

