-- ==== Sys2Proof/Machine/EvSteward.lean ====
section
/-! DEFINITION. The steward's launches (R340 to R348, R419): verification and checks, placement, spans (R313), the configuration of
tiles, arming, source instances (R11), RECONFIG and the swap (R361), and the end of a region's hold on its tiles. -/

namespace Sys2Proof.Machine

/-! ## Die edges (R440) -/

/-- The number of the die-edge port through which a packet enters a tile, along x or along y. -/
def edgePort (tile : Nat) (alongY : Bool) : Nat := 36 + 2 * tile + bit01 alongY

/-- The die-edge ports that a path crosses. -/
def pathEdges : List Nat → List Nat
  | a :: b :: rest =>
    (if dieOf a = dieOf b then [] else [edgePort b (pkgX a == pkgX b)]) ++ pathEdges (b :: rest)
  | _ => []

/-! ## Placement (R347, R348) -/

/-- The tiles of a cluster whose lowest tile is given, row by row, when they lie on the die. -/
def rectTiles (die y x w h : Nat) : Option (List Nat) :=
  if y + h ≤ 12 ∧ x + w ≤ 16 then
    some ((List.range h).flatMap fun j => (List.range w).map fun i => tileAt die (y + j) (x + i))
  else none

/-- The scan: clusters of eligible tiles, until they hold `need` cores; every cluster when `need` is 0. -/
def scanClusters (ok : Nat → Bool) (w h need : Nat) : List Nat :=
  let places := (List.range 4).flatMap fun d => (List.range 12).flatMap fun y => (List.range 16).map fun x => (d, y, x)
  places.foldl (fun taken p =>
    if need ≠ 0 ∧ need ≤ taken.length then taken
    else
      match rectTiles p.1 p.2.1 p.2.2 w h with
      | none => taken
      | some ts => if ts.all fun t => ok t && !taken.contains t then taken ++ ts else taken) []

/-- A tile that a launch of a tenant may take: it belongs to no region, be it of a launch or of a steward graph's stream (R347, R419); a RECONFIG, with its region's number and tiles, places within them (R361). -/
def State.eligible (s : State) (tenant : Nat) (own : Option (Nat × List Nat)) (ci : Nat) : Bool :=
  s.tileEnabled ci && s.dev.tileTenant.atD ci 0 == tenant &&
    match own with
    | some o => o.2.contains ci
    | none => (s.core ci).region.isNone

/-- The steward core that takes launch tokens (R419). -/
def stewardCore : Nat := 1024

/-- The steward can run a graph of its own now. -/
def State.stewardFree (s : State) (own : Option (Nat × List Nat)) : Bool :=
  match own with
  | some o => o.2.contains stewardCore
  | none => (s.core stewardCore).region.isNone

/-- Blocks as a launch places them (R348). -/
def placeBlocks (bytes : List Byte) (n : Nat) (bs : List ImgBlock) : List BlockInfo :=
  sortBy (fun a b => a.bid ≤ b.bid) (bs.map fun b =>
    let (count, hs) := Config.placeOf bytes b.bid
    { bid := b.bid, recPA := b.recPA, hdr := b.hdr, body := b.body,
      place := if count = 0 ∨ n < count then n else count, hs := hs % 32 })

/-- The blocks placed on grid core k, bound to slots 0, 1, … : the overlay loader first, then in ascending BID while they fit. -/
def bindSlots (ovl k : Nat) (bs : List BlockInfo) : List BlockInfo :=
  let here := bs.filter fun b => k < b.place
  let order := (here.filter fun b => b.bid == ovl) ++ here.filter fun b => b.bid != ovl
  let rec go : Nat → Nat → List BlockInfo → List BlockInfo
    | _, _, [] => []
    | slots, words, b :: rest =>
      let n := words + 4 + hdrLen b.hdr
      if slots < 128 ∧ n ≤ storeWords then b :: go (slots + 1) n rest else []
  go 0 0 order

/-- The tile at a link port (below 36) or at the input of a die-edge port. -/
def portAt (p : Nat) : Nat := if p < 36 then linkTile p else (p - 36) / 2

/-- R313, R316: a span's ends, lanes and adders as the launch binds them, and the ports whose lanes it binds: the die edges that its path
crosses, the link ports on the path at which it has an adder, and the port at which an injected span ends (log entry 157). -/
def bindSpan (cores : List Nat) (tab : List (Nat × Nat × Nat × List (Nat × Nat × Nat))) (i : Nat) : SpanPlan :=
  match tab[i]? with
  | none => { producer := 0, consumer := 0, lanes := 0, links := [], adders := [] }
  | some (p, c, lanes, adders) =>
    let tile (k : Nat) : Nat := (cores[k]?).getD 0
    let port := tab.findSome? fun x => (x.2.2.2.find? fun a => a.2.1 == i).map fun a => a.2.2
    let path := pkgPath (tile p) ((port.map portAt).getD (tile c))
    let met := (adders.map fun a => a.2.2).filter fun q => decide (q < 36) && path.contains (linkTile q)
    { producer := p, consumer := c, lanes := lanes, links := dedup (pathEdges path ++ met ++ (port.filter fun q => q < 36).toList),
      adders := adders.map fun a => (a.1, a.2.1) }

/-- The span table breaks a rule of R313 or R316; the lanes of the region that the launch replaces count no more (R361). A span
that ends at a pier adder, as another span injects it, has no two ends on one die (log entry 174). -/
def State.spanRejected (s : State) (own : Option (Nat × List Nat)) (cores : List Nat) (tab : List (Nat × Nat × Nat × List (Nat × Nat × Nat))) : Bool :=
  let plans := (List.range tab.length).map (bindSpan cores tab)
  let injected (i : Nat) : Bool := tab.any fun x => x.2.2.2.any fun a => a.2.1 == i
  let die (k : Nat) : Nat := dieOf ((cores[k]?).getD 0)
  let ends := plans.zipIdx.flatMap fun x => if injected x.2 then [x.1.producer] else [x.1.producer, x.1.consumer]
  let ports := dedup (plans.flatMap fun x => x.links)
  let lanesOn (p : Nat) : Nat :=
    ((plans.filter fun x => x.links.contains p).map SpanPlan.lanes).foldl (· + ·) 0 +
      ((s.spans.filter fun x => x.region != 0 && some x.region != own.map Prod.fst && x.links.contains p).map Span.lanes).foldl (· + ·) 0
  (plans.zipIdx.any fun x => cores.length ≤ x.1.producer || cores.length ≤ x.1.consumer ||
      (!injected x.2 && die x.1.producer == die x.1.consumer) || 8 < x.1.adders.length) ||
    (ends.any fun k => 16 < (ends.filter (· == k)).length) || (ports.any fun p => 6 < lanesOn p) ||
    tab.zipIdx.any fun x => x.1.2.2.2.any fun a => !(bindSpan cores tab x.2).links.contains a.2.2

/-! ## The launch record (R342) -/

/-- `n` bytes of the launch record at an offset. -/
def State.recField (s : State) (recPA off n : Nat) : Nat := s.rdNat (recPA + off) n

/-- EOS_EXPECT j. -/
def State.eosExpect (s : State) (recPA j : Nat) : Nat :=
  if j < 14 then s.recField recPA (0x48 + 4 * j) 4 else s.recField recPA (0x188 + 4 * (j - 14)) 4

/-- The constant table, entry by entry. -/
def State.constTable (s : State) (recPA img : Nat) (h : ImgHdr) : List Word :=
  let kovr := s.recField recPA 0x180 8
  let mask := if h.constOff = 0 then 0 else s.rdNat (img + h.constOff) 8
  (List.range 64).map fun n =>
    if mask / 2 ^ n % 2 = 1 ∧ kovr / 2 ^ n % 2 = 0 then w32 (s.rdNat (img + h.constOff + 8 + 4 * n) 4)
    else w32 (s.recField recPA (0x80 + 4 * n) 4)

/-- The partition of a steward graph (R419). -/
def stewardPart : Nat := 4 + 4 * 16 + 2 * 256 + 2 * 4096

/-- Steps 1 to 4 of R345: the plan of a launch, or the failures of the first step that fails. Of a steward graph step 4 checks the record's
fields, the context and the key only (R419); one that a RECONFIG names must place within the region's tiles (R361). -/
def State.makePlan (s : State) (recPA seq : Nat) (own : Option (Nat × List Nat)) : Except (List LoadFail) Plan :=
  let r (off n : Nat) : Nat := s.recField recPA off n
  let img := field (r 0 8) 0 52
  let h := s.imgHdr img
  let key := field (r 0xC 4) 0 16
  let tenant := field (r 0xC 4) 16 4
  let wlog := field (r 0xC 4) 20 3
  let asid := field (r 0x10 4) 0 16
  let want := field (r 0x10 4) 16 12
  let steward := want == 0xFFF
  if !s.signedOk img (r 8 4) h then .error [wholeFail 0x0E (s.rdNat (img + h.sigOff) 1)]
  else
    let hf := s.imgFails img h
    if !hf.isEmpty then .error hf
    else
      let bs := s.imgBlocks img h
      let part := if steward then stewardPart else h.partOf
      let bf := (if h.part ≠ 0 ∧ !partOk h.part then [wholeFail 0x0B 0] else []) ++ blockFails bs (field part 0 4)
      if !bf.isEmpty then .error bf
      else
        let w := h.clw + 1
        let hh := h.clh + 1
        let shapeBad := !steward && (12 < w * hh || 12 < hh || want % (w * hh) != 0)
        let cores := if steward then [stewardCore]
          else if shapeBad then [] else scanClusters (s.eligible tenant own) w hh want
        let few := if steward then own.isSome && !s.stewardFree own else !shapeBad && (cores.isEmpty || cores.length < want)
        let placed := !steward && !shapeBad && !few
        let n := cores.length
        let blocks := placeBlocks (s.rdBytes img h.sigOff) n bs
        let sinks := bs.filter fun b => hdrSink b.hdr
        let crossing := !steward && cores.any fun a => cores.any fun b => (pkgPath a b).any fun t => s.dev.tileTenant.atD t 0 != tenant
        let ovlBad := h.ovl != 0xFFF && blocks.any fun b => b.bid == h.ovl && (b.place != n || b.hs != 0)
        let tab := if h.spanOff = 0 then [] else Config.spanTable (s.rdBytes img h.sigOff)
        let unbound := h.ovl == 0xFFF && (List.range n).any fun k =>
          (bindSlots h.ovl k blocks).length != (blocks.filter fun b => k < b.place).length
        let used := (s.dev.stewardq.any fun p => p.key == key) || s.dev.regions.any fun x => x.key == key && !x.loose && match own with
          | some o => x.num != o.1
          | none => true
        let checks : List (Bool × Nat) :=
          [(!s.ctxValid asid, 1), (key == 0 || used, 2), (few, 3), (shapeBad, 4), (placed && ovlBad, 5),
           (placed && s.spanRejected own cores tab, 6), (!steward && decide (76 < sinks.length), 7), (placed && crossing, 8),
           (placed && unbound, 10), (decide (5 < wlog), 11)]
        let fails := (checks.filter fun (x : Bool × Nat) => x.1).map fun x => wholeFail 0x0F x.2
        if !fails.isEmpty then .error fails
        else .ok {
          recPA := recPA, seq := seq, asid := asid, key := key, tenant := tenant, wlog := wlog,
          complPA := field (r 0x18 8) 0 52, reportPA := field (r 0x20 8) 0 52, tagCount := r 0x34 4, tagFirst := r 0x38 4,
          consts := s.constTable recPA img h, eos := (List.range sinks.length).map (s.eosExpect recPA),
          prVA := field (r 0x28 8) 0 56, prSize := r 0x30 4, pltVA := field (r 0x40 8) 0 56,
          rlCount := field (r 0x14 4) 0 16, rlWindow := field (r 0x14 4) 16 16, part := part,
          clw := if steward then 0 else h.clw, clh := if steward then 0 else h.clh, ovl := h.ovl,
          dataPA := img + h.dataOff, dataLen := h.dataLen, dataVA := h.dataVA, steward := steward, blocks := blocks,
          cores := cores, spans := (List.range tab.length).map (bindSpan cores tab) }

/-! ## Completion words and reports (R343, R346) -/

/-- Write the completion word at an address; a region that no launch record made has none. -/
def State.completion (s : State) (complPA st region seq : Nat) : State :=
  if looseBase ≤ region then s
  else s.agentWrite complPA (natLe 8 (st * 2 ^ 56 + region * 2 ^ 32 + seq))

def stArmed : Nat := 1
def stComplete : Nat := 2
def stLoadFailed : Nat := 3
def stAborted : Nat := 4
def stDiscarded : Nat := 5

/-- A launch fails: the report, then LOAD_FAILED. -/
def State.loadFailed (s : State) (recPA seq : Nat) (fs : List LoadFail) : State :=
  let s := s.agentWrite (field (s.recField recPA 0x20 8) 0 52) (reportBytes fs)
  s.completion (field (s.recField recPA 0x18 8) 0 52) stLoadFailed 0 seq

/-! ## Step 5: the data section and the placement table -/

/-- Words of the placement table (R347). -/
def Plan.table (p : Plan) : List Nat :=
  let per := (p.clw + 1) * (p.clh + 1)
  (p.cores.length + p.clw * 2 ^ 16 + p.clh * 2 ^ 20) ::
    p.cores.zipIdx.map fun x =>
      dieOf x.1 * 2 ^ 8 + tileY x.1 * 2 ^ 4 + tileX x.1 + x.2 / per * 2 ^ 16 + x.2 % per * 2 ^ 28

/-- Store bytes through an ASID's tables as a privileged store; the cause of the first failure. -/
def State.stewardStore (s : State) (asid va : Nat) (bs : List Byte) : Option Nat × State :=
  bs.zipIdx.foldl (fun (acc : Option Nat × State) x =>
    match acc with
    | (some e, s) => (some e, s)
    | (none, s) =>
      match s.translateNow stewardCore asid (va + x.2) { write := true, priv := true, peer := false } with
      | .error e => (some e.1, s)
      | .ok (.mem pa _) => (none, s.agentWrite pa [x.1])
      | .ok (.peer _ _ _) => (some xKind, s)) (none, s)

/-- Step 5. -/
def State.stageData (s : State) (p : Plan) : Option Nat × State :=
  match s.stewardStore p.asid p.dataVA (s.rdBytes p.dataPA p.dataLen) with
  | (some e, s) => (some e, s)
  | (none, s) => s.stewardStore p.asid p.pltVA (p.table.flatMap fun w => natLe 8 w)

/-! ## Step 6: the configuration of each tile -/

/-- Poste restante base of grid core k. -/
def Plan.prBase (p : Plan) (k : Nat) : Nat := p.prVA + k * p.prSize * 4096

/-- The tiles that reject their stream: a value of the launch does not fit its field (R350). -/
def Plan.rejects (p : Plan) : List LoadFail :=
  if p.steward then []
  else p.cores.zipIdx.filterMap fun x =>
    if 2 ^ 56 ≤ p.prBase x.2 ∨ (p.blocks.any fun b => 2 ^ 52 ≤ b.recPA) then
      some (wholeFail 0x10 (dieOf x.1 * 2 ^ 8 + tileY x.1 * 2 ^ 4 + tileX x.1 + 3 * 2 ^ 13))
    else none

/-- The route entry of one tile to another. -/
def routeEntry (from_ to_ : Nat) : Nat :=
  2 ^ 15 + dieOf to_ * 2 ^ 13 + ofIntN ((tileY to_ : Int) - tileY from_) 5 * 2 ^ 8 + ofIntN ((tileX to_ : Int) - tileX from_) 5

/-- Whether a block is a sink, and its place among the sinks. -/
def Plan.sinkIx (p : Plan) (bid : Nat) : Option Nat := (p.blocks.filter fun b => hdrSink b.hdr).findIdx? fun b => b.bid == bid

/-- The configuration of grid core k (R348, R350). -/
def Plan.config (p : Plan) (k ci : Nat) : CoreCfg :=
  let per := (p.clw + 1) * (p.clh + 1)
  let slots := (bindSlots p.ovl k p.blocks).zipIdx.map fun x =>
    let b := x.1
    let eosx := if k = 0 then ((p.sinkIx b.bid).bind fun j => p.eos[j]?).getD 0 else 0
    (x.2, { bid := b.bid, timer := hdrTimer b.hdr, prio := hdrPrio b.hdr, pfirst := 0, pcount := b.place, hs := b.hs, eosx := eosx,
            recPA := b.recPA, resident := false, closing := false, storeAt := 0, lastColl := 0, hdr := b.hdr, body := b.body })
  { part := p.part, asid := p.asid, key := p.key, tenant := p.tenant, core := k, ncores := p.cores.length, prVA := p.prBase k,
    prSize := p.prSize, clus := k / per, clpos := k % per + p.clw * 2 ^ 8 + p.clh * 2 ^ 12, ovl := p.ovl, bdirPA := 0,
    rlCount := p.rlCount, rlWindow := p.rlWindow,
    routes := if p.steward then [] else p.cores.zipIdx.map fun x => (x.2, routeEntry ci x.1), slots := slots }

/-- A tile's receiver after a stream of the steward's own: sequence number, count and acknowledgement address are the steward's. -/
def State.ownStream (s : State) (ci : Nat) (st : StreamState) : State :=
  let (n, s) := s.fresh
  let v := Config.freeChoice n
  let t (c : CfgStream) : CfgStream :=
    { c with state := st, shadow := none, pieces := [], seq := v % 2 ^ 16, count := v / 2 ^ 16 % 2 ^ 24, bad := none,
             ackPA := v / 2 ^ 40 % 2 ^ 33 * 8 }
  s.modCore ci fun c => { c with stream := t c.stream }

/-! ## Step 7: arming -/

/-- The next free region number (R343). -/
def State.regionNum (s : State) : Nat :=
  let used (n : Nat) : Bool := s.dev.regions.any fun r => r.num == n
  let first := s.dev.nextRegion
  (((List.range 65535).map fun i => (first + i - 1) % 65535 + 1).find? fun n => !used n).getD first

/-- Keys that a membership table holds (R296). -/
def portKeyMax : Nat := 256

/-- A key takes the tenant of its graph (R297), and every link port's membership table has it added where the table has room (log entry 158). -/
def State.addKey (s : State) (key tenant : Nat) : State :=
  let k := BitVec.ofNat 16 key
  let add (m : NMap (List (BitVec 16))) (port : Nat) : NMap (List (BitVec 16)) :=
    let ks := m.atD port []
    m.put [] port (if ks.contains k ∨ portKeyMax ≤ ks.length then ks else ks ++ [k])
  s.setDev { s.dev with portKeys := (List.range 36).foldl add s.dev.portKeys, keyTenant := s.dev.keyTenant.put 0 key tenant }

/-- A key leaves the membership tables (R296); what it says of its tenant stays. -/
def State.removeKey (s : State) (key : Nat) : State :=
  let k := BitVec.ofNat 16 key
  let del (m : NMap (List (BitVec 16))) (port : Nat) : NMap (List (BitVec 16)) := m.put [] port ((m.atD port []).filter (· != k))
  s.setDev { s.dev with portKeys := (List.range 36).foldl del s.dev.portKeys }

/-- Arm one tile or the steward's core for a region. -/
def State.armFor (s : State) (p : Plan) (num k ci : Nat) : State :=
  let s := if p.steward then s else s.ownStream ci .armed
  let s := s.armCore ci (p.config k ci)
  s.modCore ci fun c => { c with region := some num, consts := p.consts.zipIdx.foldl (fun m x => NMap.put 0 m x.2 x.1) [] }

/-- The spans of a plan, bound for a region. -/
def Plan.newSpans (p : Plan) (num : Nat) : List Span :=
  p.spans.zipIdx.map fun x =>
    let tile (k : Nat) : Nat := (p.cores[k]?).getD 0
    { handle := x.2, region := num, producer := tile x.1.producer, consumer := tile x.1.consumer, lanes := x.1.lanes,
      links := x.1.links, credits := spanCredit, sentBytes := 0, takenBytes := 0, waiting := [], flight := [],
      adders := x.1.adders, atAdder := x.1.adders.map fun _ => [], broken := false }

/-- The sinks of a plan; a sink with EOSX = 0 reports at arm (R362). -/
def Plan.sinks (p : Plan) : List Sink :=
  (p.blocks.filter fun b => hdrSink b.hdr).zipIdx.map fun x =>
    let n := (p.eos[x.2]?).getD 0
    { bid := x.1.bid, expect := n, core := (p.cores[0]?).getD 0, reported := n == 0 }

/-- The region of a plan at arming; its packets go over the links that are trained then (R294). -/
def Plan.region (p : Plan) (num now : Nat) (ports : List Nat) : Region :=
  { num := num, asid := p.asid, key := p.key, tenant := p.tenant, cores := p.cores, steward := p.steward, recPA := p.recPA,
    complPA := p.complPA, seq := p.seq, armedAt := now, colours := [(0, { live := true, wlog := p.wlog, parent := none })],
    flth := 0, fid := 1, sinks := p.sinks, blocks := p.blocks, sweep := none, quiescent := false, stalled := none,
    ending := none, reconfig := none, ports := ports }

/-- Arm every tile, add the key, and write the report, with no failure in it, and ARMED (R345, R346). Answers the region's number. -/
def State.armPlan (s : State) (p : Plan) : Nat × State :=
  let num := s.regionNum
  let s := p.cores.zipIdx.foldl (fun s x => s.armFor p num x.2 x.1) s
  let s := { s with spans := s.spans ++ p.newSpans num }.addKey p.key p.tenant
  let s := s.setDev { s.dev with regions := s.dev.regions ++ [p.region num s.gtc s.trained], nextRegion := num % 65535 + 1 }
  (num, (s.agentWrite p.reportPA (reportBytes [])).completion p.complPA stArmed num p.seq)

/-- The source instances go to their home cores, in ascending tag order (R11), and are created there. -/
def State.createSources (s : State) (p : Plan) : State :=
  let jobs := (p.blocks.filter fun b => hdrArity b.hdr == 0).flatMap fun b =>
    (List.range p.tagCount).map fun i =>
      let tag := (p.tagFirst + i) % 2 ^ 32
      ((p.cores[tag / 2 ^ b.hs % max b.place 1]?).getD 0, b.bid, w32 tag)
  let s := jobs.foldl (fun s j => s.modCore j.1 fun c => { c with sources := c.sources ++ [j.2] }) s
  p.cores.foldl (fun s ci => s.collectAll ci) s

/-! ## LAUNCH and RECONFIG -/

/-- Steps 1 to 6 of R345: the failures, or the plan with its data staged. Tiles whose launch fails at step 6 are rolled back. -/
def State.prepare (s : State) (recPA seq : Nat) (own : Option (Nat × List Nat)) : Except (List LoadFail) Plan × State :=
  match s.makePlan recPA seq own with
  | .error fs => (.error fs, s)
  | .ok p =>
    match s.stageData p with
    | (some e, s) => (.error [wholeFail 0x0F (9 + e % 256 * 2 ^ 8)], s)
    | (none, s) =>
      let fs := p.rejects
      if fs.isEmpty then (.ok p, s)
      else (.error fs, p.cores.foldl (fun s ci => s.ownStream ci .rolledBack) s)

/-- The head of the launch queue: its OPC, RECPA, SEQ and REGION (R341), with the queue behind it. -/
def State.launchHead (s : State) : Option (Nat × Nat × Nat × Nat × State) :=
  match s.dev.launchq with
  | [] => none
  | t :: rest =>
    let w (i : Nat) : Nat := ((t[i]?).getD 0).toNat
    some (field (w 0) 0 8, field (w 1) 0 52, field (w 2) 0 32, field (w 3) 0 16, s.setDev { s.dev with launchq := rest })

/-- A steward graph whose turn has come: the steward runs none. -/
def State.stewardTurn (s : State) : Option (Plan × State) :=
  match s.dev.stewardq with
  | [] => none
  | p :: ps => if s.stewardFree none then some (p, s.setDev { s.dev with stewardq := ps }) else none

/-- LAUNCH: the steward takes a LAUNCH token through the steps of R345. A steward graph that comes while another runs waits at step 7, and
keeps no other launch waiting (R419; log entry 118). -/
def execLaunch (s : State) : Out :=
  match s.stewardTurn with
  | some (p, s) => .next ((s.armPlan p).2.createSources p)
  | none =>
    match s.launchHead with
    | some (1, recPA, seq, _, s) =>
      .next (match s.prepare recPA seq none with
        | (.error fs, s) => s.loadFailed recPA seq fs
        | (.ok p, s) =>
          if p.steward && !(s.stewardFree none && s.dev.stewardq.isEmpty) then s.setDev { s.dev with stewardq := s.dev.stewardq ++ [p] }
          else (s.armPlan p).2.createSources p)
    | _ => .next s

/-- RECONFIG: the steward takes a RECONFIG token through steps 1 to 6; the new key is a member at once, and the swap waits for
quiescence. One swap waits at a time for a region. -/
def execReconfig (s : State) : Out :=
  match s.launchHead with
  | some (2, recPA, seq, num, s') =>
    let own := (s.region? num).filter fun r => r.ending.isNone
    if own.any fun r => r.reconfig.isSome then .next s
    else
      .next (match s'.prepare recPA seq (some ((own.map fun r => (r.num, r.cores)).getD (0, []))) with
        | (.error fs, s) => s.loadFailed recPA seq fs
        | (.ok p, s) =>
          match s.region? num with
          | some r => (s.setRegion { r with reconfig := some p }).addKey p.key p.tenant
          | none => s)
  | _ => .next s

/-! ## The end of a region's hold (R361, R363, R391) -/

/-- A core of a region that is over: instances, queues and storage are gone; the tile keeps its configuration. -/
def Core.release (c : Core) : Core :=
  { Core.empty with cfg := c.cfg, stream := c.stream, nextNum := c.nextNum }

/-- A region's key and tiles are free, with the key of a RECONFIG that waits for it, and its spans bind no lanes. The key that the next
region has stays a member. -/
def State.releaseRegion (s : State) (r : Region) (keep : Nat) : State :=
  let s := r.cores.foldl (fun s ci => s.modCore ci Core.release) s
  let free (x : Span) : Span := if x.region = r.num then { x with region := 0 } else x
  let s := { s with spans := s.spans.map free }
  let keys := if r.loose then [] else (r.key :: ((r.reconfig.map fun p => p.key).toList)).filter (· != keep)
  let s := keys.foldl (fun s k => s.removeKey k) s
  (s.setDev { s.dev with regions := s.dev.regions.filter fun x => x.num != r.num,
                         requests := s.dev.requests.filter fun q => !r.cores.contains q.core,
                         bundles := s.dev.bundles.filter fun b => !r.cores.contains b.core }).tryRestart

/-- Packets of a key that waited for its region are taken in (R361). -/
def State.releaseHeld (s : State) (key : Nat) : State :=
  let (mine, rest) := s.dev.held.partition fun e => e.2.key.toNat == key
  mine.foldl (fun s e => match e.2.body with
    | .token t => s.tokenIn e.1 e.2 t
    | _ => s) (s.setDev { s.dev with held := rest })

/-- Every sink of the region has reported. -/
def Region.sinksDone (r : Region) : Bool := r.sinks.all fun k => k.reported

/-- RECONFIG_SWAP: at quiescence the old region's last word is written, its instances and key go, the new region is armed, and held
packets and sources come in. -/
def execReconfigSwap (region : Nat) (s : State) : Out :=
  match s.region? region with
  | none => .next s
  | some r =>
    match r.reconfig with
    | none => .next s
    | some p =>
      if !s.quietNow r || r.ending.isSome then .next s
      else
        let s := s.completion r.complPA (if r.sinksDone then stComplete else stDiscarded) r.num r.seq
        let s := s.releaseRegion r p.key
        let s := (s.armPlan p).2
        .next ((s.releaseHeld p.key).createSources p)

end Sys2Proof.Machine
end

