-- ==== Sys2Proof/Machine/Saves.lean ====
section
/-! DEFINITION. The save area (R394): what it holds of a region and of each core, as bytes, and the reading back of a core from its section.
R394 says what each part holds and where it lies; the places of the fields within a part are the model's (log entry 180). -/

namespace Sys2Proof.Machine

/-! ## Fields in a number -/

/-- Fields of (width, value), the first in the lowest bits. -/
def packBits : List (Nat × Nat) → Nat
  | [] => 0
  | (w, v) :: rest => v % 2 ^ w + 2 ^ w * packBits rest

/-- The values of fields of these widths. -/
def unpackBits : List Nat → Nat → List Nat
  | [], _ => []
  | w :: ws, v => v % 2 ^ w :: unpackBits ws (v / 2 ^ w)

/-- A value by its place. -/
def at? (vs : List Nat) (i : Nat) : Nat := (vs[i]?).getD 0

/-! ## Places of the area -/

/-- The section of grid core c. -/
def saveSection (pa c : Nat) : Nat := pa + 0x10000 + c * 0x200000

/-- A save area lies 64 KiB aligned in HBM or host memory. -/
def saveAreaOk (pa n : Nat) : Bool :=
  pa % 65536 == 0 && (zoneOf pa == .hbm || zoneOf pa == .host) && zoneOf (saveSection pa n - 1) == zoneOf pa

/-- STATE and NCORES of a save area. -/
def State.saveState (s : State) (pa st n : Nat) : State := s.agentWrite (pa + 0x280) (natLe 4 (st + n * 2 ^ 16))

/-- A line of memory from `pa` on, `n` bytes, is poisoned or has an uncorrectable error (R403, STATUS 0x05). -/
def State.badRange (s : State) (pa n : Nat) : Bool :=
  let lo := lineOf (canonPA pa)
  let hi := lineOf (canonPA (pa + n - 1))
  (s.memErr ++ s.poisoned).any fun ln => decide (lo ≤ ln ∧ ln ≤ hi)

/-- A word of the colour table: colour word, parent, LIVE. -/
def Colour.saved (id : Nat) (c : Colour) : Nat :=
  if c.live then packBits [(12, id), (4, c.wlog), (12, c.parent.getD 0), (1, bit01 c.parent.isSome), (2, 0), (1, 1)] else 0

def readColour (v : Nat) : Colour :=
  let f := unpackBits [12, 4, 12, 1, 2, 1] v
  if at? f 5 = 1 then { live := true, wlog := at? f 1, parent := if at? f 3 = 1 then some (at? f 2) else none }
  else { live := false, wlog := 0, parent := none }

/-! ## Matching entries -/

/-- An entry in its section: 32 bytes, with the parked collection it belongs to and its place in it. -/
structure SavedEntry where
  entry : Entry
  coll : Nat
  pos : Nat
  handed : Bool
  deriving DecidableEq, Repr

def savedEntryWidths : List Nat := [32, 12, 12, 8, 1, 1, 12, 5, 16, 16, 13, 32, 64, 1]

/-- TAG, COLOUR, BID, presence, COMPLETE, PARKED with the collection, the frame's lines and line index, the remaining collection period, and
the latest arrival. -/
def SavedEntry.bits (x : SavedEntry) (now : Nat) : Nat :=
  let e := x.entry
  let parked := match e.phase with
    | .parked _ => true
    | _ => false
  packBits (savedEntryWidths.zip [e.tag.toNat, e.colour, e.bid, e.presence.toNat, bit01 (e.phase != .incomplete), bit01 parked, x.coll, x.pos,
    e.lines, e.frame / 128, 0, e.deadline - now, e.latest, bit01 x.handed])

/-- An entry read back: a remaining period for its deadline, and stamps that the area does not keep, as free values from a number on. -/
def readEntry (v free : Nat) (fid : Nat → Nat) : SavedEntry :=
  let f := at? (unpackBits savedEntryWidths v)
  let slots := (List.range 8).filter fun j => f 3 / 2 ^ j % 2 == 1
  { entry := { bid := f 2, colour := f 1, tag := w32 (f 0), presence := BitVec.ofNat 8 (f 3),
               stamps := slots.map fun j => (j, Config.freeChoice (free + j) % 2 ^ 64), latest := f 12, frame := f 9 * 128, lines := f 8,
               phase := if f 5 = 1 then .parked (fid (f 6)) else if f 4 = 1 then .complete else .incomplete,
               completed := 0, deadline := f 11 },
    coll := f 6, pos := f 7, handed := f 13 == 1 }

/-- The entries of a core in its section, in the order of their numbers, and behind them the frames that SENDF hands on (R369). -/
def Core.savedEntries (c : Core) : List SavedEntry :=
  let parks := c.park ++ c.parkOver
  let of_ (e : Nat × Entry) : SavedEntry :=
    let k := (parks.findIdx? fun p => p.insts.contains e.1).getD 0
    { entry := e.2, coll := k, pos := (((parks[k]?).bind fun p => p.insts.findIdx? (· == e.1)).getD 0), handed := false }
  let onward (h : Nat × Nat × Nat) : SavedEntry :=
    { entry := { bid := 0xFFF, colour := 0, tag := 0, presence := 0, stamps := [], latest := 0, frame := h.2.1, lines := h.2.2,
                 phase := .incomplete, completed := 0, deadline := 0 }, coll := 0, pos := 0, handed := true }
  c.entries.map of_ ++ c.handed.map onward

/-! ## Held tokens -/

def scopes : List Scope := [.grp, .team, .clus, .die, .dev, .dom, .pool, .sys]
def tokKinds : List TokKind := [.normal, .eos, .handler, .notify]

def tokenWidths : List Nat := [12, 3, 12, 3, 3, 2, 5, 32]

/-- The first 72 bits of a token's 80 bytes; its payload fills the last 64 bytes. -/
def tokenHead (t : Token) : Nat :=
  packBits (tokenWidths.zip [t.blk.toNat, t.slot.toNat, t.colour.toNat, t.wlog.toNat, scopeRank t.rscope,
    (tokKinds.findIdx? (· == t.kind)).getD 0, t.payload.length, t.tag.toNat])

def readToken (bs : List Byte) : Token :=
  let f := at? (unpackBits tokenWidths (leNat (bs.take 9)))
  { kind := (tokKinds[f 5]?).getD .normal, blk := BitVec.ofNat 12 (f 0), slot := BitVec.ofNat 3 (f 1), colour := BitVec.ofNat 12 (f 2),
    wlog := BitVec.ofNat 3 (f 3), rscope := (scopes[f 4]?).getD .grp, tag := w32 (f 7),
    payload := (List.range (f 6)).map fun i => w32 (leNat ((bs.drop (16 + 4 * i)).take 4)) }

/-- 80 bytes of a token with the 7 bytes that say how it is held. -/
def tokenBytes (t : Token) (how : Nat) : List Byte :=
  natLe 9 (tokenHead t) ++ natLe 7 how ++ (List.range 64).map fun i => ((t.payload[i / 4]?).map fun w => BitVec.ofNat 8 (w.toNat / 2 ^ (8 * (i % 4)))).getD 0

def heldWidths : List Nat := [8, 6, 6, 3, 1, 12, 1, 13]

/-- The place of a handed frame among the saved entries. -/
def Core.handedIx (c : Core) (id : Nat) : Nat := c.entries.length + (c.handed.findIdx? fun h => h.1 == id).getD 0

/-- A token that barriers hold: their channels (team in bits 3:0, cluster in bits 7:4) with their team and colour, the group slot, the scope,
whether a word of the block sent it, and the frame handed on with it. -/
def Core.savedHeld (c : Core) : List (List Byte) :=
  c.outbox.filterMap fun o =>
    let mask := (o.bars.map fun b => 2 ^ (b.2.2.1 + if b.1 then 4 else 0)).foldl (· + ·) 0
    let team := ((o.bars.find? fun b => !b.1).map fun b => b.2.1).getD 0
    let col := ((o.bars.find? fun b => b.1).map fun b => b.2.1).getD 0
    let how (frame : Option Nat) : Nat := packBits (heldWidths.zip [mask, team, o.grp, scopeRank o.scope, bit01 o.sent, col, bit01 frame.isSome,
      (frame.map c.handedIx).getD 0])
    match o.item with
    | .token t => some (tokenBytes t (how none))
    | .frameTok t e => some (tokenBytes t (how (some e)))
    | _ => none

/-- A held token read back; the generation that holds it is the current one of its channels. -/
def readHeld (asid : Nat) (ids : Nat → Nat) (bs : List Byte) : OutItem :=
  let t := readToken bs
  let f := at? (unpackBits heldWidths (leNat ((bs.drop 9).take 7)))
  let bars := (List.range 8).filterMap fun i =>
    if f 0 / 2 ^ i % 2 = 1 then some (decide (4 ≤ i), if 4 ≤ i then f 5 else f 1, i % 4, 1) else none
  { commit := 0, grp := f 2, asid := asid, scope := (scopes[f 3]?).getD .grp, bars := bars, after := [], sent := f 4 == 1,
    item := if f 6 = 1 then .frameTok t (ids (f 7)) else .token t }

def overlayWidths : List Nat := [13, 10, 8, 1, 10, 1, 13]

/-- A token of the overlay hold, with its sender. -/
def Core.savedOverlay (c : Core) : List (List Byte) :=
  c.overlay.map fun t => tokenBytes t.tok (packBits (overlayWidths.zip [t.srcDev, t.srcCore, t.inc.toNat, bit01 t.grp.isSome, t.grp.getD 0,
    bit01 t.frame.isSome, (t.frame.map c.handedIx).getD 0]))

def readOverlay (asid key : Nat) (ids : Nat → Nat) (bs : List Byte) : InTok :=
  let f := at? (unpackBits overlayWidths (leNat ((bs.drop 9).take 7)))
  { tok := readToken bs, key := BitVec.ofNat 16 key, inc := BitVec.ofNat 8 (f 2), tasid := asid, srcDev := f 0, srcCore := f 1, counted := false,
    grp := if f 3 = 1 then some (f 4) else none, frame := if f 5 = 1 then some (ids (f 6)) else none }

/-! ## The header of a section -/

/-- A pigeonhole: BID, TIMER, PRIO, resident. -/
def BlockSlot.saved (b : BlockSlot) : Nat := packBits [(12, b.bid), (16, b.timer), (2, b.prio), (1, bit01 b.resident)]

/-- A team entry with its gang register. -/
def Team.saved (t : Team) : Nat := packBits [(1, bit01 t.colour.isSome), (12, t.colour.getD 0), (8, t.gcount), (8, t.gfails)]

def readTeam (v : Nat) : Team :=
  let f := at? (unpackBits [1, 12, 8, 8] v)
  { colour := if f 0 = 1 then some (f 1) else none, gcount := f 2, gfails := f 3, chans := [] }

/-- The barrier channels that have counted something: cluster or team, owner, channel, count, n. -/
def Core.savedChannels (c : Core) : List Nat :=
  let word (clus : Bool) (owner chan : Nat) (h : Channel) : Option Nat :=
    if h.count = 0 then none else some (packBits [(1, bit01 clus), (12, owner), (2, chan), (24, h.count), (24, h.need - 1)])
  (c.teams.flatMap fun t => t.2.chans.filterMap fun h => word false t.1 h.1 h.2) ++
    c.clusBars.filterMap fun h => word true (h.1 / 4) (h.1 % 4) h.2

/-- Counters that the header holds; what it has no room for lies behind the table store. -/
def headerRoom : Nat := (0x1000 - 0x720) / 8
def counterAt (at_ i : Nat) : Nat := if i < headerRoom then at_ + 0x720 + 8 * i else at_ + 0x34200 + 8 * (i - headerRoom)

def countWidths : List Nat := [16, 16, 16, 16, 16]

/-- What a park entry adds to its copy of the record: the verdict, and the spilled record that a REFILL fault is about. -/
def Core.savedPark (c : Core) (p : ParkEnt) : Nat :=
  let verdict := match p.verdict with
    | none => 0
    | some false => 1
    | some true => 2
  packBits [(1, 1), (2, verdict), (1, bit01 p.refill.isSome),
    (28, ((p.refill.bind fun n => c.spilled.findIdx? fun r => r.num == n)).getD 0)]

/-- Bytes of a bit set: bit h is listed. -/
def bitBytes (bits : List Nat) (n : Nat) : List Byte :=
  (List.range n).map fun i => BitVec.ofNat 8 ((List.range 8).foldl (fun v b => v + bit01 (bits.contains (8 * i + b)) * 2 ^ b) 0)

def setBits (bs : List Byte) : List Nat :=
  bs.zipIdx.flatMap fun x => (List.range 8).filterMap fun b => if x.1.getLsbD b then some (8 * x.2 + b) else none

/-- One core's section (R394). -/
def State.writeSection (s : State) (pa k ci : Nat) : State :=
  let c := s.core ci
  let at_ := saveSection pa k
  let entries := c.savedEntries
  let held := c.savedHeld
  let lay := c.savedOverlay
  let eos := c.eosCount.map fun e => e.1 + e.2 * 2 ^ 12
  let chans := c.savedChannels
  let tcur := (List.range 8).foldl (fun v t => v + c.tcur.atD t 0 % 2 * 2 ^ t) 0
  let s := s.agentWrite at_ (natLe 8 c.cfg.part)
  let s := s.agentWrite (at_ + 8) ((List.range 128).flatMap fun i => natLe 8 (c.slot i).saved)
  let s := s.agentWrite (at_ + 0x408) ((List.range 64).flatMap fun t => natLe 8 (c.team t).saved)
  let s := s.agentWrite (at_ + 0x608) (natLe 8 tcur)
  let s := s.agentWrite (at_ + 0x610)
    (natLe 16 (packBits (countWidths.zip [entries.length, held.length, lay.length, eos.length, chans.length])))
  let s := s.agentWrite (at_ + 0x620) ((List.range 64).flatMap fun i => natLe 4 (((c.park[i]?).map c.savedPark).getD 0))
  let s := (eos ++ chans).zipIdx.foldl (fun s x => s.agentWrite (counterAt at_ x.2) (natLe 8 x.1)) s
  let s := s.agentWrite (at_ + 0x1000) (bitBytes c.filter 8192)
  let s := s.agentWrite (at_ + 0x3000) (c.park.flatMap fun p => p.record.flatMap fun w => natLe 8 w.toNat)
  let s := s.agentWrite (at_ + 0x4000) (entries.flatMap fun e => natLe 32 (e.bits s.arith))
  let s := s.agentWrite (at_ + 0x24000) ((List.range 16).flatMap fun n => (c.tables.atD n TableVer.zero).bytes.readBytes 0 4128)
  let s := s.agentWrite (at_ + 0x38000) ((held ++ lay).flatMap id)
  s.agentWrite (at_ + 0x80000) ([Buf.frame, .w, .a, .c].flatMap fun b => (c.buf b).readBytes 0 (c.partSize b))

/-- The header of a save area: the launch record's copy, FLTH and FID counter, the colour table, and STATE valid. The SEQ of the region and
the number of its poste restante stand behind the FID counter. -/
def State.writeSaveHeader (s : State) (pa : Nat) (r : Region) : State :=
  let s := s.agentWrite pa (s.rdBytes r.recPA 640)
  let s := s.agentWrite (pa + 0x284) (natLe 4 r.flth.toNat ++ natLe 4 r.fid ++ natLe 4 r.seq ++ natLe 8 s.dev.nextSave)
  let s := s.agentWrite (pa + 0x1000) ((List.range 4096).flatMap fun id => natLe 8 ((r.colour id).saved id))
  s.saveState pa 2 r.cores.length

/-! ## A core read back from its section -/

/-- Bytes of a section as a byte map of a buffer or table. -/
def State.savedBytes (s : State) (pa n : Nat) : NMap Byte := NMap.writeBytes [] 0 (s.rdBytes pa n)

/-- The counters of a section. -/
def State.savedCounters (s : State) (at_ from_ n : Nat) : List Nat := (List.range n).map fun i => s.rdNat (counterAt at_ (from_ + i)) 8

/-- A park entry from its copy of the record, its note, the entries of its collection with their numbers, and the spilled records. -/
def readPark (record : List DWord) (note : Nat) (mine : List (Nat × SavedEntry)) (wlog : Nat) (prio : Nat → Nat) (spilled : List SpillRec) : ParkEnt :=
  let w (i : Nat) : Nat := ((record[i]?).getD 0).toNat
  let f := at? (unpackBits [1, 2, 1, 28] note)
  let es := sortBy (fun a b => a.2.pos ≤ b.2.pos) mine
  let slot := field (w 2) 8 7
  { fid := field (w 1) 0 32, region := 0, cls := field (w 1) 56 8, record := record, bslot := slot, bid := field (w 2) 32 12,
    colour := field (w 2) 16 12, wlog := wlog, insts := es.map Prod.fst, tags := es.map fun e => e.2.entry.tag,
    em := BitVec.ofNat 32 (field (w 3) 0 32), prio := prio slot, word := field (w 2) 48 8, resumes := field (w 7) 0 8, claim := none,
    verdict := if f 1 = 0 then none else some (f 1 == 2),
    refill := if f 2 = 1 then (spilled[f 3]?).map fun r => r.num else none, ops := [] }

/-- A core as its section gives it, with what its poste restante holds. Its instances get numbers from `base` on, and the frames lie where
they lay. -/
def State.readSection (s : State) (pa k asid key base : Nat) (wlog : Nat → Nat) (pr : SavedPr) : Core :=
  let at_ := saveSection pa k
  let part := s.rdNat at_ 2
  let size (i : Nat) : Nat := 65536 * field part (4 * i) 4
  let sram := at_ + 0x80000
  let n := at? (unpackBits countWidths (s.rdNat (at_ + 0x610) 16))
  let record (i : Nat) : List DWord := (List.range 8).map fun w => s.rd64 (at_ + 0x3000 + 64 * i + 8 * w)
  let note (i : Nat) : Nat := s.rdNat (at_ + 0x620 + 4 * i) 4
  let fid (i : Nat) : Nat := if i < 64 then field ((record i)[1]?.getD 0).toNat 0 32 else ((pr.parkOver[i - 64]?).map fun p => p.fid).getD 0
  let all := (List.range (n 0)).map fun i => (base + i, readEntry (s.rdNat (at_ + 0x4000 + 32 * i) 32) (s.freeCount + 8 * i) fid)
  let entries := all.filter fun e => !e.2.handed
  let mine (i : Nat) : List (Nat × SavedEntry) := entries.filter fun e => e.2.coll == i && match e.2.entry.phase with
    | .parked _ => true
    | _ => false
  let prio (i : Nat) : Nat := field (s.rdNat (at_ + 8 + 8 * i) 8) 28 2
  let parks := ((List.range 64).filter fun i => note i % 2 == 1).map fun i =>
    readPark (record i) (note i) (mine i) (wlog (field ((record i)[2]?.getD 0).toNat 16 12)) prio pr.spilled
  let beyond := pr.parkOver.zipIdx.map fun p => { p.1 with insts := (sortBy (fun a b => a.2.pos ≤ b.2.pos) (mine (64 + p.2))).map Prod.fst, ops := [] }
  let tok (i : Nat) : List Byte := s.rdBytes (at_ + 0x38000 + 80 * i) 80
  let held := (List.range (n 1)).map fun i => readHeld asid (base + ·) (tok i)
  let overlay := (List.range (n 2)).map fun i => readOverlay asid key (base + ·) (tok (n 1 + i))
  let chans := (s.savedCounters at_ (n 3) (n 4)).map fun v =>
    let f := at? (unpackBits [1, 12, 2, 24, 24] v)
    (f 0 == 1, f 1, f 2, ({ count := f 3, need := f 4 + 1, gen := 0, from_ := [] } : Channel))
  let teams := (List.range 64).map fun t =>
    (t, { readTeam (s.rdNat (at_ + 0x408 + 8 * t) 8) with
          chans := (chans.filter fun h => !h.1 && h.2.1 == t).foldl (fun m h => NMap.ins m h.2.2.1 h.2.2.2) [] })
  let tcur := s.rdNat (at_ + 0x608) 1
  { Core.empty with
    cfg := { Core.empty.cfg with part := part }
    frame := s.savedBytes sram (size 0)
    bufW := s.savedBytes (sram + size 0) (size 1)
    bufA := s.savedBytes (sram + size 0 + size 1) (size 2)
    bufC := s.savedBytes (sram + size 0 + size 1 + size 2) (size 3)
    entries := entries.map fun e => (e.1, e.2.entry)
    handed := (all.filter fun e => e.2.handed).map fun e => (e.1, e.2.entry.frame, e.2.entry.lines)
    teams := teams.filter fun t => t.2 != readTeam 0
    clusBars := (chans.filter fun h => h.1).foldl (fun m h => NMap.ins m (h.2.1 * 4 + h.2.2.1) h.2.2.2) []
    eosCount := (s.savedCounters at_ 0 (n 3)).foldl (fun m v => NMap.ins m (v % 2 ^ 12) (v / 2 ^ 12)) []
    tcur := (List.range 8).foldl (fun m t => if tcur / 2 ^ t % 2 = 1 then NMap.ins m t 1 else m) []
    tables := (List.range 16).foldl (fun m i =>
      let b := s.savedBytes (at_ + 0x24000 + 4128 * i) 4128
      if b.isEmpty then m else NMap.ins m i { bytes := b }) []
    filter := setBits (s.rdBytes (at_ + 0x1000) 8192)
    park := parks
    parkOver := beyond
    outbox := held
    overlay := overlay
    overlayAsked := dedup (overlay.map fun t => t.tok.blk.toNat)
    spilled := pr.spilled
    sources := pr.sources
    nextNum := base + n 0 }

/-- The pigeonholes of a section: BID, TIMER, PRIO, resident. -/
def State.savedSlots (s : State) (pa k : Nat) : List (Nat × Nat × Nat × Bool) :=
  (List.range 128).map fun i =>
    let f := at? (unpackBits [12, 16, 2, 1] (s.rdNat (saveSection pa k + 8 + 8 * i) 8))
    (f 0, f 1, f 2, f 3 == 1)

end Sys2Proof.Machine
end

