-- ==== Sys2Proof/Machine/EvRegion.lean ====
section
/-! DEFINITION. The life of an armed region: the keystone tree's sweeps (R39, R360), completion (R363), rate-limiter windows (R364),
colour reserves (R373), the end of a region (R391, R402), pre-emption and restore (R392 to R395), and the Clolas engine (R402, R403). -/

namespace Sys2Proof.Machine

/-! ## The keystone tree (R39, R360) -/

/-- Instances of a core that are not complete, resident and spilled, each as an entry. -/
def Core.partials (c : Core) : List Entry × List Entry :=
  ((c.entries.filter fun e => e.2.phase == .incomplete).map Prod.snd,
    (c.spilled.filter fun r => r.entry.phase == .incomplete).map fun r => r.entry)

/-- The barriers of a core's hold, each as its channel and count (R292). -/
def State.heldBarriers (s : State) (ci : Nat) : List (Nat × Nat) :=
  let c := s.core ci
  (dedup ((c.outbox.flatMap fun o => o.bars).map fun b => (b.1, b.2.1, b.2.2.1))).map fun b =>
    let h := if b.1 then (s.core (clusKeeper c ci)).clusBars.atD (b.2.1 * 4 + b.2.2) Channel.empty
      else (c.team b.2.1).chans.atD b.2.2 Channel.empty
    (b.2.2, h.count)

/-- R39: one core's report of its incomplete instances, and of each barrier that did not open. -/
def State.stalledCore (s : State) (ci : Nat) : State :=
  let (res, out) := (s.core ci).partials
  let s := match minBy? Entry.latest (res ++ out) with
    | some e => s.lateRecord ci .stalled (tailOf
        [(2, e.bid * 2 ^ 32 + e.colour * 2 ^ 16), (5, e.tag.toNat),
         (6, e.presence.toNat * 2 ^ 56 + out.length % 2 ^ 24 * 2 ^ 32 + res.length)])
    | none => s
  (s.heldBarriers ci).foldl (fun s b => s.lateRecord ci .stalled (tailOf [(4, b.1 * 2 ^ 32 + b.2 % 2 ^ 24)])) s

/-- Change a region where it stands. -/
def State.modRegion (s : State) (num : Nat) (f : Region → Region) : State :=
  match s.region? num with
  | some x => s.setRegion (f x)
  | none => s

/-- The reports of a region, once for each value of its token totals. -/
def State.reportStalled (s : State) (r : Region) : State :=
  let t := s.tokenTotals r
  if r.stalled = some t then s
  else (r.cores.foldl (fun s ci => s.stalledCore ci) s).modRegion r.num fun x => { x with stalled := some t }

/-- Ticks between sweeps. -/
def sweepTicks : Nat := 1024

/-- KEYSTONE_SWEEP: two successive sweeps that find every core idle, as many tokens received as sent, and no count changed report the region
quiescent. A barrier that keeps its tokens is reported too, and leaves the region not quiescent (R292). -/
def execKeystoneSweep (region : Nat) (s : State) : Out :=
  match s.region? region with
  | none => .next s
  | some r =>
    if s.gtc ≤ r.armedAt ∨ (s.gtc - r.armedAt) % sweepTicks ≠ 0 then .next s
    else
      let t := s.tokenTotals r
      let ending := r.ending.isSome
      if (r.cores.all fun ci => s.coreIdle ending ci) ∧ t.1 = t.2 then
        let held := !ending && r.cores.any fun ci => (s.core ci).barrierHold
        let (twice, both) := match r.sweep with
          | some w => (decide (w.at_ + sweepTicks = s.gtc ∧ w.totals = t), w.idle && !held)
          | none => (false, false)
        let w : Sweep := ⟨s.gtc, t, !held⟩
        let s := s.modRegion r.num fun x => { x with sweep := some w, quiescent := twice && both }
        .next (if twice && !ending then s.reportStalled r else s)
      else .next (s.modRegion r.num fun x => { x with sweep := none, quiescent := false })

/-- REGION_COMPLETE: every sink has reported and the region is quiescent; what is left is reported and discarded. Tiles that a steward graph
armed keep their configuration and stay (R419). -/
def execRegionComplete (region : Nat) (s : State) : Out :=
  match s.region? region with
  | none => .next s
  | some r =>
    if !s.quietNow r || !r.sinksDone || r.ending.isSome || r.reconfig.isSome || r.loose then .next s
    else .next (((s.reportStalled r).completion r.complPA stComplete r.num r.seq).releaseRegion r 0)

/-! ## Rate limiter and colours (R364, R373) -/

/-- RATE_LIMIT_WINDOW: a window is over and the next begins. -/
def execRateLimitWindow (core : Nat) (s : State) : Out :=
  let c := s.core core
  let stop := c.rlStart + c.cfg.rlWindow * 64
  if s.arith < stop then .next s else .next (s.setCore core { c with rlStart := stop, rlCount := 0 })

/-- COLOUR_RESERVE_REFILL: with fewer than 16 ids left, the steward brings the reserve up to 32 with free ids of its choice. -/
def execColourReserveRefill (core : Nat) (ids : List Nat) (s : State) : Out :=
  let c := s.core core
  match s.coreRegion? core with
  | none => .next s
  | some r =>
    if 16 ≤ c.reserve.length then .next s
    else
      let new := (dedup (ids.filter fun k => s.idFree r k)).take (32 - c.reserve.length)
      .next (s.setCore core { c with reserve := sortBy (· ≤ ·) (c.reserve ++ new) })

/-! ## Completion tokens of the system instructions (R403) -/

/-- Payload of a completion: STATUS, and word 1. -/
def sysPayload (status word1 : Nat) : List Word := [w32 (status * 2 ^ 24), w32 word1]

/-- The tokens of one instruction leave its core. -/
def State.sysDone (s : State) (core commit : Nat) (due : List TokenDue) (status word1 : Nat) : State :=
  s.modCore core fun c => due.foldl (fun c d => c.postDue commit 0 d (sysPayload status word1)) c

/-! ## The end of a region (R391, R402) -/

/-- Pre-emption jobs that were saving a region which ended otherwise: the region is armed no more. -/
def State.dropSaves (s : State) (num : Nat) : State :=
  let (mine, rest) := s.dev.preempts.partition fun j => j.started && j.arg == num
  mine.foldl (fun s j => s.sysDone j.core j.commit j.due 1 0) (s.setDev { s.dev with preempts := rest })

/-- REGION_END: at quiescence the steward writes ABORTED, or HALTED and COMPLETE, and frees the tiles. -/
def execRegionEnd (region : Nat) (s : State) : Out :=
  match s.region? region with
  | none => .next s
  | some r =>
    if !s.quietNow r then .next s
    else
      match r.ending with
      | some .aborted => .next (((s.completion r.complPA stAborted r.num r.seq).releaseRegion r 0).dropSaves r.num)
      | some (.halted bid) =>
        let s := s.reportStalled r
        let s := (s.raiseFor (s.region? r.num) r.asid (srcSteward 0) (s.gtcAt 0) .halted false true (tailOf [(2, bid * 2 ^ 32)]) none true).2
        .next ((s.completion r.complPA stComplete r.num r.seq).releaseRegion r 0)
      | _ => .next s

/-! ## Pre-emption (R392 to R395) -/

/-- Every core of a region is told to quench; its rendezvous latch fails (R392). -/
def execQuench (core : Nat) (s : State) : Out :=
  match s.coreRegion? core with
  | none => .next s
  | some r =>
    let told := match r.ending with
      | some (.saving _) | some (.halted _) => true
      | _ => false
    .next (if told then s.quenchCore core else s)

/-- Ticks after which a group that has not committed is aborted. -/
def quenchTicks : Nat := 20000

/-- QUENCH_TIMEOUT: the group aborts, and its instances are complete in the pigeonhole again. -/
def execQuenchTimeout (core grp : Nat) (s : State) : Out :=
  let c := s.core core
  match c.quenched, c.group? grp with
  | some t, some g =>
    if s.gtcAt (dieOf core) < t + quenchTicks ∨ g.commit.isSome then .next s
    else .next (((s.setCore core (c.undoGroup grp g)).leaveSlot core grp).modCore core fun c => c.setPhase g.insts .complete)
  | _, _ => .next s

/-- The input ports of a core that carry traffic of its region: from the other cores, and from the links (R392, log entry 156). -/
def State.inPorts (s : State) (r : Region) (ci : Nat) : List Nat :=
  dedup ((r.cores.filterMap fun k => if k = ci then none else s.inPort ci s.dev.devNum (srcOfCore k)) ++ (if r.ports.isEmpty then [] else [4]))

/-- PREEMPTION_MARKER: it reaches an input port of a core of a region that is being saved; the core's open rendezvous latch fails (R258). -/
def execPreemptionMarker (core port : Nat) (s : State) : Out :=
  match s.coreRegion? core with
  | none => .next s
  | some r =>
    match r.ending with
    | some (.saving _) =>
      .next (s.modCore core fun c =>
        { c.failLatch with markers := if c.markers.contains port then c.markers else c.markers ++ [port] })
    | _ => .next s

/-- The last core is saved: the header, the record of the save, the release, and the completion token. -/
def State.finishSave (s : State) (pa : Nat) (r : Region) : State :=
  let s := s.writeSaveHeader pa r
  let rest (c : Core) : SavedPr := { spilled := c.spilled, parkOver := c.parkOver, sources := c.sources }
  let x : SavedRegion := { num := s.dev.nextSave, cores := r.cores.map fun ci => rest (s.core ci) }
  let s := s.setDev { s.dev with saves := s.dev.saves ++ [x], nextSave := s.dev.nextSave + 1 }
  let s := s.releaseRegion r 0
  let (mine, rest) := s.dev.preempts.partition fun j => j.started && j.arg == r.num
  mine.foldl (fun s j => s.sysDone j.core j.commit j.due 0 r.num) (s.setDev { s.dev with preempts := rest })

/-- CORE_SAVE: the marker has passed every input port and the drain is complete, so the core writes its section; after the last, the region is released. -/
def execCoreSave (core : Nat) (s : State) : Out :=
  match s.coreRegion? core with
  | none => .next s
  | some r =>
    match r.ending with
    | some (.saving pa) =>
      let c := s.core core
      if !s.quietNow r || c.quenched.isNone || (s.inPorts r core).any (fun p => !c.markers.contains p) || c.saved ||
          r.cores.any (fun ci => !(s.core ci).inbox.isEmpty) then .next s
      else
        let s := (s.writeSection pa ((r.cores.findIdx? (· == core)).getD 0) core).modCore core fun c => { c with saved := true }
        .next (if r.cores.all fun ci => (s.core ci).saved then s.finishSave pa r else s)
    | _ => .next s

/-! ## Restore (R395) -/

/-- Place entries in frame memory from the lowest line up, copying their bytes; `used` counts the lines taken. -/
def Core.placeEntry (old : Core) (c : Core) (used : Nat) (e : Nat × Entry) : Core :=
  { c with entries := c.entries.ins e.1 { e.2 with frame := used * 128 },
           frame := c.frame.writeBytes (used * 128) (old.frame.readBytes e.2.frame (128 * e.2.lines)) }

/-- One core of a restore: none when its instances do not fit (CAPACITY). Incomplete instances are placed, the newest first, until one would
meet a condition of R34; it and the rest are spilled. `big` is the largest frame demand placed on the core. -/
def Core.restoreImage (now big : Nat) (old c : Core) : Option Core :=
  let lines := c.partSize .frame / 128
  let timed (e : Nat × Entry) : Nat × Entry := (e.1, { e.2 with completed := now, deadline := now + e.2.deadline })
  let first := (old.entries.filter fun e => e.2.phase != .incomplete).map timed
  let onward := (old.handed.map fun h => h.2.2).foldl (· + ·) 0
  let need := (first.map fun e => e.2.lines).foldl (· + ·) onward
  if lines < need ∨ matchEntries < first.length then none
  else
    let part := sortBy (fun a b => b.2.latest ≤ a.2.latest) (old.entries.filter fun e => e.2.phase == .incomplete)
    let base := { c with bufW := old.bufW, bufA := old.bufA, bufC := old.bufC, tables := old.tables, tcur := old.tcur, teams := old.teams,
                         clusBars := old.clusBars, eosCount := old.eosCount, filter := old.filter, spilled := old.spilled,
                         outbox := old.outbox, overlay := old.overlay, overlayAsked := old.overlayAsked, sources := old.sources,
                         nextNum := max c.nextNum old.nextNum }
    let keep (acc : Core × Nat) (h : Nat × Nat × Nat) : Core × Nat :=
      ({ acc.1 with handed := acc.1.handed ++ [(h.1, acc.2 * 128, h.2.2)],
                    frame := acc.1.frame.writeBytes (acc.2 * 128) (old.frame.readBytes h.2.1 (128 * h.2.2)) }, acc.2 + h.2.2)
    let put (acc : Core × Nat) (e : Nat × Entry) : Core × Nat := (old.placeEntry acc.1 acc.2 e, acc.2 + e.2.lines)
    let whole := first.foldl put (old.handed.foldl keep (base, 0))
    let more (acc : (Core × Nat) × Bool) (e : Nat × Entry) : (Core × Nat) × Bool :=
      let (x, full) := acc
      if !full && decide (x.1.entries.length + 1 + 64 ≤ matchEntries ∧ x.2 + e.2.lines + big ≤ lines) then (put x e, false)
      else
        let bytes := (List.range (128 * e.2.lines)).filterMap fun i =>
          let b := old.frame.atD (e.2.frame + i) 0
          if b = 0 then none else some (i, b)
        let r : SpillRec := { num := e.1, entry := { e.2 with frame := 0 }, bytes := bytes, landed := true, toCore := false }
        (({ x.1 with spilled := x.1.spilled ++ [r], filter := dedup (x.1.filter ++ [filterIx x.1 e.2]) }, x.2), true)
    let out := (part.foldl more (whole, false)).1.1
    if out.cfg.prSize * 4096 < out.spillUsed then none else some out

/-- The park of a restored core, under the region's new number. -/
def Core.restorePark (old : Core) (num : Nat) (c : Core) : Core :=
  let mine (p : ParkEnt) : ParkEnt := { p with region := num, claim := if p.verdict.isSome then some noGroup else none }
  { c with park := old.park.map mine, parkOver := old.parkOver.map mine }

/-- The pigeonholes of a section on a core that is armed: a slot that LDBLK had bound to another block takes that block again. -/
def State.restoreSlots (s : State) (pa k ci : Nat) : State :=
  (s.savedSlots pa k).zipIdx.foldl (fun s x =>
    let (bid, timer, prio, _) := x.1
    let s := if ((s.core ci).slot x.2).bid = bid then s
      else if bid = 0xFFF then s.modCore ci fun c => c.setSlot x.2 BlockSlot.unbound
      else s.bindSlot ci x.2 bid
    s.modCore ci fun c => if (c.slot x.2).bid = 0xFFF then c else c.setSlot x.2 { c.slot x.2 with timer := timer, prio := prio }) s

/-- Arm a saved region by its plan, each core from its section: none when the instances of some core do not fit. Answers the new number. -/
def State.restorePlan (s : State) (p : Plan) (pa : Nat) : Option (Nat × State) :=
  let (num, s) := s.armPlan p
  let s := p.cores.zipIdx.foldl (fun s x => s.restoreSlots pa x.2 x.1) s
  let colours := (List.range 4096).filterMap fun id =>
    let c := readColour (s.rdNat (pa + 0x1000 + 8 * id) 8)
    if c.live then some (id, c) else none
  let wlog (id : Nat) : Nat := ((colours.find? fun c => c.1 == id).map fun c => c.2.wlog).getD 0
  let saved := s.dev.saves.find? fun x => x.num == s.rdNat (pa + 0x290) 8
  let rest (k : Nat) : SavedPr := ((saved.bind fun x => x.cores[k]?)).getD { spilled := [], parkOver := [], sources := [] }
  let take (acc : List (Option (Nat × Core × Core)) × State) (x : Nat × Nat) : List (Option (Nat × Core × Core)) × State :=
    let (out, s) := acc
    let c := s.core x.1
    let base := ((rest x.2).spilled.map fun r => r.num + 1).foldl max c.nextNum
    let old := s.readSection pa x.2 p.asid p.key base wlog (rest x.2)
    let s := { s with freeCount := s.freeCount + 8 * (old.entries.length + old.handed.length) }
    (out ++ [(old.restoreImage s.arith (s.maxFrame x.1) c).map fun c => (x.1, old, c)], s)
  let (images, s) := p.cores.zipIdx.foldl take ([], s)
  if images.any Option.isNone then none
  else
    let s := images.foldl (fun s y => match y with
      | some (ci, old, c) => s.setCore ci (old.restorePark num c)
      | none => s) s
    let count (bid : Nat) : Nat := match p.cores[0]? with
      | some ci => (s.core ci).eosCount.atD bid 0
      | none => 0
    let done (k : Sink) : Sink := { k with reported := k.expect ≤ count k.bid }
    let flth := w32 (s.rdNat (pa + 0x284) 4)
    let fid := s.rdNat (pa + 0x288) 4
    some (num, s.modRegion num fun r => { r with colours := colours, flth := flth, fid := fid, sinks := r.sinks.map done })

/-- The partition of a restore: the saved one, with the frame granules F of the instruction if fewer. -/
def restorePart (saved f : Nat) : Nat :=
  let g := field saved 0 4
  setField saved 0 4 (if f ≠ 0 ∧ f < g then f else g)

/-- Bytes of a save area of n cores. -/
def saveLen (n : Nat) : Nat := 0x10000 + n * 0x200000

/-- PREEMPT.RESTORE at the steward: STATUS and word 1 (R403). -/
def State.restore (s : State) (j : PreemptJob) : Nat × Nat × State :=
  let pa := j.pa
  let n := field (s.rdNat (pa + 0x280) 4) 16 12
  if s.badRange pa 0x10000 then (5, 0, s)
  else if !saveAreaOk pa n || s.rdNat (pa + 0x280) 1 != 2 then (4, 0, s)
  else if s.badRange pa (saveLen n) then (5, 0, s)
  else
    let seq := s.rdNat (pa + 0x28C) 4
    match s.prepare pa seq none with
    | (.error fs, s) =>
      (if fs.any fun (f : LoadFail) => f.check == 0x0E then 4 else 3, 0, s.loadFailed pa seq fs)
    | (.ok p, s) =>
      if p.cores.length != n then (4, 0, s)
      else
        match s.restorePlan { p with part := restorePart (s.rdNat (saveSection pa 0) 2) j.arg } pa with
        | none => (2, 0, s)
        | some (num, s) => (0, num, s)

/-- PREEMPT_REQUEST: the steward takes a request. A save begins its marker and quench phases; a restore is made at once. A line of the area, or
of the launch record that is copied, with an uncorrectable error or poison ends either with MEM_ERROR (log entry 179). -/
def execPreemptRequest (idx : Nat) (s : State) : Out :=
  match s.dev.preempts[idx]? with
  | none => .next s
  | some j =>
    let done (s : State) (status word1 : Nat) : State :=
      (s.setDev { s.dev with preempts := s.dev.preempts.eraseIdx idx }).sysDone j.core j.commit j.due status word1
    if j.started then .next s
    else if j.restore then
      let (status, word1, s) := s.restore j
      .next (done s status word1)
    else
      match s.region? j.arg with
      | none => .next (done s 1 0)
      | some r =>
        if r.ending.isSome || (s.core j.core).region == some r.num then .next (done s 1 0)
        else if !saveAreaOk j.pa r.cores.length then .next (done s 4 0)
        else if s.badRange j.pa (saveLen r.cores.length) || s.badRange r.recPA 640 then .next (done s 5 0)
        else
          let s := s.saveState j.pa 1 r.cores.length
          let s := s.modRegion r.num fun r => { r with ending := some (.saving j.pa), sweep := none, quiescent := false }
          .next (s.setDev { s.dev with preempts := s.dev.preempts.set idx { j with started := true } })

/-! ## The Clolas engine (R402, R403) -/

/-- Read bytes of an ASID as a privileged block would: STATUS 3 where translation fails, 5 on an error. -/
def State.engineRead (s : State) (ci asid va n : Nat) : Except Nat (List Byte) :=
  (List.range n).mapM fun i =>
    match s.translateNow ci asid (va + i) { write := false, priv := true, peer := false } with
    | .ok (.mem pa _) =>
      let ln := lineOf pa
      if s.memErr.contains ln || s.poisoned.contains ln || s.lostPA pa then .error 5 else .ok (s.rdByte pa)
    | _ => .error 3

/-- SIGCHK: the STATUS of the check. -/
def State.sigCheck (s : State) (ci asid key data sig len : Nat) : Nat :=
  if 2 ^ 31 < len then 4
  else if (s.keyOf key).isEmpty then 2
  else
    match s.engineRead ci asid data len with
    | .error e => e
    | .ok bs =>
      match s.engineRead ci asid sig sigLen with
      | .error e => e
      | .ok g => if Config.mlDsaVerify (s.keyOf key) (Config.sha3 bs) g then 0 else 1

/-- Bytes of a public key. -/
def keyLen : Nat := 1312

/-- KEYSET: the STATUS, with the key installed when its signature is valid. -/
def State.keySet (s : State) (ci asid slot rec_ : Nat) : Nat × State :=
  match s.engineRead ci asid rec_ keyLen with
  | .error e => (e, s)
  | .ok k =>
    match s.engineRead ci asid (rec_ + keyLen) sigLen with
    | .error e => (e, s)
    | .ok g =>
      if Config.mlDsaVerify (s.keyOf 0) (Config.sha3 (BitVec.ofNat 8 slot :: k)) g then
        (0, s.setDev { s.dev with keys := s.dev.keys.ins slot k })
      else (1, s)

/-- CLOLAS_VERIFY_DONE: a job of the engine is done, and its tokens leave. -/
def execClolasVerifyDone (idx : Nat) (s : State) : Out :=
  match s.dev.clolas[idx]? with
  | none => .next s
  | some j =>
    let s := s.setDev { s.dev with clolas := s.dev.clolas.eraseIdx idx }
    match j with
    | .sigchk core commit asid due key data sig len =>
      .next (s.sysDone core commit due (s.sigCheck core asid key data sig len) 0)
    | .keyset core commit asid due slot keyRec =>
      let (st, s) := s.keySet core asid slot keyRec
      .next (s.sysDone core commit due st 0)

end Sys2Proof.Machine
end

