-- ==== Sys2Proof/Machine/EvDevice.lean ====
section
/-! DEFINITION. The device as a package: bring-up (R429 to R432), attestation (R433), throttling (R435), and the host's accesses to
device memory (R428). -/

namespace Sys2Proof.Machine

/-! ## Signed records (R431) -/

/-- A signed record: TYPE, SERIAL, payload, and whether its signature of the key of slot 0 is valid. -/
structure SignedRec where
  type : Nat
  serial : Nat
  payload : List Byte
  valid : Bool
  deriving DecidableEq, Repr

def signedRec (bs : List Byte) : SignedRec :=
  let n := bs.length - sigLen
  let body := bs.take n
  { type := leNat (body.take 4), serial := leNat ((body.drop 8).take 8), payload := body.drop 16,
    valid := 16 ≤ n && Config.mlDsaVerify (Config.romKey 0) (Config.sha3 body) (bs.drop n) }

/-- The serial of a record differs from those of the two others. -/
def oddSerial (a b c : SignedRec) : Bool := a.serial != b.serial && a.serial != c.serial

/-- The grade record holds A with 3,000 MHz or B with 2,700; answers whether it is grade B. -/
def gradeOf (r : SignedRec) : Option Bool :=
  match r.payload.map BitVec.toNat with
  | [g, lo, hi] =>
    if g = 0 ∧ lo + 256 * hi = 3000 then some false else if g = 1 ∧ lo + 256 * hi = 2700 then some true else none
  | _ => none

/-- A tile's bit in the tile map. -/
def mapBit (p : List Byte) (die n : Nat) : Bool := ((p[24 * die + n / 8]?).getD 0).getLsbD (n % 8)

/-- The tile map enables as many tiles on every die as the grade has. -/
def mapOk (gradeB : Bool) (p : List Byte) : Bool :=
  p.length == 96 && (List.range 4).all fun d =>
    ((List.range 192).filter (mapBit p d)).length == (if gradeB then 180 else 192)

/-- The tiles of the package that the map withholds. -/
def withheldOf (p : List Byte) : List Nat :=
  (List.range 4).flatMap fun d => ((List.range 192).filter fun n => !mapBit p d n).map fun n => d * 256 + n

/-! ## Bring-up (R429) -/

/-- A failure leaves the device in RECOVERY with its cause. -/
def State.recovery (s : State) (cause : Byte) : State := s.setDev { s.dev with stage := .recovery, cause := cause }

/-- RECORDS: the records are verified, and their contents taken. -/
def State.takeRecords (s : State) (f : Flash) : State :=
  let g := signedRec f.gradeRec
  let m := signedRec f.mapRec
  let i := signedRec f.idRec
  match gradeOf g with
  | none => s.recovery 2
  | some gradeB =>
    if !g.valid || g.type != 1 || oddSerial g m i then s.recovery 2
    else if !m.valid || m.type != 2 || oddSerial m g i || !mapOk gradeB m.payload then s.recovery 3
    else if !i.valid || i.type != 3 || oddSerial i g m || i.payload.length != keyLen then s.recovery 4
    else
      s.setDev { s.dev with
        stage := .clocks, gradeB := gradeB, serial := w64 g.serial, withheld := withheldOf m.payload, identity := i.payload,
        recDigests := [Config.sha3 f.firmware, Config.sha3 f.gradeRec, Config.sha3 f.mapRec, Config.sha3 f.idRec] }

/-- MEMORY: every L2 line and every SRAM granule of the tiles is cleared, and no unit holds anything. -/
def State.clearStores (s : State) : State :=
  { s with slices := [], dies := [], transit := [], poolState := [], stale := [], hostState := [], recalls := [], spans := [],
           cores := s.cores.map fun e => (e.1, { Core.empty with nextNum := e.2.nextNum }),
           dev := { s.dev with regions := [], requests := [], bundles := [], clolas := [], preempts := [], held := [], mcHeld := [], arrived := [],
                               mcGap := [] } }

/-- A power cycle: nothing of the device survives but its identity on the link, and time goes on. -/
def State.powerCycle (s : State) : State :=
  { State.reset with schedule := s.schedule, cur := s.cur, freeCount := s.freeCount, gtc := s.gtc, arith := s.arith,
                     wire := s.wire, switches := s.switches,
                     dev := { Device.reset with devNum := s.dev.devNum, ctxTab := s.dev.ctxTab, mcTab := s.dev.mcTab,
                                                tileTenant := s.dev.tileTenant, portTenant := s.dev.portTenant,
                                                keyTenant := s.dev.keyTenant } }

/-- POWER_GOOD_RESET: the device goes one state further with what the flash holds, or to RECOVERY. Regions that a reset ends come first (R437);
LINKS lasts until the fabric manager has sent the incarnations (R296). From READY or RECOVERY it is a power cycle. -/
def execPowerGoodReset (flash : Flash) (s : State) : Out :=
  .next (match s.dev.stage with
    | .rom => if s.dev.regions.isEmpty then s.setDev { s.dev with stage := .firmware, keys := [], cause := 0 } else s
    | .firmware =>
      if Config.mlDsaVerify (Config.romKey 1) (Config.sha3 flash.firmware) flash.firmwareSig
      then s.setDev { s.dev with stage := .records }
      else s.recovery 1
    | .records => s.takeRecords flash
    | .clocks =>
      if flash.clocksOk then s.setDev { s.dev with stage := .memory, gtcOn := true, clockMHz := if s.dev.gradeB then 2700 else 3000 }
      else s.recovery 5
    | .memory =>
      if flash.memoryOk then
        let s := s.clearStores
        s.setDev { s.dev with stage := .links, trihorn := flash.trihorn, onolo := flash.onolo, poolRegions := min flash.pool 65536 }
      else s.recovery 6
    | .links => if s.dev.incExchanged then s.setDev { s.dev with stage := .ready } else s
    | .ready | .recovery => s.powerCycle)

/-! ## Attestation (R433) -/

/-- Exactly n bytes of a string. -/
def fitBytes (n : Nat) (bs : List Byte) : List Byte := (bs ++ List.replicate n 0).take n

/-- Bytes 0x000 to 0x0FF of a quote. -/
def State.quoteBody (s : State) : List Byte :=
  let digest (i : Nat) : List Byte := fitBytes 32 ((s.dev.recDigests[i]?).getD [])
  let keys := (List.range 16).flatMap fun n => if (s.keyOf n).isEmpty then List.replicate keyLen 0 else s.keyOf n
  fitBytes 256
    (natLe 8 1 ++ natLe 8 s.dev.serial.toNat ++ natLe 8 (s.gtcAt 0) ++ natLe 8 s.dev.inc.toNat ++ natLe 32 s.dev.attNonce.toNat ++
      digest 0 ++ digest 1 ++ digest 2 ++ digest 3 ++ fitBytes 32 (Config.sha3 keys))

/-- DONE is set once the quote's lines are written. -/
def State.quoteEnd (s : State) : State :=
  match s.dev.attWritten with
  | some n => if s.agentDone n then s.setDev { s.dev with attBusy := false, attDone := true, attWritten := none } else s
  | none => s

/-- QUOTE_DONE: the quote is signed and leaves with its signature; when it is written, DONE is set. -/
def execQuoteDone (s : State) : Out :=
  if !s.dev.attBusy || s.dev.stage = .recovery then .next s
  else if s.dev.attWritten.isSome then .next s.quoteEnd
  else
    let body := s.quoteBody
    let s := s.agentWrite s.dev.attQpa (body ++ fitBytes sigLen (Config.mlDsaSign (Config.sha3 body)))
    .next (s.setDev { s.dev with attWritten := some s.arrivals }).quoteEnd

/-! ## Throttling (R435) -/

/-- THROTTLE_ASSERT: the regulators assert the throttle input; the arithmetic clocks are halved, and the event is counted. -/
def execThrottleAssert (s : State) : Out := .next (s.sense { s.dev with regulator := true })

/-- Ticks of 1 ms. -/
def coolTicks : Nat := 1000000

/-- THROTTLE_CLEAR: the condition has been clear for 1 ms. -/
def execThrottleClear (s : State) : Out :=
  .next (if !s.dev.hot && decide (s.dev.coolSince + coolTicks ≤ s.gtc) then s.setDev { s.dev with throttle := false } else s)

/-! ## CXL.mem (R428) -/

/-- HOST_CXL_MEM_ACCESS: the host reads the line (no bytes) or writes bytes of the HBM linear view at an offset of the 384 GiB decoder. Either is
performed at the line's home slice (R428); in RECOVERY the decoder does not respond (R429). -/
def execHostCxlMemAccess (addr : Nat) (bytes : List Byte) (s : State) : Out :=
  .next (if s.dev.stage = .recovery || 4 * hbmDie < addr + max bytes.length 1 then s
    else if bytes.isEmpty then s.lineAgent reqHost (lineOf addr) []
    else s.lineWrite reqHost addr bytes)

end Sys2Proof.Machine
end

