-- ==== Sys2Proof/Machine/Lane.lean ====
section
/-! DEFINITION. The lane words (R182 to R188): values that cross lanes within a group or an instance. -/

namespace Sys2Proof.Machine

/-- The segment length: an instance under `.INST`, else the group (R182). -/
def segLen (f : F0) (g : Group) : Nat := if f.md.getLsbD 1 then g.width else 32
/-- The first lane of the segment of lane l. -/
def segStart (n l : Nat) : Nat := n * (l / n)
/-- The participants of the segment of lane l, ascending. -/
def segLanes (act : LaneMask) (n l : Nat) : List Nat := (maskLanes act).filter fun j => j / n == l / n

/-- A lane word whose result in each participant is computed from the participants of its segment: `k` is given the
context, the segment length and the lane's participants. Every source is read before any result is written. -/
def segWord (s : State) (f : F0) (nr : Nat) (k : Ctx → LaneMask → Nat → List Nat → Nat → Nat) : Out :=
  withIssuer s fun c g =>
    let (x, act) := f0Ctx f s c g
    let n := segLen f g
    s.finish (x.g.setLanes f.d nr ((maskLanes act).map fun l => (l, k x act n (segLanes act n l) l)))

/-- The source lane of SHFL, when it lies in the segment (R184). -/
def shflSrc (mode n s0 l k : Nat) : Option Nat :=
  let src : Int := match mode with
    | 0 => (s0 + k : Nat)
    | 1 => (l : Int) - k
    | 2 => (l + k : Nat)
    | _ => (s0 + ((l - s0) ^^^ k) : Nat)
  if (s0 : Int) ≤ src ∧ src < s0 + n then some src.toNat else none

def execShfl (f : F0) (s : State) : Out :=
  let nr := tyRegs f.t
  segWord s f nr fun x act n _ l =>
    let own := (x.rdN nr f.a l).toNat
    match shflSrc f.fn.toNat n (segStart n l) l (x.count2 f.b f.c l) with
    | some j => if laneBit act j then (x.rdN nr f.a j).toNat else own
    | none => own

/-- R185: ALL, ANY and UNI over the segment's participants. -/
def execVote (f : F0) (s : State) : Out :=
  let nr := tyRegs f.t
  segWord s f 1 fun x _ _ ls _ =>
    let vs := ls.map fun j => (x.rdN nr f.a j).toNat
    bit01 (match f.fn.toNat with
      | 0 => vs.all (· != 0)
      | 1 => vs.any (· != 0)
      | _ => vs.all fun v => some v == vs.head?)

def execBallot (f : F0) (s : State) : Out :=
  segWord s f 1 fun x _ _ ls _ => (maskOf fun j => ls.contains j && x.rd f.a j != 0).toNat

/-- The key of MATCH: 32 bits, the pair, or 16 bits (R186). -/
def matchKey (x : Ctx) (f : F0) (l : Nat) : Nat :=
  match f.t with
  | .n64 => (x.rd64 f.a l).toNat
  | .f16 | .bf16 => (x.rd f.a l).toNat % 65536
  | _ => (x.rd f.a l).toNat

/-- R186: a lane whose em bit is set but whose guard fails takes no part and receives zero, also in a segment that has no participant (log
entry 159). -/
def matchWord (s : State) (f : F0) (k : (Nat → Nat) → List Nat → Nat → Nat) : Out :=
  withIssuer s fun c g =>
    let (x, act) := f0Ctx f s c g
    let n := segLen f g
    s.finish (x.g.setLanes f.d 1 ((maskLanes g.em).map fun l =>
      (l, if laneBit act l then k (matchKey x f) (segLanes act n l) l else 0)))

def execMatchAny (f : F0) (s : State) : Out :=
  matchWord s f fun key ls l => (maskOf fun j => ls.contains j && key j == key l).toNat
def execMatchAll (f : F0) (s : State) : Out :=
  matchWord s f fun key ls l => if ls.all (fun j => key j == key l) then (maskOf fun j => ls.contains j).toNat else 0

/-- R187: an operation over a list of lanes' values; over no lanes it gives its identity. -/
def reduceLanes (f : F0) (vs : List DWord) : Nat :=
  let w := tyWidth f.t
  let sg := tySigned f.t f.md
  match f.fn.toNat % 8 with
  | 0 => (f0Fit f (f0Sat f) (vs.foldl (fun a v => a + f0Val f v) 0)).toNat
  | 1 => (putInt (vs.foldl (fun a v => min a (f0Val f v)) (hiOf w sg))).toNat
  | 2 => (putInt (vs.foldl (fun a v => max a (f0Val f v)) (loOf w sg))).toNat
  | 3 => vs.foldl (fun a v => a &&& v.toNat) (2 ^ w - 1)
  | 4 => vs.foldl (fun a v => a ||| v.toNat) 0
  | _ => vs.foldl (fun a v => a ^^^ v.toNat) 0

def execRedg (f : F0) (s : State) : Out :=
  let nr := tyRegs f.t
  segWord s f nr fun x _ _ ls _ => reduceLanes f (ls.map fun j => x.rdN nr f.a j)

/-- SCANG takes the participants j ≤ l, or j < l with `.EXC` (FN[3]). -/
def execScang (f : F0) (s : State) : Out :=
  let nr := tyRegs f.t
  segWord s f nr fun x _ _ ls l =>
    reduceLanes f ((ls.filter fun j => j < l || (j == l && !f.fn.getLsbD 3)).map fun j => x.rdN nr f.a j)

/-- R188: em, the lanes active here, or em at collection. -/
def execEmrd (f : F0) (s : State) : Out :=
  withIssuer s fun _ g =>
    let act := g.active f.g
    let m := match f.fn.toNat with
      | 0 => g.em
      | 1 => act
      | _ => g.emFire
    s.finish (g.setLanes f.d 1 ((maskLanes act).map fun l => (l, m.toNat)))

/-- R188: em becomes `base` AND the value of the lowest active lane. -/
def emwrWord (s : State) (f : F0) (base : Group → LaneMask) : Out :=
  withIssuer s fun c g =>
    let (x, act) := f0Ctx f s c g
    match leader? act with
    | none => s.finish g
    | some l => s.finish { x.g with em := base g &&& x.rd f.a l }

def execEmwrAnd (f : F0) (s : State) : Out := emwrWord s f Group.em
def execEmwrSet (f : F0) (s : State) : Out := emwrWord s f Group.emFire

end Sys2Proof.Machine
end

