-- ==== Sys2Proof/Machine/Sfu.lean ====
section
/-! DEFINITION. The special-function unit (R210 to R212). The exact result is enclosed between two dyadic numbers; the
value returned is the implementation's own (Config.sfu) where that lies within R211, and otherwise the enclosed result
rounded to nearest. The exact and special cases are computed. -/

namespace Sys2Proof.Machine

/-! ## Constants and series, in units of 2^−120 unless stated -/

/-- One, in units of 2^−120. -/
def fxOne : Nat := 2 ^ 120
/-- A bound on the accumulated error of every series below, in units of 2^−120. -/
def fxErr : Nat := 2 ^ 20

/-- Σ 1 / (k 2^k) for k ≤ 130: ln 2. -/
def fxLn2 : Nat := (List.range 130).foldl (fun a k => a + fxOne / ((k + 1) * 2 ^ (k + 1))) 0

/-- arctan(1/n) in units of 2^−340, by its alternating series. -/
def fxAtanInv (n : Nat) : Int :=
  ((List.range 150).foldl (fun (acc : Int × Nat) k =>
    let term : Int := (acc.2 / (2 * k + 1) : Nat)
    (if k % 2 = 0 then acc.1 + term else acc.1 - term, acc.2 / (n * n))) (0, 2 ^ 340 / n)).1

/-- π / 2 in units of 2^−300 (Machin's formula). -/
def fxHalfPi : Nat := ((8 * fxAtanInv 5 - 2 * fxAtanInv 239) / 2 ^ 40).toNat

/-- e^x for 0 ≤ x < 1. -/
def fxExp (x : Nat) : Nat :=
  ((List.range 45).foldl (fun (acc : Nat × Nat) k => (acc.1 + acc.2, acc.2 * x / fxOne / (k + 1))) (0, fxOne)).1

/-- e^−x for x ≥ 0: e^(−r) / 2^n with x = n ln 2 + r; below 2^−100 it is taken as zero. -/
def fxExpNeg (x : Nat) : Nat :=
  if 100 * fxOne ≤ x then 0 else fxOne * fxOne / fxExp (x % fxLn2) / 2 ^ (x / fxLn2)

/-- ln u for 1 ≤ u < 2: 2 Σ z^(2i+1) / (2i+1) with z = (u − 1) / (u + 1). -/
def fxLn (u : Nat) : Nat :=
  let z := (u - fxOne) * fxOne / (u + fxOne)
  let z2 := z * z / fxOne
  2 * ((List.range 45).foldl (fun (acc : Nat × Nat) i => (acc.1 + acc.2 / (2 * i + 1), acc.2 * z2 / fxOne)) (0, z)).1

/-- sin r and cos r for 0 ≤ r < 1.6. -/
def fxSinCos (r : Nat) : Int × Int :=
  let t := (List.range 50).foldl (fun (acc : Int × Int × Nat) k =>
    let term : Int := acc.2.2
    let nxt := acc.2.2 * r / fxOne / (k + 1)
    match k % 4 with
    | 0 => (acc.1, acc.2.1 + term, nxt)
    | 1 => (acc.1 + term, acc.2.1, nxt)
    | 2 => (acc.1, acc.2.1 - term, nxt)
    | _ => (acc.1 - term, acc.2.1, nxt)) (0, 0, fxOne)
  (t.1, t.2.1)

/-- A magnitude m × 2^e in units of 2^−120. -/
def fxOf (m : Nat) (e : Int) : Nat := if 0 ≤ e + 120 then m * 2 ^ (e + 120).toNat else m / 2 ^ (-(e + 120)).toNat

/-! ## Enclosures and bounds -/

/-- The exact result lies between lo × 2^q and hi × 2^q; a value is allowed within `ulps` spacings at the exact result, or
within 2^−`abs` when `ulps` is zero (R211). -/
structure Encl where
  lo : Int
  hi : Int
  q : Int
  ulps : Nat
  abs : Nat

/-- The exponent of the F32 spacing at the exact result (R211). No enclosure below straddles a power of two, so the end of least
magnitude lies in the binade of the exact result. -/
def Encl.ulpExp (x : Encl) : Int :=
  let m := min x.lo.natAbs x.hi.natAbs
  max ((Nat.log2 m : Int) + x.q - 23) (-149)

/-- Whether the finite F32 value i × 2^j surely lies within the bound of the exact result. -/
def Encl.allows (x : Encl) (i j : Int) : Bool :=
  let be : Int := if x.ulps = 0 then -(x.abs : Int) else x.ulpExp
  let e := min (min j x.q) be
  let y := i * 2 ^ (j - e).toNat
  let lo := x.lo * 2 ^ (x.q - e).toNat
  let hi := x.hi * 2 ^ (x.q - e).toNat
  let b : Int := (max x.ulps 1 : Nat) * 2 ^ (be - e).toNat
  y ≤ lo + b && hi - b ≤ y

/-- R210: the implementation's value within the bound, else the enclosed result rounded to nearest. -/
def Encl.pick (x : Encl) (op : Nat) (bits : Nat) : Nat :=
  let y := (Config.sfu op (w32 bits)).toNat
  match fF32.val y with
  | .fin n m e => if x.allows (if n then -(m : Int) else m) e then y else (fF32.roundInt .ne true x.lo x.q false).bits
  | _ => (fF32.roundInt .ne true x.lo x.q false).bits

/-- An enclosure around a value in units of 2^−120. -/
def enclAt (v : Int) (ulps abs : Nat) : Encl := ⟨v - fxErr, v + fxErr, -120, ulps, abs⟩

/-- The same, cut to the range in which the exact result is known to lie, so that values at the very edge of a bound are judged
rightly. -/
def enclIn (v lo hi : Int) (q : Int) (ulps abs : Nat) : Encl := ⟨max lo (v - fxErr), min hi (v + fxErr), q, ulps, abs⟩

/-! ## The functions on F32 patterns -/

/-- The OP codes of R200. -/
inductive SfuOp where
  | rcp | rsq | exp2 | log2 | sin | cos | tanh | sigm
  deriving DecidableEq, Repr

def SfuOp.code : SfuOp → Nat
  | .rcp => 0x70 | .rsq => 0x71 | .exp2 => 0x72 | .log2 => 0x73 | .sin => 0x74 | .cos => 0x75 | .tanh => 0x76
  | .sigm => 0x77

def f32One : Nat := 0x3F800000
def f32Half : Nat := 0x3F000000
def f32Neg (n : Bool) (p : Nat) : Nat := if n then p + 2 ^ 31 else p

/-- RCP of a finite nonzero value: overflow to an infinity; a power of two exactly; else within 1 ulp. -/
def sfuRcp (bits : Nat) (n : Bool) (m : Nat) (e : Int) : FRes :=
  let y := fdiv fF32 .ne false (.fin false 1 0) (.fin n m e)
  if y.fl &&& fOF ≠ 0 then ⟨f32Neg n fF32.infPat, fOF⟩
  else if y.fl = 0 then ⟨y.bits, 0⟩
  else
    let lo : Int := (2 ^ 200 / m : Nat)
    let x : Encl := if n then ⟨-lo - 1, -lo, -e - 200, 1, 0⟩ else ⟨lo, lo + 1, -e - 200, 1, 0⟩
    ⟨x.pick 0x70 bits, 0⟩

/-- RSQ of a finite positive value: 1/√(4^n) exactly; else within 1 ulp. -/
def sfuRsq (bits : Nat) (m : Nat) (e : Int) : FRes :=
  let odd := e % 2 == 1
  let m' := m * 2 ^ bit01 odd
  let e' := e - bit01 odd
  let x := isqrt (2 ^ 240 / m') 121
  let enc : Encl := ⟨x, x + 2, -120 - e' / 2, 1, 0⟩
  let p := Nat.log2 m'
  if m' = 2 ^ p ∧ p % 2 = 0 then ⟨(fF32.round .ne false false 1 (-(p : Int) / 2 - e' / 2) false).bits, 0⟩
  else ⟨enc.pick 0x71 bits, 0⟩

/-- EXP2 of a finite value: overflow from 128; an integer exactly where 2^n is representable; else within 2 ulp. -/
def sfuExp2 (bits : Nat) (n : Bool) (m : Nat) (e : Int) : FRes :=
  if !n && 128 * fxOne ≤ fxOf m e then ⟨fF32.infPat, fOF⟩
  else if n && 200 * fxOne ≤ fxOf m e then ⟨(Encl.mk 0 1 (-199) 2 0).pick 0x72 bits, 0⟩
  else
    -- a negative operand below the unit still gives a result below 1
    let a := if n then max 1 (fxOf m e) else fxOf m e
    let whole := e ≥ 0 || m % 2 ^ (-e).toNat == 0
    let i : Int := if n then -((a + fxOne - 1) / fxOne : Nat) else (a / fxOne : Nat)
    if whole && -149 ≤ i then ⟨(fF32.round .ne false false 1 i false).bits, 0⟩
    else
      let t : Nat := if n then ((a + fxOne - 1) / fxOne) * fxOne - a else a % fxOne
      let v := fxExp (t * fxLn2 / fxOne)
      ⟨(enclIn v fxOne (2 * fxOne) (i - 120) 2 0).pick 0x72 bits, 0⟩

/-- LOG2 of a finite positive value: n for 2^n exactly; within 2^−22 from 0.5 to 2, else within 2 ulp. -/
def sfuLog2 (bits : Nat) (m : Nat) (e : Int) : FRes :=
  let p := Nat.log2 m
  let k : Int := p + e
  if m = 2 ^ p then ⟨(i2f fF32 .ne k).bits, 0⟩
  else
    let u := m * 2 ^ (120 - p)
    let v : Int := k * fxOne + (fxLn u * fxOne / fxLn2 : Nat)
    ⟨(if -fxOne ≤ v ∧ v ≤ fxOne then enclAt v 0 22 else enclAt v 2 0).pick 0x73 bits, 0⟩

/-- sin and cos of a finite value in units of 2^−120, with the argument reduced by π / 2 exactly enough for every F32. -/
def fxTrig (n : Bool) (m : Nat) (e : Int) : Int × Int :=
  let a := m * 2 ^ (e + 300).toNat
  let k := a / fxHalfPi
  let (sn, cs) := fxSinCos (a % fxHalfPi / 2 ^ 180)
  let r := match k % 4 with
    | 0 => (sn, cs)
    | 1 => (cs, -sn)
    | 2 => (-sn, -cs)
    | _ => (-cs, sn)
  (if n then -r.1 else r.1, r.2)

/-- SIN of a finite nonzero value: within 2^−21; below 2^−20 the exact sine lies between a − a³/6 and a. -/
def sfuSin (bits : Nat) (n : Bool) (m : Nat) (e : Int) : FRes :=
  let x : Encl :=
    if fxOf m e < 2 ^ 100 then
      let hi : Int := m * 2 ^ (-2 * e).toNat
      let lo : Int := hi - (m ^ 3 / 6 + 1 : Nat)
      if n then ⟨-hi, -lo, 3 * e, 0, 21⟩ else ⟨lo, hi, 3 * e, 0, 21⟩
    else enclIn (fxTrig n m e).1 (-fxOne) fxOne (-120) 0 21
  ⟨x.pick 0x74 bits, 0⟩

/-- COS of a finite nonzero value: within 2^−21. -/
def sfuCos (bits : Nat) (n : Bool) (m : Nat) (e : Int) : FRes :=
  ⟨(enclIn (fxTrig n m e).2 (-fxOne) fxOne (-120) 0 21).pick 0x75 bits, 0⟩

/-- TANH of a finite value: a itself below 2^−12; else within 2^−22. -/
def sfuTanh (bits : Nat) (n : Bool) (m : Nat) (e : Int) : FRes :=
  if fxOf m e < 2 ^ 108 then ⟨bits, 0⟩
  else
    let y := fxExpNeg (2 * fxOf m e)
    let v : Int := ((fxOne - y) * fxOne / (fxOne + y) : Nat)
    ⟨(enclIn (if n then -v else v) (-fxOne) fxOne (-120) 0 22).pick 0x76 bits, 0⟩

/-- SIGM of a finite value: one half at zero; else within 2^−22. -/
def sfuSigm (bits : Nat) (n : Bool) (m : Nat) (e : Int) : FRes :=
  if m = 0 then ⟨f32Half, 0⟩
  else
    let y := fxExpNeg (fxOf m e)
    let v : Int := (fxOne * fxOne / (fxOne + y) : Nat)
    let half : Int := (fxOne / 2 : Nat)
    ⟨(if n then enclIn (fxOne - v) 0 half (-120) 0 22 else enclIn v half fxOne (-120) 0 22).pick 0x77 bits, 0⟩

/-- R211, R212: one function of an F32 pattern. -/
def sfuF32 (op : SfuOp) (bits : Nat) : FRes :=
  match op, fF32.val bits with
  | _, .nan sig => fF32.nanRes (if sig then fNV else 0)
  | .rcp, .inf n => ⟨f32Neg n 0, 0⟩
  | .rcp, .fin n m e => if m = 0 then ⟨f32Neg n fF32.infPat, fDZ⟩ else sfuRcp bits n m e
  | .rsq, .inf n => if n then fF32.nanRes fNV else ⟨0, 0⟩
  | .rsq, .fin n m e =>
    if m = 0 then ⟨f32Neg n fF32.infPat, fDZ⟩ else if n then fF32.nanRes fNV else sfuRsq bits m e
  | .exp2, .inf n => ⟨if n then 0 else fF32.infPat, 0⟩
  | .exp2, .fin n m e => sfuExp2 bits n m e
  | .log2, .inf n => if n then fF32.nanRes fNV else ⟨fF32.infPat, 0⟩
  | .log2, .fin n m e =>
    if m = 0 then ⟨f32Neg true fF32.infPat, fDZ⟩ else if n then fF32.nanRes fNV else sfuLog2 bits m e
  | .sin, .inf _ => fF32.nanRes fNV
  | .sin, .fin n m e => if m = 0 then ⟨bits, 0⟩ else sfuSin bits n m e
  | .cos, .inf _ => fF32.nanRes fNV
  | .cos, .fin n m e => if m = 0 then ⟨f32One, 0⟩ else sfuCos bits n m e
  | .tanh, .inf n => ⟨f32Neg n f32One, 0⟩
  | .tanh, .fin n m e => if m = 0 then ⟨bits, 0⟩ else sfuTanh bits n m e
  | .sigm, .inf n => ⟨if n then 0 else f32One, 0⟩
  | .sigm, .fin n m e => sfuSigm bits n m e

/-- R210: a narrower operand is widened exactly, evaluated in F32, and the result rounded once to T. Only NV, DZ and OF
are set. -/
def sfuOf (op : SfuOp) (t : Ty) (d : DWord) : FRes :=
  let fm := fmtOfTy t
  let a := fVal fm d
  let y := sfuF32 op (fconv fF32 .ne a).bits
  let fl := y.fl ||| nvSig [a]
  if fm = fF32 then ⟨y.bits, fl⟩
  else
    let z := fconv fm .ne (fF32.val y.bits)
    ⟨z.bits, (fl ||| z.fl) &&& (fNV + fDZ + fOF)⟩

def sfuWord (s : State) (f : F0) (op : SfuOp) : Out := laneFloat s f fun x l => sfuOf op f.t (x.rdN 1 f.a l)

def execRcp (f : F0) (s : State) : Out := sfuWord s f .rcp
def execRsq (f : F0) (s : State) : Out := sfuWord s f .rsq
def execExp2 (f : F0) (s : State) : Out := sfuWord s f .exp2
def execLog2 (f : F0) (s : State) : Out := sfuWord s f .log2
def execSin (f : F0) (s : State) : Out := sfuWord s f .sin
def execCos (f : F0) (s : State) : Out := sfuWord s f .cos
def execTanh (f : F0) (s : State) : Out := sfuWord s f .tanh
def execSigm (f : F0) (s : State) : Out := sfuWord s f .sigm

end Sys2Proof.Machine
end

