-- ==== Sys2Proof/Machine/Dispatch.lean ====
section
/-! DEFINITION. The dispatch: one arm per instruction word or event of spec/opcode_table.json. -/

namespace Sys2Proof.Machine

/-- What one instruction word of the issuing group, or one event, does. -/
def exec (i : Instr) (s : State) : Host.Outcome State Fault Refusal :=
  match i with
  | .tokenArrival core idx => Sys2Proof.Machine.execTokenArrival core idx s
  | .eosCount core idx => Sys2Proof.Machine.execEosCount core idx s
  | .collectionDeadline core slot => Sys2Proof.Machine.execCollectionDeadline core slot s
  | .postponedCollection core => Sys2Proof.Machine.execPostponedCollection core s
  | .spill core => Sys2Proof.Machine.execSpill core s
  | .spillRecordLanded core idx => Sys2Proof.Machine.execSpillRecordLanded core idx s
  | .refill core => Sys2Proof.Machine.execRefill core s
  | .blockCommit core grp => Sys2Proof.Machine.execBlockCommit core grp s
  | .delayedTokenRelease core idx => Sys2Proof.Machine.execDelayedTokenRelease core idx s
  | .longLatencyCompletion core grp idx => Sys2Proof.Machine.execLongLatencyCompletion core grp idx s
  | .speculativeRenewalReply core idx => Sys2Proof.Machine.execSpeculativeRenewalReply core idx s
  | .passOverPromotion core grp => Sys2Proof.Machine.execPassOverPromotion core grp s
  | .clockGate core => Sys2Proof.Machine.execClockGate core s
  | .coreWake core => Sys2Proof.Machine.execCoreWake core s
  | .deadlineWakeTimer core => Sys2Proof.Machine.execDeadlineWakeTimer core s
  | .restartEnd core => Sys2Proof.Machine.execRestartEnd core s
  | .clauseHeader f => Sys2Proof.Machine.execClauseHeader f s
  | .nop => Sys2Proof.Machine.execNop s
  | .illegalEncoding word => Sys2Proof.Machine.execIllegalEncoding word s
  | .send f => Sys2Proof.Machine.execSend f s
  | .sendv f => Sys2Proof.Machine.execSendv f s
  | .sendf f => Sys2Proof.Machine.execSendf f s
  | .exit f => Sys2Proof.Machine.execExit f s
  | .eos f => Sys2Proof.Machine.execEos f s
  | .colalloc f => Sys2Proof.Machine.execColalloc f s
  | .colfree f => Sys2Proof.Machine.execColfree f s
  | .packc f => Sys2Proof.Machine.execPackc f s
  | .unpackc f => Sys2Proof.Machine.execUnpackc f s
  | .bintimTimer f => Sys2Proof.Machine.execBintimTimer f s
  | .bintimPrio f => Sys2Proof.Machine.execBintimPrio f s
  | .ldblk f => Sys2Proof.Machine.execLdblk f s
  | .blockFetchComplete core slot => Sys2Proof.Machine.execBlockFetchComplete core slot s
  | .cfgw f => Sys2Proof.Machine.execCfgw f s
  | .qwait f => Sys2Proof.Machine.execQwait f s
  | .qwaitTimeout core grp => Sys2Proof.Machine.execQwaitTimeout core grp s
  | .mov f => Sys2Proof.Machine.execMov f s
  | .movk f => Sys2Proof.Machine.execMovk f s
  | .movi f => Sys2Proof.Machine.execMovi f s
  | .moviBy f => Sys2Proof.Machine.execMoviBy f s
  | .add f => Sys2Proof.Machine.execAdd f s
  | .sub f => Sys2Proof.Machine.execSub f s
  | .mul f => Sys2Proof.Machine.execMul f s
  | .mulhi f => Sys2Proof.Machine.execMulhi f s
  | .mad f => Sys2Proof.Machine.execMad f s
  | .madw f => Sys2Proof.Machine.execMadw f s
  | .div f => Sys2Proof.Machine.execDiv f s
  | .rem f => Sys2Proof.Machine.execRem f s
  | .abs f => Sys2Proof.Machine.execAbs f s
  | .neg f => Sys2Proof.Machine.execNeg f s
  | .min f => Sys2Proof.Machine.execMin f s
  | .max f => Sys2Proof.Machine.execMax f s
  | .shl f => Sys2Proof.Machine.execShl f s
  | .shr f => Sys2Proof.Machine.execShr f s
  | .sar f => Sys2Proof.Machine.execSar f s
  | .rol f => Sys2Proof.Machine.execRol f s
  | .and f => Sys2Proof.Machine.execAnd f s
  | .or f => Sys2Proof.Machine.execOr f s
  | .xor f => Sys2Proof.Machine.execXor f s
  | .not f => Sys2Proof.Machine.execNot f s
  | .andn f => Sys2Proof.Machine.execAndn f s
  | .bfe f => Sys2Proof.Machine.execBfe f s
  | .bfi f => Sys2Proof.Machine.execBfi f s
  | .brev f => Sys2Proof.Machine.execBrev f s
  | .clz f => Sys2Proof.Machine.execClz f s
  | .ctz f => Sys2Proof.Machine.execCtz f s
  | .popc f => Sys2Proof.Machine.execPopc f s
  | .sel f => Sys2Proof.Machine.execSel f s
  | .cmp f => Sys2Proof.Machine.execCmp f s
  | .lea f => Sys2Proof.Machine.execLea f s
  | .cvti f => Sys2Proof.Machine.execCvti f s
  | .pand f => Sys2Proof.Machine.execPand f s
  | .por f => Sys2Proof.Machine.execPor f s
  | .pxor f => Sys2Proof.Machine.execPxor f s
  | .pnot f => Sys2Proof.Machine.execPnot f s
  | .shfl f => Sys2Proof.Machine.execShfl f s
  | .vote f => Sys2Proof.Machine.execVote f s
  | .ballot f => Sys2Proof.Machine.execBallot f s
  | .matchAny f => Sys2Proof.Machine.execMatchAny f s
  | .matchAll f => Sys2Proof.Machine.execMatchAll f s
  | .redg f => Sys2Proof.Machine.execRedg f s
  | .scang f => Sys2Proof.Machine.execScang f s
  | .emrd f => Sys2Proof.Machine.execEmrd f s
  | .emwrAnd f => Sys2Proof.Machine.execEmwrAnd f s
  | .emwrSet f => Sys2Proof.Machine.execEmwrSet f s
  | .fadd f => Sys2Proof.Machine.execFadd f s
  | .fsub f => Sys2Proof.Machine.execFsub f s
  | .fmul f => Sys2Proof.Machine.execFmul f s
  | .ffma f => Sys2Proof.Machine.execFfma f s
  | .fmin f => Sys2Proof.Machine.execFmin f s
  | .fmax f => Sys2Proof.Machine.execFmax f s
  | .fabs f => Sys2Proof.Machine.execFabs f s
  | .fneg f => Sys2Proof.Machine.execFneg f s
  | .fcmp f => Sys2Proof.Machine.execFcmp f s
  | .fclass f => Sys2Proof.Machine.execFclass f s
  | .frnd f => Sys2Proof.Machine.execFrnd f s
  | .fcvt f => Sys2Proof.Machine.execFcvt f s
  | .fdiv f => Sys2Proof.Machine.execFdiv f s
  | .fsqrt f => Sys2Proof.Machine.execFsqrt f s
  | .hadd2 f => Sys2Proof.Machine.execHadd2 f s
  | .hmul2 f => Sys2Proof.Machine.execHmul2 f s
  | .hfma2 f => Sys2Proof.Machine.execHfma2 f s
  | .sflgRd f => Sys2Proof.Machine.execSflgRd f s
  | .sflgRdc f => Sys2Proof.Machine.execSflgRdc f s
  | .sflgSet f => Sys2Proof.Machine.execSflgSet f s
  | .sflgClr f => Sys2Proof.Machine.execSflgClr f s
  | .rcp f => Sys2Proof.Machine.execRcp f s
  | .rsq f => Sys2Proof.Machine.execRsq f s
  | .exp2 f => Sys2Proof.Machine.execExp2 f s
  | .log2 f => Sys2Proof.Machine.execLog2 f s
  | .sin f => Sys2Proof.Machine.execSin f s
  | .cos f => Sys2Proof.Machine.execCos f s
  | .tanh f => Sys2Proof.Machine.execTanh f s
  | .sigm f => Sys2Proof.Machine.execSigm f s
  | .teval f => Sys2Proof.Machine.execTeval f s
  | .tload f => Sys2Proof.Machine.execTload f s
  | .tloadCopy core table => Sys2Proof.Machine.execTloadCopy core table s
  | .tswap f => Sys2Proof.Machine.execTswap f s
  | .qnt f => Sys2Proof.Machine.execQnt f s
  | .dqnt f => Sys2Proof.Machine.execDqnt f s
  | .scale f => Sys2Proof.Machine.execScale f s
  | .bspack f => Sys2Proof.Machine.execBspack f s
  | .bsunpack f => Sys2Proof.Machine.execBsunpack f s
  | .cvtnUp f => Sys2Proof.Machine.execCvtnUp f s
  | .cvtnDn f => Sys2Proof.Machine.execCvtnDn f s
  | .cvtnDense f => Sys2Proof.Machine.execCvtnDense f s
  | .cvtnBytes f => Sys2Proof.Machine.execCvtnBytes f s
  | .spcmp f => Sys2Proof.Machine.execSpcmp f s
  | .spexp f => Sys2Proof.Machine.execSpexp f s
  | .rncv f => Sys2Proof.Machine.execRncv f s
  | .rncrt f => Sys2Proof.Machine.execRncrt f s
  | .rnadd f => Sys2Proof.Machine.execRnadd f s
  | .rnsub f => Sys2Proof.Machine.execRnsub f s
  | .rnmul f => Sys2Proof.Machine.execRnmul f s
  | .rnmad f => Sys2Proof.Machine.execRnmad f s
  | .rnneg f => Sys2Proof.Machine.execRnneg f s
  | .rnscl f => Sys2Proof.Machine.execRnscl f s
  | .mma f => Sys2Proof.Machine.execMma f s
  | .gmma f => Sys2Proof.Machine.execGmma f s
  | .gang f => Sys2Proof.Machine.execGang f s
  | .fmtb f => Sys2Proof.Machine.execFmtb f s
  | .gthr f => Sys2Proof.Machine.execGthr f s
  | .spmma f => Sys2Proof.Machine.execSpmma f s
  | .rnmma f => Sys2Proof.Machine.execRnmma f s
  | .accz f => Sys2Proof.Machine.execAccz f s
  | .accld f => Sys2Proof.Machine.execAccld f s
  | .accst f => Sys2Proof.Machine.execAccst f s
  | .accstAdd f => Sys2Proof.Machine.execAccstAdd f s
  | .accstRnadd f => Sys2Proof.Machine.execAccstRnadd f s
  | .acccvRn f => Sys2Proof.Machine.execAcccvRn f s
  | .acccvSc f => Sys2Proof.Machine.execAcccvSc f s
  | .gangRendezvousTimeout core => Sys2Proof.Machine.execGangRendezvousTimeout core s
  | .ldf f => Sys2Proof.Machine.execLdf f s
  | .stf f => Sys2Proof.Machine.execStf f s
  | .ldw f => Sys2Proof.Machine.execLdw f s
  | .lda f => Sys2Proof.Machine.execLda f s
  | .sta f => Sys2Proof.Machine.execSta f s
  | .staNb f => Sys2Proof.Machine.execStaNb f s
  | .neighbourDeposit core idx => Sys2Proof.Machine.execNeighbourDeposit core idx s
  | .ldc f => Sys2Proof.Machine.execLdc f s
  | .stc f => Sys2Proof.Machine.execStc f s
  | .pres f => Sys2Proof.Machine.execPres f s
  | .atoma f => Sys2Proof.Machine.execAtoma f s
  | .presenceSetResume core buf line => Sys2Proof.Machine.execPresenceSetResume core buf line s
  | .ldg f => Sys2Proof.Machine.execLdg f s
  | .stg f => Sys2Proof.Machine.execStg f s
  | .fetch f => Sys2Proof.Machine.execFetch f s
  | .atom f => Sys2Proof.Machine.execAtom f s
  | .red f => Sys2Proof.Machine.execRed f s
  | .fence f => Sys2Proof.Machine.execFence f s
  | .bar f => Sys2Proof.Machine.execBar f s
  | .cbar f => Sys2Proof.Machine.execCbar f s
  | .barrierArrival core idx => Sys2Proof.Machine.execBarrierArrival core idx s
  | .cprefL1 f => Sys2Proof.Machine.execCprefL1 f s
  | .cprefL2 f => Sys2Proof.Machine.execCprefL2 f s
  | .cprefEx f => Sys2Proof.Machine.execCprefEx f s
  | .cinvLine f => Sys2Proof.Machine.execCinvLine f s
  | .cinvAll f => Sys2Proof.Machine.execCinvAll f s
  | .cflushLine f => Sys2Proof.Machine.execCflushLine f s
  | .cflushDie f => Sys2Proof.Machine.execCflushDie f s
  | .lset f => Sys2Proof.Machine.execLset f s
  | .cpyMm f => Sys2Proof.Machine.execCpyMm f s
  | .cpyIn f => Sys2Proof.Machine.execCpyIn f s
  | .cpyOut f => Sys2Proof.Machine.execCpyOut f s
  | .cpytIn f => Sys2Proof.Machine.execCpytIn f s
  | .cpytOut f => Sys2Proof.Machine.execCpytOut f s
  | .cpygIn f => Sys2Proof.Machine.execCpygIn f s
  | .cpysOut f => Sys2Proof.Machine.execCpysOut f s
  | .cpyfMm f => Sys2Proof.Machine.execCpyfMm f s
  | .cpyfIn f => Sys2Proof.Machine.execCpyfIn f s
  | .cpypMm f => Sys2Proof.Machine.execCpypMm f s
  | .cpypIn f => Sys2Proof.Machine.execCpypIn f s
  | .cpypOut f => Sys2Proof.Machine.execCpypOut f s
  | .cpyspIn f => Sys2Proof.Machine.execCpyspIn f s
  | .cpyspOut f => Sys2Proof.Machine.execCpyspOut f s
  | .cpyspOutc f => Sys2Proof.Machine.execCpyspOutc f s
  | .courierCommandStart core => Sys2Proof.Machine.execCourierCommandStart core s
  | .courierCommandComplete core idx => Sys2Proof.Machine.execCourierCommandComplete core idx s
  | .courierRecall core line => Sys2Proof.Machine.execCourierRecall core line s
  | .rld f => Sys2Proof.Machine.execRld f s
  | .rst f => Sys2Proof.Machine.execRst f s
  | .ratom f => Sys2Proof.Machine.execRatom f s
  | .rput f => Sys2Proof.Machine.execRput f s
  | .rget f => Sys2Proof.Machine.execRget f s
  | .spw f => Sys2Proof.Machine.execSpw f s
  | .mcst f => Sys2Proof.Machine.execMcst f s
  | .mcput f => Sys2Proof.Machine.execMcput f s
  | .cfaa f => Sys2Proof.Machine.execCfaa f s
  | .cfaan f => Sys2Proof.Machine.execCfaan f s
  | .trap f => Sys2Proof.Machine.execTrap f s
  | .bkpt f => Sys2Proof.Machine.execBkpt f s
  | .resume f => Sys2Proof.Machine.execResume f s
  | .resumePast f => Sys2Proof.Machine.execResumePast f s
  | .abort f => Sys2Proof.Machine.execAbort f s
  | .abortRegion f => Sys2Proof.Machine.execAbortRegion f s
  | .srrd f => Sys2Proof.Machine.execSrrd f s
  | .srwr f => Sys2Proof.Machine.execSrwr f s
  | .fltrdWord f => Sys2Proof.Machine.execFltrdWord f s
  | .fltrdNext f => Sys2Proof.Machine.execFltrdNext f s
  | .halt f => Sys2Proof.Machine.execHalt f s
  | .sigchk f => Sys2Proof.Machine.execSigchk f s
  | .keyset f => Sys2Proof.Machine.execKeyset f s
  | .preemptSave f => Sys2Proof.Machine.execPreemptSave f s
  | .preemptRestore f => Sys2Proof.Machine.execPreemptRestore f s
  | .clolasVerifyDone idx => Sys2Proof.Machine.execClolasVerifyDone idx s
  | .leaseRequest die pos idx => Sys2Proof.Machine.execLeaseRequest die pos idx s
  | .storeLineArrival idx => Sys2Proof.Machine.execStoreLineArrival idx s
  | .linedUpWritePerform die pos idx => Sys2Proof.Machine.execLinedUpWritePerform die pos idx s
  | .atomicAtOwner die pos idx => Sys2Proof.Machine.execAtomicAtOwner die pos idx s
  | .fetchAtOwner die pos idx => Sys2Proof.Machine.execFetchAtOwner die pos idx s
  | .permitGets die line => Sys2Proof.Machine.execPermitGets die line s
  | .permitGetx die line => Sys2Proof.Machine.execPermitGetx die line s
  | .permitPut die line => Sys2Proof.Machine.execPermitPut die line s
  | .permitReply die line => Sys2Proof.Machine.execPermitReply die line s
  | .permitRequestTimeout die line => Sys2Proof.Machine.execPermitRequestTimeout die line s
  | .persistentRequest die line => Sys2Proof.Machine.execPersistentRequest die line s
  | .persistentActivation die pos => Sys2Proof.Machine.execPersistentActivation die pos s
  | .deactivate die line => Sys2Proof.Machine.execDeactivate die line s
  | .backInvalidationSnoop line toI => Sys2Proof.Machine.execBackInvalidationSnoop line toI s
  | .hostSnoop line high inval => Sys2Proof.Machine.execHostSnoop line high inval s
  | .pageWalk die => Sys2Proof.Machine.execPageWalk die s
  | .walkResult die idx => Sys2Proof.Machine.execWalkResult die idx s
  | .ingressTranslation die idx => Sys2Proof.Machine.execIngressTranslation die idx s
  | .tlbinvGo die value => Sys2Proof.Machine.execTlbinvGo die value s
  | .tlbinvDone die => Sys2Proof.Machine.execTlbinvDone die s
  | .linkPacketArrival place pkt => Sys2Proof.Machine.execLinkPacketArrival place pkt s
  | .deadLetterNotice pkt => Sys2Proof.Machine.execDeadLetterNotice pkt s
  | .remoteRequestAtTarget die idx => Sys2Proof.Machine.execRemoteRequestAtTarget die idx s
  | .remoteReply pkt => Sys2Proof.Machine.execRemoteReply pkt s
  | .remoteTimeout reqid => Sys2Proof.Machine.execRemoteTimeout reqid s
  | .writeCombineDrain core idx => Sys2Proof.Machine.execWriteCombineDrain core idx s
  | .spanWordArrival span => Sys2Proof.Machine.execSpanWordArrival span s
  | .spanCreditReturn span => Sys2Proof.Machine.execSpanCreditReturn span s
  | .pierAdderSum span adder => Sys2Proof.Machine.execPierAdderSum span adder s
  | .linkFailure link => Sys2Proof.Machine.execLinkFailure link s
  | .multicastStamp sw pkt => Sys2Proof.Machine.execMulticastStamp sw pkt s
  | .multicastArrival pkt => Sys2Proof.Machine.execMulticastArrival pkt s
  | .gapTimerExpiry group => Sys2Proof.Machine.execGapTimerExpiry group s
  | .memberAnswer sw group postmark midx status => Sys2Proof.Machine.execMemberAnswer sw group postmark midx status s
  | .memberAnswerTimeout sw group postmark => Sys2Proof.Machine.execMemberAnswerTimeout sw group postmark s
  | .returnReceipt pkt => Sys2Proof.Machine.execReturnReceipt pkt s
  | .combiningMerge sw port pkt => Sys2Proof.Machine.execCombiningMerge sw port pkt s
  | .combiningWindowExpiry sw idx => Sys2Proof.Machine.execCombiningWindowExpiry sw idx s
  | .decombineReply sw pkt => Sys2Proof.Machine.execDecombineReply sw pkt s
  | .recordError sw idx => Sys2Proof.Machine.execRecordError sw idx s
  | .switchReset sw => Sys2Proof.Machine.execSwitchReset sw s
  | .cfaaQuery reqid => Sys2Proof.Machine.execCfaaQuery reqid s
  | .replyLogQuery die pkt => Sys2Proof.Machine.execReplyLogQuery die pkt s
  | .replyLogAging die => Sys2Proof.Machine.execReplyLogAging die s
  | .heartbeat sw dev => Sys2Proof.Machine.execHeartbeat sw dev s
  | .heartbeatTimeout sw dev => Sys2Proof.Machine.execHeartbeatTimeout sw dev s
  | .deathNotice dev => Sys2Proof.Machine.execDeathNotice dev s
  | .declaredDead inc => Sys2Proof.Machine.execDeclaredDead inc s
  | .incarnationExchange own peers => Sys2Proof.Machine.execIncarnationExchange own peers s
  | .membershipTableProgram place keys => Sys2Proof.Machine.execMembershipTableProgram place keys s
  | .poolLinkFailure die => Sys2Proof.Machine.execPoolLinkFailure die s
  | .tokenPost off bytes => Sys2Proof.Machine.execTokenPost off bytes s
  | .launch => Sys2Proof.Machine.execLaunch s
  | .reconfig => Sys2Proof.Machine.execReconfig s
  | .reconfigSwap region => Sys2Proof.Machine.execReconfigSwap region s
  | .beginStream tile => Sys2Proof.Machine.execBeginStream tile s
  | .configFieldWrite tile => Sys2Proof.Machine.execConfigFieldWrite tile s
  | .crcEnd tile => Sys2Proof.Machine.execCrcEnd tile s
  | .commitStream tile => Sys2Proof.Machine.execCommitStream tile s
  | .rollbackStream tile => Sys2Proof.Machine.execRollbackStream tile s
  | .armTile tile => Sys2Proof.Machine.execArmTile tile s
  | .keystoneSweep region => Sys2Proof.Machine.execKeystoneSweep region s
  | .regionComplete region => Sys2Proof.Machine.execRegionComplete region s
  | .rateLimitWindow core => Sys2Proof.Machine.execRateLimitWindow core s
  | .colourReserveRefill core ids => Sys2Proof.Machine.execColourReserveRefill core ids s
  | .regionEnd region => Sys2Proof.Machine.execRegionEnd region s
  | .quenchTimeout core grp => Sys2Proof.Machine.execQuenchTimeout core grp s
  | .coreSave core => Sys2Proof.Machine.execCoreSave core s
  | .mcgrpRevoke value => Sys2Proof.Machine.execMcgrpRevoke value s
  | .poisonClr value => Sys2Proof.Machine.execPoisonClr value s
  | .poolRegionClear value => Sys2Proof.Machine.execPoolRegionClear value s
  | .registerWrite off value => Sys2Proof.Machine.execRegisterWrite off value s
  | .powerGoodReset flash => Sys2Proof.Machine.execPowerGoodReset flash s
  | .resetctl value => Sys2Proof.Machine.execResetctl value s
  | .attCtlGo value => Sys2Proof.Machine.execAttCtlGo value s
  | .quoteDone => Sys2Proof.Machine.execQuoteDone s
  | .throttleAssert => Sys2Proof.Machine.execThrottleAssert s
  | .throttleClear => Sys2Proof.Machine.execThrottleClear s
  | .hostCxlMemAccess addr bytes => Sys2Proof.Machine.execHostCxlMemAccess addr bytes s
  | .preemptRequest idx => Sys2Proof.Machine.execPreemptRequest idx s
  | .quench core => Sys2Proof.Machine.execQuench core s
  | .preemptionMarker core port => Sys2Proof.Machine.execPreemptionMarker core port s
  | .poolLinkRetrain die => Sys2Proof.Machine.execPoolLinkRetrain die s
  | .combiningControlProgram sw cen cwin => Sys2Proof.Machine.execCombiningControlProgram sw cen cwin s
  | .replicationTreeProgram sw group next members => Sys2Proof.Machine.execReplicationTreeProgram sw group next members s

end Sys2Proof.Machine
end

