-- ==== Sys2Proof/Machine/SoftErrors.lean ====
section
/-! DEFINITION. What the machine does when a soft error is detected (R155, R161, R389, R399). Errors arise outside the machine: the
schedule says when one is met. -/

namespace Sys2Proof.Machine

/-- A replay for a soft error: it does not count toward the four aborts of R31, and a group that has committed is beyond it. -/
def State.softReplay (s : State) (ci gi : Nat) : State :=
  match (s.core ci).group? gi with
  | none => s
  | some g =>
    if g.commit.isSome then s
    else (s.abortReplay ci gi).modCore ci fun c =>
      match c.group? gi with
      | none => c
      | some h => c.setGroup gi { h with mismatches := g.mismatches }

/-- An L1 copy is dropped, and every group that used it replays. -/
def State.l1Error (s : State) (ci ln : Nat) : State :=
  let users := (s.core ci).groups.filter fun e => e.2.l1used.contains ln
  users.foldl (fun s e => s.softReplay ci e.1) (s.modCore ci fun c => c.l1Drop ln)

/-- R161: the fault of a local access word's offsets, which stands before a DATA fault of the word. -/
def offsetFault (s : State) (c : Core) (g : Group) (i : Instr) : Option Flt :=
  let load (b : Buf) (f : F1) : Option Flt :=
    let (x, act) := f1Ctx f s c g
    localCheck c g b act (loadOffset x f) (sizeBytes f.fn.toNat) (sizeBytes f.fn.toNat)
  let store (b : Buf) (f : F1) : Option Flt :=
    let (x, act) := f1Ctx f s c g
    localCheck c g b act (storeOffset x f) (sizeBytes f.fn.toNat) (sizeBytes f.fn.toNat)
  match i with
  | .ldf f => load .frame f
  | .ldw f => load .w f
  | .lda f => load .a f
  | .ldc f => load .c f
  | .stf f => store .frame f
  | .sta f => store .a f
  | .stc f => store .c f
  | .staNb f => nbFault s c f (f1Ctx f s c g).1 (f1Ctx f s c g).2
  | .atoma f => localCheck c g .a (f1Ctx f s c g).2 (fun l => ((f1Ctx f s c g).1.rd f.a l).toNat) 4 4
  | _ => none

/-- The lanes that a word is active in, from its guard field. -/
def Group.activeFields (g : Group) : Fields → LaneMask
  | .std r => g.active (Guard.ofRaw r.g r.gn)
  | .tok r => g.active (Guard.ofRaw r.g r.gn)
  | .clause _ => 0

/-- The active lanes for which the group's next word reads a frame line: at the offsets of LDF, or for an operand i0 to i7 (R46,
R151). -/
def frameReaders (s : State) (c : Core) (g : Group) (ln : Nat) : LaneMask :=
  let fs := Fields.ofNat (fetchWord c g).toNat
  let cells := (touchedCodes fs).filter fun n => 0xC0 ≤ n && n < 0xC8
  let hit (l at_ n : Nat) : Bool :=
    ((g.insts[g.instOf l]?).bind c.entries.at?).isSome && (spanLines (frameBase c g l + at_) n).contains ln
  let loads : LaneMask := match fetchInstr c g with
    | .ldf f =>
      let (x, act) := f1Ctx f s c g
      maskOf fun l => laneBit act l && hit l (loadOffset x f l) (sizeBytes f.fn.toNat)
    | _ => 0
  loads ||| maskOf fun l => laneBit (g.activeFields fs) l && cells.any fun n => hit l (64 * (n - 0xC0)) 4

/-- An error in a frame line read by a group: LOCAL_ACCESS with cause DATA, when the word's offsets pass their checks (R161). -/
def State.frameError (s : State) (ci gi off : Nat) : State :=
  let c := s.core ci
  match c.group? gi with
  | none => s
  | some g =>
    let at_ := { s with cur := (ci, gi) }
    let lanes := frameReaders at_ c g (off / 128)
    match leader? lanes with
    | none => s
    | some l =>
      if g.canTry c && !g.interlocked (Fields.ofNat (fetchWord c g).toNat) && (offsetFault at_ c g (fetchInstr c g)).isNone then
        { at_.faultWord g { cls := .localAccess, cause := causeData, lanes := lanes, addr := off - frameBase c g l } with cur := s.cur }
      else s

/-- CAUSE of a REGION record (R383). -/
def SramPart.cause : SramPart → Nat
  | .w => 1 | .a => 2 | .c => 3 | .frameRestore => 4 | .table => 5 | .tileUndo => 6

/-- An error that ends the region: the REGION record, and the end of R391. -/
def State.sramError (s : State) (ci : Nat) (part : SramPart) (off : Nat) : State :=
  match (s.core ci).region with
  | none => s
  | some num =>
    let tail := tailOf [(2, part.cause * 2 ^ 56), (4, off)]
    ((s.raise (s.core ci).cfg.asid (srcCore ci) (dieOf ci) .region false true tail (some ci) false).2).beginEnd num .aborted

/-- R399. A line of memory reports its error until it is written whole. -/
def State.softError (x : SoftError) (s : State) : State :=
  match x with
  | .register ci gi => s.softReplay ci gi
  | .l1 ci ln => s.l1Error ci ln
  | .memory ln => if s.memErr.contains ln then s else { s with memErr := s.memErr ++ [ln] }
  | .frame ci gi off => s.frameError ci gi off
  | .sram ci part off => s.sramError ci part off

end Sys2Proof.Machine
end

