-- ==== Sys2Proof/Machine/Step.lean ====
section
/-! DEFINITION. One step of the machine, and the placing of an instruction where the next step fetches it. -/

namespace Sys2Proof.Machine

/-- One step: the head of the schedule moves, or the group that issued last goes on. -/
def step (s : State) : Host.Outcome State Fault Refusal := stepWith exec State.softError State.endCycle s

/-- The instruction of the host's word `w` of `nbits` bits placed as the next word of the issuing group. -/
def State.withFetchWord (s : State) (nbits w : Nat) : State := s.placeWord (BitVec.ofNat 64 (w % 2 ^ nbits))

end Sys2Proof.Machine
end

