-- ==== Sys2Proof/Safety.lean ====
section
/-! DEFINITION. What the claims call a sound state, a safe step and a safe run, and the words in which they say what an
instruction changes and what it leaves alone. -/

namespace Sys2Proof.Safety

open Sys2Proof.Machine

/-- The memory is in canonical form. -/
def memoryCanonical (s : State) : Prop := Memory.wf s.mem = true

/-- A step that neither stops nor lacks a meaning. -/
def goesOn (s : State) : Prop := ∃ t, step s = .next t

/-- A run of n steps that never stops. -/
def safeRun : Nat → State → Prop
  | 0, _ => True
  | n + 1, s => ∃ t, step s = .next t ∧ safeRun n t

/-! ## Frames -/

/-- `g` stands in the issuing group slot. -/
def Issuing (s : State) (g : Group) : Prop := (s.core s.cur.1).group? s.cur.2 = some g

/-- From s to t, group slot gi of core ci holds h, every other group of that core is unchanged, that core changes in nothing else,
every other core is unchanged, and nothing outside the cores changes: no byte of memory in particular. -/
structure OnlyGroup (s : State) (ci gi : Nat) (h : Group) (t : State) : Prop where
  here : (t.core ci).group? gi = some h
  groups : ∀ k, k ≠ gi → (t.core ci).group? k = (s.core ci).group? k
  core : ∃ gs, t.core ci = { s.core ci with groups := gs }
  cores : ∀ cj, cj ≠ ci → t.core cj = s.core cj
  rest : ∃ cs, t = { s with cores := cs }
  memory : ∀ a, t.memByte a = s.memByte a

/-- The word completes: the outcome is a next state in which the issuing group is h, past the word, and nothing else changed. -/
def Done (s : State) (h : Group) (o : Out) : Prop := ∃ t, o = .next t ∧ OnlyGroup s s.cur.1 s.cur.2 h.advance t

/-- The word waits: the outcome is a next state in which the issuing group stands before its word, and nothing else changed. -/
def Waits (s : State) (g : Group) (o : Out) : Prop :=
  ∃ t, o = .next t ∧ OnlyGroup s s.cur.1 s.cur.2 { g with status := .waiting } t

/-- From g to h, the lanes of `act` write `val`, a result of n registers, to the destination d (R46, R47): a v register, pair or
run takes its words, a predicate takes whether the low word is nonzero, and code 0xFF discards. Every other register and
predicate of every lane keeps its value, and so does all else of the group. -/
structure LaneWrite (g h : Group) (d : Operand) (n : Nat) (act : LaneMask) (val : Nat → Nat) : Prop where
  reg : ∀ (b : Fin 128) (l j : Nat), d = .v b → l < 32 → laneBit act l = true → j < n → b.val + j < 128 →
    h.reg (b.val + j) l = w32 (val l / 2 ^ (32 * j))
  pred : ∀ (q : Fin 7) (l : Nat), d = .p q → l < 32 → laneBit act l = true →
    laneBit (h.preds.atD q.val 0) l = (val l % 2 ^ 32 != 0)
  regKeep : ∀ r l, l < 32 → (∀ b : Fin 128, d = .v b → ¬ (b.val ≤ r ∧ r < b.val + n ∧ laneBit act l = true)) →
    h.reg r l = g.reg r l
  predKeep : ∀ q l, l < 32 → (∀ p : Fin 7, d = .p p → ¬ (p.val = q ∧ laneBit act l = true)) →
    laneBit (h.preds.atD q 0) l = laneBit (g.preds.atD q 0) l
  rest : h = { g with regs := h.regs, preds := h.preds }

/-- The context in which an F0 word reads its sources (R47: with the GTC sample latched where it reads %gtclo). -/
def ctx0 (f : F0) (s : State) (g : Group) : Ctx := (f0Ctx f s (s.core s.cur.1) g).1

/-- An F0 word completes: its active lanes write `val` to its destination D as n registers, the sticky bits `fl` are set, and
nothing else changes but the program counter. -/
def LaneDone (f : F0) (s : State) (g : Group) (n : Nat) (val : Nat → Nat) (fl : Nat) (o : Out) : Prop :=
  ∃ h, Done s (h.setFl fl) o ∧ LaneWrite (ctx0 f s g).g h f.d n (g.active f.g) val

/-- From g to h, each active lane writes registers D + j, for every j in js, with `val l j`; a destination other than a v register
discards; all else is unchanged. -/
def RunWrite (g h : Group) (d : Operand) (act : LaneMask) (js : List Nat) (val : Nat → Nat → Nat) : Prop :=
  (∀ (b : Fin 128) (l j : Nat), d = .v b → l < 32 → laneBit act l = true → j ∈ js → b.val + j < 128 → h.reg (b.val + j) l = w32 (val l j)) ∧
  (∀ r l, l < 32 → (∀ (b : Fin 128) (j : Nat), d = .v b → j ∈ js → laneBit act l = true → r ≠ b.val + j) → h.reg r l = g.reg r l) ∧
  h = { g with regs := h.regs }

/-- An F0 word whose destination is a run of registers completes: its active lanes write the run, the sticky bits `fl` are set, and
nothing else changes but the program counter. -/
def RunDone (f : F0) (s : State) (g : Group) (js : List Nat) (val : Nat → Nat → Nat) (fl : Nat) (o : Out) : Prop :=
  ∃ h, Done s (h.setFl fl) o ∧ RunWrite (ctx0 f s g).g h f.d (g.active f.g) js val

/-- An operation enters the issuing group (R57): the group is past the word with its flag marked once more and `op` added, the
core's operation counter advances, the core changes besides as `chg` says, and nothing else changes. -/
def Started (s : State) (g : Group) (op : LongOp) (chg : Core → Core) (o : Out) : Prop :=
  op.num = (s.core s.cur.1).nextNum ∧
  ∃ t, o = .next t ∧
    t.core s.cur.1 = (chg { s.core s.cur.1 with nextNum := op.num + 1 }).setGroup s.cur.2
      ({ g.flagUp op.flag with ops := g.ops ++ [op] } : Group).advance ∧
    (∀ cj, cj ≠ s.cur.1 → t.core cj = s.core cj) ∧ (∃ cs, t = { s with cores := cs }) ∧ ∀ a, t.memByte a = s.memByte a

/-- An operation issued before the group's word may still meet a fault, which the block would take first (R100). -/
def EarlierMayFault (s : State) (g : Group) : Prop := g.mayFault (s.core s.cur.1).nextNum = true

/-- The word takes a block fault at the issuing group (R382): the outcome is the state that the shared fault entry leaves; while an
earlier operation of the block may still fault, the word waits (R100). -/
def Faults (s : State) (g : Group) (f : Flt) (o : Out) : Prop :=
  (¬ EarlierMayFault s g → o = .next (s.takeFault s.cur.1 s.cur.2 g.pc f)) ∧ (EarlierMayFault s g → Waits s g o)

end Sys2Proof.Safety
end

