-- ==== Sys2Proof/Certificates/Slice0/Obligations.lean ====
section
/-! DEFINITION. The statements about the PX4 model: what its rules say that each instruction and event does. -/

open Sys2Proof Sys2Proof.Machine Sys2Proof.Safety

namespace Sys2Proof.Claims

/-! ## Words of the statements -/

/-- The integer that an F0 word of type T reads in lane l from A, from its second source, and from its third (R166, R167). -/
def intA (f : F0) (s : State) (g : Group) (l : Nat) : Int := f0Val f ((ctx0 f s g).rdN (tyRegs f.t) f.a l)
def intB (f : F0) (s : State) (g : Group) (l : Nat) : Int := f0Val f ((ctx0 f s g).src2 f (tyRegs f.t) l)
def intB' (f : F0) (s : State) (g : Group) (l : Nat) : Int := f0Val f ((ctx0 f s g).rdN (tyRegs f.t) f.b l)
def intC (f : F0) (s : State) (g : Group) (l : Nat) : Int := f0Val f ((ctx0 f s g).src3 f (tyRegs f.t) l)

/-- The bits of fit(r, T, sat) (R167). -/
def fitBits (f : F0) (sat : Bool) (r : Int) : Nat := ofIntN (fit r (tyWidth f.t) (tySigned f.t f.md) sat) 64

/-- MOD[0], `.SAT`. -/
def satBit (f : F0) : Bool := f.md.getLsbD 0

/-- The width-w pattern of A, of the second source, and the shift count of lane l (R166, R174). -/
def patA (f : F0) (s : State) (g : Group) (l : Nat) : Nat := ((ctx0 f s g).rdN (tyRegs f.t) f.a l).toNat
def patB (f : F0) (s : State) (g : Group) (l : Nat) : Nat := ((ctx0 f s g).src2 f (tyRegs f.t) l).toNat
def count (f : F0) (s : State) (g : Group) (l : Nat) : Nat := (ctx0 f s g).count2 f.b f.c l
def widthOf (f : F0) : Nat := 32 * tyRegs f.t

/-- One register of A or of B in lane l; the condition or count in C. -/
def regA (f : F0) (s : State) (g : Group) (l : Nat) : Word := (ctx0 f s g).rd f.a l
def regB (f : F0) (s : State) (g : Group) (l : Nat) : Word := (ctx0 f s g).rd f.b l

/-- The lanes of the segment of lane l that take part (R182). -/
def segment (f : F0) (g : Group) (l : Nat) : List Nat :=
  (maskLanes (g.active f.g)).filter fun j => j / segLen f g == l / segLen f g

end Sys2Proof.Claims

open Sys2Proof.Claims

/-! ## Integer words -/

/-- R170: each arithmetic word writes fit of the exact integer of its row, for every operand, and changes nothing else; MADW
computes in the type T′ of twice the width, into one register for 16-bit sources and a pair for 32-bit ones. R174: shifts act on the
width-w pattern of A by a count that is never masked; a count of w or more gives zero, or the sign for SAR; ROL takes the count
modulo w. -/
def Obligations.IntegerArithmeticAndShifts : Prop :=
  (∀ (f : F0) (s : State) (g : Group), Issuing s g →
    let a (l : Nat) : Int := intA f s g l
    let b (l : Nat) : Int := intB f s g l
    let w2 := 2 * tyWidth f.t
    let sg := tySigned f.t f.md
    let a1 (l : Nat) : Int := f0Val f ((ctx0 f s g).rdN 1 f.a l)
    let b1 (l : Nat) : Int := f0Val f ((ctx0 f s g).rdN 1 f.b l)
    let c2 (l : Nat) : Int := valOf w2 sg ((ctx0 f s g).src3 f (w2 / 32) l)
    LaneDone f s g (tyRegs f.t) (fun l => fitBits f (satBit f) (a l + b l)) 0 (exec (.add f) s) ∧
    LaneDone f s g (tyRegs f.t) (fun l => fitBits f (satBit f) (a l - b l)) 0 (exec (.sub f) s) ∧
    LaneDone f s g (tyRegs f.t) (fun l => fitBits f (satBit f) (a l * b l)) 0 (exec (.mul f) s) ∧
    LaneDone f s g (tyRegs f.t) (fun l => fitBits f false (a l * b l / 2 ^ tyWidth f.t)) 0 (exec (.mulhi f) s) ∧
    LaneDone f s g (tyRegs f.t) (fun l => fitBits f (satBit f) (a l * intB' f s g l + intC f s g l)) 0 (exec (.mad f) s) ∧
    LaneDone f s g (w2 / 32) (fun l => ofIntN (fit (a1 l * b1 l + c2 l) w2 sg (satBit f)) 64) 0 (exec (.madw f) s) ∧
    LaneDone f s g (tyRegs f.t) (fun l => fitBits f (satBit f) (if a l < 0 then -a l else a l)) 0 (exec (.abs f) s) ∧
    LaneDone f s g (tyRegs f.t) (fun l => fitBits f (satBit f) (-a l)) 0 (exec (.neg f) s) ∧
    LaneDone f s g (tyRegs f.t) (fun l => fitBits f false (min (a l) (b l))) 0 (exec (.min f) s) ∧
    LaneDone f s g (tyRegs f.t) (fun l => fitBits f false (max (a l) (b l))) 0 (exec (.max f) s)) ∧
  (∀ (f : F0) (s : State) (g : Group), Issuing s g →
    let w := widthOf f
    let a (l : Nat) : Nat := patA f s g l % 2 ^ w
    let n (l : Nat) : Nat := count f s g l
    LaneDone f s g (tyRegs f.t) (fun l => if n l < w then a l * 2 ^ n l % 2 ^ w else 0) 0 (exec (.shl f) s) ∧
    LaneDone f s g (tyRegs f.t) (fun l => if n l < w then a l / 2 ^ n l else 0) 0 (exec (.shr f) s) ∧
    LaneDone f s g (tyRegs f.t) (fun l => if n l < w then ofIntN (sextN (a l) w / 2 ^ n l) w
      else if a l / 2 ^ (w - 1) % 2 = 1 then 2 ^ w - 1 else 0) 0 (exec (.sar f) s) ∧
    LaneDone f s g (tyRegs f.t) (fun l => a l * 2 ^ (n l % w) % 2 ^ w + a l / 2 ^ (w - n l % w)) 0 (exec (.rol f) s))

/-- R175 to R177: bitwise words, field extraction and insertion, reversal and counts. R177: CLZ and CTZ give w for zero and else
the number of clear bits above the highest and below the lowest set bit; BREV moves bit j to bit w − 1 − j, so that twice gives
the pattern back. -/
def Obligations.BitwiseFieldAndCountWords : Prop :=
  (∀ (f : F0) (s : State) (g : Group), Issuing s g →
    let w := widthOf f
    let a (l : Nat) : Nat := patA f s g l
    let b (l : Nat) : Nat := patB f s g l
    let r (l : Nat) : Nat := (regA f s g l).toNat
    let p (l : Nat) : Nat := (regB f s g l).toNat
    let c (l : Nat) : Nat := (ctx0 f s g).count3 f.c l
    let take (l : Nat) : Nat := min (c l) (32 - p l)
    let take2 (l : Nat) : Nat := min (c l / 256 % 256) (32 - c l % 256)
    LaneDone f s g (tyRegs f.t) (fun l => (a l &&& b l) % 2 ^ w) 0 (exec (.and f) s) ∧
    LaneDone f s g (tyRegs f.t) (fun l => (a l ||| b l) % 2 ^ w) 0 (exec (.or f) s) ∧
    LaneDone f s g (tyRegs f.t) (fun l => (a l ^^^ b l) % 2 ^ w) 0 (exec (.xor f) s) ∧
    LaneDone f s g (tyRegs f.t) (fun l => (a l &&& (2 ^ w - 1 - b l % 2 ^ w)) % 2 ^ w) 0 (exec (.andn f) s) ∧
    LaneDone f s g (tyRegs f.t) (fun l => 2 ^ w - 1 - a l % 2 ^ w) 0 (exec (.not f) s) ∧
    LaneDone f s g 1 (fun l => if 32 ≤ p l ∨ c l = 0 then 0
      else if f.t = .s32 then ofIntN (sextN (r l / 2 ^ p l % 2 ^ take l) (take l)) 32 else r l / 2 ^ p l % 2 ^ take l) 0
      (exec (.bfe f) s) ∧
    LaneDone f s g 1 (fun l => if 32 ≤ c l % 256 ∨ c l / 256 % 256 = 0 then r l
      else (r l / 2 ^ (c l % 256 + take2 l) * 2 ^ (c l % 256 + take2 l) + p l % 2 ^ take2 l * 2 ^ (c l % 256) +
        r l % 2 ^ (c l % 256)) % 2 ^ 64) 0 (exec (.bfi f) s) ∧
    LaneDone f s g (tyRegs f.t) (fun l => brevN w (a l) % 2 ^ 64) 0 (exec (.brev f) s) ∧
    LaneDone f s g 1 (fun l => clzN w (a l) % 2 ^ 64) 0 (exec (.clz f) s) ∧
    LaneDone f s g 1 (fun l => ctzN w (a l) % 2 ^ 64) 0 (exec (.ctz f) s) ∧
    LaneDone f s g 1 (fun l => popcount (a l) w % 2 ^ 64) 0 (exec (.popc f) s)) ∧
  (∀ w a, 0 < w → a < 2 ^ w →
    (a = 0 → clzN w a = w ∧ ctzN w a = w) ∧
    (a ≠ 0 → clzN w a < w ∧ 2 ^ (w - 1 - clzN w a) ≤ a ∧ a < 2 ^ (w - clzN w a) ∧ ctzN w a < w ∧ a % 2 ^ ctzN w a = 0 ∧
      a / 2 ^ ctzN w a % 2 = 1) ∧
    (∀ j, j < w → brevN w a / 2 ^ (w - 1 - j) % 2 = a / 2 ^ j % 2) ∧ brevN w (brevN w a) = a)

/-- R169, R178 to R181: moves, selection, comparison, addresses, conversion and predicates. -/
def Obligations.MovesSelectionAndPredicates : Prop :=
  ∀ (f : F0) (s : State) (g : Group), Issuing s g →
    let n := tyRegs f.t
    let x := ctx0 f s g
    let inA (l : Nat) : Bool := (x.rd f.a l != 0) != f.fn.getLsbD 0
    let inB (l : Nat) : Bool := (x.rd f.b l != 0) != f.fn.getLsbD 1
    let cmp (l : Nat) : Bool := cmpHolds (f.fn.toNat % 8) (intA f s g l) (intB f s g l) && (f.fn.toNat < 8 || x.cond3 f.c l)
    LaneDone f s g n (fun l => (x.rdN n f.a l).toNat) 0 (exec (.mov f) s) ∧
    LaneDone f s g n (fun l => (movkValue (s.core s.cur.1) f.t (kIndex f.a) (count f s g l)).toNat) 0 (exec (.movk f) s) ∧
    LaneDone f s g n (fun l => (x.src3 f n l).toNat) 0 (exec (.movi f) s) ∧
    LaneDone f s g 1 (fun l => setField (regA f s g l).toNat (8 * (f.fn.toNat - 4)) 8 (x.count3 f.c l) % 2 ^ 64) 0
      (exec (.moviBy f) s) ∧
    LaneDone f s g n (fun l => if x.cond3 f.c l then (x.rdN n f.a l).toNat else (x.rdN n f.b l).toNat) 0 (exec (.sel f) s) ∧
    LaneDone f s g 1 (fun l => if cmp l then 1 else 0) 0 (exec (.cmp f) s) ∧
    LaneDone f s g 2 (fun l => leaN (f.t == .s32) (x.rd64 f.a l).toNat (regB f s g l) (x.count3 f.c l) % 2 ^ 64) 0
      (exec (.lea f) s) ∧
    LaneDone f s g n (fun l => fitBits f (satBit f) (valOf (8 * 2 ^ (f.fn.toNat / 2)) (f.fn.toNat % 2 == 0)
      (x.rdN (if 8 * 2 ^ (f.fn.toNat / 2) = 64 then 2 else 1) f.a l))) 0 (exec (.cvti f) s) ∧
    LaneDone f s g 1 (fun l => if inA l && inB l then 1 else 0) 0 (exec (.pand f) s) ∧
    LaneDone f s g 1 (fun l => if inA l || inB l then 1 else 0) 0 (exec (.por f) s) ∧
    LaneDone f s g 1 (fun l => if inA l != inB l then 1 else 0) 0 (exec (.pxor f) s) ∧
    LaneDone f s g 1 (fun l => if inA l then 0 else 1) 0 (exec (.pnot f) s)

/-- R172: the quotient truncates toward zero and is narrowed by fit, the remainder is a − b × e, and division by zero gives all
ones, or with MOD[0] the bound that the sign of a selects, with remainder a. R57, R173: a division enters the core's divide unit
while it holds fewer than five words, with the results of the active lanes to be written at completion; with five words there it
waits at issue. -/
def Obligations.DivisionWords : Prop :=
  (∀ (w : Nat) (sg sat : Bool) (a b : Int), 0 < w →
    (b ≠ 0 → divRem w sg sat a b = (fit (Int.tdiv a b) w sg sat, a - b * Int.tdiv a b) ∧
      (a - b * Int.tdiv a b).natAbs < b.natAbs ∧ (0 ≤ a → 0 ≤ a - b * Int.tdiv a b) ∧ (a ≤ 0 → a - b * Int.tdiv a b ≤ 0)) ∧
    (b = 0 → (divRem w sg sat a b).2 = a ∧
      (sat = true → (divRem w sg sat a b).1 = if 0 < a then hiOf w sg else if a < 0 then loOf w sg else 0) ∧
      (sat = false → ofIntN (divRem w sg sat a b).1 w = 2 ^ w - 1))) ∧
  (∀ (f : F0) (s : State) (g : Group), Issuing s g →
    let c := s.core s.cur.1
    let n := tyRegs f.t
    let flag := flagOf (f.x.toNat % 16)
    let res (pick : Int × Int → Int) : List (Nat × Nat) := (maskLanes (g.active f.g)).map fun l =>
      (l, ofIntN (pick (divRem (tyWidth f.t) (tySigned f.t f.md) (satBit f) (intA f s g l) (intB f s g l))) 64)
    let op (pick : Int × Int → Int) : LongOp :=
      { LongOp.plain c.nextNum flag g.pc .result with dst := f.d, writes := regWrites f.d n (res pick) }
    (c.divq.length < 5 → g.flagFull flag = false →
      Started s (ctx0 f s g).g (op Prod.fst) (fun c' => { c' with divq := c'.divq ++ [c.nextNum] }) (exec (.div f) s) ∧
      Started s (ctx0 f s g).g (op Prod.snd) (fun c' => { c' with divq := c'.divq ++ [c.nextNum] }) (exec (.rem f) s)) ∧
    (5 ≤ c.divq.length → Waits s g (exec (.div f) s) ∧ Waits s g (exec (.rem f) s)))

/-! ## Lane words -/

/-- R182, R184 to R187: SHFL, VOTE, BALLOT, REDG and SCANG write to each participant what its segment's participants give, all
sources read first. -/
def Obligations.LaneWordsReadTheirSegment : Prop :=
  ∀ (f : F0) (s : State) (g : Group), Issuing s g →
    let n := tyRegs f.t
    let x := ctx0 f s g
    let act := g.active f.g
    let len := segLen f g
    let ps (l : Nat) : List Nat := segment f g l
    let val (j : Nat) : Nat := (x.rdN n f.a j).toNat
    LaneDone f s g n (fun l => match shflSrc f.fn.toNat len (len * (l / len)) l (count f s g l) with
      | some j => if laneBit act j then val j else val l
      | none => val l) 0 (exec (.shfl f) s) ∧
    (f.fn = 0 → LaneDone f s g 1 (fun l => if (ps l).all fun j => val j != 0 then 1 else 0) 0 (exec (.vote f) s)) ∧
    (f.fn = 1 → LaneDone f s g 1 (fun l => if (ps l).any fun j => val j != 0 then 1 else 0) 0 (exec (.vote f) s)) ∧
    (f.fn = 2 → LaneDone f s g 1 (fun l => if (ps l).all fun j => some (val j) == ((ps l).map val).head? then 1 else 0) 0
      (exec (.vote f) s)) ∧
    LaneDone f s g 1 (fun l => (maskOf fun j => (ps l).contains j && x.rd f.a j != 0).toNat) 0 (exec (.ballot f) s) ∧
    LaneDone f s g n (fun l => reduceLanes f ((ps l).map fun j => x.rdN n f.a j)) 0 (exec (.redg f) s) ∧
    LaneDone f s g n (fun l => reduceLanes f (((ps l).filter fun j => j < l || (j == l && !f.fn.getLsbD 3)).map fun j =>
      x.rdN n f.a j)) 0 (exec (.scang f) s)

/-- R186: MATCH gives masks of equal keys; a lane of em whose guard fails takes no part and receives zero, in a segment where no lane
takes part too, which is the model's choice between R182 and R186 (log entry 159). R188: EMRD writes em,
the active lanes, or em at collection; EMWR sets em from the lowest active lane and never enables a lane that the collection left
unfilled when em lies within it. -/
def Obligations.MatchAndExecutionMaskWords : Prop :=
  (∀ (f : F0) (s : State) (g : Group), Issuing s g →
    let act := g.active f.g
    let key (l : Nat) : Nat := matchKey (ctx0 f s g) f l
    let ps (l : Nat) : List Nat := segment f g l
    (∃ h, Done s h (exec (.matchAny f) s) ∧ LaneWrite (ctx0 f s g).g h f.d 1 g.em fun l =>
      if laneBit act l then (maskOf fun j => (ps l).contains j && key j == key l).toNat else 0) ∧
    (∃ h, Done s h (exec (.matchAll f) s) ∧ LaneWrite (ctx0 f s g).g h f.d 1 g.em fun l =>
      if laneBit act l then (if (ps l).all fun j => key j == key l then (maskOf fun j => (ps l).contains j).toNat else 0) else 0)) ∧
  (∀ (f : F0) (s : State) (g : Group), Issuing s g →
    let act := g.active f.g
    (∃ h, Done s h (exec (.emrd f) s) ∧ LaneWrite g h f.d 1 act fun _ =>
      (if f.fn = 0 then g.em else if f.fn = 1 then act else g.emFire).toNat) ∧
    (∀ l, leader? act = some l →
      Done s { (ctx0 f s g).g with em := g.em &&& regA f s g l } (exec (.emwrAnd f) s) ∧
      Done s { (ctx0 f s g).g with em := g.emFire &&& regA f s g l } (exec (.emwrSet f) s)) ∧
    (act = 0 → Done s g (exec (.emwrAnd f) s) ∧ Done s g (exec (.emwrSet f) s)))

/-! ## Floating-point, narrow and residue words -/

namespace Sys2Proof.Claims

/-- The F32, F16 or BF16 value that an F0 word reads in lane l from A, B, its second and its third source (R192). -/
def fA (f : F0) (s : State) (g : Group) (l : Nat) : FVal := fVal (fmtOfTy f.t) ((ctx0 f s g).rdN 1 f.a l)
def fB (f : F0) (s : State) (g : Group) (l : Nat) : FVal := fVal (fmtOfTy f.t) ((ctx0 f s g).rdN 1 f.b l)
def fB' (f : F0) (s : State) (g : Group) (l : Nat) : FVal := fVal (fmtOfTy f.t) ((ctx0 f s g).src2 f 1 l)
def fC (f : F0) (s : State) (g : Group) (l : Nat) : FVal := fVal (fmtOfTy f.t) ((ctx0 f s g).src3 f 1 l)

/-- A lane word that writes `r` and sets in FPSR every sticky bit that some active lane raises (R196). -/
def FloatDone (f : F0) (s : State) (g : Group) (r : Nat → FRes) (o : Out) : Prop :=
  LaneDone f s g 1 (fun l => (r l).bits) (orFl ((maskLanes (g.active f.g)).map fun l => (r l).fl)) o

end Sys2Proof.Claims

/-- R201 to R206: the scalar floating words write the rounded result of their operation, set only the sticky bits their active
lanes raise, and FABS, FNEG and FCLASS set none. -/
def Obligations.FloatWordsWriteRoundedResults : Prop :=
  ∀ (f : F0) (s : State) (g : Group), Issuing s g →
    let fm := fmtOfTy f.t
    let r := Rnd.ofMod f.md.toNat
    let sat := f.md.getLsbD 2
    let x := ctx0 f s g
    let pa (l : Nat) : Nat := fPat fm (x.rdN 1 f.a l)
    let pb (l : Nat) : Nat := fPat fm (x.src2 f 1 l)
    let cmp (l : Nat) : Bool × Nat := fcmp (f.fn.toNat % 8) (fA f s g l) (fB' f s g l)
    FloatDone f s g (fun l => fadd fm r sat (fA f s g l) (fB' f s g l)) (exec (.fadd f) s) ∧
    FloatDone f s g (fun l => fsub fm r sat (fA f s g l) (fB' f s g l)) (exec (.fsub f) s) ∧
    FloatDone f s g (fun l => fmul fm r sat (fA f s g l) (fB' f s g l)) (exec (.fmul f) s) ∧
    FloatDone f s g (fun l => fdiv fm r sat (fA f s g l) (fB' f s g l)) (exec (.fdiv f) s) ∧
    FloatDone f s g (fun l => ffma fm r sat (fA f s g l) (fB f s g l) (fC f s g l)) (exec (.ffma f) s) ∧
    FloatDone f s g (fun l => fsqrt fm r sat (fA f s g l)) (exec (.fsqrt f) s) ∧
    FloatDone f s g (fun l => fminmax fm false (pa l) (pb l)) (exec (.fmin f) s) ∧
    FloatDone f s g (fun l => fminmax fm true (pa l) (pb l)) (exec (.fmax f) s) ∧
    FloatDone f s g (fun l => ⟨if (cmp l).1 && (f.fn.toNat < 8 || x.cond3 f.c l) then 1 else 0, (cmp l).2⟩) (exec (.fcmp f) s) ∧
    FloatDone f s g (fun l => frnd fm r (pa l)) (exec (.frnd f) s) ∧
    LaneDone f s g 1 (fun l => pa l % fm.signBit % 2 ^ 64) 0 (exec (.fabs f) s) ∧
    LaneDone f s g 1 (fun l => (pa l ^^^ fm.signBit) % 2 ^ 64) 0 (exec (.fneg f) s) ∧
    LaneDone f s g 1 (fun l => fclass fm (pa l) % 2 ^ 64) 0 (exec (.fclass f) s)

/-- R208, R210: the packed words work on both halves of a register, and each special function writes the result that the model's
`sfuOf` gives its operand. That result is the model's choice: a free value of the implementation, which `sfuOf` keeps within the
bound of R211 (log entry 67); the bound itself is not stated here. -/
def Obligations.PackedAndSpecialFunctionWords : Prop :=
  ∀ (f : F0) (s : State) (g : Group), Issuing s g →
    let fm := fmtOfTy f.t
    let r := Rnd.ofMod f.md.toNat
    let sat := f.md.getLsbD 2
    let x := ctx0 f s g
    let dup (d : DWord) : Nat := match f.c with
      | .imm _ => d.toNat % 65536 * 65537
      | .op _ => d.toNat
    let half (n i : Nat) : FVal := fm.val (if i = 0 then n % 65536 else n / 65536)
    let both (op : Nat → FRes) : FRes := ⟨(op 0).bits + (op 1).bits * 65536, (op 0).fl ||| (op 1).fl⟩
    let a (l : Nat) : Nat := (x.rd f.a l).toNat
    let b (l : Nat) : Nat := dup (x.src2 f 1 l)
    let sfu (op : SfuOp) (l : Nat) : FRes := sfuOf op f.t (x.rdN 1 f.a l)
    FloatDone f s g (fun l => both fun i => fadd fm r sat (half (a l) i) (half (b l) i)) (exec (.hadd2 f) s) ∧
    FloatDone f s g (fun l => both fun i => fmul fm r sat (half (a l) i) (half (b l) i)) (exec (.hmul2 f) s) ∧
    FloatDone f s g (fun l => both fun i =>
      ffma fm r sat (half (a l) i) (half (x.rd f.b l).toNat i) (half (dup (x.src3 f 1 l)) i)) (exec (.hfma2 f) s) ∧
    FloatDone f s g (sfu .rcp) (exec (.rcp f) s) ∧ FloatDone f s g (sfu .rsq) (exec (.rsq f) s) ∧
    FloatDone f s g (sfu .exp2) (exec (.exp2 f) s) ∧ FloatDone f s g (sfu .log2) (exec (.log2 f) s) ∧
    FloatDone f s g (sfu .sin) (exec (.sin f) s) ∧ FloatDone f s g (sfu .cos) (exec (.cos f) s) ∧
    FloatDone f s g (sfu .tanh) (exec (.tanh f) s) ∧ FloatDone f s g (sfu .sigm) (exec (.sigm f) s)

/-- R198, R207, R237: FCVT and CVTN.DN round with MOD, or with `.SR` by each active lane's generator, which then advances once; a
word without `.SR` leaves every generator alone. Which pad bits of B the inserted code of CVTN.DN keeps is the model's choice (log
entry 155). -/
def Obligations.ConversionsAdvanceGeneratorsUnderSR : Prop :=
  ∀ (f : F0) (s : State) (g : Group), Issuing s g →
    let x := ctx0 f s g
    let act := g.active f.g
    let src := tyOfFn f.fn.toNat
    let sr := f.md.getLsbD 2
    let rnd (l : Nat) : Rnd := if sr then .sr (srAdvance (g.sr.atD l 0)).toNat else Rnd.ofMod f.md.toNat
    let cvt (l : Nat) : FRes := fcvtOne src f.t (rnd l) (x.rdN (tyRegs src) f.a l)
    let nar (l : Nat) : FRes := toNarrow (fmtOfTy f.t) (rnd l) (fF32.val (x.rd f.a l).toNat)
    let ins (l : Nat) : Nat := setField (x.rd f.b l).toNat (codeStep f.t * x.count3 f.c l) (codeStep f.t) (nar l).bits
    let stepped (h : Group) : Prop :=
      ∀ l, l < 32 → h.sr.atD l 0 = if sr && laneBit act l then srAdvance (g.sr.atD l 0) else g.sr.atD l 0
    (∃ sr' h, stepped { x.g with sr := sr' } ∧ Done s (h.setFl (orFl ((maskLanes act).map fun l => (cvt l).fl))) (exec (.fcvt f) s) ∧
      LaneWrite { x.g with sr := sr' } h f.d (tyRegs f.t) act fun l => (cvt l).bits) ∧
    (∃ sr' h, stepped { x.g with sr := sr' } ∧ Done s (h.setFl (orFl ((maskLanes act).map fun l => (nar l).fl))) (exec (.cvtnDn f) s) ∧
      LaneWrite { x.g with sr := sr' } h f.d 1 act ins)

/-- R209: SFLG reads the status word into every active lane, `.RDC` then clears it, and SET and CLR change it by the mask of the
lowest active lane; with no active lane nothing changes. R213 to R217: TEVAL starts an operation with the table version that its
group is bound to; TLOAD copies into the version that is not current, after its checks; TSWAP waits for commit. -/
def Obligations.StatusAndActivationTableWords : Prop :=
  (∀ (f : F0) (s : State) (g : Group), Issuing s g →
    let act := g.active f.g
    let x := ctx0 f s g
    (∃ h, Done s h (exec (.sflgRd f) s) ∧ LaneWrite g h f.d 1 act fun _ => g.fpsr.toNat) ∧
    (∃ h, Done s (if act = 0 then h else { h with fpsr := 0 }) (exec (.sflgRdc f) s) ∧ LaneWrite g h f.d 1 act fun _ => g.fpsr.toNat) ∧
    (∀ l, leader? act = some l →
      Done s { x.g with fpsr := g.fpsr ||| w32 (x.count2 f.a f.c l % 64) } (exec (.sflgSet f) s) ∧
      Done s { x.g with fpsr := g.fpsr &&& ~~~ (w32 (x.count2 f.a f.c l % 64)) } (exec (.sflgClr f) s)) ∧
    (act = 0 → Done s g (exec (.sflgSet f) s) ∧ Done s g (exec (.sflgClr f) s))) ∧
  (∀ (f : F0) (s : State) (g : Group), Issuing s g →
    let x := ctx0 f s g
    let act := g.active f.g
    let c := s.core s.cur.1
    let t := tableOf f
    let flag := flagOf (f.x.toNat % 16)
    let v := c.tables.atD (2 * t + g.tbind.atD t 0) TableVer.zero
    let rs := (maskLanes act).map fun l => (l, v.eval (x.rd f.a l).toNat)
    (g.flagFull flag = false → Started s x.g { LongOp.plain c.nextNum flag g.pc .result with
        dst := f.d, writes := regWrites f.d 1 (rs.map fun r => (r.1, r.2.bits)), fl := w32 (orFl (rs.map fun r => r.2.fl)) }
        (fun c' => c') (exec (.teval f) s)) ∧
    (∀ l, leader? act = some l →
      let o := (x.rd f.a l).toNat
      let ver := 1 - c.tcur.atD t 0
      (o + 4128 ≤ c.partSize .w → o % 16 = 0 → g.tbind.atD t 0 ≠ ver → g.flagFull flag = false →
        Started s x.g { LongOp.plain c.nextNum flag g.pc (.tload t) with ready := false }
          (fun c' => { c' with tloads := c'.tloads ++ [{ num := c.nextNum, grp := s.cur.2, table := t, ver := ver, off := o }] })
          (exec (.tload f) s)) ∧
      (c.partSize .w < o + 4128 → Faults s g { cls := .localAccess, cause := 1, lanes := laneMask1 l, addr := o } (exec (.tload f) s)) ∧
      (o + 4128 ≤ c.partSize .w → o % 16 ≠ 0 →
        Faults s g { cls := .localAccess, cause := 2, lanes := laneMask1 l, addr := o } (exec (.tload f) s))) ∧
    (act = 0 → g.flagFull flag = false →
      Started s x.g (LongOp.plain c.nextNum flag g.pc .result) (fun c' => c') (exec (.tload f) s)) ∧
    (act ≠ 0 → Done s { g with deferred := g.deferred ++ [.tswap t] } (exec (.tswap f) s)) ∧
    (act = 0 → Done s g (exec (.tswap f) s)))

namespace Sys2Proof.Claims

/-- The state of a generator after k advances (R198). -/
def srAfter (q : BitVec 16) : Nat → BitVec 16
  | 0 => q
  | k + 1 => srAdvance (srAfter q k)

/-- Σ 2^i over a list of indices. -/
def bitsOf (is : List Nat) : Nat := is.foldl (fun m i => m + 2 ^ i) 0

end Sys2Proof.Claims

/-- R233 to R239. SCALE, BSPACK, BSUNPACK and CVTN.UP complete and write one result a lane; DQNT, CVTN.DENSE and CVTN.BYTES
complete and write their run of registers in each active lane; each changes nothing else but the sticky bits that its rule names. DQNT
rounds the product once and turns an overflow into an infinity in every mode. QNT writes in each active lane the codes of its n values under
the lane's scale, code k in place k, with the sticky bits of every element, and under `.SR` each element takes the next state of the
lane's generator; under a NaN or zero scale it sets FMTERR alone, also for a signalling NaN, which is the model's reading of R234 (log
entry 171). SPCMP writes the N kept codes in V registers and the mask in the pair D + 8, and no flag: the kept indices are N, ascending,
those of largest magnitude, lower indices first among equals. SPEXP puts the kept codes back, or writes zeros and sets FMTERR where the
mask has not N bits. Nothing else changes. -/
def Obligations.NarrowQuantizeAndSparseWords : Prop :=
  (∀ (f : F0) (s : State) (g : Group), Issuing s g →
    let x := ctx0 f s g
    let act := g.active f.g
    let n := codesPerReg f.t
    let code (l : Nat) : Nat := codeAt f.t (x.rd f.a l).toNat (x.count2 f.b f.c l)
    let el (l j : Nat) : FVal := (fmtOfTy f.t).val (codeAt f.t (x.rd f.a l).toNat j)
    let dq (l j : Nat) : FRes := match bs20 (scaleBits (x.rd f.b l)) with
      | none => fF32.nanRes (fFMT ||| nvSig [el l j])
      | some (m, e) =>
        let y := mulScale (Rnd.ofMod f.md.toNat) (el l j) m e
        if y.fl &&& fOF = 0 then y else fF32.infRes false (el l j).neg y.fl
    let bytes (l : Nat) : Nat := x.runNat f.a 4 l
    let dense (l : Nat) : Nat := x.runNat f.a 3 l
    FloatDone f s g (fun l => scaleOf f.t (fVal fF32 (x.rdN 1 f.a l))) (exec (.scale f) s) ∧
    LaneDone f s g 2 (fun l => (scaleBits (x.rd f.a l) + scaleBits (x.rd f.b l) * 2 ^ 20 +
      scaleBits (w32 (x.count3 f.c l)) * 2 ^ 40) % 2 ^ 64) 0 (exec (.bspack f) s) ∧
    LaneDone f s g 1 (fun l => (x.rd64 f.a l).toNat / 2 ^ (20 * x.count3 f.c l) % 2 ^ 20) 0 (exec (.bsunpack f) s) ∧
    FloatDone f s g (fun l => if x.count2 f.b f.c l < n then fconv fF32 .ne ((fmtOfTy f.t).val (code l)) else ⟨0, 0⟩)
      (exec (.cvtnUp f) s) ∧
    ((∀ q, f.d ≠ .p q) →
      RunDone f s g (List.range n) (fun l j => (dq l j).bits)
        (orFl ((maskLanes act).map fun l => orFl ((List.range n).map fun j => (dq l j).fl))) (exec (.dqnt f) s) ∧
      RunDone f s g (List.range 3) (fun l j => packCodes 6 ((List.range 16).map fun k => bytes l / 2 ^ (8 * k) % 2 ^ 6) / 2 ^ (32 * j)) 0
        (exec (.cvtnDense f) s) ∧
      RunDone f s g (List.range 4) (fun l j => packCodes 8 ((List.range 16).map fun k => dense l / 2 ^ (6 * k) % 2 ^ 6) / 2 ^ (32 * j)) 0
        (exec (.cvtnBytes f) s))) ∧
  (∀ (f : F0) (s : State) (g : Group), Issuing s g →
    let x := ctx0 f s g
    let act := g.active f.g
    let n := codesPerReg f.t
    let step := codeStep f.t
    let w := (fmtOfTy f.t).width
    let fm := fmtOfTy f.t
    let gen (l : Nat) : BitVec 16 := g.sr.atD l 0
    let sr := f.md.getLsbD 2
    let rnd (l k : Nat) : Rnd := if sr then .sr (srAfter (gen l) (k + 1)).toNat else Rnd.ofMod f.md.toNat
    let q (l k : Nat) : FRes := match bs20 (scaleBits (x.rd f.b l)) with
      | none => ⟨fm.nanPat, fFMT⟩
      | some (m, e) => if m = 0 then ⟨0, fFMT⟩ else divNarrow fm (rnd l k) (fF32.val (x.rd (opPlus f.a k) l).toNat) m e
    let N := sparseN f.fn.toNat
    let src (l : Nat) : Nat := x.runNat f.a (64 / n) l
    let code (l i : Nat) : Nat := src l / 2 ^ (step * i) % 2 ^ w
    let ks (l : Nat) : List Nat := keptOf ((List.range 64).map fun i => code l i % 2 ^ (w - 1)) N
    let mask (l : Nat) : Nat := x.runNat (opPlus f.a 8) 2 l
    let full (l : Nat) : Bool := popcount (mask l) 64 == N
    let back (l i : Nat) : Nat :=
      if full l && mask l / 2 ^ i % 2 == 1 then x.runNat f.a (N / n) l / 2 ^ (step * popcount (mask l % 2 ^ i) 64) % 2 ^ w else 0
    (∃ sr' h, (∀ l, l < 32 → NMap.atD sr' l 0 = if sr && laneBit act l then srAfter (gen l) n else gen l) ∧
      Done s (h.setFl (orFl ((maskLanes act).map fun l => orFl ((List.range n).map fun k => (q l k).fl)))) (exec (.qnt f) s) ∧
      LaneWrite { x.g with sr := sr' } h f.d 1 act fun l => packCodes step ((List.range n).map fun k => (q l k).bits)) ∧
    ((∀ p, f.d ≠ .p p) →
      RunDone f s g (List.range (N / n) ++ [8, 9]) (fun l j =>
        if j < 8 then packCodes step ((ks l).map (code l)) / 2 ^ (32 * j) else bitsOf (ks l) / 2 ^ (32 * (j - 8))) 0 (exec (.spcmp f) s) ∧
      RunDone f s g (List.range (64 / n)) (fun l j => packCodes step ((List.range 64).map (back l)) / 2 ^ (32 * j))
        (orFl ((maskLanes act).map fun l => if full l then 0 else fFMT)) (exec (.spexp f) s))) ∧
  (∀ (magn : List Nat) (n : Nat), magn.length = 64 → n ≤ 64 →
    (keptOf magn n).length = n ∧ (keptOf magn n).Pairwise (· < ·) ∧ (∀ i ∈ keptOf magn n, i < 64) ∧
    ∀ i ∈ keptOf magn n, ∀ j, j < 64 → j ∉ keptOf magn n →
      (magn[j]?).getD 0 < (magn[i]?).getD 0 ∨ ((magn[j]?).getD 0 = (magn[i]?).getD 0 ∧ i < j))

/-- R240 to R242: the residue words work channel by channel; RNNEG negates each channel, RNMAD multiplies then adds, and RNCV,
RNCRT and RNSCL convert in and out. -/
def Obligations.ResidueWords : Prop :=
  ∀ (f : F0) (s : State) (g : Group), Issuing s g →
    let x := ctx0 f s g
    let a (l : Nat) : Residue := rnRead (x.rd f.a l).toNat
    let b (l : Nat) : Residue := rnRead (x.src2 f 1 l).toNat
    let zip (op : Int → Int → Int) (p q : Residue) : Nat :=
      (⟨(op p.c1 q.c1 % 1023).toNat, (op p.c2 q.c2 % 1024).toNat, (op p.c3 q.c3 % 1025).toNat, p.taint || q.taint⟩ : Residue).word % 2 ^ 64
    LaneDone f s g 1 (fun l => zip (· + ·) (a l) (b l)) 0 (exec (.rnadd f) s) ∧
    LaneDone f s g 1 (fun l => zip (· - ·) (a l) (b l)) 0 (exec (.rnsub f) s) ∧
    LaneDone f s g 1 (fun l => zip (· * ·) (a l) (b l)) 0 (exec (.rnmul f) s) ∧
    LaneDone f s g 1 (fun l => zip (· + ·) (rnZip (· * ·) (a l) (rnRead (x.rd f.b l).toNat)) (rnRead (x.src3 f 1 l).toNat)) 0
      (exec (.rnmad f) s) ∧
    LaneDone f s g 1 (fun l => zip (fun p _ => -p) (a l) ⟨0, 0, 0, false⟩) 0 (exec (.rnneg f) s) ∧
    LaneDone f s g 1 (fun l => rnConvert (sextN (x.rd f.a l).toNat 32) % 2 ^ 64) 0 (exec (.rncv f) s) ∧
    FloatDone f s g (fun l => rnCrt (f.fn == 1) (x.rd f.a l).toNat) (exec (.rncrt f) s) ∧
    FloatDone f s g (fun l => rnScale (Rnd.ofMod f.md.toNat) (x.rd f.a l).toNat (scaleBits (x.rd f.b l))) (exec (.rnscl f) s)


/-! ## Matrix words -/

namespace Sys2Proof.Claims

/-- The contexts in which words of the other formats read their sources. -/
def ctx1 (f : F1) (s : State) (g : Group) : Ctx := (f1Ctx f s (s.core s.cur.1) g).1
def ctx2 (f : F2) (s : State) (g : Group) : Ctx := (f2Ctx f s (s.core s.cur.1) g).1
def ctx3 (f : F3) (s : State) (g : Group) : Ctx := (f3Ctx f s (s.core s.cur.1) g).1
def ctx4 (f : F4) (s : State) (g : Group) : Ctx := (f4Ctx f s (s.core s.cur.1) g).1
def ctx6 (f : F6) (s : State) (g : Group) : Ctx := (f6Ctx f s (s.core s.cur.1) g).1

/-- The matrix operation `m` of a word is checked under R251: its first failing cause is the fault taken; with none, it enters the core's
matrix unit as `place` says, and its flag is marked (R250), or it waits at issue while `place` has no room. A word that reads the gather
latch empties it when it enters. -/
def MatPlaced (s : State) (x : Ctx) (f : F3) (m : MatOp) (gathered : Bool) (place : Core → Option Core) (o : Out) : Prop :=
  (∀ cause, matCheck x.c s.cur.2 x.g m gathered = some cause → Faults s x.g { cls := .matrixOperand, cause := cause } o) ∧
  (matCheck x.c s.cur.2 x.g m gathered = none → (place x.c).isSome = true →
    Started s (if gathered then { x.g with latch := none } else x.g)
      { LongOp.plain x.c.nextNum (flagOf f.flag.toNat) x.g.pc .matrix with ready := false, dst := m.dst }
      (fun c => (place c).getD c) o) ∧
  (matCheck x.c s.cur.2 x.g m gathered = none → place x.c = none → Waits s x.g o)

/-- It enters the queue alone: while the queue and the latch hold fewer than eight operations, and no operation that waits in the
rendezvous latch shares with it a tile line that one of them writes (R259, R266). -/
def MatEnters (s : State) (x : Ctx) (f : F3) (m : MatOp) (gathered : Bool) (o : Out) : Prop :=
  MatPlaced s x f m gathered
    (fun c => if c.matEntries < 8 ∧ c.latchMeets m = false then some { c with matq := c.matq ++ [m] } else none) o

/-- A ganged operation arrives at the rendezvous latch, with the COUNT of its team (R258). -/
def MatGangs (s : State) (x : Ctx) (f : F3) (m : MatOp) (gathered : Bool) (o : Out) : Prop :=
  MatPlaced s x f m gathered (fun c => c.gangArrive s.arith (c.team x.g.team).gcount m) o

/-- The operation of a multiplication word (R250, R252): its operands are those of the leader, its fragments none. -/
def product (s : State) (x : Ctx) (f : F3) (l op : Nat) (kind : MatKind) (gathered : Bool) : MatOp :=
  { MatOp.plain x.c.nextNum s.cur.2 kind (x.rd f.d l).toNat f.shape.toNat with
    aoff := (x.rd f.a l).toNat, boff := (x.rd f.b l).toNat, fmt := x.rd64 f.fb l, spar := f.spar.toNat,
    latch := if gathered then some (x.g.latch.getD []) else none,
    key := (x.g.team, op, f.fn.toNat, f.shape.toNat, f.spar.toNat, x.rd64 f.fb l, (x.rd f.b l).toNat) }

end Sys2Proof.Claims

/-- R250, R251, R257: a multiplication that is not ganged enters the matrix queue with its leader's operands after the checks of
R251, and a ganged one arrives at the rendezvous latch; a ganged form in a block without GANG takes the PRIVILEGE trap. R258: a ganged
arrival with COUNT 0 enters the queue alone, and one that finds the latch idle opens it. R262 to R265: the tile words enter the matrix queue with
what they capture at issue: ACCLD its active lanes and destination, ACCST the eight registers of each active lane, ACCCV its
scale word. A word with no active lane makes no operation, and its flag is marked and cleared, ganged or not; a ganged one in a block
without GANG traps also then. The model's choices: LANES 0 and ADDR 0 in a MATRIX_OPERAND record (log entry 75), LANES 0 in a PRIVILEGE
record (176) and its test before the one for active lanes (73), and the wait at issue of an operation that meets one in the rendezvous
latch at a tile line (177). -/
def Obligations.MatrixWordsEnterTheQueue : Prop :=
  (∀ (f : F3) (s : State) (g : Group) (l : Nat), Issuing s g → leader? (g.active f.g) = some l →
    g.flagFull (flagOf f.flag.toNat) = false →
    let x := ctx3 f s g
    (f.gangb = false →
      MatEnters s x f (product s x f l 0x90 .mma false) false (exec (.mma f) s) ∧
      MatEnters s x f (product s x f l 0x91 .mma true) true (exec (.gmma f) s) ∧
      MatEnters s x f (product s x f l 0x95 .spmma (f.fn == 1)) (f.fn == 1) (exec (.spmma f) s) ∧
      MatEnters s x f (product s x f l 0x96 .rnmma (f.fn == 1)) (f.fn == 1) (exec (.rnmma f) s)) ∧
    (f.gangb = true → hdrGang ((s.core s.cur.1).slotHdr g) = true →
      MatGangs s x f (product s x f l 0x90 .mma false) false (exec (.mma f) s) ∧
      MatGangs s x f (product s x f l 0x91 .mma true) true (exec (.gmma f) s) ∧
      MatGangs s x f (product s x f l 0x95 .spmma (f.fn == 1)) (f.fn == 1) (exec (.spmma f) s) ∧
      MatGangs s x f (product s x f l 0x96 .rnmma (f.fn == 1)) (f.fn == 1) (exec (.rnmma f) s))) ∧
  (∀ (f : F3) (s : State) (g : Group), Issuing s g → f.gangb = true → hdrGang ((s.core s.cur.1).slotHdr g) = false →
    Faults s g { cls := .privilege } (exec (.mma f) s) ∧ Faults s g { cls := .privilege } (exec (.gmma f) s) ∧
    Faults s g { cls := .privilege } (exec (.spmma f) s) ∧ Faults s g { cls := .privilege } (exec (.rnmma f) s)) ∧
  (∀ (f : F3) (s : State) (g : Group), Issuing s g → g.active f.g = 0 →
    (f.gangb = true → hdrGang ((s.core s.cur.1).slotHdr g) = true) → g.flagFull (flagOf f.flag.toNat) = false →
    ∀ i ∈ [Instr.mma f, .gmma f, .spmma f, .rnmma f, .accz f, .accld f, .accst f, .accstAdd f, .accstRnadd f, .acccvRn f, .acccvSc f],
      Started s g (LongOp.plain (s.core s.cur.1).nextNum (flagOf f.flag.toNat) g.pc .result) (fun c => c) (exec i s)) ∧
  (∀ (c : Core) (now n : Nat) (m : MatOp), c.gang = none →
    c.gangArrive now 0 m = (if c.matEntries < 8 ∧ c.latchMeets m = false then some { c with matq := c.matq ++ [m] } else none) ∧
    c.gangArrive now (n + 1) m = some { c with gang := some { members := [m], opened := now, full := false } }) ∧
  (∀ (f : F3) (s : State) (g : Group) (l : Nat), Issuing s g → leader? (g.active f.g) = some l → f.gangb = false →
    g.flagFull (flagOf f.flag.toNat) = false →
    let x := ctx3 f s g
    let act := g.active f.g
    let tile (kind : MatKind) (o : Operand) : MatOp := MatOp.plain x.c.nextNum s.cur.2 kind (x.rd o l).toNat f.shape.toNat
    let frag := (maskLanes act).flatMap fun i => (List.range 8).map fun t => (i, t, x.rd (opPlus f.d t) i)
    MatEnters s x f (tile .accz f.d) false (exec (.accz f) s) ∧
    MatEnters s x f { tile .accld f.a with active := act, dst := f.d } false (exec (.accld f) s) ∧
    MatEnters s x f { tile .accst f.a with active := act, frag := frag } false (exec (.accst f) s) ∧
    MatEnters s x f { tile .accstAdd f.a with active := act, frag := frag } false (exec (.accstAdd f) s) ∧
    MatEnters s x f { tile .accstRn f.a with active := act, frag := frag } false (exec (.accstRnadd f) s) ∧
    MatEnters s x f { tile .acccvRn f.d with scale := x.rd f.a l } false (exec (.acccvRn f) s) ∧
    MatEnters s x f { tile .acccvSc f.d with scale := x.rd f.a l } false (exec (.acccvSc f) s))

/-- R262: FMTB writes the format word. R256: GTHR fills the gather latch, with null indices for inactive lanes. R257, R251: GANG reads
the team's gang register and sets COUNT at commit, faulting with GANG_COUNT on a count of 1 or above 6. The model's choices: LANES 0 and
ADDR 0 in that record (log entry 75), LANES 0 in a PRIVILEGE record (176) and PRIVILEGE also with no active lane (73); with none
but GANG, GANG changes nothing. -/
def Obligations.FormatLatchAndGangWords : Prop :=
  ∀ (f : F3) (s : State) (g : Group), Issuing s g →
    let x := ctx3 f s g
    let act := g.active f.g
    (∃ h, Done s h (exec (.fmtb f) s) ∧ LaneWrite x.g h f.d 2 act fun l => (fmtbWord (x.rd f.a l) (x.rd f.b l)).toNat) ∧
    Done s { x.g with latch := some ((List.range (32 * (f.fn.toNat + 1))).map fun e =>
      if laneBit act (e % 32) then some (x.rd (opPlus f.a (e / 32)) (e % 32)) else none) } (exec (.gthr f) s) ∧
    (hdrGang ((s.core s.cur.1).slotHdr g) = true → act = 0 → Done s x.g (exec (.gang f) s)) ∧
    (hdrGang ((s.core s.cur.1).slotHdr g) = true → ∀ l, leader? act = some l →
      let v := (x.rd f.a l).toNat
      (v = 1 ∨ 6 < v → Faults s g { cls := .matrixOperand, cause := 6 } (exec (.gang f) s)) ∧
      (¬ (v = 1 ∨ 6 < v) → ∃ h, Done s { h with deferred := h.deferred ++ [.gang v] } (exec (.gang f) s) ∧
        LaneWrite x.g h f.d 1 act fun _ => ((s.core s.cur.1).team g.team).gangReg)) ∧
    (hdrGang ((s.core s.cur.1).slotHdr g) = false → Faults s g { cls := .privilege } (exec (.gang f) s))

/-! ## Local access words -/

namespace Sys2Proof.Claims

/-- From s to t, bytes are stored to partition b of core ci: lane l of the list stores `data l`, of `size` bytes, at `at_ l`. A byte
that no lane covers reads as before; a covered byte holds what the highest lane that covers it stores (R156). Every other partition
of the core, every other core and all of memory read as before. -/
structure Stored (s t : State) (ci : Nat) (b : Buf) (lanes : List Nat) (size : Nat) (at_ : Nat → Nat) (data : Nat → List Byte) : Prop where
  keep : ∀ a, (∀ l ∈ lanes, a < at_ l ∨ at_ l + size ≤ a) → ((t.core ci).buf b).atD a 0 = ((s.core ci).buf b).atD a 0
  stored : ∀ l ∈ lanes, ∀ i, i < size → (∀ k ∈ lanes, l < k → at_ l + i < at_ k ∨ at_ k + size ≤ at_ l + i) →
    ((t.core ci).buf b).atD (at_ l + i) 0 = ((data l)[i]?).getD 0
  core : ∃ gs m, t.core ci = { (s.core ci).setBuf b m with groups := gs }
  cores : ∀ cj, cj ≠ ci → t.core cj = s.core cj
  rest : ∃ cs, t = { s with cores := cs }
  memory : ∀ a, t.memByte a = s.memByte a

/-- A store in place that passes its checks: its lines are present, its turn at them has come (R29, R157), and its images fit in the store
buffer. A group whose turn has not come waits with its word, and so does one with a line that is absent. -/
def StoreDone (s : State) (x : Ctx) (b : Buf) (lanes : List Nat) (size : Nat) (at_ : Nat → Nat) (data : Nat → List Byte) (o : Out) : Prop :=
  let lines := dedup (lanes.map fun l => at_ l / 128)
  let num := match x.g.place with
    | some p => p.1
    | none => x.c.nextNum
  let stays (u : State) : Prop := ∃ t h, o = .next t ∧ (t.core s.cur.1).group? s.cur.2 = some h ∧ h.pc = x.g.pc ∧ h.place.isSome = true ∧
    t.mem = u.mem ∧ ∀ d, (t.core s.cur.1).buf d = (u.core s.cur.1).buf d
  ((∃ ln ∈ lines, x.c.presentFor num b ln = false) → stays s) ∧
  ((∀ ln ∈ lines, x.c.presentFor num b ln = true) →
    (∀ s', s.reach s.cur.1 s.cur.2 num b lines true = (false, s') → stays s') ∧
    (∀ s', s.reach s.cur.1 s.cur.2 num b lines true = (true, s') →
      let h := (s'.core s.cur.1).takeImages x.g b lines
      (h.sbOver = false → ∃ t, o = .next t ∧ Stored s' t s.cur.1 b lanes size at_ data ∧
        (t.core s.cur.1).group? s.cur.2 = some h.advance) ∧
      (h.sbOver = true → Faults s' x.g { cls := .sbufOverflow } o)))

end Sys2Proof.Claims

/-- R159 to R161: LDF reads the frame at issue, and STF, STA and STC store in place; a failing check takes LOCAL_ACCESS instead. -/
def Obligations.FrameLoadsAndLocalStores : Prop :=
  ∀ (f : F1) (s : State) (g : Group), Issuing s g →
    let x := ctx1 f s g
    let act := g.active f.g
    let c := s.core s.cur.1
    let size := sizeBytes f.fn.toNat
    let chk (b : Buf) (off : Nat → Nat) : Option Flt := localCheck c g b act off size size
    let lo (l : Nat) : Nat := loadOffset x f l
    let so (l : Nat) : Nat := storeOffset x f l
    (chk .frame lo = none → ∀ s', s.claim s.cur.1 s.cur.2 .frame (dedup ((maskLanes act).map fun l => (frameBase c g l + lo l) / 128)) = some s' →
      ∃ h, Done s' h (exec (.ldf f) s) ∧ LaneWrite x.g h f.d (sizeRegs f.fn.toNat) act fun l =>
        widenLoad f.fn.toNat ((s'.core s.cur.1).frame.readBytes (frameBase c g l + lo l) size)) ∧
    (∀ e, chk .frame lo = some e → Faults s g e (exec (.ldf f) s)) ∧
    (chk .frame so = none →
      StoreDone s x .frame (maskLanes act) size (fun l => frameBase c g l + so l) (fun l => storeData x f l) (exec (.stf f) s)) ∧
    (∀ e, chk .frame so = some e → Faults s g e (exec (.stf f) s)) ∧
    (chk .a so = none → StoreDone s x .a (maskLanes act) size so (fun l => storeData x f l) (exec (.sta f) s)) ∧
    (∀ e, chk .a so = some e → Faults s g e (exec (.sta f) s)) ∧
    (chk .c so = none → StoreDone s x .c (maskLanes act) size so (fun l => storeData x f l) (exec (.stc f) s)) ∧
    (∀ e, chk .c so = some e → Faults s g e (exec (.stc f) s))

/-- R157, R160, R165: LDW, LDA, LDC and ATOMA start an operation with one access an active lane, which is then served as far as
its lines allow; a failing check takes LOCAL_ACCESS. -/
def Obligations.BufferLoadsAndAtomaStart : Prop :=
  ∀ (f : F1) (s : State) (g : Group), Issuing s g → g.flagFull (flagOf f.flag.toNat) = false →
    let x := ctx1 f s g
    let act := g.active f.g
    let c := s.core s.cur.1
    let size := sizeBytes f.fn.toNat
    let lo (l : Nat) : Nat := loadOffset x f l
    let ao (l : Nat) : Nat := (x.rd f.a l).toNat
    let flag := flagOf f.flag.toNat
    let load (b : Buf) : LongOp := LongOp.serveDone { LongOp.plain c.nextNum flag g.pc (.bufLoad b) with
      ready := false, dst := f.d, size := f.fn, accs := localAccs act size lo }
    let rmw : LongOp := { LongOp.plain c.nextNum flag g.pc (.atoma f.fn ((maskLanes act).map fun l => (x.rd f.b l, w32 (x.count3 f.c l)))) with
      ready := false, dst := f.d, size := 4, accs := localAccs act 4 ao }
    let starts (op : LongOp) (o : Out) : Prop :=
      ∃ u, Started s x.g op (fun c => c) (.next u) ∧ o = .next (u.serveLocal s.cur.1 s.cur.2 c.nextNum)
    (localCheck c g .w act lo size size = none → starts (load .w) (exec (.ldw f) s)) ∧
    (localCheck c g .a act lo size size = none → starts (load .a) (exec (.lda f) s)) ∧
    (localCheck c g .c act lo size size = none → starts (load .c) (exec (.ldc f) s)) ∧
    (localCheck c g .a act ao 4 4 = none → starts rmw (exec (.atoma f) s)) ∧
    (∀ e, localCheck c g .w act lo size size = some e → Faults s g e (exec (.ldw f) s)) ∧
    (∀ e, localCheck c g .a act lo size size = some e → Faults s g e (exec (.lda f) s)) ∧
    (∀ e, localCheck c g .c act lo size size = some e → Faults s g e (exec (.ldc f) s)) ∧
    (∀ e, localCheck c g .a act ao 4 4 = some e → Faults s g e (exec (.atoma f) s))

/-- R163, R164: STA.NB holds its bytes in the store buffer until commit, lane by lane in ascending order, at the cluster position of bits
31:24 and the offset of bits 23:0, after the checks of R161; PRES writes the presence of a line or of 32 lines; neither touches a buffer. -/
def Obligations.NeighbourStoresAndPresence : Prop :=
  ∀ (f : F1) (s : State) (g : Group), Issuing s g →
    let x := ctx1 f s g
    let act := g.active f.g
    let c := s.core s.cur.1
    let size := sizeBytes f.fn.toNat
    let o (l : Nat) : Nat := storeOffset x f l
    let pos (l : Nat) : Nat := o l / 2 ^ 24 % 256
    let tile (l : Nat) : Nat := clusTile c s.cur.1 (pos l)
    let bad (cause : Nat) (p : Nat → Bool) : Option Flt := firstCause .localAccess act o [(cause, p)]
    let bit (l j : Nat) : Nat := bit01 (c.presBit (presBuf f.fn.toNat) ((x.rd f.a l).toNat / 128 + j))
    let h := (maskLanes act).foldl (fun g l => g.deposit (tile l) (o l % 2 ^ 24) (storeData x f l)) x.g
    ((∀ l ∈ maskLanes act, pos l < c.clusSize ∧ o l % 2 ^ 24 + size ≤ (s.core (tile l)).partSize .a ∧ o l % 2 ^ 24 % size = 0) →
      (h.sbOver = false → Done s h (exec (.staNb f) s)) ∧ (h.sbOver = true → Faults s x.g { cls := .sbufOverflow } (exec (.staNb f) s))) ∧
    (∀ e, bad 4 (fun l => decide (c.clusSize ≤ pos l)) = some e → Faults s g e (exec (.staNb f) s)) ∧
    ((∀ l ∈ maskLanes act, pos l < c.clusSize) →
      (∀ e, bad 1 (fun l => decide ((s.core (tile l)).partSize .a < o l % 2 ^ 24 + size)) = some e → Faults s g e (exec (.staNb f) s)) ∧
      ((∀ l ∈ maskLanes act, o l % 2 ^ 24 + size ≤ (s.core (tile l)).partSize .a) →
        ∀ e, bad 2 (fun l => o l % 2 ^ 24 % size != 0) = some e → Faults s g e (exec (.staNb f) s))) ∧
    (∃ h, Done s h (exec (.pres f) s) ∧ LaneWrite x.g h f.d 1 act fun l =>
      if f.fn.toNat / 4 = 0 then bit l 0 else (List.range 32).foldl (fun m j => m + bit l j * 2 ^ j) 0)


/-! ## Global access words -/

namespace Sys2Proof.Claims

/-- The word at addresses `va`, aligned to `al`, translates (R84, R94): no active lane is misaligned, and every active lane reaches
the place that `ts` lists, leaving the state s'. -/
def Reaches (s : State) (x : Ctx) (act : LaneMask) (write : Bool) (al : Nat) (va : Nat → Nat) (s' : State) (ts : List (Nat × Target)) : Prop :=
  (∀ l ∈ maskLanes act, va l % al = 0) ∧
  s.xlLanes s.cur.1 s.cur.2 x.c.cfg.asid { write := write, priv := x.c.priv x.g, peer := false } ((maskLanes act).map fun l => (l, va l)) = .ok s' ts

/-- The accesses of a load. -/
def loadAccs (f : F1) (va : Nat → Nat) (cached : Bool) (ts : List (Nat × Target)) : List Access :=
  ts.map fun t => { lane := t.1, addr := targetPA t.2, size := sizeBytes f.fn.toNat, cache := if cached then targetCache t.2 else 0,
                    pol := f.l2pol.toNat, va := va t.1, got := none }

/-- The operation of a load or FETCH of accesses (R106, R275). -/
def globalOp (s : State) (g : Group) (f : F1) (kind : OpKind) (overlay : Bool) (accs : List Access) : LongOp :=
  LongOp.serveDone { LongOp.plain (s.core s.cur.1).nextNum (flagOf f.flag.toNat) g.pc kind with
    ready := false, dst := f.d, size := f.fn, accs := accs, overlay := if overlay then g.overlayOf accs else [] }

end Sys2Proof.Claims

/-- R106, R275, R280, R285: LDG and FETCH start an operation with one access an active lane once translated; an acquire makes the next
load wait for earlier loads; a misaligned lane, and a FETCH of an uncached line, take GLOBAL_ACCESS. An LDG lays the bytes of the
group's own store buffer over what it reads, and a FETCH does not, which is the model's reading of R275 (log entry 64). -/
def Obligations.GlobalLoadsStart : Prop :=
  ∀ (f : F1) (s : State) (g : Group), Issuing s g → g.flagFull (flagOf f.flag.toNat) = false →
    let x := ctx1 f s g
    let act := g.active f.g
    let n := sizeBytes f.fn.toNat
    let starts (s' : State) (h : Group) (op : LongOp) (o : Out) : Prop :=
      ∃ u, Started s' ({ h with acqWait := orderAcq f.order } : Group) op (fun c => c) (.next u) ∧ o = .next (u.serveGlobal s'.cur.1 s'.cur.2 op.num)
    (g.acqBlocked = true → Waits s g (exec (.ldg f) s) ∧ Waits s g (exec (.fetch f) s)) ∧
    (g.acqBlocked = false → ∀ s' ts,
      (Reaches s x act false n (loadAddr x f) s' ts →
        let h := x.g.foot ((maskLanes act).map (loadAddr x f))
        starts s' h (globalOp s' h f (.load (f.l1pol == 1) (f.l1pol == 2) g.ll) true (loadAccs f (loadAddr x f) true ts)) (exec (.ldg f) s)) ∧
      (Reaches s x act false n (bareAddr x f) s' ts → classCheck ts (bareAddr x f) = none →
        let h := x.g.foot ((maskLanes act).map (bareAddr x f))
        starts s' h (globalOp s' h f .fetch false (loadAccs f (bareAddr x f) false ts)) (exec (.fetch f) s)) ∧
      (Reaches s x act false n (bareAddr x f) s' ts → ∀ e, classCheck ts (bareAddr x f) = some e →
        Faults s' (x.g.foot ((maskLanes act).map (bareAddr x f))) e (exec (.fetch f) s))) ∧
    (g.acqBlocked = false → ∀ e,
      (firstCause .globalAccess act (loadAddr x f) [(1, fun l => loadAddr x f l % n != 0)] = some e → Faults s x.g e (exec (.ldg f) s)) ∧
      (firstCause .globalAccess act (bareAddr x f) [(1, fun l => bareAddr x f l % n != 0)] = some e → Faults s x.g e (exec (.fetch f) s)))

/-- R272, R289: STG places its lanes' bytes in the store buffer, ATOM and RED their operations and ATOM's return tokens in the send
queue; memory does not change before commit, and a buffer with no room takes SBUF_OVERFLOW. -/
def Obligations.StoresAndAtomicsWaitInTheBuffer : Prop :=
  ∀ (f : F1) (s : State) (g : Group) (s' : State) (ts : List (Nat × Target)), Issuing s g →
    let x := ctx1 f s g
    let act := g.active f.g
    let n := atomBytes f.fn.toNat
    let fits (h0 h : Group) (o : Out) : Prop :=
      (h.sbOver = false → Done s' h o) ∧ (h.sbOver = true → Faults s' h0 { cls := .sbufOverflow } o)
    (Reaches s x act true (sizeBytes f.fn.toNat) (storeAddr x f) s' ts →
      let h0 := x.g.foot ((maskLanes act).map (storeAddr x f))
      fits h0 (ts.foldl (fun g' t => g'.storeBytes f.l2pol.toNat g.pc t.1 (storeAddr x f t.1) t.2 (storeData x f t.1)) (h0.release f))
        (exec (.stg f) s)) ∧
    (Reaches s x act true n (bareAddr x f) s' ts → classCheck ts (bareAddr x f) = none →
      let h0 := x.g.foot ((maskLanes act).map (bareAddr x f))
      let cmp (l : Nat) : DWord := match f.c with
        | .op o => x.rdN (n / 4) o l
        | .imm _ => 0
      let op (ret : Option (Nat × Nat)) (t : Nat × Target) : AtomOp :=
        { addr := targetPA t.2, fn := f.fn, b := x.rdN (n / 4) f.b t.1, c := cmp t.1, word := g.pc, ret := ret }
      let placed (ret : Nat → Option (Nat × Nat)) : Group :=
        ts.foldl (fun g' t => g'.placeOp f.l2pol.toNat g.pc t.1 (bareAddr x f t.1) t.2 (op (ret t.1) t)) (h0.release f)
      (exitOf f.d = none → fits h0 (placed fun _ => none) (exec (.red f) s) ∧ fits h0 (placed fun _ => none) (exec (.atom f) s)) ∧
      (∀ e, exitOf f.d = some e →
        fits h0 (h0.firedInsts.foldl (fun g' i =>
            g'.queue (.atomRet (32 * g.sendq.length + i) (dueOf (s.core s.cur.1) h0 e i f.scope) (n / 4)))
          (placed fun l => some (32 * g.sendq.length + g.instOf l, l % g.width))) (exec (.atom f) s)))

/-- R128, R291, R292: FENCE, BAR and CBAR end a release epoch and begin an acquire by ORDER, a barrier word notes one arrival on its
channel for the commit, and LSET sets the lease length from the lowest active lane. -/
def Obligations.FencesBarriersAndLeaseLength : Prop :=
  ∀ (f : F1) (s : State) (g : Group), Issuing s g →
    let x := ctx1 f s g
    let rel (h : Group) : Group := if f.order = .rel ∨ f.order = .ar then { h with fences := h.fences ++ [f.scope] } else h
    let acq (h : Group) : Group := if f.order = .acq ∨ f.order = .ar then { h with acqWait := true } else h
    let bar (clus : Bool) (h : Group) : Group :=
      if h.bars.any fun b => b.1 == clus && b.2.1 == f.fn.toNat then h
      else { h with bars := h.bars ++ [(clus, f.fn.toNat, barCount x f)] }
    Done s (acq (rel g)) (exec (.fence f) s) ∧
    Done s (bar false (acq (rel x.g))) (exec (.bar f) s) ∧ Done s (bar true (acq (rel x.g))) (exec (.cbar f) s) ∧
    (1 ≤ barCount x f ∧ barCount x f ≤ 16777215) ∧
    (∀ l, leader? (g.active f.g) = some l → Done s { x.g with ll := lsetLen x f l } (exec (.lset f) s) ∧
      64 ≤ lsetLen x f l ∧ lsetLen x f l ≤ 65536) ∧
    (leader? (g.active f.g) = none → Done s x.g (exec (.lset f) s))

namespace Sys2Proof.Claims

/-- What a hint finds for a lane of the issuing group `who`: a place, a failure, or a walk that it waits for (R94). -/
def hintLane (s : State) (who : Nat × Nat) (x : Ctx) (g : Group) (f : F1) (l : Nat) : LaneXl :=
  laneXl s who.1 (groupNum who.1 who.2) x.c.cfg.asid (loadAddr x f l) { write := false, priv := x.c.priv g, peer := false }

/-- A hint (R124) leaves the state that its lanes leave one after another: a lane that translates to memory fills the L1 TLB and acts as
`k` says on its place and cache class; a lane that does not translate, or reaches a peer, does nothing. The pages of the lanes that
translate join the group's footprint (R99). -/
def hinted (s : State) (x : Ctx) (g : Group) (f : F1) (k : State → Nat → Nat → State) : State :=
  ((maskLanes (g.active f.g)).foldl (fun t l =>
    match hintLane t s.cur x g f l with
    | .hit (.mem pa cache) e => k (t.modCore s.cur.1 fun c => c.fillTlb e) pa cache
    | _ => t) s).dropFails s.cur.1 s.cur.2

/-- A hint word: once no lane waits for a walk, it never faults, and acts as its lanes do; no byte of memory changes. While one does,
the word waits, and the page of each such lane is in the die's miss queue or in a walk, once the queue has room for all. -/
def Hints (s : State) (x : Ctx) (g : Group) (f : F1) (k : State → Nat → Nat → State) (o : Out) : Prop :=
  let act := g.active f.g
  let d := dieOf s.cur.1
  let hits := (maskLanes act).filter fun l => match hintLane s s.cur x g f l with
    | .hit _ _ => true
    | _ => false
  let queued (t : State) (l : Nat) : Prop :=
    (∃ m ∈ (t.die d).missq, m.asid = x.c.cfg.asid ∧ m.page = loadAddr x f l / 4096) ∨
    (∃ w ∈ (t.die d).walks, w.asid = x.c.cfg.asid ∧ w.page = loadAddr x f l / 4096)
  ((∀ l ∈ maskLanes act, hintLane s s.cur x g f l ≠ .miss) →
    o = .next ((hinted s x g f k).finish (x.g.foot (hits.map (loadAddr x f)))) ∧
    ∀ a, (hinted s x g f k).memByte a = s.memByte a) ∧
  ((∃ l ∈ maskLanes act, hintLane s s.cur x g f l = .miss) →
    ∃ t, o = .next t ∧ (t.core s.cur.1).group? s.cur.2 = some { x.g with status := .waiting } ∧
      (∀ cj, cj ≠ s.cur.1 → t.core cj = s.core cj) ∧ (∀ a, t.memByte a = s.memByte a) ∧
      ((s.die d).missq.length + 32 ≤ 1024 → ∀ l ∈ maskLanes act, hintLane s s.cur x g f l = .miss → queued t l))

end Sys2Proof.Claims

/-- R94, R124 to R127: hints wait for their walks and never fault; CPREF asks the slices for lines or permits lane by lane, CINV drops
lines of the core's L1, and CFLUSH waits in the send queue for commit, CFLUSH.DIE only in a block with PRIV. The model's choices:
CPREF.L1 is a load of no operation, which asks its slice once (log entry 46), and CINV.LINE drops a line of a lost region too (47). -/
def Obligations.CacheControlWords : Prop :=
  ∀ (f : F1) (s : State) (g : Group), Issuing s g →
    let x := ctx1 f s g
    let act := g.active f.g
    let slice (s : State) (pa : Nat) : Nat := sliceAt s (dieOf s.cur.1) (pa / 128)
    let near (k : State → Nat → Nat → State) (s : State) (pa cache : Nat) : State :=
      if cache = 2 ∨ zoneOf pa = .window ∨ s.lostPA pa = true then s else k s pa cache
    let placed (write : Bool) (need halves : Nat) (s : State) (pa : Nat) : State :=
      if s.permitsAt (slice s pa) (pa / 128) < need then s.ask (slice s pa) (pa / 128) write f.l2pol.toNat
      else (((s.poolAcquire (pa / 128) write).hostAcquire (pa / 128) halves write).placeLine (slice s pa) (pa / 128) f.l2pol.toNat).getD s
    Hints s x g f (near fun s pa cache =>
      s.enqueue (slice s pa) (requester (dieOf s.cur.1) s.cur.1)
        (.load s.cur.1 (pa / 128) 0 none g.ll (cache == 1 || f.l1pol == 1) (f.l1pol == 2) f.l2pol.toNat (halvesOf [pa])))
      (exec (.cprefL1 f) s) ∧
    Hints s x g f (near fun s pa _ => placed false 1 (halvesOf [pa]) s pa) (exec (.cprefL2 f) s) ∧
    Hints s x g f (near fun s pa _ => placed true 32 3 s pa) (exec (.cprefEx f) s) ∧
    Hints s x g f (fun s pa _ => s.modCore s.cur.1 fun c => { c with l1 := c.l1.filter fun y => y.line != pa / 128 }) (exec (.cinvLine f) s) ∧
    (act = 0 → Done s g (exec (.cinvAll f) s)) ∧
    (act ≠ 0 → ∃ t, exec (.cinvAll f) s = .next t ∧ (t.core s.cur.1).l1 = [] ∧ (t.core s.cur.1).group? s.cur.2 = some g.advance ∧
      (∀ cj, cj ≠ s.cur.1 → t.core cj = s.core cj) ∧ ∀ a, t.memByte a = s.memByte a) ∧
    (∀ s' ts, s.xlLanes s.cur.1 s.cur.2 x.c.cfg.asid { write := false, priv := x.c.priv g, peer := false }
        ((maskLanes act).map fun l => (l, loadAddr x f l)) = .ok s' ts →
      Done s' ((x.g.foot ((maskLanes act).map (loadAddr x f))).queue (.flush
        (dedup ((ts.filter fun t => targetCache t.2 != 2 && zoneOf (targetPA t.2) != .window).map fun t => targetPA t.2 / 128))
        false g.fences.length)) (exec (.cflushLine f) s)) ∧
    (x.c.priv g = true → act = 0 → Done s g (exec (.cflushDie f) s)) ∧
    (x.c.priv g = true → act ≠ 0 → Done s (g.queue (.flush [] true g.fences.length)) (exec (.cflushDie f) s)) ∧
    (x.c.priv g = false → Faults s g { cls := .privilege } (exec (.cflushDie f) s))

/-! ## Courier words -/

namespace Sys2Proof.Claims

/-- What a Courier word of a form does with leader l once its checks and first translations pass, leaving s' (R132, R135): a deferred
form waits in the send queue; an immediate form enters the core's queue while it holds fewer than 32 commands, those that run among
them, marks its flag and makes its destination lines absent. -/
def CopyAccepted (form : CopyForm) (f : F4) (s : State) (g : Group) (l : Nat) (o : Out) : Prop :=
  let x := ctx4 f s g
  let k := copyRead x f (g.active f.g) l (copyBase x g.pc form (tbufOf f.tbuf.toNat form) l)
  let g1 := x.g.foot (k.firsts.map fun p => p.2.1)
  (∀ e, copyCheck s s.cur.1 x.c k = some e → Faults s g { cls := .courierOperand, cause := e.1, lanes := e.2 } o) ∧
  (copyCheck s s.cur.1 x.c k = none → ∀ e, copyXl s s.cur.1 s.cur.2 k = .fault e → Faults s g e o) ∧
  (copyCheck s s.cur.1 x.c k = none → ∀ s', copyXl s s.cur.1 s.cur.2 k = .wait s' → Waits s' x.g o) ∧
  (copyCheck s s.cur.1 x.c k = none → ∀ s', copyXl s s.cur.1 s.cur.2 k = .ok s' →
    (form.immediate = false →
      Done s' (g1.queue (.copy { k with tok := f.tok, due := if f.tok then [copyDue x f (g.tagOf (g.instOf l)) .dev] else [] })) o) ∧
    (form.immediate = true → (s'.core s'.cur.1).courier.length < 32 → g.flagFull (flagOf f.flag.toNat) = false →
      ∃ t, o = .next t ∧ ∃ k', k'.num = (s'.core s'.cur.1).nextNum ∧ k'.form = form ∧ k'.dst = k.dst ∧ k'.src = k.src ∧ k'.off = k.off ∧
        k'.len = k.len ∧ (t.core s'.cur.1).courier = (s'.core s'.cur.1).courier ++ [k'] ∧
        (∀ ln ∈ k.bufLines, (t.core s'.cur.1).present k.buf ln = false) ∧ k'.tok = f.tok ∧
        (∃ h, (t.core s'.cur.1).group? s'.cur.2 = some h ∧ h.pc = g.pc + 1 ∧ h.status = .ready) ∧
        (∀ cj, cj ≠ s'.cur.1 → t.core cj = s'.core cj) ∧ ∀ a, t.memByte a = s'.memByte a) ∧
    (form.immediate = true → 32 ≤ (s'.core s'.cur.1).courier.length ∨ g.flagFull (flagOf f.flag.toNat) = true → Waits s' g1 o))

/-- What a Courier word of a form does with no active lane: it makes no command. Its flag is marked and cleared, and the token of exit
TOK, with two words of zero, waits in the send queue, for after the commit's requests in a deferred form. No lane leads, so its tag is
a free value. -/
def CopyEmpty (form : CopyForm) (f : F4) (s : State) (g : Group) (o : Out) : Prop :=
  let x := ctx4 f s g
  let s1 : State := { s with freeCount := s.freeCount + 1 }
  let tok := copyDue x f (w32 (Config.freeChoice s.freeCount)) .dev
  let flag := flagOf f.flag.toNat
  (form.immediate = false → Done s1 (if f.tok then x.g.queue (.lateTok tok [0, 0]) else x.g) o) ∧
  (form.immediate = true → g.flagFull flag = false →
    Started s1 (if f.tok then x.g.queue (.token (tok.token [0, 0])) else x.g) (LongOp.plain x.c.nextNum flag g.pc .result) (fun c => c) o) ∧
  (form.immediate = true → g.flagFull flag = true → Waits s x.g o)

end Sys2Proof.Claims

/-- R129 to R135: every Courier word takes the first failing check as COURIER_OPERAND or TRANSLATION, and else is accepted as its
form says; one with no active lane makes no command. The model's choices: ADDR 0 and the LANES of a COURIER_OPERAND record (log
entry 49), the order in which a word translates its ranges (50), and the commands that count among the 32 (167). -/
def Obligations.CourierWordsAreAccepted : Prop :=
  (∀ (f : F4) (s : State) (g : Group), Issuing s g → g.active f.g = 0 →
    ∀ p ∈ [(CopyForm.mm, Instr.cpyMm f), (.inn, .cpyIn f), (.out, .cpyOut f), (.tin, .cpytIn f), (.tout, .cpytOut f), (.gin, .cpygIn f),
        (.sout, .cpysOut f), (.fmm, .cpyfMm f), (.fin, .cpyfIn f), (.pmm, .cpypMm f), (.pin, .cpypIn f), (.pout, .cpypOut f),
        (.spin, .cpyspIn f), (.spout, .cpyspOut f), (.spoutc, .cpyspOutc f)],
      CopyEmpty p.1 f s g (exec p.2 s)) ∧
  ∀ (f : F4) (s : State) (g : Group) (l : Nat), Issuing s g → leader? (g.active f.g) = some l →
    CopyAccepted .mm f s g l (exec (.cpyMm f) s) ∧ CopyAccepted .inn f s g l (exec (.cpyIn f) s) ∧
    CopyAccepted .out f s g l (exec (.cpyOut f) s) ∧ CopyAccepted .tin f s g l (exec (.cpytIn f) s) ∧
    CopyAccepted .tout f s g l (exec (.cpytOut f) s) ∧ CopyAccepted .gin f s g l (exec (.cpygIn f) s) ∧
    CopyAccepted .sout f s g l (exec (.cpysOut f) s) ∧ CopyAccepted .fmm f s g l (exec (.cpyfMm f) s) ∧
    CopyAccepted .fin f s g l (exec (.cpyfIn f) s) ∧ CopyAccepted .pmm f s g l (exec (.cpypMm f) s) ∧
    CopyAccepted .pin f s g l (exec (.cpypIn f) s) ∧ CopyAccepted .pout f s g l (exec (.cpypOut f) s) ∧
    CopyAccepted .spin f s g l (exec (.cpyspIn f) s) ∧ CopyAccepted .spout f s g l (exec (.cpyspOut f) s) ∧
    CopyAccepted .spoutc f s g l (exec (.cpyspOutc f) s)

/-! ## Words of the fabric -/

namespace Sys2Proof.Claims

/-- A per-lane remote word (R306, R336) whose lanes are aligned and reach peers queues, as one descriptor, the requests of its active
lanes by instance, with the token that exit D owes each; nothing leaves before commit. A misaligned lane takes REMOTE_ACCESS, failing lanes
take TRANSLATION, and missing translations are waited for (R303). -/
def RemoteQueued (f : F1) (s : State) (g : Group) (k : RemKind) (size : Nat) (addr : Nat → Nat) (b c : Nat → DWord) (o : Out) : Prop :=
  let x := ctx1 f s g
  let act := g.active f.g
  let places := s.xlPlaces s.cur.1 (groupNum s.cur.1 s.cur.2) x.c.cfg.asid
    ((maskLanes act).map fun l => (l, addr l, { write := k.writes, priv := x.c.priv x.g, peer := true }))
  let aligned := ∀ l ∈ maskLanes act, addr l % size = 0
  (aligned → ∀ s' ts, places = .ok s' ts →
    Done s' (queueLanes x.c (x.g.foot ((maskLanes act).map addr)) f k size (ts.filterMap fun t => match t.2.2 with
      | .peer dev tasid tva => some (t.1, { pos := t.1, dev := dev, tasid := tasid, tva := tva, va := addr t.1, b := b t.1, c := c t.1 })
      | .mem _ _ => none)) o) ∧
  (aligned → ∀ fs, places = .fail fs → Faults s x.g (peerFault fs) o) ∧
  (aligned → ∀ s', places = .wait s' → Waits s' x.g o) ∧
  (∀ e, firstCause .remoteAccess act addr [(1, fun l => addr l % size != 0)] = some e → Faults s x.g e o)

end Sys2Proof.Claims

/-- R301, R303, R306, R336: RLD, RST, RATOM, CFAA and CFAAN queue one request an active lane for commit. -/
def Obligations.RemoteLaneWordsQueueRequests : Prop :=
  ∀ (f : F1) (s : State) (g : Group), Issuing s g →
    let x := ctx1 f s g
    let n := sizeBytes f.fn.toNat
    let m := atomBytes f.fn.toNat
    let data (w l : Nat) : DWord := x.rdN (w / 4) f.b l
    let cmp (l : Nat) : DWord := match f.c with
      | .op o => x.rdN (m / 4) o l
      | .imm _ => 0
    RemoteQueued f s g .rld n (loadAddr x f) (fun _ => 0) (fun _ => 0) (exec (.rld f) s) ∧
    RemoteQueued f s g .rst n (storeAddr x f) (data n) (fun _ => 0) (exec (.rst f) s) ∧
    RemoteQueued f s g .ratom m (bareAddr x f) (data m) cmp (exec (.ratom f) s) ∧
    RemoteQueued f s g .cfaa m (bareAddr x f) (data m) (fun _ => 0) (exec (.cfaa f) s) ∧
    RemoteQueued f s g .cfaan m (bareAddr x f) (data m) (fun _ => 0) (exec (.cfaan f) s)

/-- R303, R308, R310, R315, R330, R331: RPUT, RGET and MCPUT queue one deferred command, SPW the words of its active lanes on a span
that this core produces, and MCST one message for each instance with active lanes, when their checks pass; with no active
lane only the tokens of their instances are left. That a length of 0 does not
translate the local range is the model's choice (log entry 88). -/
def Obligations.BulkSpanAndMulticastWords : Prop :=
  (∀ (f : F1) (s : State) (g : Group) (l : Nat), Issuing s g → leader? (g.active f.g) = some l →
    let x := ctx1 f s g
    let act := g.active f.g
    let c := s.core s.cur.1
    let target := (x.rd64 f.a l).toNat
    let here := (x.rd64 f.b l).toNat
    let blk (j : Nat) : Nat := (x.rd (opPlus (src3Operand f.c) j) l).toNat
    let hd (j : Nat) : Nat := (x.rd (opPlus f.a j) l).toNat
    let due := x.g.firedInsts.filterMap fun i => f1Due c g f i
    let near (len : Nat) (write : Bool) : Option (Nat × Bool) := if len = 0 then none else some (here, write)
    (target % 4 = 0 → here % 4 = 0 → blk 0 % 4 = 0 → blk 0 ≤ 1048576 → notifyBad (blk 1) = false → blk 1 / 2 ^ 31 = 0 → blk 3 = 0 →
      ∀ s' ts, bulkXl s x l (some (target, true)) (near (blk 0) false) = .ok s' ts → bulkLost s' l ts = none →
      Done s' (((x.g.release f).foot [target, here]).queue (.copy { copyBase x g.pc .rput .frame l with
        dst := 0, src := here, len := blk 0, rel := f1Rel f, due := due, notify := notifyOf (blk 1) (blk 2) false,
        remote := bulkPeer ts, target := target })) (exec (.rput f) s)) ∧
    (target % 4 = 0 → here % 4 = 0 → x.count3 f.c l % 4 = 0 → x.count3 f.c l ≤ 1048576 →
      ∀ s' ts, bulkXl s x l (some (target, false)) (near (x.count3 f.c l) true) = .ok s' ts → bulkLost s' l ts = none →
      Done s' (((x.g.release f).foot [target, here]).queue (.copy { copyBase x g.pc .rget .frame l with
        dst := here, src := 0, len := x.count3 f.c l, rel := f1Rel f, due := due, notify := none,
        remote := bulkPeer ts, target := target })) (exec (.rget f) s)) ∧
    (∀ i sp, s.coreSpan s.cur.1 (x.rd f.a l).toNat = some (i, sp) → sp.producer = s.cur.1 →
      Done s ((x.g.release f).queue (.spw (x.rd f.a l).toNat (f1Rel f) ((maskLanes act).flatMap fun j =>
        if f.fn = 5 then [loWord (x.rd64 f.b j), hiWord (x.rd64 f.b j)] else [x.rd f.b j]))) (exec (.spw f) s)) ∧
    ((∀ i sp, s.coreSpan s.cur.1 (x.rd f.a l).toNat = some (i, sp) → sp.producer ≠ s.cur.1) →
      Faults s g { cls := .remoteAccess, cause := 4, lanes := laneMask1 l } (exec (.spw f) s)) ∧
    (groupBad s c (hd 0) = false → notifyBad (hd 1) = false → hd 3 = 0 →
      (∀ k ∈ maskLanes act, x.count3 f.c k % sizeBytes f.fn.toNat = 0 ∧
        x.count3 f.c k + sizeBytes f.fn.toNat ≤ 2 ^ (s.mcEntry (hd 0)).wsz ∧
        mcstLen ((maskLanes act).filter fun j => g.instOf j == g.instOf k).length (sizeBytes f.fn.toNat) ≤ (s.mcEntry (hd 0)).cap) →
      Done s (queueMessages c x.g f fun i => match (maskLanes act).filter fun j => g.instOf j == i with
        | [] => none
        | ls => some { group := hd 0, root := (s.mcEntry (hd 0)).root, wsz := (s.mcEntry (hd 0)).wsz,
                       items := ls.map fun j => (x.count3 f.c j, natLe (sizeBytes f.fn.toNat) (x.rdN (sizeBytes f.fn.toNat / 4) f.b j).toNat),
                       notify := notifyOf (hd 1) (hd 2) (hd 1 / 2 ^ 31 % 2 == 1), len := mcstLen ls.length (sizeBytes f.fn.toNat),
                       stamped := false, postmark := 0, part := 0, parts := 1 }) (exec (.mcst f) s)) ∧
    (groupBad s c (hd 0) = false → notifyBad (hd 1) = false → hd 3 % 4 = 0 → here % 4 = 0 → x.count3 f.c l % 4 = 0 →
      x.count3 f.c l ≤ 65536 → x.count3 f.c l ≤ (s.mcEntry (hd 0)).cap →
      hd 3 + x.count3 f.c l ≤ 2 ^ (s.mcEntry (hd 0)).wsz →
      ∀ s' ts, bulkXl s x l none (near (x.count3 f.c l) false) = .ok s' ts → bulkLost s' l ts = none →
      ∃ h k rest, Done s' h (exec (.mcput f) s) ∧ h.sendq = g.sendq ++ .copy k :: rest ∧ k.form = .mcput ∧ k.src = here ∧
        k.len = x.count3 f.c l ∧ k.mc = some (hd 0, hd 3) ∧ h = { (x.g.release f).foot [here] with sendq := h.sendq })) ∧
  (∀ (f : F1) (s : State) (g : Group), Issuing s g → g.active f.g = 0 →
    let x := ctx1 f s g
    let c := s.core s.cur.1
    Done s (queueLanes c x.g f .rst 4 []) (exec (.rput f) s) ∧ Done s (queueLanes c x.g f .rst 4 []) (exec (.rget f) s) ∧
    Done s (x.g.release f) (exec (.spw f) s) ∧
    Done s (queueMessages c x.g f fun _ => none) (exec (.mcst f) s) ∧ Done s (queueMessages c x.g f fun _ => none) (exec (.mcput f) s))


/-! ## Clause header, sends and graph words -/

/-- R58, R67, R371: the clause header waits for the flags of its mask, NOP does nothing, and EXIT ends the block's words at once
where a lane is active. -/
def Obligations.ClauseNopAndExit : Prop :=
  ∀ (s : State) (g : Group), Issuing s g →
    Done s g (exec .nop s) ∧
    (∀ f : F5, (∀ n, n < 12 → f.wait.getLsbD n = true → g.flags.atD n 0 = 0) → Done s g (exec (.clauseHeader f) s)) ∧
    (∀ (f : F5) (n : Nat), n < 12 → f.wait.getLsbD n = true → g.flags.atD n 0 ≠ 0 → Waits s g (exec (.clauseHeader f) s)) ∧
    (∀ f : F2, g.active f.g = 0 → Done s g (exec (.exit f) s)) ∧
    (∀ f : F2, g.active f.g ≠ 0 →
      ∃ t, exec (.exit f) s = .next t ∧ OnlyGroup s s.cur.1 s.cur.2 { g.advance with status := .committing } t)

namespace Sys2Proof.Claims

/-- The group behind whose send queue one item stands for each instance with an active lane, in ascending order, made from the instance and
its lowest active lane (R28, R368). -/
def queued (g : Group) (act : LaneMask) (mk : Nat → Nat → SendItem) : Group :=
  { g with sendq := g.sendq ++ (g.leaders act).map fun il => mk il.1 il.2 }

end Sys2Proof.Claims

/-- R365 to R370, R372: SEND, SENDV, SENDF and EOS complete with one token queued for each instance with an active lane. SENDV in a block of class
any takes TOKEN where its payload is no whole number of runs, and SENDF where a token's home is elsewhere, or else where a frame is handed on
twice, with the active lanes of the failing instances. The model's choices: WLOG 0 in the token of EOS (log entry 123) and the LANES of
these records (122). -/
def Obligations.SendsQueueOneTokenPerInstance : Prop :=
  ∀ (f : F2) (s : State) (g : Group), Issuing s g →
    let x := ctx2 f s g
    let act := g.active f.g
    let pay (l : Nat) : List Word := (List.range (f.plen.toNat + 1)).map fun j => x.rd (opPlus f.pay j) l
    let gather (i : Nat) : List Word := (List.range (f.plen.toNat + 1)).map fun j =>
      if laneBit act (g.width * i + j % g.width) then x.rd (opPlus f.pay (j / g.width)) (g.width * i + j % g.width) else 0
    let tok (kind : TokKind) (l : Nat) (p : List Word) : Token := f2Token x f kind l p
    let runs : Prop := hdrWcls ((s.core s.cur.1).slotHdr g) = 7 ∧ (f.plen.toNat + 1) % g.width ≠ 0 ∧ act ≠ 0
    let failing (bad : Nat × Nat → Bool) : LaneMask :=
      maskOf fun l => laneBit act l && (g.leaders act).any fun il => il.1 == l / g.width && bad il
    let far := failing fun il => !homeHere x f il.2
    let twice := failing fun il => g.sendq.any fun it => match it with
      | .frameTok _ e => e == g.entryOf il.1
      | _ => false
    Done s (queued x.g act fun _ l => .token (tok .normal l (pay l))) (exec (.send f) s) ∧
    Done s (queued x.g act fun _ l => .token { tok .eos l [] with colour := 0, wlog := 0 }) (exec (.eos f) s) ∧
    (¬ runs → Done s (queued x.g act fun i l => .token (tok .normal l (gather i))) (exec (.sendv f) s)) ∧
    (runs → Faults s g { cls := .token, cause := 3, lanes := act } (exec (.sendv f) s)) ∧
    (far = 0 → twice = 0 → Done s (queued x.g act fun i l => .frameTok (tok .normal l (pay l)) (g.entryOf i)) (exec (.sendf f) s)) ∧
    (far ≠ 0 → Faults s g { cls := .token, cause := 1, lanes := far } (exec (.sendf f) s)) ∧
    (far = 0 → twice ≠ 0 → Faults s g { cls := .token, cause := 2, lanes := twice } (exec (.sendf f) s))

namespace Sys2Proof.Claims

/-- A colour word (R373) with enough ids in the core's reserve, or with no free id in the grid: `asks` says what each instance with an active lane asks for. Ids go
out lowest first in instance order; each active lane of an instance receives its new colour word, or all ones where none is allocated;
each allocation waits for commit. -/
def Coloured (f : F0) (s : State) (g : Group) (ask : Nat → ColAsk) (o : Out) : Prop :=
  let x := ctx0 f s g
  let act := g.active f.g
  let c := s.core s.cur.1
  let asks := (g.leaders act).map fun il => (il.1, ask il.2)
  let wants := asks.filter fun a => a.2.isSome
  let own (l : Nat) : Option ((Nat × ColAsk) × Nat) := (wants.zip c.reserve).find? fun e => e.1.1 == l / g.width
  let word (l : Nat) : Nat := match own l with
    | some e => e.2 + ((e.1.2.map Prod.fst).getD 0) * 4096
    | none => 0xFFFFFFFF
  let grants := (wants.zip c.reserve).map fun e => Deferred.colAlloc e.2 ((e.1.2.map Prod.fst).getD 0) ((e.1.2.map Prod.snd).getD none)
  let lanes := maskOf fun l => laneBit act l && (g.leaders act).any fun il => il.1 == l / g.width
  (wants.length ≤ c.reserve.length ∨ s.noFreeId s.cur.1 = true →
    ∃ t h, o = .next t ∧ LaneWrite x.g h f.d 1 lanes word ∧
      (t.core s.cur.1).group? s.cur.2 = some { h.advance with deferred := h.deferred ++ grants } ∧
      (t.core s.cur.1).reserve = c.reserve.drop wants.length ∧
      (∀ cj, cj ≠ s.cur.1 → t.core cj = s.core cj) ∧ ∀ a, t.memByte a = s.memByte a) ∧
  (c.reserve.length < wants.length → s.noFreeId s.cur.1 = false → Waits s g o)

end Sys2Proof.Claims

/-- R373, R374: COLALLOC, PACKC and UNPACKC take ids from the core's reserve and allocate at commit; COLFREE notes each distinct live
colour but colour 0 once. -/
def Obligations.ColourWords : Prop :=
  ∀ (f : F0) (s : State) (g : Group), Issuing s g →
    let x := ctx0 f s g
    let w (l : Nat) : Nat := x.count2 f.a f.c l
    let ids := (dedup ((g.leaders (g.active f.g)).filterMap fun il => s.liveColour s.cur.1 (x.rd f.a il.2).toNat)).filter (· != 0)
    Coloured f s g (fun l => if w l = 0 ∨ 32 < w l then none else some (ceilLog2 (w l), none)) (exec (.colalloc f) s) ∧
    Coloured f s g (childAsk f true x) (exec (.packc f) s) ∧ Coloured f s g (childAsk f false x) (exec (.unpackc f) s) ∧
    (ids ≠ [] → Done s { x.g with deferred := x.g.deferred ++ [.colFree ids] } (exec (.colfree f) s)) ∧
    (ids = [] → Done s x.g (exec (.colfree f) s))

/-- R375 to R378: BINTIM changes pigeonholes at commit lane by lane, LDBLK writes its status and closes the slot on success, CFGW is
for steward cores, and QWAIT waits until its queue is short enough or 65,536 cycles have passed. -/
def Obligations.PigeonholeAndStewardWords : Prop :=
  ∀ (s : State) (g : Group), Issuing s g →
    (∀ f : F0,
      let x := ctx0 f s g
      let act := g.active f.g
      let c := s.core s.cur.1
      let args := (maskLanes act).map fun l => ((x.rd f.a l).toNat, x.count2 f.b f.c l)
      Done s { x.g with deferred := x.g.deferred ++ args.map fun e => .timer e.1 (e.2 % 65536) } (exec (.bintimTimer f) s) ∧
      Done s { x.g with deferred := x.g.deferred ++ args.map fun e => .prio e.1 (min e.2 3) } (exec (.bintimPrio f) s) ∧
      (∀ l, leader? act = some l →
        let bid := (x.rd f.a l).toNat
        let slot := (x.rd f.b l).toNat
        let st := ldblkStatus s c bid slot
        (st ≠ 0 → ∃ h, Done s h (exec (.ldblk f) s) ∧ LaneWrite x.g h f.d 1 act fun _ => st) ∧
        (st = 0 → ∃ t h, exec (.ldblk f) s = .next t ∧ (t.core s.cur.1).group? s.cur.2 =
            some { h.advance with deferred := h.deferred ++ [.ldblk slot bid] } ∧ LaneWrite x.g h f.d 1 act (fun _ => 0) ∧
          (t.core s.cur.1).slot slot = { c.slot slot with closing := true } ∧ ∀ a, t.memByte a = s.memByte a) ∧
        (c.occupancy f.fn.toNat ≤ x.count2 f.a f.c l →
          ∃ h, Done s h (exec (.qwait f) s) ∧ LaneWrite x.g h f.d 1 act fun _ => 1) ∧
        (x.count2 f.a f.c l < c.occupancy f.fn.toNat → qwaitSince s g + 65536 ≤ s.arith →
          ∃ h, Done s h (exec (.qwait f) s) ∧ LaneWrite x.g h f.d 1 act fun _ => 0) ∧
        (x.count2 f.a f.c l < c.occupancy f.fn.toNat → s.arith < qwaitSince s g + 65536 →
          ∃ t, exec (.qwait f) s = .next t ∧ OnlyGroup s s.cur.1 s.cur.2 { g with status := .qwait (qwaitSince s g) } t)) ∧
      (act = 0 → Done s x.g (exec (.ldblk f) s) ∧ Done s x.g (exec (.qwait f) s))) ∧
    (∀ f : F6,
      let x := ctx6 f s g
      let act := g.active f.g
      let c := s.core s.cur.1
      (c.priv g = true → 1024 ≤ s.cur.1 → act ≠ 0 →
        Done s (x.g.queue (.cfgw ((maskLanes act).map fun l => ((x.rd f.a l).toNat, x.rd f.b l)))) (exec (.cfgw f) s)) ∧
      (c.priv g = true → 1024 ≤ s.cur.1 → act = 0 → Done s x.g (exec (.cfgw f) s)) ∧
      (c.priv g = false ∨ s.cur.1 < 1024 → Faults s g { cls := .privilege } (exec (.cfgw f) s)))

/-! ## System words -/

/-- R68, R380, R402: TRAP with an active lane, BKPT with BKEN set and a word that R68 rejects take a block fault with its class, lanes
and detail; TRAP with no active lane and BKPT with BKEN clear act as NOP. A word that decodes and lacks only an attribute of its block takes
PRIVILEGE; for any other word that decodes there is no such trap. -/
def Obligations.TrapsTakeBlockFaults : Prop :=
  ∀ (s : State) (g : Group), Issuing s g →
    (∀ (f : F6) (l : Nat), leader? (g.active f.g) = some l →
      Faults s g { cls := .trap, lanes := g.active f.g, addr := ((ctx6 f s g).rd f.a l).toNat, detail := f.code.toNat } (exec (.trap f) s)) ∧
    (∀ f : F6, leader? (g.active f.g) = none → Done s (ctx6 f s g).g (exec (.trap f) s)) ∧
    (∀ f : F6, g.active f.g ≠ 0 → s.bken s.cur.1 = true →
      Faults s g { cls := .breakpoint, lanes := g.active f.g, detail := f.code.toNat } (exec (.bkpt f) s)) ∧
    (∀ f : F6, g.active f.g = 0 ∨ s.bken s.cur.1 = false → Done s g (exec (.bkpt f) s)) ∧
    (∀ w e, decode (hdrRegd ((s.core s.cur.1).slotHdr g)) w = .error e → Faults s g { cls := .illegal } (exec (.illegalEncoding w) s)) ∧
    (∀ w i, decode (hdrRegd ((s.core s.cur.1).slotHdr g)) w = .ok i →
      (lacksAttr ((s.core s.cur.1).slotHdr g) w = true → Faults s g { cls := .privilege } (exec (.illegalEncoding w) s)) ∧
      (lacksAttr ((s.core s.cur.1).slotHdr g) w = false → exec (.illegalEncoding w) s = .next s))

/-- R386 to R388: RESUME, RESUME.PAST and ABORT write the status of their verdict to every active lane; with status 0 they claim the
parked fault for the group and leave the verdict to commit. ABORT.REGION ends the region at commit. -/
def Obligations.VerdictWordsClaimParkedFaults : Prop :=
  ∀ (f : F6) (s : State) (g : Group), Issuing s g →
    let x := ctx6 f s g
    let act := g.active f.g
    let c := s.core s.cur.1
    (∀ l, leader? act = some l →
      let fid := (x.rd f.a l).toNat
      let verdict (past : Bool) (d : Deferred) (o : Out) : Prop :=
        (verdictStatus c s.cur.2 fid past ≠ 0 →
          ∃ h, Done s h o ∧ LaneWrite x.g h f.d 1 act fun _ => verdictStatus c s.cur.2 fid past) ∧
        (verdictStatus c s.cur.2 fid past = 0 → ∃ t h, o = .next t ∧
          (t.core s.cur.1).group? s.cur.2 = some { h.advance with deferred := h.deferred ++ [d] } ∧ LaneWrite x.g h f.d 1 act (fun _ => 0) ∧
          (t.core s.cur.1).park = c.park.map (fun p => if p.fid = fid then { p with claim := some s.cur.2 } else p) ∧
          (∀ cj, cj ≠ s.cur.1 → t.core cj = s.core cj) ∧ ∀ a, t.memByte a = s.memByte a)
      verdict false (.resume fid false) (exec (.resume f) s) ∧ verdict true (.resume fid true) (exec (.resumePast f) s) ∧
      verdict false (.abort fid) (exec (.abort f) s)) ∧
    (act = 0 → Done s x.g (exec (.resume f) s) ∧ Done s x.g (exec (.resumePast f) s) ∧ Done s x.g (exec (.abort f) s)) ∧
    (act ≠ 0 → Done s { g with deferred := g.deferred ++ [.abortRegion] } (exec (.abortRegion f) s)) ∧
    (act = 0 → Done s g (exec (.abortRegion f) s))

/-- R400 to R402: SRRD reads a system register at issue and SRWR writes one at commit, with the PRIVILEGE trap where the register
needs PRIV; FLTRD reads a word of a parked record or the oldest unclaimed FID, and 0 or all ones where there is none. R401 to R403: HALT,
SIGCHK, KEYSET and PREEMPT queue their request for commit in a block with PRIV, and take the PRIVILEGE trap in any other. With no active
lane and no trap, SRWR and the requests do nothing. The model's choices: the PRIVILEGE trap also with no active lane (log entry 73),
LANES 0 in its record (176), and FLTRD.WORD reading 0 for a record that waits outside the park (128). -/
def Obligations.SystemWords : Prop :=
  (∀ (f : F6) (s : State) (g : Group), Issuing s g →
    let x := ctx6 f s g
    let act := g.active f.g
    let c := s.core s.cur.1
    let allowed := srNeedsPriv f.code.toNat = false ∨ c.priv g = true
    (allowed → ∃ h, Done s h (exec (.srrd f) s) ∧
      LaneWrite g h f.d (if f.fn = 0 then 1 else 2) act fun _ => (s.sysRead s.cur.1 f.code.toNat).toNat) ∧
    (allowed → ∀ l, leader? act = some l →
      Done s { x.g with deferred := x.g.deferred ++ [.sysWrite f.code (if f.fn = 0 then (x.rd f.a l).zeroExtend 64 else x.rd64 f.a l)] }
        (exec (.srwr f) s)) ∧
    (allowed → act = 0 → Done s x.g (exec (.srwr f) s)) ∧
    (¬ allowed → Faults s g { cls := .privilege } (exec (.srrd f) s) ∧ Faults s g { cls := .privilege } (exec (.srwr f) s)) ∧
    (∀ l, leader? act = some l → ∃ h, Done s h (exec (.fltrdWord f) s) ∧ LaneWrite x.g h f.d 2 act fun _ =>
      match c.park.find? fun p => p.fid == (x.rd f.a l).toNat with
      | some p => ((p.record[f.code.toNat]?).getD 0).toNat
      | none => 0) ∧
    (act = 0 → Done s x.g (exec (.fltrdWord f) s)) ∧
    (∃ h, Done s h (exec (.fltrdNext f) s) ∧ LaneWrite g h f.d 1 act fun _ =>
      match c.park.find? fun p => p.claim.isNone && c.region == some p.region with
      | some p => p.fid
      | none => 0xFFFFFFFF)) ∧
  (∀ (f : F6) (s : State) (g : Group), Issuing s g →
    let x := ctx6 f s g
    let due := f6Dues (s.core s.cur.1) g f
    let requests := [Instr.halt f, .sigchk f, .keyset f, .preemptSave f, .preemptRestore f]
    ((s.core s.cur.1).priv g = true → g.active f.g = 0 → ∀ i ∈ requests, Done s x.g (exec i s)) ∧
    ((s.core s.cur.1).priv g = false → ∀ i ∈ requests, Faults s g { cls := .privilege } (exec i s)) ∧
    ((s.core s.cur.1).priv g = true → ∀ l, leader? (g.active f.g) = some l →
      Done s (x.g.queue .halt) (exec (.halt f) s) ∧
      Done s (x.g.queue (.sigchk due f.code.toNat (x.rd64 f.a l).toNat (x.rd64 f.b l).toNat (x.count3 f.c l))) (exec (.sigchk f) s) ∧
      Done s (x.g.queue (.keyset due f.code.toNat (x.rd64 f.a l).toNat)) (exec (.keyset f) s) ∧
      Done s (x.g.queue (.preempt due false (x.rd f.a l).toNat (x.rd64 f.b l).toNat)) (exec (.preemptSave f) s) ∧
      Done s (x.g.queue (.preempt due true (x.rd f.a l).toNat (x.rd64 f.b l).toNat)) (exec (.preemptRestore f) s)))


/-! ## Events of the matching store and of groups -/

namespace Sys2Proof.Claims

/-- The outcome is a next state of which P holds. -/
def Next (o : Out) (P : State → Prop) : Prop := ∃ t, o = .next t ∧ P t

/-- Every core but ci is as before. -/
def CoresKept (s t : State) (ci : Nat) : Prop := ∀ cj, cj ≠ ci → t.core cj = s.core cj

/-- No byte of memory changed. -/
def MemoryKept (s t : State) : Prop := ∀ a, t.memByte a = s.memByte a

/-- No access waits at any slice. -/
def NoneWaits (s : State) : Prop := ∀ e ∈ s.slices, e.2.queue = []

/-- A token at place idx of a core's input that the core takes now: what it tells of is written (R384), it stands first of its group slot's
(R14), and the core accepts tokens and has room for it (R37, R359, R364). -/
def Taken (s : State) (ci idx : Nat) (t : InTok) : Prop :=
  (s.core ci).inbox[idx]? = some t ∧ t.tok.kind ≠ .eos ∧ s.agentDone t.after = true ∧ s.stopped ci = false ∧ (s.core ci).arrivesNext idx t = true ∧
    (s.core ci).admits = true ∧ s.canPlace ci t = true

end Sys2Proof.Claims

/-- R11, R16 to R21, R34 to R37, R362: a token that the core takes leaves the input and reaches the matching store, where the first
token of an instance makes an entry with one presence bit and writes its cell; a due collection is made; partial instances spill when
the core runs short; records land and come back; an end-of-stream token counts toward its sink. The model's choices: when due collections
are made (log entry 13), the size of a spilled record (14), a held token that is merged in the step in which its record lands (17) and
where a frame lies (153). -/
def Obligations.MatchingStoreEvents : Prop :=
  ∀ (ci idx : Nat) (s : State),
    let c := s.core ci
    (∀ t slot b, Taken s ci idx t → c.residentSlot t.tok.blk.toNat = some (slot, b) → s.behindMarker ci t = false → t.frame = none →
      s.badToken ci t.tok b = false → c.lookup t.tok = .absent → ∀ at_, c.freeFrame? (frameLines b.hdr) = some at_ →
      ∃ v, exec (.tokenArrival ci idx) s = .next v ∧
        (v.core ci).inbox = c.inbox.eraseIdx idx ∧ (v.core ci).received = c.received + bit01 t.counted ∧
        (∃ e, (v.core ci).entries.at? c.nextNum = some e ∧ e.bid = t.tok.blk.toNat ∧ e.colour = t.tok.colour.toNat ∧ e.tag = t.tok.tag ∧
          e.frame = at_ ∧ e.presence = BitVec.ofNat 8 (2 ^ t.tok.slot.toNat) ∧
          (e.phase = .complete ↔ e.presence.toNat = 2 ^ hdrArity b.hdr - 1) ∧
          (e.phase = .complete → e.deadline = s.arith + 4 * b.timer)) ∧
        (∀ i, i < 64 → ((v.core ci).frame.atD (at_ + 64 * t.tok.slot.toNat + i) 0) = ((cellBytes t.tok)[i]?).getD 0) ∧
        CoresKept s v ci ∧ MemoryKept s v) ∧
    (∀ t, Taken s ci idx t → exec (.tokenArrival ci idx) s = .next ((s.setCore ci (c.accept idx t)).place ci t)) ∧
    (∀ t r k, c.inbox[idx]? = some t → s.coreRegion? ci = some r → t.tok.kind = .eos → s.stopped ci = false → c.arrivesNext idx t = true → c.admits = true →
      (r.sinks.find? fun x => x.bid == t.tok.blk.toNat) = some k → k.reported = false →
      Next (exec (.eosCount ci idx) s) fun u => (u.core ci).eosCount.atD t.tok.blk.toNat 0 = c.eosCount.atD t.tok.blk.toNat 0 + 1 ∧
        (u.core ci).inbox = c.inbox.eraseIdx idx ∧ CoresKept s u ci ∧ MemoryKept s u ∧
        (c.eosCount.atD t.tok.blk.toNat 0 + 1 < k.expect → u.dev = s.dev) ∧
        (k.expect ≤ c.eosCount.atD t.tok.blk.toNat 0 + 1 → u.dev.regions = s.dev.regions.map fun x => if x.num = r.num then
          { r with sinks := r.sinks.map fun y => if y.bid = t.tok.blk.toNat then { y with reported := true } else y } else x)) ∧
    ((∃ d ∈ s.dueColls ci, d.slot = idx) → exec (.collectionDeadline ci idx) s = .next (s.collectAll ci)) ∧
    exec (.postponedCollection ci) s = .next (s.collectAll ci) ∧
    (s.short ci = true → c.spillUsed + ((((sortBy (fun a b => a.2.latest ≤ b.2.latest)
        (c.entries.filter fun e => e.2.phase == .incomplete)).take 32).map fun e => recBytes e.2).foldl (· + ·) 0) ≤ c.cfg.prSize * 4096 →
      Next (exec (.spill ci) s) fun u =>
        (u.core ci).spilled.length = c.spilled.length + min 32 (c.entries.filter fun e => e.2.phase == .incomplete).length ∧
        (∀ e ∈ (u.core ci).entries, e ∈ c.entries) ∧ CoresKept s u ci ∧ MemoryKept s u) ∧
    (∀ r, c.spilled[idx]? = some r → r.toCore = false → r.landed = false →
      ∃ v, exec (.spillRecordLanded ci idx) s = .next (v.mergeHeld ci r.entry) ∧
        v = s.setCore ci { c with spilled := c.spilled.set idx { r with landed := true } }) ∧
    (∀ r s' pl, (c.spilled.filter fun x => x.landed && !x.toCore && !c.refillParked x.num).find? (fun x => x.entry.phase == .complete) = some r →
      c.entriesUsed + 1024 ≤ 4096 → (c.freeFrame? r.entry.lines).isSome = true → c.quenched = none →
      (s.modCore ci fun c => ({ c with park := c.park.filter fun p => p.refill != some r.num } : Core).refillPark).engineXl ci r.num
        c.cfg.asid (recVA c r.num) { write := false, priv := true, peer := false } = (.ok pl, s') →
      Next (exec (.refill ci) s) fun u => ∀ x ∈ (u.core ci).spilled, x.num = r.num → x.toCore = true)


/-! ## Events of groups and cores -/

/-- R27, R30, R33, R273: a group past its last word, with nothing of steps 1 and 2 left and no line in a lost region, commits:
its store-buffer lines leave for the slices, its instances are freed, and its tokens join the core's outbox. R14, R281: a token
leaves when no barrier holds it, its commit and those that met it at a barrier are visible at its scope, no span word of its commit
waits before it, and no earlier token of its group slot to that core has yet to leave. R297, R416:
a guard of another tenant on its path drops it, with a record at the sender. R292: an arrival counts on its team's or cluster's
channel once its commit is visible, and a generation that opens holds no token. R33: a commit makes the changes that its words left, in
program order: a COUNT, an activation table's version, a pigeonhole's timer or priority, a bound slot, a new colour, a system register,
a verdict; a free of colours leaves after step 5 (R374). The model's choices: steps 3 to 5 are one event (log entry 12), tokens of a
group slot leave in order (66), and the guards that a token meets (84). -/
def Obligations.CommitReleaseAndBarriers : Prop :=
  ∀ (ci gi : Nat) (s : State),
    let c := s.core ci
    (∀ g, c.group? gi = some g → g.atEnd c = true → c.mayCommit g = true → s.lostAtCommit g = none →
      let v := s.commitPass ci gi c.nextNum g
      let w := v.commitFree ci g
      let x := w.commitSend ci gi c.nextNum g
      exec (.blockCommit ci gi) s = .next (s.commitGroup ci gi g) ∧
      (∃ p : State, p.transit = s.transit ++ g.sbuf.map (fun b => (ci, SliceReq.update c.nextNum ci b)) ∧ MemoryKept s p ∧
        v = g.deferred.foldl (fun u d => u.applyDeferred ci g d) p) ∧
      (∀ ids, Deferred.colFree ids ∈ g.deferred → ∃ o ∈ (x.core ci).outbox, o.item = .colFree ids) ∧
      (∀ n ∈ g.insts, (w.core ci).entries.at? n = none) ∧
      (∀ t, SendItem.token t ∈ g.sendq →
        ∃ o ∈ (x.core ci).outbox, o.item = .token t ∧ o.commit = c.nextNum ∧ o.grp = gi ∧ o.bars = g.barRefs)) ∧
    (∀ idx o t r, c.outbox[idx]? = some o → o.item = .token t → s.coreRegion? ci = some r →
      let d := s.tokenCore r ci t
      let sc := scopeMax o.scope (s.scopeTo ci d)
      let free := o.bars.isEmpty && c.tokenVisible o.commit sc && (o.after.all fun a => (s.core a.1).tokenVisible a.2 sc) &&
        !c.spanBehind idx o && !s.tokenBehind r ci idx o d
      let u := (s.takeOut ci idx).deliver ci (some o.grp) t none
      (free = true → exec (.delayedTokenRelease ci idx) s = .next ((u.releaseSlots ci).sweepCommits ci)) ∧
      (free = false → exec (.delayedTokenRelease ci idx) s = .next ((s.releaseSlots ci).sweepCommits ci)) ∧
      (s.guardStop ci d = none →
        (u.core d).inbox = (s.core d).inbox ++ [{ s.ownToken ci t with grp := some o.grp }] ∧
        (u.core ci).outbox = c.outbox.eraseIdx idx ∧ (u.core ci).sent = c.sent + 1) ∧
      (∀ tile edge, s.guardStop ci d = some (tile, edge) →
        u = (s.takeOut ci idx).deadLetter c.cfg.asid (srcCore tile) (dieOf tile)
          (deadTail dlParapet (if edge then 4 else 3) (placeTile tile) (s.meshPacket ci t)) (t.kind == .handler) none)) ∧
    (∀ idx a, c.barArrivals[idx]? = some a → a.clus = false → c.visible a.commit .team = true →
      let old := (c.team a.owner).chans.atD a.chan Channel.empty
      Next (exec (.barrierArrival ci idx) s) fun u =>
        ((u.core ci).team a.owner).chans.atD a.chan Channel.empty = (old.arrive a.insts a.need (ci, a.commit)).1 ∧
        (u.core ci).barArrivals = c.barArrivals.eraseIdx idx ∧
        ((old.arrive a.insts a.need (ci, a.commit)).2 = true → ∀ o ∈ (u.core ci).outbox, (a.clus, a.owner, a.chan, old.gen + 1) ∉ o.bars) ∧
        CoresKept s u ci ∧ MemoryKept s u) ∧
    (∀ idx a, c.barArrivals[idx]? = some a → a.clus = true → c.visible a.commit .clus = true →
      let k := clusKeeper c ci
      let old := (s.core k).clusBars.atD (a.owner * 4 + a.chan) Channel.empty
      Next (exec (.barrierArrival ci idx) s) fun u =>
        (u.core k).clusBars.atD (a.owner * 4 + a.chan) Channel.empty = (old.arrive a.insts a.need (ci, a.commit)).1 ∧
        (u.core ci).barArrivals = c.barArrivals.eraseIdx idx ∧ MemoryKept s u) ∧
    (∀ g : Group,
      let made (d : Deferred) : State := s.applyDeferred ci g d
      (∀ n, ((made (.gang n)).core ci).team g.team = { c.team g.team with gcount := n }) ∧
      (∀ t, ((made (.tswap t)).core ci).tcur.atD t 0 = 1 - c.tcur.atD t 0) ∧
      (∀ k n, k ≤ 127 → (c.slot k).bid ≠ 0xFFF →
        ((made (.timer k n)).core ci).slot k = { c.slot k with timer := n } ∧
        ((made (.prio k n)).core ci).slot k = { c.slot k with prio := n }) ∧
      (∀ k n, 127 < k ∨ (c.slot k).bid = 0xFFF → (made (.timer k n)).core ci = c ∧ (made (.prio k n)).core ci = c) ∧
      (∀ k bid, let hdr := s.recHdr (s.blockRec c bid)
        let b := ((made (.ldblk k bid)).core ci).slot k
        (∀ at_, freeRun? (c.storeRuns k) (4 + hdrLen hdr) = some at_ → b.bid = bid ∧ b.hdr = hdr ∧ b.timer = hdrTimer hdr ∧
          b.prio = hdrPrio hdr ∧ b.storeAt = at_ ∧ b.recPA = s.blockRec c bid ∧ b.resident = false ∧ b.closing = false) ∧
        (freeRun? (c.storeRuns k) (4 + hdrLen hdr) = none → b = BlockSlot.unbound)) ∧
      (∀ id w p r, s.coreRegion? ci = some r → ∃ r', (made (.colAlloc id w p)).coreRegion? ci = some r' ∧
        r'.colour id = { live := true, wlog := w, parent := p } ∧ ∀ k, k ≠ id → r'.colour k = r.colour k) ∧
      (∀ n r, s.coreRegion? ci = some r → ∃ r', (made (.sysWrite 0x130 n)).coreRegion? ci = some r' ∧ r'.flth = loWord n &&& 0xCFFF0FFF) ∧
      (∀ fid past, made (.resume fid past) = s.resumeParked ci fid past ∧ made (.abort fid) = s.abortParked ci fid) ∧
      (∀ n t k bid id w p, ∀ d ∈ [Deferred.gang n, .tswap t, .timer k n, .prio k n, .ldblk k bid, .colAlloc id w p],
        CoresKept s (made d) ci ∧ MemoryKept s (made d))) ∧
    (∀ (h : Channel) n need who, let total := if h.count = 0 then need else h.need
      (total ≤ h.count + n → h.arrive n need who = ({ count := 0, need := 0, gen := h.gen + 1, from_ := [] }, true)) ∧
      (h.count + n < total →
        h.arrive n need who = ({ count := h.count + n, need := total, gen := h.gen, from_ := h.from_ ++ [who] }, false)))

/-- R57, R59, R111, R356: the completion of an operation writes its registers and lowers its flag; a renewal answered with the
version unchanged confirms the uses and renews the lease, one with new data replaces the line and aborts and replays, one mismatch
further, the groups whose use of the old version was not confirmed; a group passed over 1,024 times rises by one priority. R358: a core with nothing to do is gated after 64 idle cycles; a due collection, a ready group, or a
deadline within 72 cycles starts a restart of 72 cycles, after which it runs. -/
def Obligations.CompletionRenewalAndGatingEvents : Prop :=
  (∀ (ci gi : Nat) (s : State),
    let c := s.core ci
    (∀ idx g o, gi < 64 → c.group? gi = some g → g.ops[idx]? = some o → g.ops.find? (fun p => p.num == o.num) = some o →
      c.opSlot o.num = some (gi, g) → o.ready = true → o.dead = false → o.flt = none → o.kind ≠ .courier → (!c.divq.contains o.num || c.divq.head? == some o.num) = true →
      ∃ v, exec (.longLatencyCompletion ci gi idx) s = .next (v.serveAll ci) ∧
        v = s.setCore ci (v.core ci) ∧ (v.core ci).group? gi = some (g.completeOp o) ∧
        (∀ k, k ≠ gi → (v.core ci).group? k = c.group? k) ∧
        (v.core ci).divq = c.divq.filter (· != o.num) ∧
        (∀ n, o.flag = some n → (g.completeOp o).flags.atD n 0 = g.flags.atD n 0 - 1) ∧
        (g.completeOp o).ops = g.ops.filter (fun p => p.num != o.num)) ∧
    (∀ idx r, c.renewals[idx]? = some r → r.back = true → r.data = [] →
      ∃ v, exec (.speculativeRenewalReply ci idx) s = .next (v.retryLoads ci) ∧ v = s.setCore ci (v.core ci) ∧
        (v.core ci).renewals = c.renewals.eraseIdx idx ∧
        (∀ k g, c.group? k = some g → (v.core ci).group? k = some (g.confirm r)) ∧
        (∀ l ∈ c.l1, l.line = r.line → l.ver = r.ver → r.newExp ≠ 0 → { l with exp := max l.exp r.newExp } ∈ (v.core ci).l1)) ∧
    (∀ idx r, c.renewals[idx]? = some r → r.back = true → r.data ≠ [] →
      let put (c : Core) : Core := if r.newExp = 0 then c.l1Drop r.line
        else c.l1Put { line := r.line, exp := r.newExp, ver := r.newVer, data := r.data } r.lru
      let used (g : Group) : Prop := ∃ x ∈ g.validation, x.line = r.line ∧ x.ver = r.ver ∧ x.confirmed = false
      ∃ v, exec (.speculativeRenewalReply ci idx) s = .next (v.retryLoads ci) ∧
        ((∀ e ∈ c.groups, ¬ used e.2) → v = s.setCore ci (put { c with renewals := c.renewals.eraseIdx idx })) ∧
        ((c.groups.map Prod.fst).Nodup → ∀ k g, c.group? k = some g →
          (¬ used g → (v.core ci).group? k = some g) ∧
          (used g → ∃ h, (v.core ci).group? k = some h ∧ h.pc = 0 ∧ h.regs = [] ∧ h.sbuf = [] ∧ h.sendq = [] ∧ h.undo = [] ∧
            h.em = g.emFire ∧ h.insts = g.insts ∧ h.replaying = true ∧ h.mismatches = g.mismatches + 1)) ∧
        (v.core ci).l1 = (put c).l1 ∧ CoresKept s v ci ∧ MemoryKept s v) ∧
    (∀ g, c.group? gi = some g → 1024 ≤ g.passOver →
      Next (exec (.passOverPromotion ci gi) s) (OnlyGroup s ci gi { g with prio := min (g.prio + 1) 3, passOver := 0 })) ∧
    (∀ g, c.group? gi = some g → g.passOver < 1024 → exec (.passOverPromotion ci gi) s = .next s)) ∧
  (∀ (ci : Nat) (s : State),
    let c := s.core ci
    let gated (g : Gate) : State := s.setCore ci { c with gate := g }
    (∀ since, c.gate = .running since → s.coreBusy ci = true → exec (.clockGate ci) s = .next (gated (.running none))) ∧
    (c.gate = .running none → s.coreBusy ci = false → exec (.clockGate ci) s = .next (gated (.running (some s.arith)))) ∧
    (∀ t, c.gate = .running (some t) → s.coreBusy ci = false →
      exec (.clockGate ci) s = .next (gated (if t + 64 ≤ s.arith then .gated else .running (some t)))) ∧
    (c.gate = .gated → (s.dueColls ci ≠ [] ∨ ∃ e ∈ c.groups, s.looksReady ci e.2 = true) →
      exec (.coreWake ci) s = .next (gated (.restarting (s.arith + 72)))) ∧
    (c.gate = .gated → s.dueColls ci = [] → (∀ e ∈ c.groups, s.looksReady ci e.2 = false) → exec (.coreWake ci) s = .next s) ∧
    (∀ g, s.looksReady ci g = true ↔ g.canTry c = true ∧ (g.status = .ready ∨
      (g.status = .waiting ∧ ∃ f, fetchInstr c g = .clauseHeader f ∧ ∀ n, n < 12 → f.wait.getLsbD n = true → g.flags.atD n 0 = 0) ∨
      ((∃ t, g.status = .qwait t) ∧ s.qwaitOver ci g = true))) ∧
    (c.gate = .gated → (∃ e ∈ c.entries, e.2.phase = .complete ∧ e.2.deadline ≤ s.arith + 72) →
      exec (.deadlineWakeTimer ci) s = .next (gated (.restarting (s.arith + 72)))) ∧
    (∀ t, c.gate = .restarting t → t ≤ s.arith → exec (.restartEnd ci) s = .next (gated (.running none))) ∧
    (∀ t, c.gate = .restarting t → s.arith < t → exec (.restartEnd ci) s = .next s))

/-- R376, R359, R378, R216, R258, R163, R158: a fetched block is resident and takes the tokens held for it; a QWAIT of 65,536 cycles
writes 0; a TLOAD copies its image; a rendezvous of 1,024 cycles fails; a deposit takes its place in the order of its line's requests and
is written once its line is free; a line that becomes present frees the groups parked on it for which no earlier copy holds it absent.
The model's choices: a failed rendezvous puts all its operations in the queue at once, beyond eight too (log entry 77), and the tokens
held for an absent block (125). -/
def Obligations.CoreUnitEvents : Prop :=
  ∀ (ci : Nat) (s : State),
    let c := s.core ci
    (∀ k, let b := c.slot k
      b.bid ≠ 0xFFF → b.resident = false → b.closing = false →
      ∃ v, exec (.blockFetchComplete ci k) s = .next ((c.overlay.filter fun t => t.tok.blk.toNat == b.bid).foldl (fun s t => s.place ci t) v) ∧
        v = s.setCore ci (v.core ci) ∧ (v.core ci).overlay = c.overlay.filter (fun t => t.tok.blk.toNat != b.bid) ∧
        (v.core ci).slot k = { b with resident := true, body := (List.range (hdrLen b.hdr)).map fun i => s.rd64 (b.recPA + 8 * (4 + i)) }) ∧
    (∀ gi g f t, c.group? gi = some g → qwaitAt c g = some (f, t) → t + 65536 ≤ s.arith →
      ∃ h, LaneWrite g h f.d 1 (g.active f.g) (fun _ => 0) ∧
        Next (exec (.qwaitTimeout ci gi) s) (OnlyGroup s ci gi h.advance)) ∧
    (∀ table x gi g, c.tloads.find? (fun x => x.table == table) = some x → c.opSlot x.num = some (gi, g) →
      c.boundTo table x.ver (some gi) = false → (∀ ln ∈ x.lines, c.presentFor x.num .w ln = true) →
      Next (exec (.tloadCopy ci table) s) fun u =>
        ((u.core ci).tables.atD (tableKey table x.ver) TableVer.zero).bytes.readBytes 0 4128 = c.bufW.readBytes x.off 4128 ∧
        (u.core ci).group? gi = some (g.markReady x.num) ∧ (∀ y ∈ (u.core ci).tloads, y.num ≠ x.num) ∧
        CoresKept s u ci ∧ MemoryKept s u) ∧
    (∀ l, c.gang = some l → l.full = false → 1024 ≤ s.arith - l.opened →
      exec (.gangRendezvousTimeout ci) s = .next (s.setCore ci c.failLatch) ∧
      c.failLatch.gang = none ∧ c.failLatch.matq = c.matq ++ l.members ∧
      (∀ m ms g, l.members = m :: ms → c.group? m.grp = some g →
        (c.failLatch.team g.team).gfails = min ((c.team g.team).gfails + 1) 255)) ∧
    (∀ d ds, c.deposits = d :: ds →
      let num := d.num.getD c.nextNum
      let free : Prop := c.presentFor num .a d.line = true ∧ (∀ e ∈ c.groups, e.2.locks .a d.line = false) ∧
        c.lineBusy num none .a d.line true = false
      (free → ∃ v, exec (.neighbourDeposit ci 0) s = .next (v.serveAll ci) ∧
        (v.core ci).bufA = d.bytes.foldl (fun m e => m.put 0 (d.line * 128 + e.1) e.2) c.bufA ∧ (v.core ci).deposits = ds ∧
        (∀ r ∈ (s.core d.tile).commits, r.num = d.commit → { r with deposits := r.deposits.erase d.epoch } ∈ (v.core d.tile).commits) ∧
        (∀ cj, cj ≠ ci → cj ≠ d.tile → v.core cj = s.core cj) ∧ MemoryKept s v) ∧
      (¬ free → exec (.neighbourDeposit ci 0) s = .next (s.setCore ci
        { c with nextNum := max c.nextNum (num + 1), deposits := { d with num := some num } :: ds }))) ∧
    (∀ buf line,
      ∃ v, exec (.presenceSetResume ci buf line) s = .next (v.serveAll ci) ∧ v = s.setCore ci (v.core ci) ∧
        (∀ gi g, c.group? gi = some g → g.status = .parked buf line →
          let free := c.presentFor ((g.place.map Prod.fst).getD c.nextNum) buf line
          (free = true → (v.core ci).group? gi = some { g with status := .ready }) ∧ (free = false → (v.core ci).group? gi = some g)) ∧
        (∀ gi g, c.group? gi = some g → g.status ≠ .parked buf line → (v.core ci).group? gi = some g))

/-- R129, R142 to R147, R122, R123: the next queued command begins when fewer than four run and its block's lines are performed; a
running copy whose lines are all done ends, and its token leaves; a running command goes on line by line, and writes an owned line
first when another wants it; where that line must wait, it stands among the command's urgent lines, before which no other goes. The
model's choices: each complete event moves a running command forward (log entry 57), and a line is recalled when another wants it (58). -/
def Obligations.CourierEvents : Prop :=
  ∀ (ci : Nat) (s : State),
    let c := s.core ci
    (∀ k, c.courier.find? (fun k => !k.running) = some k → (c.courier.filter fun y => y.running).length < 4 → copyReady c k = true →
      let r : CopyCmd := { k with running := true }
      let v := s.setCore ci (c.setCopy r)
      (k.form = .rput → exec (.courierCommandStart ci) s = .next (v.startPut ci r)) ∧
      (k.form = .rget → exec (.courierCommandStart ci) s = .next (v.startGet ci r)) ∧
      (k.form = .mcput → exec (.courierCommandStart ci) s = .next (v.startMcput ci r)) ∧
      (isBulk k.form = false → exec (.courierCommandStart ci) s = .next (v.ownAhead ci r))) ∧
    (∀ idx k, c.courier[idx]? = some k → k.running = true →
      let ends (v : State) : Prop := exec (.courierCommandComplete ci idx) s = .next ((v.releaseSlots ci).sweepCommits ci)
      (k.form = .rput → ends (s.runPut ci k)) ∧ (k.form = .rget → ends (s.runGet ci k)) ∧
      (k.form = .mcput → ends (if k.sent = true then s else s.startMcput ci k)) ∧
      (k.form = .spout ∨ k.form = .spoutc → ends (s.pushCopy ci k)) ∧ (k.form = .spin → ends (s.landCopy ci k)) ∧
      (isBulk k.form = false → k.form ≠ .spout → k.form ≠ .spoutc → k.form ≠ .spin →
        ends ((s.ownAhead ci k).runCopy ci k)) ∧
      ((∀ u ∈ k.units, u ∈ k.doneLines) → k.form.immediate = false → k.form.readsBuf = false → s.runCopy ci k = s.endDeferred ci k 0 0) ∧
      (∀ d ds, k.due = d :: ds → ∃ o ∈ ((s.endDeferred ci k 0 0).core ci).outbox,
        o.item = .token ({ d with rscope := k.destScope s ci }.token [0, w32 k.progress]) ∧ o.commit = k.commit)) ∧
    (∀ line k u s', (s.ownedBy ci).contains line = true → s.lineWanted line = true →
      c.courier.findSome? (fun k => if k.running && dstMem k.form then
        (k.units.find? fun u => !k.doneLines.contains u && unitLine s ci k u == some line).map fun u => (k, u) else none) = some (k, u) →
      ∀ k',
        (memUnit s ci k u = (.done, k', s') →
          exec (.courierRecall ci line) s = .next (s'.setCore ci ((s'.core ci).setCopy k')) ∧ k'.doneLines = k.doneLines ++ [u]) ∧
        (memUnit s ci k u = (.wait, k', s') → exec (.courierRecall ci line) s = .next (s'.setCore ci
          ((s'.core ci).setCopy { k' with urgent := k'.urgent.filter (· != u) ++ [u] }))))


/-! ## Events of translation, slices and permits -/

/-- R94, R97, R98, R99: a free walker takes the oldest miss; a leaf that a waiter may use reaches the TLBs and answers the misses it
covers, a failure only the waiters merged with it, and nothing is cached; a request's page is translated at the ingress; GO of TLBINV_CTL
takes every entry that overlaps the range from every TLB and sets BUSY, and DONE follows when nothing that holds a translation of the range
runs. That DONE waits also for the commits and the peer commands of the Couriers that hold a translation is the model's choice (log
entry 33). -/
def Obligations.TranslationEvents : Prop :=
  ∀ (die : Nat) (s : State),
    let d := s.die die
    (∀ m rest, d.missq = m :: rest → d.walks.length < 64 →
      Next (exec (.pageWalk die) s) fun u =>
        let out := walk s die m.asid (m.page * 4096)
        (u.die die).missq = rest ∧
        (u.die die).walks = d.walks ++ [{ asid := m.asid, page := m.page, who := m.who, out := out.1, seen := out.2 }] ∧
        (u.die die).l2tlb = d.l2tlb ∧ (∀ k, k ≠ die → u.die k = s.die k) ∧ u.cores = s.cores ∧ MemoryKept s u) ∧
    (∀ idx w cause level, d.walks[idx]? = some w → w.out = .fail cause level →
      Next (exec (.walkResult die idx) s) fun u =>
        (u.die die).walks = d.walks.eraseIdx idx ∧ (u.die die).missq = d.missq ∧ (u.die die).l2tlb = d.l2tlb ∧
        (u.die die).walkCache = d.walkCache ∧
        (u.die die).failed = d.failed ++ w.who.map (fun y => { who := y.who, asid := w.asid, page := w.page, cause := cause, level := level }) ∧
        u.cores = s.cores ∧ MemoryKept s u) ∧
    (∀ idx w base size e, d.walks[idx]? = some w → w.out = .leaf base size e →
      let x : TlbEnt := { asid := w.asid, va := base, size := size, leaf := e }
      let usable (y : Waiter) (page : Nat) : Prop := ∃ t, onLeaf s w.asid (page * 4096) y.want x = .ok t
      ((∃ y ∈ w.who, usable y w.page) →
        Next (exec (.walkResult die idx) s) fun u =>
          (u.die die).walks = d.walks.eraseIdx idx ∧ (u.die die).missq = d.missq.filter (fun m => !x.covers m.asid (m.page * 4096)) ∧
          (∀ y ∈ w.who, isIngress y.who = false → x ∈ (u.die die).l2tlb) ∧ (∀ y ∈ w.who, isIngress y.who = true → x ∈ (u.die die).ingressTlb) ∧
          (∀ y ∈ w.who, ∀ ci, waiterCore y.who = some ci → x ∈ (u.core ci).l1tlb) ∧ MemoryKept s u) ∧
      (w.who ≠ [] → (∀ y ∈ w.who, ¬ usable y w.page) →
        (∀ m ∈ d.missq, x.covers m.asid (m.page * 4096) = true → ∀ y ∈ m.who, ¬ usable y m.page) →
        Next (exec (.walkResult die idx) s) fun u =>
          (u.die die).walks = d.walks.eraseIdx idx ∧ (u.die die).missq = d.missq ∧ (u.die die).l2tlb = d.l2tlb ∧
          (u.die die).walkCache = d.walkCache ∧ (∀ y ∈ w.who, ∃ f ∈ (u.die die).failed, f.who = y.who ∧ f.asid = w.asid ∧ f.page = w.page) ∧
          u.cores = s.cores ∧ MemoryKept s u)) ∧
    (∀ idx r, d.ingress[idx]? = some r → r.place = none → r.needsPage = true →
      let va := r.pkt.tva + r.done
      (∀ pa cache s', s.ingressXl die r.num r.pkt.tasid va (bodyWrites r.pkt.body) = (.ok pa cache, s') →
        exec (.ingressTranslation die idx) s = .next (s'.setIngress die idx { r with place := some (pa, cache) })) ∧
      (∀ s', s.ingressXl die r.num r.pkt.tasid va (bodyWrites r.pkt.body) = (.wait, s') →
        exec (.ingressTranslation die idx) s = .next s') ∧
      (∀ cause level s', s.ingressXl die r.num r.pkt.tasid va (bodyWrites r.pkt.body) = (.fail cause level, s') →
        exec (.ingressTranslation die idx) s = .next ((s'.ingressRecord die r.pkt.tasid cause level
          (if bodyBulk r.pkt.body = true then va / 4096 * 4096 else va)).endIngress die idx r (if r.done = 0 then 1 else 2) cause))) ∧
    (∀ v : DWord, d.tlbinv.busy = false → v.getLsbD 63 = true → die < 4 →
      let t : TlbInv := { d.tlbinv with asid := field v.toNat 32 16, npg := field v.toNat 0 28 }
      Next (exec (.tlbinvGo die v) s) fun u =>
        (u.die die).tlbinv = { t with busy := true, done := false, after := s.xlCommits t.asid } ∧
        (∀ k x, k < 4 → x ∈ (u.die k).l2tlb ∨ x ∈ (u.die k).ingressTlb → t.covers x.asid x.va x.size = false) ∧
        (∀ ci x, x ∈ (u.core ci).l1tlb → t.covers x.asid x.va x.size = false)) ∧
    (∀ v : DWord, d.tlbinv.busy = true → exec (.tlbinvGo die v) s = .next s) ∧
    (d.tlbinv.busy = true → (∀ e ∈ s.cores, ∀ k ∈ e.2.courier, k.running = false ∧ k.remote = none) → (∀ e ∈ s.dies, ∀ r ∈ e.2.ingress, r.place = none) →
      (∀ x ∈ d.tlbinv.after, (s.core x.1).heldXl x.2 = false) →
      exec (.tlbinvDone die) s = .next (s.setDie die { d with tlbinv := { d.tlbinv with busy := false, done := true, after := [] } }))

/-- R103 to R111, R113, R116, R273 to R275: a slice with a permit and room for the line serves a load, with a lease that no L1 outlives; a
lined-up write or atomic line is performed as one write once it is its turn, its fences are open, its leases have run out and all 32 permits
are there and not promised away, and the line takes the next version; a FETCH reads at its owner; a committed line reaches the slice where
its core meets it, in the order of R109; a line that leaves a slice keeps its lease limit in the lease floor. -/
def Obligations.SliceEvents : Prop :=
  ∀ (die pos idx : Nat) (s : State),
    let k := sliceKey die pos
    (∀ e ci ln num ver ll noLease lru pol halves,
      (s.slice k).queue[idx]? = some e → e.req = .load ci ln num ver ll noLease lru pol halves → s.lineStop ln = none →
      ((s.slice k).lineD ln).courier = none → s.spent k ln = false →
      (s.permitsAt k ln ≠ 0 → ∀ v, s.placeLine k ln pol = some v →
        let u := (v.unqueue k idx).serveLoad k ci ln num ver ll noLease lru halves
        exec (.leaseRequest die pos idx) s = .next u ∧
        ∀ l ∈ (u.core ci).l1, l.line = ln → l.exp ≤ ((u.slice k).lineD ln).expmax ∨ l ∈ (s.core ci).l1) ∧
      (s.permitsAt k ln = 0 → exec (.leaseRequest die pos idx) s = .next (s.ask k ln false pol))) ∧
    (∀ e commit ci l, (s.slice k).queue[idx]? = some e → e.req = .update commit ci l → s.updateStop l = none →
      (s.slice k).behind idx l.line = false → s.barred k l.line e = false → fencesOpen (s.core ci) commit l.line = true →
      s.spent k l.line = false → ((s.slice k).lineD l.line).courier = none →
      (l.ops ≠ [] → k = updateSlice s (dieOf ci) l.line true) →
      let i : Instr := if l.ops = [] then .linedUpWritePerform die pos idx else .atomicAtOwner die pos idx
      (s.permitsAt k l.line = 32 → ((s.slice k).lineD l.line).expmax ≤ s.gtcAt (k / 256) → ∀ v, s.placeLine k l.line l.pol = some v →
        (((v.slice k).lineD l.line).expmax ≤ v.gtcAt (k / 256) → exec i s = .next ((v.unqueue k idx).performUpdate k ci commit l)) ∧
        (v.gtcAt (k / 256) < ((v.slice k).lineD l.line).expmax → exec i s = .next v)) ∧
      (s.permitsAt k l.line = 32 → s.gtcAt (k / 256) < ((s.slice k).lineD l.line).expmax → exec i s = .next s) ∧
      (s.permitsAt k l.line < 32 → exec i s = .next (s.ask k l.line true l.pol))) ∧
    (∀ ln bytes, let u := s.storeLine k ln bytes
      ((u.slice k).lineD ln).ver = (s.slice k).counter + 1 ∧ (u.slice k).counter = (s.slice k).counter + 1 ∧
      (∀ a, (∀ e ∈ bytes, ln * 128 + e.1 ≠ canonPA a) → u.memByte a = s.memByte a) ∧
      ((bytes.map Prod.fst).Nodup → ∀ e ∈ bytes, ∀ a, canonPA a = ln * 128 + e.1 → u.memByte a = e.2) ∧ u.cores = s.cores) ∧
    (∀ e ci ln num pol halves, (s.slice k).queue[idx]? = some e → e.req = .fetch ci ln num pol halves → s.lineStop ln = none →
      k = fetchSlice s (dieOf ci) ln → (s.slice k).behind idx ln = false → s.barred k ln e = false → s.spent k ln = false →
      ((s.slice k).lineD ln).courier = none → s.permitsAt k ln = 32 → ∀ p, s.placeLine k ln pol = some p →
      ∃ v, exec (.fetchAtOwner die pos idx) s = .next (v.deliverLine ci ln num (s.memBytes (ln * 128) 128)) ∧ v.cores = s.cores ∧ MemoryKept s v) ∧
    (∀ to_ commit ci l, s.transit[idx]? = some (to_, .update commit ci l) → l.uncached = false →
      let j := sliceAt s (dieOf ci) l.line
      Next (exec (.storeLineArrival idx) s) fun u =>
        u.transit = s.transit.eraseIdx idx ∧
        (∃ before after, (s.slice j).queue = before ++ after ∧
          (u.slice j).queue = before ++ { who := requester (j / 256) ci, at_ := s.mesh, seq := s.arrivals, req := .update commit ci l } :: after) ∧
        u.cores = s.cores ∧ MemoryKept s u) ∧
    (∀ (x : Slice) (now ln : Nat), (x.lineD ln).expmax ≤ max now (x.unlist now ln).floor)

/-- R114 to R116: the home grants a read permit or gathers all 32 for the agent, and answers RETRY while a persistent request of another die
or a snoop recalls the line; RETRY and time-outs fail a request, and after three failures or 2 µs the agent asks persistently; permits that
come with a reply, or go home, are counted once; persistent requests are activated in turn and ended. R117, R121: a snoop recalls every permit
of the line; a back-invalidation snoop then leaves it in state I or S, a host snoop leaves a half in I, or one that is held in S; a line
whose leases run keeps its state, and the recall stands. The model's choices: how a GETX gathers and when RETRY is answered (log entry
39), the recall as state (40), the half that a host snoop leaves in I (41) and the one access of a persistent request (43). -/
def Obligations.PermitAndSnoopEvents : Prop :=
  (∀ (die line : Nat) (s : State),
    let k := sliceAt s die line
    let home := permitHome s line
    let queue := (s.slice home).queue
    let mine (q : SliceEnt) : Bool := q.req == .permit (k / 256) line
    let inTurn (seq : Nat) : Prop := (k = home ∧ seq = s.arrivals) ∨ (k ≠ home ∧ ∃ i q, queue.findIdx? mine = some i ∧ queue[i]? = some q ∧
      q.seq = seq ∧ q.at_ < s.mesh ∧ ∀ p ∈ queue.take i, p.req.line = line → p.req.holdsUp = false)
    let waitsTurn (i : Instr) : Prop := k ≠ home →
      ((∀ q ∈ queue, mine q = false) → exec i s = .next (s.enqueue home (reqAgent (k / 256)) (.permit (k / 256) line))) ∧
      (∀ n q, queue.findIdx? mine = some n → queue[n]? = some q →
        (s.mesh ≤ q.at_ ∨ ∃ p ∈ queue.take n, p.req.line = line ∧ p.req.holdsUp = true) → exec i s = .next s)
    (∀ a, s.askOf k line = some a → a.exclusive = false → a.persistent = false → a.reply = none →
      (s.turnsAway die line = false → (∀ seq, inTurn seq → exec (.permitGets die line) s = .next (s.grantRead k line seq)) ∧
        waitsTurn (.permitGets die line)) ∧
      (s.turnsAway die line = true → exec (.permitGets die line) s = .next (s.reply k line none)) ∧
      (s.ownerAt line = home → 2 ≤ s.permitsAt home line → k ≠ home → ((s.slice home).lineD line).courier = none →
        ∀ seq b, (s.grantRead k line seq).askOf k line = some b → b.reply = some (some (1, false)))) ∧
    (∀ a, s.askOf k line = some a → a.exclusive = true → a.persistent = false → a.reply = none →
      let v := s.poolAcquire line true
      let wants (h : Nat) : Bool := (v.slice h).wants line
      let t (seq : Nat) : State := v.gather k line a.pol seq fun h => h == home || !wants h
      (s.turnsAway die line = true → exec (.permitGetx die line) s = .next (s.reply k line none)) ∧
      (s.turnsAway die line = false → waitsTurn (.permitGetx die line)) ∧
      (∀ seq, s.turnsAway die line = false → inTurn seq →
        ((∃ h ∈ v.holdersOf line, h ≠ k ∧ h ≠ home ∧ wants h = true) →
          exec (.permitGetx die line) s = .next ((t seq).reply k line none)) ∧
        ((∀ h ∈ v.holdersOf line, h = k ∨ h = home ∨ wants h = false) → exec (.permitGetx die line) s =
          .next (if (t seq).permitsAt k line = 32 then (t seq).reply k line (some (0, false)) else t seq)))) ∧
    (k ≠ home → s.letsGo k line s.arrivals = true → (s.slice k).linedUp line = false → s.askOf k line = none →
      Next (exec (.permitPut die line) s) fun u => u.permitsAt k line = 0 ∧ (s.slice k).floor ≤ (u.slice k).floor ∧
        (∀ j, j ≠ k → u.slice j = s.slice j) ∧ u.cores = s.cores ∧ MemoryKept s u) ∧
    (∀ a, s.askOf k line = some a → a.persistent = false →
      (∀ n owner v, a.reply = some (some (n, owner)) → k ≠ home → s.placeLine k line a.pol = some v →
        Next (exec (.permitReply die line) s) fun u => u.permitsAt k line = s.permitsAt k line + n ∧ u.askOf k line = none ∧
          u.cores = s.cores ∧ MemoryKept s u) ∧
      (a.reply = some none → exec (.permitReply die line) s = .next (s.modAsk k line fun a => a.failed s.gtc)) ∧
      (a.reply = none → a.sent + 500 ≤ s.gtc ∨ a.first + 2000 ≤ s.gtc →
        exec (.permitRequestTimeout die line) s = .next ((s.dropPermit k line).modAsk k line fun a => a.failed s.gtc)) ∧
      (a.reply = none → s.gtc < a.sent + 500 → s.gtc < a.first + 2000 → exec (.permitRequestTimeout die line) s = .next s) ∧
      (a.failed s.gtc).fails = a.fails + 1 ∧ (a.failed s.gtc).reply = none ∧
      ((a.failed s.gtc).persistent = true ↔ 3 ≤ a.fails + 1 ∨ a.first + 2000 ≤ s.gtc)) ∧
    (∀ a, s.askOf k line = some a → a.persistent = true → (∀ b ∈ (s.slice k).asks, b.persistent = true → b = a) →
      (s.slice home).persist.any (fun p => p.die == die) = false →
      Next (exec (.persistentRequest die line) s) fun u =>
        (u.slice home).persist = (s.slice home).persist ++
          [{ die := die, line := line, exclusive := a.exclusive, active := false, since := 0 }] ∧ u.cores = s.cores ∧ MemoryKept s u) ∧
    (∀ p, p ∈ (s.slice home).persist → (s.slice home).persist.find? (fun p => p.die == die && p.line == line && p.active) = some p →
      (if p.exclusive then s.permitsAt k line = 32 else s.permitsAt k line ≠ 0) → (s.spent k line = true ∨ (s.slice k).asked line = false) →
      Next (exec (.deactivate die line) s) fun u =>
        (∀ q ∈ (u.slice home).persist, q.die ≠ die) ∧ u.askOf k line = none ∧ u.cores = s.cores ∧ MemoryKept s u) ∧
    (∀ pos p, let h := sliceKey die pos
      (∀ q ∈ (s.slice h).persist, q.active = false) → (s.slice h).nextPersist = some p →
      ∃ v, exec (.persistentActivation die pos) s = .next (v.feedPersist h) ∧
        (v.slice h).persist = (s.slice h).persist.map (fun q => if q.die = p.die then { q with active := true, since := s.arrivals } else q) ∧
        (v.slice h).turn = some p.die ∧ v = s.setSlice h (v.slice h)) ∧
    (∀ pos, let h := sliceKey die pos
      (∃ q ∈ (s.slice h).persist, q.active = true) → exec (.persistentActivation die pos) s = .next (s.feedPersist h))) ∧
  (∀ (line : Nat) (s : State),
    let asked (sn : Snoop) : Bool × State := (s.beginRecall line sn).recallStep line sn
    let ended (sn : Snoop) (u : State) : Prop := (∀ r ∈ u.recalls, ¬ (r.line = line ∧ r.snoop = sn)) ∧ u.cores = s.cores ∧ MemoryKept s u
    (lineZone line = .pool → ∀ toI,
      ((asked (.pool toI)).1 = true → Next (exec (.backInvalidationSnoop line toI) s) fun u =>
        u.poolState.atD line .i = (if toI || s.poolState.atD line .i == .i then .i else .s) ∧ (∀ x ∈ u.stale, x.1 ≠ line) ∧ ended (.pool toI) u) ∧
      ((asked (.pool toI)).1 = false → exec (.backInvalidationSnoop line toI) s = .next (asked (.pool toI)).2)) ∧
    (lineZone line = .host → ∀ high inval,
      ((asked (.host high inval)).1 = true → Next (exec (.hostSnoop line high inval) s) fun u =>
        u.half line (bit01 high) = (if inval || s.half line (bit01 high) == .i then .i else .s) ∧
        u.half line (1 - bit01 high) = s.half line (1 - bit01 high) ∧ ended (.host high inval) u) ∧
      ((asked (.host high inval)).1 = false → exec (.hostSnoop line high inval) s = .next (asked (.host high inval)).2)) ∧
    (∀ sn, (asked sn).2.recalling line = true ∧ (asked sn).2.poolState = s.poolState ∧ (asked sn).2.hostState = s.hostState ∧
      ((∃ k ∈ s.holdersOf line, s.gtcAt (k / 256) < ((s.slice k).lineD line).expmax) → (asked sn).1 = false)))


/-! ## Events of the fabric -/

/-- R293 to R299, R304 to R312, R337: a packet arrives behind the earlier ones of its route; a port passes the packets of its members and
drops others with a notice to the sender, or for a wrong incarnation with a record in the steward log; a request waits at the ingress and is
performed line by line and answered; a reply completes its request, one that comes after 50 µs with TIMEOUT, as does a request without one,
a lane of CFAA at the first wake of its loop of 4 µs after them; a write-combining entry drains after 256 ticks. A token of a released
region meets NO_SLOT, not KEY (R393). The model's choices: packets of key 0 and of the fabric manager at guards and tables (log entry 83),
the guard's test before the others (85), the parts of a transfer (90) and what a request meets at its target (91). -/
def Obligations.PacketAndRequestEvents : Prop :=
  (∀ (t : State) (q : Packet), t.leaveStop 0x3FF q.key q.dstDev = none → t.emit q = { t with wire := t.wire ++ [q] }) ∧
  ∀ (s : State) (p : Packet),
    let v := s.takeFlight p
    let ok (port : Nat) : Bool := v.tenantOk p.key (v.dev.portTenant.atD port 0)
    let stale : Prop := p.body ≠ .management ∧ p.inc ≠ v.dev.incFor p.srcDev
    (∀ port, s.inOrder p = true → s.heldBack p = false →
      let refused : State := v.setDev { v.dev with stewardRecs := v.dev.stewardRecs ++
        [dropRecord (v.gtcAt (port / 9)) (srcPort port) dlIncarnation 1 (placePort port) p] }
      let comes (u : State) : Prop := exec (.linkPacketArrival (.devPort port) p) s = .next u
      (p.key = 0 → (¬ stale → comes (v.acceptPacket port p)) ∧ (stale → comes refused)) ∧
      (p.key ≠ 0 → ok port = false → exec (.linkPacketArrival (.devPort port) p) s =
        .next (v.dropPacket (srcPort port) (v.gtcAt (port / 9)) dlParapet 4 (placeLinkGuard port) p)) ∧
      (p.key ≠ 0 → ok port = true → v.dev.incExchanged = false → comes (v.stewardLog 296)) ∧
      (p.key ≠ 0 → ok port = true → v.dev.incExchanged = true →
        (p.key ∉ v.dev.portKeys.atD port [] →
          (v.orphan p = true → ¬ stale → comes (v.acceptPacket port p)) ∧
          (v.orphan p = false ∨ stale → comes (v.dropPacket (srcPort port) (v.gtcAt (port / 9)) dlKey 1 (placePort port) p))) ∧
        (p.key ∈ v.dev.portKeys.atD port [] → (¬ stale → comes (v.acceptPacket port p)) ∧ (stale → comes refused)))) ∧
    (∀ place, s.inOrder p = false → exec (.linkPacketArrival place p) s = .next s) ∧
    (∀ port n total, p.body = .read 0 n total →
      let d := (s.die (port / 9)).dropStarved p
      ((s.acceptPacket port p).die (port / 9)).ingress = d.ingress ++
        [{ num := d.nextIngress, pkt := p, port := port, avail := n, place := none, done := 0, data := [] }]) ∧
    (∀ port st ca data, p.body = .reply st ca data → (s.acceptPacket port p).dev.arrived = s.dev.arrived ++ [(port, p)]) ∧
    (∀ sw port t, p.body = .token t → s.inOrder p = true → p.key ∈ (v.switch sw).portKeys.atD port [] → p.dstDev ∉ (v.switch sw).dead →
      Next (exec (.linkPacketArrival (.swPort sw port) p) s) fun u => (u.switch sw).out = (v.switch sw).out ++ [p]) ∧
    (∀ tile edge, s.tenantOk p.key (s.dev.tileTenant.atD tile 0) = true →
      exec (.linkPacketArrival (.guardOf tile edge) p) s = .next s) ∧
    (∀ e record, s.dev.arrived.find? (fun e => e.2 == p) = some e → p.body = .deadLetter record →
      exec (.deadLetterNotice p) s = .next ((s.setDev { s.dev with arrived := s.dev.arrived.erase e }).takeNotice p.reqid record)) ∧
    (∀ die idx r, (s.die die).ingress[idx]? = some r → (r.place.isNone && r.needsPage) = false →
      (s.die die).sameLineBefore idx r = false →
      exec (.remoteRequestAtTarget die idx) s = .next (s.serveRemote die idx r) ∧
      ∀ pa cache, r.place = some (pa, cache) →
        let ends (t : State) : State := (t.dropIngress die idx).dropWaits die r.num
        let answers (t : State) (body : PktBody) : State := t.emit (t.ownPacket r.pkt.key r.pkt.srcDev r.pkt.reqid body)
        (∀ data old s', r.pkt.body = .write data →
          s.writeAtOwner die r.num cache (plainLine (lineOf pa) (data.map fun b => (pa % 128 + b.1, b.2)) []) = (.done old, s') →
          s.serveRemote die idx r = answers (ends s') (.ack 0 0 0)) ∧
        (∀ fn b c old s', r.pkt.body = .atomic fn b c →
          s.writeAtOwner die r.num cache (plainLine (lineOf pa) [] [{ addr := pa, fn := fn, b := b, c := c, word := 0, ret := none }]) =
            (.done old, s') →
          s.serveRemote die idx r = answers (ends s') (.reply 0 0 (dataWords (atomBytes fn.toNat / 4) (leNat old)))) ∧
        (∀ off n total bs s', r.pkt.body = .read off n total →
          let m := lineLeft pa (r.avail - r.done)
          let all := if total = 0 then n else total
          m ≠ 0 → s.readAtOwner die r.num pa cache m = (.done bs, s') →
          (r.done + m < all → s.serveRemote die idx r = answers (s'.setIngress die idx (r.past m)) (.part r.done bs)) ∧
          (all ≤ r.done + m → s.serveRemote die idx r = answers (ends s') (.reply 0 0 (wordsOf bs))))) ∧
    (∀ e st ca data, s.dev.arrived.find? (fun e => e.2 == p || sameRoute e.2 p && e.2.reqid == p.reqid) = some e → e.2 = p →
      p.body = .reply st ca data →
      exec (.remoteReply p) s = .next ((s.setDev { s.dev with arrived := s.dev.arrived.erase e }).takeReply p)) ∧
    ((∀ r ∈ s.dev.requests, r.reqid = p.reqid → r.done ≠ none) → s.takeReply p = s) ∧
    (∀ r, s.dev.requests.find? (fun r => r.reqid == p.reqid && r.done.isNone) = some r →
      (s.tileShut p.key r.core = true → s.takeReply p = s.dropAtTile r.core p) ∧
      (s.tileShut p.key r.core = false →
        (s.overdue r = true → s.takeReply p = (s.packetReqs r.reqid).foldl (fun s n => s.failReq n 9 0) s) ∧
        (∀ off bs, s.overdue r = false → p.body = .part off bs → r.bulk = some .rget →
          s.takeReply p = s.modReq r.reqid fun q => { q with data := q.data ++ [(off, bs)] }) ∧
        (∀ st ca data, s.overdue r = false → p.body = .reply st ca data → r.bulk = none → r.kind ≠ .cfaa →
          s.takeReply p = s.closeReq r.reqid st ca (w64 (wordsVal data))))) ∧
    (∀ reqid r, s.dev.requests.find? (fun r => r.reqid == reqid) = some r → r.bulk ≠ some .mcput → s.hasLeft r = true →
      (r.limit ≤ s.gtcAt (dieOf r.core) → exec (.remoteTimeout reqid) s = .next (s.failReq reqid 9 0)) ∧
      (s.gtcAt (dieOf r.core) < r.limit → exec (.remoteTimeout reqid) s = .next s) ∧
      (r.kind ≠ .cfaa → r.limit = r.left + 50000) ∧
      (r.kind = .cfaa → r.lastAsk ≤ r.left + 50000 →
        ∃ n, r.limit = r.lastAsk + 4000 * n ∧ r.left + 50000 ≤ r.limit ∧ r.limit < r.left + 54000)) ∧
    (∀ ci idx e, (s.core ci).wcb[idx]? = some e →
      (e.since + 256 ≤ s.gtcAt (dieOf ci) → exec (.writeCombineDrain ci idx) s = .next (s.drainWc ci idx)) ∧
      (s.gtcAt (dieOf ci) < e.since + 256 → exec (.writeCombineDrain ci idx) s = .next s))

/-- R313 to R317: words of a span arrive in order at its landing buffer, at the first adder on its path, or at the adder that a span
without adders of its own ends at; an adder sums word n of
both streams; a CPYSP.IN takes up to 32 words and their credits return; a failed link breaks the spans that it carries. How the words
of a span are held on their way and at its adders is the model's choice (log entry 93). -/
def Obligations.SpanEvents : Prop :=
  ∀ (i : Nat) (s : State) (x : Span), s.spans[i]? = some x →
    (∀ w ws, x.flight = w :: ws → x.broken = false →
      (x.adders = [] → s.injected x = false → Next (exec (.spanWordArrival i) s) fun u =>
        u.spans[i]? = some { x with flight := ws } ∧
        ((u.core x.consumer).landingOf i).words = ((s.core x.consumer).landingOf i).words ++ [w] ∧ CoresKept s u x.consumer ∧ MemoryKept s u) ∧
      (x.adders ≠ [] ∨ s.injected x = true → Next (exec (.spanWordArrival i) s) fun u =>
        u.spans[i]? = some { x with flight := ws, atAdder := addAt x.atAdder 0 w } ∧
        u.cores = s.cores ∧ MemoryKept s u)) ∧
    (∀ k s', (s.core x.consumer).spanTaker x.handle = some k → k.running = true → k.again = false →
      let y := (s.core x.consumer).landingOf i
      let n := min (min y.words.length 32) ((k.len - k.moved) / 4)
      n ≠ 0 → landBytes s x.consumer k (k.off + k.moved) (y.words.take n) = some s' →
      ∃ v, exec (.spanCreditReturn i) s = .next ((v.setSpan i (x.take (4 * n))).releaseSlots x.producer) ∧
        ((v.core x.consumer).landingOf i).words = ((s'.core x.consumer).landingOf i).words.drop n ∧
        CoresKept s' v x.consumer ∧ MemoryKept s' v) ∧
    (∀ adder fmt other w ws j y z zs, x.adders[adder]? = some (fmt, other) → (x.atAdder[adder]?).getD [] = w :: ws →
      s.spanIx x.region other = some j → s.spans[j]? = some y → (y.atAdder[y.adders.length]?).getD [] = z :: zs → x.broken = false → y.broken = false →
      exec (.pierAdderSum i adder) s = .next (((((s.setSpan j (({ y with atAdder := y.atAdder.set y.adders.length zs } : Span).take 4)).setSpan i
        { x with atAdder := x.atAdder.set adder ws }).spanForward i (adder + 1) (pierSum fmt w z)).releaseSlots y.producer))) ∧
    (∀ a b : Word, pierSum 2 a b = a + b) ∧
    (∀ link, link < 36 → Next (exec (.linkFailure link) s) fun u =>
      u.dev.trihorn.getLsbD link = false ∧ (∀ k, k < 36 → k ≠ link → u.dev.trihorn.getLsbD k = s.dev.trihorn.getLsbD k) ∧
      (x.broken = false → link ∈ x.links → x.region ≠ 0 → ∃ y, u.spans[i]? = some y ∧ y.broken = true ∧ y.flight = []))

/-- R296, R396 to R398: heartbeats, deaths, incarnations and membership; a device declared dead poisons the pool lines it held in
state A, ends its regions, and then takes its incarnation and returns to ROM; in RECOVERY it stays (R430); a failed pool link loses its
regions until it trains again and they are cleared. Which lines are poisoned and the return to ROM are the model's choices (log entry
94). -/
def Obligations.DomainMembershipEvents : Prop :=
  ∀ (s : State),
    (∀ sw dev, Next (exec (.heartbeat sw dev) s) fun u => (u.switch sw).heard.at? dev = some s.gtc ∧ u.cores = s.cores ∧ MemoryKept s u) ∧
    (∀ sw dev t, (s.switch sw).heard.at? dev = some t → dev ∉ (s.switch sw).dead →
      (t + 50000 ≤ s.gtc → Next (exec (.heartbeatTimeout sw dev) s) fun u =>
        (∀ y ∈ u.switches, dev ∈ y.dead) ∧ u.switches.length = s.switches.length ∧ u.cores = s.cores ∧ MemoryKept s u) ∧
      (s.gtc < t + 50000 → exec (.heartbeatTimeout sw dev) s = .next s)) ∧
    (∀ dev, dev ≠ s.dev.devNum → Next (exec (.deathNotice dev) s) fun u => u.dev.incOf.atD dev 0 = s.dev.incOf.atD dev 0 + 1) ∧
    (∀ inc, s.dev.stage ≠ .recovery → Next (exec (.declaredDead inc) s) fun u =>
      (∀ e ∈ s.poolState, e.2 = .a → e.1 ∈ u.poisoned) ∧
      (s.dev.regions = [] → u.dev.inc = inc ∧ u.dev.incExchanged = false ∧ u.dev.stage = .rom ∧ u.dev.restart = none ∧ u.poolState = []) ∧
      (s.dev.regions ≠ [] → u.dev.inc = s.dev.inc ∧ u.dev.stage = s.dev.stage ∧ u.dev.restart = some inc ∧
        ∀ r ∈ u.dev.regions, r.ending = some .aborted)) ∧
    (∀ inc, s.dev.stage = .recovery → exec (.declaredDead inc) s = .next s) ∧
    (∀ own peers, s.dev.stage = .links → exec (.incarnationExchange own peers) s =
      .next (s.setDev { s.dev with inc := own, incOf := peers.foldl (fun m e => m.put 0 e.1 e.2) [], incExchanged := true })) ∧
    (∀ own peers, s.dev.stage = .ready → exec (.incarnationExchange own peers) s =
      .next (s.setDev { s.dev with incOf := peers.foldl (fun m e => m.put 0 e.1 e.2) s.dev.incOf })) ∧
    (∀ port keys, Next (exec (.membershipTableProgram (.devPort port) keys) s) fun u =>
      u.dev.portKeys.atD port [] = keys.take 256 ∧ (∀ q, q ≠ port → u.dev.portKeys.atD q [] = s.dev.portKeys.atD q []) ∧ u.cores = s.cores ∧ MemoryKept s u) ∧
    (∀ sw port keys, Next (exec (.membershipTableProgram (.swPort sw port) keys) s) fun u =>
      (u.switch sw).portKeys.atD port [] = keys.take 256 ∧ u.cores = s.cores ∧ MemoryKept s u) ∧
    (∀ die, Next (exec (.poolLinkFailure die) s) fun u =>
      u.dev.onolo.getLsbD (die % 4) = false ∧ (∀ r, r < s.dev.poolRegions → r % 4 = die % 4 → r ∈ u.dev.lost) ∧ ∀ r ∈ s.dev.lost, r ∈ u.dev.lost) ∧
    (∀ die, Next (exec (.poolLinkRetrain die) s) fun u =>
      u.dev.onolo.getLsbD (die % 4) = true ∧ u.dev.lost = s.dev.lost ∧ u.cores = s.cores ∧ MemoryKept s u)

/-- R318 to R324: the root stamps messages in order and sends one copy to each member; a member takes a message only when its entry
is valid and whole; a gap of 100 µs breaks the group; answers are merged into one receipt, which reaches the sender's tokens, behind its
run of MC_STATUS records where it has one. The model's choices: SRC of the record of a gap (log entry 103), what goes to the steward's
log (105) and the packets of a message (90). -/
def Obligations.MulticastEvents : Prop :=
  ∀ (sw : Nat) (s : State) (p : Packet) (m : McMsg), p.body = .multicast m →
    let x := s.switch sw
    (∀ e t w, x.nextMessage p = some e → wholeMessage p m (x.arrived.map fun y => y.2.2) = some w →
      x.trees.find? (fun t => t.group == w.group) = some t →
      (x.flights.filter fun f => f.group == w.group).length < 64 → x.waits w.group = [] →
      let q : Packet := { p with body := .multicast w }
      Next (exec (.multicastStamp sw p) s) fun u =>
        (u.switch sw).out = x.out ++ t.members.flatMap (fun k =>
          Packet.splitMessage { q with dstDev := k.dev } { w with stamped := true, postmark := t.next }) ∧
        (∀ r, (u.switch sw).tree w.group = some r → r.next = t.next + 1) ∧
        (u.switch sw).flights = x.flights ++ [{ group := t.group, postmark := t.next, stamped := s.gtc, pkt := q, answers := [] }] ∧ u.cores = s.cores ∧ MemoryKept s u) ∧
    (∀ e, x.nextMessage p = some e → wholeMessage p m (x.arrived.map fun y => y.2.2) = none →
      exec (.multicastStamp sw p) s = .next (if x.passed p then s.setSwitch (x.takeMessage p) else s)) ∧
    (∀ group next members, Next (exec (.replicationTreeProgram sw group next members) s) fun u =>
      (u.switch sw).tree group = (if members = [] then none else some { group := group, next := next, members := members }) ∧ u.cores = s.cores ∧ MemoryKept s u) ∧
    (∀ e, s.dev.arrived.find? (fun e => e.2 == p) = some e →
      (∀ w, wholeMessage p m (s.dev.arrived.map fun y => y.2) = some w → exec (.multicastArrival p) s =
        .next (((s.setDev { s.dev with arrived := s.dev.arrived.filter fun y => !sameMessage p y.2 }).mcArrive e.1
          { p with body := .multicast w } w).mcTurns w.group)) ∧
      (wholeMessage p m (s.dev.arrived.map fun y => y.2) = none → exec (.multicastArrival p) s = .next s)) ∧
    (∀ port, let e := s.mcEntry m.group
      let ack (st : Nat) : State := s.mcAnswer p m.group m.postmark st
      ((e.member = false ∨ e.valid = false ∨ e.key ≠ p.key.toNat) → s.mcArrive port p m = ack 10) ∧
      (e.member = true → e.valid = true → e.key = p.key.toNat →
        (e.broken = true → s.mcArrive port p m = ack 11) ∧
        (e.broken = false → 2 ^ 31 ≤ (m.postmark - e.nextpm).toNat → s.mcArrive port p m = s.stewardLog 321) ∧
        (e.broken = false → (m.postmark - e.nextpm).toNat < 2 ^ 31 →
          ∃ h, (s.mcArrive port p m).dev.mcHeld = s.dev.mcHeld ++ [h] ∧ h.group = m.group ∧ h.postmark = m.postmark ∧ h.pkt = p ∧ h.done = 0))) ∧
    (∀ group t, s.dev.mcGap.at? group = some t → t + 100000 ≤ s.gtc → (∀ h ∈ s.dev.mcHeld, h.group = group → h.postmark ≠ (s.mcEntry group).nextpm) →
      ∀ low, minBy? (fun (h : McHeld) => (h.postmark - (s.mcEntry group).nextpm).toNat) (s.dev.mcHeld.filter fun h => h.group == group) = some low →
      let b := (s.mcWrite group 0 (setField (s.rd64 (s.mcAt group 0)).toNat 60 1 1)).mcFlush group 11
      exec (.gapTimerExpiry group) s = .next (b.raise (s.mcEntry group).tasid (srcIngress low.die) low.die .mcGap false false
        (tailOf [(4, low.postmark.toNat), (6, group * 2 ^ 32 + (s.mcEntry group).nextpm.toNat)]) none false).2 ∧
      ∀ h ∈ b.dev.mcHeld, h.group ≠ group) ∧
    (∀ group postmark midx status f k, x.flights.find? (fun f => f.group == group && f.postmark == postmark) = some f →
      ((x.tree group).bind fun t => t.members.find? fun k => k.midx == midx) = some k → k.dev ≠ s.dev.devNum →
      (∀ a ∈ f.answers, a.1 ≠ midx) → s.gtc < f.stamped + 50000 →
      let g : McFlight := { f with answers := f.answers ++ [(midx, status)] }
      let y : Switch := { x with flights := replaceIf (fun z => z.group == group && z.postmark == postmark) (fun _ => g) x.flights }
      exec (.memberAnswer sw group postmark midx status) s = .next (s.setSwitch (if y.complete g then y.receipt g else y))) ∧
    (∀ group postmark f, x.flights.find? (fun f => f.group == group && f.postmark == postmark) = some f →
      (f.stamped + 50000 ≤ s.gtc → exec (.memberAnswerTimeout sw group postmark) s = .next (s.setSwitch (x.receipt f))) ∧
      (s.gtc < f.stamped + 50000 → exec (.memberAnswerTimeout sw group postmark) s = .next s)) ∧
    (∀ q e words ms r, s.dev.arrived.find? (fun e => e.2 == q) = some e → q.body = .receipt words ms →
      s.dev.requests.find? (fun r => r.reqid == q.reqid && r.bulk == some .mcput) = some r →
      let v := s.setDev { s.dev with arrived := s.dev.arrived.erase e }
      let full := ((words[2]?).getD 0).getLsbD 31
      (v.tileShut q.key r.core = true → exec (.returnReceipt q) s = .next (v.dropAtTile r.core q)) ∧
      (v.tileShut q.key r.core = false → full = false → exec (.returnReceipt q) s = .next (v.giveReceipt q.reqid words)) ∧
      (v.tileShut q.key r.core = false → full = true → ms ≠ [] →
        let w := v.mcStatusRun (v.core r.core).cfg.asid (srcPort e.1) (e.1 / 9) ((words[1]?).getD 0) (groupOf r.pkt) ms
        (w.agentDone w.arrivals = true → exec (.returnReceipt q) s = .next (w.giveReceipt q.reqid words)) ∧
        (w.agentDone w.arrivals = false → exec (.returnReceipt q) s = .next (w.setDev { w.dev with
          arrived := w.dev.arrived ++ [(e.1, { q with body := .receipt words [] })] })))) ∧
    (∀ v : DWord, s.dev.mcTab + 2 ^ 17 ≤ 0x6000000000 → (∀ e ∈ s.slices, ∀ q ∈ e.2.queue, q.who ≠ reqSteward) → Next (exec (.mcgrpRevoke v) s) fun u =>
      (u.mcEntry (field v.toNat 0 12)).member = false ∧ (u.mcEntry (field v.toNat 0 12)).valid = (s.mcEntry (field v.toNat 0 12)).valid)

/-- R333 to R335, R337: a switch merges adds to one word within the window, splits the reply so that each requester gets the value
before its addend, and counts what it loses; a merge that needs a record where none is free does not happen, and is counted; a lane
without a reply asks the owner's log every 4 µs. The model's choices: status 0x0C and the empty answer to a query (log entry 98), the
last cycle of a window and a newcomer with 64 constituents (99). -/
def Obligations.CombiningEvents : Prop :=
  ∀ (sw : Nat) (s : State) (p : Packet),
    let x := s.switch sw
    (∀ port e wide cons, p.body = .combine wide cons → x.nextAdd port p = some e →
      let y : Switch := { x with arrived := x.arrived.erase e }
      (x.cen = false → exec (.combiningMerge sw port p) s = .next (s.setSwitch { y with out := y.out ++ [p] })) ∧
      (x.cen = true → x.partner e.2.1 p = none → cons.length < 64 → exec (.combiningMerge sw port p) s =
        .next (s.setSwitch { y with waiting := y.waiting ++ [{ inputs := [e] }] })) ∧
      (x.cen = true → x.partner e.2.1 p = none → 64 ≤ cons.length → exec (.combiningMerge sw port p) s =
        .next (s.setSwitch { y with out := y.out ++ [p] })) ∧
      (∀ i w, x.cen = true → x.partner e.2.1 p = some i → x.waiting[i]? = some w →
        let v := w.join e
        (v.needsRecord = false ∨ w.needsRecord = true ∨ x.recordsUsed < 8192) →
        Next (exec (.combiningMerge sw port p) s) fun u => (u.switch sw).merged = x.merged + 1 ∧ (u.switch sw).ovf = x.ovf ∧
          (v.full = false → (u.switch sw).waiting = x.waiting.set i v ∧ (u.switch sw).out = x.out) ∧
          (v.full = true → (u.switch sw).waiting = x.waiting.eraseIdx i)) ∧
      (∀ i w, x.cen = true → x.partner e.2.1 p = some i → x.waiting[i]? = some w → (w.join e).needsRecord = true → w.needsRecord = false →
        8192 ≤ x.recordsUsed → Next (exec (.combiningMerge sw port p) s) fun u => (u.switch sw).ovf = x.ovf + 1 ∧
          (u.switch sw).out = x.out ++ [p] ∧ (u.switch sw).waiting = x.waiting ∧ (u.switch sw).merged = x.merged)) ∧
    (∀ idx w, x.waiting[idx]? = some w →
      (w.oldest + x.cwin.toNat ≤ s.gtc → exec (.combiningWindowExpiry sw idx) s =
        .next (s.setSwitch (({ x with waiting := x.waiting.eraseIdx idx } : Switch).goOn w))) ∧
      (s.gtc < w.oldest + x.cwin.toNat → exec (.combiningWindowExpiry sw idx) s = .next s)) ∧
    (∀ e st ca data, x.arrived.find? (fun e => e.2.2 == p) = some e → p.body = .reply st ca data →
      (∀ r, x.records.find? (fun r => r.reqid == p.reqid) = some r → Next (exec (.decombineReply sw p) s) fun u =>
        (u.switch sw).out = x.out ++ splitReply p st ca (wordsVal data) r.wide r.inputs ∧ (u.switch sw).records = x.records.erase r) ∧
      ((∀ r ∈ x.records, r.reqid ≠ p.reqid) → Next (exec (.decombineReply sw p) s) fun u =>
        (u.switch sw).lostc = x.lostc + 1 ∧ (u.switch sw).out = x.out)) ∧
    (∀ n1 n2 q1 q2 (a b : DWord) v, splitReply p 0 0 v false [(n1, q1, a, true), (n2, q2, b, true)] =
      [{ p with dstDev := q1.srcDev, reqid := q1.reqid, body := .reply 0 0 [w32 v] },
       { p with dstDev := q2.srcDev, reqid := q2.reqid, body := .reply 0 0 [w32 (v + a.toNat)] }]) ∧
    (∀ idx, idx < x.records.length → Next (exec (.recordError sw idx) s) fun u =>
      (u.switch sw).records = x.records.eraseIdx idx ∧ (u.switch sw).lostc = x.lostc + 1) ∧
    (Next (exec (.switchReset sw) s) fun u => (u.switch sw).records = [] ∧ (u.switch sw).waiting = [] ∧
      (u.switch sw).out = x.out ++ x.waiting.flatMap fun w => w.packets) ∧
    (∀ cen cwin, Next (exec (.combiningControlProgram sw cen cwin) s) fun u => (u.switch sw).cen = cen ∧ (u.switch sw).cwin = cwin ∧
      u.cores = s.cores ∧ MemoryKept s u) ∧
    (∀ reqid r, s.dev.requests.find? (fun r => r.reqid == reqid && r.done.isNone) = some r → r.kind = .cfaa →
      let now := s.gtcAt (dieOf r.core)
      (now < r.lastAsk + 4000 → exec (.cfaaQuery reqid) s = .next s) ∧
      (r.lastAsk + 4000 ≤ now → r.left + 50000 ≤ now → exec (.cfaaQuery reqid) s = .next (s.failReq reqid 9 0)) ∧
      (r.lastAsk + 4000 ≤ now → now < r.left + 50000 → s.leaveStop r.core r.pkt.key r.pkt.dstDev = none →
        Next (exec (.cfaaQuery reqid) s) fun u => u.wire = s.wire ++ [{ r.pkt with body := .query reqid }])) ∧
    (∀ die e n, s.dev.arrived.find? (fun e => e.2 == p) = some e → p.body = .query n → s.ownerDie (e.1 / 9) p = some die →
      let u := s.setDev { s.dev with arrived := s.dev.arrived.erase e }
      exec (.replyLogQuery die p) s = .next (u.emit (u.ownPacket p.key p.srcDev n
        (.reply (if (s.die die).replyLog.any fun y => y.1 == p.srcDev && y.2.1 == p.inc && y.2.2.1 == n then 12 else 0) 0 [])))) ∧
    (∀ die, Next (exec (.replyLogAging die) s) fun u =>
      (u.die die).replyLog = (s.die die).replyLog.filter (fun y => decide (s.gtcAt die < y.2.2.2 + 64000)) ∧ u.cores = s.cores ∧ MemoryKept s u)


/-! ## Events of the package, of configuration and of regions -/

/-- R340, R341, R397, R400, R402, R428 to R437: token ports take whole well-formed tokens in READY while the launch queue has room, and
reject and count the rest: a token before READY, one that finds the queue full, a malformed one, and a write that covers no port whole;
registers take writes as they say; in RECOVERY only DEVSTAT, DEVID and RESETCTL respond; RESETCTL ends the regions, and then the device
returns to ROM; POISON_CLR zeroes its line; the host reads and writes device memory at the home slice of each line; a quote is written, and
then it is done; throttling counts, and ends 1 ms after its condition; bring-up goes from state to state. The model's choices: how units of
the device and the host write (log entry 10), one event for each state of bring-up (136), what RESETCTL clears (137), an access of the
host beyond 384 GiB (139), the sizes of a quote's fields (140), and the throttle condition as events (141). -/
def Obligations.PackageEvents : Prop :=
  ∀ (s : State),
    (∀ (n : Nat) (bs : List Byte), n < 64 → bs.length = 64 → s.dev.stage ≠ .recovery →
      let ws := (List.range 8).map fun k => w64 (leNat ((bs.drop (8 * k)).take 8))
      let taken : Prop := s.dev.stage = .ready ∧ s.dev.restart = none ∧ s.dev.launchq.length < 64 ∧ tokenOk ws = true
      Next (exec (.tokenPost (64 * n) ((List.range 64).map fun i => (i, (bs[i]?).getD 0))) s) fun u => u.cores = s.cores ∧ MemoryKept s u ∧
        (taken → u.dev.launchq = s.dev.launchq ++ [ws] ∧ u.dev.posted = s.dev.posted + 1 ∧ u.dev.rejected = s.dev.rejected) ∧
        (¬ taken → u.dev.launchq = s.dev.launchq ∧ u.dev.posted = s.dev.posted ∧ u.dev.rejected = min (s.dev.rejected + 1) 65535)) ∧
    (s.dev.stage = .recovery → (∀ off bs, exec (.tokenPost off bs) s = .next s) ∧
      (∀ off, off ≠ 0x100000 → off ≠ 0x100008 → s.windowWord off = 0) ∧
      (∀ off v, off < 0x1000000 → off / 8 ≠ 0x100200 / 8 → exec (.registerWrite off v) s = .next s) ∧
      (∀ v w addr bs, ∀ i ∈ [Instr.attCtlGo v, .poisonClr v, .poolRegionClear v, .hostCxlMemAccess addr bs, .quoteDone, .declaredDead w],
        exec i s = .next s)) ∧
    (∀ n k, n < 64 → 0 < k → k < 64 → s.dev.stage ≠ .recovery → Next (exec (.tokenPost (64 * n) ((List.range k).map fun i => (i, 0))) s) fun u =>
      u.dev.launchq = s.dev.launchq ∧ u.dev.posted = s.dev.posted ∧ u.dev.rejected = min (s.dev.rejected + 1) 65535 ∧ u.cores = s.cores ∧ MemoryKept s u) ∧
    (∀ v : DWord, s.dev.stage ≠ .recovery → s.dev.attBusy = false → exec (.attCtlGo v) s = .next (s.setDev { s.dev with
      attQpa := field v.toNat 6 46 * 64, attBusy := v.getLsbD 63, attDone := !v.getLsbD 63 && s.dev.attDone })) ∧
    (s.dev.attBusy = true → ∀ v, exec (.attCtlGo v) s = .next s) ∧
    (Next (exec (.resetctl 0x52455345) s) fun u =>
      (s.dev.regions = [] → u.dev.stage = .rom ∧ u.dev.inc = s.dev.inc + 1 ∧ u.dev.restart = none ∧ u.dev.launchq = [] ∧
        u.dev.posted = 0 ∧ u.dev.rejected = 0 ∧ u.dev.throttles = 0 ∧ u.dev.attBusy = false ∧ u.dev.attDone = false ∧ u.dev.keys = []) ∧
      (s.dev.regions ≠ [] → u.dev.stage = s.dev.stage ∧ u.dev.inc = s.dev.inc ∧ u.dev.restart = some (s.dev.inc + 1) ∧
        ∀ r ∈ u.dev.regions, r.ending = some .aborted)) ∧
    (∀ v, v ≠ 0x52455345 → exec (.resetctl v) s = .next s) ∧
    (∀ k v, k < 4 → s.dev.stage ≠ .recovery → s.dev.attBusy = false → exec (.registerWrite (0x100100 + 8 * k) v) s =
      .next (s.setDev { s.dev with attNonce := BitVec.ofNat 256 (setField s.dev.attNonce.toNat (64 * k) 64 v.toNat) })) ∧
    (∀ ci v r, s.coreRegion? ci = some r →
      exec (.registerWrite (0x1000000 * (ci + 1) + 0x130) v) s = .next (s.setRegion { r with flth := loWord v &&& 0xCFFF0FFF })) ∧
    (∀ v : DWord, s.dev.stage ≠ .recovery → let pa := 0x2000000000000 + field v.toNat 7 39 * 128
      Next (exec (.poisonClr v) s) fun u => pa / 128 ∉ u.poisoned ∧ pa / 128 ∉ u.memErr ∧ u.cores = s.cores ∧ u.dev = s.dev ∧
        (NoneWaits s → (∀ i, i < 128 → u.rdByte (pa + i) = 0) ∧ ∀ a, (a < pa ∨ pa + 128 ≤ a) → u.rdByte a = s.rdByte a)) ∧
    (∀ v : DWord, s.dev.stage ≠ .recovery → let r := v.toNat % 2 ^ 16
      (v.getLsbD 31 = true → s.dev.onolo.getLsbD (r % 4) = true → exec (.poolRegionClear v) s =
        .next (s.setDev { s.dev with lost := s.dev.lost.filter (· != r) })) ∧
      ((v.getLsbD 31 = false ∨ s.dev.onolo.getLsbD (r % 4) = false) → exec (.poolRegionClear v) s = .next s)) ∧
    (∀ (addr : Nat) (bs : List Byte), bs ≠ [] → s.dev.stage ≠ .recovery → addr + bs.length ≤ 0x6000000000 → Next (exec (.hostCxlMemAccess addr bs) s) fun u =>
      u.cores = s.cores ∧ u.dev = s.dev ∧ (NoneWaits s →
        (∀ a, (canonPA a < addr ∨ addr + bs.length ≤ canonPA a) → u.memByte a = s.memByte a) ∧
        ∀ i b, bs[i]? = some b → u.memByte (addr + i) = b ∨
          let ln := lineOf (canonPA (addr + i))
          ∃ q ∈ (u.slice (permitHome s ln)).queue, q.who = reqHost ∧ q.req = .agent ln (linePart addr bs ln))) ∧
    (∀ (addr : Nat) (b : Byte), s.dev.stage ≠ .recovery → addr < 0x6000000000 → s.slices = [] → s.recalls = [] →
      Next (exec (.hostCxlMemAccess addr [b]) s) fun u => u.memByte addr = b) ∧
    (∀ addr, s.dev.stage ≠ .recovery →
      (addr < 0x6000000000 → exec (.hostCxlMemAccess addr []) s = .next (s.lineAgent reqHost (addr / 128) []) ∧
        MemoryKept s (s.lineAgent reqHost (addr / 128) [])) ∧
      (0x6000000000 ≤ addr → exec (.hostCxlMemAccess addr []) s = .next s)) ∧
    (s.dev.attBusy = true → s.dev.stage ≠ .recovery →
      let v := s.agentWrite s.dev.attQpa (s.quoteBody ++ fitBytes 2420 (Config.mlDsaSign (Config.sha3 s.quoteBody)))
      let done (t : State) : State := t.setDev { t.dev with attBusy := false, attDone := true, attWritten := none }
      (s.dev.attWritten = none → (v.agentDone v.arrivals = true → exec .quoteDone s = .next (done v)) ∧
        (v.agentDone v.arrivals = false → exec .quoteDone s = .next (v.setDev { v.dev with attWritten := some v.arrivals }))) ∧
      (∀ n, s.dev.attWritten = some n → (s.agentDone n = true → exec .quoteDone s = .next (done s)) ∧
        (s.agentDone n = false → exec .quoteDone s = .next s)) ∧ s.quoteBody.length = 256) ∧
    (s.dev.throttle = false → exec .throttleAssert s =
      .next (s.setDev { s.dev with regulator := true, throttle := true, throttles := s.dev.throttles + 1 })) ∧
    (s.dev.throttle = true → exec .throttleAssert s = .next (s.setDev { s.dev with regulator := true })) ∧
    (let cool : Prop := s.dev.regulator = false ∧ (∀ t ∈ s.dev.temps, t.2.toInt ≤ 105 * 16) ∧ s.dev.coolSince + 1000000 ≤ s.gtc;
      (cool → exec .throttleClear s = .next (s.setDev { s.dev with throttle := false })) ∧ (¬ cool → exec .throttleClear s = .next s)) ∧
    (∀ f, (s.dev.stage = .rom → s.dev.regions = [] → exec (.powerGoodReset f) s = .next (s.setDev { s.dev with stage := .firmware, keys := [], cause := 0 })) ∧
      (s.dev.stage = .firmware → exec (.powerGoodReset f) s =
        if Config.mlDsaVerify (Config.romKey 1) (Config.sha3 f.firmware) f.firmwareSig then .next (s.setDev { s.dev with stage := .records }) else .next (s.recovery 1)) ∧
      (s.dev.stage = .records → exec (.powerGoodReset f) s = .next (s.takeRecords f)) ∧
      (s.dev.stage = .clocks → f.clocksOk = false → exec (.powerGoodReset f) s = .next (s.recovery 5)) ∧
      (s.dev.stage = .clocks → f.clocksOk = true → exec (.powerGoodReset f) s =
        .next (s.setDev { s.dev with stage := .memory, gtcOn := true, clockMHz := if s.dev.gradeB then 2700 else 3000 })) ∧
      (s.dev.stage = .memory → f.memoryOk = false → exec (.powerGoodReset f) s = .next (s.recovery 6)) ∧
      (s.dev.stage = .memory → f.memoryOk = true → Next (exec (.powerGoodReset f) s) fun u => u.dev.stage = .links ∧ u.slices = [] ∧ MemoryKept s u) ∧
      (s.dev.stage = .links → s.dev.incExchanged = true → exec (.powerGoodReset f) s = .next (s.setDev { s.dev with stage := .ready })) ∧
      (s.dev.stage = .ready ∨ s.dev.stage = .recovery → Next (exec (.powerGoodReset f) s) fun u => u.dev.stage = .rom ∧ u.cores = [] ∧ u.gtc = s.gtc))

/-- R349 to R353: each command at a tile's receiver does what its field says: BEGIN opens a stream over a shadow of the live
configuration, field writes go to the shadow, the second CRC piece gives the verdict, COMMIT, ROLLBACK and ARM act with value 1
outside a stream and are acknowledged; the live configuration changes at ARM alone, which leaves storage zero and waits while an armed
region of the tile is not quiescent. The model's choices: what goes to the steward's log (log entry 105), the fields of an acknowledgement
(108), the ARM that waits (109), and the region in which a tile runs that a steward graph armed (110). -/
def Obligations.ConfigurationStreamEvents : Prop :=
  ∀ (tile : Nat) (s : State) (w : Word) (rest : List Word),
    let c := s.core tile
    let t : CfgStream := { c.stream with cmds := rest }
    let v := s.setCore tile { c with stream := t }
    let isOpen := t.state = .open_
    c.stream.cmds = w :: rest →
    (cmdKind w = .begin_ → Next (exec (.beginStream tile) s) fun u => (u.core tile).stream = t.start c.cfg w ∧ (u.core tile).cfg = c.cfg ∧
      CoresKept s u tile ∧ MemoryKept s u) ∧
    (cmdKind w = .fieldWrite →
      (isOpen → Next (exec (.configFieldWrite tile) s) fun u => (u.core tile).stream = t.write s tile c.cfg w ∧ (u.core tile).cfg = c.cfg ∧
        CoresKept s u tile ∧ MemoryKept s u) ∧
      (¬ isOpen → exec (.configFieldWrite tile) s = .next (v.stewardLog 351))) ∧
    (cmdKind w = .crcLast →
      (isOpen → exec (.crcEnd tile) s = .next (v.acknowledge tile (t.finish c.cfg w) (t.finish c.cfg w).state.status) ∧
        ((t.finish c.cfg w).state = .accepted ↔
          (~~~t.crc).toNat = cmdVal w * 65536 + t.crcLow.getD 0 ∧ t.firstBad (t.shadow.getD c.cfg) = none)) ∧
      (¬ isOpen → exec (.crcEnd tile) s = .next (v.stewardLog 351))) ∧
    (cmdKind w = .commit → ¬ isOpen → cmdVal w = 1 →
      (t.state = .accepted → exec (.commitStream tile) s = .next (v.acknowledge tile { t with state := .committed } 4)) ∧
      (t.state ≠ .accepted → exec (.commitStream tile) s = .next (v.acknowledge tile t t.state.status))) ∧
    (cmdKind w = .rollback → ¬ isOpen → cmdVal w = 1 → t.state ≠ .armed → t.state ≠ .none →
      exec (.rollbackStream tile) s = .next (v.acknowledge tile { t with state := .rolledBack, shadow := none } 6)) ∧
    (cmdKind w = .rollback → ¬ isOpen → cmdVal w = 1 → t.state = .armed ∨ t.state = .none →
      exec (.rollbackStream tile) s = .next (v.acknowledge tile t t.state.status)) ∧
    (cmdKind w = .arm → ¬ isOpen → cmdVal w = 1 →
      (t.state = .committed → s.armBarred tile = true → exec (.armTile tile) s = .next s) ∧
      (t.state = .committed → s.armBarred tile = false → Next (exec (.armTile tile) s) fun u =>
        (u.core tile).cfg = s.fetchSlots (t.shadow.getD c.cfg) ∧ (u.core tile).stream.state = .armed ∧ (u.core tile).frame = [] ∧
        (u.core tile).bufW = [] ∧ (u.core tile).bufA = [] ∧ (u.core tile).bufC = [] ∧ (u.core tile).absent = [] ∧ (u.core tile).entries = [] ∧
        (∀ r, s.coreRegion? tile = some r → r.loose = false → (u.core tile).region = c.region ∧ u.dev.regions = s.dev.regions) ∧
        (c.region = none ∨ (∃ r, s.coreRegion? tile = some r ∧ r.loose = true) → ∃ r ∈ u.dev.regions, r.loose = true ∧ tile ∈ r.cores ∧
          r.asid = (u.core tile).cfg.asid ∧ r.key = (u.core tile).cfg.key ∧ (u.core tile).region = some r.num)) ∧
      (t.state ≠ .committed → exec (.armTile tile) s = .next (v.acknowledge tile t t.state.status)))

/-- R341 to R345, R360 to R364, R373, R391, R402: the steward takes tokens in order, reports failures or arms; two successive equal
sweeps of idle cores that hold no barrier's token make a region quiescent; completion, the swap and the end of a region free its tiles
and write its last word; a reset that waits for the last region follows it (R437). The model's choices: when the report is written
and which failures it holds (log entry 114), the steward graph that waits for its turn and what a RECONFIG meets (118), and which sweeps
are successive (120). -/
def Obligations.LaunchAndRegionEvents : Prop :=
  ∀ (s : State),
    (∀ p ps, s.dev.stewardq = p :: ps → s.stewardFree none = true →
      exec .launch s = .next (((s.setDev { s.dev with stewardq := ps }).armPlan p).2.createSources p)) ∧
    (∀ recPA seq num s', s.dev.stewardq = [] ∨ s.stewardFree none = false → s.launchHead = some (1, recPA, seq, num, s') →
      exec .launch s = .next (match s'.prepare recPA seq none with
        | (.error fs, v) => v.loadFailed recPA seq fs
        | (.ok p, v) => if p.steward = true ∧ (v.stewardFree none = false ∨ v.dev.stewardq ≠ [])
          then v.setDev { v.dev with stewardq := v.dev.stewardq ++ [p] } else (v.armPlan p).2.createSources p)) ∧
    (∀ (p : Plan), let num := s.regionNum
      let u := (s.armPlan p).2
      let armed : State := p.cores.zipIdx.foldl (fun s x => s.armFor p num x.2 x.1) s
      let v := { armed with spans := armed.spans ++ p.newSpans num }.addKey p.key p.tenant
      u = ((v.setDev { v.dev with regions := v.dev.regions ++ [p.region num v.gtc v.trained], nextRegion := num % 65535 + 1 }).agentWrite
        p.reportPA (reportBytes [])).completion p.complPA 1 num p.seq ∧
      u.dev.regions = s.dev.regions ++ [p.region num s.gtc s.trained] ∧ u.spans = s.spans ++ p.newSpans num ∧
      u.dev.keyTenant.atD p.key 0 = p.tenant ∧ (∀ ci ∈ p.cores, (u.core ci).region = some num) ∧
      ((∀ e ∈ s.slices, ∀ q ∈ e.2.queue, q.who ≠ reqSteward) → p.complPA % 8 = 0 → p.complPA + 8 ≤ 0x6000000000 → num < 65536 →
        p.seq < 2 ^ 32 → u.rdNat p.complPA 8 = 2 ^ 56 + num * 2 ^ 32 + p.seq)) ∧
    (∀ recPA seq r s', s.launchHead = some (2, recPA, seq, r.num, s') → s.region? r.num = some r → r.ending = none → r.reconfig = none →
      exec .reconfig s = .next (match s'.prepare recPA seq (some (r.num, r.cores)) with
        | (.error fs, v) => v.loadFailed recPA seq fs
        | (.ok p, v) => match v.region? r.num with
          | some x => (v.setRegion { x with reconfig := some p }).addKey p.key p.tenant
          | none => v)) ∧
    (∀ num r p, s.region? num = some r → r.reconfig = some p → s.quietNow r = true → r.ending = none →
      let v := (s.completion r.complPA (if r.sinksDone then 2 else 5) r.num r.seq).releaseRegion r p.key
      exec (.reconfigSwap num) s = .next (((v.armPlan p).2.releaseHeld p.key).createSources p) ∧ ∀ x ∈ v.dev.regions, x.num ≠ r.num) ∧
    (∀ num r, s.region? num = some r → r.armedAt < s.gtc → (s.gtc - r.armedAt) % 1024 = 0 →
      let t := s.tokenTotals r
      let idle := (∀ ci ∈ r.cores, s.coreIdle r.ending.isSome ci = true) ∧ t.1 = t.2
      let free : Bool := r.ending.isSome || r.cores.all fun ci => !(s.core ci).barrierHold
      let now : Sweep := ⟨s.gtc, t, free⟩
      (idle → (∀ w, r.sweep = some w → w.at_ + 1024 ≠ s.gtc ∨ w.totals ≠ t) →
        exec (.keystoneSweep num) s = .next (s.setRegion { r with sweep := some now, quiescent := false })) ∧
      (∀ w, idle → r.sweep = some w → w.at_ + 1024 = s.gtc → w.totals = t →
        let u := s.setRegion { r with sweep := some now, quiescent := w.idle && free }
        (r.ending ≠ none → exec (.keystoneSweep num) s = .next u) ∧
        (r.ending = none → exec (.keystoneSweep num) s = .next (u.reportStalled r))) ∧
      (¬ idle → exec (.keystoneSweep num) s = .next (s.setRegion { r with sweep := none, quiescent := false }))) ∧
    (∀ num r, s.region? num = some r → s.quietNow r = true → r.sinksDone = true → r.ending = none → r.reconfig = none → r.loose = false →
      exec (.regionComplete num) s = .next (((s.reportStalled r).completion r.complPA 2 r.num r.seq).releaseRegion r 0)) ∧
    (∀ num r, s.region? num = some r → s.quietNow r = true →
      (r.ending = some .aborted → exec (.regionEnd num) s =
        .next (((s.completion r.complPA 4 r.num r.seq).releaseRegion r 0).dropSaves r.num)) ∧
      (∀ bid, r.ending = some (.halted bid) →
        let w := s.reportStalled r
        let v := (w.raiseFor (w.region? r.num) r.asid (srcSteward 0) (w.gtcAt 0) .halted false true (tailOf [(2, bid * 2 ^ 32)]) none true).2
        exec (.regionEnd num) s = .next ((v.completion r.complPA 2 r.num r.seq).releaseRegion r 0))) ∧
    (∀ (r : Region) keep, (∀ x ∈ (s.releaseRegion r keep).dev.regions, x.num ≠ r.num) ∧
      (∀ ci ∈ r.cores, (s.releaseRegion r keep).core ci = (s.core ci).release) ∧
      (∀ inc, s.dev.restart = some inc → (∀ x ∈ s.dev.regions, x.num = r.num) →
        (s.releaseRegion r keep).dev.stage = .rom ∧ (s.releaseRegion r keep).dev.inc = inc ∧ (s.releaseRegion r keep).dev.restart = none) ∧
      (s.dev.restart = none ∨ (∃ x ∈ s.dev.regions, x.num ≠ r.num) → (s.releaseRegion r keep).dev.stage = s.dev.stage)) ∧
    (∀ ci, let c := s.core ci
      (c.rlStart + c.cfg.rlWindow * 64 ≤ s.arith → exec (.rateLimitWindow ci) s =
        .next (s.setCore ci { c with rlStart := c.rlStart + c.cfg.rlWindow * 64, rlCount := 0 })) ∧
      (s.arith < c.rlStart + c.cfg.rlWindow * 64 → exec (.rateLimitWindow ci) s = .next s) ∧
      (∀ r ids, s.coreRegion? ci = some r → c.reserve.length < 16 → Next (exec (.colourReserveRefill ci ids) s) fun u =>
        (u.core ci).reserve.length ≤ 32 ∧ (∀ k ∈ (u.core ci).reserve, k ∈ c.reserve ∨ (k ∈ ids ∧ s.idFree r k = true)) ∧
        (∀ k ∈ c.reserve, k ∈ (u.core ci).reserve) ∧ CoresKept s u ci ∧ MemoryKept s u))

/-- R392 to R395, R402, R403: QUENCH and the pre-emption marker reach a core; a group that has not committed after 20 µs aborts; a
core whose drain is complete writes its section; the steward takes one request after another; the Clolas engine ends a job. The model's
choices: what a core's section waits for (log entry 131), what a restore takes over and copies again (133), the ports that carry a
region's traffic (156) and when PREEMPT ends with MEM_ERROR (179). -/
def Obligations.PreemptionAndClolasEvents : Prop :=
  ∀ (ci : Nat) (s : State),
    let c := s.core ci
    (∀ r, s.coreRegion? ci = some r → (∃ pa, r.ending = some (.saving pa)) ∨ (∃ bid, r.ending = some (.halted bid)) → c.quenched = none →
      exec (.quench ci) s = .next (s.setCore ci { c.failLatch with quenched := some (s.gtcAt (dieOf ci)) }) ∧ c.failLatch.gang = none) ∧
    (∀ gi g t, c.quenched = some t → c.group? gi = some g → g.commit = none →
      (t + 20000 ≤ s.gtcAt (dieOf ci) → Next (exec (.quenchTimeout ci gi) s) fun u =>
        (u.core ci).group? gi = none ∧ (∀ e ∈ (u.core ci).entries, e.1 ∈ g.insts → e.2.phase = .complete) ∧ CoresKept s u ci ∧ MemoryKept s u) ∧
      (s.gtcAt (dieOf ci) < t + 20000 → exec (.quenchTimeout ci gi) s = .next s)) ∧
    (∀ r pa port, s.coreRegion? ci = some r → r.ending = some (.saving pa) →
      Next (exec (.preemptionMarker ci port) s) fun u => port ∈ (u.core ci).markers ∧ (u.core ci).gang = none ∧ CoresKept s u ci ∧ MemoryKept s u) ∧
    (∀ r pa, s.coreRegion? ci = some r → r.ending = some (.saving pa) → s.quietNow r = true → c.quenched ≠ none → (∀ p ∈ s.inPorts r ci, p ∈ c.markers) →
      c.saved = false → (∀ k ∈ r.cores, (s.core k).inbox = []) →
      let v := (s.writeSection pa ((r.cores.findIdx? (· == ci)).getD 0) ci).modCore ci fun c => { c with saved := true }
      ((∀ k ∈ r.cores, (v.core k).saved = true) → exec (.coreSave ci) s = .next (v.finishSave pa r)) ∧
      ((∃ k ∈ r.cores, (v.core k).saved = false) → exec (.coreSave ci) s = .next v)) ∧
    (∀ idx j, s.dev.preempts[idx]? = some j → j.started = false →
      (j.restore = true → ∀ st w1 v, s.restore j = (st, w1, v) → exec (.preemptRequest idx) s =
        .next ((v.setDev { v.dev with preempts := v.dev.preempts.eraseIdx idx }).sysDone j.core j.commit j.due st w1)) ∧
      (j.restore = false → s.region? j.arg = none → exec (.preemptRequest idx) s =
        .next ((s.setDev { s.dev with preempts := s.dev.preempts.eraseIdx idx }).sysDone j.core j.commit j.due 1 0)) ∧
      (∀ r, j.restore = false → s.region? j.arg = some r → r.ending = none → (s.core j.core).region ≠ some r.num → saveAreaOk j.pa r.cores.length = true →
        (s.badRange j.pa (saveLen r.cores.length) = true ∨ s.badRange r.recPA 640 = true → exec (.preemptRequest idx) s =
          .next ((s.setDev { s.dev with preempts := s.dev.preempts.eraseIdx idx }).sysDone j.core j.commit j.due 5 0)) ∧
        (s.badRange j.pa (saveLen r.cores.length) = false → s.badRange r.recPA 640 = false → Next (exec (.preemptRequest idx) s) fun u => u.dev.preempts = s.dev.preempts.set idx { j with started := true } ∧
          (∃ x, u.region? r.num = some x ∧ x.ending = some (.saving j.pa) ∧ x.sweep = none ∧ x.quiescent = false) ∧
          u.mem = (s.saveState j.pa 1 r.cores.length).mem ∧ u.slices = (s.saveState j.pa 1 r.cores.length).slices)) ∧
      (∀ r, j.restore = false → s.region? j.arg = some r → (r.ending ≠ none ∨ (s.core j.core).region = some r.num) →
        exec (.preemptRequest idx) s = .next ((s.setDev { s.dev with preempts := s.dev.preempts.eraseIdx idx }).sysDone j.core j.commit j.due 1 0)) ∧
      (∀ r, j.restore = false → s.region? j.arg = some r → r.ending = none → (s.core j.core).region ≠ some r.num → saveAreaOk j.pa r.cores.length = false →
        exec (.preemptRequest idx) s = .next ((s.setDev { s.dev with preempts := s.dev.preempts.eraseIdx idx }).sysDone j.core j.commit j.due 4 0))) ∧
    (∀ idx core commit asid due key data sig len, s.dev.clolas[idx]? = some (.sigchk core commit asid due key data sig len) →
      let v := s.setDev { s.dev with clolas := s.dev.clolas.eraseIdx idx }
      exec (.clolasVerifyDone idx) s = .next (v.sysDone core commit due (v.sigCheck core asid key data sig len) 0)) ∧
    (∀ idx core commit asid due slot rec_, s.dev.clolas[idx]? = some (.keyset core commit asid due slot rec_) →
      ∀ st v, (s.setDev { s.dev with clolas := s.dev.clolas.eraseIdx idx }).keySet core asid slot rec_ = (st, v) →
        exec (.clolasVerifyDone idx) s = .next (v.sysDone core commit due st 0))


/-! ## The machine as a whole -/

namespace Sys2Proof.Claims

/-- The state in which the turn at the schedule's head moves: the cycle ends first where arithmetic cycles pass, and time passes. -/
def beforeTurn (s : State) (t : Turn) (ts : List Turn) : State :=
  State.pass (if t.cycles = 0 then { s with schedule := ts } else State.endCycle { s with schedule := ts }) t

end Sys2Proof.Claims

open Sys2Proof.Claims

/-- R429, R353, R257, R333, R350: what reset leaves, as far as the rules give it: state ROM, no stream received, gang registers zero,
combining enabled with a window of 32 ticks, no block bound. Memory lists nothing and is in canonical form. The model's choices: a byte
of memory which nothing has written reads zero (log entry 9), stores without a stated reset value are empty (6), and the schedule, empty
at reset, so that the step changes nothing (2). -/
def Obligations.ResetLeavesTheStatedState : Prop :=
  let s := State.reset
  s.dev.stage = .rom ∧ s.dev.cause = 0 ∧ s.dev.launchq = [] ∧ s.dev.regions = [] ∧ s.dev.incExchanged = false ∧
  Memory.wf s.mem = true ∧ (∀ a, s.memByte a = 0) ∧
  (∀ ci, (s.core ci).groups = [] ∧ (s.core ci).entries = [] ∧ (s.core ci).stream.state = .none ∧ (s.core ci).region = none ∧
    (∀ k, ((s.core ci).slot k).bid = 0xFFF) ∧ (∀ t, ((s.core ci).team t).gcount = 0 ∧ ((s.core ci).team t).colour = none)) ∧
  (∀ sw, (s.switch sw).cen = true ∧ (s.switch sw).cwin = 32) ∧ step s = .next s

/-- R40 to R55, R66, R68: words that the chapters write out decode to the instructions they stand for, and words that a row of R68
rejects are refused by that row. -/
def Obligations.WrittenWordsDecode : Prop :=
  decode 128 0x1300301FFFBF0900 = .ok (.add ⟨0, .v 3, .v 1, .zero, .imm 0xFB, .always, .s32, 1, 0⟩) ∧
  decode 128 0x2F2E20405FF70800 = .ok (.cmp ⟨2, .p 2, .v 4, .v 5, .op .zero, .always, .s32, 0, 0⟩) ∧
  decode 128 0x4300908FFFF12800 = .ok (.matchAny ⟨0, .v 9, .v 8, .zero, .op .zero, .pred 1 false, .f32, 0, 0⟩) ∧
  decode 128 0x5B50702FFFF73C00 = .ok (.fcvt ⟨5, .v 7, .v 2, .zero, .op .zero, .always, .bf16, 4, 0⟩) ∧
  decode 128 0x8D00501020376800 = .ok (.rnmad ⟨0, .v 5, .v 1, .v 2, .op (.v 3), .always, .rn32, 0, 0⟩) ∧
  decode 128 0x9510607080A70D30 = .ok (.spmma ⟨1, .v 6, .v 7, .v 8, .v 10, .always, 1, 2, true, 3⟩) ∧
  decode 128 0xA8B070203FF70100 = .ok (.atoma ⟨11, .v 7, .v 2, .v 3, .op .zero, .always, .grp, .rlx, 4, 0, 0⟩) ∧
  decode 128 0xB04040206FF74440 = .ok (.ldg ⟨4, .v 4, .v 2, .v 6, .op .zero, .always, .dev, .acq, 1, 0, 0⟩) ∧
  decode 128 0xC110802030472390 = .ok (.cpytIn ⟨1, .v 8, .v 2, .v 3, .op (.v 4), .always, 2, 3, true, 1⟩) ∧
  decode 128 0xD8001028AFF753C0 = .ok (.cfaa ⟨0, .v 1, .v 2, .k 10, .op .zero, .always, .dom, .rlx, 15, 0, 0⟩) ∧
  decode 128 0x0200011A40076984 = .ok (.send ⟨0, 1, 0, .sp .tag, .v 0, .always, .sp .colour, 0, .dev⟩) ∧
  decode 128 0x0000400008000000 = .ok (.clauseHeader ⟨4, 0, false, 0, false, 1⟩) ∧
  decode 128 0xE3104FFFFFF70880 = .ok (.srrd ⟨1, .v 4, .zero, .zero, .op .zero, .always, 0x110⟩) ∧
  decode 128 0x0F00000000000000 = .error .reservedOp ∧ decode 128 0x1310301FFFBF0900 = .error .reservedFn ∧
  decode 128 0x1300301FFFBF8900 = .error .reservedField ∧ decode 3 0x1300301FFFBF0900 = .error (.operand 3)
/-- R60, R58, R68, R387, R354 to R356: with an empty schedule the issuing group tries its next word: one that the record of a passed
fault names acts as NOP, one that an outstanding operation holds waits, one that R68 accepts has its effect unless its payload finds no
room in the area (R28: then it waits), and one that it rejects takes the ILLEGAL trap. A turn of a core issues for the group that goes before every other ready one; a gated core restarts where a group is ready; a turn of an event has its effect; a turn of a
sensor sets its reading, and throttles where that is above its limit (R435). The model's choices: the schedule and its turns (log entries
2 and 127), and the sizes that fill the payload store and the area (65). -/
def Obligations.AStepRunsTheDecodedWord : Prop :=
  (∀ (s : State) (g : Group), s.schedule = [] → Issuing s g → g.canTry (s.core s.cur.1) = true →
    let c := s.core s.cur.1
    let w := fetchWord c g
    let held := g.interlocked (Fields.ofNat w.toNat)
    (g.passWord = some g.pc → Done s { g with passWord := none } (step s)) ∧
    (g.passWord ≠ some g.pc → held = true → Waits s g (step s)) ∧
    (∀ i, g.passWord ≠ some g.pc → held = false → decode (hdrRegd (c.slotHdr g)) w = .ok i →
      ((∀ t, exec i s = .next t → t.payloadFull s.cur.1 s.cur.2 g = false) → step s = exec i s) ∧
      (∀ t, exec i s = .next t → t.payloadFull s.cur.1 s.cur.2 g = true →
        ∃ u, step s = .next u ∧ (u.core s.cur.1).group? s.cur.2 = some { g with status := .waiting, areaWait := some g.pc } ∧
          (∀ k, k ≠ s.cur.2 → (u.core s.cur.1).group? k = c.group? k) ∧
          ((u.core s.cur.1).outbox = c.outbox) ∧ (g.areaWait = some g.pc → OnlyGroup s s.cur.1 s.cur.2 { g with status := .waiting, areaWait := some g.pc } u))) ∧
    (∀ e, g.passWord ≠ some g.pc → held = false → decode (hdrRegd (c.slotHdr g)) w = .error e → step s = exec (.illegalEncoding w) s)) ∧
  (∀ (s : State) (t : Turn) (ts : List Turn) (e : Instr), s.schedule = t :: ts → t.actor = .event e → e.fields = none →
    step s = exec e (beforeTurn s t ts)) ∧
  (∀ (s : State) (t : Turn) (ts : List Turn) (die : Nat) (x y : BitVec 16), s.schedule = t :: ts →
    let v := beforeTurn s t ts
    let throttled (u : State) : Prop := u.dev.throttle = true ∧ u.dev.throttles = if v.dev.throttle then v.dev.throttles else v.dev.throttles + 1
    (t.actor = .temperature die x → ∃ u, step s = .next u ∧ u.dev.temps.atD die 0 = x ∧ (105 * 16 < x.toInt → throttled u) ∧
      u = v.setDev { v.dev with temps := u.dev.temps, throttle := u.dev.throttle, throttles := u.dev.throttles, coolSince := u.dev.coolSince }) ∧
    (∀ on, t.actor = .regulator on → ∃ u, step s = .next u ∧ u.dev.regulator = on ∧ (on = true → throttled u) ∧
      u = v.setDev { v.dev with regulator := on, throttle := u.dev.throttle, throttles := u.dev.throttles, coolSince := u.dev.coolSince }) ∧
    (t.actor = .power y → step s = .next (v.setDev { v.dev with watts := y }))) ∧
  (∀ (s : State) (t : Turn) (ts : List Turn) (ci : Nat), s.schedule = t :: ts → t.actor = .issue ci →
    let v := beforeTurn s t ts
    ((v.core ci).gate = .gated →
      ((∃ e ∈ (v.core ci).groups, (readyResult exec v ci e.1).isSome = true) → step s = .next (v.modCore ci fun c => { c with gate := .restarting (v.arith + 72) })) ∧
      ((∀ e ∈ (v.core ci).groups, readyResult exec v ci e.1 = none) → step s = .next v)) ∧
    (∀ x, (v.core ci).gate = .restarting x → step s = .next v) ∧
    ∀ x, (v.core ci).gate = .running x →
      let w := (v.core ci).groups.keyList.foldl (tryWait exec ci) v
      let ready := (w.core ci).groups.filter fun e => (readyResult exec w ci e.1).isSome
      (ready = [] → step s = .next w) ∧
      (ready ≠ [] → ∃ e ∈ ready, (∀ o ∈ ready, e.2.before o.2 = true) ∧
        ∃ u, step s = tryGroup exec u ci e.1 ∧ CoresKept w u ci ∧ MemoryKept w u))

/-- The word of a well-formed instruction decodes to that instruction, with every operand, in every block whose register demand
admits it (R40 to R55, R66, R68). -/
def Obligations.DecodeOfEncodeIsTheInstruction : Prop :=
  ∀ (i : Instr) (fs : Fields) (w : DWord) (regd : Nat), i.wellFormed = true → i.fields = some fs → fs.check regd = none →
    encode i = some w → decode regd w = .ok i

/-- A word that decodes is the word of the instruction it decodes to, and that instruction is well formed: no two words mean the
same, and no bit of a word is ignored (R66, R68). -/
def Obligations.EncodeOfDecodeIsTheWord : Prop :=
  ∀ (i : Instr) (w : DWord) (regd : Nat), regd ≤ 128 → decode regd w = .ok i → i.wellFormed = true ∧ encode i = some w

/-- Every step keeps the memory in canonical form: addresses strictly rising, and no listed byte equal to what an unlisted address
reads as. -/
def Obligations.EveryStepKeepsMemoryCanonical : Prop :=
  ∀ (s t : State), memoryCanonical s → step s = .next t → memoryCanonical t

/-- R31, R380, R383, R385, R386: a block fault undoes the group, takes the region's next fault identifier, and, with a handler
enabled, parks the collection with a copy of its record, whose instances leave the group; in the handler block itself, or with no
handler enabled, the region ends. A handler token that a guard drops takes an identifier for its dead letter. The model's choices: the
operations that run on past the abort (log entry 22) and the fault that waits outside a full park (128). -/
def Obligations.BlockFaultParksTheCollection : Prop :=
  ∀ (s : State) (ci gi word : Nat) (f : Flt) (g : Group) (r : Region),
    let c := s.core ci
    c.group? gi = some g → s.coreRegion? ci = some r → r.asid = c.cfg.asid →
    let u := s.takeFault ci gi word f
    (r.flth.getLsbD 31 = true → g.bid ≠ field r.flth.toNat 0 12 →
      (u.core ci).group? gi = none ∧ (∀ k, k ≠ gi → (u.core ci).group? k = c.group? k) ∧
      (∀ x, u.region? r.num = some x → x.ending = r.ending ∧ (x.fid = nextFid r.fid ∨ x.fid = nextFid (nextFid r.fid)) ∧
        ((∀ cj, s.guardStop ci cj = none) → x.fid = nextFid r.fid)) ∧
      (∀ e ∈ (u.core ci).entries, e.1 ∈ g.insts → e.2.phase = .parked r.fid) ∧
      (c.park.length < 64 → ∃ p, (u.core ci).park =
        (c.park.map fun q => if q.claim == some gi then { q with claim := none, verdict := none } else q) ++ [p] ∧ p.fid = r.fid ∧ p.cls = f.cls.code ∧ p.bid = g.bid ∧ p.colour = g.colour ∧
        p.insts = g.insts ∧ p.em = g.emFire ∧ p.word = word ∧ p.resumes = g.resumes ∧ p.record.length = 8 ∧
        p.record[0]? = some (w64 (s.gtcAt (dieOf ci))) ∧ p.record[3]? = some (w64 (f.lanes.toNat * 2 ^ 32 + g.emFire.toNat)) ∧
        p.record[4]? = some (w64 (f.addr % 2 ^ 56)) ∧ p.ops = g.runOn) ∧
      (64 ≤ c.park.length → ∃ p, (u.core ci).parkOver = c.parkOver ++ [p] ∧ p.fid = r.fid ∧ p.insts = g.insts ∧ p.word = word ∧
        (u.core ci).park.length = c.park.length)) ∧
    (r.flth.getLsbD 31 = false ∨ g.bid = field r.flth.toNat 0 12 → (u.core ci).group? gi = none ∧ ∀ x, u.region? r.num = some x → x.ending = some .aborted)

/-- R386, R387: RESUME fires the parked collection again in the lowest free group slot, with one more resume and empty registers;
the operations of the aborted run that still run stay outstanding (R59);
RESUME.PAST lets the word of the record act as NOP in that replay; without a slot the verdict waits in the park entry; ABORT frees
the collection's instances. The model's choices: the operations that run on (log entry 22) and the verdict that waits for a slot (128). -/
def Obligations.ResumeFiresTheParkedCollection : Prop :=
  ∀ (s : State) (ci fid : Nat) (p : ParkEnt),
    let c := s.core ci
    c.park.find? (fun p => p.fid == fid) = some p → p.refill = none →
    (∀ past gi t, c.freeGroup? = some gi → c.teamFor? p.colour = some t →
      c.regsUsed + regsTaken (hdrRegd (c.slot p.bslot).hdr) ≤ 65536 →
      let u := s.resumeParked ci fid past
      ∃ g, (u.core ci).group? gi = some g ∧ g.bid = p.bid ∧ g.bslot = p.bslot ∧ g.colour = p.colour ∧ g.insts = p.insts ∧ g.tags = p.tags ∧
        g.em = p.em ∧ g.pc = 0 ∧ g.status = .ready ∧ g.regs = [] ∧ g.sbuf = [] ∧ g.sendq = [] ∧ g.resumes = min (p.resumes + 1) 255 ∧
        g.stamp = s.gtcAt (dieOf ci) ∧ g.team = t ∧ g.passWord = (if past then some p.word else none) ∧
        (∀ o ∈ p.ops, o.kind.runsOn = true → ∃ x ∈ g.ops, x.num = o.num ∧ x.dead = true) ∧
        (∀ k, k ≠ gi → (u.core ci).group? k = c.group? k) ∧ CoresKept s u ci ∧ MemoryKept s u) ∧
    (∀ past, c.freeGroup? = none → s.resumeParked ci fid past =
      s.setCore ci { c with park := c.park.map fun q => if q.fid == fid then { q with verdict := some past, claim := some 64 } else q }) ∧
    (let u := s.abortParked ci fid;
      (∀ n ∈ p.insts, (u.core ci).entries.at? n = none) ∧ (∀ n e, n ∉ p.insts → c.entries.at? n = some e → (u.core ci).entries.at? n = some e) ∧
      (u.core ci).groups = c.groups ∧ CoresKept s u ci ∧ MemoryKept s u)

/-- R31, R155, R161, R382, R383, R389, R391, R399: a turn of the schedule may be a soft error that is met. A parity error replays the group,
and a bad L1 copy is dropped with a replay of every group that used it; neither counts toward the four aborts, and a committed group
is beyond them. A line of memory reports its error from then on. A frame line that the lanes of a group's next word read faults it with cause DATA, where its offsets pass their checks and no earlier fault may come. Any other
error in a core's storage ends the region. The soft error as a turn, and LANES and ADDR of a frame's readers, are the model's choices (log
entry 61). -/
def Obligations.SoftErrorsAreHandledByPlace : Prop :=
  (∀ (s : State) (t : Turn) (ts : List Turn) (x : SoftError), s.schedule = t :: ts → t.actor = .softError x →
    step s = .next (State.softError x (beforeTurn s t ts))) ∧
  ∀ (s : State) (ci gi : Nat) (g : Group),
    let c := s.core ci
    let again (u : State) : Prop := ∃ h, (u.core ci).group? gi = some h ∧ h.pc = 0 ∧ h.regs = [] ∧ h.sbuf = [] ∧ h.sendq = [] ∧ h.undo = [] ∧
      h.em = g.emFire ∧ h.insts = g.insts ∧ h.replaying = true ∧ h.mismatches = g.mismatches
    c.group? gi = some g →
    (g.commit = none → let u := State.softError (.register ci gi) s
      again u ∧ (∀ k, k ≠ gi → (u.core ci).group? k = c.group? k) ∧ CoresKept s u ci ∧ MemoryKept s u) ∧
    (g.commit ≠ none → State.softError (.register ci gi) s = s) ∧
    (∀ ln, let u := State.softError (.l1 ci ln) s
      (∀ l ∈ (u.core ci).l1, l.line ≠ ln) ∧ (g.commit = none → ln ∈ g.l1used → again u) ∧ CoresKept s u ci ∧ MemoryKept s u) ∧
    (∀ ln, let u := State.softError (.memory ln) s; ln ∈ u.memErr ∧ (∀ x ∈ s.memErr, x ∈ u.memErr) ∧ MemoryKept s u) ∧
    (∀ off, let v : State := { s with cur := (ci, gi) }
      let lanes := frameReaders v c g (off / 128)
      (lanes = 0 → State.softError (.frame ci gi off) s = s) ∧
      (∀ l, leader? lanes = some l → g.canTry c = true → g.interlocked (Fields.ofNat (fetchWord c g).toNat) = false →
        offsetFault v c g (fetchInstr c g) = none → g.mayFault c.nextNum = false →
        State.softError (.frame ci gi off) s =
          { v.takeFault ci gi g.pc { cls := .localAccess, cause := 5, lanes := lanes, addr := off - frameBase c g l } with cur := s.cur })) ∧
    (∀ part off r, s.coreRegion? ci = some r → ∀ x, (State.softError (.sram ci part off) s).region? r.num = some x → x.ending = some .aborted)


/-! ## Results that arrive after issue -/

namespace Sys2Proof.Claims

/-- The operation ends with results: beside what `serveAll` then serves, its group is h, in which the operation is gone and its flag is
counted down, and the other groups, the other cores and memory are as before. -/
def Ends (s : State) (ci gi : Nat) (g : Group) (o : LongOp) (i : Instr) (P : State → Group → Prop) : Prop :=
  ∃ v h, exec i s = .next (v.serveAll ci) ∧ (v.core ci).group? gi = some h ∧ h.ops = g.ops.filter (fun p => p.num != o.num) ∧
    (∀ n, o.flag = some n → h.flags.atD n 0 = g.flags.atD n 0 - 1) ∧ (∀ k, k ≠ gi → (v.core ci).group? k = (s.core ci).group? k) ∧
    CoresKept s v ci ∧ MemoryKept s v ∧ P v h

/-- An operation of a group that runs and has not met a fault, and that may end as soon as it is ready. -/
def Running (c : Core) (gi idx : Nat) (g : Group) (o : LongOp) : Prop :=
  gi < 64 ∧ c.group? gi = some g ∧ g.ops[idx]? = some o ∧ g.ops.find? (fun p => p.num == o.num) = some o ∧ c.opSlot o.num = some (gi, g) ∧
    o.ready = false ∧ o.dead = false ∧ o.flt = none ∧ c.divq.contains o.num = false

/-- No other group locks these lines of a buffer, no earlier copy holds them absent, and no earlier request to them waits. -/
def Free (c : Core) (gi : Nat) (g : Group) (num : Nat) (b : Buf) (lines : List Nat) (write : Bool) : Prop :=
  c.holders gi b lines = [] ∧ ∀ ln ∈ lines, c.presentFor num b ln = true ∧ c.lineBusy num (some (g.stamp, gi)) b ln write = false

/-- From g to h the lanes of the accesses receive `val` in the registers of D; every other register and predicate keeps its value. -/
def Receives (g h : Group) (d : Operand) (n : Nat) (accs : List Access) (val : Access → Nat) : Prop :=
  LaneWrite { h with regs := g.regs, preds := g.preds } h d n (maskOf fun l => accs.any fun a => a.lane == l)
    (fun l => ((accs.find? fun a => a.lane == l).map val).getD 0)

/-- One access a lane; a predicate takes a result of one register only (R160). -/
def LanesApart (o : LongOp) (n : Nat) : Prop :=
  (o.accs.map fun a => a.lane).Nodup ∧ (∀ a ∈ o.accs, a.lane < 32 ∧ a.got = none) ∧ ∀ q, o.dst = .p q → n = 1

/-- R160: the value of loaded bytes, the lowest first: 1 or 2 bytes are widened, by the sign for S. -/
def loaded (size : Nat) (bs : List Byte) : Nat :=
  if size % 8 = 1 then ofIntN (sextN (leNat bs) 8) 32 else if size % 8 = 3 then ofIntN (sextN (leNat bs) 16) 32 else leNat bs

/-- The bytes of an access of a line: those of memory. -/
def bytesAt (s : State) (a : Access) : List Byte := (List.range a.size).map fun i => s.memByte (a.addr + i)

/-- The word of the C buffer at an offset, and the place of word (i, j) of a tile (R246). -/
def wordC (c : Core) (at_ : Nat) : Nat := leNat (c.bufC.readBytes at_ 4)
def tileAtC (m : MatOp) (i j : Nat) : Nat := m.tile + 4 * (i * shapeN m.shape + j)

/-- The elements of A row r and of B column j of a multiplication (R247, R252). -/
def rowA (m : MatOp) (c : Core) (r : Nat) : List Elem :=
  stripElems c.bufA (m.aoff + r * fbAPitch m.fmt) (fbATy m.fmt) (fbK m.fmt) 0 (fbABlen m.fmt)
def colB (m : MatOp) (c : Core) (j : Nat) : List Elem :=
  stripElems c.bufW (m.boff + j * fbBPitch m.fmt) (fbBTy m.fmt) (fbK m.fmt) m.spar (fbBBlen m.fmt)

/-- The operation is alone at the head of the matrix unit's queue, its lines are free, and the tile undo store has room. -/
def Performable (c : Core) (gi : Nat) (g : Group) (o : LongOp) (m : MatOp) (rest : List MatOp) : Prop :=
  o.kind = .matrix ∧ c.matq = m :: rest ∧ m.fused = 0 ∧ m.done = false ∧ m.num = o.num ∧ m.grp = gi ∧ (∀ x ∈ rest, x.num ≠ m.num) ∧
    c.gang = none ∧ c.matOpen m = true ∧ c.holders gi .a (m.lines .a) = [] ∧ c.holders gi .c (m.lines .c) = [] ∧
    c.tileImages + (g.newTileLines m).length ≤ 512

end Sys2Proof.Claims

/-- R252 to R255, R263 to R265, R267, R268: an operation at the head of the matrix unit's queue whose lines are free is performed whole.
A floating multiplication adds to each word of its tile the products of its A row, or of the row that its latch names, and its B column, chunk
after chunk in ascending K, and leaves the words of a null row; RNMMA adds the exact sum of the products to each channel and keeps the
taint; ACCZ writes zero; ACCLD copies eight words to each active lane, and ACCST, .ADD and .RNADD store, add or add as residues the
captured registers; ACCCV converts each word. Each line written has its image in the tile undo store. No other byte of a buffer changes. -/
def Obligations.MatrixOperationsArePerformed : Prop :=
  (∀ (ci gi idx : Nat) (s : State) (g : Group) (o : LongOp) (m : MatOp) (rest : List MatOp),
    let c := s.core ci
    Running c gi idx g o → Performable c gi g o m rest →
    let N := shapeN m.shape
    let M := shapeM m.shape
    let apart : Prop := (m.frag.map fun e => (e.1, e.2.1)).Nodup ∧ ∀ e ∈ m.frag, e.1 < 32 ∧ e.2.1 < 8
    Ends s ci gi g o (.longLatencyCompletion ci gi idx) fun v h =>
      let d := v.core ci
      d.matq = rest ∧ d.bufA = c.bufA ∧ d.bufW = c.bufW ∧ d.frame = c.frame ∧
      h.fpsr = (g.setFl ((m.effect c).2.1 % 2 ^ 32)).fpsr ∧
      (∀ ln, m.writesC = true → ln ∈ m.lines .c → ∃ u ∈ h.tileUndo, u.buf = .c ∧ u.line = ln ∧
        ((∀ y ∈ g.undo ++ g.tileUndo, ¬ (y.buf = .c ∧ y.line = ln)) → u.image = c.lineBytes .c ln)) ∧
      (∀ a, (m.kind.fragment = false → ∀ i j, i < M → j < N → ¬ (tileAtC m i j ≤ a ∧ a < tileAtC m i j + 4)) →
        (∀ e ∈ m.frag, ¬ (m.fragAt e.1 e.2.1 ≤ a ∧ a < m.fragAt e.1 e.2.1 + 4)) → d.bufC.atD a 0 = c.bufC.atD a 0) ∧
      (m.kind = .accz → (m.effect c).2.1 = 0 ∧ ∀ i j, i < M → j < N → wordC d (tileAtC m i j) = 0) ∧
      (m.kind = .mma ∨ m.kind = .spmma → ∀ cl, matClass (fbATy m.fmt) (fbBTy m.fmt) = some cl → ∀ i j, i < M → j < N →
        (∀ r, m.rowOf i = some r → wordC d (tileAtC m i j) =
          (floatElem (chunkLen cl) (wordC c (tileAtC m i j)) (rowA m c r) (colB m c j)).bits % 2 ^ 32) ∧
        (m.rowOf i = none → wordC d (tileAtC m i j) = wordC c (tileAtC m i j))) ∧
      (m.kind = .rnmma → ∀ i j, i < M → j < N →
        (∀ r, m.rowOf i = some r →
          let x := rnRead (wordC c (tileAtC m i j))
          let sum : Int := (((rowA m c r).zip (colB m c j)).map fun e => elemInt e.1 * elemInt e.2).foldl (· + ·) 0
          wordC d (tileAtC m i j) = ((x.c1 + sum) % 1023).toNat + ((x.c2 + sum) % 1024).toNat * 2 ^ 10 +
            ((x.c3 + sum) % 1025).toNat * 2 ^ 20 + bit01 x.taint * 2 ^ 31) ∧
        (m.rowOf i = none → wordC d (tileAtC m i j) = wordC c (tileAtC m i j))) ∧
      (m.kind = .accld → d.bufC = c.bufC ∧ (m.effect c).2.1 = 0 ∧ h.preds = g.preds ∧ ∀ b : Fin 128, m.dst = .v b → b.val + 7 < 128 →
        (∀ l t, l < 32 → laneBit m.active l = true → t < 8 → h.reg (b.val + t) l = w32 (wordC c (m.fragAt l t))) ∧
        (∀ l r, l < 32 → ¬ (laneBit m.active l = true ∧ b.val ≤ r ∧ r < b.val + 8) → h.reg r l = g.reg r l)) ∧
      (m.kind ≠ .accld → h.regs = g.regs ∧ h.preds = g.preds) ∧
      (m.kind = .accst → apart → ∀ e ∈ m.frag, wordC d (m.fragAt e.1 e.2.1) = e.2.2.toNat) ∧
      (m.kind = .accstAdd → apart → ∀ e ∈ m.frag, wordC d (m.fragAt e.1 e.2.1) =
        (fadd fF32 .ne false (fF32.val (wordC c (m.fragAt e.1 e.2.1))) (fF32.val e.2.2.toNat)).bits % 2 ^ 32) ∧
      (m.kind = .accstRn → apart → ∀ e ∈ m.frag, wordC d (m.fragAt e.1 e.2.1) =
        (rnZip (· + ·) (rnRead (wordC c (m.fragAt e.1 e.2.1))) (rnRead e.2.2.toNat)).word % 2 ^ 32) ∧
      (m.kind = .acccvRn → ∀ i j, i < M → j < N → wordC d (tileAtC m i j) =
        (rnScale (Rnd.ofMod (field m.scale.toNat 20 2)) (wordC c (tileAtC m i j)) (field m.scale.toNat 0 20)).bits % 2 ^ 32) ∧
      (m.kind = .acccvSc → ∀ i j, i < M → j < N →
        (bs20 (field m.scale.toNat 0 20) = none → wordC d (tileAtC m i j) = fF32.nanPat) ∧
        (∀ p q, bs20 (field m.scale.toNat 0 20) = some (p, q) → wordC d (tileAtC m i j) =
          (mulScale (Rnd.ofMod (field m.scale.toNat 20 2)) (fF32.val (wordC c (tileAtC m i j))) p q).bits % 2 ^ 32))) ∧
  (∀ (q x : Nat) (a b : List Elem),
    (∀ p ∈ a.zipWith elemProd b, p.isZero = true) → floatElem q x a b = ⟨x, 0⟩) ∧
  (∀ (x : Nat) (ps : List Prod), (∃ p ∈ ps, p.isZero = false) →
    ((∃ f, Prod.nan f ∈ ps) → (chunkAdd x ps).bits = fF32.nanPat) ∧
    (Prod.inf true ∈ ps → Prod.inf false ∈ ps → (chunkAdd x ps).bits = fF32.nanPat ∧ field (chunkAdd x ps).fl 0 1 = 1))

/-- R57, R157, R160, R165, R272, R286, R288: a load whose lines are free reads its bytes, a load that its L1 holds live or that no cache
serves likewise, and a slice gives the bytes that memory holds to every access that waits for them; the group's own earlier stores stand in
their place, the bytes are widened, and D receives them when the flag is counted down. ATOMA applies its operation lane after lane, and
each lane receives the word before its own. R276, R289: an update of a line is performed as one write: its stored bytes come first, then
its operations in order, each on the word that the earlier ones left, and the old values go to the return list that wants them; the rows
are those of R165 on 32-bit words and the 64-bit ones of R289. -/
def Obligations.LoadsDeliverAndAtomicsCompute : Prop :=
  (∀ (ci gi idx : Nat) (s : State) (g : Group) (o : LongOp),
    let c := s.core ci
    Running c gi idx g o →
    (∀ b, o.kind = .bufLoad b → LanesApart o (sizeRegs o.size.toNat) → (∀ a ∈ o.accs, Free c gi g o.num b [a.addr / 128] false) →
      Ends s ci gi g o (.longLatencyCompletion ci gi idx) fun v h =>
        Receives g h o.dst (sizeRegs o.size.toNat) o.accs
          (fun a => loaded o.size.toNat (overlayBytes o.overlay a.addr ((c.buf b).readBytes a.addr a.size))) ∧
        (v.core ci).buf b = c.buf b) ∧
    (∀ noAlloc lru ll, o.kind = .load noAlloc lru ll → LanesApart o (sizeRegs o.size.toNat) →
      ∀ bytes : Access → List Byte,
      (∀ a ∈ o.accs, c.pending (a.addr / 128) = false ∧ c.readFirst gi o.num (a.addr / 128) = false ∧
        ((a.cache = 2 ∧ bytes a = s.uncachedBytes a.addr a.size) ∨
          (noAlloc = false ∧ a.cache = 0 ∧ ∃ l, c.l1Find (s.gtcAt (dieOf ci)) (a.addr / 128) = .live l ∧
            bytes a = lineSlice l.data a.addr a.size))) →
      Ends s ci gi g o (.longLatencyCompletion ci gi idx) fun _ h =>
        Receives g h o.dst (sizeRegs o.size.toNat) o.accs (fun a => loaded o.size.toNat (overlayBytes o.overlay a.addr (bytes a)))) ∧
    (∀ fn bc, o.kind = .atoma fn bc → LanesApart o 1 → bc.length = o.accs.length →
      let lines := dedup (o.accs.map fun a => a.addr / 128)
      Free c gi g o.num .a lines true → (c.takeImages g .a lines).sbOver = false →
      Ends s ci gi g o (.longLatencyCompletion ci gi idx) fun v h =>
        ∃ ms : Nat → NMap Byte, ms 0 = c.bufA ∧ (v.core ci).bufA = ms o.accs.length ∧
          let old (i : Nat) (a : Access) : Word := w32 (leNat ((ms i).readBytes a.addr 4))
          (∀ i a b cmp, o.accs[i]? = some a → bc[i]? = some (b, cmp) →
            ms (i + 1) = (ms i).writeBytes a.addr (natLe 4 (atomaWord fn.toNat (old i a) b cmp).bits)) ∧
          Receives g h o.dst 1 o.accs (fun a => (((o.accs.zipIdx).find? fun e => e.1.lane == a.lane).map fun e => (old e.2 a).toNat).getD 0) ∧
          (∀ ln ∈ lines, ∃ u ∈ h.undo, u.buf = .a ∧ u.line = ln))) ∧
  (∀ (k ci ln num ll : Nat) (noLease lru : Bool) (halves gi : Nat) (s : State) (g : Group) (o : LongOp),
    (s.core ci).opOwner num = some (gi, g, o) → (s.core ci).group? gi = some g → g.ops.find? (fun p => p.num == o.num) = some o →
    let u := s.serveLoad k ci ln num none ll noLease lru halves
    let comes (a : Access) : Prop := a.addr / 128 = ln ∧ a.got = none ∧ a.addr % 128 + a.size ≤ 128 ∧
      (lineZone ln ≠ .host ∨ halves / 2 ^ (a.addr % 128 / 64) % 2 = 1)
    MemoryKept s u ∧ CoresKept s u ci ∧ ∃ (h : Group) (p : LongOp), (u.core ci).group? gi = some h ∧ h.ops.find? (fun p => p.num == o.num) = some p ∧
      p.accs.length = o.accs.length ∧ h.regs = g.regs ∧
      (∀ (i : Nat) (a : Access), o.accs[i]? = some a → ∃ b : Access, p.accs[i]? = some b ∧ (comes a → b = { a with got := some (bytesAt s a) }) ∧
        (a.addr / 128 ≠ ln ∨ a.got ≠ none → b = a)) ∧
      ((∀ a ∈ p.accs, a.got ≠ none) → p.ready = true ∧ p.writes = regWrites o.dst (sizeRegs o.size.toNat)
        (p.accs.map fun a => (a.lane, loaded o.size.toNat (overlayBytes o.overlay a.addr (a.got.getD [])))))) ∧
  (∀ (k ci commit : Nat) (l : SbLine) (s : State),
    (∀ o ∈ l.ops, o.addr / 128 = l.line ∧ o.addr % 128 + atomBytes o.fn.toNat ≤ 128) → canonPA (l.line * 128) = l.line * 128 →
    (l.bytes.map Prod.fst).Pairwise (· < ·) → (∀ e ∈ l.bytes, e.1 < 128) →
    ∃ v : State, s.performUpdate k ci commit l = v.retryLoads ci ∧ (∀ a, canonPA a / 128 ≠ l.line → v.memByte a = s.memByte a) ∧
      ∃ ms : Nat → Nat → Byte,
        let old (i : Nat) (o : AtomOp) : DWord := w64 (leNat ((List.range (atomBytes o.fn.toNat)).map fun j => ms i (o.addr % 128 + j)))
        (∀ n, n < 128 → ms 0 n = ((l.bytes.find? fun e => e.1 == n).map Prod.snd).getD (s.memByte (l.line * 128 + n))) ∧
        (∀ i o n, l.ops[i]? = some o → n < 128 → ms (i + 1) n =
          if o.addr % 128 ≤ n ∧ n < o.addr % 128 + atomBytes o.fn.toNat then
            BitVec.ofNat 8 ((atomNew o.fn.toNat (old i o) o.b o.c).toNat / 2 ^ (8 * (n - o.addr % 128)))
          else ms i n) ∧
        (∀ n, n < 128 → v.memByte (l.line * 128 + n) = ms l.ops.length n) ∧
        (∀ i o, l.ops[i]? = some o → (s.updateBytes l).2[i]? = some (old i o))) ∧
  (∀ (c : Core) (commit id lane : Nat) (o : AtomOp) (old : DWord) (a : AtomRet), o.ret = some (id, lane) → a ∈ c.atomRets →
    a.commit = commit → a.ret = id →
    { a with vals := NMap.ins a.vals lane old, need := a.need - 1 } ∈ (c.addVals commit [o] (some [old])).atomRets) ∧
  (∀ x b cmp : Word,
    let row (fn : Nat) : Nat := (atomaWord fn x b cmp).bits
    row 0 = (x.toNat + b.toNat) % 2 ^ 32 ∧ row 1 = (if x.toInt ≤ b.toInt then x else b).toNat ∧
    row 2 = (if x.toInt ≤ b.toInt then b else x).toNat ∧ row 3 = min x.toNat b.toNat ∧ row 4 = max x.toNat b.toNat ∧
    row 5 = (x &&& b).toNat ∧ row 6 = (x ||| b).toNat ∧ row 7 = (x ^^^ b).toNat ∧ row 8 = b.toNat ∧
    row 9 = (if x = cmp then b else x).toNat ∧
    row 10 = (fadd fF32 .ne false (fF32.val x.toNat) (fF32.val b.toNat)).bits ∧
    (let p := rnRead x.toNat
     let q := rnRead b.toNat
     row 11 = (p.c1 + q.c1) % 1023 + (p.c2 + q.c2) % 1024 * 2 ^ 10 + (p.c3 + q.c3) % 1025 * 2 ^ 20 + bit01 (p.taint || q.taint) * 2 ^ 31)) ∧
  (∀ x b cmp : DWord, (atomNew 12 x b cmp).toNat = (x.toNat + b.toNat) % 2 ^ 64 ∧ atomNew 13 x b cmp = b ∧
    atomNew 14 x b cmp = (if x = cmp then b else x) ∧
    ∀ fn, fn < 12 → (atomNew fn x b cmp).toNat % 2 ^ 32 =
      (atomaWord fn (w32 (x.toNat % 2 ^ 32)) (w32 (b.toNat % 2 ^ 32)) (w32 (cmp.toNat % 2 ^ 32))).bits % 2 ^ 32)

/-! ## The fault record area -/

namespace Sys2Proof.Claims

/-- No write of a unit of the device is lined up, and every place in a slice's queue was taken before now. -/
def NoUnitWrites (s : State) : Prop := ∀ e ∈ s.slices, ∀ q ∈ e.2.queue, q.who ≠ reqSteward ∧ q.seq < s.arrivals

/-- The number of record slots of an ASID's fault record area, and its words WR, RD and LOST, as the device's units read them (R381). -/
def slotsAt (s : State) (f : Nat) : Nat := 2 ^ field (s.rdNat f 8) 0 5
def wrAt (s : State) (f : Nat) : Nat := field (s.rdNat (f + 8) 8) 0 32
def rdAt (s : State) (f : Nat) : Nat := field (s.rdNat (f + 16) 8) 0 32
def lostAt (s : State) (f : Nat) : Nat := field (s.rdNat (f + 24) 8) 0 32

end Sys2Proof.Claims

/-- R380, R381, R384: a record takes the next FID of its region, which skips 0 and 0xFFFF_FFFF; with room in the area it is allocated
by WR and lies at FLOG + 64 + 64 × mod(WR, 2^NLOG), with STAMP, CLASS, PARKED, ENDS, SRC and FID in words 0 and 1 and its tail in words 2
to 7; without room LOST counts it and nothing is written. While HEN = 1 one handler token follows, with the FID and the class in its
payload. The bytes are those that the device's units read: a write may still be lined up behind leases (log entry 10). -/
def Obligations.FaultRecordsReachTheArea : Prop :=
  ∀ (s : State) (asid src stamp : Nat) (cls : Cls) (parked ends : Bool) (tail : List DWord) (r? : Option Region),
    s.ctxValid asid = true → tail.length = 6 → src < 2 ^ 16 → stamp < 2 ^ 64 → (∀ r, r? = some r → r.fid < 2 ^ 32) → NoUnitWrites s →
    let f := s.flog asid
    let n := slotsAt s f
    let rec_ := f + 64 + 64 * (wrAt s f % n)
    let u := (s.recordFor r? asid src stamp cls parked ends tail).2
    let fid := (s.recordFor r? asid src stamp cls parked ends tail).1
    let full : Prop := (wrAt s f + 2 ^ 32 - rdAt s f) % 2 ^ 32 = n
    (∀ i j, i < 64 → j < 64 → canonPA (f + i) ≠ canonPA (rec_ + j)) →
    u.cores = s.cores ∧
    (r? = none → fid = 0 ∧ u.dev = s.dev) ∧
    (∀ r, r? = some r → fid = r.fid ∧ u.dev.regions = s.dev.regions.map fun x => if x.num = r.num then
      { r with fid := if r.fid + 1 ≥ 2 ^ 32 - 1 then 1 else r.fid + 1 } else x) ∧
    (¬ full → wrAt u f = (wrAt s f + 1) % 2 ^ 32 ∧ lostAt u f = lostAt s f ∧ rdAt u f = rdAt s f ∧ slotsAt u f = n ∧
      u.rdNat rec_ 8 = stamp ∧
      field (u.rdNat (rec_ + 8) 8) 56 8 = cls.code ∧ field (u.rdNat (rec_ + 8) 8) 51 1 = bit01 parked ∧
      field (u.rdNat (rec_ + 8) 8) 50 1 = bit01 ends ∧ field (u.rdNat (rec_ + 8) 8) 32 16 = src ∧ field (u.rdNat (rec_ + 8) 8) 0 32 = fid ∧
      (∀ i w, tail[i]? = some w → u.rdNat (rec_ + 16 + 8 * i) 8 = w.toNat) ∧
      (∀ a, (∀ i, i < 4 → canonPA a ≠ canonPA (f + 8 + i)) → (∀ i, i < 64 → canonPA a ≠ canonPA (rec_ + i)) → u.rdByte a = s.rdByte a)) ∧
    (full → lostAt u f = (lostAt s f + 1) % 2 ^ 32 ∧ (∀ a, (∀ i, i < 4 → canonPA a ≠ canonPA (f + 24 + i)) → u.rdByte a = s.rdByte a)) ∧
    (∀ r ci, r? = some r → field r.flth.toNat 31 1 = 0 → (s.raiseFor r? asid src stamp cls parked ends tail (some ci) false).2 = u) ∧
    (∀ r ci dst, r? = some r → field r.flth.toNat 31 1 = 1 →
      u.homeCore r ci (field r.flth.toNat 0 12) (s.core ci).cfg.core = some dst → u.handlerStop r (some ci) dst = none →
      let t := (s.raiseFor r? asid src stamp cls parked ends tail (some ci) false).2
      ∃ x, (t.core dst).inbox = (s.core dst).inbox ++ [x] ∧ CoresKept s t dst ∧ x.tok.kind = .handler ∧
        x.tok.blk.toNat = field r.flth.toNat 0 12 ∧ x.tok.slot = 0 ∧ x.tok.colour.toNat = field r.flth.toNat 16 12 ∧ x.tok.rscope = .dev ∧
        x.tok.tag = w32 (s.core ci).cfg.core ∧
        x.tok.payload = [w32 r.fid, w32 (cls.code * 2 ^ 24 + bit01 parked * 2 ^ 19 + bit01 ends * 2 ^ 18)] ∧ x.after = u.arrivals)
end

