-- ==== Sys2Proof/Laws/Maps.lean ====
section
/-! SUPPORT. Laws of sparse maps and of byte memory: a read after a write, and the canonical form. -/

namespace Sys2Proof

/-! ## Reading after writing -/

theorem NMap.at?_ins_same {α : Type} (m : NMap α) (k : Nat) (v : α) : (m.ins k v).at? k = some v := by
  induction m with
  | nil => simp [NMap.ins, NMap.at?]
  | cons e m ih =>
    obtain ⟨j, w⟩ := e
    unfold NMap.ins
    split
    · simp [NMap.at?]
    · split
      · simp [NMap.at?]
      · next h => simp [NMap.at?, ih]; intro h'; exact absurd h'.symm h

theorem NMap.at?_ins_other {α : Type} (m : NMap α) (k j : Nat) (v : α) (h : j ≠ k) : (m.ins k v).at? j = m.at? j := by
  induction m with
  | nil => simp [NMap.ins, NMap.at?, h.symm]
  | cons e m ih =>
    obtain ⟨i, w⟩ := e
    unfold NMap.ins
    split
    · simp [NMap.at?, h.symm]
    · split
      · next h' => subst h'; simp [NMap.at?, h.symm]
      · simp [NMap.at?, ih]

theorem NMap.at?_del_same {α : Type} (m : NMap α) (k : Nat) : (m.del k).at? k = none := by
  induction m with
  | nil => rfl
  | cons e m ih =>
    obtain ⟨j, w⟩ := e
    unfold NMap.del at *
    by_cases h : j = k <;> simp_all [NMap.at?]

theorem NMap.at?_del_other {α : Type} (m : NMap α) (k j : Nat) (h : j ≠ k) : (m.del k).at? j = m.at? j := by
  induction m with
  | nil => rfl
  | cons e m ih =>
    obtain ⟨i, w⟩ := e
    unfold NMap.del at *
    by_cases h' : i = k
    · subst h'; simp [NMap.at?, h.symm, ih]
    · simp [NMap.at?, h', ih]

/-- A read of the key just written gives the value written, whether or not it is the default. -/
theorem NMap.atD_put_same {α : Type} [DecidableEq α] (d : α) (m : NMap α) (k : Nat) (v : α) :
    (NMap.put d m k v).atD k d = v := by
  unfold NMap.put NMap.atD
  split
  · next h => simp [NMap.at?_del_same, h]
  · simp [NMap.at?_ins_same]

/-- A write leaves every other key alone. -/
theorem NMap.atD_put_other {α : Type} [DecidableEq α] (d e : α) (m : NMap α) (k j : Nat) (v : α) (h : j ≠ k) :
    (NMap.put d m k v).atD j e = m.atD j e := by
  unfold NMap.put NMap.atD
  split
  · rw [NMap.at?_del_other _ _ _ h]
  · rw [NMap.at?_ins_other _ _ _ _ h]

theorem NMap.atD_put {α : Type} [DecidableEq α] (d : α) (m : NMap α) (k j : Nat) (v : α) :
    (NMap.put d m k v).atD j d = if j = k then v else m.atD j d := by
  by_cases h : j = k
  · subst h; simp [NMap.atD_put_same]
  · simp [h, NMap.atD_put_other]

/-! ## The canonical form -/

theorem NMap.rising_mono {α : Type} (m : NMap α) (a b : Nat) (h : a ≤ b) (hm : NMap.rising b m = true) : NMap.rising a m = true := by
  cases m with
  | nil => rfl
  | cons e m => obtain ⟨k, v⟩ := e; simp [NMap.rising] at *; exact ⟨le_trans h hm.1, hm.2⟩

theorem NMap.rising_ins {α : Type} (m : NMap α) (lo k : Nat) (v : α) (hk : lo ≤ k) (hm : NMap.rising lo m = true) :
    NMap.rising lo (m.ins k v) = true := by
  induction m generalizing lo with
  | nil => simp [NMap.ins, NMap.rising, hk]
  | cons e m ih =>
    obtain ⟨j, w⟩ := e
    simp [NMap.rising] at hm
    unfold NMap.ins
    split
    · simp [NMap.rising]; exact ⟨hk, by omega, hm.2⟩
    · split
      · next h => subst h; simp [NMap.rising]; exact ⟨hk, hm.2⟩
      · simp [NMap.rising]; exact ⟨hm.1, ih (j + 1) (by omega) hm.2⟩

theorem NMap.rising_del {α : Type} (m : NMap α) (lo k : Nat) (hm : NMap.rising lo m = true) : NMap.rising lo (m.del k) = true := by
  induction m generalizing lo with
  | nil => rfl
  | cons e m ih =>
    obtain ⟨j, w⟩ := e
    simp [NMap.rising] at hm
    have ih' := ih (j + 1) hm.2
    unfold NMap.del at *
    by_cases h : j = k
    · simp [h] at *; exact NMap.rising_mono _ lo (k + 1) (by omega) ih'
    · simp [h, NMap.rising]; exact ⟨hm.1, ih'⟩

theorem NMap.mem_ins {α : Type} (m : NMap α) (k : Nat) (v : α) (e : Nat × α) (h : e ∈ m.ins k v) : e = (k, v) ∨ e ∈ m := by
  induction m with
  | nil => simp [NMap.ins] at h; exact .inl h
  | cons x m ih =>
    obtain ⟨j, w⟩ := x
    unfold NMap.ins at h
    split at h
    · simp at h ⊢; tauto
    · split at h
      · simp at h ⊢; tauto
      · simp at h ⊢
        rcases h with h | h
        · exact .inr (.inl h)
        · rcases ih h with h | h <;> tauto

/-- A write keeps the canonical form. -/
theorem NMap.canon_put {α : Type} [DecidableEq α] (d : α) (m : NMap α) (k : Nat) (v : α) (hm : NMap.canon d m = true) :
    NMap.canon d (NMap.put d m k v) = true := by
  simp only [NMap.canon, Bool.and_eq_true, List.all_eq_true] at hm ⊢
  unfold NMap.put
  split
  · refine ⟨NMap.rising_del m 0 k hm.1, fun e he => hm.2 e ?_⟩
    exact (List.mem_filter.mp he).1
  · next h =>
    refine ⟨NMap.rising_ins m 0 k v (Nat.zero_le _) hm.1, fun e he => ?_⟩
    rcases NMap.mem_ins m k v e he with rfl | he
    · simpa using h
    · exact hm.2 e he

/-! ## Memory -/

theorem Memory.read_write_same (m : List Host.Cell) (a : Nat) (b : Byte) : Memory.read (Memory.write m a b) a = b :=
  NMap.atD_put_same _ m a b

theorem Memory.read_write_other (m : List Host.Cell) (a c : Nat) (b : Byte) (h : c ≠ a) :
    Memory.read (Memory.write m a b) c = Memory.read m c := NMap.atD_put_other _ _ m a c b h

theorem Memory.wf_write (m : List Host.Cell) (a : Nat) (b : Byte) (h : Memory.wf m = true) : Memory.wf (Memory.write m a b) = true :=
  NMap.canon_put _ m a b h

theorem Memory.wf_writeBytes (bs : List Byte) (m : List Host.Cell) (a : Nat) (h : Memory.wf m = true) :
    Memory.wf (Memory.writeBytes m a bs) = true := by
  induction bs generalizing m a with
  | nil => exact h
  | cons b bs ih => exact ih _ _ (Memory.wf_write m a b h)

theorem Memory.read_writeBytes_other (bs : List Byte) (m : List Host.Cell) (a c : Nat) (h : c < a ∨ a + bs.length ≤ c) :
    Memory.read (Memory.writeBytes m a bs) c = Memory.read m c := by
  induction bs generalizing m a with
  | nil => rfl
  | cons b bs ih =>
    simp only [List.length_cons] at h
    rw [Memory.writeBytes, ih _ _ (by omega), Memory.read_write_other _ _ _ _ (by omega)]

theorem Memory.read_writeBytes (bs : List Byte) (m : List Host.Cell) (a i : Nat) (h : i < bs.length) :
    Memory.read (Memory.writeBytes m a bs) (a + i) = bs[i] := by
  induction bs generalizing m a i with
  | nil => simp at h
  | cons b bs ih =>
    cases i with
    | zero => rw [Memory.writeBytes, Memory.read_writeBytes_other _ _ _ _ (by omega)]; exact Memory.read_write_same m a b
    | succ i =>
      have := ih (Memory.write m a b) (a + 1) i (by simpa using h)
      rw [Memory.writeBytes, show a + (i + 1) = a + 1 + i by omega, this]; rfl

end Sys2Proof
end

