-- ==== Sys2Proof/Laws/State.lean ====
section
/-! SUPPORT. One lemma for each field that an update of the state, of a core or of a group leaves alone, and for the field that
it writes, so that no later proof unfolds a record update. -/

namespace Sys2Proof.Machine

/-! ## Updates of the state -/

@[simp] theorem State.setCore_schedule (s : State) (ci : Nat) (c : Core) : (s.setCore ci c).schedule = s.schedule := rfl
@[simp] theorem State.setCore_cur (s : State) (ci : Nat) (c : Core) : (s.setCore ci c).cur = s.cur := rfl
@[simp] theorem State.setCore_freeCount (s : State) (ci : Nat) (c : Core) : (s.setCore ci c).freeCount = s.freeCount := rfl
@[simp] theorem State.setCore_gtc (s : State) (ci : Nat) (c : Core) : (s.setCore ci c).gtc = s.gtc := rfl
@[simp] theorem State.setCore_arith (s : State) (ci : Nat) (c : Core) : (s.setCore ci c).arith = s.arith := rfl
@[simp] theorem State.setCore_mesh (s : State) (ci : Nat) (c : Core) : (s.setCore ci c).mesh = s.mesh := rfl
@[simp] theorem State.setCore_arrivals (s : State) (ci : Nat) (c : Core) : (s.setCore ci c).arrivals = s.arrivals := rfl
@[simp] theorem State.setCore_mem (s : State) (ci : Nat) (c : Core) : (s.setCore ci c).mem = s.mem := rfl
@[simp] theorem State.setCore_stale (s : State) (ci : Nat) (c : Core) : (s.setCore ci c).stale = s.stale := rfl
@[simp] theorem State.setCore_poisoned (s : State) (ci : Nat) (c : Core) : (s.setCore ci c).poisoned = s.poisoned := rfl
@[simp] theorem State.setCore_memErr (s : State) (ci : Nat) (c : Core) : (s.setCore ci c).memErr = s.memErr := rfl
@[simp] theorem State.setCore_dev (s : State) (ci : Nat) (c : Core) : (s.setCore ci c).dev = s.dev := rfl
@[simp] theorem State.setCore_dies (s : State) (ci : Nat) (c : Core) : (s.setCore ci c).dies = s.dies := rfl
@[simp] theorem State.setCore_slices (s : State) (ci : Nat) (c : Core) : (s.setCore ci c).slices = s.slices := rfl
@[simp] theorem State.setCore_poolState (s : State) (ci : Nat) (c : Core) : (s.setCore ci c).poolState = s.poolState := rfl
@[simp] theorem State.setCore_hostState (s : State) (ci : Nat) (c : Core) : (s.setCore ci c).hostState = s.hostState := rfl
@[simp] theorem State.setCore_recalls (s : State) (ci : Nat) (c : Core) : (s.setCore ci c).recalls = s.recalls := rfl
@[simp] theorem State.setCore_transit (s : State) (ci : Nat) (c : Core) : (s.setCore ci c).transit = s.transit := rfl
@[simp] theorem State.setCore_wire (s : State) (ci : Nat) (c : Core) : (s.setCore ci c).wire = s.wire := rfl
@[simp] theorem State.setCore_spans (s : State) (ci : Nat) (c : Core) : (s.setCore ci c).spans = s.spans := rfl
@[simp] theorem State.setCore_switches (s : State) (ci : Nat) (c : Core) : (s.setCore ci c).switches = s.switches := rfl
@[simp] theorem State.modCore_schedule (s : State) (ci : Nat) (f : Core → Core) : (s.modCore ci f).schedule = s.schedule := rfl
@[simp] theorem State.modCore_cur (s : State) (ci : Nat) (f : Core → Core) : (s.modCore ci f).cur = s.cur := rfl
@[simp] theorem State.modCore_freeCount (s : State) (ci : Nat) (f : Core → Core) : (s.modCore ci f).freeCount = s.freeCount := rfl
@[simp] theorem State.modCore_gtc (s : State) (ci : Nat) (f : Core → Core) : (s.modCore ci f).gtc = s.gtc := rfl
@[simp] theorem State.modCore_arith (s : State) (ci : Nat) (f : Core → Core) : (s.modCore ci f).arith = s.arith := rfl
@[simp] theorem State.modCore_mesh (s : State) (ci : Nat) (f : Core → Core) : (s.modCore ci f).mesh = s.mesh := rfl
@[simp] theorem State.modCore_arrivals (s : State) (ci : Nat) (f : Core → Core) : (s.modCore ci f).arrivals = s.arrivals := rfl
@[simp] theorem State.modCore_mem (s : State) (ci : Nat) (f : Core → Core) : (s.modCore ci f).mem = s.mem := rfl
@[simp] theorem State.modCore_stale (s : State) (ci : Nat) (f : Core → Core) : (s.modCore ci f).stale = s.stale := rfl
@[simp] theorem State.modCore_poisoned (s : State) (ci : Nat) (f : Core → Core) : (s.modCore ci f).poisoned = s.poisoned := rfl
@[simp] theorem State.modCore_memErr (s : State) (ci : Nat) (f : Core → Core) : (s.modCore ci f).memErr = s.memErr := rfl
@[simp] theorem State.modCore_dev (s : State) (ci : Nat) (f : Core → Core) : (s.modCore ci f).dev = s.dev := rfl
@[simp] theorem State.modCore_dies (s : State) (ci : Nat) (f : Core → Core) : (s.modCore ci f).dies = s.dies := rfl
@[simp] theorem State.modCore_slices (s : State) (ci : Nat) (f : Core → Core) : (s.modCore ci f).slices = s.slices := rfl
@[simp] theorem State.modCore_poolState (s : State) (ci : Nat) (f : Core → Core) : (s.modCore ci f).poolState = s.poolState := rfl
@[simp] theorem State.modCore_hostState (s : State) (ci : Nat) (f : Core → Core) : (s.modCore ci f).hostState = s.hostState := rfl
@[simp] theorem State.modCore_recalls (s : State) (ci : Nat) (f : Core → Core) : (s.modCore ci f).recalls = s.recalls := rfl
@[simp] theorem State.modCore_transit (s : State) (ci : Nat) (f : Core → Core) : (s.modCore ci f).transit = s.transit := rfl
@[simp] theorem State.modCore_wire (s : State) (ci : Nat) (f : Core → Core) : (s.modCore ci f).wire = s.wire := rfl
@[simp] theorem State.modCore_spans (s : State) (ci : Nat) (f : Core → Core) : (s.modCore ci f).spans = s.spans := rfl
@[simp] theorem State.modCore_switches (s : State) (ci : Nat) (f : Core → Core) : (s.modCore ci f).switches = s.switches := rfl
@[simp] theorem State.setGroup_schedule (s : State) (ci gi : Nat) (g : Group) : (s.setGroup ci gi g).schedule = s.schedule := rfl
@[simp] theorem State.setGroup_cur (s : State) (ci gi : Nat) (g : Group) : (s.setGroup ci gi g).cur = s.cur := rfl
@[simp] theorem State.setGroup_freeCount (s : State) (ci gi : Nat) (g : Group) : (s.setGroup ci gi g).freeCount = s.freeCount := rfl
@[simp] theorem State.setGroup_gtc (s : State) (ci gi : Nat) (g : Group) : (s.setGroup ci gi g).gtc = s.gtc := rfl
@[simp] theorem State.setGroup_arith (s : State) (ci gi : Nat) (g : Group) : (s.setGroup ci gi g).arith = s.arith := rfl
@[simp] theorem State.setGroup_mesh (s : State) (ci gi : Nat) (g : Group) : (s.setGroup ci gi g).mesh = s.mesh := rfl
@[simp] theorem State.setGroup_arrivals (s : State) (ci gi : Nat) (g : Group) : (s.setGroup ci gi g).arrivals = s.arrivals := rfl
@[simp] theorem State.setGroup_mem (s : State) (ci gi : Nat) (g : Group) : (s.setGroup ci gi g).mem = s.mem := rfl
@[simp] theorem State.setGroup_stale (s : State) (ci gi : Nat) (g : Group) : (s.setGroup ci gi g).stale = s.stale := rfl
@[simp] theorem State.setGroup_poisoned (s : State) (ci gi : Nat) (g : Group) : (s.setGroup ci gi g).poisoned = s.poisoned := rfl
@[simp] theorem State.setGroup_memErr (s : State) (ci gi : Nat) (g : Group) : (s.setGroup ci gi g).memErr = s.memErr := rfl
@[simp] theorem State.setGroup_dev (s : State) (ci gi : Nat) (g : Group) : (s.setGroup ci gi g).dev = s.dev := rfl
@[simp] theorem State.setGroup_dies (s : State) (ci gi : Nat) (g : Group) : (s.setGroup ci gi g).dies = s.dies := rfl
@[simp] theorem State.setGroup_slices (s : State) (ci gi : Nat) (g : Group) : (s.setGroup ci gi g).slices = s.slices := rfl
@[simp] theorem State.setGroup_poolState (s : State) (ci gi : Nat) (g : Group) : (s.setGroup ci gi g).poolState = s.poolState := rfl
@[simp] theorem State.setGroup_hostState (s : State) (ci gi : Nat) (g : Group) : (s.setGroup ci gi g).hostState = s.hostState := rfl
@[simp] theorem State.setGroup_recalls (s : State) (ci gi : Nat) (g : Group) : (s.setGroup ci gi g).recalls = s.recalls := rfl
@[simp] theorem State.setGroup_transit (s : State) (ci gi : Nat) (g : Group) : (s.setGroup ci gi g).transit = s.transit := rfl
@[simp] theorem State.setGroup_wire (s : State) (ci gi : Nat) (g : Group) : (s.setGroup ci gi g).wire = s.wire := rfl
@[simp] theorem State.setGroup_spans (s : State) (ci gi : Nat) (g : Group) : (s.setGroup ci gi g).spans = s.spans := rfl
@[simp] theorem State.setGroup_switches (s : State) (ci gi : Nat) (g : Group) : (s.setGroup ci gi g).switches = s.switches := rfl
@[simp] theorem State.setSlice_schedule (s : State) (k : Nat) (x : Slice) : (s.setSlice k x).schedule = s.schedule := rfl
@[simp] theorem State.setSlice_cur (s : State) (k : Nat) (x : Slice) : (s.setSlice k x).cur = s.cur := rfl
@[simp] theorem State.setSlice_freeCount (s : State) (k : Nat) (x : Slice) : (s.setSlice k x).freeCount = s.freeCount := rfl
@[simp] theorem State.setSlice_gtc (s : State) (k : Nat) (x : Slice) : (s.setSlice k x).gtc = s.gtc := rfl
@[simp] theorem State.setSlice_arith (s : State) (k : Nat) (x : Slice) : (s.setSlice k x).arith = s.arith := rfl
@[simp] theorem State.setSlice_mesh (s : State) (k : Nat) (x : Slice) : (s.setSlice k x).mesh = s.mesh := rfl
@[simp] theorem State.setSlice_arrivals (s : State) (k : Nat) (x : Slice) : (s.setSlice k x).arrivals = s.arrivals := rfl
@[simp] theorem State.setSlice_mem (s : State) (k : Nat) (x : Slice) : (s.setSlice k x).mem = s.mem := rfl
@[simp] theorem State.setSlice_stale (s : State) (k : Nat) (x : Slice) : (s.setSlice k x).stale = s.stale := rfl
@[simp] theorem State.setSlice_poisoned (s : State) (k : Nat) (x : Slice) : (s.setSlice k x).poisoned = s.poisoned := rfl
@[simp] theorem State.setSlice_memErr (s : State) (k : Nat) (x : Slice) : (s.setSlice k x).memErr = s.memErr := rfl
@[simp] theorem State.setSlice_dev (s : State) (k : Nat) (x : Slice) : (s.setSlice k x).dev = s.dev := rfl
@[simp] theorem State.setSlice_cores (s : State) (k : Nat) (x : Slice) : (s.setSlice k x).cores = s.cores := rfl
@[simp] theorem State.setSlice_dies (s : State) (k : Nat) (x : Slice) : (s.setSlice k x).dies = s.dies := rfl
@[simp] theorem State.setSlice_poolState (s : State) (k : Nat) (x : Slice) : (s.setSlice k x).poolState = s.poolState := rfl
@[simp] theorem State.setSlice_hostState (s : State) (k : Nat) (x : Slice) : (s.setSlice k x).hostState = s.hostState := rfl
@[simp] theorem State.setSlice_recalls (s : State) (k : Nat) (x : Slice) : (s.setSlice k x).recalls = s.recalls := rfl
@[simp] theorem State.setSlice_transit (s : State) (k : Nat) (x : Slice) : (s.setSlice k x).transit = s.transit := rfl
@[simp] theorem State.setSlice_wire (s : State) (k : Nat) (x : Slice) : (s.setSlice k x).wire = s.wire := rfl
@[simp] theorem State.setSlice_spans (s : State) (k : Nat) (x : Slice) : (s.setSlice k x).spans = s.spans := rfl
@[simp] theorem State.setSlice_switches (s : State) (k : Nat) (x : Slice) : (s.setSlice k x).switches = s.switches := rfl
@[simp] theorem State.setDie_schedule (s : State) (d : Nat) (x : Die) : (s.setDie d x).schedule = s.schedule := rfl
@[simp] theorem State.setDie_cur (s : State) (d : Nat) (x : Die) : (s.setDie d x).cur = s.cur := rfl
@[simp] theorem State.setDie_freeCount (s : State) (d : Nat) (x : Die) : (s.setDie d x).freeCount = s.freeCount := rfl
@[simp] theorem State.setDie_gtc (s : State) (d : Nat) (x : Die) : (s.setDie d x).gtc = s.gtc := rfl
@[simp] theorem State.setDie_arith (s : State) (d : Nat) (x : Die) : (s.setDie d x).arith = s.arith := rfl
@[simp] theorem State.setDie_mesh (s : State) (d : Nat) (x : Die) : (s.setDie d x).mesh = s.mesh := rfl
@[simp] theorem State.setDie_arrivals (s : State) (d : Nat) (x : Die) : (s.setDie d x).arrivals = s.arrivals := rfl
@[simp] theorem State.setDie_mem (s : State) (d : Nat) (x : Die) : (s.setDie d x).mem = s.mem := rfl
@[simp] theorem State.setDie_stale (s : State) (d : Nat) (x : Die) : (s.setDie d x).stale = s.stale := rfl
@[simp] theorem State.setDie_poisoned (s : State) (d : Nat) (x : Die) : (s.setDie d x).poisoned = s.poisoned := rfl
@[simp] theorem State.setDie_memErr (s : State) (d : Nat) (x : Die) : (s.setDie d x).memErr = s.memErr := rfl
@[simp] theorem State.setDie_dev (s : State) (d : Nat) (x : Die) : (s.setDie d x).dev = s.dev := rfl
@[simp] theorem State.setDie_cores (s : State) (d : Nat) (x : Die) : (s.setDie d x).cores = s.cores := rfl
@[simp] theorem State.setDie_slices (s : State) (d : Nat) (x : Die) : (s.setDie d x).slices = s.slices := rfl
@[simp] theorem State.setDie_poolState (s : State) (d : Nat) (x : Die) : (s.setDie d x).poolState = s.poolState := rfl
@[simp] theorem State.setDie_hostState (s : State) (d : Nat) (x : Die) : (s.setDie d x).hostState = s.hostState := rfl
@[simp] theorem State.setDie_recalls (s : State) (d : Nat) (x : Die) : (s.setDie d x).recalls = s.recalls := rfl
@[simp] theorem State.setDie_transit (s : State) (d : Nat) (x : Die) : (s.setDie d x).transit = s.transit := rfl
@[simp] theorem State.setDie_wire (s : State) (d : Nat) (x : Die) : (s.setDie d x).wire = s.wire := rfl
@[simp] theorem State.setDie_spans (s : State) (d : Nat) (x : Die) : (s.setDie d x).spans = s.spans := rfl
@[simp] theorem State.setDie_switches (s : State) (d : Nat) (x : Die) : (s.setDie d x).switches = s.switches := rfl
@[simp] theorem State.setDev_schedule (s : State) (x : Device) : (s.setDev x).schedule = s.schedule := rfl
@[simp] theorem State.setDev_cur (s : State) (x : Device) : (s.setDev x).cur = s.cur := rfl
@[simp] theorem State.setDev_freeCount (s : State) (x : Device) : (s.setDev x).freeCount = s.freeCount := rfl
@[simp] theorem State.setDev_gtc (s : State) (x : Device) : (s.setDev x).gtc = s.gtc := rfl
@[simp] theorem State.setDev_arith (s : State) (x : Device) : (s.setDev x).arith = s.arith := rfl
@[simp] theorem State.setDev_mesh (s : State) (x : Device) : (s.setDev x).mesh = s.mesh := rfl
@[simp] theorem State.setDev_arrivals (s : State) (x : Device) : (s.setDev x).arrivals = s.arrivals := rfl
@[simp] theorem State.setDev_mem (s : State) (x : Device) : (s.setDev x).mem = s.mem := rfl
@[simp] theorem State.setDev_stale (s : State) (x : Device) : (s.setDev x).stale = s.stale := rfl
@[simp] theorem State.setDev_poisoned (s : State) (x : Device) : (s.setDev x).poisoned = s.poisoned := rfl
@[simp] theorem State.setDev_memErr (s : State) (x : Device) : (s.setDev x).memErr = s.memErr := rfl
@[simp] theorem State.setDev_cores (s : State) (x : Device) : (s.setDev x).cores = s.cores := rfl
@[simp] theorem State.setDev_dies (s : State) (x : Device) : (s.setDev x).dies = s.dies := rfl
@[simp] theorem State.setDev_slices (s : State) (x : Device) : (s.setDev x).slices = s.slices := rfl
@[simp] theorem State.setDev_poolState (s : State) (x : Device) : (s.setDev x).poolState = s.poolState := rfl
@[simp] theorem State.setDev_hostState (s : State) (x : Device) : (s.setDev x).hostState = s.hostState := rfl
@[simp] theorem State.setDev_recalls (s : State) (x : Device) : (s.setDev x).recalls = s.recalls := rfl
@[simp] theorem State.setDev_transit (s : State) (x : Device) : (s.setDev x).transit = s.transit := rfl
@[simp] theorem State.setDev_wire (s : State) (x : Device) : (s.setDev x).wire = s.wire := rfl
@[simp] theorem State.setDev_spans (s : State) (x : Device) : (s.setDev x).spans = s.spans := rfl
@[simp] theorem State.setDev_switches (s : State) (x : Device) : (s.setDev x).switches = s.switches := rfl
@[simp] theorem State.toInbox_schedule (s : State) (ci : Nat) (t : InTok) : (s.toInbox ci t).schedule = s.schedule := rfl
@[simp] theorem State.toInbox_cur (s : State) (ci : Nat) (t : InTok) : (s.toInbox ci t).cur = s.cur := rfl
@[simp] theorem State.toInbox_freeCount (s : State) (ci : Nat) (t : InTok) : (s.toInbox ci t).freeCount = s.freeCount := rfl
@[simp] theorem State.toInbox_gtc (s : State) (ci : Nat) (t : InTok) : (s.toInbox ci t).gtc = s.gtc := rfl
@[simp] theorem State.toInbox_arith (s : State) (ci : Nat) (t : InTok) : (s.toInbox ci t).arith = s.arith := rfl
@[simp] theorem State.toInbox_mesh (s : State) (ci : Nat) (t : InTok) : (s.toInbox ci t).mesh = s.mesh := rfl
@[simp] theorem State.toInbox_arrivals (s : State) (ci : Nat) (t : InTok) : (s.toInbox ci t).arrivals = s.arrivals := rfl
@[simp] theorem State.toInbox_mem (s : State) (ci : Nat) (t : InTok) : (s.toInbox ci t).mem = s.mem := rfl
@[simp] theorem State.toInbox_stale (s : State) (ci : Nat) (t : InTok) : (s.toInbox ci t).stale = s.stale := rfl
@[simp] theorem State.toInbox_poisoned (s : State) (ci : Nat) (t : InTok) : (s.toInbox ci t).poisoned = s.poisoned := rfl
@[simp] theorem State.toInbox_memErr (s : State) (ci : Nat) (t : InTok) : (s.toInbox ci t).memErr = s.memErr := rfl
@[simp] theorem State.toInbox_dev (s : State) (ci : Nat) (t : InTok) : (s.toInbox ci t).dev = s.dev := rfl
@[simp] theorem State.toInbox_dies (s : State) (ci : Nat) (t : InTok) : (s.toInbox ci t).dies = s.dies := rfl
@[simp] theorem State.toInbox_slices (s : State) (ci : Nat) (t : InTok) : (s.toInbox ci t).slices = s.slices := rfl
@[simp] theorem State.toInbox_poolState (s : State) (ci : Nat) (t : InTok) : (s.toInbox ci t).poolState = s.poolState := rfl
@[simp] theorem State.toInbox_hostState (s : State) (ci : Nat) (t : InTok) : (s.toInbox ci t).hostState = s.hostState := rfl
@[simp] theorem State.toInbox_recalls (s : State) (ci : Nat) (t : InTok) : (s.toInbox ci t).recalls = s.recalls := rfl
@[simp] theorem State.toInbox_transit (s : State) (ci : Nat) (t : InTok) : (s.toInbox ci t).transit = s.transit := rfl
@[simp] theorem State.toInbox_wire (s : State) (ci : Nat) (t : InTok) : (s.toInbox ci t).wire = s.wire := rfl
@[simp] theorem State.toInbox_spans (s : State) (ci : Nat) (t : InTok) : (s.toInbox ci t).spans = s.spans := rfl
@[simp] theorem State.toInbox_switches (s : State) (ci : Nat) (t : InTok) : (s.toInbox ci t).switches = s.switches := rfl
@[simp] theorem State.finish_schedule (s : State) (g : Group) : (s.finish g).schedule = s.schedule := rfl
@[simp] theorem State.finish_cur (s : State) (g : Group) : (s.finish g).cur = s.cur := rfl
@[simp] theorem State.finish_freeCount (s : State) (g : Group) : (s.finish g).freeCount = s.freeCount := rfl
@[simp] theorem State.finish_gtc (s : State) (g : Group) : (s.finish g).gtc = s.gtc := rfl
@[simp] theorem State.finish_arith (s : State) (g : Group) : (s.finish g).arith = s.arith := rfl
@[simp] theorem State.finish_mesh (s : State) (g : Group) : (s.finish g).mesh = s.mesh := rfl
@[simp] theorem State.finish_arrivals (s : State) (g : Group) : (s.finish g).arrivals = s.arrivals := rfl
@[simp] theorem State.finish_mem (s : State) (g : Group) : (s.finish g).mem = s.mem := rfl
@[simp] theorem State.finish_stale (s : State) (g : Group) : (s.finish g).stale = s.stale := rfl
@[simp] theorem State.finish_poisoned (s : State) (g : Group) : (s.finish g).poisoned = s.poisoned := rfl
@[simp] theorem State.finish_memErr (s : State) (g : Group) : (s.finish g).memErr = s.memErr := rfl
@[simp] theorem State.finish_dev (s : State) (g : Group) : (s.finish g).dev = s.dev := rfl
@[simp] theorem State.finish_dies (s : State) (g : Group) : (s.finish g).dies = s.dies := rfl
@[simp] theorem State.finish_slices (s : State) (g : Group) : (s.finish g).slices = s.slices := rfl
@[simp] theorem State.finish_poolState (s : State) (g : Group) : (s.finish g).poolState = s.poolState := rfl
@[simp] theorem State.finish_hostState (s : State) (g : Group) : (s.finish g).hostState = s.hostState := rfl
@[simp] theorem State.finish_recalls (s : State) (g : Group) : (s.finish g).recalls = s.recalls := rfl
@[simp] theorem State.finish_transit (s : State) (g : Group) : (s.finish g).transit = s.transit := rfl
@[simp] theorem State.finish_wire (s : State) (g : Group) : (s.finish g).wire = s.wire := rfl
@[simp] theorem State.finish_spans (s : State) (g : Group) : (s.finish g).spans = s.spans := rfl
@[simp] theorem State.finish_switches (s : State) (g : Group) : (s.finish g).switches = s.switches := rfl
@[simp] theorem State.hold_schedule (s : State) (g : Group) : (s.hold g).schedule = s.schedule := rfl
@[simp] theorem State.hold_cur (s : State) (g : Group) : (s.hold g).cur = s.cur := rfl
@[simp] theorem State.hold_freeCount (s : State) (g : Group) : (s.hold g).freeCount = s.freeCount := rfl
@[simp] theorem State.hold_gtc (s : State) (g : Group) : (s.hold g).gtc = s.gtc := rfl
@[simp] theorem State.hold_arith (s : State) (g : Group) : (s.hold g).arith = s.arith := rfl
@[simp] theorem State.hold_mesh (s : State) (g : Group) : (s.hold g).mesh = s.mesh := rfl
@[simp] theorem State.hold_arrivals (s : State) (g : Group) : (s.hold g).arrivals = s.arrivals := rfl
@[simp] theorem State.hold_mem (s : State) (g : Group) : (s.hold g).mem = s.mem := rfl
@[simp] theorem State.hold_stale (s : State) (g : Group) : (s.hold g).stale = s.stale := rfl
@[simp] theorem State.hold_poisoned (s : State) (g : Group) : (s.hold g).poisoned = s.poisoned := rfl
@[simp] theorem State.hold_memErr (s : State) (g : Group) : (s.hold g).memErr = s.memErr := rfl
@[simp] theorem State.hold_dev (s : State) (g : Group) : (s.hold g).dev = s.dev := rfl
@[simp] theorem State.hold_dies (s : State) (g : Group) : (s.hold g).dies = s.dies := rfl
@[simp] theorem State.hold_slices (s : State) (g : Group) : (s.hold g).slices = s.slices := rfl
@[simp] theorem State.hold_poolState (s : State) (g : Group) : (s.hold g).poolState = s.poolState := rfl
@[simp] theorem State.hold_hostState (s : State) (g : Group) : (s.hold g).hostState = s.hostState := rfl
@[simp] theorem State.hold_recalls (s : State) (g : Group) : (s.hold g).recalls = s.recalls := rfl
@[simp] theorem State.hold_transit (s : State) (g : Group) : (s.hold g).transit = s.transit := rfl
@[simp] theorem State.hold_wire (s : State) (g : Group) : (s.hold g).wire = s.wire := rfl
@[simp] theorem State.hold_spans (s : State) (g : Group) : (s.hold g).spans = s.spans := rfl
@[simp] theorem State.hold_switches (s : State) (g : Group) : (s.hold g).switches = s.switches := rfl
@[simp] theorem State.dropMisses_schedule (s : State) (ci gi : Nat) : (s.dropMisses ci gi).schedule = s.schedule := rfl
@[simp] theorem State.dropMisses_cur (s : State) (ci gi : Nat) : (s.dropMisses ci gi).cur = s.cur := rfl
@[simp] theorem State.dropMisses_freeCount (s : State) (ci gi : Nat) : (s.dropMisses ci gi).freeCount = s.freeCount := rfl
@[simp] theorem State.dropMisses_gtc (s : State) (ci gi : Nat) : (s.dropMisses ci gi).gtc = s.gtc := rfl
@[simp] theorem State.dropMisses_arith (s : State) (ci gi : Nat) : (s.dropMisses ci gi).arith = s.arith := rfl
@[simp] theorem State.dropMisses_mesh (s : State) (ci gi : Nat) : (s.dropMisses ci gi).mesh = s.mesh := rfl
@[simp] theorem State.dropMisses_arrivals (s : State) (ci gi : Nat) : (s.dropMisses ci gi).arrivals = s.arrivals := rfl
@[simp] theorem State.dropMisses_mem (s : State) (ci gi : Nat) : (s.dropMisses ci gi).mem = s.mem := rfl
@[simp] theorem State.dropMisses_stale (s : State) (ci gi : Nat) : (s.dropMisses ci gi).stale = s.stale := rfl
@[simp] theorem State.dropMisses_poisoned (s : State) (ci gi : Nat) : (s.dropMisses ci gi).poisoned = s.poisoned := rfl
@[simp] theorem State.dropMisses_memErr (s : State) (ci gi : Nat) : (s.dropMisses ci gi).memErr = s.memErr := rfl
@[simp] theorem State.dropMisses_dev (s : State) (ci gi : Nat) : (s.dropMisses ci gi).dev = s.dev := rfl
@[simp] theorem State.dropMisses_cores (s : State) (ci gi : Nat) : (s.dropMisses ci gi).cores = s.cores := rfl
@[simp] theorem State.dropMisses_slices (s : State) (ci gi : Nat) : (s.dropMisses ci gi).slices = s.slices := rfl
@[simp] theorem State.dropMisses_poolState (s : State) (ci gi : Nat) : (s.dropMisses ci gi).poolState = s.poolState := rfl
@[simp] theorem State.dropMisses_hostState (s : State) (ci gi : Nat) : (s.dropMisses ci gi).hostState = s.hostState := rfl
@[simp] theorem State.dropMisses_recalls (s : State) (ci gi : Nat) : (s.dropMisses ci gi).recalls = s.recalls := rfl
@[simp] theorem State.dropMisses_transit (s : State) (ci gi : Nat) : (s.dropMisses ci gi).transit = s.transit := rfl
@[simp] theorem State.dropMisses_wire (s : State) (ci gi : Nat) : (s.dropMisses ci gi).wire = s.wire := rfl
@[simp] theorem State.dropMisses_spans (s : State) (ci gi : Nat) : (s.dropMisses ci gi).spans = s.spans := rfl
@[simp] theorem State.dropMisses_switches (s : State) (ci gi : Nat) : (s.dropMisses ci gi).switches = s.switches := rfl
@[simp] theorem State.setRegion_schedule (s : State) (r : Region) : (s.setRegion r).schedule = s.schedule := rfl
@[simp] theorem State.setRegion_cur (s : State) (r : Region) : (s.setRegion r).cur = s.cur := rfl
@[simp] theorem State.setRegion_freeCount (s : State) (r : Region) : (s.setRegion r).freeCount = s.freeCount := rfl
@[simp] theorem State.setRegion_gtc (s : State) (r : Region) : (s.setRegion r).gtc = s.gtc := rfl
@[simp] theorem State.setRegion_arith (s : State) (r : Region) : (s.setRegion r).arith = s.arith := rfl
@[simp] theorem State.setRegion_mesh (s : State) (r : Region) : (s.setRegion r).mesh = s.mesh := rfl
@[simp] theorem State.setRegion_arrivals (s : State) (r : Region) : (s.setRegion r).arrivals = s.arrivals := rfl
@[simp] theorem State.setRegion_mem (s : State) (r : Region) : (s.setRegion r).mem = s.mem := rfl
@[simp] theorem State.setRegion_stale (s : State) (r : Region) : (s.setRegion r).stale = s.stale := rfl
@[simp] theorem State.setRegion_poisoned (s : State) (r : Region) : (s.setRegion r).poisoned = s.poisoned := rfl
@[simp] theorem State.setRegion_memErr (s : State) (r : Region) : (s.setRegion r).memErr = s.memErr := rfl
@[simp] theorem State.setRegion_cores (s : State) (r : Region) : (s.setRegion r).cores = s.cores := rfl
@[simp] theorem State.setRegion_dies (s : State) (r : Region) : (s.setRegion r).dies = s.dies := rfl
@[simp] theorem State.setRegion_slices (s : State) (r : Region) : (s.setRegion r).slices = s.slices := rfl
@[simp] theorem State.setRegion_poolState (s : State) (r : Region) : (s.setRegion r).poolState = s.poolState := rfl
@[simp] theorem State.setRegion_hostState (s : State) (r : Region) : (s.setRegion r).hostState = s.hostState := rfl
@[simp] theorem State.setRegion_recalls (s : State) (r : Region) : (s.setRegion r).recalls = s.recalls := rfl
@[simp] theorem State.setRegion_transit (s : State) (r : Region) : (s.setRegion r).transit = s.transit := rfl
@[simp] theorem State.setRegion_wire (s : State) (r : Region) : (s.setRegion r).wire = s.wire := rfl
@[simp] theorem State.setRegion_spans (s : State) (r : Region) : (s.setRegion r).spans = s.spans := rfl
@[simp] theorem State.setRegion_switches (s : State) (r : Region) : (s.setRegion r).switches = s.switches := rfl
@[simp] theorem State.stewardLog_schedule (s : State) (what : Nat) : (s.stewardLog what).schedule = s.schedule := rfl
@[simp] theorem State.stewardLog_cur (s : State) (what : Nat) : (s.stewardLog what).cur = s.cur := rfl
@[simp] theorem State.stewardLog_freeCount (s : State) (what : Nat) : (s.stewardLog what).freeCount = s.freeCount := rfl
@[simp] theorem State.stewardLog_gtc (s : State) (what : Nat) : (s.stewardLog what).gtc = s.gtc := rfl
@[simp] theorem State.stewardLog_arith (s : State) (what : Nat) : (s.stewardLog what).arith = s.arith := rfl
@[simp] theorem State.stewardLog_mesh (s : State) (what : Nat) : (s.stewardLog what).mesh = s.mesh := rfl
@[simp] theorem State.stewardLog_arrivals (s : State) (what : Nat) : (s.stewardLog what).arrivals = s.arrivals := rfl
@[simp] theorem State.stewardLog_mem (s : State) (what : Nat) : (s.stewardLog what).mem = s.mem := rfl
@[simp] theorem State.stewardLog_stale (s : State) (what : Nat) : (s.stewardLog what).stale = s.stale := rfl
@[simp] theorem State.stewardLog_poisoned (s : State) (what : Nat) : (s.stewardLog what).poisoned = s.poisoned := rfl
@[simp] theorem State.stewardLog_memErr (s : State) (what : Nat) : (s.stewardLog what).memErr = s.memErr := rfl
@[simp] theorem State.stewardLog_cores (s : State) (what : Nat) : (s.stewardLog what).cores = s.cores := rfl
@[simp] theorem State.stewardLog_dies (s : State) (what : Nat) : (s.stewardLog what).dies = s.dies := rfl
@[simp] theorem State.stewardLog_slices (s : State) (what : Nat) : (s.stewardLog what).slices = s.slices := rfl
@[simp] theorem State.stewardLog_poolState (s : State) (what : Nat) : (s.stewardLog what).poolState = s.poolState := rfl
@[simp] theorem State.stewardLog_hostState (s : State) (what : Nat) : (s.stewardLog what).hostState = s.hostState := rfl
@[simp] theorem State.stewardLog_recalls (s : State) (what : Nat) : (s.stewardLog what).recalls = s.recalls := rfl
@[simp] theorem State.stewardLog_transit (s : State) (what : Nat) : (s.stewardLog what).transit = s.transit := rfl
@[simp] theorem State.stewardLog_wire (s : State) (what : Nat) : (s.stewardLog what).wire = s.wire := rfl
@[simp] theorem State.stewardLog_spans (s : State) (what : Nat) : (s.stewardLog what).spans = s.spans := rfl
@[simp] theorem State.stewardLog_switches (s : State) (what : Nat) : (s.stewardLog what).switches = s.switches := rfl
@[simp] theorem State.setDev_dev (s : State) (x : Device) : (s.setDev x).dev = x := rfl

/-! ## Updates of a core -/

@[simp] theorem Core.setGroup_cfg (c : Core) (gi : Nat) (g : Group) : (c.setGroup gi g).cfg = c.cfg := rfl
@[simp] theorem Core.setGroup_stream (c : Core) (gi : Nat) (g : Group) : (c.setGroup gi g).stream = c.stream := rfl
@[simp] theorem Core.setGroup_region (c : Core) (gi : Nat) (g : Group) : (c.setGroup gi g).region = c.region := rfl
@[simp] theorem Core.setGroup_consts (c : Core) (gi : Nat) (g : Group) : (c.setGroup gi g).consts = c.consts := rfl
@[simp] theorem Core.setGroup_entries (c : Core) (gi : Nat) (g : Group) : (c.setGroup gi g).entries = c.entries := rfl
@[simp] theorem Core.setGroup_handed (c : Core) (gi : Nat) (g : Group) : (c.setGroup gi g).handed = c.handed := rfl
@[simp] theorem Core.setGroup_frame (c : Core) (gi : Nat) (g : Group) : (c.setGroup gi g).frame = c.frame := rfl
@[simp] theorem Core.setGroup_bufW (c : Core) (gi : Nat) (g : Group) : (c.setGroup gi g).bufW = c.bufW := rfl
@[simp] theorem Core.setGroup_bufA (c : Core) (gi : Nat) (g : Group) : (c.setGroup gi g).bufA = c.bufA := rfl
@[simp] theorem Core.setGroup_bufC (c : Core) (gi : Nat) (g : Group) : (c.setGroup gi g).bufC = c.bufC := rfl
@[simp] theorem Core.setGroup_absent (c : Core) (gi : Nat) (g : Group) : (c.setGroup gi g).absent = c.absent := rfl
@[simp] theorem Core.setGroup_teams (c : Core) (gi : Nat) (g : Group) : (c.setGroup gi g).teams = c.teams := rfl
@[simp] theorem Core.setGroup_clusBars (c : Core) (gi : Nat) (g : Group) : (c.setGroup gi g).clusBars = c.clusBars := rfl
@[simp] theorem Core.setGroup_inbox (c : Core) (gi : Nat) (g : Group) : (c.setGroup gi g).inbox = c.inbox := rfl
@[simp] theorem Core.setGroup_outbox (c : Core) (gi : Nat) (g : Group) : (c.setGroup gi g).outbox = c.outbox := rfl
@[simp] theorem Core.setGroup_atomRets (c : Core) (gi : Nat) (g : Group) : (c.setGroup gi g).atomRets = c.atomRets := rfl
@[simp] theorem Core.setGroup_commits (c : Core) (gi : Nat) (g : Group) : (c.setGroup gi g).commits = c.commits := rfl
@[simp] theorem Core.setGroup_nextNum (c : Core) (gi : Nat) (g : Group) : (c.setGroup gi g).nextNum = c.nextNum := rfl
@[simp] theorem Core.setGroup_spilled (c : Core) (gi : Nat) (g : Group) : (c.setGroup gi g).spilled = c.spilled := rfl
@[simp] theorem Core.setGroup_spillHeld (c : Core) (gi : Nat) (g : Group) : (c.setGroup gi g).spillHeld = c.spillHeld := rfl
@[simp] theorem Core.setGroup_filter (c : Core) (gi : Nat) (g : Group) : (c.setGroup gi g).filter = c.filter := rfl
@[simp] theorem Core.setGroup_spillStop (c : Core) (gi : Nat) (g : Group) : (c.setGroup gi g).spillStop = c.spillStop := rfl
@[simp] theorem Core.setGroup_overlay (c : Core) (gi : Nat) (g : Group) : (c.setGroup gi g).overlay = c.overlay := rfl
@[simp] theorem Core.setGroup_overlayAsked (c : Core) (gi : Nat) (g : Group) : (c.setGroup gi g).overlayAsked = c.overlayAsked := rfl
@[simp] theorem Core.setGroup_barArrivals (c : Core) (gi : Nat) (g : Group) : (c.setGroup gi g).barArrivals = c.barArrivals := rfl
@[simp] theorem Core.setGroup_courier (c : Core) (gi : Nat) (g : Group) : (c.setGroup gi g).courier = c.courier := rfl
@[simp] theorem Core.setGroup_landing (c : Core) (gi : Nat) (g : Group) : (c.setGroup gi g).landing = c.landing := rfl
@[simp] theorem Core.setGroup_matq (c : Core) (gi : Nat) (g : Group) : (c.setGroup gi g).matq = c.matq := rfl
@[simp] theorem Core.setGroup_gang (c : Core) (gi : Nat) (g : Group) : (c.setGroup gi g).gang = c.gang := rfl
@[simp] theorem Core.setGroup_divq (c : Core) (gi : Nat) (g : Group) : (c.setGroup gi g).divq = c.divq := rfl
@[simp] theorem Core.setGroup_tables (c : Core) (gi : Nat) (g : Group) : (c.setGroup gi g).tables = c.tables := rfl
@[simp] theorem Core.setGroup_tcur (c : Core) (gi : Nat) (g : Group) : (c.setGroup gi g).tcur = c.tcur := rfl
@[simp] theorem Core.setGroup_tloads (c : Core) (gi : Nat) (g : Group) : (c.setGroup gi g).tloads = c.tloads := rfl
@[simp] theorem Core.setGroup_l1 (c : Core) (gi : Nat) (g : Group) : (c.setGroup gi g).l1 = c.l1 := rfl
@[simp] theorem Core.setGroup_l1tlb (c : Core) (gi : Nat) (g : Group) : (c.setGroup gi g).l1tlb = c.l1tlb := rfl
@[simp] theorem Core.setGroup_renewals (c : Core) (gi : Nat) (g : Group) : (c.setGroup gi g).renewals = c.renewals := rfl
@[simp] theorem Core.setGroup_pendFilter (c : Core) (gi : Nat) (g : Group) : (c.setGroup gi g).pendFilter = c.pendFilter := rfl
@[simp] theorem Core.setGroup_wcb (c : Core) (gi : Nat) (g : Group) : (c.setGroup gi g).wcb = c.wcb := rfl
@[simp] theorem Core.setGroup_park (c : Core) (gi : Nat) (g : Group) : (c.setGroup gi g).park = c.park := rfl
@[simp] theorem Core.setGroup_parkOver (c : Core) (gi : Nat) (g : Group) : (c.setGroup gi g).parkOver = c.parkOver := rfl
@[simp] theorem Core.setGroup_reserve (c : Core) (gi : Nat) (g : Group) : (c.setGroup gi g).reserve = c.reserve := rfl
@[simp] theorem Core.setGroup_deposits (c : Core) (gi : Nat) (g : Group) : (c.setGroup gi g).deposits = c.deposits := rfl
@[simp] theorem Core.setGroup_gate (c : Core) (gi : Nat) (g : Group) : (c.setGroup gi g).gate = c.gate := rfl
@[simp] theorem Core.setGroup_sent (c : Core) (gi : Nat) (g : Group) : (c.setGroup gi g).sent = c.sent := rfl
@[simp] theorem Core.setGroup_received (c : Core) (gi : Nat) (g : Group) : (c.setGroup gi g).received = c.received := rfl
@[simp] theorem Core.setGroup_eosCount (c : Core) (gi : Nat) (g : Group) : (c.setGroup gi g).eosCount = c.eosCount := rfl
@[simp] theorem Core.setGroup_rlCount (c : Core) (gi : Nat) (g : Group) : (c.setGroup gi g).rlCount = c.rlCount := rfl
@[simp] theorem Core.setGroup_rlStart (c : Core) (gi : Nat) (g : Group) : (c.setGroup gi g).rlStart = c.rlStart := rfl
@[simp] theorem Core.setGroup_quenched (c : Core) (gi : Nat) (g : Group) : (c.setGroup gi g).quenched = c.quenched := rfl
@[simp] theorem Core.setGroup_markers (c : Core) (gi : Nat) (g : Group) : (c.setGroup gi g).markers = c.markers := rfl
@[simp] theorem Core.setGroup_saved (c : Core) (gi : Nat) (g : Group) : (c.setGroup gi g).saved = c.saved := rfl
@[simp] theorem Core.setGroup_sources (c : Core) (gi : Nat) (g : Group) : (c.setGroup gi g).sources = c.sources := rfl
@[simp] theorem Core.dropGroup_cfg (c : Core) (gi : Nat) : (c.dropGroup gi).cfg = c.cfg := rfl
@[simp] theorem Core.dropGroup_stream (c : Core) (gi : Nat) : (c.dropGroup gi).stream = c.stream := rfl
@[simp] theorem Core.dropGroup_region (c : Core) (gi : Nat) : (c.dropGroup gi).region = c.region := rfl
@[simp] theorem Core.dropGroup_consts (c : Core) (gi : Nat) : (c.dropGroup gi).consts = c.consts := rfl
@[simp] theorem Core.dropGroup_entries (c : Core) (gi : Nat) : (c.dropGroup gi).entries = c.entries := rfl
@[simp] theorem Core.dropGroup_handed (c : Core) (gi : Nat) : (c.dropGroup gi).handed = c.handed := rfl
@[simp] theorem Core.dropGroup_frame (c : Core) (gi : Nat) : (c.dropGroup gi).frame = c.frame := rfl
@[simp] theorem Core.dropGroup_bufW (c : Core) (gi : Nat) : (c.dropGroup gi).bufW = c.bufW := rfl
@[simp] theorem Core.dropGroup_bufA (c : Core) (gi : Nat) : (c.dropGroup gi).bufA = c.bufA := rfl
@[simp] theorem Core.dropGroup_bufC (c : Core) (gi : Nat) : (c.dropGroup gi).bufC = c.bufC := rfl
@[simp] theorem Core.dropGroup_absent (c : Core) (gi : Nat) : (c.dropGroup gi).absent = c.absent := rfl
@[simp] theorem Core.dropGroup_teams (c : Core) (gi : Nat) : (c.dropGroup gi).teams = c.teams := rfl
@[simp] theorem Core.dropGroup_clusBars (c : Core) (gi : Nat) : (c.dropGroup gi).clusBars = c.clusBars := rfl
@[simp] theorem Core.dropGroup_inbox (c : Core) (gi : Nat) : (c.dropGroup gi).inbox = c.inbox := rfl
@[simp] theorem Core.dropGroup_outbox (c : Core) (gi : Nat) : (c.dropGroup gi).outbox = c.outbox := rfl
@[simp] theorem Core.dropGroup_atomRets (c : Core) (gi : Nat) : (c.dropGroup gi).atomRets = c.atomRets := rfl
@[simp] theorem Core.dropGroup_commits (c : Core) (gi : Nat) : (c.dropGroup gi).commits = c.commits := rfl
@[simp] theorem Core.dropGroup_nextNum (c : Core) (gi : Nat) : (c.dropGroup gi).nextNum = c.nextNum := rfl
@[simp] theorem Core.dropGroup_spilled (c : Core) (gi : Nat) : (c.dropGroup gi).spilled = c.spilled := rfl
@[simp] theorem Core.dropGroup_spillHeld (c : Core) (gi : Nat) : (c.dropGroup gi).spillHeld = c.spillHeld := rfl
@[simp] theorem Core.dropGroup_filter (c : Core) (gi : Nat) : (c.dropGroup gi).filter = c.filter := rfl
@[simp] theorem Core.dropGroup_spillStop (c : Core) (gi : Nat) : (c.dropGroup gi).spillStop = c.spillStop := rfl
@[simp] theorem Core.dropGroup_overlay (c : Core) (gi : Nat) : (c.dropGroup gi).overlay = c.overlay := rfl
@[simp] theorem Core.dropGroup_overlayAsked (c : Core) (gi : Nat) : (c.dropGroup gi).overlayAsked = c.overlayAsked := rfl
@[simp] theorem Core.dropGroup_barArrivals (c : Core) (gi : Nat) : (c.dropGroup gi).barArrivals = c.barArrivals := rfl
@[simp] theorem Core.dropGroup_courier (c : Core) (gi : Nat) : (c.dropGroup gi).courier = c.courier := rfl
@[simp] theorem Core.dropGroup_landing (c : Core) (gi : Nat) : (c.dropGroup gi).landing = c.landing := rfl
@[simp] theorem Core.dropGroup_matq (c : Core) (gi : Nat) : (c.dropGroup gi).matq = c.matq := rfl
@[simp] theorem Core.dropGroup_gang (c : Core) (gi : Nat) : (c.dropGroup gi).gang = c.gang := rfl
@[simp] theorem Core.dropGroup_divq (c : Core) (gi : Nat) : (c.dropGroup gi).divq = c.divq := rfl
@[simp] theorem Core.dropGroup_tables (c : Core) (gi : Nat) : (c.dropGroup gi).tables = c.tables := rfl
@[simp] theorem Core.dropGroup_tcur (c : Core) (gi : Nat) : (c.dropGroup gi).tcur = c.tcur := rfl
@[simp] theorem Core.dropGroup_tloads (c : Core) (gi : Nat) : (c.dropGroup gi).tloads = c.tloads := rfl
@[simp] theorem Core.dropGroup_l1 (c : Core) (gi : Nat) : (c.dropGroup gi).l1 = c.l1 := rfl
@[simp] theorem Core.dropGroup_l1tlb (c : Core) (gi : Nat) : (c.dropGroup gi).l1tlb = c.l1tlb := rfl
@[simp] theorem Core.dropGroup_renewals (c : Core) (gi : Nat) : (c.dropGroup gi).renewals = c.renewals := rfl
@[simp] theorem Core.dropGroup_pendFilter (c : Core) (gi : Nat) : (c.dropGroup gi).pendFilter = c.pendFilter := rfl
@[simp] theorem Core.dropGroup_wcb (c : Core) (gi : Nat) : (c.dropGroup gi).wcb = c.wcb := rfl
@[simp] theorem Core.dropGroup_park (c : Core) (gi : Nat) : (c.dropGroup gi).park = c.park := rfl
@[simp] theorem Core.dropGroup_parkOver (c : Core) (gi : Nat) : (c.dropGroup gi).parkOver = c.parkOver := rfl
@[simp] theorem Core.dropGroup_reserve (c : Core) (gi : Nat) : (c.dropGroup gi).reserve = c.reserve := rfl
@[simp] theorem Core.dropGroup_deposits (c : Core) (gi : Nat) : (c.dropGroup gi).deposits = c.deposits := rfl
@[simp] theorem Core.dropGroup_gate (c : Core) (gi : Nat) : (c.dropGroup gi).gate = c.gate := rfl
@[simp] theorem Core.dropGroup_sent (c : Core) (gi : Nat) : (c.dropGroup gi).sent = c.sent := rfl
@[simp] theorem Core.dropGroup_received (c : Core) (gi : Nat) : (c.dropGroup gi).received = c.received := rfl
@[simp] theorem Core.dropGroup_eosCount (c : Core) (gi : Nat) : (c.dropGroup gi).eosCount = c.eosCount := rfl
@[simp] theorem Core.dropGroup_rlCount (c : Core) (gi : Nat) : (c.dropGroup gi).rlCount = c.rlCount := rfl
@[simp] theorem Core.dropGroup_rlStart (c : Core) (gi : Nat) : (c.dropGroup gi).rlStart = c.rlStart := rfl
@[simp] theorem Core.dropGroup_quenched (c : Core) (gi : Nat) : (c.dropGroup gi).quenched = c.quenched := rfl
@[simp] theorem Core.dropGroup_markers (c : Core) (gi : Nat) : (c.dropGroup gi).markers = c.markers := rfl
@[simp] theorem Core.dropGroup_saved (c : Core) (gi : Nat) : (c.dropGroup gi).saved = c.saved := rfl
@[simp] theorem Core.dropGroup_sources (c : Core) (gi : Nat) : (c.dropGroup gi).sources = c.sources := rfl
@[simp] theorem Core.setSlot_stream (c : Core) (si : Nat) (b : BlockSlot) : (c.setSlot si b).stream = c.stream := rfl
@[simp] theorem Core.setSlot_region (c : Core) (si : Nat) (b : BlockSlot) : (c.setSlot si b).region = c.region := rfl
@[simp] theorem Core.setSlot_consts (c : Core) (si : Nat) (b : BlockSlot) : (c.setSlot si b).consts = c.consts := rfl
@[simp] theorem Core.setSlot_entries (c : Core) (si : Nat) (b : BlockSlot) : (c.setSlot si b).entries = c.entries := rfl
@[simp] theorem Core.setSlot_handed (c : Core) (si : Nat) (b : BlockSlot) : (c.setSlot si b).handed = c.handed := rfl
@[simp] theorem Core.setSlot_frame (c : Core) (si : Nat) (b : BlockSlot) : (c.setSlot si b).frame = c.frame := rfl
@[simp] theorem Core.setSlot_bufW (c : Core) (si : Nat) (b : BlockSlot) : (c.setSlot si b).bufW = c.bufW := rfl
@[simp] theorem Core.setSlot_bufA (c : Core) (si : Nat) (b : BlockSlot) : (c.setSlot si b).bufA = c.bufA := rfl
@[simp] theorem Core.setSlot_bufC (c : Core) (si : Nat) (b : BlockSlot) : (c.setSlot si b).bufC = c.bufC := rfl
@[simp] theorem Core.setSlot_absent (c : Core) (si : Nat) (b : BlockSlot) : (c.setSlot si b).absent = c.absent := rfl
@[simp] theorem Core.setSlot_teams (c : Core) (si : Nat) (b : BlockSlot) : (c.setSlot si b).teams = c.teams := rfl
@[simp] theorem Core.setSlot_clusBars (c : Core) (si : Nat) (b : BlockSlot) : (c.setSlot si b).clusBars = c.clusBars := rfl
@[simp] theorem Core.setSlot_groups (c : Core) (si : Nat) (b : BlockSlot) : (c.setSlot si b).groups = c.groups := rfl
@[simp] theorem Core.setSlot_inbox (c : Core) (si : Nat) (b : BlockSlot) : (c.setSlot si b).inbox = c.inbox := rfl
@[simp] theorem Core.setSlot_outbox (c : Core) (si : Nat) (b : BlockSlot) : (c.setSlot si b).outbox = c.outbox := rfl
@[simp] theorem Core.setSlot_atomRets (c : Core) (si : Nat) (b : BlockSlot) : (c.setSlot si b).atomRets = c.atomRets := rfl
@[simp] theorem Core.setSlot_commits (c : Core) (si : Nat) (b : BlockSlot) : (c.setSlot si b).commits = c.commits := rfl
@[simp] theorem Core.setSlot_nextNum (c : Core) (si : Nat) (b : BlockSlot) : (c.setSlot si b).nextNum = c.nextNum := rfl
@[simp] theorem Core.setSlot_spilled (c : Core) (si : Nat) (b : BlockSlot) : (c.setSlot si b).spilled = c.spilled := rfl
@[simp] theorem Core.setSlot_spillHeld (c : Core) (si : Nat) (b : BlockSlot) : (c.setSlot si b).spillHeld = c.spillHeld := rfl
@[simp] theorem Core.setSlot_filter (c : Core) (si : Nat) (b : BlockSlot) : (c.setSlot si b).filter = c.filter := rfl
@[simp] theorem Core.setSlot_spillStop (c : Core) (si : Nat) (b : BlockSlot) : (c.setSlot si b).spillStop = c.spillStop := rfl
@[simp] theorem Core.setSlot_overlay (c : Core) (si : Nat) (b : BlockSlot) : (c.setSlot si b).overlay = c.overlay := rfl
@[simp] theorem Core.setSlot_overlayAsked (c : Core) (si : Nat) (b : BlockSlot) : (c.setSlot si b).overlayAsked = c.overlayAsked := rfl
@[simp] theorem Core.setSlot_barArrivals (c : Core) (si : Nat) (b : BlockSlot) : (c.setSlot si b).barArrivals = c.barArrivals := rfl
@[simp] theorem Core.setSlot_courier (c : Core) (si : Nat) (b : BlockSlot) : (c.setSlot si b).courier = c.courier := rfl
@[simp] theorem Core.setSlot_landing (c : Core) (si : Nat) (b : BlockSlot) : (c.setSlot si b).landing = c.landing := rfl
@[simp] theorem Core.setSlot_matq (c : Core) (si : Nat) (b : BlockSlot) : (c.setSlot si b).matq = c.matq := rfl
@[simp] theorem Core.setSlot_gang (c : Core) (si : Nat) (b : BlockSlot) : (c.setSlot si b).gang = c.gang := rfl
@[simp] theorem Core.setSlot_divq (c : Core) (si : Nat) (b : BlockSlot) : (c.setSlot si b).divq = c.divq := rfl
@[simp] theorem Core.setSlot_tables (c : Core) (si : Nat) (b : BlockSlot) : (c.setSlot si b).tables = c.tables := rfl
@[simp] theorem Core.setSlot_tcur (c : Core) (si : Nat) (b : BlockSlot) : (c.setSlot si b).tcur = c.tcur := rfl
@[simp] theorem Core.setSlot_tloads (c : Core) (si : Nat) (b : BlockSlot) : (c.setSlot si b).tloads = c.tloads := rfl
@[simp] theorem Core.setSlot_l1 (c : Core) (si : Nat) (b : BlockSlot) : (c.setSlot si b).l1 = c.l1 := rfl
@[simp] theorem Core.setSlot_l1tlb (c : Core) (si : Nat) (b : BlockSlot) : (c.setSlot si b).l1tlb = c.l1tlb := rfl
@[simp] theorem Core.setSlot_renewals (c : Core) (si : Nat) (b : BlockSlot) : (c.setSlot si b).renewals = c.renewals := rfl
@[simp] theorem Core.setSlot_pendFilter (c : Core) (si : Nat) (b : BlockSlot) : (c.setSlot si b).pendFilter = c.pendFilter := rfl
@[simp] theorem Core.setSlot_wcb (c : Core) (si : Nat) (b : BlockSlot) : (c.setSlot si b).wcb = c.wcb := rfl
@[simp] theorem Core.setSlot_park (c : Core) (si : Nat) (b : BlockSlot) : (c.setSlot si b).park = c.park := rfl
@[simp] theorem Core.setSlot_parkOver (c : Core) (si : Nat) (b : BlockSlot) : (c.setSlot si b).parkOver = c.parkOver := rfl
@[simp] theorem Core.setSlot_reserve (c : Core) (si : Nat) (b : BlockSlot) : (c.setSlot si b).reserve = c.reserve := rfl
@[simp] theorem Core.setSlot_deposits (c : Core) (si : Nat) (b : BlockSlot) : (c.setSlot si b).deposits = c.deposits := rfl
@[simp] theorem Core.setSlot_gate (c : Core) (si : Nat) (b : BlockSlot) : (c.setSlot si b).gate = c.gate := rfl
@[simp] theorem Core.setSlot_sent (c : Core) (si : Nat) (b : BlockSlot) : (c.setSlot si b).sent = c.sent := rfl
@[simp] theorem Core.setSlot_received (c : Core) (si : Nat) (b : BlockSlot) : (c.setSlot si b).received = c.received := rfl
@[simp] theorem Core.setSlot_eosCount (c : Core) (si : Nat) (b : BlockSlot) : (c.setSlot si b).eosCount = c.eosCount := rfl
@[simp] theorem Core.setSlot_rlCount (c : Core) (si : Nat) (b : BlockSlot) : (c.setSlot si b).rlCount = c.rlCount := rfl
@[simp] theorem Core.setSlot_rlStart (c : Core) (si : Nat) (b : BlockSlot) : (c.setSlot si b).rlStart = c.rlStart := rfl
@[simp] theorem Core.setSlot_quenched (c : Core) (si : Nat) (b : BlockSlot) : (c.setSlot si b).quenched = c.quenched := rfl
@[simp] theorem Core.setSlot_markers (c : Core) (si : Nat) (b : BlockSlot) : (c.setSlot si b).markers = c.markers := rfl
@[simp] theorem Core.setSlot_saved (c : Core) (si : Nat) (b : BlockSlot) : (c.setSlot si b).saved = c.saved := rfl
@[simp] theorem Core.setSlot_sources (c : Core) (si : Nat) (b : BlockSlot) : (c.setSlot si b).sources = c.sources := rfl
@[simp] theorem Core.setTeam_cfg (c : Core) (t : Nat) (x : Team) : (c.setTeam t x).cfg = c.cfg := rfl
@[simp] theorem Core.setTeam_stream (c : Core) (t : Nat) (x : Team) : (c.setTeam t x).stream = c.stream := rfl
@[simp] theorem Core.setTeam_region (c : Core) (t : Nat) (x : Team) : (c.setTeam t x).region = c.region := rfl
@[simp] theorem Core.setTeam_consts (c : Core) (t : Nat) (x : Team) : (c.setTeam t x).consts = c.consts := rfl
@[simp] theorem Core.setTeam_entries (c : Core) (t : Nat) (x : Team) : (c.setTeam t x).entries = c.entries := rfl
@[simp] theorem Core.setTeam_handed (c : Core) (t : Nat) (x : Team) : (c.setTeam t x).handed = c.handed := rfl
@[simp] theorem Core.setTeam_frame (c : Core) (t : Nat) (x : Team) : (c.setTeam t x).frame = c.frame := rfl
@[simp] theorem Core.setTeam_bufW (c : Core) (t : Nat) (x : Team) : (c.setTeam t x).bufW = c.bufW := rfl
@[simp] theorem Core.setTeam_bufA (c : Core) (t : Nat) (x : Team) : (c.setTeam t x).bufA = c.bufA := rfl
@[simp] theorem Core.setTeam_bufC (c : Core) (t : Nat) (x : Team) : (c.setTeam t x).bufC = c.bufC := rfl
@[simp] theorem Core.setTeam_absent (c : Core) (t : Nat) (x : Team) : (c.setTeam t x).absent = c.absent := rfl
@[simp] theorem Core.setTeam_clusBars (c : Core) (t : Nat) (x : Team) : (c.setTeam t x).clusBars = c.clusBars := rfl
@[simp] theorem Core.setTeam_groups (c : Core) (t : Nat) (x : Team) : (c.setTeam t x).groups = c.groups := rfl
@[simp] theorem Core.setTeam_inbox (c : Core) (t : Nat) (x : Team) : (c.setTeam t x).inbox = c.inbox := rfl
@[simp] theorem Core.setTeam_outbox (c : Core) (t : Nat) (x : Team) : (c.setTeam t x).outbox = c.outbox := rfl
@[simp] theorem Core.setTeam_atomRets (c : Core) (t : Nat) (x : Team) : (c.setTeam t x).atomRets = c.atomRets := rfl
@[simp] theorem Core.setTeam_commits (c : Core) (t : Nat) (x : Team) : (c.setTeam t x).commits = c.commits := rfl
@[simp] theorem Core.setTeam_nextNum (c : Core) (t : Nat) (x : Team) : (c.setTeam t x).nextNum = c.nextNum := rfl
@[simp] theorem Core.setTeam_spilled (c : Core) (t : Nat) (x : Team) : (c.setTeam t x).spilled = c.spilled := rfl
@[simp] theorem Core.setTeam_spillHeld (c : Core) (t : Nat) (x : Team) : (c.setTeam t x).spillHeld = c.spillHeld := rfl
@[simp] theorem Core.setTeam_filter (c : Core) (t : Nat) (x : Team) : (c.setTeam t x).filter = c.filter := rfl
@[simp] theorem Core.setTeam_spillStop (c : Core) (t : Nat) (x : Team) : (c.setTeam t x).spillStop = c.spillStop := rfl
@[simp] theorem Core.setTeam_overlay (c : Core) (t : Nat) (x : Team) : (c.setTeam t x).overlay = c.overlay := rfl
@[simp] theorem Core.setTeam_overlayAsked (c : Core) (t : Nat) (x : Team) : (c.setTeam t x).overlayAsked = c.overlayAsked := rfl
@[simp] theorem Core.setTeam_barArrivals (c : Core) (t : Nat) (x : Team) : (c.setTeam t x).barArrivals = c.barArrivals := rfl
@[simp] theorem Core.setTeam_courier (c : Core) (t : Nat) (x : Team) : (c.setTeam t x).courier = c.courier := rfl
@[simp] theorem Core.setTeam_landing (c : Core) (t : Nat) (x : Team) : (c.setTeam t x).landing = c.landing := rfl
@[simp] theorem Core.setTeam_matq (c : Core) (t : Nat) (x : Team) : (c.setTeam t x).matq = c.matq := rfl
@[simp] theorem Core.setTeam_gang (c : Core) (t : Nat) (x : Team) : (c.setTeam t x).gang = c.gang := rfl
@[simp] theorem Core.setTeam_divq (c : Core) (t : Nat) (x : Team) : (c.setTeam t x).divq = c.divq := rfl
@[simp] theorem Core.setTeam_tables (c : Core) (t : Nat) (x : Team) : (c.setTeam t x).tables = c.tables := rfl
@[simp] theorem Core.setTeam_tcur (c : Core) (t : Nat) (x : Team) : (c.setTeam t x).tcur = c.tcur := rfl
@[simp] theorem Core.setTeam_tloads (c : Core) (t : Nat) (x : Team) : (c.setTeam t x).tloads = c.tloads := rfl
@[simp] theorem Core.setTeam_l1 (c : Core) (t : Nat) (x : Team) : (c.setTeam t x).l1 = c.l1 := rfl
@[simp] theorem Core.setTeam_l1tlb (c : Core) (t : Nat) (x : Team) : (c.setTeam t x).l1tlb = c.l1tlb := rfl
@[simp] theorem Core.setTeam_renewals (c : Core) (t : Nat) (x : Team) : (c.setTeam t x).renewals = c.renewals := rfl
@[simp] theorem Core.setTeam_pendFilter (c : Core) (t : Nat) (x : Team) : (c.setTeam t x).pendFilter = c.pendFilter := rfl
@[simp] theorem Core.setTeam_wcb (c : Core) (t : Nat) (x : Team) : (c.setTeam t x).wcb = c.wcb := rfl
@[simp] theorem Core.setTeam_park (c : Core) (t : Nat) (x : Team) : (c.setTeam t x).park = c.park := rfl
@[simp] theorem Core.setTeam_parkOver (c : Core) (t : Nat) (x : Team) : (c.setTeam t x).parkOver = c.parkOver := rfl
@[simp] theorem Core.setTeam_reserve (c : Core) (t : Nat) (x : Team) : (c.setTeam t x).reserve = c.reserve := rfl
@[simp] theorem Core.setTeam_deposits (c : Core) (t : Nat) (x : Team) : (c.setTeam t x).deposits = c.deposits := rfl
@[simp] theorem Core.setTeam_gate (c : Core) (t : Nat) (x : Team) : (c.setTeam t x).gate = c.gate := rfl
@[simp] theorem Core.setTeam_sent (c : Core) (t : Nat) (x : Team) : (c.setTeam t x).sent = c.sent := rfl
@[simp] theorem Core.setTeam_received (c : Core) (t : Nat) (x : Team) : (c.setTeam t x).received = c.received := rfl
@[simp] theorem Core.setTeam_eosCount (c : Core) (t : Nat) (x : Team) : (c.setTeam t x).eosCount = c.eosCount := rfl
@[simp] theorem Core.setTeam_rlCount (c : Core) (t : Nat) (x : Team) : (c.setTeam t x).rlCount = c.rlCount := rfl
@[simp] theorem Core.setTeam_rlStart (c : Core) (t : Nat) (x : Team) : (c.setTeam t x).rlStart = c.rlStart := rfl
@[simp] theorem Core.setTeam_quenched (c : Core) (t : Nat) (x : Team) : (c.setTeam t x).quenched = c.quenched := rfl
@[simp] theorem Core.setTeam_markers (c : Core) (t : Nat) (x : Team) : (c.setTeam t x).markers = c.markers := rfl
@[simp] theorem Core.setTeam_saved (c : Core) (t : Nat) (x : Team) : (c.setTeam t x).saved = c.saved := rfl
@[simp] theorem Core.setTeam_sources (c : Core) (t : Nat) (x : Team) : (c.setTeam t x).sources = c.sources := rfl
@[simp] theorem Core.setPhase_cfg (c : Core) (ids : List Nat) (ph : EntryPhase) : (c.setPhase ids ph).cfg = c.cfg := rfl
@[simp] theorem Core.setPhase_stream (c : Core) (ids : List Nat) (ph : EntryPhase) : (c.setPhase ids ph).stream = c.stream := rfl
@[simp] theorem Core.setPhase_region (c : Core) (ids : List Nat) (ph : EntryPhase) : (c.setPhase ids ph).region = c.region := rfl
@[simp] theorem Core.setPhase_consts (c : Core) (ids : List Nat) (ph : EntryPhase) : (c.setPhase ids ph).consts = c.consts := rfl
@[simp] theorem Core.setPhase_handed (c : Core) (ids : List Nat) (ph : EntryPhase) : (c.setPhase ids ph).handed = c.handed := rfl
@[simp] theorem Core.setPhase_frame (c : Core) (ids : List Nat) (ph : EntryPhase) : (c.setPhase ids ph).frame = c.frame := rfl
@[simp] theorem Core.setPhase_bufW (c : Core) (ids : List Nat) (ph : EntryPhase) : (c.setPhase ids ph).bufW = c.bufW := rfl
@[simp] theorem Core.setPhase_bufA (c : Core) (ids : List Nat) (ph : EntryPhase) : (c.setPhase ids ph).bufA = c.bufA := rfl
@[simp] theorem Core.setPhase_bufC (c : Core) (ids : List Nat) (ph : EntryPhase) : (c.setPhase ids ph).bufC = c.bufC := rfl
@[simp] theorem Core.setPhase_absent (c : Core) (ids : List Nat) (ph : EntryPhase) : (c.setPhase ids ph).absent = c.absent := rfl
@[simp] theorem Core.setPhase_teams (c : Core) (ids : List Nat) (ph : EntryPhase) : (c.setPhase ids ph).teams = c.teams := rfl
@[simp] theorem Core.setPhase_clusBars (c : Core) (ids : List Nat) (ph : EntryPhase) : (c.setPhase ids ph).clusBars = c.clusBars := rfl
@[simp] theorem Core.setPhase_groups (c : Core) (ids : List Nat) (ph : EntryPhase) : (c.setPhase ids ph).groups = c.groups := rfl
@[simp] theorem Core.setPhase_inbox (c : Core) (ids : List Nat) (ph : EntryPhase) : (c.setPhase ids ph).inbox = c.inbox := rfl
@[simp] theorem Core.setPhase_outbox (c : Core) (ids : List Nat) (ph : EntryPhase) : (c.setPhase ids ph).outbox = c.outbox := rfl
@[simp] theorem Core.setPhase_atomRets (c : Core) (ids : List Nat) (ph : EntryPhase) : (c.setPhase ids ph).atomRets = c.atomRets := rfl
@[simp] theorem Core.setPhase_commits (c : Core) (ids : List Nat) (ph : EntryPhase) : (c.setPhase ids ph).commits = c.commits := rfl
@[simp] theorem Core.setPhase_nextNum (c : Core) (ids : List Nat) (ph : EntryPhase) : (c.setPhase ids ph).nextNum = c.nextNum := rfl
@[simp] theorem Core.setPhase_spilled (c : Core) (ids : List Nat) (ph : EntryPhase) : (c.setPhase ids ph).spilled = c.spilled := rfl
@[simp] theorem Core.setPhase_spillHeld (c : Core) (ids : List Nat) (ph : EntryPhase) : (c.setPhase ids ph).spillHeld = c.spillHeld := rfl
@[simp] theorem Core.setPhase_filter (c : Core) (ids : List Nat) (ph : EntryPhase) : (c.setPhase ids ph).filter = c.filter := rfl
@[simp] theorem Core.setPhase_spillStop (c : Core) (ids : List Nat) (ph : EntryPhase) : (c.setPhase ids ph).spillStop = c.spillStop := rfl
@[simp] theorem Core.setPhase_overlay (c : Core) (ids : List Nat) (ph : EntryPhase) : (c.setPhase ids ph).overlay = c.overlay := rfl
@[simp] theorem Core.setPhase_overlayAsked (c : Core) (ids : List Nat) (ph : EntryPhase) : (c.setPhase ids ph).overlayAsked = c.overlayAsked := rfl
@[simp] theorem Core.setPhase_barArrivals (c : Core) (ids : List Nat) (ph : EntryPhase) : (c.setPhase ids ph).barArrivals = c.barArrivals := rfl
@[simp] theorem Core.setPhase_courier (c : Core) (ids : List Nat) (ph : EntryPhase) : (c.setPhase ids ph).courier = c.courier := rfl
@[simp] theorem Core.setPhase_landing (c : Core) (ids : List Nat) (ph : EntryPhase) : (c.setPhase ids ph).landing = c.landing := rfl
@[simp] theorem Core.setPhase_matq (c : Core) (ids : List Nat) (ph : EntryPhase) : (c.setPhase ids ph).matq = c.matq := rfl
@[simp] theorem Core.setPhase_gang (c : Core) (ids : List Nat) (ph : EntryPhase) : (c.setPhase ids ph).gang = c.gang := rfl
@[simp] theorem Core.setPhase_divq (c : Core) (ids : List Nat) (ph : EntryPhase) : (c.setPhase ids ph).divq = c.divq := rfl
@[simp] theorem Core.setPhase_tables (c : Core) (ids : List Nat) (ph : EntryPhase) : (c.setPhase ids ph).tables = c.tables := rfl
@[simp] theorem Core.setPhase_tcur (c : Core) (ids : List Nat) (ph : EntryPhase) : (c.setPhase ids ph).tcur = c.tcur := rfl
@[simp] theorem Core.setPhase_tloads (c : Core) (ids : List Nat) (ph : EntryPhase) : (c.setPhase ids ph).tloads = c.tloads := rfl
@[simp] theorem Core.setPhase_l1 (c : Core) (ids : List Nat) (ph : EntryPhase) : (c.setPhase ids ph).l1 = c.l1 := rfl
@[simp] theorem Core.setPhase_l1tlb (c : Core) (ids : List Nat) (ph : EntryPhase) : (c.setPhase ids ph).l1tlb = c.l1tlb := rfl
@[simp] theorem Core.setPhase_renewals (c : Core) (ids : List Nat) (ph : EntryPhase) : (c.setPhase ids ph).renewals = c.renewals := rfl
@[simp] theorem Core.setPhase_pendFilter (c : Core) (ids : List Nat) (ph : EntryPhase) : (c.setPhase ids ph).pendFilter = c.pendFilter := rfl
@[simp] theorem Core.setPhase_wcb (c : Core) (ids : List Nat) (ph : EntryPhase) : (c.setPhase ids ph).wcb = c.wcb := rfl
@[simp] theorem Core.setPhase_park (c : Core) (ids : List Nat) (ph : EntryPhase) : (c.setPhase ids ph).park = c.park := rfl
@[simp] theorem Core.setPhase_parkOver (c : Core) (ids : List Nat) (ph : EntryPhase) : (c.setPhase ids ph).parkOver = c.parkOver := rfl
@[simp] theorem Core.setPhase_reserve (c : Core) (ids : List Nat) (ph : EntryPhase) : (c.setPhase ids ph).reserve = c.reserve := rfl
@[simp] theorem Core.setPhase_deposits (c : Core) (ids : List Nat) (ph : EntryPhase) : (c.setPhase ids ph).deposits = c.deposits := rfl
@[simp] theorem Core.setPhase_gate (c : Core) (ids : List Nat) (ph : EntryPhase) : (c.setPhase ids ph).gate = c.gate := rfl
@[simp] theorem Core.setPhase_sent (c : Core) (ids : List Nat) (ph : EntryPhase) : (c.setPhase ids ph).sent = c.sent := rfl
@[simp] theorem Core.setPhase_received (c : Core) (ids : List Nat) (ph : EntryPhase) : (c.setPhase ids ph).received = c.received := rfl
@[simp] theorem Core.setPhase_eosCount (c : Core) (ids : List Nat) (ph : EntryPhase) : (c.setPhase ids ph).eosCount = c.eosCount := rfl
@[simp] theorem Core.setPhase_rlCount (c : Core) (ids : List Nat) (ph : EntryPhase) : (c.setPhase ids ph).rlCount = c.rlCount := rfl
@[simp] theorem Core.setPhase_rlStart (c : Core) (ids : List Nat) (ph : EntryPhase) : (c.setPhase ids ph).rlStart = c.rlStart := rfl
@[simp] theorem Core.setPhase_quenched (c : Core) (ids : List Nat) (ph : EntryPhase) : (c.setPhase ids ph).quenched = c.quenched := rfl
@[simp] theorem Core.setPhase_markers (c : Core) (ids : List Nat) (ph : EntryPhase) : (c.setPhase ids ph).markers = c.markers := rfl
@[simp] theorem Core.setPhase_saved (c : Core) (ids : List Nat) (ph : EntryPhase) : (c.setPhase ids ph).saved = c.saved := rfl
@[simp] theorem Core.setPhase_sources (c : Core) (ids : List Nat) (ph : EntryPhase) : (c.setPhase ids ph).sources = c.sources := rfl
@[simp] theorem Core.freeEntries_cfg (c : Core) (ids : List Nat) : (c.freeEntries ids).cfg = c.cfg := rfl
@[simp] theorem Core.freeEntries_stream (c : Core) (ids : List Nat) : (c.freeEntries ids).stream = c.stream := rfl
@[simp] theorem Core.freeEntries_region (c : Core) (ids : List Nat) : (c.freeEntries ids).region = c.region := rfl
@[simp] theorem Core.freeEntries_consts (c : Core) (ids : List Nat) : (c.freeEntries ids).consts = c.consts := rfl
@[simp] theorem Core.freeEntries_handed (c : Core) (ids : List Nat) : (c.freeEntries ids).handed = c.handed := rfl
@[simp] theorem Core.freeEntries_frame (c : Core) (ids : List Nat) : (c.freeEntries ids).frame = c.frame := rfl
@[simp] theorem Core.freeEntries_bufW (c : Core) (ids : List Nat) : (c.freeEntries ids).bufW = c.bufW := rfl
@[simp] theorem Core.freeEntries_bufA (c : Core) (ids : List Nat) : (c.freeEntries ids).bufA = c.bufA := rfl
@[simp] theorem Core.freeEntries_bufC (c : Core) (ids : List Nat) : (c.freeEntries ids).bufC = c.bufC := rfl
@[simp] theorem Core.freeEntries_absent (c : Core) (ids : List Nat) : (c.freeEntries ids).absent = c.absent := rfl
@[simp] theorem Core.freeEntries_teams (c : Core) (ids : List Nat) : (c.freeEntries ids).teams = c.teams := rfl
@[simp] theorem Core.freeEntries_clusBars (c : Core) (ids : List Nat) : (c.freeEntries ids).clusBars = c.clusBars := rfl
@[simp] theorem Core.freeEntries_groups (c : Core) (ids : List Nat) : (c.freeEntries ids).groups = c.groups := rfl
@[simp] theorem Core.freeEntries_inbox (c : Core) (ids : List Nat) : (c.freeEntries ids).inbox = c.inbox := rfl
@[simp] theorem Core.freeEntries_outbox (c : Core) (ids : List Nat) : (c.freeEntries ids).outbox = c.outbox := rfl
@[simp] theorem Core.freeEntries_atomRets (c : Core) (ids : List Nat) : (c.freeEntries ids).atomRets = c.atomRets := rfl
@[simp] theorem Core.freeEntries_commits (c : Core) (ids : List Nat) : (c.freeEntries ids).commits = c.commits := rfl
@[simp] theorem Core.freeEntries_nextNum (c : Core) (ids : List Nat) : (c.freeEntries ids).nextNum = c.nextNum := rfl
@[simp] theorem Core.freeEntries_spilled (c : Core) (ids : List Nat) : (c.freeEntries ids).spilled = c.spilled := rfl
@[simp] theorem Core.freeEntries_spillHeld (c : Core) (ids : List Nat) : (c.freeEntries ids).spillHeld = c.spillHeld := rfl
@[simp] theorem Core.freeEntries_filter (c : Core) (ids : List Nat) : (c.freeEntries ids).filter = c.filter := rfl
@[simp] theorem Core.freeEntries_spillStop (c : Core) (ids : List Nat) : (c.freeEntries ids).spillStop = c.spillStop := rfl
@[simp] theorem Core.freeEntries_overlay (c : Core) (ids : List Nat) : (c.freeEntries ids).overlay = c.overlay := rfl
@[simp] theorem Core.freeEntries_overlayAsked (c : Core) (ids : List Nat) : (c.freeEntries ids).overlayAsked = c.overlayAsked := rfl
@[simp] theorem Core.freeEntries_barArrivals (c : Core) (ids : List Nat) : (c.freeEntries ids).barArrivals = c.barArrivals := rfl
@[simp] theorem Core.freeEntries_courier (c : Core) (ids : List Nat) : (c.freeEntries ids).courier = c.courier := rfl
@[simp] theorem Core.freeEntries_landing (c : Core) (ids : List Nat) : (c.freeEntries ids).landing = c.landing := rfl
@[simp] theorem Core.freeEntries_matq (c : Core) (ids : List Nat) : (c.freeEntries ids).matq = c.matq := rfl
@[simp] theorem Core.freeEntries_gang (c : Core) (ids : List Nat) : (c.freeEntries ids).gang = c.gang := rfl
@[simp] theorem Core.freeEntries_divq (c : Core) (ids : List Nat) : (c.freeEntries ids).divq = c.divq := rfl
@[simp] theorem Core.freeEntries_tables (c : Core) (ids : List Nat) : (c.freeEntries ids).tables = c.tables := rfl
@[simp] theorem Core.freeEntries_tcur (c : Core) (ids : List Nat) : (c.freeEntries ids).tcur = c.tcur := rfl
@[simp] theorem Core.freeEntries_tloads (c : Core) (ids : List Nat) : (c.freeEntries ids).tloads = c.tloads := rfl
@[simp] theorem Core.freeEntries_l1 (c : Core) (ids : List Nat) : (c.freeEntries ids).l1 = c.l1 := rfl
@[simp] theorem Core.freeEntries_l1tlb (c : Core) (ids : List Nat) : (c.freeEntries ids).l1tlb = c.l1tlb := rfl
@[simp] theorem Core.freeEntries_renewals (c : Core) (ids : List Nat) : (c.freeEntries ids).renewals = c.renewals := rfl
@[simp] theorem Core.freeEntries_pendFilter (c : Core) (ids : List Nat) : (c.freeEntries ids).pendFilter = c.pendFilter := rfl
@[simp] theorem Core.freeEntries_wcb (c : Core) (ids : List Nat) : (c.freeEntries ids).wcb = c.wcb := rfl
@[simp] theorem Core.freeEntries_park (c : Core) (ids : List Nat) : (c.freeEntries ids).park = c.park := rfl
@[simp] theorem Core.freeEntries_parkOver (c : Core) (ids : List Nat) : (c.freeEntries ids).parkOver = c.parkOver := rfl
@[simp] theorem Core.freeEntries_reserve (c : Core) (ids : List Nat) : (c.freeEntries ids).reserve = c.reserve := rfl
@[simp] theorem Core.freeEntries_deposits (c : Core) (ids : List Nat) : (c.freeEntries ids).deposits = c.deposits := rfl
@[simp] theorem Core.freeEntries_gate (c : Core) (ids : List Nat) : (c.freeEntries ids).gate = c.gate := rfl
@[simp] theorem Core.freeEntries_sent (c : Core) (ids : List Nat) : (c.freeEntries ids).sent = c.sent := rfl
@[simp] theorem Core.freeEntries_received (c : Core) (ids : List Nat) : (c.freeEntries ids).received = c.received := rfl
@[simp] theorem Core.freeEntries_eosCount (c : Core) (ids : List Nat) : (c.freeEntries ids).eosCount = c.eosCount := rfl
@[simp] theorem Core.freeEntries_rlCount (c : Core) (ids : List Nat) : (c.freeEntries ids).rlCount = c.rlCount := rfl
@[simp] theorem Core.freeEntries_rlStart (c : Core) (ids : List Nat) : (c.freeEntries ids).rlStart = c.rlStart := rfl
@[simp] theorem Core.freeEntries_quenched (c : Core) (ids : List Nat) : (c.freeEntries ids).quenched = c.quenched := rfl
@[simp] theorem Core.freeEntries_markers (c : Core) (ids : List Nat) : (c.freeEntries ids).markers = c.markers := rfl
@[simp] theorem Core.freeEntries_saved (c : Core) (ids : List Nat) : (c.freeEntries ids).saved = c.saved := rfl
@[simp] theorem Core.freeEntries_sources (c : Core) (ids : List Nat) : (c.freeEntries ids).sources = c.sources := rfl
@[simp] theorem Core.setBuf_cfg (c : Core) (b : Buf) (m : NMap Byte) : (c.setBuf b m).cfg = c.cfg := by cases b <;> rfl
@[simp] theorem Core.setBuf_stream (c : Core) (b : Buf) (m : NMap Byte) : (c.setBuf b m).stream = c.stream := by cases b <;> rfl
@[simp] theorem Core.setBuf_region (c : Core) (b : Buf) (m : NMap Byte) : (c.setBuf b m).region = c.region := by cases b <;> rfl
@[simp] theorem Core.setBuf_consts (c : Core) (b : Buf) (m : NMap Byte) : (c.setBuf b m).consts = c.consts := by cases b <;> rfl
@[simp] theorem Core.setBuf_entries (c : Core) (b : Buf) (m : NMap Byte) : (c.setBuf b m).entries = c.entries := by cases b <;> rfl
@[simp] theorem Core.setBuf_handed (c : Core) (b : Buf) (m : NMap Byte) : (c.setBuf b m).handed = c.handed := by cases b <;> rfl
@[simp] theorem Core.setBuf_absent (c : Core) (b : Buf) (m : NMap Byte) : (c.setBuf b m).absent = c.absent := by cases b <;> rfl
@[simp] theorem Core.setBuf_teams (c : Core) (b : Buf) (m : NMap Byte) : (c.setBuf b m).teams = c.teams := by cases b <;> rfl
@[simp] theorem Core.setBuf_clusBars (c : Core) (b : Buf) (m : NMap Byte) : (c.setBuf b m).clusBars = c.clusBars := by cases b <;> rfl
@[simp] theorem Core.setBuf_groups (c : Core) (b : Buf) (m : NMap Byte) : (c.setBuf b m).groups = c.groups := by cases b <;> rfl
@[simp] theorem Core.setBuf_inbox (c : Core) (b : Buf) (m : NMap Byte) : (c.setBuf b m).inbox = c.inbox := by cases b <;> rfl
@[simp] theorem Core.setBuf_outbox (c : Core) (b : Buf) (m : NMap Byte) : (c.setBuf b m).outbox = c.outbox := by cases b <;> rfl
@[simp] theorem Core.setBuf_atomRets (c : Core) (b : Buf) (m : NMap Byte) : (c.setBuf b m).atomRets = c.atomRets := by cases b <;> rfl
@[simp] theorem Core.setBuf_commits (c : Core) (b : Buf) (m : NMap Byte) : (c.setBuf b m).commits = c.commits := by cases b <;> rfl
@[simp] theorem Core.setBuf_nextNum (c : Core) (b : Buf) (m : NMap Byte) : (c.setBuf b m).nextNum = c.nextNum := by cases b <;> rfl
@[simp] theorem Core.setBuf_spilled (c : Core) (b : Buf) (m : NMap Byte) : (c.setBuf b m).spilled = c.spilled := by cases b <;> rfl
@[simp] theorem Core.setBuf_spillHeld (c : Core) (b : Buf) (m : NMap Byte) : (c.setBuf b m).spillHeld = c.spillHeld := by cases b <;> rfl
@[simp] theorem Core.setBuf_filter (c : Core) (b : Buf) (m : NMap Byte) : (c.setBuf b m).filter = c.filter := by cases b <;> rfl
@[simp] theorem Core.setBuf_spillStop (c : Core) (b : Buf) (m : NMap Byte) : (c.setBuf b m).spillStop = c.spillStop := by cases b <;> rfl
@[simp] theorem Core.setBuf_overlay (c : Core) (b : Buf) (m : NMap Byte) : (c.setBuf b m).overlay = c.overlay := by cases b <;> rfl
@[simp] theorem Core.setBuf_overlayAsked (c : Core) (b : Buf) (m : NMap Byte) : (c.setBuf b m).overlayAsked = c.overlayAsked := by cases b <;> rfl
@[simp] theorem Core.setBuf_barArrivals (c : Core) (b : Buf) (m : NMap Byte) : (c.setBuf b m).barArrivals = c.barArrivals := by cases b <;> rfl
@[simp] theorem Core.setBuf_courier (c : Core) (b : Buf) (m : NMap Byte) : (c.setBuf b m).courier = c.courier := by cases b <;> rfl
@[simp] theorem Core.setBuf_landing (c : Core) (b : Buf) (m : NMap Byte) : (c.setBuf b m).landing = c.landing := by cases b <;> rfl
@[simp] theorem Core.setBuf_matq (c : Core) (b : Buf) (m : NMap Byte) : (c.setBuf b m).matq = c.matq := by cases b <;> rfl
@[simp] theorem Core.setBuf_gang (c : Core) (b : Buf) (m : NMap Byte) : (c.setBuf b m).gang = c.gang := by cases b <;> rfl
@[simp] theorem Core.setBuf_divq (c : Core) (b : Buf) (m : NMap Byte) : (c.setBuf b m).divq = c.divq := by cases b <;> rfl
@[simp] theorem Core.setBuf_tables (c : Core) (b : Buf) (m : NMap Byte) : (c.setBuf b m).tables = c.tables := by cases b <;> rfl
@[simp] theorem Core.setBuf_tcur (c : Core) (b : Buf) (m : NMap Byte) : (c.setBuf b m).tcur = c.tcur := by cases b <;> rfl
@[simp] theorem Core.setBuf_tloads (c : Core) (b : Buf) (m : NMap Byte) : (c.setBuf b m).tloads = c.tloads := by cases b <;> rfl
@[simp] theorem Core.setBuf_l1 (c : Core) (b : Buf) (m : NMap Byte) : (c.setBuf b m).l1 = c.l1 := by cases b <;> rfl
@[simp] theorem Core.setBuf_l1tlb (c : Core) (b : Buf) (m : NMap Byte) : (c.setBuf b m).l1tlb = c.l1tlb := by cases b <;> rfl
@[simp] theorem Core.setBuf_renewals (c : Core) (b : Buf) (m : NMap Byte) : (c.setBuf b m).renewals = c.renewals := by cases b <;> rfl
@[simp] theorem Core.setBuf_pendFilter (c : Core) (b : Buf) (m : NMap Byte) : (c.setBuf b m).pendFilter = c.pendFilter := by cases b <;> rfl
@[simp] theorem Core.setBuf_wcb (c : Core) (b : Buf) (m : NMap Byte) : (c.setBuf b m).wcb = c.wcb := by cases b <;> rfl
@[simp] theorem Core.setBuf_park (c : Core) (b : Buf) (m : NMap Byte) : (c.setBuf b m).park = c.park := by cases b <;> rfl
@[simp] theorem Core.setBuf_parkOver (c : Core) (b : Buf) (m : NMap Byte) : (c.setBuf b m).parkOver = c.parkOver := by cases b <;> rfl
@[simp] theorem Core.setBuf_reserve (c : Core) (b : Buf) (m : NMap Byte) : (c.setBuf b m).reserve = c.reserve := by cases b <;> rfl
@[simp] theorem Core.setBuf_deposits (c : Core) (b : Buf) (m : NMap Byte) : (c.setBuf b m).deposits = c.deposits := by cases b <;> rfl
@[simp] theorem Core.setBuf_gate (c : Core) (b : Buf) (m : NMap Byte) : (c.setBuf b m).gate = c.gate := by cases b <;> rfl
@[simp] theorem Core.setBuf_sent (c : Core) (b : Buf) (m : NMap Byte) : (c.setBuf b m).sent = c.sent := by cases b <;> rfl
@[simp] theorem Core.setBuf_received (c : Core) (b : Buf) (m : NMap Byte) : (c.setBuf b m).received = c.received := by cases b <;> rfl
@[simp] theorem Core.setBuf_eosCount (c : Core) (b : Buf) (m : NMap Byte) : (c.setBuf b m).eosCount = c.eosCount := by cases b <;> rfl
@[simp] theorem Core.setBuf_rlCount (c : Core) (b : Buf) (m : NMap Byte) : (c.setBuf b m).rlCount = c.rlCount := by cases b <;> rfl
@[simp] theorem Core.setBuf_rlStart (c : Core) (b : Buf) (m : NMap Byte) : (c.setBuf b m).rlStart = c.rlStart := by cases b <;> rfl
@[simp] theorem Core.setBuf_quenched (c : Core) (b : Buf) (m : NMap Byte) : (c.setBuf b m).quenched = c.quenched := by cases b <;> rfl
@[simp] theorem Core.setBuf_markers (c : Core) (b : Buf) (m : NMap Byte) : (c.setBuf b m).markers = c.markers := by cases b <;> rfl
@[simp] theorem Core.setBuf_saved (c : Core) (b : Buf) (m : NMap Byte) : (c.setBuf b m).saved = c.saved := by cases b <;> rfl
@[simp] theorem Core.setBuf_sources (c : Core) (b : Buf) (m : NMap Byte) : (c.setBuf b m).sources = c.sources := by cases b <;> rfl

/-! ## Updates of a group -/

@[simp] theorem Group.advance_bslot (g : Group) : g.advance.bslot = g.bslot := rfl
@[simp] theorem Group.advance_bid (g : Group) : g.advance.bid = g.bid := rfl
@[simp] theorem Group.advance_colour (g : Group) : g.advance.colour = g.colour := rfl
@[simp] theorem Group.advance_wlog (g : Group) : g.advance.wlog = g.wlog := rfl
@[simp] theorem Group.advance_insts (g : Group) : g.advance.insts = g.insts := rfl
@[simp] theorem Group.advance_tags (g : Group) : g.advance.tags = g.tags := rfl
@[simp] theorem Group.advance_em (g : Group) : g.advance.em = g.em := rfl
@[simp] theorem Group.advance_emFire (g : Group) : g.advance.emFire = g.emFire := rfl
@[simp] theorem Group.advance_team (g : Group) : g.advance.team = g.team := rfl
@[simp] theorem Group.advance_prio (g : Group) : g.advance.prio = g.prio := rfl
@[simp] theorem Group.advance_stamp (g : Group) : g.advance.stamp = g.stamp := rfl
@[simp] theorem Group.advance_regs (g : Group) : g.advance.regs = g.regs := rfl
@[simp] theorem Group.advance_preds (g : Group) : g.advance.preds = g.preds := rfl
@[simp] theorem Group.advance_flags (g : Group) : g.advance.flags = g.flags := rfl
@[simp] theorem Group.advance_ops (g : Group) : g.advance.ops = g.ops := rfl
@[simp] theorem Group.advance_fpsr (g : Group) : g.advance.fpsr = g.fpsr := rfl
@[simp] theorem Group.advance_sr (g : Group) : g.advance.sr = g.sr := rfl
@[simp] theorem Group.advance_ll (g : Group) : g.advance.ll = g.ll := rfl
@[simp] theorem Group.advance_gtchi (g : Group) : g.advance.gtchi = g.gtchi := rfl
@[simp] theorem Group.advance_latch (g : Group) : g.advance.latch = g.latch := rfl
@[simp] theorem Group.advance_tbind (g : Group) : g.advance.tbind = g.tbind := rfl
@[simp] theorem Group.advance_undo (g : Group) : g.advance.undo = g.undo := rfl
@[simp] theorem Group.advance_tileUndo (g : Group) : g.advance.tileUndo = g.tileUndo := rfl
@[simp] theorem Group.advance_sbuf (g : Group) : g.advance.sbuf = g.sbuf := rfl
@[simp] theorem Group.advance_deposits (g : Group) : g.advance.deposits = g.deposits := rfl
@[simp] theorem Group.advance_fences (g : Group) : g.advance.fences = g.fences := rfl
@[simp] theorem Group.advance_acqWait (g : Group) : g.advance.acqWait = g.acqWait := rfl
@[simp] theorem Group.advance_sendq (g : Group) : g.advance.sendq = g.sendq := rfl
@[simp] theorem Group.advance_validation (g : Group) : g.advance.validation = g.validation := rfl
@[simp] theorem Group.advance_mismatches (g : Group) : g.advance.mismatches = g.mismatches := rfl
@[simp] theorem Group.advance_footprint (g : Group) : g.advance.footprint = g.footprint := rfl
@[simp] theorem Group.advance_l1used (g : Group) : g.advance.l1used = g.l1used := rfl
@[simp] theorem Group.advance_deferred (g : Group) : g.advance.deferred = g.deferred := rfl
@[simp] theorem Group.advance_bars (g : Group) : g.advance.bars = g.bars := rfl
@[simp] theorem Group.advance_replaying (g : Group) : g.advance.replaying = g.replaying := rfl
@[simp] theorem Group.advance_passWord (g : Group) : g.advance.passWord = g.passWord := rfl
@[simp] theorem Group.advance_resumes (g : Group) : g.advance.resumes = g.resumes := rfl
@[simp] theorem Group.advance_commit (g : Group) : g.advance.commit = g.commit := rfl
@[simp] theorem Group.advance_base (g : Group) : g.advance.base = g.base := rfl
@[simp] theorem Group.advance_areaWait (g : Group) : g.advance.areaWait = g.areaWait := rfl
@[simp] theorem Group.setReg_bslot (g : Group) (n l : Nat) (v : Word) : (g.setReg n l v).bslot = g.bslot := rfl
@[simp] theorem Group.setReg_bid (g : Group) (n l : Nat) (v : Word) : (g.setReg n l v).bid = g.bid := rfl
@[simp] theorem Group.setReg_colour (g : Group) (n l : Nat) (v : Word) : (g.setReg n l v).colour = g.colour := rfl
@[simp] theorem Group.setReg_wlog (g : Group) (n l : Nat) (v : Word) : (g.setReg n l v).wlog = g.wlog := rfl
@[simp] theorem Group.setReg_insts (g : Group) (n l : Nat) (v : Word) : (g.setReg n l v).insts = g.insts := rfl
@[simp] theorem Group.setReg_tags (g : Group) (n l : Nat) (v : Word) : (g.setReg n l v).tags = g.tags := rfl
@[simp] theorem Group.setReg_em (g : Group) (n l : Nat) (v : Word) : (g.setReg n l v).em = g.em := rfl
@[simp] theorem Group.setReg_emFire (g : Group) (n l : Nat) (v : Word) : (g.setReg n l v).emFire = g.emFire := rfl
@[simp] theorem Group.setReg_team (g : Group) (n l : Nat) (v : Word) : (g.setReg n l v).team = g.team := rfl
@[simp] theorem Group.setReg_prio (g : Group) (n l : Nat) (v : Word) : (g.setReg n l v).prio = g.prio := rfl
@[simp] theorem Group.setReg_passOver (g : Group) (n l : Nat) (v : Word) : (g.setReg n l v).passOver = g.passOver := rfl
@[simp] theorem Group.setReg_stamp (g : Group) (n l : Nat) (v : Word) : (g.setReg n l v).stamp = g.stamp := rfl
@[simp] theorem Group.setReg_pc (g : Group) (n l : Nat) (v : Word) : (g.setReg n l v).pc = g.pc := rfl
@[simp] theorem Group.setReg_status (g : Group) (n l : Nat) (v : Word) : (g.setReg n l v).status = g.status := rfl
@[simp] theorem Group.setReg_preds (g : Group) (n l : Nat) (v : Word) : (g.setReg n l v).preds = g.preds := rfl
@[simp] theorem Group.setReg_flags (g : Group) (n l : Nat) (v : Word) : (g.setReg n l v).flags = g.flags := rfl
@[simp] theorem Group.setReg_ops (g : Group) (n l : Nat) (v : Word) : (g.setReg n l v).ops = g.ops := rfl
@[simp] theorem Group.setReg_fpsr (g : Group) (n l : Nat) (v : Word) : (g.setReg n l v).fpsr = g.fpsr := rfl
@[simp] theorem Group.setReg_sr (g : Group) (n l : Nat) (v : Word) : (g.setReg n l v).sr = g.sr := rfl
@[simp] theorem Group.setReg_ll (g : Group) (n l : Nat) (v : Word) : (g.setReg n l v).ll = g.ll := rfl
@[simp] theorem Group.setReg_gtchi (g : Group) (n l : Nat) (v : Word) : (g.setReg n l v).gtchi = g.gtchi := rfl
@[simp] theorem Group.setReg_latch (g : Group) (n l : Nat) (v : Word) : (g.setReg n l v).latch = g.latch := rfl
@[simp] theorem Group.setReg_tbind (g : Group) (n l : Nat) (v : Word) : (g.setReg n l v).tbind = g.tbind := rfl
@[simp] theorem Group.setReg_undo (g : Group) (n l : Nat) (v : Word) : (g.setReg n l v).undo = g.undo := rfl
@[simp] theorem Group.setReg_tileUndo (g : Group) (n l : Nat) (v : Word) : (g.setReg n l v).tileUndo = g.tileUndo := rfl
@[simp] theorem Group.setReg_sbuf (g : Group) (n l : Nat) (v : Word) : (g.setReg n l v).sbuf = g.sbuf := rfl
@[simp] theorem Group.setReg_deposits (g : Group) (n l : Nat) (v : Word) : (g.setReg n l v).deposits = g.deposits := rfl
@[simp] theorem Group.setReg_fences (g : Group) (n l : Nat) (v : Word) : (g.setReg n l v).fences = g.fences := rfl
@[simp] theorem Group.setReg_acqWait (g : Group) (n l : Nat) (v : Word) : (g.setReg n l v).acqWait = g.acqWait := rfl
@[simp] theorem Group.setReg_sendq (g : Group) (n l : Nat) (v : Word) : (g.setReg n l v).sendq = g.sendq := rfl
@[simp] theorem Group.setReg_validation (g : Group) (n l : Nat) (v : Word) : (g.setReg n l v).validation = g.validation := rfl
@[simp] theorem Group.setReg_mismatches (g : Group) (n l : Nat) (v : Word) : (g.setReg n l v).mismatches = g.mismatches := rfl
@[simp] theorem Group.setReg_footprint (g : Group) (n l : Nat) (v : Word) : (g.setReg n l v).footprint = g.footprint := rfl
@[simp] theorem Group.setReg_l1used (g : Group) (n l : Nat) (v : Word) : (g.setReg n l v).l1used = g.l1used := rfl
@[simp] theorem Group.setReg_deferred (g : Group) (n l : Nat) (v : Word) : (g.setReg n l v).deferred = g.deferred := rfl
@[simp] theorem Group.setReg_bars (g : Group) (n l : Nat) (v : Word) : (g.setReg n l v).bars = g.bars := rfl
@[simp] theorem Group.setReg_replaying (g : Group) (n l : Nat) (v : Word) : (g.setReg n l v).replaying = g.replaying := rfl
@[simp] theorem Group.setReg_passWord (g : Group) (n l : Nat) (v : Word) : (g.setReg n l v).passWord = g.passWord := rfl
@[simp] theorem Group.setReg_resumes (g : Group) (n l : Nat) (v : Word) : (g.setReg n l v).resumes = g.resumes := rfl
@[simp] theorem Group.setReg_commit (g : Group) (n l : Nat) (v : Word) : (g.setReg n l v).commit = g.commit := rfl
@[simp] theorem Group.setReg_base (g : Group) (n l : Nat) (v : Word) : (g.setReg n l v).base = g.base := rfl
@[simp] theorem Group.setReg_place (g : Group) (n l : Nat) (v : Word) : (g.setReg n l v).place = g.place := rfl
@[simp] theorem Group.setReg_areaWait (g : Group) (n l : Nat) (v : Word) : (g.setReg n l v).areaWait = g.areaWait := rfl
@[simp] theorem Group.setPred_bslot (g : Group) (n l : Nat) (v : Bool) : (g.setPred n l v).bslot = g.bslot := rfl
@[simp] theorem Group.setPred_bid (g : Group) (n l : Nat) (v : Bool) : (g.setPred n l v).bid = g.bid := rfl
@[simp] theorem Group.setPred_colour (g : Group) (n l : Nat) (v : Bool) : (g.setPred n l v).colour = g.colour := rfl
@[simp] theorem Group.setPred_wlog (g : Group) (n l : Nat) (v : Bool) : (g.setPred n l v).wlog = g.wlog := rfl
@[simp] theorem Group.setPred_insts (g : Group) (n l : Nat) (v : Bool) : (g.setPred n l v).insts = g.insts := rfl
@[simp] theorem Group.setPred_tags (g : Group) (n l : Nat) (v : Bool) : (g.setPred n l v).tags = g.tags := rfl
@[simp] theorem Group.setPred_em (g : Group) (n l : Nat) (v : Bool) : (g.setPred n l v).em = g.em := rfl
@[simp] theorem Group.setPred_emFire (g : Group) (n l : Nat) (v : Bool) : (g.setPred n l v).emFire = g.emFire := rfl
@[simp] theorem Group.setPred_team (g : Group) (n l : Nat) (v : Bool) : (g.setPred n l v).team = g.team := rfl
@[simp] theorem Group.setPred_prio (g : Group) (n l : Nat) (v : Bool) : (g.setPred n l v).prio = g.prio := rfl
@[simp] theorem Group.setPred_passOver (g : Group) (n l : Nat) (v : Bool) : (g.setPred n l v).passOver = g.passOver := rfl
@[simp] theorem Group.setPred_stamp (g : Group) (n l : Nat) (v : Bool) : (g.setPred n l v).stamp = g.stamp := rfl
@[simp] theorem Group.setPred_pc (g : Group) (n l : Nat) (v : Bool) : (g.setPred n l v).pc = g.pc := rfl
@[simp] theorem Group.setPred_status (g : Group) (n l : Nat) (v : Bool) : (g.setPred n l v).status = g.status := rfl
@[simp] theorem Group.setPred_regs (g : Group) (n l : Nat) (v : Bool) : (g.setPred n l v).regs = g.regs := rfl
@[simp] theorem Group.setPred_flags (g : Group) (n l : Nat) (v : Bool) : (g.setPred n l v).flags = g.flags := rfl
@[simp] theorem Group.setPred_ops (g : Group) (n l : Nat) (v : Bool) : (g.setPred n l v).ops = g.ops := rfl
@[simp] theorem Group.setPred_fpsr (g : Group) (n l : Nat) (v : Bool) : (g.setPred n l v).fpsr = g.fpsr := rfl
@[simp] theorem Group.setPred_sr (g : Group) (n l : Nat) (v : Bool) : (g.setPred n l v).sr = g.sr := rfl
@[simp] theorem Group.setPred_ll (g : Group) (n l : Nat) (v : Bool) : (g.setPred n l v).ll = g.ll := rfl
@[simp] theorem Group.setPred_gtchi (g : Group) (n l : Nat) (v : Bool) : (g.setPred n l v).gtchi = g.gtchi := rfl
@[simp] theorem Group.setPred_latch (g : Group) (n l : Nat) (v : Bool) : (g.setPred n l v).latch = g.latch := rfl
@[simp] theorem Group.setPred_tbind (g : Group) (n l : Nat) (v : Bool) : (g.setPred n l v).tbind = g.tbind := rfl
@[simp] theorem Group.setPred_undo (g : Group) (n l : Nat) (v : Bool) : (g.setPred n l v).undo = g.undo := rfl
@[simp] theorem Group.setPred_tileUndo (g : Group) (n l : Nat) (v : Bool) : (g.setPred n l v).tileUndo = g.tileUndo := rfl
@[simp] theorem Group.setPred_sbuf (g : Group) (n l : Nat) (v : Bool) : (g.setPred n l v).sbuf = g.sbuf := rfl
@[simp] theorem Group.setPred_deposits (g : Group) (n l : Nat) (v : Bool) : (g.setPred n l v).deposits = g.deposits := rfl
@[simp] theorem Group.setPred_fences (g : Group) (n l : Nat) (v : Bool) : (g.setPred n l v).fences = g.fences := rfl
@[simp] theorem Group.setPred_acqWait (g : Group) (n l : Nat) (v : Bool) : (g.setPred n l v).acqWait = g.acqWait := rfl
@[simp] theorem Group.setPred_sendq (g : Group) (n l : Nat) (v : Bool) : (g.setPred n l v).sendq = g.sendq := rfl
@[simp] theorem Group.setPred_validation (g : Group) (n l : Nat) (v : Bool) : (g.setPred n l v).validation = g.validation := rfl
@[simp] theorem Group.setPred_mismatches (g : Group) (n l : Nat) (v : Bool) : (g.setPred n l v).mismatches = g.mismatches := rfl
@[simp] theorem Group.setPred_footprint (g : Group) (n l : Nat) (v : Bool) : (g.setPred n l v).footprint = g.footprint := rfl
@[simp] theorem Group.setPred_l1used (g : Group) (n l : Nat) (v : Bool) : (g.setPred n l v).l1used = g.l1used := rfl
@[simp] theorem Group.setPred_deferred (g : Group) (n l : Nat) (v : Bool) : (g.setPred n l v).deferred = g.deferred := rfl
@[simp] theorem Group.setPred_bars (g : Group) (n l : Nat) (v : Bool) : (g.setPred n l v).bars = g.bars := rfl
@[simp] theorem Group.setPred_replaying (g : Group) (n l : Nat) (v : Bool) : (g.setPred n l v).replaying = g.replaying := rfl
@[simp] theorem Group.setPred_passWord (g : Group) (n l : Nat) (v : Bool) : (g.setPred n l v).passWord = g.passWord := rfl
@[simp] theorem Group.setPred_resumes (g : Group) (n l : Nat) (v : Bool) : (g.setPred n l v).resumes = g.resumes := rfl
@[simp] theorem Group.setPred_commit (g : Group) (n l : Nat) (v : Bool) : (g.setPred n l v).commit = g.commit := rfl
@[simp] theorem Group.setPred_base (g : Group) (n l : Nat) (v : Bool) : (g.setPred n l v).base = g.base := rfl
@[simp] theorem Group.setPred_place (g : Group) (n l : Nat) (v : Bool) : (g.setPred n l v).place = g.place := rfl
@[simp] theorem Group.setPred_areaWait (g : Group) (n l : Nat) (v : Bool) : (g.setPred n l v).areaWait = g.areaWait := rfl
@[simp] theorem Group.advance_pc (g : Group) : g.advance.pc = g.pc + 1 := rfl
@[simp] theorem Group.advance_status (g : Group) : g.advance.status = .ready := rfl
@[simp] theorem Group.advance_passOver (g : Group) : g.advance.passOver = 0 := rfl
@[simp] theorem Group.advance_place (g : Group) : g.advance.place = none := rfl
@[simp] theorem Group.setFl_bslot (g : Group) (fl : Nat) : (g.setFl fl).bslot = g.bslot := by unfold Group.setFl; split <;> rfl
@[simp] theorem Group.setFl_bid (g : Group) (fl : Nat) : (g.setFl fl).bid = g.bid := by unfold Group.setFl; split <;> rfl
@[simp] theorem Group.setFl_colour (g : Group) (fl : Nat) : (g.setFl fl).colour = g.colour := by unfold Group.setFl; split <;> rfl
@[simp] theorem Group.setFl_wlog (g : Group) (fl : Nat) : (g.setFl fl).wlog = g.wlog := by unfold Group.setFl; split <;> rfl
@[simp] theorem Group.setFl_insts (g : Group) (fl : Nat) : (g.setFl fl).insts = g.insts := by unfold Group.setFl; split <;> rfl
@[simp] theorem Group.setFl_tags (g : Group) (fl : Nat) : (g.setFl fl).tags = g.tags := by unfold Group.setFl; split <;> rfl
@[simp] theorem Group.setFl_em (g : Group) (fl : Nat) : (g.setFl fl).em = g.em := by unfold Group.setFl; split <;> rfl
@[simp] theorem Group.setFl_emFire (g : Group) (fl : Nat) : (g.setFl fl).emFire = g.emFire := by unfold Group.setFl; split <;> rfl
@[simp] theorem Group.setFl_team (g : Group) (fl : Nat) : (g.setFl fl).team = g.team := by unfold Group.setFl; split <;> rfl
@[simp] theorem Group.setFl_prio (g : Group) (fl : Nat) : (g.setFl fl).prio = g.prio := by unfold Group.setFl; split <;> rfl
@[simp] theorem Group.setFl_passOver (g : Group) (fl : Nat) : (g.setFl fl).passOver = g.passOver := by unfold Group.setFl; split <;> rfl
@[simp] theorem Group.setFl_stamp (g : Group) (fl : Nat) : (g.setFl fl).stamp = g.stamp := by unfold Group.setFl; split <;> rfl
@[simp] theorem Group.setFl_pc (g : Group) (fl : Nat) : (g.setFl fl).pc = g.pc := by unfold Group.setFl; split <;> rfl
@[simp] theorem Group.setFl_status (g : Group) (fl : Nat) : (g.setFl fl).status = g.status := by unfold Group.setFl; split <;> rfl
@[simp] theorem Group.setFl_regs (g : Group) (fl : Nat) : (g.setFl fl).regs = g.regs := by unfold Group.setFl; split <;> rfl
@[simp] theorem Group.setFl_preds (g : Group) (fl : Nat) : (g.setFl fl).preds = g.preds := by unfold Group.setFl; split <;> rfl
@[simp] theorem Group.setFl_flags (g : Group) (fl : Nat) : (g.setFl fl).flags = g.flags := by unfold Group.setFl; split <;> rfl
@[simp] theorem Group.setFl_ops (g : Group) (fl : Nat) : (g.setFl fl).ops = g.ops := by unfold Group.setFl; split <;> rfl
@[simp] theorem Group.setFl_sr (g : Group) (fl : Nat) : (g.setFl fl).sr = g.sr := by unfold Group.setFl; split <;> rfl
@[simp] theorem Group.setFl_ll (g : Group) (fl : Nat) : (g.setFl fl).ll = g.ll := by unfold Group.setFl; split <;> rfl
@[simp] theorem Group.setFl_gtchi (g : Group) (fl : Nat) : (g.setFl fl).gtchi = g.gtchi := by unfold Group.setFl; split <;> rfl
@[simp] theorem Group.setFl_latch (g : Group) (fl : Nat) : (g.setFl fl).latch = g.latch := by unfold Group.setFl; split <;> rfl
@[simp] theorem Group.setFl_tbind (g : Group) (fl : Nat) : (g.setFl fl).tbind = g.tbind := by unfold Group.setFl; split <;> rfl
@[simp] theorem Group.setFl_undo (g : Group) (fl : Nat) : (g.setFl fl).undo = g.undo := by unfold Group.setFl; split <;> rfl
@[simp] theorem Group.setFl_tileUndo (g : Group) (fl : Nat) : (g.setFl fl).tileUndo = g.tileUndo := by unfold Group.setFl; split <;> rfl
@[simp] theorem Group.setFl_sbuf (g : Group) (fl : Nat) : (g.setFl fl).sbuf = g.sbuf := by unfold Group.setFl; split <;> rfl
@[simp] theorem Group.setFl_deposits (g : Group) (fl : Nat) : (g.setFl fl).deposits = g.deposits := by unfold Group.setFl; split <;> rfl
@[simp] theorem Group.setFl_fences (g : Group) (fl : Nat) : (g.setFl fl).fences = g.fences := by unfold Group.setFl; split <;> rfl
@[simp] theorem Group.setFl_acqWait (g : Group) (fl : Nat) : (g.setFl fl).acqWait = g.acqWait := by unfold Group.setFl; split <;> rfl
@[simp] theorem Group.setFl_sendq (g : Group) (fl : Nat) : (g.setFl fl).sendq = g.sendq := by unfold Group.setFl; split <;> rfl
@[simp] theorem Group.setFl_validation (g : Group) (fl : Nat) : (g.setFl fl).validation = g.validation := by unfold Group.setFl; split <;> rfl
@[simp] theorem Group.setFl_mismatches (g : Group) (fl : Nat) : (g.setFl fl).mismatches = g.mismatches := by unfold Group.setFl; split <;> rfl
@[simp] theorem Group.setFl_footprint (g : Group) (fl : Nat) : (g.setFl fl).footprint = g.footprint := by unfold Group.setFl; split <;> rfl
@[simp] theorem Group.setFl_l1used (g : Group) (fl : Nat) : (g.setFl fl).l1used = g.l1used := by unfold Group.setFl; split <;> rfl
@[simp] theorem Group.setFl_deferred (g : Group) (fl : Nat) : (g.setFl fl).deferred = g.deferred := by unfold Group.setFl; split <;> rfl
@[simp] theorem Group.setFl_bars (g : Group) (fl : Nat) : (g.setFl fl).bars = g.bars := by unfold Group.setFl; split <;> rfl
@[simp] theorem Group.setFl_replaying (g : Group) (fl : Nat) : (g.setFl fl).replaying = g.replaying := by unfold Group.setFl; split <;> rfl
@[simp] theorem Group.setFl_passWord (g : Group) (fl : Nat) : (g.setFl fl).passWord = g.passWord := by unfold Group.setFl; split <;> rfl
@[simp] theorem Group.setFl_resumes (g : Group) (fl : Nat) : (g.setFl fl).resumes = g.resumes := by unfold Group.setFl; split <;> rfl
@[simp] theorem Group.setFl_commit (g : Group) (fl : Nat) : (g.setFl fl).commit = g.commit := by unfold Group.setFl; split <;> rfl
@[simp] theorem Group.setFl_base (g : Group) (fl : Nat) : (g.setFl fl).base = g.base := by unfold Group.setFl; split <;> rfl
@[simp] theorem Group.setFl_place (g : Group) (fl : Nat) : (g.setFl fl).place = g.place := by unfold Group.setFl; split <;> rfl
@[simp] theorem Group.setFl_areaWait (g : Group) (fl : Nat) : (g.setFl fl).areaWait = g.areaWait := by unfold Group.setFl; split <;> rfl
@[simp] theorem Group.flagUp_bslot (g : Group) (f : Option Nat) : (g.flagUp f).bslot = g.bslot := by cases f <;> rfl
@[simp] theorem Group.flagUp_bid (g : Group) (f : Option Nat) : (g.flagUp f).bid = g.bid := by cases f <;> rfl
@[simp] theorem Group.flagUp_colour (g : Group) (f : Option Nat) : (g.flagUp f).colour = g.colour := by cases f <;> rfl
@[simp] theorem Group.flagUp_wlog (g : Group) (f : Option Nat) : (g.flagUp f).wlog = g.wlog := by cases f <;> rfl
@[simp] theorem Group.flagUp_insts (g : Group) (f : Option Nat) : (g.flagUp f).insts = g.insts := by cases f <;> rfl
@[simp] theorem Group.flagUp_tags (g : Group) (f : Option Nat) : (g.flagUp f).tags = g.tags := by cases f <;> rfl
@[simp] theorem Group.flagUp_em (g : Group) (f : Option Nat) : (g.flagUp f).em = g.em := by cases f <;> rfl
@[simp] theorem Group.flagUp_emFire (g : Group) (f : Option Nat) : (g.flagUp f).emFire = g.emFire := by cases f <;> rfl
@[simp] theorem Group.flagUp_team (g : Group) (f : Option Nat) : (g.flagUp f).team = g.team := by cases f <;> rfl
@[simp] theorem Group.flagUp_prio (g : Group) (f : Option Nat) : (g.flagUp f).prio = g.prio := by cases f <;> rfl
@[simp] theorem Group.flagUp_passOver (g : Group) (f : Option Nat) : (g.flagUp f).passOver = g.passOver := by cases f <;> rfl
@[simp] theorem Group.flagUp_stamp (g : Group) (f : Option Nat) : (g.flagUp f).stamp = g.stamp := by cases f <;> rfl
@[simp] theorem Group.flagUp_pc (g : Group) (f : Option Nat) : (g.flagUp f).pc = g.pc := by cases f <;> rfl
@[simp] theorem Group.flagUp_status (g : Group) (f : Option Nat) : (g.flagUp f).status = g.status := by cases f <;> rfl
@[simp] theorem Group.flagUp_regs (g : Group) (f : Option Nat) : (g.flagUp f).regs = g.regs := by cases f <;> rfl
@[simp] theorem Group.flagUp_preds (g : Group) (f : Option Nat) : (g.flagUp f).preds = g.preds := by cases f <;> rfl
@[simp] theorem Group.flagUp_ops (g : Group) (f : Option Nat) : (g.flagUp f).ops = g.ops := by cases f <;> rfl
@[simp] theorem Group.flagUp_fpsr (g : Group) (f : Option Nat) : (g.flagUp f).fpsr = g.fpsr := by cases f <;> rfl
@[simp] theorem Group.flagUp_sr (g : Group) (f : Option Nat) : (g.flagUp f).sr = g.sr := by cases f <;> rfl
@[simp] theorem Group.flagUp_ll (g : Group) (f : Option Nat) : (g.flagUp f).ll = g.ll := by cases f <;> rfl
@[simp] theorem Group.flagUp_gtchi (g : Group) (f : Option Nat) : (g.flagUp f).gtchi = g.gtchi := by cases f <;> rfl
@[simp] theorem Group.flagUp_latch (g : Group) (f : Option Nat) : (g.flagUp f).latch = g.latch := by cases f <;> rfl
@[simp] theorem Group.flagUp_tbind (g : Group) (f : Option Nat) : (g.flagUp f).tbind = g.tbind := by cases f <;> rfl
@[simp] theorem Group.flagUp_undo (g : Group) (f : Option Nat) : (g.flagUp f).undo = g.undo := by cases f <;> rfl
@[simp] theorem Group.flagUp_tileUndo (g : Group) (f : Option Nat) : (g.flagUp f).tileUndo = g.tileUndo := by cases f <;> rfl
@[simp] theorem Group.flagUp_sbuf (g : Group) (f : Option Nat) : (g.flagUp f).sbuf = g.sbuf := by cases f <;> rfl
@[simp] theorem Group.flagUp_deposits (g : Group) (f : Option Nat) : (g.flagUp f).deposits = g.deposits := by cases f <;> rfl
@[simp] theorem Group.flagUp_fences (g : Group) (f : Option Nat) : (g.flagUp f).fences = g.fences := by cases f <;> rfl
@[simp] theorem Group.flagUp_acqWait (g : Group) (f : Option Nat) : (g.flagUp f).acqWait = g.acqWait := by cases f <;> rfl
@[simp] theorem Group.flagUp_sendq (g : Group) (f : Option Nat) : (g.flagUp f).sendq = g.sendq := by cases f <;> rfl
@[simp] theorem Group.flagUp_validation (g : Group) (f : Option Nat) : (g.flagUp f).validation = g.validation := by cases f <;> rfl
@[simp] theorem Group.flagUp_mismatches (g : Group) (f : Option Nat) : (g.flagUp f).mismatches = g.mismatches := by cases f <;> rfl
@[simp] theorem Group.flagUp_footprint (g : Group) (f : Option Nat) : (g.flagUp f).footprint = g.footprint := by cases f <;> rfl
@[simp] theorem Group.flagUp_l1used (g : Group) (f : Option Nat) : (g.flagUp f).l1used = g.l1used := by cases f <;> rfl
@[simp] theorem Group.flagUp_deferred (g : Group) (f : Option Nat) : (g.flagUp f).deferred = g.deferred := by cases f <;> rfl
@[simp] theorem Group.flagUp_bars (g : Group) (f : Option Nat) : (g.flagUp f).bars = g.bars := by cases f <;> rfl
@[simp] theorem Group.flagUp_replaying (g : Group) (f : Option Nat) : (g.flagUp f).replaying = g.replaying := by cases f <;> rfl
@[simp] theorem Group.flagUp_passWord (g : Group) (f : Option Nat) : (g.flagUp f).passWord = g.passWord := by cases f <;> rfl
@[simp] theorem Group.flagUp_resumes (g : Group) (f : Option Nat) : (g.flagUp f).resumes = g.resumes := by cases f <;> rfl
@[simp] theorem Group.flagUp_commit (g : Group) (f : Option Nat) : (g.flagUp f).commit = g.commit := by cases f <;> rfl
@[simp] theorem Group.flagUp_base (g : Group) (f : Option Nat) : (g.flagUp f).base = g.base := by cases f <;> rfl
@[simp] theorem Group.flagUp_place (g : Group) (f : Option Nat) : (g.flagUp f).place = g.place := by cases f <;> rfl
@[simp] theorem Group.flagUp_areaWait (g : Group) (f : Option Nat) : (g.flagUp f).areaWait = g.areaWait := by cases f <;> rfl
@[simp] theorem Group.flagDown_bslot (g : Group) (f : Option Nat) : (g.flagDown f).bslot = g.bslot := by cases f <;> rfl
@[simp] theorem Group.flagDown_bid (g : Group) (f : Option Nat) : (g.flagDown f).bid = g.bid := by cases f <;> rfl
@[simp] theorem Group.flagDown_colour (g : Group) (f : Option Nat) : (g.flagDown f).colour = g.colour := by cases f <;> rfl
@[simp] theorem Group.flagDown_wlog (g : Group) (f : Option Nat) : (g.flagDown f).wlog = g.wlog := by cases f <;> rfl
@[simp] theorem Group.flagDown_insts (g : Group) (f : Option Nat) : (g.flagDown f).insts = g.insts := by cases f <;> rfl
@[simp] theorem Group.flagDown_tags (g : Group) (f : Option Nat) : (g.flagDown f).tags = g.tags := by cases f <;> rfl
@[simp] theorem Group.flagDown_em (g : Group) (f : Option Nat) : (g.flagDown f).em = g.em := by cases f <;> rfl
@[simp] theorem Group.flagDown_emFire (g : Group) (f : Option Nat) : (g.flagDown f).emFire = g.emFire := by cases f <;> rfl
@[simp] theorem Group.flagDown_team (g : Group) (f : Option Nat) : (g.flagDown f).team = g.team := by cases f <;> rfl
@[simp] theorem Group.flagDown_prio (g : Group) (f : Option Nat) : (g.flagDown f).prio = g.prio := by cases f <;> rfl
@[simp] theorem Group.flagDown_passOver (g : Group) (f : Option Nat) : (g.flagDown f).passOver = g.passOver := by cases f <;> rfl
@[simp] theorem Group.flagDown_stamp (g : Group) (f : Option Nat) : (g.flagDown f).stamp = g.stamp := by cases f <;> rfl
@[simp] theorem Group.flagDown_pc (g : Group) (f : Option Nat) : (g.flagDown f).pc = g.pc := by cases f <;> rfl
@[simp] theorem Group.flagDown_status (g : Group) (f : Option Nat) : (g.flagDown f).status = g.status := by cases f <;> rfl
@[simp] theorem Group.flagDown_regs (g : Group) (f : Option Nat) : (g.flagDown f).regs = g.regs := by cases f <;> rfl
@[simp] theorem Group.flagDown_preds (g : Group) (f : Option Nat) : (g.flagDown f).preds = g.preds := by cases f <;> rfl
@[simp] theorem Group.flagDown_ops (g : Group) (f : Option Nat) : (g.flagDown f).ops = g.ops := by cases f <;> rfl
@[simp] theorem Group.flagDown_fpsr (g : Group) (f : Option Nat) : (g.flagDown f).fpsr = g.fpsr := by cases f <;> rfl
@[simp] theorem Group.flagDown_sr (g : Group) (f : Option Nat) : (g.flagDown f).sr = g.sr := by cases f <;> rfl
@[simp] theorem Group.flagDown_ll (g : Group) (f : Option Nat) : (g.flagDown f).ll = g.ll := by cases f <;> rfl
@[simp] theorem Group.flagDown_gtchi (g : Group) (f : Option Nat) : (g.flagDown f).gtchi = g.gtchi := by cases f <;> rfl
@[simp] theorem Group.flagDown_latch (g : Group) (f : Option Nat) : (g.flagDown f).latch = g.latch := by cases f <;> rfl
@[simp] theorem Group.flagDown_tbind (g : Group) (f : Option Nat) : (g.flagDown f).tbind = g.tbind := by cases f <;> rfl
@[simp] theorem Group.flagDown_undo (g : Group) (f : Option Nat) : (g.flagDown f).undo = g.undo := by cases f <;> rfl
@[simp] theorem Group.flagDown_tileUndo (g : Group) (f : Option Nat) : (g.flagDown f).tileUndo = g.tileUndo := by cases f <;> rfl
@[simp] theorem Group.flagDown_sbuf (g : Group) (f : Option Nat) : (g.flagDown f).sbuf = g.sbuf := by cases f <;> rfl
@[simp] theorem Group.flagDown_deposits (g : Group) (f : Option Nat) : (g.flagDown f).deposits = g.deposits := by cases f <;> rfl
@[simp] theorem Group.flagDown_fences (g : Group) (f : Option Nat) : (g.flagDown f).fences = g.fences := by cases f <;> rfl
@[simp] theorem Group.flagDown_acqWait (g : Group) (f : Option Nat) : (g.flagDown f).acqWait = g.acqWait := by cases f <;> rfl
@[simp] theorem Group.flagDown_sendq (g : Group) (f : Option Nat) : (g.flagDown f).sendq = g.sendq := by cases f <;> rfl
@[simp] theorem Group.flagDown_validation (g : Group) (f : Option Nat) : (g.flagDown f).validation = g.validation := by cases f <;> rfl
@[simp] theorem Group.flagDown_mismatches (g : Group) (f : Option Nat) : (g.flagDown f).mismatches = g.mismatches := by cases f <;> rfl
@[simp] theorem Group.flagDown_footprint (g : Group) (f : Option Nat) : (g.flagDown f).footprint = g.footprint := by cases f <;> rfl
@[simp] theorem Group.flagDown_l1used (g : Group) (f : Option Nat) : (g.flagDown f).l1used = g.l1used := by cases f <;> rfl
@[simp] theorem Group.flagDown_deferred (g : Group) (f : Option Nat) : (g.flagDown f).deferred = g.deferred := by cases f <;> rfl
@[simp] theorem Group.flagDown_bars (g : Group) (f : Option Nat) : (g.flagDown f).bars = g.bars := by cases f <;> rfl
@[simp] theorem Group.flagDown_replaying (g : Group) (f : Option Nat) : (g.flagDown f).replaying = g.replaying := by cases f <;> rfl
@[simp] theorem Group.flagDown_passWord (g : Group) (f : Option Nat) : (g.flagDown f).passWord = g.passWord := by cases f <;> rfl
@[simp] theorem Group.flagDown_resumes (g : Group) (f : Option Nat) : (g.flagDown f).resumes = g.resumes := by cases f <;> rfl
@[simp] theorem Group.flagDown_commit (g : Group) (f : Option Nat) : (g.flagDown f).commit = g.commit := by cases f <;> rfl
@[simp] theorem Group.flagDown_base (g : Group) (f : Option Nat) : (g.flagDown f).base = g.base := by cases f <;> rfl
@[simp] theorem Group.flagDown_place (g : Group) (f : Option Nat) : (g.flagDown f).place = g.place := by cases f <;> rfl
@[simp] theorem Group.flagDown_areaWait (g : Group) (f : Option Nat) : (g.flagDown f).areaWait = g.areaWait := by cases f <;> rfl

end Sys2Proof.Machine
end

