-- ==== Sys2Proof/Laws/Access.lean ====
section
/-! SUPPORT. Laws of the accessors, and what each shared operation of a word does: finishing, waiting, starting an operation and
writing lanes. -/

namespace Sys2Proof.Machine

open Sys2Proof.Safety

/-! ## Accessors -/

@[simp] theorem State.core_setCore_same (s : State) (ci : Nat) (c : Core) : (s.setCore ci c).core ci = c :=
  NMap.atD_put_same _ _ _ _

theorem State.core_setCore_other (s : State) (ci cj : Nat) (c : Core) (h : cj ≠ ci) : (s.setCore ci c).core cj = s.core cj :=
  NMap.atD_put_other _ _ _ _ _ _ h

@[simp] theorem State.core_modCore_same (s : State) (ci : Nat) (f : Core → Core) : (s.modCore ci f).core ci = f (s.core ci) :=
  State.core_setCore_same _ _ _

theorem State.core_modCore_other (s : State) (ci cj : Nat) (f : Core → Core) (h : cj ≠ ci) : (s.modCore ci f).core cj = s.core cj :=
  State.core_setCore_other _ _ _ _ h

@[simp] theorem State.slice_setSlice_same (s : State) (k : Nat) (x : Slice) : (s.setSlice k x).slice k = x :=
  NMap.atD_put_same _ _ _ _

theorem State.slice_setSlice_other (s : State) (k j : Nat) (x : Slice) (h : j ≠ k) : (s.setSlice k x).slice j = s.slice j :=
  NMap.atD_put_other _ _ _ _ _ _ h

@[simp] theorem State.die_setDie_same (s : State) (d : Nat) (x : Die) : (s.setDie d x).die d = x := NMap.atD_put_same _ _ _ _

theorem State.die_setDie_other (s : State) (d e : Nat) (x : Die) (h : e ≠ d) : (s.setDie d x).die e = s.die e :=
  NMap.atD_put_other _ _ _ _ _ _ h

@[simp] theorem Core.group?_setGroup_same (c : Core) (gi : Nat) (g : Group) : (c.setGroup gi g).group? gi = some g :=
  NMap.at?_ins_same _ _ _

theorem Core.group?_setGroup_other (c : Core) (gi k : Nat) (g : Group) (h : k ≠ gi) : (c.setGroup gi g).group? k = c.group? k :=
  NMap.at?_ins_other _ _ _ _ h

@[simp] theorem Core.group?_dropGroup_same (c : Core) (gi : Nat) : (c.dropGroup gi).group? gi = none := NMap.at?_del_same _ _

theorem Core.group?_dropGroup_other (c : Core) (gi k : Nat) (h : k ≠ gi) : (c.dropGroup gi).group? k = c.group? k :=
  NMap.at?_del_other _ _ _ h

@[simp] theorem Core.slot_setSlot_same (c : Core) (si : Nat) (b : BlockSlot) : (c.setSlot si b).slot si = b := NMap.atD_put_same _ _ _ _

theorem Core.slot_setSlot_other (c : Core) (si sj : Nat) (b : BlockSlot) (h : sj ≠ si) : (c.setSlot si b).slot sj = c.slot sj :=
  NMap.atD_put_other _ _ _ _ _ _ h

@[simp] theorem Core.team_setTeam_same (c : Core) (t : Nat) (x : Team) : (c.setTeam t x).team t = x := NMap.atD_put_same _ _ _ _

@[simp] theorem Core.buf_setBuf_same (c : Core) (b : Buf) (m : NMap Byte) : (c.setBuf b m).buf b = m := by cases b <;> rfl

theorem Core.buf_setBuf_other (c : Core) (d b : Buf) (m : NMap Byte) (h : d ≠ b) : (c.setBuf b m).buf d = c.buf d := by
  cases d <;> cases b <;> first | rfl | exact absurd rfl h

theorem State.memByte_of_mem (s t : State) (h : t.mem = s.mem) (a : Nat) : t.memByte a = s.memByte a := by
  unfold State.memByte; rw [h]

/-! ## The outcome of a word -/

/-- A meaning runs on the issuing group. -/
theorem withIssuer_of {s : State} {g : Group} (h : Issuing s g) (k : Core → Group → State) :
    withIssuer s k = .next (k (s.core s.cur.1) g) := by
  unfold withIssuer; rw [show (s.core s.cur.1).group? s.cur.2 = some g from h]

theorem State.setGroup_only (s : State) (ci gi : Nat) (h : Group) : OnlyGroup s ci gi h (s.setGroup ci gi h) where
  here := by simp [State.setGroup]
  groups k hk := by simp only [State.setGroup, State.core_modCore_same]; exact Core.group?_setGroup_other _ _ _ _ hk
  core := ⟨_, by simp only [State.setGroup, State.core_modCore_same]; rfl⟩
  cores cj hj := State.core_modCore_other _ _ _ _ hj
  rest := ⟨_, rfl⟩
  memory x := State.memByte_of_mem _ _ (by simp) x

theorem State.finish_done (s : State) (h : Group) : Done s h (.next (s.finish h)) := ⟨_, rfl, State.setGroup_only _ _ _ _⟩

theorem State.hold_waits (s : State) (g : Group) : Waits s g (.next (s.hold g)) := ⟨_, rfl, State.setGroup_only _ _ _ _⟩

/-- An operation starts when its flag has room. -/
theorem State.startOp_started (s : State) (g : Group) (flag : Option Nat) (mk : Nat → LongOp) (chg : Nat → Core → Core)
    (hf : g.flagFull flag = false) (hn : (mk (s.core s.cur.1).nextNum).num = (s.core s.cur.1).nextNum)
    (hg : (mk (s.core s.cur.1).nextNum).flag = flag) :
    Started s g (mk (s.core s.cur.1).nextNum) (chg (s.core s.cur.1).nextNum) (.next (s.startOp g flag mk chg)) := by
  refine ⟨hn, _, rfl, ?_, ?_, ?_, ?_⟩
  · unfold State.startOp State.finish State.setGroup
    simp [hf, hn, hg]
  · intro cj hj
    unfold State.startOp State.finish State.setGroup
    simp [hf, State.core_modCore_other _ _ _ _ hj]
  · unfold State.startOp State.finish State.setGroup State.modCore State.setCore
    simp [hf]
  · intro a
    apply State.memByte_of_mem
    unfold State.startOp
    simp [hf]

/-! ## The context of an F0 word -/

@[simp] theorem ctx0_core (f : F0) (s : State) (g : Group) : (ctx0 f s g).c = s.core s.cur.1 := by
  unfold ctx0 f0Ctx Ctx.latch; dsimp only; split <;> rfl

@[simp] theorem ctx0_state (f : F0) (s : State) (g : Group) : (ctx0 f s g).s = s := by
  unfold ctx0 f0Ctx Ctx.latch; dsimp only; split <;> rfl

/-- Reading %gtclo latches the high half of the sample (R47) and changes nothing else of the group. -/
theorem ctx0_group (f : F0) (s : State) (g : Group) : ∃ h, (ctx0 f s g).g = { g with gtchi := h } := by
  unfold ctx0 f0Ctx Ctx.latch; dsimp only; split
  · exact ⟨_, rfl⟩
  · exact ⟨g.gtchi, rfl⟩

@[simp] theorem ctx0_flagFull (f : F0) (s : State) (g : Group) (n : Option Nat) : (ctx0 f s g).g.flagFull n = g.flagFull n := by
  obtain ⟨h, e⟩ := ctx0_group f s g; rw [e]; rfl

/-! ## Writing lanes -/

theorem mem_maskLanes (m : LaneMask) (l : Nat) : l ∈ maskLanes m ↔ l < 32 ∧ laneBit m l = true := by
  unfold maskLanes allLanes; simp [List.mem_filter]

theorem maskLanes_nodup (m : LaneMask) : (maskLanes m).Nodup := List.Nodup.filter _ List.nodup_range

theorem Group.reg_setReg (g : Group) (n l : Nat) (v : Word) (r k : Nat) (hl : l < 32) (hk : k < 32) :
    (g.setReg n l v).reg r k = if r = n ∧ k = l then v else g.reg r k := by
  unfold Group.setReg Group.reg
  simp only [NMap.atD_put]
  congr 1
  simp only [eq_iff_iff]
  constructor
  · intro h; omega
  · rintro ⟨rfl, rfl⟩; rfl

/-- A run of n registers of one lane. -/
theorem Group.reg_run (g : Group) (b : Nat) (l v n : Nat) (r k : Nat) (hl : l < 32) (hk : k < 32) :
    ((List.range n).foldl (fun g j => if b + j < 128 then g.setReg (b + j) l (w32 (v / 2 ^ (32 * j))) else g) g).reg r k =
      if k = l ∧ b ≤ r ∧ r < b + n ∧ r < 128 then w32 (v / 2 ^ (32 * (r - b))) else g.reg r k := by
  induction n with
  | zero => simp; omega
  | succ n ih =>
    rw [List.range_succ, List.foldl_append, List.foldl_cons, List.foldl_nil]
    by_cases hb : b + n < 128
    · rw [if_pos hb, Group.reg_setReg _ _ _ _ _ _ hl hk, ih]
      by_cases h1 : r = b + n ∧ k = l
      · obtain ⟨rfl, rfl⟩ := h1
        rw [if_pos ⟨rfl, rfl⟩, if_pos ⟨rfl, by omega, by omega, hb⟩]; simp
      · rw [if_neg h1]
        by_cases h2 : k = l ∧ b ≤ r ∧ r < b + n ∧ r < 128
        · rw [if_pos h2, if_pos ⟨h2.1, h2.2.1, by omega, h2.2.2.2⟩]
        · rw [if_neg h2, if_neg (by omega)]
    · rw [if_neg hb, ih]
      by_cases h2 : k = l ∧ b ≤ r ∧ r < b + n ∧ r < 128
      · rw [if_pos h2, if_pos ⟨h2.1, h2.2.1, by omega, h2.2.2.2⟩]
      · rw [if_neg h2, if_neg (by omega)]

theorem Group.setReg_rest (g : Group) (n l : Nat) (v : Word) : g.setReg n l v = { g with regs := (g.setReg n l v).regs } := rfl

theorem Group.run_rest (g : Group) (b l v : Nat) (js : List Nat) :
    ∃ rs, js.foldl (fun g j => if b + j < 128 then g.setReg (b + j) l (w32 (v / 2 ^ (32 * j))) else g) g = { g with regs := rs } := by
  induction js generalizing g with
  | nil => exact ⟨_, rfl⟩
  | cons j js ih =>
    rw [List.foldl_cons]
    obtain ⟨rs, h⟩ := ih (if b + j < 128 then g.setReg (b + j) l (w32 (v / 2 ^ (32 * j))) else g)
    rw [h]
    split <;> exact ⟨rs, rfl⟩

theorem laneBit_or_bit (m : LaneMask) (l k : Nat) (hk : k < 32) :
    laneBit (m ||| BitVec.ofNat 32 (2 ^ l)) k = (laneBit m k || decide (k = l)) := by
  unfold laneBit
  rw [BitVec.getLsbD_or, BitVec.getLsbD_ofNat, Nat.testBit_two_pow]
  simp only [hk, decide_true, Bool.true_and, eq_comm]

theorem laneBit_clear_bit (m : LaneMask) (l k : Nat) (hk : k < 32) :
    laneBit (m &&& ~~~ (BitVec.ofNat 32 (2 ^ l))) k = (laneBit m k && !decide (k = l)) := by
  unfold laneBit
  rw [BitVec.getLsbD_and, BitVec.getLsbD_not, BitVec.getLsbD_ofNat, Nat.testBit_two_pow]
  simp only [hk, decide_true, Bool.true_and, eq_comm]

theorem Group.laneBit_setPred (g : Group) (n l : Nat) (v : Bool) (q k : Nat) (hk : k < 32) :
    laneBit ((g.setPred n l v).preds.atD q 0) k = if q = n ∧ k = l then v else laneBit (g.preds.atD q 0) k := by
  unfold Group.setPred
  simp only [NMap.atD_put]
  by_cases hq : q = n
  · subst hq
    cases v
    · rw [if_pos rfl, if_neg (by decide), laneBit_clear_bit _ _ _ hk]
      by_cases h : k = l <;> simp [h]
    · rw [if_pos rfl, if_pos rfl, laneBit_or_bit _ _ _ hk]
      by_cases h : k = l <;> simp [h]
  · simp [hq]

/-- What one lane's write does to the registers, the predicates and the rest of a group. -/
theorem Group.setDst_spec (g : Group) (d : Operand) (n l v : Nat) (hl : l < 32) :
    LaneWrite g (g.setDst d n l v) d n (BitVec.ofNat 32 (2 ^ l)) fun _ => v := by
  have bit : ∀ k, k < 32 → (laneBit (BitVec.ofNat 32 (2 ^ l)) k = true ↔ k = l) := by
    intro k hk
    unfold laneBit
    rw [BitVec.getLsbD_ofNat, Nat.testBit_two_pow]
    simp [hk, eq_comm]
  cases d with
  | v b =>
    constructor
    · intro b' k j hb hk hb2 hj h128
      cases hb
      show (Group.setDst g (.v b) n l v).reg _ _ = _
      unfold Group.setDst
      rw [Group.reg_run _ _ _ _ _ _ _ hl hk, if_pos ⟨(bit k hk).mp hb2, by omega, by omega, h128⟩]; simp
    · intro q k h; cases h
    · intro r k hk hn
      show (Group.setDst g (.v b) n l v).reg _ _ = _
      unfold Group.setDst
      rw [Group.reg_run _ _ _ _ _ _ _ hl hk, if_neg]
      rintro ⟨h1, h2, h3, _⟩
      exact hn b rfl ⟨h2, h3, (bit k hk).mpr h1⟩
    · intro q k hk _
      obtain ⟨rs, h⟩ := Group.run_rest g b.val l v (List.range n)
      rw [show g.setDst (.v b) n l v = { g with regs := rs } from h]
    · obtain ⟨rs, h⟩ := Group.run_rest g b.val l v (List.range n)
      rw [show g.setDst (.v b) n l v = { g with regs := rs } from h]
  | p q =>
    constructor
    · intro b' k j hb; cases hb
    · intro q' k h hk hb
      cases h
      unfold Group.setDst
      rw [Group.laneBit_setPred _ _ _ _ _ _ hk, if_pos ⟨rfl, (bit k hk).mp hb⟩]
    · intro r k hk _; rfl
    · intro q' k hk hn
      unfold Group.setDst
      rw [Group.laneBit_setPred _ _ _ _ _ _ hk, if_neg]
      rintro ⟨rfl, h⟩
      exact hn q rfl ⟨rfl, (bit k hk).mpr h⟩
    · rfl
  | _ => exact ⟨fun _ _ _ h => (by cases h), fun _ _ h => (by cases h), fun _ _ _ _ => rfl, fun _ _ _ _ => rfl, rfl⟩

/-- Writing a list of lanes, each once, writes each lane's value and keeps the rest. -/
theorem Group.setLanes_list (d : Operand) (n : Nat) (v : Nat → Nat) (ls : List Nat) (g : Group) (hn : ls.Nodup)
    (hb : ∀ l ∈ ls, l < 32) (act : LaneMask) (ha : ∀ l, l < 32 → (laneBit act l = true ↔ l ∈ ls)) :
    LaneWrite g (g.setLanes d n (ls.map fun l => (l, v l))) d n act v := by
  have key : ∀ (ls : List Nat) (g : Group), ls.Nodup → (∀ l ∈ ls, l < 32) →
      (∀ b : Fin 128, d = .v b → ∀ r k, k < 32 → (g.setLanes d n (ls.map fun l => (l, v l))).reg r k =
        if k ∈ ls ∧ b.val ≤ r ∧ r < b.val + n ∧ r < 128 then w32 (v k / 2 ^ (32 * (r - b.val))) else g.reg r k) ∧
      (∀ q : Fin 7, d = .p q → ∀ p k, k < 32 → laneBit ((g.setLanes d n (ls.map fun l => (l, v l))).preds.atD p 0) k =
        if k ∈ ls ∧ p = q.val then (v k % 2 ^ 32 != 0) else laneBit (g.preds.atD p 0) k) ∧
      ((∀ b, d ≠ .v b) → (g.setLanes d n (ls.map fun l => (l, v l))).regs = g.regs) ∧
      ((∀ b, d ≠ .p b) → (g.setLanes d n (ls.map fun l => (l, v l))).preds = g.preds) ∧
      (∃ rs ps, g.setLanes d n (ls.map fun l => (l, v l)) = { g with regs := rs, preds := ps }) := by
    intro ls
    induction ls with
    | nil => intro g _ _; simp [Group.setLanes]; exact ⟨g.regs, g.preds, rfl⟩
    | cons l ls ih =>
      intro g hn hb
      have hn' := List.nodup_cons.mp hn
      have hl : l < 32 := hb l (by simp)
      obtain ⟨h1, h2, h3, h4, h5⟩ := ih (g.setDst d n l (v l)) hn'.2 fun k hk => hb k (by simp [hk])
      have e : g.setLanes d n ((l :: ls).map fun l => (l, v l)) = (g.setDst d n l (v l)).setLanes d n (ls.map fun l => (l, v l)) := rfl
      rw [e]
      refine ⟨?_, ?_, ?_, ?_, ?_⟩
      · intro b hd r k hk
        rw [h1 b hd r k hk]
        subst hd
        simp only [Group.setDst, Group.reg_run _ _ _ _ _ _ _ hl hk, List.mem_cons]
        by_cases hkl : k = l
        · subst hkl; simp [hn'.1]
        · simp [hkl]
      · intro q hd p k hk
        rw [h2 q hd p k hk]
        subst hd
        simp only [Group.setDst, Group.laneBit_setPred _ _ _ _ _ _ hk, List.mem_cons]
        by_cases hkl : k = l
        · subst hkl; simp [hn'.1]
        · simp [hkl]
      · intro hd; rw [h3 hd]; cases d <;> first | rfl | exact absurd rfl (hd _)
      · intro hd; rw [h4 hd]
        cases d with
        | p q => exact absurd rfl (hd q)
        | v b =>
          obtain ⟨rs, h⟩ := Group.run_rest g b.val l (v l) (List.range n)
          rw [show g.setDst (.v b) n l (v l) = { g with regs := rs } from h]
        | _ => rfl
      · obtain ⟨rs, ps, h⟩ := h5
        rw [h]
        cases d with
        | v b =>
          obtain ⟨rs', h'⟩ := Group.run_rest g b.val l (v l) (List.range n)
          rw [show g.setDst (.v b) n l (v l) = { g with regs := rs' } from h']; exact ⟨rs, ps, rfl⟩
        | _ => exact ⟨rs, ps, rfl⟩
  obtain ⟨h1, h2, h3, h4, rs, ps, h5⟩ := key ls g hn hb
  constructor
  · intro b l j hd hl hact hj h128
    rw [h1 b hd _ l hl, if_pos ⟨(ha l hl).mp hact, by omega, by omega, h128⟩]; simp
  · intro q l hd hl hact
    rw [h2 q hd _ l hl, if_pos ⟨(ha l hl).mp hact, rfl⟩]
  · intro r l hl hk
    by_cases hv : ∃ b, d = .v b
    · obtain ⟨b, hd⟩ := hv
      rw [h1 b hd r l hl, if_neg]
      rintro ⟨m, p, q, _⟩
      exact hk b hd ⟨p, q, (ha l hl).mpr m⟩
    · unfold Group.reg; rw [h3 fun b hb => hv ⟨b, hb⟩]
  · intro q l hl hk
    by_cases hv : ∃ b, d = .p b
    · obtain ⟨b, hd⟩ := hv
      rw [h2 b hd q l hl, if_neg]
      rintro ⟨m, p⟩
      exact hk b hd ⟨p.symm, (ha l hl).mpr m⟩
    · rw [h4 fun b hb => hv ⟨b, hb⟩]
  · rw [h5]

/-- Writing the active lanes. -/
theorem Group.setLanes_write (g : Group) (d : Operand) (n : Nat) (act : LaneMask) (v : Nat → Nat) :
    LaneWrite g (g.setLanes d n ((maskLanes act).map fun l => (l, v l))) d n act v :=
  Group.setLanes_list d n v _ g (maskLanes_nodup act) (fun l h => ((mem_maskLanes act l).mp h).1) act fun l hl => by
    rw [mem_maskLanes]; exact ⟨fun h => ⟨hl, h⟩, fun h => h.2⟩

theorem Group.setFl_zero (g : Group) : g.setFl 0 = g := by simp [Group.setFl]

/-- What an F0 lane word does. -/
theorem laneWord_done {s : State} {g : Group} (h : Issuing s g) (f : F0) (n : Nat) (k : Ctx → Nat → DWord) :
    LaneDone f s g n (fun l => (k (ctx0 f s g) l).toNat) 0 (laneWord s f n k) := by
  unfold laneWord
  rw [withIssuer_of h]
  exact ⟨_, by rw [Group.setFl_zero]; exact State.finish_done _ _, Group.setLanes_write _ _ _ _ _⟩

/-- What an F0 word with sticky flags does. -/
theorem laneFloat_done {s : State} {g : Group} (h : Issuing s g) (f : F0) (k : Ctx → Nat → FRes) :
    LaneDone f s g 1 (fun l => (k (ctx0 f s g) l).bits) (orFl ((maskLanes (g.active f.g)).map fun l => (k (ctx0 f s g) l).fl))
      (laneFloat s f k) := by
  unfold laneFloat
  rw [withIssuer_of h]
  refine ⟨_, ?_, Group.setLanes_write (ctx0 f s g).g f.d 1 (g.active f.g) fun l => (k (ctx0 f s g) l).bits⟩
  have := State.finish_done s ((((ctx0 f s g).g.setLanes f.d 1 ((maskLanes (g.active f.g)).map fun l => (l, (k (ctx0 f s g) l).bits)))).setFl
    (orFl ((maskLanes (g.active f.g)).map fun l => (k (ctx0 f s g) l).fl)))
  simpa [List.map_map, Function.comp_def, ctx0, f0Ctx] using this

/-- Writing registers D + j of one lane. -/
theorem Group.setRun_spec (d : Operand) (hd : ∀ q, d ≠ .p q) (l : Nat) (hl : l < 32) (v : Nat → Nat) (js : List Nat) (hn : js.Nodup) (g : Group) :
    (∀ (b : Fin 128) (r k : Nat), d = .v b → k < 32 → (js.foldl (fun g j => g.setDst (opPlus d j) 1 l (v j)) g).reg r k =
      if k = l ∧ b.val ≤ r ∧ r - b.val ∈ js ∧ r < 128 then w32 (v (r - b.val)) else g.reg r k) ∧
    ((∀ b, d ≠ .v b) → js.foldl (fun g j => g.setDst (opPlus d j) 1 l (v j)) g = g) ∧
    ∃ rs, js.foldl (fun g j => g.setDst (opPlus d j) 1 l (v j)) g = { g with regs := rs } := by
  induction js generalizing g with
  | nil => exact ⟨fun b r k _ _ => by simp, fun _ => rfl, g.regs, rfl⟩
  | cons j js ih =>
    have hn' := List.nodup_cons.mp hn
    obtain ⟨h1, h2, rs, h3⟩ := ih hn'.2 (g.setDst (opPlus d j) 1 l (v j))
    simp only [List.foldl_cons]
    refine ⟨?_, ?_, ?_⟩
    · intro b r k hb hk
      rw [h1 b r k hb hk]
      subst hb
      by_cases hj : b.val + j < 128
      · simp only [opPlus, hj, dite_true, Group.setDst, Group.reg_run _ _ _ _ _ _ _ hl hk, List.mem_cons]
        by_cases hr : k = l ∧ r = b.val + j
        · obtain ⟨rfl, rfl⟩ := hr
          have : b.val + j - b.val = j := by omega
          simp [this, hn'.1, hj]
        · have e : ¬ (k = l ∧ b.val + j ≤ r ∧ r < b.val + j + 1 ∧ r < 128) := by omega
          rw [if_neg e]
          have : (k = l ∧ b.val ≤ r ∧ (r - b.val = j ∨ r - b.val ∈ js) ∧ r < 128) ↔ (k = l ∧ b.val ≤ r ∧ r - b.val ∈ js ∧ r < 128) := by
            constructor
            · rintro ⟨a, b, c | c, e⟩
              · omega
              · exact ⟨a, b, c, e⟩
            · rintro ⟨a, b, c, e⟩; exact ⟨a, b, .inr c, e⟩
          simp only [this]
      · simp only [opPlus, hj, dite_false, Group.setDst, List.mem_cons]
        have : (k = l ∧ b.val ≤ r ∧ (r - b.val = j ∨ r - b.val ∈ js) ∧ r < 128) ↔ (k = l ∧ b.val ≤ r ∧ r - b.val ∈ js ∧ r < 128) := by
          constructor
          · rintro ⟨a, b, c | c, e⟩
            · omega
            · exact ⟨a, b, c, e⟩
          · rintro ⟨a, b, c, e⟩; exact ⟨a, b, .inr c, e⟩
        simp only [this]
    · intro hb
      rw [h2 hb]
      cases d with
      | v b => exact absurd rfl (hb b)
      | p q => exact absurd rfl (hd q)
      | k n => simp only [opPlus]; split <;> rfl
      | _ => rfl
    · rw [h3]
      cases d with
      | v b =>
        simp only [opPlus]
        split
        · obtain ⟨rs', h'⟩ := Group.run_rest g (b.val + j) l (v j) (List.range 1)
          rw [show g.setDst (.v ⟨b.val + j, _⟩) 1 l (v j) = { g with regs := rs' } from h']; exact ⟨rs, rfl⟩
        · exact ⟨rs, rfl⟩
      | p q => exact absurd rfl (hd q)
      | k n => simp only [opPlus]; split <;> exact ⟨rs, rfl⟩
      | _ => exact ⟨rs, rfl⟩

/-- What an F0 word with a run of registers does. -/
theorem laneRun_done {s : State} {g : Group} (h : Issuing s g) (f : F0) (hd : ∀ q, f.d ≠ .p q) (js : List Nat) (hn : js.Nodup)
    (r : Nat → Nat → FRes) (k : Ctx → Nat → List (Nat × FRes)) (hk : ∀ l, k (ctx0 f s g) l = js.map fun j => (j, r l j)) :
    RunDone f s g js (fun l j => (r l j).bits) (orFl ((maskLanes (g.active f.g)).map fun l => orFl (js.map fun j => (r l j).fl)))
      (laneRun s f k) := by
  let one (l : Nat) (g : Group) : Group := js.foldl (fun g j => g.setDst (opPlus f.d j) 1 l (r l j).bits) g
  have key : ∀ (ls : List Nat) (g : Group), ls.Nodup → (∀ l ∈ ls, l < 32) →
      (∀ (b : Fin 128) (q n : Nat), f.d = .v b → n < 32 → (ls.foldl (fun g l => one l g) g).reg q n =
        if n ∈ ls ∧ b.val ≤ q ∧ q - b.val ∈ js ∧ q < 128 then w32 (r n (q - b.val)).bits else g.reg q n) ∧
      ((∀ b, f.d ≠ .v b) → ls.foldl (fun g l => one l g) g = g) ∧ ∃ rs, ls.foldl (fun g l => one l g) g = { g with regs := rs } := by
    intro ls
    induction ls with
    | nil => intro g _ _; exact ⟨fun b q n _ _ => by simp, fun _ => rfl, g.regs, rfl⟩
    | cons l ls ih =>
      intro g hl hb
      have hl' := List.nodup_cons.mp hl
      have l32 : l < 32 := hb l (by simp)
      obtain ⟨h1, h2, rs, h3⟩ := ih (one l g) hl'.2 fun k hk => hb k (by simp [hk])
      obtain ⟨k1, k2, rs', k3⟩ := Group.setRun_spec f.d hd l l32 (fun j => (r l j).bits) js hn g
      simp only [List.foldl_cons]
      refine ⟨?_, ?_, ?_⟩
      · intro b q n hd hn
        rw [h1 b q n hd hn, k1 b q n hd hn]
        by_cases e : n = l
        · subst e; simp [hl'.1]
        · simp [e]
      · intro hb; rw [h2 hb]; exact k2 hb
      · rw [h3, show one l g = { g with regs := rs' } from k3]; exact ⟨rs, rfl⟩
  have nd := maskLanes_nodup (g.active f.g)
  have b32 : ∀ l ∈ maskLanes (g.active f.g), l < 32 := fun l h => ((mem_maskLanes _ l).mp h).1
  obtain ⟨h1, h2, rs, h3⟩ := key _ (ctx0 f s g).g nd b32
  have e : laneRun s f k = .next (s.finish (((maskLanes (g.active f.g)).foldl (fun g l => one l g) (ctx0 f s g).g).setFl
      (orFl ((maskLanes (g.active f.g)).map fun l => orFl (js.map fun j => (r l j).fl))))) := by
    unfold laneRun
    rw [withIssuer_of h]
    have e1 : ∀ (ls : List Nat) (x : Group), (ls.map fun l => (l, k (ctx0 f s g) l)).foldl (fun g e =>
        e.2.foldl (fun g r => g.setDst (opPlus f.d r.1) 1 e.1 r.2.bits) g) x = ls.foldl (fun g l => one l g) x := by
      intro ls
      induction ls with
      | nil => intro x; rfl
      | cons l ls ih => intro x; rw [List.map_cons, List.foldl_cons, List.foldl_cons, ih]; simp only [hk l, List.foldl_map, one]
    show Host.Outcome.next (s.finish ((((maskLanes (g.active f.g)).map fun l => (l, k (ctx0 f s g) l)).foldl (fun g e =>
      e.2.foldl (fun g r => g.setDst (opPlus f.d r.1) 1 e.1 r.2.bits) g) (ctx0 f s g).g).setFl
        (orFl (((maskLanes (g.active f.g)).map fun l => (l, k (ctx0 f s g) l)).map fun e => orFl (e.2.map fun r => r.2.fl))))) = _
    rw [e1]
    simp only [List.map_map, Function.comp_def, hk]
  rw [e]
  refine ⟨_, State.finish_done _ _, ?_, ?_, ?_⟩
  · intro b l j hb hl ha hj h128
    rw [h1 b _ l hb hl, if_pos ⟨(mem_maskLanes _ l).mpr ⟨hl, ha⟩, by omega, by simpa using hj, h128⟩]; simp
  · intro q l hl hk'
    by_cases hv : ∃ b, f.d = .v b
    · obtain ⟨b, hb⟩ := hv
      rw [h1 b q l hb hl, if_neg]
      rintro ⟨m, p, z, _⟩
      exact hk' b (q - b.val) hb z ((mem_maskLanes _ l).mp m).2 (by omega)
    · rw [h2 fun b hb => hv ⟨b, hb⟩]
  · rw [h3]

end Sys2Proof.Machine
end

