-- ==== Sys2Proof/Laws/Arms.lean ====
section
/-! SUPPORT. Each arm of `exec` as an equation, so that no proof unfolds the whole table. -/

namespace Sys2Proof.Machine

@[simp] theorem exec_tokenArrival (core idx : Nat) (s : State) : exec (.tokenArrival core idx) s = execTokenArrival core idx s := rfl
@[simp] theorem exec_eosCount (core idx : Nat) (s : State) : exec (.eosCount core idx) s = execEosCount core idx s := rfl
@[simp] theorem exec_collectionDeadline (core slot : Nat) (s : State) : exec (.collectionDeadline core slot) s = execCollectionDeadline core slot s := rfl
@[simp] theorem exec_postponedCollection (core : Nat) (s : State) : exec (.postponedCollection core) s = execPostponedCollection core s := rfl
@[simp] theorem exec_spill (core : Nat) (s : State) : exec (.spill core) s = execSpill core s := rfl
@[simp] theorem exec_spillRecordLanded (core idx : Nat) (s : State) : exec (.spillRecordLanded core idx) s = execSpillRecordLanded core idx s := rfl
@[simp] theorem exec_refill (core : Nat) (s : State) : exec (.refill core) s = execRefill core s := rfl
@[simp] theorem exec_blockCommit (core grp : Nat) (s : State) : exec (.blockCommit core grp) s = execBlockCommit core grp s := rfl
@[simp] theorem exec_delayedTokenRelease (core idx : Nat) (s : State) : exec (.delayedTokenRelease core idx) s = execDelayedTokenRelease core idx s := rfl
@[simp] theorem exec_longLatencyCompletion (core grp idx : Nat) (s : State) : exec (.longLatencyCompletion core grp idx) s = execLongLatencyCompletion core grp idx s := rfl
@[simp] theorem exec_speculativeRenewalReply (core idx : Nat) (s : State) : exec (.speculativeRenewalReply core idx) s = execSpeculativeRenewalReply core idx s := rfl
@[simp] theorem exec_passOverPromotion (core grp : Nat) (s : State) : exec (.passOverPromotion core grp) s = execPassOverPromotion core grp s := rfl
@[simp] theorem exec_clockGate (core : Nat) (s : State) : exec (.clockGate core) s = execClockGate core s := rfl
@[simp] theorem exec_coreWake (core : Nat) (s : State) : exec (.coreWake core) s = execCoreWake core s := rfl
@[simp] theorem exec_deadlineWakeTimer (core : Nat) (s : State) : exec (.deadlineWakeTimer core) s = execDeadlineWakeTimer core s := rfl
@[simp] theorem exec_restartEnd (core : Nat) (s : State) : exec (.restartEnd core) s = execRestartEnd core s := rfl
@[simp] theorem exec_clauseHeader (f : F5) (s : State) : exec (.clauseHeader f) s = execClauseHeader f s := rfl
@[simp] theorem exec_nop (s : State) : exec .nop s = execNop s := rfl
@[simp] theorem exec_illegalEncoding (word : DWord) (s : State) : exec (.illegalEncoding word) s = execIllegalEncoding word s := rfl
@[simp] theorem exec_send (f : F2) (s : State) : exec (.send f) s = execSend f s := rfl
@[simp] theorem exec_sendv (f : F2) (s : State) : exec (.sendv f) s = execSendv f s := rfl
@[simp] theorem exec_sendf (f : F2) (s : State) : exec (.sendf f) s = execSendf f s := rfl
@[simp] theorem exec_exit (f : F2) (s : State) : exec (.exit f) s = execExit f s := rfl
@[simp] theorem exec_eos (f : F2) (s : State) : exec (.eos f) s = execEos f s := rfl
@[simp] theorem exec_colalloc (f : F0) (s : State) : exec (.colalloc f) s = execColalloc f s := rfl
@[simp] theorem exec_colfree (f : F0) (s : State) : exec (.colfree f) s = execColfree f s := rfl
@[simp] theorem exec_packc (f : F0) (s : State) : exec (.packc f) s = execPackc f s := rfl
@[simp] theorem exec_unpackc (f : F0) (s : State) : exec (.unpackc f) s = execUnpackc f s := rfl
@[simp] theorem exec_bintimTimer (f : F0) (s : State) : exec (.bintimTimer f) s = execBintimTimer f s := rfl
@[simp] theorem exec_bintimPrio (f : F0) (s : State) : exec (.bintimPrio f) s = execBintimPrio f s := rfl
@[simp] theorem exec_ldblk (f : F0) (s : State) : exec (.ldblk f) s = execLdblk f s := rfl
@[simp] theorem exec_blockFetchComplete (core slot : Nat) (s : State) : exec (.blockFetchComplete core slot) s = execBlockFetchComplete core slot s := rfl
@[simp] theorem exec_cfgw (f : F6) (s : State) : exec (.cfgw f) s = execCfgw f s := rfl
@[simp] theorem exec_qwait (f : F0) (s : State) : exec (.qwait f) s = execQwait f s := rfl
@[simp] theorem exec_qwaitTimeout (core grp : Nat) (s : State) : exec (.qwaitTimeout core grp) s = execQwaitTimeout core grp s := rfl
@[simp] theorem exec_mov (f : F0) (s : State) : exec (.mov f) s = execMov f s := rfl
@[simp] theorem exec_movk (f : F0) (s : State) : exec (.movk f) s = execMovk f s := rfl
@[simp] theorem exec_movi (f : F0) (s : State) : exec (.movi f) s = execMovi f s := rfl
@[simp] theorem exec_moviBy (f : F0) (s : State) : exec (.moviBy f) s = execMoviBy f s := rfl
@[simp] theorem exec_add (f : F0) (s : State) : exec (.add f) s = execAdd f s := rfl
@[simp] theorem exec_sub (f : F0) (s : State) : exec (.sub f) s = execSub f s := rfl
@[simp] theorem exec_mul (f : F0) (s : State) : exec (.mul f) s = execMul f s := rfl
@[simp] theorem exec_mulhi (f : F0) (s : State) : exec (.mulhi f) s = execMulhi f s := rfl
@[simp] theorem exec_mad (f : F0) (s : State) : exec (.mad f) s = execMad f s := rfl
@[simp] theorem exec_madw (f : F0) (s : State) : exec (.madw f) s = execMadw f s := rfl
@[simp] theorem exec_div (f : F0) (s : State) : exec (.div f) s = execDiv f s := rfl
@[simp] theorem exec_rem (f : F0) (s : State) : exec (.rem f) s = execRem f s := rfl
@[simp] theorem exec_abs (f : F0) (s : State) : exec (.abs f) s = execAbs f s := rfl
@[simp] theorem exec_neg (f : F0) (s : State) : exec (.neg f) s = execNeg f s := rfl
@[simp] theorem exec_min (f : F0) (s : State) : exec (.min f) s = execMin f s := rfl
@[simp] theorem exec_max (f : F0) (s : State) : exec (.max f) s = execMax f s := rfl
@[simp] theorem exec_shl (f : F0) (s : State) : exec (.shl f) s = execShl f s := rfl
@[simp] theorem exec_shr (f : F0) (s : State) : exec (.shr f) s = execShr f s := rfl
@[simp] theorem exec_sar (f : F0) (s : State) : exec (.sar f) s = execSar f s := rfl
@[simp] theorem exec_rol (f : F0) (s : State) : exec (.rol f) s = execRol f s := rfl
@[simp] theorem exec_and (f : F0) (s : State) : exec (.and f) s = execAnd f s := rfl
@[simp] theorem exec_or (f : F0) (s : State) : exec (.or f) s = execOr f s := rfl
@[simp] theorem exec_xor (f : F0) (s : State) : exec (.xor f) s = execXor f s := rfl
@[simp] theorem exec_not (f : F0) (s : State) : exec (.not f) s = execNot f s := rfl
@[simp] theorem exec_andn (f : F0) (s : State) : exec (.andn f) s = execAndn f s := rfl
@[simp] theorem exec_bfe (f : F0) (s : State) : exec (.bfe f) s = execBfe f s := rfl
@[simp] theorem exec_bfi (f : F0) (s : State) : exec (.bfi f) s = execBfi f s := rfl
@[simp] theorem exec_brev (f : F0) (s : State) : exec (.brev f) s = execBrev f s := rfl
@[simp] theorem exec_clz (f : F0) (s : State) : exec (.clz f) s = execClz f s := rfl
@[simp] theorem exec_ctz (f : F0) (s : State) : exec (.ctz f) s = execCtz f s := rfl
@[simp] theorem exec_popc (f : F0) (s : State) : exec (.popc f) s = execPopc f s := rfl
@[simp] theorem exec_sel (f : F0) (s : State) : exec (.sel f) s = execSel f s := rfl
@[simp] theorem exec_cmp (f : F0) (s : State) : exec (.cmp f) s = execCmp f s := rfl
@[simp] theorem exec_lea (f : F0) (s : State) : exec (.lea f) s = execLea f s := rfl
@[simp] theorem exec_cvti (f : F0) (s : State) : exec (.cvti f) s = execCvti f s := rfl
@[simp] theorem exec_pand (f : F0) (s : State) : exec (.pand f) s = execPand f s := rfl
@[simp] theorem exec_por (f : F0) (s : State) : exec (.por f) s = execPor f s := rfl
@[simp] theorem exec_pxor (f : F0) (s : State) : exec (.pxor f) s = execPxor f s := rfl
@[simp] theorem exec_pnot (f : F0) (s : State) : exec (.pnot f) s = execPnot f s := rfl
@[simp] theorem exec_shfl (f : F0) (s : State) : exec (.shfl f) s = execShfl f s := rfl
@[simp] theorem exec_vote (f : F0) (s : State) : exec (.vote f) s = execVote f s := rfl
@[simp] theorem exec_ballot (f : F0) (s : State) : exec (.ballot f) s = execBallot f s := rfl
@[simp] theorem exec_matchAny (f : F0) (s : State) : exec (.matchAny f) s = execMatchAny f s := rfl
@[simp] theorem exec_matchAll (f : F0) (s : State) : exec (.matchAll f) s = execMatchAll f s := rfl
@[simp] theorem exec_redg (f : F0) (s : State) : exec (.redg f) s = execRedg f s := rfl
@[simp] theorem exec_scang (f : F0) (s : State) : exec (.scang f) s = execScang f s := rfl
@[simp] theorem exec_emrd (f : F0) (s : State) : exec (.emrd f) s = execEmrd f s := rfl
@[simp] theorem exec_emwrAnd (f : F0) (s : State) : exec (.emwrAnd f) s = execEmwrAnd f s := rfl
@[simp] theorem exec_emwrSet (f : F0) (s : State) : exec (.emwrSet f) s = execEmwrSet f s := rfl
@[simp] theorem exec_fadd (f : F0) (s : State) : exec (.fadd f) s = execFadd f s := rfl
@[simp] theorem exec_fsub (f : F0) (s : State) : exec (.fsub f) s = execFsub f s := rfl
@[simp] theorem exec_fmul (f : F0) (s : State) : exec (.fmul f) s = execFmul f s := rfl
@[simp] theorem exec_ffma (f : F0) (s : State) : exec (.ffma f) s = execFfma f s := rfl
@[simp] theorem exec_fmin (f : F0) (s : State) : exec (.fmin f) s = execFmin f s := rfl
@[simp] theorem exec_fmax (f : F0) (s : State) : exec (.fmax f) s = execFmax f s := rfl
@[simp] theorem exec_fabs (f : F0) (s : State) : exec (.fabs f) s = execFabs f s := rfl
@[simp] theorem exec_fneg (f : F0) (s : State) : exec (.fneg f) s = execFneg f s := rfl
@[simp] theorem exec_fcmp (f : F0) (s : State) : exec (.fcmp f) s = execFcmp f s := rfl
@[simp] theorem exec_fclass (f : F0) (s : State) : exec (.fclass f) s = execFclass f s := rfl
@[simp] theorem exec_frnd (f : F0) (s : State) : exec (.frnd f) s = execFrnd f s := rfl
@[simp] theorem exec_fcvt (f : F0) (s : State) : exec (.fcvt f) s = execFcvt f s := rfl
@[simp] theorem exec_fdiv (f : F0) (s : State) : exec (.fdiv f) s = execFdiv f s := rfl
@[simp] theorem exec_fsqrt (f : F0) (s : State) : exec (.fsqrt f) s = execFsqrt f s := rfl
@[simp] theorem exec_hadd2 (f : F0) (s : State) : exec (.hadd2 f) s = execHadd2 f s := rfl
@[simp] theorem exec_hmul2 (f : F0) (s : State) : exec (.hmul2 f) s = execHmul2 f s := rfl
@[simp] theorem exec_hfma2 (f : F0) (s : State) : exec (.hfma2 f) s = execHfma2 f s := rfl
@[simp] theorem exec_sflgRd (f : F0) (s : State) : exec (.sflgRd f) s = execSflgRd f s := rfl
@[simp] theorem exec_sflgRdc (f : F0) (s : State) : exec (.sflgRdc f) s = execSflgRdc f s := rfl
@[simp] theorem exec_sflgSet (f : F0) (s : State) : exec (.sflgSet f) s = execSflgSet f s := rfl
@[simp] theorem exec_sflgClr (f : F0) (s : State) : exec (.sflgClr f) s = execSflgClr f s := rfl
@[simp] theorem exec_rcp (f : F0) (s : State) : exec (.rcp f) s = execRcp f s := rfl
@[simp] theorem exec_rsq (f : F0) (s : State) : exec (.rsq f) s = execRsq f s := rfl
@[simp] theorem exec_exp2 (f : F0) (s : State) : exec (.exp2 f) s = execExp2 f s := rfl
@[simp] theorem exec_log2 (f : F0) (s : State) : exec (.log2 f) s = execLog2 f s := rfl
@[simp] theorem exec_sin (f : F0) (s : State) : exec (.sin f) s = execSin f s := rfl
@[simp] theorem exec_cos (f : F0) (s : State) : exec (.cos f) s = execCos f s := rfl
@[simp] theorem exec_tanh (f : F0) (s : State) : exec (.tanh f) s = execTanh f s := rfl
@[simp] theorem exec_sigm (f : F0) (s : State) : exec (.sigm f) s = execSigm f s := rfl
@[simp] theorem exec_teval (f : F0) (s : State) : exec (.teval f) s = execTeval f s := rfl
@[simp] theorem exec_tload (f : F0) (s : State) : exec (.tload f) s = execTload f s := rfl
@[simp] theorem exec_tloadCopy (core table : Nat) (s : State) : exec (.tloadCopy core table) s = execTloadCopy core table s := rfl
@[simp] theorem exec_tswap (f : F0) (s : State) : exec (.tswap f) s = execTswap f s := rfl
@[simp] theorem exec_qnt (f : F0) (s : State) : exec (.qnt f) s = execQnt f s := rfl
@[simp] theorem exec_dqnt (f : F0) (s : State) : exec (.dqnt f) s = execDqnt f s := rfl
@[simp] theorem exec_scale (f : F0) (s : State) : exec (.scale f) s = execScale f s := rfl
@[simp] theorem exec_bspack (f : F0) (s : State) : exec (.bspack f) s = execBspack f s := rfl
@[simp] theorem exec_bsunpack (f : F0) (s : State) : exec (.bsunpack f) s = execBsunpack f s := rfl
@[simp] theorem exec_cvtnUp (f : F0) (s : State) : exec (.cvtnUp f) s = execCvtnUp f s := rfl
@[simp] theorem exec_cvtnDn (f : F0) (s : State) : exec (.cvtnDn f) s = execCvtnDn f s := rfl
@[simp] theorem exec_cvtnDense (f : F0) (s : State) : exec (.cvtnDense f) s = execCvtnDense f s := rfl
@[simp] theorem exec_cvtnBytes (f : F0) (s : State) : exec (.cvtnBytes f) s = execCvtnBytes f s := rfl
@[simp] theorem exec_spcmp (f : F0) (s : State) : exec (.spcmp f) s = execSpcmp f s := rfl
@[simp] theorem exec_spexp (f : F0) (s : State) : exec (.spexp f) s = execSpexp f s := rfl
@[simp] theorem exec_rncv (f : F0) (s : State) : exec (.rncv f) s = execRncv f s := rfl
@[simp] theorem exec_rncrt (f : F0) (s : State) : exec (.rncrt f) s = execRncrt f s := rfl
@[simp] theorem exec_rnadd (f : F0) (s : State) : exec (.rnadd f) s = execRnadd f s := rfl
@[simp] theorem exec_rnsub (f : F0) (s : State) : exec (.rnsub f) s = execRnsub f s := rfl
@[simp] theorem exec_rnmul (f : F0) (s : State) : exec (.rnmul f) s = execRnmul f s := rfl
@[simp] theorem exec_rnmad (f : F0) (s : State) : exec (.rnmad f) s = execRnmad f s := rfl
@[simp] theorem exec_rnneg (f : F0) (s : State) : exec (.rnneg f) s = execRnneg f s := rfl
@[simp] theorem exec_rnscl (f : F0) (s : State) : exec (.rnscl f) s = execRnscl f s := rfl
@[simp] theorem exec_mma (f : F3) (s : State) : exec (.mma f) s = execMma f s := rfl
@[simp] theorem exec_gmma (f : F3) (s : State) : exec (.gmma f) s = execGmma f s := rfl
@[simp] theorem exec_gang (f : F3) (s : State) : exec (.gang f) s = execGang f s := rfl
@[simp] theorem exec_fmtb (f : F3) (s : State) : exec (.fmtb f) s = execFmtb f s := rfl
@[simp] theorem exec_gthr (f : F3) (s : State) : exec (.gthr f) s = execGthr f s := rfl
@[simp] theorem exec_spmma (f : F3) (s : State) : exec (.spmma f) s = execSpmma f s := rfl
@[simp] theorem exec_rnmma (f : F3) (s : State) : exec (.rnmma f) s = execRnmma f s := rfl
@[simp] theorem exec_accz (f : F3) (s : State) : exec (.accz f) s = execAccz f s := rfl
@[simp] theorem exec_accld (f : F3) (s : State) : exec (.accld f) s = execAccld f s := rfl
@[simp] theorem exec_accst (f : F3) (s : State) : exec (.accst f) s = execAccst f s := rfl
@[simp] theorem exec_accstAdd (f : F3) (s : State) : exec (.accstAdd f) s = execAccstAdd f s := rfl
@[simp] theorem exec_accstRnadd (f : F3) (s : State) : exec (.accstRnadd f) s = execAccstRnadd f s := rfl
@[simp] theorem exec_acccvRn (f : F3) (s : State) : exec (.acccvRn f) s = execAcccvRn f s := rfl
@[simp] theorem exec_acccvSc (f : F3) (s : State) : exec (.acccvSc f) s = execAcccvSc f s := rfl
@[simp] theorem exec_gangRendezvousTimeout (core : Nat) (s : State) : exec (.gangRendezvousTimeout core) s = execGangRendezvousTimeout core s := rfl
@[simp] theorem exec_ldf (f : F1) (s : State) : exec (.ldf f) s = execLdf f s := rfl
@[simp] theorem exec_stf (f : F1) (s : State) : exec (.stf f) s = execStf f s := rfl
@[simp] theorem exec_ldw (f : F1) (s : State) : exec (.ldw f) s = execLdw f s := rfl
@[simp] theorem exec_lda (f : F1) (s : State) : exec (.lda f) s = execLda f s := rfl
@[simp] theorem exec_sta (f : F1) (s : State) : exec (.sta f) s = execSta f s := rfl
@[simp] theorem exec_staNb (f : F1) (s : State) : exec (.staNb f) s = execStaNb f s := rfl
@[simp] theorem exec_neighbourDeposit (core idx : Nat) (s : State) : exec (.neighbourDeposit core idx) s = execNeighbourDeposit core idx s := rfl
@[simp] theorem exec_ldc (f : F1) (s : State) : exec (.ldc f) s = execLdc f s := rfl
@[simp] theorem exec_stc (f : F1) (s : State) : exec (.stc f) s = execStc f s := rfl
@[simp] theorem exec_pres (f : F1) (s : State) : exec (.pres f) s = execPres f s := rfl
@[simp] theorem exec_atoma (f : F1) (s : State) : exec (.atoma f) s = execAtoma f s := rfl
@[simp] theorem exec_presenceSetResume (core : Nat) (buf : Buf) (line : Nat) (s : State) : exec (.presenceSetResume core buf line) s = execPresenceSetResume core buf line s := rfl
@[simp] theorem exec_ldg (f : F1) (s : State) : exec (.ldg f) s = execLdg f s := rfl
@[simp] theorem exec_stg (f : F1) (s : State) : exec (.stg f) s = execStg f s := rfl
@[simp] theorem exec_fetch (f : F1) (s : State) : exec (.fetch f) s = execFetch f s := rfl
@[simp] theorem exec_atom (f : F1) (s : State) : exec (.atom f) s = execAtom f s := rfl
@[simp] theorem exec_red (f : F1) (s : State) : exec (.red f) s = execRed f s := rfl
@[simp] theorem exec_fence (f : F1) (s : State) : exec (.fence f) s = execFence f s := rfl
@[simp] theorem exec_bar (f : F1) (s : State) : exec (.bar f) s = execBar f s := rfl
@[simp] theorem exec_cbar (f : F1) (s : State) : exec (.cbar f) s = execCbar f s := rfl
@[simp] theorem exec_barrierArrival (core idx : Nat) (s : State) : exec (.barrierArrival core idx) s = execBarrierArrival core idx s := rfl
@[simp] theorem exec_cprefL1 (f : F1) (s : State) : exec (.cprefL1 f) s = execCprefL1 f s := rfl
@[simp] theorem exec_cprefL2 (f : F1) (s : State) : exec (.cprefL2 f) s = execCprefL2 f s := rfl
@[simp] theorem exec_cprefEx (f : F1) (s : State) : exec (.cprefEx f) s = execCprefEx f s := rfl
@[simp] theorem exec_cinvLine (f : F1) (s : State) : exec (.cinvLine f) s = execCinvLine f s := rfl
@[simp] theorem exec_cinvAll (f : F1) (s : State) : exec (.cinvAll f) s = execCinvAll f s := rfl
@[simp] theorem exec_cflushLine (f : F1) (s : State) : exec (.cflushLine f) s = execCflushLine f s := rfl
@[simp] theorem exec_cflushDie (f : F1) (s : State) : exec (.cflushDie f) s = execCflushDie f s := rfl
@[simp] theorem exec_lset (f : F1) (s : State) : exec (.lset f) s = execLset f s := rfl
@[simp] theorem exec_cpyMm (f : F4) (s : State) : exec (.cpyMm f) s = execCpyMm f s := rfl
@[simp] theorem exec_cpyIn (f : F4) (s : State) : exec (.cpyIn f) s = execCpyIn f s := rfl
@[simp] theorem exec_cpyOut (f : F4) (s : State) : exec (.cpyOut f) s = execCpyOut f s := rfl
@[simp] theorem exec_cpytIn (f : F4) (s : State) : exec (.cpytIn f) s = execCpytIn f s := rfl
@[simp] theorem exec_cpytOut (f : F4) (s : State) : exec (.cpytOut f) s = execCpytOut f s := rfl
@[simp] theorem exec_cpygIn (f : F4) (s : State) : exec (.cpygIn f) s = execCpygIn f s := rfl
@[simp] theorem exec_cpysOut (f : F4) (s : State) : exec (.cpysOut f) s = execCpysOut f s := rfl
@[simp] theorem exec_cpyfMm (f : F4) (s : State) : exec (.cpyfMm f) s = execCpyfMm f s := rfl
@[simp] theorem exec_cpyfIn (f : F4) (s : State) : exec (.cpyfIn f) s = execCpyfIn f s := rfl
@[simp] theorem exec_cpypMm (f : F4) (s : State) : exec (.cpypMm f) s = execCpypMm f s := rfl
@[simp] theorem exec_cpypIn (f : F4) (s : State) : exec (.cpypIn f) s = execCpypIn f s := rfl
@[simp] theorem exec_cpypOut (f : F4) (s : State) : exec (.cpypOut f) s = execCpypOut f s := rfl
@[simp] theorem exec_cpyspIn (f : F4) (s : State) : exec (.cpyspIn f) s = execCpyspIn f s := rfl
@[simp] theorem exec_cpyspOut (f : F4) (s : State) : exec (.cpyspOut f) s = execCpyspOut f s := rfl
@[simp] theorem exec_cpyspOutc (f : F4) (s : State) : exec (.cpyspOutc f) s = execCpyspOutc f s := rfl
@[simp] theorem exec_courierCommandStart (core : Nat) (s : State) : exec (.courierCommandStart core) s = execCourierCommandStart core s := rfl
@[simp] theorem exec_courierCommandComplete (core idx : Nat) (s : State) : exec (.courierCommandComplete core idx) s = execCourierCommandComplete core idx s := rfl
@[simp] theorem exec_courierRecall (core line : Nat) (s : State) : exec (.courierRecall core line) s = execCourierRecall core line s := rfl
@[simp] theorem exec_rld (f : F1) (s : State) : exec (.rld f) s = execRld f s := rfl
@[simp] theorem exec_rst (f : F1) (s : State) : exec (.rst f) s = execRst f s := rfl
@[simp] theorem exec_ratom (f : F1) (s : State) : exec (.ratom f) s = execRatom f s := rfl
@[simp] theorem exec_rput (f : F1) (s : State) : exec (.rput f) s = execRput f s := rfl
@[simp] theorem exec_rget (f : F1) (s : State) : exec (.rget f) s = execRget f s := rfl
@[simp] theorem exec_spw (f : F1) (s : State) : exec (.spw f) s = execSpw f s := rfl
@[simp] theorem exec_mcst (f : F1) (s : State) : exec (.mcst f) s = execMcst f s := rfl
@[simp] theorem exec_mcput (f : F1) (s : State) : exec (.mcput f) s = execMcput f s := rfl
@[simp] theorem exec_cfaa (f : F1) (s : State) : exec (.cfaa f) s = execCfaa f s := rfl
@[simp] theorem exec_cfaan (f : F1) (s : State) : exec (.cfaan f) s = execCfaan f s := rfl
@[simp] theorem exec_trap (f : F6) (s : State) : exec (.trap f) s = execTrap f s := rfl
@[simp] theorem exec_bkpt (f : F6) (s : State) : exec (.bkpt f) s = execBkpt f s := rfl
@[simp] theorem exec_resume (f : F6) (s : State) : exec (.resume f) s = execResume f s := rfl
@[simp] theorem exec_resumePast (f : F6) (s : State) : exec (.resumePast f) s = execResumePast f s := rfl
@[simp] theorem exec_abort (f : F6) (s : State) : exec (.abort f) s = execAbort f s := rfl
@[simp] theorem exec_abortRegion (f : F6) (s : State) : exec (.abortRegion f) s = execAbortRegion f s := rfl
@[simp] theorem exec_srrd (f : F6) (s : State) : exec (.srrd f) s = execSrrd f s := rfl
@[simp] theorem exec_srwr (f : F6) (s : State) : exec (.srwr f) s = execSrwr f s := rfl
@[simp] theorem exec_fltrdWord (f : F6) (s : State) : exec (.fltrdWord f) s = execFltrdWord f s := rfl
@[simp] theorem exec_fltrdNext (f : F6) (s : State) : exec (.fltrdNext f) s = execFltrdNext f s := rfl
@[simp] theorem exec_halt (f : F6) (s : State) : exec (.halt f) s = execHalt f s := rfl
@[simp] theorem exec_sigchk (f : F6) (s : State) : exec (.sigchk f) s = execSigchk f s := rfl
@[simp] theorem exec_keyset (f : F6) (s : State) : exec (.keyset f) s = execKeyset f s := rfl
@[simp] theorem exec_preemptSave (f : F6) (s : State) : exec (.preemptSave f) s = execPreemptSave f s := rfl
@[simp] theorem exec_preemptRestore (f : F6) (s : State) : exec (.preemptRestore f) s = execPreemptRestore f s := rfl
@[simp] theorem exec_clolasVerifyDone (idx : Nat) (s : State) : exec (.clolasVerifyDone idx) s = execClolasVerifyDone idx s := rfl
@[simp] theorem exec_leaseRequest (die pos idx : Nat) (s : State) : exec (.leaseRequest die pos idx) s = execLeaseRequest die pos idx s := rfl
@[simp] theorem exec_storeLineArrival (idx : Nat) (s : State) : exec (.storeLineArrival idx) s = execStoreLineArrival idx s := rfl
@[simp] theorem exec_linedUpWritePerform (die pos idx : Nat) (s : State) : exec (.linedUpWritePerform die pos idx) s = execLinedUpWritePerform die pos idx s := rfl
@[simp] theorem exec_atomicAtOwner (die pos idx : Nat) (s : State) : exec (.atomicAtOwner die pos idx) s = execAtomicAtOwner die pos idx s := rfl
@[simp] theorem exec_fetchAtOwner (die pos idx : Nat) (s : State) : exec (.fetchAtOwner die pos idx) s = execFetchAtOwner die pos idx s := rfl
@[simp] theorem exec_permitGets (die line : Nat) (s : State) : exec (.permitGets die line) s = execPermitGets die line s := rfl
@[simp] theorem exec_permitGetx (die line : Nat) (s : State) : exec (.permitGetx die line) s = execPermitGetx die line s := rfl
@[simp] theorem exec_permitPut (die line : Nat) (s : State) : exec (.permitPut die line) s = execPermitPut die line s := rfl
@[simp] theorem exec_permitReply (die line : Nat) (s : State) : exec (.permitReply die line) s = execPermitReply die line s := rfl
@[simp] theorem exec_permitRequestTimeout (die line : Nat) (s : State) : exec (.permitRequestTimeout die line) s = execPermitRequestTimeout die line s := rfl
@[simp] theorem exec_persistentRequest (die line : Nat) (s : State) : exec (.persistentRequest die line) s = execPersistentRequest die line s := rfl
@[simp] theorem exec_persistentActivation (die pos : Nat) (s : State) : exec (.persistentActivation die pos) s = execPersistentActivation die pos s := rfl
@[simp] theorem exec_deactivate (die line : Nat) (s : State) : exec (.deactivate die line) s = execDeactivate die line s := rfl
@[simp] theorem exec_backInvalidationSnoop (line : Nat) (toI : Bool) (s : State) : exec (.backInvalidationSnoop line toI) s = execBackInvalidationSnoop line toI s := rfl
@[simp] theorem exec_hostSnoop (line : Nat) (high inval : Bool) (s : State) : exec (.hostSnoop line high inval) s = execHostSnoop line high inval s := rfl
@[simp] theorem exec_pageWalk (die : Nat) (s : State) : exec (.pageWalk die) s = execPageWalk die s := rfl
@[simp] theorem exec_walkResult (die idx : Nat) (s : State) : exec (.walkResult die idx) s = execWalkResult die idx s := rfl
@[simp] theorem exec_ingressTranslation (die idx : Nat) (s : State) : exec (.ingressTranslation die idx) s = execIngressTranslation die idx s := rfl
@[simp] theorem exec_tlbinvGo (die : Nat) (value : DWord) (s : State) : exec (.tlbinvGo die value) s = execTlbinvGo die value s := rfl
@[simp] theorem exec_tlbinvDone (die : Nat) (s : State) : exec (.tlbinvDone die) s = execTlbinvDone die s := rfl
@[simp] theorem exec_linkPacketArrival (place : Place) (pkt : Packet) (s : State) : exec (.linkPacketArrival place pkt) s = execLinkPacketArrival place pkt s := rfl
@[simp] theorem exec_deadLetterNotice (pkt : Packet) (s : State) : exec (.deadLetterNotice pkt) s = execDeadLetterNotice pkt s := rfl
@[simp] theorem exec_remoteRequestAtTarget (die idx : Nat) (s : State) : exec (.remoteRequestAtTarget die idx) s = execRemoteRequestAtTarget die idx s := rfl
@[simp] theorem exec_remoteReply (pkt : Packet) (s : State) : exec (.remoteReply pkt) s = execRemoteReply pkt s := rfl
@[simp] theorem exec_remoteTimeout (reqid : Nat) (s : State) : exec (.remoteTimeout reqid) s = execRemoteTimeout reqid s := rfl
@[simp] theorem exec_writeCombineDrain (core idx : Nat) (s : State) : exec (.writeCombineDrain core idx) s = execWriteCombineDrain core idx s := rfl
@[simp] theorem exec_spanWordArrival (span : Nat) (s : State) : exec (.spanWordArrival span) s = execSpanWordArrival span s := rfl
@[simp] theorem exec_spanCreditReturn (span : Nat) (s : State) : exec (.spanCreditReturn span) s = execSpanCreditReturn span s := rfl
@[simp] theorem exec_pierAdderSum (span adder : Nat) (s : State) : exec (.pierAdderSum span adder) s = execPierAdderSum span adder s := rfl
@[simp] theorem exec_linkFailure (link : Nat) (s : State) : exec (.linkFailure link) s = execLinkFailure link s := rfl
@[simp] theorem exec_multicastStamp (sw : Nat) (pkt : Packet) (s : State) : exec (.multicastStamp sw pkt) s = execMulticastStamp sw pkt s := rfl
@[simp] theorem exec_multicastArrival (pkt : Packet) (s : State) : exec (.multicastArrival pkt) s = execMulticastArrival pkt s := rfl
@[simp] theorem exec_gapTimerExpiry (group : Nat) (s : State) : exec (.gapTimerExpiry group) s = execGapTimerExpiry group s := rfl
@[simp] theorem exec_memberAnswer (sw group : Nat) (postmark : Word) (midx : Nat) (status : Byte) (s : State) : exec (.memberAnswer sw group postmark midx status) s = execMemberAnswer sw group postmark midx status s := rfl
@[simp] theorem exec_memberAnswerTimeout (sw group : Nat) (postmark : Word) (s : State) : exec (.memberAnswerTimeout sw group postmark) s = execMemberAnswerTimeout sw group postmark s := rfl
@[simp] theorem exec_returnReceipt (pkt : Packet) (s : State) : exec (.returnReceipt pkt) s = execReturnReceipt pkt s := rfl
@[simp] theorem exec_combiningMerge (sw port : Nat) (pkt : Packet) (s : State) : exec (.combiningMerge sw port pkt) s = execCombiningMerge sw port pkt s := rfl
@[simp] theorem exec_combiningWindowExpiry (sw idx : Nat) (s : State) : exec (.combiningWindowExpiry sw idx) s = execCombiningWindowExpiry sw idx s := rfl
@[simp] theorem exec_decombineReply (sw : Nat) (pkt : Packet) (s : State) : exec (.decombineReply sw pkt) s = execDecombineReply sw pkt s := rfl
@[simp] theorem exec_recordError (sw idx : Nat) (s : State) : exec (.recordError sw idx) s = execRecordError sw idx s := rfl
@[simp] theorem exec_switchReset (sw : Nat) (s : State) : exec (.switchReset sw) s = execSwitchReset sw s := rfl
@[simp] theorem exec_cfaaQuery (reqid : Nat) (s : State) : exec (.cfaaQuery reqid) s = execCfaaQuery reqid s := rfl
@[simp] theorem exec_replyLogQuery (die : Nat) (pkt : Packet) (s : State) : exec (.replyLogQuery die pkt) s = execReplyLogQuery die pkt s := rfl
@[simp] theorem exec_replyLogAging (die : Nat) (s : State) : exec (.replyLogAging die) s = execReplyLogAging die s := rfl
@[simp] theorem exec_heartbeat (sw dev : Nat) (s : State) : exec (.heartbeat sw dev) s = execHeartbeat sw dev s := rfl
@[simp] theorem exec_heartbeatTimeout (sw dev : Nat) (s : State) : exec (.heartbeatTimeout sw dev) s = execHeartbeatTimeout sw dev s := rfl
@[simp] theorem exec_deathNotice (dev : Nat) (s : State) : exec (.deathNotice dev) s = execDeathNotice dev s := rfl
@[simp] theorem exec_declaredDead (inc : Byte) (s : State) : exec (.declaredDead inc) s = execDeclaredDead inc s := rfl
@[simp] theorem exec_incarnationExchange (own : Byte) (peers : List (Nat × Byte)) (s : State) : exec (.incarnationExchange own peers) s = execIncarnationExchange own peers s := rfl
@[simp] theorem exec_membershipTableProgram (place : Place) (keys : List (BitVec 16)) (s : State) : exec (.membershipTableProgram place keys) s = execMembershipTableProgram place keys s := rfl
@[simp] theorem exec_poolLinkFailure (die : Nat) (s : State) : exec (.poolLinkFailure die) s = execPoolLinkFailure die s := rfl
@[simp] theorem exec_tokenPost (off : Nat) (bytes : List (Nat × Byte)) (s : State) : exec (.tokenPost off bytes) s = execTokenPost off bytes s := rfl
@[simp] theorem exec_launch (s : State) : exec .launch s = execLaunch s := rfl
@[simp] theorem exec_reconfig (s : State) : exec .reconfig s = execReconfig s := rfl
@[simp] theorem exec_reconfigSwap (region : Nat) (s : State) : exec (.reconfigSwap region) s = execReconfigSwap region s := rfl
@[simp] theorem exec_beginStream (tile : Nat) (s : State) : exec (.beginStream tile) s = execBeginStream tile s := rfl
@[simp] theorem exec_configFieldWrite (tile : Nat) (s : State) : exec (.configFieldWrite tile) s = execConfigFieldWrite tile s := rfl
@[simp] theorem exec_crcEnd (tile : Nat) (s : State) : exec (.crcEnd tile) s = execCrcEnd tile s := rfl
@[simp] theorem exec_commitStream (tile : Nat) (s : State) : exec (.commitStream tile) s = execCommitStream tile s := rfl
@[simp] theorem exec_rollbackStream (tile : Nat) (s : State) : exec (.rollbackStream tile) s = execRollbackStream tile s := rfl
@[simp] theorem exec_armTile (tile : Nat) (s : State) : exec (.armTile tile) s = execArmTile tile s := rfl
@[simp] theorem exec_keystoneSweep (region : Nat) (s : State) : exec (.keystoneSweep region) s = execKeystoneSweep region s := rfl
@[simp] theorem exec_regionComplete (region : Nat) (s : State) : exec (.regionComplete region) s = execRegionComplete region s := rfl
@[simp] theorem exec_rateLimitWindow (core : Nat) (s : State) : exec (.rateLimitWindow core) s = execRateLimitWindow core s := rfl
@[simp] theorem exec_colourReserveRefill (core : Nat) (ids : List Nat) (s : State) : exec (.colourReserveRefill core ids) s = execColourReserveRefill core ids s := rfl
@[simp] theorem exec_regionEnd (region : Nat) (s : State) : exec (.regionEnd region) s = execRegionEnd region s := rfl
@[simp] theorem exec_quenchTimeout (core grp : Nat) (s : State) : exec (.quenchTimeout core grp) s = execQuenchTimeout core grp s := rfl
@[simp] theorem exec_coreSave (core : Nat) (s : State) : exec (.coreSave core) s = execCoreSave core s := rfl
@[simp] theorem exec_mcgrpRevoke (value : DWord) (s : State) : exec (.mcgrpRevoke value) s = execMcgrpRevoke value s := rfl
@[simp] theorem exec_poisonClr (value : DWord) (s : State) : exec (.poisonClr value) s = execPoisonClr value s := rfl
@[simp] theorem exec_poolRegionClear (value : DWord) (s : State) : exec (.poolRegionClear value) s = execPoolRegionClear value s := rfl
@[simp] theorem exec_registerWrite (off : Nat) (value : DWord) (s : State) : exec (.registerWrite off value) s = execRegisterWrite off value s := rfl
@[simp] theorem exec_powerGoodReset (flash : Flash) (s : State) : exec (.powerGoodReset flash) s = execPowerGoodReset flash s := rfl
@[simp] theorem exec_resetctl (value : Word) (s : State) : exec (.resetctl value) s = execResetctl value s := rfl
@[simp] theorem exec_attCtlGo (value : DWord) (s : State) : exec (.attCtlGo value) s = execAttCtlGo value s := rfl
@[simp] theorem exec_quoteDone (s : State) : exec .quoteDone s = execQuoteDone s := rfl
@[simp] theorem exec_throttleAssert (s : State) : exec .throttleAssert s = execThrottleAssert s := rfl
@[simp] theorem exec_throttleClear (s : State) : exec .throttleClear s = execThrottleClear s := rfl
@[simp] theorem exec_hostCxlMemAccess (addr : Nat) (bytes : List Byte) (s : State) : exec (.hostCxlMemAccess addr bytes) s = execHostCxlMemAccess addr bytes s := rfl
@[simp] theorem exec_preemptRequest (idx : Nat) (s : State) : exec (.preemptRequest idx) s = execPreemptRequest idx s := rfl
@[simp] theorem exec_quench (core : Nat) (s : State) : exec (.quench core) s = execQuench core s := rfl
@[simp] theorem exec_preemptionMarker (core port : Nat) (s : State) : exec (.preemptionMarker core port) s = execPreemptionMarker core port s := rfl
@[simp] theorem exec_poolLinkRetrain (die : Nat) (s : State) : exec (.poolLinkRetrain die) s = execPoolLinkRetrain die s := rfl
@[simp] theorem exec_combiningControlProgram (sw : Nat) (cen : Bool) (cwin : BitVec 10) (s : State) : exec (.combiningControlProgram sw cen cwin) s = execCombiningControlProgram sw cen cwin s := rfl
@[simp] theorem exec_replicationTreeProgram (sw group : Nat) (next : Word) (members : List TreeMember) (s : State) : exec (.replicationTreeProgram sw group next members) s = execReplicationTreeProgram sw group next members s := rfl

end Sys2Proof.Machine
end

