-- ==== Sys2Proof/Laws/Memory.lean ====
section
/-! SUPPORT. Laws of the operations that write memory: each keeps its canonical form, and each leaves the bytes outside what it
writes as they were. -/

namespace Sys2Proof.Machine

open Sys2Proof.Safety

/-! ## Operations that write no byte -/

/-- A fold of steps that keep memory keeps it. -/
theorem foldl_mem {α : Type} (k : State → α → State) (hk : ∀ s x, (k s x).mem = s.mem) (xs : List α) (s : State) :
    (xs.foldl k s).mem = s.mem := by
  induction xs generalizing s with
  | nil => rfl
  | cons x xs ih => rw [List.foldl_cons, ih, hk]

@[simp] theorem State.keepStale_mem (s : State) (ln : Nat) : (s.keepStale ln).mem = s.mem := by
  unfold State.keepStale; split <;> rfl
@[simp] theorem State.writeBack_mem (s : State) (ln : Nat) : (s.writeBack ln).mem = s.mem := rfl
@[simp] theorem State.healLine_mem (s : State) (ln : Nat) (w : Bool) : (s.healLine ln w).mem = s.mem := by
  unfold State.healLine; split <;> rfl
@[simp] theorem State.setHalf_mem (s : State) (ln h : Nat) (x : Half) : (s.setHalf ln h x).mem = s.mem := rfl
@[simp] theorem State.poolAcquire_mem (s : State) (ln : Nat) (w : Bool) : (s.poolAcquire ln w).mem = s.mem := by
  unfold State.poolAcquire; split <;> rfl
@[simp] theorem State.hostAcquire_mem (s : State) (ln hs : Nat) (w : Bool) : (s.hostAcquire ln hs w).mem = s.mem := by
  unfold State.hostAcquire
  split
  · refine foldl_mem _ (fun s h => ?_) _ _
    split
    · rfl
    · split <;> rfl
  · rfl
@[simp] theorem State.enqueue_mem (s : State) (k who : Nat) (r : SliceReq) : (s.enqueue k who r).mem = s.mem := rfl
@[simp] theorem State.unqueue_mem (s : State) (k i : Nat) : (s.unqueue k i).mem = s.mem := rfl
@[simp] theorem State.modAsk_mem (s : State) (k ln : Nat) (f : PermitReq → PermitReq) : (s.modAsk k ln f).mem = s.mem := rfl
@[simp] theorem State.served_mem (s : State) (k ln : Nat) : (s.served k ln).mem = s.mem := rfl
@[simp] theorem State.ask_mem (s : State) (k ln : Nat) (e : Bool) (pol : Nat) : (s.ask k ln e pol).mem = s.mem := by
  unfold State.ask
  dsimp only
  split
  · rfl
  · split <;> rfl
@[simp] theorem State.homeClean_mem (s : State) (ln : Nat) : (s.homeClean ln).mem = s.mem := by
  unfold State.homeClean
  split
  · rfl
  · split
    · rfl
    · exact foldl_mem _ (fun s h => by split <;> rfl) _ _
    · rfl

theorem State.evictFor_mem {s t : State} {k ln : Nat} (h : s.evictFor k ln = some t) : t.mem = s.mem := by
  unfold State.evictFor at h
  dsimp only at h
  split at h
  · cases h; rfl
  · obtain ⟨v, -, rfl⟩ := Option.map_eq_some_iff.mp h
    split <;> simp

theorem State.placeLine_mem {s t : State} {k ln pol : Nat} (h : s.placeLine k ln pol = some t) : t.mem = s.mem := by
  unfold State.placeLine at h
  dsimp only at h
  obtain ⟨u, hu, rfl⟩ := Option.map_eq_some_iff.mp h
  have e : u.mem = s.mem := by
    split at hu
    · cases hu; rfl
    · exact State.evictFor_mem hu
  split
  · split <;> simp [e]
  · simp [e]

theorem State.seat_mem {s t : State} {k ln pol : Nat} {w b : Bool} (h : s.seat k ln pol w = (b, t)) : t.mem = s.mem := by
  unfold State.seat at h
  split at h
  · obtain ⟨-, rfl⟩ := Prod.mk.inj h; rfl
  · rename_i e; obtain ⟨-, rfl⟩ := Prod.mk.inj h; exact State.placeLine_mem e

theorem State.mayServe_mem {s t : State} {k i ln pol : Nat} {n : Need} {m : Option Nat} {b : Bool}
    (h : s.mayServe k i ln n pol m = (b, t)) : t.mem = s.mem := by
  unfold State.mayServe at h
  dsimp only at h
  split at h
  · obtain ⟨-, rfl⟩ := Prod.mk.inj h; rfl
  · generalize (if (n == Need.read) = true then 1 else 32) = m at h
    split at h
    · obtain ⟨-, rfl⟩ := Prod.mk.inj h; simp
    · obtain ⟨-, rfl⟩ := Prod.mk.inj h; rfl

/-- A fold of steps that keep the canonical form keeps it. -/
theorem foldl_canonical {α : Type} (k : State → α → State) (hk : ∀ s x, memoryCanonical s → memoryCanonical (k s x)) (xs : List α)
    (s : State) (h : memoryCanonical s) : memoryCanonical (xs.foldl k s) := by
  induction xs generalizing s with
  | nil => exact h
  | cons x xs ih => rw [List.foldl_cons]; exact ih _ (hk _ _ h)

theorem memoryCanonical_of_mem {s t : State} (e : t.mem = s.mem) (h : memoryCanonical s) : memoryCanonical t := by
  unfold memoryCanonical at *; rw [e]; exact h

/-! ## Operations that write bytes -/

theorem State.pokeBytes_canonical (bs : List Byte) (s : State) (pa : Nat) (h : memoryCanonical s) : memoryCanonical (s.pokeBytes pa bs) := by
  induction bs generalizing s pa with
  | nil => exact h
  | cons b bs ih => exact ih _ _ (Memory.wf_write _ _ _ h)

/-- The bytes that no written place names read as before. -/
theorem State.pokeBytes_other (bs : List Byte) (s : State) (pa a : Nat) (h : ∀ i, i < bs.length → canonPA (pa + i) ≠ canonPA a) :
    (s.pokeBytes pa bs).memByte a = s.memByte a := by
  induction bs generalizing s pa with
  | nil => rfl
  | cons b bs ih =>
    show (State.pokeBytes _ (pa + 1) bs).memByte a = _
    rw [ih]
    · unfold State.memByte
      exact Memory.read_write_other _ _ _ _ fun e => h 0 (by simp) (by simpa using e.symm)
    · intro i hi
      have := h (i + 1) (by simp; omega)
      rwa [show pa + (i + 1) = pa + 1 + i by omega] at this

theorem State.storeLine_canonical (s : State) (k ln : Nat) (bytes : List (Nat × Byte)) (h : memoryCanonical s) :
    memoryCanonical (s.storeLine k ln bytes) := by
  unfold State.storeLine
  dsimp only
  refine memoryCanonical_of_mem (State.setSlice_mem _ _ _) (memoryCanonical_of_mem (State.healLine_mem _ _ _) ?_)
  refine foldl_canonical (fun (s : State) (e : Nat × Byte) => { s with mem := Memory.write s.mem (ln * 128 + e.1) e.2 })
    (fun s x h => Memory.wf_write s.mem _ _ h) _ _ ?_
  have h0 : memoryCanonical (((s.keepStale ln).poolAcquire ln true).hostAcquire ln (halvesOf (bytes.map Prod.fst)) true) :=
    memoryCanonical_of_mem (by simp) h
  split
  · refine memoryCanonical_of_mem (foldl_mem _ (fun s x => ?_) _ _) h0
    split <;> rfl
  · exact h0

/-- The bytes that a line's store does not name read as before. -/
theorem State.storeLine_other (s : State) (k ln : Nat) (bytes : List (Nat × Byte)) (a : Nat) (h : ∀ e ∈ bytes, ln * 128 + e.1 ≠ canonPA a) :
    (s.storeLine k ln bytes).memByte a = s.memByte a := by
  have fold : ∀ (bs : List (Nat × Byte)) (s : State), (∀ e ∈ bs, ln * 128 + e.1 ≠ canonPA a) →
      (bs.foldl (fun (s : State) e => { s with mem := Memory.write s.mem (ln * 128 + e.1) e.2 }) s).memByte a = s.memByte a := by
    intro bs
    induction bs with
    | nil => intro s _; rfl
    | cons b bs ih =>
      intro s h
      rw [List.foldl_cons, ih _ fun e he => h e (List.mem_cons_of_mem _ he)]
      unfold State.memByte
      exact Memory.read_write_other _ _ _ _ (fun e => h b (by simp) e.symm)
  unfold State.storeLine
  dsimp only
  rw [State.memByte_of_mem _ _ (State.setSlice_mem _ _ _), State.memByte_of_mem _ _ (State.healLine_mem _ _ _), fold _ _ h]
  refine State.memByte_of_mem _ _ ?_ a
  split
  · rw [foldl_mem _ (fun s x => by split <;> rfl)]; simp
  · simp

theorem State.tryAgent_canonical (s : State) (k idx : Nat) (h : memoryCanonical s) : memoryCanonical (s.tryAgent k idx) := by
  unfold State.tryAgent
  split
  · split
    · dsimp only
      split
      · exact h
      · split
        · rename_i e; exact memoryCanonical_of_mem (State.mayServe_mem e) h
        · rename_i e
          split
          · rename_i e'; exact memoryCanonical_of_mem ((State.seat_mem e').trans (State.mayServe_mem e)) h
          · rename_i e'
            have hu := memoryCanonical_of_mem ((State.unqueue_mem _ k idx).trans ((State.seat_mem e').trans (State.mayServe_mem e))) h
            refine memoryCanonical_of_mem (State.served_mem _ _ _) ?_
            split
            · exact hu
            · exact State.storeLine_canonical _ _ _ _ hu
    · exact h
  · exact h

theorem State.lineAgent_canonical (s : State) (who ln : Nat) (bs : List (Nat × Byte)) (h : memoryCanonical s) :
    memoryCanonical (s.lineAgent who ln bs) := by
  unfold State.lineAgent
  dsimp only
  split
  · exact State.tryAgent_canonical _ _ _ (memoryCanonical_of_mem (State.enqueue_mem _ _ _ _) h)
  · exact memoryCanonical_of_mem (State.enqueue_mem _ _ _ _) h

theorem State.lineWrite_canonical (s : State) (who pa : Nat) (bs : List Byte) (h : memoryCanonical s) : memoryCanonical (s.lineWrite who pa bs) :=
  foldl_canonical _ (fun s ln h => State.lineAgent_canonical s who ln _ h) _ _ h

theorem State.agentWrite_canonical (s : State) (pa : Nat) (bs : List Byte) (h : memoryCanonical s) : memoryCanonical (s.agentWrite pa bs) :=
  State.lineWrite_canonical _ _ _ _ h

end Sys2Proof.Machine
end

