-- ==== Sys2Proof/Tests/Slice0.lean ====
section
/-! SUPPORT. Tests: ill-formed terms that each check refuses, words written out from the encodings of the spec, single steps with
the results that the chapters print, and for each statement with hypotheses a state and operands that meet them. -/

namespace Sys2Proof.Tests

open Sys2Proof Sys2Proof.Machine Sys2Proof.Safety Sys2Proof.Claims

set_option Elab.async false

/-! ## Ill-formed terms (R68) -/

/-- FN: 1 for ADD, 3 for MOVI.BY, 6 for CMP, 2 for BINTIM.PRIO, 4 for CPREF.L1, 1 for FENCE. -/
theorem test_illFormedFn :
    ([.add ⟨1, .v 3, .v 1, .v 2, .op .zero, .always, .s32, 0, 0⟩, .moviBy ⟨3, .v 1, .v 2, .zero, .imm 1, .always, .b32, 0, 0⟩,
      .cmp ⟨6, .v 1, .v 2, .v 3, .op .zero, .always, .s32, 0, 0⟩, .bintimPrio ⟨2, .zero, .v 1, .v 2, .op .zero, .always, .b32, 0, 0⟩,
      .cprefL1 ⟨4, .zero, .v 4, .v 1, .op .zero, .always, .grp, .rlx, 15, 0, 0⟩,
      .fence ⟨1, .zero, .zero, .zero, .op .zero, .always, .dev, .rel, 15, 0, 0⟩] : List Instr).all (fun i => !i.wellFormed) = true := by decide

/-- An unused field that is not 0xFF: D of COLFREE, A of MOVI, B of MOV, C of SHL. -/
theorem test_illFormedUnused :
    ([.colfree ⟨0, .v 1, .v 3, .zero, .op .zero, .always, .b32, 0, 0⟩, .movi ⟨0, .v 1, .v 0, .zero, .imm 1, .always, .s32, 0, 0⟩,
      .mov ⟨0, .v 1, .v 2, .v 3, .op .zero, .always, .b32, 0, 0⟩, .shl ⟨0, .v 1, .v 2, .v 3, .op (.v 4), .always, .b32, 0, 0⟩]
      : List Instr).all (fun i => !i.wellFormed) = true := by decide

/-- IC, T, MOD and X: an immediate for MOV, none for MOVI, F32 for ADD, S32 for FADD, `.SAT` for MULHI and REM, a table of eight and
more, a flag in a short word, a flag above 15 in a long one. -/
theorem test_illFormedF0 :
    ([.mov ⟨0, .v 1, .v 2, .zero, .imm 0, .always, .b32, 0, 0⟩, .movi ⟨0, .v 1, .zero, .zero, .op .zero, .always, .s32, 0, 0⟩,
      .add ⟨0, .v 3, .v 1, .v 2, .op .zero, .always, .f32, 0, 0⟩, .fadd ⟨0, .v 3, .v 1, .v 2, .op .zero, .always, .s32, 0, 0⟩,
      .mulhi ⟨0, .v 3, .v 1, .v 2, .op .zero, .always, .s32, 1, 0⟩, .rem ⟨0, .v 3, .v 1, .v 2, .op .zero, .always, .s32, 1, 0⟩,
      .tswap ⟨0, .zero, .zero, .zero, .imm 8, .always, .b32, 0, 0⟩, .add ⟨0, .v 3, .v 1, .v 2, .op .zero, .always, .s32, 0, 1⟩,
      .div ⟨0, .v 3, .v 1, .v 2, .op .zero, .always, .s32, 0, 16⟩] : List Instr).all (fun i => !i.wellFormed) = true := by decide

/-- SCOPE, ORDER, FLAG, L1POL and L2POL: a scope on LDF, a release on LDG, grp on FENCE, a flag on STF, L1POL on STG, L2POL 3. -/
theorem test_illFormedF1 :
    ([.ldf ⟨4, .v 1, .v 2, .zero, .imm 4, .always, .team, .rlx, 15, 0, 0⟩, .ldg ⟨4, .v 4, .v 2, .v 6, .op .zero, .always, .dev, .rel, 1, 0, 0⟩,
      .fence ⟨0, .zero, .zero, .zero, .op .zero, .always, .grp, .rel, 15, 0, 0⟩, .stf ⟨4, .zero, .v 1, .v 2, .op (.v 3), .always, .grp, .rlx, 0, 0, 0⟩,
      .stg ⟨4, .zero, .v 2, .v 5, .imm 8, .always, .grp, .rlx, 15, 1, 0⟩, .ldg ⟨4, .v 4, .v 2, .v 6, .op .zero, .always, .grp, .rlx, 1, 0, 3⟩,
      .rld ⟨4, .zero, .v 2, .v 6, .op .zero, .always, .dom, .rlx, 15, 0, 0⟩, .rld ⟨4, .v 8, .v 2, .v 6, .op .zero, .always, .dom, .rlx, 15, 0, 0⟩]
      : List Instr).all (fun i => !i.wellFormed) = true := by decide

/-- SHAPE, SPAR, GANGB, TBUF, TEXIT and CODE: shape 8, SPAR on MMA and none on SPMMA, GANGB on ACCZ, buffer A for an incoming C copy, an
exit without TOK, an unknown system register, KEYSET of slot 3. -/
theorem test_illFormedF3F4F6 :
    ([.mma ⟨0, .v 2, .v 3, .v 4, .v 8, .always, 8, 0, false, 1⟩, .mma ⟨0, .v 2, .v 3, .v 4, .v 8, .always, 4, 1, false, 1⟩,
      .spmma ⟨0, .v 2, .v 3, .v 4, .v 8, .always, 4, 0, false, 1⟩, .accz ⟨0, .v 3, .zero, .zero, .zero, .always, 1, 0, true, 2⟩,
      .cpyIn ⟨1, .v 8, .v 2, .v 4, .op .zero, .always, 3, 2, false, 0⟩, .cpyMm ⟨0, .v 8, .v 2, .v 4, .op .zero, .always, 0, 15, false, 1⟩,
      .srrd ⟨0, .v 4, .zero, .zero, .op .zero, .always, 0x135⟩, .keyset ⟨0, .v 0, .v 2, .zero, .op .zero, .always, 3⟩]
      : List Instr).all (fun i => !i.wellFormed) = true := by decide

/-- Operands: an odd pair as source and destination, a pair beyond k63, em as a source, a predicate as a pair, a run that is not
aligned, a run beyond v127, PAND into a register, EMWR into a register. -/
theorem test_illFormedOperand :
    ([.add ⟨0, .v 4, .v 3, .v 2, .op .zero, .always, .s64, 0, 0⟩, .add ⟨0, .v 5, .v 2, .v 2, .op .zero, .always, .s64, 0, 0⟩,
      .add ⟨0, .v 4, .k 63, .v 2, .op .zero, .always, .s64, 0, 0⟩, .and ⟨0, .v 4, .em, .v 2, .op .zero, .always, .s32, 0, 0⟩,
      .add ⟨0, .v 4, .p 0, .v 2, .op .zero, .always, .s64, 0, 0⟩, .qnt ⟨0, .v 16, .v 4, .v 8, .op .zero, .always, .e2m1, 0, 0⟩,
      .gthr ⟨3, .zero, .v 125, .zero, .zero, .always, 0, 0, false, 15⟩, .pand ⟨0, .v 1, .p 0, .p 1, .op .zero, .always, .b32, 0, 0⟩,
      .emwrAnd ⟨0, .v 1, .v 3, .zero, .op .zero, .always, .b32, 0, 0⟩] : List Instr).all (fun i => !i.wellFormed) = true := by decide

/-- F2 words and clause headers: FN 1, EXIT with a tag, EOS with a payload, a payload run beyond v127, em as colour; a set without V0,
flag 12, one flag named twice. An event is no word. -/
theorem test_illFormedTokenClause :
    ([.send ⟨1, 1, 0, .sp .tag, .v 0, .always, .sp .colour, 0, .dev⟩, .exit ⟨0, 0, 0, .v 1, .v 0, .always, .v 0, 0, .grp⟩,
      .eos ⟨0, 1, 0, .sp .tag, .v 1, .always, .v 0, 0, .dev⟩, .send ⟨0, 1, 0, .sp .tag, .v 120, .always, .sp .colour, 15, .dev⟩,
      .send ⟨0, 1, 0, .sp .tag, .v 0, .always, .em, 0, .dev⟩, .clauseHeader ⟨0, 3, false, 0, false, 1⟩, .clauseHeader ⟨0, 12, true, 0, false, 1⟩,
      .clauseHeader ⟨0, 2, true, 2, true, 1⟩, .quoteDone] : List Instr).all (fun i => !i.wellFormed) = true := by decide

/-- Words that a row of R68 rejects: reserved OPs, FN not defined, a bit that must be zero, G = 7 with GN = 1, a reserved operand code,
an odd pair, a register at or above REGD, a NOP with another bit set. -/
theorem test_rejectedWords :
    ([0x0F00000000000000, 0xFF00000000000000, 0x1310301020070800, 0x2E00300020470004, 0x1300301020078800, 0x1300301CE0070800,
      0x1300301020071800, 0x0100000000070001, 0x0101000000070000] : List Nat).all (fun w => (decodeTableWord 64 w).isNone) = true ∧
    (match decode 3 0x1300301FFFBF0900 with | .error e => some e | .ok _ => none) = some (.operand 3) := by decide

/-- NOP (R67) and the clause headers of chapters 2 and 16. -/
theorem test_decodeClauseNop :
    decodeTableWord 64 0x0100000000070000 = some .nop ∧
    decodeTableWord 64 0x0000028008000000 = some (.clauseHeader ⟨0, 2, true, 0, false, 1⟩) ∧
    decodeTableWord 64 0x0000400008000000 = some (.clauseHeader ⟨4, 0, false, 0, false, 1⟩) ∧
    decodeTableWord 64 0x0000008040000000 = some (.clauseHeader ⟨0, 0, true, 0, false, 8⟩) ∧
    decodeTableWord 64 0x00001000C0000000 = some (.clauseHeader ⟨1, 0, false, 0, false, 24⟩) := by
  refine ⟨?_, ?_, ?_, ?_, ?_⟩ <;> rfl

/-- Words of integer and bit words: those that the chapters print, and others written out from R42 and the table of their entry. -/
theorem test_decodeInteger :
    decodeTableWord 64 0x1000482FFFF72000 = some (.mov ⟨0, .v 4, .k 2, .zero, .op .zero, .always, .n64, 0, 0⟩) ∧
    decodeTableWord 64 0x110018502FF70000 = some (.movk ⟨0, .v 1, .k 5, .v 2, .op .zero, .always, .b32, 0, 0⟩) ∧
    decodeTableWord 64 0x12001FFFF38F2800 = some (.movi ⟨0, .v 1, .zero, .zero, .imm 56, .always, .f32, 0, 0⟩) ∧
    decodeTableWord 64 0x1260102FF34F0000 = some (.moviBy ⟨6, .v 1, .v 2, .zero, .imm 52, .always, .b32, 0, 0⟩) ∧
    decodeTableWord 64 0x1300301FFFBF0900 = some (.add ⟨0, .v 3, .v 1, .zero, .imm 251, .always, .s32, 1, 0⟩) ∧
    decodeTableWord 64 0x130E10102FF70800 = some (.add ⟨0, .p 1, .v 1, .v 2, .op .zero, .always, .s32, 0, 0⟩) ∧
    decodeTableWord 64 0x140010203FF29000 = some (.sub ⟨0, .v 1, .v 2, .v 3, .op .zero, .pred 2 true, .n32, 0, 0⟩) ∧
    decodeTableWord 64 0x150020406FF71800 = some (.mul ⟨0, .v 2, .v 4, .v 6, .op .zero, .always, .s64, 0, 0⟩) ∧
    decodeTableWord 64 0x160020406FF72000 = some (.mulhi ⟨0, .v 2, .v 4, .v 6, .op .zero, .always, .n64, 0, 0⟩) ∧
    decodeTableWord 64 0x17000000301F1100 = some (.mad ⟨0, .v 0, .v 0, .v 3, .imm 1, .always, .n32, 1, 0⟩) ∧
    decodeTableWord 64 0x1800204050670800 = some (.madw ⟨0, .v 2, .v 4, .v 5, .op (.v 6), .always, .s32, 0, 0⟩) ∧
    decodeTableWord 64 0x19000C0C1FF70802 = some (.div ⟨0, .v 0, .inp 0, .inp 1, .op .zero, .always, .s32, 0, 2⟩) ∧
    decodeTableWord 64 0x1900402FF0AF1001 = some (.div ⟨0, .v 4, .v 2, .zero, .imm 10, .always, .n32, 0, 1⟩) ∧
    decodeTableWord 64 0x1A00204FF0AF0803 = some (.rem ⟨0, .v 2, .v 4, .zero, .imm 10, .always, .s32, 0, 3⟩) ∧
    decodeTableWord 64 0x1B00102FFFF70800 = some (.abs ⟨0, .v 1, .v 2, .zero, .op .zero, .always, .s32, 0, 0⟩) ∧
    decodeTableWord 64 0x1C00102FFFF77400 = some (.neg ⟨0, .v 1, .v 2, .zero, .op .zero, .always, .h16, 4, 0⟩) ∧
    decodeTableWord 64 0x1D0010203FF70800 = some (.min ⟨0, .v 1, .v 2, .v 3, .op .zero, .always, .s32, 0, 0⟩) ∧
    decodeTableWord 64 0x1E00102FFFFF1000 = some (.max ⟨0, .v 1, .v 2, .zero, .imm 255, .always, .n32, 0, 0⟩) ∧
    decodeTableWord 64 0x1F00102FF1FF0000 = some (.shl ⟨0, .v 1, .v 2, .zero, .imm 31, .always, .b32, 0, 0⟩) ∧
    decodeTableWord 64 0x20010100FFF72000 = some (.shr ⟨0, .v 16, .v 16, .v 15, .op .zero, .always, .n64, 0, 0⟩) ∧
    decodeTableWord 64 0x210020401FF71800 = some (.sar ⟨0, .v 2, .v 4, .v 1, .op .zero, .always, .s64, 0, 0⟩) ∧
    decodeTableWord 64 0x220010203FF71000 = some (.rol ⟨0, .v 1, .v 2, .v 3, .op .zero, .always, .n32, 0, 0⟩) ∧
    decodeTableWord 64 0x230010203FF70000 = some (.and ⟨0, .v 1, .v 2, .v 3, .op .zero, .always, .b32, 0, 0⟩) ∧
    decodeTableWord 64 0x240020406FF72000 = some (.or ⟨0, .v 2, .v 4, .v 6, .op .zero, .always, .n64, 0, 0⟩) := by
  refine ⟨?_, ?_, ?_, ?_, ?_, ?_, ?_, ?_, ?_, ?_, ?_, ?_, ?_, ?_, ?_, ?_, ?_, ?_, ?_, ?_, ?_, ?_, ?_, ?_⟩ <;> rfl

/-- Words of integer and bit words: those that the chapters print, and others written out from R42 and the table of their entry. -/
theorem test_decodeInteger2 :
    decodeTableWord 64 0x25001E0E1FF70000 = some (.xor ⟨0, .v 1, .p 0, .p 1, .op .zero, .always, .b32, 0, 0⟩) ∧
    decodeTableWord 64 0x2600102FFFF70000 = some (.not ⟨0, .v 1, .v 2, .zero, .op .zero, .always, .b32, 0, 0⟩) ∧
    decodeTableWord 64 0x2700102FF0FF0000 = some (.andn ⟨0, .v 1, .v 2, .zero, .imm 15, .always, .b32, 0, 0⟩) ∧
    decodeTableWord 64 0x28001020308F0800 = some (.bfe ⟨0, .v 1, .v 2, .v 3, .imm 8, .always, .s32, 0, 0⟩) ∧
    decodeTableWord 64 0x2900102030470000 = some (.bfi ⟨0, .v 1, .v 2, .v 3, .op (.v 4), .always, .b32, 0, 0⟩) ∧
    decodeTableWord 64 0x2A00102FFFF70000 = some (.brev ⟨0, .v 1, .v 2, .zero, .op .zero, .always, .b32, 0, 0⟩) ∧
    decodeTableWord 64 0x2B00102FFFF72000 = some (.clz ⟨0, .v 1, .v 2, .zero, .op .zero, .always, .n64, 0, 0⟩) ∧
    decodeTableWord 64 0x2C00102FFFF70000 = some (.ctz ⟨0, .v 1, .v 2, .zero, .op .zero, .always, .b32, 0, 0⟩) ∧
    decodeTableWord 64 0x2D00102FFFF70000 = some (.popc ⟨0, .v 1, .v 2, .zero, .op .zero, .always, .b32, 0, 0⟩) ∧
    decodeTableWord 64 0x2E0010203E370000 = some (.sel ⟨0, .v 1, .v 2, .v 3, .op (.p 3), .always, .b32, 0, 0⟩) ∧
    decodeTableWord 64 0x2F2E20405FF70800 = some (.cmp ⟨2, .p 2, .v 4, .v 5, .op .zero, .always, .s32, 0, 0⟩) ∧
    decodeTableWord 64 0x3001084D203F1000 = some (.lea ⟨0, .v 16, .k 4, .sp .tag, .imm 3, .always, .n32, 0, 0⟩) ∧
    decodeTableWord 64 0x3130201FFFF70900 = some (.cvti ⟨3, .v 2, .v 1, .zero, .op .zero, .always, .s32, 1, 0⟩) ∧
    decodeTableWord 64 0x323E2E1E0FF70000 = some (.pand ⟨3, .p 2, .p 1, .p 0, .op .zero, .always, .b32, 0, 0⟩) ∧
    decodeTableWord 64 0x330E2E1E7FF70000 = some (.por ⟨0, .p 2, .p 1, .em, .op .zero, .always, .b32, 0, 0⟩) ∧
    decodeTableWord 64 0x341E0E1E2FF70000 = some (.pxor ⟨1, .p 0, .p 1, .p 2, .op .zero, .always, .b32, 0, 0⟩) ∧
    decodeTableWord 64 0x350E0E1FFFF70000 = some (.pnot ⟨0, .p 0, .p 1, .zero, .op .zero, .always, .b32, 0, 0⟩) := by
  refine ⟨?_, ?_, ?_, ?_, ?_, ?_, ?_, ?_, ?_, ?_, ?_, ?_, ?_, ?_, ?_, ?_, ?_⟩ <;> rfl

/-- Words of lane words: those that the chapters print, and others written out from R42 and the table of their entry. -/
theorem test_decodeLane :
    decodeTableWord 64 0x4030606FF01F0000 = some (.shfl ⟨3, .v 6, .v 6, .zero, .imm 1, .always, .b32, 0, 0⟩) ∧
    decodeTableWord 64 0x411E1E2FFFF70000 = some (.vote ⟨1, .p 1, .p 2, .zero, .op .zero, .always, .b32, 0, 0⟩) ∧
    decodeTableWord 64 0x42001E0FFFF70200 = some (.ballot ⟨0, .v 1, .p 0, .zero, .op .zero, .always, .b32, 2, 0⟩) ∧
    decodeTableWord 64 0x4300908FFFF12800 = some (.matchAny ⟨0, .v 9, .v 8, .zero, .op .zero, .pred 1 false, .f32, 0, 0⟩) ∧
    decodeTableWord 64 0x4310204FFFF72000 = some (.matchAll ⟨1, .v 2, .v 4, .zero, .op .zero, .always, .n64, 0, 0⟩) ∧
    decodeTableWord 64 0x4400102FFFF70900 = some (.redg ⟨0, .v 1, .v 2, .zero, .op .zero, .always, .s32, 1, 0⟩) ∧
    decodeTableWord 64 0x4590102FFFF71000 = some (.scang ⟨9, .v 1, .v 2, .zero, .op .zero, .always, .n32, 0, 0⟩) ∧
    decodeTableWord 64 0x46201E7FFFF70000 = some (.emrd ⟨2, .v 1, .em, .zero, .op .zero, .always, .b32, 0, 0⟩) ∧
    decodeTableWord 64 0x470E703FFFF70000 = some (.emwrAnd ⟨0, .em, .v 3, .zero, .op .zero, .always, .b32, 0, 0⟩) ∧
    decodeTableWord 64 0x471E703FFFF70000 = some (.emwrSet ⟨1, .em, .v 3, .zero, .op .zero, .always, .b32, 0, 0⟩) := by
  refine ⟨?_, ?_, ?_, ?_, ?_, ?_, ?_, ?_, ?_, ?_⟩ <;> rfl

/-- Words of floating-point, special-function and table words: those that the chapters print, and others written out from R42 and the table of their entry. -/
theorem test_decodeFloat :
    decodeTableWord 64 0x5000506FF30F3500 = some (.fadd ⟨0, .v 5, .v 6, .zero, .imm 48, .always, .f16, 5, 0⟩) ∧
    decodeTableWord 64 0x510010203FF72A00 = some (.fsub ⟨0, .v 1, .v 2, .v 3, .op .zero, .always, .f32, 2, 0⟩) ∧
    decodeTableWord 64 0x520010203FF73800 = some (.fmul ⟨0, .v 1, .v 2, .v 3, .op .zero, .always, .bf16, 0, 0⟩) ∧
    decodeTableWord 64 0x5300301020472800 = some (.ffma ⟨0, .v 3, .v 1, .v 2, .op (.v 4), .always, .f32, 0, 0⟩) ∧
    decodeTableWord 64 0x5302010201872800 = some (.ffma ⟨0, .v 32, .v 16, .v 32, .op (.v 24), .always, .f32, 0, 0⟩) ∧
    decodeTableWord 64 0x540010203FF72800 = some (.fmin ⟨0, .v 1, .v 2, .v 3, .op .zero, .always, .f32, 0, 0⟩) ∧
    decodeTableWord 64 0x550010203FF73000 = some (.fmax ⟨0, .v 1, .v 2, .v 3, .op .zero, .always, .f16, 0, 0⟩) ∧
    decodeTableWord 64 0x5600102FFFF72800 = some (.fabs ⟨0, .v 1, .v 2, .zero, .op .zero, .always, .f32, 0, 0⟩) ∧
    decodeTableWord 64 0x5700102FFFF73000 = some (.fneg ⟨0, .v 1, .v 2, .zero, .op .zero, .always, .f16, 0, 0⟩) ∧
    decodeTableWord 64 0x582E20102FF72800 = some (.fcmp ⟨2, .p 2, .v 1, .v 2, .op .zero, .always, .f32, 0, 0⟩) ∧
    decodeTableWord 64 0x5900102FFFF72800 = some (.fclass ⟨0, .v 1, .v 2, .zero, .op .zero, .always, .f32, 0, 0⟩) ∧
    decodeTableWord 64 0x5A00102FFFF72A00 = some (.frnd ⟨0, .v 1, .v 2, .zero, .op .zero, .always, .f32, 2, 0⟩) ∧
    decodeTableWord 64 0x5B50702FFFF73C00 = some (.fcvt ⟨5, .v 7, .v 2, .zero, .op .zero, .always, .bf16, 4, 0⟩) ∧
    decodeTableWord 64 0x5B50808FFFF70800 = some (.fcvt ⟨5, .v 8, .v 8, .zero, .op .zero, .always, .s32, 0, 0⟩) ∧
    decodeTableWord 64 0x5C0010203FF72800 = some (.fdiv ⟨0, .v 1, .v 2, .v 3, .op .zero, .always, .f32, 0, 0⟩) ∧
    decodeTableWord 64 0x5D00102FFFF72800 = some (.fsqrt ⟨0, .v 1, .v 2, .zero, .op .zero, .always, .f32, 0, 0⟩) ∧
    decodeTableWord 64 0x5E0010203FF73000 = some (.hadd2 ⟨0, .v 1, .v 2, .v 3, .op .zero, .always, .f16, 0, 0⟩) ∧
    decodeTableWord 64 0x5F0010203FF73800 = some (.hmul2 ⟨0, .v 1, .v 2, .v 3, .op .zero, .always, .bf16, 0, 0⟩) ∧
    decodeTableWord 64 0x6000A0B0C0D73800 = some (.hfma2 ⟨0, .v 10, .v 11, .v 12, .op (.v 13), .always, .bf16, 0, 0⟩) ∧
    decodeTableWord 64 0x61001FFFFFF70000 = some (.sflgRd ⟨0, .v 1, .zero, .zero, .op .zero, .always, .b32, 0, 0⟩) ∧
    decodeTableWord 64 0x61101FFFFFF70000 = some (.sflgRdc ⟨1, .v 1, .zero, .zero, .op .zero, .always, .b32, 0, 0⟩) ∧
    decodeTableWord 64 0x612FFFFFF01F0000 = some (.sflgSet ⟨2, .zero, .zero, .zero, .imm 1, .always, .b32, 0, 0⟩) ∧
    decodeTableWord 64 0x613FF02FFFF70000 = some (.sflgClr ⟨3, .zero, .v 2, .zero, .op .zero, .always, .b32, 0, 0⟩) ∧
    decodeTableWord 64 0x7000102FFFF72800 = some (.rcp ⟨0, .v 1, .v 2, .zero, .op .zero, .always, .f32, 0, 0⟩) := by
  refine ⟨?_, ?_, ?_, ?_, ?_, ?_, ?_, ?_, ?_, ?_, ?_, ?_, ?_, ?_, ?_, ?_, ?_, ?_, ?_, ?_, ?_, ?_, ?_, ?_⟩ <;> rfl

/-- Words of floating-point, special-function and table words: those that the chapters print, and others written out from R42 and the table of their entry. -/
theorem test_decodeFloat2 :
    decodeTableWord 64 0x7100102FFFF72800 = some (.rsq ⟨0, .v 1, .v 2, .zero, .op .zero, .always, .f32, 0, 0⟩) ∧
    decodeTableWord 64 0x7200102FFFF72800 = some (.exp2 ⟨0, .v 1, .v 2, .zero, .op .zero, .always, .f32, 0, 0⟩) ∧
    decodeTableWord 64 0x7300102FFFF72800 = some (.log2 ⟨0, .v 1, .v 2, .zero, .op .zero, .always, .f32, 0, 0⟩) ∧
    decodeTableWord 64 0x7400102FFFF73000 = some (.sin ⟨0, .v 1, .v 2, .zero, .op .zero, .always, .f16, 0, 0⟩) ∧
    decodeTableWord 64 0x7500102FFFF73800 = some (.cos ⟨0, .v 1, .v 2, .zero, .op .zero, .always, .bf16, 0, 0⟩) ∧
    decodeTableWord 64 0x7600102FFFF72800 = some (.tanh ⟨0, .v 1, .v 2, .zero, .op .zero, .always, .f32, 0, 0⟩) ∧
    decodeTableWord 64 0x7700102FFFF72800 = some (.sigm ⟨0, .v 1, .v 2, .zero, .op .zero, .always, .f32, 0, 0⟩) ∧
    decodeTableWord 64 0x7800908FF03F2805 = some (.teval ⟨0, .v 9, .v 8, .zero, .imm 3, .always, .f32, 0, 5⟩) ∧
    decodeTableWord 64 0x790FF02FF03F0005 = some (.tload ⟨0, .zero, .v 2, .zero, .imm 3, .always, .b32, 0, 5⟩) ∧
    decodeTableWord 64 0x7A0FFFFFF03F0000 = some (.tswap ⟨0, .zero, .zero, .zero, .imm 3, .always, .b32, 0, 0⟩) := by
  refine ⟨?_, ?_, ?_, ?_, ?_, ?_, ?_, ?_, ?_, ?_⟩ <;> rfl

/-- Words of narrow-format and residue words: those that the chapters print, and others written out from R42 and the table of their entry. -/
theorem test_decodeNarrow :
    decodeTableWord 64 0x800100008FF76000 = some (.qnt ⟨0, .v 16, .v 0, .v 8, .op .zero, .always, .e2m1, 0, 0⟩) ∧
    decodeTableWord 64 0x810100203FF74000 = some (.dqnt ⟨0, .v 16, .v 2, .v 3, .op .zero, .always, .e4m3, 0, 0⟩) ∧
    decodeTableWord 64 0x8200102FFFF74000 = some (.scale ⟨0, .v 1, .v 2, .zero, .op .zero, .always, .e4m3, 0, 0⟩) ∧
    decodeTableWord 64 0x8300A01020370000 = some (.bspack ⟨0, .v 10, .v 1, .v 2, .op (.v 3), .always, .b32, 0, 0⟩) ∧
    decodeTableWord 64 0x8400102FF01F0000 = some (.bsunpack ⟨0, .v 1, .v 2, .zero, .imm 1, .always, .b32, 0, 0⟩) ∧
    decodeTableWord 64 0x850010203FF74000 = some (.cvtnUp ⟨0, .v 1, .v 2, .v 3, .op .zero, .always, .e4m3, 0, 0⟩) ∧
    decodeTableWord 64 0x85104020403F4400 = some (.cvtnDn ⟨1, .v 4, .v 2, .v 4, .imm 3, .always, .e4m3, 4, 0⟩) ∧
    decodeTableWord 64 0x8520408FFFF75000 = some (.cvtnDense ⟨2, .v 4, .v 8, .zero, .op .zero, .always, .e3m2, 0, 0⟩) ∧
    decodeTableWord 64 0x8530408FFFF75800 = some (.cvtnBytes ⟨3, .v 4, .v 8, .zero, .op .zero, .always, .e2m3, 0, 0⟩) ∧
    decodeTableWord 64 0x8611020FFFF75000 = some (.spcmp ⟨1, .v 16, .v 32, .zero, .op .zero, .always, .e3m2, 0, 0⟩) ∧
    decodeTableWord 64 0x8721028FFFF76000 = some (.spexp ⟨2, .v 16, .v 40, .zero, .op .zero, .always, .e2m1, 0, 0⟩) ∧
    decodeTableWord 64 0x8800102FFFF76800 = some (.rncv ⟨0, .v 1, .v 2, .zero, .op .zero, .always, .rn32, 0, 0⟩) ∧
    decodeTableWord 64 0x8910102FFFF76800 = some (.rncrt ⟨1, .v 1, .v 2, .zero, .op .zero, .always, .rn32, 0, 0⟩) ∧
    decodeTableWord 64 0x8A0010203FF76800 = some (.rnadd ⟨0, .v 1, .v 2, .v 3, .op .zero, .always, .rn32, 0, 0⟩) ∧
    decodeTableWord 64 0x8B0010203FF76800 = some (.rnsub ⟨0, .v 1, .v 2, .v 3, .op .zero, .always, .rn32, 0, 0⟩) ∧
    decodeTableWord 64 0x8C00102FF03F6800 = some (.rnmul ⟨0, .v 1, .v 2, .zero, .imm 3, .always, .rn32, 0, 0⟩) ∧
    decodeTableWord 64 0x8D00501020376800 = some (.rnmad ⟨0, .v 5, .v 1, .v 2, .op (.v 3), .always, .rn32, 0, 0⟩) ∧
    decodeTableWord 64 0x8E00102FFFF76800 = some (.rnneg ⟨0, .v 1, .v 2, .zero, .op .zero, .always, .rn32, 0, 0⟩) ∧
    decodeTableWord 64 0x8F0010203FF76800 = some (.rnscl ⟨0, .v 1, .v 2, .v 3, .op .zero, .always, .rn32, 0, 0⟩) := by
  refine ⟨?_, ?_, ?_, ?_, ?_, ?_, ?_, ?_, ?_, ?_, ?_, ?_, ?_, ?_, ?_, ?_, ?_, ?_, ?_⟩ <;> rfl

/-- Words of matrix words: those that the chapters print, and others written out from R42 and the table of their entry. -/
theorem test_decodeMatrix :
    decodeTableWord 64 0x9000203048872010 = some (.mma ⟨0, .v 2, .v 3, .v 4, .k 8, .always, 4, 0, false, 1⟩) ∧
    decodeTableWord 64 0x9100203048872010 = some (.gmma ⟨0, .v 2, .v 3, .v 4, .k 8, .always, 4, 0, false, 1⟩) ∧
    decodeTableWord 64 0x9200102FFFF700F0 = some (.gang ⟨0, .v 1, .v 2, .zero, .zero, .always, 0, 0, false, 15⟩) ∧
    decodeTableWord 64 0x930020405FF700F0 = some (.fmtb ⟨0, .v 2, .v 4, .v 5, .zero, .always, 0, 0, false, 15⟩) ∧
    decodeTableWord 64 0x941FF04FFFF700F0 = some (.gthr ⟨1, .zero, .v 4, .zero, .zero, .always, 0, 0, false, 15⟩) ∧
    decodeTableWord 64 0x9510607080A70D30 = some (.spmma ⟨1, .v 6, .v 7, .v 8, .v 10, .always, 1, 2, true, 3⟩) ∧
    decodeTableWord 64 0x9600303038C70010 = some (.rnmma ⟨0, .v 3, .v 3, .v 3, .k 12, .always, 0, 0, false, 1⟩) ∧
    decodeTableWord 64 0x97003FFFFFF70820 = some (.accz ⟨0, .v 3, .zero, .zero, .zero, .always, 1, 0, false, 2⟩) ∧
    decodeTableWord 64 0x9801005FFFF72020 = some (.accld ⟨0, .v 16, .v 5, .zero, .zero, .always, 4, 0, false, 2⟩) ∧
    decodeTableWord 64 0x9901005FFFF72020 = some (.accst ⟨0, .v 16, .v 5, .zero, .zero, .always, 4, 0, false, 2⟩) ∧
    decodeTableWord 64 0x9911005FFFF72020 = some (.accstAdd ⟨1, .v 16, .v 5, .zero, .zero, .always, 4, 0, false, 2⟩) ∧
    decodeTableWord 64 0x9921005FFFF70020 = some (.accstRnadd ⟨2, .v 16, .v 5, .zero, .zero, .always, 0, 0, false, 2⟩) ∧
    decodeTableWord 64 0x9A00390FFFF70010 = some (.acccvRn ⟨0, .v 3, .k 16, .zero, .zero, .always, 0, 0, false, 1⟩) ∧
    decodeTableWord 64 0x9A10390FFFF70010 = some (.acccvSc ⟨1, .v 3, .k 16, .zero, .zero, .always, 0, 0, false, 1⟩) := by
  refine ⟨?_, ?_, ?_, ?_, ?_, ?_, ?_, ?_, ?_, ?_, ?_, ?_, ?_, ?_⟩ <;> rfl

/-- Words of local access words: those that the chapters print, and others written out from R42 and the table of their entry. -/
theorem test_decodeLocal :
    decodeTableWord 64 0xA040102FF04F03C0 = some (.ldf ⟨4, .v 1, .v 2, .zero, .imm 4, .always, .grp, .rlx, 15, 0, 0⟩) ∧
    decodeTableWord 64 0xA14FF010203703C0 = some (.stf ⟨4, .zero, .v 1, .v 2, .op (.v 3), .always, .grp, .rlx, 15, 0, 0⟩) ∧
    decodeTableWord 64 0xA26040203FF70040 = some (.ldw ⟨6, .v 4, .v 2, .v 3, .op .zero, .always, .grp, .rlx, 1, 0, 0⟩) ∧
    decodeTableWord 64 0xA340501FF04F0080 = some (.lda ⟨4, .v 5, .v 1, .zero, .imm 4, .always, .grp, .rlx, 2, 0, 0⟩) ∧
    decodeTableWord 64 0xA44FF010203703C0 = some (.sta ⟨4, .zero, .v 1, .v 2, .op (.v 3), .always, .grp, .rlx, 15, 0, 0⟩) ∧
    decodeTableWord 64 0xA4CFF010203703C0 = some (.staNb ⟨12, .zero, .v 1, .v 2, .op (.v 3), .always, .grp, .rlx, 15, 0, 0⟩) ∧
    decodeTableWord 64 0xA54010203FF70040 = some (.ldc ⟨4, .v 1, .v 2, .v 3, .op .zero, .always, .grp, .rlx, 1, 0, 0⟩) ∧
    decodeTableWord 64 0xA65FF060A03703C0 = some (.stc ⟨5, .zero, .v 6, .v 10, .op (.v 3), .always, .grp, .rlx, 15, 0, 0⟩) ∧
    decodeTableWord 64 0xA710102FFFF703C0 = some (.pres ⟨1, .v 1, .v 2, .zero, .op .zero, .always, .grp, .rlx, 15, 0, 0⟩) ∧
    decodeTableWord 64 0xA8B070203FF70100 = some (.atoma ⟨11, .v 7, .v 2, .v 3, .op .zero, .always, .grp, .rlx, 4, 0, 0⟩) := by
  refine ⟨?_, ?_, ?_, ?_, ?_, ?_, ?_, ?_, ?_, ?_⟩ <;> rfl

/-- Words of global access and cache words: those that the chapters print, and others written out from R42 and the table of their entry. -/
theorem test_decodeGlobal :
    decodeTableWord 64 0xB04040206FF74440 = some (.ldg ⟨4, .v 4, .v 2, .v 6, .op .zero, .always, .dev, .acq, 1, 0, 0⟩) ∧
    decodeTableWord 64 0xB040402FF04F0010 = some (.ldg ⟨4, .v 4, .v 2, .zero, .imm 4, .always, .grp, .rlx, 0, 1, 0⟩) ∧
    decodeTableWord 64 0xB14FF020508F4BC0 = some (.stg ⟨4, .zero, .v 2, .v 5, .imm 8, .always, .dev, .rel, 15, 0, 0⟩) ∧
    decodeTableWord 64 0xB240102FFFF74440 = some (.fetch ⟨4, .v 1, .v 2, .zero, .op .zero, .always, .dev, .acq, 1, 0, 0⟩) ∧
    decodeTableWord 64 0xB30020205FF74BC0 = some (.atom ⟨0, .v 2, .v 2, .v 5, .op .zero, .always, .dev, .rel, 15, 0, 0⟩) ∧
    decodeTableWord 64 0xB4BFF8808FF703C0 = some (.red ⟨11, .zero, .k 8, .v 8, .op .zero, .always, .grp, .rlx, 15, 0, 0⟩) ∧
    decodeTableWord 64 0xB50FFFFFFFF74BC0 = some (.fence ⟨0, .zero, .zero, .zero, .op .zero, .always, .dev, .rel, 15, 0, 0⟩) ∧
    decodeTableWord 64 0xB61FF84FFFF71FC0 = some (.bar ⟨1, .zero, .k 4, .zero, .op .zero, .always, .team, .ar, 15, 0, 0⟩) ∧
    decodeTableWord 64 0xB60FF99FFFF71FC0 = some (.bar ⟨0, .zero, .k 25, .zero, .op .zero, .always, .team, .ar, 15, 0, 0⟩) ∧
    decodeTableWord 64 0xB71FF84FFFF72FC0 = some (.cbar ⟨1, .zero, .k 4, .zero, .op .zero, .always, .clus, .ar, 15, 0, 0⟩) ∧
    decodeTableWord 64 0xB80FF0401FF703C0 = some (.cprefL1 ⟨0, .zero, .v 4, .v 1, .op .zero, .always, .grp, .rlx, 15, 0, 0⟩) ∧
    decodeTableWord 64 0xB81FF04FF40F03C8 = some (.cprefL2 ⟨1, .zero, .v 4, .zero, .imm 64, .always, .grp, .rlx, 15, 0, 2⟩) ∧
    decodeTableWord 64 0xB82FF04FF08F03C0 = some (.cprefEx ⟨2, .zero, .v 4, .zero, .imm 8, .always, .grp, .rlx, 15, 0, 0⟩) ∧
    decodeTableWord 64 0xB90FF0401FF703C0 = some (.cinvLine ⟨0, .zero, .v 4, .v 1, .op .zero, .always, .grp, .rlx, 15, 0, 0⟩) ∧
    decodeTableWord 64 0xB91FFFFFFFF703C0 = some (.cinvAll ⟨1, .zero, .zero, .zero, .op .zero, .always, .grp, .rlx, 15, 0, 0⟩) ∧
    decodeTableWord 64 0xBA0FF0401FF703C0 = some (.cflushLine ⟨0, .zero, .v 4, .v 1, .op .zero, .always, .grp, .rlx, 15, 0, 0⟩) ∧
    decodeTableWord 64 0xBA1FFFFFFFF703C0 = some (.cflushDie ⟨1, .zero, .zero, .zero, .op .zero, .always, .grp, .rlx, 15, 0, 0⟩) ∧
    decodeTableWord 64 0xBB0FFFFFF20F03C0 = some (.lset ⟨0, .zero, .zero, .zero, .imm 32, .always, .grp, .rlx, 15, 0, 0⟩) := by
  refine ⟨?_, ?_, ?_, ?_, ?_, ?_, ?_, ?_, ?_, ?_, ?_, ?_, ?_, ?_, ?_, ?_, ?_, ?_⟩ <;> rfl

/-- Words of Courier words: those that the chapters print, and others written out from R42 and the table of their entry. -/
theorem test_decodeCourier :
    decodeTableWord 64 0xC00080204FF70F00 = some (.cpyMm ⟨0, .v 8, .v 2, .v 4, .op .zero, .always, 0, 15, false, 0⟩) ∧
    decodeTableWord 64 0xC01080204FF71200 = some (.cpyIn ⟨1, .v 8, .v 2, .v 4, .op .zero, .always, 1, 2, false, 0⟩) ∧
    decodeTableWord 64 0xC020A0607FF73F00 = some (.cpyOut ⟨2, .v 10, .v 6, .v 7, .op .zero, .always, 3, 15, false, 0⟩) ∧
    decodeTableWord 64 0xC110802030472390 = some (.cpytIn ⟨1, .v 8, .v 2, .v 3, .op (.v 4), .always, 2, 3, true, 1⟩) ∧
    decodeTableWord 64 0xC12080203FF72F00 = some (.cpytOut ⟨2, .v 8, .v 2, .v 3, .op .zero, .always, 2, 15, false, 0⟩) ∧
    decodeTableWord 64 0xC21080204FF71300 = some (.cpygIn ⟨1, .v 8, .v 2, .v 4, .op .zero, .always, 1, 3, false, 0⟩) ∧
    decodeTableWord 64 0xC32080204FF73F00 = some (.cpysOut ⟨2, .v 8, .v 2, .v 4, .op .zero, .always, 3, 15, false, 0⟩) ∧
    decodeTableWord 64 0xC40080203FF70F00 = some (.cpyfMm ⟨0, .v 8, .v 2, .v 3, .op .zero, .always, 0, 15, false, 0⟩) ∧
    decodeTableWord 64 0xC410002030471100 = some (.cpyfIn ⟨1, .v 0, .v 2, .v 3, .op (.v 4), .always, 1, 1, false, 0⟩) ∧
    decodeTableWord 64 0xC50080204FF70F00 = some (.cpypMm ⟨0, .v 8, .v 2, .v 4, .op .zero, .always, 0, 15, false, 0⟩) ∧
    decodeTableWord 64 0xC51080204FF71100 = some (.cpypIn ⟨1, .v 8, .v 2, .v 4, .op .zero, .always, 1, 1, false, 0⟩) ∧
    decodeTableWord 64 0xC52080204FF72F00 = some (.cpypOut ⟨2, .v 8, .v 2, .v 4, .op .zero, .always, 2, 15, false, 0⟩) ∧
    decodeTableWord 64 0xC610002030474100 = some (.cpyspIn ⟨1, .v 0, .v 2, .v 3, .op (.v 4), .always, 4, 1, false, 0⟩) ∧
    decodeTableWord 64 0xC620002030474F00 = some (.cpyspOut ⟨2, .v 0, .v 2, .v 3, .op (.v 4), .always, 4, 15, false, 0⟩) ∧
    decodeTableWord 64 0xC630002030474F00 = some (.cpyspOutc ⟨3, .v 0, .v 2, .v 3, .op (.v 4), .always, 4, 15, false, 0⟩) := by
  refine ⟨?_, ?_, ?_, ?_, ?_, ?_, ?_, ?_, ?_, ?_, ?_, ?_, ?_, ?_, ?_⟩ <;> rfl

/-- Words of fabric, multicast and combining words: those that the chapters print, and others written out from R42 and the table of their entry. -/
theorem test_decodeFabric :
    decodeTableWord 64 0xD04010206FF753C0 = some (.rld ⟨4, .v 1, .v 2, .v 6, .op .zero, .always, .dom, .rlx, 15, 0, 0⟩) ∧
    decodeTableWord 64 0xD14FF020608F53C0 = some (.rst ⟨4, .zero, .v 2, .v 6, .imm 8, .always, .dom, .rlx, 15, 0, 0⟩) ∧
    decodeTableWord 64 0xD2901020607753C0 = some (.ratom ⟨9, .v 1, .v 2, .v 6, .op (.v 7), .always, .dom, .rlx, 15, 0, 0⟩) ∧
    decodeTableWord 64 0xD300002040875BC0 = some (.rput ⟨0, .v 0, .v 2, .v 4, .op (.v 8), .always, .dom, .rel, 15, 0, 0⟩) ∧
    decodeTableWord 64 0xD4000020408753C0 = some (.rget ⟨0, .v 0, .v 2, .v 4, .op (.v 8), .always, .dom, .rlx, 15, 0, 0⟩) ∧
    decodeTableWord 64 0xD54FF0309FF703C0 = some (.spw ⟨4, .zero, .v 3, .v 9, .op .zero, .always, .grp, .rlx, 15, 0, 0⟩) ∧
    decodeTableWord 64 0xD640208050675BC0 = some (.mcst ⟨4, .v 2, .v 8, .v 5, .op (.v 6), .always, .dom, .rel, 15, 0, 0⟩) ∧
    decodeTableWord 64 0xD64FF0C0E9605BC0 = some (.mcst ⟨4, .zero, .v 12, .v 14, .op (.k 22), .pred 0 false, .dom, .rel, 15, 0, 0⟩) ∧
    decodeTableWord 64 0xD700008020475BC0 = some (.mcput ⟨0, .v 0, .v 8, .v 2, .op (.v 4), .always, .dom, .rel, 15, 0, 0⟩) ∧
    decodeTableWord 64 0xD700004828475BC0 = some (.mcput ⟨0, .v 0, .v 4, .k 2, .op (.k 4), .always, .dom, .rel, 15, 0, 0⟩) ∧
    decodeTableWord 64 0xD8001028AFF753C0 = some (.cfaa ⟨0, .v 1, .v 2, .k 10, .op .zero, .always, .dom, .rlx, 15, 0, 0⟩) ∧
    decodeTableWord 64 0xD8000900CFF15BC0 = some (.cfaa ⟨0, .v 0, .k 16, .v 12, .op .zero, .pred 1 false, .dom, .rel, 15, 0, 0⟩) ∧
    decodeTableWord 64 0xD9CFF0204FF75BC0 = some (.cfaan ⟨12, .zero, .v 2, .v 4, .op .zero, .always, .dom, .rel, 15, 0, 0⟩) := by
  refine ⟨?_, ?_, ?_, ?_, ?_, ?_, ?_, ?_, ?_, ?_, ?_, ?_, ?_⟩ <;> rfl

/-- Words of system words: those that the chapters print, and others written out from R42 and the table of their entry. -/
theorem test_decodeSystem :
    decodeTableWord 64 0xE00FF02FFFF70208 = some (.trap ⟨0, .zero, .v 2, .zero, .op .zero, .always, 65⟩) ∧
    decodeTableWord 64 0xE100301FFFF70000 = some (.resume ⟨0, .v 3, .v 1, .zero, .op .zero, .always, 0⟩) ∧
    decodeTableWord 64 0xE110301FFFF70000 = some (.resumePast ⟨1, .v 3, .v 1, .zero, .op .zero, .always, 0⟩) ∧
    decodeTableWord 64 0xE200301FFFF70000 = some (.abort ⟨0, .v 3, .v 1, .zero, .op .zero, .always, 0⟩) ∧
    decodeTableWord 64 0xE21FFFFFFFF70000 = some (.abortRegion ⟨1, .zero, .zero, .zero, .op .zero, .always, 0⟩) ∧
    decodeTableWord 64 0xE3104FFFFFF70880 = some (.srrd ⟨1, .v 4, .zero, .zero, .op .zero, .always, 272⟩) ∧
    decodeTableWord 64 0xE40FF02FFFF70980 = some (.srwr ⟨0, .zero, .v 2, .zero, .op .zero, .always, 304⟩) ∧
    decodeTableWord 64 0xE500401FFFF70018 = some (.fltrdWord ⟨0, .v 4, .v 1, .zero, .op .zero, .always, 3⟩) ∧
    decodeTableWord 64 0xE5104FFFFFF70000 = some (.fltrdNext ⟨1, .v 4, .zero, .zero, .op .zero, .always, 0⟩) ∧
    decodeTableWord 64 0xE60FFFFFFFF70028 = some (.bkpt ⟨0, .zero, .zero, .zero, .op .zero, .always, 5⟩) ∧
    decodeTableWord 64 0xE70FFFFFFFF70000 = some (.halt ⟨0, .zero, .zero, .zero, .op .zero, .always, 0⟩) ∧
    decodeTableWord 64 0xE800002040670008 = some (.sigchk ⟨0, .v 0, .v 2, .v 4, .op (.v 6), .always, 1⟩) ∧
    decodeTableWord 64 0xE900002FFFF70020 = some (.keyset ⟨0, .v 0, .v 2, .zero, .op .zero, .always, 4⟩) ∧
    decodeTableWord 64 0xEA0020104FF70000 = some (.preemptSave ⟨0, .v 2, .v 1, .v 4, .op .zero, .always, 0⟩) ∧
    decodeTableWord 64 0xEA1020104FF70000 = some (.preemptRestore ⟨1, .v 2, .v 1, .v 4, .op .zero, .always, 0⟩) := by
  refine ⟨?_, ?_, ?_, ?_, ?_, ?_, ?_, ?_, ?_, ?_, ?_, ?_, ?_, ?_, ?_⟩ <;> rfl

/-- Words of token, colour, pigeonhole and steward words: those that the chapters print, and others written out from R42 and the table of their entry. -/
theorem test_decodeSteering :
    decodeTableWord 64 0x0200011A40076984 = some (.send ⟨0, 1, 0, .sp .tag, .v 0, .always, .sp .colour, 0, .dev⟩) ∧
    decodeTableWord 64 0x0200011A4001698C = some (.send ⟨0, 1, 0, .sp .tag, .v 0, .pred 1 false, .sp .colour, 1, .dev⟩) ∧
    decodeTableWord 64 0x020001228280E984 = some (.send ⟨0, 1, 1, .v 20, .v 20, .pred 0 true, .sp .colour, 0, .dev⟩) ∧
    decodeTableWord 64 0x030005406107699A = some (.sendv ⟨0, 5, 2, .v 3, .v 8, .always, .sp .colour, 3, .clus⟩) ∧
    decodeTableWord 64 0x0400031A40876989 = some (.sendf ⟨0, 3, 0, .sp .tag, .v 4, .always, .sp .colour, 1, .team⟩) ∧
    decodeTableWord 64 0x0500000000030000 = some (.exit ⟨0, 0, 0, .v 0, .v 0, .pred 3 false, .v 0, 0, .grp⟩) ∧
    decodeTableWord 64 0x0600071A40070004 = some (.eos ⟨0, 7, 0, .sp .tag, .v 0, .always, .v 0, 0, .dev⟩) ∧
    decodeTableWord 64 0x07004FFFF08F0000 = some (.colalloc ⟨0, .v 4, .zero, .zero, .imm 8, .always, .b32, 0, 0⟩) ∧
    decodeTableWord 64 0x080FF03FFFF70000 = some (.colfree ⟨0, .zero, .v 3, .zero, .op .zero, .always, .b32, 0, 0⟩) ∧
    decodeTableWord 64 0x0900401FF02F0000 = some (.packc ⟨0, .v 4, .v 1, .zero, .imm 2, .always, .b32, 0, 0⟩) ∧
    decodeTableWord 64 0x0A0040102FF70000 = some (.unpackc ⟨0, .v 4, .v 1, .v 2, .op .zero, .always, .b32, 0, 0⟩) ∧
    decodeTableWord 64 0x0B0FFDCFF32F0000 = some (.bintimTimer ⟨0, .zero, .sp .slot, .zero, .imm 50, .always, .b32, 0, 0⟩) ∧
    decodeTableWord 64 0x0B1FF0102FF70000 = some (.bintimPrio ⟨1, .zero, .v 1, .v 2, .op .zero, .always, .b32, 0, 0⟩) ∧
    decodeTableWord 64 0x0C0060102FF70000 = some (.ldblk ⟨0, .v 6, .v 1, .v 2, .op .zero, .always, .b32, 0, 0⟩) ∧
    decodeTableWord 64 0x0D0FF0203FF70000 = some (.cfgw ⟨0, .zero, .v 2, .v 3, .op .zero, .always, 0⟩) ∧
    decodeTableWord 64 0x0D0FF0209FF70000 = some (.cfgw ⟨0, .zero, .v 2, .v 9, .op .zero, .always, 0⟩) ∧
    decodeTableWord 64 0x0E005FFFF08F0000 = some (.qwait ⟨0, .v 5, .zero, .zero, .imm 8, .always, .b32, 0, 0⟩) := by
  refine ⟨?_, ?_, ?_, ?_, ?_, ?_, ?_, ?_, ?_, ?_, ?_, ?_, ?_, ?_, ?_, ?_, ?_⟩ <;> rfl

/-! ## Single steps, with the results that the chapters print -/

/-- Core 0 about to issue the word w in lane 0 alone, with the given registers of that lane. -/
def bench (regs : List (Nat × Nat)) (w : Nat) : State :=
  let s := State.reset.withFetchWord 64 w
  s.modCore 0 fun c =>
    let g := placeGroup Core.empty
    c.setGroup 0 { g with em := 1, emFire := 1, sr := [], regs := regs.map fun r => (r.1 * 32, w32 r.2) }

/-- Register r of lane 0 after one step. -/
def after (r : Nat) (s : State) : Option Nat :=
  match step s with
  | .next t => ((t.core 0).group? 0).map fun g => (g.reg r 0).toNat
  | _ => none

/-- R169: MOVI.BY1 v1, v1, #0x56 on 0x78; R180: CVTI.SAT.S8.N16 of the byte 0xFF clamps to 0; R167: ADD.SAT.S32 v3, v1, #-5 stops at
the lowest integer; R174: SHR.B32 by 32 gives 0 and SAR of a negative value by 40 gives all ones. -/
theorem test_stepInteger :
    after 1 (bench [(1, 0x78)] 0x1250101FF56F0000) = some 0x5678 ∧ after 2 (bench [(1, 0xFF), (2, 7)] 0x3100201FFFF77500) = some 0 ∧
    after 3 (bench [(1, 0x80000002)] 0x1300301FFFBF0900) = some 0x80000000 ∧
    after 3 (bench [(1, 0xFFFFFFFF), (2, 32)] 0x200030102FF70000) = some 0 ∧
    after 3 (bench [(1, 0x80000000), (2, 40)] 0x210030102FF70000) = some 0xFFFFFFFF := by
  refine ⟨?_, ?_, ?_, ?_, ?_⟩ <;> rfl

/-- R172: −7 divided by 2 is −3 with remainder −1, lo(T) by −1 wraps or saturates, and the corner of a zero divisor. -/
theorem test_divRem :
    divRem 32 true false (-7) 2 = (-3, -1) ∧ divRem 32 true false (-2147483648) (-1) = (-2147483648, 0) ∧
    divRem 32 true true (-2147483648) (-1) = (2147483647, 0) ∧ divRem 32 true false 9 0 = (-1, 9) ∧ divRem 32 false true 9 0 = (4294967295, 9) := by
  refine ⟨?_, ?_, ?_, ?_, ?_⟩ <;> decide

/-- R206: FRND.RD.F32 of −2.5 gives −3.0 and FRND.F32 of 2.5 gives 2.0; R202: 1 / 0 is ∞; 2 × 3 + 1 = 7. -/
theorem test_stepFloat :
    after 1 (bench [(2, 0xC0200000)] 0x5A00102FFFF72B00) = some 0xC0400000 ∧ after 1 (bench [(2, 0x40200000)] 0x5A00102FFFF72800) = some 0x40000000 ∧
    after 1 (bench [(2, 0x3F800000), (3, 0)] 0x5C0010203FF72800) = some 0x7F800000 ∧
    after 3 (bench [(1, 0x40000000), (2, 0x40400000), (4, 0x3F800000)] 0x5300301020472800) = some 0x40E00000 := by
  refine ⟨?_, ?_, ?_, ?_⟩ <;> rfl

/-- R240: RNCV of −1 has the residues 1022, 1023 and 1024; RNCRT of it gives −1 back, and of a tainted word the sentinel. -/
theorem test_stepResidue :
    after 1 (bench [(2, 0xFFFFFFFF)] 0x8800102FFFF76800) = some (1022 + 1023 * 2 ^ 10 + 1024 * 2 ^ 20) ∧
    after 1 (bench [(2, 1022 + 1023 * 2 ^ 10 + 1024 * 2 ^ 20)] 0x8900102FFFF76800) = some 0xFFFFFFFF ∧
    after 1 (bench [(2, 2 ^ 31 + 5)] 0x8900102FFFF76800) = some 0x80000000 := by
  refine ⟨?_, ?_, ?_⟩ <;> rfl

/-- R176, R177, R178: a field of 8 bits at 4, sign-extended; CLZ of zero is 32; CMP.LT of −1 and 0 holds. -/
theorem test_stepBits :
    after 1 (bench [(2, 0xF80), (3, 4)] 0x28001020308F0800) = some 0xFFFFFFF8 ∧ after 1 (bench [] 0x2B00102FFFF70000) = some 32 ∧
    after 1 (bench [(4, 0xFFFFFFFF)] 0x2F2010405FF70800) = some 1 := by
  refine ⟨?_, ?_, ?_⟩ <;> rfl

/-! ## States that meet the hypotheses of the statements -/

/-- A group of one instance in lane 0, in block slot 0. -/
def wGroup : Group := { placeGroup Core.empty with em := 1, emFire := 1, sr := [], insts := [0], tags := [7] }

/-- Core 0 with that group in group slot 0. -/
def wCore : Core := { Core.empty with groups := [(0, wGroup)] }

/-- A state whose core 0 is c. -/
def lab (c : Core) : State := { State.reset with cores := [(0, c)] }

/-- A core whose block slot 0 binds a block with PRIV and GANG. -/
def wPriv : Core := wCore.setSlot 0 { BlockSlot.unbound with bid := 0, resident := true, hdr := placeHeader }

/-- Core 0 with a resident block of one word. -/
def wBody (w : DWord) : Core :=
  wCore.setSlot 0 { BlockSlot.unbound with bid := 0, resident := true, hdr := [0, w64 (2 ^ 48), 0, 0], body := [w] }

/-- An F0 word of integer type, and F1, F3, F4 and F6 words, all on v registers. -/
def wF0 : F0 := ⟨0, .v 1, .v 2, .v 3, .op (.v 4), .always, .s32, 0, 0⟩
def wF1 : F1 := ⟨4, .v 1, .v 2, .v 4, .op (.v 6), .always, .grp, .rlx, 1, 0, 0⟩
def wF2 : F2 := ⟨0, 1, 0, .sp .tag, .v 0, .always, .sp .colour, 0, .dev⟩
def wF3 : F3 := ⟨0, .v 2, .v 3, .v 4, .v 8, .always, 0, 0, false, 1⟩
def wF4 : F4 := ⟨0, .v 8, .v 2, .v 4, .op .zero, .always, 0, 15, false, 0⟩
def wF6 : F6 := ⟨0, .v 4, .v 1, .v 2, .op .zero, .always, 0⟩

/-- IntegerArithmeticAndShifts, MovesSelectionAndPredicates, FloatWordsWriteRoundedResults,
PackedAndSpecialFunctionWords, ConversionsAdvanceGeneratorsUnderSR, ResidueWords: a group stands in the issuing slot. -/
theorem witness_laneWords : Issuing (lab wCore) wGroup := rfl

/-- BitwiseFieldAndCountWords: the pattern zero, the lowest and the highest pattern of 32 bits. -/
theorem witness_BitwiseFieldAndCountWords : Issuing (lab wCore) wGroup ∧ (0 < 32 ∧ 0 < 2 ^ 32 ∧ (0 : Nat) = 0) ∧
    (0 < 32 ∧ 1 < 2 ^ 32 ∧ (1 : Nat) ≠ 0) ∧ (2 ^ 32 - 1 < 2 ^ 32 ∧ 2 ^ 32 - 1 ≠ 0 ∧ 31 < 32) := ⟨rfl, by decide⟩

/-- DivisionWords: divisors −1 and 0, a divide unit with four words and with five. -/
theorem witness_DivisionWords :
    ((-1 : Int) ≠ 0 ∧ 0 < 1) ∧
    (Issuing (lab { wCore with divq := [0, 1, 2, 3] }) wGroup ∧ ((lab { wCore with divq := [0, 1, 2, 3] }).core 0).divq.length < 5 ∧
      wGroup.flagFull (flagOf 0) = false) ∧
    (Issuing (lab { wCore with divq := [0, 1, 2, 3, 4] }) wGroup ∧ 5 ≤ ((lab { wCore with divq := [0, 1, 2, 3, 4] }).core 0).divq.length) := by
  refine ⟨by decide, ⟨rfl, ?_, ?_⟩, rfl, ?_⟩ <;> decide

/-- LaneWordsReadTheirSegment: VOTE in each of its three variants. -/
theorem witness_LaneWordsReadTheirSegment : Issuing (lab wCore) wGroup ∧ ({ wF0 with fn := 0 } : F0).fn = 0 ∧
    ({ wF0 with fn := 1 } : F0).fn = 1 ∧ ({ wF0 with fn := 2 } : F0).fn = 2 := ⟨rfl, rfl, rfl, rfl⟩

/-- The group under a guard that no lane passes. -/
def wNone : Guard := .pred 0 false

/-- MatchAndExecutionMaskWords: a lowest active lane, and none. -/
theorem witness_MatchAndExecutionMaskWords : Issuing (lab wCore) wGroup ∧ leader? (wGroup.active wF0.g) = some 0 ∧
    wGroup.active wNone = 0 := by refine ⟨rfl, ?_, ?_⟩ <;> decide

/-- StatusAndActivationTableWords: a leader and none; a table image that ends with W, one byte beyond it, and one that is not aligned. -/
theorem witness_StatusAndActivationTableWords :
    let c : Core := { wCore with cfg := { CoreCfg.none with part := 0x10 } }
    Issuing (lab c) wGroup ∧ leader? (wGroup.active wF0.g) = some 0 ∧ wGroup.active wNone = 0 ∧ wGroup.flagFull (flagOf 0) = false ∧
    (61408 + 4128 ≤ c.partSize .w ∧ 61408 % 16 = 0 ∧ wGroup.tbind.atD 3 0 ≠ 1 - c.tcur.atD 3 0) ∧
    (c.partSize .w < 61409 + 4128) ∧ (61407 + 4128 ≤ c.partSize .w ∧ 61407 % 16 ≠ 0) := by
  refine ⟨rfl, ?_⟩; decide

/-- NarrowQuantizeAndSparseWords, runs: a destination run that is no predicate, and none at all. -/
theorem witness_NarrowRuns : Issuing (lab wCore) wGroup ∧ (∀ q, ({ wF0 with d := .v 120, t := .e2m1 } : F0).d ≠ .p q) ∧
    (∀ q, ({ wF0 with d := .zero } : F0).d ≠ .p q) := ⟨rfl, by decide, by decide⟩

/-- NarrowQuantizeAndSparseWords: a destination that is no predicate; 64 magnitudes of which 0, 32 and 64 are kept. -/
theorem witness_NarrowQuantizeAndSparseWords : (Issuing (lab wCore) wGroup ∧ ∀ p, wF0.d ≠ .p p) ∧
    ((List.range 64).length = 64 ∧ 0 ≤ 64 ∧ 64 ≤ 64 ∧ (32 ∈ keptOf (List.range 64) 32) ∧ 31 ∉ keptOf (List.range 64) 32) := by
  refine ⟨⟨rfl, by decide⟩, ?_⟩; decide +kernel

/-- MatrixWordsEnterTheQueue: a word that is not ganged and one that is, in blocks with and without GANG, and one with no active lane; an
operation that passes R251 and one that does not; room in the queue, none, and a latched operation on the same tile; an idle latch. -/
theorem witness_MatrixWordsEnterTheQueue :
    let op := MatOp.plain 0 0 .accz 0 0
    let c : Core := { wCore with cfg := { CoreCfg.none with part := 0x1000 } }
    Issuing (lab c) wGroup ∧ leader? (wGroup.active wF3.g) = some 0 ∧ wGroup.flagFull (flagOf wF3.flag.toNat) = false ∧
    wF3.gangb = false ∧ ({ wF3 with gangb := true } : F3).gangb = true ∧ hdrGang (((lab c).core 0).slotHdr wGroup) = false ∧
    (matCheck c 0 wGroup op false = none ∧ c.matEntries < 8) ∧ (matCheck wCore 0 wGroup op false).isSome = true ∧
    (matCheck { c with matq := List.replicate 8 op } 0 wGroup op false = none ∧ 8 ≤ ({ c with matq := List.replicate 8 op } : Core).matEntries) ∧
    (c.latchMeets op = false ∧ ({ c with gang := some ⟨[op], 0, false⟩ } : Core).latchMeets op = true) ∧ wGroup.active wNone = 0 ∧
    hdrGang (((lab wPriv).core 0).slotHdr wGroup) = true ∧ c.gang = none ∧ ((c.gangArrive 0 2 op).isSome = true) ∧ Issuing (lab wPriv) wGroup := by
  refine ⟨rfl, ?_, ?_, ?_, ?_, ?_, ?_, ?_, ?_, ?_, ?_, ?_, ?_, ?_, rfl⟩ <;> decide +kernel

/-- FormatLatchAndGangWords: blocks with and without GANG, a lowest active lane and none, and counts 1, 2, 6 and 7. -/
theorem witness_FormatLatchAndGangWords : Issuing (lab wPriv) wGroup ∧ hdrGang (((lab wPriv).core 0).slotHdr wGroup) = true ∧
    hdrGang (((lab wCore).core 0).slotHdr wGroup) = false ∧ leader? (wGroup.active wF3.g) = some 0 ∧ wGroup.active wNone = 0 ∧
    (1 = 1 ∨ 6 < 1) ∧ (7 = 1 ∨ 6 < 7) ∧ ¬ (2 = 1 ∨ 6 < 2) ∧ ¬ (6 = 1 ∨ 6 < 6) := by
  refine ⟨rfl, ?_⟩; decide +kernel

/-- A core with all four partitions of 64 KiB, and a group with one instance whose frame starts at 0. -/
def wLocal : Core :=
  { wCore with
    cfg := { CoreCfg.none with part := 0x1111, slots := [(0, { BlockSlot.unbound with bid := 0, resident := true, hdr := [0, w64 (2 * 2 ^ 48), 0, 0] })] }
    entries := [(0, ⟨0, 0, 7, 0, [], 0, 0, 1, .inGroup 0, 0, 0⟩)] }

/-- The core with a second group, fired before, that has written line 0 of its frame memory. -/
def wLocked : Core :=
  { wLocal with groups := [(0, { wGroup with stamp := 1 }), (1, { wGroup with undo := [⟨.frame, 0, []⟩] })] }

/-- FrameLoadsAndLocalStores: offsets inside the frame and the buffers, and one beyond them; a line that a copy keeps absent; a turn that
has come, and one that waits for an older group; a store buffer with room and one with none. -/
theorem witness_FrameLoadsAndLocalStores :
    let s := lab wLocal
    let chk (b : Buf) (o : Nat) := localCheck wLocal wGroup b 1 (fun _ => o) 4 4
    Issuing s wGroup ∧ chk .frame 124 = none ∧ (chk .frame 125).isSome = true ∧ (chk .frame 128).isSome = true ∧ chk .a 65532 = none ∧
    (chk .a 65536).isSome = true ∧ chk .c 65532 = none ∧ (chk .c 65534).isSome = true ∧ (s.claim 0 0 .frame [0]).isSome = true ∧
    (wLocal.presentFor 1 .a 0 = true ∧ ({ wLocal with absent := [(.a, 0, 0)] } : Core).presentFor 1 .a 0 = false) ∧
    (s.reach 0 0 wLocal.nextNum .frame [0] true).1 = true ∧ ((lab wLocked).reach 0 0 wLocal.nextNum .frame [0] true).1 = false ∧
    (wLocal.takeImages wGroup .frame [0]).sbOver = false ∧ (wLocal.takeImages wGroup .a (List.range 257)).sbOver = true := by
  refine ⟨rfl, ?_⟩; decide +kernel

/-- BufferLoadsAndAtomaStart: the last word of W, A and C, and an offset beyond each. -/
theorem witness_BufferLoadsAndAtomaStart :
    let chk (b : Buf) (o : Nat) := localCheck wLocal wGroup b 1 (fun _ => o) 4 4
    Issuing (lab wLocal) wGroup ∧ wGroup.flagFull (flagOf wF1.flag.toNat) = false ∧ chk .w 65532 = none ∧ chk .a 65532 = none ∧
    chk .c 65532 = none ∧ (chk .w 65536).isSome = true ∧ (chk .a 65536).isSome = true ∧ (chk .c 65536).isSome = true := by
  refine ⟨rfl, ?_⟩; decide +kernel

/-- NeighbourStoresAndPresence: the one tile of a cluster of one, offset 65,532 of its A; a position beyond the cluster. -/
theorem witness_NeighbourStoresAndPresence :
    Issuing (lab wLocal) wGroup ∧ (65532 / 2 ^ 24 < wLocal.clusSize ∧ 65532 % 2 ^ 24 + 4 ≤ ((lab wLocal).core (clusTile wLocal 0 0)).partSize .a ∧
      65532 % 2 ^ 24 % 4 = 0) ∧ wLocal.clusSize ≤ 2 ^ 24 / 2 ^ 24 % 256 ∧ wGroup.sbOver = false := by
  refine ⟨rfl, ?_⟩; decide +kernel

/-- A core whose L1 TLB maps page 0 of ASID 0 to physical page 0x10000, writable. -/
def wMapped : Core := { wCore with l1tlb := [⟨0, 0, 4096, 0x10007⟩] }

/-- A group whose v4 holds 4096, v8 1,048,576 and v12 65,536. -/
def wBulk : Group := { wGroup with regs := [(128, 4096), (256, 1048576), (384, 65536)] }

/-- Page 0 through a peer leaf, with a one-entry peer table at address 0 that names device 0 and address 0; page 1 in memory; and multicast
group 0, which may send up to 65,536 bytes into a window of 64 KiB. -/
def wPeer : State :=
  { lab { wCore with groups := [(0, wBulk)], l1tlb := [⟨0, 0, 4096, 0x17⟩, ⟨0, 4096, 4096, 0x10007⟩] } with
    mem := [(7, 0x80), (16, 1), (0x200007, 0xC0), (0x200008, 16), (0x20001E, 1)] }

/-- What a word with zero operands of the group reads. -/
def wCtx1 (f : F1) (s : State) : Ctx := ctx1 f s wGroup

/-- GlobalLoadsStart: with and without an acquire that waits; a lane that reaches memory at the last word of a page, and a lane that is
not aligned. -/
theorem witness_GlobalLoadsStart :
    let s := lab wMapped
    let f := { wF1 with a := .zero, b := .zero }
    let x := wCtx1 f s
    let w : Group := { wGroup with acqWait := true, ops := [{ LongOp.plain 0 none 0 (.load false false 0) with ready := false }] }
    Issuing s wGroup ∧ wGroup.flagFull (flagOf f.flag.toNat) = false ∧ wGroup.acqBlocked = false ∧ w.acqBlocked = true ∧
    (∃ s' ts, Reaches s x 1 false 4 (loadAddr x f) s' ts) ∧
    (∃ s' ts, Reaches s x 1 false 4 (bareAddr x f) s' ts ∧ classCheck ts (bareAddr x f) = none) ∧
    (firstCause .globalAccess 1 (fun _ => 2) [(1, fun _ => 2 % 4 != 0)]).isSome = true := by
  refine ⟨rfl, by decide, by decide, by decide, ⟨_, _, by decide +kernel, rfl⟩, ⟨_, _, ⟨by decide +kernel, rfl⟩, by decide +kernel⟩, by decide +kernel⟩

/-- StoresAndAtomicsWaitInTheBuffer: a lane that reaches a writable page; a word with and without a return exit; a buffer with room and
one that 257 lines overfill. -/
theorem witness_StoresAndAtomicsWaitInTheBuffer :
    let s := lab wMapped
    let f := { wF1 with a := .zero, b := .zero, c := .imm 8 }
    let x := wCtx1 f s
    let full : Group := { wGroup with sbuf := (List.range 257).map fun n => ⟨n, [], [], 0, 0, [], false, 0⟩ }
    Issuing s wGroup ∧ (∃ s' ts, Reaches s x 1 true 4 (storeAddr x f) s' ts) ∧
    (∃ s' ts, Reaches s x 1 true 4 (bareAddr x f) s' ts ∧ classCheck ts (bareAddr x f) = none) ∧
    exitOf .zero = none ∧ exitOf (.v 2) = some 2 ∧ wGroup.sbOver = false ∧ full.sbOver = true := by
  refine ⟨rfl, ⟨_, _, by decide +kernel, rfl⟩, ⟨_, _, ⟨by decide +kernel, rfl⟩, by decide +kernel⟩, rfl, rfl, by decide, by decide +kernel⟩

/-- FencesBarriersAndLeaseLength: a lowest active lane, and none. -/
theorem witness_FencesBarriersAndLeaseLength : Issuing (lab wCore) wGroup ∧ leader? (wGroup.active wF1.g) = some 0 ∧
    leader? (wGroup.active wNone) = none := by refine ⟨rfl, ?_, ?_⟩ <;> decide

/-- CacheControlWords: an active lane that translates and waits for no walk, in blocks with and without PRIV; no active lane. -/
theorem witness_CacheControlWords :
    let s := lab wMapped
    let f := { wF1 with a := .zero, b := .zero }
    let x := wCtx1 f s
    Issuing s wGroup ∧ wGroup.active f.g ≠ 0 ∧ x.c.priv wGroup = false ∧
    (∃ s' ts, s.xlLanes 0 0 x.c.cfg.asid { write := false, priv := x.c.priv wGroup, peer := false }
      ((maskLanes 1).map fun l => (l, loadAddr x f l)) = .ok s' ts) ∧
    (∀ l ∈ maskLanes 1, hintLane s (0, 0) x wGroup f l ≠ .miss) ∧ wGroup.active wNone = 0 ∧
    Issuing (lab wPriv) wGroup ∧ wPriv.priv wGroup = true := by
  refine ⟨rfl, by decide, by decide +kernel, ⟨_, _, rfl⟩, fun l h => ?_, by decide, rfl, by decide +kernel⟩
  rw [show maskLanes 1 = [0] by decide +kernel, List.mem_singleton] at h; subst h; intro e; cases e

/-- CacheControlWords, a lane whose page no TLB holds, with room in the miss queue. -/
theorem witness_HintThatWaits :
    let s : State := lab { wMapped with groups := [(0, wBulk)] }
    let f := { wF1 with a := .v 4, b := .zero, c := .imm 0 }
    Issuing s wBulk ∧ 0 ∈ maskLanes (wBulk.active f.g) ∧ hintLane s s.cur (ctx1 f s wBulk) wBulk f 0 = .miss ∧ (s.die 0).missq.length + 32 ≤ 1024 := by
  refine ⟨rfl, by decide +kernel, rfl, by decide⟩

/-- CourierWordsAreAccepted: no active lane; flags with room and at 63; a copy that passes its checks and translations, copies that fail each, and one that waits for a walk; immediate and deferred forms; a queue
of 31 and of 32 commands. -/
theorem witness_CourierWordsAreAccepted :
    let s := lab { wMapped with l1tlb := [⟨0, 0, 4096, 0x10007⟩, ⟨0, 4096, 4096, 0x17⟩], cfg := { CoreCfg.none with part := 0x1111 } }
    let c := s.core 0
    let x := ctx4 wF4 s wGroup
    let k : CopyCmd := { copyBase x 0 .inn .a 0 with dst := 0, src := 0, len := 256, off := 0 }
    let full : Group := { wGroup with flags := [(0, 63)] }
    (wGroup.active wNone = 0 ∧ wGroup.flagFull (some 0) = false ∧ full.flagFull (some 0) = true) ∧
    Issuing s wGroup ∧ leader? (wGroup.active wF4.g) = some 0 ∧ copyCheck s 0 c k = none ∧
    (copyCheck s 0 c { k with len := 65664 }).isSome = true ∧ (∃ s', copyXl s 0 0 k = .ok s') ∧
    (∃ e, copyXl s 0 0 { k with src := 4096, len := 256 } = .fault e) ∧ (∃ s', copyXl s 0 0 { k with src := 8192, len := 256 } = .wait s') ∧ CopyForm.inn.immediate = true ∧ CopyForm.out.immediate = false ∧
    (List.replicate 31 k).length < 32 ∧ 32 ≤ (List.replicate 32 k).length ∧ wGroup.flagFull (flagOf wF4.flag.toNat) = false := by
  refine ⟨by decide, rfl, by decide, by decide +kernel, by decide +kernel, ⟨_, rfl⟩, ⟨_, rfl⟩, ⟨_, rfl⟩, rfl, rfl, by decide, by decide, by decide⟩

/-- RemoteLaneWordsQueueRequests: a lane that reaches a peer, one whose page is no peer's, one that waits for a walk, and one that is not
aligned. -/
theorem witness_RemoteLaneWordsQueueRequests :
    let f := { wF1 with a := .zero, b := .zero, c := .imm 2 }
    let x := ctx1 f wPeer wBulk
    let at_ (va : Nat) : Places := wPeer.xlPlaces 0 (groupNum 0 0) x.c.cfg.asid [(0, va, { write := false, priv := x.c.priv x.g, peer := true })]
    Issuing wPeer wBulk ∧ (∀ l ∈ maskLanes 1, bareAddr x f l % 4 = 0) ∧ (∃ s' ts, at_ 0 = .ok s' ts) ∧ (∃ fs, at_ 4096 = .fail fs) ∧
    (∃ s', at_ 8192 = .wait s') ∧ (0 ∈ maskLanes 1 ∧ storeAddr x f 0 % 4 ≠ 0) := by
  refine ⟨rfl, by decide +kernel, ⟨_, _, rfl⟩, ⟨_, rfl⟩, ⟨_, rfl⟩, by decide +kernel⟩

/-- BulkSpanAndMulticastWords, RPUT and RGET: no active lane; a peer target and a local place, the largest length; a put block that notifies nobody. -/
theorem witness_BulkSpanAndMulticastWords :
    let f := { wF1 with a := .zero, b := .v 4, c := .op (.v 8) }
    let x := ctx1 f wPeer wBulk
    Issuing wPeer wBulk ∧ wBulk.active wNone = 0 ∧ leader? (wBulk.active f.g) = some 0 ∧ (x.rd64 f.a 0).toNat % 4 = 0 ∧ (x.rd64 f.b 0).toNat % 4 = 0 ∧
    x.count3 f.c 0 % 4 = 0 ∧ 0 < x.count3 f.c 0 ∧ x.count3 f.c 0 ≤ 1048576 ∧ notifyBad 0 = false ∧ 0 / 2 ^ 31 = 0 ∧
    (∃ s' ts, bulkXl wPeer x 0 (some (0, true)) (some (4096, false)) = .ok s' ts ∧ bulkLost s' 0 ts = none) ∧
    (∃ s' ts, bulkXl wPeer x 0 (some (0, false)) (some (4096, true)) = .ok s' ts ∧ bulkLost s' 0 ts = none) := by
  refine ⟨rfl, by decide, by decide, by decide +kernel, by decide +kernel, by decide +kernel, by decide +kernel, by decide +kernel, by decide +kernel,
    by decide, ⟨_, _, rfl, by decide +kernel⟩, ⟨_, _, rfl, by decide +kernel⟩⟩

/-- BulkSpanAndMulticastWords, SPW: a span that this core produces, and none. -/
theorem witness_SpanPush :
    let sp : Span := ⟨0, 0, 0, 1, 1, [], 8192, 0, 0, [], [], [], [], false⟩
    let region : Region := ⟨0, 0, 0, 0, [0, 1], false, 0, 0, 0, 0, [], 0, 1, [], [], none, false, none, none, none, []⟩
    let s := { lab { wCore with region := some 0 } with spans := [sp], dev := { Device.reset with regions := [region] } }
    Issuing s wGroup ∧ s.coreSpan 0 0 = some (0, sp) ∧ sp.producer = s.cur.1 ∧ (lab wCore).coreSpan 0 0 = none := by
  refine ⟨rfl, by decide +kernel, rfl, by decide +kernel⟩

/-- BulkSpanAndMulticastWords, MCST and MCPUT: the last word of the window, and a put of 65,536 bytes that fills it. -/
theorem witness_MulticastWords :
    let f := { wF1 with a := .v 16, b := .v 4, c := .op (.v 12) }
    let x := ctx1 f wPeer wBulk
    let e := wPeer.mcEntry 0
    groupBad wPeer (wPeer.core 0) 0 = false ∧ notifyBad 0 = false ∧
    (65532 % 4 = 0 ∧ 65532 + 4 ≤ 2 ^ e.wsz ∧ mcstLen 1 4 ≤ e.cap) ∧
    (0 % 4 = 0 ∧ x.count3 f.c 0 % 4 = 0 ∧ 0 < x.count3 f.c 0 ∧ x.count3 f.c 0 ≤ 65536 ∧ x.count3 f.c 0 ≤ e.cap ∧ 0 + x.count3 f.c 0 ≤ 2 ^ e.wsz) ∧
    ∃ s' ts, bulkXl wPeer x 0 none (some (4096, false)) = .ok s' ts ∧ bulkLost s' 0 ts = none := by
  refine ⟨by decide +kernel, by decide +kernel, by decide +kernel, by decide +kernel, _, _, rfl, by decide +kernel⟩

/-- ClauseNopAndExit: a header that waits for no flag and one that waits for flag 11, busy; a guard that no lane passes. -/
theorem witness_ClauseNopAndExit :
    let f : F5 := ⟨0x800, 0, false, 0, false, 1⟩
    Issuing (lab wCore) wGroup ∧ (∀ n, n < 12 → f.wait.getLsbD n = true → wGroup.flags.atD n 0 = 0) ∧
    (11 < 12 ∧ f.wait.getLsbD 11 = true ∧ ({ wGroup with flags := [(11, 1)] } : Group).flags.atD 11 0 ≠ 0) ∧
    ({ wF2 with g := wNone } : F2).g = wNone ∧ wGroup.active wNone = 0 ∧ wGroup.active wF2.g ≠ 0 := by
  refine ⟨rfl, ?_, ?_, rfl, ?_, ?_⟩ <;> decide

/-- An armed region of core 0 and core 1 with the given handler register. -/
def wRegion (flth : Word) : Region :=
  ⟨1, 0, 0, 0, [0, 1], false, 0, 0, 0, 0, [(0, ⟨true, 0, none⟩), (3, ⟨true, 2, none⟩)], flth, 1, [], [⟨1, 0x4000, [], [], 1, 0⟩], none, false, none, none, none, []⟩

/-- A state whose core 0 is c and belongs to that region. -/
def inRegion (r : Region) (c : Core) : State :=
  { lab { c with region := some 1 } with dev := { Device.reset with regions := [r] } }

/-- SendsQueueOneTokenPerInstance: a payload that is a whole number of runs, and one that is not in a group of width 2 of class any; a home
here and elsewhere; a frame that no token took, and one that a token took. -/
theorem witness_SendsQueueOneTokenPerInstance :
    let hdr : List DWord := [w64 (7 * 2 ^ 30), 0, 0, 0]
    let c := wCore.setSlot 0 { BlockSlot.unbound with bid := 0, resident := true, hdr := hdr }
    let g : Group := { wGroup with wlog := 1 }
    let s := inRegion (wRegion 0) wCore
    let x := ctx2 wF2 s wGroup
    Issuing (lab wCore) wGroup ∧ ¬ (hdrWcls (((lab wCore).core 0).slotHdr wGroup) = 7) ∧
    (hdrWcls ((c.slotHdr g)) = 7 ∧ (wF2.plen.toNat + 1) % g.width ≠ 0 ∧ g.active wF2.g ≠ 0) ∧
    (∀ il ∈ wGroup.leaders 1, homeHere x wF2 il.2 = true ∧ wGroup.handed (wGroup.entryOf il.1) = false) ∧
    (∀ il ∈ wGroup.leaders 1, homeHere (ctx2 wF2 (lab wCore) wGroup) { wF2 with dblk := 9 } il.2 = false) ∧
    (wGroup.leaders 1 = [(0, 0)] ∧ ({ wGroup with sendq := [.frameTok (f2Token x wF2 .normal 0 []) 0] } : Group).handed (wGroup.entryOf 0) = true) := by
  refine ⟨rfl, ?_, ?_, ?_, ?_, ?_⟩ <;> decide +kernel

/-- ColourWords: an empty reserve with an id free in the region and with none, and a reserve with exactly what one instance asks for; a live
colour. -/
theorem witness_ColourWords :
    let s := inRegion (wRegion 0) { wCore with reserve := [9] }
    Issuing s { wGroup with } ∧ ([(0, (some (0, none) : ColAsk))].length ≤ (s.core 0).reserve.length) ∧
    ((lab wCore).core 0).reserve.length < 1 ∧ (inRegion (wRegion 0) wCore).noFreeId 0 = false ∧ (lab wCore).noFreeId 0 = true ∧
    s.liveColour 0 0x2003 = some 3 := by
  refine ⟨rfl, ?_, ?_, ?_, ?_, ?_⟩ <;> decide +kernel

/-- PigeonholeAndStewardWords: a slot that LDBLK may take and one that it may not; a queue at the threshold and above it, before and at the
65,536th cycle; a steward core with PRIV and a tile without. -/
theorem witness_PigeonholeAndStewardWords :
    let s := inRegion (wRegion 0) { wPriv with inbox := [] }
    let st := { lab wCore with cur := (1024, 0), cores := [(1024, wPriv)] }
    let q : Core := { wCore with entries := List.replicate 5 (0, ⟨0, 0, 7, 0, [], 0, 0, 1, .complete, 0, 0⟩) }
    Issuing s wGroup ∧ wGroup.active wNone = 0 ∧ leader? (wGroup.active wF0.g) = some 0 ∧
    ldblkStatus s (s.core 0) 1 127 = 0 ∧ ldblkStatus s (s.core 0) 1 128 ≠ 0 ∧
    (q.occupancy 0 ≤ q.occupancy 0) ∧ (wCore.occupancy 0 ≤ 4) ∧
    (qwaitSince { lab wCore with arith := 65536 } { wGroup with status := .qwait 0 } + 65536 ≤ 65536) ∧
    (65535 < qwaitSince { lab wCore with arith := 65535 } { wGroup with status := .qwait 0 } + 65536) ∧
    (Issuing st wGroup ∧ wPriv.priv wGroup = true ∧ 1024 ≤ st.cur.1 ∧ wGroup.active wF6.g ≠ 0) ∧ wCore.priv wGroup = false := by
  refine ⟨rfl, ?_, ?_, ?_, ?_, ?_, ?_, ?_, ?_, ⟨rfl, ?_⟩, ?_⟩ <;> decide +kernel

/-- TrapsTakeBlockFaults: a leader and none, BKEN set and clear, a rejected word, one that lacks PRIV of its block, and an accepted one. -/
theorem witness_TrapsTakeBlockFaults :
    Issuing (lab wPriv) wGroup ∧ leader? (wGroup.active wF6.g) = some 0 ∧ leader? (wGroup.active wNone) = none ∧
    (inRegion (wRegion 0x40000000) wCore).bken 0 = true ∧ (inRegion (wRegion 0) wCore).bken 0 = false ∧
    decode 128 0x0F00000000000000 = .error .reservedOp ∧ decode 128 0x0100000000070000 = .ok .nop ∧
    lacksAttr (wCore.slotHdr wGroup) 0x0100000000070000 = false ∧
    (∃ i, decode 128 0xE70FFFFFFFF70000 = .ok i) ∧ lacksAttr (wCore.slotHdr wGroup) 0xE70FFFFFFFF70000 = true := by
  refine ⟨rfl, ?_, ?_, ?_, ?_, rfl, rfl, ?_, ⟨_, rfl⟩, ?_⟩ <;> decide +kernel

/-- A park entry of fault 5. -/
def wPark : ParkEnt := ⟨5, 1, 1, [0, 0, 0, 0, 0, 0, 0, 0], 0, 0, 0, 0, [0], [7], 1, 0, 0, 0, none, none, none, []⟩

/-- VerdictWordsClaimParkedFaults: a fault that is parked and one that is not. -/
theorem witness_VerdictWordsClaimParkedFaults :
    let c : Core := { wCore with region := some 1, park := [wPark] }
    Issuing (lab c) wGroup ∧ leader? (wGroup.active wF6.g) = some 0 ∧ verdictStatus c 0 5 false = 0 ∧ verdictStatus c 0 5 true = 0 ∧
    verdictStatus c 0 6 false ≠ 0 ∧ wGroup.active wF6.g ≠ 0 ∧ wGroup.active wNone = 0 := by
  refine ⟨rfl, ?_, ?_, ?_, ?_, ?_, ?_⟩ <;> decide +kernel

/-- SystemWords: no active lane; a register that needs PRIV in blocks with and without it, and one that does not. -/
theorem witness_SystemWords :
    Issuing (lab wPriv) wGroup ∧ wGroup.active wNone = 0 ∧ leader? (wGroup.active wF6.g) = some 0 ∧ (srNeedsPriv 0x131 = true ∧ wPriv.priv wGroup = true) ∧
    srNeedsPriv 0x130 = false ∧ ¬ (srNeedsPriv 0x131 = false ∨ wCore.priv wGroup = true) := by
  refine ⟨rfl, ?_, ?_, ?_, ?_, ?_⟩ <;> decide +kernel

/-- SystemWords, requests: blocks with and without PRIV. -/
theorem witness_SystemRequests :
    Issuing (lab wPriv) wGroup ∧ leader? (wGroup.active wF6.g) = some 0 ∧ ((lab wPriv).core 0).priv wGroup = true ∧
    Issuing (lab wCore) wGroup ∧ ((lab wCore).core 0).priv wGroup = false := by
  refine ⟨rfl, ?_, ?_, rfl, ?_⟩ <;> decide +kernel

/-! ### Events of cores -/

/-- A token for slot 0 of block 1 with tag 7 and colour 0, and the same with the end-of-stream mark. -/
def wToken : Token := ⟨.normal, 1, 0, 0, 0, .dev, 7, [5]⟩
def wIn (t : Token) : InTok := { tok := t, key := 0, inc := 0, tasid := 0, srcDev := 0, srcCore := 0, counted := true, grp := none, frame := none }

/-- Block 1 of arity 2, class 0 and one frame line, resident in slot 3 with timer 4. -/
def wSlot : BlockSlot :=
  { BlockSlot.unbound with bid := 1, timer := 4, resident := true, hdr := [w64 (2 * 2 ^ 37), w64 (8 * 2 ^ 56 + 2 * 2 ^ 48), 0, 0] }
def wHome : Core :=
  { Core.empty with cfg := { CoreCfg.none with part := 0x1111, prSize := 1, slots := [(3, wSlot)] }, region := some 1, inbox := [wIn wToken] }

/-- A partial and a complete instance of that block, and a record of the complete one. -/
def wEntry (ph : EntryPhase) : Machine.Entry := ⟨1, 0, 7, 1, [], 0, 0, 1, ph, 0, 0⟩
def wRec (landed : Bool) : SpillRec := ⟨9, wEntry .complete, [], landed, false⟩

/-- MatchingStoreEvents: a token that starts an instance; an end-of-stream token that is the last of two and one that is not; a due
collection; a core that runs short with room in its area; a record that lands; a complete record that comes back. -/
theorem witness_MatchingStoreEvents :
    let s := inRegion (wRegion 0) wHome
    let sink (n : Nat) : Sink := ⟨1, n, 0, false⟩
    let e : InTok := wIn { wToken with kind := .eos }
    let s2 := inRegion { wRegion 0 with sinks := [sink 2] } { wHome with inbox := [e], eosCount := [(1, 1)] }
    let due := inRegion (wRegion 0) { wHome with entries := [(0, wEntry .complete)] }
    let short : Core := { wHome with entries := [(0, wEntry .incomplete)], cfg := { wHome.cfg with part := 0 } }
    let back : Core := { wHome with l1tlb := [⟨0, 0, 4096, 0x10007⟩], spilled := [wRec true] }
    (Taken s 0 0 (wIn wToken) ∧ (s.core 0).residentSlot 1 = some (3, wSlot) ∧ s.behindMarker 0 (wIn wToken) = false ∧ (wIn wToken).frame = none ∧
      s.badToken 0 wToken wSlot = false ∧ (s.core 0).lookup wToken = .absent ∧ (s.core 0).freeFrame? (frameLines wSlot.hdr) = some 0) ∧
    ((s2.core 0).inbox[0]? = some e ∧ s2.coreRegion? 0 = some { wRegion 0 with sinks := [sink 2] } ∧ s2.stopped 0 = false ∧ (s2.core 0).arrivesNext 0 e = true ∧
      (s2.core 0).admits = true ∧ (s2.core 0).eosCount.atD 1 0 + 1 = (sink 2).expect ∧ (s2.core 0).eosCount.atD 1 0 + 1 < (sink 3).expect) ∧
    (∃ d ∈ due.dueColls 0, d.slot = 3) ∧ ((inRegion (wRegion 0) short).short 0 = true ∧ short.spillUsed + 160 ≤ short.cfg.prSize * 4096) ∧
    (({ wHome with spilled := [wRec false] } : Core).spilled[0]? = some (wRec false) ∧ (wRec false).toCore = false ∧ (wRec false).landed = false) ∧
    (((back.spilled.filter fun x => x.landed && !x.toCore && !back.refillParked x.num).find? fun x => x.entry.phase == .complete) = some (wRec true) ∧
      back.entriesUsed + 1024 ≤ 4096 ∧ (back.freeFrame? 1).isSome = true ∧ back.quenched = none ∧
      ∃ s' pl, ((lab back).modCore 0 fun c => ({ c with park := c.park.filter fun p => p.refill != some 9 } : Core).refillPark).engineXl 0 9 0 (recVA back 9)
        { write := false, priv := true, peer := false } = (.ok pl, s')) := by
  refine ⟨⟨⟨rfl, by decide, by decide +kernel, by decide +kernel, by decide +kernel, by decide +kernel⟩, by decide +kernel, by decide +kernel, rfl,
    by decide +kernel, rfl, by decide +kernel⟩, ⟨rfl, rfl, by decide +kernel, by decide +kernel, by decide +kernel, by decide +kernel, by decide +kernel⟩, by decide +kernel,
    by decide +kernel, ⟨rfl, rfl, rfl⟩, by decide +kernel, by decide +kernel, by decide +kernel, rfl, _, _, rfl⟩

/-- CommitReleaseAndBarriers: a group past its last word with nothing left to do; deferred changes, of a bound slot and of an
unbound one, of a block that finds room and of one that does not; a token whose commit is performed, and one that a barrier
holds; an arrival of each kind; counts at and below n. -/
theorem witness_CommitReleaseAndBarriers :
    let g : Group := { wGroup with pc := 0, status := .committing }
    let r := wRegion 0
    let o : OutItem := ⟨0, 0, 0, .grp, [], [], true, .token wToken⟩
    let c : Core := { wCore with groups := [(0, g)], outbox := [o], barArrivals := [⟨false, 0, 0, 1, 2, 0⟩, ⟨true, 0, 0, 1, 2, 0⟩] }
    let s := inRegion r c
    (s.core 0).group? 0 = some g ∧ g.atEnd (s.core 0) = true ∧ (s.core 0).mayCommit g = true ∧ s.lostAtCommit g = none ∧
    (Deferred.colFree [3] ∈ ({ g with deferred := [.colFree [3]] } : Group).deferred ∧ (SendItem.token wToken) ∈ ({ g with sendq := [.token wToken] } : Group).sendq) ∧
    (3 ≤ 127 ∧ (wHome.slot 3).bid ≠ 0xFFF ∧ 127 < 128 ∧ (wHome.slot 4).bid = 0xFFF) ∧
    ((freeRun? (wHome.storeRuns 4) 5).isSome = true ∧ freeRun? (wHome.storeRuns 4) 65537 = none) ∧
    (s.core 0).outbox[0]? = some o ∧ s.coreRegion? 0 = some r ∧
    (o.bars.isEmpty && (s.core 0).tokenVisible 0 (scopeMax o.scope (s.scopeTo 0 (s.tokenCore r 0 wToken))) && (o.after.all fun a => (s.core a.1).tokenVisible a.2 .dev) &&
      !(s.core 0).spanBehind 0 o && !s.tokenBehind r 0 0 o (s.tokenCore r 0 wToken)) = true ∧ s.guardStop 0 (s.tokenCore r 0 wToken) = none ∧
    ((s.setDev { s.dev with tileTenant := [(1, 1)] }).modCore 0 fun c => { c with cfg := { c.cfg with key := 5 } }).guardStop 0 1 = some (1, false) ∧ ({ o with bars := [(false, 0, 0, 1)] } : OutItem).bars.isEmpty = false ∧
    ((s.core 0).barArrivals[0]?.isSome = true ∧ (s.core 0).visible 0 .team = true) ∧ ((s.core 0).barArrivals[1]?.isSome = true ∧ (s.core 0).visible 0 .clus = true) ∧
    (2 ≤ 1 + 1 ∧ 1 + 0 < 2) := by
  refine ⟨rfl, ?_, ?_, ?_, ?_, ?_, ?_, rfl, rfl, ?_, ?_, ?_, ?_, ?_, ?_, ?_⟩ <;> decide +kernel

/-- An operation of a result that is ready. -/
def wOp : LongOp := LongOp.plain 4 (some 2) 0 .result

/-- CompletionRenewalAndGatingEvents: a completion that is no division; renewals answered without and with data, with and without a use that waits for
them; a gated core with a group that looks ready, and one without; pass-over counts of 1,024 and
1,023; a busy core and an idle one, before and at 64 cycles; a gated core with a ready group and one with a deadline at 72 cycles; a restart that
ends now and one that ends later. -/
theorem witness_CompletionRenewalAndGatingEvents :
    let g : Group := { wGroup with ops := [wOp] }
    let ren (d : List Byte) : Renewal := ⟨0, 5, 8, true, true, 100, 1, d⟩
    let idle := lab Core.empty
    let waits : Core := { Core.empty with gate := .gated, entries := [(0, ⟨1, 0, 7, 1, [], 0, 0, 1, .complete, 0, 72⟩)] }
    (({ wCore with groups := [(0, g)] } : Core).group? 0 = some g ∧ g.ops[0]? = some wOp ∧ (g.ops.find? fun p => p.num == wOp.num) = some wOp ∧
      ({ wCore with groups := [(0, g)] } : Core).opSlot wOp.num = some (0, g) ∧ wOp.ready = true ∧ wOp.dead = false ∧ wOp.flt = none ∧ wOp.kind ≠ .courier ∧ (!([] : List Nat).contains wOp.num || ([] : List Nat).head? == some wOp.num) = true) ∧
    ((ren []).back = true ∧ (ren []).data = [] ∧ (ren [0]).data ≠ [] ∧ (ren [0]).newExp ≠ 0 ∧ (wCore.groups.map Prod.fst).Nodup ∧
      (∀ e ∈ wCore.groups, ∀ x ∈ e.2.validation, x.line ≠ 5) ∧
      ∃ x ∈ ({ wGroup with validation := [⟨5, 8, 0, false, 4, 0, 1, 0⟩] } : Group).validation, x.line = (ren [0]).line ∧ x.ver = (ren [0]).ver ∧ x.confirmed = false) ∧
    ((lab { wBody 0 with gate := .gated }).looksReady 0 wGroup = true ∧
      ∀ e ∈ (lab { Core.empty with gate := .gated }).core 0 |>.groups, (lab { Core.empty with gate := .gated }).looksReady 0 e.2 = false) ∧
    (1024 ≤ ({ wGroup with passOver := 1024 } : Group).passOver ∧ ({ wGroup with passOver := 1023 } : Group).passOver < 1024) ∧
    (Core.empty.gate = .running none ∧ (lab wPriv).coreBusy 0 = true ∧ idle.coreBusy 0 = false ∧ 0 + 64 ≤ 64 ∧ ¬ (0 + 64 ≤ 63)) ∧
    (waits.gate = .gated ∧ ∃ e ∈ waits.entries, e.2.phase = .complete ∧ e.2.deadline ≤ 0 + 72) ∧ (72 ≤ 72 ∧ 71 < 72) := by
  refine ⟨⟨rfl, rfl, ?_, ?_, rfl, rfl, rfl, ?_, ?_⟩, ?_, ?_, ?_, ⟨rfl, ?_, ?_, ?_, ?_⟩, ⟨rfl, ?_⟩, ?_⟩ <;> decide +kernel

/-- CoreUnitEvents: a bound slot whose body is being fetched; a QWAIT at its limit; a TLOAD with its image present; an open rendezvous at its limit; a
deposit that comes to a free line, and one that an earlier copy keeps waiting; a group parked on a line that is present and one that is not parked. -/
theorem witness_CoreUnitEvents :
    let q := wCore.setSlot 0 { BlockSlot.unbound with bid := 0, resident := true, hdr := placeHeader, body := [0x0E005FFFF08F0000] }
    let g : Group := { wGroup with status := .qwait 0 }
    let l : GangLatch := ⟨[MatOp.plain 0 0 .mma 0 0], 0, false⟩
    let p : Group := { wGroup with status := .parked .a 3 }
    let d : Deposit := ⟨0, 3, [(0, 1)], 0, 0, none⟩
    let d1 : Deposit := { d with num := some 1 }
    ({ wSlot with resident := false }.bid ≠ 0xFFF ∧ { wSlot with resident := false }.closing = false) ∧
    ((qwaitAt q g).isSome = true ∧ 0 + 65536 ≤ 65536) ∧
    (({ wCore with tloads := [⟨0, 0, 3, 1, 0⟩] } : Core).tloads.find? (fun x => x.table == 3) = some ⟨0, 0, 3, 1, 0⟩ ∧ ({ wCore with groups := [(0, { wGroup with ops := [{ wOp with num := 0 }] })] } : Core).opSlot 0 = some (0, { wGroup with ops := [{ wOp with num := 0 }] }) ∧
      wCore.boundTo 3 1 (some 0) = false ∧ ∀ ln ∈ (⟨0, 0, 3, 1, 0⟩ : TloadCmd).lines, wCore.presentFor 0 .w ln = true) ∧
    (l.full = false ∧ 1024 ≤ 1024 - l.opened ∧ wCore.group? 0 = some wGroup) ∧
    (wCore.present .a 3 = true ∧ (∀ e ∈ wCore.groups, e.2.locks .a 3 = false) ∧ wCore.presentFor wCore.nextNum .a 3 = true ∧ wCore.lineBusy wCore.nextNum none .a 3 true = false) ∧
    (d.num.getD wCore.nextNum = wCore.nextNum ∧ ({ wCore with absent := [(.a, 3, 0)] } : Core).presentFor 1 .a 3 = false ∧ d1.num.getD wCore.nextNum = 1) ∧
    (p.status = .parked .a 3 ∧ wGroup.status ≠ .parked .a 3) := by
  refine ⟨by decide +kernel, ⟨by decide +kernel, by decide⟩, ⟨rfl, by decide +kernel, by decide +kernel, fun _ _ => rfl⟩, ⟨rfl, by decide, rfl⟩,
    by decide +kernel, by decide +kernel, rfl, by decide⟩

/-- CourierEvents: a queued command, running ones of each kind, and a line that the engine owns and another wants. -/
theorem witness_CourierEvents :
    let k : CopyCmd := { copyBase (ctx4 wF4 (lab wCore) wGroup) 0 .mm .frame 0 with dst := 0, src := 128, len := 128 }
    let c : Core := { wCore with courier := [k] }
    c.courier.find? (fun k => !k.running) = some k ∧ (c.courier.filter fun y => y.running).length < 4 ∧ copyReady c k = true ∧
    ({ c with courier := [{ k with running := true }] } : Core).courier[0]? = some { k with running := true } ∧
    (isBulk .rput = true ∧ isBulk .rget = true ∧ isBulk .mcput = true ∧ isBulk .mm = false) ∧
    (CopyForm.mm ≠ .spout ∧ CopyForm.mm ≠ .spoutc ∧ CopyForm.mm ≠ .spin) ∧ CopyForm.mm.immediate = false ∧
    (∀ u ∈ ({ k with len := 0 } : CopyCmd).units, u ∈ ([] : List Nat)) := by
  refine ⟨rfl, ?_, ?_, rfl, ?_, ?_, rfl, ?_⟩ <;> decide +kernel

/-- A triple with a given first component. -/
theorem triple_of_fst {α β γ : Type} {x : α × β × γ} {a : α} (h : x.1 = a) : ∃ b c, x = (a, b, c) := ⟨x.2.1, x.2.2, by rw [← h]⟩

/-- CourierEvents, recall: a copy to memory owns line 512, which an agent waits for, and can write it, or waits for its
source's walk. -/
theorem witness_CourierRecall :
    let k : CopyCmd := { copyBase (ctx4 wF4 (lab wCore) wGroup) 0 .mm .frame 0 with dst := 0, src := 128, len := 128, running := true }
    let c : Core := { wMapped with courier := [k] }
    let x : Slice := { Slice.empty with lines := [⟨512, 0, 0, 0, false, false, some 0, 0⟩], queue := [⟨1, 0, 0, .load 1 512 1 none 2048 false false 0 1⟩] }
    let s : State := { lab c with slices := [(128, x)] }
    (s.ownedBy 0).contains 512 = true ∧ s.lineWanted 512 = true ∧
    c.courier.findSome? (fun k => if k.running && dstMem k.form then
      (k.units.find? fun u => !k.doneLines.contains u && unitLine s 0 k u == some 512).map fun u => (k, u) else none) = some (k, 0) ∧
    (∃ k' s', memUnit s 0 k 0 = (.done, k', s')) ∧ ∃ k' s', memUnit s 0 { k with src := 8192 } 0 = (.wait, k', s') := by
  refine ⟨?_, ?_, ?_, triple_of_fst ?_, triple_of_fst ?_⟩ <;> decide +kernel

/-! ### Events of translation, slices and permits -/

/-- A state with one die, one slice, or one device's registers set. -/
def wDie (d : Die) : State := { State.reset with dies := [(0, d)] }
def wSl (k : Nat) (x : Slice) : State := { State.reset with slices := [(k, x)] }
def wDev (d : Device) : State := { State.reset with dev := d }
def wPkt (b : PktBody) : Packet := ⟨0, 0, 1, 0, 0, 0, 0, 5, b⟩

/-- Context 0 is valid and lets remote requests in, and the ingress TLB maps its page 0. -/
def wIngress (r : IngressReq) (tlb : List TlbEnt) : State :=
  { wDie { Die.empty with ingress := [r], ingressTlb := tlb } with mem := [(7, 0x80), (0x13, 1)] }

/-- TranslationEvents: a queued miss and a free walker; walks that failed and that found a leaf; requests whose page translates and whose
page does not, or waits for a walk; an invalidation begun, refused and done, with the lowest page and with the highest. -/
theorem witness_TranslationEvents :
    let y : Waiter := ⟨0, false, false, false⟩
    let m : Miss := ⟨0, 0, [y]⟩
    let w (o : WalkOut) : Walk := ⟨0, 0, [y], o, []⟩
    let r : IngressReq := ⟨0, wPkt (.read 0 4 4), 0, 4, none, 0, []⟩
    let busy : Die := { Die.empty with tlbinv := { Die.empty.tlbinv with busy := true } }
    (({ Die.empty with missq := [m] } : Die).missq = m :: [] ∧ ({ Die.empty with missq := [m] } : Die).walks.length < 64) ∧
    (({ Die.empty with walks := [w (.fail 1 2)] } : Die).walks[0]? = some (w (.fail 1 2))) ∧
    (({ Die.empty with walks := [w (.leaf 0 4096 0x10007)] } : Die).walks[0]? = some (w (.leaf 0 4096 0x10007)) ∧
      (∃ t, onLeaf State.reset 0 0 y.want ⟨0, 0, 4096, 0x10007⟩ = .ok t) ∧ (∃ e, onLeaf State.reset 0 0 y.want ⟨0, 0, 4096, 0x17⟩ = .error e)) ∧
    (((wIngress r []).die 0).ingress[0]? = some r ∧ r.place = none ∧ r.needsPage = true) ∧
    (∃ pa cache s', (wIngress r [⟨0, 0, 4096, 0x10007⟩]).ingressXl 0 0 0 (0 + 0) (bodyWrites (.read 0 4 4)) = (.ok pa cache, s')) ∧
    (∃ s', (wIngress r []).ingressXl 0 0 0 (0 + 0) (bodyWrites (.read 0 4 4)) = (.wait, s')) ∧
    (∃ cause level s', (wDie { Die.empty with ingress := [r] }).ingressXl 0 0 0 (0 + 0) (bodyWrites (.read 0 4 4)) = (.fail cause level, s')) ∧
    ((wDie Die.empty).die 0).tlbinv.busy = false ∧ (0x8000000000000000 : DWord).getLsbD 63 = true ∧ (0xFFFFFFFFFFFFFFFF : DWord).getLsbD 63 = true ∧
    ((wDie busy).die 0).tlbinv.busy = true ∧ (∀ e ∈ (wDie busy).cores, ∀ k ∈ e.2.courier, k.running = false ∧ k.remote = none) ∧
    (∀ e ∈ (wDie busy).dies, ∀ r ∈ e.2.ingress, r.place = none) ∧
    (∀ x ∈ ((wDie busy).die 0).tlbinv.after, ((wDie busy).core x.1).heldXl x.2 = false) := by
  refine ⟨by decide, rfl, ⟨rfl, ⟨_, rfl⟩, ⟨_, rfl⟩⟩, by decide, ⟨_, _, _, rfl⟩, ⟨_, rfl⟩, ⟨_, _, _, rfl⟩, rfl, by decide, by decide, rfl, ?_, ?_, fun x hx => nomatch hx⟩
  · intro e he; cases he
  · intro e he r hr; cases he with
    | head => cases hr
    | tail _ h => cases h

/-- Line 512 of memory lives in slice 128 of die 0. -/
def wLoad : SliceEnt := ⟨0, 0, 0, .load 0 512 1 none 2048 false false 0 1⟩
def wUpd (ops : List AtomOp) : SbLine := ⟨512, [(0, 1)], ops, 0, 0, [], false, 0⟩

/-- SliceEvents: at the home of line 512, a load, a lined-up write, an atomic and a FETCH; a load at an agent without a permit; a
write whose leases run; a committed line on its way. -/
theorem witness_SliceEvents :
    let s (q : SliceEnt) := wSl 128 { Slice.empty with queue := [q] }
    let op : AtomOp := ⟨0x10000, 0, 1, 0, 0, none⟩
    let u (ops : List AtomOp) : SliceEnt := ⟨0, 0, 0, .update 0 0 (wUpd ops)⟩
    let f : SliceEnt := ⟨0, 0, 0, .fetch 0 512 1 0 1⟩
    let far : State := wSl 384 { Slice.empty with queue := [wLoad] }
    let leased : State := wSl 128 { Slice.empty with queue := [u []], lines := [⟨512, 1000, 0, 0, false, false, none, 0⟩] }
    let meets (s : State) (k : Nat) := s.lineStop 512 = none ∧ ((s.slice k).lineD 512).courier = none ∧ s.spent k 512 = false
    let own (s : State) := s.updateStop (wUpd []) = none ∧ (s.slice 128).behind 0 512 = false ∧ s.barred 128 512 (u []) = false ∧ s.barred 128 512 f = false ∧ s.permitsAt 128 512 = 32 ∧
      (s.placeLine 128 512 0).isSome = true ∧ 128 = updateSlice s 0 512 true ∧ 128 = fetchSlice s 0 512 ∧ fencesOpen (s.core 0) 0 512 = true
    sliceKey 0 128 = 128 ∧ sliceKey 1 128 = 384 ∧
    (((s wLoad).slice 128).queue[0]? = some wLoad ∧ meets (s wLoad) 128 ∧ (s wLoad).permitsAt 128 512 ≠ 0 ∧ ((s wLoad).placeLine 128 512 0).isSome = true) ∧
    ((far.slice 384).queue[0]? = some wLoad ∧ meets far 384 ∧ far.permitsAt 384 512 = 0) ∧
    (((s (u [])).slice 128).queue[0]? = some (u []) ∧ meets (s (u [])) 128 ∧ own (s (u []))) ∧
    (((s (u [op])).slice 128).queue[0]? = some (u [op]) ∧ meets (s (u [op])) 128 ∧ own (s (u [op]))) ∧
    (((s (u [])).slice 128).lineD 512).expmax ≤ (s (u [])).gtcAt 0 ∧ (meets leased 128 ∧ own leased ∧ leased.gtcAt 0 < ((leased.slice 128).lineD 512).expmax) ∧
    (((s f).slice 128).queue[0]? = some f ∧ meets (s f) 128 ∧ own (s f)) ∧
    (([(0, 1), (127, 2)] : List (Nat × Byte)).map Prod.fst).Nodup ∧
    (({ State.reset with transit := [(0, .update 0 0 (wUpd []))] } : State).transit[0]? = some (0, .update 0 0 (wUpd [])) ∧ (wUpd []).uncached = false) := by
  refine ⟨rfl, rfl, ?_, ?_, ?_, ?_, Nat.zero_le _, ⟨?_, ?_, ?_⟩, ?_, ?_, ?_⟩
  all_goals first
    | decide +kernel
    | (show 0 + Config.gtcSkew 0 % 4 < 1000; omega)

/-- PermitAndSnoopEvents, requests: at an agent of line 512 on die 1, a request that joins the home's queue, one whose turn has come and one
behind a write; GETS and GETX, alone, with another die's persistent request active,
and with a holder that wants the line itself or does not; answers, RETRY and time-outs at and before 500 ticks; the third failure. -/
theorem witness_PermitRequests :
    let a : PermitReq := ⟨512, false, 0, 0, 0, none, false, 0⟩
    let x : PermitReq := { a with exclusive := true }
    let s (a : PermitReq) := wSl 384 { Slice.empty with asks := [a] }
    let other (a : PermitReq) : State := { s a with slices := [(128, { Slice.empty with persist := [⟨2, 512, true, true, 0⟩] }), (384, { Slice.empty with asks := [a] })] }
    let holder (w : Bool) : State := { s x with slices := [(384, { Slice.empty with asks := [x] }),
      (640, { Slice.empty with lines := [⟨512, 0, 0, 3, false, false, none, 0⟩], asks := if w then [x] else [] })] }
    let k := sliceAt State.reset 1 512
    let home := permitHome State.reset 512
    let q : SliceEnt := ⟨reqAgent 1, 0, 0, .permit 1 512⟩
    let mine (q : SliceEnt) : Bool := q.req == .permit 1 512
    let lined (before : List SliceEnt) : State := { wSl home { Slice.empty with queue := before ++ [q] } with mesh := 1 }
    let w : SliceEnt := ⟨0, 0, 0, .update 0 0 (wUpd [])⟩
    (((lined []).slice home).queue.findIdx? mine = some 0 ∧ ((lined []).slice home).queue[0]? = some q ∧ q.at_ < (lined []).mesh ∧
      (∀ p ∈ ((lined []).slice home).queue.take 0, p.req.line = 512 → p.req.holdsUp = false) ∧
      (∀ q ∈ ((s a).slice home).queue, mine q = false) ∧ ((lined [w]).slice home).queue.findIdx? mine = some 1 ∧
      (∃ p ∈ ((lined [w]).slice home).queue.take 1, p.req.line = 512 ∧ p.req.holdsUp = true)) ∧
    k = 384 ∧ home = 128 ∧
    ((s a).askOf k 512 = some a ∧ (s a).turnsAway 1 512 = false ∧ (s a).ownerAt 512 = home ∧ 2 ≤ (s a).permitsAt home 512 ∧ (((s a).slice home).lineD 512).courier = none) ∧
    ((other a).askOf k 512 = some a ∧ (other a).turnsAway 1 512 = true) ∧
    ((other x).askOf k 512 = some x ∧ (other x).turnsAway 1 512 = true ∧ x.exclusive = true) ∧
    ((holder true).askOf k 512 = some x ∧ (holder true).turnsAway 1 512 = false ∧
      ∃ h ∈ ((holder true).poolAcquire 512 true).holdersOf 512, h ≠ k ∧ h ≠ home ∧ (((holder true).poolAcquire 512 true).slice h).wants 512 = true) ∧
    ((holder false).turnsAway 1 512 = false ∧ ∀ h ∈ ((holder false).poolAcquire 512 true).holdersOf 512,
      h = k ∨ h = home ∨ (((holder false).poolAcquire 512 true).slice h).wants 512 = false) ∧
    ((s { a with reply := some (some (1, true)) }).askOf k 512 = some { a with reply := some (some (1, true)) } ∧
      (s { a with reply := some none }).askOf k 512 = some { a with reply := some none } ∧
      ((s { a with reply := some (some (1, true)) }).placeLine k 512 0).isSome = true) ∧
    (0 + 500 ≤ 500 ∧ 499 < 0 + 500 ∧ 0 + 2000 ≤ 2000 ∧ 1999 < 0 + 2000) ∧ (({ a with fails := 2 } : PermitReq).failed 0).persistent = true ∧ (({ a with fails := 1 } : PermitReq).failed 0).persistent = false := by
  refine ⟨?_, ?_, ?_, ?_, ?_, ?_, ?_, ?_, ?_, ?_, ?_, ?_⟩ <;> decide +kernel

/-- PermitAndSnoopEvents, evictions, persistent requests and snoops: a line of die 1 that can go home; a persistent request, alone, in the
home's table, and served; an activation with the table idle and busy; pool and host lines that can be recalled, those that a
Courier engine owns, and one under a lease. -/
theorem witness_PersistentRequestsAndSnoops :
    let k := 384
    let home := 128
    let held := wSl 384 { Slice.empty with lines := [⟨512, 0, 0, 3, false, false, none, 0⟩] }
    let a : PermitReq := ⟨512, true, 3, 0, 0, none, true, 0⟩
    let ask := wSl 384 { Slice.empty with asks := [a] }
    let p : Persist := ⟨1, 512, true, true, 0⟩
    let full : State := { held with slices := [(128, { Slice.empty with persist := [p] }),
      (384, { Slice.empty with asks := [{ a with reply := some (some (0, false)) }], lines := [⟨512, 0, 0, 32, true, false, none, 0⟩] })] }
    let idle := wSl 128 { Slice.empty with persist := [{ p with active := false }] }
    let pool := 0x2000000000000 / 128
    let host := 0x8000000000000 / 128
    let asked (s : State) (ln : Nat) (sn : Snoop) : Bool × State := (s.beginRecall ln sn).recallStep ln sn
    let owned (ln : Nat) : State := wSl (permitHome State.reset ln) { Slice.empty with lines := [⟨ln, 0, 0, 0, false, false, some 0, 0⟩] }
    let leased := wSl 128 { Slice.empty with lines := [⟨512, 1000, 0, 0, false, false, none, 0⟩] }
    (k ≠ home ∧ held.letsGo k 512 held.arrivals = true ∧ (held.slice k).linedUp 512 = false ∧ held.askOf k 512 = none) ∧
    (ask.askOf k 512 = some a ∧ (∀ b ∈ (ask.slice k).asks, b.persistent = true → b = a) ∧ (ask.slice home).persist.any (fun p => p.die == 1) = false) ∧
    ((full.slice home).persist.find? (fun p => p.die == 1 && p.line == 512 && p.active) = some p ∧ full.permitsAt k 512 = 32 ∧ full.spent k 512 = true) ∧
    ((∀ q ∈ (idle.slice home).persist, q.active = false) ∧ (idle.slice home).nextPersist = some { p with active := false }) ∧
    (∃ q ∈ (full.slice home).persist, q.active = true) ∧
    (lineZone pool = .pool ∧ (asked State.reset pool (.pool true)).1 = true ∧ (asked (owned pool) pool (.pool true)).1 = false ∧
      lineZone host = .host ∧ (asked State.reset host (.host true true)).1 = true ∧ (asked (owned host) host (.host true true)).1 = false) ∧
    (leased.gtcAt (128 / 256) < ((leased.slice 128).lineD 512).expmax ∧ 128 ∈ leased.holdersOf 512) := by
  refine ⟨⟨by decide, ?_, by decide +kernel, by decide +kernel⟩, by decide +kernel, by decide +kernel, by decide +kernel, by decide +kernel, ?_, ?_, ?_⟩
  all_goals first
    | decide +kernel
    | (show 0 + Config.gtcSkew 0 % 4 < 1000; omega)
/-! ### Events of the fabric -/

/-- Requests, replies and spans of device 0. -/
def wReq (k : RemKind) (b : PktBody) : Request := ⟨5, 0, 0, k, none, false, 4, 1, wPkt b, 0, 0, 0, 0, 0, none, 0, [], false⟩

/-- PacketAndRequestEvents, ports: a packet of a member, of no member, under key 0, of another tenant and of a wrong incarnation; a token of no
region; no incarnations exchanged yet; one that is
next on its route and one that is not; a token at a switch; a guard;
a notice and a reply that wait for their unit. -/
theorem witness_PacketsAtPorts :
    let p : Packet := { wPkt (.read 0 4 4) with key := 9 }
    let t : Packet := { p with body := .token wToken }
    let s := wDev { Device.reset with incExchanged := true, portKeys := [(3, [9])], portTenant := [(4, 1)] }
    let sw : State := { State.reset with switches := [{ Switch.empty 0 with portKeys := [(0, [9])] }] }
    let v := s.takeFlight p
    let got (b : PktBody) := wDev { Device.reset with arrived := [(3, wPkt b)] }
    (wPkt (.read 0 4 4)).inc = v.dev.incFor 1 ∧ (({ p with inc := 1 } : Packet).body ≠ .management ∧ ({ p with inc := 1 } : Packet).inc ≠ v.dev.incFor p.srcDev) ∧
    (v.orphan t = true ∧ v.orphan p = false ∧ (wDev Device.reset).dev.incExchanged = false) ∧
    (p.key ≠ 0 ∧ v.dev.incExchanged = true ∧ p.inc = v.dev.incFor p.srcDev ∧ v.tenantOk p.key (v.dev.portTenant.atD 3 0) = true ∧
      p.key ∈ v.dev.portKeys.atD 3 []) ∧
    ({ s with wire := [p] } : State).inOrder p = true ∧ ({ s with wire := [p] } : State).heldBack p = false ∧
    ({ s with wire := [{ p with reqid := 6 }, p] } : State).inOrder p = false ∧ (s.dev.trihorn = 0 ∧ (s.leaveStop 0x3FF 9 1).isSome = true) ∧
    (v.tenantOk p.key (v.dev.portTenant.atD 2 0) = true ∧ p.key ∉ v.dev.portKeys.atD 2 []) ∧ (wPkt (.read 0 4 4)).key = 0 ∧
    v.tenantOk p.key (v.dev.portTenant.atD 4 0) = false ∧
    (p.key ∈ ((sw.takeFlight t).switch 0).portKeys.atD 0 [] ∧ p.dstDev ∉ ((sw.takeFlight t).switch 0).dead) ∧
    v.tenantOk p.key (v.dev.tileTenant.atD 0 0) = true ∧
    (got (.deadLetter [])).dev.arrived.find? (fun e => e.2 == wPkt (.deadLetter [])) = some (3, wPkt (.deadLetter [])) ∧
    (got (.reply 0 0 [])).dev.arrived.find? (fun e => e.2 == wPkt (.reply 0 0 [])) = some (3, wPkt (.reply 0 0 [])) := by
  refine ⟨?_, ?_, ?_, ?_, ?_, ?_, ?_, ?_, ?_, ?_, ?_, ?_, ?_, ?_, ?_⟩ <;> decide +kernel

/-- Whether a request that is no MCPUT and has left is past its time. -/
theorem overdue_iff {s : State} {r : Request} (a : r.bulk ≠ some .mcput) (b : s.hasLeft r = true) :
    s.overdue r = true ↔ r.limit ≤ s.gtcAt (dieOf r.core) := by simp [State.overdue, a, b]

/-- PacketAndRequestEvents, replies: a tile that the tenant's guard shuts, and an open one; a request past its 50 µs and one before; a part of a
get, a reply of a lane, and a lane of CFAA. -/
theorem witness_Replies :
    let r := wReq .rld (.read 0 4 4)
    let late (n : Nat) : State := { wDev { Device.reset with requests := [r], tileTenant := [(1, 1)] } with gtc := n }
    ((late 0).tileShut 9 1 = true ∧ (late 0).tileShut 9 r.core = false) ∧ (r.bulk = none ∧ r.kind ≠ .cfaa) ∧
    (wReq .cfaa (.read 0 4 4)).lastAsk ≤ (wReq .cfaa (.read 0 4 4)).left + 50000 ∧
    (late 50000).overdue r = true ∧ (late 49996).overdue r = false := by
  refine ⟨?_, ?_, ?_, (overdue_iff ?_ ?_).mpr ?_, Bool.eq_false_iff.mpr fun h => ?_⟩
  any_goals decide +kernel
  · show 0 + 50000 ≤ 50000 + Config.gtcSkew 0 % 4; omega
  · have := (overdue_iff (by decide) (by decide +kernel)).mp h
    change 0 + 50000 ≤ 49996 + Config.gtcSkew 0 % 4 at this; omega

/-- PacketAndRequestEvents, requests: a write, an atomic and a read of one line at the ingress with their place, and what the owner
does; a request past and before 50 µs; a write-combining entry past and before 256 ticks; no request for a reply. -/
theorem witness_RequestsAndTimeouts :
    let r (b : PktBody) : IngressReq := ⟨0, wPkt b, 0, 128, some (0x10000, 0), 0, []⟩
    let s (b : PktBody) := wDie { Die.empty with ingress := [r b] }
    let late (n : Nat) : State := { wDev { Device.reset with requests := [wReq .rld (.read 0 4 4)] } with gtc := n }
    let e : WcEnt := ⟨1, 0, 0, [(0, 1)], 0, [], 0, false⟩
    let wc (n : Nat) : State := { lab { wCore with wcb := [e] } with gtc := n }
    (∀ b, ((s b).die 0).ingress[0]? = some (r b) ∧ ((r b).place.isNone && (r b).needsPage) = false) ∧
    ((s (.write [(0, 1)])).die 0).sameLineBefore 0 (r (.write [(0, 1)])) = false ∧
    (∃ old s', (s (.write [(0, 1)])).writeAtOwner 0 0 0 (plainLine (lineOf 0x10000) [(0, 1)] []) = (.done old, s')) ∧
    (∃ old s', (s (.atomic 0 1 0)).writeAtOwner 0 0 0 (plainLine (lineOf 0x10000) [] [⟨0x10000, 0, 1, 0, 0, none⟩]) = (.done old, s')) ∧
    (0 + lineLeft 0x10000 (128 - 0) = 128 ∧ lineLeft 0x10000 (128 - 0) ≠ 0 ∧ 0 + lineLeft 0x10000 (128 - 0) < 129 ∧
      ∃ bs s', (s (.read 0 128 128)).readAtOwner 0 0 0x10000 0 (lineLeft 0x10000 (128 - 0)) = (.done bs, s')) ∧
    ((late 0).dev.requests.find? (fun r => r.reqid == 5) = some (wReq .rld (.read 0 4 4)) ∧ (late 0).hasLeft (wReq .rld (.read 0 4 4)) = true ∧
      (wReq .rld (.read 0 4 4)).bulk ≠ some .mcput) ∧
    (late 0).dev.requests.find? (fun r => r.reqid == 5 && r.done.isNone) = some (wReq .rld (.read 0 4 4)) ∧
    (0 + 50000 ≤ (late 50000).gtcAt (dieOf 0) ∧ (late 49996).gtcAt (dieOf 0) < 0 + 50000) ∧
    (((wc 0).core 0).wcb[0]? = some e ∧ 0 + 256 ≤ (wc 256).gtcAt (dieOf 0) ∧ (wc 252).gtcAt (dieOf 0) < 0 + 256) ∧
    (∀ r ∈ State.reset.dev.requests, r.reqid = 5 → r.done ≠ none) := by
  refine ⟨fun b => ⟨rfl, rfl⟩, ?_, ?_, ?_, ⟨?_, ?_, ?_, ?_⟩, ?_, ?_, ⟨?_, ?_⟩, ⟨rfl, ?_, ?_⟩, ?_⟩
  · decide +kernel
  · exact ⟨_, _, rfl⟩
  · exact ⟨_, _, rfl⟩
  · decide
  · decide
  · decide
  · exact ⟨_, _, rfl⟩
  · decide +kernel
  · decide +kernel
  · show 0 + 50000 ≤ 50000 + Config.gtcSkew 0 % 4; omega
  · show 49996 + Config.gtcSkew 0 % 4 < 0 + 50000; omega
  · show 0 + 256 ≤ 256 + Config.gtcSkew 0 % 4; omega
  · show 252 + Config.gtcSkew 0 % 4 < 0 + 256; omega
  · intro r hr; cases hr

/-- SpanEvents: a word in flight without and with an adder, a CPYSP.IN that takes it, an adder with both inputs, and a link on the path. -/
theorem witness_SpanEvents :
    let x : Span := ⟨0, 1, 0, 1, 1, [2], 8192, 4, 0, [], [7], [], [], false⟩
    let y : Span := { x with adders := [(2, 1)], atAdder := [[5]], flight := [] }
    let z : Span := { x with handle := 1, flight := [], atAdder := [[7]] }
    let k : CopyCmd := { copyBase (ctx4 wF4 (lab wCore) wGroup) 0 .spin .a 0 with span := 0, len := 4, running := true }
    let c : Core := { Core.empty with courier := [k], landing := [⟨0, [7], none, 0, []⟩] }
    let s : State := { State.reset with spans := [x], cores := [(1, c)] }
    let t : State := { State.reset with spans := [y, z] }
    (s.spans[0]? = some x ∧ x.flight = 7 :: [] ∧ x.broken = false ∧ s.injected x = false ∧ x.adders = []) ∧
    (({ State.reset with spans := [{ y with flight := [7] }] } : State).injected { y with flight := [7] } = false ∧ y.adders ≠ []) ∧
    ((s.core x.consumer).spanTaker x.handle = some k ∧ k.running = true ∧ k.again = false ∧
      min (min ((s.core x.consumer).landingOf 0).words.length 32) ((k.len - k.moved) / 4) = 1 ∧
      (landBytes s x.consumer k (k.off + k.moved) ([7].take 1)).isSome = true) ∧
    (t.spans[0]? = some y ∧ y.adders[0]? = some (2, 1) ∧ (y.atAdder[0]?).getD [] = 5 :: [] ∧ t.spanIx y.region 1 = some 1 ∧
      t.spans[1]? = some z ∧ (z.atAdder[z.adders.length]?).getD [] = 7 :: [] ∧ y.broken = false ∧ z.broken = false) ∧
    (2 < 36 ∧ 2 ∈ x.links ∧ x.region ≠ 0) := by
  refine ⟨?_, ?_, ?_, ?_, ?_⟩ <;> decide +kernel

/-- DomainMembershipEvents: a device heard at tick 0, at and before 50,000 ticks; states LINKS and READY; another device; regions of the pool behind a link. -/
theorem witness_DomainMembershipEvents :
    let s (n : Nat) : State := { State.reset with gtc := n, switches := [{ Switch.empty 0 with heard := [(3, 0)] }] }
    (((s 0).switch 0).heard.at? 3 = some 0 ∧ 3 ∉ ((s 0).switch 0).dead ∧ 0 + 50000 ≤ (s 50000).gtc ∧ (s 49999).gtc < 0 + 50000) ∧
    (wDev { Device.reset with stage := .links }).dev.stage = .links ∧ (wDev { Device.reset with stage := .ready }).dev.stage = .ready ∧
    1 ≠ State.reset.dev.devNum ∧ (5 < ({ Device.reset with poolRegions := 6 } : Device).poolRegions ∧ 5 % 4 = 1 % 4) := by
  refine ⟨?_, ?_, ?_, ?_, ?_⟩ <;> decide +kernel

/-- A message for group 0, its tree of one member, and the message in flight. -/
def wMsg : McMsg := ⟨0, 0, 16, [(0, [1, 2, 3, 4])], none, 4, false, 0, 0, 1⟩
def wTree : McTree := ⟨0, 0, [⟨1, 0⟩]⟩
def wFlight (t : Nat) : McFlight := ⟨0, 0, t, wPkt (.multicast wMsg), []⟩

/-- MulticastEvents, the root: a message that is next, whole and with a packet missing, an answer of the one member, a receipt due at and before 50,000 ticks. -/
theorem witness_MulticastAtTheRoot :
    let x : Switch := { Switch.empty 0 with trees := [wTree], arrived := [(0, 0, wPkt (.multicast wMsg))] }
    let s (n : Nat) : State := { State.reset with gtc := n, switches := [{ x with flights := [wFlight 0] }] }
    let half := wPkt (.multicast { wMsg with parts := 2 })
    ((wPkt (.multicast wMsg)).body = .multicast wMsg ∧ x.nextMessage (wPkt (.multicast wMsg)) = some (0, 0, wPkt (.multicast wMsg)) ∧
      (wholeMessage (wPkt (.multicast wMsg)) wMsg (x.arrived.map fun y => y.2.2)).isSome = true ∧
      ({ Switch.empty 0 with arrived := [(0, 0, half)] } : Switch).nextMessage half = some (0, 0, half) ∧ wholeMessage half { wMsg with parts := 2 } [half] = none ∧
      x.trees.find? (fun t => t.group == 0) = some wTree ∧ (x.flights.filter fun f => f.group == 0).length < 64 ∧ x.waits 0 = []) ∧
    (((s 0).switch 0).flights.find? (fun f => f.group == 0 && f.postmark == 0) = some (wFlight 0) ∧
      (((s 0).switch 0).tree 0).bind (fun t => t.members.find? fun k => k.midx == 0) = some ⟨1, 0⟩ ∧ (⟨1, 0⟩ : TreeMember).dev ≠ (s 0).dev.devNum ∧
      ∀ a ∈ (wFlight 0).answers, a.1 ≠ 0) ∧
    ((wFlight 0).stamped + 50000 ≤ (s 50000).gtc ∧ (s 49999).gtc < (wFlight 0).stamped + 50000) := by
  refine ⟨?_, ?_, ?_⟩ <;> decide +kernel

/-- MulticastEvents, a member: the entry of group 0 not a member, valid and whole, or broken; a postmark in turn, the last one ahead
and the first one behind; a gap of 100 µs with a held message; a whole message and a part of one; a receipt
at an open tile and at one that a guard shuts, with an empty run and with a run of records that waits for permits; the entry of the last group that MCGRP_REVOKE can name. -/
theorem witness_MulticastAtAMember :
    let p := wPkt (.multicast { wMsg with stamped := true })
    let at_ (b : Byte) : State := { wDev { Device.reset with arrived := [(3, p)] } with mem := [(0x200007, b)] }
    let h : McHeld := ⟨0, 1, p, 0, false, true, 0⟩
    let gap : State := { wDev { Device.reset with mcHeld := [h], mcGap := [(0, 0)] } with gtc := 100000, mem := [(0x200007, 0xA0)] }
    let r := { wReq .rld (.multicast wMsg) with bulk := some .mcput }
    let back := wDev { Device.reset with requests := [r], arrived := [(3, wPkt (.receipt [0, 0, 0] []))] }
    let shut : State := { back with dev := { back.dev with tileTenant := [(0, 1)] } }
    let words : List Word := [0, 0, 0x80000000]
    let keep (b : Byte) : State := { back with
      mem := [(7, b)], slices := [(sliceAt State.reset 1 0, { Slice.empty with lines := [⟨0, 0, 0, 3, false, false, none, 0⟩] })] }
    let run (b : Byte) : State := (keep b).mcStatusRun 0 (srcPort 3) 0 0 0 [0]
    ((wholeMessage p { wMsg with stamped := true } ((at_ 0).dev.arrived.map fun y => y.2)).isSome = true ∧
      wholeMessage (wPkt (.multicast { wMsg with parts := 2 })) { wMsg with parts := 2 } [wPkt (.multicast { wMsg with parts := 2 })] = none) ∧
    (shut.tileShut 9 r.core = true ∧ back.tileShut 0 r.core = false ∧ ((words[2]?).getD 0).getLsbD 31 = true) ∧
    ((run 0).agentDone (run 0).arrivals = true ∧ (run 0x80).agentDone (run 0x80).arrivals = false) ∧
    (at_ 0).dev.arrived.find? (fun e => e.2 == p) = some (3, p) ∧ ((at_ 0).mcEntry 0).member = false ∧
    (((at_ 0xA0).mcEntry 0).member = true ∧ ((at_ 0xA0).mcEntry 0).valid = true ∧ ((at_ 0xA0).mcEntry 0).key = p.key.toNat ∧ ((at_ 0xA0).mcEntry 0).broken = false) ∧
    ((at_ 0xB0).mcEntry 0).broken = true ∧
    (((0 : Word) - ((at_ 0xA0).mcEntry 0).nextpm).toNat < 2 ^ 31 ∧ ((0x7FFFFFFF : Word) - ((at_ 0xA0).mcEntry 0).nextpm).toNat < 2 ^ 31 ∧
      2 ^ 31 ≤ ((0x80000000 : Word) - ((at_ 0xA0).mcEntry 0).nextpm).toNat) ∧
    (gap.dev.mcGap.at? 0 = some 0 ∧ 0 + 100000 ≤ gap.gtc ∧ (∀ h ∈ gap.dev.mcHeld, h.group = 0 → h.postmark ≠ (gap.mcEntry 0).nextpm) ∧
      minBy? (fun (h : McHeld) => (h.postmark - (gap.mcEntry 0).nextpm).toNat) (gap.dev.mcHeld.filter fun h => h.group == 0) = some h) ∧
    (back.dev.arrived.find? (fun e => e.2 == wPkt (.receipt [0, 0, 0] [])) = some (3, wPkt (.receipt [0, 0, 0] [])) ∧
      back.dev.requests.find? (fun r => r.reqid == 5 && r.bulk == some .mcput) = some r ∧ ((([0, 0, 0] : List Word)[2]?).getD 0).getLsbD 31 = false) ∧
    (State.reset.dev.mcTab + 2 ^ 17 ≤ 0x6000000000 ∧ ∀ e ∈ State.reset.slices, ∀ q ∈ e.2.queue, q.who ≠ reqSteward) := by
  refine ⟨?_, ?_, ?_, ?_, ?_, ?_, ?_, ?_, ?_, ?_, ?_⟩ <;> decide +kernel

/-- With one trained link, a packet leaves through it. -/
theorem leavesByOnePort (t : State) (a : t.trained = [0]) (b : t.coreRegion? 0 = none) (c : t.dev.trihorn.getLsbD 0 = true)
    (d : t.tenantOk 0 (t.dev.portTenant.atD 0 0) = true) : t.leaveStop 0 0 1 = none := by
  have p : t.portTo 0 1 = some 0 := by simp [State.portTo, a, b, Nat.mod_one]
  unfold State.leaveStop
  rw [p]
  show (if (!t.dev.trihorn.getLsbD 0) = true then _ else if t.tenantOk 0 (t.dev.portTenant.atD 0 0) = true then _ else _) = none
  rw [c, if_neg (by decide), if_pos d]

/-- CombiningEvents: an add with combining off, with no partner, with one in the window, and where no record is free; the window's end at and before its tick; a
reply with and without its record; a CFAA before 4 µs, after, and past 50 µs; a query at the owner. -/
theorem witness_CombiningEvents :
    let cons (n : Nat) : List Constituent := [⟨n, 0, 0, n, 1, true⟩]
    let p (n : Nat) : Packet := { wPkt (.combine false (cons n)) with srcDev := n, dstDev := 2, reqid := n }
    let w : Waiting := ⟨[(0, 0, p 0)]⟩
    let e : Nat × Nat × Packet := (1, 0, p 1)
    let x : Switch := { Switch.empty 0 with arrived := [e] }
    let y : Switch := { x with waiting := [w] }
    let rep : Packet := wPkt (.reply 0 0 [3])
    let z : Switch := { Switch.empty 0 with arrived := [(0, 0, rep)], records := [⟨5, false, [(0, p 0, 1, true)]⟩] }
    let r := wReq .cfaa (p 0).body
    let cf (n : Nat) : State := { wDev { Device.reset with requests := [r], trihorn := 1 } with gtc := n }
    let q := wPkt (.query 5)
    let own : State := { wIngress ⟨0, q, 0, 0, none, 0, []⟩ [⟨0, 0, 4096, 0x10007⟩] with dev := { Device.reset with arrived := [(0, q)] } }
    (x.nextAdd 1 (p 1) = some e ∧ ({ x with cen := false } : Switch).cen = false ∧ x.cen = true ∧ x.partner 0 (p 1) = none ∧ (cons 1).length < 64 ∧
      x.partner 0 { p 1 with body := .combine false ((List.range 64).flatMap cons) } = none ∧ 64 ≤ ((List.range 64).flatMap cons).length) ∧
    (y.partner 0 (p 1) = some 0 ∧ y.waiting[0]? = some w ∧ y.recordsUsed < 8192 ∧ (w.join e).full = false) ∧
    ((w.join e).needsRecord = true ∧ w.needsRecord = false ∧ 8192 ≤ ({ y with records := List.replicate 8192 ⟨5, false, []⟩ } : Switch).recordsUsed) ∧
    (w.oldest + y.cwin.toNat ≤ 32 ∧ 31 < w.oldest + y.cwin.toNat) ∧
    (z.arrived.find? (fun e => e.2.2 == rep) = some (0, 0, rep) ∧ (z.records.find? (fun r => r.reqid == rep.reqid)).isSome = true ∧
      ∀ r ∈ ({ z with records := [] } : Switch).records, r.reqid ≠ rep.reqid) ∧ 0 < z.records.length ∧
    ((cf 0).dev.requests.find? (fun r => r.reqid == 5 && r.done.isNone) = some r ∧ r.kind = .cfaa) ∧
    ((cf 3996).gtcAt 0 < r.lastAsk + 4000 ∧ r.lastAsk + 4000 ≤ (cf 4000).gtcAt 0 ∧ (cf 4000).gtcAt 0 < r.left + 50000 ∧
      r.left + 50000 ≤ (cf 50000).gtcAt 0 ∧ (cf 4000).leaveStop 0 0 1 = none) ∧
    (own.dev.arrived.find? (fun e => e.2 == q) = some (0, q) ∧ own.ownerDie 0 q = some 0) := by
  refine ⟨?_, ?_, ?_, ?_, ?_, ?_, ?_, ⟨?_, ?_, ?_, ?_, ?_⟩, ?_⟩
  · decide +kernel
  · decide +kernel
  · decide +kernel
  · decide +kernel
  · decide +kernel
  · decide +kernel
  · decide +kernel
  · show 3996 + Config.gtcSkew 0 % 4 < 4000; omega
  · show 4000 ≤ 4000 + Config.gtcSkew 0 % 4; omega
  · show 4000 + Config.gtcSkew 0 % 4 < 50000; omega
  · show 50000 ≤ 50000 + Config.gtcSkew 0 % 4; omega
  · exact leavesByOnePort _ (by decide +kernel) (by decide +kernel) (by decide +kernel) (by decide +kernel)
  · exact ⟨rfl, by decide +kernel⟩

/-! ### Events of the package, of configuration and of regions -/

/-- The words of a well-formed LAUNCH token. -/
def wLaunchToken (opc : DWord) : List DWord := [opc, 0x10000, 7, if opc = 2 then 1 else 0, 0, 0, 0, 0]

/-- PackageEvents, refusals and ends: a token before READY, one that is malformed, and one that finds the queue full; a device in RECOVERY, and one
with a region; a quote whose lines are written and one whose line waits for its permits, at first and again; a device that has been cool for
1 ms, one too warm, and one whose regulator asks. -/
theorem witness_PackageRefusals :
    let d := Device.reset
    let bs : List Byte := (wLaunchToken 3).flatMap fun w => natLe 8 w.toNat
    let full : Device := { d with stage := .ready, launchq := List.replicate 64 (wLaunchToken 1) }
    let held : State := { wDev { d with stage := .ready, attBusy := true, attWritten := some 1 } with
      slices := [(128, { Slice.empty with queue := [⟨reqSteward, 0, 0, .agent 0 [(0, 1)]⟩] })] }
    let cool (d : Device) : Prop := d.regulator = false ∧ (∀ t ∈ d.temps, t.2.toInt ≤ 105 * 16) ∧ d.coolSince + 1000000 ≤ 1000000
    ((wDev d).dev.stage ≠ .ready ∧ full.stage = .ready ∧ full.restart = none ∧ ¬ full.launchq.length < 64 ∧ bs.length = 64 ∧
      tokenOk ((List.range 8).map fun k => w64 (leNat ((bs.drop (8 * k)).take 8))) = false) ∧
    ((wDev { d with stage := .recovery }).dev.stage = .recovery ∧ (wDev d).dev.regions = [] ∧ (wDev { d with regions := [wRegion 0] }).dev.regions ≠ []) ∧
    (held.dev.attBusy = true ∧ held.dev.stage ≠ .recovery ∧ held.dev.attWritten = some 1 ∧ held.agentDone 1 = false ∧ (wDev d).agentDone 1 = true) ∧
    (cool d ∧ ¬ cool { d with temps := [(0, 1681)] } ∧ ¬ cool { d with regulator := true } ∧ ¬ cool { d with coolSince := 1 }) := by
  refine ⟨?_, ?_, ?_, ?_⟩ <;> decide +kernel

/-- PackageEvents: a well-formed token in READY with room, at the first and the last port; the attestation unit idle and busy; a core of a
region; POOLREG_CLR of a region behind a trained and an untrained link; the lowest and highest host write, with no access at a slice;
throttling on and off, with a
part at its limit; every state of bring-up. -/
theorem witness_PackageEvents :
    let d := Device.reset
    let at_ (st : DevStage) : State := wDev { d with stage := st }
    let bs : List Byte := (wLaunchToken 1).flatMap fun w => natLe 8 w.toNat
    (0 < 64 ∧ 63 < 64 ∧ bs.length = 64 ∧ (at_ .ready).dev.stage = .ready ∧ (at_ .ready).dev.launchq.length < 64 ∧
      tokenOk ((List.range 8).map fun k => w64 (leNat ((bs.drop (8 * k)).take 8))) = true) ∧ (0 < 1 ∧ 63 < 64) ∧
    ((at_ .ready).dev.stage ≠ .recovery ∧ (at_ .ready).dev.attBusy = false ∧ ({ d with attBusy := true } : Device).attBusy = true) ∧
    (0x52455344 : Word) ≠ 0x52455345 ∧ (inRegion (wRegion 0) wCore).coreRegion? 0 = some (wRegion 0) ∧
    ((0x80000005 : DWord).getLsbD 31 = true ∧ ({ d with onolo := 2 } : Device).onolo.getLsbD ((0x80000005 : DWord).toNat % 2 ^ 16 % 4) = true ∧
      (5 : DWord).getLsbD 31 = false ∧ d.onolo.getLsbD 1 = false) ∧
    (([1] : List Byte) ≠ [] ∧ 0 + ([1] : List Byte).length ≤ 0x6000000000 ∧ 0x5FFFFFFFFF + ([1] : List Byte).length ≤ 0x6000000000 ∧
      NoneWaits State.reset ∧ 0x5FFFFFFFFF < 0x6000000000 ∧ State.reset.slices = [] ∧ State.reset.recalls = []) ∧
    (d.throttle = false ∧ ({ d with throttle := true } : Device).throttle = true ∧ ∀ t ∈ ({ d with temps := [(0, 1680)] } : Device).temps, t.2.toInt ≤ 105 * 16) ∧
    ((at_ .rom).dev.stage = .rom ∧ (at_ .rom).dev.regions = [] ∧ (at_ .firmware).dev.stage = .firmware ∧ (at_ .records).dev.stage = .records ∧
      (at_ .clocks).dev.stage = .clocks ∧ (at_ .memory).dev.stage = .memory ∧ (wDev { d with stage := .links, incExchanged := true }).dev.incExchanged = true ∧
      (at_ .recovery).dev.stage = .recovery) := by
  refine ⟨?_, ?_, ?_, ?_, ?_, ?_, ⟨?_, ?_, ?_, (fun _ h => nomatch h), ?_, rfl, rfl⟩, ?_, ?_⟩ <;> decide +kernel

/-- ConfigurationStreamEvents: one command of each kind at a tile whose stream stands as the clause says; a loose region and another. -/
theorem witness_ConfigurationStreamEvents :
    let kinds := [(0, CmdKind.begin_), (2, .crcLast), (8, .commit), (9, .rollback), (10, .arm), (3, .fieldWrite)]
    let c (st : StreamState) (w : Word) : Core := { Core.empty with stream := { CfgStream.none with state := st, cmds := [w] } }
    (∀ k ∈ kinds, ∃ w : Word, cmdKind w = k.2 ∧ cmdVal w = 1 ∧ (c .committed w).stream.cmds = [w]) ∧
    (c .open_ 0).stream.state = .open_ ∧ (c .accepted 0).stream.state = .accepted ∧ (c .rejectedCrc 0).stream.state ≠ .accepted ∧
    ((c .armed 0).stream.state = .armed ∧ (c .none 0).stream.state = .none) ∧
    (({ wRegion 0 with num := looseBase } : Region).loose = true ∧ (wRegion 0).loose = false ∧ wCore.region = none) ∧
    ((c .committed 0).stream.state ≠ .armed ∧ (c .committed 0).stream.state ≠ .none ∧ (c .committed 0).stream.state = .committed) ∧
    (inRegion (wRegion 0) wCore).armBarred 0 = true ∧ (lab wCore).armBarred 0 = false := by
  refine ⟨?_, rfl, rfl, by decide, ⟨rfl, rfl⟩, by decide, ⟨by decide, by decide, rfl⟩, by decide +kernel, by decide +kernel⟩
  have h (fld : Nat) (k : CmdKind) (h1 : cmdKind (BitVec.ofNat 32 (cfgControl * 2 ^ 22 + fld * 2 ^ 16 + 1)) = k)
      (h2 : cmdVal (BitVec.ofNat 32 (cfgControl * 2 ^ 22 + fld * 2 ^ 16 + 1)) = 1) :
      ∃ w : Word, cmdKind w = k ∧ cmdVal w = 1 ∧ [w] = [w] := ⟨_, h1, h2, rfl⟩
  intro k hk
  simp only [List.mem_cons, List.not_mem_nil, or_false] at hk
  rcases hk with rfl | rfl | rfl | rfl | rfl | rfl
  · exact h 0 _ (by decide +kernel) (by decide +kernel)
  · exact h 2 _ (by decide +kernel) (by decide +kernel)
  · exact h 8 _ (by decide +kernel) (by decide +kernel)
  · exact h 9 _ (by decide +kernel) (by decide +kernel)
  · exact h 10 _ (by decide +kernel) (by decide +kernel)
  · exact h 3 _ (by decide +kernel) (by decide +kernel)

/-- LaunchAndRegionEvents: a free steward tile and one with a region; a device that restarts and one that does not; tokens of each kind at the head of the queue; a region that waits for a swap, a first sweep of idle cores, one a
tick too late, one that follows in time, and one of busy cores; a complete, an aborted and a halted region; a rate window at its end and before; a reserve with room. -/
theorem witness_LaunchAndRegionEvents :
    let q (opc : DWord) : State := wDev { Device.reset with launchq := [wLaunchToken opc], regions := [wRegion 0] }
    let r : Region := { wRegion 0 with quiescent := true, sweep := some ⟨0, (0, 0), true⟩ }
    let p : Plan := ⟨0, 0, 0, 1, 0, 0, 0, 0, 0, 0, [], [], 0, 0, 0, 0, 0, 0, 0, 0, 0, 0, 0, 0, false, [], [], []⟩
    let at_ (n : Nat) (r : Region) : State := { inRegion r Core.empty with gtc := n }
    let swept (e : Option Ending) : Region := { wRegion 0 with sweep := some ⟨1024, (0, 0), true⟩, ending := e }
    let c : Core := { Core.empty with cfg := { CoreCfg.none with rlWindow := 1 } }
    ((q 1).dev.stewardq = [] ∧ (q 1).stewardFree none = true ∧ (wDev { Device.reset with stewardq := [p] }).dev.stewardq = p :: [] ∧
      ({ lab Core.empty with cores := [(stewardCore, { Core.empty with region := some 1 })] } : State).stewardFree none = false) ∧
    (({ Device.reset with restart := some 2 } : Device).restart = some 2 ∧ Device.reset.restart = none) ∧
    (∃ v, (q 1).launchHead = some (1, 0x10000, 7, 0, v)) ∧
    (∃ v, (q 2).launchHead = some (2, 0x10000, 7, (wRegion 0).num, v) ∧ (q 2).region? 1 = some (wRegion 0) ∧ (wRegion 0).ending = none ∧
      (wRegion 0).reconfig = none) ∧
    ((at_ 0 { r with reconfig := some p }).region? 1 = some { r with reconfig := some p } ∧
      (at_ 0 { r with reconfig := some p }).quietNow { r with reconfig := some p } = true ∧ r.ending = none) ∧
    ((wRegion 0).armedAt < 1024 ∧ (1024 - (wRegion 0).armedAt) % 1024 = 0 ∧ (at_ 1024 (wRegion 0)).tokenTotals (wRegion 0) = (0, 0) ∧
      (∀ ci ∈ (wRegion 0).cores, (at_ 1024 (wRegion 0)).coreIdle (wRegion 0).ending.isSome ci = true) ∧ (wRegion 0).sweep = none ∧ 1024 + 1024 ≠ 3072) ∧
    ((swept none).sweep = some ⟨1024, (0, 0), true⟩ ∧ 1024 + 1024 = (at_ 2048 (swept none)).gtc ∧
      (∀ ci ∈ (swept none).cores, ((at_ 2048 (swept none)).core ci).barrierHold = false) ∧
      (at_ 2048 (swept none)).tokenTotals (swept none) = (0, 0) ∧ (swept (some .aborted)).ending ≠ none) ∧
    (∃ ci ∈ (wRegion 0).cores, (inRegion (wRegion 0) wCore).coreIdle (wRegion 0).ending.isSome ci = false) ∧ ((at_ 0 r).quietNow r = true ∧ r.sinksDone = true) ∧
    ((at_ 0 { r with ending := some .aborted }).quietNow { r with ending := some .aborted } = true ∧
      (at_ 0 { r with ending := some (.halted 1) }).quietNow { r with ending := some (.halted 1) } = true) ∧
    (c.rlStart + c.cfg.rlWindow * 64 ≤ 64 ∧ 63 < c.rlStart + c.cfg.rlWindow * 64) ∧
    ((at_ 0 r).coreRegion? 0 = some r ∧ ((at_ 0 r).core 0).reserve.length < 16) := by
  refine ⟨?_, ?_, ⟨_, rfl⟩, ⟨_, rfl, rfl, rfl, rfl⟩, ?_, ?_, ?_, ?_, ?_, ?_, ?_, ?_⟩ <;> decide +kernel

/-- PreemptionAndClolasEvents: a core of a region that is being saved, not told yet, with a group at and before 20 µs, and ready to write its
section with the region's other core saved or not; requests for a save, with a good area, with a line in error and with none, of a region that ends, for an unknown region and for a restore; jobs of the Clolas engine. -/
theorem witness_PreemptionAndClolasEvents :
    let r : Region := { wRegion 0 with ending := some (.saving 0x10000), quiescent := true, sweep := some ⟨0, (0, 0), true⟩ }
    let s (c : Core) := inRegion r c
    let quenched (n : Nat) : State := { s { wCore with quenched := some 0 } with gtc := n }
    let ready : Core := { Core.empty with quenched := some 0, markers := (s Core.empty).inPorts r 0 }
    let v (b : Bool) : State := { s ready with cores := [(0, { ready with region := some 1, saved := true }), (1, { Core.empty with region := some 1, saved := b })] }
    let j (restore : Bool) (arg : Nat) : PreemptJob := ⟨1024, 0, 0, [], restore, arg, 0x10000, false⟩
    let d (j : PreemptJob) := wDev { Device.reset with preempts := [j], regions := [wRegion 0] }
    let jobs : List ClolasJob := [.sigchk 0 0 0 [] 0 0 0 0, .keyset 0 0 0 [] 4 0]
    ((s Core.empty).coreRegion? 0 = some r ∧ r.ending = some (.saving 0x10000) ∧ ((s Core.empty).core 0).quenched = none) ∧
    (((quenched 0).core 0).quenched = some 0 ∧ ((quenched 0).core 0).group? 0 = some wGroup ∧ wGroup.commit = none) ∧
    (0 + 20000 ≤ (quenched 20000).gtcAt (dieOf 0) ∧ (quenched 19996).gtcAt (dieOf 0) < 0 + 20000) ∧
    (((s ready).core 0).quenched ≠ none ∧ (∀ p ∈ (s ready).inPorts r 0, p ∈ ((s ready).core 0).markers) ∧ (s ready).inPorts r 0 ≠ [] ∧
      ((s ready).core 0).saved = false ∧ (s ready).quietNow r = true ∧
      ∀ k ∈ r.cores, ((s ready).core k).inbox = []) ∧
    ((∀ k ∈ r.cores, ((v true).core k).saved = true) ∧ ∃ k ∈ r.cores, ((v false).core k).saved = false) ∧
    ((d (j true 0)).dev.preempts[0]? = some (j true 0) ∧ (d (j false 2)).region? (j false 2).arg = none) ∧
    ((d (j false 1)).region? (j false 1).arg = some (wRegion 0) ∧ (wRegion 0).ending = none ∧ ((d (j false 1)).core 1024).region ≠ some (wRegion 0).num ∧
      (∃ bid, ({ r with ending := some (.halted 1) } : Region).ending = some (.halted bid)) ∧
      ((d (j false 1)).badRange 0x10000 (saveLen 2) = false ∧ (d (j false 1)).badRange 0 640 = false ∧
        ({ d (j false 1) with memErr := [512] } : State).badRange 0x10000 (saveLen 2) = true) ∧
      saveAreaOk (j false 1).pa (wRegion 0).cores.length = true ∧ saveAreaOk 1 (wRegion 0).cores.length = false ∧ r.ending ≠ none) ∧
    (jobs[0]? = some (.sigchk 0 0 0 [] 0 0 0 0) ∧ jobs[1]? = some (.keyset 0 0 0 [] 4 0)) := by
  refine ⟨?_, ?_, ⟨?_, ?_⟩, ?_, ?_, ?_, ?_, ?_⟩
  · decide +kernel
  · decide +kernel
  · show 0 + 20000 ≤ 20000 + Config.gtcSkew 0 % 4; omega
  · show 19996 + Config.gtcSkew 0 % 4 < 0 + 20000; omega
  · decide +kernel
  · decide +kernel
  · decide +kernel
  · refine ⟨?_, ?_, ?_, ⟨1, rfl⟩, ?_, ?_, ?_, ?_⟩ <;> decide +kernel
  · decide +kernel

/-! ### The machine as a whole -/

/-- AStepRunsTheDecodedWord: a word that decodes, one that is rejected, one that an operation holds and one that the group passes; turns of
an event, of a gated core, and of a running core with a ready group and without. -/
theorem witness_AStepRunsTheDecodedWord :
    let s (w : DWord) := lab (wBody w)
    let g : Group := wGroup
    let held : Group := { g with ops := [{ LongOp.plain 0 none 0 .result with ready := false, dst := .v 1, size := 1 }] }
    let t : State := { State.reset with schedule := [⟨1, 1, 0, .event .throttleAssert⟩, ⟨0, 0, 0, .issue 0⟩] }
    let turn (c : Core) : State := { lab c with schedule := [⟨0, 0, 0, .issue 0⟩] }
    (Issuing (s 0x1300301FFFBF0900) g ∧ g.canTry ((s 0x1300301FFFBF0900).core 0) = true ∧ (s 0).schedule = [] ∧ g.passWord ≠ some g.pc ∧
      g.interlocked (Fields.ofNat (fetchWord (wBody 0x1300301FFFBF0900) g).toNat) = false ∧
      decode (hdrRegd ((wBody 0x1300301FFFBF0900).slotHdr g)) (fetchWord (wBody 0x1300301FFFBF0900) g) = .error (.operand 3)) ∧
    (decode (hdrRegd ((wBody 0x0100000000070000).slotHdr g)) (fetchWord (wBody 0x0100000000070000) g) = .ok .nop) ∧
    (held.interlocked (Fields.ofNat 0x1300301FFFBF0900) = true) ∧ ({ g with passWord := some 0 } : Group).passWord = some g.pc ∧
    (t.schedule = ⟨1, 1, 0, .event .throttleAssert⟩ :: [⟨0, 0, 0, .issue 0⟩] ∧ Instr.throttleAssert.fields = none) ∧
    ((⟨1, 1, 0, .temperature 3 1680⟩ : Turn).actor = .temperature 3 1680 ∧ (⟨1, 1, 0, .power 2450⟩ : Turn).actor = .power 2450 ∧
      (⟨1, 1, 0, .regulator true⟩ : Turn).actor = .regulator true) ∧
    (((turn { wBody 0x0100000000070000 with gate := .gated }).core 0).gate = .gated ∧
      (∃ e ∈ (wBody 0x0100000000070000).groups, (readyResult exec (turn { wBody 0x0100000000070000 with gate := .gated }) 0 e.1).isSome = true) ∧
      (∀ e ∈ ((turn { Core.empty with gate := .gated }).core 0).groups, readyResult exec (turn { Core.empty with gate := .gated }) 0 e.1 = none) ∧
      ((turn { Core.empty with gate := .restarting 72 }).core 0).gate = .restarting 72) ∧
    (((turn (wBody 0x0100000000070000)).core 0).gate = .running none ∧
      (((turn (wBody 0x0100000000070000)).core 0).groups.filter fun e => (readyResult exec (lab (wBody 0x0100000000070000)) 0 e.1).isSome) ≠ []) := by
  refine ⟨⟨rfl, ?_, rfl, ?_, ?_, rfl⟩, rfl, ?_, rfl, ⟨rfl, rfl⟩, ⟨rfl, rfl, rfl⟩, ⟨rfl, ⟨(0, wGroup), ?_, ?_⟩, ?_, rfl⟩, rfl, ?_⟩
  · decide +kernel
  · decide +kernel
  · decide +kernel
  · decide +kernel
  · exact List.mem_cons_self ..
  · decide +kernel
  · intro e h; cases h
  · decide +kernel

/-- AStepRunsTheDecodedWord, the payload store: a NOP puts nothing into it; a SEND of 16 words that finds it and the area full. -/
theorem witness_AStepRunsTheDecodedWord_payload :
    let t16 : Token := { kind := .normal, blk := 0, slot := 0, colour := 0, wlog := 0, rscope := .grp, tag := 0, payload := List.replicate 16 0 }
    let g : Group := { wGroup with sendq := List.replicate 128 (.token t16) }
    let s : State := lab { wCore with groups := [(0, g)] }
    let full (o : Out) : Bool := match o with
      | .next t => t.payloadFull 0 0 g
      | _ => false
    full (exec (.send { wF2 with plen := 15 }) s) = true ∧ full (exec .nop s) = false := by
  decide +kernel

/-- DecodeOfEncodeIsTheInstruction, EncodeOfDecodeIsTheWord: NOP under the lowest and the highest register demand, and an ADD. -/
theorem witness_DecodeAndEncode :
    Instr.nop.wellFormed = true ∧ (∃ fs w, Instr.nop.fields = some fs ∧ fs.check 0 = none ∧ fs.check 128 = none ∧ encode .nop = some w ∧
      decode 0 w = .ok .nop) ∧ (128 ≤ 128 ∧ decode 128 0x1300301FFFBF0900 = .ok (.add ⟨0, .v 3, .v 1, .zero, .imm 0xFB, .always, .s32, 1, 0⟩)) :=
  ⟨rfl, ⟨_, _, rfl, by decide +kernel, by decide +kernel, rfl, rfl⟩, by decide, rfl⟩

/-- EveryStepKeepsMemoryCanonical: reset, whose step goes on, and a state whose memory lists bytes. -/
theorem witness_EveryStepKeepsMemoryCanonical :
    (memoryCanonical State.reset ∧ step State.reset = .next State.reset) ∧ memoryCanonical wPeer ∧ ¬ memoryCanonical { State.reset with mem := [(1, 0)] } :=
  ⟨⟨by unfold memoryCanonical; decide, rfl⟩, by unfold memoryCanonical; decide +kernel, by unfold memoryCanonical; decide +kernel⟩

/-- BlockFaultParksTheCollection: the handler of the region enabled, with the fault in another block than the handler and the park
free and full, in the handler block itself, and disabled. -/
theorem witness_BlockFaultParksTheCollection :
    let s (f : Word) := inRegion (wRegion f) wCore
    (((s 0x80000005).core 0).group? 0 = some wGroup ∧ (s 0x80000005).coreRegion? 0 = some (wRegion 0x80000005) ∧
      (wRegion 0x80000005).asid = ((s 0x80000005).core 0).cfg.asid) ∧
    ((wRegion 0x80000005).flth.getLsbD 31 = true ∧ wGroup.bid ≠ field (wRegion 0x80000005).flth.toNat 0 12 ∧ ((s 0x80000005).core 0).park.length < 64 ∧
      64 ≤ ({ wCore with park := List.replicate 64 wPark } : Core).park.length) ∧
    ((wRegion 0x80000000).flth.getLsbD 31 = true ∧ wGroup.bid = field (wRegion 0x80000000).flth.toNat 0 12 ∧
      (s 0x80000000).coreRegion? 0 = some (wRegion 0x80000000) ∧ ((s 0x80000000).core 0).group? 0 = some wGroup ∧ (s 0).guardStop 0 0 = none) ∧
    (((s 0).core 0).group? 0 = some wGroup ∧ (s 0).coreRegion? 0 = some (wRegion 0) ∧ (wRegion 0).asid = ((s 0).core 0).cfg.asid ∧
      (wRegion 0).flth.getLsbD 31 = false) := by
  refine ⟨?_, ?_, ?_, ?_⟩ <;> decide +kernel

/-- ResumeFiresTheParkedCollection: a parked collection with a free slot, and with all 64 group slots taken. -/
theorem witness_ResumeFiresTheParkedCollection :
    let c : Core := { Core.empty with park := [wPark] }
    let full : Core := { c with groups := (List.range 64).map fun i => (i, wGroup) }
    (c.park.find? (fun p => p.fid == 5) = some wPark ∧ wPark.refill = none ∧ c.freeGroup? = some 0 ∧ c.teamFor? wPark.colour = some 0 ∧
      c.regsUsed + regsTaken (hdrRegd (c.slot wPark.bslot).hdr) ≤ 65536) ∧ full.freeGroup? = none ∧ wPark.insts = [0] := by
  refine ⟨?_, ?_, rfl⟩ <;> decide +kernel

/-- SoftErrorsAreHandledByPlace: a turn; a group that has used a line, one that committed, one that stands before a word with i0 and no earlier
fault to come, with a bad line that the word reads and one that it does not; a region. -/
theorem witness_SoftErrorsAreHandledByPlace :
    let g : Group := { wGroup with l1used := [3] }
    let c : Core := { (wBody 0x13003C0FFFBF0900) with groups := [(0, g)], entries := [(0, wEntry (.inGroup 0))] }
    let s : State := { lab c with schedule := [⟨1, 1, 0, .softError (.register 0 0)⟩] }
    s.schedule = ⟨1, 1, 0, .softError (.register 0 0)⟩ :: [] ∧ (s.core 0).group? 0 = some g ∧ g.commit = none ∧ 3 ∈ g.l1used ∧
    ({ g with commit := some 1 } : Group).commit ≠ none ∧ (inRegion (wRegion 0) wCore).coreRegion? 0 = some (wRegion 0) ∧
    leader? (frameReaders s (s.core 0) g (0 / 128)) = some 0 ∧ frameReaders s (s.core 0) g (256 / 128) = 0 ∧ g.canTry (s.core 0) = true ∧
    g.interlocked (Fields.ofNat (fetchWord (s.core 0) g).toNat) = false ∧ offsetFault s (s.core 0) g (fetchInstr (s.core 0) g) = none ∧
    g.mayFault (s.core 0).nextNum = false := by
  refine ⟨rfl, rfl, rfl, ?_, ?_, ?_, ?_, ?_, ?_, ?_, ?_, ?_⟩ <;> decide +kernel

/-! ### Results that arrive after issue, and the fault record area -/

/-- An operation of group slot 0 that is not ready. -/
def wWaits (k : OpKind) (accs : List Access) : LongOp :=
  { LongOp.plain 0 (some 1) 0 k with ready := false, dst := .v 1, size := 4, accs := accs }
def wAcc (addr cache : Nat) : Access := { lane := 0, addr := addr, size := 4, cache := cache, pol := 0, va := 0, got := none }
def wOpCore (o : LongOp) : Core := { wLocal with groups := [(0, { wGroup with ops := [o] })] }

/-- MatrixOperationsArePerformed: an ACCZ, alone at the head of the queue, with free lines and room for its images; a fragment of two words; a NaN
product, both infinities, and zero products alone. -/
theorem witness_MatrixOperationsArePerformed :
    let o := wWaits .matrix []
    let m := MatOp.plain 0 0 .accz 0 0
    let c : Core := { wOpCore o with matq := [m] }
    let g : Group := { wGroup with ops := [o] }
    (Running c 0 0 g o ∧ Performable c 0 g o m []) ∧
    (([(0, 0, 5), (0, 1, 6)] : List (Nat × Nat × Word)).map fun e => (e.1, e.2.1)).Nodup ∧
    ((Prod.nan 1 ∈ [Prod.nan 1] ∧ (Prod.nan 1).isZero = false) ∧ (Prod.inf true ∈ [Prod.inf true, .inf false] ∧ Prod.inf false ∈ [Prod.inf true, .inf false])) ∧
    ∀ p ∈ ([] : List Elem).zipWith elemProd [], p.isZero = true := by
  refine ⟨⟨?_, ?_⟩, ?_, ?_, ?_⟩
  · unfold Running; decide +kernel
  · unfold Performable; decide +kernel
  all_goals decide +kernel

/-- LoadsDeliverAndAtomicsCompute, operations: a buffer load and an ATOMA whose lines are free, and a load of a word that no cache serves and of one
that the L1 holds live. -/
theorem witness_OperationsDeliver :
    let o (k : OpKind) (a : Access) := wWaits k [a]
    let g (o : LongOp) : Group := { wGroup with ops := [o] }
    let l : L1Line := { line := 512, exp := 1000, ver := 0, data := [] }
    let at_ (k : OpKind) (a : Access) : Prop := Running (wOpCore (o k a)) 0 0 (g (o k a)) (o k a) ∧ LanesApart (o k a) 1
    (at_ (.bufLoad .a) (wAcc 0 0) ∧ Free (wOpCore (o (.bufLoad .a) (wAcc 0 0))) 0 (g (o (.bufLoad .a) (wAcc 0 0))) 0 .a [0] false) ∧
    (at_ (.atoma 0 [(1, 0)]) (wAcc 0 0) ∧ Free (wOpCore (o (.atoma 0 [(1, 0)]) (wAcc 0 0))) 0 (g (o (.atoma 0 [(1, 0)]) (wAcc 0 0))) 0 .a [0] true ∧
      ((wOpCore (o (.atoma 0 [(1, 0)]) (wAcc 0 0))).takeImages wGroup .a [0]).sbOver = false) ∧
    (at_ (.load false false 0) (wAcc 65536 2) ∧ (wOpCore (o (.load false false 0) (wAcc 65536 2))).pending 512 = false ∧
      (wOpCore (o (.load false false 0) (wAcc 65536 2))).readFirst 0 0 512 = false) ∧
    (at_ (.load false false 0) (wAcc 65536 0) ∧
      ({ wOpCore (o (.load false false 0) (wAcc 65536 0)) with l1 := [l] } : Core).l1Find (State.reset.gtcAt 0) 512 = .live l) := by
  refine ⟨⟨⟨?_, ?_⟩, ?_⟩, ⟨⟨?_, ?_⟩, ?_, ?_⟩, ⟨⟨?_, ?_⟩, ?_⟩, ⟨?_, ?_⟩, ?_⟩
  all_goals first
    | (unfold Running; decide +kernel)
    | (refine ⟨?_, ?_, fun q h => nomatch h⟩ <;> decide +kernel)
    | (unfold Free; decide +kernel)
    | decide +kernel
    | (show (if 0 + Config.gtcSkew 0 % 4 + 8 ≤ 1000 then _ else _) = _; rw [if_pos (by omega)])

/-- LoadsDeliverAndAtomicsCompute, slices: a load that waits for its line, in a zone whose halves do not matter, and in host memory with its half
asked for; an atomic of a line in canonical addresses, with bytes stored before it, and a return. -/
theorem witness_SlicesDeliver :
    let o := wWaits (.load false false 0) [wAcc 65536 0]
    let s := lab (wOpCore o)
    let op : AtomOp := ⟨65536, 0, 1, 0, 0, some (3, 2)⟩
    let l : SbLine := { wUpd [op] with bytes := [(0, 1), (127, 2)] }
    ((s.core 0).opOwner 0 = some (0, { wGroup with ops := [o] }, o) ∧ (s.core 0).group? 0 = some { wGroup with ops := [o] } ∧
      65536 / 128 = 512 ∧ (wAcc 65536 0).got = none ∧ 65536 % 128 + 4 ≤ 128 ∧ lineZone 512 ≠ .host ∧ 1 / 2 ^ (0 / 64) % 2 = 1) ∧
    ((∀ o ∈ l.ops, o.addr / 128 = l.line ∧ o.addr % 128 + atomBytes o.fn.toNat ≤ 128) ∧ canonPA (l.line * 128) = l.line * 128 ∧
      (l.bytes.map Prod.fst).Pairwise (· < ·) ∧ ∀ e ∈ l.bytes, e.1 < 128) ∧ op.ret = some (3, 2) := by
  refine ⟨?_, ?_, rfl⟩ <;> decide +kernel

/-- FaultRecordsReachTheArea: an area of one slot at FLOG 0, empty and full, with no write lined up; a region with a handler that no guard keeps
from its token, and one without. -/
theorem witness_FaultRecordsReachTheArea :
    let s (m : NMap Byte) (flth : Word) : State := { inRegion (wRegion flth) wCore with mem := m }
    let a := s [(7, 0x80)] 0x80000001
    let b := s [(7, 0x80), (8, 1)] 0
    (a.ctxValid 0 = true ∧ a.flog 0 = 0 ∧ slotsAt a 0 = 1 ∧ (wrAt a 0 + 2 ^ 32 - rdAt a 0) % 2 ^ 32 ≠ 1) ∧
    (b.ctxValid 0 = true ∧ b.flog 0 = 0 ∧ slotsAt b 0 = 1 ∧ (wrAt b 0 + 2 ^ 32 - rdAt b 0) % 2 ^ 32 = 1) ∧
    NoUnitWrites a ∧ (∀ i j, i < 64 → j < 64 → canonPA (0 + i) ≠ canonPA (0 + 64 + 64 * (0 % 1) + j)) ∧
    (field (wRegion 0x80000001).flth.toNat 31 1 = 1 ∧ a.homeCore (wRegion 0x80000001) 0 1 0 = some 0 ∧ a.handlerStop (wRegion 0x80000001) (some 0) 0 = none ∧
      field (wRegion 0).flth.toNat 31 1 = 0 ∧ (wRegion 0).fid < 2 ^ 32) := by
  refine ⟨?_, ?_, ?_, ?_, ?_⟩
  · decide +kernel
  · decide +kernel
  · intro e h; cases h
  · have id_ : ∀ n, n < 128 → canonPA n = n := fun n h => if_neg (by omega)
    intro i j hi hj
    rw [id_ _ (by omega), id_ _ (by omega)]; omega
  · decide +kernel

/-- R394: what a save area keeps of a matching entry and of a token reads back. -/
theorem test_savedEntryReadsBack :
    let e : SavedEntry := ⟨⟨5, 3, 7, 1, [], 9, 256, 2, .complete, 0, 40⟩, 0, 0, false⟩
    let r := readEntry (e.bits 10) 0 id
    (r.entry.bid = 5 ∧ r.entry.colour = 3 ∧ r.entry.tag = 7 ∧ r.entry.frame = 256 ∧ r.entry.lines = 2 ∧ r.entry.phase = .complete ∧ r.entry.deadline = 30 ∧
      r.entry.latest = 9 ∧ r.handed = false) ∧ readToken (tokenBytes wToken 0) = wToken := by
  decide +kernel

end Sys2Proof.Tests
end

section
/-! Rules of the shared operations: what the writes of device units, a fault record, an abort and a region's end leave unchanged. -/

namespace Sys2Proof.Machine

open Sys2Proof.Claims

/-! ## Accessors of the state -/

theorem State.core_of_cores {s t : State} (h : t.cores = s.cores) (ci : Nat) : t.core ci = s.core ci := by
  unfold State.core; rw [h]

theorem State.region?_of_dev {s t : State} (h : t.dev = s.dev) (num : Nat) : t.region? num = s.region? num := by
  unfold State.region?; rw [h]

theorem State.coreRegion?_of {s t : State} {ci : Nat} (hr : (t.core ci).region = (s.core ci).region) (hd : t.dev = s.dev) :
    t.coreRegion? ci = s.coreRegion? ci := by
  unfold State.coreRegion?; rw [hr, funext (State.region?_of_dev hd)]

theorem State.gtcAt_of_gtc {s t : State} (h : t.gtc = s.gtc) (die : Nat) : t.gtcAt die = s.gtcAt die := by
  unfold State.gtcAt; rw [h]

/-- A core's region is the one that it names. -/
theorem State.coreRegion?_eq_some {s : State} {ci : Nat} {r : Region} (h : s.coreRegion? ci = some r) :
    (s.core ci).region = some r.num ∧ s.region? r.num = some r := by
  unfold State.coreRegion? at h
  obtain ⟨n, hn, hr⟩ := Option.bind_eq_some_iff.mp h
  have : r.num = n := by simpa using List.find?_some hr
  subst this
  exact ⟨hn, hr⟩

theorem State.region?_num {s : State} {num : Nat} {r : Region} (h : s.region? num = some r) : r.num = num := by
  simpa using List.find?_some h

/-- A region that is written reads as written. -/
theorem State.region?_setRegion_same (s : State) (r : Region) : 
    (s.setRegion r).region? r.num = (s.region? r.num).map fun _ => r := by
  unfold State.region? State.setRegion State.setDev replaceIf
  have test : ((fun x : Region => x.num == r.num) ∘ fun x => if x.num == r.num then r else x) = fun x => x.num == r.num := by
    funext x
    by_cases hx : x.num = r.num <;> simp [hx]
  simp only [List.find?_map, test]
  cases h : List.find? (fun x => x.num == r.num) s.dev.regions with
  | none => rfl
  | some x =>
    have hx : x.num = r.num := by simpa using List.find?_some h
    simp [hx]

theorem NMap.at?_mem {α : Type} {m : NMap α} {k : Nat} {v : α} (h : m.at? k = some v) : (k, v) ∈ m := by
  induction m with
  | nil => cases h
  | cons e m ih =>
    obtain ⟨j, w⟩ := e
    unfold NMap.at? at h
    split at h
    · next hj => cases h; subst hj; exact List.mem_cons_self
    · exact List.mem_cons_of_mem _ (ih h)

/-! ## Units of the device write memory (R428) -/

/-- From s to t the cores, the device and the clocks are as before: what changed is memory and the slices. -/
structure SlicesOnly (s t : State) : Prop where
  cores : t.cores = s.cores
  dev : t.dev = s.dev
  gtc : t.gtc = s.gtc

theorem SlicesOnly.refl (s : State) : SlicesOnly s s := ⟨rfl, rfl, rfl⟩

theorem SlicesOnly.trans {s t u : State} (a : SlicesOnly s t) (b : SlicesOnly t u) : SlicesOnly s u :=
  ⟨b.cores.trans a.cores, b.dev.trans a.dev, b.gtc.trans a.gtc⟩

theorem SlicesOnly.foldl {α : Type} {f : State → α → State} (hf : ∀ s x, SlicesOnly s (f s x)) (xs : List α) (s : State) :
    SlicesOnly s (xs.foldl f s) :=
  List.foldlRecOn (motive := SlicesOnly s) _ _ (.refl s) fun u hu x _ => hu.trans (hf u x)

theorem State.setSlice_slicesOnly (s : State) (k : Nat) (x : Slice) : SlicesOnly s (s.setSlice k x) := ⟨rfl, rfl, rfl⟩

theorem State.keepStale_slicesOnly (s : State) (ln : Nat) : SlicesOnly s (s.keepStale ln) := by
  unfold State.keepStale; split <;> exact ⟨rfl, rfl, rfl⟩

theorem State.healLine_slicesOnly (s : State) (ln : Nat) (w : Bool) : SlicesOnly s (s.healLine ln w) := by
  unfold State.healLine; split <;> exact ⟨rfl, rfl, rfl⟩

theorem State.setHalf_slicesOnly (s : State) (ln h : Nat) (x : Half) : SlicesOnly s (s.setHalf ln h x) := ⟨rfl, rfl, rfl⟩

theorem State.poolAcquire_slicesOnly (s : State) (ln : Nat) (w : Bool) : SlicesOnly s (s.poolAcquire ln w) := by
  unfold State.poolAcquire; split <;> exact ⟨rfl, rfl, rfl⟩

theorem State.hostAcquire_slicesOnly (s : State) (ln hs : Nat) (w : Bool) : SlicesOnly s (s.hostAcquire ln hs w) := by
  unfold State.hostAcquire
  split
  · refine SlicesOnly.foldl (fun s h => ?_) _ _
    split
    · exact .refl _
    · split
      iterate 3 exact State.setHalf_slicesOnly _ _ _ _
      exact .refl _
  · exact .refl _

theorem State.enqueue_slicesOnly (s : State) (k who : Nat) (r : SliceReq) : SlicesOnly s (s.enqueue k who r) := ⟨rfl, rfl, rfl⟩

theorem State.unqueue_slicesOnly (s : State) (k i : Nat) : SlicesOnly s (s.unqueue k i) := ⟨rfl, rfl, rfl⟩

theorem State.modAsk_slicesOnly (s : State) (k ln : Nat) (f : PermitReq → PermitReq) : SlicesOnly s (s.modAsk k ln f) := ⟨rfl, rfl, rfl⟩

theorem State.served_slicesOnly (s : State) (k ln : Nat) : SlicesOnly s (s.served k ln) := State.modAsk_slicesOnly _ _ _ _

theorem State.ask_slicesOnly (s : State) (k ln : Nat) (e : Bool) (pol : Nat) : SlicesOnly s (s.ask k ln e pol) := by
  unfold State.ask
  dsimp only
  split
  · exact .refl _
  · split
    · exact State.modAsk_slicesOnly _ _ _ _
    · exact State.setSlice_slicesOnly _ _ _

theorem State.homeClean_slicesOnly (s : State) (ln : Nat) : SlicesOnly s (s.homeClean ln) := by
  unfold State.homeClean
  split
  · exact .refl _
  · split
    · exact ⟨rfl, rfl, rfl⟩
    · refine SlicesOnly.foldl (fun s h => ?_) _ _
      split
      · exact State.setHalf_slicesOnly _ _ _ _
      · exact .refl _
    · exact .refl _

theorem State.evictFor_slicesOnly {s t : State} {k ln : Nat} (h : s.evictFor k ln = some t) : SlicesOnly s t := by
  unfold State.evictFor at h
  dsimp only at h
  split at h
  · cases h; exact .refl _
  · obtain ⟨v, -, rfl⟩ := Option.map_eq_some_iff.mp h
    split
    · exact (State.setSlice_slicesOnly _ _ _).trans (State.homeClean_slicesOnly _ _)
    · exact State.setSlice_slicesOnly _ _ _

theorem State.placeLine_slicesOnly {s t : State} {k ln pol : Nat} (h : s.placeLine k ln pol = some t) : SlicesOnly s t := by
  unfold State.placeLine at h
  dsimp only at h
  obtain ⟨u, hu, rfl⟩ := Option.map_eq_some_iff.mp h
  have hsu : SlicesOnly s u := by
    split at hu
    · cases hu; exact .refl _
    · exact State.evictFor_slicesOnly hu
  refine hsu.trans ?_
  split
  · split
    · exact .refl _
    · exact State.setSlice_slicesOnly _ _ _
  · exact State.setSlice_slicesOnly _ _ _

theorem State.seat_slicesOnly {s t : State} {k ln pol : Nat} {w b : Bool} (h : s.seat k ln pol w = (b, t)) : SlicesOnly s t := by
  unfold State.seat at h
  split at h
  · obtain ⟨-, rfl⟩ := Prod.mk.inj h; exact .refl _
  · next e => obtain ⟨-, rfl⟩ := Prod.mk.inj h; exact State.placeLine_slicesOnly e

theorem State.mayServe_slicesOnly {s t : State} {k i ln pol : Nat} {n : Need} {m : Option Nat} {b : Bool}
    (h : s.mayServe k i ln n pol m = (b, t)) : SlicesOnly s t := by
  unfold State.mayServe at h
  dsimp only at h
  split at h
  · obtain ⟨-, rfl⟩ := Prod.mk.inj h; exact .refl _
  · generalize (if (n == Need.read) = true then 1 else 32) = m at h
    split at h
    · obtain ⟨-, rfl⟩ := Prod.mk.inj h; exact State.ask_slicesOnly _ _ _ _ _
    · obtain ⟨-, rfl⟩ := Prod.mk.inj h; exact .refl _

theorem State.storeLine_slicesOnly (s : State) (k ln : Nat) (bytes : List (Nat × Byte)) : SlicesOnly s (s.storeLine k ln bytes) := by
  unfold State.storeLine
  dsimp only
  refine SlicesOnly.trans ?_ (State.setSlice_slicesOnly _ _ _)
  refine SlicesOnly.trans ?_ (State.healLine_slicesOnly _ _ _)
  refine SlicesOnly.trans ?_ (SlicesOnly.foldl (f := fun (s : State) (e : Nat × Byte) => { s with mem := Memory.write s.mem (ln * 128 + e.1) e.2 })
    (fun _ _ => ⟨rfl, rfl, rfl⟩) _ _)
  have acquired : SlicesOnly s (((s.keepStale ln).poolAcquire ln true).hostAcquire ln (halvesOf (bytes.map Prod.fst)) true) :=
    ((State.keepStale_slicesOnly _ _).trans (State.poolAcquire_slicesOnly _ _ _)).trans (State.hostAcquire_slicesOnly _ _ _ _)
  split
  · refine acquired.trans (SlicesOnly.foldl (fun s h => ?_) _ _)
    split
    · exact State.setHalf_slicesOnly _ _ _ _
    · exact .refl _
  · exact acquired

theorem State.tryAgent_slicesOnly (s : State) (k idx : Nat) : SlicesOnly s (s.tryAgent k idx) := by
  unfold State.tryAgent
  split
  · split
    · dsimp only
      split
      · exact .refl _
      · split
        · next e => exact State.mayServe_slicesOnly e
        · next e =>
          split
          · next e' => exact (State.mayServe_slicesOnly e).trans (State.seat_slicesOnly e')
          · next e' =>
            refine ((State.mayServe_slicesOnly e).trans (State.seat_slicesOnly e')).trans ?_
            refine ((State.unqueue_slicesOnly _ k idx).trans ?_).trans (State.served_slicesOnly _ _ _)
            split
            · exact .refl _
            · exact State.storeLine_slicesOnly _ _ _ _
    · exact .refl _
  · exact .refl _

theorem State.lineAgent_slicesOnly (s : State) (who ln : Nat) (bs : List (Nat × Byte)) : SlicesOnly s (s.lineAgent who ln bs) := by
  unfold State.lineAgent
  dsimp only
  split
  · exact (State.enqueue_slicesOnly _ _ _ _).trans (State.tryAgent_slicesOnly _ _ _)
  · exact State.enqueue_slicesOnly _ _ _ _

theorem State.agentWrite_slicesOnly (s : State) (pa : Nat) (bs : List Byte) : SlicesOnly s (s.agentWrite pa bs) :=
  SlicesOnly.foldl (fun s ln => State.lineAgent_slicesOnly s _ ln _) _ _

theorem State.writeRecord_slicesOnly (s : State) (asid : Nat) (ws : List DWord) : SlicesOnly s (s.writeRecord asid ws) := by
  unfold State.writeRecord
  split
  · exact .refl _
  · dsimp only
    split
    · exact State.agentWrite_slicesOnly _ _ _
    · exact (State.agentWrite_slicesOnly _ _ _).trans (State.agentWrite_slicesOnly _ _ _)

end Sys2Proof.Machine
end

section
/-! Fault records (R380 to R384). -/

namespace Sys2Proof.Machine

open Sys2Proof.Claims

/-! ## A record, and its handler token -/

/-- From s to t, of each core only the input changed, and time did not pass. -/
structure InboxesOnly (s t : State) : Prop where
  core : ∀ ci, ∃ q, t.core ci = { s.core ci with inbox := q }
  gtc : t.gtc = s.gtc

theorem InboxesOnly.of_cores {s t : State} (hc : t.cores = s.cores) (hg : t.gtc = s.gtc) : InboxesOnly s t :=
  ⟨fun ci => ⟨(s.core ci).inbox, State.core_of_cores hc ci⟩, hg⟩

theorem InboxesOnly.trans {s t u : State} (a : InboxesOnly s t) (b : InboxesOnly t u) : InboxesOnly s u where
  core ci := by
    obtain ⟨p, hp⟩ := a.core ci
    obtain ⟨q, hq⟩ := b.core ci
    exact ⟨q, by rw [hq, hp]⟩
  gtc := b.gtc.trans a.gtc

theorem State.toInbox_inboxesOnly (s : State) (ci : Nat) (t : InTok) : InboxesOnly s (s.toInbox ci t) where
  core cj := by
    by_cases h : cj = ci
    · subst h; exact ⟨_, State.core_modCore_same _ _ _⟩
    · exact ⟨_, State.core_modCore_other _ _ _ _ h⟩
  gtc := rfl

theorem State.recordFor_slicesOnly (s : State) (r? : Option Region) (asid src stamp : Nat) (cls : Cls) (p e : Bool) (tail : List DWord) :
    SlicesOnly (s.takeFid r?).2 (s.recordFor r? asid src stamp cls p e tail).2 :=
  State.writeRecord_slicesOnly _ _ _

theorem State.takeFid_cores (s : State) (r? : Option Region) : (s.takeFid r?).2.cores = s.cores := by cases r? <;> rfl

theorem State.takeFid_gtc (s : State) (r? : Option Region) : (s.takeFid r?).2.gtc = s.gtc := by cases r? <;> rfl

theorem State.recordFor_inboxesOnly (s : State) (r? : Option Region) (asid src stamp : Nat) (cls : Cls) (p e : Bool) (tail : List DWord) :
    InboxesOnly s (s.recordFor r? asid src stamp cls p e tail).2 := by
  obtain ⟨hc, -, hg⟩ := s.recordFor_slicesOnly r? asid src stamp cls p e tail
  exact .of_cores (hc.trans (s.takeFid_cores r?)) (hg.trans (s.takeFid_gtc r?))

/-- A record of an armed region takes its FID and moves its counter on (R380). -/
theorem State.recordFor_region {s : State} {r : Region} (hr : s.region? r.num = some r) (asid src stamp : Nat) (cls : Cls) (p e : Bool)
    (tail : List DWord) : (s.recordFor (some r) asid src stamp cls p e tail).2.region? r.num = some { r with fid := nextFid r.fid } := by
  rw [State.region?_of_dev (s.recordFor_slicesOnly _ _ _ _ _ _ _ _).dev]
  have := s.region?_setRegion_same { r with fid := nextFid r.fid }
  rwa [show s.region? ({ r with fid := nextFid r.fid } : Region).num = some r from hr] at this

/-- What sending a handler token does: nothing, with no handler enabled; a record of its own, where a guard drops it; or the token stands
at a core's input. -/
theorem State.sendHandler_cases (s : State) (r : Region) (fid cls p e : Nat) (who : Option Nat) :
    s.sendHandler r fid cls p e who = s ∨ (∃ dst t, s.sendHandler r fid cls p e who = s.toInbox dst t) ∨
    (∃ dst asid src stamp tail, s.handlerStop r who dst ≠ none ∧
      s.sendHandler r fid cls p e who = (s.recordFor (s.region? r.num) asid src stamp .deadLetter false false tail).2) := by
  unfold State.sendHandler
  dsimp only
  split
  · exact .inl rfl
  · split
    · next h => exact .inr (.inr ⟨_, _, _, _, _, by rw [h]; exact Option.some_ne_none _, rfl⟩)
    · exact .inr (.inl ⟨_, _, rfl⟩)

theorem State.sendHandler_inboxesOnly (s : State) (r : Region) (fid cls p e : Nat) (who : Option Nat) :
    InboxesOnly s (s.sendHandler r fid cls p e who) := by
  obtain h | ⟨_, _, h⟩ | ⟨_, _, _, _, _, -, h⟩ := s.sendHandler_cases r fid cls p e who <;> rw [h]
  · exact .of_cores rfl rfl
  · exact State.toInbox_inboxesOnly _ _ _
  · exact State.recordFor_inboxesOnly _ _ _ _ _ _ _ _ _

/-- Sending a handler token leaves its region as it was, or takes one FID of it where a guard stops the token. -/
theorem State.sendHandler_region {s : State} {r x : Region} (hx : s.region? r.num = some x) (fid cls p e : Nat) (who : Option Nat) :
    (s.sendHandler r fid cls p e who).region? r.num = some x ∨ ((∃ dst, s.handlerStop r who dst ≠ none) ∧
      (s.sendHandler r fid cls p e who).region? r.num = some { x with fid := nextFid x.fid }) := by
  obtain h | ⟨_, _, h⟩ | ⟨dst, _, _, _, _, hs, h⟩ := s.sendHandler_cases r fid cls p e who <;> rw [h]
  · exact .inl hx
  · exact .inl ((State.region?_of_dev (by simp) _).trans hx)
  · refine .inr ⟨⟨dst, hs⟩, ?_⟩
    rw [hx]
    have hn := State.region?_num hx
    rw [← hn] at hx ⊢
    exact State.recordFor_region hx _ _ _ _ _ _ _

theorem State.raiseFor_some_quiet (s : State) (r : Region) (asid src stamp : Nat) (cls : Cls) (p e : Bool) (tail : List DWord)
    (who : Option Nat) : s.raiseFor (some r) asid src stamp cls p e tail who true =
      s.recordFor (some r) asid src stamp cls p e tail := by
  unfold State.raiseFor
  rcases s.recordFor (some r) asid src stamp cls p e tail with ⟨fid, u⟩
  simp only [if_true]

theorem State.raiseFor_some_loud (s : State) (r : Region) (asid src stamp : Nat) (cls : Cls) (p e : Bool) (tail : List DWord)
    (who : Option Nat) : s.raiseFor (some r) asid src stamp cls p e tail who false =
      (r.fid, (s.recordFor (some r) asid src stamp cls p e tail).2.sendHandler r r.fid cls.code (bit01 p) (bit01 e) who) := by
  unfold State.raiseFor
  have hf : (s.recordFor (some r) asid src stamp cls p e tail).1 = r.fid := by
    unfold State.recordFor State.takeFid; simp only
  rcases h : s.recordFor (some r) asid src stamp cls p e tail with ⟨fid, u⟩
  rw [h] at hf
  subst hf
  simp

theorem State.raiseFor_none (s : State) (asid src stamp : Nat) (cls : Cls) (p e : Bool) (tail : List DWord)
    (who : Option Nat) (quiet : Bool) : s.raiseFor none asid src stamp cls p e tail who quiet =
      s.recordFor none asid src stamp cls p e tail := by
  unfold State.raiseFor
  rcases s.recordFor none asid src stamp cls p e tail with ⟨fid, u⟩
  simp only

theorem State.raiseFor_inboxesOnly (s : State) (r? : Option Region) (asid src stamp : Nat) (cls : Cls) (p e : Bool) (tail : List DWord)
    (who : Option Nat) (quiet : Bool) : InboxesOnly s (s.raiseFor r? asid src stamp cls p e tail who quiet).2 := by
  have hrec := s.recordFor_inboxesOnly r? asid src stamp cls p e tail
  cases r? with
  | none => rwa [State.raiseFor_none]
  | some r =>
    cases quiet
    · rw [State.raiseFor_some_loud]
      exact hrec.trans (State.sendHandler_inboxesOnly _ _ _ _ _ _ _)
    · rwa [State.raiseFor_some_quiet]

theorem State.raise_inboxesOnly (s : State) (asid src die : Nat) (cls : Cls) (p e : Bool) (tail : List DWord)
    (who : Option Nat) (quiet : Bool) : InboxesOnly s (s.raise asid src die cls p e tail who quiet).2 :=
  State.raiseFor_inboxesOnly _ _ _ _ _ _ _ _ _ _ _

/-- The guards see the key of the sending core and the tenants alone (R297). -/
theorem State.guardStop_of {s t : State} {ci : Nat} (hk : (t.core ci).cfg.key = (s.core ci).cfg.key)
    (hp : t.dev.keyTenant = s.dev.keyTenant) (ht : t.dev.tileTenant = s.dev.tileTenant) (cj : Nat) : t.guardStop ci cj = s.guardStop ci cj := by
  unfold State.guardStop State.tenantOk
  rw [hk, hp, ht]

/-- A record of a core that took a fault, in the region that it belongs to: the record takes the region's FID, and where a guard drops the
handler token its dead letter takes the next. -/
theorem State.raise_region {s : State} {ci : Nat} {r : Region} (hr : s.coreRegion? ci = some r) {asid : Nat} (ha : r.asid = asid)
    (src die : Nat) (cls : Cls) (p e : Bool) (tail : List DWord) {u : Nat × State} (hu : u = s.raise asid src die cls p e tail (some ci) false) :
    u.1 = r.fid ∧ ∃ x, u.2.region? r.num = some x ∧ (x = { r with fid := nextFid r.fid } ∨
      x = { r with fid := nextFid (nextFid r.fid) } ∧ ∃ cj, s.guardStop ci cj ≠ none) := by
  have hrec : s.recordRegion? asid (some ci) = some r := by
    unfold State.recordRegion?
    simp [hr, ha, Option.filter]
  unfold State.raise State.raiseAt at hu
  rw [hrec, State.raiseFor_some_loud] at hu
  subst hu
  refine ⟨rfl, ?_⟩
  obtain ⟨-, hnum⟩ := State.coreRegion?_eq_some hr
  have hx := State.recordFor_region hnum asid src (s.gtcAt die) cls p e tail
  have hin := s.recordFor_slicesOnly (some r) asid src (s.gtcAt die) cls p e tail
  obtain h | ⟨⟨dst, hs⟩, h⟩ := State.sendHandler_region (r := r) hx r.fid cls.code (bit01 p) (bit01 e) (some ci)
  · exact ⟨_, h, .inl rfl⟩
  · refine ⟨_, h, .inr ⟨rfl, dst, ?_⟩⟩
    rwa [← State.guardStop_of (t := (s.recordFor (some r) asid src (s.gtcAt die) cls p e tail).2)
      (by rw [State.core_of_cores hin.cores]; rfl) (by rw [hin.dev]; rfl) (by rw [hin.dev]; rfl)]

end Sys2Proof.Machine
end

section
/-! Aborts (R31), leaving a group slot, and the end of a region (R391). -/

namespace Sys2Proof.Machine

open Sys2Proof.Claims

/-! ## What an abort undoes on its core -/

theorem Core.restoreUndo_frame (c : Core) (us : List UndoLine) :
    ∃ f w a b, c.restoreUndo us = { c with frame := f, bufW := w, bufA := a, bufC := b } := by
  unfold Core.restoreUndo
  induction us with
  | nil => exact ⟨_, _, _, _, rfl⟩
  | cons u us ih =>
    obtain ⟨f, w, a, b, h⟩ := ih
    rw [List.foldr_cons, h]
    cases u.buf <;> exact ⟨_, _, _, _, rfl⟩

theorem Core.fuseLatch_frame (c : Core) : ∃ q l, c.fuseLatch = { c with matq := q, gang := l } := by
  unfold Core.fuseLatch
  split
  · split
    · split <;> exact ⟨_, _, rfl⟩
    · exact ⟨_, _, rfl⟩
  · exact ⟨_, _, rfl⟩

theorem Core.foldl_setSlot_frame (f : Core → Nat → BlockSlot) (ks : List Nat) (c : Core) :
    ∃ sl, ks.foldl (fun c k => c.setSlot k (f c k)) c = { c with cfg := { c.cfg with slots := sl } } := by
  induction ks generalizing c with
  | nil => exact ⟨_, rfl⟩
  | cons k ks ih =>
    obtain ⟨sl, h⟩ := ih (c.setSlot k (f c k))
    exact ⟨sl, h⟩

/-- A park entry whose verdict a group had claimed, once that group withdraws (R387). -/
def ParkEnt.unclaim (gi : Nat) (p : ParkEnt) : ParkEnt := if p.claim == some gi then { p with claim := none, verdict := none } else p

/-- An abort writes the buffers, the matrix queue, colour ids, slots and claims of its core, and nothing else of it. -/
theorem Core.undoGroup_frame (c : Core) (gi : Nat) (g : Group) : ∃ f w a b q l ids sl, c.undoGroup gi g =
    { c with frame := f, bufW := w, bufA := a, bufC := b, matq := q, gang := l, reserve := ids, cfg := { c.cfg with slots := sl },
             park := c.park.map (ParkEnt.unclaim gi) } := by
  unfold Core.undoGroup Core.withdraw
  obtain ⟨f, w, a, b, h⟩ := c.restoreUndo_frame (g.undo ++ g.tileUndo)
  rw [h]
  dsimp only
  generalize hx : Core.fuseLatch _ = x
  obtain ⟨q, l, hq⟩ := Core.fuseLatch_frame _ |>.imp fun q h => h.imp fun l h => hx.symm.trans h
  exact (Core.foldl_setSlot_frame _ _ x).elim fun sl hs => ⟨f, w, a, b, q, l, _, sl, hs.trans (by rw [hq]; rfl)⟩

section
variable (c : Core) (gi : Nat) (g : Group)

@[simp] theorem Core.undoGroup_groups : (c.undoGroup gi g).groups = c.groups := by
  obtain ⟨_, _, _, _, _, _, _, _, h⟩ := c.undoGroup_frame gi g; rw [h]
@[simp] theorem Core.undoGroup_entries : (c.undoGroup gi g).entries = c.entries := by
  obtain ⟨_, _, _, _, _, _, _, _, h⟩ := c.undoGroup_frame gi g; rw [h]
@[simp] theorem Core.undoGroup_park : (c.undoGroup gi g).park = c.park.map (ParkEnt.unclaim gi) := by
  obtain ⟨_, _, _, _, _, _, _, _, h⟩ := c.undoGroup_frame gi g; rw [h]
@[simp] theorem Core.undoGroup_parkOver : (c.undoGroup gi g).parkOver = c.parkOver := by
  obtain ⟨_, _, _, _, _, _, _, _, h⟩ := c.undoGroup_frame gi g; rw [h]
@[simp] theorem Core.undoGroup_region : (c.undoGroup gi g).region = c.region := by
  obtain ⟨_, _, _, _, _, _, _, _, h⟩ := c.undoGroup_frame gi g; rw [h]
@[simp] theorem Core.undoGroup_key : (c.undoGroup gi g).cfg.key = c.cfg.key := by
  obtain ⟨_, _, _, _, _, _, _, _, h⟩ := c.undoGroup_frame gi g; rw [h]
@[simp] theorem Core.undoGroup_l1 : (c.undoGroup gi g).l1 = c.l1 := by
  obtain ⟨_, _, _, _, _, _, _, _, h⟩ := c.undoGroup_frame gi g; rw [h]
@[simp] theorem Core.undoGroup_group? (k : Nat) : (c.undoGroup gi g).group? k = c.group? k := by
  unfold Core.group?; rw [Core.undoGroup_groups]

end

/-! ## A group leaves its slot -/

theorem State.core_dropMisses (s : State) (ci gi cj : Nat) : (s.dropMisses ci gi).core cj = s.core cj := rfl

/-- A group that leaves its slot takes a team entry with it at most. -/
theorem State.leaveSlot_core {s : State} {ci gi : Nat} {g : Group} (hg : (s.core ci).group? gi = some g) :
    ∃ ts, s.leaveSlot ci gi = (s.dropMisses ci gi).setCore ci { (s.core ci).dropGroup gi with teams := ts } := by
  have unbind : ∀ (c : Core) (b : Bool) (ts : NMap Team), ∃ us, (if b then { c with teams := ts } else c) = { c with teams := us } := by
    intro c b ts
    cases b <;> exact ⟨_, rfl⟩
  unfold State.leaveSlot
  simp only [State.core_dropMisses, hg]
  exact (unbind _ _ _).imp fun ts h => congrArg _ h

theorem State.leaveSlot_dev (s : State) (ci gi : Nat) : (s.leaveSlot ci gi).dev = s.dev := by
  cases hg : (s.core ci).group? gi with
  | none => unfold State.leaveSlot; simp only [State.core_dropMisses, hg]; rfl
  | some g => obtain ⟨ts, h⟩ := State.leaveSlot_core hg; rw [h]; rfl

theorem State.discardGroup_dev (s : State) (ci gi : Nat) : (s.discardGroup ci gi).dev = s.dev := by
  unfold State.discardGroup
  split
  · rfl
  · rw [State.leaveSlot_dev]; rfl

/-- A discarded group is gone; every other group slot, of every core, is as before. -/
theorem State.discardGroup_group? (s : State) (ci gi cj k : Nat) :
    ((s.discardGroup ci gi).core cj).group? k = if cj = ci ∧ k = gi then none else (s.core cj).group? k := by
  unfold State.discardGroup
  cases hg : (s.core ci).group? gi with
  | none => 
    dsimp only
    split
    · next h => rw [h.1, h.2, hg]
    · rfl
  | some g =>
    dsimp only
    have hg' : ((s.modCore ci fun c => (c.undoGroup gi g).dropDivs g.ops).core ci).group? gi = some g := by
      rw [State.core_modCore_same]
      exact (Core.undoGroup_group? _ _ _ _).trans hg
    obtain ⟨ts, h⟩ := State.leaveSlot_core hg'
    rw [h]
    by_cases hc : cj = ci
    · subst hc
      rw [State.core_setCore_same, State.core_modCore_same]
      by_cases hk : k = gi
      · subst hk
        rw [if_pos ⟨rfl, rfl⟩]
        exact NMap.at?_del_same _ _
      · rw [if_neg fun x => hk x.2]
        refine (NMap.at?_del_other _ _ _ hk).trans ?_
        exact Core.undoGroup_group? _ _ _ _
    · rw [if_neg fun x => hc x.1, State.core_setCore_other _ _ _ _ hc, State.core_dropMisses, State.core_modCore_other _ _ _ _ hc]

/-! ## The end of a region -/

theorem foldl_dev {α : Type} {f : State → α → State} (hf : ∀ s x, (f s x).dev = s.dev) (xs : List α) (s : State) :
    (xs.foldl f s).dev = s.dev :=
  List.foldlRecOn (motive := fun u : State => u.dev = s.dev) _ _ rfl fun u hu x _ => (hf u x).trans hu

/-- R391: a region whose end begins is ending so. -/
theorem State.beginEnd_ending {s : State} {num : Nat} {how : Ending} {x : Region} (hx : (s.beginEnd num how).region? num = some x) :
    x.ending = some how := by
  unfold State.beginEnd at hx
  cases hr : s.region? num with
  | none => simp only [hr] at hx; exact nomatch hx
  | some r =>
    simp only [hr] at hx
    have hn := State.region?_num hr
    subst hn
    rw [State.region?_of_dev (foldl_dev (fun s ci => ?_) _ _)] at hx
    · have := s.region?_setRegion_same { r with ending := some how }
      rw [show s.region? ({ r with ending := some how } : Region).num = some r from hr] at this
      rw [this] at hx
      cases hx
      rfl
    · exact foldl_dev (fun s gi => s.discardGroup_dev ci gi) _ _

/-- A group slot that is empty stays empty through a region's end. -/
theorem State.beginEnd_group?_none {s : State} {ci gi : Nat} (h : (s.core ci).group? gi = none) (num : Nat) (how : Ending) :
    ((s.beginEnd num how).core ci).group? gi = none := by
  unfold State.beginEnd
  cases s.region? num with
  | none => exact h
  | some r =>
    refine List.foldlRecOn (motive := fun u : State => (u.core ci).group? gi = none) _ _ h fun u hu cj _ => ?_
    have hd : (((u.core cj).groups.keyList.foldl (fun s k => s.discardGroup cj k) u).core ci).group? gi = none := by
      refine List.foldlRecOn (motive := fun u : State => (u.core ci).group? gi = none) _ _ hu fun v hv k _ => ?_
      rw [State.discardGroup_group?]
      split
      · rfl
      · exact hv
    by_cases hc : ci = cj
    · subst hc
      rw [State.core_modCore_same]
      exact hd
    · rwa [State.core_modCore_other _ _ _ _ hc]

end Sys2Proof.Machine
end

section
/-! Taking a block fault (R382 to R386). -/

namespace Sys2Proof.Machine

open Sys2Proof.Claims

/-! ## The two outcomes of a block fault -/

/-- The FID of a faulting group's record and the state in which the group is undone and its record raised. -/
def State.faultRecord (s : State) (ci gi word : Nat) (f : Flt) (g : Group) (ends : Bool) : Nat × State :=
  (s.setCore ci ((s.core ci).undoGroup gi g)).raise (s.core ci).cfg.asid (srcCore ci) (dieOf ci) f.cls (!ends) ends
    (blockTail g gi f.cause word f.level f.lanes f.addr f.detail) (some ci) false

/-- The park entry of a faulting group, with the FID of its record (R386). -/
def State.faultEntry (s : State) (ci gi word : Nat) (f : Flt) (g : Group) (fid region : Nat) : ParkEnt :=
  { fid := fid, region := region, cls := f.cls.code,
    record := [w64 (s.gtcAt (dieOf ci)), w64 (f.cls.code * 2 ^ 56 + 2 ^ 51 + srcCore ci * 2 ^ 32 + fid)] ++
      blockTail g gi f.cause word f.level f.lanes f.addr f.detail,
    bslot := g.bslot, bid := g.bid, colour := g.colour, wlog := g.wlog, insts := g.insts, tags := g.tags, em := g.emFire,
    prio := ((s.core ci).slot g.bslot).prio, word := word, resumes := g.resumes, claim := none, verdict := none, refill := none,
    ops := g.runOn }

/-- A fault ends its region where FLTH enables no handler, or in the handler block itself (R385). -/
def Region.faultEnds (r : Region) (g : Group) : Bool := r.flth.toNat / 2 ^ 31 % 2 = 0 || g.bid == field r.flth.toNat 0 12

theorem Region.faultEnds_iff (r : Region) (g : Group) :
    r.faultEnds g = true ↔ r.flth.getLsbD 31 = false ∨ g.bid = field r.flth.toNat 0 12 := by
  have hbit : r.flth.getLsbD 31 = decide (r.flth.toNat / 2 ^ 31 % 2 = 1) := Nat.testBit_eq_decide_div_mod_eq
  rw [hbit, Region.faultEnds, Bool.or_eq_true, beq_iff_eq, decide_eq_true_eq, decide_eq_false_iff_not]
  omega

/-- What a fault record leaves of its core: the group undone, and a changed input. -/
theorem State.faultRecord_core (s : State) (ci gi word : Nat) (f : Flt) (g : Group) (ends : Bool) :
    ∃ q, (s.faultRecord ci gi word f g ends).2.core ci = { (s.core ci).undoGroup gi g with inbox := q } := by
  obtain ⟨q, hq⟩ := (State.raise_inboxesOnly (s.setCore ci ((s.core ci).undoGroup gi g)) _ _ _ _ _ _ _ _ _).core ci
  exact ⟨q, hq.trans (by rw [State.core_setCore_same])⟩

section
variable {s : State} {ci gi word : Nat} {f : Flt} {g : Group} {r : Region}
  (hg : (s.core ci).group? gi = some g) (hr : s.coreRegion? ci = some r)
include hg hr

/-- With a handler for it, a faulting group leaves its slot and is parked. -/
theorem State.takeFault_of_handled (he : r.faultEnds g = false) : s.takeFault ci gi word f =
    ((s.faultRecord ci gi word f g false).2.leaveSlot ci gi).modCore ci fun c =>
      (c.setPhase g.insts (.parked (s.faultRecord ci gi word f g false).1)).addPark
        (s.faultEntry ci gi word f g (s.faultRecord ci gi word f g false).1
          ((((s.faultRecord ci gi word f g false).2.core ci).region).getD 0)) := by
  unfold State.takeFault State.faultRecord State.faultEntry
  unfold Region.faultEnds at he
  simp only [hg, hr, he]
  rfl

/-- With no handler for it, its region ends, with a record of the steward. -/
theorem State.takeFault_of_ends (he : r.faultEnds g = true) : ∃ r' tail, s.takeFault ci gi word f =
    (((s.faultRecord ci gi word f g true).2.raiseFor r' (s.core ci).cfg.asid (srcSteward (dieOf ci))
      ((s.faultRecord ci gi word f g true).2.gtcAt (dieOf ci)) .handler false true tail none true).2.discardGroup ci gi).beginEnd
        r.num .aborted := by
  have hregion : ∀ r' asid src stamp tail, (((s.faultRecord ci gi word f g true).2.raiseFor r' asid src stamp .handler false true tail
      none true).2.core ci).region = some r.num := by
    intro r' asid src stamp tail
    obtain ⟨q, hq⟩ := s.faultRecord_core ci gi word f g true
    obtain ⟨p, hp⟩ := (State.raiseFor_inboxesOnly (s.faultRecord ci gi word f g true).2 r' asid src stamp .handler false true tail
      none true).core ci
    rw [hp, hq]
    exact (Core.undoGroup_region _ _ _).trans (State.coreRegion?_eq_some hr).1
  unfold State.takeFault
  unfold State.faultRecord at hregion ⊢
  unfold Region.faultEnds at he
  simp only [Bool.not_true] at hregion ⊢
  simp only [hg, hr, he, hregion, if_true, Bool.not_true]
  exact ⟨_, _, rfl⟩

end

/-- The fault record of a region's core takes its FID; a handler token that a guard stops takes the next. -/
theorem State.faultRecord_region {s : State} {ci : Nat} {r : Region} (hr : s.coreRegion? ci = some r) (ha : r.asid = (s.core ci).cfg.asid)
    (gi word : Nat) (f : Flt) (g : Group) (ends : Bool) : (s.faultRecord ci gi word f g ends).1 = r.fid ∧
      ∃ x, (s.faultRecord ci gi word f g ends).2.region? r.num = some x ∧ (x = { r with fid := nextFid r.fid } ∨
        x = { r with fid := nextFid (nextFid r.fid) } ∧ ∃ cj, s.guardStop ci cj ≠ none) := by
  have hr' : (s.setCore ci ((s.core ci).undoGroup gi g)).coreRegion? ci = some r := by
    rw [← hr]
    exact State.coreRegion?_of (by simp) (by simp)
  obtain ⟨hfid, x, hx, hcase⟩ := State.raise_region hr' ha _ _ _ _ _ _ (u := s.faultRecord ci gi word f g ends) rfl
  refine ⟨hfid, x, hx, hcase.imp id fun h => ⟨h.1, h.2.imp fun cj hcj => ?_⟩⟩
  rwa [State.guardStop_of (s := s) (by simp) (by simp) (by simp)] at hcj

/-! ## The core and the region of a parked collection -/

section
variable {s : State} {ci gi : Nat} {f : Flt} {g : Group} {r : Region}
  (hg : (s.core ci).group? gi = some g) (hr : s.coreRegion? ci = some r) (ha : r.asid = (s.core ci).cfg.asid) (he : r.faultEnds g = false)
include hg hr ha he

theorem State.takeFault_core (word : Nat) : ∃ q ts region, (s.takeFault ci gi word f).core ci =
    (({ ((s.core ci).undoGroup gi g).dropGroup gi with inbox := q, teams := ts } : Core).setPhase g.insts (.parked r.fid)).addPark
      (s.faultEntry ci gi word f g r.fid region) := by
  obtain ⟨q, hq⟩ := s.faultRecord_core ci gi word f g false
  have hgroup : ((s.faultRecord ci gi word f g false).2.core ci).group? gi = some g := by
    rw [hq]
    exact (Core.undoGroup_group? _ _ _ _).trans hg
  obtain ⟨ts, hts⟩ := State.leaveSlot_core hgroup
  rw [State.takeFault_of_handled hg hr he, State.core_modCore_same, hts, State.core_setCore_same, hq,
    (State.faultRecord_region hr ha gi word f g false).1]
  exact ⟨q, ts, _, rfl⟩

theorem State.takeFault_region (word : Nat) {x : Region} (hx : (s.takeFault ci gi word f).region? r.num = some x) :
    x = { r with fid := nextFid r.fid } ∨ x = { r with fid := nextFid (nextFid r.fid) } ∧ ∃ cj, s.guardStop ci cj ≠ none := by
  obtain ⟨-, y, hy, hcase⟩ := State.faultRecord_region hr ha gi word f g false
  rw [State.takeFault_of_handled hg hr he, State.region?_of_dev (State.modCore_dev _ _ _),
    State.region?_of_dev (State.leaveSlot_dev _ _ _), hy] at hx
  cases hx
  exact hcase

end

end Sys2Proof.Machine
end

section
namespace Sys2Proof.Machine

open Sys2Proof.Claims

/-! ## Parking -/

@[simp] theorem Core.addPark_groups (c : Core) (p : ParkEnt) : (c.addPark p).groups = c.groups := by
  unfold Core.addPark; split <;> rfl

@[simp] theorem Core.addPark_entries (c : Core) (p : ParkEnt) : (c.addPark p).entries = c.entries := by
  unfold Core.addPark; split <;> rfl

theorem Core.addPark_of_room {c : Core} (h : c.park.length < 64) (p : ParkEnt) : c.addPark p = { c with park := c.park ++ [p] } := if_pos h

theorem Core.addPark_of_full {c : Core} (h : 64 ≤ c.park.length) (p : ParkEnt) : c.addPark p = { c with parkOver := c.parkOver ++ [p] } :=
  if_neg (by omega)

theorem Core.setPhase_phase {c : Core} {ids : List Nat} {ph : EntryPhase} {e : Nat × Entry} (he : e ∈ (c.setPhase ids ph).entries)
    (hid : e.1 ∈ ids) : e.2.phase = ph := by
  obtain ⟨y, -, rfl⟩ := List.mem_map.mp he
  by_cases hy : y.1 ∈ ids
  · simp [hy]
  · simp [hy] at hid

section
variable {s : State} {ci gi : Nat} {f : Flt} {g : Group} {r : Region}
  (hg : (s.core ci).group? gi = some g) (hr : s.coreRegion? ci = some r) (ha : r.asid = (s.core ci).cfg.asid)
include hg hr ha

/-- A parked collection's instances leave the group slot with it, and no other group slot changes. -/
theorem State.takeFault_parks_groups (he : r.faultEnds g = false) (word : Nat) :
    ((s.takeFault ci gi word f).core ci).group? gi = none ∧
    (∀ k, k ≠ gi → ((s.takeFault ci gi word f).core ci).group? k = (s.core ci).group? k) ∧
    ∀ e ∈ ((s.takeFault ci gi word f).core ci).entries, e.1 ∈ g.insts → e.2.phase = .parked r.fid := by
  obtain ⟨q, ts, region, h⟩ := State.takeFault_core hg hr ha he (f := f) word
  rw [h]
  refine ⟨?_, fun k hk => ?_, fun e hm hi => ?_⟩
  · rw [Core.group?, Core.addPark_groups]
    exact NMap.at?_del_same _ _
  · rw [Core.group?, Core.addPark_groups]
    exact (NMap.at?_del_other _ _ _ hk).trans (Core.undoGroup_group? _ _ _ _)
  · rw [Core.addPark_entries] at hm
    exact Core.setPhase_phase hm hi

/-- The park entry of a fault: in the park while it has room, else outside it (R386). -/
theorem State.takeFault_parks_entry (he : r.faultEnds g = false) (word : Nat) : ∃ region,
    let p := s.faultEntry ci gi word f g r.fid region
    ((s.core ci).park.length < 64 → ((s.takeFault ci gi word f).core ci).park = (s.core ci).park.map (ParkEnt.unclaim gi) ++ [p]) ∧
    (64 ≤ (s.core ci).park.length → ((s.takeFault ci gi word f).core ci).parkOver = (s.core ci).parkOver ++ [p] ∧
      ((s.takeFault ci gi word f).core ci).park.length = (s.core ci).park.length) := by
  obtain ⟨q, ts, region, h⟩ := State.takeFault_core hg hr ha he (f := f) word
  refine ⟨region, fun hroom => ?_, fun hfull => ?_⟩
  · rw [h, Core.addPark_of_room (by simpa using hroom)]
    simp
  · rw [h, Core.addPark_of_full (by simpa using hfull)]
    simp

end

/-- Where the region ends, the group slot is empty and the region is being aborted (R385). -/
theorem State.takeFault_ends_region {s : State} {ci gi : Nat} {g : Group} {r : Region} (hg : (s.core ci).group? gi = some g)
    (hr : s.coreRegion? ci = some r) (he : r.faultEnds g = true) (word : Nat) (f : Flt) :
    ((s.takeFault ci gi word f).core ci).group? gi = none ∧
    ∀ x, (s.takeFault ci gi word f).region? r.num = some x → x.ending = some .aborted := by
  obtain ⟨r', tail, h⟩ := State.takeFault_of_ends hg hr he (word := word) (f := f)
  rw [h]
  refine ⟨State.beginEnd_group?_none ?_ _ _, fun x => State.beginEnd_ending⟩
  rw [State.discardGroup_group?, if_pos ⟨rfl, rfl⟩]

end Sys2Proof.Machine

namespace Sys2Proof.Proofs

open Sys2Proof.Machine Sys2Proof.Claims

/-- Settles O55: the fault's outcome is decided by whether a handler stands for it; what a record, the abort and the leaving of the slot
each change is known, and the park takes the entry or passes it on. -/
theorem blockFaultParksTheCollection : Obligations.BlockFaultParksTheCollection := by
  intro s ci gi word f g r c hg hr ha u
  refine ⟨fun hf hb => ?_, fun h => State.takeFault_ends_region hg hr ((r.faultEnds_iff g).mpr h) word f⟩
  have he : r.faultEnds g = false := by
    rw [← Bool.not_eq_true, Region.faultEnds_iff]
    simp [hf, hb]
  obtain ⟨hgone, hothers, hphase⟩ := State.takeFault_parks_groups hg hr ha he (f := f) word
  obtain ⟨region, hroom, hfull⟩ := State.takeFault_parks_entry hg hr ha he (f := f) word
  refine ⟨hgone, hothers, fun x hx => ?_, hphase, fun h => ⟨_, hroom h, ?_⟩, fun h => ⟨_, (hfull h).1, rfl, rfl, rfl, (hfull h).2⟩⟩
  · obtain rfl | ⟨rfl, cj, hcj⟩ := State.takeFault_region hg hr ha he word hx
    · exact ⟨rfl, .inl rfl, fun _ => rfl⟩
    · exact ⟨rfl, .inr rfl, fun hnone => absurd (hnone cj) hcj⟩
  · exact ⟨rfl, rfl, rfl, rfl, rfl, rfl, rfl, rfl, rfl, rfl, rfl, rfl, rfl⟩

end Sys2Proof.Proofs
end

section
/-! Soft errors (R155, R161, R389, R399). -/

namespace Sys2Proof.Claims

open Sys2Proof.Machine

/-! ## Frames of one core -/

theorem CoresKept.refl (s : State) (ci : Nat) : CoresKept s s ci := fun _ _ => rfl

theorem CoresKept.trans {s t u : State} {ci : Nat} (a : CoresKept s t ci) (b : CoresKept t u ci) : CoresKept s u ci :=
  fun cj hj => (b cj hj).trans (a cj hj)

theorem MemoryKept.of_mem {s t : State} (h : t.mem = s.mem) : MemoryKept s t := State.memByte_of_mem s t h

end Sys2Proof.Claims

namespace Sys2Proof.Machine

open Sys2Proof.Claims

theorem State.setCore_coresKept (s : State) (ci : Nat) (c : Core) : CoresKept s (s.setCore ci c) ci :=
  fun _ hj => State.core_setCore_other _ _ _ _ hj

theorem State.modCore_coresKept (s : State) (ci : Nat) (f : Core → Core) : CoresKept s (s.modCore ci f) ci :=
  fun _ hj => State.core_modCore_other _ _ _ _ hj

/-! ## A replay for a soft error -/

/-- In state u the group stands in its slot as it stood at firing, about to be replayed, and its aborts are not counted (R31, R399). -/
structure Replays (ci gi : Nat) (g : Group) (u : State) (h : Group) : Prop where
  here : (u.core ci).group? gi = some h
  pc : h.pc = 0
  regs : h.regs = []
  sbuf : h.sbuf = []
  sendq : h.sendq = []
  undo : h.undo = []
  em : h.em = g.emFire
  insts : h.insts = g.insts
  replaying : h.replaying = true
  mismatches : h.mismatches = g.mismatches
  commit : h.commit = g.commit
  emFire : h.emFire = g.emFire

/-- Of an uncommitted group, a replay for a soft error abandons the group's work on its core and starts it again. -/
theorem State.softReplay_of {s : State} {ci gi : Nat} {g : Group} (hg : (s.core ci).group? gi = some g) (hc : g.commit = none) :
    (s.softReplay ci gi).core ci =
      (((s.core ci).undoGroup gi g).setGroup gi { g.restart ((s.core ci).undoGroup gi g) with mismatches := 0 }).setGroup gi
        { g.restart ((s.core ci).undoGroup gi g) with mismatches := g.mismatches } := by
  unfold State.softReplay State.abortReplay
  simp only [hg, hc, Option.isSome_none, Bool.false_eq_true, if_false, State.core_modCore_same, State.core_dropMisses,
    Core.group?_setGroup_same]

/-- A committed group is beyond a soft error. -/
theorem State.softReplay_of_committed {s : State} {ci gi : Nat} {g : Group} (hg : (s.core ci).group? gi = some g) (hc : g.commit ≠ none) :
    s.softReplay ci gi = s := by
  unfold State.softReplay
  simp only [hg, Option.isSome_iff_ne_none.mpr hc, if_true]

theorem State.softReplay_of_empty {s : State} {ci gi : Nat} (hg : (s.core ci).group? gi = none) : s.softReplay ci gi = s := by
  unfold State.softReplay
  simp only [hg]

theorem State.softReplay_replays {s : State} {ci gi : Nat} {g : Group} (hg : (s.core ci).group? gi = some g) (hc : g.commit = none) :
    ∃ h, Replays ci gi g (s.softReplay ci gi) h :=
  ⟨{ g.restart ((s.core ci).undoGroup gi g) with mismatches := g.mismatches },
    by rw [State.softReplay_of hg hc]; exact Core.group?_setGroup_same _ _ _, rfl, rfl, rfl, rfl, rfl, rfl, rfl, rfl, rfl, rfl, rfl⟩

/-- What a replay of one group slot leaves: the core but for that slot, its L1, the other cores, and memory. -/
theorem State.softReplay_frame (s : State) (ci gi : Nat) : (∀ k, k ≠ gi → ((s.softReplay ci gi).core ci).group? k = (s.core ci).group? k) ∧
    ((s.softReplay ci gi).core ci).l1 = (s.core ci).l1 ∧ CoresKept s (s.softReplay ci gi) ci ∧ MemoryKept s (s.softReplay ci gi) := by
  cases hg : (s.core ci).group? gi with
  | none => rw [State.softReplay_of_empty hg]; exact ⟨fun _ _ => rfl, rfl, .refl s ci, fun _ => rfl⟩
  | some g =>
    by_cases hc : g.commit = none
    · refine ⟨fun k hk => ?_, ?_, ?_, ?_⟩
      · rw [State.softReplay_of hg hc, Core.group?_setGroup_other _ _ _ _ hk, Core.group?_setGroup_other _ _ _ _ hk, Core.undoGroup_group?]
      · rw [State.softReplay_of hg hc]
        simp
      · unfold State.softReplay State.abortReplay
        simp only [hg, hc, Option.isSome_none, Bool.false_eq_true, if_false]
        exact (State.modCore_coresKept (s.dropMisses ci gi) ci _).trans (State.modCore_coresKept _ _ _)
      · refine MemoryKept.of_mem ?_
        unfold State.softReplay State.abortReplay
        simp [hg, hc]
    · rw [State.softReplay_of_committed hg hc]; exact ⟨fun _ _ => rfl, rfl, .refl s ci, fun _ => rfl⟩

/-! ## A bad L1 copy -/

section
variable {ci gi : Nat}

/-- A group that stands at its start stays there while group slots of its core, its own among them, replay. -/
theorem Replays.softReplay {g h : Group} {s : State} (hs : Replays ci gi g s h) (hc : g.commit = none) (k : Nat) :
    ∃ h', Replays ci gi g (s.softReplay ci k) h' := by
  by_cases hk : gi = k
  · subst hk
    obtain ⟨h', hr⟩ := State.softReplay_replays hs.here (hs.commit.trans hc)
    exact ⟨h', hr.here, hr.pc, hr.regs, hr.sbuf, hr.sendq, hr.undo, hr.em.trans hs.emFire, hr.insts.trans hs.insts, hr.replaying,
      hr.mismatches.trans hs.mismatches, hr.commit.trans hs.commit, hr.emFire.trans hs.emFire⟩
  · exact ⟨h, ((s.softReplay_frame ci k).1 gi hk).trans hs.here, hs.pc, hs.regs, hs.sbuf, hs.sendq, hs.undo, hs.em, hs.insts, hs.replaying,
      hs.mismatches, hs.commit, hs.emFire⟩

/-- A group among those that are replayed in turn stands at its start afterwards. -/
theorem State.softReplays_replays {g : Group} (hc : g.commit = none) {s : State} (hg : (s.core ci).group? gi = some g)
    {ks : List (Nat × Group)} (hk : ∃ x, (gi, x) ∈ ks) : ∃ h, Replays ci gi g (ks.foldl (fun s e => s.softReplay ci e.1) s) h := by
  induction ks generalizing s with
  | nil => exact absurd hk.choose_spec List.not_mem_nil
  | cons e ks ih =>
    rw [List.foldl_cons]
    by_cases he : e.1 = gi
    · subst he
      exact List.foldlRecOn (motive := fun u : State => ∃ h, Replays ci e.1 g u h) _ _ (State.softReplay_replays hg hc)
        fun u hu x _ => hu.elim fun h hu => hu.softReplay hc x.1
    · refine ih (((s.softReplay_frame ci e.1).1 gi (Ne.symm he)).trans hg) ?_
      obtain ⟨x, hx⟩ := hk
      exact ⟨x, (List.mem_cons.mp hx).resolve_left fun h => he (congrArg Prod.fst h).symm⟩

end

theorem State.softReplays_frame (s : State) (ci : Nat) (ks : List (Nat × Group)) :
    ((ks.foldl (fun s e => s.softReplay ci e.1) s).core ci).l1 = (s.core ci).l1 ∧
      CoresKept s (ks.foldl (fun s e => s.softReplay ci e.1) s) ci ∧ MemoryKept s (ks.foldl (fun s e => s.softReplay ci e.1) s) :=
  List.foldlRecOn (motive := fun u : State => (u.core ci).l1 = (s.core ci).l1 ∧ CoresKept s u ci ∧ MemoryKept s u) _ _
    ⟨rfl, .refl s ci, fun _ => rfl⟩ fun u ⟨hl, hcores, hmem⟩ e _ => by
      obtain ⟨-, hl', hcores', hmem'⟩ := u.softReplay_frame ci e.1
      exact ⟨hl'.trans hl, hcores.trans hcores', fun a => (hmem' a).trans (hmem a)⟩

/-- The bad copy of the line is gone from the core's L1; the other cores and memory are as before. -/
theorem State.l1Error_frame (s : State) (ci ln : Nat) : (∀ l ∈ ((s.l1Error ci ln).core ci).l1, l.line ≠ ln) ∧
    CoresKept s (s.l1Error ci ln) ci ∧ MemoryKept s (s.l1Error ci ln) := by
  obtain ⟨hl1, hcores, hmem⟩ := (s.modCore ci fun c => c.l1Drop ln).softReplays_frame ci
    ((s.core ci).groups.filter fun e => e.2.l1used.contains ln)
  refine ⟨fun l hl => ?_, (s.modCore_coresKept ci _).trans hcores, hmem⟩
  rw [show ((s.l1Error ci ln).core ci).l1 = _ from hl1, State.core_modCore_same] at hl
  simpa using (List.mem_filter.mp hl).2

/-- Every uncommitted group that used the copy replays. -/
theorem State.l1Error_replays {s : State} {ci gi ln : Nat} {g : Group} (hg : (s.core ci).group? gi = some g) (hc : g.commit = none)
    (hused : ln ∈ g.l1used) : ∃ h, Replays ci gi g (s.l1Error ci ln) h := by
  refine State.softReplays_replays hc ((congrArg (Core.group? · gi) (State.core_modCore_same _ _ _)).trans hg) ⟨g, ?_⟩
  exact List.mem_filter.mpr ⟨NMap.at?_mem hg, by simpa using hused⟩

/-! ## A line of memory -/

/-- A line with an error is listed; the lines listed before stay, and no byte changes. -/
theorem State.memoryError_reports (s : State) (ln : Nat) : ln ∈ (State.softError (.memory ln) s).memErr ∧
    (∀ x ∈ s.memErr, x ∈ (State.softError (.memory ln) s).memErr) ∧ MemoryKept s (State.softError (.memory ln) s) := by
  unfold State.softError
  dsimp only
  split
  · next h => exact ⟨by simpa using h, fun _ h => h, fun _ => rfl⟩
  · exact ⟨by simp, fun x hx => List.mem_append_left _ hx, fun _ => rfl⟩

/-! ## Errors that end the region -/

theorem State.sramError_ends {s : State} {ci : Nat} {r : Region} (hr : s.coreRegion? ci = some r) (part : SramPart) (off : Nat) {x : Region}
    (hx : (s.sramError ci part off).region? r.num = some x) : x.ending = some .aborted := by
  unfold State.sramError at hx
  simp only [(State.coreRegion?_eq_some hr).1] at hx
  exact State.beginEnd_ending hx

/-! ## An error in a frame line -/

theorem leader?_zero : leader? 0 = none := by decide

/-- A frame line that no active lane reads meets nobody. -/
theorem State.frameError_of_unread {s : State} {ci gi : Nat} {g : Group} (hg : (s.core ci).group? gi = some g) {off : Nat}
    (h : frameReaders { s with cur := (ci, gi) } (s.core ci) g (off / 128) = 0) : s.frameError ci gi off = s := by
  unfold State.frameError
  simp only [hg, h, leader?_zero]

/-- The readers of a bad frame line fault with cause DATA, where nothing else of the word does (R161). -/
theorem State.frameError_of_read {s : State} {ci gi : Nat} {g : Group} (hg : (s.core ci).group? gi = some g) {off l : Nat}
    (hl : leader? (frameReaders { s with cur := (ci, gi) } (s.core ci) g (off / 128)) = some l) (ht : g.canTry (s.core ci) = true)
    (hi : g.interlocked (Fields.ofNat (fetchWord (s.core ci) g).toNat) = false)
    (ho : offsetFault { s with cur := (ci, gi) } (s.core ci) g (fetchInstr (s.core ci) g) = none)
    (hm : g.mayFault (s.core ci).nextNum = false) :
    s.frameError ci gi off = { State.takeFault { s with cur := (ci, gi) } ci gi g.pc
      { cls := .localAccess, cause := 5, lanes := frameReaders { s with cur := (ci, gi) } (s.core ci) g (off / 128),
        addr := off - frameBase (s.core ci) g l } with cur := s.cur } := by
  have hm' : g.mayFault (State.core { s with cur := (ci, gi) } ci).nextNum = false := hm
  unfold State.frameError State.faultWord
  simp only [hg, hl, ht, hi, ho, hm', Bool.not_false, Bool.and_self, Option.isNone_none, if_true, Bool.false_eq_true, if_false]
  rfl

end Sys2Proof.Machine

namespace Sys2Proof.Proofs

open Sys2Proof.Machine Sys2Proof.Claims

/-- Settles O57, place by place: a replay per register error, one after the other for the users of an L1 line, the fault of a frame's
readers, and the end of the region. -/
theorem softErrorsAreHandledByPlace : Obligations.SoftErrorsAreHandledByPlace := by
  refine ⟨fun s t ts x hs hx => ?_, ?_⟩
  · unfold step stepWith
    simp only [hs, hx]
    rfl
  intro s ci gi g c again hg
  have starts : ∀ {u h}, Replays ci gi g u h → again u := fun hr =>
    ⟨_, hr.here, hr.pc, hr.regs, hr.sbuf, hr.sendq, hr.undo, hr.em, hr.insts, hr.replaying, hr.mismatches⟩
  refine ⟨fun hc => ?_, State.softReplay_of_committed hg, fun ln => ?_, fun ln => ?_,
    fun off => ⟨State.frameError_of_unread hg, fun l => State.frameError_of_read hg⟩, fun part off r hr x => State.sramError_ends hr part off⟩
  · obtain ⟨hgroups, -, hcores, hmem⟩ := s.softReplay_frame ci gi
    exact ⟨(State.softReplay_replays hg hc).elim fun h => starts, hgroups, hcores, hmem⟩
  · obtain ⟨hl1, hcores, hmem⟩ := s.l1Error_frame ci ln
    exact ⟨hl1, fun hc hused => (State.l1Error_replays hg hc hused).elim fun h => starts, hcores, hmem⟩
  · exact s.memoryError_reports ln

end Sys2Proof.Proofs
end

section
/-! The matching store and the poste restante (R11, R16 to R21, R34 to R37, R362). -/

namespace Sys2Proof

/-! ## Byte maps -/

theorem NMap.atD_writeBytes_other (bs : List Byte) (m : NMap Byte) (a c : Nat) (h : c < a ∨ a + bs.length ≤ c) :
    (m.writeBytes a bs).atD c 0 = m.atD c 0 := by
  induction bs generalizing m a with
  | nil => rfl
  | cons b bs ih =>
    simp only [List.length_cons] at h
    rw [NMap.writeBytes, ih _ _ (by omega), NMap.atD_put_other _ _ _ _ _ _ (by omega)]

theorem NMap.atD_writeBytes (bs : List Byte) (m : NMap Byte) (a i : Nat) (h : i < bs.length) :
    (m.writeBytes a bs).atD (a + i) 0 = (bs[i]?).getD 0 := by
  induction bs generalizing m a i with
  | nil => simp at h
  | cons b bs ih =>
    rw [NMap.writeBytes]
    cases i with
    | zero => rw [NMap.atD_writeBytes_other _ _ _ _ (by omega)]; exact NMap.atD_put_same _ _ _ _
    | succ i =>
      rw [show a + (i + 1) = a + 1 + i by omega, ih _ _ _ (by simpa using h)]
      simp

theorem natLe_length (n v : Nat) : (natLe n v).length = n := by
  induction n generalizing v with
  | zero => rfl
  | succ n ih => rw [natLe, List.length_cons, ih]

theorem insertBy_length {α : Type} (le : α → α → Bool) (a : α) (l : List α) : (insertBy le a l).length = l.length + 1 := by
  induction l with
  | nil => rfl
  | cons b l ih =>
    unfold insertBy
    split
    · rfl
    · rw [List.length_cons, ih, List.length_cons]

theorem sortBy_length {α : Type} (le : α → α → Bool) (l : List α) : (sortBy le l).length = l.length := by
  induction l with
  | nil => rfl
  | cons a l ih => rw [sortBy, insertBy_length, ih, List.length_cons]

end Sys2Proof

namespace Sys2Proof.Machine

open Sys2Proof.Claims

/-! ## Tokens that start instances -/

theorem cellBytes_length (t : Token) : (cellBytes t).length = 64 := by
  unfold cellBytes
  simp [List.length_flatMap, natLe_length]

/-- What a payload's arrival leaves of an entry, and what it sets (R16, R18). -/
theorem Entry.receive_spec {e : Entry} (he : e.phase = .incomplete) (t : Token) (now cycle arity period : Nat) :
    let x := e.receive t now cycle arity period
    x.bid = e.bid ∧ x.colour = e.colour ∧ x.tag = e.tag ∧ x.frame = e.frame ∧
    x.presence = e.presence ||| BitVec.ofNat 8 (2 ^ t.slot.toNat) ∧ (x.phase = .complete ↔ x.presence.toNat = 2 ^ arity - 1) ∧
    (x.phase = .complete → x.deadline = cycle + 4 * period) := by
  unfold Entry.receive fullPresence
  dsimp only
  split
  · next h => exact ⟨rfl, rfl, rfl, rfl, rfl, ⟨fun _ => h, fun _ => rfl⟩, fun _ => rfl⟩
  · next h =>
    have hp : e.phase ≠ .complete := by rw [he]; exact EntryPhase.noConfusion
    exact ⟨rfl, rfl, rfl, rfl, rfl, ⟨fun hc => absurd hc hp, fun hc => absurd hc h⟩, fun hc => absurd hc hp⟩

/-- The core in which the first token of an entry has started it (R16), at a frame that starts at `at_`. -/
def Core.startInstance (c : Core) (t : Token) (slot : Nat) (b : BlockSlot) (at_ now cycle : Nat) : Core :=
  { c.clearFrame at_ (frameLines b.hdr) with
    nextNum := c.nextNum + 1
    handed := c.handed.filter fun h => some h.1 != none
    entries := c.entries.ins c.nextNum
      (({ tokenEntry t with frame := at_, lines := frameLines b.hdr } : Entry).receive t now cycle (hdrArity b.hdr) b.timer)
    frame := (c.clearFrame at_ (frameLines b.hdr)).frame.writeBytes (at_ + 64 * t.slot.toNat) (cellBytes t)
    cfg := (c.setSlot slot b).cfg }

/-- The entry that a starting token makes, and its cell. -/
theorem Core.startInstance_spec (c : Core) (t : Token) (slot : Nat) (b : BlockSlot) (at_ now cycle : Nat) :
    let v := c.startInstance t slot b at_ now cycle
    (∃ e, v.entries.at? c.nextNum = some e ∧ e.bid = t.blk.toNat ∧ e.colour = t.colour.toNat ∧ e.tag = t.tag ∧ e.frame = at_ ∧
      e.presence = BitVec.ofNat 8 (2 ^ t.slot.toNat) ∧ (e.phase = .complete ↔ e.presence.toNat = 2 ^ hdrArity b.hdr - 1) ∧
      (e.phase = .complete → e.deadline = cycle + 4 * b.timer)) ∧
    ∀ i, i < 64 → v.frame.atD (at_ + 64 * t.slot.toNat + i) 0 = ((cellBytes t)[i]?).getD 0 := by
  refine ⟨⟨_, NMap.at?_ins_same _ _ _, ?_⟩, fun i hi => NMap.atD_writeBytes _ _ _ _ (by rwa [cellBytes_length])⟩
  obtain ⟨hbid, hcolour, htag, hframe, hpresence, hphase, hdeadline⟩ :=
    Entry.receive_spec (e := { tokenEntry t with frame := at_, lines := frameLines b.hdr }) rfl t now cycle (hdrArity b.hdr) b.timer
  exact ⟨hbid, hcolour, htag, hframe, hpresence.trans (BitVec.zero_or), hphase, hdeadline⟩

/-- R17 does not refuse a good token; where it finds nothing, with an entry and a frame free, it starts one of the block's instances. -/
theorem State.matchToken_starts {s : State} {ci slot at_ : Nat} {t : InTok} {b : BlockSlot} (hbad : s.badToken ci t.tok b = false)
    (habs : (s.core ci).lookup t.tok = .absent) (hfr : t.frame = none) (hroom : (s.core ci).entriesUsed < matchEntries)
    (hfree : (s.core ci).freeFrame? (frameLines b.hdr) = some at_) :
    s.matchToken ci t slot b = s.setCore ci ((s.core ci).startInstance t.tok slot b at_ (s.gtcAt (dieOf ci)) s.arith) := by
  unfold State.badToken at hbad
  simp only [Bool.or_eq_false_iff, Bool.not_eq_false', decide_eq_false_iff_not] at hbad
  obtain ⟨⟨hlive, hwidth⟩, harity⟩ := hbad
  unfold State.matchToken
  simp only [hlive, hwidth, harity, habs, hfr, hroom, hfree, if_true, if_false, Bool.not_true, Bool.false_eq_true]
  rfl

/-- A token that the core takes leaves the input and is placed. -/
theorem exec_tokenArrival_of_taken {s : State} {ci idx : Nat} {t : InTok} (h : Taken s ci idx t) :
    exec (.tokenArrival ci idx) s = .next ((s.setCore ci ((s.core ci).accept idx t)).place ci t) := by
  obtain ⟨hin, hkind, hdone, hstop, hnext, hadm, hplace⟩ := h
  rw [exec_tokenArrival]
  unfold execTokenArrival
  simp only [hin, hdone, hstop, hnext, hadm, hplace, beq_eq_false_iff_ne.mpr hkind, Bool.not_true, Bool.or_self, Bool.false_eq_true, if_false]

/-- The first token taken for a resident block starts one of its instances (R11, R16). -/
theorem exec_tokenArrival_starts {s : State} {ci idx slot at_ : Nat} {t : InTok} {b : BlockSlot} (h : Taken s ci idx t)
    (hres : (s.core ci).residentSlot t.tok.blk.toNat = some (slot, b)) (hmark : s.behindMarker ci t = false) (hfr : t.frame = none)
    (hbad : s.badToken ci t.tok b = false) (habs : (s.core ci).lookup t.tok = .absent)
    (hfree : (s.core ci).freeFrame? (frameLines b.hdr) = some at_) :
    exec (.tokenArrival ci idx) s = .next ((s.setCore ci ((s.core ci).accept idx t)).setCore ci
      (((s.core ci).accept idx t).startInstance t.tok slot b at_ (s.gtcAt (dieOf ci)) s.arith)) := by
  have hroom : (s.core ci).entriesUsed < matchEntries := by
    obtain ⟨-, -, -, -, -, -, hplace⟩ := h
    unfold State.canPlace Core.canAllocate at hplace
    simp only [hres, hbad, habs, hmark, Bool.false_or, Bool.or_false, Bool.and_eq_true, decide_eq_true_eq] at hplace
    exact hplace.1
  let c := (s.core ci).accept idx t
  have hcore : (s.setCore ci c).core ci = c := State.core_setCore_same _ _ _
  have hregion : (s.setCore ci c).coreRegion? ci = s.coreRegion? ci := State.coreRegion?_of (by rw [hcore]; rfl) rfl
  have hbad' : (s.setCore ci c).badToken ci t.tok b = false := by
    rw [← hbad]
    unfold State.badToken
    rw [hregion]
  have hmark' : (s.setCore ci c).behindMarker ci t = false := by
    rw [← hmark]
    unfold State.behindMarker
    rw [hcore]
    rfl
  have hres' : ((s.setCore ci c).core ci).residentSlot t.tok.blk.toNat = some (slot, b) := by rw [hcore]; exact hres
  rw [exec_tokenArrival_of_taken h]
  unfold State.place
  simp only [show (s.setCore ci ((s.core ci).accept idx t)) = s.setCore ci c from rfl, hres', hmark', Bool.false_and, Bool.false_eq_true, if_false]
  rw [State.matchToken_starts hbad' (by rw [hcore]; exact habs) hfr (by rw [hcore]; exact hroom) (by rw [hcore]; exact hfree), hcore]
  rfl

/-! ## End-of-stream tokens (R362) -/

theorem State.core_setRegion (s : State) (r : Region) (ci : Nat) : (s.setRegion r).core ci = s.core ci := rfl

theorem State.setRegion_regions (s : State) (r : Region) :
    (s.setRegion r).dev.regions = s.dev.regions.map fun x => if x.num = r.num then r else x := by
  simp only [State.setRegion, State.setDev, replaceIf, beq_iff_eq]

/-- The state in which a core has taken an end-of-stream token and counted it. -/
def State.countEos (s : State) (ci idx : Nat) (t : InTok) : State :=
  (s.setCore ci ((s.core ci).accept idx t)).modCore ci fun c =>
    { c with eosCount := c.eosCount.put 0 t.tok.blk.toNat ((s.core ci).eosCount.atD t.tok.blk.toNat 0 + 1) }

/-- The region with the sinks of a block reported. -/
def Region.reportSink (r : Region) (bid : Nat) : Region :=
  { r with sinks := replaceIf (fun x => x.bid == bid) (fun x => { x with reported := true }) r.sinks }

theorem Region.reportSink_eq (r : Region) (bid : Nat) : r.reportSink bid =
    { r with sinks := r.sinks.map fun y => if y.bid = bid then { y with reported := true } else y } := by
  simp only [Region.reportSink, replaceIf, beq_iff_eq]

theorem State.countEos_core (s : State) (ci idx : Nat) (t : InTok) : (s.countEos ci idx t).core ci =
    { (s.core ci).accept idx t with
      eosCount := (s.core ci).eosCount.put 0 t.tok.blk.toNat ((s.core ci).eosCount.atD t.tok.blk.toNat 0 + 1) } := by
  rw [State.countEos, State.core_modCore_same, State.core_setCore_same]
  rfl

@[simp] theorem State.countEos_dev (s : State) (ci idx : Nat) (t : InTok) : (s.countEos ci idx t).dev = s.dev := by simp [State.countEos]

@[simp] theorem State.countEos_mem (s : State) (ci idx : Nat) (t : InTok) : (s.countEos ci idx t).mem = s.mem := by simp [State.countEos]

theorem State.countEos_coresKept (s : State) (ci idx : Nat) (t : InTok) : CoresKept s (s.countEos ci idx t) ci :=
  (s.setCore_coresKept ci _).trans (State.modCore_coresKept _ ci _)

section
variable {s : State} {ci idx : Nat} {t : InTok} {r : Region} {k : Sink} (hin : (s.core ci).inbox[idx]? = some t)
  (hr : s.coreRegion? ci = some r) (hkind : t.tok.kind = .eos) (hstop : s.stopped ci = false)
  (hnext : (s.core ci).arrivesNext idx t = true) (hadm : (s.core ci).admits = true)
  (hsink : (r.sinks.find? fun x => x.bid == t.tok.blk.toNat) = some k) (hrep : k.reported = false)
include hin hr hkind hstop hnext hadm hsink hrep

/-- An end-of-stream token that the core takes raises its sink's count, and reports the sink at EOSX. -/
theorem exec_eosCount_counts : exec (.eosCount ci idx) s =
    .next (if (s.core ci).eosCount.atD t.tok.blk.toNat 0 + 1 < k.expect then s.countEos ci idx t
      else (s.countEos ci idx t).setRegion (r.reportSink t.tok.blk.toNat)) := by
  rw [exec_eosCount]
  unfold execEosCount
  simp only [hin, hr, hkind, hstop, hnext, hadm, hsink, hrep, bne_self_eq_false, Bool.not_true, Bool.or_self, Bool.false_eq_true, if_false]
  split <;> rfl

/-- What counting an end-of-stream token changes: the core's input and count, and at EOSX the region's sink. -/
theorem exec_eosCount_spec : Next (exec (.eosCount ci idx) s) fun u =>
    (u.core ci).eosCount.atD t.tok.blk.toNat 0 = (s.core ci).eosCount.atD t.tok.blk.toNat 0 + 1 ∧
    (u.core ci).inbox = (s.core ci).inbox.eraseIdx idx ∧ CoresKept s u ci ∧ MemoryKept s u ∧
    ((s.core ci).eosCount.atD t.tok.blk.toNat 0 + 1 < k.expect → u.dev = s.dev) ∧
    (k.expect ≤ (s.core ci).eosCount.atD t.tok.blk.toNat 0 + 1 → u.dev.regions = s.dev.regions.map fun x => if x.num = r.num then
      { r with sinks := r.sinks.map fun y => if y.bid = t.tok.blk.toNat then { y with reported := true } else y } else x) := by
  have hcount : ((s.countEos ci idx t).core ci).eosCount.atD t.tok.blk.toNat 0 = (s.core ci).eosCount.atD t.tok.blk.toNat 0 + 1 := by
    simp only [State.countEos_core, NMap.atD_put_same]
  have hinbox : ((s.countEos ci idx t).core ci).inbox = (s.core ci).inbox.eraseIdx idx := by
    simp only [State.countEos_core, Core.accept]
  have hkept := s.countEos_coresKept ci idx t
  refine ⟨_, exec_eosCount_counts hin hr hkind hstop hnext hadm hsink hrep, ?_⟩
  by_cases hn : (s.core ci).eosCount.atD t.tok.blk.toNat 0 + 1 < k.expect
  · rw [if_pos hn]
    exact ⟨hcount, hinbox, hkept, .of_mem (s.countEos_mem ci idx t), fun _ => s.countEos_dev ci idx t, fun h => absurd hn (by omega)⟩
  · rw [if_neg hn]
    refine ⟨by rw [State.core_setRegion, hcount], by rw [State.core_setRegion, hinbox], fun cj hj => ?_, .of_mem (by simp),
      fun h => absurd h hn, fun _ => ?_⟩
    · rw [State.core_setRegion, hkept cj hj]
    · rw [State.setRegion_regions, r.reportSink_eq, State.countEos_dev]

end

/-! ## Collections (R19, R21) -/

theorem exec_collectionDeadline_of_due {s : State} {ci slot : Nat} (h : ∃ d ∈ s.dueColls ci, d.slot = slot) :
    exec (.collectionDeadline ci slot) s = .next (s.collectAll ci) := by
  rw [exec_collectionDeadline]
  exact if_pos (by simpa using h)

/-! ## Spills (R34) -/

theorem Core.foldl_spillEntry (xs : List (Nat × Entry)) (c : Core) :
    (xs.foldl Core.spillEntry c).spilled.length = c.spilled.length + xs.length ∧ ∀ e ∈ (xs.foldl Core.spillEntry c).entries, e ∈ c.entries := by
  induction xs generalizing c with
  | nil => exact ⟨rfl, fun _ h => h⟩
  | cons x xs ih =>
    obtain ⟨hlen, hmem⟩ := ih (c.spillEntry x)
    refine ⟨?_, fun e he => (List.mem_filter.mp (hmem e he)).1⟩
    have hone : (c.spillEntry x).spilled.length = c.spilled.length + 1 := by
      unfold Core.spillEntry
      exact List.length_append
    rw [List.foldl_cons, hlen, hone, List.length_cons]
    omega

theorem Core.spillVictims_length (c : Core) :
    c.spillVictims.length = min 32 (c.entries.filter fun e => e.2.phase == .incomplete).length := by
  unfold Core.spillVictims
  rw [List.length_take, sortBy_length]

/-- A core that runs short spills its victims while its area has room for them. -/
theorem exec_spill_of_room {s : State} {ci : Nat} (hshort : s.short ci = true) (hroom : (s.core ci).areaFull = false) :
    exec (.spill ci) s = .next (s.setCore ci ((s.core ci).spillVictims.foldl Core.spillEntry { s.core ci with spillStop := false })) := by
  rw [exec_spill]
  unfold execSpill
  simp only [hshort, hroom, Bool.not_true, Bool.false_eq_true, if_false]

/-! ## Records that land and come back (R35, R36) -/

theorem exec_spillRecordLanded_of_spill {s : State} {ci idx : Nat} {r : SpillRec} (hr : (s.core ci).spilled[idx]? = some r)
    (hback : r.toCore = false) (hland : r.landed = false) : exec (.spillRecordLanded ci idx) s =
      .next ((s.setCore ci { s.core ci with spilled := (s.core ci).spilled.set idx { r with landed := true } }).mergeHeld ci r.entry) := by
  rw [exec_spillRecordLanded]
  unfold execSpillRecordLanded
  simp only [hr, hback, hland, Bool.false_eq_true, if_false]

/-- With entries and a frame free, the first complete record that landed is on its way back once its address translates. -/
theorem exec_refill_of_translated {s s' : State} {ci : Nat} {r : SpillRec} {pl : Target}
    (hpick : ((s.core ci).spilled.filter fun x => x.landed && !x.toCore && !(s.core ci).refillParked x.num).find?
      (fun x => x.entry.phase == .complete) = some r)
    (hroom : (s.core ci).entriesUsed + 1024 ≤ 4096) (hframe : ((s.core ci).freeFrame? r.entry.lines).isSome = true)
    (hq : (s.core ci).quenched = none) (hx : (s.modCore ci fun c =>
      ({ c with park := c.park.filter fun p => p.refill != some r.num } : Core).refillPark).engineXl ci r.num (s.core ci).cfg.asid
        (recVA (s.core ci) r.num) { write := false, priv := true, peer := false } = (.ok pl, s')) :
    exec (.refill ci) s = .next (s'.modCore ci fun c =>
      { c with spilled := replaceIf (fun x => x.num == r.num) (fun x => { x with toCore := true }) c.spilled }) := by
  have hfull : ¬ matchEntries < (s.core ci).entriesUsed + 1024 := by
    unfold matchEntries
    omega
  rw [exec_refill]
  unfold execRefill
  simp only [hpick, hfull, hq, hx, Option.isNone_eq_false_iff.mpr hframe, Option.isSome_none, Bool.or_self, decide_false, Bool.false_eq_true,
    if_false]

end Sys2Proof.Machine

namespace Sys2Proof.Proofs

open Sys2Proof.Machine Sys2Proof.Claims

/-- Settles O32, event by event: a taken token that starts an instance, the count of an end-of-stream token, due collections, spills, and
records that land and come back. -/
theorem matchingStoreEvents : Obligations.MatchingStoreEvents := by
  intro ci idx s c
  refine ⟨?_, fun t => exec_tokenArrival_of_taken, ?_, ?_, exec_postponedCollection ci s, ?_, ?_, ?_⟩
  · intro t slot b ht hres hmark hfr hbad habs at_ hfree
    refine ⟨_, exec_tokenArrival_starts ht hres hmark hfr hbad habs hfree, ?_⟩
    rw [State.core_setCore_same]
    obtain ⟨hentry, hcell⟩ := (c.accept idx t).startInstance_spec t.tok slot b at_ (s.gtcAt (dieOf ci)) s.arith
    exact ⟨rfl, rfl, hentry, hcell, (s.setCore_coresKept ci _).trans (State.setCore_coresKept _ ci _), .of_mem (by simp)⟩
  · exact fun t r k => exec_eosCount_spec
  · exact exec_collectionDeadline_of_due
  · intro hshort hroom
    have hfull : c.areaFull = false := decide_eq_false (Nat.not_lt.mpr hroom)
    obtain ⟨hlen, hmem⟩ := Core.foldl_spillEntry c.spillVictims { c with spillStop := false }
    rw [Core.spillVictims_length] at hlen
    refine ⟨_, exec_spill_of_room hshort hfull, ?_⟩
    beta_reduce
    rw [State.core_setCore_same]
    exact ⟨hlen, hmem, s.setCore_coresKept ci _, .of_mem (by simp)⟩
  · exact fun r hr hback hland => ⟨_, exec_spillRecordLanded_of_spill hr hback hland, rfl⟩
  · intro r s' pl hpick hroom hframe hq hx
    refine ⟨_, exec_refill_of_translated hpick hroom hframe hq hx, fun x hm hnum => ?_⟩
    rw [State.core_modCore_same] at hm
    obtain ⟨y, -, rfl⟩ := List.mem_map.mp hm
    by_cases hy : y.num = r.num
    · simp [hy]
    · simp [hy] at hnum

end Sys2Proof.Proofs
end

section
/-! Commit, the release of tokens, and barriers (R14, R27, R30, R33, R281, R292). -/

namespace Sys2Proof.Machine

open Sys2Proof.Claims

/-- A part of a core that an update of some core leaves alone, whichever core it is. -/
theorem State.core_modCore_part {β : Type} (part : Core → β) {f : Core → Core} (hf : ∀ c, part (f c) = part c) (s : State) (ci cj : Nat) :
    part ((s.modCore ci f).core cj) = part (s.core cj) := by
  by_cases h : cj = ci
  · subst h; rw [State.core_modCore_same, hf]
  · rw [State.core_modCore_other _ _ _ _ h]

/-- A core's region that is written reads as written. -/
theorem State.coreRegion?_setRegion {s : State} {ci : Nat} {r r' : Region} (hr : s.coreRegion? ci = some r) (hn : r'.num = r.num) :
    (s.setRegion r').coreRegion? ci = some r' := by
  obtain ⟨hc, hnum⟩ := State.coreRegion?_eq_some hr
  have := s.region?_setRegion_same r'
  rw [hn, hnum] at this
  unfold State.coreRegion?
  rw [State.core_setRegion, hc]
  exact this

/-! ## Steps 3 to 5 of a commit (R30) -/

theorem exec_blockCommit_commits {s : State} {ci gi : Nat} {g : Group} (hg : (s.core ci).group? gi = some g)
    (hend : g.atEnd (s.core ci) = true) (hmay : (s.core ci).mayCommit g = true) (hlost : s.lostAtCommit g = none) :
    exec (.blockCommit ci gi) s = .next (s.commitGroup ci gi g) := by
  rw [exec_blockCommit]
  unfold execBlockCommit
  simp only [hg, hend, hmay, hlost, Bool.not_true, Bool.false_eq_true, if_false]

/-- Step 3: the store buffer leaves for the slices, and the changes of the words are made in program order. -/
theorem State.commitPass_eq (s : State) (ci gi num : Nat) (g : Group) : ∃ p : State,
    p.transit = s.transit ++ g.sbuf.map (fun b => (ci, SliceReq.update num ci b)) ∧ MemoryKept s p ∧
    s.commitPass ci gi num g = g.deferred.foldl (fun u d => u.applyDeferred ci g d) p := by
  refine ⟨_, ?_, .of_mem ?_, rfl⟩
  · exact List.foldlRecOn (motive := fun u : State => u.transit = _) _ _ rfl fun u hu d _ => hu
  · exact List.foldlRecOn (motive := fun u : State => u.mem = _) _ _ rfl fun u hu d _ => hu

theorem NMap.at?_filter_none {α : Type} (m : NMap α) (p : Nat × α → Bool) (k : Nat) (h : ∀ v, p (k, v) = false) :
    NMap.at? (m.filter p) k = none := by
  induction m with
  | nil => rfl
  | cons e m ih =>
    obtain ⟨j, v⟩ := e
    rw [List.filter_cons]
    split
    · next hp =>
      rw [NMap.at?, if_neg (fun hj => ?_), ih]
      subst hj
      exact absurd hp (by simp [h])
    · exact ih

/-- Step 4: the instances of the group are freed. -/
theorem State.commitFree_entries (s : State) (ci : Nat) (g : Group) {n : Nat} (hn : n ∈ g.insts) :
    ((s.commitFree ci g).core ci).entries.at? n = none := by
  rw [State.commitFree, State.core_modCore_same]
  exact NMap.at?_filter_none _ _ _ fun v => by simpa using hn

/-- Of steps that only add to an outbox, the one for x adds an item that stays. -/
theorem Core.foldl_outbox {α : Type} {f : Core → α → Core} (hmono : ∀ c x, ∀ o ∈ c.outbox, o ∈ (f c x).outbox) {x : α} {P : OutItem → Prop}
    (hadds : ∀ c, ∃ o ∈ (f c x).outbox, P o) {xs : List α} (hx : x ∈ xs) (c : Core) : ∃ o ∈ (xs.foldl f c).outbox, P o := by
  obtain ⟨before, after, rfl⟩ := List.append_of_mem hx
  obtain ⟨o, ho, hP⟩ := hadds (before.foldl f c)
  rw [List.foldl_append, List.foldl_cons]
  exact ⟨o, List.foldlRecOn (motive := fun c : Core => o ∈ c.outbox) _ _ ho fun c hc y _ => hmono c y o hc, hP⟩

theorem Core.post_outbox (c : Core) (commit grp : Nat) (sc : Scope) (it : SendItem) : ∀ o ∈ c.outbox, o ∈ (c.post commit grp sc it).outbox :=
  fun _ ho => List.mem_append_left _ ho

theorem Core.sendItem_outbox (c : Core) (gi num : Nat) (g : Group) (ops : List AtomOp) (it : SendItem) :
    ∀ o ∈ c.outbox, o ∈ (c.sendItem gi num g ops it).outbox := by
  intro o ho
  unfold Core.sendItem
  split
  case h_3 =>
    dsimp only
    split
    · exact List.mem_append_left _ ho
    · exact ho
  all_goals exact List.mem_append_left _ ho

/-- Step 5: a token of the commit joins the outbox, held by the commit's barriers. -/
theorem State.commitSend_token (s : State) (ci gi num : Nat) {g : Group} {t : Token} (ht : SendItem.token t ∈ g.sendq) :
    ∃ o ∈ ((s.commitSend ci gi num g).core ci).outbox, o.item = .token t ∧ o.commit = num ∧ o.grp = gi ∧ o.bars = g.barRefs := by
  rw [State.commitSend, State.core_modCore_same]
  obtain ⟨o, ho, hP⟩ := Core.foldl_outbox (P := fun o => o.item = .token t ∧ o.commit = num ∧ o.grp = gi ∧ o.bars = g.barRefs)
    (f := fun c it => c.sendItem gi num g (g.sbuf.flatMap fun b => b.ops) it) (fun c x => c.sendItem_outbox gi num g _ x)
    (fun c => ⟨_, List.mem_append_right _ (List.mem_singleton_self _), rfl, rfl, rfl, rfl⟩) ht
    ((if g.domRel then s.drainIf ci fun _ => true else s).core ci)
  exact ⟨o, List.foldlRecOn (motive := fun c : Core => o ∈ c.outbox) _ _ ho fun c hc it _ => c.post_outbox _ _ _ _ o hc, hP⟩

/-- Step 5: colours to free join the outbox behind the descriptors (R374). -/
theorem State.commitSend_colFree (s : State) (ci gi num : Nat) {g : Group} {ids : List Nat} (h : Deferred.colFree ids ∈ g.deferred) :
    ∃ o ∈ ((s.commitSend ci gi num g).core ci).outbox, o.item = .colFree ids := by
  rw [State.commitSend, State.core_modCore_same]
  exact Core.foldl_outbox (P := fun o => o.item = .colFree ids) (f := fun c it => c.post num gi .grp it) (fun c x => c.post_outbox num gi .grp x)
    (fun c => ⟨_, List.mem_append_right _ (List.mem_singleton_self _), rfl⟩) (List.mem_filterMap.mpr ⟨_, h, rfl⟩) _

/-! ## The changes that words left (R33) -/

section
variable (s : State) (ci : Nat) (g : Group)

theorem State.applyDeferred_gang (n : Nat) :
    ((s.applyDeferred ci g (.gang n)).core ci).team g.team = { (s.core ci).team g.team with gcount := n } := by
  rw [State.applyDeferred, State.core_modCore_same, Core.team_setTeam_same]

theorem State.applyDeferred_tswap (t : Nat) : ((s.applyDeferred ci g (.tswap t)).core ci).tcur.atD t 0 = 1 - (s.core ci).tcur.atD t 0 := by
  rw [State.applyDeferred, State.core_modCore_same]
  exact NMap.atD_put_same (α := Nat) _ _ _ _

/-- A word sets a field of a bound slot. -/
theorem State.applyDeferred_slot_bound {k : Nat} (hk : k ≤ 127) (hb : ((s.core ci).slot k).bid ≠ 0xFFF) (n : Nat) :
    ((s.applyDeferred ci g (.timer k n)).core ci).slot k = { (s.core ci).slot k with timer := n } ∧
    ((s.applyDeferred ci g (.prio k n)).core ci).slot k = { (s.core ci).slot k with prio := n } := by
  simp only [State.applyDeferred, State.core_modCore_same, if_pos (And.intro hk hb), Core.slot_setSlot_same, and_self]

/-- An unbound slot takes no field. -/
theorem State.applyDeferred_slot_unbound {k : Nat} (h : 127 < k ∨ ((s.core ci).slot k).bid = 0xFFF) (n : Nat) :
    (s.applyDeferred ci g (.timer k n)).core ci = s.core ci ∧ (s.applyDeferred ci g (.prio k n)).core ci = s.core ci := by
  have hno : ¬ (k ≤ 127 ∧ ((s.core ci).slot k).bid ≠ 0xFFF) := fun x => h.elim (by omega) x.2
  simp only [State.applyDeferred, State.core_modCore_same, if_neg hno, and_self]

/-- LDBLK binds its slot to the block's record at the lowest run of the store that takes it (R376). -/
theorem State.applyDeferred_ldblk_of_room {k bid at_ : Nat} (h : freeRun? ((s.core ci).storeRuns k)
    (4 + hdrLen (s.recHdr (s.blockRec (s.core ci) bid))) = some at_) :
    let hdr := s.recHdr (s.blockRec (s.core ci) bid)
    let b := ((s.applyDeferred ci g (.ldblk k bid)).core ci).slot k
    b.bid = bid ∧ b.hdr = hdr ∧ b.timer = hdrTimer hdr ∧ b.prio = hdrPrio hdr ∧ b.storeAt = at_ ∧ b.recPA = s.blockRec (s.core ci) bid ∧
      b.resident = false ∧ b.closing = false := by
  simp only [State.applyDeferred, State.bindSlot, State.core_modCore_same, h, Core.slot_setSlot_same, and_self]

theorem State.applyDeferred_ldblk_of_full {k bid : Nat} (h : freeRun? ((s.core ci).storeRuns k)
    (4 + hdrLen (s.recHdr (s.blockRec (s.core ci) bid))) = none) :
    ((s.applyDeferred ci g (.ldblk k bid)).core ci).slot k = BlockSlot.unbound := by
  simp only [State.applyDeferred, State.bindSlot, State.core_modCore_same, h, Core.slot_setSlot_same]

/-- A new colour lives in its region; the others are as before (R373). -/
theorem State.applyDeferred_colAlloc {r : Region} (hr : s.coreRegion? ci = some r) (id w : Nat) (p : Option Nat) :
    ∃ r', (s.applyDeferred ci g (.colAlloc id w p)).coreRegion? ci = some r' ∧
      r'.colour id = { live := true, wlog := w, parent := p } ∧ ∀ k, k ≠ id → r'.colour k = r.colour k := by
  simp only [State.applyDeferred, hr]
  refine ⟨_, State.coreRegion?_setRegion hr rfl, ?_, fun k hk => ?_⟩
  · simp [Region.colour, NMap.atD, NMap.at?_ins_same]
  · simp [Region.colour, NMap.atD, NMap.at?_ins_other _ _ _ _ hk]

/-- FLTH as SRWR leaves it (R385). -/
theorem State.applyDeferred_flth {r : Region} (hr : s.coreRegion? ci = some r) (n : DWord) :
    ∃ r', (s.applyDeferred ci g (.sysWrite 0x130 n)).coreRegion? ci = some r' ∧ r'.flth = loWord n &&& 0xCFFF0FFF := by
  have h : s.applyDeferred ci g (.sysWrite 0x130 n) = s.setRegion { r with flth := loWord n &&& flthMask } := by
    simp [State.applyDeferred, State.sysWrite, srTlbVa, srTlbCtl, srRevoke, srFlth, hr]
  rw [h]
  exact ⟨_, State.coreRegion?_setRegion hr rfl, rfl⟩

/-- Changes of teams, tables, slots and colours leave the other cores and memory alone. -/
theorem State.applyDeferred_frame (n t k bid id w : Nat) (p : Option Nat) :
    ∀ d ∈ [Deferred.gang n, .tswap t, .timer k n, .prio k n, .ldblk k bid, .colAlloc id w p],
      CoresKept s (s.applyDeferred ci g d) ci ∧ MemoryKept s (s.applyDeferred ci g d) := by
  have onCore : ∀ f : Core → Core, CoresKept s (s.modCore ci f) ci ∧ MemoryKept s (s.modCore ci f) :=
    fun f => ⟨s.modCore_coresKept ci f, .of_mem (State.modCore_mem _ _ _)⟩
  simp only [State.applyDeferred, State.bindSlot, List.forall_mem_cons]
  refine ⟨onCore _, onCore _, onCore _, onCore _, onCore _, ?_, fun _ h => absurd h List.not_mem_nil⟩
  cases s.coreRegion? ci with
  | none => exact ⟨.refl s ci, .of_mem rfl⟩
  | some r => exact ⟨fun cj _ => State.core_setRegion _ _ _, .of_mem (by simp)⟩

end

end Sys2Proof.Machine
end

section
/-! Tokens leave a commit (R14, R281, R297), and barrier arrivals count (R292). -/

namespace Sys2Proof.Machine

open Sys2Proof.Claims

/-! ## What the route of a token depends on -/

section
variable {s t : State} {ci : Nat} (h : (t.core ci).cfg = (s.core ci).cfg)
include h

theorem State.routeTile_of_cfg (r : Region) (k : Nat) : t.routeTile r ci k = s.routeTile r ci k := by
  unfold State.routeTile; rw [h]

theorem State.tokenCore_of_cfg (r : Region) (k : Token) : t.tokenCore r ci k = s.tokenCore r ci k := by
  unfold State.tokenCore State.homeCore Core.firstRoute
  simp only [State.routeTile_of_cfg h, h]

theorem State.meshPacket_of_cfg (hd : t.dev = s.dev) (k : Token) : t.meshPacket ci k = s.meshPacket ci k := by
  unfold State.meshPacket; rw [h, hd]

theorem State.ownToken_of_cfg (hd : t.dev = s.dev) (k : Token) : t.ownToken ci k = s.ownToken ci k := by
  unfold State.ownToken; rw [State.meshPacket_of_cfg h hd]

end

/-! ## Delivery -/

theorem State.core_toInbox_inbox (s : State) (ci : Nat) (t : InTok) : ((s.toInbox ci t).core ci).inbox = (s.core ci).inbox ++ [t] := by
  rw [State.toInbox, State.core_modCore_same]

theorem State.core_toInbox_part {β : Type} (part : Core → β) (hp : ∀ c q, part { c with inbox := q } = part c) (s : State) (ci : Nat)
    (t : InTok) (cj : Nat) : part ((s.toInbox ci t).core cj) = part (s.core cj) :=
  State.core_modCore_part part (fun c => hp c _) s ci cj

section
variable {s : State} {ci : Nat} {r : Region} (hr : s.coreRegion? ci = some r) (grp : Option Nat) (t : Token)
include hr

/-- A token that no guard stops counts as sent and stands at its core's input (R13, R360). -/
theorem State.deliver_of_passed (hp : s.guardStop ci (s.tokenCore r ci t) = none) : s.deliver ci grp t none =
    (s.modCore ci fun c => { c with sent := c.sent + 1 }).toInbox (s.tokenCore r ci t) { s.ownToken ci t with grp := grp } := by
  have hown : (s.modCore ci fun c => { c with sent := c.sent + 1 }).ownToken ci t = s.ownToken ci t :=
    State.ownToken_of_cfg (by rw [State.core_modCore_same]) (State.modCore_dev _ _ _) t
  unfold State.deliver
  simp only [hr, hp, hown]
  rfl

/-- A guard of another tenant drops the token, with a record at its sender (R297, R416). -/
theorem State.deliver_of_stopped {tile : Nat} {edge : Bool} (hp : s.guardStop ci (s.tokenCore r ci t) = some (tile, edge)) :
    s.deliver ci grp t none = s.deadLetter (s.core ci).cfg.asid (srcCore tile) (dieOf tile)
      (deadTail dlParapet (if edge then 4 else 3) (placeTile tile) (s.meshPacket ci t)) (t.kind == .handler) none := by
  unfold State.deliver
  simp only [hr, hp]

end

/-! ## An item of the outbox leaves (R14, R281) -/

section
variable (s : State) (ci idx : Nat)

theorem State.core_takeOut : (s.takeOut ci idx).core ci = { s.core ci with outbox := (s.core ci).outbox.eraseIdx idx } :=
  State.core_modCore_same _ _ _

theorem State.takeOut_cfg : ((s.takeOut ci idx).core ci).cfg = (s.core ci).cfg := by rw [State.core_takeOut]

theorem State.takeOut_coreRegion? : (s.takeOut ci idx).coreRegion? ci = s.coreRegion? ci :=
  State.coreRegion?_of (by rw [State.core_takeOut]) (State.modCore_dev _ _ _)

theorem State.takeOut_guardStop (cj : Nat) : (s.takeOut ci idx).guardStop ci cj = s.guardStop ci cj :=
  State.guardStop_of (by rw [State.takeOut_cfg]) (by rw [State.takeOut, State.modCore_dev]) (by rw [State.takeOut, State.modCore_dev]) cj

end

/-- Nothing holds the token: no barrier, no effect that is not visible at its scope, no span word and no earlier token. -/
def State.tokenFree (s : State) (ci idx : Nat) (o : OutItem) (r : Region) (t : Token) : Bool :=
  let sc := scopeMax o.scope (s.scopeTo ci (s.tokenCore r ci t))
  o.bars.isEmpty && (s.core ci).tokenVisible o.commit sc && (o.after.all fun a => (s.core a.1).tokenVisible a.2 sc) &&
    !(s.core ci).spanBehind idx o && !s.tokenBehind r ci idx o (s.tokenCore r ci t)

section
variable {s : State} {ci : Nat} {r : Region} (hr : s.coreRegion? ci = some r) (idx : Nat) (o : OutItem) (t : Token)
include hr

theorem State.runToken_eq : s.runToken ci idx o t none =
    if s.tokenFree ci idx o r t then (s.takeOut ci idx).deliver ci (some o.grp) t none else s := by
  have held : ∀ a b c d e : Bool, (!a || !(b && c) || d || e) = !(a && b && c && !d && !e) := by decide
  unfold State.runToken
  simp only [hr, Option.isSome_none, Bool.false_eq_true, if_false]
  rw [held]
  cases hf : s.tokenFree ci idx o r t with
  | true => exact if_neg (by rw [State.tokenFree] at hf; rw [hf]; decide)
  | false => exact if_pos (by rw [State.tokenFree] at hf; rw [hf]; decide)

theorem exec_delayedTokenRelease_token (ho : (s.core ci).outbox[idx]? = some o) (hi : o.item = .token t) :
    exec (.delayedTokenRelease ci idx) s = .next (((if s.tokenFree ci idx o r t
      then (s.takeOut ci idx).deliver ci (some o.grp) t none else s).releaseSlots ci).sweepCommits ci) := by
  rw [exec_delayedTokenRelease, ← State.runToken_eq hr]
  unfold execDelayedTokenRelease
  simp only [ho, hi]

/-- A token that leaves stands at its core's input, has left the outbox, and counts as sent. -/
theorem State.takeOut_deliver_of_passed (hp : s.guardStop ci (s.tokenCore r ci t) = none) :
    let u := (s.takeOut ci idx).deliver ci (some o.grp) t none
    let d := s.tokenCore r ci t
    (u.core d).inbox = (s.core d).inbox ++ [{ s.ownToken ci t with grp := some o.grp }] ∧
      (u.core ci).outbox = (s.core ci).outbox.eraseIdx idx ∧ (u.core ci).sent = (s.core ci).sent + 1 := by
  have hcfg := s.takeOut_cfg ci idx
  have hp' : (s.takeOut ci idx).guardStop ci ((s.takeOut ci idx).tokenCore r ci t) = none := by
    rw [State.takeOut_guardStop, State.tokenCore_of_cfg hcfg, hp]
  dsimp only
  rw [State.deliver_of_passed ((s.takeOut_coreRegion? ci idx).trans hr) _ _ hp', State.tokenCore_of_cfg hcfg,
    State.ownToken_of_cfg hcfg (State.modCore_dev _ _ _)]
  have hsent : ∀ (v : State) cj, ((v.modCore ci fun c => { c with sent := c.sent + 1 }).core cj).inbox = (v.core cj).inbox :=
    fun v cj => State.core_modCore_part Core.inbox (fun _ => by rfl) v ci cj
  have hout : ∀ cj, ((s.takeOut ci idx).core cj).inbox = (s.core cj).inbox :=
    fun cj => State.core_modCore_part Core.inbox (fun _ => by rfl) s ci cj
  refine ⟨?_, ?_, ?_⟩
  · rw [State.core_toInbox_inbox, hsent, hout]
  · refine (State.core_toInbox_part Core.outbox (fun _ _ => rfl) _ _ _ _).trans ?_
    rw [State.core_modCore_same, State.core_takeOut]
  · refine (State.core_toInbox_part Core.sent (fun _ _ => rfl) _ _ _ _).trans ?_
    rw [State.core_modCore_same, State.core_takeOut]

theorem State.takeOut_deliver_of_stopped {tile : Nat} {edge : Bool} (hp : s.guardStop ci (s.tokenCore r ci t) = some (tile, edge)) :
    (s.takeOut ci idx).deliver ci (some o.grp) t none = (s.takeOut ci idx).deadLetter (s.core ci).cfg.asid (srcCore tile) (dieOf tile)
      (deadTail dlParapet (if edge then 4 else 3) (placeTile tile) (s.meshPacket ci t)) (t.kind == .handler) none := by
  have hcfg := s.takeOut_cfg ci idx
  have hp' : (s.takeOut ci idx).guardStop ci ((s.takeOut ci idx).tokenCore r ci t) = some (tile, edge) := by
    rw [State.takeOut_guardStop, State.tokenCore_of_cfg hcfg, hp]
  rw [State.deliver_of_stopped ((s.takeOut_coreRegion? ci idx).trans hr) _ _ hp', hcfg,
    State.meshPacket_of_cfg hcfg (State.modCore_dev _ _ _)]

end

end Sys2Proof.Machine
end

section
namespace Sys2Proof.Machine

open Sys2Proof.Claims

/-! ## Barriers (R292) -/

/-- An arrival that reaches the generation's count opens it. -/
theorem Channel.arrive_opens {h : Channel} {n need : Nat} (hn : (if h.count = 0 then need else h.need) ≤ h.count + n) (who : Nat × Nat) :
    h.arrive n need who = ({ count := 0, need := 0, gen := h.gen + 1, from_ := [] }, true) := by
  unfold Channel.arrive
  exact if_pos hn

/-- One below it counts. -/
theorem Channel.arrive_counts {h : Channel} {n need : Nat} (hn : h.count + n < if h.count = 0 then need else h.need) (who : Nat × Nat) :
    h.arrive n need who =
      ({ count := h.count + n, need := if h.count = 0 then need else h.need, gen := h.gen, from_ := h.from_ ++ [who] }, false) := by
  unfold Channel.arrive
  exact if_neg (Nat.not_le.mpr hn)

/-- A generation that opened holds no token any more. -/
theorem Core.openBars_free (c : Core) (a : Arrival) (gen : Nat) (who : List (Nat × Nat)) :
    ∀ o ∈ (c.openBars a gen who).outbox, (a.clus, a.owner, a.chan, gen + 1) ∉ o.bars := by
  intro o ho hb
  obtain ⟨x, -, rfl⟩ := List.mem_map.mp ho
  split at hb
  · simpa using (List.mem_filter.mp hb).2
  · next hx => exact hx (List.any_eq_true.mpr ⟨_, hb, by simp⟩)

/-- A core on which an arrival at a team's barrier is counted; `who` is the commit that arrives. -/
def Core.arriveTeam (a : Arrival) (who : Nat × Nat) (c : Core) : Core :=
  let old := (c.team a.owner).chans.atD a.chan Channel.empty
  let h := old.arrive a.insts a.need who
  let d := (c.setTeam a.owner { c.team a.owner with chans := (c.team a.owner).chans.put Channel.empty a.chan h.1 }).tieBars a old.gen
  if h.2 then d.openBars a old.gen (old.from_ ++ [who]) else d

theorem Core.arriveTeam_barArrivals (a : Arrival) (who : Nat × Nat) (c : Core) : (c.arriveTeam a who).barArrivals = c.barArrivals := by
  unfold Core.arriveTeam
  dsimp only
  split <;> rfl

/-- The channel after an arrival at a team's barrier; a generation that opens holds no token. -/
theorem Core.arriveTeam_spec (a : Arrival) (who : Nat × Nat) (c : Core) :
    let old := (c.team a.owner).chans.atD a.chan Channel.empty
    ((c.arriveTeam a who).team a.owner).chans.atD a.chan Channel.empty = (old.arrive a.insts a.need who).1 ∧
    ((old.arrive a.insts a.need who).2 = true → ∀ o ∈ (c.arriveTeam a who).outbox, (a.clus, a.owner, a.chan, old.gen + 1) ∉ o.bars) := by
  have hteam : ∀ x : Team, (((c.setTeam a.owner x).tieBars a ((c.team a.owner).chans.atD a.chan Channel.empty).gen).team a.owner) = x :=
    fun x => Core.team_setTeam_same _ _ _
  unfold Core.arriveTeam
  dsimp only
  split
  · exact ⟨(congrArg (fun x : Team => x.chans.atD a.chan Channel.empty) (hteam _)).trans (NMap.atD_put_same _ _ _ _),
      fun _ => Core.openBars_free _ _ _ _⟩
  · next h =>
    exact ⟨(congrArg (fun x : Team => x.chans.atD a.chan Channel.empty) (hteam _)).trans (NMap.atD_put_same _ _ _ _), fun h' => absurd h' h⟩

section
variable {s : State} {ci idx : Nat} {a : Arrival} (ha : (s.core ci).barArrivals[idx]? = some a)
include ha

theorem exec_barrierArrival_team (hc : a.clus = false) (hv : (s.core ci).visible a.commit .team = true) :
    exec (.barrierArrival ci idx) s = .next ((s.modCore ci fun c => { c with barArrivals := c.barArrivals.eraseIdx idx }).modCore ci
      (Core.arriveTeam a (ci, a.commit))) := by
  rw [exec_barrierArrival]
  unfold execBarrierArrival
  simp only [ha, hc, hv, Bool.false_eq_true, if_false, Bool.not_true]
  rfl

/-- The state in which the keeper has counted an arrival at a cluster's barrier, and its tokens have learned their generation. -/
def State.arriveClus (s : State) (ci k : Nat) (a : Arrival) : State :=
  let old := (s.core k).clusBars.atD (a.owner * 4 + a.chan) Channel.empty
  let h := old.arrive a.insts a.need (ci, a.commit)
  (s.modCore k fun c => { c with clusBars := c.clusBars.put Channel.empty (a.owner * 4 + a.chan) h.1 }).modCore ci fun c => c.tieBars a old.gen

/-- A generation that opens on the cores of a cluster. -/
def State.openClus (s : State) (cores : List Nat) (a : Arrival) (gen : Nat) (who : List (Nat × Nat)) : State :=
  cores.foldl (fun s cj => s.modCore cj fun c => c.openBars a gen who) s

theorem exec_barrierArrival_clus (hc : a.clus = true) (hv : (s.core ci).visible a.commit .clus = true) :
    let u := s.modCore ci fun c => { c with barArrivals := c.barArrivals.eraseIdx idx }
    let old := (u.core (clusKeeper (s.core ci) ci)).clusBars.atD (a.owner * 4 + a.chan) Channel.empty
    let v := u.arriveClus ci (clusKeeper (s.core ci) ci) a
    exec (.barrierArrival ci idx) s = .next (if (old.arrive a.insts a.need (ci, a.commit)).2
      then v.openClus (clusCores (s.core ci) ci) a old.gen (old.from_ ++ [(ci, a.commit)]) else v) := by
  rw [exec_barrierArrival]
  unfold execBarrierArrival
  simp only [ha, hc, hv, if_true, Bool.not_true, Bool.false_eq_true, if_false]
  rfl

end

/-- An arrival at a team's barrier is counted, and leaves the core's list of arrivals. -/
theorem exec_barrierArrival_team_spec {s : State} {ci idx : Nat} {a : Arrival} (ha : (s.core ci).barArrivals[idx]? = some a)
    (hc : a.clus = false) (hv : (s.core ci).visible a.commit .team = true) :
    let old := ((s.core ci).team a.owner).chans.atD a.chan Channel.empty
    Next (exec (.barrierArrival ci idx) s) fun u =>
      ((u.core ci).team a.owner).chans.atD a.chan Channel.empty = (old.arrive a.insts a.need (ci, a.commit)).1 ∧
      (u.core ci).barArrivals = (s.core ci).barArrivals.eraseIdx idx ∧
      ((old.arrive a.insts a.need (ci, a.commit)).2 = true → ∀ o ∈ (u.core ci).outbox, (a.clus, a.owner, a.chan, old.gen + 1) ∉ o.bars) ∧
      CoresKept s u ci ∧ MemoryKept s u := by
  refine ⟨_, exec_barrierArrival_team ha hc hv, ?_⟩
  beta_reduce
  rw [State.core_modCore_same, State.core_modCore_same]
  obtain ⟨hchan, hopen⟩ := Core.arriveTeam_spec a (ci, a.commit) { s.core ci with barArrivals := (s.core ci).barArrivals.eraseIdx idx }
  exact ⟨hchan, Core.arriveTeam_barArrivals _ _ _, hopen, (s.modCore_coresKept ci _).trans (State.modCore_coresKept _ ci _),
    .of_mem (by simp)⟩

theorem State.openClus_frame (s : State) (cores : List Nat) (a : Arrival) (gen : Nat) (who : List (Nat × Nat)) :
    (∀ cj, ((s.openClus cores a gen who).core cj).clusBars = (s.core cj).clusBars ∧
      ((s.openClus cores a gen who).core cj).barArrivals = (s.core cj).barArrivals) ∧ (s.openClus cores a gen who).mem = s.mem := by
  refine List.foldlRecOn (motive := fun u : State => (∀ cj, (u.core cj).clusBars = (s.core cj).clusBars ∧
    (u.core cj).barArrivals = (s.core cj).barArrivals) ∧ u.mem = s.mem) _ _ ⟨fun _ => ⟨rfl, rfl⟩, rfl⟩ fun u ⟨hcores, hmem⟩ k _ => ?_
  refine ⟨fun cj => ⟨?_, ?_⟩, (State.modCore_mem _ _ _).trans hmem⟩
  · rw [← (hcores cj).1]
    exact State.core_modCore_part Core.clusBars (fun _ => by rfl) u k cj
  · rw [← (hcores cj).2]
    exact State.core_modCore_part Core.barArrivals (fun _ => by rfl) u k cj

theorem State.arriveClus_spec (s : State) (ci k : Nat) (a : Arrival) :
    ((s.arriveClus ci k a).core k).clusBars.atD (a.owner * 4 + a.chan) Channel.empty =
      (((s.core k).clusBars.atD (a.owner * 4 + a.chan) Channel.empty).arrive a.insts a.need (ci, a.commit)).1 ∧
    ((s.arriveClus ci k a).core ci).barArrivals = (s.core ci).barArrivals ∧ (s.arriveClus ci k a).mem = s.mem := by
  unfold State.arriveClus
  dsimp only
  refine ⟨?_, ?_, by simp⟩
  · rw [State.core_modCore_part Core.clusBars (fun c => by rfl), State.core_modCore_same]
    exact NMap.atD_put_same _ _ _ _
  · rw [State.core_modCore_part Core.barArrivals (fun c => by rfl)]
    exact State.core_modCore_part Core.barArrivals (fun _ => by rfl) s k ci

/-- An arrival at a cluster's barrier is counted by the cluster's keeper, and leaves the core's list of arrivals. -/
theorem exec_barrierArrival_clus_spec {s : State} {ci idx : Nat} {a : Arrival} (ha : (s.core ci).barArrivals[idx]? = some a)
    (hc : a.clus = true) (hv : (s.core ci).visible a.commit .clus = true) :
    let k := clusKeeper (s.core ci) ci
    let old := (s.core k).clusBars.atD (a.owner * 4 + a.chan) Channel.empty
    Next (exec (.barrierArrival ci idx) s) fun u =>
      (u.core k).clusBars.atD (a.owner * 4 + a.chan) Channel.empty = (old.arrive a.insts a.need (ci, a.commit)).1 ∧
      (u.core ci).barArrivals = (s.core ci).barArrivals.eraseIdx idx ∧ MemoryKept s u := by
  intro k old
  obtain ⟨hbars, harr, hmem⟩ := (s.modCore ci fun c => { c with barArrivals := c.barArrivals.eraseIdx idx }).arriveClus_spec ci k a
  rw [State.core_modCore_part Core.clusBars (fun _ => by rfl)] at hbars
  rw [State.core_modCore_same] at harr
  refine ⟨_, exec_barrierArrival_clus ha hc hv, ?_⟩
  split
  · obtain ⟨hcores, hmem'⟩ := State.openClus_frame (State.arriveClus _ ci k a) (clusCores (s.core ci) ci) a _ _
    exact ⟨(congrArg (NMap.atD · _ _) (hcores k).1).trans hbars, (hcores ci).2.trans harr, .of_mem (hmem'.trans hmem)⟩
  · exact ⟨hbars, harr, .of_mem hmem⟩

end Sys2Proof.Machine

namespace Sys2Proof.Proofs

open Sys2Proof.Machine Sys2Proof.Claims

/-- Settles O33: the steps of a commit, the release of a token, the two kinds of barrier arrival and the changes of step 3, each by its
own lemma. -/
theorem commitReleaseAndBarriers : Obligations.CommitReleaseAndBarriers := by
  intro ci gi s c
  refine ⟨?_, ?_, fun idx a ha hc hv => exec_barrierArrival_team_spec ha hc hv, fun idx a ha hc hv => exec_barrierArrival_clus_spec ha hc hv, ?_,
    fun h n need who => ⟨fun hn => Channel.arrive_opens hn who, fun hn => Channel.arrive_counts hn who⟩⟩
  · intro g hg hend hmay hlost v w x
    exact ⟨exec_blockCommit_commits hg hend hmay hlost, s.commitPass_eq ci gi c.nextNum g, fun ids => w.commitSend_colFree ci gi _,
      fun n hn => v.commitFree_entries ci g hn, fun t => w.commitSend_token ci gi _⟩
  · intro idx o t r ho hi hr d sc free u
    have hexec := exec_delayedTokenRelease_token hr idx o t ho hi
    refine ⟨fun hf => ?_, fun hf => ?_, State.takeOut_deliver_of_passed hr idx o t, fun tile edge => State.takeOut_deliver_of_stopped hr idx o t⟩
    · rw [hexec, if_pos (show s.tokenFree ci idx o r t = true from hf)]
    · rw [hexec, if_neg (Bool.eq_false_iff.mp (show s.tokenFree ci idx o r t = false from hf))]
  · intro g made
    exact ⟨s.applyDeferred_gang ci g, s.applyDeferred_tswap ci g, fun k n hk hb => s.applyDeferred_slot_bound ci g hk hb n,
      fun k n h => s.applyDeferred_slot_unbound ci g h n,
      fun k bid => ⟨fun at_ => s.applyDeferred_ldblk_of_room ci g, s.applyDeferred_ldblk_of_full ci g⟩,
      fun id w p r hr => s.applyDeferred_colAlloc ci g hr id w p, fun n r hr => s.applyDeferred_flth ci g hr n,
      fun fid past => ⟨rfl, rfl⟩, s.applyDeferred_frame ci g⟩

end Sys2Proof.Proofs
end

section
/-! Words and their fields (R40 to R55): cutting a word into fields and putting the fields together again. -/

namespace Sys2Proof

/-! ## Codes -/

theorem Operand.ofCode_code (o : Operand) : Operand.ofCode o.code = some o := by
  generalize hm : o.code = m
  unfold Operand.ofCode
  cases o with
  | v n =>
    have hm' : n.val = m := hm
    subst hm'
    rw [dif_pos n.isLt]
  | k n =>
    have hm' : 0x80 + n.val = m := hm
    rw [dif_neg (by omega), dif_pos (by omega)]
    exact congrArg (fun n => some (Operand.k n)) (Fin.ext (by dsimp only; omega))
  | inp n =>
    have hm' : 0xC0 + n.val = m := hm
    rw [dif_neg (by omega), dif_neg (by omega), dif_pos (by omega)]
    exact congrArg (fun n => some (Operand.inp n)) (Fin.ext (by dsimp only; omega))
  | sp x => subst hm; cases x <;> rfl
  | p n =>
    have hm' : 0xE0 + n.val = m := hm
    rw [dif_neg (by omega), dif_neg (by omega), dif_neg (by omega), if_neg (by omega), if_neg (by omega), dif_pos (by omega)]
    exact congrArg (fun n => some (Operand.p n)) (Fin.ext (by dsimp only; omega))
  | em => subst hm; rfl
  | zero => subst hm; rfl

theorem Operand.code_of_ofCode {n : Nat} {o : Operand} (h : Operand.ofCode n = some o) : o.code = n := by
  unfold Operand.ofCode at h
  split at h
  · cases h; rfl
  split at h
  · cases h; simp only [Operand.code]; omega
  split at h
  · cases h; simp only [Operand.code]; omega
  split at h
  · cases h
  split at h
  · obtain ⟨x, hx, rfl⟩ := Option.map_eq_some_iff.mp h
    have : x.index = n - 0xD0 := by
      unfold Special.ofIndex at hx
      split at hx <;> cases hx <;> simp_all [Special.index]
    simp only [Operand.code]; omega
  split at h
  · cases h; simp only [Operand.code]; omega
  split at h
  · cases h; simp only [Operand.code]; omega
  split at h
  · cases h; simp only [Operand.code]; omega
  · cases h

theorem Operand.code_lt (o : Operand) : o.code < 256 := by
  cases o with
  | sp x => cases x <;> decide
  | _ => simp only [Operand.code]; omega

theorem Ty.ofCode_code (t : Ty) : Ty.ofCode t.code = some t := by cases t <;> rfl

theorem Ty.code_of_ofCode {n : Nat} {t : Ty} (h : Ty.ofCode n = some t) : t.code = n := by
  unfold Ty.ofCode at h
  split at h <;> cases h <;> rfl

theorem Ty.code_lt (t : Ty) : t.code < 16 := by cases t <;> decide

theorem Scope.ofCode_code (s : Scope) : Scope.ofCode s.code = s := by cases s <;> rfl

theorem Scope.code_lt (s : Scope) : s.code < 8 := by cases s <;> decide

theorem Scope.code_ofCode {n : Nat} (h : n < 8) : (Scope.ofCode n).code = n := by
  interval_cases n <;> rfl

theorem Order.ofCode_code (o : Order) : Order.ofCode o.code = o := by cases o <;> rfl

theorem Order.code_lt (o : Order) : o.code < 4 := by cases o <;> decide

theorem Order.code_ofCode {n : Nat} (h : n < 4) : (Order.ofCode n).code = n := by
  interval_cases n <;> rfl

theorem Src3.ofRaw_code (c : Src3) : Src3.ofRaw c.code c.ic = some c := by
  cases c with
  | op o => simp [Src3.ofRaw, Src3.code, Src3.ic, Operand.ofCode_code]
  | imm b => simp [Src3.ofRaw, Src3.code, Src3.ic]

theorem Src3.code_lt (c : Src3) : c.code < 256 := by
  cases c with
  | op o => exact o.code_lt
  | imm b => exact b.isLt

theorem Src3.ic_lt (c : Src3) : c.ic < 2 := by cases c <;> simp [Src3.ic]

theorem Src3.code_of_ofRaw {c ic : Nat} {x : Src3} (h : Src3.ofRaw c ic = some x) (hc : c < 256) (hic : ic < 2) :
    x.code = c ∧ x.ic = ic := by
  unfold Src3.ofRaw at h
  split at h
  · cases h; exact ⟨by simpa [Src3.code] using hc, by simp [Src3.ic, *]⟩
  · obtain ⟨o, ho, rfl⟩ := Option.map_eq_some_iff.mp h
    exact ⟨Operand.code_of_ofCode ho, by simp only [Src3.ic]; omega⟩

theorem Guard.ofRaw_code (g : Guard) : Guard.ofRaw g.g g.gn = g := by
  cases g with
  | always => rfl
  | pred n neg => cases neg <;> simp [Guard.ofRaw, Guard.g, Guard.gn]

theorem Guard.g_lt (g : Guard) : g.g < 8 := by
  cases g with
  | always => decide
  | pred n neg => simp only [Guard.g]; omega

theorem Guard.gn_lt (g : Guard) : g.gn < 2 := by
  cases g with
  | always => decide
  | pred n neg => exact Bool.toNat_lt neg

theorem Guard.code_ofRaw {g gn : Nat} (h : guardOk g gn = true) : (Guard.ofRaw g gn).g = g ∧ (Guard.ofRaw g gn).gn = gn := by
  unfold guardOk at h
  simp only [Bool.and_eq_true, decide_eq_true_eq, Bool.not_eq_true', Bool.and_eq_false_imp, beq_iff_eq, beq_eq_false_iff_ne] at h
  obtain ⟨⟨hg, hgn⟩, hboth⟩ := h
  unfold Guard.ofRaw
  split
  · refine ⟨rfl, ?_⟩
    interval_cases gn <;> rfl
  · have hg7 : g = 7 := by omega
    have := hboth hg7
    exact ⟨hg7.symm, show 0 = gn by omega⟩

/-! ## Words of each layout -/

/-- Each field fits its place in the word (R42). -/
structure Raw.InRange (r : Raw) : Prop where
  op : r.op < 256
  fn : r.fn < 16
  d : r.d < 256
  a : r.a < 256
  b : r.b < 256
  c : r.c < 256
  ic : r.ic < 2
  g : r.g < 8
  gn : r.gn < 2
  lo : r.lo < 32768

/-- Each field fits its place in the word (R51). -/
structure Raw2.InRange (r : Raw2) : Prop where
  op : r.op < 256
  fn : r.fn < 16
  dblk : r.dblk < 4096
  slot : r.slot < 8
  tag : r.tag < 256
  pay : r.pay < 256
  z : r.z < 4
  g : r.g < 8
  gn : r.gn < 2
  col : r.col < 256
  plen : r.plen < 16
  rsc : r.rsc < 8

/-- Each field fits its place in the word (R55). -/
structure Raw5.InRange (r : Raw5) : Prop where
  wait : r.wait < 4096
  set0 : r.set0 < 16
  v0 : r.v0 < 2
  set1 : r.set1 < 16
  v1 : r.v1 < 2
  len : r.len < 128
  z : r.z < 134217728

theorem bits_lt (w lo n : Nat) : bits w lo n < 2 ^ n := Nat.mod_lt _ (Nat.two_pow_pos n)

theorem Raw.ofNat_inRange (w : Nat) : (Raw.ofNat w).InRange := by constructor <;> exact bits_lt _ _ _
theorem Raw2.ofNat_inRange (w : Nat) : (Raw2.ofNat w).InRange := by constructor <;> exact bits_lt _ _ _
theorem Raw5.ofNat_inRange (w : Nat) : (Raw5.ofNat w).InRange := by constructor <;> exact bits_lt _ _ _

theorem Raw.toNat_lt {r : Raw} (h : r.InRange) : r.toNat < 2 ^ 64 := by
  obtain ⟨hop, hfn, hd, ha, hb, hc, hic, hg, hgn, hlo⟩ := h
  unfold Raw.toNat; omega

theorem Raw2.toNat_lt {r : Raw2} (h : r.InRange) : r.toNat < 2 ^ 64 := by
  obtain ⟨hop, hfn, hdblk, hslot, htag, hpay, hz, hg, hgn, hcol, hplen, hrsc⟩ := h
  unfold Raw2.toNat; omega

theorem Raw5.toNat_lt {r : Raw5} (h : r.InRange) : r.toNat < 2 ^ 56 := by
  obtain ⟨hwait, hset0, hv0, hset1, hv1, hlen, hz⟩ := h
  unfold Raw5.toNat; omega

theorem Raw.ofNat_toNat {r : Raw} (h : r.InRange) : Raw.ofNat r.toNat = r := by
  obtain ⟨hop, hfn, hd, ha, hb, hc, hic, hg, hgn, hlo⟩ := h
  cases r
  unfold Raw.ofNat Raw.toNat bits
  dsimp only at *
  congr <;> omega

theorem Raw2.ofNat_toNat {r : Raw2} (h : r.InRange) : Raw2.ofNat r.toNat = r := by
  obtain ⟨hop, hfn, hdblk, hslot, htag, hpay, hz, hg, hgn, hcol, hplen, hrsc⟩ := h
  cases r
  unfold Raw2.ofNat Raw2.toNat bits
  dsimp only at *
  congr <;> omega

theorem Raw5.ofNat_toNat {r : Raw5} (h : r.InRange) : Raw5.ofNat r.toNat = r := by
  obtain ⟨hwait, hset0, hv0, hset1, hv1, hlen, hz⟩ := h
  cases r
  unfold Raw5.ofNat Raw5.toNat bits
  dsimp only at *
  congr <;> omega

/-- A field and the bits below it make up the bits up to the field's end. -/
theorem bits_join (w lo n : Nat) : w % 2 ^ (lo + n) = bits w lo n * 2 ^ lo + w % 2 ^ lo := by
  rw [Nat.pow_add, Nat.mod_mul, bits, Nat.add_comm, Nat.mul_comm]

theorem Raw.toNat_ofNat {w : Nat} (h : w < 2 ^ 64) : (Raw.ofNat w).toNat = w := by
  have hop := bits_join w 56 8
  have hfn := bits_join w 52 4
  have hd := bits_join w 44 8
  have ha := bits_join w 36 8
  have hb := bits_join w 28 8
  have hc := bits_join w 20 8
  have hic := bits_join w 19 1
  have hg := bits_join w 16 3
  have hgn := bits_join w 15 1
  have hlo := bits_join w 0 15
  unfold Raw.ofNat Raw.toNat
  dsimp only
  omega

theorem Raw2.toNat_ofNat {w : Nat} (h : w < 2 ^ 64) : (Raw2.ofNat w).toNat = w := by
  have hop := bits_join w 56 8
  have hfn := bits_join w 52 4
  have hdblk := bits_join w 40 12
  have hslot := bits_join w 37 3
  have htag := bits_join w 29 8
  have hpay := bits_join w 21 8
  have hz := bits_join w 19 2
  have hg := bits_join w 16 3
  have hgn := bits_join w 15 1
  have hcol := bits_join w 7 8
  have hplen := bits_join w 3 4
  have hrsc := bits_join w 0 3
  unfold Raw2.ofNat Raw2.toNat
  dsimp only
  omega

theorem Raw5.toNat_ofNat {w : Nat} (h : w < 2 ^ 56) : (Raw5.ofNat w).toNat = w := by
  have hwait := bits_join w 44 12
  have hset0 := bits_join w 40 4
  have hv0 := bits_join w 39 1
  have hset1 := bits_join w 35 4
  have hv1 := bits_join w 34 1
  have hlen := bits_join w 27 7
  have hz := bits_join w 0 27
  unfold Raw5.ofNat Raw5.toNat
  dsimp only
  omega

end Sys2Proof
end

section
/-! The fields of each format: what is read from a word's fields, and the fields of what is read (R42, R50 to R55). -/

namespace Sys2Proof

/-! ## The fields of an instruction fit -/

section
variable {op : Nat} (hop : op < 256)
include hop

theorem F0.raw_inRange (f : F0) : (f.raw op).InRange where
  op := hop
  fn := f.fn.isLt
  d := f.d.code_lt
  a := f.a.code_lt
  b := f.b.code_lt
  c := f.c.code_lt
  ic := f.c.ic_lt
  g := f.g.g_lt
  gn := f.g.gn_lt
  lo := by
    have := f.t.code_lt
    simp only [F0.raw, F0.lo]; omega

theorem F1.raw_inRange (f : F1) : (f.raw op).InRange where
  op := hop
  fn := f.fn.isLt
  d := f.d.code_lt
  a := f.a.code_lt
  b := f.b.code_lt
  c := f.c.code_lt
  ic := f.c.ic_lt
  g := f.g.g_lt
  gn := f.g.gn_lt
  lo := by
    have := f.scope.code_lt
    have := f.order.code_lt
    simp only [F1.raw, F1.lo]; omega

theorem F2.raw_inRange (f : F2) : (f.raw op).InRange where
  op := hop
  fn := f.fn.isLt
  dblk := f.dblk.isLt
  slot := f.slot.isLt
  tag := f.tag.code_lt
  pay := f.pay.code_lt
  z := Nat.zero_lt_succ _
  g := f.g.g_lt
  gn := f.g.gn_lt
  col := f.col.code_lt
  plen := f.plen.isLt
  rsc := f.rsc.code_lt

theorem F3.raw_inRange (f : F3) : (f.raw op).InRange where
  op := hop
  fn := f.fn.isLt
  d := f.d.code_lt
  a := f.a.code_lt
  b := f.b.code_lt
  c := f.fb.code_lt
  ic := Nat.zero_lt_succ _
  g := f.g.g_lt
  gn := f.g.gn_lt
  lo := by
    have := f.gangb.toNat_lt
    simp only [F3.raw, F3.lo]; omega

theorem F4.raw_inRange (f : F4) : (f.raw op).InRange where
  op := hop
  fn := f.fn.isLt
  d := f.desc.code_lt
  a := f.a.code_lt
  b := f.b.code_lt
  c := f.c.code_lt
  ic := f.c.ic_lt
  g := f.g.g_lt
  gn := f.g.gn_lt
  lo := by
    have := f.tok.toNat_lt
    simp only [F4.raw, F4.lo]; omega

theorem F6.raw_inRange (f : F6) : (f.raw op).InRange where
  op := hop
  fn := f.fn.isLt
  d := f.d.code_lt
  a := f.a.code_lt
  b := f.b.code_lt
  c := f.c.code_lt
  ic := f.c.ic_lt
  g := f.g.g_lt
  gn := f.g.gn_lt
  lo := by simp only [F6.raw, F6.lo]; omega

end

theorem F5.raw_inRange (f : F5) : f.raw.InRange where
  wait := f.wait.isLt
  set0 := f.set0.isLt
  v0 := f.v0.toNat_lt
  set1 := f.set1.isLt
  v1 := f.v1.toNat_lt
  len := f.len.isLt
  z := Nat.zero_lt_succ _

/-! ## Reading the fields of an instruction gives it back -/

/-- A bit vector of the low bits of a number. -/
theorem BitVec.ofNat_of_mod {n x : Nat} {b : BitVec n} (h : x % 2 ^ n = b.toNat) : BitVec.ofNat n x = b :=
  BitVec.eq_of_toNat_eq (by simpa using h)

theorem beq_one_of_toNat {x : Nat} {b : Bool} (h : x = b.toNat) : (x == 1) = b := by subst h; cases b <;> rfl

theorem F0.ofRaw_raw (op : Nat) (f : F0) : F0.ofRaw (f.raw op) = some f := by
  have hlo : (f.raw op).lo = f.t.code * 2048 + f.md.toNat * 256 + f.x.toNat := rfl
  have ht : (f.raw op).lo / 2048 = f.t.code := by omega
  have hmd : BitVec.ofNat 3 ((f.raw op).lo / 256) = f.md := BitVec.ofNat_of_mod (by omega)
  have hx : BitVec.ofNat 8 (f.raw op).lo = f.x := BitVec.ofNat_of_mod (by omega)
  unfold F0.ofRaw
  rw [ht, hmd, hx]
  simp [F0.raw, Operand.ofCode_code, Src3.ofRaw_code, Guard.ofRaw_code, Ty.ofCode_code]

theorem F1.ofRaw_raw (op : Nat) (f : F1) : F1.ofRaw (f.raw op) = some f := by
  have hlo : (f.raw op).lo = f.scope.code * 4096 + f.order.code * 1024 + f.flag.toNat * 64 + f.l1pol.toNat * 16 + f.l2pol.toNat * 4 := rfl
  have ho := f.order.code_lt
  have hscope : (f.raw op).lo / 4096 = f.scope.code := by omega
  have horder : (f.raw op).lo / 1024 % 4 = f.order.code := by omega
  have hflag : BitVec.ofNat 4 ((f.raw op).lo / 64) = f.flag := BitVec.ofNat_of_mod (by omega)
  have hl1 : BitVec.ofNat 2 ((f.raw op).lo / 16) = f.l1pol := BitVec.ofNat_of_mod (by omega)
  have hl2 : BitVec.ofNat 2 ((f.raw op).lo / 4) = f.l2pol := BitVec.ofNat_of_mod (by omega)
  unfold F1.ofRaw
  rw [hscope, horder, hflag, hl1, hl2]
  simp [F1.raw, Operand.ofCode_code, Src3.ofRaw_code, Guard.ofRaw_code, Scope.ofCode_code, Order.ofCode_code]

theorem F2.ofRaw_raw (op : Nat) (f : F2) : F2.ofRaw (f.raw op) = some f := by
  simp [F2.ofRaw, F2.raw, Operand.ofCode_code, Guard.ofRaw_code, Scope.ofCode_code]

theorem F3.ofRaw_raw (op : Nat) (f : F3) : F3.ofRaw (f.raw op) = some f := by
  have hlo : (f.raw op).lo = f.shape.toNat * 2048 + f.spar.toNat * 512 + f.gangb.toNat * 256 + f.flag.toNat * 16 := rfl
  have hg := f.gangb.toNat_lt
  have hshape : BitVec.ofNat 4 ((f.raw op).lo / 2048) = f.shape := BitVec.ofNat_of_mod (by omega)
  have hspar : BitVec.ofNat 2 ((f.raw op).lo / 512) = f.spar := BitVec.ofNat_of_mod (by omega)
  have hgang : ((f.raw op).lo / 256 % 2 == 1) = f.gangb := beq_one_of_toNat (by omega)
  have hflag : BitVec.ofNat 4 ((f.raw op).lo / 16) = f.flag := BitVec.ofNat_of_mod (by omega)
  unfold F3.ofRaw
  rw [hshape, hspar, hgang, hflag]
  simp [F3.raw, Operand.ofCode_code, Guard.ofRaw_code]

theorem F4.ofRaw_raw (op : Nat) (f : F4) : F4.ofRaw (f.raw op) = some f := by
  have hlo : (f.raw op).lo = f.tbuf.toNat * 4096 + f.flag.toNat * 256 + f.tok.toNat * 128 + f.texit.toNat * 16 := rfl
  have ht := f.tok.toNat_lt
  have htbuf : BitVec.ofNat 3 ((f.raw op).lo / 4096) = f.tbuf := BitVec.ofNat_of_mod (by omega)
  have hflag : BitVec.ofNat 4 ((f.raw op).lo / 256) = f.flag := BitVec.ofNat_of_mod (by omega)
  have htok : ((f.raw op).lo / 128 % 2 == 1) = f.tok := beq_one_of_toNat (by omega)
  have htexit : BitVec.ofNat 3 ((f.raw op).lo / 16) = f.texit := BitVec.ofNat_of_mod (by omega)
  unfold F4.ofRaw
  rw [htbuf, hflag, htok, htexit]
  simp [F4.raw, Operand.ofCode_code, Src3.ofRaw_code, Guard.ofRaw_code]

theorem F6.ofRaw_raw (op : Nat) (f : F6) : F6.ofRaw (f.raw op) = some f := by
  have hlo : (f.raw op).lo = f.code.toNat * 8 := rfl
  have hcode : BitVec.ofNat 12 ((f.raw op).lo / 8) = f.code := BitVec.ofNat_of_mod (by omega)
  unfold F6.ofRaw
  rw [hcode]
  simp [F6.raw, Operand.ofCode_code, Src3.ofRaw_code, Guard.ofRaw_code]

theorem F5.ofRaw_raw (f : F5) : F5.ofRaw f.raw = f := by
  unfold F5.ofRaw F5.raw
  simp

/-! ## The fields of what is read are those read -/

theorem ofBool_toNat_beq {x : Nat} (h : x < 2) : (x == 1).toNat = x := by interval_cases x <;> rfl

section
variable {r : Raw} (hr : r.InRange) (hg : guardOk r.g r.gn = true)
include hr hg

theorem F0.raw_of_ofRaw {f : F0} (h : F0.ofRaw r = some f) : f.raw r.op = r := by
  unfold F0.ofRaw at h
  split at h
  next d a b c t hd ha hb hc ht =>
    cases h
    obtain ⟨hcc, hci⟩ := Src3.code_of_ofRaw hc hr.c hr.ic
    obtain ⟨hgg, hgn⟩ := Guard.code_ofRaw hg
    have hfn := hr.fn
    unfold F0.raw F0.lo
    simp only [Operand.code_of_ofCode hd, Operand.code_of_ofCode ha, Operand.code_of_ofCode hb, hcc, hci, hgg, hgn,
      Ty.code_of_ofCode ht, BitVec.toNat_ofNat]
    cases r
    congr 1 <;> dsimp only at * <;> omega
  next => cases h

theorem F1.raw_of_ofRaw {f : F1} (h : F1.ofRaw r = some f) (hlo : r.lo % 4 = 0) : f.raw r.op = r := by
  unfold F1.ofRaw at h
  split at h
  next d a b c hd ha hb hc =>
    cases h
    obtain ⟨hcc, hci⟩ := Src3.code_of_ofRaw hc hr.c hr.ic
    obtain ⟨hgg, hgn⟩ := Guard.code_ofRaw hg
    have hfn := hr.fn
    have hl := hr.lo
    unfold F1.raw F1.lo
    simp only [Operand.code_of_ofCode hd, Operand.code_of_ofCode ha, Operand.code_of_ofCode hb, hcc, hci, hgg, hgn,
      Scope.code_ofCode (n := r.lo / 4096) (by omega), Order.code_ofCode (n := r.lo / 1024 % 4) (by omega), BitVec.toNat_ofNat]
    cases r
    congr 1 <;> dsimp only at * <;> omega
  next => cases h

theorem F3.raw_of_ofRaw {f : F3} (h : F3.ofRaw r = some f) (hic : r.ic = 0) (hlo : r.lo % 16 = 0) : f.raw r.op = r := by
  unfold F3.ofRaw at h
  split at h
  next d a b c hd ha hb hc =>
    cases h
    obtain ⟨hgg, hgn⟩ := Guard.code_ofRaw hg
    have hfn := hr.fn
    have hl := hr.lo
    unfold F3.raw F3.lo
    simp only [Operand.code_of_ofCode hd, Operand.code_of_ofCode ha, Operand.code_of_ofCode hb, Operand.code_of_ofCode hc, hgg, hgn,
      ofBool_toNat_beq (x := r.lo / 256 % 2) (by omega), BitVec.toNat_ofNat]
    cases r
    congr 1 <;> dsimp only at * <;> omega
  next => cases h

theorem F4.raw_of_ofRaw {f : F4} (h : F4.ofRaw r = some f) (hlo : r.lo % 16 = 0) : f.raw r.op = r := by
  unfold F4.ofRaw at h
  split at h
  next d a b c hd ha hb hc =>
    cases h
    obtain ⟨hcc, hci⟩ := Src3.code_of_ofRaw hc hr.c hr.ic
    obtain ⟨hgg, hgn⟩ := Guard.code_ofRaw hg
    have hfn := hr.fn
    have hl := hr.lo
    unfold F4.raw F4.lo
    simp only [Operand.code_of_ofCode hd, Operand.code_of_ofCode ha, Operand.code_of_ofCode hb, hcc, hci, hgg, hgn,
      ofBool_toNat_beq (x := r.lo / 128 % 2) (by omega), BitVec.toNat_ofNat]
    cases r
    congr 1 <;> dsimp only at * <;> omega
  next => cases h

theorem F6.raw_of_ofRaw {f : F6} (h : F6.ofRaw r = some f) (hlo : r.lo % 8 = 0) : f.raw r.op = r := by
  unfold F6.ofRaw at h
  split at h
  next d a b c hd ha hb hc =>
    cases h
    obtain ⟨hcc, hci⟩ := Src3.code_of_ofRaw hc hr.c hr.ic
    obtain ⟨hgg, hgn⟩ := Guard.code_ofRaw hg
    have hfn := hr.fn
    have hl := hr.lo
    unfold F6.raw F6.lo
    simp only [Operand.code_of_ofCode hd, Operand.code_of_ofCode ha, Operand.code_of_ofCode hb, hcc, hci, hgg, hgn, BitVec.toNat_ofNat]
    cases r
    congr 1 <;> dsimp only at * <;> omega
  next => cases h

end

theorem F2.raw_of_ofRaw {r : Raw2} (hr : r.InRange) (hg : guardOk r.g r.gn = true) (hz : r.z = 0) {f : F2} (h : F2.ofRaw r = some f) :
    f.raw r.op = r := by
  unfold F2.ofRaw at h
  split at h
  next tag pay col ht hp hc =>
    cases h
    obtain ⟨hgg, hgn⟩ := Guard.code_ofRaw hg
    unfold F2.raw
    simp only [Operand.code_of_ofCode ht, Operand.code_of_ofCode hp, Operand.code_of_ofCode hc, hgg, hgn, Scope.code_ofCode hr.rsc,
      BitVec.toNat_ofNat, Nat.mod_eq_of_lt hr.fn, Nat.mod_eq_of_lt hr.dblk, Nat.mod_eq_of_lt hr.slot, Nat.mod_eq_of_lt hr.plen, ← hz]
  next => cases h

theorem F5.raw_ofRaw {r : Raw5} (hr : r.InRange) (hz : r.z = 0) : (F5.ofRaw r).raw = r := by
  unfold F5.ofRaw F5.raw
  simp only [BitVec.toNat_ofNat, ofBool_toNat_beq hr.v0, ofBool_toNat_beq hr.v1, Nat.mod_eq_of_lt hr.wait, Nat.mod_eq_of_lt hr.set0,
    Nat.mod_eq_of_lt hr.set1, Nat.mod_eq_of_lt hr.len, ← hz]

end Sys2Proof
end

section
/-! The table of instructions (R66, R133, R260, R365, R366, R401): which instruction stands for which fields. -/

namespace Sys2Proof

/-- The instruction of these fields: the constructor that OP and FN select, applied to the fields of OP's format. -/
inductive IsWord : Instr → Fields → Prop
  | clause (f : F5) : IsWord (.clauseHeader f) (.clause f.raw)
  | nop : IsWord .nop (.std Raw.nop)
  | f0 {op : Nat} {f : F0} {c : F0 → Instr} (hfmt : fmtOf op = some .f0) (hop : op ≠ 1) (hc : ctorF0 op f.fn.toNat = some c) :
      IsWord (c f) (.std (f.raw op))
  | f1 {op : Nat} {f : F1} {c : F1 → Instr} (hfmt : fmtOf op = some .f1) (hc : ctorF1 op f.fn.toNat = some c) :
      IsWord (c f) (.std (f.raw op))
  | f2 {op : Nat} {f : F2} {c : F2 → Instr} (hfmt : fmtOf op = some .f2) (hc : ctorF2 op = some c) : IsWord (c f) (.tok (f.raw op))
  | f3 {op : Nat} {f : F3} {c : F3 → Instr} (hfmt : fmtOf op = some .f3) (hc : ctorF3 op f.fn.toNat = some c) :
      IsWord (c f) (.std (f.raw op))
  | f4 {op : Nat} {f : F4} {c : F4 → Instr} (hfmt : fmtOf op = some .f4) (hc : ctorF4 op f.fn.toNat = some c) :
      IsWord (c f) (.std (f.raw op))
  | f6 {op : Nat} {f : F6} {c : F6 → Instr} (hfmt : fmtOf op = some .f6) (hc : ctorF6 op f.fn.toNat = some c) :
      IsWord (c f) (.std (f.raw op))

theorem Instr.isWord_of_fields {i : Instr} {fs : Fields} (hf : i.fields = some fs)
    (hfn : ∀ {k fns r}, i.key = some (k, fns) → fs = .std r → r.fn ∈ fns) : IsWord i fs := by
  cases i with
  | clauseHeader f => cases hf; exact .clause f
  | nop => cases hf; exact .nop
  | colalloc f | colfree f | packc f | unpackc f | ldblk f | qwait f | mov f | movk f | add f | sub f | mul f | mulhi f | mad f | madw f
  | div f | rem f | abs f | neg f | min f | max f | shl f | shr f | sar f | rol f | and f | or f | xor f | not f | andn f | bfe f | bfi f
  | brev f | clz f | ctz f | popc f | sel f | cmp f | lea f | cvti f | pand f | por f | pxor f | pnot f | shfl f | vote f | ballot f
  | redg f | scang f | emrd f | fadd f | fsub f | fmul f | ffma f | fmin f | fmax f | fabs f | fneg f | fcmp f | fclass f | frnd f
  | fcvt f | fdiv f | fsqrt f | hadd2 f | hmul2 f | hfma2 f | rcp f | rsq f | exp2 f | log2 f | sin f | cos f | tanh f | sigm f | teval f
  | tload f | tswap f | qnt f | dqnt f | scale f | bspack f | bsunpack f | spcmp f | spexp f | rncv f | rncrt f | rnadd f | rnsub f
  | rnmul f | rnmad f | rnneg f | rnscl f =>
    cases hf; exact .f0 rfl (by decide) rfl
  | bintimTimer f | bintimPrio f | movi f | moviBy f | matchAny f | matchAll f | emwrAnd f | emwrSet f | sflgRd f | sflgRdc f | sflgSet f
  | sflgClr f | cvtnUp f | cvtnDn f | cvtnDense f | cvtnBytes f =>
    cases hf; exact .f0 rfl (by decide) ((by simp [ctorF0] : ∀ n ∈ _, ctorF0 _ n = some _) _ (hfn rfl rfl))
  | ldf f | stf f | ldw f | lda f | ldc f | stc f | pres f | atoma f | ldg f | stg f | fetch f | atom f | red f | fence f | bar f | cbar f
  | lset f | rld f | rst f | ratom f | rput f | rget f | spw f | mcst f | mcput f | cfaa f | cfaan f =>
    cases hf; exact .f1 rfl rfl
  | sta f | staNb f | cprefL1 f | cprefL2 f | cprefEx f | cinvLine f | cinvAll f | cflushLine f | cflushDie f =>
    cases hf; exact .f1 rfl ((by simp [ctorF1] : ∀ n ∈ _, ctorF1 _ n = some _) _ (hfn rfl rfl))
  | send f | sendv f | sendf f | exit f | eos f =>
    cases hf; exact .f2 rfl rfl
  | mma f | gmma f | gang f | fmtb f | gthr f | spmma f | rnmma f | accz f | accld f =>
    cases hf; exact .f3 rfl rfl
  | accst f | accstAdd f | accstRnadd f | acccvRn f | acccvSc f =>
    cases hf; exact .f3 rfl ((by simp [ctorF3] : ∀ n ∈ _, ctorF3 _ n = some _) _ (hfn rfl rfl))
  | cpygIn f | cpysOut f =>
    cases hf; exact .f4 rfl rfl
  | cpyMm f | cpyIn f | cpyOut f | cpytIn f | cpytOut f | cpyfMm f | cpyfIn f | cpypMm f | cpypIn f | cpypOut f | cpyspIn f | cpyspOut f
  | cpyspOutc f =>
    cases hf; exact .f4 rfl ((by simp [ctorF4] : ∀ n ∈ _, ctorF4 _ n = some _) _ (hfn rfl rfl))
  | cfgw f | trap f | bkpt f | srrd f | srwr f | halt f | sigchk f | keyset f =>
    cases hf; exact .f6 rfl rfl
  | resume f | resumePast f | abort f | abortRegion f | fltrdWord f | fltrdNext f | preemptSave f | preemptRestore f =>
    cases hf; exact .f6 rfl ((by simp [ctorF6] : ∀ n ∈ _, ctorF6 _ n = some _) _ (hfn rfl rfl))
  | _ => exact nomatch hf

end Sys2Proof
end

section
/-! What OP and FN select (R66). -/

namespace Sys2Proof

/-- The instruction has these fields, and FN is one that its constructor takes. -/
def Selects (i : Instr) (fs : Fields) (op fn : Nat) : Prop :=
  i.fields = some fs ∧ ∃ k fns, i.key = some (k, fns) ∧ (fn ∈ fnsOf op → fn ∈ fns)

section
variable {op fn : Nat}

/-- The numbered cases are the OPs that several instructions share: 0x0B, 0x12, 0x43, 0x47, 0x61 and 0x85. -/
theorem ctorF0_selects {c : F0 → Instr} (h : ctorF0 op fn = some c) (f : F0) : Selects (c f) (.std (f.raw op)) op fn := by
  unfold ctorF0 at h
  split at h
  case h_5 | h_10 | h_49 | h_53 | h_71 | h_88 =>
    split_ifs at h <;> cases h <;> refine ⟨rfl, _, _, rfl, fun hm => ?_⟩ <;> simp [fnsOf] at hm ⊢ <;> omega
  all_goals cases h
  all_goals exact ⟨rfl, _, _, rfl, id⟩

/-- The numbered cases are the OPs 0xA4 and 0xB8 to 0xBA. -/
theorem ctorF1_selects {c : F1 → Instr} (h : ctorF1 op fn = some c) (f : F1) : Selects (c f) (.std (f.raw op)) op fn := by
  unfold ctorF1 at h
  split at h
  case h_5 | h_18 | h_19 | h_20 =>
    split_ifs at h <;> cases h <;> refine ⟨rfl, _, _, rfl, fun hm => ?_⟩ <;> simp [fnsOf] at hm ⊢ <;> omega
  all_goals cases h
  all_goals exact ⟨rfl, _, _, rfl, id⟩

/-- The numbered cases are the OPs 0x99 and 0x9A. -/
theorem ctorF3_selects {c : F3 → Instr} (h : ctorF3 op fn = some c) (f : F3) : Selects (c f) (.std (f.raw op)) op fn := by
  unfold ctorF3 at h
  split at h
  case h_10 | h_11 =>
    split_ifs at h <;> cases h <;> refine ⟨rfl, _, _, rfl, fun hm => ?_⟩ <;> simp [fnsOf] at hm ⊢ <;> omega
  all_goals cases h
  all_goals exact ⟨rfl, _, _, rfl, id⟩

/-- The numbered cases are CPYG.IN and CPYS.OUT, whose OPs no other instruction has. -/
theorem ctorF4_selects {c : F4 → Instr} (h : ctorF4 op fn = some c) (f : F4) : Selects (c f) (.std (f.raw op)) op fn := by
  unfold ctorF4 at h
  split at h
  case h_3 | h_4 => cases h; exact ⟨rfl, _, _, rfl, id⟩
  case h_8 => cases h
  all_goals
    split_ifs at h <;> cases h <;> refine ⟨rfl, _, _, rfl, fun hm => ?_⟩ <;> simp [fnsOf] at hm ⊢ <;> omega

/-- The numbered cases are the OPs 0xE1, 0xE2, 0xE5 and 0xEA. -/
theorem ctorF6_selects {c : F6 → Instr} (h : ctorF6 op fn = some c) (f : F6) : Selects (c f) (.std (f.raw op)) op fn := by
  unfold ctorF6 at h
  split at h
  case h_3 | h_4 | h_7 | h_12 =>
    split_ifs at h <;> cases h <;> refine ⟨rfl, _, _, rfl, fun hm => ?_⟩ <;> simp [fnsOf] at hm ⊢ <;> omega
  all_goals cases h
  all_goals exact ⟨rfl, _, _, rfl, id⟩

theorem ctorF2_selects {c : F2 → Instr} (h : ctorF2 op = some c) (f : F2) : Selects (c f) (.tok (f.raw op)) op fn := by
  unfold ctorF2 at h
  split at h
  all_goals cases h
  all_goals exact ⟨rfl, _, _, rfl, id⟩

end

end Sys2Proof
end

section
/-! What a word that passes rows 1 to 4 of R68 satisfies, and that a larger register demand refuses no word that a smaller one admits. -/

namespace Sys2Proof

theorem checkStd_eq_none {regd : Nat} {r : Raw} : checkStd regd r = none ↔ ∃ fm, fmtOf r.op = some fm ∧ r.fn ∈ fnsOf r.op ∧
    ((r.op = 1 ∧ r = Raw.nop) ∨ (r.op ≠ 1 ∧ ∃ e, entryOf r.op r.fn (r.t fm) r.ic = some e ∧ fieldsOk fm e r = true ∧
      operandBad e regd r = none)) := by
  unfold checkStd
  cases hfm : fmtOf r.op with
  | none => simp
  | some fm =>
    simp only [Option.some.injEq, exists_eq_left']
    by_cases hfn : (fnsOf r.op).contains r.fn = true
    · have hmem : r.fn ∈ fnsOf r.op := by simpa using hfn
      by_cases hop : r.op = 1
      · rw [if_neg (by simpa using hmem), if_pos hop]
        simp [hop, hop ▸ hmem]
      · cases he : entryOf r.op r.fn (r.t fm) r.ic with
        | none => simp [hmem, hop]
        | some e => by_cases hf : fieldsOk fm e r = true <;> simp [hmem, hop, hf]
    · have hmem : r.fn ∉ fnsOf r.op := by simpa using hfn
      simp [hmem]

theorem checkTok_eq_none {regd : Nat} {r : Raw2} (h : checkTok regd r = none) : r.fn = 0 ∧ r.z = 0 ∧ guardOk r.g r.gn = true := by
  unfold checkTok at h
  split at h
  · cases h
  · split at h
    · cases h
    · next hfn hz =>
      simp only [bne_iff_ne, ne_eq, not_not, Bool.not_eq_true', Bool.not_eq_false, Bool.and_eq_true, beq_iff_eq] at hfn hz
      exact ⟨hfn, hz.1, hz.2⟩

theorem checkClause_eq_none {r : Raw5} (h : checkClause r = none) : r.z = 0 := by
  unfold checkClause at h
  split at h
  · next hc => simp only [Bool.and_eq_true, beq_iff_eq] at hc; exact hc.1.1.1.1.1
  · cases h

/-! ## The fields of each format -/

section
variable {fm : Fmt} {e : Entry} {r : Raw} (h : fieldsOk fm e r = true)
include h

theorem fieldsOk_guard : guardOk r.g r.gn = true := by
  simp only [fieldsOk, Bool.and_eq_true] at h
  exact h.1.2

theorem fieldsOk_ic : r.ic ∈ e.ics := by
  simp only [fieldsOk, Bool.and_eq_true] at h
  simpa using h.1.1.2

theorem fieldsOk_lo : loOk fm e r = true := by
  simp only [fieldsOk, Bool.and_eq_true] at h
  exact h.2

end

theorem loOk_f1 {e : Entry} {r : Raw} (h : loOk .f1 e r = true) : r.lo % 4 = 0 := by
  simp only [loOk, Bool.and_eq_true, beq_iff_eq] at h
  exact h.2

theorem loOk_f3 {e : Entry} {r : Raw} (h : loOk .f3 e r = true) : r.lo % 16 = 0 := by
  simp only [loOk, Bool.and_eq_true, beq_iff_eq] at h
  exact h.2

theorem loOk_f4 {e : Entry} {r : Raw} (h : loOk .f4 e r = true) : r.lo % 16 = 0 := by
  simp only [loOk, Bool.and_eq_true, beq_iff_eq] at h
  exact h.2

theorem loOk_f6 {e : Entry} {r : Raw} (h : loOk .f6 e r = true) : r.lo % 8 = 0 := by
  simp only [loOk, Bool.and_eq_true, beq_iff_eq] at h
  exact h.2

/-- No matrix word takes an immediate (R260). -/
theorem entryMatrix_ics {op fn : Nat} {e : Entry} (h : entryMatrix op fn = some e) : e.ics = [0] := by
  unfold entryMatrix at h
  split at h <;> cases h <;> rfl

theorem fmtOf_lt {op : Nat} {fm : Fmt} (h : fmtOf op = some fm) : op < 256 := by
  by_contra hop
  have : fmtOf op = none := by
    unfold fmtOf
    repeat rw [if_neg (by omega)]
  rw [this] at h
  cases h

theorem ctorF3_op {op fn : Nat} {c : F3 → Instr} (h : ctorF3 op fn = some c) : 0x90 ≤ op ∧ op ≤ 0x9A := by
  unfold ctorF3 at h
  split at h
  case h_12 => cases h
  all_goals decide

theorem entryOf_matrix {op : Nat} (h : 0x90 ≤ op ∧ op ≤ 0x9A) (fn t ic : Nat) : entryOf op fn t ic = entryMatrix op fn := by
  obtain ⟨hlo, hhi⟩ := h
  unfold entryOf
  rw [if_neg (by omega), if_neg (by omega), if_neg (by omega), if_neg (by omega), if_neg (by omega), if_pos (by omega)]

/-! ## Register demand -/

section
variable {regd regd' : Nat} (hle : regd ≤ regd')
include hle

theorem Use.ok_mono {u : Use} {o : Operand} (h : u.ok regd o = true) : u.ok regd' o = true := by
  cases o with
  | v i =>
    cases u with
    | s n | se n | d n p z | run n al | vk n =>
      simp only [Use.ok, Bool.and_eq_true, decide_eq_true_eq] at h ⊢
      exact ⟨h.1, h.2.trans hle⟩
    | _ => exact h
  | _ => cases u <;> exact h

theorem Use.bad_mono {u : Use} {v : Nat} (h : u.bad regd v = none) : u.bad regd' v = none := by
  unfold Use.bad at h ⊢
  split at h
  iterate 3 rfl
  split at h
  · cases h
  · split at h
    · next ho => rw [if_pos (Use.ok_mono hle ho)]
    · cases h

theorem operandBad_mono {e : Entry} {r : Raw} (h : operandBad e regd r = none) : operandBad e regd' r = none := by
  unfold operandBad at h ⊢
  simp only [Option.orElse_eq_or, Option.or_eq_none_iff] at h ⊢
  obtain ⟨hd, ha, hb, hc⟩ := h
  refine ⟨Use.bad_mono hle hd, Use.bad_mono hle ha, Use.bad_mono hle hb, ?_⟩
  split
  · rfl
  · next hic => rw [if_neg hic] at hc; exact Use.bad_mono hle hc

theorem checkStd_mono {r : Raw} (h : checkStd regd r = none) : checkStd regd' r = none := by
  obtain ⟨fm, hfm, hfn, hrest⟩ := checkStd_eq_none.mp h
  refine checkStd_eq_none.mpr ⟨fm, hfm, hfn, hrest.imp id ?_⟩
  rintro ⟨hop, e, he, hf, hb⟩
  exact ⟨hop, e, he, hf, operandBad_mono hle hb⟩

theorem checkTok_mono {r : Raw2} (h : checkTok regd r = none) : checkTok regd' r = none := by
  unfold checkTok at h ⊢
  split_ifs at h ⊢ with hfn hz hexit hsum heos hop
  · rfl
  · simp only [Option.map_eq_none_iff, Option.orElse_eq_or, Option.or_eq_none_iff] at h ⊢
    exact ⟨Use.bad_mono hle h.1, trivial⟩
  · simp only [Option.map_eq_none_iff, Option.orElse_eq_or, Option.or_eq_none_iff] at h ⊢
    obtain ⟨htag, hpay, hcol⟩ := h
    exact ⟨Use.bad_mono hle htag, Use.bad_mono hle hpay, Use.bad_mono hle hcol⟩

end
end Sys2Proof
end

section
/-! Encoding and decoding (R40, R41, R68). -/

namespace Sys2Proof

open Sys2Proof.Claims

/-! ## The fields of a word and the word of its fields -/

theorem fmtOf_f5 {op : Nat} (h : fmtOf op = some .f5) : op = 0 := by
  have : ∀ op < 256, fmtOf op = some .f5 → op = 0 := by decide +kernel
  exact this op (fmtOf_lt h) h

theorem Raw.ofNat_op (w : Nat) : (Raw.ofNat w).op = bits w 56 8 := rfl
theorem Raw2.ofNat_op (w : Nat) : (Raw2.ofNat w).op = bits w 56 8 := rfl

section
variable {w : Nat}

/-- Of the shared layout a word's fields are those that its bits give (R41). -/
theorem Fields.ofNat_std {r : Raw} (hw : Raw.ofNat w = r) (h2 : fmtOf r.op ≠ some .f2) (h5 : fmtOf r.op ≠ some .f5) :
    Fields.ofNat w = .std r := by
  subst hw
  unfold Fields.ofNat
  rw [Raw.ofNat_op] at h2 h5
  split
  · next h => exact absurd h h2
  · next h => exact absurd h h5
  · rfl

theorem Fields.ofNat_tok {r : Raw2} (hw : Raw2.ofNat w = r) (h2 : fmtOf r.op = some .f2) : Fields.ofNat w = .tok r := by
  subst hw
  unfold Fields.ofNat
  rw [Raw2.ofNat_op] at h2
  rw [h2]

theorem Fields.ofNat_clause {r : Raw5} (hw : Raw5.ofNat w = r) (hlt : w < 2 ^ 56) : Fields.ofNat w = .clause r := by
  subst hw
  have hop : bits w 56 8 = 0 := by unfold bits; omega
  unfold Fields.ofNat
  rw [hop, show fmtOf 0 = some .f5 from rfl]

end

/-- Every word is the word of its fields. -/
theorem Fields.toNat_ofNat {w : Nat} (h : w < 2 ^ 64) : (Fields.ofNat w).toNat = w := by
  unfold Fields.ofNat
  split
  · exact Raw2.toNat_ofNat h
  · next h5 =>
    have hop := fmtOf_f5 h5
    refine Raw5.toNat_ofNat ?_
    unfold bits at hop; omega
  · exact Raw.toNat_ofNat h

/-! ## Instructions and their fields -/

/-- The fields of a word with the shared layout build what OP's format says (R41). -/
theorem Fields.build_std {r : Raw} (hop : r.op ≠ 1) (fm : Fmt) : fmtOf r.op = some fm →
    Fields.build (.std r) = match fm with
      | .f0 => applyCtor (ctorF0 r.op r.fn) (F0.ofRaw r)
      | .f1 => applyCtor (ctorF1 r.op r.fn) (F1.ofRaw r)
      | .f3 => applyCtor (ctorF3 r.op r.fn) (F3.ofRaw r)
      | .f4 => applyCtor (ctorF4 r.op r.fn) (F4.ofRaw r)
      | .f6 => applyCtor (ctorF6 r.op r.fn) (F6.ofRaw r)
      | _ => none := by
  intro hfm
  unfold Fields.build
  dsimp only
  rw [if_neg hop, hfm]
  cases fm <;> rfl

theorem applyCtor_eq_some {α : Type} {c : Option (α → Instr)} {f : Option α} {i : Instr} :
    applyCtor c f = some i ↔ ∃ c' f', c = some c' ∧ f = some f' ∧ i = c' f' := by
  cases c <;> cases f <;> simp [applyCtor, eq_comm]

theorem fmtOf_one : fmtOf 1 = some .f0 := rfl

/-- Only NOP has OP 1. -/
theorem ne_one_of_fmtOf {op : Nat} {fm : Fmt} (h : fmtOf op = some fm) (hfm : fm ≠ .f0) : op ≠ 1 := by
  rintro rfl
  exact hfm (Option.some.inj (h.symm.trans fmtOf_one))

theorem zero_mem_fnsOf_f2 {op : Nat} (h : fmtOf op = some .f2) : 0 ∈ fnsOf op := by
  have : ∀ op < 256, fmtOf op = some .f2 → 0 ∈ fnsOf op := by decide +kernel
  exact this op (fmtOf_lt h) h

section
variable {i : Instr} {fs : Fields}

theorem IsWord.build (h : IsWord i fs) : fs.build = some i := by
  cases h with
  | clause f => exact congrArg (fun f => some (Instr.clauseHeader f)) (F5.ofRaw_raw f)
  | nop => rfl
  | @f0 op f c hfmt hop hc =>
    exact (Fields.build_std (r := f.raw op) hop _ hfmt).trans (applyCtor_eq_some.mpr ⟨c, f, hc, f.ofRaw_raw op, rfl⟩)
  | @f1 op f c hfmt hc =>
    exact (Fields.build_std (r := f.raw op) (ne_one_of_fmtOf hfmt Fmt.noConfusion) _ hfmt).trans
      (applyCtor_eq_some.mpr ⟨c, f, hc, f.ofRaw_raw op, rfl⟩)
  | @f2 op f c hfmt hc => exact applyCtor_eq_some.mpr ⟨c, f, hc, f.ofRaw_raw op, rfl⟩
  | @f3 op f c hfmt hc =>
    exact (Fields.build_std (r := f.raw op) (ne_one_of_fmtOf hfmt Fmt.noConfusion) _ hfmt).trans
      (applyCtor_eq_some.mpr ⟨c, f, hc, f.ofRaw_raw op, rfl⟩)
  | @f4 op f c hfmt hc =>
    exact (Fields.build_std (r := f.raw op) (ne_one_of_fmtOf hfmt Fmt.noConfusion) _ hfmt).trans
      (applyCtor_eq_some.mpr ⟨c, f, hc, f.ofRaw_raw op, rfl⟩)
  | @f6 op f c hfmt hc =>
    exact (Fields.build_std (r := f.raw op) (ne_one_of_fmtOf hfmt Fmt.noConfusion) _ hfmt).trans
      (applyCtor_eq_some.mpr ⟨c, f, hc, f.ofRaw_raw op, rfl⟩)

/-- Fields of the shared layout fit their word, and a word of that layout gives them back. -/
theorem Raw.fits_std {r : Raw} (hr : r.InRange) {fm : Fmt} (hfm : fmtOf r.op = some fm) (h2 : fm ≠ .f2) (h5 : fm ≠ .f5) :
    Fields.toNat (.std r) < 2 ^ 64 ∧ Fields.ofNat (Fields.toNat (.std r)) = .std r :=
  ⟨Raw.toNat_lt hr, Fields.ofNat_std (Raw.ofNat_toNat hr) (hfm ▸ fun h => h2 (Option.some.inj h)) (hfm ▸ fun h => h5 (Option.some.inj h))⟩

theorem IsWord.fits (h : IsWord i fs) : fs.toNat < 2 ^ 64 ∧ Fields.ofNat fs.toNat = fs := by
  cases h with
  | clause f => exact ⟨(Raw5.toNat_lt f.raw_inRange).trans (by decide), Fields.ofNat_clause (Raw5.ofNat_toNat f.raw_inRange) (Raw5.toNat_lt f.raw_inRange)⟩
  | nop => exact ⟨by decide, by decide⟩
  | @f0 op f c hfmt hop hc => exact Raw.fits_std (f.raw_inRange (fmtOf_lt hfmt)) hfmt Fmt.noConfusion Fmt.noConfusion
  | @f1 op f c hfmt hc => exact Raw.fits_std (f.raw_inRange (fmtOf_lt hfmt)) hfmt Fmt.noConfusion Fmt.noConfusion
  | @f2 op f c hfmt hc => exact ⟨Raw2.toNat_lt (f.raw_inRange (fmtOf_lt hfmt)), Fields.ofNat_tok (Raw2.ofNat_toNat (f.raw_inRange (fmtOf_lt hfmt))) hfmt⟩
  | @f3 op f c hfmt hc => exact Raw.fits_std (f.raw_inRange (fmtOf_lt hfmt)) hfmt Fmt.noConfusion Fmt.noConfusion
  | @f4 op f c hfmt hc => exact Raw.fits_std (f.raw_inRange (fmtOf_lt hfmt)) hfmt Fmt.noConfusion Fmt.noConfusion
  | @f6 op f c hfmt hc => exact Raw.fits_std (f.raw_inRange (fmtOf_lt hfmt)) hfmt Fmt.noConfusion Fmt.noConfusion

/-- An instruction is well formed exactly where its fields pass the tests in a block of the largest demand and its FN is its own. -/
theorem IsWord.wellFormed (h : IsWord i fs) (hc : fs.check 128 = none) : i.fields = some fs ∧ i.wellFormed = true := by
  have std : ∀ {i : Instr} {r : Raw}, Selects i (.std r) r.op r.fn → checkStd 128 r = none → i.fields = some (.std r) ∧ i.wellFormed = true := by
    rintro i r ⟨hf, k, fns, hk, hfn⟩ hc
    obtain ⟨-, -, hmem, -⟩ := checkStd_eq_none.mp hc
    exact ⟨hf, by simp [Instr.wellFormed, hf, hk, hfn hmem, hc]⟩
  cases h with
  | clause f => exact ⟨rfl, by simpa [Instr.wellFormed, Instr.fields, Instr.key, Fields.check] using hc⟩
  | nop => exact ⟨rfl, by decide⟩
  | @f0 op f c hfmt hop hct => exact std (ctorF0_selects hct f) hc
  | @f1 op f c hfmt hct => exact std (ctorF1_selects hct f) hc
  | @f2 op f c hfmt hct =>
    have hz : (f.raw op).fn = 0 := (checkTok_eq_none hc).1
    obtain ⟨hf, k, fns, hk, hfn⟩ := ctorF2_selects (fn := (f.raw op).fn) hct f
    have hmem : (f.raw op).fn ∈ fns := hfn (by rw [hz]; exact zero_mem_fnsOf_f2 hfmt)
    have hc' : checkTok 128 (f.raw op) = none := hc
    exact ⟨hf, by simp [Instr.wellFormed, hf, hk, hmem, hc']⟩
  | @f3 op f c hfmt hct => exact std (ctorF3_selects hct f) hc
  | @f4 op f c hfmt hct => exact std (ctorF4_selects hct f) hc
  | @f6 op f c hfmt hct => exact std (ctorF6_selects hct f) hc

theorem Raw.isWord_of_build {r : Raw} (hr : r.InRange) {regd : Nat} (hc : checkStd regd r = none) (hb : Fields.build (.std r) = some i) :
    IsWord i (.std r) := by
  obtain ⟨fm, hfm, -, ⟨-, rfl⟩ | ⟨hop, e, he, hok, -⟩⟩ := checkStd_eq_none.mp hc
  · cases hb; exact .nop
  have hg := fieldsOk_guard hok
  have hlo := fieldsOk_lo hok
  rw [Fields.build_std hop fm hfm] at hb
  cases fm with
  | f0 =>
    obtain ⟨c, f, hct, hf, rfl⟩ := applyCtor_eq_some.mp hb
    have hraw := F0.raw_of_ofRaw hr hg hf
    rw [← hraw]
    exact .f0 hfm hop ((congrArg (ctorF0 r.op) (congrArg Raw.fn hraw)).trans hct)
  | f1 =>
    obtain ⟨c, f, hct, hf, rfl⟩ := applyCtor_eq_some.mp hb
    have hraw := F1.raw_of_ofRaw hr hg hf (loOk_f1 hlo)
    rw [← hraw]
    exact .f1 hfm ((congrArg (ctorF1 r.op) (congrArg Raw.fn hraw)).trans hct)
  | f3 =>
    obtain ⟨c, f, hct, hf, rfl⟩ := applyCtor_eq_some.mp hb
    rw [entryOf_matrix (ctorF3_op hct)] at he
    have hic : r.ic = 0 := by simpa [entryMatrix_ics he] using fieldsOk_ic hok
    have hraw := F3.raw_of_ofRaw hr hg hf hic (loOk_f3 hlo)
    rw [← hraw]
    exact .f3 hfm ((congrArg (ctorF3 r.op) (congrArg Raw.fn hraw)).trans hct)
  | f4 =>
    obtain ⟨c, f, hct, hf, rfl⟩ := applyCtor_eq_some.mp hb
    have hraw := F4.raw_of_ofRaw hr hg hf (loOk_f4 hlo)
    rw [← hraw]
    exact .f4 hfm ((congrArg (ctorF4 r.op) (congrArg Raw.fn hraw)).trans hct)
  | f6 =>
    obtain ⟨c, f, hct, hf, rfl⟩ := applyCtor_eq_some.mp hb
    have hraw := F6.raw_of_ofRaw hr hg hf (loOk_f6 hlo)
    rw [← hraw]
    exact .f6 hfm ((congrArg (ctorF6 r.op) (congrArg Raw.fn hraw)).trans hct)
  | f2 => cases hb
  | f5 => cases hb

theorem Raw2.isWord_of_build {r : Raw2} (hr : r.InRange) (hfm : fmtOf r.op = some .f2) {regd : Nat} (hc : checkTok regd r = none)
    (hb : Fields.build (.tok r) = some i) : IsWord i (.tok r) := by
  obtain ⟨-, hz, hg⟩ := checkTok_eq_none hc
  obtain ⟨c, f, hct, hf, rfl⟩ := applyCtor_eq_some.mp hb
  rw [← F2.raw_of_ofRaw hr hg hz hf]
  exact .f2 hfm hct

theorem Raw5.isWord_of_build {r : Raw5} (hr : r.InRange) (hc : checkClause r = none) (hb : Fields.build (.clause r) = some i) :
    IsWord i (.clause r) := by
  cases hb
  have h := IsWord.clause (F5.ofRaw r)
  rwa [F5.raw_ofRaw hr (checkClause_eq_none hc)] at h

/-- An instruction that is built from a word's fields, where these pass the tests, is that word's. -/
theorem Fields.isWord_of_build {w regd : Nat} (hc : (Fields.ofNat w).check regd = none) (hb : (Fields.ofNat w).build = some i) :
    IsWord i (Fields.ofNat w) := by
  unfold Fields.ofNat at hc hb ⊢
  split at hb
  · next hfm =>
    simp only [hfm] at hc ⊢
    exact Raw2.isWord_of_build (Raw2.ofNat_inRange w) hfm hc hb
  · next hfm =>
    simp only [hfm] at hc ⊢
    exact Raw5.isWord_of_build (Raw5.ofNat_inRange w) hc hb
  · next h2 h5 =>
    split at hc
    · next hfm => exact absurd hfm h2
    · next hfm => exact absurd hfm h5
    exact Raw.isWord_of_build (Raw.ofNat_inRange w) hc hb

theorem Instr.isWord_of_wellFormed (hw : i.wellFormed = true) (hf : i.fields = some fs) : IsWord i fs := by
  refine i.isWord_of_fields hf ?_
  rintro k fns r hk rfl
  simp only [Instr.wellFormed, hf, hk, Bool.and_eq_true] at hw
  simpa using hw.1

end

/-- A larger register demand refuses no fields that a smaller one admits. -/
theorem Fields.check_mono {regd regd' : Nat} (hle : regd ≤ regd') {fs : Fields} (h : fs.check regd = none) : fs.check regd' = none := by
  cases fs with
  | std r => exact checkStd_mono hle h
  | tok r => exact checkTok_mono hle h
  | clause r => exact h

theorem decode_eq_ok {regd : Nat} {w : DWord} {i : Instr} :
    decode regd w = .ok i ↔ (Fields.ofNat w.toNat).check regd = none ∧ (Fields.ofNat w.toNat).build = some i := by
  unfold decode decodeFields
  cases (Fields.ofNat w.toNat).check regd <;> cases (Fields.ofNat w.toNat).build <;> simp

end Sys2Proof

namespace Sys2Proof.Proofs

/-- Settles O52: a well-formed instruction is the word of its fields (`Instr.isWord_of_wellFormed`), the fields of that word are its
fields again, and they build it. -/
theorem decodeOfEncodeIsTheInstruction : Obligations.DecodeOfEncodeIsTheInstruction := by
  intro i fs w regd hwf hfs hcheck hw
  have hword := Instr.isWord_of_wellFormed hwf hfs
  obtain ⟨hlt, hofNat⟩ := hword.fits
  obtain rfl : BitVec.ofNat 64 fs.toNat = w := by
    unfold encode at hw
    rw [hfs] at hw
    exact Option.some.inj hw
  rw [decode_eq_ok, BitVec.toNat_ofNat, Nat.mod_eq_of_lt hlt, hofNat]
  exact ⟨hcheck, hword.build⟩

/-- Settles O53: the instruction that a word's fields build is the word of those fields (`Fields.isWord_of_build`), and every word is made
up of its fields. -/
theorem encodeOfDecodeIsTheWord : Obligations.EncodeOfDecodeIsTheWord := by
  intro i w regd hregd hdec
  obtain ⟨hcheck, hbuild⟩ := decode_eq_ok.mp hdec
  obtain ⟨hfields, hwf⟩ := (Fields.isWord_of_build hcheck hbuild).wellFormed (Fields.check_mono hregd hcheck)
  refine ⟨hwf, ?_⟩
  unfold encode
  rw [hfields, Option.map_some, Fields.toNat_ofNat w.isLt, BitVec.ofNat_toNat, BitVec.setWidth_eq]

end Sys2Proof.Proofs
end

section
/-! Clause header, NOP and EXIT (R58, R67, R371), and the words that trap (R68, R380, R402). -/

namespace Sys2Proof.Machine

open Sys2Proof.Safety Sys2Proof.Claims

/-- A word that faults takes its fault, once no earlier operation can fault (R100). -/
theorem State.faultWord_faults (s : State) (g : Group) (f : Flt) : Faults s g f (.next (s.faultWord g f)) := by
  refine ⟨fun hno => congrArg _ (if_neg hno), fun hmay => ?_⟩
  rw [show s.faultWord g f = s.hold g from if_pos hmay]
  exact State.hold_waits _ _

/-- A flag of the header's mask is set (R58). -/
def blockedBy (f : F5) (g : Group) : Bool := (List.range 12).any fun n => f.wait.getLsbD n && g.flags.atD n 0 != 0

theorem blockedBy_iff (f : F5) (g : Group) : blockedBy f g = true ↔ ∃ n, n < 12 ∧ f.wait.getLsbD n = true ∧ g.flags.atD n 0 ≠ 0 := by
  simp [blockedBy]

theorem blockedBy_eq_false_iff (f : F5) (g : Group) :
    blockedBy f g = false ↔ ∀ n, n < 12 → f.wait.getLsbD n = true → g.flags.atD n 0 = 0 := by
  simp [blockedBy]

/-! ## Each word's meaning, at the issuing group -/

section
variable {s : State} {g : Group} (h : Issuing s g)
include h

theorem exec_nop_of : exec .nop s = .next (s.finish g) := by
  rw [exec_nop, execNop, withIssuer_of h]

theorem exec_clauseHeader_of (f : F5) : exec (.clauseHeader f) s = .next (if blockedBy f g then s.hold g else s.finish g) := by
  rw [exec_clauseHeader, execClauseHeader, withIssuer_of h]
  rfl

theorem exec_exit_of (f : F2) : exec (.exit f) s =
    .next (if g.active f.g = 0 then s.finish g else s.setGroup s.cur.1 s.cur.2 { g.advance with status := .committing }) := by
  rw [exec_exit, execExit, withIssuer_of h]

theorem exec_trap_of (f : F6) : exec (.trap f) s = .next (match leader? (g.active f.g) with
    | none => s.finish (ctx6 f s g).g
    | some l => s.faultWord g { cls := .trap, lanes := g.active f.g, addr := ((ctx6 f s g).rd f.a l).toNat, detail := f.code.toNat }) := by
  rw [exec_trap, execTrap, withIssuer_of h]
  rfl

theorem exec_bkpt_of (f : F6) : exec (.bkpt f) s = .next (if g.active f.g = 0 ∨ !s.bken s.cur.1 then s.finish g
    else s.faultWord g { cls := .breakpoint, lanes := g.active f.g, detail := f.code.toNat }) := by
  rw [exec_bkpt, execBkpt, withIssuer_of h]

theorem exec_illegalEncoding_of (w : DWord) : exec (.illegalEncoding w) s =
    .next (match decode (hdrRegd ((s.core s.cur.1).slotHdr g)) w with
      | .ok _ => if lacksAttr ((s.core s.cur.1).slotHdr g) w then s.faultWord g { cls := .privilege } else s
      | .error _ => s.faultWord g { cls := .illegal }) := by
  rw [exec_illegalEncoding, execIllegalEncoding]
  exact withIssuer_of h _

end

end Sys2Proof.Machine

namespace Sys2Proof.Proofs

open Sys2Proof.Machine Sys2Proof.Safety Sys2Proof.Claims

/-- Settles O25: the header is held exactly where a flag of its mask is set, and EXIT commits exactly where a lane is active. -/
theorem clauseNopAndExit : Obligations.ClauseNopAndExit := by
  intro s g h
  refine ⟨?_, fun f hclear => ?_, fun f n hn hw hset => ?_, fun f hact => ?_, fun f hact => ?_⟩
  · rw [exec_nop_of h]
    exact State.finish_done _ _
  · rw [exec_clauseHeader_of h, (blockedBy_eq_false_iff f g).mpr hclear]
    exact State.finish_done _ _
  · rw [exec_clauseHeader_of h, (blockedBy_iff f g).mpr ⟨n, hn, hw, hset⟩]
    exact State.hold_waits _ _
  · rw [exec_exit_of h, if_pos hact]
    exact State.finish_done _ _
  · rw [exec_exit_of h, if_neg hact]
    exact ⟨_, rfl, State.setGroup_only _ _ _ _⟩

/-- Settles O29: each word faults or finishes by the branch that its operands, BKEN and the decoder choose. -/
theorem trapsTakeBlockFaults : Obligations.TrapsTakeBlockFaults := by
  intro s g h
  refine ⟨fun f l hl => ?_, fun f hl => ?_, fun f hact hb => ?_, fun f hno => ?_, fun w e he => ?_, fun w i hi => ⟨fun ha => ?_, fun ha => ?_⟩⟩
  · rw [exec_trap_of h, hl]
    exact State.faultWord_faults _ _ _
  · rw [exec_trap_of h, hl]
    exact State.finish_done _ _
  · rw [exec_bkpt_of h, if_neg (by rintro (h0 | h0); exacts [hact h0, by simp [hb] at h0])]
    exact State.faultWord_faults _ _ _
  · rw [exec_bkpt_of h, if_pos (by simpa using hno)]
    exact State.finish_done _ _
  · rw [exec_illegalEncoding_of h, he]
    exact State.faultWord_faults _ _ _
  · rw [exec_illegalEncoding_of h, hi]
    dsimp only
    rw [if_pos ha]
    exact State.faultWord_faults _ _ _
  · rw [exec_illegalEncoding_of h, hi]
    dsimp only
    rw [ha]
    rfl

end Sys2Proof.Proofs
end

section
/-! Words that the chapters write out (R40 to R55). -/

namespace Sys2Proof.Proofs

/-- Settles O50: the decoder, run on each word. -/
theorem writtenWordsDecode : Obligations.WrittenWordsDecode := by
  refine ⟨?_, ?_, ?_, ?_, ?_, ?_, ?_, ?_, ?_, ?_, ?_, ?_, ?_, ?_, ?_, ?_, ?_⟩
  all_goals rfl

end Sys2Proof.Proofs
end

section
/-! One step (R354 to R358, R60, R68, R28, R435). -/

namespace Sys2Proof

/-! ## The model's sort -/

theorem insertBy_eq_orderedInsert {α : Type} (le : α → α → Bool) (a : α) (l : List α) :
    insertBy le a l = l.orderedInsert (fun a b => le a b = true) a := by
  induction l with
  | nil => rfl
  | cons b l ih => rw [insertBy, List.orderedInsert_cons, ih]

theorem sortBy_eq_insertionSort {α : Type} (le : α → α → Bool) (l : List α) :
    sortBy le l = l.insertionSort (fun a b => le a b = true) := by
  induction l with
  | nil => rfl
  | cons a l ih => rw [sortBy, List.insertionSort_cons, insertBy_eq_orderedInsert, ih]

theorem mem_sortBy {α : Type} {le : α → α → Bool} {l : List α} {a : α} : a ∈ sortBy le l ↔ a ∈ l := by
  rw [sortBy_eq_insertionSort, List.mem_insertionSort]

theorem sortBy_eq_nil {α : Type} {le : α → α → Bool} {l : List α} : sortBy le l = [] ↔ l = [] := by
  rw [← List.length_eq_zero_iff, sortBy_length, List.length_eq_zero_iff]

/-- By a total order the head of a sorted list stands before every element. -/
theorem sortBy_head {α : Type} {le : α → α → Bool} (htotal : ∀ a b, le a b = true ∨ le b a = true)
    (htrans : ∀ a b c, le a b = true → le b c = true → le a c = true) {l xs : List α} {x : α} (h : sortBy le l = x :: xs) :
    x ∈ l ∧ ∀ y ∈ l, le x y = true := by
  refine ⟨mem_sortBy.mp (h ▸ List.mem_cons_self), fun y hy => ?_⟩
  have : Std.Total fun a b => le a b = true := ⟨htotal⟩
  have : IsTrans α fun a b => le a b = true := ⟨htrans⟩
  have hsorted := List.pairwise_insertionSort (fun a b => le a b = true) l
  rw [← sortBy_eq_insertionSort, h] at hsorted
  rw [← mem_sortBy (le := le), h] at hy
  obtain rfl | hy := List.mem_cons.mp hy
  · exact (htotal y y).elim id id
  · exact List.rel_of_pairwise_cons hsorted hy

end Sys2Proof

namespace Sys2Proof.Machine

open Sys2Proof.Safety Sys2Proof.Claims

/-! ## The order of R355 -/

theorem Group.before_iff (a b : Group) : a.before b = true ↔
    b.prio < a.prio ∨ a.prio = b.prio ∧ (a.replaying = true ∧ b.replaying = false ∨ a.replaying = b.replaying ∧ a.stamp ≤ b.stamp) := by
  unfold Group.before
  by_cases hp : a.prio = b.prio
  · cases ha : a.replaying <;> cases hb : b.replaying <;> simp [hp]
  · simp [hp]

theorem Group.before_total (a b : Group) : a.before b = true ∨ b.before a = true := by
  rw [Group.before_iff, Group.before_iff]
  cases a.replaying <;> cases b.replaying <;> simp <;> omega

theorem Group.before_trans (a b c : Group) (hab : a.before b = true) (hbc : b.before c = true) : a.before c = true := by
  rw [Group.before_iff] at *
  cases ha : a.replaying <;> cases hb : b.replaying <;> cases hc : c.replaying <;> simp_all <;> omega

/-! ## Trying a word -/

/-- A group that faults leaves its slot: it is parked, or its region ends. -/
theorem State.takeFault_group? (s : State) (ci gi word : Nat) (f : Flt) : ((s.takeFault ci gi word f).core ci).group? gi = none := by
  have discarded : ∀ u : State, ((u.discardGroup ci gi).core ci).group? gi = none := fun u => by
    rw [State.discardGroup_group?, if_pos ⟨rfl, rfl⟩]
  cases hg : (s.core ci).group? gi with
  | none =>
    unfold State.takeFault
    simp only [hg]
  | some g =>
    cases hr : s.coreRegion? ci with
    | none =>
      unfold State.takeFault
      simp only [hg, hr, Nat.zero_div, Nat.zero_mod, decide_true, Bool.true_or, if_true]
      split
      · exact State.beginEnd_group?_none (discarded _) _ _
      · exact discarded _
    | some r =>
      cases he : r.faultEnds g with
      | true => exact (State.takeFault_ends_region hg hr he word f).1
      | false =>
        have hgroup : ((s.faultRecord ci gi word f g false).2.core ci).group? gi = some g := by
          obtain ⟨q, hq⟩ := s.faultRecord_core ci gi word f g false
          rw [hq]
          exact (Core.undoGroup_group? _ _ _ _).trans hg
        obtain ⟨ts, hts⟩ := State.leaveSlot_core hgroup
        rw [State.takeFault_of_handled hg hr he, State.core_modCore_same, hts, State.core_setCore_same, Core.group?, Core.addPark_groups]
        exact NMap.at?_del_same _ _

/-- A word that faults puts no payload into the area: its group is gone, or waits with what it had. -/
theorem State.faultWord_payloadFull {s : State} {g : Group} (f : Flt) :
    (s.faultWord g f).payloadFull s.cur.1 s.cur.2 g = false := by
  unfold State.payloadFull State.faultWord
  split
  · have hold : ((s.hold g).core s.cur.1).group? s.cur.2 = some { g with status := .waiting } := by
      rw [State.hold, State.setGroup, State.core_modCore_same, Core.group?_setGroup_same]
    simp only [hold]
    simp [Group.payloadRecords]
  · simp only [State.takeFault_group?]

/-- What SPILL_FULL leaves of a core is a changed input; a word that waits for room stands before it. -/
theorem State.payloadHold_spec (s : State) (ci gi : Nat) (g : Group) :
    let h : Group := { g with status := .waiting, areaWait := some g.pc }
    let u := s.payloadHold ci gi g
    (u.core ci).group? gi = some h ∧ (∀ k, k ≠ gi → (u.core ci).group? k = (s.core ci).group? k) ∧
      (u.core ci).outbox = (s.core ci).outbox ∧ (g.areaWait = some g.pc → OnlyGroup s ci gi h u) := by
  intro h u
  have honly : OnlyGroup s ci gi h (s.setGroup ci gi h) := State.setGroup_only s ci gi h
  have hu : g.areaWait = some g.pc → u = s.setGroup ci gi h := fun e => by
    show s.payloadHold ci gi g = _
    unfold State.payloadHold
    simp only [e, beq_self_eq_true, if_true]
    rfl
  have hcore : ∃ q, u.core ci = { (s.setGroup ci gi h).core ci with inbox := q } := by
    by_cases e : g.areaWait = some g.pc
    · rw [hu e]; exact ⟨_, rfl⟩
    · obtain ⟨q, hq⟩ := (State.raise_inboxesOnly (s.setGroup ci gi h) (s.core ci).cfg.asid (srcCore ci) (dieOf ci) .spillFull false false
        (tailOf [(6, (s.core ci).spilled.length)]) (some ci) false).core ci
      refine ⟨q, hq ▸ ?_⟩
      show (s.payloadHold ci gi g).core ci = _
      unfold State.payloadHold
      simp only [beq_iff_eq, e, if_false]
      rfl
  obtain ⟨q, hq⟩ := hcore
  obtain ⟨gs, hgs⟩ := honly.core
  refine ⟨?_, fun k hk => ?_, ?_, fun e => hu e ▸ honly⟩
  · rw [hq]; exact honly.here
  · rw [hq]; exact honly.groups k hk
  · rw [hq, hgs]

/-! ## The issuing group's next word, with an empty schedule -/

section
variable {s : State} {g : Group} (hs : s.schedule = []) (h : Issuing s g) (ht : g.canTry (s.core s.cur.1) = true)
include hs h ht

/-- The word is passed over once, waits for a register, or runs; one that finds no room for its payload waits. -/
theorem step_eq_try : step s = if g.passWord == some g.pc then .next (s.finish { g with passWord := none })
    else if g.interlocked (Fields.ofNat (fetchWord (s.core s.cur.1) g).toNat) then .next (s.hold g)
    else match exec (fetchInstr (s.core s.cur.1) g) s with
      | .next t => .next (if t.payloadFull s.cur.1 s.cur.2 g then s.payloadHold s.cur.1 s.cur.2 g else t)
      | o => o := by
  have hg : (s.core s.cur.1).group? s.cur.2 = some g := h
  have hstep : step s = tryGroup exec s s.cur.1 s.cur.2 := by
    unfold step stepWith
    rw [hs]
  rw [hstep]
  unfold tryGroup
  simp only [hg, ht, if_true]
  rfl

variable (hp : g.passWord ≠ some g.pc) (hi : g.interlocked (Fields.ofNat (fetchWord (s.core s.cur.1) g).toNat) = false)
include hp hi

theorem step_eq_exec (hroom : ∀ t, exec (fetchInstr (s.core s.cur.1) g) s = .next t → t.payloadFull s.cur.1 s.cur.2 g = false) :
    step s = exec (fetchInstr (s.core s.cur.1) g) s := by
  rw [step_eq_try hs h ht, if_neg (by simpa using hp), hi, if_neg Bool.false_ne_true]
  split
  · next t he => rw [hroom t he, he]; rfl
  · rfl

theorem step_eq_payloadHold {t : State} (he : exec (fetchInstr (s.core s.cur.1) g) s = .next t)
    (hfull : t.payloadFull s.cur.1 s.cur.2 g = true) : step s = .next (s.payloadHold s.cur.1 s.cur.2 g) := by
  rw [step_eq_try hs h ht, if_neg (by simpa using hp), hi, if_neg Bool.false_ne_true, he]
  simp only [hfull, if_true]

end

theorem fetchInstr_of_ok {c : Core} {g : Group} {i : Instr} (h : decode (hdrRegd (c.slotHdr g)) (fetchWord c g) = .ok i) :
    fetchInstr c g = i := by
  unfold fetchInstr; rw [h]

theorem fetchInstr_of_error {c : Core} {g : Group} {e : Check} (h : decode (hdrRegd (c.slotHdr g)) (fetchWord c g) = .error e) :
    fetchInstr c g = .illegalEncoding (fetchWord c g) := by
  unfold fetchInstr; rw [h]

/-! ## Sensors (R435) -/

theorem NMap.mem_put_same {α : Type} [DecidableEq α] {d v : α} (hv : v ≠ d) {m : NMap α} {k : Nat} : (k, v) ∈ NMap.put d m k v := by
  unfold NMap.put
  rw [if_neg hv]
  exact NMap.at?_mem (NMap.at?_ins_same _ _ _)

theorem Device.hot_of_regulator {d : Device} (h : d.regulator = true) : d.hot = true := by
  unfold Device.hot; rw [h, Bool.true_or]

theorem Device.hot_of_temp {d : Device} {die : Nat} {x : BitVec 16} (h : (die, x) ∈ d.temps) (hx : 105 * 16 < x.toInt) : d.hot = true := by
  unfold Device.hot
  rw [Bool.or_eq_true, List.any_eq_true]
  exact .inr ⟨_, h, by simpa using hx⟩

/-- A sensor's reading sets the throttle and its count where a condition now stands, and else when it last stood. -/
theorem State.sense_spec (s : State) (d : Device) : ∃ th n c, s.sense d = s.setDev { d with throttle := th, throttles := n, coolSince := c } ∧
    (d.hot = true → th = true ∧ n = if d.throttle then d.throttles else d.throttles + 1) := by
  unfold State.sense
  cases d.hot
  · refine ⟨d.throttle, d.throttles, if s.dev.hot then s.gtc else d.coolSince, ?_, Bool.noConfusion⟩
    cases s.dev.hot <;> rfl
  · exact ⟨_, _, d.coolSince, rfl, fun _ => ⟨rfl, rfl⟩⟩

/-! ## A turn -/

section
variable {s : State} {t : Turn} {ts : List Turn} (hs : s.schedule = t :: ts)
include hs

theorem step_event {e : Instr} (ha : t.actor = .event e) (he : e.fields = none) : step s = exec e (beforeTurn s t ts) := by
  unfold step stepWith
  simp only [hs, ha, he]
  rfl

theorem step_temperature {die : Nat} {x : BitVec 16} (ha : t.actor = .temperature die x) : step s =
    .next ((beforeTurn s t ts).sense { (beforeTurn s t ts).dev with temps := (beforeTurn s t ts).dev.temps.put 0 die x }) := by
  unfold step stepWith
  simp only [hs, ha]
  rfl

theorem step_regulator {on : Bool} (ha : t.actor = .regulator on) : step s =
    .next ((beforeTurn s t ts).sense { (beforeTurn s t ts).dev with regulator := on }) := by
  unfold step stepWith
  simp only [hs, ha]
  rfl

theorem step_power {y : BitVec 16} (ha : t.actor = .power y) :
    step s = .next ((beforeTurn s t ts).setDev { (beforeTurn s t ts).dev with watts := y }) := by
  unfold step stepWith
  simp only [hs, ha]
  rfl

theorem step_issue {ci : Nat} (ha : t.actor = .issue ci) : step s = issueCore exec (beforeTurn s t ts) ci := by
  unfold step stepWith
  simp only [hs, ha]
  rfl

end

/-! ## A core's turn to issue -/

theorem issueCore_of_gated {s : State} {ci : Nat} (h : (s.core ci).gate = .gated) : issueCore exec s ci =
    .next (if (s.core ci).groups.keyList.any fun gi => (readyResult exec s ci gi).isSome then s.restartCore ci else s) := by
  unfold issueCore
  simp only [h]

theorem issueCore_of_restarting {s : State} {ci x : Nat} (h : (s.core ci).gate = .restarting x) : issueCore exec s ci = .next s := by
  unfold issueCore
  simp only [h]

/-- The ready groups of a core, as entries of its slots (R354). -/
def State.readyGroups (s : State) (ci : Nat) : List (Nat × Group) :=
  (s.core ci).groups.filter fun e => (readyResult exec s ci e.1).isSome

/-- Of a running core, the groups that are not ready try and wait; then the first of the ready ones issues. -/
theorem issueCore_of_running {s : State} {ci : Nat} {x : Option Nat} (h : (s.core ci).gate = .running x) :
    let w := (s.core ci).groups.keyList.foldl (tryWait exec ci) s
    (w.readyGroups ci = [] → issueCore exec s ci = .next w) ∧
    (w.readyGroups ci ≠ [] → ∃ e ∈ w.readyGroups ci, (∀ o ∈ w.readyGroups ci, e.2.before o.2 = true) ∧
      ∃ u, issueCore exec s ci = tryGroup exec u ci e.1 ∧ CoresKept w u ci ∧ MemoryKept w u) := by
  intro w
  have hissue : issueCore exec s ci = match sortBy (fun a b => a.2.before b.2) (w.readyGroups ci) with
      | [] => .next w
      | e :: others => tryGroup exec (w.modCore ci fun c => others.foldl (fun c o => c.passOver o.1) { c with gate := .running none }) ci e.1 := by
    unfold issueCore
    simp only [h]
    rfl
  constructor
  · intro hnone
    rw [hissue, sortBy_eq_nil.mpr hnone]
  · intro hsome
    cases hsort : sortBy (fun a b => a.2.before b.2) (w.readyGroups ci) with
    | nil => exact absurd (sortBy_eq_nil.mp hsort) hsome
    | cons e others =>
      obtain ⟨hmem, hfirst⟩ := sortBy_head (fun a b => Group.before_total a.2 b.2) (fun a b c => Group.before_trans a.2 b.2 c.2) hsort
      refine ⟨e, hmem, hfirst, _, by rw [hissue, hsort], State.modCore_coresKept _ _ _, .of_mem (State.modCore_mem _ _ _)⟩

end Sys2Proof.Machine

namespace Sys2Proof.Proofs

open Sys2Proof.Machine Sys2Proof.Safety Sys2Proof.Claims

/-- Settles O51: with an empty schedule by the order in which a word is tried; a turn by its actor. -/
theorem aStepRunsTheDecodedWord : Obligations.AStepRunsTheDecodedWord := by
  refine ⟨fun s g hs h ht => ?_, fun s t ts e hs ha he => step_event hs ha he, fun s t ts die x y hs => ?_, fun s t ts ci hs ha => ?_⟩
  · refine ⟨fun hp => ?_, fun hp hi => ?_, fun i hp hi hd => ⟨fun hroom => ?_, fun t he hfull => ?_⟩, fun e hp hi hd => ?_⟩
    · rw [step_eq_try hs h ht, if_pos (by simpa using hp)]
      exact State.finish_done _ _
    · rw [step_eq_try hs h ht, if_neg (by simpa using hp), if_pos hi]
      exact State.hold_waits _ _
    · rw [← fetchInstr_of_ok hd] at hroom ⊢
      exact step_eq_exec hs h ht hp hi hroom
    · rw [← fetchInstr_of_ok hd] at he
      exact ⟨_, step_eq_payloadHold hs h ht hp hi he hfull, State.payloadHold_spec _ _ _ _⟩
    · rw [← fetchInstr_of_error hd]
      refine step_eq_exec hs h ht hp hi fun t he => ?_
      rw [fetchInstr_of_error hd, exec_illegalEncoding_of h, hd] at he
      cases he
      exact State.faultWord_payloadFull _
  · intro v throttled
    refine ⟨fun ha => ?_, fun on ha => ?_, fun ha => step_power hs ha⟩
    · obtain ⟨th, n, c, hu, hhot⟩ := State.sense_spec v { v.dev with temps := v.dev.temps.put 0 die x }
      refine ⟨_, step_temperature hs ha, ?_, fun hx => ?_, ?_⟩
      · rw [hu]
        exact NMap.atD_put_same _ _ _ _
      · rw [hu]
        exact hhot (Device.hot_of_temp (NMap.mem_put_same (by rintro rfl; exact absurd hx (by decide))) hx)
      · rw [hu]
        rfl
    · obtain ⟨th, n, c, hu, hhot⟩ := State.sense_spec v { v.dev with regulator := on }
      refine ⟨_, step_regulator hs ha, ?_, fun hon => ?_, ?_⟩
      · rw [hu]
        rfl
      · rw [hu]
        exact hhot (Device.hot_of_regulator hon)
      · rw [hu]
        rfl
  · intro v
    rw [step_issue hs ha]
    refine ⟨fun hg => ⟨fun hready => ?_, fun hnone => ?_⟩, fun x hg => issueCore_of_restarting hg, fun x hg => issueCore_of_running hg⟩
    · rw [issueCore_of_gated hg, if_pos]
      · rfl
      · obtain ⟨e, he, hr⟩ := hready
        exact List.any_eq_true.mpr ⟨e.1, List.mem_map_of_mem he, hr⟩
    · rw [issueCore_of_gated hg, if_neg]
      rw [List.any_eq_true]
      rintro ⟨gi, hgi, hr⟩
      obtain ⟨e, he, rfl⟩ := List.mem_map.mp hgi
      rw [hnone e he] at hr
      cases hr

end Sys2Proof.Proofs
end

section
/-! O34 fails at one clause, by the form of the state. A renewal answered with new data changes its core twice: it leaves the list of
renewals, then the L1 takes the line. A core that held nothing else is after the first change the core after reset, and the map of cores
unlists it, with every entry of its number. The clause says that the whole is one write of the core, which keeps a second entry of the same
number. Only a map of cores in canonical form, which the clause does not ask for, has no second entry. -/

namespace Sys2Proof.Machine

/-- A renewal of line 0 that came back with one byte of new data and a lease. -/
def lastRenewal : Renewal :=
  { num := 0, line := 0, ver := 0, lru := false, back := true, newExp := 1, newVer := 0, data := [0] }

/-- A core that holds this renewal and nothing else. -/
def lastRenewalCore : Core := { Core.empty with renewals := [lastRenewal] }

/-- A state whose map lists that core twice under the number 0. -/
def doubledCore : State := { State.reset with cores := [(0, lastRenewalCore), (0, lastRenewalCore)] }

/-- The core once the data of the renewal are installed. -/
def refilledCore : Core := Core.empty.l1Put { line := 0, exp := 1, ver := 0, data := [0] } false

/-- One write of the core leaves its second entry. -/
theorem setCore_doubledCore :
    doubledCore.setCore 0 refilledCore = { State.reset with cores := [(0, refilledCore), (0, lastRenewalCore)] } := rfl

/-- The reply leaves one entry of the core. -/
theorem exec_renewalReply_doubledCore :
    exec (.speculativeRenewalReply 0 0) doubledCore = .next { State.reset with cores := [(0, refilledCore)] } := rfl

/-- A core without groups has no loads to retry. -/
theorem State.retryLoads_of_no_groups {s : State} {ci : Nat} (h : (s.core ci).groups = []) : s.retryLoads ci = s := by
  rw [State.retryLoads, h, List.foldl_nil]

end Sys2Proof.Machine

namespace Sys2Proof.Proofs
open Sys2Proof.Machine

/-- Refutes O34: in the state `doubledCore`, whose map of cores is not in canonical form, a renewal answered with new data does not change
its core in one write. -/
theorem not_completionRenewalAndGatingEvents : ¬ Obligations.CompletionRenewalAndGatingEvents := by
  unfold Obligations.CompletionRenewalAndGatingEvents
  rintro ⟨h, -⟩
  obtain ⟨-, -, hdata, -⟩ := h 0 0 doubledCore
  obtain ⟨v, hv, hput, -⟩ := hdata 0 lastRenewal rfl rfl (List.cons_ne_nil _ _)
  have hset : v = doubledCore.setCore 0 refilledCore := hput fun e he => absurd he List.not_mem_nil
  have hretry : v.retryLoads 0 = v := State.retryLoads_of_no_groups (by rw [hset]; rfl)
  rw [hretry, hset, setCore_doubledCore, exec_renewalReply_doubledCore] at hv
  injection hv with hv
  have hlen : 1 = 2 := congrArg (fun t : State => t.cores.length) hv
  exact absurd hlen (by decide)

end Sys2Proof.Proofs
end

section
/-! How an operation ends (R57): the slot that waits for it, what its completion writes to its group, and the state that its end leaves. -/

namespace Sys2Proof

/-- The number whose bits below n are those of a test. -/
theorem foldr_pow_spec (p : Nat → Bool) (n : Nat) :
    let x := (List.range n).foldr (fun l acc => if p l then acc + 2 ^ l else acc) 0
    x < 2 ^ n ∧ ∀ l, l < n → x.testBit l = p l := by
  have hadd : ∀ (ls : List Nat) (a : Nat), ls.foldr (fun l acc => if p l then acc + 2 ^ l else acc) a =
      a + ls.foldr (fun l acc => if p l then acc + 2 ^ l else acc) 0 := by
    intro ls a
    induction ls with
    | nil => rfl
    | cons l ls ih => rw [List.foldr_cons, List.foldr_cons, ih]; split <;> omega
  induction n with
  | zero => exact ⟨Nat.one_pos, fun l hl => absurd hl (Nat.not_lt_zero l)⟩
  | succ n ih =>
    obtain ⟨hlt, hbit⟩ := ih
    dsimp only at hlt hbit ⊢
    have htop : (List.range (n + 1)).foldr (fun l acc => if p l then acc + 2 ^ l else acc) 0 =
        2 ^ n * (p n).toNat + (List.range n).foldr (fun l acc => if p l then acc + 2 ^ l else acc) 0 := by
      rw [List.range_succ, List.foldr_append, hadd, List.foldr_cons, List.foldr_nil]
      cases p n <;> simp
    rw [htop]
    refine ⟨?_, fun l hl => ?_⟩
    · cases p n <;> simp [Nat.pow_succ] <;> omega
    · rw [Nat.testBit_two_pow_mul_add _ hlt]
      split
      · next h => exact hbit l h
      · obtain rfl : l = n := by omega
        cases p l <;> simp

/-- A mask holds the lanes of its test. -/
theorem laneBit_maskOf (p : Nat → Bool) {l : Nat} (hl : l < 32) : laneBit (maskOf p) l = p l := by
  obtain ⟨-, hbit⟩ := foldr_pow_spec p 32
  rw [laneBit, maskOf, BitVec.getLsbD_ofNat, decide_eq_true hl, Bool.true_and]
  exact hbit l hl

/-- Writing over the first entry found writes the entry that a search finds. -/
theorem NMap.find?_ins_of_found {α : Type} {m : NMap α} {k : Nat} {v w : α} {p : Nat × α → Bool} (hfind : m.find? p = some (k, v))
    (hat : m.at? k = some v) (hw : p (k, w) = true) : (m.ins k w).find? p = some (k, w) := by
  induction m with
  | nil => simp at hfind
  | cons e m ih =>
    obtain ⟨j, u⟩ := e
    rw [NMap.ins]
    split
    · rw [List.find?_cons_of_pos hw]
    · split
      · rw [List.find?_cons_of_pos hw]
      · next hjk =>
        have hp : p (j, u) ≠ true := by
          intro hp
          rw [List.find?_cons_of_pos hp] at hfind
          exact hjk (congrArg Prod.fst (Option.some.inj hfind)).symm
        rw [List.find?_cons_of_neg hp] at hfind ⊢
        exact ih hfind (by rwa [NMap.at?, if_neg (Ne.symm hjk)] at hat)

end Sys2Proof

namespace Sys2Proof.Machine
open Sys2Proof.Claims

/-! ## The slot of an operation -/

/-- A changed group that keeps the operation is found where it was. -/
theorem Core.opSlot_setGroup {c : Core} {num gi : Nat} {g h : Group} (hslot : c.opSlot num = some (gi, g)) (hg : c.group? gi = some g)
    (hh : (h.ops.any fun o => o.num == num) = true) : (c.setGroup gi h).opSlot num = some (gi, h) :=
  NMap.find?_ins_of_found hslot hg hh

/-! ## One operation replaced in its group -/

theorem Group.setOp_find {g : Group} {o p : LongOp} (ho : (g.ops.find? fun x => x.num == o.num) = some o) (hp : p.num = o.num) :
    ((g.setOp p).ops.find? fun x => x.num == o.num) = some p := by
  have hsame : ((fun x : LongOp => x.num == o.num) ∘ fun x => if x.num == p.num then p else x) = fun x => x.num == o.num := by
    funext x
    simp only [Function.comp_apply, hp, beq_iff_eq]
    split
    · next h => rw [hp, h]
    · rfl
  rw [Group.setOp, replaceIf, List.find?_map, hsame, ho, Option.map_some, hp, if_pos (beq_self_eq_true _)]

theorem Group.setOp_filter (g : Group) (o p : LongOp) (hp : p.num = o.num) :
    ((g.setOp p).ops.filter fun x => x.num != o.num) = g.ops.filter fun x => x.num != o.num := by
  show ((g.ops.map _).filter _) = _
  generalize g.ops = xs
  induction xs with
  | nil => rfl
  | cons x xs ih =>
    rw [List.map_cons, List.filter_cons, List.filter_cons, ih, hp]
    by_cases h : x.num = o.num <;> simp [h, hp]

/-! ## What a completion writes -/

/-- Single register writes to D, D + 1, … of one lane are the write of a run (R47, R57). -/
theorem Group.setDst_regWrites (g : Group) (d : Operand) (n l v : Nat) (hd : ∀ q, d = .p q → n = 1) :
    (List.range n).foldl (fun g j => g.setDst (opPlus d j) 1 l (w32 (v / 2 ^ (32 * j))).toNat) g = g.setDst d n l v := by
  cases d with
  | v r =>
    refine List.foldl_ext _ _ g fun g j _ => ?_
    dsimp only [opPlus]
    split
    · next h => simp [Group.setDst, h, w32, -BitVec.toNat_ofNat]
    · rfl
  | p q =>
    obtain rfl := hd q rfl
    simp [opPlus, Group.setDst, w32]
  | k r =>
    refine List.foldl_fixed' (fun j => ?_) _
    dsimp only [opPlus]
    split <;> rfl
  | inp _ => exact List.foldl_fixed _
  | sp _ => exact List.foldl_fixed _
  | em => exact List.foldl_fixed _
  | zero => exact List.foldl_fixed _

/-- The single register writes of a result are its write to the lanes. -/
theorem Group.foldl_regWrites (g : Group) (d : Operand) (n : Nat) (vs : List (Nat × Nat)) (hd : ∀ q, d = .p q → n = 1) :
    (regWrites d n vs).foldl (fun g w => g.setDst w.reg 1 w.lane w.val.toNat) g = g.setLanes d n vs := by
  rw [regWrites, List.foldl_flatMap, Group.setLanes]
  refine List.foldl_ext _ _ g fun g e _ => ?_
  rw [List.foldl_map]
  exact g.setDst_regWrites d n e.1 e.2 hd

/-- A live operation that ends writes its results, sets its sticky bits and counts its flag down. -/
theorem Group.completeOp_of_writes {g : Group} {o : LongOp} (hd : o.dead = false) {n : Nat} {vs : List (Nat × Nat)}
    (hw : o.writes = regWrites o.dst n vs) (hn : ∀ q, o.dst = .p q → n = 1) :
    g.completeOp o = ((({ g with ops := g.ops.filter fun p => p.num != o.num } : Group).setLanes o.dst n vs).setFl o.fl.toNat).flagDown o.flag := by
  rw [Group.completeOp, hd, if_neg Bool.false_ne_true, hw, Group.foldl_regWrites _ _ _ _ hn]

theorem Group.setFl_same (g : Group) (fl : Nat) : (g.setFl fl).ops = g.ops ∧ (g.setFl fl).flags = g.flags ∧ (g.setFl fl).undo = g.undo ∧
    (g.setFl fl).regs = g.regs ∧ (g.setFl fl).preds = g.preds := by
  rw [Group.setFl]
  split <;> exact ⟨rfl, rfl, rfl, rfl, rfl⟩

theorem Group.flagDown_same (g : Group) (f : Option Nat) : (g.flagDown f).ops = g.ops ∧ (g.flagDown f).undo = g.undo ∧
    (g.flagDown f).regs = g.regs ∧ (g.flagDown f).preds = g.preds := by
  cases f <;> exact ⟨rfl, rfl, rfl, rfl⟩

theorem Group.flagDown_count (g : Group) (n : Nat) : (g.flagDown (some n)).flags.atD n 0 = g.flags.atD n 0 - 1 := NMap.atD_put_same _ _ _ _

end Sys2Proof.Machine
end

section
/-! The end of an operation whose accesses are served (R57): its group receives the results. -/

namespace Sys2Proof

/-- Among elements of distinct keys, a key finds its own element. -/
theorem find?_key_of_nodup {α : Type} (key : α → Nat) {l : List α} (hn : (l.map key).Nodup) {a : α} (ha : a ∈ l) :
    (l.find? fun x => key x == key a) = some a := by
  induction l with
  | nil => simp at ha
  | cons b l ih =>
    obtain ⟨hb, hn⟩ := List.nodup_cons.mp hn
    rcases List.mem_cons.mp ha with rfl | ha
    · exact List.find?_cons_of_pos (beq_self_eq_true _)
    · have hne : (key b == key a) ≠ true := fun h => hb (eq_of_beq h ▸ List.mem_map_of_mem ha)
      exact (List.find?_cons_of_neg (p := fun x => key x == key a) hne).trans (ih hn ha)

end Sys2Proof

namespace Sys2Proof.Machine
open Sys2Proof.Safety Sys2Proof.Claims

/-- A lane write speaks of registers and predicates only. -/
theorem laneWrite_of_parts {g h g' h' : Group} {d : Operand} {n : Nat} {act : LaneMask} {v : Nat → Nat} (w : LaneWrite g h d n act v)
    (hr : g'.regs = g.regs) (hp : g'.preds = g.preds) (hr' : h'.regs = h.regs) (hp' : h'.preds = h.preds)
    (hrest : h' = { g' with regs := h'.regs, preds := h'.preds }) : LaneWrite g' h' d n act v where
  reg := by simpa only [Group.reg, hr'] using w.reg
  pred := by simpa only [hp'] using w.pred
  regKeep := by simpa only [Group.reg, hr, hr'] using w.regKeep
  predKeep := by simpa only [hp, hp'] using w.predKeep
  rest := hrest

/-- Accesses of one lane each deliver to their lanes. -/
theorem Group.setLanes_accs (g : Group) (d : Operand) (n : Nat) {accs : List Access} (val : Access → Nat)
    (hn : (accs.map fun a => a.lane).Nodup) (hlt : ∀ a ∈ accs, a.lane < 32) :
    LaneWrite g (g.setLanes d n (accs.map fun a => (a.lane, val a))) d n (maskOf fun l => accs.any fun a => a.lane == l)
      (fun l => ((accs.find? fun a => a.lane == l).map val).getD 0) := by
  have hvals : (accs.map fun a => (a.lane, val a)) =
      (accs.map fun a => a.lane).map fun l => (l, ((accs.find? fun a => a.lane == l).map val).getD 0) := by
    rw [List.map_map]
    refine List.map_congr_left fun a ha => ?_
    have hfind := find?_key_of_nodup (fun a : Access => a.lane) hn ha
    rw [Function.comp_apply, hfind, Option.map_some, Option.getD_some]
  rw [hvals]
  refine Group.setLanes_list d n _ _ g hn (fun l hl => ?_) _ fun l hl => ?_
  · obtain ⟨a, ha, rfl⟩ := List.mem_map.mp hl
    exact hlt a ha
  · rw [laneBit_maskOf _ hl, List.any_eq_true, List.mem_map]
    simp only [beq_iff_eq]

/-- Serving operation `o` of a group g has made it p, complete with the value of each access; c and g are now c' and g', as far as the
operation's end asks. -/
structure Served (c c' : Core) (g g' : Group) (o p : LongOp) (n : Nat) (val : Access → Nat) : Prop where
  groups : c'.groups = c.groups
  divq : c'.divq = c.divq
  ops : g'.ops = g.ops
  flags : g'.flags = g.flags
  regs : g'.regs = g.regs
  preds : g'.preds = g.preds
  num : p.num = o.num
  flag : p.flag = o.flag
  dst : p.dst = o.dst
  ready : p.ready = true
  dead : p.dead = false
  kind : p.kind ≠ .courier
  writes : p.writes = regWrites p.dst n (o.accs.map fun a => (a.lane, val a))

/-- What the completion of a served operation leaves of its group. -/
theorem Served.completes {c c' : Core} {g g' : Group} {o p : LongOp} {n : Nat} {val : Access → Nat} (h : Served c c' g g' o p n val)
    (ho : LanesApart o n) :
    let k := (g'.setOp p).completeOp p
    k.ops = (g.ops.filter fun x => x.num != o.num) ∧ (∀ f, o.flag = some f → k.flags.atD f 0 = g.flags.atD f 0 - 1) ∧
      Receives g k o.dst n o.accs val ∧ k.undo = g'.undo := by
  obtain ⟨hnodup, haccs, hpred⟩ := ho
  have hpred' : ∀ q, p.dst = .p q → n = 1 := fun q hq => hpred q (h.dst ▸ hq)
  have hk := Group.completeOp_of_writes (g := g'.setOp p) h.dead h.writes hpred'
  let g₀ : Group := { g'.setOp p with ops := (g'.setOp p).ops.filter fun x => x.num != p.num }
  let g₁ : Group := g₀.setLanes p.dst n (o.accs.map fun a => (a.lane, val a))
  have hw := g₀.setLanes_accs p.dst n val hnodup fun a ha => (haccs a ha).1
  have hrest : g₁ = { g₀ with regs := g₁.regs, preds := g₁.preds } := hw.rest
  obtain ⟨hops, hflags, hundo, hregs, hpreds⟩ := g₁.setFl_same p.fl.toNat
  obtain ⟨hops', hundo', hregs', hpreds'⟩ := (g₁.setFl p.fl.toNat).flagDown_same p.flag
  dsimp only
  rw [hk]
  refine ⟨?_, fun f hf => ?_, ?_, ?_⟩
  · rw [hops', hops, hrest]
    show ((g'.setOp p).ops.filter fun x => x.num != p.num) = _
    rw [h.num, Group.setOp_filter _ _ _ h.num, h.ops]
  · rw [h.flag, hf, Group.flagDown_count, hflags, hrest]
    exact congrArg (fun m => NMap.atD m f 0 - 1) h.flags
  · rw [← h.dst]
    exact laneWrite_of_parts hw h.regs.symm h.preds.symm (hregs'.trans hregs) (hpreds'.trans hpreds) rfl
  · rw [hundo', hundo, hrest]
    rfl

/-- The operation ends in its slot: its group is replaced, and it leaves the divide unit's queue. -/
theorem Core.endOp_of_slot {c : Core} {num gi : Nat} {g : Group} {p : LongOp} (hslot : c.opSlot num = some (gi, g))
    (hfind : (g.ops.find? fun o => o.num == num) = some p) (hd : p.dead = false) : c.endOp num = c.setGroup gi (g.completeOp p) := by
  rw [Core.endOp, hslot]
  simp only [hfind, hd, Bool.false_and, Bool.false_eq_true, if_false]

/-- A running operation that its service completes ends with its results. -/
theorem running_ends {s : State} {ci gi idx : Nat} {g g' : Group} {o p : LongOp} {c' : Core} {n : Nat} {val : Access → Nat}
    (hr : Running (s.core ci) gi idx g o) (ho : LanesApart o n)
    (hserve : s.serveOp ci gi o = s.setCore ci (c'.setGroup gi (g'.setOp p))) (h : Served (s.core ci) c' g g' o p n val) :
    Ends s ci gi g o (.longLatencyCompletion ci gi idx) fun v k =>
      Receives g k o.dst n o.accs val ∧ (∀ b, (v.core ci).buf b = c'.buf b) ∧ k.undo = g'.undo := by
  obtain ⟨hgi, hg, hidx, hfind, hslot, -, -, hflt, hdiv⟩ := hr
  let t := s.setCore ci (c'.setGroup gi (g'.setOp p))
  let d := c'.setGroup gi (g'.setOp p)
  have hcore : t.core ci = d := State.core_setCore_same _ _ _
  have hgroup : d.group? gi = some (g'.setOp p) := NMap.at?_ins_same _ _ _
  have hp : ((g'.setOp p).ops.find? fun x => x.num == o.num) = some p := Group.setOp_find (h.ops ▸ hfind) h.num
  have hslot' : d.opSlot o.num = some (gi, g'.setOp p) :=
    Core.opSlot_setGroup (by rw [Core.opSlot, h.groups]; exact hslot) (by rw [Core.group?, h.groups]; exact hg)
      (List.any_eq_true.mpr ⟨p, List.mem_of_find?_eq_some hp, by simp [h.num]⟩)
  have hends : d.opEnds p = true := by
    have hdiv' : d.divq.contains p.num = false := by rw [h.num]; exact h.divq ▸ hdiv
    rw [Core.opEnds, hdiv', h.ready]
    cases hk : p.kind with
    | courier => exact absurd hk h.kind
    | _ => rfl
  obtain ⟨hops, hflags, hrec, hundo⟩ := h.completes ho
  let v := t.modCore ci fun c => { c.endOp o.num with divq := (c.endOp o.num).divq.filter (· != o.num) }
  have hv : v.core ci = { d.setGroup gi ((g'.setOp p).completeOp p) with
      divq := (d.setGroup gi ((g'.setOp p).completeOp p)).divq.filter (· != o.num) } := by
    rw [State.core_modCore_same, hcore, Core.endOp_of_slot hslot' hp h.dead]
  refine ⟨v, (g'.setOp p).completeOp p, ?_, ?_, hops, hflags, fun k hk => ?_, fun cj hj => ?_, ?_, hrec, fun b => ?_, hundo⟩
  · rw [exec_longLatencyCompletion, execLongLatencyCompletion, if_neg (by omega), hg, Option.bind_some, hidx]
    dsimp only
    rw [hflt]
    dsimp only
    rw [hserve, show (s.setCore ci (c'.setGroup gi (g'.setOp p))).core ci = d from hcore, hgroup, Option.bind_some, hp]
    dsimp only
    rw [if_pos hends, h.num]
    rfl
  · rw [hv]
    exact NMap.at?_ins_same _ _ _
  · rw [hv]
    show ((c'.groups.ins gi _).ins gi _).at? k = (s.core ci).groups.at? k
    rw [NMap.at?_ins_other _ _ _ _ hk, NMap.at?_ins_other _ _ _ _ hk, h.groups]
  · rw [State.core_modCore_other _ _ _ _ hj, State.core_setCore_other _ _ _ _ hj]
  · exact MemoryKept.of_mem rfl
  · rw [hv]
    cases b <;> rfl

end Sys2Proof.Machine
end

section
/-! How loads and ATOMA are served whose lines are free or whose bytes are at hand (R105, R157, R158, R160, R165). -/

namespace Sys2Proof.Machine
open Sys2Proof.Safety Sys2Proof.Claims

/-! ## Accesses served one after the other -/

/-- Steps that each serve their access and keep the state serve them all. -/
theorem foldl_serves {step : State × List Access → Access → State × List Access} {s : State} {fill : Access → Access} {accs : List Access}
    (h : ∀ a ∈ accs, ∀ done, step (s, done) a = (s, done ++ [fill a])) (done : List Access) :
    accs.foldl step (s, done) = (s, done ++ accs.map fill) := by
  induction accs generalizing done with
  | nil => rw [List.foldl_nil, List.map_nil, List.append_nil]
  | cons a accs ih =>
    rw [List.foldl_cons, h a List.mem_cons_self, ih fun b hb => h b (List.mem_cons_of_mem _ hb), List.map_cons, List.append_assoc,
      List.singleton_append]

/-- An access with its bytes. -/
def Access.fill (bytes : Access → List Byte) (a : Access) : Access := { a with got := some (bytes a) }

/-- R160: the widening of a load. -/
theorem widenLoad_eq_loaded (size : Nat) (bs : List Byte) : widenLoad size bs = loaded size bs := by
  have hlt : size % 8 < 8 := Nat.mod_lt _ (by decide)
  unfold widenLoad loaded
  dsimp only
  generalize size % 8 = k at hlt
  interval_cases k <;> rfl

/-- The value that an access of a load delivers. -/
def LongOp.valueOf (o : LongOp) (bytes : Access → List Byte) (a : Access) : Nat :=
  loaded o.size.toNat (overlayBytes o.overlay a.addr (bytes a))

/-- A load whose accesses all have their bytes is complete. -/
theorem LongOp.serveDone_fill (o : LongOp) (bytes : Access → List Byte) :
    ({ o with accs := o.accs.map (Access.fill bytes) } : LongOp).serveDone =
      { o with accs := o.accs.map (Access.fill bytes), ready := true,
               writes := regWrites o.dst (sizeRegs o.size.toNat) (o.accs.map fun a => (a.lane, o.valueOf bytes a)) } := by
  have hall : ((o.accs.map (Access.fill bytes)).all fun a => a.got.isSome) = true := by
    rw [List.all_map]
    exact List.all_eq_true.mpr fun a _ => rfl
  unfold LongOp.serveDone
  dsimp only
  rw [if_pos hall, List.map_map]
  simp only [Function.comp_def, widenLoad_eq_loaded]
  rfl

/-- A load served whole. -/
theorem served_load {c c' : Core} {g g' : Group} {o : LongOp} (bytes : Access → List Byte) (hk : o.kind ≠ .courier) (hd : o.dead = false)
    (hgroups : c'.groups = c.groups) (hdivq : c'.divq = c.divq) (hops : g'.ops = g.ops) (hflags : g'.flags = g.flags)
    (hregs : g'.regs = g.regs) (hpreds : g'.preds = g.preds) :
    Served c c' g g' o ({ o with accs := o.accs.map (Access.fill bytes) } : LongOp).serveDone (sizeRegs o.size.toNat) (o.valueOf bytes) := by
  rw [LongOp.serveDone_fill]
  exact ⟨hgroups, hdivq, hops, hflags, hregs, hpreds, rfl, rfl, rfl, rfl, hd, hk, rfl⟩

/-! ## Buffer loads -/

section
variable {s : State} {ci gi idx : Nat} {g : Group} {o : LongOp} (hr : Running (s.core ci) gi idx g o)
include hr

theorem running_alive : o.dead = false := by
  obtain ⟨-, -, -, -, -, -, hdead, -, -⟩ := hr
  exact hdead

/-- A request to free lines reaches them and changes nothing. -/
theorem reach_of_free {b : Buf} {lines : List Nat} {write : Bool} (hf : Free (s.core ci) gi g o.num b lines write) :
    s.reach ci gi o.num b lines write = (true, s) := by
  obtain ⟨-, hg, -⟩ := hr
  obtain ⟨hhold, hlines⟩ := hf
  have hbusy : (lines.any fun ln => (s.core ci).lineBusy o.num (some (g.stamp, gi)) b ln write) = false :=
    List.any_eq_false.mpr fun ln hln => by rw [(hlines ln hln).2]; exact Bool.false_ne_true
  have hclaim : s.claim ci gi b lines = some s := by
    rw [State.claim, hg]
    dsimp only
    rw [hhold]
    rfl
  unfold State.reach
  simp only [hg, Option.map_some, hbusy, hclaim, Bool.false_eq_true, if_false, Bool.not_false]

theorem serveLocal_bufLoad {b : Buf} (hk : o.kind = .bufLoad b) (hgot : ∀ a ∈ o.accs, a.got = none)
    (hfree : ∀ a ∈ o.accs, Free (s.core ci) gi g o.num b [a.addr / 128] false) :
    s.serveOp ci gi o = s.setCore ci ((s.core ci).setGroup gi (g.setOp
      ({ o with accs := o.accs.map (Access.fill fun a => ((s.core ci).buf b).readBytes a.addr a.size) } : LongOp).serveDone)) := by
  have hstep : ∀ a ∈ o.accs, ∀ done, serveAccess ci gi b o (s, done) a =
      (s, done ++ [Access.fill (fun a => ((s.core ci).buf b).readBytes a.addr a.size) a]) := by
    intro a ha done
    have hpresent := ((hfree a ha).2 _ List.mem_cons_self).1
    unfold serveAccess
    simp only [hgot a ha, hpresent, reach_of_free hr (hfree a ha), Option.isSome_none, Bool.not_true, Bool.or_self, Bool.false_eq_true, if_false]
    rfl
  obtain ⟨-, hg, -, hfind, -, hready, hdead, hflt, -⟩ := hr
  unfold State.serveOp
  simp only [hready, hflt, hk, Option.isSome_none, Bool.or_self, Bool.false_eq_true, if_false]
  unfold State.serveLocal
  simp only [hg, hfind, hready, hdead, hflt, hk, Option.isSome_none, Bool.or_self, Bool.false_eq_true, if_false]
  rw [foldl_serves hstep, State.modCore]
  simp only [hg, List.nil_append]

/-- R157, R158, R160: a buffer load of free lines reads its bytes. -/
theorem bufLoad_ends {b : Buf} (hk : o.kind = .bufLoad b) (ho : LanesApart o (sizeRegs o.size.toNat))
    (hfree : ∀ a ∈ o.accs, Free (s.core ci) gi g o.num b [a.addr / 128] false) :
    Ends s ci gi g o (.longLatencyCompletion ci gi idx) fun v h =>
      Receives g h o.dst (sizeRegs o.size.toNat) o.accs (o.valueOf fun a => ((s.core ci).buf b).readBytes a.addr a.size) ∧
        (∀ b', (v.core ci).buf b' = (s.core ci).buf b') ∧ h.undo = g.undo :=
  running_ends hr ho (serveLocal_bufLoad hr hk (fun a ha => (ho.2.1 a ha).2) hfree)
    (served_load _ (by rw [hk]; exact OpKind.noConfusion) (running_alive hr) rfl rfl rfl rfl rfl rfl)

/-! ## Loads from memory and the L1 -/

/-- The bytes of an access are at hand: no cache serves it, or the L1 holds its line live. -/
def AtHand (s : State) (ci gi : Nat) (o : LongOp) (noAlloc : Bool) (bytes : Access → List Byte) (a : Access) : Prop :=
  (s.core ci).pending (a.addr / 128) = false ∧ (s.core ci).readFirst gi o.num (a.addr / 128) = false ∧
    ((a.cache = 2 ∧ bytes a = s.uncachedBytes a.addr a.size) ∨
      (noAlloc = false ∧ a.cache = 0 ∧ ∃ l, (s.core ci).l1Find (s.gtcAt (dieOf ci)) (a.addr / 128) = .live l ∧
        bytes a = lineSlice l.data a.addr a.size))

omit hr in
theorem resolveAccess_of_atHand {noAlloc lru : Bool} {ll : Nat} {bytes : Access → List Byte} {a : Access} (hgot : a.got = none)
    (h : AtHand s ci gi o noAlloc bytes a) (done : List Access) :
    resolveAccess ci gi o noAlloc lru ll (s, done) a = (s, done ++ [a.fill bytes]) := by
  obtain ⟨hpend, hfirst, ⟨hcache, hbytes⟩ | ⟨hno, hcache, l, hl, hbytes⟩⟩ := h
  · unfold resolveAccess
    simp only [hgot, hpend, hfirst, if_pos hcache, Option.isSome_none, Bool.or_self, Bool.false_eq_true, if_false]
    rw [← hbytes]
    rfl
  · unfold resolveAccess
    simp [hgot, hpend, hfirst, hcache, hno, hl, Access.fill, hbytes]

theorem serveGlobal_load {noAlloc lru : Bool} {ll : Nat} {bytes : Access → List Byte} (hk : o.kind = .load noAlloc lru ll)
    (hgot : ∀ a ∈ o.accs, a.got = none) (hand : ∀ a ∈ o.accs, AtHand s ci gi o noAlloc bytes a) :
    s.serveOp ci gi o = s.setCore ci ((s.core ci).setGroup gi ((g.usesL1 (l1Reads o.accs (o.accs.map (Access.fill bytes)))).setOp
      ({ o with accs := o.accs.map (Access.fill bytes) } : LongOp).serveDone)) := by
  have hstep : ∀ a ∈ o.accs, ∀ done, resolveAccess ci gi o noAlloc lru ll (s, done) a = (s, done ++ [a.fill bytes]) :=
    fun a ha => resolveAccess_of_atHand (hgot a ha) (hand a ha)
  obtain ⟨-, hg, -, hfind, -, hready, hdead, hflt, -⟩ := hr
  unfold State.serveOp
  simp only [hready, hflt, hk, Option.isSome_none, Bool.or_self, Bool.false_eq_true, if_false]
  unfold State.serveGlobal
  simp only [hg, Option.bind_some, hfind, hready, hdead, hflt, hk, Option.isSome_none, Bool.or_self, Bool.false_eq_true, if_false]
  rw [foldl_serves hstep, State.modCore]
  simp only [hg, List.nil_append]

/-- R105, R160: a load whose bytes are at hand reads them. -/
theorem load_ends {noAlloc lru : Bool} {ll : Nat} {bytes : Access → List Byte} (hk : o.kind = .load noAlloc lru ll)
    (ho : LanesApart o (sizeRegs o.size.toNat)) (hand : ∀ a ∈ o.accs, AtHand s ci gi o noAlloc bytes a) :
    Ends s ci gi g o (.longLatencyCompletion ci gi idx) fun v h =>
      Receives g h o.dst (sizeRegs o.size.toNat) o.accs (o.valueOf bytes) ∧
        (∀ b', (v.core ci).buf b' = (s.core ci).buf b') ∧ h.undo = g.undo :=
  running_ends (g' := g.usesL1 (l1Reads o.accs (o.accs.map (Access.fill bytes)))) hr ho (serveGlobal_load hr hk (fun a ha => (ho.2.1 a ha).2) hand)
    (served_load _ (by rw [hk]; exact OpKind.noConfusion) (running_alive hr) rfl rfl rfl rfl rfl rfl)

end

end Sys2Proof.Machine
end

section
/-! ATOMA (R165): its lanes apply their operations one after the other, each to the words that the earlier ones left. -/

namespace Sys2Proof.Machine
open Sys2Proof.Safety Sys2Proof.Claims

/-- The word of a lane in the A buffer, and the buffer once the lane's operation is applied. -/
def atomaOld (m : NMap Byte) (a : Access) : Word := w32 (leNat (m.readBytes a.addr 4))
def atomaWrite (fn : Nat) (m : NMap Byte) (e : Access × Word × Word) : NMap Byte :=
  m.writeBytes e.1.addr (natLe 4 (atomaWord fn (atomaOld m e.1) e.2.1 e.2.2).bits)

/-- The A buffer once the first i lanes have applied theirs. -/
def atomaMem (fn : Nat) (m : NMap Byte) (es : List (Access × Word × Word)) (i : Nat) : NMap Byte := (es.take i).foldl (atomaWrite fn) m

theorem atomaMem_zero (fn : Nat) (m : NMap Byte) (es : List (Access × Word × Word)) : atomaMem fn m es 0 = m := rfl

theorem atomaMem_succ (fn : Nat) (m : NMap Byte) {es : List (Access × Word × Word)} {i : Nat} {e : Access × Word × Word}
    (he : es[i]? = some e) : atomaMem fn m es (i + 1) = atomaWrite fn (atomaMem fn m es i) e := by
  rw [atomaMem, List.take_add_one, he, Option.toList_some, List.foldl_append]
  rfl

/-- What an ATOMA leaves in the buffer, and the word that each lane receives. -/
theorem atomaRun_spec (fn : Nat) (m : NMap Byte) {accs : List Access} {bc : List (Word × Word)} (hlen : bc.length = accs.length) :
    (atomaRun fn m accs bc).1 = atomaMem fn m (accs.zip bc) accs.length ∧
      (atomaRun fn m accs bc).2.1 = accs.mapIdx fun i a => (a.lane, (atomaOld (atomaMem fn m (accs.zip bc) i) a).toNat) := by
  have key : ∀ (es : List (Access × Word × Word)) (m : NMap Byte) (vs : List (Nat × Nat)) (fl : Nat),
      let r := es.foldl (fun acc e =>
        let x := w32 (leNat (acc.1.readBytes e.1.addr 4))
        let r := atomaWord fn x e.2.1 e.2.2
        (acc.1.writeBytes e.1.addr (natLe 4 r.bits), acc.2.1 ++ [(e.1.lane, x.toNat)], acc.2.2 ||| r.fl)) (m, vs, fl)
      r.1 = atomaMem fn m es es.length ∧
        r.2.1 = vs ++ es.mapIdx fun i e => (e.1.lane, (atomaOld (atomaMem fn m es i) e.1).toNat) := by
    intro es
    induction es with
    | nil => intro m vs fl; exact ⟨rfl, (List.append_nil vs).symm⟩
    | cons e es ih =>
      intro m vs fl
      obtain ⟨hmem, hvals⟩ := ih (atomaWrite fn m e) (vs ++ [(e.1.lane, (atomaOld m e.1).toNat)])
        (fl ||| (atomaWord fn (atomaOld m e.1) e.2.1 e.2.2).fl)
      refine ⟨hmem, hvals.trans ?_⟩
      rw [List.mapIdx_cons, List.append_assoc, List.singleton_append]
      rfl
  obtain ⟨hmem, hvals⟩ := key (accs.zip bc) m [] 0
  have hzip : (accs.zip bc).length = accs.length := by rw [List.length_zip, hlen, Nat.min_self]
  refine ⟨hmem.trans (by rw [hzip]), (hvals.trans (List.nil_append _)).trans (List.ext_getElem (by simp [hzip]) fun i _ _ => ?_)⟩
  rw [List.getElem_mapIdx, List.getElem_mapIdx, List.getElem_zip]

/-- The word that the lane of an access receives. -/
def atomaValue (fn : Nat) (m : NMap Byte) (accs : List Access) (bc : List (Word × Word)) (a : Access) : Nat :=
  ((accs.zipIdx.find? fun e => e.1.lane == a.lane).map fun e => (atomaOld (atomaMem fn m (accs.zip bc) e.2) a).toNat).getD 0

theorem atomaValue_getElem (fn : Nat) (m : NMap Byte) {accs : List Access} (bc : List (Word × Word))
    (hn : (accs.map fun a => a.lane).Nodup) {i : Nat} (hi : i < accs.length) :
    atomaValue fn m accs bc accs[i] = (atomaOld (atomaMem fn m (accs.zip bc) i) accs[i]).toNat := by
  have hn' : (accs.zipIdx.map fun e => e.1.lane).Nodup := by
    rwa [show (fun e : Access × Nat => e.1.lane) = (fun a => a.lane) ∘ Prod.fst from rfl, ← List.map_map, List.zipIdx_map_fst]
  have hmem : (accs[i], i) ∈ accs.zipIdx := List.mem_zipIdx_iff_getElem?.mpr (List.getElem?_eq_getElem hi)
  rw [atomaValue, find?_key_of_nodup (fun e : Access × Nat => e.1.lane) hn' hmem, Option.map_some, Option.getD_some]

/-- A line whose image was taken has it in the store buffer. -/
theorem Core.takeImages_holds (c : Core) (g : Group) (b : Buf) {lines : List Nat} {ln : Nat} (h : ln ∈ lines) :
    ∃ u ∈ (c.takeImages g b lines).undo, u.buf = b ∧ u.line = ln := by
  unfold Core.takeImages
  dsimp only
  by_cases hany : (g.undo.any fun u => u.buf == b && u.line == ln) = true
  · obtain ⟨u, hu, hmatch⟩ := List.any_eq_true.mp hany
    rw [Bool.and_eq_true, beq_iff_eq, beq_iff_eq] at hmatch
    exact ⟨u, List.mem_append_left _ hu, hmatch⟩
  · have hnew : ln ∈ lines.filter fun ln => !g.undo.any fun u => u.buf == b && u.line == ln := by
      rw [List.mem_filter]
      exact ⟨h, by simpa using hany⟩
    refine ⟨c.imageFor g b ln, List.mem_append_right _ (List.mem_map_of_mem hnew), ?_⟩
    unfold Core.imageFor
    split
    · next u hu => simpa using List.find?_some hu
    · exact ⟨rfl, rfl⟩

section
variable {s : State} {ci gi idx : Nat} {g : Group} {o : LongOp} (hr : Running (s.core ci) gi idx g o)
include hr

/-- What an ATOMA leaves of its operation. -/
def LongOp.atomaDone (o : LongOp) (fn : Nat) (m : NMap Byte) (bc : List (Word × Word)) : LongOp :=
  let r := atomaRun fn m o.accs bc
  { o with ready := true, writes := regWrites o.dst 1 r.2.1, fl := w32 r.2.2 }

theorem serveLocal_atoma {fn : BitVec 4} {bc : List (Word × Word)} (hk : o.kind = .atoma fn bc)
    (hfree : Free (s.core ci) gi g o.num .a (dedup (o.accs.map fun a => a.addr / 128)) true)
    (hroom : ((s.core ci).takeImages g .a (dedup (o.accs.map fun a => a.addr / 128))).sbOver = false) :
    s.serveOp ci gi o = s.setCore ci (({ s.core ci with bufA := (atomaRun fn.toNat (s.core ci).bufA o.accs bc).1 } : Core).setGroup gi
      (((s.core ci).takeImages g .a (dedup (o.accs.map fun a => a.addr / 128))).setOp (o.atomaDone fn.toNat (s.core ci).bufA bc))) := by
  have hpresent : ((dedup (o.accs.map fun a => a.addr / 128)).any fun ln => !(s.core ci).presentFor o.num .a ln) = false :=
    List.any_eq_false.mpr fun ln hln => by rw [(hfree.2 ln hln).1]; exact Bool.false_ne_true
  have hreach := reach_of_free hr hfree
  obtain ⟨-, hg, -, hfind, -, hready, hdead, hflt, -⟩ := hr
  unfold State.serveOp
  simp only [hready, hflt, hk, Option.isSome_none, Bool.or_self, Bool.false_eq_true, if_false]
  unfold State.serveLocal
  simp only [hg, hfind, hready, hdead, hflt, hk, Option.isSome_none, Bool.or_self, Bool.false_eq_true, if_false, hpresent, hreach, hroom,
    LongOp.atomaDone]

theorem served_atoma {fn : BitVec 4} {bc : List (Word × Word)} (hk : o.kind = .atoma fn bc) (ho : LanesApart o 1)
    (hlen : bc.length = o.accs.length) (lines : List Nat) :
    Served (s.core ci) { s.core ci with bufA := (atomaRun fn.toNat (s.core ci).bufA o.accs bc).1 } g ((s.core ci).takeImages g .a lines) o
      (o.atomaDone fn.toNat (s.core ci).bufA bc) 1 (atomaValue fn.toNat (s.core ci).bufA o.accs bc) where
  groups := rfl
  divq := rfl
  ops := rfl
  flags := rfl
  regs := rfl
  preds := rfl
  num := rfl
  flag := rfl
  dst := rfl
  ready := rfl
  dead := (running_alive hr : o.dead = false)
  kind := by
    show o.kind ≠ _
    rw [hk]
    exact OpKind.noConfusion
  writes := by
    refine congrArg (regWrites o.dst 1) ((atomaRun_spec _ _ hlen).2.trans (List.ext_getElem (by simp) fun i _ hi => ?_))
    rw [List.length_map] at hi
    rw [List.getElem_mapIdx, List.getElem_map, atomaValue_getElem _ _ _ ho.1 hi]

/-- R165: an ATOMA of free lines is performed as one write, lane after lane. -/
theorem atoma_ends {fn : BitVec 4} {bc : List (Word × Word)} (hk : o.kind = .atoma fn bc) (ho : LanesApart o 1)
    (hlen : bc.length = o.accs.length) (hfree : Free (s.core ci) gi g o.num .a (dedup (o.accs.map fun a => a.addr / 128)) true)
    (hroom : ((s.core ci).takeImages g .a (dedup (o.accs.map fun a => a.addr / 128))).sbOver = false) :
    Ends s ci gi g o (.longLatencyCompletion ci gi idx) fun v h =>
      Receives g h o.dst 1 o.accs (atomaValue fn.toNat (s.core ci).bufA o.accs bc) ∧
        (v.core ci).bufA = atomaMem fn.toNat (s.core ci).bufA (o.accs.zip bc) o.accs.length ∧
        ∀ ln ∈ dedup (o.accs.map fun a => a.addr / 128), ∃ u ∈ h.undo, u.buf = .a ∧ u.line = ln := by
  obtain ⟨v, h, hexec, hgroup, hops, hflags, hothers, hcores, hmem, hrec, hbuf, hundo⟩ :=
    running_ends hr ho (serveLocal_atoma hr hk hfree hroom) (served_atoma hr hk ho hlen _)
  refine ⟨v, h, hexec, hgroup, hops, hflags, hothers, hcores, hmem, hrec, (hbuf .a).trans (atomaRun_spec _ _ hlen).1, fun ln hln => ?_⟩
  rw [hundo]
  exact Core.takeImages_holds _ _ _ hln

end

end Sys2Proof.Machine
end

section
/-! A slice delivers a line to the accesses that wait for it (R106, R120, R286). -/

namespace Sys2Proof.Machine
open Sys2Proof.Safety Sys2Proof.Claims

/-! ## The line's bytes and halves -/

theorem State.half_setHalf_same (s : State) (ln h : Nat) (x : Half) : (s.setHalf ln h x).half ln h = x := NMap.atD_put_same _ _ _ _

theorem State.half_setHalf_other (s : State) {ln h j : Nat} (x : Half) (hne : j ≠ h) : (s.setHalf ln h x).half ln j = s.half ln j :=
  NMap.atD_put_other _ _ _ _ _ _ (by omega)

/-- The bridge's fetch of one half for a read. -/
def State.fetchHalf (s : State) (ln halves h : Nat) : State :=
  if halves / 2 ^ h % 2 = 0 then s
  else
    match s.half ln h, false with
    | .i, false => s.setHalf ln h .s
    | .i, true => s.setHalf ln h .e
    | .s, true => s.setHalf ln h .e
    | _, _ => s

theorem State.hostAcquire_of_host {s : State} {ln : Nat} (halves : Nat) (hz : lineZone ln = .host) :
    s.hostAcquire ln halves false = (s.fetchHalf ln halves 0).fetchHalf ln halves 1 := by
  rw [State.hostAcquire, if_pos hz]
  rfl

theorem State.half_fetchHalf_same (s : State) (ln : Nat) {halves h : Nat} (hh : halves / 2 ^ h % 2 = 1) :
    (s.fetchHalf ln halves h).half ln h ≠ .i := by
  rw [State.fetchHalf, if_neg (by omega)]
  cases hs : s.half ln h
  · dsimp only
    rw [State.half_setHalf_same]
    exact Half.noConfusion
  all_goals dsimp only; rw [hs]; exact Half.noConfusion

theorem State.half_fetchHalf_other (s : State) (ln halves : Nat) {h j : Nat} (hj : j ≠ h) :
    (s.fetchHalf ln halves j).half ln h = s.half ln h := by
  unfold State.fetchHalf
  split
  · rfl
  · split
    iterate 3 exact State.half_setHalf_other _ _ (Ne.symm hj)
    rfl

/-- R119: the halves that an access touches are held once the bridge has them. -/
theorem State.half_hostAcquire {s : State} {ln halves h : Nat} (hz : lineZone ln = .host) (hlt : h < 2) (hh : halves / 2 ^ h % 2 = 1) :
    (s.hostAcquire ln halves false).half ln h ≠ .i := by
  rw [State.hostAcquire_of_host halves hz]
  rcases Nat.lt_succ_iff_lt_or_eq.mp hlt with h0 | rfl
  · obtain rfl : h = 0 := by omega
    rw [State.half_fetchHalf_other _ _ _ Nat.one_ne_zero]
    exact State.half_fetchHalf_same _ _ hh
  · exact State.half_fetchHalf_same _ _ hh

theorem State.half_poolAcquire (s : State) (ln : Nat) (w : Bool) (l h : Nat) : (s.poolAcquire ln w).half l h = s.half l h := by
  unfold State.poolAcquire
  split <;> rfl

theorem State.half_setSlice (s : State) (k : Nat) (x : Slice) (l h : Nat) : (s.setSlice k x).half l h = s.half l h := rfl
theorem State.half_served (s : State) (k ln l h : Nat) : (s.served k ln).half l h = s.half l h := rfl

/-- An access's bytes of the line are those of memory. -/
theorem lineSlice_memBytes (s : State) {a : Access} (h : a.addr % 128 + a.size ≤ 128) :
    lineSlice (s.memBytes (a.addr / 128 * 128) 128) a.addr a.size = bytesAt s a := by
  refine List.ext_getElem ?_ fun i h₁ h₂ => ?_
  · simp only [lineSlice, State.memBytes, bytesAt, List.length_take, List.length_drop, List.length_map, List.length_range]
    omega
  · simp only [lineSlice, State.memBytes, bytesAt, List.getElem_take, List.getElem_drop, List.getElem_map, List.getElem_range]
    exact congrArg s.memByte (by omega)

/-! ## Delivery -/

/-- What a delivery makes of an access. -/
def State.fillFrom (s : State) (ln : Nat) (data : List Byte) (a : Access) : Access :=
  if a.addr / 128 = ln ∧ a.got.isNone ∧ s.halfThere ln a then { a with got := some (lineSlice data a.addr a.size) } else a

theorem State.fillFrom_of_not {s : State} {ln : Nat} (data : List Byte) {a : Access} (h : a.addr / 128 ≠ ln ∨ a.got ≠ none) :
    s.fillFrom ln data a = a := by
  refine if_neg fun hc => ?_
  obtain ⟨hln, hgot, -⟩ := hc
  exact h.elim (fun h => h hln) fun h => h (Option.isNone_iff_eq_none.mp hgot)

theorem State.fillFrom_of_there {s : State} {data : List Byte} {a : Access} (hgot : a.got = none)
    (h : s.halfThere (a.addr / 128) a = true) : s.fillFrom (a.addr / 128) data a = { a with got := some (lineSlice data a.addr a.size) } :=
  if_pos ⟨rfl, Option.isNone_iff_eq_none.mpr hgot, h⟩

/-- A complete load has its results; its accesses are as they were. -/
theorem LongOp.serveDone_spec (o : LongOp) : o.serveDone.accs = o.accs ∧ o.serveDone.num = o.num ∧
    ((∀ a ∈ o.accs, a.got ≠ none) → o.serveDone.ready = true ∧ o.serveDone.writes = regWrites o.dst (sizeRegs o.size.toNat)
      (o.accs.map fun a => (a.lane, loaded o.size.toNat (overlayBytes o.overlay a.addr (a.got.getD []))))) := by
  unfold LongOp.serveDone
  dsimp only
  split
  · refine ⟨rfl, rfl, fun _ => ⟨rfl, congrArg (regWrites o.dst _) (List.map_congr_left fun a _ => ?_)⟩⟩
    rw [widenLoad_eq_loaded]
  · next hall => exact ⟨rfl, rfl, fun h => absurd (List.all_eq_true.mpr fun a ha => Option.isSome_iff_ne_none.mpr (h a ha)) hall⟩

/-- The operation once a line is delivered to it. -/
def LongOp.filled (o : LongOp) (s : State) (ln : Nat) (data : List Byte) : LongOp :=
  ({ o with accs := o.accs.map (s.fillFrom ln data) } : LongOp).serveDone

theorem State.deliverLine_of_owner {s : State} {ci ln num gi : Nat} {g : Group} {o : LongOp} {data : List Byte}
    (h : (s.core ci).opOwner num = some (gi, g, o)) :
    s.deliverLine ci ln num data = s.setCore ci ((s.core ci).setGroup gi (g.setOp (o.filled s ln data))) := by
  rw [State.deliverLine, h]
  rfl

/-! ## A load served by a slice -/

/-- The slice's part of serving a load: no core and no byte of memory changes. -/
theorem State.serveLoad_spec (s : State) (k ci ln num ll : Nat) (noLease lru : Bool) (halves : Nat) :
    ∃ t : State, t.cores = s.cores ∧ t.mem = s.mem ∧
      (∀ l h, t.half l h = (s.hostAcquire ln halves false).half l h) ∧
      let u := t.deliverLine ci ln num (s.memBytes (ln * 128) 128)
      s.serveLoad k ci ln num none ll noLease lru halves = u ∨
        ∃ l, s.serveLoad k ci ln num none ll noLease lru halves = u.modCore ci fun c => c.l1Put l lru := by
  let s₁ := (s.hostAcquire ln halves false).poolAcquire ln false
  have hcores : s₁.cores = s.cores := ((State.hostAcquire_slicesOnly _ _ _ _).trans (State.poolAcquire_slicesOnly _ _ _)).cores
  have hmem : s₁.mem = s.mem := by rw [State.poolAcquire_mem, State.hostAcquire_mem]
  have hdata : s₁.memBytes (ln * 128) 128 = s.memBytes (ln * 128) 128 :=
    List.map_congr_left fun i _ => State.memByte_of_mem _ _ hmem _
  have hgot : ∀ x, ((s₁.setSlice k x).served k ln).cores = s.cores ∧ ((s₁.setSlice k x).served k ln).mem = s.mem ∧
      ∀ l h, ((s₁.setSlice k x).served k ln).half l h = (s.hostAcquire ln halves false).half l h := by
    intro x
    refine ⟨?_, ?_, fun l h => ?_⟩
    · exact ((State.setSlice_slicesOnly _ _ _).trans (State.served_slicesOnly _ _ _)).cores.trans hcores
    · rw [State.served_mem, State.setSlice_mem, hmem]
    · rw [State.half_served, State.half_setSlice, State.half_poolAcquire]
  unfold State.serveLoad
  dsimp only
  rw [show ((s.hostAcquire ln halves false).poolAcquire ln false) = s₁ from rfl, hdata]
  generalize (!noLease && !(s₁.slice k).linedUp ln && !s₁.halfHeld ln && !s₁.persistActive ln && !s₁.recalling ln) = leased
  cases leased with
  | false => exact ⟨_, (hgot _).1, (hgot _).2.1, (hgot _).2.2, .inl rfl⟩
  | true => exact ⟨_, (hgot _).1, (hgot _).2.1, (hgot _).2.2, .inr ⟨_, rfl⟩⟩

/-- Where an operation is found, its group has it. -/
theorem State.serveLoad_delivers {s : State} {k ci ln num ll gi halves : Nat} {noLease lru : Bool} {g : Group} {o : LongOp}
    (howner : (s.core ci).opOwner num = some (gi, g, o)) (hfind : (g.ops.find? fun p => p.num == o.num) = some o) :
    let u := s.serveLoad k ci ln num none ll noLease lru halves
    ∃ t : State, t.mem = s.mem ∧ (∀ l h, t.half l h = (s.hostAcquire ln halves false).half l h) ∧
      MemoryKept s u ∧ CoresKept s u ci ∧ (u.core ci).group? gi = some (g.setOp (o.filled t ln (s.memBytes (ln * 128) 128))) ∧
      ((g.setOp (o.filled t ln (s.memBytes (ln * 128) 128))).ops.find? fun p => p.num == o.num) =
        some (o.filled t ln (s.memBytes (ln * 128) 128)) := by
  obtain ⟨t, hcores, hmem, hhalf, hu⟩ := s.serveLoad_spec k ci ln num ll noLease lru halves
  have hcore := State.core_of_cores hcores
  have hdeliver : t.deliverLine ci ln num (s.memBytes (ln * 128) 128) =
      t.setCore ci ((t.core ci).setGroup gi (g.setOp (o.filled t ln (s.memBytes (ln * 128) 128)))) :=
    State.deliverLine_of_owner (by rw [hcore]; exact howner)
  dsimp only at hu ⊢
  rw [hdeliver] at hu
  refine ⟨t, hmem, hhalf, ?_, ?_, ?_, Group.setOp_find hfind (LongOp.serveDone_spec _).2.1⟩
  · rcases hu with hu | ⟨l, hu⟩ <;> rw [hu] <;> exact MemoryKept.of_mem hmem
  · intro cj hj
    rcases hu with hu | ⟨l, hu⟩ <;> rw [hu]
    · rw [State.core_setCore_other _ _ _ _ hj, hcore]
    · rw [State.core_modCore_other _ _ _ _ hj, State.core_setCore_other _ _ _ _ hj, hcore]
  · rcases hu with hu | ⟨l, hu⟩ <;> rw [hu]
    · rw [State.core_setCore_same]
      exact NMap.at?_ins_same _ _ _
    · rw [State.core_modCore_same, State.core_setCore_same]
      exact NMap.at?_ins_same _ _ _

/-- A half that the slice has acquired is there for the accesses that touch it. -/
theorem State.halfThere_of_acquired {s t : State} {ln halves : Nat} {a : Access}
    (hhalf : ∀ l h, t.half l h = (s.hostAcquire ln halves false).half l h)
    (h : lineZone ln ≠ .host ∨ halves / 2 ^ (a.addr % 128 / 64) % 2 = 1) : t.halfThere ln a = true := by
  rw [State.halfThere, Bool.or_eq_true, bne_iff_ne, bne_iff_ne, hhalf]
  by_cases hz : lineZone ln = .host
  · exact .inr (State.half_hostAcquire hz (by omega) (h.resolve_left fun hne => hne hz))
  · exact .inl hz

/-- What an operation's accesses are once a slice has served a line. -/
theorem LongOp.filled_spec (o : LongOp) (s t : State) {ln halves : Nat} (hhalf : ∀ l h, t.half l h = (s.hostAcquire ln halves false).half l h) :
    let p := o.filled t ln (s.memBytes (ln * 128) 128)
    p.accs.length = o.accs.length ∧
      (∀ (i : Nat) (a : Access), o.accs[i]? = some a → ∃ b : Access, p.accs[i]? = some b ∧
        (a.addr / 128 = ln ∧ a.got = none ∧ a.addr % 128 + a.size ≤ 128 ∧
          (lineZone ln ≠ .host ∨ halves / 2 ^ (a.addr % 128 / 64) % 2 = 1) → b = { a with got := some (bytesAt s a) }) ∧
        (a.addr / 128 ≠ ln ∨ a.got ≠ none → b = a)) ∧
      ((∀ a ∈ p.accs, a.got ≠ none) → p.ready = true ∧ p.writes = regWrites o.dst (sizeRegs o.size.toNat)
        (p.accs.map fun a => (a.lane, loaded o.size.toNat (overlayBytes o.overlay a.addr (a.got.getD []))))) := by
  obtain ⟨haccs, -, hdone⟩ := LongOp.serveDone_spec { o with accs := o.accs.map (t.fillFrom ln (s.memBytes (ln * 128) 128)) }
  dsimp only [LongOp.filled]
  rw [haccs]
  refine ⟨List.length_map _, fun i a ha => ⟨_, by rw [List.getElem?_map, ha, Option.map_some], ?_, State.fillFrom_of_not _⟩, hdone⟩
  rintro ⟨rfl, hgot, hsize, hhost⟩
  rw [State.fillFrom_of_there hgot (State.halfThere_of_acquired hhalf hhost), lineSlice_memBytes s hsize]

end Sys2Proof.Machine
end

section
/-! An update is performed at its slice as one write (R273, R276, R289). -/

namespace Sys2Proof

/-! ## Byte maps of a line -/

theorem natLe_getElem? (n v : Nat) {j : Nat} (h : j < n) : (natLe n v)[j]? = some (BitVec.ofNat 8 (v / 2 ^ (8 * j))) := by
  induction n generalizing v j with
  | zero => exact absurd h (Nat.not_lt_zero j)
  | succ n ih =>
    rw [natLe]
    cases j with
    | zero => simp
    | succ j =>
      rw [List.getElem?_cons_succ, ih _ (by omega), Nat.div_div_eq_div_mul, show 8 * (j + 1) = 8 + 8 * j by omega, Nat.pow_add]

theorem NMap.find?_key {α : Type} (m : NMap α) (k : Nat) : (m.find? fun e => e.1 == k).map Prod.snd = m.at? k := by
  induction m with
  | nil => rfl
  | cons e m ih =>
    obtain ⟨j, v⟩ := e
    rw [NMap.at?]
    split
    · next h => rw [List.find?_cons_of_pos (by simpa using h)]; rfl
    · next h => rw [List.find?_cons_of_neg (by simpa using h), ih]

/-- Bytes listed from a place on, and the others as before. -/
theorem NMap.at?_foldl_ins {α : Type} (bs : List α) (m : NMap α) (a j c : Nat) :
    ((bs.zipIdx j).foldl (fun m e => NMap.ins m (a + e.2) e.1) m).at? c =
      if a + j ≤ c ∧ c < a + j + bs.length then bs[c - (a + j)]? else m.at? c := by
  induction bs generalizing m j with
  | nil => simp
  | cons b bs ih =>
    rw [List.zipIdx_cons, List.foldl_cons, ih, List.length_cons]
    by_cases hc : c = a + j
    · subst hc
      rw [if_neg (by omega), if_pos (by omega), NMap.at?_ins_same, Nat.sub_self, List.getElem?_cons_zero]
    · rw [NMap.at?_ins_other _ _ _ _ hc]
      by_cases hin : a + j ≤ c ∧ c < a + j + (bs.length + 1)
      · rw [if_pos (by omega), if_pos hin, show c - (a + j) = c - (a + (j + 1)) + 1 by omega, List.getElem?_cons_succ]
      · rw [if_neg (by omega), if_neg hin]

/-- Rising keys are each from the bound on, and no two are one. -/
theorem NMap.rising_iff {α : Type} (m : NMap α) (lo : Nat) :
    NMap.rising lo m = true ↔ (∀ e ∈ m, lo ≤ e.1) ∧ (m.map Prod.fst).Pairwise (· < ·) := by
  induction m generalizing lo with
  | nil => simp [NMap.rising]
  | cons e m ih =>
    obtain ⟨k, v⟩ := e
    simp only [NMap.rising, Bool.and_eq_true, decide_eq_true_eq, ih, List.map_cons, List.pairwise_cons, List.forall_mem_cons, List.forall_mem_map]
    constructor
    · rintro ⟨hlo, hall, hpw⟩
      exact ⟨⟨hlo, fun e he => by have := hall e he; omega⟩, fun e he => hall e he, hpw⟩
    · rintro ⟨⟨hlo, -⟩, hall, hpw⟩
      exact ⟨hlo, hall, hpw⟩

/-- The byte map of a line: its keys rise and are offsets in it. -/
def LineMap (m : NMap Byte) : Prop := NMap.rising 0 m = true ∧ ∀ e ∈ m, e.1 < 128

theorem LineMap.ins {m : NMap Byte} (h : LineMap m) {k : Nat} (hk : k < 128) (b : Byte) : LineMap (m.ins k b) := by
  refine ⟨NMap.rising_ins _ _ _ _ (Nat.zero_le k) h.1, fun e he => ?_⟩
  rcases NMap.mem_ins _ _ _ _ he with rfl | he
  · exact hk
  · exact h.2 e he

/-- Writing listed bytes in order leaves each of them, where no key is listed twice. -/
theorem Memory.read_foldl_write (base : Nat) {m : NMap Byte} (hm : (m.map Prod.fst).Nodup) (mem : List Host.Cell) (n : Nat) :
    Memory.read (m.foldl (fun mem e => Memory.write mem (base + e.1) e.2) mem) (base + n) = (m.at? n).getD (Memory.read mem (base + n)) := by
  induction m generalizing mem with
  | nil => rfl
  | cons e m ih =>
    obtain ⟨k, b⟩ := e
    obtain ⟨hk, hm⟩ := List.nodup_cons.mp hm
    rw [List.foldl_cons, ih hm, NMap.at?]
    split
    · next h =>
      obtain rfl : k = n := h
      have hnone : NMap.at? m k = none := by
        cases hat : NMap.at? m k with
        | none => rfl
        | some v => exact absurd (List.mem_map_of_mem (Machine.NMap.at?_mem hat)) hk
      rw [hnone, Memory.read_write_same, Option.getD_none, Option.getD_some]
    · next h => rw [Memory.read_write_other _ _ _ _ (by omega)]

/-- A fold that keeps a value and lists an output for each element. -/
theorem foldl_outputs {σ α β : Type} (put : σ → α → σ) (out : σ → α → β) (l : List α) (m : σ) (vs : List β) :
    l.foldl (fun acc a => (put acc.1 a, acc.2 ++ [out acc.1 a])) (m, vs) =
      (l.foldl put m, vs ++ l.mapIdx fun i a => out ((l.take i).foldl put m) a) := by
  induction l generalizing m vs with
  | nil => rw [List.mapIdx_nil, List.append_nil]; rfl
  | cons a l ih =>
    rw [List.foldl_cons, ih, List.mapIdx_cons, List.append_assoc, List.singleton_append]
    rfl

end Sys2Proof

namespace Sys2Proof.Machine
open Sys2Proof.Safety Sys2Proof.Claims

/-! ## The bytes of an update -/

/-- Byte n of a line of which some bytes are changed. -/
def State.lineCell (s : State) (ln : Nat) (m : NMap Byte) (n : Nat) : Byte := (m.at? n).getD (s.memByte (ln * 128 + n))

/-- The word that an operation finds there, and the bytes once it is applied. -/
def State.oldWord (s : State) (ln : Nat) (m : NMap Byte) (o : AtomOp) : DWord :=
  w64 (leNat ((List.range (atomBytes o.fn.toNat)).map fun i => s.lineCell ln m (o.addr % 128 + i)))
def State.applyOp (s : State) (ln : Nat) (m : NMap Byte) (o : AtomOp) : NMap Byte :=
  (natLe (atomBytes o.fn.toNat) (atomNew o.fn.toNat (s.oldWord ln m o) o.b o.c).toNat).zipIdx.foldl
    (fun m e => NMap.ins m (o.addr % 128 + e.2) e.1) m

/-- The operations of an update lie in its line. -/
def OpsInLine (l : SbLine) : Prop := ∀ o ∈ l.ops, o.addr / 128 = l.line ∧ o.addr % 128 + atomBytes o.fn.toNat ≤ 128

/-- The changed bytes after the first i operations. -/
def State.bytesAfter (s : State) (l : SbLine) (i : Nat) : NMap Byte := (l.ops.take i).foldl (s.applyOp l.line) l.bytes

theorem State.updateBytes_eq {s : State} {l : SbLine} (h : OpsInLine l) :
    s.updateBytes l = (s.bytesAfter l l.ops.length, l.ops.mapIdx fun i o => s.oldWord l.line (s.bytesAfter l i) o) := by
  have hstep : ∀ (acc : List (Nat × Byte) × List DWord), ∀ o ∈ l.ops,
      (let at_ := o.addr % 128
       let n := atomBytes o.fn.toNat
       let cur (i : Nat) : Byte :=
         match acc.1.find? fun e => e.1 == at_ + i with
         | some e => e.2
         | none => s.memByte (o.addr + i)
       let old := w64 (leNat ((List.range n).map cur))
       let new := natLe n (atomNew o.fn.toNat old o.b o.c).toNat
       (new.zipIdx.foldl (fun m e => NMap.ins m (at_ + e.2) e.1) acc.1, acc.2 ++ [old])) =
        (s.applyOp l.line acc.1 o, acc.2 ++ [s.oldWord l.line acc.1 o]) := by
    intro acc o ho
    have hcur : ∀ i, (match acc.1.find? fun e => e.1 == o.addr % 128 + i with
        | some e => e.2
        | none => s.memByte (o.addr + i)) = s.lineCell l.line acc.1 (o.addr % 128 + i) := by
      intro i
      have hln := (h o ho).1
      rw [State.lineCell, ← NMap.find?_key]
      cases acc.1.find? fun e => e.1 == o.addr % 128 + i with
      | some e => rfl
      | none => exact congrArg s.memByte (by omega)
    dsimp only
    rw [List.map_congr_left fun i _ => hcur i]
    rfl
  have hfold := foldl_outputs (s.applyOp l.line) (s.oldWord l.line) l.ops l.bytes []
  rw [State.bytesAfter, List.take_length]
  exact (List.foldl_ext _ _ _ hstep).trans hfold

theorem State.bytesAfter_succ (s : State) {l : SbLine} {i : Nat} {o : AtomOp} (ho : l.ops[i]? = some o) :
    s.bytesAfter l (i + 1) = s.applyOp l.line (s.bytesAfter l i) o := by
  rw [State.bytesAfter, List.take_add_one, ho, Option.toList_some, List.foldl_append]
  rfl

/-- An operation writes the bytes of its new word and no others. -/
theorem State.lineCell_applyOp (s : State) (ln : Nat) (m : NMap Byte) (o : AtomOp) (n : Nat) :
    s.lineCell ln (s.applyOp ln m o) n =
      if o.addr % 128 ≤ n ∧ n < o.addr % 128 + atomBytes o.fn.toNat then
        BitVec.ofNat 8 ((atomNew o.fn.toNat (s.oldWord ln m o) o.b o.c).toNat / 2 ^ (8 * (n - o.addr % 128)))
      else s.lineCell ln m n := by
  rw [State.lineCell, State.applyOp, NMap.at?_foldl_ins, natLe_length, Nat.add_zero]
  split
  · rw [natLe_getElem? _ _ (by omega), Option.getD_some]
  · rfl

theorem State.applyOp_lineMap (s : State) (ln : Nat) {m : NMap Byte} (hm : LineMap m) {o : AtomOp}
    (ho : o.addr % 128 + atomBytes o.fn.toNat ≤ 128) : LineMap (s.applyOp ln m o) := by
  refine List.foldlRecOn (motive := LineMap) _ _ hm fun m hm e he => hm.ins ?_ e.1
  have := List.snd_lt_of_mem_zipIdx he
  rw [natLe_length] at this
  omega

theorem State.bytesAfter_lineMap (s : State) {l : SbLine} (h : OpsInLine l) (hm : LineMap l.bytes) (i : Nat) : LineMap (s.bytesAfter l i) :=
  List.foldlRecOn (motive := LineMap) _ _ hm fun _ hm o ho => s.applyOp_lineMap _ hm (h o (List.mem_of_mem_take ho)).2

/-! ## The line in memory -/

/-- A line of canonical addresses. -/
theorem canonPA_line {ln : Nat} (h : canonPA (ln * 128) = ln * 128) {n : Nat} (hn : n < 128) : canonPA (ln * 128 + n) = ln * 128 + n := by
  unfold canonPA at h ⊢
  dsimp only at h ⊢
  split at h
  · next hlin =>
    exfalso
    generalize hq : ln * 128 - 0x1000000000000 = q at h
    simp only [hbmDie] at h
    omega
  · exact if_neg (by omega)

/-- Storing a line's bytes writes them to memory. -/
theorem State.storeLine_mem (s : State) (k ln : Nat) (bytes : List (Nat × Byte)) :
    (s.storeLine k ln bytes).mem = bytes.foldl (fun mem e => Memory.write mem (ln * 128 + e.1) e.2) s.mem := by
  have fold : ∀ (bs : List (Nat × Byte)) (t : State),
      (bs.foldl (fun (t : State) e => { t with mem := Memory.write t.mem (ln * 128 + e.1) e.2 }) t).mem =
        bs.foldl (fun mem e => Memory.write mem (ln * 128 + e.1) e.2) t.mem := by
    intro bs
    induction bs with
    | nil => intro t; rfl
    | cons b bs ih => intro t; exact ih _
  unfold State.storeLine
  dsimp only
  rw [State.setSlice_mem, State.healLine_mem, fold]
  split
  · rw [foldl_mem _ fun s x => by split <;> rfl]
    simp
  · simp

/-- A line once its bytes are stored. -/
theorem State.memByte_storeLine {s : State} {k ln : Nat} {m : NMap Byte} (hcanon : canonPA (ln * 128) = ln * 128) (hm : LineMap m)
    {n : Nat} (hn : n < 128) : (s.storeLine k ln m).memByte (ln * 128 + n) = s.lineCell ln m n := by
  have hnodup : (m.map Prod.fst).Nodup := (((NMap.rising_iff _ _).mp hm.1).2.imp Nat.ne_of_lt)
  rw [State.lineCell, State.memByte, State.memByte, State.storeLine_mem, canonPA_line hcanon hn, Memory.read_foldl_write _ hnodup]

/-- R273, R276, R289: an update is one write of its line, before the loads that it held back go on. -/
theorem State.performUpdate_eq (s : State) (k ci commit : Nat) (l : SbLine) :
    ∃ v : State, s.performUpdate k ci commit l = v.retryLoads ci ∧ v.mem = (s.storeLine k l.line (s.updateBytes l).1).mem := by
  unfold State.performUpdate
  refine ⟨_, rfl, ?_⟩
  rw [State.lineDone, State.modCore_mem, State.modCore_mem, State.served_mem]
  rfl

end Sys2Proof.Machine
end

section
/-! The rows of R165 and R289, the old values of an update (R276), and O59. -/

namespace Sys2Proof.Machine
open Sys2Proof.Safety Sys2Proof.Claims

/-! ## The operations of atomics -/

/-- A word's signed reading. -/
theorem sextN_word (w : Word) : sextN w.toNat 32 = w.toInt := by
  have hlt := w.isLt
  rw [sextN, BitVec.toInt_eq_toNat_cond]
  simp only [Nat.mod_eq_of_lt hlt]
  split <;> split <;> omega

/-- The minimum and maximum of R165 in the signed order. -/
theorem atomaWord_signed (x b cmp : Word) : (atomaWord 1 x b cmp).bits = (if x.toInt ≤ b.toInt then x else b).toNat ∧
    (atomaWord 2 x b cmp).bits = (if x.toInt ≤ b.toInt then b else x).toNat := by
  constructor
  · show (if sextN x.toNat 32 ≤ sextN b.toNat 32 then x else b).toNat = _
    rw [sextN_word, sextN_word]
  · show (if sextN x.toNat 32 ≤ sextN b.toNat 32 then b else x).toNat = _
    rw [sextN_word, sextN_word]

/-- And in the unsigned one. -/
theorem atomaWord_unsigned (x b cmp : Word) : (atomaWord 3 x b cmp).bits = min x.toNat b.toNat ∧
    (atomaWord 4 x b cmp).bits = max x.toNat b.toNat := by
  constructor
  · show (if x.toNat ≤ b.toNat then x else b).toNat = _
    split <;> omega
  · show (if x.toNat ≤ b.toNat then b else x).toNat = _
    split <;> omega

/-- The residue sum, channel by channel. -/
theorem atomaWord_residue (x b cmp : Word) :
    let p := rnRead x.toNat
    let q := rnRead b.toNat
    (atomaWord 11 x b cmp).bits = (p.c1 + q.c1) % 1023 + (p.c2 + q.c2) % 1024 * 2 ^ 10 + (p.c3 + q.c3) % 1025 * 2 ^ 20 +
      bit01 (p.taint || q.taint) * 2 ^ 31 := by
  show (rnZip (· + ·) (rnRead x.toNat) (rnRead b.toNat)).word = _
  have hchan : ∀ a c m : Nat, (((a : Int) + (c : Int)) % (m : Int)).toNat = (a + c) % m := fun a c m => by
    rw [← Int.natCast_add, ← Int.natCast_mod, Int.toNat_natCast]
  exact congrArg₂ (· + · * 2 ^ 20 + bit01 _ * 2 ^ 31)
    (congrArg₂ (· + · * 2 ^ 10) (hchan _ _ 1023) (hchan _ _ 1024)) (hchan _ _ 1025)

/-- R289: the 32-bit rows on the low words. -/
theorem atomNew_low {fn : Nat} (hfn : fn < 12) (x b cmp : DWord) : (atomNew fn x b cmp).toNat % 2 ^ 32 =
    (atomaWord fn (w32 (x.toNat % 2 ^ 32)) (w32 (b.toNat % 2 ^ 32)) (w32 (cmp.toNat % 2 ^ 32))).bits % 2 ^ 32 := by
  have hlow : ∀ d : DWord, w32 (d.toNat % 2 ^ 32) = loWord d := fun d => by
    apply BitVec.eq_of_toNat_eq
    simp [w32, loWord]
  have hnew : atomNew fn x b cmp = w64 (atomaWord fn (loWord x) (loWord b) (loWord cmp)).bits := by
    unfold atomNew
    split
    iterate 3 omega
    rfl
  rw [hnew, hlow, hlow, hlow, w64, BitVec.toNat_ofNat]
  omega

/-! ## Old values -/

/-- A return list takes the old value of its lane. -/
theorem Core.addVals_one {c : Core} {commit id lane : Nat} {o : AtomOp} (old : DWord) {a : AtomRet} (ho : o.ret = some (id, lane))
    (ha : a ∈ c.atomRets) (hcommit : a.commit = commit) (hid : a.ret = id) :
    { a with vals := NMap.ins a.vals lane old, need := a.need - 1 } ∈ (c.addVals commit [o] (some [old])).atomRets := by
  have hrets : (c.addVals commit [o] (some [old])).atomRets = replaceIf (fun a => a.commit == commit && a.ret == id)
      (fun a => { a with vals := NMap.ins a.vals lane old, need := a.need - 1 }) c.atomRets := by
    unfold Core.addVals
    simp [ho]
  rw [hrets]
  refine List.mem_map.mpr ⟨a, ha, if_pos ?_⟩
  simp only [hcommit, hid, beq_self_eq_true, Bool.and_self]

end Sys2Proof.Machine

namespace Sys2Proof.Proofs
open Sys2Proof.Machine Sys2Proof.Safety Sys2Proof.Claims

/-- Settles O59: loads and ATOMA by what their service delivers and their end writes (`running_ends`), a slice's delivery access by access, an
update as a fold of its operations over the line's bytes, and the rows one by one. -/
theorem loadsDeliverAndAtomicsCompute : Obligations.LoadsDeliverAndAtomicsCompute := by
  unfold Obligations.LoadsDeliverAndAtomicsCompute
  refine ⟨?_, ?_, ?_, ?_, fun x b cmp => ?_, fun x b cmp => ?_⟩
  · intro ci gi idx s g o c hr
    refine ⟨fun b hk ho hfree => ?_, fun noAlloc lru ll hk ho bytes hand => ?_, fun fn bc hk ho hlen hfree hroom => ?_⟩
    · obtain ⟨v, h, hexec, hgroup, hops, hflags, hothers, hcores, hmem, hrec, hbuf, -⟩ := bufLoad_ends hr hk ho hfree
      exact ⟨v, h, hexec, hgroup, hops, hflags, hothers, hcores, hmem, hrec, hbuf b⟩
    · obtain ⟨v, h, hexec, hgroup, hops, hflags, hothers, hcores, hmem, hrec, -⟩ := load_ends hr hk ho hand
      exact ⟨v, h, hexec, hgroup, hops, hflags, hothers, hcores, hmem, hrec⟩
    · obtain ⟨v, h, hexec, hgroup, hops, hflags, hothers, hcores, hmem, hrec, hbufA, hundo⟩ := atoma_ends hr hk ho hlen hfree hroom
      refine ⟨v, h, hexec, hgroup, hops, hflags, hothers, hcores, hmem, atomaMem fn.toNat c.bufA (o.accs.zip bc), rfl, hbufA, ?_, hrec, hundo⟩
      intro i a b cmp ha hb
      rw [atomaMem_succ (e := (a, b, cmp)) _ _ (List.getElem?_zip_eq_some.mpr ⟨ha, hb⟩)]
      rfl
  · intro k ci ln num ll noLease lru halves gi s g o howner hgroup hfind u comes
    obtain ⟨t, -, hhalf, hmem, hcores, hgi, hp⟩ := State.serveLoad_delivers (k := k) (ln := ln) (ll := ll) (halves := halves)
      (noLease := noLease) (lru := lru) howner hfind
    obtain ⟨hlen, haccs, hdone⟩ := o.filled_spec s t hhalf
    exact ⟨hmem, hcores, _, _, hgi, hp, hlen, rfl, haccs, hdone⟩
  · intro k ci commit l s hops hcanon hrise hlt
    have hbytes : LineMap l.bytes := ⟨(NMap.rising_iff _ _).mpr ⟨fun _ _ => Nat.zero_le _, hrise⟩, hlt⟩
    have hupdate := State.updateBytes_eq (s := s) hops
    obtain ⟨v, hv, hmem⟩ := s.performUpdate_eq k ci commit l
    rw [hupdate] at hmem
    have hmap := s.bytesAfter_lineMap hops hbytes l.ops.length
    refine ⟨v, hv, fun a ha => ?_, fun i => s.lineCell l.line (s.bytesAfter l i), fun n hn => ?_, fun i o n ho hn => ?_, fun n hn => ?_, fun i o ho => ?_⟩
    · rw [State.memByte_of_mem _ _ hmem]
      refine State.storeLine_other _ _ _ _ _ fun e he hline => ?_
      have := hmap.2 e he
      omega
    · show s.lineCell l.line l.bytes n = _
      rw [NMap.find?_key]
      rfl
    · show s.lineCell l.line (s.bytesAfter l (i + 1)) n = _
      rw [State.bytesAfter_succ s ho, State.lineCell_applyOp]
      rfl
    · rw [State.memByte_of_mem _ _ hmem, State.memByte_storeLine hcanon hmap hn]
    · rw [hupdate, List.getElem?_mapIdx, ho]
      rfl
  · exact fun c commit id lane o old a ho ha hcommit hid => Core.addVals_one old ho ha hcommit hid
  · refine ⟨BitVec.toNat_add _ _, (atomaWord_signed x b cmp).1, (atomaWord_signed x b cmp).2, (atomaWord_unsigned x b cmp).1,
      (atomaWord_unsigned x b cmp).2, rfl, rfl, rfl, rfl, rfl, rfl, atomaWord_residue x b cmp⟩
  · exact ⟨BitVec.toNat_add _ _, rfl, rfl, fun fn hfn => atomNew_low hfn x b cmp⟩

end Sys2Proof.Proofs
end

section
/-! Every step keeps memory in canonical form (R78 to R82; log entry 9). Each operation of the model has a lemma, in the model's order: `f_mem`
says that f leaves memory as it was, and `f_wf` that memory is in canonical form after f where it was before. A lemma about an operation cites
those of the operations that it is made of, most of them through the simp set. -/

namespace Sys2Proof.Machine

open Sys2Proof.Safety

/-- Memory is in canonical form in the state that an outcome goes on to. -/
def NextWf (o : Out) : Prop := ∀ t, o = .next t → Memory.wf t.mem = true

@[simp] theorem nextWf_next (t : State) : NextWf (.next t) ↔ Memory.wf t.mem = true :=
  ⟨fun h => h t rfl, fun h _ e => by cases e; exact h⟩

@[simp] theorem nextWf_fault (f : Fault) : NextWf (.fault f) := fun _ e => by cases e

/-! ## Case distinctions, pairs and folds -/

@[simp] theorem ite_mem (p : Prop) [Decidable p] (s t : State) : (if p then s else t).mem = if p then s.mem else t.mem := apply_ite _ _ _ _

@[simp] theorem wf_ite (p : Prop) [Decidable p] (a b : List Host.Cell) :
    Memory.wf (if p then a else b) = if p then Memory.wf a else Memory.wf b := apply_ite _ _ _ _

theorem wf_of_ite {p : Prop} [Decidable p] {s t : State} (hs : Memory.wf s.mem) (ht : Memory.wf t.mem) : Memory.wf (if p then s else t).mem := by
  split
  · exact hs
  · exact ht

theorem getD_mem {o : Option State} {s : State} (h : ∀ t, o = some t → t.mem = s.mem) : (o.getD s).mem = s.mem := by
  cases o with
  | none => rfl
  | some t => exact h t rfl

/-- The state that a branch takes from a pair, as the projection that the lemmas speak of. -/
theorem snd_eq_of_eq_mk {α β : Type} {p : α × β} {a : α} {b : β} (e : p = (a, b)) : b = p.2 := by rw [e]

theorem thd_eq_of_eq_mk {α β γ : Type} {p : α × β × γ} {a : α} {b : β} {c : γ} (e : p = (a, b, c)) : c = p.2.2 := by rw [e]

/-- A fold keeps the memory of the state `st` of its accumulator, where each of its steps does. -/
theorem foldl_keeps_mem {α β : Type} (st : β → State) (k : β → α → β) (hk : ∀ a x, (st (k a x)).mem = (st a).mem) (xs : List α) (a : β) :
    (st (xs.foldl k a)).mem = (st a).mem :=
  List.foldlRecOn (motive := fun b => (st b).mem = (st a).mem) _ _ rfl fun b hb x _ => (hk b x).trans hb

theorem foldl_keeps_wf {α β : Type} (st : β → State) (k : β → α → β) (hk : ∀ a x, Memory.wf (st a).mem → Memory.wf (st (k a x)).mem)
    (xs : List α) (a : β) (hm : Memory.wf (st a).mem) : Memory.wf (st (xs.foldl k a)).mem :=
  List.foldlRecOn (motive := fun b => Memory.wf (st b).mem) _ _ hm fun b hb x _ => hk b x hb

theorem foldl_wf {α : Type} (k : State → α → State) (hk : ∀ s x, Memory.wf s.mem → Memory.wf (k s x).mem) (xs : List α) (s : State)
    (hm : Memory.wf s.mem) : Memory.wf (xs.foldl k s).mem := foldl_canonical k hk xs s hm

/-! ## Operations of Sys2Proof/Machine/Places.lean -/

@[simp] theorem State.fresh_mem (s : State) : (s.fresh).2.mem = s.mem := by rfl

/-! ## Operations of Sys2Proof/Machine/Slices.lean -/

@[simp] theorem State.pokeBytes_wf (s : State) (pa : Nat) (bs : List Byte) (hm : Memory.wf s.mem) : Memory.wf (s.pokeBytes pa bs).mem :=
  State.pokeBytes_canonical bs s pa hm

@[simp] theorem State.setPermits_mem (s : State) (k ln n : Nat) (owner : Bool) : (s.setPermits k ln n owner).mem = s.mem := by
  simp [State.setPermits]

@[simp] theorem State.homeLoses_mem (s : State) (ln : Nat) : (s.homeLoses ln).mem = s.mem := by
  simp [State.homeLoses]

@[simp] theorem State.storeLine_wf (s : State) (k ln : Nat) (bytes : List (Nat × Byte)) (hm : Memory.wf s.mem) :
    Memory.wf (s.storeLine k ln bytes).mem := State.storeLine_canonical s k ln bytes hm

theorem State.putBack_mem {s t : State} {k ln : Nat} (e : s.putBack k ln = some t) : t.mem = s.mem := by
  unfold State.putBack at e
  dsimp only at e
  split at e
  · cases e; rfl
  · split at e
    · cases e
    · split at e <;> cases e <;> simp

@[simp] theorem State.seat_snd_mem (s : State) (k ln pol : Nat) (write : Bool) : (s.seat k ln pol write).2.mem = s.mem :=
  State.seat_mem (b := (s.seat k ln pol write).1) rfl

@[simp] theorem State.mayServe_snd_mem (s : State) (k idx ln : Nat) (need : Need) (pol : Nat) (mine : Option Nat) :
    (s.mayServe k idx ln need pol mine).2.mem = s.mem := State.mayServe_mem (b := (s.mayServe k idx ln need pol mine).1) rfl

@[simp] theorem State.takeTurn_mem (s : State) (k who ln tag : Nat) (write alloc : Bool) (mine : Option Nat) :
    (s.takeTurn k who ln tag write alloc mine).2.mem = s.mem := by
  unfold State.takeTurn
  dsimp only
  split
  · simp
  · split
    · next e => obtain rfl := snd_eq_of_eq_mk e; simp
    · next e =>
      obtain rfl := snd_eq_of_eq_mk e
      split
      · next e => obtain rfl := snd_eq_of_eq_mk e; simp [apply_ite Prod.snd]
      · next e => obtain rfl := snd_eq_of_eq_mk e; simp [apply_ite Prod.snd]

@[simp] theorem State.dropTurns_mem (s : State) (who tag : Nat) : (s.dropTurns who tag).mem = s.mem := by rfl

@[simp] theorem State.tryAgent_wf (s : State) (k idx : Nat) (hm : Memory.wf s.mem) : Memory.wf (s.tryAgent k idx).mem :=
  State.tryAgent_canonical s k idx hm

@[simp] theorem State.lineAgent_wf (s : State) (who ln : Nat) (bs : List (Nat × Byte)) (hm : Memory.wf s.mem) :
    Memory.wf (s.lineAgent who ln bs).mem := State.lineAgent_canonical s who ln bs hm

@[simp] theorem State.lineWrite_wf (s : State) (who pa : Nat) (bs : List Byte) (hm : Memory.wf s.mem) :
    Memory.wf (s.lineWrite who pa bs).mem := State.lineWrite_canonical s who pa bs hm

@[simp] theorem State.agentWrite_wf (s : State) (pa : Nat) (bs : List Byte) (hm : Memory.wf s.mem) : Memory.wf (s.agentWrite pa bs).mem :=
  State.agentWrite_canonical s pa bs hm

/-! ## Operations of Sys2Proof/Machine/Ops.lean -/

@[simp] theorem State.mcWrite_wf (s : State) (group n v : Nat) (hm : Memory.wf s.mem) : Memory.wf (s.mcWrite group n v).mem := by
  simp [State.mcWrite, hm]

@[simp] theorem State.writeRecord_wf (s : State) (asid : Nat) (ws : List DWord) (hm : Memory.wf s.mem) :
    Memory.wf (s.writeRecord asid ws).mem := by
  simp [State.writeRecord, hm]

@[simp] theorem State.takeFid_mem (s : State) (r? : Option Region) : (s.takeFid r?).2.mem = s.mem := by
  unfold State.takeFid
  split <;> rfl

@[simp] theorem State.recordFor_wf (s : State) (r? : Option Region) (asid src stamp : Nat) (cls : Cls) (parked ends : Bool)
    (tail : List DWord) (hm : Memory.wf s.mem) : Memory.wf (s.recordFor r? asid src stamp cls parked ends tail).2.mem := by
  simp [State.recordFor, hm]

@[simp] theorem State.sendHandler_wf (s : State) (r : Region) (fid cls parked ends : Nat) (who : Option Nat)
    (hm : Memory.wf s.mem) : Memory.wf (s.sendHandler r fid cls parked ends who).mem := by
  unfold State.sendHandler
  dsimp only
  split
  · exact hm
  · split <;> simp [hm]

@[simp] theorem State.raiseFor_wf (s : State) (r? : Option Region) (asid src stamp : Nat) (cls : Cls) (parked ends : Bool)
    (tail : List DWord) (who : Option Nat) (quiet : Bool) (hm : Memory.wf s.mem) :
    Memory.wf (s.raiseFor r? asid src stamp cls parked ends tail who quiet).2.mem := by
  unfold State.raiseFor
  dsimp only
  split <;> simp [hm]

@[simp] theorem State.raiseAt_wf (s : State) (asid src stamp : Nat) (cls : Cls) (parked ends : Bool) (tail : List DWord)
    (who : Option Nat) (quiet : Bool) (hm : Memory.wf s.mem) : Memory.wf (s.raiseAt asid src stamp cls parked ends tail who quiet).2.mem := by
  simp [State.raiseAt, hm]

@[simp] theorem State.raise_wf (s : State) (asid src : Nat) (die : Nat) (cls : Cls) (parked ends : Bool) (tail : List DWord)
    (who : Option Nat) (quiet : Bool) (hm : Memory.wf s.mem) : Memory.wf (s.raise asid src die cls parked ends tail who quiet).2.mem := by
  simp [State.raise, hm]

@[simp] theorem State.abortReplay_wf (s : State) (ci gi : Nat) (hm : Memory.wf s.mem) : Memory.wf (s.abortReplay ci gi).mem := by
  simp [State.abortReplay, hm]

@[simp] theorem State.leaveSlot_mem (s : State) (ci gi : Nat) : (s.leaveSlot ci gi).mem = s.mem := by
  unfold State.leaveSlot
  dsimp only
  split <;> rfl

@[simp] theorem State.discardGroup_wf (s : State) (ci gi : Nat) (hm : Memory.wf s.mem) : Memory.wf (s.discardGroup ci gi).mem := by
  unfold State.discardGroup
  split <;> simp [hm]

@[simp] theorem State.beginEnd_wf (s : State) (num : Nat) (how : Ending) (hm : Memory.wf s.mem) : Memory.wf (s.beginEnd num how).mem := by
  unfold State.beginEnd
  split
  · exact hm
  · refine foldl_wf _ (fun s x hm => ?_) _ _ ?_
    · simp +contextual [hm, foldl_wf]
    · exact hm

@[simp] theorem State.takeFault_wf (s : State) (ci gi word : Nat) (f : Flt) (hm : Memory.wf s.mem) :
    Memory.wf (s.takeFault ci gi word f).mem := by
  unfold State.takeFault
  dsimp only
  cases (s.core ci).group? gi with
  | none => exact hm
  | some g =>
    refine wf_of_ite ?_ (by simp [hm])
    have hd : ∀ u, Memory.wf u.mem → Memory.wf (match ((u : State).core ci).region with
        | some num => (u.discardGroup ci gi).beginEnd num .aborted
        | none => u.discardGroup ci gi).mem := fun u hu => by split <;> simp [hu]
    exact hd _ (by simp [hm])

@[simp] theorem State.failOp_wf (s : State) (ci gi num : Nat) (f : Flt) (hm : Memory.wf s.mem) : Memory.wf (s.failOp ci gi num f).mem := by
  unfold State.failOp
  split
  · exact hm
  · split <;> simp [hm]

@[simp] theorem State.fire_mem (s : State) (ci : Nat) (gi team bslot bid colour wlog : Nat) (insts : List Nat) (tags : List Word)
    (em : LaneMask) (resumes : Nat) (passWord : Option Nat) (ops : List LongOp) :
    (s.fire ci gi team bslot bid colour wlog insts tags em resumes passWord ops).mem = s.mem := by rfl

@[simp] theorem State.resumeParked_mem (s : State) (ci fid : Nat) (past : Bool) : (s.resumeParked ci fid past).mem = s.mem := by
  unfold State.resumeParked
  dsimp only
  split
  · rfl
  · split
    · rfl
    · split <;> simp

@[simp] theorem State.abortParked_mem (s : State) (ci fid : Nat) : (s.abortParked ci fid).mem = s.mem := by rfl

theorem withIssuer_wf {s : State} {k : Core → Group → State} (hk : ∀ c g, Memory.wf (k c g).mem) : NextWf (withIssuer s k) := by
  unfold withIssuer
  split <;> simp [hk]

@[simp] theorem State.faultWord_wf (s : State) (g : Group) (f : Flt) (hm : Memory.wf s.mem) : Memory.wf (s.faultWord g f).mem := by
  simp [State.faultWord, hm]

@[simp] theorem privileged_wf (s : State) (c : Core) (g : Group) (k : State) (hm : Memory.wf s.mem) (hk : Memory.wf k.mem) :
    Memory.wf (privileged s c g k).mem := by
  simp [privileged, hm, hk]

@[simp] theorem ganged_wf (s : State) (c : Core) (g : Group) (k : State) (hm : Memory.wf s.mem) (hk : Memory.wf k.mem) :
    Memory.wf (ganged s c g k).mem := by
  simp [ganged, hm, hk]

/-! ## Operations of Sys2Proof/Machine/Registers.lean -/

@[simp] theorem State.rejectPost_mem (s : State) : (s.rejectPost).mem = s.mem := by rfl

@[simp] theorem State.postToken_mem (s : State) (ws : List DWord) : (s.postToken ws).mem = s.mem := by
  simp [State.postToken]

@[simp] theorem State.postWrite_mem (s : State) (bytes : List (Nat × Byte)) : (s.postWrite bytes).mem = s.mem := by
  simp [State.postWrite, foldl_mem]

@[simp] theorem State.dropPool_wf (s : State) (hm : Memory.wf s.mem) : Memory.wf (s.dropPool).mem := by
  simp +contextual [State.dropPool, foldl_wf, hm]

@[simp] theorem State.tryRestart_wf (s : State) (hm : Memory.wf s.mem) : Memory.wf (s.tryRestart).mem := by
  unfold State.tryRestart
  split <;> simp [hm]

@[simp] theorem State.restartAs_wf (s : State) (inc : Byte) (hm : Memory.wf s.mem) : Memory.wf (s.restartAs inc).mem :=
  State.tryRestart_wf _ (foldl_wf _ (fun s n hm => State.beginEnd_wf s n .aborted hm) _ _ hm)

@[simp] theorem State.resetDevice_wf (s : State) (hm : Memory.wf s.mem) : Memory.wf (s.resetDevice).mem := by
  simp [State.resetDevice, hm]

@[simp] theorem State.attGo_mem (s : State) (v : DWord) : (s.attGo v).mem = s.mem := by
  simp [State.attGo]

@[simp] theorem State.writeWindow64_wf (s : State) (off : Nat) (v : DWord) (hm : Memory.wf s.mem) : Memory.wf (s.writeWindow64 off v).mem := by
  unfold State.writeWindow64
  refine wf_of_ite hm (wf_of_ite (wf_of_ite hm ?_) (wf_of_ite ?_ (wf_of_ite (wf_of_ite ?_ hm) hm)))
  · rw [State.setDev_mem]; exact hm
  · rw [State.attGo_mem]; exact hm
  · exact State.resetDevice_wf s hm

@[simp] theorem State.windowStore_wf (s : State) (bytes : List (Nat × Byte)) (hm : Memory.wf s.mem) : Memory.wf (s.windowStore bytes).mem :=
  foldl_wf _ (fun s off hm => State.writeWindow64_wf s off _ hm) _ _ (by simp [hm])

@[simp] theorem execTokenPost_wf (off : Nat) (bytes : List (Nat × Byte)) (s : State) (hm : Memory.wf s.mem) :
    NextWf (execTokenPost off bytes s) := by
  simp [execTokenPost, hm]

@[simp] theorem execAttCtlGo_wf (value : DWord) (s : State) (hm : Memory.wf s.mem) : NextWf (execAttCtlGo value s) := by
  simp [execAttCtlGo, hm]

@[simp] theorem execResetctl_wf (value : Word) (s : State) (hm : Memory.wf s.mem) : NextWf (execResetctl value s) := by
  simp [execResetctl, hm]

/-! ## Operations of Sys2Proof/Machine/Translate.lean -/

@[simp] theorem State.dropWaiter_mem (s : State) (die who : Nat) : (s.dropWaiter die who).mem = s.mem := by rfl

theorem State.xlPlaces_mem_wait {s t : State} {ci who asid : Nat} {ps : List (Nat × Nat × Want)} (e : s.xlPlaces ci who asid ps = .wait t) :
    t.mem = s.mem := by
  unfold State.xlPlaces at e
  dsimp only at e
  split at e
  · cases e; simp
  · split at e <;> cases e

theorem State.xlPlaces_mem_ok {s t : State} {ci who asid : Nat} {ps : List (Nat × Nat × Want)} {ts : List (Nat × Nat × Target)}
    (e : s.xlPlaces ci who asid ps = .ok t ts) : t.mem = s.mem := by
  unfold State.xlPlaces at e
  dsimp only at e
  split at e
  · cases e
  · split at e
    · cases e
    · cases e; simp

theorem State.xlLanes_mem_wait {s t : State} {ci gi asid : Nat} {w : Want} {ls : List (Nat × Nat)} (e : s.xlLanes ci gi asid w ls = .wait t) :
    t.mem = s.mem := by
  unfold State.xlLanes at e
  split at e
  · next hp => cases e; exact State.xlPlaces_mem_wait hp
  · cases e
  · dsimp only at e
    split at e <;> cases e

theorem State.xlLanes_mem_ok {s t : State} {ci gi asid : Nat} {w : Want} {ls : List (Nat × Nat)} {ts : List (Nat × Target)}
    (e : s.xlLanes ci gi asid w ls = .ok t ts) : t.mem = s.mem := by
  unfold State.xlLanes at e
  split at e
  · cases e
  · cases e
  · next hp =>
    dsimp only at e
    split at e
    · cases e
    · cases e; exact State.xlPlaces_mem_ok hp

@[simp] theorem State.engineXl_mem (s : State) (ci num asid va : Nat) (w : Want) : (s.engineXl ci num asid va w).2.mem = s.mem := by
  unfold State.engineXl
  split
  · next e => exact State.xlPlaces_mem_wait e
  · split <;> rfl
  · next e => split <;> exact State.xlPlaces_mem_ok e

@[simp] theorem execPageWalk_wf (die : Nat) (s : State) (hm : Memory.wf s.mem) : NextWf (execPageWalk die s) := by
  unfold execPageWalk
  dsimp only
  split
  · simp [hm]
  · split <;> simp [hm]

@[simp] theorem execWalkResult_wf (die idx : Nat) (s : State) (hm : Memory.wf s.mem) : NextWf (execWalkResult die idx s) := by
  unfold execWalkResult
  dsimp only
  split
  · simp [hm]
  · split
    · simp [hm]
    · split
      · simp +contextual [hm, foldl_wf]
      · simp [hm]

/-! ## Operations of Sys2Proof/Machine/Cache.lean -/

@[simp] theorem State.storeUncached_wf (s : State) (bytes : List (Nat × Byte)) (hm : Memory.wf s.mem) :
    Memory.wf (s.storeUncached bytes).mem := by
  unfold State.storeUncached
  dsimp only
  have hr := foldl_wf (fun (s : State) (e : Nat × Byte) => { s with mem := Memory.write s.mem e.1 e.2 })
    (fun s e hm => Memory.wf_write s.mem _ _ hm) (bytes.partition fun e => zoneOf e.1 == .window).2 s hm
  split
  · exact hr
  · exact State.windowStore_wf _ _ hr

/-! ## Operations of Sys2Proof/Machine/Operands.lean -/

@[simp] theorem laneWord_wf (s : State) (f : F0) (n : Nat) (k : Ctx → Nat → DWord) (hm : Memory.wf s.mem) : NextWf (laneWord s f n k) := by
  unfold laneWord
  refine withIssuer_wf fun c g => ?_
  exact hm

@[simp] theorem laneFloat_wf (s : State) (f : F0) (k : Ctx → Nat → FRes) (hm : Memory.wf s.mem) : NextWf (laneFloat s f k) := by
  unfold laneFloat
  refine withIssuer_wf fun c g => ?_
  exact hm

/-! ## Operations of Sys2Proof/Machine/LongOps.lean -/

@[simp] theorem State.startOp_mem (s : State) (g : Group) (flag : Option Nat) (mk : Nat → LongOp) (chg : Nat → Core → Core) :
    (s.startOp g flag mk chg).mem = s.mem := by
  simp [State.startOp]

/-! ## Operations of Sys2Proof/Machine/Integer.lean -/

@[simp] theorem arith2_wf (s : State) (f : F0) (sat : Bool) (op : Int → Int → Int) (hm : Memory.wf s.mem) : NextWf (arith2 s f sat op) := by
  simp [arith2, hm]

@[simp] theorem arith1_wf (s : State) (f : F0) (sat : Bool) (op : Int → Int) (hm : Memory.wf s.mem) : NextWf (arith1 s f sat op) := by
  simp [arith1, hm]

@[simp] theorem divWord_wf (s : State) (f : F0) (pick : Int × Int → Int) (hm : Memory.wf s.mem) : NextWf (divWord s f pick) := by
  unfold divWord
  refine withIssuer_wf fun c g => ?_
  simp [hm]

@[simp] theorem bits2_wf (s : State) (f : F0) (op : Nat → Nat → Nat → Nat) (hm : Memory.wf s.mem) : NextWf (bits2 s f op) := by
  simp [bits2, hm]

@[simp] theorem shiftWord_wf (s : State) (f : F0) (op : Nat → Nat → Nat → Nat) (hm : Memory.wf s.mem) : NextWf (shiftWord s f op) := by
  simp [shiftWord, hm]

@[simp] theorem countWord_wf (s : State) (f : F0) (op : Nat → Nat → Nat) (hm : Memory.wf s.mem) : NextWf (countWord s f op) := by
  simp [countWord, hm]

@[simp] theorem predWord_wf (s : State) (f : F0) (op : Bool → Bool → Bool) (hm : Memory.wf s.mem) : NextWf (predWord s f op) := by
  simp [predWord, hm]

/-! ## Operations of Sys2Proof/Machine/FloatWords.lean -/

@[simp] theorem float2_wf (s : State) (f : F0) (op : FFmt → Rnd → Bool → FVal → FVal → FRes) (hm : Memory.wf s.mem) :
    NextWf (float2 s f op) := by
  simp [float2, hm]

@[simp] theorem execFcvt_wf (f : F0) (s : State) (hm : Memory.wf s.mem) : NextWf (execFcvt f s) := by
  unfold execFcvt
  refine withIssuer_wf fun c g => ?_
  exact hm

@[simp] theorem packed_wf (s : State) (f : F0) (three : Bool) (op : FVal → FVal → FVal → FRes) (hm : Memory.wf s.mem) :
    NextWf (packed s f three op) := by
  simp [packed, hm]

@[simp] theorem sflgRead_wf (s : State) (f : F0) (clear : Bool) (hm : Memory.wf s.mem) : NextWf (sflgRead s f clear) := by
  unfold sflgRead
  refine withIssuer_wf fun c g => ?_
  exact hm

@[simp] theorem sflgWrite_wf (s : State) (f : F0) (k : Word → Word → Word) (hm : Memory.wf s.mem) : NextWf (sflgWrite s f k) := by
  unfold sflgWrite
  dsimp only
  refine withIssuer_wf fun c g => ?_
  split <;> simp [hm]

/-! ## Operations of Sys2Proof/Machine/Narrow.lean -/

@[simp] theorem execQnt_wf (f : F0) (s : State) (hm : Memory.wf s.mem) : NextWf (execQnt f s) := by
  unfold execQnt
  refine withIssuer_wf fun c g => ?_
  exact hm

@[simp] theorem laneRun_wf (s : State) (f : F0) (k : Ctx → Nat → List (Nat × FRes)) (hm : Memory.wf s.mem) : NextWf (laneRun s f k) := by
  unfold laneRun
  refine withIssuer_wf fun c g => ?_
  exact hm

@[simp] theorem execCvtnDn_wf (f : F0) (s : State) (hm : Memory.wf s.mem) : NextWf (execCvtnDn f s) := by
  unfold execCvtnDn
  refine withIssuer_wf fun c g => ?_
  exact hm

/-! ## Operations of Sys2Proof/Machine/Lines.lean -/

theorem State.claim_wf {s t : State} {ci gi : Nat} {b : Buf} {lines : List Nat} (e : s.claim ci gi b lines = some t) (hm : Memory.wf s.mem) :
    Memory.wf t.mem := by
  unfold State.claim at e
  split at e
  · cases e
  · dsimp only at e
    split at e <;> cases e
    exact foldl_wf _ (fun s (h : Nat × Group) hm => State.abortReplay_wf s ci h.1 hm) _ _ hm

@[simp] theorem State.reach_wf (s : State) (ci gi num : Nat) (b : Buf) (lines : List Nat) (write : Bool) (hm : Memory.wf s.mem) :
    Memory.wf (s.reach ci gi num b lines write).2.mem := by
  unfold State.reach
  dsimp only
  split
  · exact hm
  · split
    · exact hm
    · next e => exact State.claim_wf e hm

/-! ## Operations of Sys2Proof/Machine/Residue.lean -/

@[simp] theorem rn2_wf (s : State) (f : F0) (op : Int → Int → Int) (hm : Memory.wf s.mem) : NextWf (rn2 s f op) := by
  simp [rn2, hm]

/-! ## Operations of Sys2Proof/Machine/Tables.lean -/

@[simp] theorem execTeval_wf (f : F0) (s : State) (hm : Memory.wf s.mem) : NextWf (execTeval f s) := by
  unfold execTeval
  refine withIssuer_wf fun c g => ?_
  simp [hm]

@[simp] theorem execTload_wf (f : F0) (s : State) (hm : Memory.wf s.mem) : NextWf (execTload f s) := by
  unfold execTload
  dsimp only
  refine withIssuer_wf fun c g => ?_
  split <;> simp [hm]

@[simp] theorem execTloadCopy_wf (core table : Nat) (s : State) (hm : Memory.wf s.mem) : NextWf (execTloadCopy core table s) := by
  unfold execTloadCopy
  dsimp only
  split
  · simp [hm]
  · split <;> simp [hm]

@[simp] theorem execTswap_wf (f : F0) (s : State) (hm : Memory.wf s.mem) : NextWf (execTswap f s) := by
  unfold execTswap
  refine withIssuer_wf fun c g => ?_
  exact hm

/-! ## Operations of Sys2Proof/Machine/Local.lean -/

@[simp] theorem execLdf_wf (f : F1) (s : State) (hm : Memory.wf s.mem) : NextWf (execLdf f s) := by
  refine withIssuer_wf fun c g => ?_
  dsimp only
  split
  · simp [hm]
  · split
    · simp [hm]
    · next e => simp [State.claim_wf e hm]

@[simp] theorem State.waitPlace_mem (s : State) (g : Group) (num : Nat) (b : Buf) (lines : List Nat) (st : GStatus) :
    (s.waitPlace g num b lines st).mem = s.mem := by
  simp [State.waitPlace]

@[simp] theorem localStore_wf (s : State) (x : Ctx) (b : Buf) (ws : List (Nat × List Byte)) (hm : Memory.wf s.mem) :
    Memory.wf (localStore s x b ws).mem := by
  unfold localStore
  dsimp only
  split
  · simp [hm]
  · split <;> next e => obtain rfl := snd_eq_of_eq_mk e; simp [hm]

@[simp] theorem execStf_wf (f : F1) (s : State) (hm : Memory.wf s.mem) : NextWf (execStf f s) := by
  unfold execStf
  dsimp only
  refine withIssuer_wf fun c g => ?_
  split <;> simp [hm]

@[simp] theorem bufStore_wf (b : Buf) (f : F1) (s : State) (hm : Memory.wf s.mem) : NextWf (bufStore b f s) := by
  unfold bufStore
  dsimp only
  refine withIssuer_wf fun c g => ?_
  split <;> simp [hm]

@[simp] theorem execStaNb_wf (f : F1) (s : State) (hm : Memory.wf s.mem) : NextWf (execStaNb f s) := by
  unfold execStaNb
  dsimp only
  refine withIssuer_wf fun c g => ?_
  split <;> simp [hm]

@[simp] theorem serveAccess_wf (ci gi : Nat) (b : Buf) (o : LongOp) (acc : State × List Access) (a : Access) (hm : Memory.wf acc.1.mem) :
    Memory.wf (serveAccess ci gi b o acc a).1.mem := by
  unfold serveAccess
  dsimp only
  split
  · exact hm
  · split <;> next e => obtain rfl := snd_eq_of_eq_mk e; simp [hm]

@[simp] theorem State.serveLocal_wf (s : State) (ci gi num : Nat) (hm : Memory.wf s.mem) : Memory.wf (s.serveLocal ci gi num).mem := by
  unfold State.serveLocal
  split
  · exact hm
  · split
    · exact hm
    · split
      · exact hm
      · split
        · exact foldl_keeps_wf Prod.fst _ (fun acc a h => serveAccess_wf _ _ _ _ acc a h) _ _ hm
        · dsimp only
          split
          · exact hm
          · split
            · next e => obtain rfl := snd_eq_of_eq_mk e; simp [hm]
            · next e => obtain rfl := snd_eq_of_eq_mk e; simp [hm]
        · exact hm

@[simp] theorem State.startLocal_wf (s : State) (g : Group) (flag : Option Nat) (mk : Nat → LongOp) (hm : Memory.wf s.mem) :
    Memory.wf (s.startLocal g flag mk).mem := by
  simp [State.startLocal, hm]

@[simp] theorem bufLoadWord_wf (b : Buf) (f : F1) (s : State) (hm : Memory.wf s.mem) : NextWf (bufLoadWord b f s) := by
  unfold bufLoadWord
  dsimp only
  refine withIssuer_wf fun c g => ?_
  split <;> simp [hm]

@[simp] theorem execAtoma_wf (f : F1) (s : State) (hm : Memory.wf s.mem) : NextWf (execAtoma f s) := by
  unfold execAtoma
  dsimp only
  refine withIssuer_wf fun c g => ?_
  split <;> simp [hm]

@[simp] theorem execPres_wf (f : F1) (s : State) (hm : Memory.wf s.mem) : NextWf (execPres f s) := by
  unfold execPres
  refine withIssuer_wf fun c g => ?_
  exact hm

@[simp] theorem State.serveAll_wf (s : State) (ci : Nat) (hm : Memory.wf s.mem) : Memory.wf (s.serveAll ci).mem := by
  simp +contextual [State.serveAll, foldl_wf, hm]

@[simp] theorem execNeighbourDeposit_wf (core idx : Nat) (s : State) (hm : Memory.wf s.mem) : NextWf (execNeighbourDeposit core idx s) := by
  unfold execNeighbourDeposit
  dsimp only
  split
  · simp [hm]
  · split
    · simp [hm]
    · split <;> simp [hm]

@[simp] theorem State.wakeLine_wf (s : State) (ci : Nat) (b : Buf) (line : Nat) (hm : Memory.wf s.mem) :
    Memory.wf (s.wakeLine ci b line).mem := by
  simp [State.wakeLine, hm]

@[simp] theorem execPresenceSetResume_wf (core : Nat) (buf : Buf) (line : Nat) (s : State) (hm : Memory.wf s.mem) :
    NextWf (execPresenceSetResume core buf line s) := by
  simp [execPresenceSetResume, hm]

/-! ## Operations of Sys2Proof/Machine/Global.lean -/

theorem withLanes_wf {s : State} {x : Ctx} {act : LaneMask} {write : Bool} {al : Nat} {va : Nat → Nat}
    {k : State → Group → List (Nat × Target) → State} (hm : Memory.wf s.mem) (hk : ∀ s g ts, Memory.wf s.mem → Memory.wf (k s g ts).mem) :
    Memory.wf (withLanes s x act write al va k).mem := by
  unfold withLanes
  split
  · simp [hm]
  · dsimp only
    split
    · next e => simp [State.xlLanes_mem_wait e, hm]
    · simp [hm]
    · next e => exact hk _ _ _ (by rwa [State.xlLanes_mem_ok e])

@[simp] theorem State.renew_mem (s : State) (ci : Nat) (l : L1Line) (ll halves : Nat) (lru : Bool) (pol : Nat) :
    (s.renew ci l ll halves lru pol).2.mem = s.mem := by
  unfold State.renew
  split <;> rfl

@[simp] theorem resolveAccess_mem (ci gi : Nat) (o : LongOp) (noAlloc lru : Bool) (ll : Nat) (acc : State × List Access) (a : Access) :
    (resolveAccess ci gi o noAlloc lru ll acc a).1.mem = acc.1.mem := by
  unfold resolveAccess
  dsimp only
  split
  · rfl
  · split
    · rfl
    · split
      · rfl
      · simp
      · split
        · rfl
        · split <;> simp

@[simp] theorem resolveFetch_mem (ci gi : Nat) (o : LongOp) (acc : State × List Access) (a : Access) :
    (resolveFetch ci gi o acc a).1.mem = acc.1.mem := by
  unfold resolveFetch
  dsimp only
  split <;> simp

@[simp] theorem State.serveGlobal_mem (s : State) (ci gi num : Nat) : (s.serveGlobal ci gi num).mem = s.mem := by
  unfold State.serveGlobal
  split
  · rfl
  · dsimp only
    split
    · rfl
    · split <;> simp [foldl_keeps_mem Prod.fst]

@[simp] theorem State.startGlobal_mem (s : State) (g : Group) (f : F1) (kind : OpKind) (overlay : Bool) (accs : List Access) :
    (s.startGlobal g f kind overlay accs).mem = s.mem := by
  simp [State.startGlobal]

@[simp] theorem execLdg_wf (f : F1) (s : State) (hm : Memory.wf s.mem) : NextWf (execLdg f s) := by
  unfold execLdg
  dsimp only
  refine withIssuer_wf fun c g => ?_
  split
  · exact hm
  · refine withLanes_wf hm fun s g ts hm => ?_
    simp [hm]

@[simp] theorem execFetch_wf (f : F1) (s : State) (hm : Memory.wf s.mem) : NextWf (execFetch f s) := by
  unfold execFetch
  dsimp only
  refine withIssuer_wf fun c g => ?_
  split
  · exact hm
  · refine withLanes_wf hm fun s g ts hm => ?_
    split <;> simp [hm]

@[simp] theorem State.finishStore_wf (s : State) (g0 g : Group) (hm : Memory.wf s.mem) : Memory.wf (s.finishStore g0 g).mem := by
  simp [State.finishStore, hm]

@[simp] theorem execStg_wf (f : F1) (s : State) (hm : Memory.wf s.mem) : NextWf (execStg f s) := by
  unfold execStg
  refine withIssuer_wf fun c g => ?_
  refine withLanes_wf hm fun s g ts hm => ?_
  simp [hm]

@[simp] theorem atomWord_wf (s : State) (f : F1) (hm : Memory.wf s.mem) : NextWf (atomWord s f) := by
  unfold atomWord
  refine withIssuer_wf fun c g => ?_
  refine withLanes_wf hm fun s g ts hm => ?_
  split <;> simp [hm]

@[simp] theorem execFence_wf (f : F1) (s : State) (hm : Memory.wf s.mem) : NextWf (execFence f s) := by
  unfold execFence
  refine withIssuer_wf fun c g => ?_
  exact hm

@[simp] theorem barWord_wf (s : State) (f : F1) (clus : Bool) (hm : Memory.wf s.mem) : NextWf (barWord s f clus) := by
  unfold barWord
  refine withIssuer_wf fun c g => ?_
  exact hm

/-! ## Operations of Sys2Proof/Machine/CacheCtl.lean -/

@[simp] theorem State.dropFails_mem (s : State) (ci gi : Nat) : (s.dropFails ci gi).mem = s.mem := by rfl

theorem hintWord_wf {s : State} {f : F1} {k : State → Group → Nat → Nat → State} (hm : Memory.wf s.mem)
    (hk : ∀ s g pa cache, Memory.wf s.mem → Memory.wf (k s g pa cache).mem) : NextWf (hintWord s f k) := by
  refine withIssuer_wf fun c g => ?_
  dsimp only
  split
  · simp [hm]
  · simp only [State.finish_mem]
    refine foldl_wf _ (fun s l hm => ?_) _ _ hm
    split
    · exact hk _ _ _ _ (by simpa using hm)
    · exact hm

@[simp] theorem execCprefL1_wf (f : F1) (s : State) (hm : Memory.wf s.mem) : NextWf (execCprefL1 f s) :=
  hintWord_wf hm fun s g pa cache hm => by simp [hm]

@[simp] theorem State.prefetched_mem (s : State) (k ln halves pol : Nat) (write : Bool) : (s.prefetched k ln halves pol write).mem = s.mem := by
  unfold State.prefetched
  cases e : ((s.poolAcquire ln write).hostAcquire ln halves write).placeLine k ln pol with
  | none => rfl
  | some t => simp [State.placeLine_mem e]

@[simp] theorem prefetchWord_wf (write : Bool) (f : F1) (s : State) (hm : Memory.wf s.mem) : NextWf (prefetchWord write f s) :=
  hintWord_wf hm fun s g pa cache hm => by simp [hm]

@[simp] theorem execCinvLine_wf (f : F1) (s : State) (hm : Memory.wf s.mem) : NextWf (execCinvLine f s) :=
  hintWord_wf hm fun s g pa cache hm => by simp [hm]

@[simp] theorem execCinvAll_wf (f : F1) (s : State) (hm : Memory.wf s.mem) : NextWf (execCinvAll f s) := by
  unfold execCinvAll
  refine withIssuer_wf fun c g => ?_
  simp [hm]

@[simp] theorem execCflushLine_wf (f : F1) (s : State) (hm : Memory.wf s.mem) : NextWf (execCflushLine f s) := by
  unfold execCflushLine
  dsimp only
  refine withIssuer_wf fun c g => ?_
  split
  · next e =>
      have ht := State.xlLanes_mem_wait e
      simp [hm, ht]
  · simp [hm]
  · next e =>
      have ht := State.xlLanes_mem_ok e
      simp [hm, ht]

@[simp] theorem execCflushDie_wf (f : F1) (s : State) (hm : Memory.wf s.mem) : NextWf (execCflushDie f s) := by
  unfold execCflushDie
  refine withIssuer_wf fun c g => ?_
  simp [hm]

@[simp] theorem execLset_wf (f : F1) (s : State) (hm : Memory.wf s.mem) : NextWf (execLset f s) := by
  unfold execLset
  dsimp only
  refine withIssuer_wf fun c g => ?_
  split <;> simp [hm]

/-! ## Operations of Sys2Proof/Machine/Send.lean -/

@[simp] theorem State.deadLetter_wf (s : State) (asid src die : Nat) (tail : List DWord) (handlerLost : Bool) (who : Option Nat)
    (hm : Memory.wf s.mem) : Memory.wf (s.deadLetter asid src die tail handlerLost who).mem := by
  simp [State.deadLetter, hm]

@[simp] theorem State.deliver_wf (s : State) (ci : Nat) (grp : Option Nat) (t : Token) (frame : Option Nat)
    (hm : Memory.wf s.mem) : Memory.wf (s.deliver ci grp t frame).mem := by
  unfold State.deliver
  dsimp only
  split
  · exact hm
  · split <;> simp [hm]

@[simp] theorem State.lateRecord_wf (s : State) (ci : Nat) (cls : Cls) (tail : List DWord) (hm : Memory.wf s.mem) :
    Memory.wf (s.lateRecord ci cls tail).mem := by
  simp [State.lateRecord, hm]

@[simp] theorem State.setSpan_mem (s : State) (i : Nat) (x : Span) : (s.setSpan i x).mem = s.mem := by rfl

/-! ## Operations of Sys2Proof/Machine/Courier.lean -/

@[simp] theorem startCopy_mem (s : State) (x : Ctx) (f : F4) (k : CopyCmd) : (startCopy s x f k).mem = s.mem := by
  simp [startCopy]

@[simp] theorem emptyCopy_mem (s : State) (x : Ctx) (f : F4) (form : CopyForm) : (emptyCopy s x f form).mem = s.mem := by
  simp [emptyCopy]

theorem copyXl_mem_wait {s t : State} {ci gi : Nat} {k : CopyCmd} (e : copyXl s ci gi k = .wait t) : t.mem = s.mem := by
  unfold copyXl at e
  dsimp only at e
  split at e
  · next hp => cases e; exact State.xlPlaces_mem_wait hp
  · cases e
  · split at e
    · cases e
    · split at e <;> cases e

theorem copyXl_mem_ok {s t : State} {ci gi : Nat} {k : CopyCmd} (e : copyXl s ci gi k = .ok t) : t.mem = s.mem := by
  unfold copyXl at e
  dsimp only at e
  split at e
  · cases e
  · cases e
  · next hp =>
    split at e
    · cases e
    · split at e <;> cases e
      exact State.xlPlaces_mem_ok hp

@[simp] theorem copyWord_wf (form : CopyForm) (f : F4) (s : State) (hm : Memory.wf s.mem) : NextWf (copyWord form f s) := by
  refine withIssuer_wf fun c g => ?_
  dsimp only
  split
  · simp [hm]
  · split
    · simp [hm]
    · split
      · next e => simp [copyXl_mem_wait e, hm]
      · simp [hm]
      · next e => simp [copyXl_mem_ok e, hm]

@[simp] theorem engineAddr_mem (s : State) (ci : Nat) (k : CopyCmd) (base va : Nat) (write whole : Bool) :
    (engineAddr s ci k base va write whole).2.mem = s.mem := by
  unfold engineAddr
  split
  · next e =>
      obtain rfl := snd_eq_of_eq_mk e
      simp
  · next e =>
      obtain rfl := snd_eq_of_eq_mk e
      simp
  · next e =>
      obtain rfl := snd_eq_of_eq_mk e
      simp
  · next e =>
      obtain rfl := snd_eq_of_eq_mk e
      split <;> simp

@[simp] theorem State.copyWounds_wf (s : State) (ci : Nat) (k : CopyCmd) (u : Nat) (hm : Memory.wf s.mem) :
    Memory.wf (s.copyWounds ci k u).mem := by
  simp +contextual [State.copyWounds, foldl_wf, hm]

@[simp] theorem readBufLine_wf (s : State) (ci : Nat) (k : CopyCmd) (ln : Nat) (hm : Memory.wf s.mem) :
    Memory.wf (readBufLine s ci k ln).2.2.mem := by
  unfold readBufLine
  dsimp only
  split
  · exact hm
  · split <;> simp [hm]

@[simp] theorem readMemLine_mem (s : State) (ci : Nat) (k : CopyCmd) (va : Nat) : (readMemLine s ci k va).2.2.mem = s.mem := by
  unfold readMemLine
  split
  · next e => obtain rfl := snd_eq_of_eq_mk e; simp
  · next e => obtain rfl := snd_eq_of_eq_mk e; simp
  · next e =>
    obtain rfl := snd_eq_of_eq_mk e
    dsimp only
    split
    · simp
    · split
      · next e => obtain rfl := snd_eq_of_eq_mk e; simp
      · next e =>
        obtain rfl := snd_eq_of_eq_mk e
        dsimp only
        split
        · rw [getD_mem fun t e => State.putBack_mem e]; simp
        · simp

@[simp] theorem readSrc_wf (s : State) (ci : Nat) (k : CopyCmd) (j : Nat) (hm : Memory.wf s.mem) :
    Memory.wf (readSrc s ci k j).2.2.mem := by
  unfold readSrc
  split
  · exact hm
  · split
    · exact hm
    · split
      · simp [hm]
      · split <;> simp [hm]

@[simp] theorem readAhead_wf (s : State) (ci : Nat) (k : CopyCmd) (hm : Memory.wf s.mem) : Memory.wf (readAhead s ci k).2.mem := by
  unfold readAhead
  split
  · refine foldl_keeps_wf Prod.snd _ (fun acc ln h => ?_) _ _ hm
    split
    · exact h
    · exact readBufLine_wf acc.2 ci acc.1 ln h
  · exact hm

@[simp] theorem lineData_wf (s : State) (ci : Nat) (k : CopyCmd) (u : Nat) (hm : Memory.wf s.mem) : Memory.wf (lineData s ci k u).2.2.mem := by
  refine foldl_keeps_wf (β := _ × _ × State) (fun acc => acc.2.2) _ (fun acc j h => ?_) _ _ hm
  split
  · split <;> next e => obtain rfl := thd_eq_of_eq_mk e; exact readSrc_wf _ ci _ j h
  · exact h

@[simp] theorem overlapFix_mem (s : State) (ci : Nat) (k : CopyCmd) (u : Nat) (bs : List (Nat × Byte)) :
    (overlapFix s ci k u bs).2.mem = s.mem := by
  unfold overlapFix
  split
  · rfl
  · refine foldl_keeps_mem Prod.snd _ (fun a j => ?_) _ _
    split <;> simp

@[simp] theorem State.disown_mem (s : State) (ci ln : Nat) : (s.disown ci ln).mem = s.mem := by
  unfold State.disown
  dsimp only
  split <;> simp

@[simp] theorem State.ownLine_mem (s : State) (ci num ln : Nat) : (s.ownLine ci num ln).2.mem = s.mem := by
  unfold State.ownLine
  dsimp only
  split
  · rfl
  · split
    · rfl
    · split <;> next e => obtain rfl := snd_eq_of_eq_mk e; simp

@[simp] theorem memUnit_wf (s : State) (ci : Nat) (k : CopyCmd) (u : Nat) (hm : Memory.wf s.mem) : Memory.wf (memUnit s ci k u).2.2.mem := by
  unfold memUnit
  split
  · next e => obtain rfl := snd_eq_of_eq_mk e; simp [hm]
  · next e => obtain rfl := snd_eq_of_eq_mk e; simp [hm]
  · next e =>
    obtain rfl := snd_eq_of_eq_mk e
    dsimp only
    generalize hp : (if writtenFirst _ _ _ _ = true then _ else _ : Bool × State) = p
    have hw : Memory.wf p.2.mem := by
      rw [← hp]
      split
      · simp [hm]
      · split <;> simp [hm]
    split
    · exact hw
    · split
      · next e => obtain rfl := thd_eq_of_eq_mk e; simp [hw]
      · next e => obtain rfl := thd_eq_of_eq_mk e; simp [hw]
      · next e =>
        obtain rfl := thd_eq_of_eq_mk e
        dsimp only
        split
        · simp [hw]
        · rw [State.disown_mem]
          exact State.storeLine_wf _ _ _ _ (by simp [hw])

@[simp] theorem State.unmark_wf (s : State) (ci : Nat) (k : CopyCmd) (lines : List Nat) (hm : Memory.wf s.mem) :
    Memory.wf (s.unmark ci k lines).mem := by
  simp +contextual [State.unmark, foldl_wf, hm]

@[simp] theorem bufUnit_wf (s : State) (ci : Nat) (k : CopyCmd) (u : Nat) (hm : Memory.wf s.mem) : Memory.wf (bufUnit s ci k u).2.2.mem := by
  unfold bufUnit
  split
  · exact hm
  · split
    · next e => obtain rfl := thd_eq_of_eq_mk e; simp [hm]
    · next e => obtain rfl := thd_eq_of_eq_mk e; simp [hm]
    · next e =>
      obtain rfl := thd_eq_of_eq_mk e
      have hw := State.copyWounds_wf _ ci ‹_› u (lineData_wf s ci k u hm)
      dsimp only
      split
      · exact hw
      · exact State.unmark_wf _ _ _ _ hw

@[simp] theorem copyUnit_wf (s : State) (ci : Nat) (k : CopyCmd) (u : Nat) (hm : Memory.wf s.mem) :
    Memory.wf (copyUnit s ci k u).2.2.mem := by
  unfold copyUnit
  split <;> simp [hm]

@[simp] theorem copyLines_wf (s : State) (ci : Nat) (k : CopyCmd) (us : List Nat) (hm : Memory.wf s.mem) :
    Memory.wf (copyLines s ci k us).2.2.mem := by
  induction us generalizing s k with
  | nil => exact hm
  | cons u us ih =>
    unfold copyLines
    split
    · exact ih s k hm
    · split
      · next e => obtain rfl := thd_eq_of_eq_mk e; exact ih _ _ (copyUnit_wf s ci k u hm)
      · exact copyUnit_wf s ci k u hm

@[simp] theorem State.dropEngine_mem (s : State) (ci num : Nat) : (s.dropEngine ci num).mem = s.mem := by rfl

@[simp] theorem State.endImmediate_wf (s : State) (ci : Nat) (k : CopyCmd) (stop : Option CopyStop) (goesOn : Bool)
    (hm : Memory.wf s.mem) : Memory.wf (s.endImmediate ci k stop goesOn).mem := by
  unfold State.endImmediate
  dsimp only
  split <;> simp [hm]

@[simp] theorem State.disownAll_mem (s : State) (ci : Nat) (k : CopyCmd) : (s.disownAll ci k).mem = s.mem := by
  simp [State.disownAll, foldl_mem]

@[simp] theorem State.endDeferred_wf (s : State) (ci : Nat) (k : CopyCmd) (status cause : Nat) (hm : Memory.wf s.mem) :
    Memory.wf (s.endDeferred ci k status cause).mem := by
  unfold State.endDeferred
  split <;> simp [hm]

@[simp] theorem State.runCopy_wf (s : State) (ci : Nat) (k : CopyCmd) (hm : Memory.wf s.mem) : Memory.wf (s.runCopy ci k).mem := by
  unfold State.runCopy
  dsimp only
  have hl := copyLines_wf _ ci (readAhead s ci k).1 (readAhead s ci k).1.order (readAhead_wf s ci k hm)
  split <;> next e => obtain rfl := thd_eq_of_eq_mk e; simp [hl]

theorem landBytes_wf {s t : State} {ci : Nat} {k : CopyCmd} {at_ : Nat} {ws : List Word} (e : landBytes s ci k at_ ws = some t)
    (hm : Memory.wf s.mem) : Memory.wf t.mem := by
  unfold landBytes at e
  dsimp only at e
  split at e
  · cases e
  · split at e <;> cases e
    exact State.unmark_wf _ _ _ _ (foldl_wf _ (fun s u hm => State.copyWounds_wf s ci k u hm) _ _ hm)

@[simp] theorem State.pushCopy_wf (s : State) (ci : Nat) (k : CopyCmd) (hm : Memory.wf s.mem) : Memory.wf (s.pushCopy ci k).mem := by
  unfold State.pushCopy
  dsimp only
  split
  · simp [hm]
  · refine State.endDeferred_wf _ _ _ _ _ ?_
    split <;> simp [hm]

@[simp] theorem State.landCopy_wf (s : State) (ci : Nat) (k : CopyCmd) (hm : Memory.wf s.mem) : Memory.wf (s.landCopy ci k).mem := by
  unfold State.landCopy
  split
  · simp [hm]
  · split
    · split
      · exact hm
      · dsimp only
        split
        · exact hm
        · next e =>
          have ht := landBytes_wf e hm
          split <;> simp [ht]
    · split
      · simp [hm]
      · split <;> simp [hm]

/-! ## Operations of Sys2Proof/Machine/Remote.lean -/

@[simp] theorem State.sendPacket_wf (s : State) (ci asid : Nat) (p : Packet) (hm : Memory.wf s.mem) :
    Memory.wf (s.sendPacket ci asid p).2.mem := by
  unfold State.sendPacket
  split <;> simp [hm]

@[simp] theorem State.takeReq_mem (s : State) : (s.takeReq).2.mem = s.mem := by rfl

@[simp] theorem State.finishReq_mem (s : State) (reqid : Nat) (status cause : Byte) (val : DWord) :
    (s.finishReq reqid status cause val).mem = s.mem := by
  unfold State.finishReq
  split <;> rfl

@[simp] theorem State.settleBundle_wf (s : State) (num : Nat) (hm : Memory.wf s.mem) : Memory.wf (s.settleBundle num).mem := by
  unfold State.settleBundle
  dsimp only
  split
  · exact hm
  · split
    · exact hm
    · split <;> split <;> simp [hm]

@[simp] theorem State.launchReq_wf (s : State) (reqid : Nat) (hm : Memory.wf s.mem) : Memory.wf (s.launchReq reqid).mem := by
  unfold State.launchReq
  split
  · exact hm
  · split <;> next e => obtain rfl := snd_eq_of_eq_mk e; simp [hm]

@[simp] theorem State.wakeReads_wf (s : State) (ci : Nat) (hm : Memory.wf s.mem) : Memory.wf (s.wakeReads ci).mem := by
  unfold State.wakeReads
  refine foldl_wf _ (fun s x hm => ?_) _ _ ?_
  · simp [hm]
  · exact hm

@[simp] theorem State.closeReq_wf (s : State) (reqid : Nat) (status cause : Byte) (val : DWord) (hm : Memory.wf s.mem) :
    Memory.wf (s.closeReq reqid status cause val).mem := by
  unfold State.closeReq
  split <;> simp [hm]

@[simp] theorem State.newReq_mem (s : State) (ci commit : Nat) (kind : RemKind) (bulk : Option CopyForm) (size bundle : Nat)
    (l : RemLane) (body : Nat → PktBody) : (s.newReq ci commit kind bulk size bundle l body).2.mem = s.mem := by
  simp [State.newReq]

@[simp] theorem State.drainWc_wf (s : State) (ci idx : Nat) (hm : Memory.wf s.mem) : Memory.wf (s.drainWc ci idx).mem := by
  unfold State.drainWc
  split
  · exact hm
  · split
    · exact hm
    · dsimp only
      split
      · next e =>
        obtain rfl := snd_eq_of_eq_mk e
        exact State.sendPacket_wf _ _ _ _ hm
      · next e =>
        obtain rfl := snd_eq_of_eq_mk e
        exact foldl_wf _ (fun s r hm => State.closeReq_wf s r _ _ _ hm) _ _ (State.sendPacket_wf _ _ _ _ hm)

@[simp] theorem State.drainIf_wf (s : State) (ci : Nat) (p : WcEnt → Bool) (hm : Memory.wf s.mem) : Memory.wf (s.drainIf ci p).mem := by
  unfold State.drainIf
  refine foldl_wf _ (fun s x hm => ?_) _ _ ?_
  · split <;> simp [hm]
  · exact hm

@[simp] theorem State.combineWc_wf (s : State) (ci commit reqid : Nat) (l : RemLane) (bs : List Byte) (hm : Memory.wf s.mem) :
    Memory.wf (s.combineWc ci commit reqid l bs).mem := by
  unfold State.combineWc
  split
  · exact hm
  · split
    · split <;> simp [hm]
    · exact hm

@[simp] theorem State.leaveRead_wf (s : State) (ci n size : Nat) (l : RemLane) (hm : Memory.wf s.mem) :
    Memory.wf (s.leaveRead ci n size l).mem := by
  unfold State.leaveRead
  split <;> simp [hm]

@[simp] theorem State.leaveLane_wf (s : State) (ci commit : Nat) (k : RemKind) (fn : BitVec 4) (size bundle : Nat) (alone : Bool)
    (l : RemLane) (hm : Memory.wf s.mem) : Memory.wf (s.leaveLane ci commit k fn size bundle alone l).mem := by
  unfold State.leaveLane
  split <;> simp [hm]

@[simp] theorem State.leaveInst_wf (s : State) (ci : Nat) (o : OutItem) (k : RemKind) (fn : BitVec 4) (size word : Nat) (rel : Option Scope)
    (part : Option TokenDue × List RemLane) (hm : Memory.wf s.mem) : Memory.wf (s.leaveInst ci o k fn size word rel part).mem :=
  State.settleBundle_wf _ _ (foldl_wf _ (fun s l hm => State.leaveLane_wf s _ _ _ _ _ _ _ l hm) _ _ hm)

@[simp] theorem State.leaveRemote_wf (s : State) (ci : Nat) (o : OutItem) (k : RemKind) (fn : BitVec 4) (size word : Nat)
    (rel : Option Scope) (parts : List (Option TokenDue × List RemLane)) (hm : Memory.wf s.mem) :
    Memory.wf (s.leaveRemote ci o k fn size word rel parts).mem := by
  simp +contextual [State.leaveRemote, foldl_wf, hm]

theorem withPeers_wf {s : State} {x : Ctx} {act : LaneMask} {write : Bool} {va : Nat → Nat} {checks : List (Nat × (Nat → Bool))}
    {k : State → Group → List (Nat × Target) → State} (hm : Memory.wf s.mem) (hk : ∀ s g ts, Memory.wf s.mem → Memory.wf (k s g ts).mem) :
    Memory.wf (withPeers s x act write va checks k).mem := by
  unfold withPeers
  split
  · simp [hm]
  · dsimp only
    split
    · next e => simp [State.xlPlaces_mem_wait e, hm]
    · simp [hm]
    · next e => exact hk _ _ _ (by rwa [State.xlPlaces_mem_ok e])

@[simp] theorem laneRemote_wf (s : State) (f : F1) (k : RemKind) (size al : Nat) (addr : Ctx → Nat → Nat) (b c : Ctx → Nat → DWord)
    (hm : Memory.wf s.mem) : NextWf (laneRemote s f k size al addr b c) := by
  unfold laneRemote
  refine withIssuer_wf fun c g => ?_
  refine withPeers_wf hm fun s g ts hm => ?_
  exact hm

theorem bulkXl_mem_wait {s t : State} {x : Ctx} {l : Nat} {far here : Option (Nat × Bool)} (e : bulkXl s x l far here = .wait t) :
    t.mem = s.mem := by
  unfold bulkXl at e
  dsimp only at e
  split at e
  · cases e
  · next hp => cases e; exact State.xlPlaces_mem_wait hp
  · cases e

theorem bulkXl_mem_ok {s t : State} {x : Ctx} {l : Nat} {far here : Option (Nat × Bool)} {ts : List (Nat × Nat × Target)}
    (e : bulkXl s x l far here = .ok t ts) : t.mem = s.mem := by
  unfold bulkXl at e
  dsimp only at e
  split at e
  · next hp => cases e; exact State.xlPlaces_mem_ok hp
  · cases e
  · cases e

@[simp] theorem bulkWord_wf (s : State) (f : F1) (form : CopyForm) (hm : Memory.wf s.mem) : NextWf (bulkWord s f form) := by
  refine withIssuer_wf fun c g => ?_
  dsimp only
  split
  · simp [hm]
  · iterate 3
      refine wf_of_ite (by simp [hm]) ?_
    split
    · next e => simp [bulkXl_mem_wait e, hm]
    · simp [hm]
    · next e => split <;> simp [bulkXl_mem_ok e, hm]

@[simp] theorem execSpw_wf (f : F1) (s : State) (hm : Memory.wf s.mem) : NextWf (execSpw f s) := by
  unfold execSpw
  dsimp only
  refine withIssuer_wf fun c g => ?_
  split <;> simp [hm]

/-! ## Operations of Sys2Proof/Machine/Area.lean -/

@[simp] theorem State.payloadHold_wf (s : State) (ci gi : Nat) (g : Group) (hm : Memory.wf s.mem) :
    Memory.wf (s.payloadHold ci gi g).mem := by
  simp [State.payloadHold, hm]

/-! ## Operations of Sys2Proof/Machine/Issue.lean -/

/-- A run of an instruction keeps memory in canonical form. -/
def RunWf (run : Instr → State → Out) : Prop := ∀ i s, Memory.wf s.mem → NextWf (run i s)

theorem tryGroup_wf {run : Instr → State → Out} (hrun : RunWf run) (s : State) (ci gi : Nat) (hm : Memory.wf s.mem) :
    NextWf (tryGroup run s ci gi) := by
  unfold tryGroup
  dsimp only
  split
  · simp [hm]
  · split
    · split
      · simp [hm]
      · split
        · simp [hm]
        · have hr := hrun (fetchInstr (s.core ci) ‹Group›) { s with cur := (ci, gi) } hm
          split
          · next e => rw [e] at hr; simp_all
          · exact hr
    · simp [hm]

theorem tryWait_wf {run : Instr → State → Out} (hrun : RunWf run) (ci : Nat) (s : State) (gi : Nat) (hm : Memory.wf s.mem) :
    Memory.wf (tryWait run ci s gi).mem := by
  unfold tryWait
  have ht := tryGroup_wf hrun s ci gi hm
  split
  · next e =>
    rw [e, nextWf_next] at ht
    split
    · exact ht
    · exact hm
  · exact hm

@[simp] theorem State.restartCore_mem (s : State) (ci : Nat) : (s.restartCore ci).mem = s.mem := by rfl

theorem issueCore_wf {run : Instr → State → Out} (hrun : RunWf run) (s : State) (ci : Nat) (hm : Memory.wf s.mem) :
    NextWf (issueCore run s ci) := by
  unfold issueCore
  split
  · dsimp only
    have hw := foldl_wf (tryWait run ci) (fun s gi hm => tryWait_wf hrun ci s gi hm) (s.core ci).groups.keyList s hm
    split
    · simp [hw]
    · exact tryGroup_wf hrun _ _ _ (by simpa using hw)
  · simp [hm]
  · simp [hm]

@[simp] theorem State.pass_mem (s : State) (t : Turn) : (s.pass t).mem = s.mem := by rfl

@[simp] theorem State.sense_mem (s : State) (d : Device) : (s.sense d).mem = s.mem := by rfl

/-! ## Operations of Sys2Proof/Machine/Steering.lean -/

@[simp] theorem execClauseHeader_wf (f : F5) (s : State) (hm : Memory.wf s.mem) : NextWf (execClauseHeader f s) := by
  unfold execClauseHeader
  refine withIssuer_wf fun c g => ?_
  simp [hm]

@[simp] theorem execNop_wf (s : State) (hm : Memory.wf s.mem) : NextWf (execNop s) := by
  unfold execNop
  refine withIssuer_wf fun c g => ?_
  exact hm

@[simp] theorem sendWord_wf (s : State) (f : F2) (mk : Ctx → LaneMask → Nat × Nat → SendItem) (hm : Memory.wf s.mem) :
    NextWf (sendWord s f mk) := by
  unfold sendWord
  refine withIssuer_wf fun c g => ?_
  exact hm

@[simp] theorem execSendv_wf (f : F2) (s : State) (hm : Memory.wf s.mem) : NextWf (execSendv f s) := by
  unfold execSendv
  refine withIssuer_wf fun c g => ?_
  simp [hm]

@[simp] theorem execSendf_wf (f : F2) (s : State) (hm : Memory.wf s.mem) : NextWf (execSendf f s) := by
  unfold execSendf
  refine withIssuer_wf fun c g => ?_
  simp [hm]

@[simp] theorem execExit_wf (f : F2) (s : State) (hm : Memory.wf s.mem) : NextWf (execExit f s) := by
  unfold execExit
  refine withIssuer_wf fun c g => ?_
  simp [hm]

@[simp] theorem colWord_wf (s : State) (f : F0) (ask : Ctx → Nat → ColAsk) (hm : Memory.wf s.mem) : NextWf (colWord s f ask) := by
  unfold colWord
  refine withIssuer_wf fun c g => ?_
  simp [hm]

@[simp] theorem execColfree_wf (f : F0) (s : State) (hm : Memory.wf s.mem) : NextWf (execColfree f s) := by
  unfold execColfree
  refine withIssuer_wf fun c g => ?_
  exact hm

@[simp] theorem bintimWord_wf (s : State) (f : F0) (mk : Nat → Nat → Deferred) (hm : Memory.wf s.mem) : NextWf (bintimWord s f mk) := by
  unfold bintimWord
  refine withIssuer_wf fun c g => ?_
  exact hm

@[simp] theorem execLdblk_wf (f : F0) (s : State) (hm : Memory.wf s.mem) : NextWf (execLdblk f s) := by
  unfold execLdblk
  dsimp only
  refine withIssuer_wf fun c g => ?_
  split <;> simp [hm]

@[simp] theorem execCfgw_wf (f : F6) (s : State) (hm : Memory.wf s.mem) : NextWf (execCfgw f s) := by
  unfold execCfgw
  refine withIssuer_wf fun c g => ?_
  simp [hm]

@[simp] theorem State.qwaitEnd_mem (s : State) (ci gi : Nat) (f : F0) (g : Group) (v : Nat) : (s.qwaitEnd ci gi f g v).mem = s.mem := by rfl

@[simp] theorem execQwait_wf (f : F0) (s : State) (hm : Memory.wf s.mem) : NextWf (execQwait f s) := by
  unfold execQwait
  dsimp only
  refine withIssuer_wf fun c g => ?_
  split <;> simp [hm]

@[simp] theorem execQwaitTimeout_wf (core grp : Nat) (s : State) (hm : Memory.wf s.mem) : NextWf (execQwaitTimeout core grp s) := by
  unfold execQwaitTimeout
  split
  · simp [hm]
  · split <;> simp [hm]

/-! ## Operations of Sys2Proof/Machine/EvMatch.lean -/

@[simp] theorem State.refuse_wf (s : State) (ci : Nat) (t : InTok) (cause : Nat) (hm : Memory.wf s.mem) :
    Memory.wf (s.refuse ci t cause).mem := by
  simp [State.refuse, hm]

@[simp] theorem State.tokenRecord_wf (s : State) (ci : Nat) (t : InTok) (cause kept : Nat) (hm : Memory.wf s.mem) :
    Memory.wf (s.tokenRecord ci t cause kept).mem := by
  simp [State.tokenRecord, hm]

theorem State.collect_mem {s t : State} {ci : Nat} {d : DueColl} (e : s.collect ci d = some t) : t.mem = s.mem := by
  unfold State.collect at e
  dsimp only at e
  split at e
  · split at e <;> cases e
    simp
  · cases e

theorem State.collectOne_mem {s t : State} {ci : Nat} (e : s.collectOne ci = some t) : t.mem = s.mem := by
  obtain ⟨d, -, hd⟩ := List.exists_of_findSome?_eq_some e
  exact State.collect_mem hd

@[simp] theorem State.collectN_mem (s : State) (ci n : Nat) : (s.collectN ci n).mem = s.mem := by
  induction n generalizing s with
  | zero => rfl
  | succ n ih =>
    unfold State.collectN
    split
    · next e => rw [ih, State.collectOne_mem e]
    · rfl

@[simp] theorem State.collectAll_mem (s : State) (ci : Nat) : (s.collectAll ci).mem = s.mem := by
  simp [State.collectAll, foldl_mem]

@[simp] theorem State.collectReached_mem (s : State) (ci : Nat) : (s.collectReached ci).mem = s.mem := by
  simp [State.collectReached]

@[simp] theorem State.endCycle_mem (s : State) : (s.endCycle).mem = s.mem := by
  simp [State.endCycle, foldl_mem]

@[simp] theorem execCollectionDeadline_wf (core slot : Nat) (s : State) (hm : Memory.wf s.mem) :
    NextWf (execCollectionDeadline core slot s) := by
  unfold execCollectionDeadline
  split <;> simp [hm]

@[simp] theorem execPostponedCollection_wf (core : Nat) (s : State) (hm : Memory.wf s.mem) : NextWf (execPostponedCollection core s) := by
  simp [execPostponedCollection, hm]

@[simp] theorem State.refuseWidth_wf (s : State) (ci : Nat) (t : InTok) (hm : Memory.wf s.mem) : Memory.wf (s.refuseWidth ci t).mem := by
  simp [State.refuseWidth, hm]

@[simp] theorem State.matchToken_wf (s : State) (ci : Nat) (t : InTok) (slot : Nat) (b : BlockSlot) (hm : Memory.wf s.mem) :
    Memory.wf (s.matchToken ci t slot b).mem := by
  unfold State.matchToken
  dsimp only
  split
  · split
    · simp [hm]
    · split
      · simp [hm]
      · split
        · simp [hm]
        · split
          · exact hm
          · split
            · simp [hm]
            · exact hm
          · split
            · simp [hm]
            · exact hm
          · split <;> exact hm
  · simp [hm]

@[simp] theorem State.askOverlay_wf (s : State) (ci bid : Nat) (hm : Memory.wf s.mem) : Memory.wf (s.askOverlay ci bid).mem := by
  simp [State.askOverlay, hm]

@[simp] theorem State.holdOverlay_wf (s : State) (ci : Nat) (t : InTok) (hm : Memory.wf s.mem) : Memory.wf (s.holdOverlay ci t).mem := by
  simp [State.holdOverlay, hm]

@[simp] theorem State.matchSaved_wf (s : State) (ci : Nat) (t : InTok) (b : BlockSlot) (hm : Memory.wf s.mem) :
    Memory.wf (s.matchSaved ci t b).mem := by
  unfold State.matchSaved
  dsimp only
  split <;> simp [hm]

@[simp] theorem State.refuseUnknown_wf (s : State) (ci : Nat) (t : InTok) (hm : Memory.wf s.mem) :
    Memory.wf (s.refuseUnknown ci t).mem := by
  simp [State.refuseUnknown, hm]

@[simp] theorem State.place_wf (s : State) (ci : Nat) (t : InTok) (hm : Memory.wf s.mem) : Memory.wf (s.place ci t).mem := by
  unfold State.place
  dsimp only
  split <;> simp [hm]

@[simp] theorem execTokenArrival_wf (core idx : Nat) (s : State) (hm : Memory.wf s.mem) : NextWf (execTokenArrival core idx s) := by
  unfold execTokenArrival
  dsimp only
  split
  · simp [hm]
  · split <;> simp [hm]

@[simp] theorem execEosCount_wf (core idx : Nat) (s : State) (hm : Memory.wf s.mem) : NextWf (execEosCount core idx s) := by
  unfold execEosCount
  dsimp only
  split
  · split
    · simp [hm]
    · split
      · simp [hm]
      · split
        · simp [hm]
        · split <;> simp [hm]
  · simp [hm]

@[simp] theorem execSpill_wf (core : Nat) (s : State) (hm : Memory.wf s.mem) : NextWf (execSpill core s) := by
  unfold execSpill
  dsimp only
  split
  · simp [hm]
  · split
    · split <;> simp [hm]
    · simp [hm]

@[simp] theorem State.mergeHeld_wf (s : State) (ci : Nat) (e : Entry) (hm : Memory.wf s.mem) : Memory.wf (s.mergeHeld ci e).mem := by
  simp +contextual [State.mergeHeld, foldl_wf, hm]

@[simp] theorem execSpillRecordLanded_wf (core idx : Nat) (s : State) (hm : Memory.wf s.mem) :
    NextWf (execSpillRecordLanded core idx s) := by
  unfold execSpillRecordLanded
  dsimp only
  split
  · simp [hm]
  · split <;> split <;> simp [hm]

@[simp] theorem State.refillFault_wf (s : State) (ci : Nat) (r : SpillRec) (cause : Nat) (hm : Memory.wf s.mem) :
    Memory.wf (s.refillFault ci r cause).mem := by
  simp [State.refillFault, hm]

@[simp] theorem execRefill_wf (core : Nat) (s : State) (hm : Memory.wf s.mem) : NextWf (execRefill core s) := by
  unfold execRefill
  extract_lets c ready pick
  cases pick with
  | none => simp [hm]
  | some r =>
    dsimp only
    split
    · simp [hm]
    · split <;> next e => obtain rfl := snd_eq_of_eq_mk e; simp [hm]

/-! ## Operations of Sys2Proof/Machine/EvPermit.lean -/

@[simp] theorem State.movePermits_mem (s : State) (from_ dst ln n : Nat) (owner : Bool) :
    (s.movePermits from_ dst ln n owner).mem = s.mem := by
  simp [State.movePermits]

@[simp] theorem State.gather_mem (s : State) (dst ln pol seq : Nat) (may : Nat → Bool) : (s.gather dst ln pol seq may).mem = s.mem := by
  unfold State.gather
  split
  · rfl
  · split
    · rfl
    · next e =>
        have ht := State.placeLine_mem e
        simp [ht, foldl_mem]

@[simp] theorem State.dropPermit_mem (s : State) (k ln : Nat) : (s.dropPermit k ln).mem = s.mem := by rfl

@[simp] theorem State.reply_mem (s : State) (k ln : Nat) (r : Option (Nat × Bool)) : (s.reply k ln r).mem = s.mem := by
  simp [State.reply]

@[simp] theorem State.permitTurn_mem (s : State) (k ln : Nat) : (s.permitTurn k ln).2.mem = s.mem := by
  unfold State.permitTurn
  dsimp only
  split
  · rfl
  · split <;> rfl

@[simp] theorem State.grantRead_mem (s : State) (k ln seq : Nat) : (s.grantRead k ln seq).mem = s.mem := by
  simp [State.grantRead]

@[simp] theorem execPermitGets_wf (die line : Nat) (s : State) (hm : Memory.wf s.mem) : NextWf (execPermitGets die line s) := by
  unfold execPermitGets
  dsimp only
  split
  · simp [hm]
  · split
    · simp [hm]
    · split
      · simp [hm]
      · split <;> next e => obtain rfl := snd_eq_of_eq_mk e; simp [hm]

@[simp] theorem execPermitGetx_wf (die line : Nat) (s : State) (hm : Memory.wf s.mem) : NextWf (execPermitGetx die line s) := by
  unfold execPermitGetx
  dsimp only
  split
  · simp [hm]
  · split
    · simp [hm]
    · split
      · simp [hm]
      · split <;> next e => obtain rfl := snd_eq_of_eq_mk e; simp [hm]

@[simp] theorem execPermitPut_wf (die line : Nat) (s : State) (hm : Memory.wf s.mem) : NextWf (execPermitPut die line s) := by
  unfold execPermitPut
  cases e : s.putBack (sliceAt s die line) line with
  | none => simp [hm]
  | some t => simp [State.putBack_mem e, hm]

@[simp] theorem execPermitReply_wf (die line : Nat) (s : State) (hm : Memory.wf s.mem) : NextWf (execPermitReply die line s) := by
  unfold execPermitReply
  dsimp only
  split
  · simp [hm]
  · split
    · simp [hm]
    · split
      · simp [hm]
      · simp [hm]
      · split
        · simp [hm]
        · next e =>
            have ht := State.placeLine_mem e
            simp [hm, ht]

@[simp] theorem execPermitRequestTimeout_wf (die line : Nat) (s : State) (hm : Memory.wf s.mem) :
    NextWf (execPermitRequestTimeout die line s) := by
  unfold execPermitRequestTimeout
  dsimp only
  split
  · simp [hm]
  · split <;> simp [hm]

@[simp] theorem execPersistentRequest_wf (die line : Nat) (s : State) (hm : Memory.wf s.mem) :
    NextWf (execPersistentRequest die line s) := by
  unfold execPersistentRequest
  dsimp only
  split
  · simp [hm]
  · split <;> simp [hm]

@[simp] theorem State.feedPersist_mem (s : State) (home : Nat) : (s.feedPersist home).mem = s.mem := by
  unfold State.feedPersist
  split <;> simp

@[simp] theorem execPersistentActivation_wf (die pos : Nat) (s : State) (hm : Memory.wf s.mem) :
    NextWf (execPersistentActivation die pos s) := by
  unfold execPersistentActivation
  dsimp only
  split
  · simp [hm]
  · split <;> simp [hm]

@[simp] theorem execDeactivate_wf (die line : Nat) (s : State) (hm : Memory.wf s.mem) : NextWf (execDeactivate die line s) := by
  unfold execDeactivate
  dsimp only
  split
  · simp [hm]
  · split <;> split <;> simp [hm]

@[simp] theorem State.beginRecall_mem (s : State) (ln : Nat) (sn : Snoop) : (s.beginRecall ln sn).mem = s.mem := by
  simp [State.beginRecall]

@[simp] theorem State.recallStep_mem (s : State) (ln : Nat) (sn : Snoop) : (s.recallStep ln sn).2.mem = s.mem := by
  unfold State.recallStep
  split
  · rfl
  · simp [foldl_mem]

@[simp] theorem State.endRecall_mem (s : State) (ln : Nat) (sn : Snoop) : (s.endRecall ln sn).mem = s.mem := by rfl

@[simp] theorem execBackInvalidationSnoop_wf (line : Nat) (toI : Bool) (s : State) (hm : Memory.wf s.mem) :
    NextWf (execBackInvalidationSnoop line toI s) := by
  unfold execBackInvalidationSnoop
  split
  · simp [hm]
  · split
    · next e =>
        obtain rfl := snd_eq_of_eq_mk e
        simp [hm]
    · next e =>
        obtain rfl := snd_eq_of_eq_mk e
        split <;> simp [hm]

@[simp] theorem execHostSnoop_wf (line : Nat) (high inval : Bool) (s : State) (hm : Memory.wf s.mem) :
    NextWf (execHostSnoop line high inval s) := by
  unfold execHostSnoop
  split
  · simp [hm]
  · split <;> next e => obtain rfl := snd_eq_of_eq_mk e; simp [hm]

theorem State.flushLine_mem {s t : State} {ci ln : Nat} (e : s.flushLine ci ln = some t) : t.mem = s.mem := by
  unfold State.flushLine at e
  dsimp only at e
  split at e
  · cases e; rfl
  · obtain ⟨u, hu, rfl⟩ := Option.map_eq_some_iff.mp e
    simp [State.putBack_mem hu]

/-! ## Operations of Sys2Proof/Machine/EvSlice.lean -/

@[simp] theorem State.faultLoad_wf (s : State) (ci ln num : Nat) (cls : Cls) (hm : Memory.wf s.mem) :
    Memory.wf (s.faultLoad ci ln num cls).mem := by
  unfold State.faultLoad
  split <;> simp [hm]

@[simp] theorem State.faultUses_wf (s : State) (ci ln : Nat) (cls : Cls) (hm : Memory.wf s.mem) :
    Memory.wf (s.faultUses ci ln cls).mem := by
  unfold State.faultUses
  refine foldl_wf _ (fun s x hm => ?_) _ _ ?_
  · split <;> simp [hm]
  · exact hm

@[simp] theorem State.deliverLine_mem (s : State) (ci ln num : Nat) (data : List Byte) : (s.deliverLine ci ln num data).mem = s.mem := by
  unfold State.deliverLine
  split <;> rfl

@[simp] theorem State.serveLoad_mem (s : State) (k ci ln num : Nat) (ver : Option Word) (ll : Nat) (noLease lru : Bool) (halves : Nat) :
    (s.serveLoad k ci ln num ver ll noLease lru halves).mem = s.mem := by
  unfold State.serveLoad
  split <;> simp

@[simp] theorem execLeaseRequest_wf (die pos idx : Nat) (s : State) (hm : Memory.wf s.mem) : NextWf (execLeaseRequest die pos idx s) := by
  unfold execLeaseRequest
  dsimp only
  split
  · split
    · split <;> simp [hm]
    · split
      · next e =>
          obtain rfl := snd_eq_of_eq_mk e
          simp [hm]
      · next e =>
          obtain rfl := snd_eq_of_eq_mk e
          split
          · simp [hm]
          · next e =>
              have ht := State.placeLine_mem e
              simp [hm, ht]
  · simp [hm]

@[simp] theorem State.lineDone_mem (s : State) (ci commit ln : Nat) : (s.lineDone ci commit ln).mem = s.mem := by rfl

@[simp] theorem State.retryLoads_mem (s : State) (ci : Nat) : (s.retryLoads ci).mem = s.mem := by
  simp [State.retryLoads, foldl_mem]

@[simp] theorem State.failUpdate_wf (s : State) (ci commit : Nat) (l : SbLine) (cls : Cls) (hm : Memory.wf s.mem) :
    Memory.wf (s.failUpdate ci commit l cls).mem := by
  simp [State.failUpdate, hm]

@[simp] theorem State.performUpdate_wf (s : State) (k ci commit : Nat) (l : SbLine) (hm : Memory.wf s.mem) :
    Memory.wf (s.performUpdate k ci commit l).mem := by
  simp [State.performUpdate, hm]

@[simp] theorem State.tryUpdate_wf (s : State) (k idx ci commit : Nat) (l : SbLine) (hm : Memory.wf s.mem) :
    Memory.wf (s.tryUpdate k idx ci commit l).mem := by
  unfold State.tryUpdate
  split
  · simp [hm]
  · split
    · exact hm
    · split
      · next e => obtain rfl := snd_eq_of_eq_mk e; simp [hm]
      · next e =>
        obtain rfl := snd_eq_of_eq_mk e
        split <;> next e => obtain rfl := snd_eq_of_eq_mk e; simp [hm]

@[simp] theorem execLinedUpWritePerform_wf (die pos idx : Nat) (s : State) (hm : Memory.wf s.mem) :
    NextWf (execLinedUpWritePerform die pos idx s) := by
  unfold execLinedUpWritePerform
  dsimp only
  split <;> simp [hm]

@[simp] theorem State.toOwner_mem (s : State) (k idx owner ci ln : Nat) (r : SliceReq) : (s.toOwner k idx owner ci ln r).mem = s.mem := by
  simp [State.toOwner]

@[simp] theorem execAtomicAtOwner_wf (die pos idx : Nat) (s : State) (hm : Memory.wf s.mem) : NextWf (execAtomicAtOwner die pos idx s) := by
  unfold execAtomicAtOwner
  dsimp only
  split <;> simp [hm]

@[simp] theorem execFetchAtOwner_wf (die pos idx : Nat) (s : State) (hm : Memory.wf s.mem) : NextWf (execFetchAtOwner die pos idx s) := by
  unfold execFetchAtOwner
  dsimp only
  split
  · split
    · simp [hm]
    · split
      · simp [hm]
      · split
        · next e =>
            obtain rfl := snd_eq_of_eq_mk e
            simp [hm]
        · next e =>
            obtain rfl := snd_eq_of_eq_mk e
            split
            · simp [hm]
            · next e =>
                have ht := State.placeLine_mem e
                simp [hm, ht]
  · simp [hm]

@[simp] theorem execStoreLineArrival_wf (idx : Nat) (s : State) (hm : Memory.wf s.mem) : NextWf (execStoreLineArrival idx s) := by
  unfold execStoreLineArrival
  split
  · split
    · split <;> simp [hm]
    · simp [hm]
  · simp [hm]

/-! ## Operations of Sys2Proof/Machine/Matrix.lean -/

@[simp] theorem State.makeRoom_wf (s : State) (ci gi : Nat) (m : MatOp) (fuel : Nat) (hm : Memory.wf s.mem) :
    Memory.wf (s.makeRoom ci gi m fuel).mem := by
  induction fuel generalizing s with
  | zero => exact hm
  | succ fuel ih =>
    unfold State.makeRoom
    dsimp only
    split
    · exact hm
    · split
      · exact hm
      · split
        · exact hm
        · exact ih _ (State.abortReplay_wf _ _ _ hm)

@[simp] theorem State.performOp_wf (s : State) (ci : Nat) (m : MatOp) (hm : Memory.wf s.mem) : Memory.wf (s.performOp ci m).mem := by
  unfold State.performOp
  split
  · exact hm
  · split
    · exact hm
    · next e =>
      obtain ⟨u, ha, hc⟩ := Option.bind_eq_some_iff.mp e
      have hr := State.makeRoom_wf _ ci m.grp m 65 (State.claim_wf hc (State.claim_wf ha hm))
      split
      · exact State.claim_wf hc (State.claim_wf ha hm)
      · dsimp only
        split
        · exact hr
        · split
          · exact hr
          · simpa using hr

@[simp] theorem State.performHead_wf (s : State) (ci : Nat) (hm : Memory.wf s.mem) : Memory.wf (s.performHead ci).mem := by
  simp +contextual [State.performHead, foldl_wf, hm]

@[simp] theorem matIssue_wf (s : State) (x : Ctx) (flag : Option Nat) (gathered gang : Bool) (mk : Nat → MatOp)
    (hm : Memory.wf s.mem) : Memory.wf (matIssue s x flag gathered gang mk).mem := by
  unfold matIssue
  dsimp only
  split <;> simp [hm]

theorem matWord_wf {s : State} {f : F3} {k : Ctx → LaneMask → Nat → State} (hm : Memory.wf s.mem)
    (hk : ∀ x act l, Memory.wf (k x act l).mem) : NextWf (matWord s f k) := by
  refine withIssuer_wf fun c g => ?_
  dsimp only
  split <;> split <;> simp [hm, hk]

@[simp] theorem multiply_wf (s : State) (f : F3) (op : Nat) (kind : MatKind) (gathered : Bool) (hm : Memory.wf s.mem) :
    NextWf (multiply s f op kind gathered) := matWord_wf hm fun _ _ _ => matIssue_wf _ _ _ _ _ _ hm

@[simp] theorem execAccz_wf (f : F3) (s : State) (hm : Memory.wf s.mem) : NextWf (execAccz f s) :=
  matWord_wf hm fun _ _ _ => matIssue_wf _ _ _ _ _ _ hm

@[simp] theorem execAccld_wf (f : F3) (s : State) (hm : Memory.wf s.mem) : NextWf (execAccld f s) :=
  matWord_wf hm fun _ _ _ => matIssue_wf _ _ _ _ _ _ hm

@[simp] theorem accStore_wf (s : State) (f : F3) (kind : MatKind) (hm : Memory.wf s.mem) : NextWf (accStore s f kind) :=
  matWord_wf hm fun _ _ _ => matIssue_wf _ _ _ _ _ _ hm

@[simp] theorem accConvert_wf (s : State) (f : F3) (kind : MatKind) (hm : Memory.wf s.mem) : NextWf (accConvert s f kind) :=
  matWord_wf hm fun _ _ _ => matIssue_wf _ _ _ _ _ _ hm

@[simp] theorem execFmtb_wf (f : F3) (s : State) (hm : Memory.wf s.mem) : NextWf (execFmtb f s) := by
  unfold execFmtb
  refine withIssuer_wf fun c g => ?_
  exact hm

@[simp] theorem execGthr_wf (f : F3) (s : State) (hm : Memory.wf s.mem) : NextWf (execGthr f s) := by
  unfold execGthr
  refine withIssuer_wf fun c g => ?_
  exact hm

@[simp] theorem execGang_wf (f : F3) (s : State) (hm : Memory.wf s.mem) : NextWf (execGang f s) := by
  unfold execGang
  dsimp only
  refine withIssuer_wf fun c g => ?_
  split <;> simp [hm]

@[simp] theorem execGangRendezvousTimeout_wf (core : Nat) (s : State) (hm : Memory.wf s.mem) :
    NextWf (execGangRendezvousTimeout core s) := by
  unfold execGangRendezvousTimeout
  dsimp only
  split <;> simp [hm]

/-! ## Operations of Sys2Proof/Machine/Multicast.lean -/

@[simp] theorem execMcst_wf (f : F1) (s : State) (hm : Memory.wf s.mem) : NextWf (execMcst f s) := by
  unfold execMcst
  dsimp only
  refine withIssuer_wf fun c g => ?_
  split
  · exact hm
  · split <;> simp [hm]

@[simp] theorem execMcput_wf (f : F1) (s : State) (hm : Memory.wf s.mem) : NextWf (execMcput f s) := by
  refine withIssuer_wf fun c g => ?_
  dsimp only
  split
  · simp [hm]
  · iterate 5
      refine wf_of_ite (by simp [hm]) ?_
    split
    · next e => simp [bulkXl_mem_wait e, hm]
    · simp [hm]
    · next e => split <;> simp [bulkXl_mem_ok e, hm]

@[simp] theorem State.sendMessage_wf (s : State) (ci commit owner : Nat) (m : McMsg) (hm : Memory.wf s.mem) :
    Memory.wf (s.sendMessage ci commit owner m).2.2.mem := by
  unfold State.sendMessage
  dsimp only
  split
  · simp [hm]
  · refine foldl_keeps_wf Prod.snd _ (fun acc p h => ?_) _ _ (by simp [hm])
    split
    · exact State.sendPacket_wf _ _ _ _ h
    · exact h

@[simp] theorem State.dropReq_mem (s : State) (reqid : Nat) : (s.dropReq reqid).mem = s.mem := by
  unfold State.dropReq
  split <;> rfl

@[simp] theorem State.leaveMessage_wf (s : State) (ci : Nat) (o : OutItem) (due : Option TokenDue) (msg : Option McMsg)
    (hm : Memory.wf s.mem) : Memory.wf (s.leaveMessage ci o due msg).mem := by
  unfold State.leaveMessage
  dsimp only
  split
  · split <;> simp [hm]
  · split
    · next e =>
        obtain rfl := thd_eq_of_eq_mk e
        simp [hm]
    · next e =>
        obtain rfl := thd_eq_of_eq_mk e
        split <;> simp [hm]

/-! ## Operations of Sys2Proof/Machine/SysRegs.lean -/

@[simp] theorem State.invalidateGroups_wf (s : State) (t : TlbInv) (hm : Memory.wf s.mem) : Memory.wf (s.invalidateGroups t).mem := by
  unfold State.invalidateGroups
  refine foldl_wf _ (fun s x hm => ?_) _ _ ?_
  · simp +contextual [hm, foldl_wf]
  · exact hm

@[simp] theorem State.tlbCtl_wf (s : State) (die : Nat) (v : DWord) (hm : Memory.wf s.mem) : Memory.wf (s.tlbCtl die v).mem := by
  simp +contextual [State.tlbCtl, foldl_wf, hm]

@[simp] theorem execTlbinvGo_wf (die : Nat) (value : DWord) (s : State) (hm : Memory.wf s.mem) : NextWf (execTlbinvGo die value s) := by
  simp [execTlbinvGo, hm]

@[simp] theorem execTlbinvDone_wf (die : Nat) (s : State) (hm : Memory.wf s.mem) : NextWf (execTlbinvDone die s) := by
  unfold execTlbinvDone
  dsimp only
  split <;> simp [hm]

@[simp] theorem State.poisonClear_wf (s : State) (v : DWord) (hm : Memory.wf s.mem) : Memory.wf (s.poisonClear v).mem := by
  simp [State.poisonClear, hm]

@[simp] theorem State.poolRegionWrite_mem (s : State) (v : DWord) : (s.poolRegionWrite v).mem = s.mem := by
  simp [State.poolRegionWrite]

@[simp] theorem State.revoke_wf (s : State) (v : DWord) (hm : Memory.wf s.mem) : Memory.wf (s.revoke v).mem := by
  simp [State.revoke, hm]

@[simp] theorem State.sysWrite_wf (s : State) (ci code : Nat) (v : DWord) (hm : Memory.wf s.mem) :
    Memory.wf (s.sysWrite ci code v).mem := by
  unfold State.sysWrite
  split
  · simp [hm]
  · split
    · simp [hm]
    · split
      · simp [hm]
      · split
        · split <;> simp [hm]
        · simp [hm]

@[simp] theorem execMcgrpRevoke_wf (value : DWord) (s : State) (hm : Memory.wf s.mem) : NextWf (execMcgrpRevoke value s) := by
  simp [execMcgrpRevoke, hm]

@[simp] theorem execPoisonClr_wf (value : DWord) (s : State) (hm : Memory.wf s.mem) : NextWf (execPoisonClr value s) := by
  simp [execPoisonClr, hm]

@[simp] theorem execPoolRegionClear_wf (value : DWord) (s : State) (hm : Memory.wf s.mem) : NextWf (execPoolRegionClear value s) := by
  simp [execPoolRegionClear, hm]

@[simp] theorem execRegisterWrite_wf (off : Nat) (value : DWord) (s : State) (hm : Memory.wf s.mem) :
    NextWf (execRegisterWrite off value s) := by
  unfold execRegisterWrite
  split <;> simp [hm]

/-! ## Operations of Sys2Proof/Machine/System.lean -/

@[simp] theorem execIllegalEncoding_wf (word : DWord) (s : State) (hm : Memory.wf s.mem) : NextWf (execIllegalEncoding word s) := by
  unfold execIllegalEncoding
  refine withIssuer_wf fun c g => ?_
  split <;> simp [hm]

@[simp] theorem execTrap_wf (f : F6) (s : State) (hm : Memory.wf s.mem) : NextWf (execTrap f s) := by
  unfold execTrap
  dsimp only
  refine withIssuer_wf fun c g => ?_
  split <;> simp [hm]

@[simp] theorem execBkpt_wf (f : F6) (s : State) (hm : Memory.wf s.mem) : NextWf (execBkpt f s) := by
  unfold execBkpt
  refine withIssuer_wf fun c g => ?_
  simp [hm]

@[simp] theorem verdictWord_wf (s : State) (f : F6) (past : Bool) (verdict : Nat → Deferred) (hm : Memory.wf s.mem) :
    NextWf (verdictWord s f past verdict) := by
  unfold verdictWord
  dsimp only
  refine withIssuer_wf fun c g => ?_
  split <;> simp [hm]

@[simp] theorem execAbortRegion_wf (f : F6) (s : State) (hm : Memory.wf s.mem) : NextWf (execAbortRegion f s) := by
  unfold execAbortRegion
  refine withIssuer_wf fun c g => ?_
  exact hm

@[simp] theorem execSrrd_wf (f : F6) (s : State) (hm : Memory.wf s.mem) : NextWf (execSrrd f s) := by
  unfold execSrrd
  refine withIssuer_wf fun c g => ?_
  simp [hm]

@[simp] theorem execSrwr_wf (f : F6) (s : State) (hm : Memory.wf s.mem) : NextWf (execSrwr f s) := by
  unfold execSrwr
  dsimp only
  refine withIssuer_wf fun c g => ?_
  split
  · simp [hm]
  · split <;> simp [hm]

@[simp] theorem execFltrdWord_wf (f : F6) (s : State) (hm : Memory.wf s.mem) : NextWf (execFltrdWord f s) := by
  unfold execFltrdWord
  dsimp only
  refine withIssuer_wf fun c g => ?_
  split <;> simp [hm]

@[simp] theorem execFltrdNext_wf (f : F6) (s : State) (hm : Memory.wf s.mem) : NextWf (execFltrdNext f s) := by
  unfold execFltrdNext
  refine withIssuer_wf fun c g => ?_
  exact hm

@[simp] theorem requestWord_wf (s : State) (f : F6) (mk : Ctx → Nat → List TokenDue → SendItem) (hm : Memory.wf s.mem) :
    NextWf (requestWord s f mk) := by
  unfold requestWord
  dsimp only
  refine withIssuer_wf fun c g => ?_
  split <;> simp [hm]

/-! ## Operations of Sys2Proof/Machine/EvGroup.lean -/

@[simp] theorem State.dropColour_wf (s : State) (ci : Nat) (ids : List Nat) (hm : Memory.wf s.mem) :
    Memory.wf (s.dropColour ci ids).mem := by
  unfold State.dropColour
  refine foldl_wf _ (fun s x hm => ?_) _ _ ?_
  · simp [hm]
  · exact hm

@[simp] theorem State.freeColours_wf (s : State) (num : Nat) (ids : List Nat) (hm : Memory.wf s.mem) :
    Memory.wf (s.freeColours num ids).mem := by
  unfold State.freeColours
  split
  · exact hm
  · simp +contextual [hm, foldl_wf]

@[simp] theorem State.bindSlot_mem (s : State) (ci slot bid : Nat) : (s.bindSlot ci slot bid).mem = s.mem := by rfl

@[simp] theorem State.applyDeferred_wf (s : State) (ci : Nat) (g : Group) (d : Deferred) (hm : Memory.wf s.mem) :
    Memory.wf (s.applyDeferred ci g d).mem := by
  unfold State.applyDeferred
  split
  · split <;> simp [hm]
  · exact hm
  · exact hm
  · exact hm
  · exact hm
  · exact hm
  · exact hm
  · simp [hm]
  · simp [hm]
  · exact hm
  · exact hm

@[simp] theorem State.commitPass_wf (s : State) (ci gi num : Nat) (g : Group) (hm : Memory.wf s.mem) :
    Memory.wf (s.commitPass ci gi num g).mem := by
  simp +contextual [State.commitPass, foldl_wf, hm]

@[simp] theorem State.commitFree_mem (s : State) (ci : Nat) (g : Group) : (s.commitFree ci g).mem = s.mem := by rfl

@[simp] theorem State.commitSend_wf (s : State) (ci gi num : Nat) (g : Group) (hm : Memory.wf s.mem) :
    Memory.wf (s.commitSend ci gi num g).mem := by
  simp [State.commitSend, hm]

@[simp] theorem State.releaseSlots_mem (s : State) (ci : Nat) : (s.releaseSlots ci).mem = s.mem := by
  simp [State.releaseSlots, foldl_mem]

@[simp] theorem State.sweepCommits_mem (s : State) (ci : Nat) : (s.sweepCommits ci).mem = s.mem := by rfl

@[simp] theorem State.commitGroup_wf (s : State) (ci gi : Nat) (g : Group) (hm : Memory.wf s.mem) : Memory.wf (s.commitGroup ci gi g).mem := by
  have hs := State.commitSend_wf ((s.commitPass ci gi (s.core ci).nextNum g).commitFree ci g) ci gi (s.core ci).nextNum g (by simp [hm])
  unfold State.commitGroup
  dsimp only
  rw [State.sweepCommits_mem]
  split <;> simp [hs]

@[simp] theorem execBlockCommit_wf (core grp : Nat) (s : State) (hm : Memory.wf s.mem) : NextWf (execBlockCommit core grp s) := by
  unfold execBlockCommit
  split
  · simp [hm]
  · split
    · simp [hm]
    · split
      · simp [hm]
      · split <;> simp [hm]

@[simp] theorem State.takeOut_mem (s : State) (ci idx : Nat) : (s.takeOut ci idx).mem = s.mem := by rfl

@[simp] theorem State.sendCmd_mem (s : State) (w : Nat) (v : Word) : (s.sendCmd w v).mem = s.mem := by
  unfold State.sendCmd
  split <;> rfl

@[simp] theorem State.quenchCore_mem (s : State) (ci : Nat) : (s.quenchCore ci).mem = s.mem := by rfl

@[simp] theorem State.quenchRegion_mem (s : State) (num : Nat) : (s.quenchRegion num).mem = s.mem := by
  unfold State.quenchRegion
  split
  · rfl
  · simp [foldl_mem]

@[simp] theorem State.runFlush_mem (s : State) (ci idx : Nat) (o : OutItem) (lines : List Nat) (epoch : Nat) :
    (s.runFlush ci idx o lines epoch).mem = s.mem := by
  unfold State.runFlush
  dsimp only
  split
  all_goals
    simp only [State.modCore_mem, State.takeOut_mem]
    refine foldl_keeps_mem Prod.fst _ (fun a ln => ?_) _ _
    split
    · split
      · next e => exact State.flushLine_mem e
      · rfl
    · rfl

@[simp] theorem State.runRemote_wf (s : State) (ci idx : Nat) (o : OutItem) (k : RemKind) (fn : BitVec 4) (size word : Nat)
    (rel : Option Scope) (parts : List (Option TokenDue × List RemLane)) (hm : Memory.wf s.mem) :
    Memory.wf (s.runRemote ci idx o k fn size word rel parts).mem := by
  simp [State.runRemote, hm]

@[simp] theorem State.runSpw_mem (s : State) (ci idx : Nat) (o : OutItem) (span : Nat) (rel : Option Scope) (words : List Word) :
    (s.runSpw ci idx o span rel words).mem = s.mem := by
  unfold State.runSpw
  split <;> simp

@[simp] theorem State.runRequest_wf (s : State) (ci idx : Nat) (o : OutItem) (hm : Memory.wf s.mem) :
    Memory.wf (s.runRequest ci idx o).mem := by
  unfold State.runRequest
  dsimp only
  split
  · simp [hm]
  · simp [hm]
  · simp [hm]
  · simp [hm]
  · simp [hm, foldl_mem]
  · split
    · exact hm
    · split <;> simp [hm]
  · exact hm
  · exact hm
  · exact hm
  · split
    · exact hm
    · split <;> simp [hm]
  · exact hm
  · exact hm
  · exact hm
  · exact hm
  · exact hm
  · exact hm

@[simp] theorem State.runToken_wf (s : State) (ci idx : Nat) (o : OutItem) (t : Token) (frame : Option Nat)
    (hm : Memory.wf s.mem) : Memory.wf (s.runToken ci idx o t frame).mem := by
  unfold State.runToken
  split <;> simp [hm]

@[simp] theorem execDelayedTokenRelease_wf (core idx : Nat) (s : State) (hm : Memory.wf s.mem) :
    NextWf (execDelayedTokenRelease core idx s) := by
  unfold execDelayedTokenRelease
  split
  · simp [hm]
  · split <;> simp [hm]

@[simp] theorem execBarrierArrival_wf (core idx : Nat) (s : State) (hm : Memory.wf s.mem) : NextWf (execBarrierArrival core idx s) := by
  unfold execBarrierArrival
  dsimp only
  split
  · simp [hm]
  · split
    · split
      · simp [hm]
      · simp +contextual [hm, foldl_wf]
    · split <;> simp [hm]

@[simp] theorem State.serveOp_wf (s : State) (ci gi : Nat) (o : LongOp) (hm : Memory.wf s.mem) : Memory.wf (s.serveOp ci gi o).mem := by
  unfold State.serveOp
  split
  · exact hm
  · split <;> simp [hm]

@[simp] theorem State.closeOp_wf (s : State) (ci num : Nat) (hm : Memory.wf s.mem) : Memory.wf (s.closeOp ci num).mem := by
  simp [State.closeOp, hm]

@[simp] theorem execLongLatencyCompletion_wf (core grp idx : Nat) (s : State) (hm : Memory.wf s.mem) :
    NextWf (execLongLatencyCompletion core grp idx s) := by
  unfold execLongLatencyCompletion
  dsimp only
  split
  · split <;> simp [hm]
  · split
    · simp [hm]
    · split
      · simp [hm]
      · split <;> simp [hm]

@[simp] theorem State.mismatch_wf (s : State) (ci gi n : Nat) (hm : Memory.wf s.mem) : Memory.wf (s.mismatch ci gi n).mem := by
  simp [State.mismatch, hm]

@[simp] theorem execSpeculativeRenewalReply_wf (core idx : Nat) (s : State) (hm : Memory.wf s.mem) :
    NextWf (execSpeculativeRenewalReply core idx s) := by
  unfold execSpeculativeRenewalReply
  split
  · simp [hm]
  · split
    · simp [hm]
    · split
      · simp [hm]
      · simp +contextual [hm, foldl_wf]

@[simp] theorem execPassOverPromotion_wf (core grp : Nat) (s : State) (hm : Memory.wf s.mem) :
    NextWf (execPassOverPromotion core grp s) := by
  unfold execPassOverPromotion
  split <;> simp [hm]

@[simp] theorem execClockGate_wf (core : Nat) (s : State) (hm : Memory.wf s.mem) : NextWf (execClockGate core s) := by
  unfold execClockGate
  split <;> simp [hm]

@[simp] theorem execCoreWake_wf (core : Nat) (s : State) (hm : Memory.wf s.mem) : NextWf (execCoreWake core s) := by
  unfold execCoreWake
  dsimp only
  split <;> simp [hm]

@[simp] theorem execDeadlineWakeTimer_wf (core : Nat) (s : State) (hm : Memory.wf s.mem) : NextWf (execDeadlineWakeTimer core s) := by
  unfold execDeadlineWakeTimer
  dsimp only
  split <;> simp [hm]

@[simp] theorem execRestartEnd_wf (core : Nat) (s : State) (hm : Memory.wf s.mem) : NextWf (execRestartEnd core s) := by
  unfold execRestartEnd
  split <;> simp [hm]

@[simp] theorem execBlockFetchComplete_wf (core slot : Nat) (s : State) (hm : Memory.wf s.mem) :
    NextWf (execBlockFetchComplete core slot s) := by
  unfold execBlockFetchComplete
  dsimp only
  split
  · simp [hm]
  · simp +contextual [hm, foldl_wf]

/-! ## Operations of Sys2Proof/Machine/EvCourier.lean -/

@[simp] theorem readSource_mem (s : State) (ci : Nat) (k : CopyCmd) : (readSource s ci k).2.2.mem = s.mem := by
  refine foldl_keeps_mem (β := _ × _ × State) (fun acc => acc.2.2) _ (fun acc i => ?_) _ _
  split
  · split
    · rfl
    · split <;> next e => obtain rfl := thd_eq_of_eq_mk e; simp
  · rfl

@[simp] theorem State.payDues_mem (s : State) (ci : Nat) (k : CopyCmd) (payload : List Word) : (s.payDues ci k payload).mem = s.mem := by
  simp [State.payDues]

@[simp] theorem State.endBulk_mem (s : State) (ci : Nat) (k : CopyCmd) (status cause offset : Nat) :
    (s.endBulk ci k status cause offset).mem = s.mem := by
  simp [State.endBulk]

@[simp] theorem peerAt_mem (s : State) (ci : Nat) (k : CopyCmd) (write : Bool) : (peerAt s ci k write).2.mem = s.mem := by
  unfold peerAt
  split
  · rfl
  · split <;> next e => obtain rfl := snd_eq_of_eq_mk e; simp

@[simp] theorem State.sendPart_wf (s : State) (ci : Nat) (k : CopyCmd) (kind : RemKind) (dev tasid tva n : Nat)
    (body : Nat → Nat → PktBody) (hm : Memory.wf s.mem) : Memory.wf (s.sendPart ci k kind dev tasid tva n body).mem := by
  simp +contextual [State.sendPart, foldl_wf, hm]

@[simp] theorem State.sendBulk_wf (s : State) (ci : Nat) (k : CopyCmd) (kind : RemKind) (n : Nat) (body : Nat → Nat → Nat → PktBody)
    (hm : Memory.wf s.mem) : Memory.wf (s.sendBulk ci k kind n body).mem := by
  unfold State.sendBulk
  split <;> next e => obtain rfl := snd_eq_of_eq_mk e; simp [hm]

@[simp] theorem State.putPart_wf (s : State) (ci : Nat) (k : CopyCmd) (hm : Memory.wf s.mem) : Memory.wf (s.putPart ci k).mem := by
  simp [State.putPart, hm]

@[simp] theorem State.startPut_wf (s : State) (ci : Nat) (k : CopyCmd) (hm : Memory.wf s.mem) : Memory.wf (s.startPut ci k).mem := by
  unfold State.startPut
  split <;> next e => obtain rfl := thd_eq_of_eq_mk e; simp [hm]

@[simp] theorem State.startMcput_wf (s : State) (ci : Nat) (k : CopyCmd) (hm : Memory.wf s.mem) : Memory.wf (s.startMcput ci k).mem := by
  unfold State.startMcput
  dsimp only
  split
  · next e =>
      obtain rfl := thd_eq_of_eq_mk e
      simp [hm]
  · next e =>
      obtain rfl := thd_eq_of_eq_mk e
      simp [hm]
  · next e =>
      obtain rfl := thd_eq_of_eq_mk e
      split <;> next e => obtain rfl := thd_eq_of_eq_mk e; simp [hm]

@[simp] theorem State.ownAhead_mem (s : State) (ci : Nat) (k : CopyCmd) : (s.ownAhead ci k).mem = s.mem := by
  unfold State.ownAhead
  split
  · refine foldl_keeps_mem Prod.snd _ (fun a u => ?_) _ _
    split
    · rfl
    · split
      · split <;> simp
      · rfl
  · rfl

@[simp] theorem State.getPart_wf (s : State) (ci : Nat) (k : CopyCmd) (hm : Memory.wf s.mem) : Memory.wf (s.getPart ci k).mem := by
  simp [State.getPart, hm]

@[simp] theorem State.startGet_wf (s : State) (ci : Nat) (k : CopyCmd) (hm : Memory.wf s.mem) : Memory.wf (s.startGet ci k).mem := by
  simp [State.startGet, hm]

@[simp] theorem execCourierCommandStart_wf (core : Nat) (s : State) (hm : Memory.wf s.mem) : NextWf (execCourierCommandStart core s) := by
  unfold execCourierCommandStart
  dsimp only
  split
  · simp [hm]
  · split
    · simp [hm]
    · split <;> simp [hm]

@[simp] theorem State.finishPut_wf (s : State) (ci : Nat) (k : CopyCmd) (written : Nat) (st ca : Byte)
    (hm : Memory.wf s.mem) : Memory.wf (s.finishPut ci k written st ca).mem := by
  simp [State.finishPut, hm]

@[simp] theorem State.runPut_wf (s : State) (ci : Nat) (k : CopyCmd) (hm : Memory.wf s.mem) : Memory.wf (s.runPut ci k).mem := by
  unfold State.runPut
  split
  · simp [hm]
  · split
    · exact hm
    · split <;> simp [hm]

@[simp] theorem State.nextGet_wf (s : State) (ci : Nat) (k : CopyCmd) (hm : Memory.wf s.mem) : Memory.wf (s.nextGet ci k).mem := by
  simp [State.nextGet, hm]

@[simp] theorem State.writeGet_wf (s : State) (ci : Nat) (k : CopyCmd) (hm : Memory.wf s.mem) : Memory.wf (s.writeGet ci k).mem := by
  unfold State.writeGet
  dsimp only
  generalize (if k.sent = true then _ else none : Option (Byte × Byte × DWord)) = ended
  have hl (p : CopyCmd) := copyLines_wf (s.ownAhead ci k) ci p p.order (by simpa using hm)
  split
  · obtain rfl := thd_eq_of_eq_mk ‹copyLines _ _ _ _ = _›; simp [hl]
  · obtain rfl := thd_eq_of_eq_mk ‹copyLines _ _ _ _ = _›; split <;> simp [hl]
  · obtain rfl := thd_eq_of_eq_mk ‹copyLines _ _ _ _ = _›; simp [hl]

@[simp] theorem State.runGet_wf (s : State) (ci : Nat) (k : CopyCmd) (hm : Memory.wf s.mem) : Memory.wf (s.runGet ci k).mem := by
  unfold State.runGet
  dsimp only
  split <;> simp [hm]

@[simp] theorem execCourierCommandComplete_wf (core idx : Nat) (s : State) (hm : Memory.wf s.mem) :
    NextWf (execCourierCommandComplete core idx s) := by
  unfold execCourierCommandComplete
  split
  · simp [hm]
  · split
    · simp [hm]
    · split <;> simp [hm]

@[simp] theorem execCourierRecall_wf (core line : Nat) (s : State) (hm : Memory.wf s.mem) : NextWf (execCourierRecall core line s) := by
  unfold execCourierRecall
  dsimp only
  split
  · simp [hm]
  · split
    · simp [hm]
    · split <;> next e => obtain rfl := thd_eq_of_eq_mk e; simp [hm]

/-! ## Operations of Sys2Proof/Machine/EvLink.lean -/

@[simp] theorem State.setSwitch_mem (s : State) (x : Switch) : (s.setSwitch x).mem = s.mem := by
  simp [State.setSwitch]

@[simp] theorem State.modSwitch_mem (s : State) (n : Nat) (f : Switch → Switch) : (s.modSwitch n f).mem = s.mem := by
  simp [State.modSwitch]

@[simp] theorem State.takeFlight_mem (s : State) (p : Packet) : (s.takeFlight p).mem = s.mem := by
  simp [State.takeFlight]

@[simp] theorem State.emit_wf (s : State) (p : Packet) (hm : Memory.wf s.mem) : Memory.wf (s.emit p).mem := by
  unfold State.emit
  split
  · exact hm
  · split <;> simp [hm]

@[simp] theorem State.giveReceipt_mem (s : State) (reqid : Nat) (words : List Word) : (s.giveReceipt reqid words).mem = s.mem := by
  unfold State.giveReceipt
  dsimp only
  split
  · rfl
  · split <;> split <;> simp

@[simp] theorem State.failReq_wf (s : State) (reqid status cause : Nat) (hm : Memory.wf s.mem) :
    Memory.wf (s.failReq reqid status cause).mem := by
  unfold State.failReq
  split
  · exact hm
  · split <;> simp [hm]

@[simp] theorem State.takeNotice_wf (s : State) (reqid : Nat) (record : List DWord) (hm : Memory.wf s.mem) :
    Memory.wf (s.takeNotice reqid record).mem := by
  unfold State.takeNotice
  dsimp only
  split
  · refine foldl_wf _ (fun s x hm => ?_) _ _ ?_
    · simp [hm]
    · split <;> simp [hm]
  · split <;> simp [hm]

@[simp] theorem State.dropPacket_wf (s : State) (src stamp cause kind place : Nat) (p : Packet) (hm : Memory.wf s.mem) :
    Memory.wf (s.dropPacket src stamp cause kind place p).mem := by
  simp +contextual [State.dropPacket, foldl_wf, hm]

@[simp] theorem State.dropAtSwitch_mem (s : State) (sw port cause : Nat) (p : Packet) : (s.dropAtSwitch sw port cause p).mem = s.mem := by
  simp [State.dropAtSwitch]

@[simp] theorem execDeadLetterNotice_wf (pkt : Packet) (s : State) (hm : Memory.wf s.mem) : NextWf (execDeadLetterNotice pkt s) := by
  unfold execDeadLetterNotice
  split <;> simp [hm]

@[simp] theorem State.dropAtTile_wf (s : State) (tile : Nat) (p : Packet) (hm : Memory.wf s.mem) : Memory.wf (s.dropAtTile tile p).mem := by
  simp [State.dropAtTile, hm]

@[simp] theorem State.tokenIn_wf (s : State) (port : Nat) (p : Packet) (t : Token) (hm : Memory.wf s.mem) :
    Memory.wf (s.tokenIn port p t).mem := by
  unfold State.tokenIn
  split
  · exact hm
  · split <;> simp [hm]

@[simp] theorem State.acceptPacket_wf (s : State) (port : Nat) (p : Packet) (hm : Memory.wf s.mem) :
    Memory.wf (s.acceptPacket port p).mem := by
  unfold State.acceptPacket
  split <;> simp [hm]

@[simp] theorem State.atDevPort_wf (s : State) (port : Nat) (p : Packet) (hm : Memory.wf s.mem) : Memory.wf (s.atDevPort port p).mem := by
  simp [State.atDevPort, hm]

@[simp] theorem State.atSwPort_mem (s : State) (sw port : Nat) (p : Packet) : (s.atSwPort sw port p).mem = s.mem := by
  unfold State.atSwPort
  split <;> simp

@[simp] theorem State.atGuard_wf (s : State) (tile : Nat) (edge : Bool) (p : Packet) (hm : Memory.wf s.mem) :
    Memory.wf (s.atGuard tile edge p).mem := by
  simp [State.atGuard, hm]

@[simp] theorem execLinkPacketArrival_wf (place : Place) (pkt : Packet) (s : State) (hm : Memory.wf s.mem) :
    NextWf (execLinkPacketArrival place pkt s) := by
  unfold execLinkPacketArrival
  split
  · simp [hm]
  · split <;> simp [hm]

@[simp] theorem State.ingressXl_mem (s : State) (die num asid va : Nat) (write : Bool) :
    (s.ingressXl die num asid va write).2.mem = s.mem := by
  unfold State.ingressXl
  dsimp only
  split
  · rfl
  · split
    · rfl
    · split <;> rfl

@[simp] theorem State.ingressRecord_wf (s : State) (die asid cause level va : Nat) (hm : Memory.wf s.mem) :
    Memory.wf (s.ingressRecord die asid cause level va).mem := by
  simp [State.ingressRecord, hm]

@[simp] theorem State.answer_wf (s : State) (p : Packet) (status cause offset : Nat) (data : List Word)
    (hm : Memory.wf s.mem) : Memory.wf (s.answer p status cause offset data).mem := by
  unfold State.answer
  split
  · simp [hm]
  · simp [hm]
  · simp +contextual [hm, foldl_wf]
  · simp [hm]

@[simp] theorem State.dropIngress_mem (s : State) (die idx : Nat) : (s.dropIngress die idx).mem = s.mem := by rfl

@[simp] theorem State.setIngress_mem (s : State) (die idx : Nat) (r : IngressReq) : (s.setIngress die idx r).mem = s.mem := by rfl

@[simp] theorem State.dropWaits_mem (s : State) (die num : Nat) : (s.dropWaits die num).mem = s.mem := by rfl

@[simp] theorem State.endIngress_wf (s : State) (die idx : Nat) (r : IngressReq) (status cause : Nat) (hm : Memory.wf s.mem) :
    Memory.wf (s.endIngress die idx r status cause).mem := by
  simp [State.endIngress, hm]

@[simp] theorem execIngressTranslation_wf (die idx : Nat) (s : State) (hm : Memory.wf s.mem) :
    NextWf (execIngressTranslation die idx s) := by
  unfold execIngressTranslation
  dsimp only
  split
  · simp [hm]
  · split
    · simp [hm]
    · split <;> next e => obtain rfl := snd_eq_of_eq_mk e; simp [hm]

@[simp] theorem State.readAtOwner_mem (s : State) (die num pa cache n : Nat) : (s.readAtOwner die num pa cache n).2.mem = s.mem := by
  unfold State.readAtOwner
  dsimp only
  split
  · rfl
  · split
    · rfl
    · split <;> next e => obtain rfl := snd_eq_of_eq_mk e; simp

@[simp] theorem State.writeAtOwner_wf (s : State) (die num cache : Nat) (l : SbLine) (hm : Memory.wf s.mem) :
    Memory.wf (s.writeAtOwner die num cache l).2.mem := by
  unfold State.writeAtOwner
  dsimp only
  split
  · simp [hm]
  · split
    · exact hm
    · split <;> next e => obtain rfl := snd_eq_of_eq_mk e; simp [hm]

@[simp] theorem State.notifyIn_wf (s : State) (port asid : Nat) (t : Token) (p : Packet) (hm : Memory.wf s.mem) :
    Memory.wf (s.notifyIn port asid t p).2.mem := by
  unfold State.notifyIn
  dsimp only
  split
  · exact hm
  · simp [hm]
  · split
    · simp [hm]
    · split
      · split <;> simp [hm]
      · split
        · simp [hm]
        · split <;> simp [hm]

@[simp] theorem State.endPut_wf (s : State) (die idx : Nat) (r : IngressReq) (notify : Option (Notify × Nat))
    (hm : Memory.wf s.mem) : Memory.wf (s.endPut die idx r notify).mem := by
  unfold State.endPut
  split
  · simp [hm]
  · split <;> next e => obtain rfl := snd_eq_of_eq_mk e; simp [hm]

@[simp] theorem State.logAdds_mem (s : State) (die : Nat) (cons : List Constituent) : (s.logAdds die cons).mem = s.mem := by rfl

@[simp] theorem State.serveRemote_wf (s : State) (die idx : Nat) (r : IngressReq) (hm : Memory.wf s.mem) :
    Memory.wf (s.serveRemote die idx r).mem := by
  unfold State.serveRemote
  dsimp only
  split
  · split
    · exact hm
    · split <;> next e => obtain rfl := snd_eq_of_eq_mk e; simp [hm]
  · split <;> next e => obtain rfl := snd_eq_of_eq_mk e; simp [hm]
  · split <;> next e => obtain rfl := snd_eq_of_eq_mk e; simp [hm]
  · split
    · exact hm
    · split <;> next e => obtain rfl := snd_eq_of_eq_mk e; simp [hm]
  · split
    · simp [hm]
    · split
      · exact hm
      · split <;> next e => obtain rfl := snd_eq_of_eq_mk e; simp [hm]
  · exact hm

@[simp] theorem execRemoteRequestAtTarget_wf (die idx : Nat) (s : State) (hm : Memory.wf s.mem) :
    NextWf (execRemoteRequestAtTarget die idx s) := by
  unfold execRemoteRequestAtTarget
  split
  · simp [hm]
  · split <;> simp [hm]

@[simp] theorem State.modReq_mem (s : State) (reqid : Nat) (f : Request → Request) : (s.modReq reqid f).mem = s.mem := by rfl

@[simp] theorem State.takeReply_wf (s : State) (p : Packet) (hm : Memory.wf s.mem) : Memory.wf (s.takeReply p).mem := by
  unfold State.takeReply
  split
  · exact hm
  · split
    · simp [hm]
    · split
      · simp +contextual [hm, foldl_wf]
      · split
        · simp [hm]
        · simp [hm]
        · simp +contextual [hm, foldl_wf]
        · exact hm

@[simp] theorem execRemoteReply_wf (pkt : Packet) (s : State) (hm : Memory.wf s.mem) : NextWf (execRemoteReply pkt s) := by
  unfold execRemoteReply
  split
  · split
    · simp [hm]
    · split <;> simp [hm]
  · simp [hm]

@[simp] theorem execRemoteTimeout_wf (reqid : Nat) (s : State) (hm : Memory.wf s.mem) : NextWf (execRemoteTimeout reqid s) := by
  unfold execRemoteTimeout
  split <;> simp [hm]

@[simp] theorem execWriteCombineDrain_wf (core idx : Nat) (s : State) (hm : Memory.wf s.mem) :
    NextWf (execWriteCombineDrain core idx s) := by
  unfold execWriteCombineDrain
  split <;> simp [hm]

@[simp] theorem State.spanForward_mem (s : State) (i adder : Nat) (w : Word) : (s.spanForward i adder w).mem = s.mem := by
  unfold State.spanForward
  split <;> simp

@[simp] theorem execSpanWordArrival_wf (span : Nat) (s : State) (hm : Memory.wf s.mem) : NextWf (execSpanWordArrival span s) := by
  unfold execSpanWordArrival
  split
  · simp [hm]
  · split
    · simp [hm]
    · split <;> simp [hm]

@[simp] theorem execSpanCreditReturn_wf (span : Nat) (s : State) (hm : Memory.wf s.mem) : NextWf (execSpanCreditReturn span s) := by
  unfold execSpanCreditReturn
  split
  · simp [hm]
  · split
    · simp [hm]
    · dsimp only
      split
      · simp [hm]
      · split
        · simp [hm]
        · next e => simp [landBytes_wf e hm]

@[simp] theorem execPierAdderSum_wf (span adder : Nat) (s : State) (hm : Memory.wf s.mem) : NextWf (execPierAdderSum span adder s) := by
  unfold execPierAdderSum
  split
  · simp [hm]
  · split
    · split
      · simp [hm]
      · split
        · simp [hm]
        · split
          · simp [hm]
          · split <;> simp [hm]
    · simp [hm]

@[simp] theorem State.breakSpan_wf (s : State) (link i : Nat) (hm : Memory.wf s.mem) : Memory.wf (s.breakSpan link i).mem := by
  unfold State.breakSpan
  dsimp only
  split
  · exact hm
  · split
    · exact hm
    · split <;> simp [hm]

@[simp] theorem execLinkFailure_wf (link : Nat) (s : State) (hm : Memory.wf s.mem) : NextWf (execLinkFailure link s) := by
  refine (nextWf_next _).mpr (foldl_wf _ (fun s i hm => State.breakSpan_wf s link i hm) _ _ ?_)
  exact foldl_wf _ (fun s r hm => State.failReq_wf s _ _ _ hm) _ s hm

@[simp] theorem execHeartbeat_wf (sw dev : Nat) (s : State) (hm : Memory.wf s.mem) : NextWf (execHeartbeat sw dev s) := by
  simp [execHeartbeat, hm]

@[simp] theorem execHeartbeatTimeout_wf (sw dev : Nat) (s : State) (hm : Memory.wf s.mem) : NextWf (execHeartbeatTimeout sw dev s) := by
  unfold execHeartbeatTimeout
  dsimp only
  split
  · simp [hm]
  · split <;> simp [hm]

@[simp] theorem State.toRegions_wf (s : State) (src die : Nat) (cls : Cls) (tail : List DWord) (hm : Memory.wf s.mem) :
    Memory.wf (s.toRegions src die cls tail).mem := by
  simp +contextual [State.toRegions, foldl_wf, hm]

@[simp] theorem State.scrub_mem (s : State) (dev : Nat) : (s.scrub dev).mem = s.mem := by rfl

@[simp] theorem execDeathNotice_wf (dev : Nat) (s : State) (hm : Memory.wf s.mem) : NextWf (execDeathNotice dev s) := by
  unfold execDeathNotice
  split
  · simp [hm]
  · simp only [nextWf_next, State.scrub_mem]
    exact State.toRegions_wf _ _ _ _ _ (foldl_wf _ (fun s r hm => State.failReq_wf s _ _ _ hm) _ _ hm)

@[simp] theorem execDeclaredDead_wf (inc : Byte) (s : State) (hm : Memory.wf s.mem) : NextWf (execDeclaredDead inc s) := by
  unfold execDeclaredDead
  split <;> simp [hm]

@[simp] theorem execIncarnationExchange_wf (own : Byte) (peers : List (Nat × Byte)) (s : State) (hm : Memory.wf s.mem) :
    NextWf (execIncarnationExchange own peers s) := by
  unfold execIncarnationExchange
  split <;> simp [hm]

@[simp] theorem execMembershipTableProgram_wf (place : Place) (keys : List (BitVec 16)) (s : State) (hm : Memory.wf s.mem) :
    NextWf (execMembershipTableProgram place keys s) := by
  unfold execMembershipTableProgram
  split <;> simp [hm]

@[simp] theorem State.failQueued_wf (s : State) (q : SliceReq) (hm : Memory.wf s.mem) : Memory.wf (s.failQueued q).mem := by
  unfold State.failQueued
  split <;> simp [hm]

@[simp] theorem State.dropLost_wf (s : State) (k : Nat) (hm : Memory.wf s.mem) : Memory.wf (s.dropLost k).mem := by
  simp +contextual [State.dropLost, foldl_wf, hm]

@[simp] theorem execPoolLinkFailure_wf (die : Nat) (s : State) (hm : Memory.wf s.mem) : NextWf (execPoolLinkFailure die s) := by
  refine (nextWf_next _).mpr (State.toRegions_wf _ _ _ _ _ (foldl_wf _ (fun s k hm => State.dropLost_wf s k hm) _ _ ?_))
  exact foldl_wf _ (fun s (x : Nat × List Byte) hm => State.pokeBytes_wf s _ _ hm) _ _ hm

@[simp] theorem execPoolLinkRetrain_wf (die : Nat) (s : State) (hm : Memory.wf s.mem) : NextWf (execPoolLinkRetrain die s) := by
  simp [execPoolLinkRetrain, hm]

/-! ## Operations of Sys2Proof/Machine/EvCombine.lean -/

@[simp] theorem execCombiningMerge_wf (sw port : Nat) (pkt : Packet) (s : State) (hm : Memory.wf s.mem) :
    NextWf (execCombiningMerge sw port pkt s) := by
  unfold execCombiningMerge
  dsimp only
  split
  · split
    · simp [hm]
    · split
      · simp [hm]
      · split
        · simp [hm]
        · split <;> simp [hm]
  · simp [hm]

@[simp] theorem execCombiningWindowExpiry_wf (sw idx : Nat) (s : State) (hm : Memory.wf s.mem) :
    NextWf (execCombiningWindowExpiry sw idx s) := by
  unfold execCombiningWindowExpiry
  dsimp only
  split <;> simp [hm]

@[simp] theorem execDecombineReply_wf (sw : Nat) (pkt : Packet) (s : State) (hm : Memory.wf s.mem) :
    NextWf (execDecombineReply sw pkt s) := by
  unfold execDecombineReply
  dsimp only
  split
  · split <;> simp [hm]
  · simp [hm]

@[simp] theorem execRecordError_wf (sw idx : Nat) (s : State) (hm : Memory.wf s.mem) : NextWf (execRecordError sw idx s) := by
  simp [execRecordError, hm]

@[simp] theorem execSwitchReset_wf (sw : Nat) (s : State) (hm : Memory.wf s.mem) : NextWf (execSwitchReset sw s) := by
  simp [execSwitchReset, hm]

@[simp] theorem execCombiningControlProgram_wf (sw : Nat) (cen : Bool) (cwin : BitVec 10) (s : State) (hm : Memory.wf s.mem) :
    NextWf (execCombiningControlProgram sw cen cwin s) := by
  simp [execCombiningControlProgram, hm]

@[simp] theorem execCfaaQuery_wf (reqid : Nat) (s : State) (hm : Memory.wf s.mem) : NextWf (execCfaaQuery reqid s) := by
  unfold execCfaaQuery
  dsimp only
  split
  · simp [hm]
  · split
    · simp [hm]
    · split <;> simp [hm]

@[simp] theorem execReplyLogQuery_wf (die : Nat) (pkt : Packet) (s : State) (hm : Memory.wf s.mem) :
    NextWf (execReplyLogQuery die pkt s) := by
  unfold execReplyLogQuery
  dsimp only
  split
  · split
    · split <;> simp [hm]
    · simp [hm]
  · simp [hm]

@[simp] theorem execReplyLogAging_wf (die : Nat) (s : State) (hm : Memory.wf s.mem) : NextWf (execReplyLogAging die s) := by
  simp [execReplyLogAging, hm]

/-! ## Operations of Sys2Proof/Machine/EvConfig.lean -/

@[simp] theorem State.acknowledge_wf (s : State) (tile : Nat) (t : CfgStream) (status : Nat) (hm : Memory.wf s.mem) :
    Memory.wf (s.acknowledge tile t status).mem := by
  simp [State.acknowledge, hm]

@[simp] theorem State.armCore_mem (s : State) (ci : Nat) (cfg : CoreCfg) : (s.armCore ci cfg).mem = s.mem := by rfl

theorem withCmd_wf {s : State} {tile : Nat} {k : CmdKind} {f : State → Core → CfgStream → Word → State} (hm : Memory.wf s.mem)
    (hf : ∀ s c t w, Memory.wf s.mem → Memory.wf (f s c t w).mem) : NextWf (withCmd s tile k f) := by
  unfold withCmd
  dsimp only
  split
  · simp [hm]
  · split <;> simp [hm, hf]

@[simp] theorem execBeginStream_wf (tile : Nat) (s : State) (hm : Memory.wf s.mem) : NextWf (execBeginStream tile s) :=
  withCmd_wf hm fun s c t w hm => by simp [hm]

@[simp] theorem execConfigFieldWrite_wf (tile : Nat) (s : State) (hm : Memory.wf s.mem) : NextWf (execConfigFieldWrite tile s) :=
  withCmd_wf hm fun s c t w hm => by simp [hm]

@[simp] theorem execCrcEnd_wf (tile : Nat) (s : State) (hm : Memory.wf s.mem) : NextWf (execCrcEnd tile s) :=
  withCmd_wf hm fun s c t w hm => by simp [hm]

theorem controlCmd_wf {s : State} {tile : Nat} {k : CmdKind} {act : State → CoreCfg → CfgStream → State} (hm : Memory.wf s.mem)
    (ha : ∀ s c t, Memory.wf s.mem → Memory.wf (act s c t).mem) : NextWf (controlCmd s tile k act) :=
  withCmd_wf hm fun s c t w hm => by simp [hm, ha]

@[simp] theorem execCommitStream_wf (tile : Nat) (s : State) (hm : Memory.wf s.mem) : NextWf (execCommitStream tile s) :=
  controlCmd_wf hm fun s c t hm => by simp [hm]

@[simp] theorem execRollbackStream_wf (tile : Nat) (s : State) (hm : Memory.wf s.mem) : NextWf (execRollbackStream tile s) :=
  controlCmd_wf hm fun s c t hm => by simp [hm]

@[simp] theorem State.leaveLoose_mem (s : State) (tile : Nat) : (s.leaveLoose tile).mem = s.mem := by
  unfold State.leaveLoose
  split <;> simp

@[simp] theorem State.joinLoose_mem (s : State) (tile : Nat) : (s.joinLoose tile).mem = s.mem := by
  simp [State.joinLoose]

@[simp] theorem execArmTile_wf (tile : Nat) (s : State) (hm : Memory.wf s.mem) : NextWf (execArmTile tile s) := by
  unfold execArmTile
  split
  · simp [hm]
  · exact controlCmd_wf hm fun s c t hm => by split <;> simp [hm]

/-! ## Operations of Sys2Proof/Machine/EvMcast.lean -/

@[simp] theorem execMulticastStamp_wf (sw : Nat) (pkt : Packet) (s : State) (hm : Memory.wf s.mem) :
    NextWf (execMulticastStamp sw pkt s) := by
  unfold execMulticastStamp
  dsimp only
  split
  · split
    · split
      · simp [hm]
      · split
        · simp [hm, foldl_mem]
        · split <;> simp [hm]
    · split
      · simp [hm]
      · split <;> simp [hm]
  · simp [hm]

@[simp] theorem execReplicationTreeProgram_wf (sw group : Nat) (next : Word) (members : List TreeMember) (s : State)
    (hm : Memory.wf s.mem) : NextWf (execReplicationTreeProgram sw group next members s) := by
  simp [execReplicationTreeProgram, hm]

@[simp] theorem State.mcAnswer_wf (s : State) (p : Packet) (group : Nat) (postmark : Word) (status : Nat)
    (hm : Memory.wf s.mem) : Memory.wf (s.mcAnswer p group postmark status).mem := by
  simp [State.mcAnswer, hm]

@[simp] theorem State.mcProgress_mem (s : State) (h : McHeld) (n : Nat) : (s.mcProgress h n).mem = s.mem := by rfl

@[simp] theorem State.mcWritePieces_wf (s : State) (h : McHeld) (e : McEntry) (n : Nat) (ps : List (Nat × List Byte)) (hm : Memory.wf s.mem) :
    Memory.wf (s.mcWritePieces h e n ps).2.mem := by
  induction ps generalizing s n with
  | nil => exact hm
  | cons p ps ih =>
    unfold State.mcWritePieces
    dsimp only
    split
    · next e => obtain rfl := snd_eq_of_eq_mk e; simp [hm]
    · next e => obtain rfl := snd_eq_of_eq_mk e; simp [hm]
    · next e =>
      obtain rfl := snd_eq_of_eq_mk e
      split
      · next e => obtain rfl := snd_eq_of_eq_mk e; simp [hm]
      · next e => obtain rfl := snd_eq_of_eq_mk e; simp [hm]
      · next e => obtain rfl := snd_eq_of_eq_mk e; exact ih _ _ (by simp [hm])

@[simp] theorem State.mcApply_wf (s : State) (h : McHeld) (e : McEntry) (hm : Memory.wf s.mem) : Memory.wf (s.mcApply h e).2.mem := by
  unfold State.mcApply
  split
  · split
    · exact hm
    · split
      · next e =>
          obtain rfl := snd_eq_of_eq_mk e
          split
          · simp [hm]
          · split <;> next e => obtain rfl := snd_eq_of_eq_mk e; simp [hm]
      · simp [hm]
  · exact hm

@[simp] theorem State.mcDrop_mem (s : State) (h : McHeld) : (s.mcDrop h).mem = s.mem := by rfl

@[simp] theorem State.mcGapRestart_mem (s : State) (group : Nat) : (s.mcGapRestart group).mem = s.mem := by
  simp [State.mcGapRestart]

@[simp] theorem State.mcNext_wf (s : State) (group : Nat) (n : Word) (hm : Memory.wf s.mem) : Memory.wf (s.mcNext group n).mem := by
  simp [State.mcNext, hm]

@[simp] theorem State.mcFlush_wf (s : State) (group status : Nat) (hm : Memory.wf s.mem) : Memory.wf (s.mcFlush group status).mem := by
  simp +contextual [State.mcFlush, foldl_wf, hm]

@[simp] theorem State.mcTurn_wf (s : State) (group n : Nat) (hm : Memory.wf s.mem) : Memory.wf (s.mcTurn group n).mem := by
  induction n generalizing s with
  | zero => exact hm
  | succ n ih =>
    unfold State.mcTurn
    dsimp only
    split
    · simp [hm]
    · split
      · exact hm
      · split
        · exact hm
        · split
          · next e => obtain rfl := snd_eq_of_eq_mk e; simp [hm]
          · next e =>
            obtain rfl := snd_eq_of_eq_mk e
            refine ih _ ?_
            rw [State.mcGapRestart_mem, State.mcDrop_mem]
            exact State.mcNext_wf _ _ _ (State.mcAnswer_wf _ _ _ _ _ (State.mcApply_wf _ _ _ hm))

@[simp] theorem State.mcArrive_wf (s : State) (port : Nat) (p : Packet) (m : McMsg) (hm : Memory.wf s.mem) :
    Memory.wf (s.mcArrive port p m).mem := by
  simp [State.mcArrive, hm]

@[simp] theorem State.mcTurns_wf (s : State) (group : Nat) (hm : Memory.wf s.mem) : Memory.wf (s.mcTurns group).mem := by
  simp [State.mcTurns, hm]

@[simp] theorem execMulticastArrival_wf (pkt : Packet) (s : State) (hm : Memory.wf s.mem) : NextWf (execMulticastArrival pkt s) := by
  unfold execMulticastArrival
  split
  · split
    · split <;> simp [hm]
    · simp [hm]
  · simp [hm]

@[simp] theorem execGapTimerExpiry_wf (group : Nat) (s : State) (hm : Memory.wf s.mem) : NextWf (execGapTimerExpiry group s) := by
  unfold execGapTimerExpiry
  split
  · simp [hm]
  · dsimp only
    split
    · simp [hm]
    · split
      · simp [hm]
      · exact (nextWf_next _).mpr (State.raise_wf _ _ _ _ _ _ _ _ _ _ (State.mcFlush_wf _ _ _ (State.mcWrite_wf _ _ _ _ hm)))

@[simp] theorem execMemberAnswer_wf (sw group : Nat) (postmark : Word) (midx : Nat) (status : Byte) (s : State)
    (hm : Memory.wf s.mem) : NextWf (execMemberAnswer sw group postmark midx status s) := by
  unfold execMemberAnswer
  dsimp only
  split
  · split
    · simp [hm]
    · split <;> simp [hm]
  · simp [hm]

@[simp] theorem execMemberAnswerTimeout_wf (sw group : Nat) (postmark : Word) (s : State) (hm : Memory.wf s.mem) :
    NextWf (execMemberAnswerTimeout sw group postmark s) := by
  unfold execMemberAnswerTimeout
  dsimp only
  split <;> simp [hm]

@[simp] theorem State.mcStatusRun_wf (s : State) (asid src die : Nat) (postmark : Word) (group : Nat) (ms : List Byte) (hm : Memory.wf s.mem) :
    Memory.wf (s.mcStatusRun asid src die postmark group ms).mem := by
  unfold State.mcStatusRun
  dsimp only
  split
  · refine State.sendHandler_wf _ _ _ _ _ _ _ (foldl_wf _ (fun s m hm => ?_) _ _ ?_)
    · split <;> simp [hm]
    · split <;> simp [hm]
  · refine foldl_wf _ (fun s m hm => ?_) _ _ ?_
    · split <;> simp [hm]
    · split <;> simp [hm]

@[simp] theorem execReturnReceipt_wf (pkt : Packet) (s : State) (hm : Memory.wf s.mem) : NextWf (execReturnReceipt pkt s) := by
  unfold execReturnReceipt
  dsimp only
  split
  · split
    · simp [hm]
    · split
      · simp [hm]
      · split <;> split <;> simp [hm]
  · simp [hm]

/-! ## Operations of Sys2Proof/Machine/EvSteward.lean -/

@[simp] theorem State.completion_wf (s : State) (complPA st region seq : Nat) (hm : Memory.wf s.mem) :
    Memory.wf (s.completion complPA st region seq).mem := by
  simp [State.completion, hm]

@[simp] theorem State.loadFailed_wf (s : State) (recPA seq : Nat) (fs : List LoadFail) (hm : Memory.wf s.mem) :
    Memory.wf (s.loadFailed recPA seq fs).mem := by
  simp [State.loadFailed, hm]

@[simp] theorem State.stewardStore_wf (s : State) (asid va : Nat) (bs : List Byte) (hm : Memory.wf s.mem) :
    Memory.wf (s.stewardStore asid va bs).2.mem := by
  refine foldl_keeps_wf Prod.snd _ (fun acc x h => ?_) _ _ hm
  split
  · exact h
  · split
    · exact h
    · exact State.agentWrite_wf _ _ _ h
    · exact h

@[simp] theorem State.stageData_wf (s : State) (p : Plan) (hm : Memory.wf s.mem) : Memory.wf (s.stageData p).2.mem := by
  unfold State.stageData
  split <;> next e => obtain rfl := snd_eq_of_eq_mk e; simp [hm]

@[simp] theorem State.ownStream_mem (s : State) (ci : Nat) (st : StreamState) : (s.ownStream ci st).mem = s.mem := by rfl

@[simp] theorem State.addKey_mem (s : State) (key tenant : Nat) : (s.addKey key tenant).mem = s.mem := by rfl

@[simp] theorem State.removeKey_mem (s : State) (key : Nat) : (s.removeKey key).mem = s.mem := State.setDev_mem _ _

@[simp] theorem State.armFor_mem (s : State) (p : Plan) (num k ci : Nat) : (s.armFor p num k ci).mem = s.mem := by
  simp [State.armFor]

@[simp] theorem State.armPlan_wf (s : State) (p : Plan) (hm : Memory.wf s.mem) : Memory.wf (s.armPlan p).2.mem := by
  simp [State.armPlan, foldl_mem, hm]

@[simp] theorem State.createSources_mem (s : State) (p : Plan) : (s.createSources p).mem = s.mem := by
  unfold State.createSources
  rw [foldl_mem _ (by simp), foldl_mem _ (by simp)]

@[simp] theorem State.prepare_wf (s : State) (recPA seq : Nat) (own : Option (Nat × List Nat)) (hm : Memory.wf s.mem) :
    Memory.wf (s.prepare recPA seq own).2.mem := by
  unfold State.prepare
  split
  · exact hm
  · split
    · next e => obtain rfl := snd_eq_of_eq_mk e; simp [hm]
    · next e =>
      obtain rfl := snd_eq_of_eq_mk e
      dsimp only
      split
      · simp [hm]
      · simp [foldl_mem, hm]

theorem State.launchHead_mem {s t : State} {a b c d : Nat} (e : s.launchHead = some (a, b, c, d, t)) : t.mem = s.mem := by
  unfold State.launchHead at e
  split at e <;> cases e
  rfl

theorem State.stewardTurn_mem {s t : State} {p : Plan} (e : s.stewardTurn = some (p, t)) : t.mem = s.mem := by
  unfold State.stewardTurn at e
  split at e
  · cases e
  · split at e <;> cases e
    rfl

@[simp] theorem execLaunch_wf (s : State) (hm : Memory.wf s.mem) : NextWf (execLaunch s) := by
  unfold execLaunch
  split
  · next e => simp [State.stewardTurn_mem e, hm]
  · split
    · next e =>
      have ht := State.launchHead_mem e
      rw [nextWf_next]
      split <;> next e => obtain rfl := snd_eq_of_eq_mk e; simp [ht, hm]
    · simp [hm]

@[simp] theorem execReconfig_wf (s : State) (hm : Memory.wf s.mem) : NextWf (execReconfig s) := by
  unfold execReconfig
  split
  · next e =>
    have ht := State.launchHead_mem e
    dsimp only
    split
    · simp [hm]
    · rw [nextWf_next]
      split
      · next e => obtain rfl := snd_eq_of_eq_mk e; simp [ht, hm]
      · next e => obtain rfl := snd_eq_of_eq_mk e; split <;> simp [ht, hm]
  · simp [hm]

@[simp] theorem State.releaseRegion_wf (s : State) (r : Region) (keep : Nat) (hm : Memory.wf s.mem) :
    Memory.wf (s.releaseRegion r keep).mem := by
  refine State.tryRestart_wf _ ?_
  simp only [State.setDev_mem]
  rw [foldl_mem _ (by simp)]
  refine foldl_wf _ (fun s ci hm => ?_) _ _ hm
  simpa using hm

@[simp] theorem State.releaseHeld_wf (s : State) (key : Nat) (hm : Memory.wf s.mem) : Memory.wf (s.releaseHeld key).mem := by
  unfold State.releaseHeld
  refine foldl_wf _ (fun s x hm => ?_) _ _ ?_
  · split <;> simp [hm]
  · exact hm

@[simp] theorem execReconfigSwap_wf (region : Nat) (s : State) (hm : Memory.wf s.mem) : NextWf (execReconfigSwap region s) := by
  unfold execReconfigSwap
  split
  · simp [hm]
  · split
    · simp [hm]
    · split
      · simp [hm]
      · simp only [nextWf_next, State.createSources_mem]
        exact State.releaseHeld_wf _ _ (State.armPlan_wf _ _ (State.releaseRegion_wf _ _ _ (State.completion_wf _ _ _ _ _ hm)))

/-! ## Operations of Sys2Proof/Machine/Saves.lean -/

@[simp] theorem State.saveState_wf (s : State) (pa st n : Nat) (hm : Memory.wf s.mem) : Memory.wf (s.saveState pa st n).mem := by
  simp [State.saveState, hm]

@[simp] theorem State.writeSection_wf (s : State) (pa k ci : Nat) (hm : Memory.wf s.mem) : Memory.wf (s.writeSection pa k ci).mem := by
  unfold State.writeSection
  iterate 6 refine State.agentWrite_wf _ _ _ ?_
  refine foldl_wf _ (fun s x hm => State.agentWrite_wf s _ _ hm) _ _ ?_
  iterate 6 refine State.agentWrite_wf _ _ _ ?_
  exact hm

@[simp] theorem State.writeSaveHeader_wf (s : State) (pa : Nat) (r : Region) (hm : Memory.wf s.mem) :
    Memory.wf (s.writeSaveHeader pa r).mem :=
  State.saveState_wf _ _ _ _ (State.agentWrite_wf _ _ _ (State.agentWrite_wf _ _ _ (State.agentWrite_wf _ _ _ hm)))

/-! ## Operations of Sys2Proof/Machine/EvRegion.lean -/

@[simp] theorem State.stalledCore_wf (s : State) (ci : Nat) (hm : Memory.wf s.mem) : Memory.wf (s.stalledCore ci).mem := by
  refine foldl_wf _ (fun s b hm => State.lateRecord_wf s _ _ _ hm) _ _ ?_
  split
  · simp [hm]
  · exact hm

@[simp] theorem State.modRegion_mem (s : State) (num : Nat) (f : Region → Region) : (s.modRegion num f).mem = s.mem := by
  unfold State.modRegion
  split <;> rfl

@[simp] theorem State.reportStalled_wf (s : State) (r : Region) (hm : Memory.wf s.mem) : Memory.wf (s.reportStalled r).mem := by
  simp +contextual [State.reportStalled, foldl_wf, hm]

@[simp] theorem execKeystoneSweep_wf (region : Nat) (s : State) (hm : Memory.wf s.mem) : NextWf (execKeystoneSweep region s) := by
  unfold execKeystoneSweep
  dsimp only
  split
  · simp [hm]
  · split
    · simp [hm]
    · split <;> simp [hm]

@[simp] theorem execRegionComplete_wf (region : Nat) (s : State) (hm : Memory.wf s.mem) : NextWf (execRegionComplete region s) := by
  unfold execRegionComplete
  split
  · simp [hm]
  · split
    · simp [hm]
    · exact (nextWf_next _).mpr (State.releaseRegion_wf _ _ _ (State.completion_wf _ _ _ _ _ (State.reportStalled_wf _ _ hm)))

@[simp] theorem execRateLimitWindow_wf (core : Nat) (s : State) (hm : Memory.wf s.mem) : NextWf (execRateLimitWindow core s) := by
  unfold execRateLimitWindow
  dsimp only
  split <;> simp [hm]

@[simp] theorem execColourReserveRefill_wf (core : Nat) (ids : List Nat) (s : State) (hm : Memory.wf s.mem) :
    NextWf (execColourReserveRefill core ids s) := by
  unfold execColourReserveRefill
  dsimp only
  split
  · simp [hm]
  · split <;> simp [hm]

@[simp] theorem State.sysDone_mem (s : State) (core commit : Nat) (due : List TokenDue) (status word1 : Nat) :
    (s.sysDone core commit due status word1).mem = s.mem := by rfl

@[simp] theorem State.dropSaves_mem (s : State) (num : Nat) : (s.dropSaves num).mem = s.mem := by
  simp [State.dropSaves, foldl_mem]

@[simp] theorem execRegionEnd_wf (region : Nat) (s : State) (hm : Memory.wf s.mem) : NextWf (execRegionEnd region s) := by
  unfold execRegionEnd
  split
  · simp [hm]
  · split
    · simp [hm]
    · split
      · simp [hm]
      · rw [nextWf_next]
        exact State.releaseRegion_wf _ _ _ (State.completion_wf _ _ _ _ _ (State.raiseFor_wf _ _ _ _ _ _ _ _ _ _ _ (State.reportStalled_wf _ _ hm)))
      · simp [hm]

@[simp] theorem execQuench_wf (core : Nat) (s : State) (hm : Memory.wf s.mem) : NextWf (execQuench core s) := by
  unfold execQuench
  split <;> simp [hm]

@[simp] theorem execQuenchTimeout_wf (core grp : Nat) (s : State) (hm : Memory.wf s.mem) : NextWf (execQuenchTimeout core grp s) := by
  unfold execQuenchTimeout
  dsimp only
  split
  · split <;> simp [hm]
  · simp [hm]

@[simp] theorem execPreemptionMarker_wf (core port : Nat) (s : State) (hm : Memory.wf s.mem) :
    NextWf (execPreemptionMarker core port s) := by
  unfold execPreemptionMarker
  split
  · simp [hm]
  · split <;> simp [hm]

@[simp] theorem State.finishSave_wf (s : State) (pa : Nat) (r : Region) (hm : Memory.wf s.mem) : Memory.wf (s.finishSave pa r).mem := by
  simp [State.finishSave, foldl_mem, hm]

@[simp] theorem execCoreSave_wf (core : Nat) (s : State) (hm : Memory.wf s.mem) : NextWf (execCoreSave core s) := by
  unfold execCoreSave
  dsimp only
  split
  · simp [hm]
  · split
    · split <;> simp [hm]
    · simp [hm]

@[simp] theorem State.restoreSlots_mem (s : State) (pa k ci : Nat) : (s.restoreSlots pa k ci).mem = s.mem := by
  refine foldl_mem _ (fun s x => ?_) _ _
  dsimp only
  rw [State.modCore_mem]
  split
  · rfl
  · split <;> simp

theorem State.restorePlan_wf {s t : State} {p : Plan} {pa num : Nat} (e : s.restorePlan p pa = some (num, t)) (hm : Memory.wf s.mem) :
    Memory.wf t.mem := by
  unfold State.restorePlan at e
  have ha := State.armPlan_wf s p hm
  generalize s.armPlan p = a at e ha
  obtain ⟨-, h⟩ := Option.ite_none_left_eq_some.mp e
  obtain rfl := (Prod.mk.inj (Option.some.inj h)).2
  rw [State.modRegion_mem, foldl_mem _ fun s y => by split <;> rfl]
  refine foldl_keeps_wf Prod.snd _ (fun a x h => ?_) _ _ ?_
  · exact h
  · exact foldl_wf _ (fun s x hm => by simp [hm]) _ _ ha

@[simp] theorem State.restore_wf (s : State) (j : PreemptJob) (hm : Memory.wf s.mem) : Memory.wf (s.restore j).2.2.mem := by
  unfold State.restore
  dsimp only
  split
  · exact hm
  · split
    · exact hm
    · split
      · exact hm
      · split
        · next e => obtain rfl := snd_eq_of_eq_mk e; simp [hm]
        · next e =>
          obtain rfl := snd_eq_of_eq_mk e
          have hp := State.prepare_wf s j.pa (s.rdNat (j.pa + 0x28C) 4) none hm
          split
          · exact hp
          · split
            · exact hp
            · next e => exact State.restorePlan_wf e hp

@[simp] theorem execPreemptRequest_wf (idx : Nat) (s : State) (hm : Memory.wf s.mem) : NextWf (execPreemptRequest idx s) := by
  unfold execPreemptRequest
  split
  · simp [hm]
  · split
    · simp [hm]
    · split
      · simp [hm]
      · split
        · simp [hm]
        · split
          · simp [hm]
          · split
            · simp [hm]
            · split <;> simp [hm]

@[simp] theorem State.keySet_mem (s : State) (ci asid slot rec_ : Nat) : (s.keySet ci asid slot rec_).2.mem = s.mem := by
  unfold State.keySet
  split
  · rfl
  · split
    · rfl
    · split <;> simp

@[simp] theorem execClolasVerifyDone_wf (idx : Nat) (s : State) (hm : Memory.wf s.mem) : NextWf (execClolasVerifyDone idx s) := by
  unfold execClolasVerifyDone
  split
  · simp [hm]
  · split <;> simp [hm]

/-! ## Operations of Sys2Proof/Machine/EvDevice.lean -/

@[simp] theorem State.recovery_mem (s : State) (cause : Byte) : (s.recovery cause).mem = s.mem := by rfl

@[simp] theorem State.takeRecords_mem (s : State) (f : Flash) : (s.takeRecords f).mem = s.mem := by
  unfold State.takeRecords
  dsimp only
  split
  · simp
  · split
    · simp
    · split
      · simp
      · split <;> simp

@[simp] theorem State.clearStores_mem (s : State) : (s.clearStores).mem = s.mem := by rfl

@[simp] theorem State.powerCycle_wf (s : State) : Memory.wf s.powerCycle.mem := rfl

@[simp] theorem execPowerGoodReset_wf (flash : Flash) (s : State) (hm : Memory.wf s.mem) : NextWf (execPowerGoodReset flash s) := by
  unfold execPowerGoodReset
  split <;> simp [hm]

@[simp] theorem State.quoteEnd_mem (s : State) : (s.quoteEnd).mem = s.mem := by
  unfold State.quoteEnd
  split <;> simp

@[simp] theorem execQuoteDone_wf (s : State) (hm : Memory.wf s.mem) : NextWf (execQuoteDone s) := by
  unfold execQuoteDone
  split
  · simp [hm]
  · split <;> simp [hm]

@[simp] theorem execThrottleAssert_wf (s : State) (hm : Memory.wf s.mem) : NextWf (execThrottleAssert s) := by
  simp [execThrottleAssert, hm]

@[simp] theorem execThrottleClear_wf (s : State) (hm : Memory.wf s.mem) : NextWf (execThrottleClear s) := by
  simp [execThrottleClear, hm]

@[simp] theorem execHostCxlMemAccess_wf (addr : Nat) (bytes : List Byte) (s : State) (hm : Memory.wf s.mem) :
    NextWf (execHostCxlMemAccess addr bytes s) := by
  simp [execHostCxlMemAccess, hm]

/-! ## Operations of Sys2Proof/Machine/Lane.lean -/

@[simp] theorem segWord_wf (s : State) (f : F0) (nr : Nat) (k : Ctx → LaneMask → Nat → List Nat → Nat → Nat)
    (hm : Memory.wf s.mem) : NextWf (segWord s f nr k) := by
  unfold segWord
  refine withIssuer_wf fun c g => ?_
  exact hm

@[simp] theorem matchWord_wf (s : State) (f : F0) (k : (Nat → Nat) → List Nat → Nat → Nat) (hm : Memory.wf s.mem) :
    NextWf (matchWord s f k) := by
  unfold matchWord
  refine withIssuer_wf fun c g => ?_
  exact hm

@[simp] theorem execEmrd_wf (f : F0) (s : State) (hm : Memory.wf s.mem) : NextWf (execEmrd f s) := by
  unfold execEmrd
  refine withIssuer_wf fun c g => ?_
  exact hm

@[simp] theorem emwrWord_wf (s : State) (f : F0) (base : Group → LaneMask) (hm : Memory.wf s.mem) : NextWf (emwrWord s f base) := by
  unfold emwrWord
  dsimp only
  refine withIssuer_wf fun c g => ?_
  split <;> simp [hm]

/-! ## Operations of Sys2Proof/Machine/Sfu.lean -/

@[simp] theorem sfuWord_wf (s : State) (f : F0) (op : SfuOp) (hm : Memory.wf s.mem) : NextWf (sfuWord s f op) := by
  simp [sfuWord, hm]

/-! ## Operations of Sys2Proof/Machine/SoftErrors.lean -/

@[simp] theorem State.softReplay_wf (s : State) (ci gi : Nat) (hm : Memory.wf s.mem) : Memory.wf (s.softReplay ci gi).mem := by
  unfold State.softReplay
  split <;> simp [hm]

@[simp] theorem State.l1Error_wf (s : State) (ci ln : Nat) (hm : Memory.wf s.mem) : Memory.wf (s.l1Error ci ln).mem := by
  simp +contextual [State.l1Error, foldl_wf, hm]

@[simp] theorem State.frameError_wf (s : State) (ci gi off : Nat) (hm : Memory.wf s.mem) : Memory.wf (s.frameError ci gi off).mem := by
  unfold State.frameError
  dsimp only
  split
  · exact hm
  · split <;> simp [hm]

@[simp] theorem State.sramError_wf (s : State) (ci : Nat) (part : SramPart) (off : Nat) (hm : Memory.wf s.mem) :
    Memory.wf (s.sramError ci part off).mem := by
  unfold State.sramError
  split <;> simp [hm]

@[simp] theorem State.softError_wf (x : SoftError) (s : State) (hm : Memory.wf s.mem) : Memory.wf (State.softError x s).mem := by
  unfold State.softError
  split <;> simp [hm]

/-! ## A step -/

/-- Each arm of `exec`: a word that is one call of its family's shared operation, named here, by what that operation keeps; every other
word, and each event, by the lemma of its own. -/
theorem exec_wf (i : Instr) (s : State) (hm : Memory.wf s.mem) : NextWf (exec i s) := by
  cases i <;> simp [hm,
    execMov, execMovk, execMovi, execMoviBy, execMad, execMadw, execNot, execBfe, execBfi, execBrev, execSel, execCmp, execLea, execCvti, execFabs,
    execFneg, execFclass, execBspack, execBsunpack, execRncv, execRnmad, execRnneg, execFfma, execFsqrt, execFmin, execFmax, execFcmp, execFrnd,
    execScale, execCvtnUp, execRncrt, execRnscl, execAdd, execSub, execMul, execMulhi, execMin, execMax, execAbs, execNeg, execDiv, execRem,
    execAnd, execOr, execXor, execAndn, execShl, execShr, execSar, execRol, execClz, execCtz, execPopc, execPand, execPor, execPxor, execPnot,
    execFadd, execFsub, execFmul, execFdiv, execHadd2, execHmul2, execHfma2, execSflgRd, execSflgRdc, execSflgSet, execSflgClr, execDqnt,
    execCvtnDense, execCvtnBytes, execSpcmp, execSpexp, execRnadd, execRnsub, execRnmul, execSta, execStc, execLdw, execLda, execLdc, execAtom,
    execRed, execBar, execCbar, execCprefL2, execCprefEx, execCpyMm, execCpyIn, execCpyOut, execCpytIn, execCpytOut, execCpygIn, execCpysOut,
    execCpyfMm, execCpyfIn, execCpypMm, execCpypIn, execCpypOut, execCpyspIn, execCpyspOut, execCpyspOutc, execRld, execRst, execRatom, execCfaa,
    execCfaan, execRput, execRget, execSend, execEos, execColalloc, execPackc, execUnpackc, execBintimTimer, execBintimPrio, execMma, execGmma,
    execSpmma, execRnmma, execAccst, execAccstAdd, execAccstRnadd, execAcccvRn, execAcccvSc, execResume, execResumePast, execAbort, execHalt,
    execSigchk, execKeyset, execPreemptSave, execPreemptRestore, execShfl, execVote, execBallot, execRedg, execScang, execMatchAny, execMatchAll,
    execEmwrAnd, execEmwrSet, execRcp, execRsq, execExp2, execLog2, execSin, execCos, execTanh, execSigm]

theorem stepWith_wf {run : Instr → State → Out} {soft : SoftError → State → State} {endCycle : State → State} (hrun : RunWf run)
    (hsoft : ∀ x s, Memory.wf s.mem → Memory.wf (soft x s).mem) (hend : ∀ s, (endCycle s).mem = s.mem) (s : State) (hm : Memory.wf s.mem) :
    NextWf (stepWith run soft endCycle s) := by
  unfold stepWith
  split
  · exact tryGroup_wf hrun s _ _ hm
  · next t ts _ =>
    dsimp only
    generalize hu : ((if t.cycles = 0 then { s with schedule := ts } else endCycle { s with schedule := ts }).pass t) = u
    have hw : Memory.wf u.mem := by simp [← hu, hend, hm]
    split
    · exact issueCore_wf hrun u _ hw
    · split
      · exact hrun _ _ hw
      · simp [hw]
    · simp [hsoft, hw]
    · simp [hw]
    · simp [hw]
    · simp [hw]

end Sys2Proof.Machine

namespace Sys2Proof.Proofs

open Sys2Proof.Machine

/-- Settles O54: a step is a word or an event (`exec_wf`), a soft error, or a turn that leaves memory as it was. -/
theorem everyStepKeepsMemoryCanonical : Obligations.EveryStepKeepsMemoryCanonical := by
  intro s t hm hstep
  exact stepWith_wf exec_wf State.softError_wf State.endCycle_mem s hm t hstep

end Sys2Proof.Proofs
end

section
/-! SUPPORT. The cache-control words (R124 to R127): what a hint does and how it waits for its walks (R94), and what an accepted CFLUSH
leaves in the send queue. -/

namespace Sys2Proof.Machine

open Sys2Proof.Safety Sys2Proof.Claims

/-! ## The context of an F1 word -/

@[simp] theorem Ctx.latch_core (x : Ctx) (act : LaneMask) (os : List Operand) : (x.latch act os).c = x.c := by
  unfold Ctx.latch; split <;> rfl

/-- Reading %gtclo latches the high half of the sample (R47) and changes nothing else of the group. -/
theorem Ctx.latch_group (x : Ctx) (act : LaneMask) (os : List Operand) : ∃ h, (x.latch act os).g = { x.g with gtchi := h } := by
  unfold Ctx.latch; split
  · exact ⟨_, rfl⟩
  · exact ⟨x.g.gtchi, rfl⟩

@[simp] theorem ctx1_core (f : F1) (s : State) (g : Group) : (ctx1 f s g).c = s.core s.cur.1 := Ctx.latch_core _ _ _

theorem ctx1_group (f : F1) (s : State) (g : Group) : ∃ h, (ctx1 f s g).g = { g with gtchi := h } := Ctx.latch_group _ _ _

@[simp] theorem ctx1_fences (f : F1) (s : State) (g : Group) : (ctx1 f s g).g.fences = g.fences := by
  obtain ⟨h, e⟩ := ctx1_group f s g; rw [e]

/-! ## Misses that wait for a walk (R94) -/

/-- The page waits in the die's miss queue, or a walk of it runs. -/
def Die.Awaits (d : Die) (asid page : Nat) : Prop :=
  (∃ m ∈ d.missq, m.asid = asid ∧ m.page = page) ∨ (∃ w ∈ d.walks, w.asid = asid ∧ w.page = page)

/-- Replacing the entries that `p` selects by entries with the same mark keeps every mark. -/
theorem exists_replaceIf {α : Type} {p : α → Bool} {f : α → α} {Q : α → Prop} {l : List α} (hf : ∀ a, Q a → Q (f a))
    (h : ∃ a ∈ l, Q a) : ∃ a ∈ replaceIf p f l, Q a := by
  obtain ⟨a, ha, hq⟩ := h
  refine ⟨if p a then f a else a, List.mem_map_of_mem ha, ?_⟩
  split
  · exact hf a hq
  · exact hq

theorem Die.addMiss_keeps {d : Die} {a p : Nat} (asid page : Nat) (who : Waiter) (h : d.Awaits a p) :
    (d.addMiss asid page who).Awaits a p := by
  unfold Die.addMiss
  dsimp only
  split
  · exact h.imp_right (exists_replaceIf (fun _ hw => hw))
  · split
    · exact h.imp_left (exists_replaceIf (fun _ hm => hm))
    · split
      · exact h.imp_left fun ⟨m, hm, he⟩ => ⟨m, List.mem_append_left _ hm, he⟩
      · exact h

theorem Die.addMiss_awaits {d : Die} (asid page : Nat) (who : Waiter) (h : d.missq.length < 1024) :
    (d.addMiss asid page who).Awaits asid page := by
  unfold Die.addMiss
  simp only [h, if_true]
  split
  · next hw =>
    refine .inr (exists_replaceIf (fun _ hw => hw) ?_)
    simpa using hw
  · split
    · next hm =>
      refine .inl (exists_replaceIf (fun _ hm => hm) ?_)
      simpa using hm
    · exact .inl ⟨_, List.mem_append_right _ (List.mem_singleton_self _), rfl, rfl⟩

theorem Die.addMiss_length (d : Die) (asid page : Nat) (who : Waiter) :
    (d.addMiss asid page who).missq.length ≤ d.missq.length + 1 := by
  unfold Die.addMiss
  dsimp only
  split
  · exact Nat.le_succ _
  · split
    · simp [replaceIf]
    · split <;> simp

theorem Die.foldl_addMiss_keeps {a p asid : Nat} (who : Waiter) (ps : List Nat) {d : Die} (h : d.Awaits a p) :
    (ps.foldl (fun d p => d.addMiss asid p who) d).Awaits a p := by
  induction ps generalizing d with
  | nil => exact h
  | cons q qs ih => exact ih (Die.addMiss_keeps asid q who h)

/-- While the miss queue has room for all of them, every page put in it waits there or is walked. -/
theorem Die.foldl_addMiss_awaits {asid p : Nat} (who : Waiter) {ps : List Nat} {d : Die} (hroom : d.missq.length + ps.length ≤ 1024)
    (hp : p ∈ ps) : (ps.foldl (fun d p => d.addMiss asid p who) d).Awaits asid p := by
  induction ps generalizing d with
  | nil => cases hp
  | cons q qs ih =>
    simp only [List.length_cons] at hroom
    rw [List.foldl_cons]
    rcases List.mem_cons.mp hp with rfl | hp
    · exact Die.foldl_addMiss_keeps who qs (Die.addMiss_awaits asid p who (by omega))
    · have hlen := Die.addMiss_length d asid q who
      exact ih (by omega) hp

/-! ## Hints (R124 to R126) -/

/-- The pages that the lanes of a hint wait for. -/
def hintMisses (s : State) (x : Ctx) (g : Group) (f : F1) : List Nat :=
  (maskLanes (g.active f.g)).filterMap fun l => match hintLane s s.cur x g f l with
    | .miss => some (loadAddr x f l / 4096)
    | _ => none

/-- The lanes of a hint that translate. -/
def hintHits (s : State) (x : Ctx) (g : Group) (f : F1) : List Nat :=
  (maskLanes (g.active f.g)).filter fun l => match hintLane s s.cur x g f l with
    | .hit _ _ => true
    | _ => false

theorem mem_hintMisses {s : State} {x : Ctx} {g : Group} {f : F1} {l : Nat} (hl : l ∈ maskLanes (g.active f.g))
    (h : hintLane s s.cur x g f l = .miss) : loadAddr x f l / 4096 ∈ hintMisses s x g f :=
  List.mem_filterMap.mpr ⟨l, hl, by rw [h]⟩

theorem hintMisses_eq_nil {s : State} {x : Ctx} {g : Group} {f : F1}
    (h : ∀ l ∈ maskLanes (g.active f.g), hintLane s s.cur x g f l ≠ .miss) : hintMisses s x g f = [] := by
  refine List.filterMap_eq_nil_iff.mpr fun l hl => ?_
  have hne := h l hl
  cases e : hintLane s s.cur x g f l with
  | miss => exact absurd e hne
  | hit => rfl
  | fail => rfl

theorem maskLanes_length (m : LaneMask) : (maskLanes m).length ≤ 32 := by
  unfold maskLanes
  exact (List.length_filter_le _ _).trans (by simp [allLanes])

theorem hintMisses_length (s : State) (x : Ctx) (g : Group) (f : F1) : (hintMisses s x g f).length ≤ 32 :=
  (List.length_filterMap_le _ _).trans (maskLanes_length _)

/-- The state in which a hint waits: its misses stand in the queue of its die. -/
def hintQueued (s : State) (x : Ctx) (g : Group) (f : F1) : State :=
  s.setDie (dieOf s.cur.1) ((hintMisses s x g f).foldl (fun d p => d.addMiss x.c.cfg.asid p
    (Want.by { write := false, priv := x.c.priv g, peer := false } (groupNum s.cur.1 s.cur.2))) (s.die (dieOf s.cur.1)))

theorem hintWord_of_issuing {s : State} {g : Group} (hI : Issuing s g) (f : F1) (k : State → Group → Nat → Nat → State) :
    let x := ctx1 f s g
    hintWord s f k = .next (if !(hintMisses s x g f).isEmpty then (hintQueued s x g f).hold x.g
      else (hinted s x g f fun t => k t g).finish (x.g.foot ((hintHits s x g f).map (loadAddr x f)))) := by
  intro x
  have hc : x.c = s.core s.cur.1 := ctx1_core f s g
  have hx : f1Ctx f s (s.core s.cur.1) g = (x, g.active f.g) := rfl
  unfold hintWord
  rw [withIssuer_of hI, hx]
  clear_value x
  unfold hintMisses hintHits hintQueued hinted hintLane
  rw [← hc]
  rfl

theorem hinted_mem {s : State} {x : Ctx} {g : Group} {f : F1} {k : State → Nat → Nat → State}
    (hk : ∀ t pa cache, (k t pa cache).mem = t.mem) : (hinted s x g f k).mem = s.mem := by
  unfold hinted
  rw [State.dropFails_mem, foldl_mem]
  intro t l
  split
  · rw [hk, State.modCore_mem]
  · rfl

/-- A word given by hintWord is a hint, when what each lane does leaves memory alone. -/
theorem hintWord_hints {s : State} {g : Group} (hI : Issuing s g) (f : F1) {k : State → Group → Nat → Nat → State}
    (hk : ∀ t pa cache, (k t g pa cache).mem = t.mem) : Hints s (ctx1 f s g) g f (fun t => k t g) (hintWord s f k) := by
  rw [hintWord_of_issuing hI]
  refine ⟨fun hnone => ⟨?_, State.memByte_of_mem _ _ (hinted_mem hk)⟩, fun ⟨l, hl, hmiss⟩ => ?_⟩
  · rw [hintMisses_eq_nil hnone]; rfl
  · have hne : hintMisses s (ctx1 f s g) g f ≠ [] := List.ne_nil_of_mem (mem_hintMisses hl hmiss)
    have honly := State.setGroup_only (hintQueued s (ctx1 f s g) g f) s.cur.1 s.cur.2
      { (ctx1 f s g).g with status := .waiting }
    refine ⟨_, by rw [List.isEmpty_eq_false_iff.mpr hne]; rfl, honly.here, honly.cores, honly.memory, ?_⟩
    intro hroom l hl hmiss
    have hlen := hintMisses_length s (ctx1 f s g) g f
    have hdie : ((hintQueued s (ctx1 f s g) g f).die (dieOf s.cur.1)).Awaits (ctx1 f s g).c.cfg.asid (loadAddr (ctx1 f s g) f l / 4096) := by
      unfold hintQueued
      rw [State.die_setDie_same]
      exact Die.foldl_addMiss_awaits _ (by omega) (mem_hintMisses hl hmiss)
    exact hdie

/-- A prefetch acts on a place that is cached and in no lost region (R125). -/
theorem prefetchable_eq_false_iff (s : State) (pa cache : Nat) :
    prefetchable s pa cache = false ↔ cache = 2 ∨ zoneOf pa = .window ∨ s.lostPA pa = true := by
  simp only [prefetchable, bne, Bool.and_eq_false_iff, Bool.not_eq_false', beq_iff_eq, or_assoc]

theorem ite_prefetchable (s : State) (pa cache : Nat) (t : State) :
    (if !prefetchable s pa cache then s else t) = if cache = 2 ∨ zoneOf pa = .window ∨ s.lostPA pa = true then s else t := by
  simp [← prefetchable_eq_false_iff]

theorem ite_prefetchable_mem (s t : State) (pa cache : Nat) (h : t.mem = s.mem) :
    (if !prefetchable s pa cache then s else t).mem = s.mem := by
  split
  · rfl
  · exact h

theorem execCprefL1_hints {s : State} {g : Group} (hI : Issuing s g) (f : F1) :
    Hints s (ctx1 f s g) g f (fun s pa cache =>
      if cache = 2 ∨ zoneOf pa = .window ∨ s.lostPA pa = true then s
      else s.enqueue (sliceAt s (dieOf s.cur.1) (pa / 128)) (requester (dieOf s.cur.1) s.cur.1)
        (.load s.cur.1 (pa / 128) 0 none g.ll (cache == 1 || f.l1pol == 1) (f.l1pol == 2) f.l2pol.toNat (halvesOf [pa])))
      (execCprefL1 f s) := by
  simp only [← ite_prefetchable]
  exact hintWord_hints hI f fun t pa cache => ite_prefetchable_mem _ _ _ _ (State.enqueue_mem _ _ _ _)

/-- A line comes to its slice without a byte of memory changing: it is asked for, or taken in from the pool or the host. -/
theorem prefetch_mem (s : State) (k ln need halves pol : Nat) (write : Bool) :
    (if s.permitsAt k ln < need then s.ask k ln write pol else s.prefetched k ln halves pol write).mem = s.mem := by
  split
  · exact State.ask_mem _ _ _ _ _
  · exact State.prefetched_mem _ _ _ _ _ _

theorem prefetchWord_hints {s : State} {g : Group} (hI : Issuing s g) (f : F1) (write : Bool) :
    Hints s (ctx1 f s g) g f (fun s pa cache =>
      if cache = 2 ∨ zoneOf pa = .window ∨ s.lostPA pa = true then s
      else if s.permitsAt (sliceAt s (dieOf s.cur.1) (pa / 128)) (pa / 128) < (if write then 32 else 1) then
        s.ask (sliceAt s (dieOf s.cur.1) (pa / 128)) (pa / 128) write f.l2pol.toNat
      else s.prefetched (sliceAt s (dieOf s.cur.1) (pa / 128)) (pa / 128) (if write then 3 else halvesOf [pa]) f.l2pol.toNat write)
      (prefetchWord write f s) := by
  simp only [← ite_prefetchable]
  exact hintWord_hints hI f fun t pa cache => ite_prefetchable_mem _ _ _ _ (prefetch_mem _ _ _ _ _ _ _)

theorem execCinvLine_hints {s : State} {g : Group} (hI : Issuing s g) (f : F1) :
    Hints s (ctx1 f s g) g f (fun s pa _ => s.modCore s.cur.1 fun c => c.l1Drop (pa / 128)) (execCinvLine f s) :=
  hintWord_hints hI f fun _ _ _ => State.modCore_mem _ _ _

/-! ## CINV.ALL and CFLUSH (R126, R127) -/

theorem execCinvAll_idle {s : State} {g : Group} (hI : Issuing s g) (f : F1) (hact : g.active f.g = 0) :
    Done s g (execCinvAll f s) := by
  rw [execCinvAll, withIssuer_of hI, if_pos hact]
  exact State.finish_done s g

/-- CINV.ALL empties the L1 of the issuing core, and the group goes on (R126). -/
theorem execCinvAll_of_active {s : State} {g : Group} (hI : Issuing s g) (f : F1) (hact : g.active f.g ≠ 0) :
    ∃ t, execCinvAll f s = .next t ∧ (t.core s.cur.1).l1 = [] ∧ (t.core s.cur.1).group? s.cur.2 = some g.advance ∧
      (∀ cj, cj ≠ s.cur.1 → t.core cj = s.core cj) ∧ ∀ a, t.memByte a = s.memByte a := by
  rw [execCinvAll, withIssuer_of hI, if_neg hact]
  have honly := State.setGroup_only (s.modCore s.cur.1 fun c => { c with l1 := [] }) s.cur.1 s.cur.2 g.advance
  obtain ⟨gs, hcore⟩ := honly.core
  refine ⟨_, rfl, ?_, honly.here, fun cj hj => ?_, honly.memory⟩
  · exact (congrArg Core.l1 hcore).trans (by simp)
  · exact (honly.cores cj hj).trans (State.core_modCore_other _ _ _ _ hj)

/-- Once its places translate, CFLUSH.LINE waits in the send queue with its cached lines (R127). -/
theorem execCflushLine_done {s s' : State} {g : Group} {ts : List (Nat × Target)} (hI : Issuing s g) (f : F1)
    (hx : s.xlLanes s.cur.1 s.cur.2 (s.core s.cur.1).cfg.asid { write := false, priv := (s.core s.cur.1).priv g, peer := false }
      ((maskLanes (g.active f.g)).map fun l => (l, loadAddr (ctx1 f s g) f l)) = .ok s' ts) :
    Done s' (((ctx1 f s g).g.foot ((maskLanes (g.active f.g)).map (loadAddr (ctx1 f s g) f))).queue (.flush
        (dedup ((ts.filter fun t => targetCache t.2 != 2 && zoneOf (targetPA t.2) != .window).map fun t => targetPA t.2 / 128))
        false g.fences.length)) (execCflushLine f s) := by
  have hf : f1Ctx f s (s.core s.cur.1) g = (ctx1 f s g, g.active f.g) := rfl
  rw [execCflushLine, withIssuer_of hI, hf]
  simp only [hx]
  rw [← ctx1_fences f s g]
  exact State.finish_done _ _

theorem execCflushDie_of_priv {s : State} {g : Group} (hI : Issuing s g) (f : F1) (hp : (s.core s.cur.1).priv g = true) :
    Done s (if g.active f.g = 0 then g else g.queue (.flush [] true g.fences.length)) (execCflushDie f s) := by
  rw [execCflushDie, withIssuer_of hI, privileged, if_pos hp]
  exact State.finish_done _ _

/-- CFLUSH.DIE traps in a block without PRIV (R68, R127). -/
theorem execCflushDie_of_not_priv {s : State} {g : Group} (hI : Issuing s g) (f : F1) (hp : (s.core s.cur.1).priv g = false) :
    Faults s g { cls := .privilege } (execCflushDie f s) := by
  rw [execCflushDie, withIssuer_of hI, privileged, if_neg (by simp [hp])]
  exact State.faultWord_faults _ _ _

end Sys2Proof.Machine

namespace Sys2Proof.Proofs

open Sys2Proof.Machine Sys2Proof.Safety Sys2Proof.Claims

/-- Settles O21: the hints are all of one shape of word, whose lanes wait for their walks together. -/
theorem cacheControlWords : Obligations.CacheControlWords := by
  intro f s g hI
  dsimp only
  rw [ctx1_core]
  refine ⟨execCprefL1_hints hI f, prefetchWord_hints hI f false, prefetchWord_hints hI f true, execCinvLine_hints hI f,
    execCinvAll_idle hI f, execCinvAll_of_active hI f, fun s' ts hx => execCflushLine_done hI f hx, fun hp hact => ?_,
    fun hp hact => ?_, execCflushDie_of_not_priv hI f⟩
  · have hdone := execCflushDie_of_priv hI f hp
    rwa [if_pos hact] at hdone
  · have hdone := execCflushDie_of_priv hI f hp
    rwa [if_neg hact] at hdone

end Sys2Proof.Proofs
end

section
/-! SUPPORT. The events of translation: walks and what they leave (R94), the ingress (R97), and TLB invalidation (R99). -/

namespace Sys2Proof.Machine

open Sys2Proof.Safety Sys2Proof.Claims

/-! ## The same change on several cores -/

theorem State.foldl_modCore_dies (f : Core → Core) (cis : List Nat) (s : State) :
    (cis.foldl (fun s ci => s.modCore ci f) s).dies = s.dies := by
  induction cis generalizing s with
  | nil => rfl
  | cons ci cis ih => exact ih _

theorem State.foldl_modCore_die (f : Core → Core) (cis : List Nat) (s : State) (k : Nat) :
    (cis.foldl (fun s ci => s.modCore ci f) s).die k = s.die k := by
  unfold State.die; rw [State.foldl_modCore_dies]

/-- What a change of a core brings about holds of every core that it was made on, and stays where it held before. -/
theorem State.foldl_modCore_core {P : Core → Prop} {f : Core → Core} (hf : ∀ c, P (f c)) {cis : List Nat} {s : State} {ci : Nat}
    (h : ci ∈ cis ∨ P (s.core ci)) : P ((cis.foldl (fun s ci => s.modCore ci f) s).core ci) := by
  induction cis generalizing s with
  | nil => exact h.resolve_left List.not_mem_nil
  | cons cj cis ih =>
    refine ih ?_
    by_cases e : ci = cj
    · subst e
      right; rw [State.core_modCore_same]; exact hf _
    · rw [State.core_modCore_other _ _ _ _ e]
      exact h.imp_left fun hm => (List.mem_cons.mp hm).resolve_left e

/-! ## The translation structures (R93) -/

theorem mem_tlbAdd {n : Nat} (hn : 0 < n) (l : List TlbEnt) (x : TlbEnt) : x ∈ tlbAdd n l x := by
  obtain ⟨m, rfl⟩ : ∃ m, n = m + 1 := ⟨n - 1, by omega⟩
  exact List.mem_cons_self

theorem mem_l2tlbAdd (l : List TlbEnt) (x : TlbEnt) : x ∈ l2tlbAdd l x := List.mem_cons_self

theorem Core.mem_fillTlb (c : Core) (x : TlbEnt) : x ∈ (c.fillTlb x).l1tlb := mem_tlbAdd (by decide) _ _

/-! ## Walks (R94) -/

theorem execPageWalk_cons {die : Nat} {s : State} {m : Miss} {rest : List Miss} (hq : (s.die die).missq = m :: rest)
    (hfree : (s.die die).walks.length < 64) :
    execPageWalk die s = .next (s.setDie die { s.die die with
      missq := rest
      walks := (s.die die).walks ++ [{ asid := m.asid, page := m.page, who := m.who, out := (walk s die m.asid (m.page * 4096)).1,
                                       seen := (walk s die m.asid (m.page * 4096)).2 }] }) := by
  unfold execPageWalk
  simp only [hq, if_neg (Nat.not_le.mpr hfree)]

/-- The failures that a walk leaves for those who wait for it, with the cause and level that `c` gives each. -/
def Walk.failures (w : Walk) (c : Waiter → Nat × Nat) : List XlFail :=
  w.who.map fun y => { who := y.who, asid := w.asid, page := w.page, cause := (c y).1, level := (c y).2 }

/-- The TLB entry of a leaf that a walk found. -/
def Walk.entry (w : Walk) (base size : Nat) (e : DWord) : TlbEnt := { asid := w.asid, va := base, size := size, leaf := e }

/-- Why a waiter may not use a leaf at a page of its; none when it may. -/
def leafRefusal (s : State) (asid : Nat) (x : TlbEnt) (page : Nat) (y : Waiter) : Option (Nat × Nat) :=
  match onLeaf s asid (page * 4096) y.want x with
  | .error c => some c
  | .ok _ => none

theorem leafRefusal_eq_none_iff {s : State} {asid : Nat} {x : TlbEnt} {page : Nat} {y : Waiter} :
    leafRefusal s asid x page y = none ↔ ∃ t, onLeaf s asid (page * 4096) y.want x = .ok t := by
  unfold leafRefusal
  cases onLeaf s asid (page * 4096) y.want x <;> simp

/-- The queued misses that an entry covers. -/
def Die.covered (d : Die) (x : TlbEnt) : List Miss := d.missq.filter fun m => x.covers m.asid (m.page * 4096)

/-- Someone who waits for a walk, or for a queued miss that its leaf covers, may use the leaf. -/
def leafUsed (s : State) (d : Die) (w : Walk) (x : TlbEnt) : Bool :=
  w.who.any (fun y => (leafRefusal s w.asid x w.page y).isNone) ||
    (d.covered x).any fun m => m.who.any fun y => (leafRefusal s w.asid x m.page y).isNone

/-- Those whom a leaf answers: who waits for its walk, and who for a queued miss that it covers. -/
def Die.answered (d : Die) (w : Walk) (x : TlbEnt) : List Waiter := w.who ++ (d.covered x).flatMap fun m => m.who

/-- The die once a leaf has answered its waiters: the walk and the covered misses are gone, and the leaf is cached. -/
def Die.afterLeaf (d : Die) (idx : Nat) (w : Walk) (x : TlbEnt) : Die :=
  { d with walks := d.walks.eraseIdx idx, missq := d.missq.filter fun m => !x.covers m.asid (m.page * 4096) }.install w.asid w.seen x
    ((d.answered w x).isEmpty || (d.answered w x).any fun y => !isIngress y.who) ((d.answered w x).any fun y => isIngress y.who)

section
variable {die idx : Nat} {s : State} {w : Walk} (hw : (s.die die).walks[idx]? = some w)
include hw

theorem execWalkResult_of_fail {cause level : Nat} (hout : w.out = .fail cause level) :
    execWalkResult die idx s = .next (s.setDie die { s.die die with
      walks := (s.die die).walks.eraseIdx idx, failed := (s.die die).failed ++ w.failures fun _ => (cause, level) }) := by
  unfold execWalkResult
  simp only [hw, hout]
  rfl

theorem execWalkResult_of_leaf {base size : Nat} {e : DWord} (hout : w.out = .leaf base size e) :
    let x := w.entry base size e
    execWalkResult die idx s = .next (if leafUsed s (s.die die) w x || w.who.isEmpty then
        (dedup (((s.die die).answered w x).filterMap fun y => waiterCore y.who)).foldl (fun s ci => s.modCore ci fun c => c.fillTlb x)
          (s.setDie die ((s.die die).afterLeaf idx w x))
      else s.setDie die { s.die die with
        walks := (s.die die).walks.eraseIdx idx
        failed := (s.die die).failed ++ w.failures fun y => (leafRefusal s w.asid x w.page y).getD (0, 0) }) := by
  intro x
  unfold execWalkResult
  simp only [hw, hout, List.partition_eq_filter_filter]
  rw [apply_ite Host.Outcome.next]
  rfl

theorem execWalkResult_of_leaf_unused {base size : Nat} {e : DWord} (hout : w.out = .leaf base size e) (hne : w.who ≠ [])
    (hno : leafUsed s (s.die die) w (w.entry base size e) = false) :
    execWalkResult die idx s = .next (s.setDie die { s.die die with
      walks := (s.die die).walks.eraseIdx idx
      failed := (s.die die).failed ++ w.failures fun y => (leafRefusal s w.asid (w.entry base size e) w.page y).getD (0, 0) }) := by
  rw [execWalkResult_of_leaf hw hout, if_neg (by simp [hno, hne])]

end

theorem leafUsed_of_waiter {s : State} {d : Die} {w : Walk} {x : TlbEnt}
    (h : ∃ y ∈ w.who, ∃ t, onLeaf s w.asid (w.page * 4096) y.want x = .ok t) : leafUsed s d w x = true := by
  obtain ⟨y, hy, ht⟩ := h
  refine Bool.or_eq_true_iff.mpr (.inl (List.any_eq_true.mpr ⟨y, hy, ?_⟩))
  rw [leafRefusal_eq_none_iff.mpr ht]
  rfl

theorem leafUsed_eq_false {s : State} {d : Die} {w : Walk} {x : TlbEnt}
    (hw : ∀ y ∈ w.who, ¬ ∃ t, onLeaf s w.asid (w.page * 4096) y.want x = .ok t)
    (hq : ∀ m ∈ d.missq, x.covers m.asid (m.page * 4096) = true → ∀ y ∈ m.who,
      ¬ ∃ t, onLeaf s w.asid (m.page * 4096) y.want x = .ok t) : leafUsed s d w x = false := by
  refine Bool.or_eq_false_iff.mpr ⟨List.any_eq_false.mpr fun y hy => ?_, List.any_eq_false.mpr fun m hm => ?_⟩
  · rw [Option.isNone_iff_eq_none, leafRefusal_eq_none_iff]
    exact hw y hy
  · obtain ⟨hm, hc⟩ := List.mem_filter.mp hm
    rw [List.any_eq_true]
    rintro ⟨y, hy, hnone⟩
    exact hq m hm hc y hy (leafRefusal_eq_none_iff.mp (Option.isNone_iff_eq_none.mp hnone))

theorem mem_dedup {α : Type} [DecidableEq α] {a : α} {l : List α} : a ∈ dedup l ↔ a ∈ l := by
  induction l with
  | nil => rfl
  | cons b l ih =>
    rw [dedup, List.mem_cons, List.mem_cons, List.mem_filter, ih]
    by_cases h : a = b <;> simp [h]

theorem Die.mem_answered {d : Die} {w : Walk} (x : TlbEnt) {y : Waiter} (hy : y ∈ w.who) : y ∈ d.answered w x :=
  List.mem_append_left _ hy

theorem Die.mem_afterLeaf_l2tlb {d : Die} {idx : Nat} {w : Walk} {x : TlbEnt} {y : Waiter} (hy : y ∈ w.who)
    (hcore : isIngress y.who = false) : x ∈ (d.afterLeaf idx w x).l2tlb := by
  have hany : ((d.answered w x).any fun y => !isIngress y.who) = true :=
    List.any_eq_true.mpr ⟨y, Die.mem_answered x hy, by simp [hcore]⟩
  simp only [Die.afterLeaf, Die.install, hany, Bool.or_true, if_true]
  exact mem_l2tlbAdd _ _

theorem Die.mem_afterLeaf_ingressTlb {d : Die} {idx : Nat} {w : Walk} {x : TlbEnt} {y : Waiter} (hy : y ∈ w.who)
    (hin : isIngress y.who = true) : x ∈ (d.afterLeaf idx w x).ingressTlb := by
  have hany : ((d.answered w x).any fun y => isIngress y.who) = true := List.any_eq_true.mpr ⟨y, Die.mem_answered x hy, hin⟩
  simp only [Die.afterLeaf, Die.install, hany, if_true]
  exact mem_tlbAdd (by decide) _ _

/-- A leaf that a waiter may use answers the misses it covers, and reaches the TLBs of all who waited for the walk. -/
theorem execWalkResult_of_leaf_used {die idx : Nat} {s : State} {w : Walk} (hw : (s.die die).walks[idx]? = some w)
    {base size : Nat} {e : DWord} (hout : w.out = .leaf base size e) (hused : leafUsed s (s.die die) w (w.entry base size e) = true) :
    let x := w.entry base size e
    Next (execWalkResult die idx s) fun u =>
      u.die die = (s.die die).afterLeaf idx w x ∧ (∀ y ∈ w.who, ∀ ci, waiterCore y.who = some ci → x ∈ (u.core ci).l1tlb) ∧
        MemoryKept s u := by
  intro x
  rw [execWalkResult_of_leaf hw hout, if_pos (by rw [hused, Bool.true_or])]
  refine ⟨_, rfl, ?_, fun y hy ci hci => ?_, .of_mem ?_⟩
  · rw [State.foldl_modCore_die, State.die_setDie_same]
  · refine State.foldl_modCore_core (P := fun c => x ∈ c.l1tlb) (fun c => c.mem_fillTlb x) (.inl ?_)
    exact mem_dedup.mpr (List.mem_filterMap.mpr ⟨y, Die.mem_answered x hy, hci⟩)
  · rw [foldl_mem _ fun _ _ => State.modCore_mem _ _ _]
    rfl

/-! ## The ingress (R97) -/

/-- INGRESS_TRANSLATION acts on what the next byte's address finds at the ingress. -/
theorem execIngressTranslation_of {die idx : Nat} {s s' : State} {r : IngressReq} {o : IngressXl}
    (hr : (s.die die).ingress[idx]? = some r) (hplace : r.place = none) (hneeds : r.needsPage = true)
    (hx : s.ingressXl die r.num r.pkt.tasid (r.pkt.tva + r.done) (bodyWrites r.pkt.body) = (o, s')) :
    execIngressTranslation die idx s = match o with
      | .wait => .next s'
      | .ok pa cache => .next (s'.setIngress die idx { r with place := some (pa, cache) })
      | .fail cause level => .next ((s'.ingressRecord die r.pkt.tasid cause level
          (if bodyBulk r.pkt.body = true then (r.pkt.tva + r.done) / 4096 * 4096 else r.pkt.tva + r.done)).endIngress die idx r
            (if r.done = 0 then 1 else 2) cause) := by
  unfold execIngressTranslation
  simp only [hr, hplace, hneeds, hx]
  cases o <;> rfl

/-! ## TLB invalidation (R99) -/

/-- From s to u, every TLB and every set of invalidation registers is as before. -/
structure TlbsKept (s u : State) : Prop where
  l2tlb : ∀ k, (u.die k).l2tlb = (s.die k).l2tlb
  ingressTlb : ∀ k, (u.die k).ingressTlb = (s.die k).ingressTlb
  tlbinv : ∀ k, (u.die k).tlbinv = (s.die k).tlbinv
  l1tlb : ∀ ci, (u.core ci).l1tlb = (s.core ci).l1tlb

theorem TlbsKept.refl (s : State) : TlbsKept s s := ⟨fun _ => rfl, fun _ => rfl, fun _ => rfl, fun _ => rfl⟩

theorem TlbsKept.trans {s t u : State} (a : TlbsKept s t) (b : TlbsKept t u) : TlbsKept s u where
  l2tlb k := (b.l2tlb k).trans (a.l2tlb k)
  ingressTlb k := (b.ingressTlb k).trans (a.ingressTlb k)
  tlbinv k := (b.tlbinv k).trans (a.tlbinv k)
  l1tlb ci := (b.l1tlb ci).trans (a.l1tlb ci)

theorem TlbsKept.foldl {α : Type} {f : State → α → State} (hf : ∀ s a, TlbsKept s (f s a)) (l : List α) (s : State) :
    TlbsKept s (l.foldl f s) := by
  induction l generalizing s with
  | nil => exact .refl s
  | cons a l ih => exact (hf s a).trans (ih _)

theorem State.die_setDie_field {α : Type} (field : Die → α) {s : State} {k : Nat} {d : Die} (h : field d = field (s.die k)) (j : Nat) :
    field ((s.setDie k d).die j) = field (s.die j) := by
  by_cases e : j = k
  · rw [e, State.die_setDie_same, h]
  · rw [State.die_setDie_other _ _ _ _ e]

theorem State.setDie_tlbsKept {s : State} {k : Nat} {d : Die} (h2 : d.l2tlb = (s.die k).l2tlb)
    (hi : d.ingressTlb = (s.die k).ingressTlb) (ht : d.tlbinv = (s.die k).tlbinv) : TlbsKept s (s.setDie k d) where
  l2tlb := State.die_setDie_field Die.l2tlb h2
  ingressTlb := State.die_setDie_field Die.ingressTlb hi
  tlbinv := State.die_setDie_field Die.tlbinv ht
  l1tlb _ := rfl

theorem State.modCore_tlbsKept {s : State} {ci : Nat} {f : Core → Core} (hf : (f (s.core ci)).l1tlb = (s.core ci).l1tlb) :
    TlbsKept s (s.modCore ci f) := by
  refine ⟨fun _ => rfl, fun _ => rfl, fun _ => rfl, fun cj => ?_⟩
  by_cases e : cj = ci
  · rw [e, State.core_modCore_same, hf]
  · rw [State.core_modCore_other _ _ _ _ e]

theorem Core.undoGroup_l1tlb (c : Core) (gi : Nat) (g : Group) : (c.undoGroup gi g).l1tlb = c.l1tlb := by
  obtain ⟨_, _, _, _, _, _, _, _, h⟩ := c.undoGroup_frame gi g; rw [h]

/-- A group that aborts and replays takes no translation with it. -/
theorem State.abortReplay_tlbsKept (s : State) (ci gi : Nat) : TlbsKept s (s.abortReplay ci gi) := by
  unfold State.abortReplay
  refine (State.setDie_tlbsKept rfl rfl rfl : TlbsKept s (s.dropMisses ci gi)).trans (State.modCore_tlbsKept ?_)
  split
  · rfl
  · exact Core.undoGroup_l1tlb _ _ _

theorem State.invalidateGroups_tlbsKept (s : State) (t : TlbInv) : TlbsKept s (s.invalidateGroups t) := by
  unfold State.invalidateGroups
  refine TlbsKept.foldl (fun u ci => ?_) _ s
  refine TlbsKept.foldl (fun v e => ?_) _ u
  exact v.abortReplay_tlbsKept ci e.1

/-- No entry of the list overlaps the range. -/
def TlbInv.Clears (t : TlbInv) (l : List TlbEnt) : Prop := ∀ x ∈ l, t.covers x.asid x.va x.size = false

theorem TlbInv.clears_keep (t : TlbInv) (l : List TlbEnt) : t.Clears (t.keep l) := fun x hx => by
  simpa using (List.mem_filter.mp hx).2

/-- Steps 1 and 2 of R99 on every die. -/
def State.invalidateDies (s : State) (t : TlbInv) : State := [0, 1, 2, 3].foldl (fun s k => s.setDie k ((s.die k).invalidate t)) s

theorem State.invalidateDies_die (s : State) (t : TlbInv) {k : Nat} (hk : k < 4) :
    (s.invalidateDies t).die k = (s.die k).invalidate t := by
  unfold State.invalidateDies
  simp only [List.foldl_cons, List.foldl_nil]
  interval_cases k <;> simp [State.die_setDie_other]

/-- Entries of the L1 TLBs go (R99, step 1). -/
def State.invalidateL1s (s : State) (t : TlbInv) : State :=
  s.cores.keyList.foldl (fun s ci => s.modCore ci fun c => { c with l1tlb := t.keep c.l1tlb }) s

theorem State.invalidateL1s_die (s : State) (t : TlbInv) (k : Nat) : (s.invalidateL1s t).die k = s.die k :=
  State.foldl_modCore_die _ _ _ _

/-- A core that is not listed is empty, so its L1 TLB holds nothing. -/
theorem State.core_of_not_listed {s : State} {ci : Nat} (h : ci ∉ s.cores.keyList) : s.core ci = Core.empty := by
  unfold State.core NMap.atD
  cases e : s.cores.at? ci with
  | none => rfl
  | some c => exact absurd (List.mem_map.mpr ⟨(ci, c), NMap.at?_mem e, rfl⟩) h

theorem State.invalidateL1s_clears (s : State) (t : TlbInv) (ci : Nat) : t.Clears ((s.invalidateL1s t).core ci).l1tlb := by
  refine State.foldl_modCore_core (P := fun c => t.Clears c.l1tlb) (fun c => t.clears_keep c.l1tlb) ?_
  by_cases h : ci ∈ s.cores.keyList
  · exact .inl h
  · rw [State.core_of_not_listed h]
    exact .inr fun x hx => absurd hx List.not_mem_nil

/-- GO of TLBINV_CTL (R98): the fields are written and BUSY set, the TLBs and walkers are cleared of the range, and groups that used it
abort. -/
theorem State.tlbCtl_go {s : State} {die : Nat} {v : DWord} (hidle : (s.die die).tlbinv.busy = false) (hgo : v.getLsbD 63 = true) :
    let t : TlbInv := { (s.die die).tlbinv with asid := field v.toNat 32 16, npg := field v.toNat 0 28 }
    s.tlbCtl die v = (((s.setDie die { s.die die with tlbinv := { t with busy := true, done := false, after := s.xlCommits t.asid } }
      ).invalidateDies t).invalidateL1s t).invalidateGroups t := by
  unfold State.tlbCtl
  simp only [hidle, hgo]
  rfl

theorem execTlbinvGo_clears {s : State} {die : Nat} {v : DWord} (hidle : (s.die die).tlbinv.busy = false)
    (hgo : v.getLsbD 63 = true) (hdie : die < 4) :
    let t : TlbInv := { (s.die die).tlbinv with asid := field v.toNat 32 16, npg := field v.toNat 0 28 }
    Next (execTlbinvGo die v s) fun u =>
      (u.die die).tlbinv = { t with busy := true, done := false, after := s.xlCommits t.asid } ∧
      (∀ k, k < 4 → t.Clears (u.die k).l2tlb ∧ t.Clears (u.die k).ingressTlb) ∧ ∀ ci, t.Clears (u.core ci).l1tlb := by
  intro t
  rw [execTlbinvGo, State.tlbCtl_go hidle hgo]
  generalize hs : s.setDie die _ = s1
  have hkept := ((s1.invalidateDies t).invalidateL1s t).invalidateGroups_tlbsKept t
  refine ⟨_, rfl, ?_, fun k hk => ⟨?_, ?_⟩, fun ci => ?_⟩
  · rw [hkept.tlbinv, State.invalidateL1s_die, State.invalidateDies_die _ _ hdie, ← hs, State.die_setDie_same]
    rfl
  · rw [hkept.l2tlb, State.invalidateL1s_die, State.invalidateDies_die _ _ hk]
    exact t.clears_keep _
  · rw [hkept.ingressTlb, State.invalidateL1s_die, State.invalidateDies_die _ _ hk]
    exact t.clears_keep _
  · rw [hkept.l1tlb]
    exact State.invalidateL1s_clears _ _ _

theorem execTlbinvGo_busy {s : State} {die : Nat} (v : DWord) (hbusy : (s.die die).tlbinv.busy = true) :
    execTlbinvGo die v s = .next s := by
  rw [execTlbinvGo, State.tlbCtl]
  simp only [hbusy, if_true]

theorem CopyCmd.holdsXl_idle {k : CopyCmd} (t : TlbInv) (hrun : k.running = false) (hrem : k.remote = none) : k.holdsXl t = false := by
  simp [CopyCmd.holdsXl, hrun, hrem]

/-- DONE follows when no command, no request and no commit holds a translation (R99, steps 4 and 5). -/
theorem execTlbinvDone_of_idle {s : State} {die : Nat} (hbusy : (s.die die).tlbinv.busy = true)
    (hcopies : ∀ e ∈ s.cores, ∀ k ∈ e.2.courier, k.running = false ∧ k.remote = none)
    (hreqs : ∀ e ∈ s.dies, ∀ r ∈ e.2.ingress, r.place = none)
    (hcommits : ∀ x ∈ (s.die die).tlbinv.after, (s.core x.1).heldXl x.2 = false) :
    execTlbinvDone die s = .next (s.setDie die { s.die die with
      tlbinv := { (s.die die).tlbinv with busy := false, done := true, after := [] } }) := by
  have h1 : (s.cores.any fun e => e.2.courier.any fun k => k.holdsXl (s.die die).tlbinv) = false :=
    List.any_eq_false.mpr fun e he => by
      rw [List.any_eq_true]
      rintro ⟨k, hk, hx⟩
      obtain ⟨hrun, hrem⟩ := hcopies e he k hk
      rw [CopyCmd.holdsXl_idle _ hrun hrem] at hx
      cases hx
  have h2 : (s.dies.any fun e => e.2.ingress.any fun r =>
      r.place.isSome && (s.die die).tlbinv.covers r.pkt.tasid (r.pkt.tva + r.done) 1) = false :=
    List.any_eq_false.mpr fun e he => by
      rw [List.any_eq_true]
      rintro ⟨r, hr, hx⟩
      rw [hreqs e he r hr] at hx
      cases hx
  have h3 : ((s.die die).tlbinv.after.any fun x => (s.core x.1).heldXl x.2) = false :=
    List.any_eq_false.mpr fun x hx => by rw [hcommits x hx]; decide
  unfold execTlbinvDone
  simp only [h1, h2, h3, hbusy]
  rfl

end Sys2Proof.Machine

namespace Sys2Proof.Proofs

open Sys2Proof.Machine Sys2Proof.Safety Sys2Proof.Claims

/-- Settles O37: each event changes the walkers and TLBs as the lemma on its outcome says. -/
theorem translationEvents : Obligations.TranslationEvents := by
  intro die s
  dsimp only
  simp only [exec_pageWalk, exec_walkResult, exec_ingressTranslation, exec_tlbinvGo, exec_tlbinvDone]
  refine ⟨fun m rest hq hfree => ?_, fun idx w cause level hw hout => ?_, fun idx w base size e hw hout => ⟨fun hused => ?_, fun hne hno hnoq => ?_⟩,
    fun idx r hr hplace hneeds => ⟨fun pa cache s' hx => ?_, fun s' hx => ?_, fun cause level s' hx => ?_⟩,
    fun v hidle hgo hdie => ?_, fun v hbusy => execTlbinvGo_busy v hbusy,
    fun hbusy hcopies hreqs hcommits => execTlbinvDone_of_idle hbusy hcopies hreqs hcommits⟩
  · refine ⟨_, execPageWalk_cons hq hfree, ?_⟩
    dsimp only
    rw [State.die_setDie_same]
    exact ⟨rfl, rfl, rfl, fun k hk => State.die_setDie_other _ _ _ _ hk, rfl, .of_mem rfl⟩
  · refine ⟨_, execWalkResult_of_fail hw hout, ?_⟩
    dsimp only
    rw [State.die_setDie_same]
    exact ⟨rfl, rfl, rfl, rfl, rfl, rfl, .of_mem rfl⟩
  · obtain ⟨u, hu, hd, hl1, hmem⟩ := execWalkResult_of_leaf_used hw hout (leafUsed_of_waiter hused)
    refine ⟨u, hu, ?_⟩
    dsimp only
    rw [hd]
    exact ⟨rfl, rfl, fun y hy hc => Die.mem_afterLeaf_l2tlb hy hc, fun y hy hc => Die.mem_afterLeaf_ingressTlb hy hc, hl1, hmem⟩
  · refine ⟨_, execWalkResult_of_leaf_unused hw hout hne (leafUsed_eq_false hno fun m hm hc y hy => ?_), ?_⟩
    · exact hnoq m hm hc y hy
    · dsimp only
      rw [State.die_setDie_same]
      exact ⟨rfl, rfl, rfl, rfl, fun y hy => ⟨_, List.mem_append_right _ (List.mem_map_of_mem hy), rfl, rfl, rfl⟩, rfl, .of_mem rfl⟩
  · exact execIngressTranslation_of hr hplace hneeds hx
  · exact execIngressTranslation_of hr hplace hneeds hx
  · exact execIngressTranslation_of hr hplace hneeds hx
  · obtain ⟨u, hu, hinv, hdies, hcores⟩ := execTlbinvGo_clears hidle hgo hdie
    exact ⟨u, hu, hinv, fun k x hk hx => hx.elim ((hdies k hk).1 x) ((hdies k hk).2 x), fun ci x hx => hcores ci x hx⟩

end Sys2Proof.Proofs
end

section
/-! SUPPORT. LDG and FETCH at issue (R106, R275, R280, R285), and the words that complete at issue: FENCE, BAR, CBAR and LSET (R128, R291,
R292). -/

namespace Sys2Proof.Machine

open Sys2Proof.Safety Sys2Proof.Claims

/-! ## The lanes of a global access (R84, R94, R285) -/

/-- What no active lane fails has no first cause. -/
theorem firstCause_eq_none {cls : Cls} {act : LaneMask} {addr : Nat → Nat} {cause : Nat} {p : Nat → Bool}
    (h : ∀ l ∈ maskLanes act, p l = false) : firstCause cls act addr [(cause, p)] = none := by
  have hleader : leader? (failing act p) = none := by
    refine List.find?_eq_none.mpr fun l hl => ?_
    have hl32 : l < 32 := List.mem_range.mp hl
    rw [failing, laneBit_maskOf _ hl32, Bool.and_eq_true, not_and, Bool.not_eq_true]
    exact fun hbit => h l ((mem_maskLanes act l).mpr ⟨hl32, hbit⟩)
  simp only [firstCause, hleader]

section
variable {s : State} {x : Ctx} {act : LaneMask} {write : Bool} {al : Nat} {va : Nat → Nat}
  {k : State → Group → List (Nat × Target) → State}

theorem withLanes_of_reaches {s' : State} {ts : List (Nat × Target)} (h : Reaches s x act write al va s' ts) :
    withLanes s x act write al va k = k s' (x.g.foot ((maskLanes act).map va)) ts := by
  obtain ⟨halign, hplaces⟩ := h
  have haligned : firstCause .globalAccess act va [(causeGAlign, fun l => va l % al != 0)] = none :=
    firstCause_eq_none fun l hl => by simp [halign l hl]
  simp only [withLanes, haligned, hplaces]

theorem withLanes_of_misaligned {e : Flt}
    (h : firstCause .globalAccess act va [(causeGAlign, fun l => va l % al != 0)] = some e) :
    withLanes s x act write al va k = s.faultWord x.g e := by
  simp only [withLanes, h]

end

/-! ## Loads and FETCH start an operation (R106, R275, R280) -/

@[simp] theorem ctx1_flagFull (f : F1) (s : State) (g : Group) (n : Option Nat) : (ctx1 f s g).g.flagFull n = g.flagFull n := by
  obtain ⟨h, e⟩ := ctx1_group f s g; rw [e]; rfl

@[simp] theorem ctx1_ll (f : F1) (s : State) (g : Group) : (ctx1 f s g).g.ll = g.ll := by
  obtain ⟨h, e⟩ := ctx1_group f s g; rw [e]

@[simp] theorem LongOp.serveDone_num (o : LongOp) : o.serveDone.num = o.num := by
  unfold LongOp.serveDone; dsimp only; split <;> rfl

@[simp] theorem LongOp.serveDone_flag (o : LongOp) : o.serveDone.flag = o.flag := by
  unfold LongOp.serveDone; dsimp only; split <;> rfl

theorem Group.acquire_eq (g : Group) (f : F1) : g.acquire f = { g with acqWait := g.acqWait || orderAcq f.order } := by
  unfold Group.acquire
  cases orderAcq f.order <;> simp

/-- A load or FETCH with room in its flag starts its operation, which is then served as far as it can be (R57). -/
theorem State.startGlobal_started (s : State) (h : Group) (f : F1) (kind : OpKind) (overlay : Bool) (accs : List Access)
    (hflag : h.flagFull (flagOf f.flag.toNat) = false) :
    ∃ u, Started s { h with acqWait := orderAcq f.order } (globalOp s h f kind overlay accs) (fun c => c) (.next u) ∧
      s.startGlobal h f kind overlay accs = u.serveGlobal s.cur.1 s.cur.2 (globalOp s h f kind overlay accs).num := by
  have hnum : (globalOp s h f kind overlay accs).num = (s.core s.cur.1).nextNum := by simp [globalOp, LongOp.plain]
  have hmark : (globalOp s h f kind overlay accs).flag = flagOf f.flag.toNat := by simp [globalOp, LongOp.plain]
  refine ⟨_, State.startOp_started s { h with acqWait := orderAcq f.order } (flagOf f.flag.toNat)
    (fun n => LongOp.serveDone { LongOp.plain n (flagOf f.flag.toNat) h.pc kind with
      ready := false, dst := f.d, size := f.fn, accs := accs, overlay := if overlay then h.overlayOf accs else [] })
    (fun _ c => c) hflag hnum hmark, ?_⟩
  rw [hnum, State.startGlobal, if_neg (by simp [hflag]), Group.acquire_eq]
  rfl

section
variable {s : State} {g : Group} (hI : Issuing s g) (f : F1)
include hI

/-- An open acquire holds loads and FETCH back (R280). -/
theorem execLdg_of_blocked (h : g.acqBlocked = true) : Waits s g (execLdg f s) := by
  rw [execLdg, withIssuer_of hI]
  simp only [h, if_true]
  exact State.hold_waits s g

theorem execFetch_of_blocked (h : g.acqBlocked = true) : Waits s g (execFetch f s) := by
  rw [execFetch, withIssuer_of hI]
  simp only [h, if_true]
  exact State.hold_waits s g

theorem execLdg_of_free (h : g.acqBlocked = false) :
    execLdg f s = .next (withLanes s (ctx1 f s g) (g.active f.g) false (sizeBytes f.fn.toNat) (loadAddr (ctx1 f s g) f) fun s' h ts =>
      s'.startGlobal h f (.load (f.l1pol == 1) (f.l1pol == 2) h.ll) true (loadAccs f (loadAddr (ctx1 f s g) f) true ts)) := by
  rw [execLdg, withIssuer_of hI]
  simp only [h]
  rfl

/-- FETCH tests the class of its places once they translate (R285). -/
theorem execFetch_of_free (h : g.acqBlocked = false) :
    execFetch f s = .next (withLanes s (ctx1 f s g) (g.active f.g) false (sizeBytes f.fn.toNat) (bareAddr (ctx1 f s g) f) fun s' h ts =>
      match classCheck ts (bareAddr (ctx1 f s g) f) with
      | some e => s'.faultWord h e
      | none => s'.startGlobal h f .fetch false (loadAccs f (bareAddr (ctx1 f s g) f) false ts)) := by
  rw [execFetch, withIssuer_of hI]
  simp only [h]
  rfl

end

/-! ## Fences, barriers and the lease length (R128, R291, R292) -/

theorem Group.release_eq (g : Group) (f : F1) :
    g.release f = if f.order = .rel ∨ f.order = .ar then { g with fences := g.fences ++ [f.scope] } else g := by
  unfold Group.release
  cases f.order <;> simp [orderRel]

theorem Group.acquire_eq_ite (g : Group) (f : F1) :
    g.acquire f = if f.order = .acq ∨ f.order = .ar then { g with acqWait := true } else g := by
  unfold Group.acquire
  cases f.order <;> simp [orderAcq]

/-- A barrier word's count is a count of at least one token that fits 24 bits (R292). -/
theorem barCount_bounds (x : Ctx) (f : F1) : 1 ≤ barCount x f ∧ barCount x f ≤ 16777215 := by
  unfold barCount
  dsimp only
  omega

/-- The lease length lies between 64 and 65,536 ticks, whatever LSET is given (R128). -/
theorem lsetLen_bounds (x : Ctx) (f : F1) (l : Nat) : 64 ≤ lsetLen x f l ∧ lsetLen x f l ≤ 65536 := by
  unfold lsetLen
  cases f.c with
  | imm b =>
    dsimp only
    split
    · omega
    · next hb =>
      have hlt : b.toNat < 256 := b.isLt
      have hpos : b.toNat ≠ 0 := fun h => hb (BitVec.eq_of_toNat_eq h)
      omega
  | op o =>
    dsimp only
    split <;> omega

section
variable {s : State} {g : Group} (hI : Issuing s g) (f : F1)
include hI

theorem execFence_done : Done s ((g.release f).acquire f) (execFence f s) := by
  rw [execFence, withIssuer_of hI]
  exact State.finish_done _ _

theorem barWord_done (clus : Bool) :
    let h := ((ctx1 f s g).g.release f).acquire f
    Done s (if h.bars.any fun b => b.1 == clus && b.2.1 == f.fn.toNat then h
      else { h with bars := h.bars ++ [(clus, f.fn.toNat, barCount (ctx1 f s g) f)] }) (barWord s f clus) := by
  rw [barWord, withIssuer_of hI]
  exact State.finish_done _ _

theorem execLset_of_leader {l : Nat} (h : leader? (g.active f.g) = some l) :
    Done s { (ctx1 f s g).g with ll := lsetLen (ctx1 f s g) f l } (execLset f s) := by
  have hx : f1Ctx f s (s.core s.cur.1) g = (ctx1 f s g, g.active f.g) := rfl
  rw [execLset, withIssuer_of hI, hx]
  simp only [h]
  exact State.finish_done _ _

theorem execLset_idle (h : leader? (g.active f.g) = none) : Done s (ctx1 f s g).g (execLset f s) := by
  have hx : f1Ctx f s (s.core s.cur.1) g = (ctx1 f s g, g.active f.g) := rfl
  rw [execLset, withIssuer_of hI, hx]
  simp only [h]
  exact State.finish_done _ _

end

end Sys2Proof.Machine

namespace Sys2Proof.Proofs

open Sys2Proof.Machine Sys2Proof.Safety Sys2Proof.Claims

/-- Settles O18: past an open acquire both words run over their lanes, which are misaligned or reach their places. -/
theorem globalLoadsStart : Obligations.GlobalLoadsStart := by
  intro f s g hI hflag
  refine ⟨fun hwait => ⟨execLdg_of_blocked hI f hwait, execFetch_of_blocked hI f hwait⟩, fun hfree s' ts => ⟨fun hreach => ?_,
    fun hreach hclass => ?_, fun hreach e hclass => ?_⟩, fun hfree e => ⟨fun hmis => ?_, fun hmis => ?_⟩⟩
  · obtain ⟨u, hstart, hserve⟩ := State.startGlobal_started s' ((ctx1 f s g).g.foot ((maskLanes (g.active f.g)).map (loadAddr (ctx1 f s g) f)))
      f (.load (f.l1pol == 1) (f.l1pol == 2) g.ll) true (loadAccs f (loadAddr (ctx1 f s g) f) true ts)
      ((ctx1_flagFull f s g _).trans hflag)
    refine ⟨u, hstart, ?_⟩
    rw [exec_ldg, execLdg_of_free hI f hfree, withLanes_of_reaches hreach, ← hserve, ← ctx1_ll f s g]
    rfl
  · obtain ⟨u, hstart, hserve⟩ := State.startGlobal_started s' ((ctx1 f s g).g.foot ((maskLanes (g.active f.g)).map (bareAddr (ctx1 f s g) f)))
      f .fetch false (loadAccs f (bareAddr (ctx1 f s g) f) false ts) ((ctx1_flagFull f s g _).trans hflag)
    refine ⟨u, hstart, ?_⟩
    rw [exec_fetch, execFetch_of_free hI f hfree, withLanes_of_reaches hreach, ← hserve]
    simp only [hclass]
  · rw [exec_fetch, execFetch_of_free hI f hfree, withLanes_of_reaches hreach]
    simp only [hclass]
    exact State.faultWord_faults _ _ _
  · rw [exec_ldg, execLdg_of_free hI f hfree, withLanes_of_misaligned hmis]
    exact State.faultWord_faults _ _ _
  · rw [exec_fetch, execFetch_of_free hI f hfree, withLanes_of_misaligned hmis]
    exact State.faultWord_faults _ _ _

/-- Settles O20: the words finish at issue, with the group that ORDER, the channel or the leader gives. -/
theorem fencesBarriersAndLeaseLength : Obligations.FencesBarriersAndLeaseLength := by
  intro f s g hI
  dsimp only
  simp only [← Group.release_eq, ← Group.acquire_eq_ite]
  exact ⟨execFence_done hI f, barWord_done hI f false, barWord_done hI f true, barCount_bounds _ f,
    fun l hl => ⟨execLset_of_leader hI f hl, lsetLen_bounds _ f l⟩, execLset_idle hI f⟩

end Sys2Proof.Proofs
end

section
/-! SUPPORT. Lines and permits of a slice (R110, R113): what listing, unlisting and moving permits do to a line's permits and leases. -/

namespace Sys2Proof

/-- A search whose answer the replacement does not change finds the replaced element. -/
theorem find?_replaceIf {α : Type} {p q : α → Bool} {f : α → α} (hf : ∀ a, p a = true → q (f a) = q a) (l : List α) :
    (replaceIf p f l).find? q = (l.find? q).map fun a => if p a then f a else a := by
  have hq : (q ∘ fun a => if p a then f a else a) = q := by
    funext a
    by_cases h : p a = true
    · simp [h, hf a h]
    · simp [h]
  rw [replaceIf, List.find?_map, hq]

/-- The only element that a search accepts is found where it was inserted. -/
theorem find?_insertBy_new {α : Type} {le : α → α → Bool} {p : α → Bool} {a : α} {l : List α} (ha : p a = true)
    (hl : l.find? p = none) : (insertBy le a l).find? p = some a := by
  induction l with
  | nil => simp [insertBy, ha]
  | cons b l ih =>
    have hb : p b ≠ true := List.find?_eq_none.mp hl b List.mem_cons_self
    rw [List.find?_cons_of_neg hb] at hl
    rw [insertBy]
    split
    · rw [List.find?_cons_of_pos ha]
    · rw [List.find?_cons_of_neg hb, ih hl]

end Sys2Proof

namespace Sys2Proof.Machine

open Sys2Proof.Safety Sys2Proof.Claims

/-! ## A line of a slice (R110) -/

theorem Slice.lineD_line (x : Slice) (ln : Nat) : (x.lineD ln).line = ln := by
  unfold Slice.lineD
  cases h : x.line? ln with
  | none => rfl
  | some l =>
    have hline : (l.line == ln) = true := List.find?_some (p := fun l : L2Line => l.line == ln) h
    exact beq_iff_eq.mp hline

theorem Slice.lineD_of_absent {x : Slice} {ln : Nat} (h : x.line? ln = none) : x.lineD ln = x.freshLine ln := by
  rw [Slice.lineD, h]; rfl

theorem Slice.line?_setLine_same (x : Slice) (l : L2Line) : (x.setLine l).line? l.line = some l := by
  unfold Slice.setLine
  cases hfind : x.lines.find? fun y => y.line == l.line with
  | none =>
    have habsent : (x.lines.any fun y => y.line == l.line) = false := List.any_eq_false.mpr (List.find?_eq_none.mp hfind)
    rw [habsent]
    exact find?_insertBy_new (beq_self_eq_true _) hfind
  | some y =>
    have hy : (y.line == l.line) = true := List.find?_some (p := fun y : L2Line => y.line == l.line) hfind
    have hlisted : (x.lines.any fun y => y.line == l.line) = true := List.any_eq_true.mpr ⟨y, List.mem_of_find?_eq_some hfind, hy⟩
    rw [hlisted, if_pos rfl]
    show (replaceIf _ _ x.lines).find? _ = _
    rw [find?_replaceIf (fun a ha => by rw [ha]; exact beq_self_eq_true _), hfind, Option.map_some, if_pos hy]

theorem Slice.lineD_setLine {x : Slice} {l : L2Line} {ln : Nat} (h : l.line = ln) : (x.setLine l).lineD ln = l := by
  rw [Slice.lineD, ← h, Slice.line?_setLine_same]; rfl

theorem Slice.permits_setLine {x : Slice} {l : L2Line} {ln : Nat} (h : l.line = ln) : ((x.setLine l).lineD ln).permits = l.permits := by
  rw [Slice.lineD_setLine h]

@[simp] theorem Slice.setLine_asks (x : Slice) (l : L2Line) : (x.setLine l).asks = x.asks := by
  unfold Slice.setLine; split <;> rfl

@[simp] theorem Slice.setLine_floor (x : Slice) (l : L2Line) : (x.setLine l).floor = x.floor := by
  unfold Slice.setLine; split <;> rfl

@[simp] theorem Slice.unlist_asks (x : Slice) (now ln : Nat) : (x.unlist now ln).asks = x.asks := rfl

/-- The lease floor never falls (R110). -/
theorem Slice.floor_le_unlist (x : Slice) (now ln : Nat) : x.floor ≤ (x.unlist now ln).floor := by
  show x.floor ≤ if now < (x.lineD ln).expmax then max x.floor (x.lineD ln).expmax else x.floor
  split
  · exact le_max_left _ _
  · exact le_rfl

theorem Slice.line?_unlist_same (x : Slice) (now ln : Nat) : (x.unlist now ln).line? ln = none := by
  refine List.find?_eq_none.mpr fun y hy => ?_
  have hne := (List.mem_filter.mp hy).2
  simpa using hne

/-- Unlisting lists no line. -/
theorem Slice.line?_unlist_of_absent {x : Slice} {ln : Nat} (h : x.line? ln = none) (now j : Nat) : (x.unlist now j).line? ln = none :=
  List.find?_eq_none.mpr fun y hy => List.find?_eq_none.mp h y (List.mem_filter.mp hy).1

/-- A lease that runs goes on at the floor when its line is unlisted (R110). -/
theorem Slice.lt_expmax_unlist {x : Slice} {now ln : Nat} (h : now < (x.lineD ln).expmax) : now < ((x.unlist now ln).lineD ln).expmax := by
  rw [Slice.lineD_of_absent (Slice.line?_unlist_same x now ln)]
  show now < if now < (x.lineD ln).expmax then max x.floor (x.lineD ln).expmax else x.floor
  rw [if_pos h]
  exact lt_of_lt_of_le h (le_max_right _ _)

/-! ## What changes slices alone -/

/-- From s to t nothing changed but slices. -/
def PermitsMoved (s t : State) : Prop := ∃ x, t = { s with slices := x }

section
variable {s t u : State}

theorem PermitsMoved.refl (s : State) : PermitsMoved s s := ⟨_, rfl⟩

theorem PermitsMoved.trans (a : PermitsMoved s t) (b : PermitsMoved t u) : PermitsMoved s u := by
  obtain ⟨x, rfl⟩ := a
  obtain ⟨y, rfl⟩ := b
  exact ⟨y, rfl⟩

theorem PermitsMoved.foldl {α : Type} {f : State → α → State} (hf : ∀ s x, PermitsMoved s (f s x)) (xs : List α) (s : State) :
    PermitsMoved s (xs.foldl f s) :=
  List.foldlRecOn (motive := PermitsMoved s) _ _ (.refl s) fun u hu x _ => hu.trans (hf u x)

theorem PermitsMoved.cores (h : PermitsMoved s t) : t.cores = s.cores := by obtain ⟨x, rfl⟩ := h; rfl
theorem PermitsMoved.mem (h : PermitsMoved s t) : t.mem = s.mem := by obtain ⟨x, rfl⟩ := h; rfl
theorem PermitsMoved.poolState (h : PermitsMoved s t) : t.poolState = s.poolState := by obtain ⟨x, rfl⟩ := h; rfl
theorem PermitsMoved.hostState (h : PermitsMoved s t) : t.hostState = s.hostState := by obtain ⟨x, rfl⟩ := h; rfl
theorem PermitsMoved.recalls (h : PermitsMoved s t) : t.recalls = s.recalls := by obtain ⟨x, rfl⟩ := h; rfl
theorem PermitsMoved.permitHome (h : PermitsMoved s t) (ln : Nat) : permitHome t ln = permitHome s ln := by obtain ⟨x, rfl⟩ := h; rfl
theorem PermitsMoved.gtcAt (h : PermitsMoved s t) (die : Nat) : t.gtcAt die = s.gtcAt die := by obtain ⟨x, rfl⟩ := h; rfl

end

theorem State.setSlice_moved (s : State) (k : Nat) (x : Slice) : PermitsMoved s (s.setSlice k x) := ⟨_, rfl⟩

theorem State.setPermits_moved (s : State) (k ln n : Nat) (owner : Bool) : PermitsMoved s (s.setPermits k ln n owner) := by
  unfold State.setPermits
  split
  · exact .refl s
  · split
    · split
      · exact State.setSlice_moved _ _ _
      · exact .refl s
    · exact State.setSlice_moved _ _ _

theorem State.homeLoses_moved (s : State) (ln : Nat) : PermitsMoved s (s.homeLoses ln) := by
  unfold State.homeLoses
  dsimp only
  split
  · exact State.setSlice_moved _ _ _
  · exact .refl s

theorem State.movePermits_moved (s : State) (from_ dst ln n : Nat) (owner : Bool) : PermitsMoved s (s.movePermits from_ dst ln n owner) :=
  ((State.setPermits_moved _ _ _ _ _).trans (State.setPermits_moved _ _ _ _ _)).trans (State.homeLoses_moved _ _)

theorem SlicesOnly.permitHome {s t : State} (h : SlicesOnly s t) (ln : Nat) : permitHome t ln = permitHome s ln := by
  unfold Machine.permitHome homeSlice slicePos slicesPerDie
  rw [h.dev]

@[simp] theorem slice_poolAcquire (s : State) (ln : Nat) (w : Bool) (k : Nat) : (s.poolAcquire ln w).slice k = s.slice k := by
  unfold State.poolAcquire; split <;> rfl

@[simp] theorem slice_homeClean (s : State) (ln k : Nat) : (s.homeClean ln).slice k = s.slice k := by
  unfold State.homeClean
  split
  · rfl
  · split
    · rfl
    · refine List.foldlRecOn (motive := fun (t : State) => t.slice k = s.slice k) _ _ rfl fun t ht h _ => ?_
      split
      · exact ht
      · exact ht
    · rfl

/-! ## The permits of a slice (R113) -/

theorem State.permitsAt_of_ne_home {s : State} {k ln : Nat} (h : k ≠ permitHome s ln) : s.permitsAt k ln = ((s.slice k).lineD ln).permits :=
  if_neg h

theorem State.slice_setPermits_other (s : State) {k j : Nat} (ln n : Nat) (owner : Bool) (h : j ≠ k) :
    (s.setPermits k ln n owner).slice j = s.slice j := by
  unfold State.setPermits
  split
  · rfl
  · split
    · split
      · exact State.slice_setSlice_other _ _ _ _ h
      · rfl
    · exact State.slice_setSlice_other _ _ _ _ h

/-- The home's own permits are counted, not set. -/
@[simp] theorem State.setPermits_home (s : State) (ln n : Nat) (owner : Bool) : s.setPermits (permitHome s ln) ln n owner = s := if_pos rfl

theorem State.permitsAt_setPermits {s : State} {k ln : Nat} (n : Nat) (owner : Bool) (h : k ≠ permitHome s ln) :
    (s.setPermits k ln n owner).permitsAt k ln = n := by
  have hmoved := State.setPermits_moved s k ln n owner
  rw [State.permitsAt_of_ne_home (by rwa [hmoved.permitHome])]
  unfold State.setPermits
  rw [if_neg h]
  split
  · next h0 =>
    split
    · rw [State.slice_setSlice_same, Slice.lineD_of_absent (Slice.line?_unlist_same _ _ _), h0]; rfl
    · next hno => rw [Slice.lineD_of_absent (Option.not_isSome_iff_eq_none.mp hno), h0]; rfl
  · rw [State.slice_setSlice_same]
    exact Slice.permits_setLine (Slice.lineD_line _ _)

theorem State.asks_setPermits (s : State) (k ln n : Nat) (owner : Bool) : ((s.setPermits k ln n owner).slice k).asks = (s.slice k).asks := by
  unfold State.setPermits
  split
  · rfl
  · split
    · split
      · rw [State.slice_setSlice_same, Slice.unlist_asks]
      · rfl
    · rw [State.slice_setSlice_same, Slice.setLine_asks]

theorem State.floor_le_setPermits (s : State) (k ln n : Nat) (owner : Bool) :
    (s.slice k).floor ≤ ((s.setPermits k ln n owner).slice k).floor := by
  unfold State.setPermits
  split
  · exact le_rfl
  · split
    · split
      · rw [State.slice_setSlice_same]; exact Slice.floor_le_unlist _ _ _
      · exact le_rfl
    · rw [State.slice_setSlice_same, Slice.setLine_floor]

theorem State.slice_homeLoses_other (s : State) {ln j : Nat} (h : j ≠ permitHome s ln) : (s.homeLoses ln).slice j = s.slice j := by
  unfold State.homeLoses
  dsimp only
  split
  · exact State.slice_setSlice_other _ _ _ _ h
  · rfl

/-- Permits that go to the home change no third slice. -/
theorem State.slice_movePermits_home (s : State) {k j : Nat} (ln n : Nat) (owner : Bool) (hk : j ≠ k) (hhome : j ≠ permitHome s ln) :
    (s.movePermits k (permitHome s ln) ln n owner).slice j = s.slice j := by
  unfold State.movePermits
  dsimp only
  generalize hu : s.setPermits k ln (s.permitsAt k ln - n) (s.ownerAt ln == k && !owner) = u
  have hmoved : PermitsMoved s u := hu ▸ State.setPermits_moved _ _ _ _ _
  rw [← hmoved.permitHome ln, State.setPermits_home, State.slice_homeLoses_other _ (by rwa [hmoved.permitHome]), ← hu,
    State.slice_setPermits_other _ _ _ _ hk]

theorem State.permitsOut_eq (s : State) (ln : Nat) :
    s.permitsOut ln = (s.slices.map fun e => (e.2.lineD ln).permits + (e.2.inFlight ln).1).sum := by
  unfold State.permitsOut
  rw [← List.sum_eq_foldl]
  refine congrArg List.sum (List.map_congr_left fun e _ => ?_)
  unfold Slice.lineD
  cases e.2.line? ln <;> rfl

theorem State.mem_slices_of_permits {s : State} {k ln : Nat} (h : ((s.slice k).lineD ln).permits ≠ 0) : (k, s.slice k) ∈ s.slices := by
  refine NMap.at?_mem ?_
  unfold State.slice NMap.atD at h ⊢
  cases hk : s.slices.at? k with
  | none => rw [hk] at h; exact absurd rfl h
  | some x => rfl

/-- Permits that another slice holds are not at the home. -/
theorem State.permitsOut_pos {s : State} {k ln : Nat} (h : ((s.slice k).lineD ln).permits ≠ 0) : 0 < s.permitsOut ln := by
  have hle := List.le_sum_of_mem (List.mem_map_of_mem (f := fun e : Nat × Slice => (e.2.lineD ln).permits + (e.2.inFlight ln).1)
    (State.mem_slices_of_permits h))
  rw [State.permitsOut_eq]
  exact lt_of_lt_of_le (Nat.add_pos_left (Nat.pos_of_ne_zero h) _) hle

theorem State.permitsAt_home_ne {s : State} {k ln : Nat} (h : ((s.slice k).lineD ln).permits ≠ 0) : s.permitsAt (permitHome s ln) ln ≠ 32 := by
  have hout := State.permitsOut_pos h
  unfold State.permitsAt
  rw [if_pos rfl]
  omega

/-! ## A line is placed (R105, R110) -/

/-- A slice that evicts a line for one that it does not list lists no more than before. -/
theorem State.evictFor_absent {s t : State} {k ln : Nat} (h : s.evictFor k ln = some t) (hno : (s.slice k).line? ln = none) :
    (t.slice k).line? ln = none := by
  unfold State.evictFor at h
  dsimp only at h
  split at h
  · cases h; exact hno
  · obtain ⟨v, -, rfl⟩ := Option.map_eq_some_iff.mp h
    split
    · rw [slice_homeClean, State.slice_setSlice_same]; exact Slice.line?_unlist_of_absent hno _ _
    · rw [State.slice_setSlice_same]; exact Slice.line?_unlist_of_absent hno _ _

/-- A line that is placed keeps its permits. -/
theorem State.placeLine_permits {s t : State} {k ln pol : Nat} (h : s.placeLine k ln pol = some t) :
    ((t.slice k).lineD ln).permits = ((s.slice k).lineD ln).permits := by
  unfold State.placeLine at h
  dsimp only at h
  obtain ⟨u, hu, rfl⟩ := Option.map_eq_some_iff.mp h
  have hkeep : ((u.slice k).lineD ln).permits = ((s.slice k).lineD ln).permits := by
    split at hu
    · cases hu; rfl
    · next hno =>
      have hno' := Option.not_isSome_iff_eq_none.mp hno
      rw [Slice.lineD_of_absent hno', Slice.lineD_of_absent (State.evictFor_absent hu hno')]
      rfl
  rw [← hkeep]
  split
  · split
    · rfl
    · rw [State.slice_setSlice_same]
      exact Slice.permits_setLine (Slice.lineD_line _ _)
  · rw [State.slice_setSlice_same]
    exact Slice.permits_setLine (Slice.lineD_line _ _)

/-! ## What an agent has asked for (R114) -/

theorem State.askOf_of_slice {s t : State} {k : Nat} (h : t.slice k = s.slice k) (ln : Nat) : t.askOf k ln = s.askOf k ln := by
  rw [State.askOf, h]; rfl

theorem State.askOf_line {s : State} {k ln : Nat} {a : PermitReq} (h : s.askOf k ln = some a) : a.line = ln :=
  beq_iff_eq.mp (List.find?_some (p := fun a : PermitReq => a.line == ln) h)

theorem State.askOf_modAsk (s : State) (k ln : Nat) {f : PermitReq → PermitReq} (hf : ∀ a, (f a).line = a.line) :
    (s.modAsk k ln f).askOf k ln = (s.askOf k ln).map f := by
  show (((s.setSlice k _).slice k).asks).find? _ = _
  rw [State.slice_setSlice_same]
  show (replaceIf _ f (s.slice k).asks).find? _ = _
  rw [find?_replaceIf (fun a _ => by rw [hf])]
  show (s.askOf k ln).map _ = _
  cases h : s.askOf k ln with
  | none => rfl
  | some a => simp [State.askOf_line h]

/-- Once its requests for a line are gone, a slice asks for it no more. -/
theorem find?_asks_filter (as : List PermitReq) (ln : Nat) : ((as.filter fun b => b.line != ln).find? fun b => b.line == ln) = none := by
  refine List.find?_eq_none.mpr fun b hb => ?_
  have hne := (List.mem_filter.mp hb).2
  simpa using hne

theorem State.slice_dropPermit_other (s : State) {k ln j : Nat} (h : j ≠ permitHome s ln) : (s.dropPermit k ln).slice j = s.slice j :=
  State.slice_setSlice_other _ _ _ _ h

theorem State.askOf_reply {s : State} {k ln : Nat} (r : Option (Nat × Bool)) (h : k ≠ permitHome s ln) :
    (s.reply k ln r).askOf k ln = (s.askOf k ln).map fun a => { a with reply := some r } := by
  have hmod := State.askOf_modAsk (s.dropPermit k ln) k ln (f := fun a => { a with reply := some r }) fun _ => rfl
  have hhome := State.slice_homeLoses_other ((s.dropPermit k ln).modAsk k ln fun a => { a with reply := some r }) (ln := ln) h
  rw [State.reply, State.askOf_of_slice hhome, hmod, State.askOf_of_slice (State.slice_dropPermit_other s h)]

end Sys2Proof.Machine
end

section
/-! SUPPORT. Recalls (R117, R121): what a snoop's recall moves, and that a lease that runs lets none end. -/

namespace Sys2Proof.Machine

open Sys2Proof.Safety Sys2Proof.Claims

/-! ## A lease that runs (R108, R109) -/

/-- A lease on the line runs at the slice. -/
def State.Leased (s : State) (k ln : Nat) : Prop := s.gtcAt (k / 256) < ((s.slice k).lineD ln).expmax

theorem State.letsGoPast_of_leased {s : State} {k ln : Nat} (h : s.Leased k ln) (first : SliceEnt → Bool) :
    s.letsGoPast k ln first = false := by
  unfold State.letsGoPast
  dsimp only
  rw [decide_eq_false (Nat.not_le_of_lt h), Bool.false_and, Bool.false_and]

theorem State.Leased.of_slice {s t : State} {k ln : Nat} (hmoved : PermitsMoved s t) (hslice : t.slice k = s.slice k) (h : s.Leased k ln) :
    t.Leased k ln := by
  unfold State.Leased
  rwa [hmoved.gtcAt, hslice]

/-- A home that loses its last permit goes on with the lease at its floor (R110). -/
theorem State.Leased.homeLoses {s : State} {ln : Nat} (h : s.Leased (permitHome s ln) ln) : (s.homeLoses ln).Leased (permitHome s ln) ln := by
  unfold State.homeLoses
  dsimp only
  split
  · show s.gtcAt _ < (((s.setSlice _ _).slice _).lineD ln).expmax
    rw [State.slice_setSlice_same]
    exact Slice.lt_expmax_unlist h
  · exact h

/-- Permits that come home from another slice leave the home's lease running. -/
theorem State.Leased.movePermits {s : State} {k ln : Nat} (h : s.Leased (permitHome s ln) ln) (hk : k ≠ permitHome s ln) (n : Nat) (owner : Bool) :
    (s.movePermits k (permitHome s ln) ln n owner).Leased (permitHome s ln) ln := by
  unfold State.movePermits
  dsimp only
  generalize hu : s.setPermits k ln (s.permitsAt k ln - n) (s.ownerAt ln == k && !owner) = u
  have hmoved : PermitsMoved s u := hu ▸ State.setPermits_moved _ _ _ _ _
  have hleased : u.Leased (permitHome s ln) ln :=
    h.of_slice hmoved (by rw [← hu]; exact State.slice_setPermits_other _ _ _ _ (Ne.symm hk))
  rw [← hmoved.permitHome ln] at hleased ⊢
  rw [State.setPermits_home]
  exact hleased.homeLoses

/-! ## A snoop recalls a line (R117, R121) -/

/-- What a recall does to one holder: its permits go home, if nothing that comes before the snoop keeps them there. -/
def State.recallFrom (r : Recall) (ln home : Nat) (s : State) (k : Nat) : State :=
  if k != home && s.letsGoPast k ln (fun q => q.beforeSnoop r) then s.movePermits k home ln (s.permitsAt k ln) (s.ownerAt ln == k) else s

/-- The state in which the holders have sent home what they can. -/
def State.recalled (s : State) (r : Recall) (ln : Nat) : State :=
  (s.holdersOf ln).foldl (State.recallFrom r ln (permitHome s ln)) s

theorem State.recallStep_of {s : State} {ln : Nat} {sn : Snoop} {r : Recall}
    (h : (s.recalls.find? fun r => r.line == ln && r.snoop == sn) = some r) :
    s.recallStep ln sn = ((s.recalled r ln).permitsAt (permitHome s ln) ln == 32 &&
      (s.recalled r ln).letsGoPast (permitHome s ln) ln (fun q => q.beforeSnoop r), s.recalled r ln) := by
  simp only [State.recallStep, h]
  rfl

theorem State.recallStep_none {s : State} {ln : Nat} {sn : Snoop}
    (h : (s.recalls.find? fun r => r.line == ln && r.snoop == sn) = none) : s.recallStep ln sn = (false, s) := by
  simp only [State.recallStep, h]

theorem State.recallFrom_moved (r : Recall) (ln home : Nat) (s : State) (k : Nat) : PermitsMoved s (s.recallFrom r ln home k) := by
  unfold State.recallFrom
  split
  · exact State.movePermits_moved _ _ _ _ _ _
  · exact .refl s

theorem State.recalled_moved (s : State) (r : Recall) (ln : Nat) : PermitsMoved s (s.recalled r ln) :=
  .foldl (State.recallFrom_moved r ln _) _ _

theorem State.recallStep_moved (s : State) (ln : Nat) (sn : Snoop) : PermitsMoved s (s.recallStep ln sn).2 := by
  cases h : s.recalls.find? fun r => r.line == ln && r.snoop == sn with
  | none => rw [State.recallStep_none h]; exact .refl s
  | some r => rw [State.recallStep_of h]; exact State.recalled_moved s r ln

/-- What a slice under a lease keeps while a line is recalled: its lease, and every permit where it is not the home. -/
structure State.KeepsLeased (s : State) (k ln : Nat) (t : State) : Prop where
  moved : PermitsMoved s t
  leased : t.Leased k ln
  slice : k ≠ permitHome s ln → t.slice k = s.slice k

theorem State.KeepsLeased.recallFrom {s t : State} {k ln : Nat} (h : s.KeepsLeased k ln t) (r : Recall) (j : Nat) :
    s.KeepsLeased k ln (t.recallFrom r ln (permitHome s ln) j) := by
  unfold State.recallFrom
  split
  · next hgo =>
    obtain ⟨hj, hlets⟩ := Bool.and_eq_true_iff.mp hgo
    have hjhome : j ≠ permitHome s ln := bne_iff_ne.mp hj
    have hjk : k ≠ j := fun e => by
      rw [← e, State.letsGoPast_of_leased h.leased] at hlets
      cases hlets
    have hhome := h.moved.permitHome ln
    rw [← hhome] at hjhome ⊢
    have hmoved := State.movePermits_moved t j (permitHome t ln) ln (t.permitsAt j ln) (t.ownerAt ln == j)
    by_cases hk : k = permitHome t ln
    · have hleased : t.Leased (permitHome t ln) ln := by rw [← hk]; exact h.leased
      refine ⟨h.moved.trans hmoved, ?_, fun hne => absurd (hk.trans hhome) hne⟩
      rw [hk]
      exact hleased.movePermits hjhome _ _
    · have hslice := State.slice_movePermits_home t ln (t.permitsAt j ln) (t.ownerAt ln == j) hjk hk
      exact ⟨h.moved.trans hmoved, h.leased.of_slice hmoved hslice, fun hne => hslice.trans (h.slice hne)⟩
  · exact h

theorem State.recalled_keepsLeased {s : State} {k ln : Nat} (h : s.Leased k ln) (r : Recall) : s.KeepsLeased k ln (s.recalled r ln) :=
  List.foldlRecOn (motive := s.KeepsLeased k ln) _ _ ⟨.refl s, h, fun _ => rfl⟩ fun _ ht j _ => ht.recallFrom r j

/-- A recall does not end while a holder's lease runs (R117, R121). -/
theorem State.recallStep_of_leased {s : State} {k ln : Nat} (hk : k ∈ s.holdersOf ln) (h : s.Leased k ln) (sn : Snoop) :
    (s.recallStep ln sn).1 = false := by
  have hholds : s.permitsAt k ln ≠ 0 := bne_iff_ne.mp (List.mem_filter.mp hk).2
  cases hfind : s.recalls.find? fun r => r.line == ln && r.snoop == sn with
  | none => rw [State.recallStep_none hfind]
  | some r =>
    obtain ⟨hmoved, hleased, hslice⟩ := State.recalled_keepsLeased h r
    rw [State.recallStep_of hfind, Bool.and_eq_false_iff]
    by_cases hhome : k = permitHome s ln
    · exact .inr (State.letsGoPast_of_leased (hhome ▸ hleased) _)
    · left
      rw [State.permitsAt_of_ne_home hhome, ← hslice hhome] at hholds
      rw [← hmoved.permitHome ln]
      exact beq_eq_false_iff_ne.mpr (State.permitsAt_home_ne hholds)

/-! ## A snoop is registered (R117, R121) -/

/-- Registering a snoop changes the list of recalls alone, and the line is then recalled. -/
theorem State.beginRecall_eq (s : State) (ln : Nat) (sn : Snoop) :
    ∃ rs, s.beginRecall ln sn = { s with recalls := rs } ∧ rs.any (fun r => r.line == ln) = true := by
  unfold State.beginRecall
  split
  · next h =>
    refine ⟨s.recalls, rfl, ?_⟩
    rw [List.any_eq_true] at h ⊢
    obtain ⟨r, hr, hboth⟩ := h
    exact ⟨r, hr, (Bool.and_eq_true_iff.mp hboth).1⟩
  · exact ⟨_, rfl, by simp⟩

/-- A registered snoop has taken its first step: the line is recalled, permits have moved, and nothing else changed. -/
structure RecallBegun (s : State) (ln : Nat) (t : State) : Prop where
  recalling : t.recalling ln = true
  cores : t.cores = s.cores
  mem : t.mem = s.mem
  poolState : t.poolState = s.poolState
  hostState : t.hostState = s.hostState

theorem State.recallStep_begun (s : State) (ln : Nat) (sn : Snoop) : RecallBegun s ln ((s.beginRecall ln sn).recallStep ln sn).2 := by
  obtain ⟨rs, heq, hany⟩ := s.beginRecall_eq ln sn
  have hmoved := State.recallStep_moved (s.beginRecall ln sn) ln sn
  rw [heq] at hmoved ⊢
  exact ⟨by rw [State.recalling, hmoved.recalls]; exact hany, hmoved.cores, hmoved.mem, hmoved.poolState, hmoved.hostState⟩

theorem State.recallStep_begun_of_leased {s : State} {k ln : Nat} (hk : k ∈ s.holdersOf ln) (h : s.Leased k ln) (sn : Snoop) :
    ((s.beginRecall ln sn).recallStep ln sn).1 = false := by
  obtain ⟨rs, heq, -⟩ := s.beginRecall_eq ln sn
  rw [heq]
  exact State.recallStep_of_leased (s := { s with recalls := rs }) hk h sn

theorem State.endRecall_ends (s : State) (ln : Nat) (sn : Snoop) : ∀ r ∈ (s.endRecall ln sn).recalls, ¬ (r.line = ln ∧ r.snoop = sn) := by
  intro r hr hboth
  have hkept := (List.mem_filter.mp hr).2
  simp [hboth] at hkept

theorem State.writeBack_ends (s : State) (ln : Nat) : ∀ x ∈ (s.writeBack ln).stale, x.1 ≠ ln :=
  fun _ hx => bne_iff_ne.mp (List.mem_filter.mp hx).2

/-! ## The answers to a snoop (R117, R121) -/

/-- The home lists the line no more. -/
def State.dropAtHome (s : State) (ln : Nat) : State :=
  let k := permitHome s ln
  if ((s.slice k).line? ln).isSome then s.setSlice k ((s.slice k).unlist (s.gtcAt (k / 256)) ln) else s

theorem State.dropAtHome_moved (s : State) (ln : Nat) : PermitsMoved s (s.dropAtHome ln) := by
  unfold State.dropAtHome
  dsimp only
  split
  · exact State.setSlice_moved _ _ _
  · exact .refl s

/-- The pool state that a back-invalidation snoop leaves (R117). -/
def State.snoopPool (s : State) (ln : Nat) (toI : Bool) : State :=
  if toI then { s.dropAtHome ln with poolState := (s.dropAtHome ln).poolState.put .i ln .i }
  else { s with poolState := s.poolState.put .i ln (if s.poolState.atD ln .i == .i then .i else .s) }

theorem State.poolState_snoopPool (s : State) (ln : Nat) (toI : Bool) :
    (s.snoopPool ln toI).poolState.atD ln .i = if toI || s.poolState.atD ln .i == .i then .i else .s := by
  unfold State.snoopPool
  cases toI with
  | true => rw [if_pos rfl, NMap.atD_put_same]; rfl
  | false => rw [if_neg Bool.false_ne_true, NMap.atD_put_same]; rfl

/-- A back-invalidation snoop changes slices and pool states alone. -/
theorem State.snoopPool_eq (s : State) (ln : Nat) (toI : Bool) :
    ∃ x ps, s.snoopPool ln toI = { s with slices := x, poolState := ps } := by
  cases toI with
  | true =>
    obtain ⟨x, hx⟩ := s.dropAtHome_moved ln
    exact ⟨x, s.poolState.put .i ln .i, by rw [State.snoopPool, hx]; rfl⟩
  | false => exact ⟨_, _, rfl⟩

/-- The answer to the pool (R117): the pool has the line's data, the line is in state I or S, and the recall is over. -/
theorem execBackInvalidationSnoop_of_done {s : State} {ln : Nat} (toI : Bool) (hzone : lineZone ln = .pool)
    (h : ((s.beginRecall ln (.pool toI)).recallStep ln (.pool toI)).1 = true) :
    Next (execBackInvalidationSnoop ln toI s) fun u =>
      u.poolState.atD ln .i = (if toI || s.poolState.atD ln .i == .i then .i else .s) ∧ (∀ x ∈ u.stale, x.1 ≠ ln) ∧
      (∀ r ∈ u.recalls, ¬ (r.line = ln ∧ r.snoop = .pool toI)) ∧ u.cores = s.cores ∧ MemoryKept s u := by
  obtain ⟨-, hcores, hmem, hpool, -⟩ := s.recallStep_begun ln (.pool toI)
  generalize hpair : (s.beginRecall ln (.pool toI)).recallStep ln (.pool toI) = p at h hcores hmem hpool
  obtain ⟨b, t⟩ := p
  obtain rfl : b = true := h
  have hexec : execBackInvalidationSnoop ln toI s = .next (((t.endRecall ln (.pool toI)).writeBack ln).snoopPool ln toI) := by
    unfold execBackInvalidationSnoop
    rw [if_neg (not_not_intro hzone), hpair]
    cases toI <;> rfl
  have hstate : ((t.endRecall ln (.pool toI)).writeBack ln).poolState = s.poolState := hpool
  obtain ⟨x, ps, heq⟩ := ((t.endRecall ln (.pool toI)).writeBack ln).snoopPool_eq ln toI
  refine ⟨_, hexec, by rw [State.poolState_snoopPool, hstate], ?_⟩
  rw [heq]
  exact ⟨(t.endRecall ln (.pool toI)).writeBack_ends ln, t.endRecall_ends ln (.pool toI), hcores, .of_mem hmem⟩

theorem execBackInvalidationSnoop_of_kept {s : State} {ln : Nat} (toI : Bool) (hzone : lineZone ln = .pool)
    (h : ((s.beginRecall ln (.pool toI)).recallStep ln (.pool toI)).1 = false) :
    execBackInvalidationSnoop ln toI s = .next ((s.beginRecall ln (.pool toI)).recallStep ln (.pool toI)).2 := by
  unfold execBackInvalidationSnoop
  rw [if_neg (not_not_intro hzone), show (s.beginRecall ln (.pool toI)).recallStep ln (.pool toI) = (false, _) from Prod.ext h rfl]

/-- The half that a host snoop leaves (R121). -/
def State.snoopHalf (s : State) (ln h : Nat) (inval : Bool) : State :=
  if inval then s.setHalf ln h .i else if s.half ln h == .i then s else s.setHalf ln h .s

theorem State.half_snoopHalf_same (s : State) (ln h : Nat) (inval : Bool) :
    (s.snoopHalf ln h inval).half ln h = if inval || s.half ln h == .i then .i else .s := by
  unfold State.snoopHalf
  cases inval with
  | true => exact State.half_setHalf_same _ _ _ _
  | false =>
    rw [if_neg (Bool.false_ne_true), Bool.false_or]
    split
    · next hi => exact beq_iff_eq.mp hi
    · exact State.half_setHalf_same _ _ _ _

theorem State.half_snoopHalf_other (s : State) {ln h j : Nat} (inval : Bool) (hj : j ≠ h) : (s.snoopHalf ln h inval).half ln j = s.half ln j := by
  unfold State.snoopHalf
  split
  · exact State.half_setHalf_other _ _ hj
  · split
    · rfl
    · exact State.half_setHalf_other _ _ hj

/-- A host snoop changes the state of halves alone. -/
theorem State.snoopHalf_eq (s : State) (ln h : Nat) (inval : Bool) : ∃ hs, s.snoopHalf ln h inval = { s with hostState := hs } := by
  unfold State.snoopHalf
  split
  · exact ⟨_, rfl⟩
  · split <;> exact ⟨_, rfl⟩

/-- The answer to the host (R121): the half is in state I, or in S where it was held; the other half stays, and the recall is over. -/
theorem execHostSnoop_of_done {s : State} {ln : Nat} (high inval : Bool) (hzone : lineZone ln = .host)
    (h : ((s.beginRecall ln (.host high inval)).recallStep ln (.host high inval)).1 = true) :
    Next (execHostSnoop ln high inval s) fun u =>
      u.half ln (bit01 high) = (if inval || s.half ln (bit01 high) == .i then .i else .s) ∧
      u.half ln (1 - bit01 high) = s.half ln (1 - bit01 high) ∧
      (∀ r ∈ u.recalls, ¬ (r.line = ln ∧ r.snoop = .host high inval)) ∧ u.cores = s.cores ∧ MemoryKept s u := by
  obtain ⟨-, hcores, hmem, -, hhost⟩ := s.recallStep_begun ln (.host high inval)
  generalize hpair : (s.beginRecall ln (.host high inval)).recallStep ln (.host high inval) = p at h hcores hmem hhost
  obtain ⟨b, t⟩ := p
  obtain rfl : b = true := h
  dsimp only at hcores hmem hhost
  have hends := State.endRecall_ends t ln (.host high inval)
  have hhalf (j : Nat) : (t.endRecall ln (.host high inval)).half ln j = s.half ln j := congrArg (NMap.atD · _ _) hhost
  have hother : 1 - bit01 high ≠ bit01 high := by cases high <;> decide
  have hexec : execHostSnoop ln high inval s = .next ((t.endRecall ln (.host high inval)).snoopHalf ln (bit01 high) inval) := by
    unfold execHostSnoop
    rw [if_neg (not_not_intro hzone), hpair]
    rfl
  refine ⟨_, hexec, ?_, ?_, ?_⟩
  · rw [State.half_snoopHalf_same, hhalf]
  · rw [State.half_snoopHalf_other _ _ hother, hhalf]
  · obtain ⟨hs, heq⟩ := (t.endRecall ln (.host high inval)).snoopHalf_eq ln (bit01 high) inval
    rw [heq]
    exact ⟨hends, hcores, .of_mem hmem⟩

theorem execHostSnoop_of_kept {s : State} {ln : Nat} (high inval : Bool) (hzone : lineZone ln = .host)
    (h : ((s.beginRecall ln (.host high inval)).recallStep ln (.host high inval)).1 = false) :
    execHostSnoop ln high inval s = .next ((s.beginRecall ln (.host high inval)).recallStep ln (.host high inval)).2 := by
  unfold execHostSnoop
  rw [if_neg (not_not_intro hzone), show (s.beginRecall ln (.host high inval)).recallStep ln (.host high inval) = (false, _) from Prod.ext h rfl]

end Sys2Proof.Machine
end

section
/-! SUPPORT. Requests for permits (R114 to R116): the turn at the home, grants and gathering, returns, replies, time-outs, and persistent
requests. -/

namespace Sys2Proof.Machine

open Sys2Proof.Safety Sys2Proof.Claims

/-! ## The turn of a request at its home (R109, R114) -/

/-- The request of the slice for the line is taken now, with place `seq` in the order of arrivals: the home's own, or one that stands in the
home's queue from an earlier mesh cycle with nothing before it that it waits for. -/
def State.InTurn (s : State) (k ln seq : Nat) : Prop :=
  (k = permitHome s ln ∧ seq = s.arrivals) ∨ (k ≠ permitHome s ln ∧ ∃ i q,
    (s.slice (permitHome s ln)).queue.findIdx? (fun q => q.req == .permit (k / 256) ln) = some i ∧
    (s.slice (permitHome s ln)).queue[i]? = some q ∧ q.seq = seq ∧ q.at_ < s.mesh ∧
    ∀ p ∈ (s.slice (permitHome s ln)).queue.take i, p.req.line = ln → p.req.holdsUp = false)

/-- The event's outcome `o` where an agent's request is not taken: it joins the queue of the home, or stays there behind another or in its
own mesh cycle. -/
def State.WaitsTurn (s : State) (k ln : Nat) (o : Out) : Prop :=
  k ≠ permitHome s ln →
    ((∀ q ∈ (s.slice (permitHome s ln)).queue, (q.req == .permit (k / 256) ln) = false) →
      o = .next (s.enqueue (permitHome s ln) (reqAgent (k / 256)) (.permit (k / 256) ln))) ∧
    (∀ n q, (s.slice (permitHome s ln)).queue.findIdx? (fun q => q.req == .permit (k / 256) ln) = some n →
      (s.slice (permitHome s ln)).queue[n]? = some q →
      (s.mesh ≤ q.at_ ∨ ∃ p ∈ (s.slice (permitHome s ln)).queue.take n, p.req.line = ln ∧ p.req.holdsUp = true) → o = .next s)

/-- Nothing before place n of a queue holds a request for the line up. -/
def firstOf (queue : List SliceEnt) (n ln : Nat) : Bool := !(queue.take n).any fun q => q.req.line == ln && q.req.holdsUp

theorem firstOf_iff (queue : List SliceEnt) (n ln : Nat) :
    firstOf queue n ln = true ↔ ∀ p ∈ queue.take n, p.req.line = ln → p.req.holdsUp = false := by
  simp [firstOf]

theorem firstOf_eq_false_iff (queue : List SliceEnt) (n ln : Nat) :
    firstOf queue n ln = false ↔ ∃ p ∈ queue.take n, p.req.line = ln ∧ p.req.holdsUp = true := by
  simp [firstOf]

theorem State.permitTurn_home {s : State} {k ln : Nat} (h : k = permitHome s ln) : s.permitTurn k ln = (some s.arrivals, s) := if_pos h

theorem State.permitTurn_joins {s : State} {k ln : Nat} (hk : k ≠ permitHome s ln)
    (h : (s.slice (permitHome s ln)).queue.findIdx? (fun q => q.req == .permit (k / 256) ln) = none) :
    s.permitTurn k ln = (none, s.enqueue (permitHome s ln) (reqAgent (k / 256)) (.permit (k / 256) ln)) := by
  simp only [State.permitTurn, if_neg hk, h]

theorem State.permitTurn_queued {s : State} {k ln i : Nat} {q : SliceEnt} (hk : k ≠ permitHome s ln)
    (h : (s.slice (permitHome s ln)).queue.findIdx? (fun q => q.req == .permit (k / 256) ln) = some i)
    (hq : (s.slice (permitHome s ln)).queue[i]? = some q) :
    s.permitTurn k ln =
      (if q.at_ < s.mesh ∧ firstOf (s.slice (permitHome s ln)).queue i ln = true then some q.seq else none, s) := by
  simp only [State.permitTurn, if_neg hk, h, hq]
  rfl

theorem State.permitTurn_of_inTurn {s : State} {k ln seq : Nat} (h : s.InTurn k ln seq) : s.permitTurn k ln = (some seq, s) := by
  obtain ⟨hk, rfl⟩ | ⟨hk, i, q, hi, hq, rfl, hearlier, hfirst⟩ := h
  · exact State.permitTurn_home hk
  · rw [State.permitTurn_queued hk hi hq, if_pos ⟨hearlier, (firstOf_iff _ _ _).mpr hfirst⟩]

/-- An event that stops where permitTurn gives no turn waits for it. -/
theorem State.waitsTurn_of {s : State} {k ln : Nat} {o : Out} (h : ∀ t, s.permitTurn k ln = (none, t) → o = .next t) : s.WaitsTurn k ln o := by
  refine fun hk => ⟨fun hnone => h _ (State.permitTurn_joins hk (List.findIdx?_eq_none_iff.mpr hnone)), fun n q hn hq hlate => h s ?_⟩
  rw [State.permitTurn_queued hk hn hq, if_neg]
  rintro ⟨hearlier, hfirst⟩
  obtain hnow | hheld := hlate
  · exact absurd hearlier (Nat.not_lt_of_le hnow)
  · rw [(firstOf_eq_false_iff _ _ _).mpr hheld] at hfirst
    cases hfirst

/-! ## GETS: a read permit (R114) -/

section
variable {s : State} {die ln : Nat} {a : PermitReq} (ha : s.askOf (sliceAt s die ln) ln = some a) (hx : a.exclusive = false)
  (hp : a.persistent = false) (hr : a.reply = none)
include ha hx hp hr

theorem execPermitGets_retry (h : s.turnsAway die ln = true) :
    execPermitGets die ln s = .next (s.reply (sliceAt s die ln) ln none) := by
  simp [execPermitGets, ha, hx, hp, hr, h]

theorem execPermitGets_of_turn {seq : Nat} (h : s.turnsAway die ln = false) (hturn : s.InTurn (sliceAt s die ln) ln seq) :
    execPermitGets die ln s = .next (s.grantRead (sliceAt s die ln) ln seq) := by
  simp [execPermitGets, ha, hx, hp, hr, h, State.permitTurn_of_inTurn hturn]

theorem execPermitGets_waits (h : s.turnsAway die ln = false) : s.WaitsTurn (sliceAt s die ln) ln (execPermitGets die ln s) :=
  State.waitsTurn_of fun t ht => by simp [execPermitGets, ha, hx, hp, hr, h, ht]

end

/-- A home with the owner permit and another grants a read permit from its free ones. -/
theorem State.grantRead_of_free {s : State} {k ln : Nat} (howner : s.ownerAt ln = permitHome s ln) (hfree : 2 ≤ s.permitsAt (permitHome s ln) ln)
    (hk : k ≠ permitHome s ln) (hcourier : ((s.slice (permitHome s ln)).lineD ln).courier = none) (seq : Nat) :
    s.grantRead k ln seq = (s.poolAcquire ln false).reply k ln (some (1, false)) := by
  unfold State.grantRead
  simp only [slice_poolAcquire, hcourier, Option.isSome_none, Bool.false_eq_true, if_false]
  rw [if_pos ⟨howner, hfree, hk⟩]

theorem State.grantRead_replies {s : State} {k ln : Nat} (howner : s.ownerAt ln = permitHome s ln) (hfree : 2 ≤ s.permitsAt (permitHome s ln) ln)
    (hk : k ≠ permitHome s ln) (hcourier : ((s.slice (permitHome s ln)).lineD ln).courier = none) (seq : Nat) {b : PermitReq}
    (hb : (s.grantRead k ln seq).askOf k ln = some b) : b.reply = some (some (1, false)) := by
  have hhome : k ≠ permitHome (s.poolAcquire ln false) ln := by rwa [(State.poolAcquire_slicesOnly s ln false).permitHome]
  rw [State.grantRead_of_free howner hfree hk hcourier, State.askOf_reply _ hhome] at hb
  obtain ⟨c, -, rfl⟩ := Option.map_eq_some_iff.mp hb
  rfl

/-! ## GETX: every permit (R114) -/

section
variable {s : State} {die ln : Nat} {a : PermitReq} (ha : s.askOf (sliceAt s die ln) ln = some a) (hx : a.exclusive = true)
  (hp : a.persistent = false) (hr : a.reply = none)
include ha hx hp hr

theorem execPermitGetx_retry (h : s.turnsAway die ln = true) :
    execPermitGetx die ln s = .next (s.reply (sliceAt s die ln) ln none) := by
  simp [execPermitGetx, ha, hx, hp, hr, h]

theorem execPermitGetx_waits (h : s.turnsAway die ln = false) : s.WaitsTurn (sliceAt s die ln) ln (execPermitGetx die ln s) :=
  State.waitsTurn_of fun t ht => by simp [execPermitGetx, ha, hx, hp, hr, h, ht]

end

/-- A holder other than the requester and the home wants the line itself. -/
def State.contested (v : State) (k home ln : Nat) : Bool := (v.holdersOf ln).any fun h => h != k && h != home && (v.slice h).wants ln

theorem State.contested_iff (v : State) (k home ln : Nat) :
    v.contested k home ln = true ↔ ∃ h ∈ v.holdersOf ln, h ≠ k ∧ h ≠ home ∧ (v.slice h).wants ln = true := by
  simp [State.contested, and_assoc]

theorem State.contested_eq_false_iff (v : State) (k home ln : Nat) :
    v.contested k home ln = false ↔ ∀ h ∈ v.holdersOf ln, h = k ∨ h = home ∨ (v.slice h).wants ln = false := by
  simp [State.contested, or_iff_not_imp_left]

/-- The home and every holder that does not want the line itself have sent the requester what they can. -/
def State.gathered (v : State) (k home ln pol seq : Nat) : State := v.gather k ln pol seq fun h => h == home || !(v.slice h).wants ln

theorem execPermitGetx_of_turn {s : State} {die ln : Nat} {a : PermitReq} {seq : Nat} (ha : s.askOf (sliceAt s die ln) ln = some a)
    (hx : a.exclusive = true) (hp : a.persistent = false) (hr : a.reply = none) (h : s.turnsAway die ln = false)
    (hturn : s.InTurn (sliceAt s die ln) ln seq) :
    let k := sliceAt s die ln
    let t := (s.poolAcquire ln true).gathered k (permitHome s ln) ln a.pol seq
    execPermitGetx die ln s = .next (if (s.poolAcquire ln true).contested k (permitHome s ln) ln then t.reply k ln none
      else if t.permitsAt k ln = 32 then t.reply k ln (some (0, false)) else t) := by
  simp only [execPermitGetx, ha, hx, hp, hr, h, State.permitTurn_of_inTurn hturn]
  rfl

/-! ## Permits go home, or come with a reply (R114, R115) -/

/-- An agent that nothing keeps on its permits returns them all. -/
theorem State.putBack_of {s : State} {k ln : Nat} (hk : k ≠ permitHome s ln) (hgo : s.letsGo k ln s.arrivals = true)
    (hlined : (s.slice k).linedUp ln = false) (hask : s.askOf k ln = none) : s.putBack k ln = some (s.setPermits k ln 0 false) := by
  simp only [State.putBack, State.setPermits, if_neg hk, hgo, hlined, hask, if_true]
  simp only [apply_ite some]
  rfl

theorem execPermitPut_of {s : State} {die ln : Nat} (hk : sliceAt s die ln ≠ permitHome s ln)
    (hgo : s.letsGo (sliceAt s die ln) ln s.arrivals = true) (hlined : (s.slice (sliceAt s die ln)).linedUp ln = false)
    (hask : s.askOf (sliceAt s die ln) ln = none) :
    execPermitPut die ln s = .next (s.setPermits (sliceAt s die ln) ln 0 false) := by
  rw [execPermitPut, State.putBack_of hk hgo hlined hask]
  rfl

/-- The requests of a slice for a line are over. -/
def State.endAsk (s : State) (k ln : Nat) : State := s.setSlice k { s.slice k with asks := (s.slice k).asks.filter fun b => b.line != ln }

theorem State.askOf_endAsk (s : State) (k ln : Nat) : (s.endAsk k ln).askOf k ln = none := by
  rw [State.askOf, State.endAsk, State.slice_setSlice_same]
  exact find?_asks_filter _ _

/-- Permits that come with a reply are added to those that the agent holds, and its request is over. -/
theorem execPermitReply_data {s v : State} {die ln n : Nat} {owner : Bool} {a : PermitReq} (ha : s.askOf (sliceAt s die ln) ln = some a)
    (hp : a.persistent = false) (hr : a.reply = some (some (n, owner))) (hv : s.placeLine (sliceAt s die ln) ln a.pol = some v) :
    execPermitReply die ln s = .next ((v.endAsk (sliceAt s die ln) ln).setPermits (sliceAt s die ln) ln
      (v.permitsAt (sliceAt s die ln) ln + n) (owner || v.ownerAt ln == sliceAt s die ln)) := by
  simp only [execPermitReply, ha, hp, hr, hv]
  rfl

theorem execPermitReply_counts {s v : State} {die ln n : Nat} {owner : Bool} {a : PermitReq} (ha : s.askOf (sliceAt s die ln) ln = some a)
    (hp : a.persistent = false) (hr : a.reply = some (some (n, owner))) (hk : sliceAt s die ln ≠ permitHome s ln)
    (hv : s.placeLine (sliceAt s die ln) ln a.pol = some v) :
    Next (execPermitReply die ln s) fun u => u.permitsAt (sliceAt s die ln) ln = s.permitsAt (sliceAt s die ln) ln + n ∧
      u.askOf (sliceAt s die ln) ln = none ∧ u.cores = s.cores ∧ MemoryKept s u := by
  refine ⟨_, execPermitReply_data ha hp hr hv, ?_⟩
  generalize sliceAt s die ln = k at ha hk hv ⊢
  have honly := State.placeLine_slicesOnly hv
  have hkv : k ≠ permitHome v ln := by rwa [honly.permitHome]
  have hmoved := State.setPermits_moved (v.endAsk k ln) k ln (v.permitsAt k ln + n) (owner || v.ownerAt ln == k)
  have hmem : v.mem = s.mem := State.placeLine_mem hv
  refine ⟨?_, ?_, hmoved.cores.trans honly.cores, .of_mem (hmoved.mem.trans hmem)⟩
  · rw [State.permitsAt_setPermits _ _ (show k ≠ permitHome (v.endAsk k ln) ln from hkv), State.permitsAt_of_ne_home hkv,
      State.permitsAt_of_ne_home hk, State.placeLine_permits hv]
  · rw [State.askOf, State.asks_setPermits]
    exact State.askOf_endAsk v k ln

theorem execPermitReply_retry {s : State} {die ln : Nat} {a : PermitReq} (ha : s.askOf (sliceAt s die ln) ln = some a)
    (hp : a.persistent = false) (hr : a.reply = some none) :
    execPermitReply die ln s = .next (s.modAsk (sliceAt s die ln) ln fun a => a.failed s.gtc) := by
  simp [execPermitReply, ha, hp, hr]

/-! ## Time-outs (R115) -/

theorem execPermitRequestTimeout_late {s : State} {die ln : Nat} {a : PermitReq} (ha : s.askOf (sliceAt s die ln) ln = some a)
    (hp : a.persistent = false) (hr : a.reply = none) (h : a.sent + 500 ≤ s.gtc ∨ a.first + 2000 ≤ s.gtc) :
    execPermitRequestTimeout die ln s =
      .next ((s.dropPermit (sliceAt s die ln) ln).modAsk (sliceAt s die ln) ln fun a => a.failed s.gtc) := by
  have hlate : ¬ (s.gtc < a.sent + askTimeout ∧ s.gtc < a.first + askPatience) := by
    unfold askTimeout askPatience
    omega
  simp only [execPermitRequestTimeout, ha, hp, hr, decide_eq_false hlate]
  rfl

theorem execPermitRequestTimeout_early {s : State} {die ln : Nat} {a : PermitReq} (ha : s.askOf (sliceAt s die ln) ln = some a)
    (hsent : s.gtc < a.sent + 500) (hfirst : s.gtc < a.first + 2000) : execPermitRequestTimeout die ln s = .next s := by
  have hearly : s.gtc < a.sent + askTimeout ∧ s.gtc < a.first + askPatience := ⟨hsent, hfirst⟩
  simp [execPermitRequestTimeout, ha, hearly]

theorem PermitReq.failed_fails (a : PermitReq) (now : Nat) : (a.failed now).fails = a.fails + 1 := by
  unfold PermitReq.failed; dsimp only; split <;> rfl

theorem PermitReq.failed_reply (a : PermitReq) (now : Nat) : (a.failed now).reply = none := by
  unfold PermitReq.failed; dsimp only; split <;> rfl

/-- The third failure, or a failure 2,000 ticks after the first attempt, makes the request persistent (R115). -/
theorem PermitReq.failed_persistent_iff {a : PermitReq} (hp : a.persistent = false) (now : Nat) :
    (a.failed now).persistent = true ↔ 3 ≤ a.fails + 1 ∨ a.first + 2000 ≤ now := by
  unfold PermitReq.failed
  dsimp only
  split
  · next h => exact iff_of_true rfl h
  · next h => exact iff_of_false (by simp [hp]) h

/-! ## Persistent requests (R116) -/

/-- The only starving line of an agent with no entry in its home's table enters the table. -/
theorem execPersistentRequest_enters {s : State} {die ln : Nat} {a : PermitReq} (ha : s.askOf (sliceAt s die ln) ln = some a)
    (hp : a.persistent = true) (honly : ∀ b ∈ (s.slice (sliceAt s die ln)).asks, b.persistent = true → b = a)
    (hnone : (s.slice (permitHome s ln)).persist.any (fun p => p.die == die) = false) :
    execPersistentRequest die ln s = .next (s.setSlice (permitHome s ln) { s.slice (permitHome s ln) with
      persist := (s.slice (permitHome s ln)).persist ++ [{ die := die, line := ln, exclusive := a.exclusive, active := false, since := 0 }] }) := by
  have hmine {b : PermitReq} (hb : b ∈ (s.slice (sliceAt s die ln)).asks.filter fun b => b.persistent) : b = a :=
    honly b (List.mem_filter.mp hb).1 (List.mem_filter.mp hb).2
  have hfirst : (((s.slice (sliceAt s die ln)).asks.filter fun b => b.persistent).all fun b => a.first ≤ b.first) = true :=
    List.all_eq_true.mpr fun b hb => by rw [hmine hb]; exact decide_eq_true le_rfl
  have hheld : (((s.slice (sliceAt s die ln)).asks.filter fun b => b.persistent).any fun b =>
      (s.slice (permitHome s b.line)).persist.any fun p => p.die == die && p.line == b.line) = false :=
    List.any_eq_false.mpr fun b hb => by
      rw [hmine hb, State.askOf_line ha, Bool.not_eq_true]
      refine List.any_eq_false.mpr fun p hpm => ?_
      have hdie := List.any_eq_false.mp hnone p hpm
      simp [Bool.eq_false_iff.mpr hdie]
  simp only [execPersistentRequest, ha, hp, hfirst, hheld, hnone]
  rfl

/-- The entry of a die leaves a home's table; the table forgets whose turn it was when it is empty (R116). -/
def State.dropPersist (s : State) (home die : Nat) : State :=
  s.setSlice home { s.slice home with
    persist := (s.slice home).persist.filter fun q => q.die != die,
    turn := if ((s.slice home).persist.filter fun q => q.die != die).isEmpty then none else (s.slice home).turn }

theorem State.persist_dropPersist (s : State) (home die : Nat) : ∀ q ∈ ((s.dropPersist home die).slice home).persist, q.die ≠ die := by
  intro q hq
  rw [State.dropPersist, State.slice_setSlice_same] at hq
  exact bne_iff_ne.mp (List.mem_filter.mp hq).2

theorem State.persist_endAsk (s : State) (k ln j : Nat) : ((s.endAsk k ln).slice j).persist = (s.slice j).persist := by
  unfold State.endAsk
  by_cases hj : j = k
  · rw [hj, State.slice_setSlice_same]
  · rw [State.slice_setSlice_other _ _ _ _ hj]

/-- The requester of the active entry has what it asked for, and has made its access or waits for none (R116). -/
def State.persistDone (s : State) (k ln : Nat) (p : Persist) : Bool :=
  (if p.exclusive then s.permitsAt k ln == 32 else s.permitsAt k ln != 0) && (s.spent k ln || !(s.slice k).asked ln)

theorem State.persistDone_of {s : State} {k ln : Nat} {p : Persist}
    (henough : if p.exclusive then s.permitsAt k ln = 32 else s.permitsAt k ln ≠ 0)
    (hserved : s.spent k ln = true ∨ (s.slice k).asked ln = false) : s.persistDone k ln p = true := by
  rw [State.persistDone, Bool.and_eq_true, Bool.or_eq_true, Bool.not_eq_true']
  refine ⟨?_, hserved⟩
  split at henough
  · next hexcl => rw [if_pos hexcl]; exact beq_iff_eq.mpr henough
  · next hexcl => rw [if_neg hexcl]; exact bne_iff_ne.mpr henough

theorem execDeactivate_of_done {s : State} {die ln : Nat} {p : Persist}
    (hfind : (s.slice (permitHome s ln)).persist.find? (fun p => p.die == die && p.line == ln && p.active) = some p)
    (hdone : s.persistDone (sliceAt s die ln) ln p = true) :
    execDeactivate die ln s = .next ((s.dropPersist (permitHome s ln) die).endAsk (sliceAt s die ln) ln) := by
  simp only [execDeactivate, hfind]
  exact if_pos hdone

/-- An idle table activates the entry whose turn it is (R116). -/
theorem execPersistentActivation_idle {s : State} {die pos : Nat} {p : Persist}
    (hidle : ∀ q ∈ (s.slice (sliceKey die pos)).persist, q.active = false) (hnext : (s.slice (sliceKey die pos)).nextPersist = some p) :
    execPersistentActivation die pos s = .next ((s.setSlice (sliceKey die pos) { s.slice (sliceKey die pos) with
      persist := (s.slice (sliceKey die pos)).persist.map (fun q => if q.die = p.die then { q with active := true, since := s.arrivals } else q),
      turn := some p.die }).feedPersist (sliceKey die pos)) := by
  have hnone : ((s.slice (sliceKey die pos)).persist.any fun p => p.active) = false :=
    List.any_eq_false.mpr fun q hq => by simp [hidle q hq]
  simp only [execPersistentActivation, hnone, hnext]
  rfl

theorem execPersistentActivation_busy {s : State} {die pos : Nat} (h : ∃ q ∈ (s.slice (sliceKey die pos)).persist, q.active = true) :
    execPersistentActivation die pos s = .next (s.feedPersist (sliceKey die pos)) := by
  have hany : ((s.slice (sliceKey die pos)).persist.any fun p => p.active) = true := List.any_eq_true.mpr h
  simp only [execPersistentActivation, hany, if_true]

end Sys2Proof.Machine

namespace Sys2Proof.Proofs

open Sys2Proof.Machine Sys2Proof.Safety Sys2Proof.Claims

/-- Settles O39, event by event; a snoop's recall ends only when no holder's lease runs, by what a slice under a lease keeps. -/
theorem permitAndSnoopEvents : Obligations.PermitAndSnoopEvents := by
  refine ⟨fun die line s => ?_, fun line s => ?_⟩
  · dsimp only
    simp only [exec_permitGets, exec_permitGetx, exec_permitPut, exec_permitReply, exec_permitRequestTimeout, exec_persistentRequest,
      exec_persistentActivation, exec_deactivate]
    refine ⟨fun a ha hx hp hr => ⟨fun h => ⟨fun seq hturn => execPermitGets_of_turn ha hx hp hr h hturn, execPermitGets_waits ha hx hp hr h⟩,
        execPermitGets_retry ha hx hp hr, fun howner hfree hk hcourier seq b => State.grantRead_replies howner hfree hk hcourier seq⟩,
      fun a ha hx hp hr => ⟨execPermitGetx_retry ha hx hp hr, execPermitGetx_waits ha hx hp hr,
        fun seq h hturn => ⟨fun hbusy => ?_, fun hfree => ?_⟩⟩,
      fun hk hgo hlined hask => ?_,
      fun a ha hp => ⟨fun n owner v hr hk hv => execPermitReply_counts ha hp hr hk hv, execPermitReply_retry ha hp,
        execPermitRequestTimeout_late ha hp, fun _ => execPermitRequestTimeout_early ha,
        a.failed_fails s.gtc, a.failed_reply s.gtc, PermitReq.failed_persistent_iff hp s.gtc⟩,
      fun a ha hp honly hnone => ?_, fun p _ hfind henough hserved => ?_,
      fun pos p hidle hnext => ?_, fun pos hbusy => execPersistentActivation_busy hbusy⟩
    · rw [execPermitGetx_of_turn ha hx hp hr h hturn, if_pos ((State.contested_iff _ _ _ _).mpr hbusy)]
      rfl
    · rw [execPermitGetx_of_turn ha hx hp hr h hturn, (State.contested_eq_false_iff _ _ _ _).mpr hfree]
      rfl
    · have hmoved := State.setPermits_moved s (sliceAt s die line) line 0 false
      exact ⟨_, execPermitPut_of hk hgo hlined hask, State.permitsAt_setPermits 0 false hk, State.floor_le_setPermits _ _ _ _ _,
        fun j hj => State.slice_setPermits_other s line 0 false hj, hmoved.cores, .of_mem hmoved.mem⟩
    · exact ⟨_, execPersistentRequest_enters ha hp honly hnone, by rw [State.slice_setSlice_same], rfl, .of_mem rfl⟩
    · exact ⟨_, execDeactivate_of_done hfind (State.persistDone_of henough hserved),
        by rw [State.persist_endAsk]; exact State.persist_dropPersist _ _ _, State.askOf_endAsk _ _ _, rfl, .of_mem rfl⟩
    · refine ⟨_, execPersistentActivation_idle hidle hnext, ?_, ?_, ?_⟩
      · rw [State.slice_setSlice_same]
      · rw [State.slice_setSlice_same]
      · rw [State.slice_setSlice_same]
  · dsimp only
    simp only [exec_backInvalidationSnoop, exec_hostSnoop]
    refine ⟨fun hzone toI => ⟨execBackInvalidationSnoop_of_done toI hzone, execBackInvalidationSnoop_of_kept toI hzone⟩,
      fun hzone high inval => ⟨execHostSnoop_of_done high inval hzone, execHostSnoop_of_kept high inval hzone⟩, fun sn => ?_⟩
    obtain ⟨hrecalling, -, -, hpool, hhost⟩ := s.recallStep_begun line sn
    exact ⟨hrecalling, hpool, hhost, fun ⟨k, hk, hleased⟩ => State.recallStep_begun_of_leased hk hleased sn⟩

end Sys2Proof.Proofs
end

section
/-! SUPPORT. The Courier words at issue (R129 to R135): the copy that a word makes, its checks, and how it enters the queue of the engine or
of the commit. -/

namespace Sys2Proof.Machine

open Sys2Proof.Safety Sys2Proof.Claims

/-! ## The context of an F4 word -/

/-- The context of the word and its active lanes. -/
theorem f4Ctx_eq (f : F4) (s : State) (g : Group) : f4Ctx f s (s.core s.cur.1) g = (ctx4 f s g, g.active f.g) := rfl

@[simp] theorem ctx4_core (f : F4) (s : State) (g : Group) : (ctx4 f s g).c = s.core s.cur.1 := Ctx.latch_core _ _ _

theorem ctx4_group (f : F4) (s : State) (g : Group) : ∃ h, (ctx4 f s g).g = { g with gtchi := h } := Ctx.latch_group _ _ _

@[simp] theorem ctx4_pc (f : F4) (s : State) (g : Group) : (ctx4 f s g).g.pc = g.pc := by
  obtain ⟨h, e⟩ := ctx4_group f s g; rw [e]

@[simp] theorem ctx4_flagFull (f : F4) (s : State) (g : Group) (n : Option Nat) : (ctx4 f s g).g.flagFull n = g.flagFull n := by
  obtain ⟨h, e⟩ := ctx4_group f s g; rw [e]; rfl

/-! ## What the send queue and the footprint leave of a group -/

@[simp] theorem Group.queue_pc (g : Group) (it : SendItem) : (g.queue it).pc = g.pc := rfl
@[simp] theorem Group.queue_flagFull (g : Group) (it : SendItem) (n : Option Nat) : (g.queue it).flagFull n = g.flagFull n := rfl
@[simp] theorem Group.foot_pc (g : Group) (vas : List Nat) : (g.foot vas).pc = g.pc := rfl
@[simp] theorem Group.foot_flagFull (g : Group) (vas : List Nat) (n : Option Nat) : (g.foot vas).flagFull n = g.flagFull n := rfl

/-! ## A word with no active lane (R146) -/

theorem emptyCopy_full {s : State} {x : Ctx} {f : F4} {form : CopyForm} (himm : form.immediate = true)
    (hfull : x.g.flagFull (flagOf f.flag.toNat) = true) : emptyCopy s x f form = s.hold x.g :=
  if_pos (by simp [himm, hfull])

theorem emptyCopy_deferred {s : State} {x : Ctx} {f : F4} {form : CopyForm} (himm : form.immediate = false) :
    emptyCopy s x f form = ({ s with freeCount := s.freeCount + 1 } : State).finish
      (if f.tok then x.g.queue (.lateTok (copyDue x f (w32 (Config.freeChoice s.freeCount)) .dev) [0, 0]) else x.g) := by
  simp only [emptyCopy, himm]
  rfl

theorem emptyCopy_immediate {s : State} {x : Ctx} {f : F4} {form : CopyForm} (himm : form.immediate = true)
    (hroom : x.g.flagFull (flagOf f.flag.toNat) = false) :
    emptyCopy s x f form = ({ s with freeCount := s.freeCount + 1 } : State).startOp
      (if f.tok then x.g.queue (.token ((copyDue x f (w32 (Config.freeChoice s.freeCount)) .dev).token [0, 0])) else x.g)
      (flagOf f.flag.toNat) (fun num => LongOp.plain num (flagOf f.flag.toNat) x.g.pc .result) fun _ c => c := by
  simp only [emptyCopy, himm, hroom]
  rfl

/-- A word of a form with no active lane makes no command. -/
theorem copyWord_empty {s : State} {g : Group} (hI : Issuing s g) {f : F4} (hidle : g.active f.g = 0) (form : CopyForm) :
    CopyEmpty form f s g (copyWord form f s) := by
  have hword : copyWord form f s = .next (emptyCopy s (ctx4 f s g) f form) := by
    rw [copyWord, withIssuer_of hI, f4Ctx_eq]
    simp only [hidle, leader?_zero]
  rw [hword]
  refine ⟨fun himm => ?_, fun himm hroom => ?_, fun himm hfull => ?_⟩
  · rw [emptyCopy_deferred himm]
    exact State.finish_done _ _
  · rw [emptyCopy_immediate himm ((ctx4_flagFull f s g _).trans hroom), ctx4_pc, ctx4_core]
    refine State.startOp_started _ _ _ (fun num => LongOp.plain num _ g.pc .result) (fun _ c => c) ?_ rfl rfl
    split <;> simp [hroom]
  · rw [emptyCopy_full himm ((ctx4_flagFull f s g _).trans hfull)]
    exact State.hold_waits _ _

/-! ## An immediate command enters the queue (R132, R142) -/

/-- The completion token of a command. -/
def copyToken (x : Ctx) (f : F4) (l : Nat) : TokenDue := copyDue x f (x.g.tagOf (x.g.instOf l)) .dev

/-- The command as it stands in the queue, under its number; `again` says whether it repeats a span's record. -/
def CopyCmd.queued (k : CopyCmd) (x : Ctx) (f : F4) (num : Nat) (again : Bool) : CopyCmd :=
  { k with num := num, tok := f.tok, due := [copyToken x f k.lead], again := again }

/-- The core once a command has entered its queue under a number, with its destination lines absent; a CPYSP.IN takes its span's record. -/
def State.enterCopy (s : State) (x : Ctx) (f : F4) (k : CopyCmd) (num : Nat) (c : Core) : Core :=
  let (k', c) := match (if k.form == .spin then s.coreSpan s.cur.1 k.span else none) with
    | some (i, _) => c.landRecord x.g i { k with num := num }
    | none => (k, c)
  let k' := { k' with num := num, tok := f.tok, due := [copyToken x f k.lead] }
  { c with courier := c.courier ++ [k'], absent := c.absent ++ k'.bufLines.map fun ln => (k'.buf, ln, num) }

/-- A span's record changes nothing of the command but whether it repeats the record, and nothing of the core but its records (R141). -/
theorem Core.landRecord_eq (c : Core) (g : Group) (i : Nat) (k : CopyCmd) :
    ∃ again landing, c.landRecord g i k = ({ k with again := again }, { c with landing := landing }) := by
  unfold Core.landRecord
  dsimp only
  split <;> exact ⟨_, _, rfl⟩

theorem State.enterCopy_eq (s : State) (x : Ctx) (f : F4) (k : CopyCmd) (num : Nat) (c : Core) : ∃ again landing,
    s.enterCopy x f k num c = { c with
      courier := c.courier ++ [k.queued x f num again]
      absent := c.absent ++ k.bufLines.map fun ln => (k.buf, ln, num)
      landing := landing } := by
  cases hspan : (if k.form == .spin then s.coreSpan s.cur.1 k.span else none) with
  | none => exact ⟨k.again, c.landing, by simp only [State.enterCopy, hspan]; rfl⟩
  | some e =>
    obtain ⟨again, landing, hrec⟩ := c.landRecord_eq x.g e.1 { k with num := num }
    exact ⟨again, landing, by simp only [State.enterCopy, hspan, hrec]; rfl⟩

theorem State.enterCopy_courier (s : State) (x : Ctx) (f : F4) (k : CopyCmd) (num : Nat) (c : Core) :
    ∃ again, (s.enterCopy x f k num c).courier = c.courier ++ [k.queued x f num again] := by
  obtain ⟨again, landing, h⟩ := s.enterCopy_eq x f k num c
  exact ⟨again, by rw [h]⟩

theorem State.enterCopy_absent (s : State) (x : Ctx) (f : F4) (k : CopyCmd) (num : Nat) (c : Core) :
    (s.enterCopy x f k num c).absent = c.absent ++ k.bufLines.map fun ln => (k.buf, ln, num) := by
  obtain ⟨again, landing, h⟩ := s.enterCopy_eq x f k num c
  rw [h]

/-- With room in the queue and in its flag, the command enters the queue, and its token waits for it in the send queue. -/
theorem startCopy_started {s : State} {x : Ctx} {f : F4} {k : CopyCmd} (hroom : (s.core s.cur.1).courier.length < 32)
    (hflag : x.g.flagFull (flagOf f.flag.toNat) = false) :
    Started s (if f.tok then x.g.queue (.copyTok (s.core s.cur.1).nextNum (copyToken x f k.lead)) else x.g)
      { LongOp.plain (s.core s.cur.1).nextNum (flagOf f.flag.toNat) x.g.pc .courier with ready := false }
      (s.enterCopy x f k (s.core s.cur.1).nextNum) (.next (startCopy s x f k)) := by
  have hstart : startCopy s x f k = s.startOp
      (if f.tok then x.g.queue (.copyTok (s.core s.cur.1).nextNum (copyToken x f k.lead)) else x.g) (flagOf f.flag.toNat)
      (fun num => { LongOp.plain num (flagOf f.flag.toNat) x.g.pc .courier with ready := false }) (s.enterCopy x f k) :=
    if_neg (by simp [hflag, hroom])
  rw [hstart]
  refine State.startOp_started s _ _ (fun num => { LongOp.plain num _ x.g.pc .courier with ready := false }) _ ?_ rfl rfl
  split <;> simp [hflag]

/-- A line of the buffer that a mark names is absent (R158). -/
theorem Core.present_of_mem {c : Core} {b : Buf} {ln num : Nat} (h : (b, ln, num) ∈ c.absent) : c.present b ln = false := by
  rw [Core.present, Bool.not_eq_false']
  exact List.any_eq_true.mpr ⟨_, h, by simp⟩

/-- What the engine and the group have of a command that has entered the queue. -/
theorem startCopy_enters {s : State} {x : Ctx} {f : F4} {k : CopyCmd} (hroom : (s.core s.cur.1).courier.length < 32)
    (hflag : x.g.flagFull (flagOf f.flag.toNat) = false) :
    let t := startCopy s x f k
    (∃ again, (t.core s.cur.1).courier = (s.core s.cur.1).courier ++ [k.queued x f (s.core s.cur.1).nextNum again]) ∧
    (∀ ln ∈ k.bufLines, (t.core s.cur.1).present k.buf ln = false) ∧
    (∃ h, (t.core s.cur.1).group? s.cur.2 = some h ∧ h.pc = x.g.pc + 1 ∧ h.status = .ready) ∧
    (∀ cj, cj ≠ s.cur.1 → t.core cj = s.core cj) ∧ ∀ a, t.memByte a = s.memByte a := by
  obtain ⟨-, t, ht, hcore, hcores, -, hmem⟩ := startCopy_started (k := k) hroom hflag
  obtain rfl : startCopy s x f k = t := Host.Outcome.next.inj ht
  refine ⟨?_, fun ln hln => Core.present_of_mem (num := (s.core s.cur.1).nextNum) ?_,
    ⟨_, by rw [hcore]; exact Core.group?_setGroup_same _ _ _, ?_, rfl⟩, hcores, hmem⟩
  · simp only [hcore, Core.setGroup_courier]
    exact s.enterCopy_courier x f k _ _
  · simp only [hcore, Core.setGroup_absent, State.enterCopy_absent]
    exact List.mem_append_right _ (List.mem_map_of_mem hln)
  · simp only [Group.advance, Group.flagUp_pc, Nat.add_right_cancel_iff]
    split <;> rfl

theorem startCopy_full {s : State} {x : Ctx} {f : F4} {k : CopyCmd}
    (hfull : 32 ≤ (s.core s.cur.1).courier.length ∨ x.g.flagFull (flagOf f.flag.toNat) = true) : startCopy s x f k = s.hold x.g :=
  if_pos (by simpa using hfull)

/-! ## A word whose leader lane makes a copy (R133, R135) -/

/-- The copy that a word of a form asks for, with leader l. -/
def leadCopy (form : CopyForm) (f : F4) (s : State) (g : Group) (l : Nat) : CopyCmd :=
  copyRead (ctx4 f s g) f (g.active f.g) l (copyBase (ctx4 f s g) g.pc form (tbufOf f.tbuf.toNat form) l)

/-- The context of the word once the pages of its first translations are in its footprint (R99). -/
def leadCtx (form : CopyForm) (f : F4) (s : State) (g : Group) (l : Nat) : Ctx :=
  { ctx4 f s g with g := (ctx4 f s g).g.foot ((leadCopy form f s g l).firsts.map fun p => p.2.1) }

theorem copyRead_form (x : Ctx) (f : F4) (act : LaneMask) (l : Nat) (k : CopyCmd) : (copyRead x f act l k).form = k.form := by
  unfold copyRead
  dsimp only
  split <;> rfl

theorem leadCopy_form (form : CopyForm) (f : F4) (s : State) (g : Group) (l : Nat) : (leadCopy form f s g l).form = form :=
  copyRead_form _ _ _ _ _

/-- The state that a word with leader l leaves: the checks, then the first translations, then the form (R135). -/
def leadWord (form : CopyForm) (f : F4) (s : State) (g : Group) (l : Nat) : State :=
  match copyCheck s s.cur.1 (ctx4 f s g).c (leadCopy form f s g l) with
  | some e => s.faultWord g { cls := .courierOperand, cause := e.1, lanes := e.2 }
  | none =>
    match copyXl s s.cur.1 s.cur.2 (leadCopy form f s g l) with
    | .wait s' => s'.hold (ctx4 f s g).g
    | .fault e => s.faultWord g e
    | .ok s' =>
      if form.immediate then startCopy s' (leadCtx form f s g l) f (leadCopy form f s g l)
      else s'.finish ((leadCtx form f s g l).g.queue (.copy { leadCopy form f s g l with
        tok := f.tok, due := if f.tok then [copyDue (ctx4 f s g) f (g.tagOf (g.instOf l)) .dev] else [] }))

theorem copyWord_of_lead {s : State} {g : Group} {f : F4} {l : Nat} (hI : Issuing s g) (hlead : leader? (g.active f.g) = some l)
    (form : CopyForm) : copyWord form f s = .next (leadWord form f s g l) := by
  rw [copyWord, withIssuer_of hI, f4Ctx_eq, leadWord, ctx4_core]
  simp only [hlead] <;> rfl

section
variable {form : CopyForm} {f : F4} {s : State} {g : Group} {l : Nat}

theorem leadWord_of_check {e : Nat × LaneMask} (hcheck : copyCheck s s.cur.1 (ctx4 f s g).c (leadCopy form f s g l) = some e) :
    leadWord form f s g l = s.faultWord g { cls := .courierOperand, cause := e.1, lanes := e.2 } := by
  simp only [leadWord, hcheck]

variable (hcheck : copyCheck s s.cur.1 (ctx4 f s g).c (leadCopy form f s g l) = none)
include hcheck

theorem leadWord_of_fault {e : Flt} (hxl : copyXl s s.cur.1 s.cur.2 (leadCopy form f s g l) = .fault e) :
    leadWord form f s g l = s.faultWord g e := by
  simp only [leadWord, hcheck, hxl]

theorem leadWord_of_wait {s' : State} (hxl : copyXl s s.cur.1 s.cur.2 (leadCopy form f s g l) = .wait s') :
    leadWord form f s g l = s'.hold (ctx4 f s g).g := by
  simp only [leadWord, hcheck, hxl]

variable {s' : State} (hxl : copyXl s s.cur.1 s.cur.2 (leadCopy form f s g l) = .ok s')
include hxl

theorem leadWord_of_immediate (himm : form.immediate = true) :
    leadWord form f s g l = startCopy s' (leadCtx form f s g l) f (leadCopy form f s g l) := by
  simp only [leadWord, hcheck, hxl, himm, if_true]

theorem leadWord_of_deferred (himm : form.immediate = false) :
    leadWord form f s g l = s'.finish ((leadCtx form f s g l).g.queue (.copy { leadCopy form f s g l with
      tok := f.tok, due := if f.tok then [copyDue (ctx4 f s g) f (g.tagOf (g.instOf l)) .dev] else [] })) := by
  simp only [leadWord, hcheck, hxl, himm, Bool.false_eq_true, if_false]

end

/-- A word with a leader traps at its first failing check, waits, or is accepted as its form says (R132, R135). -/
theorem copyWord_accepted {s : State} {g : Group} {f : F4} {l : Nat} (hI : Issuing s g) (hlead : leader? (g.active f.g) = some l)
    (form : CopyForm) : CopyAccepted form f s g l (copyWord form f s) := by
  rw [copyWord_of_lead hI hlead]
  refine ⟨fun e hcheck => ?_, fun hcheck e hxl => ?_, fun hcheck s' hxl => ?_, fun hcheck s' hxl =>
    ⟨fun himm => ?_, fun himm hroom hflag => ?_, fun himm hfull => ?_⟩⟩
  · rw [leadWord_of_check hcheck]
    exact State.faultWord_faults s g _
  · rw [leadWord_of_fault hcheck hxl]
    exact State.faultWord_faults s g e
  · rw [leadWord_of_wait hcheck hxl]
    exact State.hold_waits s' _
  · rw [leadWord_of_deferred hcheck hxl himm]
    exact State.finish_done s' _
  · rw [leadWord_of_immediate hcheck hxl himm]
    obtain ⟨⟨again, hqueue⟩, habsent, ⟨h, hgroup, hpc, hready⟩, hcores, hmem⟩ :=
      startCopy_enters (x := leadCtx form f s g l) (k := leadCopy form f s g l) hroom ((ctx4_flagFull f s g _).trans hflag)
    exact ⟨_, rfl, (leadCopy form f s g l).queued (leadCtx form f s g l) f (s'.core s'.cur.1).nextNum again, rfl,
      leadCopy_form form f s g l, rfl, rfl, rfl, rfl, hqueue, habsent, rfl,
      ⟨h, hgroup, hpc.trans (congrArg (· + 1) (ctx4_pc f s g)), hready⟩, hcores, hmem⟩
  · rw [leadWord_of_immediate hcheck hxl himm, startCopy_full]
    · exact State.hold_waits s' _
    · exact hfull.imp_right fun h => (ctx4_flagFull f s g _).trans h

/-! ## The Courier words (R133) -/

/-- The Courier words and their forms. -/
def copyWords (f : F4) : List (CopyForm × Instr) :=
  [(.mm, .cpyMm f), (.inn, .cpyIn f), (.out, .cpyOut f), (.tin, .cpytIn f), (.tout, .cpytOut f), (.gin, .cpygIn f), (.sout, .cpysOut f),
    (.fmm, .cpyfMm f), (.fin, .cpyfIn f), (.pmm, .cpypMm f), (.pin, .cpypIn f), (.pout, .cpypOut f), (.spin, .cpyspIn f),
    (.spout, .cpyspOut f), (.spoutc, .cpyspOutc f)]

theorem exec_copyWords {f : F4} {p : CopyForm × Instr} (h : p ∈ copyWords f) (s : State) : exec p.2 s = copyWord p.1 f s := by
  revert p
  simp only [copyWords, List.forall_mem_cons]
  exact ⟨rfl, rfl, rfl, rfl, rfl, rfl, rfl, rfl, rfl, rfl, rfl, rfl, rfl, rfl, rfl, fun _ h => absurd h List.not_mem_nil⟩

end Sys2Proof.Machine

namespace Sys2Proof.Proofs

open Sys2Proof.Machine Sys2Proof.Safety Sys2Proof.Claims

/-- Settles O22: every Courier word is `copyWord` of its form, which has a lemma for no active lane and one for a leader. -/
theorem courierWordsAreAccepted : Obligations.CourierWordsAreAccepted := by
  refine ⟨fun f s g hI hidle p hp => ?_, fun f s g l hI hlead => ?_⟩
  · rw [exec_copyWords hp]
    exact copyWord_empty hI hidle p.1
  · have hword : ∀ p ∈ copyWords f, CopyAccepted p.1 f s g l (exec p.2 s) := fun p hp => by
      rw [exec_copyWords hp]
      exact copyWord_accepted hI hlead p.1
    simp only [copyWords, List.forall_mem_cons] at hword
    obtain ⟨mm, inn, out, tin, tout, gin, sout, fmm, fin, pmm, pin, pout, spin, spout, spoutc, -⟩ := hword
    exact ⟨mm, inn, out, tin, tout, gin, sout, fmm, fin, pmm, pin, pout, spin, spout, spoutc⟩

end Sys2Proof.Proofs
end

section
/-! SUPPORT. The Courier's events (R122, R123, R129, R142 to R147): how a command starts, goes on, ends, and answers a recall. -/

namespace Sys2Proof.Machine

/-! ## A command starts (R122, R129, R131) -/

/-- What a command of each form does as it begins. -/
def State.beginCopy (s : State) (ci : Nat) (k : CopyCmd) : State :=
  match k.form with
  | .rput => s.startPut ci k
  | .rget => s.startGet ci k
  | .mcput => s.startMcput ci k
  | _ => s.ownAhead ci k

theorem execCourierCommandStart_of {s : State} {ci : Nat} {k : CopyCmd} (hfirst : (s.core ci).courier.find? (fun k => !k.running) = some k)
    (hfew : ((s.core ci).courier.filter fun y => y.running).length < 4) (hready : copyReady (s.core ci) k = true) :
    execCourierCommandStart ci s =
      .next ((s.setCore ci ((s.core ci).setCopy { k with running := true })).beginCopy ci { k with running := true }) := by
  simp only [execCourierCommandStart, hfirst, hready, decide_eq_false (Nat.not_le.mpr hfew)] <;> rfl

/-- A command that the fabric does not answer begins with its destination lines. -/
theorem State.beginCopy_of_local (s : State) (ci : Nat) (k : CopyCmd) (h : isBulk k.form = false) : s.beginCopy ci k = s.ownAhead ci k := by
  cases hform : k.form <;> simp_all [State.beginCopy, isBulk]

/-! ## A running command goes on (R142, R145, R146) -/

/-- How far a running command of each form goes. -/
def State.advanceCopy (s : State) (ci : Nat) (k : CopyCmd) : State :=
  match k.form with
  | .rput => s.runPut ci k
  | .rget => s.runGet ci k
  | .mcput => if k.sent then s else s.startMcput ci k
  | .spout | .spoutc => s.pushCopy ci k
  | .spin => s.landCopy ci k
  | _ => (s.ownAhead ci k).runCopy ci k

theorem execCourierCommandComplete_of {s : State} {ci idx : Nat} {k : CopyCmd} (hk : (s.core ci).courier[idx]? = some k)
    (hrun : k.running = true) :
    execCourierCommandComplete ci idx s = .next (((s.advanceCopy ci k).releaseSlots ci).sweepCommits ci) := by
  simp only [execCourierCommandComplete, hk, hrun] <;> rfl

theorem State.advanceCopy_of_lines {k : CopyCmd} (hbulk : isBulk k.form = false) (hout : k.form ≠ .spout) (houtc : k.form ≠ .spoutc)
    (hin : k.form ≠ .spin) (s : State) (ci : Nat) : s.advanceCopy ci k = (s.ownAhead ci k).runCopy ci k := by
  cases hform : k.form <;> simp_all [State.advanceCopy, isBulk]

/-! ## A copy ends (R146, R147) -/

theorem copyLines_of_done {s : State} {ci : Nat} {k : CopyCmd} {us : List Nat} (h : ∀ u ∈ us, u ∈ k.doneLines) :
    copyLines s ci k us = (.done, k, s) := by
  induction us with
  | nil => rfl
  | cons u us ih =>
    rw [copyLines, if_pos (List.contains_iff_mem.mpr (h u List.mem_cons_self))]
    exact ih fun v hv => h v (List.mem_cons_of_mem u hv)

theorem CopyCmd.mem_units_of_order {k : CopyCmd} {u : Nat} (h : u ∈ k.order) : u ∈ k.units :=
  (List.mem_append.mp h).elim (fun hu => List.contains_iff_mem.mp (List.mem_filter.mp hu).2) id

/-- A copy to memory whose lines are all written ends with status OK. -/
theorem State.runCopy_of_done {s : State} {ci : Nat} {k : CopyCmd} (hlines : ∀ u ∈ k.units, u ∈ k.doneLines)
    (himm : k.form.immediate = false) (hbuf : k.form.readsBuf = false) : s.runCopy ci k = s.endDeferred ci k 0 0 := by
  have hread : readAhead s ci k = (k, s) := if_neg (by simp [hbuf])
  have hdone : copyLines s ci k k.order = (.done, k, s) := copyLines_of_done fun u hu => hlines u (CopyCmd.mem_units_of_order hu)
  simp only [State.runCopy, hread, hdone, himm]
  rfl

/-- The completion token of a copy that ends joins the outbox, with its status and its first byte not written (R146, R147). -/
theorem State.endDeferred_posts {s : State} {ci status cause : Nat} {k : CopyCmd} {d : TokenDue} {ds : List TokenDue} (hdue : k.due = d :: ds) :
    ∃ o ∈ ((s.endDeferred ci k status cause).core ci).outbox,
      o.item = .token ({ d with rscope := k.destScope s ci }.token [statusWord status cause, w32 k.progress]) ∧ o.commit = k.commit := by
  simp only [State.endDeferred, hdue, State.core_modCore_same, Core.postDue, Core.post]
  exact ⟨_, List.mem_append_right _ (List.mem_singleton.mpr rfl), rfl, rfl⟩

/-! ## Reading and writing a line leave the lines that were written (R123, R143, R145) -/

theorem readBufLine_doneLines (s : State) (ci : Nat) (k : CopyCmd) (ln : Nat) : (readBufLine s ci k ln).2.1.doneLines = k.doneLines := by
  unfold readBufLine
  dsimp only
  split
  · rfl
  · split <;> rfl

theorem readMemLine_doneLines (s : State) (ci : Nat) (k : CopyCmd) (va : Nat) : (readMemLine s ci k va).2.1.doneLines = k.doneLines := by
  unfold readMemLine
  split
  · rfl
  · rfl
  · dsimp only
    split
    · rfl
    · split <;> rfl

theorem readSrc_doneLines (s : State) (ci : Nat) (k : CopyCmd) (j : Nat) : (readSrc s ci k j).2.1.doneLines = k.doneLines := by
  unfold readSrc
  split
  · rfl
  · split
    · rfl
    · split
      · exact readMemLine_doneLines _ _ _ _
      · split
        · exact readBufLine_doneLines _ _ _ _
        · rfl

theorem lineData_doneLines (s : State) (ci : Nat) (k : CopyCmd) (u : Nat) : (lineData s ci k u).2.1.doneLines = k.doneLines := by
  refine List.foldlRecOn (motive := fun acc : LineData × CopyCmd × State => acc.2.1.doneLines = k.doneLines) _ _ rfl fun acc hacc j _ => ?_
  obtain ⟨data, k', s'⟩ := acc
  cases data with
  | bytes bs =>
    have hread := readSrc_doneLines s' ci k' j
    dsimp only
    split <;> simp_all
  | stop e => exact hacc
  | wait => exact hacc

/-- The engine has written a line in memory only where it says so (R145). -/
theorem memUnit_done {s s' : State} {ci u : Nat} {k k' : CopyCmd} (h : memUnit s ci k u = (.done, k', s')) :
    k'.doneLines = k.doneLines ++ [u] := by
  unfold memUnit at h
  split at h
  · cases h
  · cases h
  · dsimp only at h
    generalize (if writtenFirst _ _ _ _ = true then _ else _ : Bool × State) = owned at h
    split at h
    · cases h
    · split at h
      · cases h
      · cases h
      · next hdata =>
        have hkeep := lineData_doneLines owned.2 ci k u
        rw [hdata] at hkeep
        cases h
        exact congrArg (· ++ [u]) hkeep

/-! ## A line is recalled (R123) -/

/-- The running command to memory, and its destination line, that reach a line still to be written. -/
def State.recallPick (s : State) (ci line : Nat) : Option (CopyCmd × Nat) :=
  (s.core ci).courier.findSome? fun k =>
    if k.running && dstMem k.form then
      (k.units.find? fun u => !k.doneLines.contains u && unitLine s ci k u == some line).map fun u => (k, u)
    else none

section
variable {s s' : State} {ci line u : Nat} {k k' : CopyCmd} (howned : (s.ownedBy ci).contains line = true) (hwanted : s.lineWanted line = true)
  (hpick : s.recallPick ci line = some (k, u))
include howned hwanted hpick

theorem execCourierRecall_done (h : memUnit s ci k u = (.done, k', s')) :
    execCourierRecall ci line s = .next (s'.setCore ci ((s'.core ci).setCopy k')) := by
  unfold State.recallPick at hpick
  simp only [execCourierRecall, hpick, howned, hwanted, h]
  rfl

/-- Where the line must wait, no other line of the command goes before it. -/
theorem execCourierRecall_wait (h : memUnit s ci k u = (.wait, k', s')) :
    execCourierRecall ci line s =
      .next (s'.setCore ci ((s'.core ci).setCopy { k' with urgent := k'.urgent.filter (· != u) ++ [u] })) := by
  unfold State.recallPick at hpick
  simp only [execCourierRecall, hpick, howned, hwanted, h]
  rfl

end

end Sys2Proof.Machine

namespace Sys2Proof.Proofs

open Sys2Proof.Machine

/-- Settles O36: a command begins, and goes on, by its form; a copy whose lines are all written ends at once; and a recalled line is
written next, or waits at the head of its command's lines. -/
theorem courierEvents : Obligations.CourierEvents := by
  intro ci s
  dsimp only
  simp only [exec_courierCommandStart, exec_courierCommandComplete, exec_courierRecall]
  refine ⟨fun k hfirst hfew hready => ?_, fun idx k hk hrun => ?_, fun line k u s' howned hwanted hpick k' =>
    ⟨fun hdone => ⟨execCourierRecall_done howned hwanted hpick hdone, memUnit_done hdone⟩, execCourierRecall_wait howned hwanted hpick⟩⟩
  · rw [execCourierCommandStart_of hfirst hfew hready]
    refine ⟨fun hform => ?_, fun hform => ?_, fun hform => ?_, fun hform => ?_⟩
    · simp only [State.beginCopy, hform]
    · simp only [State.beginCopy, hform]
    · simp only [State.beginCopy, hform]
    · rw [State.beginCopy_of_local _ ci { k with running := true } hform]
  · rw [execCourierCommandComplete_of hk hrun]
    refine ⟨fun hform => ?_, fun hform => ?_, fun hform => ?_, fun hform => ?_, fun hform => ?_, fun hbulk hout houtc hin => ?_,
      State.runCopy_of_done, fun d ds hdue => State.endDeferred_posts hdue⟩
    · simp only [State.advanceCopy, hform]
    · simp only [State.advanceCopy, hform]
    · simp only [State.advanceCopy, hform]
    · rcases hform with hform | hform <;> simp only [State.advanceCopy, hform]
    · simp only [State.advanceCopy, hform]
    · rw [State.advanceCopy_of_lines hbulk hout houtc hin]

end Sys2Proof.Proofs
end

section
/-! SUPPORT. What the local access words share at issue: the checks of R161, and the claim of their lines (R29, R157). -/

namespace Sys2Proof.Machine

open Sys2Proof.Safety Sys2Proof.Claims

/-! ## Checks (R161) -/

/-- The word goes on to `k`, unless its checks found a fault. -/
def State.unlessFault (s : State) (g : Group) (k : State) : Option Flt → State
  | some e => s.faultWord g e
  | none => k

@[simp] theorem State.unlessFault_none (s : State) (g : Group) (k : State) : s.unlessFault g k none = k := rfl

theorem State.unlessFault_faults {s : State} {g : Group} {chk : Option Flt} {e : Flt} (h : chk = some e) (k : State) :
    Faults s g e (.next (s.unlessFault g k chk)) := by
  subst h
  exact State.faultWord_faults s g e

section
variable {cls : Cls} {act : LaneMask} {addr : Nat → Nat} {cause : Nat} {p q : Nat → Bool} (rest : List (Nat × (Nat → Bool)))

/-- Only what the tests say of active lanes counts. -/
theorem failing_congr (h : ∀ l ∈ maskLanes act, p l = q l) : failing act p = failing act q := by
  refine BitVec.eq_of_getLsbD_eq fun l hl => ?_
  change laneBit (failing act p) l = laneBit (failing act q) l
  rw [failing, failing, laneBit_maskOf _ hl, laneBit_maskOf _ hl]
  cases hbit : laneBit act l with
  | false => rfl
  | true => rw [h l ((mem_maskLanes act l).mpr ⟨hl, hbit⟩)]

theorem firstCause_cons_congr (h : ∀ l ∈ maskLanes act, p l = q l) :
    firstCause cls act addr ((cause, p) :: rest) = firstCause cls act addr ((cause, q) :: rest) := by
  simp only [firstCause, failing_congr h]

/-- A cause that some lane meets is the first one, whatever the later tests say. -/
theorem firstCause_cons_of_some {e : Flt} (h : firstCause cls act addr [(cause, p)] = some e) :
    firstCause cls act addr ((cause, p) :: rest) = some e := by
  cases hl : leader? (failing act p) with
  | none => simp only [firstCause, hl] at h; cases h
  | some l => simpa only [firstCause, hl] using h

/-- A test that no active lane fails is passed over. -/
theorem firstCause_cons_of_passed (h : ∀ l ∈ maskLanes act, p l = false) :
    firstCause cls act addr ((cause, p) :: rest) = firstCause cls act addr rest := by
  have hnone : firstCause cls act addr [(cause, p)] = none := firstCause_eq_none h
  cases hl : leader? (failing act p) with
  | none => simp only [firstCause, hl]
  | some l => simp only [firstCause, hl] at hnone; cases hnone

end

/-! ## Claims keep the word in issue -/

theorem State.abortReplay_cur (s : State) (ci gi : Nat) : (s.abortReplay ci gi).cur = s.cur := rfl

theorem State.claim_cur {s t : State} {ci gi : Nat} {b : Buf} {lines : List Nat} (h : s.claim ci gi b lines = some t) : t.cur = s.cur := by
  unfold State.claim at h
  split at h
  · cases h
  · dsimp only at h
    split at h <;> cases h
    exact List.foldlRecOn (motive := fun u : State => u.cur = s.cur) _ _ rfl fun u hu x _ => (u.abortReplay_cur ci x.1).trans hu

theorem State.reach_cur {s t : State} {ci gi num : Nat} {b : Buf} {lines : List Nat} {write came : Bool}
    (h : s.reach ci gi num b lines write = (came, t)) : t.cur = s.cur := by
  unfold State.reach at h
  dsimp only at h
  split at h
  · cases h; rfl
  · split at h
    · cases h; rfl
    · next hclaim => cases h; exact State.claim_cur hclaim

end Sys2Proof.Machine
end

section
/-! LDF and the stores in place (R29, R156 to R161): the bytes of several lanes, the turn of a store at its lines, and each word's meaning. -/

namespace Sys2Proof

/-! ## Bytes stored lane after lane (R156) -/

/-- A byte map once the lanes of a list, in its order, have stored their bytes. -/
def NMap.storeLanes (m : NMap Byte) (lanes : List Nat) (at_ : Nat → Nat) (data : Nat → List Byte) : NMap Byte :=
  lanes.foldl (fun m l => m.writeBytes (at_ l) (data l)) m

section
variable {at_ : Nat → Nat} {data : Nat → List Byte} {size : Nat} (hsize : ∀ l, (data l).length = size)
include hsize

/-- A byte that no lane covers reads as before. -/
theorem NMap.atD_storeLanes_other {lanes : List Nat} {a : Nat} (h : ∀ l ∈ lanes, a < at_ l ∨ at_ l + size ≤ a) (m : NMap Byte) :
    (m.storeLanes lanes at_ data).atD a 0 = m.atD a 0 := by
  induction lanes generalizing m with
  | nil => rfl
  | cons k ks ih =>
    change ((m.writeBytes (at_ k) (data k)).storeLanes ks at_ data).atD a 0 = _
    rw [ih (fun l hl => h l (List.mem_cons_of_mem k hl)), NMap.atD_writeBytes_other]
    rw [hsize]
    exact h k List.mem_cons_self

/-- A covered byte holds what the highest lane that covers it stores, the lanes being in ascending order. -/
theorem NMap.atD_storeLanes {lanes : List Nat} (hasc : lanes.Pairwise (· < ·)) {l i : Nat} (hl : l ∈ lanes) (hi : i < size)
    (hhigh : ∀ k ∈ lanes, l < k → at_ l + i < at_ k ∨ at_ k + size ≤ at_ l + i) (m : NMap Byte) :
    (m.storeLanes lanes at_ data).atD (at_ l + i) 0 = ((data l)[i]?).getD 0 := by
  induction lanes generalizing m with
  | nil => cases hl
  | cons k ks ih =>
    obtain ⟨hlow, hasc⟩ := List.pairwise_cons.mp hasc
    have hhigh' : ∀ j ∈ ks, l < j → at_ l + i < at_ j ∨ at_ j + size ≤ at_ l + i := fun j hj => hhigh j (List.mem_cons_of_mem k hj)
    change ((m.writeBytes (at_ k) (data k)).storeLanes ks at_ data).atD (at_ l + i) 0 = _
    rcases List.mem_cons.mp hl with rfl | hl
    · rw [NMap.atD_storeLanes_other hsize (fun j hj => hhigh' j hj (hlow j hj)), NMap.atD_writeBytes _ _ _ _ (by rwa [hsize])]
    · exact ih hasc hl hhigh' _

end

end Sys2Proof

namespace Sys2Proof.Machine

open Sys2Proof.Safety Sys2Proof.Claims

theorem maskLanes_ascending (m : LaneMask) : (maskLanes m).Pairwise (· < ·) := List.Pairwise.filter _ List.pairwise_lt_range

theorem storeData_length (x : Ctx) (f : F1) (l : Nat) : (storeData x f l).length = sizeBytes f.fn.toNat := natLe_length _ _

theorem Core.pokeBuf_lanes (c : Core) (b : Buf) (lanes : List Nat) (at_ : Nat → Nat) (data : Nat → List Byte) :
    c.pokeBuf b (lanes.map fun l => (at_ l, data l)) = c.setBuf b ((c.buf b).storeLanes lanes at_ data) := by
  rw [Core.pokeBuf, List.foldl_map]
  rfl

theorem Core.buf_of_groups (c : Core) (gs : NMap Group) (b : Buf) : ({ c with groups := gs } : Core).buf b = c.buf b := by cases b <;> rfl

/-- The lanes store their bytes and the issuing group goes on: nothing else changes. -/
theorem State.pokeBuf_finish_stored {s : State} {ci gi size : Nat} (hcur : s.cur = (ci, gi)) (b : Buf) {lanes : List Nat}
    (hasc : lanes.Pairwise (· < ·)) (at_ : Nat → Nat) {data : Nat → List Byte} (hsize : ∀ l, (data l).length = size) (h : Group) :
    let t := (s.modCore ci fun c => c.pokeBuf b (lanes.map fun l => (at_ l, data l))).finish h
    Stored s t ci b lanes size at_ data ∧ (t.core ci).group? gi = some h.advance := by
  intro t
  have hcore : t.core ci = ((s.core ci).setBuf b (((s.core ci).buf b).storeLanes lanes at_ data)).setGroup gi h.advance := by
    simp only [t, State.finish, State.setGroup, State.modCore_cur, hcur, State.core_modCore_same, Core.pokeBuf_lanes]
  have hbuf : (t.core ci).buf b = ((s.core ci).buf b).storeLanes lanes at_ data := by
    rw [hcore, Core.setGroup, Core.buf_of_groups, Core.buf_setBuf_same]
  refine ⟨⟨fun a ha => ?_, fun l hl i hi hhigh => ?_, ⟨_, _, hcore⟩, fun cj hj => ?_, ⟨_, rfl⟩, fun a => rfl⟩, ?_⟩
  · rw [hbuf, NMap.atD_storeLanes_other hsize ha]
  · rw [hbuf, NMap.atD_storeLanes hsize hasc hl hi hhigh]
  · simp only [t, State.finish, State.setGroup, State.modCore_cur, hcur]
    rw [State.core_modCore_other _ _ _ _ hj, State.core_modCore_other _ _ _ _ hj]
  · rw [hcore, Core.group?_setGroup_same]

/-! ## The turn of a store at its lines (R29, R157, R158) -/

/-- The number with which a store comes to its lines: the one that it came with before, if it waited. -/
def Ctx.storeNum (x : Ctx) : Nat :=
  match x.g.place with
  | some p => p.1
  | none => x.c.nextNum

/-- A store that waits stands at its word with its place in the order of its lines, and has stored nothing. -/
theorem State.waitPlace_stays {s : State} {ci gi : Nat} (hcur : s.cur = (ci, gi)) (g : Group) (num : Nat) (b : Buf) (lines : List Nat)
    (st : GStatus) :
    let t := s.waitPlace g num b lines st
    ∃ h, (t.core ci).group? gi = some h ∧ h.pc = g.pc ∧ h.place.isSome = true ∧ t.mem = s.mem ∧
      ∀ d, (t.core ci).buf d = (s.core ci).buf d := by
  intro t
  refine ⟨{ g with status := st, place := some (num, b, lines) }, ?_, rfl, rfl, State.waitPlace_mem _ _ _ _ _ _, fun d => ?_⟩
  · cases hp : g.place.isSome <;>
      simp [t, State.waitPlace, State.setGroup, hp, hcur]
  · cases hp : g.place.isSome <;> cases d <;>
      simp [t, State.waitPlace, State.setGroup, hp, hcur, Core.buf]

/-- A store that has come to its lines (R29, R157): it waits for its turn, or stores if its images fit in the store buffer (R27). -/
def storeTurn (s : State) (x : Ctx) (b : Buf) (ws : List (Nat × List Byte)) (lines : List Nat) : Bool × State → State
  | (false, u) => u.waitPlace x.g x.storeNum b lines .waiting
  | (true, u) =>
    let h := (u.core s.cur.1).takeImages x.g b lines
    if h.sbOver then u.faultWord x.g { cls := .sbufOverflow } else (u.modCore s.cur.1 fun c => c.pokeBuf b ws).finish h

/-- A store whose lines are searched for one that is absent (R158): it parks on the line found, or comes to its lines. -/
def storeAt (s : State) (x : Ctx) (b : Buf) (ws : List (Nat × List Byte)) (lines : List Nat) : Option Nat → State
  | some ln => s.waitPlace x.g x.storeNum b lines (.parked b ln)
  | none => storeTurn s x b ws lines (s.reach s.cur.1 s.cur.2 x.storeNum b lines true)

section
variable {s : State} {x : Ctx} {b : Buf} {ws : List (Nat × List Byte)} {lines : List Nat} (hlines : dedup (ws.map fun w => w.1 / 128) = lines)
include hlines

theorem localStore_eq : localStore s x b ws = storeAt s x b ws lines (lines.find? fun ln => !x.c.presentFor x.storeNum b ln) := by
  subst hlines
  rfl

theorem localStore_of_absent (h : ∃ ln ∈ lines, x.c.presentFor x.storeNum b ln = false) :
    ∃ ln, localStore s x b ws = s.waitPlace x.g x.storeNum b lines (.parked b ln) := by
  obtain ⟨ln, hln, habsent⟩ := h
  obtain ⟨found, hfound⟩ := Option.isSome_iff_exists.mp
    (List.find?_isSome (p := fun ln => !x.c.presentFor x.storeNum b ln).mpr ⟨ln, hln, by rw [habsent]; rfl⟩)
  exact ⟨found, by rw [localStore_eq hlines, hfound]; rfl⟩

/-- The lines are present: what the store does is decided by its turn at them. -/
theorem localStore_of_present (h : ∀ ln ∈ lines, x.c.presentFor x.storeNum b ln = true) {turn : Bool × State}
    (hreach : s.reach s.cur.1 s.cur.2 x.storeNum b lines true = turn) : localStore s x b ws = storeTurn s x b ws lines turn := by
  have hnone : (lines.find? fun ln => !x.c.presentFor x.storeNum b ln) = none :=
    List.find?_eq_none.mpr fun ln hln => by rw [h ln hln]; exact Bool.false_ne_true
  rw [localStore_eq hlines, hnone, ← hreach]
  rfl

end

/-- R29, R156 to R158: what a store that passed its checks does. -/
theorem localStore_storeDone (s : State) (x : Ctx) (b : Buf) {lanes : List Nat} (hasc : lanes.Pairwise (· < ·)) {size : Nat} (at_ : Nat → Nat)
    {data : Nat → List Byte} (hsize : ∀ l, (data l).length = size) :
    StoreDone s x b lanes size at_ data (.next (localStore s x b (lanes.map fun l => (at_ l, data l)))) := by
  have hlines : dedup ((lanes.map fun l => (at_ l, data l)).map fun w => w.1 / 128) = dedup (lanes.map fun l => at_ l / 128) := by
    rw [List.map_map]
    rfl
  refine ⟨fun habsent => ?_, fun hpresent => ⟨fun s' hreach => ?_, fun s' hreach => ⟨fun hroom => ?_, fun hover => ?_⟩⟩⟩
  · obtain ⟨ln, hstore⟩ := localStore_of_absent (s := s) hlines habsent
    obtain ⟨h, hstays⟩ := State.waitPlace_stays (s := s) rfl x.g x.storeNum b (dedup (lanes.map fun l => at_ l / 128)) (.parked b ln)
    exact ⟨_, h, congrArg _ hstore, hstays⟩
  · have hstore := localStore_of_present hlines hpresent hreach
    obtain ⟨h, hstays⟩ := State.waitPlace_stays (State.reach_cur hreach) x.g x.storeNum b (dedup (lanes.map fun l => at_ l / 128)) .waiting
    exact ⟨_, h, congrArg _ hstore, hstays⟩
  · have hstore := localStore_of_present hlines hpresent hreach
    rw [storeTurn, if_neg (by rw [hroom]; decide)] at hstore
    exact ⟨_, congrArg _ hstore, State.pokeBuf_finish_stored (State.reach_cur hreach) b hasc at_ hsize _⟩
  · have hstore := localStore_of_present hlines hpresent hreach
    rw [hstore, storeTurn, if_pos hover]
    exact State.faultWord_faults _ _ _

/-! ## Each word's meaning, at the issuing group -/

/-- The byte of frame memory at which LDF or STF meets lane l (R154, R159). -/
def frameAt (s : State) (g : Group) (off : Nat → Nat) (l : Nat) : Nat := frameBase (s.core s.cur.1) g l + off l

/-- The group once LDF has read its lanes in the state s' that its claim left. -/
def ldfGroup (f : F1) (s s' : State) (g : Group) : Group :=
  (ctx1 f s g).g.setLanes f.d (sizeRegs f.fn.toNat) ((maskLanes (g.active f.g)).map fun l =>
    (l, widenLoad f.fn.toNat ((s'.core s'.cur.1).frame.readBytes (frameAt s g (loadOffset (ctx1 f s g) f) l) (sizeBytes f.fn.toNat))))

/-- LDF once its checks pass: it waits while an older group holds a line, and else reads (R29). -/
def ldfRead (f : F1) (s : State) (g : Group) : State :=
  match s.claim s.cur.1 s.cur.2 .frame (dedup ((maskLanes (g.active f.g)).map fun l => frameAt s g (loadOffset (ctx1 f s g) f) l / 128)) with
  | none => s.hold g
  | some s' => s'.finish (ldfGroup f s s' g)

section
variable {s : State} {g : Group} (hI : Issuing s g) (f : F1)
include hI

theorem execLdf_of : execLdf f s = .next (s.unlessFault g (ldfRead f s g)
    (localCheck (s.core s.cur.1) g .frame (g.active f.g) (loadOffset (ctx1 f s g) f) (sizeBytes f.fn.toNat) (sizeBytes f.fn.toNat))) :=
  withIssuer_of hI _

theorem execStf_of : execStf f s = .next (s.unlessFault g
    (localStore s (ctx1 f s g) .frame ((maskLanes (g.active f.g)).map fun l =>
      (frameAt s g (storeOffset (ctx1 f s g) f) l, storeData (ctx1 f s g) f l)))
    (localCheck (s.core s.cur.1) g .frame (g.active f.g) (storeOffset (ctx1 f s g) f) (sizeBytes f.fn.toNat) (sizeBytes f.fn.toNat))) :=
  withIssuer_of hI _

theorem bufStore_of (b : Buf) : bufStore b f s = .next (s.unlessFault g
    (localStore s (ctx1 f s g) b ((maskLanes (g.active f.g)).map fun l => (storeOffset (ctx1 f s g) f l, storeData (ctx1 f s g) f l)))
    (localCheck (s.core s.cur.1) g b (g.active f.g) (storeOffset (ctx1 f s g) f) (sizeBytes f.fn.toNat) (sizeBytes f.fn.toNat))) :=
  withIssuer_of hI _

end

/-- R29, R159: LDF reads each active lane in the state that its claim leaves. -/
theorem ldfRead_of_claim {f : F1} {s s' : State} {g : Group}
    (h : s.claim s.cur.1 s.cur.2 .frame
      (dedup ((maskLanes (g.active f.g)).map fun l => frameAt s g (loadOffset (ctx1 f s g) f) l / 128)) = some s') :
    ∃ k, Done s' k (.next (ldfRead f s g)) ∧ LaneWrite (ctx1 f s g).g k f.d (sizeRegs f.fn.toNat) (g.active f.g) fun l =>
      widenLoad f.fn.toNat ((s'.core s.cur.1).frame.readBytes (frameAt s g (loadOffset (ctx1 f s g) f) l) (sizeBytes f.fn.toNat)) := by
  have hread : ldfRead f s g = s'.finish (ldfGroup f s s' g) := by simp only [ldfRead, h]
  refine ⟨ldfGroup f s s' g, by rw [hread]; exact State.finish_done _ _, ?_⟩
  rw [← State.claim_cur h]
  exact Group.setLanes_write _ _ _ _ _

end Sys2Proof.Machine

namespace Sys2Proof.Proofs

open Sys2Proof.Machine Sys2Proof.Claims

/-- Settles O15: each word takes the fault that its checks name, and else LDF reads its lanes once its claim is granted and the stores
write theirs in ascending order once their lines are present and their turn has come. -/
theorem frameLoadsAndLocalStores : Obligations.FrameLoadsAndLocalStores := by
  intro f s g hI
  dsimp only
  simp only [exec_ldf, exec_stf, exec_sta, exec_stc, execSta, execStc, execLdf_of hI, execStf_of hI, bufStore_of hI]
  have hasc := maskLanes_ascending (g.active f.g)
  have hsize := storeData_length (ctx1 f s g) f
  refine ⟨fun hpass s' hclaim => ?_, fun e he => State.unlessFault_faults he _, fun hpass => ?_, fun e he => State.unlessFault_faults he _,
    fun hpass => ?_, fun e he => State.unlessFault_faults he _, fun hpass => ?_, fun e he => State.unlessFault_faults he _⟩
  · rw [hpass]
    exact ldfRead_of_claim hclaim
  · rw [hpass]
    exact localStore_storeDone s _ .frame hasc (frameAt s g (storeOffset (ctx1 f s g) f)) hsize
  · rw [hpass]
    exact localStore_storeDone s _ .a hasc _ hsize
  · rw [hpass]
    exact localStore_storeDone s _ .c hasc _ hsize

end Sys2Proof.Proofs
end

section
/-! Buffer loads and ATOMA at issue (R157, R160, R165). -/

namespace Sys2Proof.Machine

open Sys2Proof.Safety Sys2Proof.Claims

/-- From s, the operation starts, and the state that it leaves is served as far as its lines allow (R57, R157). -/
def StartsServed (s : State) (g : Group) (op : LongOp) (o : Out) : Prop :=
  ∃ u, Started s g op (fun c => c) (.next u) ∧ o = .next (u.serveLocal s.cur.1 s.cur.2 (s.core s.cur.1).nextNum)

/-- With room in its flag a local operation starts, and is served at once. -/
theorem State.startLocal_startsServed {s : State} {g : Group} {flag : Option Nat} (hflag : g.flagFull flag = false) (mk : Nat → LongOp)
    (hnum : ∀ n, (mk n).num = n) (hmark : ∀ n, (mk n).flag = flag) :
    StartsServed s g (mk (s.core s.cur.1).nextNum) (.next (s.startLocal g flag mk)) := by
  refine ⟨_, State.startOp_started s g flag mk (fun _ c => c) hflag (hnum _) (hmark _), ?_⟩
  simp [State.startLocal, hflag]

/-- The operation of a buffer load, with its number. -/
def bufLoadOp (b : Buf) (f : F1) (s : State) (g : Group) (num : Nat) : LongOp :=
  LongOp.serveDone { LongOp.plain num (flagOf f.flag.toNat) g.pc (.bufLoad b) with
    ready := false, dst := f.d, size := f.fn, accs := localAccs (g.active f.g) (sizeBytes f.fn.toNat) (loadOffset (ctx1 f s g) f) }

/-- The word of A that each lane of an ATOMA names (R165). -/
def atomaOffset (f : F1) (s : State) (g : Group) (l : Nat) : Nat := ((ctx1 f s g).rd f.a l).toNat

/-- The operation of an ATOMA, with its number. -/
def atomaOp (f : F1) (s : State) (g : Group) (num : Nat) : LongOp :=
  { LongOp.plain num (flagOf f.flag.toNat) g.pc (.atoma f.fn ((maskLanes (g.active f.g)).map fun l =>
      ((ctx1 f s g).rd f.b l, w32 ((ctx1 f s g).count3 f.c l)))) with
    ready := false, dst := f.d, size := 4, accs := localAccs (g.active f.g) 4 (atomaOffset f s g) }

section
variable {s : State} {g : Group} (hI : Issuing s g) (f : F1)
include hI

theorem bufLoadWord_of (b : Buf) : bufLoadWord b f s = .next (s.unlessFault g
    (s.startLocal (ctx1 f s g).g (flagOf f.flag.toNat) (bufLoadOp b f s g))
    (localCheck (s.core s.cur.1) g b (g.active f.g) (loadOffset (ctx1 f s g) f) (sizeBytes f.fn.toNat) (sizeBytes f.fn.toNat))) :=
  withIssuer_of hI _

theorem execAtoma_of : execAtoma f s = .next (s.unlessFault g
    (s.startLocal (ctx1 f s g).g (flagOf f.flag.toNat) (atomaOp f s g))
    (localCheck (s.core s.cur.1) g .a (g.active f.g) (atomaOffset f s g) 4 4)) :=
  withIssuer_of hI _

end

section
variable (f : F1) (s : State) {g : Group} (hflag : g.flagFull (flagOf f.flag.toNat) = false)
include hflag

theorem bufLoadOp_startsServed (b : Buf) : StartsServed s (ctx1 f s g).g (bufLoadOp b f s g (s.core s.cur.1).nextNum)
    (.next (s.startLocal (ctx1 f s g).g (flagOf f.flag.toNat) (bufLoadOp b f s g))) :=
  State.startLocal_startsServed (by rwa [ctx1_flagFull]) _ (fun n => LongOp.serveDone_num _) (fun n => LongOp.serveDone_flag _)

theorem atomaOp_startsServed : StartsServed s (ctx1 f s g).g (atomaOp f s g (s.core s.cur.1).nextNum)
    (.next (s.startLocal (ctx1 f s g).g (flagOf f.flag.toNat) (atomaOp f s g))) :=
  State.startLocal_startsServed (by rwa [ctx1_flagFull]) _ (fun _ => rfl) (fun _ => rfl)

end

end Sys2Proof.Machine

namespace Sys2Proof.Proofs

open Sys2Proof.Machine Sys2Proof.Claims

/-- Settles O16: each word takes the fault that its checks name, and else starts its operation, with room in its flag, and serves it. -/
theorem bufferLoadsAndAtomaStart : Obligations.BufferLoadsAndAtomaStart := by
  intro f s g hI hflag
  dsimp only
  simp only [exec_ldw, exec_lda, exec_ldc, exec_atoma, execLdw, execLda, execLdc, bufLoadWord_of hI, execAtoma_of hI]
  refine ⟨fun hpass => ?_, fun hpass => ?_, fun hpass => ?_, fun hpass => ?_, fun e he => State.unlessFault_faults he _,
    fun e he => State.unlessFault_faults he _, fun e he => State.unlessFault_faults he _, fun e he => State.unlessFault_faults he _⟩
  · rw [hpass]
    exact bufLoadOp_startsServed f s hflag .w
  · rw [hpass]
    exact bufLoadOp_startsServed f s hflag .a
  · rw [hpass]
    exact bufLoadOp_startsServed f s hflag .c
  · rw [show localCheck _ _ .a _ (atomaOffset f s g) 4 4 = none from hpass]
    exact atomaOp_startsServed f s hflag

end Sys2Proof.Proofs
end

section
/-! STA.NB and PRES (R161, R163, R164). -/

namespace Sys2Proof.Machine

open Sys2Proof.Safety Sys2Proof.Claims

/-- The group once the active lanes of STA.NB, in ascending order, hold their bytes in its store buffer (R163). -/
def nbGroup (f : F1) (s : State) (g : Group) : Group :=
  (maskLanes (g.active f.g)).foldl (fun h l =>
    h.deposit (clusTile (s.core s.cur.1) s.cur.1 (nbPos (ctx1 f s g) f l)) (nbOff (ctx1 f s g) f l) (storeData (ctx1 f s g) f l)) (ctx1 f s g).g

/-- R27: the group goes on, unless it needs an entry more than its store buffer has. -/
def State.finishInRoom (s : State) (g h : Group) : State := if h.sbOver then s.faultWord g { cls := .sbufOverflow } else s.finish h

theorem State.finishInRoom_spec (s : State) (g h : Group) :
    (h.sbOver = false → Done s h (.next (s.finishInRoom g h))) ∧
      (h.sbOver = true → Faults s g { cls := .sbufOverflow } (.next (s.finishInRoom g h))) := by
  refine ⟨fun hroom => ?_, fun hover => ?_⟩
  · rw [State.finishInRoom, if_neg (by rw [hroom]; decide)]
    exact State.finish_done _ _
  · rw [State.finishInRoom, if_pos hover]
    exact State.faultWord_faults _ _ _

/-! ## The checks of STA.NB -/

section
variable {s : State} {c : Core} {f : F1} {x : Ctx} {act : LaneMask}

/-- The bytes of A at the tile that a lane names. -/
def nbLimit (s : State) (c : Core) (f : F1) (x : Ctx) (l : Nat) : Nat := (s.core (clusTile c s.cur.1 (nbPos x f l))).partSize .a

theorem nbFault_of_position {e : Flt}
    (h : firstCause .localAccess act (storeOffset x f) [(causeNeighbour, fun l => decide (c.clusSize ≤ nbPos x f l))] = some e) :
    nbFault s c f x act = some e :=
  firstCause_cons_of_some _ h

variable (hpos : ∀ l ∈ maskLanes act, nbPos x f l < c.clusSize)
include hpos

/-- Positions inside the cluster leave the range and the alignment to be checked. -/
theorem nbFault_of_inside : nbFault s c f x act = firstCause .localAccess act (storeOffset x f)
    [(causeRange, fun l => decide (nbLimit s c f x l < nbOff x f l + sizeBytes f.fn.toNat)),
      (causeAlign, fun l => nbOff x f l % sizeBytes f.fn.toNat != 0)] := by
  refine (firstCause_cons_of_passed _ fun l hl => decide_eq_false (Nat.not_le.mpr (hpos l hl))).trans (firstCause_cons_congr _ fun l hl => ?_)
  simp only [hpos l hl, true_and]
  rfl

theorem nbFault_of_range {e : Flt} (h : firstCause .localAccess act (storeOffset x f)
    [(causeRange, fun l => decide (nbLimit s c f x l < nbOff x f l + sizeBytes f.fn.toNat))] = some e) : nbFault s c f x act = some e :=
  (nbFault_of_inside hpos).trans (firstCause_cons_of_some _ h)

variable (hrange : ∀ l ∈ maskLanes act, nbOff x f l + sizeBytes f.fn.toNat ≤ nbLimit s c f x l)
include hrange

/-- Bytes inside the partition leave the alignment to be checked. -/
theorem nbFault_of_inRange : nbFault s c f x act = firstCause .localAccess act (storeOffset x f)
    [(causeAlign, fun l => nbOff x f l % sizeBytes f.fn.toNat != 0)] :=
  (nbFault_of_inside hpos).trans (firstCause_cons_of_passed _ fun l hl => decide_eq_false (Nat.not_lt.mpr (hrange l hl)))

theorem nbFault_of_aligned (halign : ∀ l ∈ maskLanes act, nbOff x f l % sizeBytes f.fn.toNat = 0) : nbFault s c f x act = none :=
  (nbFault_of_inRange hpos hrange).trans (firstCause_eq_none fun l hl => by simp [halign l hl])

end

/-! ## Each word's meaning, at the issuing group -/

section
variable {s : State} {g : Group} (hI : Issuing s g) (f : F1)
include hI

theorem execStaNb_of : execStaNb f s = .next (s.unlessFault g (s.finishInRoom (ctx1 f s g).g (nbGroup f s g))
    (nbFault s (s.core s.cur.1) f (ctx1 f s g) (g.active f.g))) :=
  withIssuer_of hI _

/-- R164: PRES writes the presence bit of each active lane's line, or of the 32 lines from it on. -/
theorem execPres_done : ∃ h, Done s h (execPres f s) ∧ LaneWrite (ctx1 f s g).g h f.d 1 (g.active f.g) fun l =>
    let ln := ((ctx1 f s g).rd f.a l).toNat / 128
    let bit (j : Nat) : Nat := bit01 ((s.core s.cur.1).presBit (presBuf f.fn.toNat) (ln + j))
    if f.fn.toNat / 4 = 0 then bit 0 else (List.range 32).foldl (fun m j => m + bit j * 2 ^ j) 0 := by
  rw [execPres, withIssuer_of hI]
  exact ⟨_, State.finish_done _ _, Group.setLanes_write _ _ _ _ _⟩

end

end Sys2Proof.Machine

namespace Sys2Proof.Proofs

open Sys2Proof.Machine Sys2Proof.Claims

/-- Settles O17: STA.NB checks position, range and alignment in this order, and with no lane failing deposits lane after lane; PRES writes
its lanes. -/
theorem neighbourStoresAndPresence : Obligations.NeighbourStoresAndPresence := by
  intro f s g hI
  dsimp only
  simp only [exec_staNb, exec_pres, execStaNb_of hI]
  refine ⟨fun hpass => ?_, fun e he => State.unlessFault_faults (nbFault_of_position he) _, fun hpos =>
    ⟨fun e he => State.unlessFault_faults (nbFault_of_range hpos he) _, fun hrange e he =>
      State.unlessFault_faults ((nbFault_of_inRange hpos hrange).trans he) _⟩, execPres_done hI f⟩
  obtain ⟨hpos, hpass⟩ := forall₂_and.mp hpass
  obtain ⟨hrange, halign⟩ := forall₂_and.mp hpass
  rw [nbFault_of_aligned hpos hrange halign]
  exact State.finishInRoom_spec s _ (nbGroup f s g)

end Sys2Proof.Proofs
end

section
/-! The numbers of the integer words: patterns of a width, reversal, counts, bit fields and division (R167, R172, R174 to R177). -/

namespace Sys2Proof

/-- A pattern of w bits is one of w bits. -/
theorem ofIntN_lt (i : Int) (w : Nat) : ofIntN i w < 2 ^ w := by
  have hpos : (0 : Int) < 2 ^ w := by positivity
  have hlt := Int.emod_lt_of_pos i hpos
  unfold ofIntN
  zify
  rwa [Int.toNat_of_nonneg (Int.emod_nonneg i hpos.ne')]

/-- −1 has every bit set. -/
theorem ofIntN_neg_one (w : Nat) : ofIntN (-1) w = 2 ^ w - 1 := by
  have hpos : 0 < 2 ^ w := Nat.two_pow_pos w
  have hmod : (-1 : Int) % 2 ^ w = ((2 ^ w - 1 : Nat) : Int) := by
    rw [Nat.cast_sub hpos, ← Int.add_emod_right, Int.emod_eq_of_lt] <;> push_cast <;> zify at hpos <;> omega
  rw [ofIntN, hmod, Int.toNat_natCast]

theorem ofIntN_of_lt {n w : Nat} (h : n < 2 ^ w) : ofIntN n w = n := by
  rw [ofIntN, Int.emod_eq_of_lt (by positivity) (by exact_mod_cast h), Int.toNat_natCast]

@[simp] theorem w64_toNat (n : Nat) : (w64 n).toNat = n % 2 ^ 64 := BitVec.toNat_ofNat n 64

theorem w64_toNat_of_lt {n : Nat} (h : n < 2 ^ 64) : (w64 n).toNat = n := (w64_toNat n).trans (Nat.mod_eq_of_lt h)

theorem w64_bit01_toNat (b : Bool) : (w64 (bit01 b)).toNat = if b then 1 else 0 := by cases b <;> rfl

end Sys2Proof

namespace Sys2Proof.Machine

theorem putInt_toNat (i : Int) : (putInt i).toNat = ofIntN i 64 := w64_toNat_of_lt (ofIntN_lt i 64)

/-! ## Shifts and fields -/

theorem shlN_lt (w a n : Nat) : shlN w a n < 2 ^ w := by
  have hpos := Nat.two_pow_pos w
  unfold shlN
  split
  · exact Nat.mod_lt _ hpos
  · exact hpos

theorem sarN_lt (w a n : Nat) : sarN w a n < 2 ^ w := by
  have hpos := Nat.two_pow_pos w
  unfold sarN
  split
  · exact ofIntN_lt _ _
  · split <;> omega

section
variable {w a : Nat} (ha : a < 2 ^ w) (n : Nat)

include ha

theorem shrN_lt : shrN w a n < 2 ^ w := by
  unfold shrN
  split
  · exact (Nat.div_le_self a _).trans_lt ha
  · exact Nat.two_pow_pos w

/-- A rotation keeps the width: the bits that leave at the top come back below the ones that stay. -/
theorem rolN_lt (hw : 0 < w) : rolN w a n < 2 ^ w := by
  have hk : n % w < w := Nat.mod_lt n hw
  have hsplit : 2 ^ w = 2 ^ (w - n % w) * 2 ^ (n % w) := by rw [← Nat.pow_add, Nat.sub_add_cancel hk.le]
  have hlow : a / 2 ^ (w - n % w) < 2 ^ (n % w) := Nat.div_lt_of_lt_mul (by rwa [← hsplit])
  have hhigh : a % 2 ^ (w - n % w) + 1 ≤ 2 ^ (w - n % w) := Nat.mod_lt a (Nat.two_pow_pos _)
  calc rolN w a n = a % 2 ^ (w - n % w) * 2 ^ (n % w) + a / 2 ^ (w - n % w) := by
        rw [rolN, hsplit, Nat.mul_mod_mul_right]
    _ < (a % 2 ^ (w - n % w) + 1) * 2 ^ (n % w) := by rw [Nat.add_mul, Nat.one_mul]; omega
    _ ≤ 2 ^ (w - n % w) * 2 ^ (n % w) := Nat.mul_le_mul_right _ hhigh
    _ = 2 ^ w := hsplit.symm

end

theorem bfeN_lt (signed : Bool) (a p n : Nat) : bfeN signed a p n < 2 ^ 32 := by
  unfold bfeN
  split
  · exact Nat.two_pow_pos 32
  · dsimp only
    split
    · exact ofIntN_lt _ _
    · exact (Nat.mod_lt _ (Nat.two_pow_pos _)).trans_le (Nat.pow_le_pow_right Nat.two_pos (by omega))

/-! ## Reversal (R177) -/

/-- The reversal of w + 1 bits: bit 0 goes to the top, above the reversal of the bits over it. -/
theorem brevN_succ (w a : Nat) : brevN (w + 1) a = 2 ^ w * (a % 2) + brevN w (a / 2) := by
  have hsum (w a : Nat) : brevN w a = ((List.range w).map fun j => a / 2 ^ j % 2 * 2 ^ (w - 1 - j)).sum := by
    rw [List.sum_eq_foldl_nat, List.foldl_map, brevN]
  rw [hsum, hsum, ← Nat.succ_eq_add_one, List.sum_range_succ']
  congr 1
  · simp [Nat.mul_comm]
  · refine congrArg List.sum (List.map_congr_left fun j _ => ?_)
    rw [Nat.div_div_eq_div_mul, Nat.pow_succ', show w + 1 - 1 - (j + 1) = w - 1 - j by omega]

theorem brevN_lt (w a : Nat) : brevN w a < 2 ^ w := by
  induction w generalizing a with
  | zero => exact Nat.one_pos
  | succ w ih =>
    have hrest := ih (a / 2)
    have htop : 2 ^ w * (a % 2) ≤ 2 ^ w * 1 := Nat.mul_le_mul_left _ (by omega)
    rw [brevN_succ, Nat.pow_succ]
    omega

/-- Bit j moves to bit w − 1 − j. -/
theorem testBit_brevN {w j : Nat} (hj : j < w) (a : Nat) : (brevN w a).testBit (w - 1 - j) = a.testBit j := by
  induction w generalizing a j with
  | zero => exact absurd hj (Nat.not_lt_zero j)
  | succ w ih =>
    rw [brevN_succ, Nat.testBit_two_pow_mul_add _ (brevN_lt w _)]
    cases j with
    | zero => simp [Nat.testBit_zero]
    | succ j =>
      have hj : j < w := by omega
      rw [if_pos (by omega), show w + 1 - 1 - (j + 1) = w - 1 - j by omega, ih hj, Nat.testBit_div_two]

theorem brevN_brevN {w a : Nat} (ha : a < 2 ^ w) : brevN w (brevN w a) = a := by
  refine Nat.eq_of_testBit_eq fun j => ?_
  by_cases hj : j < w
  · have hmirror : w - 1 - (w - 1 - j) = j := by omega
    calc (brevN w (brevN w a)).testBit j
        = (brevN w (brevN w a)).testBit (w - 1 - (w - 1 - j)) := by rw [hmirror]
      _ = (brevN w a).testBit (w - 1 - j) := testBit_brevN (by omega) _
      _ = a.testBit j := testBit_brevN hj a
  · have hw : 2 ^ w ≤ 2 ^ j := Nat.pow_le_pow_right Nat.two_pos (by omega)
    rw [Nat.testBit_lt_two_pow ((brevN_lt w _).trans_le hw), Nat.testBit_lt_two_pow (ha.trans_le hw)]

/-! ## Leading and trailing zeros (R177) -/

theorem clzN_zero (w : Nat) : clzN w 0 = w := rfl

/-- The highest set bit stands below exactly clz clear bits. -/
theorem clzN_spec {w a : Nat} (h0 : a ≠ 0) (ha : a < 2 ^ w) :
    clzN w a < w ∧ 2 ^ (w - 1 - clzN w a) ≤ a ∧ a < 2 ^ (w - clzN w a) := by
  have hlog : Nat.log2 a < w := (Nat.log2_lt h0).mpr ha
  have hclz : clzN w a = w - 1 - Nat.log2 a := if_neg h0
  refine ⟨by omega, ?_, ?_⟩
  · rw [show w - 1 - clzN w a = Nat.log2 a by omega]
    exact Nat.log2_self_le h0
  · rw [show w - clzN w a = Nat.log2 a + 1 by omega]
    exact Nat.lt_log2_self

theorem ctzN_zero (w : Nat) : ctzN w 0 = w := by
  have hnone : ((List.range w).find? fun j => 0 / 2 ^ j % 2 == 1) = none := by simp
  rw [ctzN, hnone, Option.getD_none]

/-- The lowest set bit stands above exactly ctz clear bits. -/
theorem ctzN_spec {w a : Nat} (h0 : a ≠ 0) (ha : a < 2 ^ w) :
    ctzN w a < w ∧ a % 2 ^ ctzN w a = 0 ∧ a / 2 ^ ctzN w a % 2 = 1 := by
  cases hfind : (List.range w).find? fun j => a / 2 ^ j % 2 == 1 with
  | none =>
    obtain ⟨i, hi⟩ := Nat.exists_testBit_of_ne_zero h0
    have hiw : i < w := by
      by_contra hle
      rw [Nat.testBit_lt_two_pow (ha.trans_le (Nat.pow_le_pow_right Nat.two_pos (by omega)))] at hi
      cases hi
    have hclear := List.find?_range_eq_none.mp hfind i hiw
    rw [Nat.testBit_eq_decide_div_mod_eq, decide_eq_true_eq] at hi
    simp [hi] at hclear
  | some i =>
    obtain ⟨hbit, hi, hlow⟩ := List.find?_range_eq_some.mp hfind
    have hctz : ctzN w a = i := by rw [ctzN, hfind, Option.getD_some]
    rw [hctz]
    refine ⟨List.mem_range.mp hi, Nat.eq_of_testBit_eq fun j => ?_, by simpa using hbit⟩
    rw [Nat.testBit_mod_two_pow, Nat.zero_testBit]
    by_cases hj : j < i
    · simpa [hj, Nat.testBit_eq_decide_div_mod_eq] using hlow j hj
    · simp [hj]

/-! ## Division (R172) -/

/-- The remainder of the truncating division is smaller than the divisor, and has the sign of the dividend or is zero. -/
theorem sub_mul_tdiv_spec (a : Int) {b : Int} (hb : b ≠ 0) : (a - b * Int.tdiv a b).natAbs < b.natAbs ∧
    (0 ≤ a → 0 ≤ a - b * Int.tdiv a b) ∧ (a ≤ 0 → a - b * Int.tdiv a b ≤ 0) := by
  have hmod : a - b * Int.tdiv a b = Int.tmod a b := by rw [Int.mul_tdiv_self]; omega
  rw [hmod, Int.natAbs_tmod]
  refine ⟨Nat.mod_lt _ (Int.natAbs_pos.mpr hb), Int.tmod_nonneg b, fun ha => ?_⟩
  have hneg := Int.tmod_nonneg b (Int.neg_nonneg.mpr ha)
  rw [Int.neg_tmod] at hneg
  omega

theorem divRem_of_ne (w : Nat) (sg sat : Bool) (a : Int) {b : Int} (hb : b ≠ 0) :
    divRem w sg sat a b = (fit (Int.tdiv a b) w sg sat, a - b * Int.tdiv a b) := if_neg hb

theorem divRem_zero (w : Nat) (sg sat : Bool) (a : Int) : divRem w sg sat a 0 =
    (if sat then (if 0 < a then hiOf w sg else if a < 0 then loOf w sg else 0) else if sg then -1 else hiOf w sg, a) := rfl

/-- Without `.SAT` the quotient of a division by zero has every bit set. -/
theorem ofIntN_divRem_zero (w : Nat) (sg : Bool) (a : Int) : ofIntN (divRem w sg false a 0).1 w = 2 ^ w - 1 := by
  rw [divRem_zero]
  cases sg with
  | true => exact ofIntN_neg_one w
  | false =>
    have hpos : 0 < 2 ^ w := Nat.two_pow_pos w
    have htop : hiOf w false = ((2 ^ w - 1 : Nat) : Int) := by rw [Nat.cast_sub hpos]; simp [hiOf]
    exact (congrArg (ofIntN · w) htop).trans (ofIntN_of_lt (by omega))

end Sys2Proof.Machine
end

section
/-! The integer words of one lane: what each form writes (R166 to R181). -/

namespace Sys2Proof.Machine

open Sys2Proof.Safety Sys2Proof.Claims

/-- A type takes one register or two. -/
theorem tyRegs_cases (t : Ty) : tyRegs t = 1 ∨ tyRegs t = 2 := by cases t <;> decide

theorem widthOf_pos (f : F0) : 0 < widthOf f := by rcases tyRegs_cases f.t with h | h <;> simp [widthOf, h]

theorem two_pow_widthOf_le (f : F0) : 2 ^ widthOf f ≤ 2 ^ 64 :=
  Nat.pow_le_pow_right Nat.two_pos (by rcases tyRegs_cases f.t with h | h <;> simp [widthOf, h])

theorem f0Fit_toNat (f : F0) (sat : Bool) (r : Int) : (f0Fit f sat r).toNat = fitBits f sat r := putInt_toNat _

section
variable {s : State} {g : Group} (hI : Issuing s g) (f : F0)
include hI

/-- A lane word writes any `val` that its results have as their numbers. -/
theorem laneWord_writes {n : Nat} {k : Ctx → Nat → DWord} {val : Nat → Nat} (h : ∀ l, (k (ctx0 f s g) l).toNat = val l) :
    LaneDone f s g n val 0 (laneWord s f n k) := by
  rw [← funext h]
  exact laneWord_done hI f n k

/-! ## Arithmetic -/

theorem arith1_done (sat : Bool) (op : Int → Int) :
    LaneDone f s g (tyRegs f.t) (fun l => fitBits f sat (op (intA f s g l))) 0 (arith1 s f sat op) := by
  unfold arith1
  exact laneWord_writes hI f fun _ => f0Fit_toNat f sat _

theorem arith2_done (sat : Bool) (op : Int → Int → Int) :
    LaneDone f s g (tyRegs f.t) (fun l => fitBits f sat (op (intA f s g l) (intB f s g l))) 0 (arith2 s f sat op) := by
  unfold arith2
  exact laneWord_writes hI f fun _ => f0Fit_toNat f sat _

theorem execMad_done : LaneDone f s g (tyRegs f.t)
    (fun l => fitBits f (satBit f) (intA f s g l * intB' f s g l + intC f s g l)) 0 (execMad f s) := by
  unfold execMad
  exact laneWord_writes hI f fun _ => f0Fit_toNat f _ _

/-- MADW computes in T′, of twice the width of T (R170). -/
theorem execMadw_done : LaneDone f s g (2 * tyWidth f.t / 32)
    (fun l => ofIntN (fit (f0Val f ((ctx0 f s g).rdN 1 f.a l) * f0Val f ((ctx0 f s g).rdN 1 f.b l) +
      valOf (2 * tyWidth f.t) (tySigned f.t f.md) ((ctx0 f s g).src3 f (2 * tyWidth f.t / 32) l))
      (2 * tyWidth f.t) (tySigned f.t f.md) (satBit f)) 64) 0 (execMadw f s) := by
  unfold execMadw
  exact laneWord_writes hI f fun _ => putInt_toNat _

/-! ## Patterns of the width -/

/-- A shift whose result keeps the width writes it whole. -/
theorem shiftWord_done {op : Nat → Nat → Nat → Nat} (hop : ∀ {a} n, a < 2 ^ widthOf f → op (widthOf f) a n < 2 ^ widthOf f) :
    LaneDone f s g (tyRegs f.t) (fun l => op (widthOf f) (patA f s g l % 2 ^ widthOf f) (count f s g l)) 0 (shiftWord s f op) := by
  unfold shiftWord
  exact laneWord_writes hI f fun _ => w64_toNat_of_lt ((hop _ (Nat.mod_lt _ (Nat.two_pow_pos _))).trans_le (two_pow_widthOf_le f))

theorem bits2_done (op : Nat → Nat → Nat → Nat) :
    LaneDone f s g (tyRegs f.t) (fun l => op (widthOf f) (patA f s g l) (patB f s g l) % 2 ^ widthOf f) 0 (bits2 s f op) := by
  unfold bits2
  exact laneWord_writes hI f fun _ => w64_toNat_of_lt ((Nat.mod_lt _ (Nat.two_pow_pos _)).trans_le (two_pow_widthOf_le f))

theorem execNot_done : LaneDone f s g (tyRegs f.t) (fun l => 2 ^ widthOf f - 1 - patA f s g l % 2 ^ widthOf f) 0 (execNot f s) := by
  have hlt (a : Nat) : 2 ^ widthOf f - 1 - a < 2 ^ 64 := by
    have hpos := Nat.two_pow_pos (widthOf f)
    have hle := two_pow_widthOf_le f
    omega
  unfold execNot
  exact laneWord_writes hI f fun _ => w64_toNat_of_lt (hlt _)

theorem countWord_done (op : Nat → Nat → Nat) :
    LaneDone f s g 1 (fun l => op (widthOf f) (patA f s g l) % 2 ^ 64) 0 (countWord s f op) := by
  unfold countWord
  exact laneWord_writes hI f fun _ => w64_toNat _

theorem execBrev_done : LaneDone f s g (tyRegs f.t) (fun l => brevN (widthOf f) (patA f s g l) % 2 ^ 64) 0 (execBrev f s) := by
  unfold execBrev
  exact laneWord_writes hI f fun _ => w64_toNat _

/-! ## Bit fields (R176) -/

theorem execBfe_done : LaneDone f s g 1 (fun l => bfeN (f.t == .s32) (regA f s g l).toNat (regB f s g l).toNat
    ((ctx0 f s g).count3 f.c l)) 0 (execBfe f s) := by
  unfold execBfe
  exact laneWord_writes hI f fun _ => w64_toNat_of_lt ((bfeN_lt _ _ _ _).trans (by decide))

/-- BFI keeps the register where the position lies beyond it or the field is empty. -/
theorem execBfi_done : LaneDone f s g 1 (fun l =>
    if 32 ≤ (ctx0 f s g).count3 f.c l % 256 ∨ (ctx0 f s g).count3 f.c l / 256 % 256 = 0 then (regA f s g l).toNat
    else setField (regA f s g l).toNat ((ctx0 f s g).count3 f.c l % 256)
      (min ((ctx0 f s g).count3 f.c l / 256 % 256) (32 - (ctx0 f s g).count3 f.c l % 256)) (regB f s g l).toNat % 2 ^ 64) 0
    (execBfi f s) := by
  unfold execBfi
  refine laneWord_writes hI f fun l => ?_
  rw [w64_toNat, bfiN]
  split
  · exact Nat.mod_eq_of_lt ((regA f s g l).isLt.trans (by decide))
  · rfl

/-! ## Words of one bit -/

theorem bitWord_done (b : Ctx → Nat → Bool) :
    LaneDone f s g 1 (fun l => if b (ctx0 f s g) l then 1 else 0) 0 (laneWord s f 1 fun x l => w64 (bit01 (b x l))) :=
  laneWord_writes hI f fun _ => w64_bit01_toNat _

/-- The inputs of a predicate word, inverted by FN[0] and FN[1] (R181). -/
theorem predWord_done (op : Bool → Bool → Bool) :
    LaneDone f s g 1 (fun l => if op ((regA f s g l != 0) != f.fn.getLsbD 0) ((regB f s g l != 0) != f.fn.getLsbD 1) then 1 else 0) 0
      (predWord s f op) := by
  unfold predWord
  exact bitWord_done hI f fun x l => op ((x.rd f.a l != 0) != f.fn.getLsbD 0) ((x.rd f.b l != 0) != f.fn.getLsbD 1)

theorem execPnot_done : LaneDone f s g 1 (fun l => if (regA f s g l != 0) != f.fn.getLsbD 0 then 0 else 1) 0 (execPnot f s) := by
  have hnot := predWord_done hI f fun a _ => !a
  simp only [Bool.not_eq_true', ← Bool.not_eq_true, ite_not] at hnot
  exact hnot

/-! ## Moves, selection, comparison, addresses and conversion -/

theorem execMov_done : LaneDone f s g (tyRegs f.t) (fun l => ((ctx0 f s g).rdN (tyRegs f.t) f.a l).toNat) 0 (execMov f s) := by
  unfold execMov
  exact laneWord_writes hI f fun _ => rfl

theorem execMovk_done : LaneDone f s g (tyRegs f.t)
    (fun l => (movkValue (s.core s.cur.1) f.t (kIndex f.a) (count f s g l)).toNat) 0 (execMovk f s) := by
  unfold execMovk
  exact laneWord_writes hI f fun _ => by rw [ctx0_core]; rfl

theorem execMovi_done : LaneDone f s g (tyRegs f.t) (fun l => ((ctx0 f s g).src3 f (tyRegs f.t) l).toNat) 0 (execMovi f s) := by
  unfold execMovi
  exact laneWord_writes hI f fun _ => rfl

theorem execMoviBy_done : LaneDone f s g 1
    (fun l => setField (regA f s g l).toNat (8 * (f.fn.toNat - 4)) 8 ((ctx0 f s g).count3 f.c l) % 2 ^ 64) 0 (execMoviBy f s) := by
  unfold execMoviBy
  exact laneWord_writes hI f fun _ => w64_toNat _

theorem execSel_done : LaneDone f s g (tyRegs f.t) (fun l => if (ctx0 f s g).cond3 f.c l then ((ctx0 f s g).rdN (tyRegs f.t) f.a l).toNat
    else ((ctx0 f s g).rdN (tyRegs f.t) f.b l).toNat) 0 (execSel f s) := by
  unfold execSel
  exact laneWord_writes hI f fun _ => apply_ite _ _ _ _

theorem execCmp_done : LaneDone f s g 1 (fun l => if cmpHolds (f.fn.toNat % 8) (intA f s g l) (intB f s g l) &&
    (f.fn.toNat < 8 || (ctx0 f s g).cond3 f.c l) then 1 else 0) 0 (execCmp f s) := by
  unfold execCmp
  exact bitWord_done hI f fun x l => cmpHolds (f.fn.toNat % 8) (f0Val f (x.rdN (tyRegs f.t) f.a l))
    (f0Val f (x.src2 f (tyRegs f.t) l)) && (f.fn.toNat < 8 || x.cond3 f.c l)

theorem execLea_done : LaneDone f s g 2 (fun l => leaN (f.t == .s32) ((ctx0 f s g).rd64 f.a l).toNat (regB f s g l)
    ((ctx0 f s g).count3 f.c l) % 2 ^ 64) 0 (execLea f s) := by
  unfold execLea
  exact laneWord_writes hI f fun _ => w64_toNat _

/-- The width and the sign of the source are those that FN selects (R180). -/
theorem execCvti_done : LaneDone f s g (tyRegs f.t) (fun l => fitBits f (satBit f) (valOf (8 * 2 ^ (f.fn.toNat / 2)) (f.fn.toNat % 2 == 0)
    ((ctx0 f s g).rdN (if 8 * 2 ^ (f.fn.toNat / 2) = 64 then 2 else 1) f.a l))) 0 (execCvti f s) := by
  unfold execCvti
  exact laneWord_writes hI f fun _ => f0Fit_toNat f _ _

end

end Sys2Proof.Machine

namespace Sys2Proof.Proofs

open Sys2Proof.Machine Sys2Proof.Claims

/-- Settles O1: each arithmetic word is its row's operation under fit, and each shift keeps the width. -/
theorem integerArithmeticAndShifts : Obligations.IntegerArithmeticAndShifts := by
  refine ⟨fun f s g hI => ?_, fun f s g hI => ?_⟩ <;> dsimp only
  · simp only [exec_add, exec_sub, exec_mul, exec_mulhi, exec_mad, exec_madw, exec_abs, exec_neg, exec_min, exec_max]
    exact ⟨arith2_done hI f _ (· + ·), arith2_done hI f _ (· - ·), arith2_done hI f _ (· * ·),
      arith2_done hI f _ fun a b => a * b / 2 ^ tyWidth f.t, execMad_done hI f, execMadw_done hI f,
      arith1_done hI f _ fun a => if a < 0 then -a else a, arith1_done hI f _ fun a => -a, arith2_done hI f _ min,
      arith2_done hI f _ max⟩
  · simp only [exec_shl, exec_shr, exec_sar, exec_rol]
    exact ⟨shiftWord_done hI f fun n _ => shlN_lt _ _ n, shiftWord_done hI f fun n ha => shrN_lt ha n,
      shiftWord_done hI f fun n _ => sarN_lt _ _ n, shiftWord_done hI f fun n ha => rolN_lt ha n (widthOf_pos f)⟩

/-- Settles O2: the words on patterns, and what the counts and the reversal are. -/
theorem bitwiseFieldAndCountWords : Obligations.BitwiseFieldAndCountWords := by
  refine ⟨fun f s g hI => ?_, fun w a _ ha => ⟨?_, fun h0 => ?_, fun j hj => ?_, brevN_brevN ha⟩⟩
  · dsimp only
    simp only [exec_and, exec_or, exec_xor, exec_andn, exec_not, exec_bfe, exec_bfi, exec_brev, exec_clz, exec_ctz, exec_popc]
    refine ⟨bits2_done hI f fun _ a b => a &&& b, bits2_done hI f fun _ a b => a ||| b, bits2_done hI f fun _ a b => a ^^^ b,
      bits2_done hI f fun w a b => a &&& (2 ^ w - 1 - b % 2 ^ w), execNot_done hI f, ?_, ?_, execBrev_done hI f,
      countWord_done hI f clzN, countWord_done hI f ctzN, countWord_done hI f fun w a => popcount a w⟩
    · simpa [bfeN, field] using execBfe_done hI f
    · exact execBfi_done hI f
  · rintro rfl
    exact ⟨clzN_zero w, ctzN_zero w⟩
  · obtain ⟨hclz, hle, hlt⟩ := clzN_spec h0 ha
    exact ⟨hclz, hle, hlt, ctzN_spec h0 ha⟩
  · rw [← Nat.toNat_testBit, ← Nat.toNat_testBit, testBit_brevN hj]

/-- Settles O3: each word writes its row's result. -/
theorem movesSelectionAndPredicates : Obligations.MovesSelectionAndPredicates := by
  intro f s g hI
  dsimp only
  simp only [exec_mov, exec_movk, exec_movi, exec_moviBy, exec_sel, exec_cmp, exec_lea, exec_cvti, exec_pand, exec_por, exec_pxor,
    exec_pnot]
  exact ⟨execMov_done hI f, execMovk_done hI f, execMovi_done hI f, execMoviBy_done hI f, execSel_done hI f, execCmp_done hI f,
    execLea_done hI f, execCvti_done hI f, predWord_done hI f (· && ·), predWord_done hI f (· || ·), predWord_done hI f (· != ·),
    execPnot_done hI f⟩

end Sys2Proof.Proofs
end

section
/-! DIV and REM at issue (R57, R172, R173). -/

namespace Sys2Proof.Machine

open Sys2Proof.Safety Sys2Proof.Claims

/-- The results of a division: of each active lane the part of quotient and remainder that `pick` takes. -/
def divResults (f : F0) (s : State) (g : Group) (pick : Int × Int → Int) : List (Nat × Nat) :=
  (maskLanes (g.active f.g)).map fun l =>
    (l, ofIntN (pick (divRem (tyWidth f.t) (tySigned f.t f.md) (satBit f) (intA f s g l) (intB f s g l))) 64)

/-- The operation of a division, with its number. -/
def divOp (f : F0) (s : State) (g : Group) (pick : Int × Int → Int) (num : Nat) : LongOp :=
  { LongOp.plain num (flagOf (f.x.toNat % 16)) g.pc .result with
    dst := f.d, writes := regWrites f.d (tyRegs f.t) (divResults f s g pick) }

section
variable {s : State} {g : Group} (hI : Issuing s g) (f : F0) (pick : Int × Int → Int)
include hI

theorem divWord_of_room (hroom : (s.core s.cur.1).divq.length < 5) : divWord s f pick = .next
    (s.startOp (ctx0 f s g).g (flagOf (f.x.toNat % 16)) (divOp f s g pick) fun num c => { c with divq := c.divq ++ [num] }) := by
  unfold divWord
  rw [withIssuer_of hI, if_neg (by omega)]
  simp only [putInt_toNat]
  rfl

theorem divWord_started (hroom : (s.core s.cur.1).divq.length < 5) (hflag : g.flagFull (flagOf (f.x.toNat % 16)) = false) :
    Started s (ctx0 f s g).g (divOp f s g pick (s.core s.cur.1).nextNum)
      (fun c => { c with divq := c.divq ++ [(s.core s.cur.1).nextNum] }) (divWord s f pick) := by
  rw [divWord_of_room hI f pick hroom]
  exact State.startOp_started s _ _ (divOp f s g pick) _ (by rwa [ctx0_flagFull]) rfl rfl

theorem divWord_waits (hfull : 5 ≤ (s.core s.cur.1).divq.length) : Waits s g (divWord s f pick) := by
  unfold divWord
  rw [withIssuer_of hI, if_pos hfull]
  exact State.hold_waits s g

end

end Sys2Proof.Machine

namespace Sys2Proof.Proofs

open Sys2Proof.Machine Sys2Proof.Claims

/-- Settles O4: the quotient and the remainder of R172, and the divide unit that takes five words. -/
theorem divisionWords : Obligations.DivisionWords := by
  refine ⟨fun w sg sat a b _ => ⟨fun hb => ⟨divRem_of_ne w sg sat a hb, sub_mul_tdiv_spec a hb⟩, ?_⟩, fun f s g hI => ⟨?_, ?_⟩⟩
  · rintro rfl
    refine ⟨rfl, ?_, ?_⟩
    · rintro rfl
      rfl
    · rintro rfl
      exact ofIntN_divRem_zero w sg a
  · intro hroom hflag
    exact ⟨divWord_started hI f Prod.fst hroom hflag, divWord_started hI f Prod.snd hroom hflag⟩
  · intro hfull
    exact ⟨divWord_waits hI f Prod.fst hfull, divWord_waits hI f Prod.snd hfull⟩

end Sys2Proof.Proofs
end

section
/-! Lane words and the execution mask (R182 to R188). -/

namespace Sys2Proof.Machine

open Sys2Proof.Safety Sys2Proof.Claims

/-- The vote over the participants' values: all nonzero, some nonzero, or all equal (R185). -/
def voteOf (fn : Nat) (vs : List Nat) : Bool :=
  match fn with
  | 0 => vs.all (· != 0)
  | 1 => vs.any (· != 0)
  | _ => vs.all fun v => some v == vs.head?

/-- The mask that EMRD reads (R188). -/
def emrdMask (fn : Nat) (g : Group) (act : LaneMask) : LaneMask :=
  match fn with
  | 0 => g.em
  | 1 => act
  | _ => g.emFire

theorem emrdMask_eq (fn : BitVec 4) (g : Group) (act : LaneMask) :
    emrdMask fn.toNat g act = if fn = 0 then g.em else if fn = 1 then act else g.emFire := by
  unfold emrdMask
  split
  · next h => rw [if_pos (BitVec.eq_of_toNat_eq h)]
  · next h =>
    obtain rfl : fn = 1 := BitVec.eq_of_toNat_eq h
    rfl
  · next h0 h1 =>
    rw [if_neg fun h => h0 (congrArg BitVec.toNat h), if_neg fun h => h1 (congrArg BitVec.toNat h)]

section
variable {s : State} {g : Group} (hI : Issuing s g) (f : F0)
include hI

/-- A lane word writes to each participant what it computes from the participants of the lane's segment, all sources read first (R182). -/
theorem segWord_done (n : Nat) (k : Ctx → LaneMask → Nat → List Nat → Nat → Nat) :
    LaneDone f s g n (fun l => k (ctx0 f s g) (g.active f.g) (segLen f g) (segment f g l) l) 0 (segWord s f n k) := by
  unfold segWord
  rw [withIssuer_of hI]
  exact ⟨_, by rw [Group.setFl_zero]; exact State.finish_done _ _, Group.setLanes_write _ _ _ _ _⟩

/-- SHFL takes the value of the source lane where it lies in the segment and takes part, and else keeps the lane's own (R184). -/
theorem execShfl_done : LaneDone f s g (tyRegs f.t) (fun l =>
    match shflSrc f.fn.toNat (segLen f g) (segLen f g * (l / segLen f g)) l (count f s g l) with
    | some j => if laneBit (g.active f.g) j then ((ctx0 f s g).rdN (tyRegs f.t) f.a j).toNat else ((ctx0 f s g).rdN (tyRegs f.t) f.a l).toNat
    | none => ((ctx0 f s g).rdN (tyRegs f.t) f.a l).toNat) 0 (execShfl f s) := by
  unfold execShfl
  exact segWord_done hI f _ _

theorem execVote_done : LaneDone f s g 1 (fun l =>
    bit01 (voteOf f.fn.toNat ((segment f g l).map fun j => ((ctx0 f s g).rdN (tyRegs f.t) f.a j).toNat))) 0 (execVote f s) := by
  unfold execVote
  exact segWord_done hI f _ _

theorem execBallot_done : LaneDone f s g 1 (fun l =>
    (maskOf fun j => (segment f g l).contains j && (ctx0 f s g).rd f.a j != 0).toNat) 0 (execBallot f s) := by
  unfold execBallot
  exact segWord_done hI f _ _

theorem execRedg_done : LaneDone f s g (tyRegs f.t) (fun l =>
    reduceLanes f ((segment f g l).map fun j => (ctx0 f s g).rdN (tyRegs f.t) f.a j)) 0 (execRedg f s) := by
  unfold execRedg
  exact segWord_done hI f _ _

/-- SCANG takes the participants up to the lane, with `.EXC` those below it (R187). -/
theorem execScang_done : LaneDone f s g (tyRegs f.t) (fun l =>
    reduceLanes f (((segment f g l).filter fun j => j < l || (j == l && !f.fn.getLsbD 3)).map fun j =>
      (ctx0 f s g).rdN (tyRegs f.t) f.a j)) 0 (execScang f s) := by
  unfold execScang
  exact segWord_done hI f _ _

/-! ## MATCH (R186) -/

/-- MATCH writes every lane of em: a participant what its segment's keys give, and any other lane zero. -/
theorem matchWord_done (k : (Nat → Nat) → List Nat → Nat → Nat) : ∃ h, Done s h (matchWord s f k) ∧
    LaneWrite (ctx0 f s g).g h f.d 1 g.em fun l =>
      if laneBit (g.active f.g) l then k (matchKey (ctx0 f s g) f) (segment f g l) l else 0 := by
  unfold matchWord
  rw [withIssuer_of hI]
  exact ⟨_, State.finish_done _ _, Group.setLanes_write _ _ _ _ _⟩

/-! ## The execution mask (R188) -/

theorem execEmrd_done : ∃ h, Done s h (execEmrd f s) ∧
    LaneWrite g h f.d 1 (g.active f.g) fun _ =>
      (if f.fn = 0 then g.em else if f.fn = 1 then g.active f.g else g.emFire).toNat := by
  rw [← emrdMask_eq]
  unfold execEmrd
  rw [withIssuer_of hI]
  exact ⟨_, State.finish_done _ _, Group.setLanes_write _ _ _ _ _⟩

theorem emwrWord_of_leader (base : Group → LaneMask) {l : Nat} (hlead : leader? (g.active f.g) = some l) :
    Done s { (ctx0 f s g).g with em := base g &&& regA f s g l } (emwrWord s f base) := by
  have hword : emwrWord s f base = .next (s.finish { (ctx0 f s g).g with em := base g &&& regA f s g l }) := by
    unfold emwrWord
    rw [withIssuer_of hI]
    simp only [f0Ctx, hlead]
    rfl
  rw [hword]
  exact State.finish_done _ _

theorem emwrWord_idle (base : Group → LaneMask) (hidle : g.active f.g = 0) : Done s g (emwrWord s f base) := by
  have hword : emwrWord s f base = .next (s.finish g) := by
    unfold emwrWord
    rw [withIssuer_of hI]
    simp only [f0Ctx, hidle, leader?_zero]
  rw [hword]
  exact State.finish_done _ _

end

end Sys2Proof.Machine

namespace Sys2Proof.Proofs

open Sys2Proof.Machine Sys2Proof.Claims

/-- Settles O5: each word by what it computes from its segment's participants, and VOTE by its three variants. -/
theorem laneWordsReadTheirSegment : Obligations.LaneWordsReadTheirSegment := by
  intro f s g hI
  have hvote := execVote_done hI f
  dsimp only
  simp only [exec_shfl, exec_vote, exec_ballot, exec_redg, exec_scang]
  refine ⟨execShfl_done hI f, fun hall => ?_, fun hany => ?_, fun huni => ?_, execBallot_done hI f, execRedg_done hI f,
    execScang_done hI f⟩
  · simpa [hall, voteOf, bit01] using hvote
  · simpa [hany, voteOf, bit01] using hvote
  · simpa [huni, voteOf, bit01] using hvote

/-- Settles O6: MATCH in its two forms, the three masks that EMRD reads, and EMWR with and without an active lane. -/
theorem matchAndExecutionMaskWords : Obligations.MatchAndExecutionMaskWords := by
  refine ⟨fun f s g hI => ?_, fun f s g hI => ?_⟩ <;> dsimp only
  · simp only [exec_matchAny, exec_matchAll]
    exact ⟨matchWord_done hI f fun key ls l => (maskOf fun j => ls.contains j && key j == key l).toNat,
      matchWord_done hI f fun key ls l => if ls.all (fun j => key j == key l) then (maskOf fun j => ls.contains j).toNat else 0⟩
  · simp only [exec_emrd, exec_emwrAnd, exec_emwrSet]
    exact ⟨execEmrd_done hI f, fun l hlead => ⟨emwrWord_of_leader hI f Group.em hlead, emwrWord_of_leader hI f Group.emFire hlead⟩,
      fun hidle => ⟨emwrWord_idle hI f Group.em hidle, emwrWord_idle hI f Group.emFire hidle⟩⟩

end Sys2Proof.Proofs
end

section
/-! The floating-point words of one lane, packed halves and special functions: what each form writes (R200 to R208, R210). -/

namespace Sys2Proof.Machine

open Sys2Proof.Safety Sys2Proof.Claims

/-- Half i of a register as a value (R208). -/
def halfVal (fm : FFmt) (n i : Nat) : FVal := fm.val (if i = 0 then n % 65536 else n / 65536)

/-- The results of the two halves as one register, with the sticky bits of both (R208). -/
def bothHalves (op : Nat → FRes) : FRes := ⟨(op 0).bits + (op 1).bits * 65536, (op 0).fl ||| (op 1).fl⟩

/-- A source of a packed word: an immediate serves both halves (R208). -/
def packedSource (f : F0) (d : DWord) : Nat :=
  match f.c with
  | .imm _ => d.toNat % 65536 * 65537
  | .op _ => d.toNat

section
variable {s : State} {g : Group} (hI : Issuing s g) (f : F0)
include hI

/-! ## Scalar words -/

theorem float2_done (op : FFmt → Rnd → Bool → FVal → FVal → FRes) :
    FloatDone f s g (fun l => op (fmtOfTy f.t) (f0Rnd f) (f0FSat f) (fA f s g l) (fB' f s g l)) (float2 s f op) := by
  unfold float2
  exact laneFloat_done hI f _

theorem execFfma_done :
    FloatDone f s g (fun l => ffma (fmtOfTy f.t) (f0Rnd f) (f0FSat f) (fA f s g l) (fB f s g l) (fC f s g l)) (execFfma f s) := by
  unfold execFfma
  exact laneFloat_done hI f _

theorem execFsqrt_done : FloatDone f s g (fun l => fsqrt (fmtOfTy f.t) (f0Rnd f) (f0FSat f) (fA f s g l)) (execFsqrt f s) := by
  unfold execFsqrt
  exact laneFloat_done hI f _

theorem execFmin_done : FloatDone f s g (fun l => fminmax (fmtOfTy f.t) false (fPat (fmtOfTy f.t) ((ctx0 f s g).rdN 1 f.a l))
    (fPat (fmtOfTy f.t) ((ctx0 f s g).src2 f 1 l))) (execFmin f s) := by
  unfold execFmin
  exact laneFloat_done hI f _

theorem execFmax_done : FloatDone f s g (fun l => fminmax (fmtOfTy f.t) true (fPat (fmtOfTy f.t) ((ctx0 f s g).rdN 1 f.a l))
    (fPat (fmtOfTy f.t) ((ctx0 f s g).src2 f 1 l))) (execFmax f s) := by
  unfold execFmax
  exact laneFloat_done hI f _

/-- FCMP writes its condition, under `.AND` with the condition in C, and sets the flags of the comparison alone (R204). -/
theorem execFcmp_done : FloatDone f s g (fun l => ⟨bit01 ((fcmp (f.fn.toNat % 8) (fA f s g l) (fB' f s g l)).1 &&
    (f.fn.toNat < 8 || (ctx0 f s g).cond3 f.c l)), (fcmp (f.fn.toNat % 8) (fA f s g l) (fB' f s g l)).2⟩) (execFcmp f s) := by
  unfold execFcmp
  exact laneFloat_done hI f _

theorem execFrnd_done :
    FloatDone f s g (fun l => frnd (fmtOfTy f.t) (f0Rnd f) (fPat (fmtOfTy f.t) ((ctx0 f s g).rdN 1 f.a l))) (execFrnd f s) := by
  unfold execFrnd
  exact laneFloat_done hI f _

/-- A word on the pattern of A raises no flag (R203, R205). -/
theorem patternWord_done (op : Nat → Nat) :
    LaneDone f s g 1 (fun l => op (fPat (fmtOfTy f.t) ((ctx0 f s g).rdN 1 f.a l)) % 2 ^ 64) 0
      (laneWord s f 1 fun x l => w64 (op (fPat (fmtOfTy f.t) (x.rdN 1 f.a l)))) :=
  laneWord_writes hI f fun _ => w64_toNat _

/-! ## Packed halves (R208) -/

theorem packed_two_done (op : FVal → FVal → FVal → FRes) : FloatDone f s g (fun l => bothHalves fun i =>
    op (halfVal (fmtOfTy f.t) ((ctx0 f s g).rd f.a l).toNat i)
      (halfVal (fmtOfTy f.t) (packedSource f ((ctx0 f s g).src2 f 1 l)) i) (halfVal (fmtOfTy f.t) 0 i)) (packed s f false op) := by
  unfold packed
  exact laneFloat_done hI f _

theorem packed_three_done (op : FVal → FVal → FVal → FRes) : FloatDone f s g (fun l => bothHalves fun i =>
    op (halfVal (fmtOfTy f.t) ((ctx0 f s g).rd f.a l).toNat i) (halfVal (fmtOfTy f.t) ((ctx0 f s g).rd f.b l).toNat i)
      (halfVal (fmtOfTy f.t) (packedSource f ((ctx0 f s g).src3 f 1 l)) i)) (packed s f true op) := by
  unfold packed
  exact laneFloat_done hI f _

/-! ## Special functions (R210) -/

theorem sfuWord_done (op : SfuOp) : FloatDone f s g (fun l => sfuOf op f.t ((ctx0 f s g).rdN 1 f.a l)) (sfuWord s f op) := by
  unfold sfuWord
  exact laneFloat_done hI f _

end

end Sys2Proof.Machine

namespace Sys2Proof.Proofs

open Sys2Proof.Machine Sys2Proof.Claims

/-- Settles O7: each word is its row's operation on the values, or on the patterns, of its sources. -/
theorem floatWordsWriteRoundedResults : Obligations.FloatWordsWriteRoundedResults := by
  intro f s g hI
  dsimp only
  simp only [exec_fadd, exec_fsub, exec_fmul, exec_fdiv, exec_ffma, exec_fsqrt, exec_fmin, exec_fmax, exec_fcmp, exec_frnd, exec_fabs,
    exec_fneg, exec_fclass]
  exact ⟨float2_done hI f fadd, float2_done hI f fsub, float2_done hI f fmul, float2_done hI f fdiv, execFfma_done hI f,
    execFsqrt_done hI f, execFmin_done hI f, execFmax_done hI f, execFcmp_done hI f, execFrnd_done hI f,
    patternWord_done hI f (· % (fmtOfTy f.t).signBit), patternWord_done hI f (· ^^^ (fmtOfTy f.t).signBit),
    patternWord_done hI f (fclass (fmtOfTy f.t))⟩

/-- Settles O8: the packed words by halves, and the eight special functions as one word. -/
theorem packedAndSpecialFunctionWords : Obligations.PackedAndSpecialFunctionWords := by
  intro f s g hI
  dsimp only
  simp only [exec_hadd2, exec_hmul2, exec_hfma2, exec_rcp, exec_rsq, exec_exp2, exec_log2, exec_sin, exec_cos, exec_tanh, exec_sigm]
  exact ⟨packed_two_done hI f fun a b _ => fadd (fmtOfTy f.t) (f0Rnd f) (f0FSat f) a b,
    packed_two_done hI f fun a b _ => fmul (fmtOfTy f.t) (f0Rnd f) (f0FSat f) a b,
    packed_three_done hI f (ffma (fmtOfTy f.t) (f0Rnd f) (f0FSat f)), sfuWord_done hI f .rcp, sfuWord_done hI f .rsq,
    sfuWord_done hI f .exp2, sfuWord_done hI f .log2, sfuWord_done hI f .sin, sfuWord_done hI f .cos, sfuWord_done hI f .tanh,
    sfuWord_done hI f .sigm⟩

end Sys2Proof.Proofs
end

section
/-! Conversions and the lanes' generators (R198, R207, R237). -/

namespace Sys2Proof.Machine

open Sys2Proof.Safety Sys2Proof.Claims

/-! ## The advance of the generators -/

theorem Group.srStep_sr (g : Group) (k l : Nat) :
    (g.srStep k).2.sr.atD l 0 = if l = k then srAdvance (g.sr.atD k 0) else g.sr.atD l 0 := NMap.atD_put _ _ _ _ _

/-- Lanes that advance once each leave every other lane's generator alone. -/
theorem Group.foldl_srStep_sr {ls : List Nat} (hnodup : ls.Nodup) (g : Group) (l : Nat) :
    (ls.foldl (fun g k => (g.srStep k).2) g).sr.atD l 0 = if l ∈ ls then srAdvance (g.sr.atD l 0) else g.sr.atD l 0 := by
  induction ls generalizing g with
  | nil => rfl
  | cons k ls ih =>
    obtain ⟨hk, hnodup⟩ := List.nodup_cons.mp hnodup
    rw [List.foldl_cons, ih hnodup, Group.srStep_sr]
    by_cases hlk : l = k
    · subst hlk
      simp [hk]
    · simp [hlk]

/-- The advances of generators change nothing else of the group. -/
theorem Group.foldl_srStep_rest (ls : List Nat) (g : Group) :
    ∃ q, ls.foldl (fun g k => (g.srStep k).2) g = { g with sr := q } :=
  List.foldlRecOn (motive := fun h : Group => ∃ q, h = { g with sr := q }) _ _ ⟨g.sr, rfl⟩ fun _ ⟨_, hh⟩ _ _ => hh ▸ ⟨_, rfl⟩

/-- The group at the writes of a converting word: under `.SR` every active lane's generator has advanced (R198). -/
def Group.converting (g : Group) (sr : Bool) (act : LaneMask) : Group :=
  if sr then (maskLanes act).foldl (fun g l => (g.srStep l).2) g else g

theorem Group.converting_sr (g : Group) (sr : Bool) (act : LaneMask) {l : Nat} (hl : l < 32) :
    (g.converting sr act).sr.atD l 0 = if sr && laneBit act l then srAdvance (g.sr.atD l 0) else g.sr.atD l 0 := by
  cases sr with
  | false => rfl
  | true => simpa [Group.converting, mem_maskLanes, hl] using Group.foldl_srStep_sr (maskLanes_nodup act) g l

theorem Group.converting_rest (g : Group) (sr : Bool) (act : LaneMask) : ∃ q, g.converting sr act = { g with sr := q } := by
  cases sr with
  | false => exact ⟨g.sr, rfl⟩
  | true => exact Group.foldl_srStep_rest _ g

@[simp] theorem ctx0_sr (f : F0) (s : State) (g : Group) : (ctx0 f s g).g.sr = g.sr := by
  obtain ⟨_, hg⟩ := ctx0_group f s g
  rw [hg]

/-! ## The two words -/

/-- The rounding of a conversion in lane l: MOD, or under `.SR` the state to which the lane's generator advances (R198). -/
def convRnd (f : F0) (g : Group) (l : Nat) : Rnd :=
  if f.md.getLsbD 2 then .sr (srAdvance (g.sr.atD l 0)).toNat else Rnd.ofMod f.md.toNat

/-- A converting word completes: its active lanes write `val` as n registers, their generators advance once under `.SR`, and the
sticky bits `fl` are set. -/
def ConvDone (f : F0) (s : State) (g : Group) (n : Nat) (val : Nat → Nat) (fl : Nat) (o : Out) : Prop :=
  ∃ q h, (∀ l, l < 32 → NMap.atD q l 0 =
      if f.md.getLsbD 2 && laneBit (g.active f.g) l then srAdvance (g.sr.atD l 0) else g.sr.atD l 0) ∧
    Done s (h.setFl fl) o ∧ LaneWrite { (ctx0 f s g).g with sr := q } h f.d n (g.active f.g) val

theorem converting_done (f : F0) (s : State) (g : Group) (n : Nat) (val : Nat → Nat) (fl : Nat) :
    ConvDone f s g n val fl (.next (s.finish ((((ctx0 f s g).g.converting (f.md.getLsbD 2) (g.active f.g)).setLanes f.d n
      ((maskLanes (g.active f.g)).map fun l => (l, val l))).setFl fl))) := by
  have hsr (l : Nat) (hl : l < 32) := (ctx0 f s g).g.converting_sr (f.md.getLsbD 2) (g.active f.g) hl
  obtain ⟨q, hq⟩ := (ctx0 f s g).g.converting_rest (f.md.getLsbD 2) (g.active f.g)
  rw [hq] at hsr ⊢
  exact ⟨q, _, by simpa using hsr, State.finish_done _ _, Group.setLanes_write _ _ _ _ _⟩

/-- FCVT converts from the type that FN names to T (R207). -/
def fcvtLane (f : F0) (s : State) (g : Group) (l : Nat) : FRes :=
  fcvtOne (tyOfFn f.fn.toNat) f.t (convRnd f g l) ((ctx0 f s g).rdN (tyRegs (tyOfFn f.fn.toNat)) f.a l)

/-- CVTN.DN narrows the F32 value of A to the format of T (R237). -/
def narrowLane (f : F0) (s : State) (g : Group) (l : Nat) : FRes :=
  toNarrow (fmtOfTy f.t) (convRnd f g l) (fF32.val ((ctx0 f s g).rd f.a l).toNat)

section
variable {s : State} {g : Group} (hI : Issuing s g) (f : F0)
include hI

theorem execFcvt_done : ConvDone f s g (tyRegs f.t) (fun l => (fcvtLane f s g l).bits)
    (orFl ((maskLanes (g.active f.g)).map fun l => (fcvtLane f s g l).fl)) (execFcvt f s) := by
  unfold execFcvt
  rw [withIssuer_of hI]
  simp only [List.map_map, Function.comp_def]
  exact converting_done f s g _ (fun l => (fcvtLane f s g l).bits) _

/-- CVTN.DN puts the code in place C of B (R237). -/
theorem execCvtnDn_done : ConvDone f s g 1
    (fun l => setField ((ctx0 f s g).rd f.b l).toNat (codeStep f.t * (ctx0 f s g).count3 f.c l) (codeStep f.t) (narrowLane f s g l).bits)
    (orFl ((maskLanes (g.active f.g)).map fun l => (narrowLane f s g l).fl)) (execCvtnDn f s) := by
  unfold execCvtnDn
  rw [withIssuer_of hI]
  simp only [List.map_map, Function.comp_def]
  exact converting_done f s g 1 (fun l => setField ((ctx0 f s g).rd f.b l).toNat (codeStep f.t * (ctx0 f s g).count3 f.c l)
    (codeStep f.t) (narrowLane f s g l).bits) _

end

end Sys2Proof.Machine

namespace Sys2Proof.Proofs

open Sys2Proof.Machine

/-- Settles O9: both words write their lanes after one advance of each active lane's generator under `.SR`. -/
theorem conversionsAdvanceGeneratorsUnderSR : Obligations.ConversionsAdvanceGeneratorsUnderSR := by
  intro f s g hI
  dsimp only
  simp only [exec_fcvt, exec_cvtnDn]
  exact ⟨execFcvt_done hI f, execCvtnDn_done hI f⟩

end Sys2Proof.Proofs
end

section
/-! The status word (R209) and the activation tables (R213 to R217). -/

namespace Sys2Proof.Machine

open Sys2Proof.Safety Sys2Proof.Claims

/-- The version of a table that is not current, into which TLOAD copies (R216). -/
def staleVer (c : Core) (t : Nat) : Nat := 1 - c.tcur.atD t 0

/-- The copy that a TLOAD from offset o of W asks for (R216). -/
def tloadFrom (f : F0) (s : State) (o num : Nat) : TloadCmd :=
  { num := num, grp := s.cur.2, table := tableOf f, ver := staleVer (s.core s.cur.1) (tableOf f), off := o }

/-- The operation of a TLOAD, which stays unready until its copy is made. -/
def tloadOp (f : F0) (g : Group) (num : Nat) : LongOp :=
  { LongOp.plain num (flagOf (f.x.toNat % 16)) g.pc (.tload (tableOf f)) with ready := false }

/-- TEVAL of lane l with the version that the group is bound to (R214, R215). -/
def tevalLane (f : F0) (s : State) (g : Group) (l : Nat) : FRes :=
  ((s.core s.cur.1).tables.atD (tableKey (tableOf f) (g.tbind.atD (tableOf f) 0)) TableVer.zero).eval ((ctx0 f s g).rd f.a l).toNat

/-- The operation of a TEVAL, with the results and the sticky bits of its active lanes. -/
def tevalOp (f : F0) (s : State) (g : Group) (num : Nat) : LongOp :=
  let rs := (maskLanes (g.active f.g)).map fun l => (l, tevalLane f s g l)
  { LongOp.plain num (flagOf (f.x.toNat % 16)) g.pc .result with
    dst := f.d, writes := regWrites f.d 1 (rs.map fun r => (r.1, r.2.bits)), fl := w32 (orFl (rs.map fun r => r.2.fl)) }

section
variable {s : State} {g : Group} (hI : Issuing s g) (f : F0)
include hI

/-! ## SFLG (R209) -/

/-- SFLG reads the status word; `.RDC` clears it where a lane is active. -/
theorem sflgRead_done (clear : Bool) : ∃ h, Done s (if clear && g.active f.g != 0 then { h with fpsr := 0 } else h)
    (sflgRead s f clear) ∧ LaneWrite g h f.d 1 (g.active f.g) fun _ => g.fpsr.toNat := by
  unfold sflgRead
  rw [withIssuer_of hI]
  exact ⟨_, State.finish_done _ _, Group.setLanes_write _ _ _ _ _⟩

theorem sflgWrite_of_leader (k : Word → Word → Word) {l : Nat} (hlead : leader? (g.active f.g) = some l) :
    Done s { (ctx0 f s g).g with fpsr := k g.fpsr (w32 ((ctx0 f s g).count2 f.a f.c l % 64)) } (sflgWrite s f k) := by
  unfold sflgWrite
  rw [withIssuer_of hI]
  simp only [f0Ctx, hlead]
  exact State.finish_done _ _

theorem sflgWrite_idle (k : Word → Word → Word) (hidle : g.active f.g = 0) : Done s g (sflgWrite s f k) := by
  unfold sflgWrite
  rw [withIssuer_of hI]
  simp only [f0Ctx, hidle, leader?_zero]
  exact State.finish_done _ _

/-! ## TEVAL (R214, R215) -/

theorem execTeval_started (hflag : g.flagFull (flagOf (f.x.toNat % 16)) = false) :
    Started s (ctx0 f s g).g (tevalOp f s g (s.core s.cur.1).nextNum) (fun c => c) (execTeval f s) := by
  unfold execTeval
  rw [withIssuer_of hI]
  exact State.startOp_started s _ _ (tevalOp f s g) _ ((ctx0_flagFull f s g _).trans hflag) rfl rfl

/-! ## TLOAD (R216) -/

/-- TLOAD by its leader: the checks of the image's place, the replay of a group bound to the version, and the start of the copy. -/
theorem execTload_of_leader {l o : Nat} (hlead : leader? (g.active f.g) = some l) (ho : ((ctx0 f s g).rd f.a l).toNat = o) :
    execTload f s = .next (
      if (s.core s.cur.1).partSize .w < o + 4128 then
        s.faultWord g { cls := .localAccess, cause := 1, lanes := laneMask1 l, addr := o }
      else if o % 16 ≠ 0 then s.faultWord g { cls := .localAccess, cause := 2, lanes := laneMask1 l, addr := o }
      else if g.tbind.atD (tableOf f) 0 = staleVer (s.core s.cur.1) (tableOf f) then s.abortReplay s.cur.1 s.cur.2
      else s.startOp (ctx0 f s g).g (flagOf (f.x.toNat % 16)) (tloadOp f g)
        fun num c => { c with tloads := c.tloads ++ [tloadFrom f s o num] }) := by
  subst ho
  unfold execTload
  rw [withIssuer_of hI]
  simp only [f0Ctx, hlead]
  rfl

section
variable {l o : Nat} (hlead : leader? (g.active f.g) = some l) (ho : ((ctx0 f s g).rd f.a l).toNat = o)
include hlead ho

theorem execTload_started (hin : o + 4128 ≤ (s.core s.cur.1).partSize .w) (halign : o % 16 = 0)
    (hbind : g.tbind.atD (tableOf f) 0 ≠ staleVer (s.core s.cur.1) (tableOf f))
    (hflag : g.flagFull (flagOf (f.x.toNat % 16)) = false) :
    Started s (ctx0 f s g).g (tloadOp f g (s.core s.cur.1).nextNum)
      (fun c => { c with tloads := c.tloads ++ [tloadFrom f s o (s.core s.cur.1).nextNum] }) (execTload f s) := by
  rw [execTload_of_leader hI f hlead ho, if_neg (by omega), if_neg (by omega), if_neg hbind]
  exact State.startOp_started s _ _ (tloadOp f g) _ ((ctx0_flagFull f s g _).trans hflag) rfl rfl

theorem execTload_of_outside (hout : (s.core s.cur.1).partSize .w < o + 4128) :
    Faults s g { cls := .localAccess, cause := 1, lanes := laneMask1 l, addr := o } (execTload f s) := by
  rw [execTload_of_leader hI f hlead ho, if_pos hout]
  exact State.faultWord_faults _ _ _

theorem execTload_of_misaligned (hin : o + 4128 ≤ (s.core s.cur.1).partSize .w) (halign : o % 16 ≠ 0) :
    Faults s g { cls := .localAccess, cause := 2, lanes := laneMask1 l, addr := o } (execTload f s) := by
  rw [execTload_of_leader hI f hlead ho, if_neg (by omega), if_pos halign]
  exact State.faultWord_faults _ _ _

end

/-- TLOAD with no active lane completes with nothing to copy. -/
theorem execTload_idle (hidle : g.active f.g = 0) (hflag : g.flagFull (flagOf (f.x.toNat % 16)) = false) :
    Started s (ctx0 f s g).g (LongOp.plain (s.core s.cur.1).nextNum (flagOf (f.x.toNat % 16)) g.pc .result) (fun c => c)
      (execTload f s) := by
  have hlead : leader? (g.active f.g) = none := hidle ▸ leader?_zero
  unfold execTload
  rw [withIssuer_of hI]
  simp only [f0Ctx, hlead]
  exact State.startOp_started s _ _ (fun num => LongOp.plain num _ _ _) _ ((ctx0_flagFull f s g _).trans hflag) rfl rfl

/-! ## TSWAP (R217) -/

theorem execTswap_done :
    Done s (if g.active f.g = 0 then g else { g with deferred := g.deferred ++ [.tswap (tableOf f)] }) (execTswap f s) := by
  unfold execTswap
  rw [withIssuer_of hI]
  exact State.finish_done _ _

end

end Sys2Proof.Machine

namespace Sys2Proof.Proofs

open Sys2Proof.Machine

/-- Settles O10: SFLG by its four forms, TEVAL, TLOAD by its checks and without an active lane, and TSWAP. -/
theorem statusAndActivationTableWords : Obligations.StatusAndActivationTableWords := by
  refine ⟨fun f s g hI => ?_, fun f s g hI => ?_⟩ <;> dsimp only
  · simp only [exec_sflgRd, exec_sflgRdc, exec_sflgSet, exec_sflgClr]
    refine ⟨sflgRead_done hI f false, ?_, fun l hlead => ⟨sflgWrite_of_leader hI f (· ||| ·) hlead,
      sflgWrite_of_leader hI f (fun st v => st &&& ~~~v) hlead⟩, fun hidle =>
      ⟨sflgWrite_idle hI f _ hidle, sflgWrite_idle hI f _ hidle⟩⟩
    simpa [execSflgRdc] using sflgRead_done hI f true
  · simp only [exec_teval, exec_tload, exec_tswap]
    have hswap := execTswap_done hI f
    refine ⟨execTeval_started hI f, fun l hlead => ⟨execTload_started hI f hlead rfl, execTload_of_outside hI f hlead rfl,
      execTload_of_misaligned hI f hlead rfl⟩, execTload_idle hI f, fun hact => ?_, fun hidle => ?_⟩
    · rwa [if_neg hact] at hswap
    · rwa [if_pos hidle] at hswap

end Sys2Proof.Proofs
end

section
/-! The order of the kept codes (R238). -/

namespace Sys2Proof

/-! ## The model's sort is stable -/

section
variable {α : Type} {le : α → α → Bool} (htotal : ∀ a b, le a b = true ∨ le b a = true)
  (htrans : ∀ a b c, le a b = true → le b c = true → le a c = true) {S : α → α → Prop}
include htotal htrans

/-- An element that stood before the elements of a sorted list stands in it before those that it does not follow strictly. -/
theorem pairwise_insertBy {a : α} {bs : List α} (ha : ∀ b ∈ bs, S a b)
    (hbs : bs.Pairwise fun a b => le a b = true ∧ (le b a = true → S a b)) :
    (insertBy le a bs).Pairwise fun a b => le a b = true ∧ (le b a = true → S a b) := by
  induction bs with
  | nil => exact List.pairwise_singleton _ a
  | cons b bs ih =>
    obtain ⟨hb, htail⟩ := List.pairwise_cons.mp hbs
    rw [insertBy]
    split
    · next hab =>
      have hfirst : ∀ c ∈ b :: bs, le a c = true := by
        rintro c (_ | ⟨_, hc⟩)
        · exact hab
        · exact htrans a b c hab (hb c hc).1
      exact List.pairwise_cons.mpr ⟨fun c hc => ⟨hfirst c hc, fun _ => ha c hc⟩, hbs⟩
    · next hab =>
      refine List.pairwise_cons.mpr ⟨fun c hc => ?_, ih (fun c hc => ha c (List.mem_cons_of_mem b hc)) htail⟩
      rw [insertBy_eq_orderedInsert, List.mem_orderedInsert] at hc
      obtain rfl | hc := hc
      · exact ⟨(htotal c b).resolve_left hab, fun hcb => absurd hcb hab⟩
      · exact hb c hc

/-- Sorted by a total order, and equal elements keep the relation in which they stood. -/
theorem pairwise_sortBy {l : List α} (hl : l.Pairwise S) :
    (sortBy le l).Pairwise fun a b => le a b = true ∧ (le b a = true → S a b) := by
  induction l with
  | nil => exact List.Pairwise.nil
  | cons a l ih =>
    obtain ⟨ha, hl⟩ := List.pairwise_cons.mp hl
    exact pairwise_insertBy htotal htrans (fun b hb => ha b (mem_sortBy.mp hb)) (ih hl)

end

theorem sortBy_perm {α : Type} (le : α → α → Bool) (l : List α) : (sortBy le l).Perm l := by
  rw [sortBy_eq_insertionSort]
  exact List.perm_insertionSort _ l

end Sys2Proof

namespace Sys2Proof.Machine

/-! ## The kept indices -/

/-- The magnitude of code i. -/
def magnOf (magn : List Nat) (i : Nat) : Nat := (magn[i]?).getD 0

/-- The 64 indices by falling magnitude, of which the first are kept. -/
def magnOrder (magn : List Nat) : List Nat := sortBy (fun a b => magnOf magn b ≤ magnOf magn a) (List.range 64)

theorem keptOf_eq (magn : List Nat) (n : Nat) : keptOf magn n = sortBy (· ≤ ·) ((magnOrder magn).take n) := rfl

theorem mem_keptOf {magn : List Nat} {n i : Nat} : i ∈ keptOf magn n ↔ i ∈ (magnOrder magn).take n := mem_sortBy

theorem mem_magnOrder {magn : List Nat} {i : Nat} : i ∈ magnOrder magn ↔ i < 64 := mem_sortBy.trans List.mem_range

theorem magnOrder_nodup (magn : List Nat) : (magnOrder magn).Nodup := (sortBy_perm _ _).nodup_iff.mpr List.nodup_range

theorem pairwise_magnOrder (magn : List Nat) : (magnOrder magn).Pairwise fun i j =>
    magnOf magn j < magnOf magn i ∨ (magnOf magn j = magnOf magn i ∧ i < j) := by
  have hstable := pairwise_sortBy (le := fun a b => decide (magnOf magn b ≤ magnOf magn a)) (fun a b => by simpa using Nat.le_total _ _)
    (fun a b c => by simpa using fun hba hcb => Nat.le_trans hcb hba) (List.pairwise_lt_range (n := 64))
  refine hstable.imp fun {i j} hij => ?_
  simp only [decide_eq_true_eq] at hij
  obtain ⟨hle, hequal⟩ := hij
  exact hle.lt_or_eq.imp id fun heq => ⟨heq, hequal heq.ge⟩

theorem keptOf_length (magn : List Nat) {n : Nat} (hn : n ≤ 64) : (keptOf magn n).length = n := by
  rw [keptOf_eq, sortBy_length, List.length_take, magnOrder, sortBy_length, List.length_range, Nat.min_eq_left hn]

theorem lt_of_mem_keptOf {magn : List Nat} {n i : Nat} (hi : i ∈ keptOf magn n) : i < 64 :=
  mem_magnOrder.mp (List.mem_of_mem_take (mem_keptOf.mp hi))

theorem keptOf_ascending (magn : List Nat) (n : Nat) : (keptOf magn n).Pairwise (· < ·) := by
  have hdistinct : ((magnOrder magn).take n).Pairwise (· ≠ ·) := (magnOrder_nodup magn).sublist (List.take_sublist n _)
  have hsorted := pairwise_sortBy (le := fun a b => decide (a ≤ b)) (fun a b => by simpa using Nat.le_total a b)
    (fun a b c => by simpa using Nat.le_trans) hdistinct
  refine hsorted.imp fun {i j} hij => ?_
  simp only [decide_eq_true_eq] at hij
  obtain ⟨hle, hne⟩ := hij
  exact Nat.lt_of_le_of_ne hle fun heq => hne heq.ge heq

/-- A kept code is larger than one left out, or is of the same magnitude and stands before it (R238). -/
theorem keptOf_largest {magn : List Nat} {n i j : Nat} (hi : i ∈ keptOf magn n) (hj : j < 64) (hout : j ∉ keptOf magn n) :
    magnOf magn j < magnOf magn i ∨ (magnOf magn j = magnOf magn i ∧ i < j) := by
  have horder := pairwise_magnOrder magn
  have hj : j ∈ magnOrder magn := mem_magnOrder.mpr hj
  rw [← List.take_append_drop n (magnOrder magn)] at horder hj
  obtain ⟨-, -, hacross⟩ := List.pairwise_append.mp horder
  have hdrop : j ∈ (magnOrder magn).drop n := (List.mem_append.mp hj).resolve_left fun htake => hout (mem_keptOf.mpr htake)
  exact hacross i (mem_keptOf.mp hi) j hdrop

end Sys2Proof.Machine
end

section
/-! Scales, packed codes, runs of registers and sparse groups: what each narrow word writes (R233, R235 to R239). -/

namespace Sys2Proof

/-- A register takes the low 32 bits of a number. -/
theorem w32_mod (v : Nat) : w32 (v % 2 ^ 32) = w32 v := BitVec.eq_of_toNat_eq (by simp [w32])

theorem w32_field (v lo : Nat) : w32 (field v lo 32) = w32 (v / 2 ^ lo) := w32_mod _

end Sys2Proof

namespace Sys2Proof.Machine

open Sys2Proof.Safety Sys2Proof.Claims

/-! ## The sticky bits of several equal results (R196) -/

theorem foldl_or_const {α : Type} (a c : Nat) (ls : List α) : (ls.map fun _ => c).foldl (· ||| ·) (a ||| c) = a ||| c := by
  induction ls with
  | nil => rfl
  | cons _ ls ih => rw [List.map_cons, List.foldl_cons, Nat.or_assoc, Nat.or_self, ih]

@[simp] theorem orFl_map_zero {α : Type} (ls : List α) : orFl (ls.map fun _ => 0) = 0 := foldl_or_const 0 0 ls

theorem orFl_map_const {α : Type} {ls : List α} (hne : ls ≠ []) (c : Nat) : orFl (ls.map fun _ => c) = c := by
  cases ls with
  | nil => exact absurd rfl hne
  | cons _ ls => exact (foldl_or_const 0 c ls).trans (Nat.zero_or c)

/-! ## Sizes of runs (R221, R238) -/

theorem codesPerReg_cases (t : Ty) : codesPerReg t = 4 ∨ codesPerReg t = 8 := by cases t <;> decide

theorem sparseN_le (fn : Nat) : sparseN fn ≤ 32 := by unfold sparseN; split <;> decide

/-- The value registers of a sparse group end before its mask. -/
theorem valueRegs_sparseN_le (t : Ty) (fn : Nat) : valueRegs t (sparseN fn) ≤ 8 := by
  have hkept := sparseN_le fn
  unfold valueRegs
  rcases codesPerReg_cases t with h | h <;> rw [h] <;> omega

/-- The registers that SPCMP writes: the value registers and the mask pair. -/
theorem sparseRun_nodup (t : Ty) (fn : Nat) : (List.range (valueRegs t (sparseN fn)) ++ [8, 9]).Nodup := by
  have hvalues := valueRegs_sparseN_le t fn
  refine List.Nodup.append List.nodup_range (by decide) fun j hj hmask => ?_
  have hlt := List.mem_range.mp hj
  simp only [List.mem_cons, List.not_mem_nil, or_false] at hmask
  omega

/-! ## One element -/

/-- DQNT of one element (R235): the product rounded once, and an infinity where it overflows. -/
theorem dqntOne_eq (t : Ty) (r : Rnd) (sc code : Nat) : dqntOne t r sc code =
    match bs20 sc with
    | none => fF32.nanRes (fFMT ||| nvSig [(fmtOfTy t).val code])
    | some (m, e) =>
      if (mulScale r ((fmtOfTy t).val code) m e).fl &&& fOF = 0 then mulScale r ((fmtOfTy t).val code) m e
      else fF32.infRes false ((fmtOfTy t).val code).neg (mulScale r ((fmtOfTy t).val code) m e).fl := by
  unfold dqntOne
  cases bs20 sc with
  | none => rfl
  | some me => exact ite_not _ _ _

/-- Element i of an expanded group: the next kept code where the mask has N bits and bit i is set, and else zero (R226, R239). -/
def expandedCode (mask n : Nat) (kept : Nat → Nat) (i : Nat) : Nat :=
  if popcount mask 64 == n && mask / 2 ^ i % 2 == 1 then kept (popcount (mask % 2 ^ i) 64) else 0

theorem expandCodes_eq (mask n : Nat) (kept : Nat → Nat) :
    expandCodes mask n kept = ((List.range 64).map (expandedCode mask n kept), popcount mask 64 == n) := by
  unfold expandCodes expandedCode
  by_cases hfull : popcount mask 64 = n
  · simp only [if_pos hfull, beq_iff_eq.mpr hfull, Bool.true_and, beq_iff_eq]
  · simp only [if_neg hfull, beq_eq_false_iff_ne.mpr hfull, Bool.false_and, Bool.false_eq_true, if_false]

section
variable {s : State} {g : Group} (hI : Issuing s g) (f : F0)
include hI

/-! ## One result a lane (R233, R236, R237) -/

theorem execScale_done : FloatDone f s g (fun l => scaleOf f.t (fVal fF32 ((ctx0 f s g).rdN 1 f.a l))) (execScale f s) := by
  unfold execScale
  exact laneFloat_done hI f _

theorem execBspack_done : LaneDone f s g 2 (fun l => (scaleBits ((ctx0 f s g).rd f.a l) + scaleBits ((ctx0 f s g).rd f.b l) * 2 ^ 20 +
    scaleBits (w32 ((ctx0 f s g).count3 f.c l)) * 2 ^ 40) % 2 ^ 64) 0 (execBspack f s) := by
  unfold execBspack
  exact laneWord_writes hI f fun _ => w64_toNat _

theorem execBsunpack_done : LaneDone f s g 1
    (fun l => field ((ctx0 f s g).rd64 f.a l).toNat (20 * (ctx0 f s g).count3 f.c l) 20) 0 (execBsunpack f s) := by
  have hscale (v lo : Nat) : field v lo 20 < 2 ^ 64 := (Nat.mod_lt _ (Nat.two_pow_pos 20)).trans (by decide)
  unfold execBsunpack
  exact laneWord_writes hI f fun _ => w64_toNat_of_lt (hscale _ _)

theorem execCvtnUp_done : FloatDone f s g (fun l => if (ctx0 f s g).count2 f.b f.c l < codesPerReg f.t then
    fconv fF32 .ne ((fmtOfTy f.t).val (codeAt f.t ((ctx0 f s g).rd f.a l).toNat ((ctx0 f s g).count2 f.b f.c l))) else ⟨0, 0⟩)
    (execCvtnUp f s) := by
  unfold execCvtnUp
  exact laneFloat_done hI f _

/-! ## Runs of registers -/

section
variable (hd : ∀ q, f.d ≠ .p q)
include hd

/-- A word that writes the run `js` writes any `val` that its results have as registers, with the sticky bits of each lane's run. -/
theorem laneRun_writes {js : List Nat} (hjs : js.Nodup) {k : Ctx → Nat → List (Nat × FRes)} (r : Nat → Nat → FRes)
    (hk : ∀ l, k (ctx0 f s g) l = js.map fun j => (j, r l j)) {val : Nat → Nat → Nat} (hval : ∀ l j, w32 (r l j).bits = w32 (val l j))
    {fl : Nat → Nat} (hfl : ∀ l, orFl (js.map fun j => (r l j).fl) = fl l) :
    RunDone f s g js val (orFl ((maskLanes (g.active f.g)).map fl)) (laneRun s f k) := by
  obtain ⟨h, hdone, hreg, hkeep⟩ := laneRun_done hI f hd js hjs r k hk
  rw [funext hfl] at hdone
  exact ⟨h, hdone, fun b l j hb hl hact hj h128 => (hreg b l j hb hl hact hj h128).trans (hval l j), hkeep⟩

/-- A number written as n registers sets no flag. -/
theorem regsWord_done (n : Nat) (v : Ctx → Nat → Nat) :
    RunDone f s g (List.range n) (fun l j => v (ctx0 f s g) l / 2 ^ (32 * j)) 0 (laneRun s f fun x l => regsOf n (v x l)) := by
  rw [← orFl_map_zero (maskLanes (g.active f.g))]
  exact laneRun_writes hI f hd List.nodup_range (fun l j => ⟨field (v (ctx0 f s g) l) (32 * j) 32, 0⟩) (fun _ => rfl)
    (fun _ _ => w32_field _ _) fun _ => orFl_map_zero _

theorem execDqnt_done : RunDone f s g (List.range (codesPerReg f.t))
    (fun l j => (dqntOne f.t (f0Rnd f) (scaleBits ((ctx0 f s g).rd f.b l)) (codeAt f.t ((ctx0 f s g).rd f.a l).toNat j)).bits)
    (orFl ((maskLanes (g.active f.g)).map fun l => orFl ((List.range (codesPerReg f.t)).map fun j =>
      (dqntOne f.t (f0Rnd f) (scaleBits ((ctx0 f s g).rd f.b l)) (codeAt f.t ((ctx0 f s g).rd f.a l).toNat j)).fl))) (execDqnt f s) := by
  unfold execDqnt
  exact laneRun_writes hI f hd List.nodup_range _ (fun _ => rfl) (fun _ _ => rfl) fun _ => rfl

theorem execCvtnDense_done : RunDone f s g (List.range 3)
    (fun l j => packCodes 6 ((List.range 16).map fun k => field ((ctx0 f s g).runNat f.a 4 l) (8 * k) 6) / 2 ^ (32 * j)) 0
    (execCvtnDense f s) := by
  unfold execCvtnDense
  exact regsWord_done hI f hd 3 fun x l => packCodes 6 ((List.range 16).map fun k => field (x.runNat f.a 4 l) (8 * k) 6)

theorem execCvtnBytes_done : RunDone f s g (List.range 4)
    (fun l j => packCodes 8 ((List.range 16).map fun k => field ((ctx0 f s g).runNat f.a 3 l) (6 * k) 6) / 2 ^ (32 * j)) 0
    (execCvtnBytes f s) := by
  unfold execCvtnBytes
  exact regsWord_done hI f hd 4 fun x l => packCodes 8 ((List.range 16).map fun k => field (x.runNat f.a 3 l) (6 * k) 6)

end

end

/-! ## Sparse groups (R226, R238, R239) -/

/-- Code i of the 64 in the run at A. -/
def groupCode (f : F0) (s : State) (g : Group) (l i : Nat) : Nat :=
  field ((ctx0 f s g).runNat f.a (64 / codesPerReg f.t) l) (codeStep f.t * i) (fmtOfTy f.t).width

/-- The indices that SPCMP keeps: its N of largest magnitude. -/
def keptIndices (f : F0) (s : State) (g : Group) (l : Nat) : List Nat :=
  keptOf ((List.range 64).map fun i => groupCode f s g l i % 2 ^ ((fmtOfTy f.t).width - 1)) (sparseN f.fn.toNat)

/-- The mask pair of a sparse group at A. -/
def groupMask (f : F0) (s : State) (g : Group) (l : Nat) : Nat := (ctx0 f s g).runNat (opPlus f.a 8) 2 l

/-- Code k of the kept codes in the value registers at A. -/
def keptCode (f : F0) (s : State) (g : Group) (l k : Nat) : Nat :=
  field ((ctx0 f s g).runNat f.a (valueRegs f.t (sparseN f.fn.toNat)) l) (codeStep f.t * k) (fmtOfTy f.t).width

/-- Register j of the run that SPCMP writes: the kept codes from 0, the mask from 8. -/
def sparseReg (f : F0) (s : State) (g : Group) (l j : Nat) : Nat :=
  if j < 8 then packCodes (codeStep f.t) ((keptIndices f s g l).map (groupCode f s g l)) / 2 ^ (32 * j)
  else bitsOf (keptIndices f s g l) / 2 ^ (32 * (j - 8))

/-- SPCMP sorts the magnitudes of the codes that it has read. -/
theorem keptIndices_eq (f : F0) (s : State) (g : Group) (l : Nat) : keptIndices f s g l =
    keptOf (((List.range 64).map (groupCode f s g l)).map fun cd => cd % 2 ^ ((fmtOfTy f.t).width - 1)) (sparseN f.fn.toNat) := by
  rw [List.map_map]
  rfl

section
variable {s : State} {g : Group} (hI : Issuing s g) (f : F0) (hd : ∀ q, f.d ≠ .p q)
include hI hd

theorem execSpcmp_done :
    RunDone f s g (List.range (valueRegs f.t (sparseN f.fn.toNat)) ++ [8, 9]) (sparseReg f s g) 0 (execSpcmp f s) := by
  have hcodes (l : Nat) : (keptIndices f s g l).map (groupCode f s g l) =
      (keptIndices f s g l).map fun i => (((List.range 64).map (groupCode f s g l))[i]?).getD 0 :=
    List.map_congr_left fun i hi => by simp [lt_of_mem_keptOf hi]
  have hvalue {j : Nat} (hj : j ∈ List.range (valueRegs f.t (sparseN f.fn.toNat))) : j < 8 :=
    (List.mem_range.mp hj).trans_le (valueRegs_sparseN_le _ _)
  rw [← orFl_map_zero (maskLanes (g.active f.g))]
  unfold execSpcmp
  refine laneRun_writes hI f hd (sparseRun_nodup _ _) (fun l j => ⟨sparseReg f s g l j % 2 ^ 32, 0⟩) (fun l => ?_)
    (fun _ _ => w32_mod _) fun _ => orFl_map_zero _
  rw [List.map_append]
  refine congrArg₂ (· ++ ·) (List.map_congr_left fun j hj => ?_) ?_
  · rw [sparseReg, if_pos (hvalue hj), hcodes, keptIndices_eq]
    rfl
  · simp only [sparseReg, keptIndices_eq, List.map_cons, List.map_nil]
    rfl

theorem execSpexp_done : RunDone f s g (List.range (64 / codesPerReg f.t))
    (fun l j => packCodes (codeStep f.t) ((List.range 64).map
      (expandedCode (groupMask f s g l) (sparseN f.fn.toNat) (keptCode f s g l))) / 2 ^ (32 * j))
    (orFl ((maskLanes (g.active f.g)).map fun l => if popcount (groupMask f s g l) 64 == sparseN f.fn.toNat then 0 else fFMT))
    (execSpexp f s) := by
  have hrun : List.range (64 / codesPerReg f.t) ≠ [] := by rcases codesPerReg_cases f.t with h | h <;> rw [h] <;> decide
  unfold execSpexp
  refine laneRun_writes hI f hd List.nodup_range (fun l j => ⟨field (packCodes (codeStep f.t) ((List.range 64).map
      (expandedCode (groupMask f s g l) (sparseN f.fn.toNat) (keptCode f s g l)))) (32 * j) 32,
    if popcount (groupMask f s g l) 64 == sparseN f.fn.toNat then 0 else fFMT⟩) (fun l => ?_) (fun _ _ => w32_field _ _)
    fun _ => orFl_map_const hrun _
  simp only [expandCodes_eq, regsOf, List.map_map, Function.comp_def]
  rfl

end

end Sys2Proof.Machine
end

section
/-! QNT, whose elements each take a state of their lane's generator under `.SR` (R198, R234). -/

namespace Sys2Proof.Machine

open Sys2Proof.Safety Sys2Proof.Claims

/-! ## The advance of the generators -/

/-- The group once lane l has quantized k elements: under `.SR` its generator has advanced k times. -/
def Group.quantized (g : Group) (sr : Bool) (l : Nat) : Nat → Group
  | 0 => g
  | k + 1 => if sr then ((g.quantized sr l k).srStep l).2 else g.quantized sr l k

theorem Group.quantized_sr (g : Group) (sr : Bool) (l k j : Nat) :
    (g.quantized sr l k).sr.atD j 0 = if sr && j == l then srAfter (g.sr.atD l 0) k else g.sr.atD j 0 := by
  induction k with
  | zero =>
    by_cases hj : j = l
    · subst hj
      simp [quantized, srAfter]
    · simp [quantized, hj]
  | succ k ih =>
    cases sr with
    | false => exact ih
    | true =>
      rw [quantized, if_pos rfl, Group.srStep_sr]
      by_cases hj : j = l
      · subst hj
        simpa [srAfter] using congrArg srAdvance ih
      · simpa [hj] using ih

theorem Group.quantized_rest (g : Group) (sr : Bool) (l k : Nat) : ∃ q, g.quantized sr l k = { g with sr := q } := by
  induction k with
  | zero => exact ⟨g.sr, rfl⟩
  | succ k ih =>
    obtain ⟨q, hq⟩ := ih
    rw [quantized, hq]
    split
    · exact ⟨_, rfl⟩
    · exact ⟨q, rfl⟩

/-- The group once the lanes `ls` have each quantized n elements. -/
def Group.lanesQuantized (g : Group) (sr : Bool) (n : Nat) (ls : List Nat) : Group := ls.foldl (fun g l => g.quantized sr l n) g

theorem Group.lanesQuantized_sr (g : Group) (sr : Bool) (n : Nat) {ls : List Nat} (hnodup : ls.Nodup) (j : Nat) :
    (g.lanesQuantized sr n ls).sr.atD j 0 = if sr && ls.contains j then srAfter (g.sr.atD j 0) n else g.sr.atD j 0 := by
  induction ls generalizing g with
  | nil => simp [lanesQuantized]
  | cons l ls ih =>
    obtain ⟨hl, hnodup⟩ := List.nodup_cons.mp hnodup
    rw [lanesQuantized, List.foldl_cons, ← lanesQuantized, ih _ hnodup, Group.quantized_sr]
    by_cases hj : j = l
    · subst hj
      simp [hl]
    · simp [hj]

theorem Group.lanesQuantized_rest (g : Group) (sr : Bool) (n : Nat) (ls : List Nat) :
    ∃ q, g.lanesQuantized sr n ls = { g with sr := q } :=
  List.foldlRecOn (motive := fun h : Group => ∃ q, h = { g with sr := q }) _ _ ⟨g.sr, rfl⟩ fun h ⟨_, hh⟩ l _ => by
    obtain ⟨q, hq⟩ := h.quantized_rest sr l n
    exact ⟨q, by rw [hq, hh]⟩

/-! ## The elements of a lane, and the lanes -/

/-- The rounding of element k of a lane whose generator stood at q: MOD, or under `.SR` the generator's state after k + 1 advances. -/
def elementRnd (md : BitVec 3) (q : BitVec 16) (k : Nat) : Rnd :=
  if md.getLsbD 2 then .sr (srAfter q (k + 1)).toNat else Rnd.ofMod md.toNat

/-- What the elements v of one lane become under a scale. -/
def quantizedCodes (t : Ty) (md : BitVec 3) (sc : Nat) (q : BitVec 16) (v : Nat → FVal) (n : Nat) : List FRes :=
  (List.range n).map fun k => qntOne t (elementRnd md q k) sc (v k)

/-- A lane's elements in their order, each with the next state of its generator. -/
theorem qntLane_eq (t : Ty) (md : BitVec 3) (sc : Nat) (g : Group) (l : Nat) (v : Nat → FVal) (n : Nat) :
    qntLane t md sc g l ((List.range n).map v) =
      (quantizedCodes t md sc (g.sr.atD l 0) v n, g.quantized (md.getLsbD 2) l n) := by
  induction n with
  | zero => rfl
  | succ n ih =>
    have hgen := g.quantized_sr (md.getLsbD 2) l n l
    unfold qntLane at ih ⊢
    rw [List.range_succ, List.map_append, List.foldl_append, ih]
    unfold quantizedCodes
    rw [List.range_succ, List.map_append]
    cases hsr : md.getLsbD 2 with
    | false =>
      simp only [List.map_cons, List.map_nil, List.foldl_cons, List.foldl_nil, elementRnd, hsr, Bool.false_eq_true, if_false,
        Group.quantized]
    | true =>
      simp only [hsr, beq_self_eq_true, Bool.and_self, if_true] at hgen
      simp only [List.map_cons, List.map_nil, List.foldl_cons, List.foldl_nil, elementRnd, hsr, if_true, Group.quantized,
        Group.srStep, Group.srOf, hgen, srAfter]

/-- The lanes one after the other: each reads the generator that stood at the start, since no other lane advances it. -/
theorem foldl_qntLane_eq (t : Ty) (md : BitVec 3) (sc : Nat → Nat) (g : Group) (v : Nat → Nat → FVal) (n : Nat) {ls : List Nat}
    (hnodup : ls.Nodup) :
    ls.foldl (fun acc l => ((qntLane t md (sc l) acc.1 l ((List.range n).map (v l))).2,
        acc.2 ++ [(l, (qntLane t md (sc l) acc.1 l ((List.range n).map (v l))).1)])) (g, ([] : List (Nat × List FRes))) =
      (g.lanesQuantized (md.getLsbD 2) n ls, ls.map fun l => (l, quantizedCodes t md (sc l) (g.sr.atD l 0) (v l) n)) := by
  induction ls using List.reverseRecOn with
  | nil => rfl
  | append_singleton ls l ih =>
    obtain ⟨hls, -, hdisjoint⟩ := List.nodup_append.mp hnodup
    have hl : l ∉ ls := fun hmem => hdisjoint l hmem l (List.mem_singleton_self l) rfl
    have hgen : (g.lanesQuantized (md.getLsbD 2) n ls).sr.atD l 0 = g.sr.atD l 0 := by
      rw [Group.lanesQuantized_sr _ _ _ hls]
      simp [hl]
    rw [List.foldl_append, ih hls, List.foldl_cons, List.foldl_nil, qntLane_eq, hgen, List.map_append, Group.lanesQuantized,
      Group.lanesQuantized, List.foldl_append]
    rfl

/-! ## The word -/

/-- Element k of lane l of a QNT (R234). -/
def qntElement (f : F0) (s : State) (g : Group) (l k : Nat) : FRes :=
  qntOne f.t (elementRnd f.md (g.sr.atD l 0) k) (scaleBits ((ctx0 f s g).rd f.b l)) (fF32.val ((ctx0 f s g).rd (opPlus f.a k) l).toNat)

/-- The group that a QNT leaves: the codes of each lane packed into its destination, and the sticky bits of every element. -/
def Group.writeCodes (g : Group) (f : F0) (outs : List (Nat × List FRes)) : Group :=
  (g.setLanes f.d 1 (outs.map fun e => (e.1, packCodes (codeStep f.t) (e.2.map FRes.bits)))).setFl
    (orFl (outs.map fun e => orFl (e.2.map FRes.fl)))

theorem Group.writeCodes_lanes (g : Group) (f : F0) (ls : List Nat) (r : Nat → List FRes) : g.writeCodes f (ls.map fun l => (l, r l)) =
    (g.setLanes f.d 1 (ls.map fun l => (l, packCodes (codeStep f.t) ((r l).map FRes.bits)))).setFl
      (orFl (ls.map fun l => orFl ((r l).map FRes.fl))) := by
  rw [writeCodes, List.map_map, List.map_map]
  rfl

/-- The codes of lane l of a QNT (R234). -/
def qntCodes (f : F0) (s : State) (g : Group) (l : Nat) : List FRes :=
  quantizedCodes f.t f.md (scaleBits ((ctx0 f s g).rd f.b l)) (g.sr.atD l 0)
    (fun k => fF32.val ((ctx0 f s g).rd (opPlus f.a k) l).toNat) (codesPerReg f.t)

section
variable {s : State} {g : Group} (hI : Issuing s g) (f : F0)
include hI

theorem execQnt_of : execQnt f s = .next (s.finish
    (((ctx0 f s g).g.lanesQuantized (f.md.getLsbD 2) (codesPerReg f.t) (maskLanes (g.active f.g))).writeCodes f
      ((maskLanes (g.active f.g)).map fun l => (l, qntCodes f s g l)))) := by
  have hlanes := foldl_qntLane_eq f.t f.md (fun l => scaleBits ((ctx0 f s g).rd f.b l)) (ctx0 f s g).g
    (fun l k => fF32.val ((ctx0 f s g).rd (opPlus f.a k) l).toNat) (codesPerReg f.t) (maskLanes_nodup (g.active f.g))
  rw [ctx0_sr] at hlanes
  rw [execQnt, withIssuer_of hI]
  exact congrArg (fun p : Group × List (Nat × List FRes) => (.next (s.finish (p.1.writeCodes f p.2)) : Out)) hlanes

/-- QNT writes each active lane's codes, and under `.SR` advances its generator once for each. -/
theorem execQnt_done : ∃ q h, (∀ l, l < 32 → NMap.atD q l 0 =
      if f.md.getLsbD 2 && laneBit (g.active f.g) l then srAfter (g.sr.atD l 0) (codesPerReg f.t) else g.sr.atD l 0) ∧
    Done s (h.setFl (orFl ((maskLanes (g.active f.g)).map fun l => orFl ((qntCodes f s g l).map FRes.fl)))) (execQnt f s) ∧
    LaneWrite { (ctx0 f s g).g with sr := q } h f.d 1 (g.active f.g) fun l =>
      packCodes (codeStep f.t) ((qntCodes f s g l).map FRes.bits) := by
  have hsr := (ctx0 f s g).g.lanesQuantized_sr (f.md.getLsbD 2) (codesPerReg f.t) (maskLanes_nodup (g.active f.g))
  obtain ⟨q, hq⟩ := (ctx0 f s g).g.lanesQuantized_rest (f.md.getLsbD 2) (codesPerReg f.t) (maskLanes (g.active f.g))
  rw [execQnt_of hI, hq, Group.writeCodes_lanes]
  rw [hq] at hsr
  exact ⟨q, _, fun l hl => by simpa [mem_maskLanes, hl] using hsr l, State.finish_done _ _, Group.setLanes_write _ _ _ _ _⟩

end

end Sys2Proof.Machine

namespace Sys2Proof.Proofs

open Sys2Proof.Machine Sys2Proof.Claims

/-- Settles O11: the words of one result, the runs, QNT lane after lane and element after element, the sparse words, and the kept indices
by a stable sort. -/
theorem narrowQuantizeAndSparseWords : Obligations.NarrowQuantizeAndSparseWords := by
  refine ⟨fun f s g hI => ?_, fun f s g hI => ?_, fun magn n _ hn => ⟨keptOf_length magn hn, keptOf_ascending magn n,
    fun i => lt_of_mem_keptOf, fun i hi j hj hout => keptOf_largest hi hj hout⟩⟩ <;> dsimp only
  · simp only [exec_scale, exec_bspack, exec_bsunpack, exec_cvtnUp, exec_dqnt, exec_cvtnDense, exec_cvtnBytes]
    refine ⟨execScale_done hI f, execBspack_done hI f, execBsunpack_done hI f, execCvtnUp_done hI f, fun hd =>
      ⟨?_, execCvtnDense_done hI f hd, execCvtnBytes_done hI f hd⟩⟩
    have hdqnt := execDqnt_done hI f hd
    simp only [dqntOne_eq] at hdqnt
    exact hdqnt
  · simp only [exec_qnt, exec_spcmp, exec_spexp]
    refine ⟨?_, fun hd => ⟨execSpcmp_done hI f hd, execSpexp_done hI f hd⟩⟩
    have hqnt := execQnt_done hI f
    simp only [qntCodes, quantizedCodes, List.map_map, Function.comp_def] at hqnt
    exact hqnt

end Sys2Proof.Proofs
end

section
/-! Residue words (R240 to R242). -/

namespace Sys2Proof.Machine

open Sys2Proof.Safety Sys2Proof.Claims

section
variable {s : State} {g : Group} (hI : Issuing s g) (f : F0)
include hI

/-- A residue word of two sources combines them channel by channel (R241). -/
theorem rn2_done (op : Int → Int → Int) : LaneDone f s g 1 (fun l =>
    (rnZip op (rnRead ((ctx0 f s g).rd f.a l).toNat) (rnRead ((ctx0 f s g).src2 f 1 l).toNat)).word % 2 ^ 64) 0 (rn2 s f op) := by
  unfold rn2
  exact laneWord_writes hI f fun _ => w64_toNat _

theorem execRnmad_done : LaneDone f s g 1 (fun l =>
    (rnZip (· + ·) (rnZip (· * ·) (rnRead ((ctx0 f s g).rd f.a l).toNat) (rnRead ((ctx0 f s g).rd f.b l).toNat))
      (rnRead ((ctx0 f s g).src3 f 1 l).toNat)).word % 2 ^ 64) 0 (execRnmad f s) := by
  unfold execRnmad
  exact laneWord_writes hI f fun _ => w64_toNat _

theorem execRnneg_done : LaneDone f s g 1 (fun l =>
    (rnZip (fun a _ => -a) (rnRead ((ctx0 f s g).rd f.a l).toNat) ⟨0, 0, 0, false⟩).word % 2 ^ 64) 0 (execRnneg f s) := by
  unfold execRnneg
  exact laneWord_writes hI f fun _ => w64_toNat _

/-! ## Conversions in and out (R240, R242) -/

theorem execRncv_done :
    LaneDone f s g 1 (fun l => rnConvert (sextN ((ctx0 f s g).rd f.a l).toNat 32) % 2 ^ 64) 0 (execRncv f s) := by
  unfold execRncv
  exact laneWord_writes hI f fun _ => w64_toNat _

theorem execRncrt_done : FloatDone f s g (fun l => rnCrt (f.fn == 1) ((ctx0 f s g).rd f.a l).toNat) (execRncrt f s) := by
  unfold execRncrt
  exact laneFloat_done hI f _

theorem execRnscl_done : FloatDone f s g
    (fun l => rnScale (f0Rnd f) ((ctx0 f s g).rd f.a l).toNat (scaleBits ((ctx0 f s g).rd f.b l))) (execRnscl f s) := by
  unfold execRnscl
  exact laneFloat_done hI f _

end

end Sys2Proof.Machine

namespace Sys2Proof.Proofs

open Sys2Proof.Machine

/-- Settles O12: the words that combine channels are `rnZip` of their operation, which joins the taints; the conversions are of one lane. -/
theorem residueWords : Obligations.ResidueWords := by
  intro f s g hI
  dsimp only
  simp only [exec_rnadd, exec_rnsub, exec_rnmul, exec_rnmad, exec_rnneg, exec_rncv, exec_rncrt, exec_rnscl]
  exact ⟨rn2_done hI f (· + ·), rn2_done hI f (· - ·), rn2_done hI f (· * ·), execRnmad_done hI f, execRnneg_done hI f,
    execRncv_done hI f, execRncrt_done hI f, execRnscl_done hI f⟩

end Sys2Proof.Proofs
end

section
/-! The matrix and tile words at issue (R250, R251, R256 to R258, R262 to R265): the checks of R251, the entry in the queue or the arrival at
the rendezvous latch, and the words that write no tile. -/

namespace Sys2Proof.Machine

open Sys2Proof.Safety Sys2Proof.Claims

/-! ## The context of an F3 word -/

theorem f3Ctx_eq (f : F3) (s : State) (g : Group) : f3Ctx f s (s.core s.cur.1) g = (ctx3 f s g, g.active f.g) := rfl

@[simp] theorem ctx3_core (f : F3) (s : State) (g : Group) : (ctx3 f s g).c = s.core s.cur.1 := Ctx.latch_core _ _ _

theorem ctx3_group (f : F3) (s : State) (g : Group) : ∃ h, (ctx3 f s g).g = { g with gtchi := h } := Ctx.latch_group _ _ _

@[simp] theorem ctx3_flagFull (f : F3) (s : State) (g : Group) (n : Option Nat) : (ctx3 f s g).g.flagFull n = g.flagFull n := by
  obtain ⟨h, e⟩ := ctx3_group f s g
  rw [e]
  rfl

/-- A word with no active lane reads nothing. -/
theorem ctx3_group_idle {f : F3} {g : Group} (hidle : g.active f.g = 0) (s : State) : (ctx3 f s g).g = g := by
  unfold ctx3 f3Ctx Ctx.latch
  simp only [hidle, ne_eq, not_true, false_and, if_false]

/-! ## Room in the queue and in the latch (R258, R259, R266) -/

/-- An operation enters the queue alone while there is an entry and it meets none that waits in the latch. -/
theorem Core.queueOp_eq (c : Core) (m : MatOp) :
    c.queueOp m = if c.matEntries < 8 ∧ c.latchMeets m = false then some { c with matq := c.matq ++ [m] } else none := by
  simp only [Core.queueOp, Bool.and_eq_true, decide_eq_true_eq, Bool.not_eq_true']

theorem Core.gangArrive_of_count_zero (c : Core) (now : Nat) (m : MatOp) : c.gangArrive now 0 m = c.queueOp m := if_pos rfl

/-- An arrival opens an idle latch. -/
theorem Core.gangArrive_of_idle {c : Core} (h : c.gang = none) (now n : Nat) (m : MatOp) :
    c.gangArrive now (n + 1) m = some { c with gang := some { members := [m], opened := now, full := false } } := by
  rw [Core.gangArrive, if_neg (Nat.succ_ne_zero n), h]

/-! ## Issue of an operation (R250, R251) -/

/-- What the entry of an operation does to the core: it arrives at the latch, or enters the queue alone. -/
def matPlace (s : State) (x : Ctx) (gang : Bool) (m : MatOp) (c : Core) : Option Core :=
  match gang with
  | true => c.gangArrive s.arith (c.team x.g.team).gcount m
  | false => c.queueOp m

theorem matPlace_eq (s : State) (x : Ctx) (gang : Bool) (m : MatOp) (c : Core) :
    (if gang then c.gangArrive s.arith (c.team x.g.team).gcount m else c.queueOp m) = matPlace s x gang m c := by
  cases gang <;> rfl

/-- The operation that stands in its group for a matrix operation. -/
def matLongOp (x : Ctx) (flag : Option Nat) (dst : Operand) (num : Nat) : LongOp :=
  { LongOp.plain num flag x.g.pc .matrix with ready := false, dst := dst }

/-- An operation is issued by the checks of R251 and the room where it enters. -/
theorem matIssue_placed {s : State} {x : Ctx} {f : F3} (hc : x.c = s.core s.cur.1) (hflag : x.g.flagFull (flagOf f.flag.toNat) = false)
    (gathered gang : Bool) (mk : Nat → MatOp) :
    MatPlaced s x f (mk x.c.nextNum) gathered (matPlace s x gang (mk x.c.nextNum))
      (.next (matIssue s x (flagOf f.flag.toNat) gathered gang mk)) := by
  refine ⟨fun cause hcause => ?_, fun hpass hroom => ?_, fun hpass hfull => ?_⟩
  · simp only [matIssue, hcause]
    exact State.faultWord_faults _ _ _
  · have hstart : matIssue s x (flagOf f.flag.toNat) gathered gang mk =
        s.startOp (if gathered then { x.g with latch := none } else x.g) (flagOf f.flag.toNat)
          (matLongOp x (flagOf f.flag.toNat) (mk x.c.nextNum).dst) fun _ c => (matPlace s x gang (mk x.c.nextNum) c).getD c := by
      have hplaced : (matPlace s x gang (mk x.c.nextNum) x.c).isNone = false := by rw [← Option.not_isSome, hroom]; rfl
      simp only [matIssue, hpass, hflag, matPlace_eq, hplaced, Bool.or_self, Bool.false_eq_true, if_false]
      rfl
    rw [hstart, hc]
    exact State.startOp_started s _ _ (matLongOp x _ _) _ (by cases gathered <;> exact hflag) rfl rfl
  · have hplaced : (matPlace s x gang (mk x.c.nextNum) x.c).isNone = true := by rw [hfull]; rfl
    simp only [matIssue, hpass, matPlace_eq, hplaced, Bool.or_true, if_true]
    exact State.hold_waits _ _

/-! ## A matrix word at the issuing group -/

section
variable {s : State} {g : Group} (hI : Issuing s g) {f : F3} (k : Ctx → LaneMask → Nat → State)
include hI

/-- With an active lane, and the right to gang where it gangs, a matrix word acts by its leader. -/
theorem matWord_of_leader {l : Nat} (hlead : leader? (g.active f.g) = some l)
    (hgang : f.gangb = true → hdrGang ((s.core s.cur.1).slotHdr g) = true) :
    matWord s f k = .next (k (ctx3 f s g) (g.active f.g) l) := by
  rw [matWord, withIssuer_of hI, f3Ctx_eq]
  simp only [hlead, ganged]
  cases hb : f.gangb with
  | false => rfl
  | true => rw [if_pos rfl, if_pos (hgang hb)]

/-- R68, R257: a ganged word in a block without GANG traps, whatever its lanes. -/
theorem matWord_privilege (hb : f.gangb = true) (hno : hdrGang ((s.core s.cur.1).slotHdr g) = false) :
    Faults s g { cls := .privilege } (matWord s f k) := by
  rw [matWord, withIssuer_of hI]
  simp only [hb, if_true, ganged, hno, Bool.false_eq_true, if_false]
  exact State.faultWord_faults _ _ _

/-- R250: with no active lane a matrix word makes no operation of the unit. -/
theorem matWord_idle (hidle : g.active f.g = 0) (hgang : f.gangb = true → hdrGang ((s.core s.cur.1).slotHdr g) = true)
    (hflag : g.flagFull (flagOf f.flag.toNat) = false) :
    Started s g (LongOp.plain (s.core s.cur.1).nextNum (flagOf f.flag.toNat) g.pc .result) (fun c => c) (matWord s f k) := by
  have hword : matWord s f k =
      .next (s.startOp g (flagOf f.flag.toNat) (fun num => LongOp.plain num (flagOf f.flag.toNat) g.pc .result) fun _ c => c) := by
    rw [matWord, withIssuer_of hI, f3Ctx_eq]
    simp only [hidle, leader?_zero, ganged, ctx3_group_idle hidle]
    cases hb : f.gangb with
    | false => rfl
    | true => rw [if_pos rfl, if_pos (hgang hb)]
  rw [hword]
  exact State.startOp_started s _ _ (fun num => LongOp.plain num _ _ _) _ hflag rfl rfl

end

/-- A word whose leader issues an operation, where it may: the operation is placed as `matPlace` says. -/
theorem matWord_placed {s : State} {g : Group} (hI : Issuing s g) {f : F3} {l : Nat} (hlead : leader? (g.active f.g) = some l)
    (hgang : f.gangb = true → hdrGang ((s.core s.cur.1).slotHdr g) = true) (hflag : g.flagFull (flagOf f.flag.toNat) = false)
    (gathered gang : Bool) (mk : Ctx → LaneMask → Nat → Nat → MatOp) :
    let m := mk (ctx3 f s g) (g.active f.g) l (ctx3 f s g).c.nextNum
    MatPlaced s (ctx3 f s g) f m gathered (matPlace s (ctx3 f s g) gang m)
      (matWord s f fun x act l => matIssue s x (flagOf f.flag.toNat) gathered gang (mk x act l)) := by
  rw [matWord_of_leader hI _ hlead hgang]
  exact matIssue_placed (ctx3_core _ _ _) ((ctx3_flagFull _ _ _ _).trans hflag) gathered gang _

/-- A word whose leader issues an operation without ganging enters it in the queue. -/
theorem matWord_enters {s : State} {g : Group} (hI : Issuing s g) {f : F3} {l : Nat} (hlead : leader? (g.active f.g) = some l)
    (hb : f.gangb = false) (hflag : g.flagFull (flagOf f.flag.toNat) = false) (gathered : Bool) (mk : Ctx → LaneMask → Nat → Nat → MatOp) :
    MatEnters s (ctx3 f s g) f (mk (ctx3 f s g) (g.active f.g) l (ctx3 f s g).c.nextNum) gathered
      (matWord s f fun x act l => matIssue s x (flagOf f.flag.toNat) gathered false (mk x act l)) := by
  rw [MatEnters]
  simp only [← Core.queueOp_eq]
  exact matWord_placed hI hlead (fun h => absurd h (hb ▸ Bool.false_ne_true)) hflag gathered false mk

/-! ## Multiplications (R250, R252, R257) -/

/-- The operation that a multiplication makes from its number. -/
def productOp (s : State) (f : F3) (op : Nat) (kind : MatKind) (gathered : Bool) (x : Ctx) (_ : LaneMask) (l num : Nat) : MatOp :=
  { product s x f l op kind gathered with num := num }

theorem multiply_eq (s : State) (f : F3) (op : Nat) (kind : MatKind) (gathered : Bool) : multiply s f op kind gathered =
    matWord s f fun x act l => matIssue s x (flagOf f.flag.toNat) gathered f.gangb (productOp s f op kind gathered x act l) := rfl

section
variable {s : State} {g : Group} (hI : Issuing s g) {f : F3} {l : Nat} (hlead : leader? (g.active f.g) = some l)
  (hflag : g.flagFull (flagOf f.flag.toNat) = false)
include hI hlead hflag

/-- A multiplication that does not gang enters the queue. -/
theorem multiply_enters (hb : f.gangb = false) (op : Nat) (kind : MatKind) (gathered : Bool) :
    MatEnters s (ctx3 f s g) f (product s (ctx3 f s g) f l op kind gathered) gathered (multiply s f op kind gathered) := by
  rw [multiply_eq, hb]
  exact matWord_enters hI hlead hb hflag gathered (productOp s f op kind gathered)

/-- A ganged multiplication arrives at the rendezvous latch. -/
theorem multiply_gangs (hb : f.gangb = true) (hgang : hdrGang ((s.core s.cur.1).slotHdr g) = true) (op : Nat) (kind : MatKind)
    (gathered : Bool) :
    MatGangs s (ctx3 f s g) f (product s (ctx3 f s g) f l op kind gathered) gathered (multiply s f op kind gathered) := by
  rw [multiply_eq, hb]
  exact matWord_placed hI hlead (fun _ => hgang) hflag gathered true (productOp s f op kind gathered)

end

/-! ## Tile words (R262 to R265) -/

/-- The operation of a tile word on the tile that operand o of its leader names, from its number. -/
def tileOp (s : State) (f : F3) (kind : MatKind) (o : Operand) (x : Ctx) (_ : LaneMask) (l num : Nat) : MatOp :=
  MatOp.plain num s.cur.2 kind (x.rd o l).toNat f.shape.toNat

/-- The operation of a word that captures the eight registers of each active lane (R264). -/
def fragOp (s : State) (f : F3) (kind : MatKind) (x : Ctx) (act : LaneMask) (l num : Nat) : MatOp :=
  { tileOp s f kind f.a x act l num with
    active := act, frag := (maskLanes act).flatMap fun i => (List.range 8).map fun t => (i, t, x.rd (opPlus f.d t) i) }

/-- The words that make operations of the matrix unit. -/
def matInstrs (f : F3) : List Instr :=
  [.mma f, .gmma f, .spmma f, .rnmma f, .accz f, .accld f, .accst f, .accstAdd f, .accstRnadd f, .acccvRn f, .acccvSc f]

/-- They are all of one shape. -/
theorem exec_eq_matWord (f : F3) (s : State) : ∀ i ∈ matInstrs f, ∃ k, exec i s = matWord s f k := by
  simp only [matInstrs, List.forall_mem_cons, List.not_mem_nil, false_implies, implies_true, and_true, exec_mma, exec_gmma, exec_spmma, exec_rnmma,
    exec_accz, exec_accld, exec_accst, exec_accstAdd, exec_accstRnadd, exec_acccvRn, exec_acccvSc, execMma, execGmma, execSpmma, execRnmma,
    execAccz, execAccld, execAccst, execAccstAdd, execAccstRnadd, execAcccvRn, execAcccvSc, multiply, accStore, accConvert]
  exact ⟨⟨_, rfl⟩, ⟨_, rfl⟩, ⟨_, rfl⟩, ⟨_, rfl⟩, ⟨_, rfl⟩, ⟨_, rfl⟩, ⟨_, rfl⟩, ⟨_, rfl⟩, ⟨_, rfl⟩, ⟨_, rfl⟩, ⟨_, rfl⟩⟩

/-! ## Format words, the gather latch and the gang register (R256, R257, R262) -/

section
variable {s : State} {g : Group} (hI : Issuing s g) (f : F3)
include hI

theorem execFmtb_done : ∃ h, Done s h (execFmtb f s) ∧ LaneWrite (ctx3 f s g).g h f.d 2 (g.active f.g) fun l =>
    (fmtbWord ((ctx3 f s g).rd f.a l) ((ctx3 f s g).rd f.b l)).toNat := by
  rw [execFmtb, withIssuer_of hI]
  exact ⟨_, State.finish_done _ _, Group.setLanes_write _ _ _ _ _⟩

theorem execGthr_done : Done s { (ctx3 f s g).g with latch := some ((List.range (32 * (f.fn.toNat + 1))).map fun e =>
    if laneBit (g.active f.g) (e % 32) then some ((ctx3 f s g).rd (opPlus f.a (e / 32)) (e % 32)) else none) } (execGthr f s) := by
  rw [execGthr, withIssuer_of hI]
  exact State.finish_done _ _

theorem execGang_privilege (hno : hdrGang ((s.core s.cur.1).slotHdr g) = false) : Faults s g { cls := .privilege } (execGang f s) := by
  rw [execGang, withIssuer_of hI, f3Ctx_eq]
  simp only [ganged, hno, Bool.false_eq_true, if_false]
  exact State.faultWord_faults _ _ _

section
variable {f} (hgang : hdrGang ((s.core s.cur.1).slotHdr g) = true)
include hgang

theorem execGang_idle (hidle : g.active f.g = 0) : Done s (ctx3 f s g).g (execGang f s) := by
  rw [execGang, withIssuer_of hI, f3Ctx_eq]
  simp only [ganged, hgang, if_true, hidle, leader?_zero]
  exact State.finish_done _ _

variable {l : Nat} (hlead : leader? (g.active f.g) = some l)
include hlead

theorem execGang_of_badCount (hv : ((ctx3 f s g).rd f.a l).toNat = 1 ∨ 6 < ((ctx3 f s g).rd f.a l).toNat) :
    Faults s g { cls := .matrixOperand, cause := causeGangCount } (execGang f s) := by
  rw [execGang, withIssuer_of hI, f3Ctx_eq]
  simp only [ganged, hgang, if_true, hlead, if_pos hv]
  exact State.faultWord_faults _ _ _

theorem execGang_done (hv : ¬ (((ctx3 f s g).rd f.a l).toNat = 1 ∨ 6 < ((ctx3 f s g).rd f.a l).toNat)) :
    ∃ h, Done s { h with deferred := h.deferred ++ [.gang ((ctx3 f s g).rd f.a l).toNat] } (execGang f s) ∧
      LaneWrite (ctx3 f s g).g h f.d 1 (g.active f.g) fun _ => ((s.core s.cur.1).team g.team).gangReg := by
  rw [execGang, withIssuer_of hI, f3Ctx_eq]
  simp only [ganged, hgang, if_true, hlead, if_neg hv]
  exact ⟨_, State.finish_done _ _, Group.setLanes_write _ _ _ _ _⟩

end
end

end Sys2Proof.Machine

namespace Sys2Proof.Proofs

open Sys2Proof.Machine Sys2Proof.Safety Sys2Proof.Claims

/-- Settles O13: the multiplications by whether they gang, the words of no lane as one shape of word, the latch by its count, and the tile
words by the operation that each makes. -/
theorem matrixWordsEnterTheQueue : Obligations.MatrixWordsEnterTheQueue := by
  refine ⟨fun f s g l hI hlead hflag => ⟨fun hb => ?_, fun hb hgang => ?_⟩, fun f s g hI hb hno => ?_,
    fun f s g hI hidle hgang hflag i hi => ?_, fun c now n m hidle => ⟨?_, Core.gangArrive_of_idle hidle now n m⟩,
    fun f s g l hI hlead hb hflag => ?_⟩
  · have h := multiply_enters hI hlead hflag hb
    exact ⟨h _ _ _, h _ _ _, h _ _ _, h _ _ _⟩
  · have h := multiply_gangs hI hlead hflag hb hgang
    exact ⟨h _ _ _, h _ _ _, h _ _ _, h _ _ _⟩
  · have h (i : Instr) (hi : i ∈ matInstrs f) : Faults s g { cls := .privilege } (exec i s) := by
      obtain ⟨k, hk⟩ := exec_eq_matWord f s i hi
      rw [hk]
      exact matWord_privilege hI k hb hno
    exact ⟨h _ (by simp [matInstrs]), h _ (by simp [matInstrs]), h _ (by simp [matInstrs]), h _ (by simp [matInstrs])⟩
  · obtain ⟨k, hk⟩ := exec_eq_matWord f s i hi
    rw [hk]
    exact matWord_idle hI k hidle hgang hflag
  · rw [Core.gangArrive_of_count_zero, Core.queueOp_eq]
  · have h := matWord_enters hI hlead hb hflag false
    exact ⟨h (tileOp s f .accz f.d), h fun x act l num => { tileOp s f .accld f.a x act l num with active := act, dst := f.d },
      h (fragOp s f .accst), h (fragOp s f .accstAdd), h (fragOp s f .accstRn),
      h fun x act l num => { tileOp s f .acccvRn f.d x act l num with scale := x.rd f.a l },
      h fun x act l num => { tileOp s f .acccvSc f.d x act l num with scale := x.rd f.a l }⟩

/-- Settles O14: FMTB and GTHR complete whatever their lanes; GANG by GANG of the block, its lanes and the count that it is given. -/
theorem formatLatchAndGangWords : Obligations.FormatLatchAndGangWords := by
  intro f s g hI
  dsimp only
  simp only [exec_fmtb, exec_gthr, exec_gang]
  exact ⟨execFmtb_done hI f, execGthr_done hI f, fun hgang hidle => execGang_idle hI hgang hidle,
    fun hgang l hlead => ⟨execGang_of_badCount hI hgang hlead, execGang_done hI hgang hlead⟩, execGang_privilege hI f⟩

end Sys2Proof.Proofs
end

section
/-! O58 fails at its clause on ACCLD, by what it leaves out. The clause says of any ACCLD at the head of the matrix unit's queue that it keeps
every predicate; but the destination of the model's operations is any operand, and results that come to a predicate register set it (R46).
An ACCLD that decodes names a run of eight v registers, which the clause does not ask for. -/

namespace Sys2Proof.Machine

open Sys2Proof.Claims

/-! ## Nothing to serve -/

/-- A group without operations has none to serve. -/
theorem State.serveLocal_of_no_ops {s : State} {ci gi : Nat} (h : ∀ g, (s.core ci).group? gi = some g → g.ops = []) (num : Nat) :
    s.serveLocal ci gi num = s := by
  unfold State.serveLocal
  cases hg : (s.core ci).group? gi with
  | none => rfl
  | some g => simp only [h g hg, List.find?_nil]

theorem State.serveAll_of_no_ops {s : State} {ci : Nat} (h : ∀ gi g, (s.core ci).group? gi = some g → g.ops = []) : s.serveAll ci = s :=
  List.foldl_fixed' (fun e => State.serveLocal_of_no_ops (h e.1) e.2) _

/-! ## A fragment load into a predicate register -/

/-- An ACCLD of lane 0 from the tile at offset 0, with predicate register 0 as its destination. -/
def predicateLoad : MatOp := { MatOp.plain 0 0 .accld 0 0 with active := 1, dst := .p 0 }

/-- The operation that stands for it in its group. -/
def predicateLoadOp : LongOp := { LongOp.plain 0 none 0 .matrix with ready := false, dst := .p 0 }

/-- A group that waits for it, whose predicates are all clear. -/
def predicateLoadGroup : Group := { placeGroup Core.empty with ops := [predicateLoadOp] }

/-- Its core; the last of the eight words that lane 0 loads, which is at offset 28, is nonzero. -/
def predicateLoadCore : Core := { Core.empty with groups := [(0, predicateLoadGroup)], matq := [predicateLoad], bufC := [(28, 1)] }

def predicateLoadState : State := { State.reset with cores := [(0, predicateLoadCore)] }

theorem predicateLoad_running : Running predicateLoadCore 0 0 predicateLoadGroup predicateLoadOp := by
  unfold Running
  decide

theorem predicateLoad_performable : Performable predicateLoadCore 0 predicateLoadGroup predicateLoadOp predicateLoad [] := by
  unfold Performable
  decide

/-- The predicates of group slot 0 of core 0 in an outcome. -/
def predsOf : Out → Option (NMap LaneMask)
  | .next t => ((t.core 0).group? 0).map fun h => h.preds
  | _ => none

/-- The load sets bit 0 of predicate register 0. -/
theorem predsOf_predicateLoad : predsOf (exec (.longLatencyCompletion 0 0 0) predicateLoadState) = some [(0, 1)] := rfl

end Sys2Proof.Machine

namespace Sys2Proof.Proofs

open Sys2Proof.Machine

/-- Refutes O58: in `predicateLoadState` an ACCLD whose destination is a predicate register is performed, and the predicate is set. -/
theorem not_matrixOperationsArePerformed : ¬ Obligations.MatrixOperationsArePerformed := by
  rintro ⟨h, -⟩
  obtain ⟨v, k, hexec, hgroup, hops, -, hothers, -, -, -, -, -, -, -, -, -, -, -, -, haccld, -⟩ :=
    h 0 0 0 predicateLoadState predicateLoadGroup predicateLoadOp predicateLoad [] predicateLoad_running predicateLoad_performable
  obtain ⟨-, -, hpreds, -⟩ := haccld rfl
  have hserved : v.serveAll 0 = v := State.serveAll_of_no_ops fun gi x hx => by
    by_cases hgi : gi = 0
    · obtain rfl : k = x := Option.some.inj (hgroup.symm.trans (hgi ▸ hx))
      exact hops
    · rw [hothers gi hgi] at hx
      exact absurd (show (predicateLoadCore.groups.at? gi) = some x from hx) (by simp [predicateLoadCore, NMap.at?, Ne.symm hgi])
  have hclear : predsOf (.next v) = some [] := by
    rw [predsOf, hgroup, Option.map_some, hpreds]
    rfl
  rw [← hserved, ← hexec, predsOf_predicateLoad] at hclear
  exact absurd hclear (by decide)

end Sys2Proof.Proofs
end

section
/-! SUPPORT. STG, ATOM and RED at issue (R272, R285, R289): what the lanes place in the store buffer, the return tokens that ATOM queues,
and the room that the buffer has for them (R27). -/

namespace Sys2Proof.Machine

open Sys2Proof.Safety Sys2Proof.Claims

/-! ## What the GTC latch, a release and the placing of operations leave of a group -/

@[simp] theorem ctx1_pc (f : F1) (s : State) (g : Group) : (ctx1 f s g).g.pc = g.pc := by
  obtain ⟨h, e⟩ := ctx1_group f s g; rw [e]

@[simp] theorem ctx1_sendq (f : F1) (s : State) (g : Group) : (ctx1 f s g).g.sendq = g.sendq := by
  obtain ⟨h, e⟩ := ctx1_group f s g; rw [e]

@[simp] theorem ctx1_width (f : F1) (s : State) (g : Group) : (ctx1 f s g).g.width = g.width := by
  obtain ⟨h, e⟩ := ctx1_group f s g; rw [e]; rfl

@[simp] theorem Group.foot_sendq (g : Group) (vas : List Nat) : (g.foot vas).sendq = g.sendq := rfl
@[simp] theorem Group.foot_width (g : Group) (vas : List Nat) : (g.foot vas).width = g.width := rfl

@[simp] theorem Group.release_pc (g : Group) (f : F1) : (g.release f).pc = g.pc := by
  unfold Group.release; split <;> rfl

@[simp] theorem Group.release_firedInsts (g : Group) (f : F1) : (g.release f).firedInsts = g.firedInsts := by
  unfold Group.release; split <;> rfl

@[simp] theorem Group.onLine_pc (g : Group) (ln : Nat) (uncached : Bool) (pol : Nat) (k : SbLine → SbLine) :
    (g.onLine ln uncached pol k).pc = g.pc := by
  unfold Group.onLine; dsimp only; split <;> rfl

@[simp] theorem Group.onLine_firedInsts (g : Group) (ln : Nat) (uncached : Bool) (pol : Nat) (k : SbLine → SbLine) :
    (g.onLine ln uncached pol k).firedInsts = g.firedInsts := by
  unfold Group.onLine; dsimp only; split <;> rfl

@[simp] theorem Group.storeBytes_pc (g : Group) (pol word l va : Nat) (t : Target) (bs : List Byte) :
    (g.storeBytes pol word l va t bs).pc = g.pc :=
  (g.shed _ _ _).onLine_pc _ _ _ _

@[simp] theorem Group.placeOp_pc (g : Group) (pol word l va : Nat) (t : Target) (op : AtomOp) :
    (g.placeOp pol word l va t op).pc = g.pc :=
  g.onLine_pc _ _ _ _

@[simp] theorem Group.placeOp_firedInsts (g : Group) (pol word l va : Nat) (t : Target) (op : AtomOp) :
    (g.placeOp pol word l va t op).firedInsts = g.firedInsts :=
  g.onLine_firedInsts _ _ _ _

/-- Lanes that move no pc all act at the word at which the first acts. -/
theorem foldl_at_pc {α : Type} {place : Nat → Group → α → Group} (hpc : ∀ n g a, (place n g a).pc = g.pc) (ts : List α) :
    ∀ {g : Group} {pc : Nat}, g.pc = pc → ts.foldl (fun h t => place h.pc h t) g = ts.foldl (place pc) g := by
  induction ts with
  | nil => exact fun _ => rfl
  | cons t ts ih =>
    rintro g _ rfl
    exact ih (hpc g.pc g t)

theorem f1Ctx_eq (f : F1) (s : State) (g : Group) : f1Ctx f s (s.core s.cur.1) g = (ctx1 f s g, g.active f.g) := rfl

/-! ## The groups that the words leave -/

section
variable (f : F1) (s : State) (g h : Group) (ts : List (Nat × Target))

/-- A lane of STG places its bytes for the word at `word` (R272). -/
def storeLane (word : Nat) (g' : Group) (t : Nat × Target) : Group :=
  g'.storeBytes f.l2pol.toNat word t.1 (storeAddr (ctx1 f s g) f t.1) t.2 (storeData (ctx1 f s g) f t.1)

/-- The group `h` once each lane of STG has its bytes in the store buffer. -/
def stgGroup : Group := ts.foldl (storeLane f s g g.pc) (h.release f)

/-- The operation that a lane of ATOM or RED places for the word at `word`; its old word goes where `ret` says (R289). -/
def laneOp (word : Nat) (ret : Option (Nat × Nat)) (t : Nat × Target) : AtomOp :=
  let val (o : Operand) : DWord := (ctx1 f s g).rdN (atomBytes f.fn.toNat / 4) o t.1
  let cmp : DWord := match f.c with
    | .op o => val o
    | .imm _ => 0
  { addr := targetPA t.2, fn := f.fn, b := val f.b, c := cmp, word := word, ret := ret }

/-- A lane of ATOM or RED places its operation for the word at `word`. -/
def placeLane (word : Nat) (ret : Nat → Option (Nat × Nat)) (g' : Group) (t : Nat × Target) : Group :=
  g'.placeOp f.l2pol.toNat word t.1 (bareAddr (ctx1 f s g) f t.1) t.2 (laneOp f s g word (ret t.1) t)

/-- The group `h` once each lane of ATOM or RED has its operation in the store buffer. -/
def opsGroup (ret : Nat → Option (Nat × Nat)) : Group := ts.foldl (placeLane f s g g.pc ret) (h.release f)

/-- Where a lane's old word goes: the return token of its instance, at the lane's place in it (R289). -/
def returnTo (l : Nat) : Option (Nat × Nat) := some (32 * g.sendq.length + g.instOf l, l % g.width)

/-- The group `h` once ATOM has placed its operations and queued a return token by exit `e` for each instance (R289). -/
def atomGroup (e : Nat) : Group :=
  h.firedInsts.foldl (fun g' i =>
      g'.queue (.atomRet (32 * g.sendq.length + i) (dueOf (s.core s.cur.1) h e i f.scope) (atomBytes f.fn.toNat / 4)))
    (opsGroup f s g h ts (returnTo g))

/-- Placing operations changes no execution mask: the instances that return a token are those that fired (R22). -/
theorem opsGroup_firedInsts (ret : Nat → Option (Nat × Nat)) : (opsGroup f s g h ts ret).firedInsts = h.firedInsts :=
  List.foldlRecOn (motive := fun g' : Group => g'.firedInsts = h.firedInsts) _ _ (h.release_firedInsts f)
    fun _ hg' _ _ => (Group.placeOp_firedInsts _ _ _ _ _ _ _).trans hg'

variable {h}

theorem stgGroup_at_pc (hpc : h.pc = g.pc) :
    ts.foldl (fun g' t => storeLane f s g g'.pc g' t) (h.release f) = stgGroup f s g h ts :=
  foldl_at_pc (place := storeLane f s g) (fun _ g' _ => g'.storeBytes_pc _ _ _ _ _ _) ts ((h.release_pc f).trans hpc)

theorem opsGroup_at_pc (hpc : h.pc = g.pc) (ret : Nat → Option (Nat × Nat)) :
    ts.foldl (fun g' t => placeLane f s g g'.pc ret g' t) (h.release f) = opsGroup f s g h ts ret :=
  foldl_at_pc (place := fun pc => placeLane f s g pc ret) (fun _ g' _ => g'.placeOp_pc _ _ _ _ _ _) ts ((h.release_pc f).trans hpc)

end

/-! ## Each word's meaning, once its lanes have reached their places -/

section
variable {f : F1} {s s' : State} {g : Group} {ts : List (Nat × Target)} (hI : Issuing s g)
include hI

theorem execStg_of_reaches
    (hreach : Reaches s (ctx1 f s g) (g.active f.g) true (sizeBytes f.fn.toNat) (storeAddr (ctx1 f s g) f) s' ts) :
    let h := (ctx1 f s g).g.foot ((maskLanes (g.active f.g)).map (storeAddr (ctx1 f s g) f))
    execStg f s = .next (s'.finishInRoom h (stgGroup f s g h ts)) := by
  intro h
  have hpc : h.pc = g.pc := ctx1_pc f s g
  rw [← stgGroup_at_pc f s g ts hpc, execStg, withIssuer_of hI]
  exact congrArg _ (withLanes_of_reaches hreach)

variable (hreach : Reaches s (ctx1 f s g) (g.active f.g) true (atomBytes f.fn.toNat) (bareAddr (ctx1 f s g) f) s' ts)
  (hclass : classCheck ts (bareAddr (ctx1 f s g) f) = none)
include hreach hclass

/-- With no exit to return by, ATOM and RED place their operations alone. -/
theorem atomWord_of_no_exit (hexit : exitOf f.d = none) :
    let h := (ctx1 f s g).g.foot ((maskLanes (g.active f.g)).map (bareAddr (ctx1 f s g) f))
    atomWord s f = .next (s'.finishInRoom h (opsGroup f s g h ts fun _ => none)) := by
  intro h
  have hpc : h.pc = g.pc := ctx1_pc f s g
  rw [← opsGroup_at_pc f s g ts hpc, atomWord, withIssuer_of hI, f1Ctx_eq]
  simp only [withLanes_of_reaches hreach, hclass, hexit]
  rfl

/-- With an exit, the return tokens follow the operations, one for each instance. -/
theorem atomWord_of_exit {e : Nat} (hexit : exitOf f.d = some e) :
    let h := (ctx1 f s g).g.foot ((maskLanes (g.active f.g)).map (bareAddr (ctx1 f s g) f))
    atomWord s f = .next (s'.finishInRoom h (atomGroup f s g h ts e)) := by
  intro h
  have hpc : h.pc = g.pc := ctx1_pc f s g
  have hret : returnTo g = returnTo h := by simp [funext_iff, returnTo, h, Group.instOf]
  rw [atomGroup, ← opsGroup_firedInsts f s g h ts (returnTo g), ← opsGroup_at_pc f s g ts hpc, hret, ← ctx1_sendq f s g, atomWord,
    withIssuer_of hI, f1Ctx_eq]
  simp only [withLanes_of_reaches hreach, hclass, hexit]
  rfl

end

end Sys2Proof.Machine

namespace Sys2Proof.Proofs

open Sys2Proof.Machine Sys2Proof.Safety Sys2Proof.Claims

/-- Settles O19: a word whose lanes reach their places leaves the group that holds what the lanes place, if the store buffer has room for it
(`State.finishInRoom_spec`); for ATOM and RED the field D tells whether return tokens join it. -/
theorem storesAndAtomicsWaitInTheBuffer : Obligations.StoresAndAtomicsWaitInTheBuffer := by
  intro f s g s' ts hI
  refine ⟨fun hreach => ?_, fun hreach hclass => ⟨fun hexit => ?_, fun e hexit => ?_⟩⟩
  · rw [exec_stg, execStg_of_reaches hI hreach]
    exact State.finishInRoom_spec s' _ _
  · rw [exec_red, exec_atom, execRed, execAtom, atomWord_of_no_exit hI hreach hclass hexit]
    exact ⟨State.finishInRoom_spec s' _ _, State.finishInRoom_spec s' _ _⟩
  · rw [exec_atom, execAtom, atomWord_of_exit hI hreach hclass hexit]
    exact State.finishInRoom_spec s' _ _

end Sys2Proof.Proofs
end

section
/-! SUPPORT. The sends (R365 to R370, R372): one descriptor joins the send queue for each instance with an active lane. -/

namespace Sys2Proof.Machine

open Sys2Proof.Safety Sys2Proof.Claims

/-! ## The context of an F2 word -/

theorem ctx2_group (f : F2) (s : State) (g : Group) : ∃ h, (ctx2 f s g).g = { g with gtchi := h } := Ctx.latch_group _ _ _

@[simp] theorem ctx2_leaders (f : F2) (s : State) (g : Group) (act : LaneMask) : (ctx2 f s g).g.leaders act = g.leaders act := by
  obtain ⟨h, e⟩ := ctx2_group f s g; rw [e]; rfl

@[simp] theorem ctx2_width (f : F2) (s : State) (g : Group) : (ctx2 f s g).g.width = g.width := by
  obtain ⟨h, e⟩ := ctx2_group f s g; rw [e]; rfl

/-! ## Descriptors join the send queue (R28, R368) -/

/-- What a fold of descriptors leaves of a group: they stand behind its send queue in the fold's order. -/
theorem Group.foldl_queue {α : Type} (mk : α → SendItem) (xs : List α) (g : Group) :
    xs.foldl (fun g' x => g'.queue (mk x)) g = { g with sendq := g.sendq ++ xs.map mk } := by
  induction xs generalizing g with
  | nil => simp
  | cons x xs ih => rw [List.foldl_cons, ih]; simp [Group.queue]

/-- Descriptors made for the leaders of a group are queued (R368). -/
theorem foldl_queue_leaders (f : F2) (s : State) (g : Group) (act : LaneMask) (mk : Nat × Nat → SendItem) :
    (g.leaders act).foldl (fun g' il => g'.queue (mk il)) (ctx2 f s g).g = queued (ctx2 f s g).g act fun i l => mk (i, l) := by
  rw [Group.foldl_queue, queued, ctx2_leaders]

/-- The lanes whose tokens have their home on another core (R369). -/
def farLanes (f : F2) (s : State) (g : Group) : LaneMask := g.failing (g.active f.g) fun il => !homeHere (ctx2 f s g) f il.2

/-- The lanes of the instances whose frame the block has handed on (R370). -/
def twiceLanes (f : F2) (g : Group) : LaneMask := g.failing (g.active f.g) fun il => g.handed (g.entryOf il.1)

/-! ## Each word's meaning, at the issuing group -/

section
variable {s : State} {g : Group} (hI : Issuing s g) (f : F2)
include hI

theorem sendWord_done (mk : Ctx → LaneMask → Nat × Nat → SendItem) :
    Done s (queued (ctx2 f s g).g (g.active f.g) fun i l => mk (ctx2 f s g) (g.active f.g) (i, l)) (sendWord s f mk) := by
  rw [sendWord, withIssuer_of hI, ← foldl_queue_leaders f s g _ (mk (ctx2 f s g) (g.active f.g))]
  exact State.finish_done _ _

/-- SENDV by its one check (R370). -/
theorem execSendv_of : execSendv f s = .next (
    if hdrWcls ((s.core s.cur.1).slotHdr g) = 7 ∧ (f.plen.toNat + 1) % g.width ≠ 0 ∧ g.active f.g ≠ 0 then
      s.faultWord g { cls := .token, cause := causeWidthRun, lanes := g.active f.g }
    else s.finish (queued (ctx2 f s g).g (g.active f.g) fun i l =>
      .token (f2Token (ctx2 f s g) f .normal l (gatherPay (ctx2 f s g) f (g.active f.g) i)))) := by
  rw [execSendv, withIssuer_of hI, ← foldl_queue_leaders f s g _ fun il =>
    .token (f2Token (ctx2 f s g) f .normal il.2 (gatherPay (ctx2 f s g) f (g.active f.g) il.1))]
  rfl

/-- SENDF by its two checks, of a token's home and of a frame that is handed on. -/
theorem execSendf_of : execSendf f s = .next (
    if farLanes f s g ≠ 0 then s.faultWord g { cls := .token, cause := causeFrameHome, lanes := farLanes f s g }
    else if twiceLanes f g ≠ 0 then s.faultWord g { cls := .token, cause := causeFrameTwice, lanes := twiceLanes f g }
    else s.finish (queued (ctx2 f s g).g (g.active f.g) fun i l =>
      .frameTok (f2Token (ctx2 f s g) f .normal l (leaderPay (ctx2 f s g) f l)) (g.entryOf i))) := by
  rw [execSendf, withIssuer_of hI, ← foldl_queue_leaders f s g _ fun il =>
    .frameTok (f2Token (ctx2 f s g) f .normal il.2 (leaderPay (ctx2 f s g) f il.2)) (g.entryOf il.1)]
  rfl

theorem execSendf_far (hfar : farLanes f s g ≠ 0) :
    Faults s g { cls := .token, cause := causeFrameHome, lanes := farLanes f s g } (execSendf f s) := by
  rw [execSendf_of hI, if_pos hfar]
  exact State.faultWord_faults _ _ _

section
variable (hfar : farLanes f s g = 0)
include hfar

theorem execSendf_twice (htwice : twiceLanes f g ≠ 0) :
    Faults s g { cls := .token, cause := causeFrameTwice, lanes := twiceLanes f g } (execSendf f s) := by
  rw [execSendf_of hI, if_neg (not_not.mpr hfar), if_pos htwice]
  exact State.faultWord_faults _ _ _

theorem execSendf_done (htwice : twiceLanes f g = 0) :
    Done s (queued (ctx2 f s g).g (g.active f.g) fun i l =>
      .frameTok (f2Token (ctx2 f s g) f .normal l (leaderPay (ctx2 f s g) f l)) (g.entryOf i)) (execSendf f s) := by
  rw [execSendf_of hI, if_neg (not_not.mpr hfar), if_neg (not_not.mpr htwice)]
  exact State.finish_done _ _

end

end

/-- The payload that SENDV gathers (R368), by the width of the group's colour. -/
theorem gatherPay_ctx2 (f : F2) (s : State) (g : Group) (act : LaneMask) (i : Nat) :
    gatherPay (ctx2 f s g) f act i = (List.range (f.plen.toNat + 1)).map fun j =>
      if laneBit act (g.width * i + j % g.width) then (ctx2 f s g).rd (opPlus f.pay (j / g.width)) (g.width * i + j % g.width) else 0 := by
  rw [gatherPay, ctx2_width]

end Sys2Proof.Machine

namespace Sys2Proof.Proofs

open Sys2Proof.Machine Sys2Proof.Safety Sys2Proof.Claims

/-- Settles O26: SEND and EOS queue without a check, SENDV by `execSendv_of` and SENDF by `execSendf_of`. -/
theorem sendsQueueOneTokenPerInstance : Obligations.SendsQueueOneTokenPerInstance := by
  intro f s g hI
  refine ⟨sendWord_done hI f fun x _ il => .token (f2Token x f .normal il.2 (leaderPay x f il.2)),
    sendWord_done hI f fun x _ il => .token { f2Token x f .eos il.2 [] with colour := 0, wlog := 0 }, fun hruns => ?_, fun hruns => ?_, fun hfar htwice => ?_, fun hfar => ?_,
    fun hfar htwice => ?_⟩
  · rw [exec_sendv, execSendv_of hI, if_neg hruns]
    simp only [gatherPay_ctx2]
    exact State.finish_done _ _
  · rw [exec_sendv, execSendv_of hI, if_pos hruns]
    exact State.faultWord_faults _ _ _
  · exact execSendf_done hI f hfar htwice
  · exact execSendf_far hI f hfar
  · exact execSendf_twice hI f hfar htwice

end Sys2Proof.Proofs
end

section
/-! SUPPORT. The system words: the verdicts on parked faults (R386 to R388), system registers and fault records (R400, R402), and the
requests to the steward and the Clolas engine (R401 to R403). -/

namespace Sys2Proof.Machine

open Sys2Proof.Safety Sys2Proof.Claims

/-- A word that changes its core by F and completes with `h` leaves every other core and every byte as they were. -/
theorem State.modCore_finish (s : State) (F : Core → Core) (h : Group) :
    ((s.modCore s.cur.1 F).finish h).core s.cur.1 = (F (s.core s.cur.1)).setGroup s.cur.2 h.advance ∧
    (∀ cj, cj ≠ s.cur.1 → ((s.modCore s.cur.1 F).finish h).core cj = s.core cj) ∧
    ∀ a, ((s.modCore s.cur.1 F).finish h).memByte a = s.memByte a := by
  refine ⟨?_, fun cj hj => ?_, State.memByte_of_mem _ _ (by simp [State.finish])⟩
  · simp [State.finish, State.setGroup]
  · simp [State.finish, State.setGroup, State.core_modCore_other _ _ _ _ hj]

/-! ## The context of an F6 word -/

theorem ctx6_group (f : F6) (s : State) (g : Group) : ∃ h, (ctx6 f s g).g = { g with gtchi := h } := Ctx.latch_group _ _ _

/-- A mask without lanes has no leader. -/
theorem leader?_of_idle {m : LaneMask} (h : m = 0) : leader? m = none := h ▸ leader?_zero

/-! ## Verdicts on parked faults (R386 to R388) -/

/-- A group claims the parked fault with a FID (R387). -/
def ParkEnt.claimedBy (gi fid : Nat) (p : ParkEnt) : ParkEnt := if p.fid = fid then { p with claim := some gi } else p

section
variable {s : State} {g : Group} (hI : Issuing s g) (f : F6)
include hI

section
variable (past : Bool) (d : Nat → Deferred) {l : Nat} (hlead : leader? (g.active f.g) = some l)
include hlead

theorem verdictWord_of_leader :
    let x := ctx6 f s g
    let fid := (x.rd f.a l).toNat
    let st := verdictStatus (s.core s.cur.1) s.cur.2 fid past
    let h := x.g.setLanes f.d 1 ((maskLanes (g.active f.g)).map fun l => (l, st))
    verdictWord s f past d = .next (if st = 0 then
      (s.modCore s.cur.1 fun c => { c with park := c.park.map (ParkEnt.claimedBy s.cur.2 fid) }).finish
        { h with deferred := h.deferred ++ [d fid] }
      else s.finish h) := by
  rw [verdictWord, withIssuer_of hI]
  simp only [f6Ctx, hlead]
  rfl

/-- A verdict that is refused writes its status and does nothing else. -/
theorem verdictWord_refused (hst : verdictStatus (s.core s.cur.1) s.cur.2 ((ctx6 f s g).rd f.a l).toNat past ≠ 0) :
    ∃ h, Done s h (verdictWord s f past d) ∧ LaneWrite (ctx6 f s g).g h f.d 1 (g.active f.g)
      fun _ => verdictStatus (s.core s.cur.1) s.cur.2 ((ctx6 f s g).rd f.a l).toNat past := by
  rw [verdictWord_of_leader hI f past d hlead, if_neg hst]
  exact ⟨_, State.finish_done _ _, Group.setLanes_write _ _ _ _ _⟩

/-- A verdict that is accepted writes 0, claims its park entry and joins the changes of the commit. -/
theorem verdictWord_accepted (hst : verdictStatus (s.core s.cur.1) s.cur.2 ((ctx6 f s g).rd f.a l).toNat past = 0) :
    ∃ t h, verdictWord s f past d = .next t ∧
      (t.core s.cur.1).group? s.cur.2 = some { h.advance with deferred := h.deferred ++ [d ((ctx6 f s g).rd f.a l).toNat] } ∧
      LaneWrite (ctx6 f s g).g h f.d 1 (g.active f.g) (fun _ => 0) ∧
      (t.core s.cur.1).park = (s.core s.cur.1).park.map (ParkEnt.claimedBy s.cur.2 ((ctx6 f s g).rd f.a l).toNat) ∧
      (∀ cj, cj ≠ s.cur.1 → t.core cj = s.core cj) ∧ ∀ a, t.memByte a = s.memByte a := by
  rw [verdictWord_of_leader hI f past d hlead, if_pos hst]
  obtain ⟨hcore, hothers, hmem⟩ := State.modCore_finish s _ _
  refine ⟨_, _, rfl, ?_, Group.setLanes_write _ _ _ _ _, ?_, hothers, hmem⟩
  · rw [hcore, Core.group?_setGroup_same, hst]
    rfl
  · rw [hcore, Core.setGroup_park]

end

theorem verdictWord_idle (past : Bool) (d : Nat → Deferred) (hidle : g.active f.g = 0) :
    Done s (ctx6 f s g).g (verdictWord s f past d) := by
  rw [verdictWord, withIssuer_of hI]
  simp only [f6Ctx, leader?_of_idle hidle]
  exact State.finish_done _ _

theorem execAbortRegion_done :
    Done s (if g.active f.g = 0 then g else { g with deferred := g.deferred ++ [.abortRegion] }) (execAbortRegion f s) := by
  rw [execAbortRegion, withIssuer_of hI]
  exact State.finish_done _ _

/-! ## Registers and records (R400, R402) -/

/-- SRRD reads its register unless the register needs a PRIV that the block lacks. -/
theorem execSrrd_done (hallowed : srNeedsPriv f.code.toNat = false ∨ (s.core s.cur.1).priv g = true) :
    ∃ h, Done s h (execSrrd f s) ∧
      LaneWrite g h f.d (if f.fn = 0 then 1 else 2) (g.active f.g) fun _ => (s.sysRead s.cur.1 f.code.toNat).toNat := by
  rw [execSrrd, withIssuer_of hI, if_neg (by rcases hallowed with h | h <;> simp [h])]
  exact ⟨_, State.finish_done _ _, Group.setLanes_write _ _ _ _ _⟩

/-- SRWR by its leader: the write joins the changes of the commit. -/
theorem execSrwr_of_allowed (hallowed : srNeedsPriv f.code.toNat = false ∨ (s.core s.cur.1).priv g = true) :
    execSrwr f s = .next (match leader? (g.active f.g) with
      | none => s.finish (ctx6 f s g).g
      | some l => s.finish { (ctx6 f s g).g with deferred := (ctx6 f s g).g.deferred ++
          [.sysWrite f.code (if f.fn = 0 then ((ctx6 f s g).rd f.a l).zeroExtend 64 else (ctx6 f s g).rd64 f.a l)] }) := by
  rw [execSrwr, withIssuer_of hI, if_neg (by rcases hallowed with h | h <;> simp [h])]
  rfl

theorem srWords_privilege (hdenied : ¬ (srNeedsPriv f.code.toNat = false ∨ (s.core s.cur.1).priv g = true)) :
    Faults s g { cls := .privilege } (execSrrd f s) ∧ Faults s g { cls := .privilege } (execSrwr f s) := by
  have h : (srNeedsPriv f.code.toNat && !(s.core s.cur.1).priv g) = true := by simpa using hdenied
  rw [execSrrd, execSrwr, withIssuer_of hI, withIssuer_of hI, if_pos h, if_pos h]
  exact ⟨State.faultWord_faults _ _ _, State.faultWord_faults _ _ _⟩

theorem execFltrdWord_of : execFltrdWord f s = .next (match leader? (g.active f.g) with
    | none => s.finish (ctx6 f s g).g
    | some l => s.finish ((ctx6 f s g).g.setLanes f.d 2 ((maskLanes (g.active f.g)).map fun k => (k,
        match (s.core s.cur.1).park.find? fun p => p.fid == ((ctx6 f s g).rd f.a l).toNat with
        | some p => ((p.record[f.code.toNat]?).getD 0).toNat
        | none => 0)))) := by
  rw [execFltrdWord, withIssuer_of hI]
  rfl

theorem execFltrdNext_done : ∃ h, Done s h (execFltrdNext f s) ∧ LaneWrite g h f.d 1 (g.active f.g) fun _ =>
    match (s.core s.cur.1).park.find? fun p => p.claim.isNone && (s.core s.cur.1).region == some p.region with
    | some p => p.fid
    | none => 0xFFFFFFFF := by
  rw [execFltrdNext, withIssuer_of hI]
  exact ⟨_, State.finish_done _ _, Group.setLanes_write _ _ _ _ _⟩

/-! ## Requests to the steward and the Clolas engine (R401 to R403) -/

theorem requestWord_of_priv (mk : Ctx → Nat → List TokenDue → SendItem) (hpriv : (s.core s.cur.1).priv g = true) :
    requestWord s f mk = .next (match leader? (g.active f.g) with
      | none => s.finish (ctx6 f s g).g
      | some l => s.finish ((ctx6 f s g).g.queue (mk (ctx6 f s g) l (f6Dues (s.core s.cur.1) g f)))) := by
  rw [requestWord, withIssuer_of hI, privileged, if_pos hpriv]
  rfl

theorem requestWord_idle (mk : Ctx → Nat → List TokenDue → SendItem) (hpriv : (s.core s.cur.1).priv g = true)
    (hidle : g.active f.g = 0) : Done s (ctx6 f s g).g (requestWord s f mk) := by
  rw [requestWord_of_priv hI f mk hpriv, leader?_of_idle hidle]
  exact State.finish_done _ _

theorem requestWord_queues (mk : Ctx → Nat → List TokenDue → SendItem) (hpriv : (s.core s.cur.1).priv g = true)
    {l : Nat} (hlead : leader? (g.active f.g) = some l) :
    Done s ((ctx6 f s g).g.queue (mk (ctx6 f s g) l (f6Dues (s.core s.cur.1) g f))) (requestWord s f mk) := by
  rw [requestWord_of_priv hI f mk hpriv, hlead]
  exact State.finish_done _ _

theorem requestWord_privilege (mk : Ctx → Nat → List TokenDue → SendItem) (hpriv : (s.core s.cur.1).priv g = false) :
    Faults s g { cls := .privilege } (requestWord s f mk) := by
  rw [requestWord, withIssuer_of hI, privileged, if_neg (by simp [hpriv])]
  exact State.faultWord_faults _ _ _

end

/-- The words that queue a request are all `requestWord`, each with its descriptor. -/
theorem exec_eq_requestWord {f : F6} {i : Instr} (h : i ∈ [Instr.halt f, .sigchk f, .keyset f, .preemptSave f, .preemptRestore f])
    (s : State) : ∃ mk, exec i s = requestWord s f mk := by
  simp only [List.mem_cons, List.not_mem_nil, or_false] at h
  rcases h with rfl | rfl | rfl | rfl | rfl
  exacts [⟨_, exec_halt f s⟩, ⟨_, exec_sigchk f s⟩, ⟨_, exec_keyset f s⟩, ⟨_, exec_preemptSave f s⟩, ⟨_, exec_preemptRestore f s⟩]

end Sys2Proof.Machine

namespace Sys2Proof.Proofs

open Sys2Proof.Machine Sys2Proof.Safety Sys2Proof.Claims

/-- Settles O30: a verdict is refused or accepted by its status, does nothing without an active lane, and ABORT.REGION joins the commit. -/
theorem verdictWordsClaimParkedFaults : Obligations.VerdictWordsClaimParkedFaults := by
  intro f s g hI
  have habort := execAbortRegion_done hI f
  simp only [exec_resume, exec_resumePast, exec_abort, exec_abortRegion, execResume, execResumePast, execAbort]
  refine ⟨fun l hlead => ⟨?_, ?_, ?_⟩, fun hidle => ⟨?_, ?_, ?_⟩, fun hact => ?_, fun hidle => ?_⟩
  · exact ⟨verdictWord_refused hI f _ _ hlead, verdictWord_accepted hI f false (.resume · false) hlead⟩
  · exact ⟨verdictWord_refused hI f _ _ hlead, verdictWord_accepted hI f true (.resume · true) hlead⟩
  · exact ⟨verdictWord_refused hI f _ _ hlead, verdictWord_accepted hI f false .abort hlead⟩
  · exact verdictWord_idle hI f _ _ hidle
  · exact verdictWord_idle hI f _ _ hidle
  · exact verdictWord_idle hI f _ _ hidle
  · rwa [if_neg hact] at habort
  · rwa [if_pos hidle] at habort

/-- Settles O31: the register words by what the block may name, FLTRD by the park, and the requests by `requestWord`. -/
theorem systemWords : Obligations.SystemWords := by
  refine ⟨fun f s g hI => ?_, fun f s g hI => ⟨fun hpriv hidle i hi => ?_, fun hpriv i hi => ?_, fun hpriv l hlead => ?_⟩⟩
  · simp only [exec_srrd, exec_fltrdNext]
    refine ⟨execSrrd_done hI f, fun hallowed l hlead => ?_, fun hallowed hidle => ?_, srWords_privilege hI f, fun l hlead => ?_,
      fun hidle => ?_, execFltrdNext_done hI f⟩
    · rw [exec_srwr, execSrwr_of_allowed hI f hallowed, hlead]
      exact State.finish_done _ _
    · rw [exec_srwr, execSrwr_of_allowed hI f hallowed, leader?_of_idle hidle]
      exact State.finish_done _ _
    · rw [exec_fltrdWord, execFltrdWord_of hI, hlead]
      exact ⟨_, State.finish_done _ _, Group.setLanes_write _ _ _ _ _⟩
    · rw [exec_fltrdWord, execFltrdWord_of hI, leader?_of_idle hidle]
      exact State.finish_done _ _
  · obtain ⟨mk, e⟩ := exec_eq_requestWord hi s
    exact e ▸ requestWord_idle hI f mk hpriv hidle
  · obtain ⟨mk, e⟩ := exec_eq_requestWord hi s
    exact e ▸ requestWord_privilege hI f mk hpriv
  · simp only [exec_halt, exec_sigchk, exec_keyset, exec_preemptSave, exec_preemptRestore, execHalt, execSigchk, execKeyset,
      execPreemptSave, execPreemptRestore]
    have queues (mk : Ctx → Nat → List TokenDue → SendItem) := requestWord_queues hI f mk hpriv hlead
    exact ⟨queues _, queues _, queues _, queues _, queues _⟩

end Sys2Proof.Proofs
end

section
/-! SUPPORT. Colours, pigeonholes and steward words (R373 to R378): how ids of the reserve go out to instances, and the words that
act at commit or wait for a queue. -/

namespace Sys2Proof.Machine

open Sys2Proof.Safety Sys2Proof.Claims

/-! ## Lanes written while changes are noted (R33) -/

/-- The group with other changes noted for its commit. -/
def Group.noting (ds : List Deferred) (g : Group) : Group := { g with deferred := ds }

theorem Group.setDst_noting (g : Group) (ds : List Deferred) (d : Operand) (n l v : Nat) :
    (g.noting ds).setDst d n l v = (g.setDst d n l v).noting ds := by
  cases d with
  | v b => exact List.foldl_hom (Group.noting ds) fun h j => by split <;> rfl
  | _ => rfl

theorem Group.setLanes_noting (g : Group) (ds : List Deferred) (d : Operand) (n : Nat) (vs : List (Nat × Nat)) :
    (g.noting ds).setLanes d n vs = (g.setLanes d n vs).noting ds := by
  unfold Group.setLanes
  exact List.foldl_hom (Group.noting ds) fun h e => h.setDst_noting ds d n e.1 e.2

/-- Writing lanes notes no change. -/
theorem Group.setLanes_deferred (g : Group) (d : Operand) (n : Nat) (vs : List (Nat × Nat)) : (g.setLanes d n vs).deferred = g.deferred := by
  have h := congrArg Group.deferred (g.setLanes_noting g.deferred d n vs)
  exact h

theorem Group.setLanes_append (g : Group) (d : Operand) (n : Nat) (vs ws : List (Nat × Nat)) :
    g.setLanes d n (vs ++ ws) = (g.setLanes d n vs).setLanes d n ws := List.foldl_append

/-! ## Ids go out in instance order (R373) -/

/-- The asks that want an id. -/
def wanting (asks : List (Nat × ColAsk)) : List (Nat × ColAsk) := asks.filter fun a => a.2.isSome

/-- The ids that go out: the asks that want one, each with the next id. -/
def granted (asks : List (Nat × ColAsk)) (ids : List Nat) : List ((Nat × ColAsk) × Nat) := (wanting asks).zip ids

/-- The change that a grant leaves to commit (R373). -/
def grantOf (e : (Nat × ColAsk) × Nat) : Deferred := .colAlloc e.2 ((e.1.2.map Prod.fst).getD 0) ((e.1.2.map Prod.snd).getD none)

/-- The colour word of an instance: that of its grant, or all ones. -/
def wordOf (gs : List ((Nat × ColAsk) × Nat)) (i : Nat) : Nat :=
  match gs.find? fun e => e.1.1 == i with
  | some e => e.2 + ((e.1.2.map Prod.fst).getD 0) * 4096
  | none => 0xFFFFFFFF

/-- The active lanes of an instance. -/
def lanesOf (act : LaneMask) (w i : Nat) : List Nat := (maskLanes act).filter fun l => l / w == i

/-- One instance takes the next id, if it wants one and one is left, and its lanes receive the colour word. -/
def colStep (d : Operand) (act : LaneMask) (w : Nat) (acc : List Nat × Group) (a : Nat × ColAsk) : List Nat × Group :=
  let put (g : Group) (v : Nat) : Group := g.setLanes d 1 ((lanesOf act w a.1).map fun l => (l, v))
  match a.2, acc.1 with
  | some (k, parent), id :: ids => (ids, put { acc.2 with deferred := acc.2.deferred ++ [.colAlloc id k parent] } (id + k * 4096))
  | _, ids => (ids, put acc.2 0xFFFFFFFF)

/-- The colour word that each instance receives, in the order in which they ask. -/
def colAnswers : List (Nat × ColAsk) → List Nat → List (Nat × Nat)
  | [], _ => []
  | (i, none) :: as, ids => (i, 0xFFFFFFFF) :: colAnswers as ids
  | (i, some _) :: as, [] => (i, 0xFFFFFFFF) :: colAnswers as []
  | (i, some (k, _)) :: as, id :: ids => (i, id + k * 4096) :: colAnswers as ids

theorem granted_nil_ids (asks : List (Nat × ColAsk)) : granted asks [] = [] := List.zip_nil_right

theorem granted_cons_none (i : Nat) (asks : List (Nat × ColAsk)) (ids : List Nat) :
    granted ((i, none) :: asks) ids = granted asks ids := rfl

theorem granted_cons_some (i k : Nat) (p : Option Nat) (asks : List (Nat × ColAsk)) (id : Nat) (ids : List Nat) :
    granted ((i, some (k, p)) :: asks) (id :: ids) = ((i, some (k, p)), id) :: granted asks ids := rfl

/-- An instance that does not ask has no grant. -/
theorem wordOf_of_not_mem {asks : List (Nat × ColAsk)} {i : Nat} (h : i ∉ asks.map Prod.fst) (ids : List Nat) :
    wordOf (granted asks ids) i = 0xFFFFFFFF := by
  rw [wordOf, List.find?_eq_none.mpr]
  intro e he hi
  refine h (List.mem_map.mpr ⟨e.1, (List.mem_filter.mp (List.of_mem_zip (a := e.1) (b := e.2) he).1).1, by simpa using hi⟩)

/-- Each instance that asks once receives the word of its grant. -/
theorem colAnswers_eq (asks : List (Nat × ColAsk)) (ids : List Nat) (hn : (asks.map Prod.fst).Nodup) :
    colAnswers asks ids = (asks.map Prod.fst).map fun i => (i, wordOf (granted asks ids) i) := by
  induction asks generalizing ids with
  | nil => rfl
  | cons a as ih =>
    obtain ⟨i, ask⟩ := a
    obtain ⟨hi, hns⟩ := List.nodup_cons.mp hn
    match ask, ids with
    | none, ids =>
      rw [colAnswers, ih ids hns, List.map_cons, List.map_cons, granted_cons_none, wordOf_of_not_mem hi]
    | some (k, p), [] =>
      rw [colAnswers, ih [] hns, List.map_cons, List.map_cons, granted_nil_ids, granted_nil_ids]
      rfl
    | some (k, p), id :: ids =>
      rw [colAnswers, ih ids hns, List.map_cons, List.map_cons, granted_cons_some]
      congr 1
      · simp [wordOf]
      · refine List.map_congr_left fun j hj => ?_
        have hij : i ≠ j := fun e => hi (e ▸ hj)
        simp [wordOf, hij]

/-- What the instances' asks leave: the ids that are left, the lanes written, and the allocations noted. -/
theorem foldl_colStep (d : Operand) (act : LaneMask) (w : Nat) (asks : List (Nat × ColAsk)) (ids : List Nat) (g : Group) :
    asks.foldl (colStep d act w) (ids, g) = (ids.drop (wanting asks).length,
      (g.setLanes d 1 ((colAnswers asks ids).flatMap fun e => (lanesOf act w e.1).map fun l => (l, e.2))).noting
        (g.deferred ++ (granted asks ids).map grantOf)) := by
  induction asks generalizing ids g with
  | nil => simp [wanting, granted, colAnswers, Group.setLanes, Group.noting]
  | cons a as ih =>
    obtain ⟨i, ask⟩ := a
    rw [List.foldl_cons]
    match ask, ids with
    | none, ids =>
      rw [show colStep d act w (ids, g) (i, none) = (ids, g.setLanes d 1 ((lanesOf act w i).map fun l => (l, 0xFFFFFFFF))) from rfl, ih,
        colAnswers, List.flatMap_cons, Group.setLanes_append, Group.setLanes_deferred]
      rfl
    | some (k, p), [] =>
      rw [show colStep d act w ([], g) (i, some (k, p)) = ([], g.setLanes d 1 ((lanesOf act w i).map fun l => (l, 0xFFFFFFFF))) from rfl, ih,
        colAnswers, List.flatMap_cons, Group.setLanes_append, Group.setLanes_deferred, granted_nil_ids, granted_nil_ids]
      simp
    | some (k, p), id :: ids =>
      rw [show colStep d act w (id :: ids, g) (i, some (k, p)) = (ids, (g.noting (g.deferred ++ [.colAlloc id k p])).setLanes
        d 1 ((lanesOf act w i).map fun l => (l, id + k * 4096))) from rfl, ih, colAnswers, List.flatMap_cons, Group.setLanes_append, Group.setLanes_deferred,
        Group.setLanes_noting, Group.setLanes_noting, granted_cons_some]
      simp [wanting, grantOf, Group.noting]

/-! ## The instances with an active lane (R368) -/

theorem Group.leaders_nodup (g : Group) (act : LaneMask) : ((g.leaders act).map Prod.fst).Nodup := by
  have hsub : ((g.leaders act).map Prod.fst).Sublist (g.activeInsts act) := by
    unfold Group.leaders
    induction g.activeInsts act with
    | nil => exact .slnil
    | cons i is ih =>
      rw [List.filterMap_cons]
      cases g.instLeader? act i with
      | none => exact ih.cons _
      | some l => exact ih.cons_cons _
  exact hsub.nodup (List.nodup_range.filter _)

/-- The lanes of the instances in a list, instance after instance. -/
theorem lanesOf_flatMap_nodup (act : LaneMask) (w : Nat) {is : List Nat} (hn : is.Nodup) : (is.flatMap (lanesOf act w)).Nodup := by
  refine List.nodup_flatMap.mpr ⟨fun i _ => (maskLanes_nodup act).filter _, hn.imp fun hij l hi hj => hij ?_⟩
  simp only [lanesOf, List.mem_filter, beq_iff_eq] at hi hj
  exact hi.2.symm.trans hj.2

/-! ## Colour words (R373, R374) -/

/-- What each instance with an active lane asks for. -/
def asksOf (g : Group) (act : LaneMask) (ask : Nat → ColAsk) : List (Nat × ColAsk) := (g.leaders act).map fun il => (il.1, ask il.2)

theorem asksOf_map_fst (g : Group) (act : LaneMask) (ask : Nat → ColAsk) :
    (asksOf g act ask).map Prod.fst = (g.leaders act).map Prod.fst := by simp [asksOf]

/-- The active lanes of the instances with a leader. -/
def colouredLanes (g : Group) (act : LaneMask) : LaneMask := maskOf fun l => laneBit act l && (g.leaders act).any fun il => il.1 == l / g.width

/-- The lanes that receive colour words are those of the instances that ask. -/
theorem colAnswers_lanes (g : Group) (act : LaneMask) (ask : Nat → ColAsk) (ids : List Nat) (h : Group) (d : Operand) :
    LaneWrite h (h.setLanes d 1 ((colAnswers (asksOf g act ask) ids).flatMap fun e => (lanesOf act g.width e.1).map fun l => (l, e.2)))
      d 1 (colouredLanes g act) fun l => wordOf (granted (asksOf g act ask) ids) (l / g.width) := by
  have hn : ((asksOf g act ask).map Prod.fst).Nodup := asksOf_map_fst g act ask ▸ g.leaders_nodup act
  have hlist : ((colAnswers (asksOf g act ask) ids).flatMap fun e => (lanesOf act g.width e.1).map fun l => (l, e.2)) =
      (((g.leaders act).map Prod.fst).flatMap (lanesOf act g.width)).map
        fun l => (l, wordOf (granted (asksOf g act ask) ids) (l / g.width)) := by
    rw [colAnswers_eq _ _ hn, asksOf_map_fst, List.map_flatMap, List.flatMap_map]
    refine List.flatMap_congr fun i _ => List.map_congr_left fun l hl => ?_
    rw [show l / g.width = i by simpa using (List.mem_filter.mp hl).2]
  rw [hlist]
  refine Group.setLanes_list d 1 _ _ h (lanesOf_flatMap_nodup act g.width (g.leaders_nodup act)) (fun l hl => ?_) _ fun l hl => ?_
  · obtain ⟨i, -, hi⟩ := List.mem_flatMap.mp hl
    exact ((mem_maskLanes act l).mp (List.mem_filter.mp hi).1).1
  · rw [colouredLanes, laneBit_maskOf _ hl]
    simp only [Bool.and_eq_true, List.any_eq_true, beq_iff_eq, List.mem_flatMap, List.mem_map, lanesOf, List.mem_filter, mem_maskLanes]
    constructor
    · rintro ⟨ha, il, hil, e⟩
      exact ⟨il.1, ⟨il, hil, rfl⟩, ⟨hl, ha⟩, e.symm⟩
    · rintro ⟨_, ⟨il, hil, rfl⟩, ⟨-, ha⟩, e⟩
      exact ⟨ha, il, hil, e.symm⟩

/-- The colours that COLFREE notes: each distinct live one of the leaders' but colour 0 (R374). -/
def freedColours (f : F0) (s : State) (g : Group) : List Nat :=
  (dedup ((g.leaders (g.active f.g)).filterMap fun il => s.liveColour s.cur.1 ((ctx0 f s g).rd f.a il.2).toNat)).filter (· != 0)

/-- COLALLOC's ask: a colour of the least width that holds the count of the instance's leader (R373). -/
def widthAsk (f : F0) (x : Ctx) (l : Nat) : ColAsk :=
  if x.count2 f.a f.c l = 0 ∨ 32 < x.count2 f.a f.c l then none else some (ceilLog2 (x.count2 f.a f.c l), none)

section
variable {s : State} {g : Group} (hI : Issuing s g) (f : F0)
include hI

theorem colWord_of (ask : Ctx → Nat → ColAsk) :
    let asks := asksOf g (g.active f.g) (ask (ctx0 f s g))
    let ids := (s.core s.cur.1).reserve
    let r := asks.foldl (colStep f.d (g.active f.g) g.width) (ids, (ctx0 f s g).g)
    colWord s f ask = .next (if ids.length < (wanting asks).length ∧ !s.noFreeId s.cur.1 then s.hold g
      else (s.modCore s.cur.1 fun c => { c with reserve := r.1 }).finish r.2) := by
  rw [colWord, withIssuer_of hI]
  rfl

/-- A colour word acts as R373 says, whatever its instances ask for. -/
theorem colWord_coloured (ask : Ctx → Nat → ColAsk) : Coloured f s g (ask (ctx0 f s g)) (colWord s f ask) := by
  rw [colWord_of hI]
  refine ⟨fun henough => ?_, fun hshort hfree => ?_⟩
  · rw [if_neg, foldl_colStep]
    · obtain ⟨hcore, hothers, hmem⟩ := State.modCore_finish s _ _
      refine ⟨_, _, rfl, colAnswers_lanes g _ _ _ _ _, ?_, ?_, hothers, hmem⟩
      · rw [hcore, Core.group?_setGroup_same]
        simp only [Group.setLanes_deferred]
        rfl
      · rw [hcore, Core.setGroup_reserve]
        rfl
    · rintro ⟨hlt, hnot⟩
      rcases henough with hle | hno
      · exact absurd hlt (Nat.not_lt.mpr hle)
      · rw [hno] at hnot
        exact absurd hnot (by decide)
  · rw [if_pos ⟨hshort, by rw [hfree]; rfl⟩]
    exact State.hold_waits _ _

theorem execColfree_of : execColfree f s = .next (s.finish (if (freedColours f s g).isEmpty then (ctx0 f s g).g
    else (ctx0 f s g).g.noting ((ctx0 f s g).g.deferred ++ [.colFree (freedColours f s g)]))) := by
  rw [execColfree, withIssuer_of hI]
  rfl

theorem execColfree_frees (hids : freedColours f s g ≠ []) :
    Done s ((ctx0 f s g).g.noting ((ctx0 f s g).g.deferred ++ [.colFree (freedColours f s g)])) (execColfree f s) := by
  rw [execColfree_of hI, if_neg (mt List.isEmpty_iff.mp hids)]
  exact State.finish_done _ _

theorem execColfree_idle (hids : freedColours f s g = []) : Done s (ctx0 f s g).g (execColfree f s) := by
  rw [execColfree_of hI, if_pos (List.isEmpty_iff.mpr hids)]
  exact State.finish_done _ _

/-! ## Pigeonholes and block slots (R375, R376) -/

theorem bintimWord_done (mk : Nat → Nat → Deferred) :
    Done s { (ctx0 f s g).g with deferred := (ctx0 f s g).g.deferred ++
      (maskLanes (g.active f.g)).map fun l => mk ((ctx0 f s g).rd f.a l).toNat ((ctx0 f s g).count2 f.b f.c l) } (bintimWord s f mk) := by
  rw [bintimWord, withIssuer_of hI]
  exact State.finish_done _ _

section
variable {l : Nat} (hlead : leader? (g.active f.g) = some l)
include hlead

theorem execLdblk_of_leader :
    let x := ctx0 f s g
    let bid := (x.rd f.a l).toNat
    let slot := (x.rd f.b l).toNat
    let st := ldblkStatus s (s.core s.cur.1) bid slot
    let h := x.g.setLanes f.d 1 ((maskLanes (g.active f.g)).map fun l => (l, st))
    execLdblk f s = .next (if st = 0 then
      (s.modCore s.cur.1 fun c => c.setSlot slot { c.slot slot with closing := true }).finish
        { h with deferred := h.deferred ++ [.ldblk slot bid] }
      else s.finish h) := by
  rw [execLdblk, withIssuer_of hI]
  simp only [f0Ctx, hlead]
  rfl

/-- A request that is refused writes its status and does nothing else. -/
theorem execLdblk_refused (hst : ldblkStatus s (s.core s.cur.1) ((ctx0 f s g).rd f.a l).toNat ((ctx0 f s g).rd f.b l).toNat ≠ 0) :
    ∃ h, Done s h (execLdblk f s) ∧ LaneWrite (ctx0 f s g).g h f.d 1 (g.active f.g)
      fun _ => ldblkStatus s (s.core s.cur.1) ((ctx0 f s g).rd f.a l).toNat ((ctx0 f s g).rd f.b l).toNat := by
  rw [execLdblk_of_leader hI f hlead, if_neg hst]
  exact ⟨_, State.finish_done _ _, Group.setLanes_write _ _ _ _ _⟩

/-- A request that is accepted writes 0, closes its slot and joins the changes of the commit. -/
theorem execLdblk_accepted (hst : ldblkStatus s (s.core s.cur.1) ((ctx0 f s g).rd f.a l).toNat ((ctx0 f s g).rd f.b l).toNat = 0) :
    let bid := ((ctx0 f s g).rd f.a l).toNat
    let slot := ((ctx0 f s g).rd f.b l).toNat
    ∃ t h, execLdblk f s = .next t ∧
      (t.core s.cur.1).group? s.cur.2 = some { h.advance with deferred := h.deferred ++ [.ldblk slot bid] } ∧
      LaneWrite (ctx0 f s g).g h f.d 1 (g.active f.g) (fun _ => 0) ∧
      (t.core s.cur.1).slot slot = { (s.core s.cur.1).slot slot with closing := true } ∧ ∀ a, t.memByte a = s.memByte a := by
  rw [execLdblk_of_leader hI f hlead, if_pos hst]
  obtain ⟨hcore, -, hmem⟩ := State.modCore_finish s _ _
  refine ⟨_, _, rfl, ?_, Group.setLanes_write _ _ _ _ _, ?_, hmem⟩
  · rw [hcore, Core.group?_setGroup_same, hst]
    rfl
  · rw [hcore]
    exact Core.slot_setSlot_same _ _ _

/-! ## QWAIT (R378) -/

theorem execQwait_of_leader :
    let x := ctx0 f s g
    execQwait f s = .next (if (s.core s.cur.1).occupancy f.fn.toNat ≤ x.count2 f.a f.c l then s.qwaitEnd s.cur.1 s.cur.2 f x.g 1
      else if qwaitSince s g + 65536 ≤ s.arith then s.qwaitEnd s.cur.1 s.cur.2 f x.g 0
      else s.setGroup s.cur.1 s.cur.2 { g with status := .qwait (qwaitSince s g) }) := by
  rw [execQwait, withIssuer_of hI]
  simp only [f0Ctx, hlead]
  rfl

end

omit hI in
/-- A QWAIT that ends writes its answer to every active lane. -/
theorem State.qwaitEnd_done (v : Nat) : ∃ h, Done s h (.next (s.qwaitEnd s.cur.1 s.cur.2 f (ctx0 f s g).g v)) ∧
    LaneWrite (ctx0 f s g).g h f.d 1 (g.active f.g) fun _ => v := by
  refine ⟨_, ⟨_, rfl, State.setGroup_only _ _ _ _⟩, ?_⟩
  rw [show (ctx0 f s g).g.active f.g = g.active f.g by obtain ⟨h, e⟩ := ctx0_group f s g; rw [e]; rfl]
  exact Group.setLanes_write _ _ _ _ _

/-- LDBLK and QWAIT with no active lane only pass. -/
theorem queueWords_idle (hidle : g.active f.g = 0) : Done s (ctx0 f s g).g (execLdblk f s) ∧ Done s (ctx0 f s g).g (execQwait f s) := by
  rw [execLdblk, execQwait, withIssuer_of hI, withIssuer_of hI]
  simp only [f0Ctx, leader?_of_idle hidle]
  exact ⟨State.finish_done _ _, State.finish_done _ _⟩

end

/-! ## CFGW (R377) -/

section
variable {s : State} {g : Group} (hI : Issuing s g) (f : F6)
include hI

theorem execCfgw_of_steward (hpriv : (s.core s.cur.1).priv g = true) (hsteward : 1024 ≤ s.cur.1) :
    let x := ctx6 f s g
    Done s (if g.active f.g = 0 then x.g
      else x.g.queue (.cfgw ((maskLanes (g.active f.g)).map fun l => ((x.rd f.a l).toNat, x.rd f.b l)))) (execCfgw f s) := by
  rw [execCfgw, withIssuer_of hI, privileged, if_pos hpriv, if_neg (Nat.not_lt.mpr hsteward)]
  exact State.finish_done _ _

theorem execCfgw_privilege (hdenied : (s.core s.cur.1).priv g = false ∨ s.cur.1 < 1024) :
    Faults s g { cls := .privilege } (execCfgw f s) := by
  rw [execCfgw, withIssuer_of hI, privileged]
  by_cases hpriv : (s.core s.cur.1).priv g = true
  · rw [if_pos hpriv, if_pos (hdenied.resolve_left (by simp [hpriv]))]
    exact State.faultWord_faults _ _ _
  · rw [if_neg hpriv]
    exact State.faultWord_faults _ _ _

end

end Sys2Proof.Machine

namespace Sys2Proof.Proofs

open Sys2Proof.Machine Sys2Proof.Safety Sys2Proof.Claims

/-- Settles O27: the three words that allocate differ only in what their instances ask for (`colWord_coloured`). -/
theorem colourWords : Obligations.ColourWords := by
  intro f s g hI
  simp only [exec_colalloc, exec_packc, exec_unpackc, exec_colfree]
  exact ⟨colWord_coloured hI f (widthAsk f), colWord_coloured hI f _, colWord_coloured hI f _, execColfree_frees hI f,
    execColfree_idle hI f⟩

/-- Settles O28: BINTIM, the two outcomes of an LDBLK, the three of a QWAIT, and CFGW by its privilege. -/
theorem pigeonholeAndStewardWords : Obligations.PigeonholeAndStewardWords := by
  intro s g hI
  refine ⟨fun f => ⟨?_, ?_, fun l hlead => ⟨execLdblk_refused hI f hlead, execLdblk_accepted hI f hlead, fun hfit => ?_,
    fun hfull hover => ?_, fun hfull hwait => ?_⟩, queueWords_idle hI f⟩, fun f => ⟨fun hpriv hsteward hact => ?_,
    fun hpriv hsteward hidle => ?_, execCfgw_privilege hI f⟩⟩
  · rw [exec_bintimTimer, List.map_map]
    exact bintimWord_done hI f fun slot v => .timer slot (v % 65536)
  · rw [exec_bintimPrio, List.map_map]
    exact bintimWord_done hI f fun slot v => .prio slot (min v 3)
  · rw [exec_qwait, execQwait_of_leader hI f hlead, if_pos hfit]
    exact State.qwaitEnd_done f 1
  · rw [exec_qwait, execQwait_of_leader hI f hlead, if_neg (Nat.not_le.mpr hfull), if_pos hover]
    exact State.qwaitEnd_done f 0
  · rw [exec_qwait, execQwait_of_leader hI f hlead, if_neg (Nat.not_le.mpr hfull), if_neg (Nat.not_le.mpr hwait)]
    exact ⟨_, rfl, State.setGroup_only _ _ _ _⟩
  · simpa only [exec_cfgw, if_neg hact] using execCfgw_of_steward hI f hpriv hsteward
  · simpa only [exec_cfgw, if_pos hidle] using execCfgw_of_steward hI f hpriv hsteward

end Sys2Proof.Proofs
end

section
/-! SUPPORT. The fabric and multicast words at issue (R300 to R303, R306, R308, R310, R315, R328 to R331, R336). -/

namespace Sys2Proof.Machine

open Sys2Proof.Safety Sys2Proof.Claims

/-! ## The messages of a multicast word -/

/-- The active lanes of an instance. -/
abbrev instLanes (g : Group) (act : LaneMask) (i : Nat) : List Nat := (maskLanes act).filter fun j => g.instOf j == i

/-- The message of an instance of MCST: its lanes' items under the header of the leader lane (R328 to R330). -/
def mcstMsg (f : F1) (s : State) (g : Group) (l i : Nat) : Option McMsg :=
  let x := ctx1 f s g
  let h := runOf4 x f.a l
  let w := sizeBytes f.fn.toNat
  match instLanes g (g.active f.g) i with
  | [] => none
  | ls => some { group := h 0, root := (s.mcEntry (h 0)).root, wsz := (s.mcEntry (h 0)).wsz,
                 items := ls.map fun j => (x.count3 f.c j, natLe w (x.rdN (w / 4) f.b j).toNat),
                 notify := notifyOf (h 1) (h 2) (field (h 1) 31 1 == 1), len := mcstLen ls.length w,
                 stamped := false, postmark := 0, part := 0, parts := 1 }

theorem Group.queue_append (h : Group) (it : SendItem) (rest : List SendItem) :
    { h.queue it with sendq := (h.queue it).sendq ++ rest } = { h with sendq := h.sendq ++ it :: rest } := by
  simp only [Group.queue, List.append_assoc, List.singleton_append]

/-- A group behind whose send queue the receipts of the instances without an active lane stand (R331). -/
def Group.withReceipts (c : Core) (g : Group) (f : F1) (live is : List Nat) (h : Group) : Group :=
  is.foldl (fun g' i => match f1Due c g f i with
    | some d => if live.contains i then g' else g'.queue (.mcst none (some d) none)
    | none => g') h

theorem Group.withReceipts_eq (c : Core) (g : Group) (f : F1) (live is : List Nat) (h : Group) :
    ∃ rest, Group.withReceipts c g f live is h = { h with sendq := h.sendq ++ rest } := by
  unfold Group.withReceipts
  induction is generalizing h with
  | nil => exact ⟨[], by simp⟩
  | cons i is ih =>
    rw [List.foldl_cons]
    split
    · next d hd =>
      split
      · exact ih h
      · obtain ⟨rest, e⟩ := ih (h.queue (.mcst none (some d) none))
        exact ⟨.mcst none (some d) none :: rest, e.trans (Group.queue_append _ _ _)⟩
    · exact ih h

@[simp] theorem Group.release_sendq (g : Group) (f : F1) : (g.release f).sendq = g.sendq := by
  unfold Group.release; split <;> rfl

/-! ## Words of one request a lane (R303, R306, R336) -/

section
variable {s : State} {g : Group} (hI : Issuing s g) (f : F1)
include hI

/-- The lane requests that the targets of a remote word's lanes make. -/
def remoteLanes (addr : Nat → Nat) (b c : Nat → DWord) (ts : List (Nat × Target)) : List (Nat × RemLane) :=
  ts.filterMap fun t => match t.2 with
    | .peer dev tasid tva => some (t.1, { pos := t.1, dev := dev, tasid := tasid, tva := tva, va := addr t.1, b := b t.1, c := c t.1 })
    | .mem _ _ => none

theorem laneRemote_of (k : RemKind) (size al : Nat) (addr : Ctx → Nat → Nat) (b c : Ctx → Nat → DWord) :
    let x := ctx1 f s g
    laneRemote s f k size al addr b c = .next (withPeers s x (g.active f.g) k.writes (addr x) [(1, fun l => addr x l % al != 0)]
      fun s h ts => s.finish (queueLanes x.c h f k size (remoteLanes (addr x) (b x) (c x) ts))) := by
  intro x
  rw [laneRemote, withIssuer_of hI, show x.c = s.core s.cur.1 from ctx1_core f s g]
  rfl

/-- A word of one request a lane queues them, faults or waits, as its checks and its translations say (R303). -/
theorem laneRemote_queued (k : RemKind) (size : Nat) (addr : Ctx → Nat → Nat) (b c : Ctx → Nat → DWord) :
    let x := ctx1 f s g
    RemoteQueued f s g k size (addr x) (b x) (c x) (laneRemote s f k size size addr b c) := by
  intro x
  rw [laneRemote_of hI]
  have passes (h : ∀ l ∈ maskLanes (g.active f.g), addr x l % size = 0) :
      firstCause .remoteAccess (g.active f.g) (addr x) [(1, fun l => addr x l % size != 0)] = none :=
    firstCause_eq_none fun l hl => by simp [h l hl]
  refine ⟨fun haligned s' ts hplaces => ?_, fun haligned fs hplaces => ?_, fun haligned s' hplaces => ?_, fun e hcause => ?_⟩
  · rw [withPeers, passes haligned]
    dsimp only
    rw [hplaces]
    refine Eq.subst (motive := fun ls => Done s' (queueLanes x.c _ f k size ls) _) ?_ (State.finish_done s' _)
    exact List.filterMap_map
  · rw [withPeers, passes haligned]
    dsimp only
    rw [hplaces]
    exact State.faultWord_faults _ _ _
  · rw [withPeers, passes haligned]
    dsimp only
    rw [hplaces]
    exact State.hold_waits _ _
  · rw [withPeers, hcause]
    exact State.faultWord_faults _ _ _

/-! ## Bulk words (R303, R308, R310) -/

/-- A bulk word with no active lane leaves only the tokens of its instances. -/
theorem bulkWord_idle (form : CopyForm) (hidle : g.active f.g = 0) :
    Done s (queueLanes (s.core s.cur.1) (ctx1 f s g).g f .rst 4 []) (bulkWord s f form) := by
  rw [bulkWord, withIssuer_of hI, f1Ctx_eq]
  simp only [leader?_of_idle hidle]
  exact State.finish_done _ _

/-- The length of a transfer: of a put from its block, of a get from C (R303). -/
def bulkLen (f : F1) (x : Ctx) (form : CopyForm) (l : Nat) : Nat :=
  if form == .rput then runOf4 x (src3Operand f.c) l 0 else x.count3 f.c l

/-- The command that a bulk word queues for commit, with a token for every instance (R308, R310). -/
def bulkCmd (f : F1) (s : State) (g : Group) (form : CopyForm) (l : Nat) (ts : List (Nat × Nat × Target)) : CopyCmd :=
  let x := ctx1 f s g
  let put := form == .rput
  let here := (x.rd64 f.b l).toNat
  let blk := runOf4 x (src3Operand f.c) l
  { copyBase x g.pc form .frame l with
    dst := if put then 0 else here, src := if put then here else 0, len := bulkLen f x form l, rel := f1Rel f,
    due := x.g.firedInsts.filterMap fun i => f1Due (s.core s.cur.1) g f i,
    notify := if put then notifyOf (blk 1) (blk 2) false else none, remote := bulkPeer ts, target := (x.rd64 f.a l).toNat }

/-- The put block keeps to its layout (R307, R308). -/
def putBlockOk (f : F1) (x : Ctx) (l : Nat) : Prop :=
  let blk := runOf4 x (src3Operand f.c) l
  notifyBad (blk 1) = false ∧ blk 1 / 2 ^ 31 = 0 ∧ blk 3 = 0

/-- A bulk word whose checks pass queues its command. -/
theorem bulkWord_of_passed {form : CopyForm} {l : Nat} {s' : State} {ts : List (Nat × Nat × Target)} (hlead : leader? (g.active f.g) = some l)
    (htarget : ((ctx1 f s g).rd64 f.a l).toNat % 4 = 0) (hhere : ((ctx1 f s g).rd64 f.b l).toNat % 4 = 0)
    (hlen : bulkLen f (ctx1 f s g) form l % 4 = 0) (hmax : bulkLen f (ctx1 f s g) form l ≤ bulkMax)
    (hblk : form = .rput → putBlockOk f (ctx1 f s g) l)
    (hplaces : bulkXl s (ctx1 f s g) l (some (((ctx1 f s g).rd64 f.a l).toNat, form == .rput))
      (if bulkLen f (ctx1 f s g) form l = 0 then none else some (((ctx1 f s g).rd64 f.b l).toNat, !(form == .rput))) = .ok s' ts)
    (hlost : bulkLost s' l ts = none) :
    Done s' ((((ctx1 f s g).g.release f).foot [((ctx1 f s g).rd64 f.a l).toNat, ((ctx1 f s g).rd64 f.b l).toNat]).queue
      (.copy (bulkCmd f s g form l ts))) (bulkWord s f form) := by
  have hput : ¬ ((form == .rput) = true ∧ (notifyBad (runOf4 (ctx1 f s g) (src3Operand f.c) l 1) = true ∨
      runOf4 (ctx1 f s g) (src3Operand f.c) l 1 / 2 ^ 31 ≠ 0 ∨ runOf4 (ctx1 f s g) (src3Operand f.c) l 3 ≠ 0)) := by
    rintro ⟨hform, hbad⟩
    obtain ⟨hnotify, hhigh, hword⟩ := hblk (beq_iff_eq.mp hform)
    rcases hbad with h | h | h
    exacts [by simp [hnotify] at h, h hhigh, h hword]
  unfold bulkLen at hlen hmax hplaces
  rw [bulkWord, withIssuer_of hI, f1Ctx_eq]
  simp only [hlead]
  rw [if_neg (by simp [htarget, hhere]), if_neg (not_or.mpr ⟨not_not.mpr hlen, Nat.not_lt.mpr hmax⟩), if_neg hput, hplaces]
  dsimp only
  rw [hlost]
  exact State.finish_done _ _

/-! ## SPW (R315) -/

theorem execSpw_of_leader {l : Nat} (hlead : leader? (g.active f.g) = some l) :
    let x := ctx1 f s g
    let h := (x.rd f.a l).toNat
    execSpw f s = .next (if (match s.coreSpan s.cur.1 h with
        | some (_, sp) => sp.producer == s.cur.1
        | none => false) then
      s.finish ((x.g.release f).queue (.spw h (f1Rel f) ((maskLanes (g.active f.g)).flatMap fun j =>
        if f.fn = 5 then [loWord (x.rd64 f.b j), hiWord (x.rd64 f.b j)] else [x.rd f.b j])))
      else s.faultWord g { cls := .remoteAccess, cause := 4, lanes := laneMask1 l }) := by
  rw [execSpw, withIssuer_of hI, f1Ctx_eq]
  simp only [hlead] <;> rfl

theorem execSpw_idle (hidle : g.active f.g = 0) : Done s ((ctx1 f s g).g.release f) (execSpw f s) := by
  rw [execSpw, withIssuer_of hI, f1Ctx_eq]
  simp only [leader?_of_idle hidle]
  exact State.finish_done _ _

/-! ## MCST and MCPUT (R328 to R331) -/

theorem multicastWords_idle (hidle : g.active f.g = 0) :
    Done s (queueMessages (s.core s.cur.1) (ctx1 f s g).g f fun _ => none) (execMcst f s) ∧
    Done s (queueMessages (s.core s.cur.1) (ctx1 f s g).g f fun _ => none) (execMcput f s) := by
  rw [execMcst, execMcput, withIssuer_of hI, withIssuer_of hI, f1Ctx_eq]
  simp only [leader?_of_idle hidle]
  exact ⟨State.finish_done _ _, State.finish_done _ _⟩

section
variable {l : Nat} (hlead : leader? (g.active f.g) = some l)
include hlead

/-- An MCST whose checks pass queues a message for each instance with active lanes. -/
theorem execMcst_of_passed (hgroup : groupBad s (s.core s.cur.1) (runOf4 (ctx1 f s g) f.a l 0) = false)
    (hnotify : notifyBad (runOf4 (ctx1 f s g) f.a l 1) = false) (hword : runOf4 (ctx1 f s g) f.a l 3 = 0)
    (hitems : ∀ k ∈ maskLanes (g.active f.g), (ctx1 f s g).count3 f.c k % sizeBytes f.fn.toNat = 0 ∧
      (ctx1 f s g).count3 f.c k + sizeBytes f.fn.toNat ≤ 2 ^ (s.mcEntry (runOf4 (ctx1 f s g) f.a l 0)).wsz ∧
      mcstLen (instLanes g (g.active f.g) (g.instOf k)).length (sizeBytes f.fn.toNat) ≤ (s.mcEntry (runOf4 (ctx1 f s g) f.a l 0)).cap) :
    Done s (queueMessages (s.core s.cur.1) (ctx1 f s g).g f (mcstMsg f s g l)) (execMcst f s) := by
  rw [execMcst, withIssuer_of hI, f1Ctx_eq]
  simp only [hlead]
  rw [firstCause_cons_of_passed _ fun k _ => hgroup, firstCause_cons_of_passed _ fun k hk => by simp [(hitems k hk).1],
    firstCause_cons_of_passed _ fun k hk => decide_eq_false (Nat.not_lt.mpr (hitems k hk).2.2),
    firstCause_cons_of_passed _ fun k _ => by simp [hnotify, hword],
    firstCause_eq_none fun k hk => decide_eq_false (Nat.not_lt.mpr (hitems k hk).2.1)]
  exact State.finish_done _ _

/-- The command that an MCPUT queues (R331). -/
def mcputCmd (f : F1) (s : State) (g : Group) (l : Nat) : CopyCmd :=
  let x := ctx1 f s g
  let h := runOf4 x f.a l
  { copyBase x g.pc .mcput .frame l with
    src := (x.rd64 f.b l).toNat, len := x.count3 f.c l, rel := f1Rel f, notify := notifyOf (h 1) (h 2) (field (h 1) 31 1 == 1),
    due := (g.activeInsts (g.active f.g)).filterMap fun i => f1Due (s.core s.cur.1) g f i, mc := some (h 0, h 3) }

/-- An MCPUT whose checks pass queues its command, and behind it the receipts of the instances without an active lane. -/
theorem execMcput_of_passed (hgroup : groupBad s (s.core s.cur.1) (runOf4 (ctx1 f s g) f.a l 0) = false)
    (hnotify : notifyBad (runOf4 (ctx1 f s g) f.a l 1) = false) (hword : runOf4 (ctx1 f s g) f.a l 3 % 4 = 0)
    (hhere : ((ctx1 f s g).rd64 f.b l).toNat % 4 = 0) (hlen : (ctx1 f s g).count3 f.c l % 4 = 0)
    (hmax : (ctx1 f s g).count3 f.c l ≤ 65536) (hcap : (ctx1 f s g).count3 f.c l ≤ (s.mcEntry (runOf4 (ctx1 f s g) f.a l 0)).cap)
    (hwindow : runOf4 (ctx1 f s g) f.a l 3 + (ctx1 f s g).count3 f.c l ≤ 2 ^ (s.mcEntry (runOf4 (ctx1 f s g) f.a l 0)).wsz)
    {s' : State} {ts : List (Nat × Nat × Target)} (hplaces : bulkXl s (ctx1 f s g) l none
      (if (ctx1 f s g).count3 f.c l = 0 then none else some (((ctx1 f s g).rd64 f.b l).toNat, false)) = .ok s' ts)
    (hlost : bulkLost s' l ts = none) :
    Done s' (Group.withReceipts (s.core s.cur.1) g f (g.activeInsts (g.active f.g)) g.firedInsts
      ((((ctx1 f s g).g.release f).foot [((ctx1 f s g).rd64 f.b l).toNat]).queue (.copy (mcputCmd f s g l)))) (execMcput f s) := by
  rw [execMcput, withIssuer_of hI, f1Ctx_eq]
  simp only [hlead]
  rw [if_neg (by simp [hgroup]), if_neg (by simp [hword, hhere]), if_neg (by omega), if_neg (by simp [hnotify]), if_neg (by omega), hplaces]
  dsimp only
  rw [hlost]
  dsimp only
  exact State.finish_done s' _

end

end

end Sys2Proof.Machine

namespace Sys2Proof.Proofs

open Sys2Proof.Machine Sys2Proof.Safety Sys2Proof.Claims

/-- Settles O23: the five words are one (`laneRemote_queued`), with their own sizes, addresses and data. -/
theorem remoteLaneWordsQueueRequests : Obligations.RemoteLaneWordsQueueRequests := by
  intro f s g hI
  rw [exec_rld, exec_rst, exec_ratom, exec_cfaa, exec_cfaan]
  refine ⟨?_, ?_, ?_, ?_, ?_⟩
  · exact laneRemote_queued hI f .rld _ (fun x l => loadAddr x f l) (fun _ _ => 0) fun _ _ => 0
  · exact laneRemote_queued hI f .rst _ (fun x l => storeAddr x f l) (fun x l => x.rdN (sizeBytes f.fn.toNat / 4) f.b l) fun _ _ => 0
  · exact laneRemote_queued hI f .ratom _ (fun x l => bareAddr x f l) (fun x l => x.rdN (atomBytes f.fn.toNat / 4) f.b l) fun x l =>
      match f.c with
      | .op o => x.rdN (atomBytes f.fn.toNat / 4) o l
      | .imm _ => 0
  · exact laneRemote_queued hI f .cfaa _ (fun x l => bareAddr x f l) (fun x l => x.rdN (atomBytes f.fn.toNat / 4) f.b l) fun _ _ => 0
  · exact laneRemote_queued hI f .cfaan _ (fun x l => bareAddr x f l) (fun x l => x.rdN (atomBytes f.fn.toNat / 4) f.b l) fun _ _ => 0

/-- Settles O24: each word by the checks that pass, and the five without an active lane. -/
theorem bulkSpanAndMulticastWords : Obligations.BulkSpanAndMulticastWords := by
  refine ⟨fun f s g l hI hlead => ⟨?_, ?_, ?_, ?_, ?_, ?_⟩, fun f s g hI hidle => ?_⟩
  · intro htarget hhere hlen hmax hnotify hhigh hword s' ts hplaces hlost
    exact bulkWord_of_passed hI f (form := .rput) hlead htarget hhere hlen hmax (fun _ => ⟨hnotify, hhigh, hword⟩) hplaces hlost
  · intro htarget hhere hlen hmax s' ts hplaces hlost
    exact bulkWord_of_passed hI f (form := .rget) hlead htarget hhere hlen hmax (fun h => by cases h) hplaces hlost
  · intro i sp hspan hprod
    rw [exec_spw, execSpw_of_leader hI f hlead, hspan]
    dsimp only
    rw [if_pos (beq_iff_eq.mpr hprod)]
    exact State.finish_done _ _
  · intro hother
    rw [exec_spw, execSpw_of_leader hI f hlead, if_neg]
    · exact State.faultWord_faults _ _ _
    · split
      · next sp hspan => exact fun h => hother _ _ hspan (beq_iff_eq.mp h)
      · exact Bool.false_ne_true
  · intro hgroup hnotify hword hitems
    rw [exec_mcst]
    exact execMcst_of_passed hI f hlead hgroup hnotify hword hitems
  · intro hgroup hnotify hword hhere hlen hmax hcap hwindow s' ts hplaces hlost
    have hdone := execMcput_of_passed hI f hlead hgroup hnotify hword hhere hlen hmax hcap hwindow hplaces hlost
    obtain ⟨rest, e⟩ := Group.withReceipts_eq (s.core s.cur.1) g f (g.activeInsts (g.active f.g)) g.firedInsts
      ((((ctx1 f s g).g.release f).foot [((ctx1 f s g).rd64 f.b l).toNat]).queue (.copy (mcputCmd f s g l)))
    rw [e, Group.queue_append] at hdone
    rw [exec_mcput]
    refine ⟨_, mcputCmd f s g l, rest, hdone, ?_, rfl, rfl, rfl, rfl, rfl⟩
    obtain ⟨_, hg⟩ := ctx1_group f s g
    have hq : ((ctx1 f s g).g.release f).sendq = g.sendq := by rw [Group.release_sendq, hg]
    exact congrArg (· ++ _) hq
  · exact ⟨bulkWord_idle hI f .rput hidle, bulkWord_idle hI f .rget hidle, execSpw_idle hI f hidle, multicastWords_idle hI f hidle⟩

end Sys2Proof.Proofs
end

section
/-! SUPPORT. What reset leaves (R429), and what RESUME does with a parked operation that met its fault (R59, R386). -/

namespace Sys2Proof.Machine

open Sys2Proof.Safety Sys2Proof.Claims

/-- A load that met its fault: it has ended, so no abort leaves it running (R148). -/
def faultedLoad : LongOp :=
  { num := 3, flag := none, word := 0, kind := .load false false 0, ready := false, dst := .zero, size := 4, accs := [], overlay := [], writes := [],
    fl := 0, dead := false, flt := some { cls := .globalAccess } }

/-- A parked collection that carries that load. -/
def parkedLoad : ParkEnt := 
  { fid := 5, region := 1, cls := 1, record := List.replicate 8 0, bslot := 0, bid := 0, colour := 0, wlog := 0, insts := [0], tags := [7],
    em := 1, prio := 0, word := 0, resumes := 0, claim := none, verdict := none, refill := none, ops := [faultedLoad] }

/-- Core 0 with that collection parked and nothing else. -/
def parkedLoadState : State := { State.reset with cores := [(0, { Core.empty with park := [parkedLoad] })] }

/-- RESUME leaves no operation of that collection outstanding. -/
theorem resumeParked_parkedLoad :
    (((parkedLoadState.resumeParked 0 5 false).core 0).group? 0).map (·.ops) = some [] := by
  decide

end Sys2Proof.Machine

namespace Sys2Proof.Proofs

open Sys2Proof.Machine Sys2Proof.Safety Sys2Proof.Claims

/-- Refutes O56: in `parkedLoadState` the parked load met its fault, so it does not run on (R148), though it is of a kind that does. -/
theorem not_resumeFiresTheParkedCollection : ¬ Obligations.ResumeFiresTheParkedCollection := by
  intro h
  obtain ⟨hfire, -⟩ := h parkedLoadState 0 5 parkedLoad rfl rfl
  obtain ⟨g, hg, -, -, -, -, -, -, -, -, -, -, -, -, -, -, -, hops, -⟩ := hfire false 0 0 rfl rfl (by decide)
  obtain ⟨x, hx, -⟩ := hops faultedLoad (List.mem_singleton.mpr rfl) rfl
  have hnone : some g.ops = some [] := (congrArg (Option.map Group.ops) hg).symm.trans resumeParked_parkedLoad
  rw [Option.some.inj hnone] at hx
  exact absurd hx List.not_mem_nil

/-- Settles O49: each store by its definition; an empty map answers every number with its default. -/
theorem resetLeavesTheStatedState : Obligations.ResetLeavesTheStatedState := by
  refine ⟨rfl, rfl, rfl, rfl, rfl, rfl, fun _ => rfl, fun ci => ⟨rfl, rfl, rfl, rfl, fun k => rfl, fun t => ⟨rfl, rfl⟩⟩, fun sw => ⟨rfl, rfl⟩, rfl⟩

end Sys2Proof.Proofs
end

section
/-! SUPPORT. Accesses of agents at a slice (R109, R428): an access is lined up in its line's queue, and either performed or left there. -/

namespace Sys2Proof.Machine

open Sys2Proof.Safety Sys2Proof.Claims

/-! ## Operations at one slice that leave its queue -/

/-- What a map lists beside the entry that stands at a key is in the list `S`. -/
def ListedBeside {α : Type} (k : Nat) (S m : NMap α) : Prop :=
  (∀ x, ∀ e ∈ m.ins k x, e = (k, x) ∨ e ∈ S) ∧ ∀ e ∈ m.del k, e ∈ S

theorem ListedBeside.self {α : Type} (k : Nat) (m : NMap α) : ListedBeside k m m :=
  ⟨fun _ _ h => NMap.mem_ins _ _ _ _ h, fun _ h => (List.mem_filter.mp h).1⟩

theorem NMap.ins_ins_same {α : Type} (m : NMap α) (k : Nat) (v w : α) : (m.ins k v).ins k w = m.ins k w := by
  induction m with
  | nil => simp [NMap.ins]
  | cons e m ih =>
    obtain ⟨j, x⟩ := e
    by_cases hlt : k < j
    · simp [NMap.ins, hlt]
    · by_cases heq : k = j
      · simp [NMap.ins, heq]
      · simp [NMap.ins, hlt, heq, ih]

theorem NMap.del_ins_same {α : Type} (m : NMap α) (k : Nat) (v : α) : (m.ins k v).del k = m.del k := by
  induction m with
  | nil => simp [NMap.ins, NMap.del]
  | cons e m ih =>
    obtain ⟨j, x⟩ := e
    by_cases hlt : k < j
    · simp [NMap.ins, NMap.del, hlt]
    · by_cases heq : k = j
      · simp [NMap.ins, NMap.del, heq]
      · simp only [NMap.ins, hlt, heq, if_false, NMap.del, List.filter_cons]
        rw [show List.filter (fun e => e.1 != k) (NMap.ins m k v) = List.filter (fun e => e.1 != k) m from ih]

theorem ListedBeside.put {α : Type} [DecidableEq α] {k : Nat} {S m : NMap α} (h : ListedBeside k S m) (d v : α) :
    ListedBeside k S (NMap.put d m k v) := by
  obtain ⟨hins, hdel⟩ := h
  unfold NMap.put
  split
  · exact ⟨fun x e he => (NMap.mem_ins _ _ _ _ he).imp_right (hdel e), fun e he => hdel e (List.mem_filter.mp he).1⟩
  · exact ⟨fun x e he => hins x e (NMap.ins_ins_same m k v x ▸ he), fun e he => hdel e (NMap.del_ins_same m k v ▸ he)⟩

theorem ListedBeside.mem_put {α : Type} [DecidableEq α] {k : Nat} {S m : NMap α} (h : ListedBeside k S m) {d v : α} {e : Nat × α}
    (he : e ∈ NMap.put d m k v) : e = (k, v) ∨ e ∈ S := by
  unfold NMap.put at he
  split at he
  · exact .inr (h.2 e he)
  · exact h.1 v e he

/-- Between the states only slice `k` differs among the slices, and its queue does not. -/
structure QueueKept (k : Nat) (s t : State) : Prop where
  arrivals : t.arrivals = s.arrivals
  other : ∀ j, j ≠ k → t.slice j = s.slice j
  queue : (t.slice k).queue = (s.slice k).queue
  listed : ∀ e ∈ t.slices, e ∈ s.slices ∨ e.2.queue = (s.slice k).queue
  beside : ∀ S, ListedBeside k S s.slices → ListedBeside k S t.slices

theorem QueueKept.refl (k : Nat) (s : State) : QueueKept k s s := ⟨rfl, fun _ _ => rfl, rfl, fun _ h => .inl h, fun _ h => h⟩

theorem QueueKept.trans {k : Nat} {s t u : State} (a : QueueKept k s t) (b : QueueKept k t u) : QueueKept k s u where
  arrivals := b.arrivals.trans a.arrivals
  other j h := (b.other j h).trans (a.other j h)
  queue := b.queue.trans a.queue
  listed e he := (b.listed e he).elim (a.listed e) fun h => .inr (h.trans a.queue)
  beside S h := b.beside S (a.beside S h)

theorem QueueKept.foldl {α : Type} {k : Nat} {f : State → α → State} (hf : ∀ s x, QueueKept k s (f s x)) (xs : List α) (s : State) :
    QueueKept k s (xs.foldl f s) :=
  List.foldlRecOn (motive := QueueKept k s) _ _ (.refl k s) fun u hu x _ => hu.trans (hf u x)

theorem QueueKept.of_slices {k : Nat} {s t : State} (h : t.slices = s.slices) (ha : t.arrivals = s.arrivals) : QueueKept k s t := by
  have hslice (j : Nat) : t.slice j = s.slice j := by rw [State.slice, h]; rfl
  exact ⟨ha, fun j _ => hslice j, by rw [hslice], fun e he => .inl (h ▸ he), fun _ hS => by rwa [h]⟩

theorem State.mem_setSlice {s : State} {k : Nat} {x : Slice} {e : Nat × Slice} (h : e ∈ (s.setSlice k x).slices) : e = (k, x) ∨ e ∈ s.slices := by
  simp only [State.setSlice, NMap.put] at h
  split at h
  · exact .inr (List.mem_filter.mp h).1
  · exact NMap.mem_ins _ _ _ _ h

theorem State.setSlice_queueKept {s : State} {k : Nat} {x : Slice} (h : x.queue = (s.slice k).queue) : QueueKept k s (s.setSlice k x) :=
  ⟨rfl, fun _ hj => State.slice_setSlice_other _ _ _ _ hj, by rw [State.slice_setSlice_same, h], fun _ he =>
    (State.mem_setSlice he).elim (fun e => .inr (by rw [e, h])) .inl, fun _ hS => hS.put _ _⟩

@[simp] theorem Slice.setLine_queue (x : Slice) (l : L2Line) : (x.setLine l).queue = x.queue := by
  unfold Slice.setLine; split <;> rfl

@[simp] theorem Slice.bump_queue (x : Slice) (ln : Nat) : (x.bump ln).queue = x.queue := Slice.setLine_queue _ _

theorem State.modAsk_queueKept (s : State) (k ln : Nat) (f : PermitReq → PermitReq) : QueueKept k s (s.modAsk k ln f) :=
  State.setSlice_queueKept rfl

theorem State.ask_queueKept (s : State) (k ln : Nat) (e : Bool) (pol : Nat) : QueueKept k s (s.ask k ln e pol) := by
  unfold State.ask
  dsimp only
  split
  · exact .refl k s
  · split
    · exact State.modAsk_queueKept _ _ _ _
    · exact State.setSlice_queueKept rfl

theorem State.homeClean_queueKept (s : State) (k ln : Nat) : QueueKept k s (s.homeClean ln) := by
  unfold State.homeClean
  split
  · exact .refl k s
  · split
    · exact .of_slices rfl rfl
    · refine QueueKept.foldl (fun s h => ?_) _ _
      split
      · exact .of_slices rfl rfl
      · exact .refl k _
    · exact .refl k s

theorem State.evictFor_queueKept {s t : State} {k ln : Nat} (h : s.evictFor k ln = some t) : QueueKept k s t := by
  unfold State.evictFor at h
  dsimp only at h
  split at h
  · cases h; exact .refl k s
  · obtain ⟨v, -, rfl⟩ := Option.map_eq_some_iff.mp h
    split
    · exact (State.setSlice_queueKept (x := (s.slice k).unlist _ _) rfl).trans (State.homeClean_queueKept _ _ _)
    · exact State.setSlice_queueKept rfl

theorem State.placeLine_queueKept {s t : State} {k ln pol : Nat} (h : s.placeLine k ln pol = some t) : QueueKept k s t := by
  unfold State.placeLine at h
  dsimp only at h
  obtain ⟨u, hu, rfl⟩ := Option.map_eq_some_iff.mp h
  have hsu : QueueKept k s u := by
    split at hu
    · cases hu; exact .refl k s
    · exact State.evictFor_queueKept hu
  refine hsu.trans ?_
  split
  · split
    · exact .refl k u
    · exact State.setSlice_queueKept (Slice.setLine_queue _ _)
  · exact State.setSlice_queueKept (Slice.setLine_queue _ _)

theorem State.seat_queueKept {s t : State} {k ln pol : Nat} {w b : Bool} (h : s.seat k ln pol w = (b, t)) : QueueKept k s t := by
  unfold State.seat at h
  split at h
  · obtain ⟨-, rfl⟩ := Prod.mk.inj h; exact .refl k s
  · next e => obtain ⟨-, rfl⟩ := Prod.mk.inj h; exact State.placeLine_queueKept e

theorem State.mayServe_queueKept {s t : State} {k i ln pol : Nat} {n : Need} {m : Option Nat} {b : Bool}
    (h : s.mayServe k i ln n pol m = (b, t)) : QueueKept k s t := by
  unfold State.mayServe at h
  dsimp only at h
  split at h
  · obtain ⟨-, rfl⟩ := Prod.mk.inj h; exact .refl k s
  · generalize (if (n == Need.read) = true then 1 else 32) = m at h
    split at h
    · obtain ⟨-, rfl⟩ := Prod.mk.inj h; exact State.ask_queueKept _ _ _ _ _
    · obtain ⟨-, rfl⟩ := Prod.mk.inj h; exact .refl k s

theorem State.keepStale_queueKept (s : State) (k ln : Nat) : QueueKept k s (s.keepStale ln) := by
  unfold State.keepStale; split <;> exact .of_slices rfl rfl

theorem State.healLine_queueKept (s : State) (k ln : Nat) (w : Bool) : QueueKept k s (s.healLine ln w) := by
  unfold State.healLine; split <;> exact .of_slices rfl rfl

theorem State.poolAcquire_queueKept (s : State) (k ln : Nat) (w : Bool) : QueueKept k s (s.poolAcquire ln w) := by
  unfold State.poolAcquire; split <;> exact .of_slices rfl rfl

theorem State.hostAcquire_queueKept (s : State) (k ln hs : Nat) (w : Bool) : QueueKept k s (s.hostAcquire ln hs w) := by
  unfold State.hostAcquire
  split
  · refine QueueKept.foldl (fun s h => ?_) _ _
    split
    · exact .refl k _
    · split
      iterate 3 exact .of_slices rfl rfl
      exact .refl k _
  · exact .refl k s

theorem State.storeLine_queueKept (s : State) (k ln : Nat) (bytes : List (Nat × Byte)) : QueueKept k s (s.storeLine k ln bytes) := by
  unfold State.storeLine
  dsimp only
  refine QueueKept.trans ?_ (State.setSlice_queueKept (Slice.bump_queue _ _))
  refine QueueKept.trans ?_ (State.healLine_queueKept _ k _ _)
  refine QueueKept.trans ?_ (QueueKept.foldl (f := fun (s : State) (e : Nat × Byte) => { s with mem := Memory.write s.mem (ln * 128 + e.1) e.2 })
    (fun _ _ => .of_slices rfl rfl) _ _)
  have acquired : QueueKept k s (((s.keepStale ln).poolAcquire ln true).hostAcquire ln (halvesOf (bytes.map Prod.fst)) true) :=
    ((State.keepStale_queueKept _ k _).trans (State.poolAcquire_queueKept _ k _ _)).trans (State.hostAcquire_queueKept _ k _ _ _)
  split
  · refine acquired.trans (QueueKept.foldl (fun s h => ?_) _ _)
    split
    · exact .of_slices rfl rfl
    · exact .refl k _
  · exact acquired

/-! ## Lining up an access, and its turn -/

theorem insertBy_split {α : Type} (le : α → α → Bool) (a : α) (l : List α) : ∃ l1 l2, l = l1 ++ l2 ∧ insertBy le a l = l1 ++ a :: l2 := by
  induction l with
  | nil => exact ⟨[], [], rfl, rfl⟩
  | cons b l ih =>
    unfold insertBy
    split
    · exact ⟨[], b :: l, rfl, rfl⟩
    · obtain ⟨l1, l2, rfl, h⟩ := ih
      exact ⟨b :: l1, l2, rfl, by rw [h]; rfl⟩

/-- The queue entry of an agent's access to a line that is lined up now. -/
def State.agentEnt (s : State) (who ln : Nat) (bs : List (Nat × Byte)) : SliceEnt :=
  { who := who, at_ := s.mesh, seq := s.arrivals, req := .agent ln bs }

/-- Bytes of a line stored in memory. -/
def lineStored (mem : List Host.Cell) (ln : Nat) (bs : List (Nat × Byte)) : List Host.Cell :=
  bs.foldl (fun mem e => Memory.write mem (ln * 128 + e.1) e.2) mem

/-- Every request stands at its slice since before now. -/
def SeqsPast (s : State) : Prop := ∀ e ∈ s.slices, ∀ q ∈ e.2.queue, q.seq < s.arrivals

theorem State.slice_listed (s : State) (k : Nat) : (k, s.slice k) ∈ s.slices ∨ s.slice k = Slice.empty := by
  unfold State.slice NMap.atD
  cases h : s.slices.at? k with
  | none => exact .inr rfl
  | some x => exact .inl (NMap.at?_mem h)

theorem SeqsPast.slice {s : State} (h : SeqsPast s) (k : Nat) {q : SliceEnt} (hq : q ∈ (s.slice k).queue) : q.seq < s.arrivals := by
  rcases s.slice_listed k with hk | hk
  · exact h _ hk q hq
  · rw [hk] at hq
    exact absurd hq List.not_mem_nil

/-- What becomes of an agent's access to a line: it waits in the queue of its home slice, where it was put; or it is performed, and every
queue is as it was. -/
structure AccessWaits (who ln : Nat) (bs : List (Nat × Byte)) (s t : State) : Prop where
  mem : t.mem = s.mem
  arrivals : t.arrivals = s.arrivals + 1
  other : ∀ j, j ≠ permitHome s ln → t.slice j = s.slice j
  queue : ∃ l1 l2, (s.slice (permitHome s ln)).queue = l1 ++ l2 ∧ (t.slice (permitHome s ln)).queue = l1 ++ s.agentEnt who ln bs :: l2
  listed : ∀ e ∈ t.slices, e ∈ s.slices ∨ e.2.queue = (t.slice (permitHome s ln)).queue

structure AccessDone (ln : Nat) (bs : List (Nat × Byte)) (s t : State) : Prop where
  mem : t.mem = lineStored s.mem ln bs
  arrivals : t.arrivals = s.arrivals + 1
  other : ∀ j, j ≠ permitHome s ln → t.slice j = s.slice j
  queue : (t.slice (permitHome s ln)).queue = (s.slice (permitHome s ln)).queue
  listed : ∀ e ∈ t.slices, e ∈ s.slices ∨ e.2.queue = (s.slice (permitHome s ln)).queue

/-- A turn of an agent's access leaves it in its queue, or performs it and takes it out. -/
theorem State.tryAgent_cases {s : State} {k idx ln : Nat} {e : SliceEnt} {bs : List (Nat × Byte)} (he : (s.slice k).queue[idx]? = some e)
    (hreq : e.req = .agent ln bs) :
    (QueueKept k s (s.tryAgent k idx) ∧ (s.tryAgent k idx).mem = s.mem) ∨
    ((s.tryAgent k idx).mem = lineStored s.mem ln bs ∧ ∃ u, QueueKept k s u ∧ QueueKept k (u.unqueue k idx) (s.tryAgent k idx)) := by
  unfold State.tryAgent
  simp only [he, hreq]
  split
  · exact .inl ⟨.refl k s, rfl⟩
  · split
    · next h => exact .inl ⟨State.mayServe_queueKept h, State.mayServe_mem h⟩
    · next u h =>
      split
      · next h' => exact .inl ⟨(State.mayServe_queueKept h).trans (State.seat_queueKept h'), (State.seat_mem h').trans (State.mayServe_mem h)⟩
      · next v h' =>
        refine .inr ⟨?_, v, (State.mayServe_queueKept h).trans (State.seat_queueKept h'), ?_⟩
        · have hv : v.mem = s.mem := (State.seat_mem h').trans (State.mayServe_mem h)
          split
          · next hnone =>
            rw [List.isEmpty_iff.mp hnone]
            exact hv
          · exact (State.storeLine_mem _ k _ _).trans (congrArg (lineStored · ln bs) hv)
        · refine QueueKept.trans ?_ (State.modAsk_queueKept _ _ _ _)
          split
          · exact .refl k _
          · exact State.storeLine_queueKept _ _ _ _

/-- The turn in which an access is lined up: where it stands in the queue, and its first turn there. -/
theorem State.lineAgent_turn {s : State} (hs : SeqsPast s) (who ln : Nat) (bs : List (Nat × Byte)) :
    let k := permitHome s ln
    let v := s.enqueue k who (.agent ln bs)
    ∃ l1 l2, (s.slice k).queue = l1 ++ l2 ∧ (v.slice k).queue = l1 ++ s.agentEnt who ln bs :: l2 ∧
      s.lineAgent who ln bs = v.tryAgent k l1.length := by
  intro k v
  obtain ⟨l1, l2, hold, hnew⟩ := insertBy_split (fun a b : SliceEnt => a.at_ < b.at_ || (a.at_ == b.at_ && a.who < b.who))
    (s.agentEnt who ln bs) (s.slice k).queue
  have hqueue : (v.slice k).queue = l1 ++ s.agentEnt who ln bs :: l2 := by
    rw [← hnew]
    exact congrArg Slice.queue (State.slice_setSlice_same _ _ _)
  have hpast : ∀ q ∈ l1, (q.seq + 1 == v.arrivals) = false := fun q hq => by
    have := hs.slice k (hold ▸ List.mem_append_left l2 hq)
    exact beq_eq_false_iff_ne.mpr (by simp only [v, State.enqueue, State.setSlice]; omega)
  have hidx : (v.slice k).queue.findIdx? (fun q => q.seq + 1 == v.arrivals) = some l1.length := by
    rw [hqueue, List.findIdx?_append, List.findIdx?_eq_none_iff.mpr hpast, List.findIdx?_cons]
    simp [State.agentEnt, v, State.enqueue, State.setSlice]
  refine ⟨l1, l2, hold, hqueue, ?_⟩
  unfold State.lineAgent
  simp only [hidx, k, v]

theorem State.mem_enqueue {s : State} {k who : Nat} {r : SliceReq} {e : Nat × Slice} (h : e ∈ (s.enqueue k who r).slices) :
    e ∈ s.slices ∨ e.2.queue = ((s.enqueue k who r).slice k).queue :=
  (State.mem_setSlice h).symm.imp_right fun h => by rw [h, State.enqueue, State.slice_setSlice_same]

/-- An access that its first turn leaves in the queue waits there. -/
theorem AccessWaits.of_queueKept {s t : State} {who ln : Nat} {bs : List (Nat × Byte)} {l1 l2 : List SliceEnt}
    (hold : (s.slice (permitHome s ln)).queue = l1 ++ l2)
    (hnew : ((s.enqueue (permitHome s ln) who (.agent ln bs)).slice (permitHome s ln)).queue = l1 ++ s.agentEnt who ln bs :: l2)
    (ht : QueueKept (permitHome s ln) (s.enqueue (permitHome s ln) who (.agent ln bs)) t) (hmem : t.mem = s.mem) :
    AccessWaits who ln bs s t where
  mem := hmem
  arrivals := ht.arrivals
  other j hj := (ht.other j hj).trans (State.slice_setSlice_other _ _ _ _ hj)
  queue := ⟨l1, l2, hold, ht.queue.trans hnew⟩
  listed e he := by
    rw [ht.queue]
    exact (ht.listed e he).elim State.mem_enqueue .inr

theorem State.lineAgent_cases {s : State} (hs : SeqsPast s) (who ln : Nat) (bs : List (Nat × Byte)) :
    AccessWaits who ln bs s (s.lineAgent who ln bs) ∨ AccessDone ln bs s (s.lineAgent who ln bs) := by
  obtain ⟨l1, l2, hold, hnew, hrun⟩ := State.lineAgent_turn hs who ln bs
  rw [hrun]
  have hent := congrArg (·[l1.length]?) hnew
  simp only [List.getElem?_append_right (le_refl _), Nat.sub_self, List.getElem?_cons_zero] at hent
  rcases State.tryAgent_cases hent rfl with ⟨hkept, hmem⟩ | ⟨hmem, u, hu, ht⟩
  · exact .inl (.of_queueKept hold hnew hkept hmem)
  · have hunq : ((u.unqueue (permitHome s ln) l1.length).slice (permitHome s ln)).queue = (s.slice (permitHome s ln)).queue := by
      rw [State.unqueue, State.slice_setSlice_same, hold]
      change (u.slice (permitHome s ln)).queue.eraseIdx _ = _
      rw [hu.queue, hnew, List.eraseIdx_append_of_length_le (le_refl _), Nat.sub_self, List.eraseIdx_cons_zero]
    refine .inr ⟨hmem, ht.arrivals.trans hu.arrivals, fun j hj => ?_, ht.queue.trans hunq, fun e he => ?_⟩
    · rw [ht.other j hj, State.unqueue, State.slice_setSlice_other _ _ _ _ hj, hu.other j hj]
      exact State.slice_setSlice_other _ _ _ _ hj
    · rcases ht.listed e he with he | he
      · rcases (hu.beside _ ((ListedBeside.self _ s.slices).put _ _)).mem_put he with rfl | he
        · exact .inr (by rw [← hunq, State.unqueue, State.slice_setSlice_same])
        · exact .inl he
      · exact .inr (he.trans hunq)

/-- An access of an agent waits behind its earlier ones (R109). -/
theorem State.lineAgent_waits {s : State} (hs : SeqsPast s) {who : Nat} (ln : Nat) (bs : List (Nat × Byte)) {j : Nat} {q : SliceEnt}
    (hq : q ∈ (s.slice j).queue) (hwho : q.who = who) {ln' : Nat} {bs' : List (Nat × Byte)} (hreq : q.req = .agent ln' bs') :
    AccessWaits who ln bs s (s.lineAgent who ln bs) := by
  obtain ⟨l1, l2, hold, hnew, hrun⟩ := State.lineAgent_turn hs who ln bs
  have hent := congrArg (·[l1.length]?) hnew
  simp only [List.getElem?_append_right (le_refl _), Nat.sub_self, List.getElem?_cons_zero] at hent
  have hstays : q ∈ ((s.enqueue (permitHome s ln) who (.agent ln bs)).slice j).queue := by
    by_cases hj : j = permitHome s ln
    · rw [hj, hold] at hq
      rw [hj, hnew]
      exact (List.mem_append.mp hq).elim (List.mem_append_left _) fun h => List.mem_append_right _ (List.mem_cons_of_mem _ h)
    · rwa [show (s.enqueue _ who _).slice j = s.slice j from State.slice_setSlice_other _ _ _ _ hj]
  have hlisted : ∃ e ∈ (s.enqueue (permitHome s ln) who (.agent ln bs)).slices, q ∈ e.2.queue := by
    rcases State.slice_listed (s.enqueue (permitHome s ln) who (.agent ln bs)) j with h | h
    · exact ⟨_, h, hstays⟩
    · rw [h] at hstays
      exact absurd hstays List.not_mem_nil
  obtain ⟨e, he, hqe⟩ := hlisted
  have hrefused : (s.enqueue (permitHome s ln) who (.agent ln bs)).tryAgent (permitHome s ln) l1.length =
      s.enqueue (permitHome s ln) who (.agent ln bs) := by
    unfold State.tryAgent
    simp only [hent]
    refine if_pos (List.any_eq_true.mpr ⟨e, he, List.any_eq_true.mpr ⟨q, hqe, ?_⟩⟩)
    have hseq : q.seq < s.arrivals := hs.slice j hq
    simp [State.agentEnt, hwho, hreq, hseq]
  rw [hrun, hrefused]
  exact .of_queueKept hold hnew (.refl _ _) rfl

end Sys2Proof.Machine
end

section
/-! SUPPORT. Memory as the device's units read it (R109, R381): a unit's write is read at once, whether it is performed or lined up. -/

namespace Sys2Proof.Machine

open Sys2Proof.Safety Sys2Proof.Claims

/-! ## Sorting by a number, the greatest first -/

/-- Entries by number, the greatest first. -/
abbrev descending {α : Type} (a b : Nat × α) : Bool := decide (b.1 ≤ a.1)

theorem findSome?_of_agree {α β : Type} {g : α → Option β} {L : List α} {b : β} (hall : ∀ w ∈ L, g w = none ∨ g w = some b)
    (hex : ∃ w ∈ L, g w = some b) : L.findSome? g = some b := by
  induction L with
  | nil => obtain ⟨w, hw, -⟩ := hex; exact absurd hw List.not_mem_nil
  | cons x L ih =>
    rw [List.findSome?_cons]
    rcases hall x List.mem_cons_self with hx | hx
    · rw [hx]
      refine ih (fun w hw => hall w (List.mem_cons_of_mem _ hw)) ?_
      obtain ⟨w, hw, hgw⟩ := hex
      rcases List.mem_cons.mp hw with rfl | hw
      · rw [hx] at hgw; cases hgw
      · exact ⟨w, hw, hgw⟩
    · rw [hx]

/-- Where a list holds two entries only, the one of the greater number is asked first. -/
theorem findSome?_sortBy_pair {α β : Type} {g : Nat × α → Option β} {es : List (Nat × α)} {w1 w2 : Nat × α} (h1 : w1 ∈ es) (h2 : w2 ∈ es)
    (hall : ∀ w ∈ es, w = w1 ∨ w = w2) (hlt : w1.1 < w2.1) : (sortBy descending es).findSome? g = (g w2).or (g w1) := by
  cases hg2 : g w2 with
  | some b =>
    cases hL : sortBy descending es with
    | nil => exact absurd (mem_sortBy (le := descending) |>.mpr h2) (hL ▸ List.not_mem_nil)
    | cons x L =>
      obtain ⟨hx, hhead⟩ := sortBy_head (le := descending) (fun a b => by simp only [descending, decide_eq_true_eq]; omega)
        (fun a b c => by simp only [descending, decide_eq_true_eq]; omega) hL
      have hle : w2.1 ≤ x.1 := of_decide_eq_true (hhead w2 h2)
      obtain rfl : x = w2 := (hall x hx).resolve_left fun h => by rw [h] at hle; omega
      rw [List.findSome?_cons, hg2]
      rfl
  | none =>
    cases hg1 : g w1 with
    | none => exact List.findSome?_eq_none_iff.mpr fun w hw => (hall w (mem_sortBy.mp hw)).elim (fun h => h ▸ hg1) fun h => h ▸ hg2
    | some b =>
      exact findSome?_of_agree (fun w hw => (hall w (mem_sortBy.mp hw)).elim (fun h => .inr (h ▸ hg1)) fun h => .inl (h ▸ hg2))
        ⟨w1, mem_sortBy.mpr h1, hg1⟩

theorem findSome?_sortBy_single {α β : Type} {g : Nat × α → Option β} {es : List (Nat × α)} {w : Nat × α} (hw : w ∈ es)
    (hall : ∀ x ∈ es, x = w) : (sortBy descending es).findSome? g = g w := by
  have hw := mem_sortBy (le := descending) |>.mpr hw
  have hall : ∀ x ∈ sortBy descending es, x = w := fun x hx => hall x (mem_sortBy.mp hx)
  cases hg : g w with
  | none => exact List.findSome?_eq_none_iff.mpr fun x hx => hall x hx ▸ hg
  | some b => exact findSome?_of_agree (fun x hx => .inr (hall x hx ▸ hg)) ⟨w, hw, hg⟩

/-! ## Bytes by address -/

/-- The byte that a list of addresses and bytes has at an address, if it has one. -/
def byteAt? (L : List (Nat × Byte)) (x : Nat) : Option Byte := (L.find? fun e => e.1 == x).map Prod.snd

/-- Bytes of a line by their addresses. -/
def lineBytes (ln : Nat) (bs : List (Nat × Byte)) : List (Nat × Byte) := bs.map fun b => (ln * 128 + b.1, b.2)

theorem read_writes (L : List (Nat × Byte)) (hL : (L.map Prod.fst).Nodup) (mem : List Host.Cell) (x : Nat) :
    Memory.read (L.foldl (fun mem e => Memory.write mem e.1 e.2) mem) x = (byteAt? L x).getD (Memory.read mem x) := by
  induction L generalizing mem with
  | nil => rfl
  | cons e L ih =>
    obtain ⟨he, hL⟩ := List.nodup_cons.mp hL
    rw [List.foldl_cons, ih hL]
    by_cases hx : e.1 = x
    · have hnone : byteAt? L x = none := by
        rw [byteAt?, Option.map_eq_none_iff, List.find?_eq_none]
        exact fun y hy h => he (hx ▸ (beq_iff_eq.mp h) ▸ List.mem_map_of_mem hy)
      rw [hnone, ← hx, Option.getD_none, Memory.read_write_same, byteAt?, List.find?_cons_of_pos (by simp)]
      rfl
    · rw [Memory.read_write_other _ _ _ _ (Ne.symm hx), byteAt?, byteAt?, List.find?_cons_of_neg (by simpa using hx)]

theorem read_lineStored {ln : Nat} {bs : List (Nat × Byte)} (hbs : (bs.map Prod.fst).Nodup) (mem : List Host.Cell) (x : Nat) :
    Memory.read (lineStored mem ln bs) x = (byteAt? (lineBytes ln bs) x).getD (Memory.read mem x) := by
  rw [← read_writes _ ?_ mem x, lineStored, lineBytes, List.foldl_map]
  rw [lineBytes, List.map_map]
  exact (List.map_map (f := Prod.fst) (g := fun n => ln * 128 + n) (l := bs)) ▸ hbs.map fun a b h => by simpa using h

theorem byteAt?_append (A B : List (Nat × Byte)) (x : Nat) : byteAt? (A ++ B) x = (byteAt? A x).or (byteAt? B x) := by
  unfold byteAt?
  rw [List.find?_append]
  cases A.find? fun e => e.1 == x <;> rfl

theorem byteAt?_flatMap {α : Type} (f : α → List (Nat × Byte)) (L : List α) (x : Nat) :
    byteAt? (L.flatMap f) x = L.findSome? fun w => byteAt? (f w) x := by
  induction L with
  | nil => rfl
  | cons w L ih =>
    rw [List.flatMap_cons, byteAt?_append, ih, List.findSome?_cons]
    cases byteAt? (f w) x <;> rfl

/-! ## The writes of the device's units -/

/-- A lined-up write of a unit, as its number and its bytes by address. -/
def unitWrite (q : SliceEnt) : Option (Nat × List (Nat × Byte)) :=
  match q.req with
  | .agent ln bs => if q.who = reqSteward then some (q.seq, lineBytes ln bs) else none
  | _ => none

def State.unitWrites (s : State) : List (Nat × List (Nat × Byte)) := s.slices.flatMap fun x => x.2.queue.filterMap unitWrite

theorem State.agentQueue_eq (s : State) : s.agentQueue = (sortBy descending s.unitWrites).flatMap fun e => e.2 := rfl

theorem State.rdByte_eq (s : State) (a : Nat) :
    s.rdByte a = ((sortBy descending s.unitWrites).findSome? fun w => byteAt? w.2 (canonPA a)).getD (s.memByte a) := by
  rw [← byteAt?_flatMap, ← State.agentQueue_eq, byteAt?, State.rdByte, agentByte]
  cases s.agentQueue.find? fun e => e.1 == canonPA a <;> rfl

theorem unitWrite_of_who {q : SliceEnt} (h : q.who ≠ reqSteward) : unitWrite q = none := by
  unfold unitWrite
  split
  · rw [if_neg h]
  · rfl

theorem State.mem_unitWrites {s : State} {w : Nat × List (Nat × Byte)} :
    w ∈ s.unitWrites ↔ ∃ e ∈ s.slices, ∃ q ∈ e.2.queue, unitWrite q = some w := by
  simp only [State.unitWrites, List.mem_flatMap, List.mem_filterMap]

theorem State.unitWrite_listed {s : State} {k : Nat} {q : SliceEnt} (hq : q ∈ (s.slice k).queue) {w : Nat × List (Nat × Byte)}
    (hw : unitWrite q = some w) : w ∈ s.unitWrites := by
  refine State.mem_unitWrites.mpr ?_
  rcases s.slice_listed k with h | h
  · exact ⟨_, h, q, hq, hw⟩
  · rw [h] at hq
    exact absurd hq List.not_mem_nil

/-- The write of a unit to a line that is lined up now. -/
def State.unitWriteNow (s : State) (ln : Nat) (bs : List (Nat × Byte)) : Nat × List (Nat × Byte) := (s.arrivals, lineBytes ln bs)

theorem unitWrite_agentEnt (s : State) (ln : Nat) (bs : List (Nat × Byte)) :
    unitWrite (s.agentEnt reqSteward ln bs) = some (s.unitWriteNow ln bs) := by
  simp [unitWrite, State.agentEnt, State.unitWriteNow]

/-! ## No unit's write lined up -/

theorem seqsPast_of_noUnitWrites {s : State} (h : NoUnitWrites s) : SeqsPast s := fun e he q hq => (h e he q hq).2

theorem NoUnitWrites_slice {s : State} (h : NoUnitWrites s) {k : Nat} {q : SliceEnt} (hq : q ∈ (s.slice k).queue) : q.who ≠ reqSteward := by
  rcases s.slice_listed k with hk | hk
  · exact (h _ hk q hq).1
  · rw [hk] at hq
    exact absurd hq List.not_mem_nil

theorem State.unitWrites_of_none {s : State} (h : NoUnitWrites s) : s.unitWrites = [] := by
  refine List.eq_nil_iff_forall_not_mem.mpr fun w hw => ?_
  obtain ⟨e, he, q, hq, hw⟩ := State.mem_unitWrites.mp hw
  rw [unitWrite_of_who (h e he q hq).1] at hw
  cases hw

theorem State.rdByte_of_none {s : State} (h : NoUnitWrites s) (a : Nat) : s.rdByte a = s.memByte a := by
  rw [State.rdByte_eq, State.unitWrites_of_none h]
  rfl

section
variable {who ln : Nat} {bs : List (Nat × Byte)} {s t : State}

/-- The queue behind which an access waits: what stood there before, and the access. -/
theorem AccessWaits.mem_queue (h : AccessWaits who ln bs s t) {q : SliceEnt} (hq : q ∈ (t.slice (permitHome s ln)).queue) :
    q ∈ (s.slice (permitHome s ln)).queue ∨ q = s.agentEnt who ln bs := by
  obtain ⟨l1, l2, hold, hnew⟩ := h.queue
  rw [hnew, List.mem_append, List.mem_cons] at hq
  rw [hold, List.mem_append]
  tauto

theorem AccessWaits.stands (h : AccessWaits who ln bs s t) : s.agentEnt who ln bs ∈ (t.slice (permitHome s ln)).queue := by
  obtain ⟨l1, l2, -, hnew⟩ := h.queue
  rw [hnew]
  exact List.mem_append_right _ List.mem_cons_self

theorem AccessWaits.keeps (h : AccessWaits who ln bs s t) {k : Nat} {q : SliceEnt} (hq : q ∈ (s.slice k).queue) : q ∈ (t.slice k).queue := by
  by_cases hk : k = permitHome s ln
  · obtain ⟨l1, l2, hold, hnew⟩ := h.queue
    rw [hk, hold, List.mem_append] at hq
    rw [hk, hnew, List.mem_append, List.mem_cons]
    tauto
  · rwa [h.other k hk]

theorem AccessWaits.listed_queue (h : AccessWaits who ln bs s t) {e : Nat × Slice} (he : e ∈ t.slices) {q : SliceEnt} (hq : q ∈ e.2.queue) :
    e ∈ s.slices ∨ q ∈ (s.slice (permitHome s ln)).queue ∨ q = s.agentEnt who ln bs := by
  rcases h.listed e he with he | he
  · exact .inl he
  · exact .inr (h.mem_queue (he ▸ hq))

theorem AccessWaits.seqsPast (h : AccessWaits who ln bs s t) (hs : SeqsPast s) : SeqsPast t := fun e he q hq => by
  rw [h.arrivals]
  rcases h.listed_queue he hq with he | hq | rfl
  · exact Nat.lt_succ_of_lt (hs e he q hq)
  · exact Nat.lt_succ_of_lt (hs.slice _ hq)
  · exact Nat.lt_succ_self _

theorem AccessDone.seqsPast (h : AccessDone ln bs s t) (hs : SeqsPast s) : SeqsPast t := fun e he q hq => by
  rw [h.arrivals]
  rcases h.listed e he with he | he
  · exact Nat.lt_succ_of_lt (hs e he q hq)
  · exact Nat.lt_succ_of_lt (hs.slice _ (he ▸ hq))

theorem AccessDone.noUnitWrites (h : AccessDone ln bs s t) (hs : NoUnitWrites s) : NoUnitWrites t := fun e he q hq =>
  ⟨(h.listed e he).elim (fun he => (hs e he q hq).1) fun he => NoUnitWrites_slice hs (he ▸ hq),
    h.seqsPast (seqsPast_of_noUnitWrites hs) e he q hq⟩

/-- One write of a unit is lined up, and it is `w`. -/
structure OneUnitWrite (w : Nat × List (Nat × Byte)) (s : State) : Prop where
  seqs : SeqsPast s
  only : ∀ x ∈ s.unitWrites, x = w
  stands : ∃ k q ln bs, q ∈ (s.slice k).queue ∧ q.who = reqSteward ∧ q.req = .agent ln bs ∧ unitWrite q = some w
  past : w.1 < s.arrivals

theorem OneUnitWrite.rdByte {w : Nat × List (Nat × Byte)} (h : OneUnitWrite w s) (a : Nat) :
    s.rdByte a = (byteAt? w.2 (canonPA a)).getD (s.memByte a) := by
  obtain ⟨k, q, _, _, hq, -, -, hw⟩ := h.stands
  rw [State.rdByte_eq, findSome?_sortBy_single (State.unitWrite_listed hq hw) h.only]

theorem AccessWaits.oneUnitWrite (h : AccessWaits reqSteward ln bs s t) (hs : NoUnitWrites s) : OneUnitWrite (s.unitWriteNow ln bs) t where
  seqs := h.seqsPast (seqsPast_of_noUnitWrites hs)
  only x hx := by
    obtain ⟨e, he, q, hq, hw⟩ := State.mem_unitWrites.mp hx
    rcases h.listed_queue he hq with he | hq | rfl
    · rw [unitWrite_of_who (hs e he q hq).1] at hw; cases hw
    · rw [unitWrite_of_who (NoUnitWrites_slice hs hq)] at hw; cases hw
    · rw [unitWrite_agentEnt] at hw
      exact (Option.some.inj hw).symm
  stands := ⟨_, _, ln, bs, h.stands, rfl, rfl, unitWrite_agentEnt s ln bs⟩
  past := h.arrivals ▸ Nat.lt_succ_self _

/-- What the units read after a write of theirs to a line: the bytes written, and elsewhere what they read before. -/
def UnitReads (ln : Nat) (bs : List (Nat × Byte)) (s t : State) : Prop :=
  ∀ a, t.rdByte a = (byteAt? (lineBytes ln bs) (canonPA a)).getD (s.rdByte a)

/-- The first of a unit's writes is read at once (R381). -/
theorem State.unitLine_first (hs : NoUnitWrites s) (ln : Nat) (hbs : (bs.map Prod.fst).Nodup) :
    let t := s.lineAgent reqSteward ln bs
    (NoUnitWrites t ∨ ∃ w, OneUnitWrite w t) ∧ UnitReads ln bs s t := by
  rcases State.lineAgent_cases (seqsPast_of_noUnitWrites hs) reqSteward ln bs with h | h
  · have hone := h.oneUnitWrite hs
    refine ⟨.inr ⟨_, hone⟩, fun a => ?_⟩
    rw [hone.rdByte, State.rdByte_of_none hs, State.memByte, h.mem]
    rfl
  · refine ⟨.inl (h.noUnitWrites hs), fun a => ?_⟩
    rw [State.rdByte_of_none (h.noUnitWrites hs), State.rdByte_of_none hs, State.memByte, h.mem, read_lineStored hbs]
    rfl

/-- A unit's write behind one that is lined up waits, and is read before it. -/
theorem OneUnitWrite.unitLine {w : Nat × List (Nat × Byte)} (hs : OneUnitWrite w s) (ln : Nat) (bs : List (Nat × Byte)) :
    UnitReads ln bs s (s.lineAgent reqSteward ln bs) := by
  intro a
  obtain ⟨k, q, _, _, hq, hwho, hreq, hw⟩ := hs.stands
  have h := State.lineAgent_waits hs.seqs ln bs hq hwho hreq
  have hall : ∀ x ∈ (s.lineAgent reqSteward ln bs).unitWrites, x = w ∨ x = s.unitWriteNow ln bs := fun x hx => by
    obtain ⟨e, he, p, hp, hx⟩ := State.mem_unitWrites.mp hx
    rcases h.listed_queue he hp with he | hp | rfl
    · exact .inl (hs.only x (State.mem_unitWrites.mpr ⟨e, he, p, hp, hx⟩))
    · exact .inl (hs.only x (State.unitWrite_listed hp hx))
    · rw [unitWrite_agentEnt] at hx
      exact .inr (Option.some.inj hx).symm
  rw [State.rdByte_eq, findSome?_sortBy_pair (State.unitWrite_listed (h.keeps hq) hw)
    (State.unitWrite_listed h.stands (unitWrite_agentEnt s ln bs)) hall hs.past, hs.rdByte, State.memByte, h.mem]
  cases hnew : byteAt? (s.unitWriteNow ln bs).2 (canonPA a) <;> rw [show byteAt? (lineBytes ln bs) (canonPA a) = _ from hnew] <;> rfl

/-- The second of two writes of units is read at once too. -/
theorem State.unitLine_second (hs : NoUnitWrites s ∨ ∃ w, OneUnitWrite w s) (ln : Nat) (hbs : (bs.map Prod.fst).Nodup) :
    UnitReads ln bs s (s.lineAgent reqSteward ln bs) := by
  rcases hs with hs | ⟨w, hs⟩
  · exact (State.unitLine_first hs ln hbs).2
  · exact hs.unitLine ln bs

end

/-! ## A unit's write of a block in one line -/

/-- The canonical addresses of a page's bytes follow each other (R79). -/
theorem canonPA_add {pa i : Nat} (h : pa % 4096 + i < 4096) : canonPA (pa + i) = canonPA pa + i := by
  unfold canonPA
  dsimp only [hbmDie]
  split <;> split <;> omega

theorem canonPA_mod (pa : Nat) : canonPA pa % 4096 = pa % 4096 := by
  unfold canonPA
  dsimp only [hbmDie]
  split <;> omega

theorem dedup_replicate {α : Type} [DecidableEq α] (x : α) (n : Nat) : dedup (List.replicate (n + 1) x) = [x] := by
  induction n with
  | zero => rfl
  | succ n ih => rw [List.replicate_succ, dedup, ih]; simp

/-- Bytes by address from a base. -/
def blockBytes (base : Nat) (bs : List Byte) : List (Nat × Byte) := bs.zipIdx.map fun e => (base + e.2, e.1)

theorem byteAt?_blockBytes (base : Nat) (bs : List Byte) (x : Nat) :
    byteAt? (blockBytes base bs) x = if base ≤ x then bs[x - base]? else none := by
  have from_ (n : Nat) : byteAt? ((bs.zipIdx n).map fun e => (base + e.2, e.1)) x = if base + n ≤ x then bs[x - (base + n)]? else none := by
    induction bs generalizing n with
    | nil => simp [byteAt?]
    | cons b bs ih =>
      rw [List.zipIdx_cons, List.map_cons, byteAt?]
      by_cases hx : base + n = x
      · rw [List.find?_cons_of_pos (by simpa using hx)]
        simp [hx]
      · rw [List.find?_cons_of_neg (by simpa using hx)]
        refine (ih (n + 1)).trans ?_
        by_cases hle : base + n ≤ x
        · rw [if_pos (by omega), if_pos hle, show x - (base + n) = x - (base + (n + 1)) + 1 by omega, List.getElem?_cons_succ]
        · rw [if_neg (by omega), if_neg hle]
  exact from_ 0

/-- What the units read after a write of theirs to a block: its bytes in the block, and elsewhere what they read before. -/
structure BlockReads (pa : Nat) (bs : List Byte) (s t : State) : Prop where
  within : ∀ i b, bs[i]? = some b → t.rdByte (pa + i) = b
  outside : ∀ a, (∀ i, i < bs.length → canonPA a ≠ canonPA (pa + i)) → t.rdByte a = s.rdByte a

section
variable {pa : Nat} {bs : List Byte} (hfit : pa % 128 + bs.length ≤ 128)
include hfit

theorem lineOf_block {i : Nat} (hi : i < bs.length) : lineOf (canonPA (pa + i)) = lineOf (canonPA pa) := by
  have hmod := canonPA_mod pa
  rw [canonPA_add (by omega), lineOf, lineOf]
  omega

theorem lineBytes_linePart : lineBytes (lineOf (canonPA pa)) (linePart pa bs (lineOf (canonPA pa))) = blockBytes (canonPA pa) bs := by
  rw [lineBytes, linePart, List.map_filterMap, blockBytes, ← List.filterMap_eq_map]
  refine List.filterMap_congr fun e he => ?_
  have hi : e.2 < bs.length := by
    have := List.mem_zipIdx' he
    exact this.1
  have hline := lineOf_block hfit hi
  have hadd : canonPA (pa + e.2) = canonPA pa + e.2 := canonPA_add (by omega)
  simp only [hline, if_true, Option.map_some, Function.comp_apply, Option.some.injEq, Prod.mk.injEq, and_true]
  rw [← hadd, ← hline, lineOf]
  omega

theorem linePart_nodup : ((linePart pa bs (lineOf (canonPA pa))).map Prod.fst).Nodup := by
  have hkeys : ((blockBytes (canonPA pa) bs).map Prod.fst).Nodup := by
    rw [blockBytes, List.map_map]
    have h : (bs.zipIdx.map Prod.snd).Nodup := by rw [List.zipIdx_map_snd]; exact List.nodup_range'
    exact (List.map_map (f := Prod.snd) (g := fun n => canonPA pa + n) (l := bs.zipIdx)) ▸ h.map fun a b h => by simpa using h
  rw [← lineBytes_linePart hfit, lineBytes, List.map_map] at hkeys
  exact (List.map_map (f := Prod.fst) (g := fun n => lineOf (canonPA pa) * 128 + n) ▸ hkeys).of_map _

theorem State.agentWrite_block (hne : bs ≠ []) (s : State) :
    s.agentWrite pa bs = s.lineAgent reqSteward (lineOf (canonPA pa)) (linePart pa bs (lineOf (canonPA pa))) := by
  have hlines : dedup ((List.range bs.length).map fun i => lineOf (canonPA (pa + i))) = [lineOf (canonPA pa)] := by
    obtain ⟨n, hn⟩ := Nat.exists_eq_succ_of_ne_zero (fun h => hne (List.eq_nil_of_length_eq_zero h))
    rw [← dedup_replicate _ n, hn]
    congr 1
    refine List.eq_replicate_iff.mpr ⟨by simp, fun x hx => ?_⟩
    obtain ⟨i, hi, rfl⟩ := List.mem_map.mp hx
    exact lineOf_block hfit (by rw [hn]; exact List.mem_range.mp hi)
  rw [State.agentWrite, State.lineWrite, hlines]
  rfl

theorem UnitReads.block {s t : State} (h : UnitReads (lineOf (canonPA pa)) (linePart pa bs (lineOf (canonPA pa))) s t) : BlockReads pa bs s t := by
  have hread (a : Nat) := lineBytes_linePart hfit ▸ h a
  simp only [byteAt?_blockBytes] at hread
  refine ⟨fun i b hb => ?_, fun a ha => ?_⟩
  · have hi : i < bs.length := (List.getElem?_eq_some_iff.mp hb).1
    rw [hread, canonPA_add (by omega), if_pos (by omega), Nat.add_sub_cancel_left, hb, Option.getD_some]
  · rw [hread]
    split
    · next hle =>
      have hpast : bs.length ≤ canonPA a - canonPA pa := by
        by_contra hi
        exact ha _ (Nat.not_le.mp hi) (by rw [canonPA_add (by omega)]; omega)
      rw [List.getElem?_eq_none hpast, Option.getD_none]
    · rfl

/-- A unit's write of a block is read at once, the first and the second too (R381). -/
theorem State.agentWrite_first {s : State} (hs : NoUnitWrites s) (hne : bs ≠ []) :
    (NoUnitWrites (s.agentWrite pa bs) ∨ ∃ w, OneUnitWrite w (s.agentWrite pa bs)) ∧ BlockReads pa bs s (s.agentWrite pa bs) := by
  rw [State.agentWrite_block hfit hne]
  exact (State.unitLine_first hs _ (linePart_nodup hfit)).imp_right fun h => UnitReads.block hfit h

theorem State.agentWrite_second {s : State} (hs : NoUnitWrites s ∨ ∃ w, OneUnitWrite w s) (hne : bs ≠ []) :
    BlockReads pa bs s (s.agentWrite pa bs) := by
  rw [State.agentWrite_block hfit hne]
  exact UnitReads.block hfit (State.unitLine_second hs _ (linePart_nodup hfit))

end

end Sys2Proof.Machine
end

section
/-! SUPPORT. Numbers in memory as the device's units read them, and the fault record area (R380, R381, R384). -/

namespace Sys2Proof.Machine

open Sys2Proof.Safety Sys2Proof.Claims

/-! ## Numbers of bytes -/

theorem leNat_natLe (n v : Nat) : leNat (natLe n v) = v % 256 ^ n := by
  induction n generalizing v with
  | zero => rw [natLe, leNat, Nat.pow_zero, Nat.mod_one]
  | succ n ih =>
    rw [natLe, leNat, ih, BitVec.toNat_ofNat, Nat.pow_succ' (m := 256)]
    exact (Nat.mod_mul (x := v) (a := 256) (b := 256 ^ n)).symm

theorem leNat_natLe_four (v : Nat) : leNat (natLe 4 v) = v % 2 ^ 32 := leNat_natLe 4 v

theorem leNat_append (a b : List Byte) : leNat (a ++ b) = leNat a + 256 ^ a.length * leNat b := by
  induction a with
  | nil => simp [leNat]
  | cons x a ih => rw [List.cons_append, leNat, leNat, ih, List.length_cons, Nat.pow_succ']; ring

theorem leNat_lt (a : List Byte) : leNat a < 256 ^ a.length := by
  induction a with
  | nil => simp [leNat]
  | cons x a ih =>
    have := x.isLt
    rw [leNat, List.length_cons, Nat.pow_succ']
    omega

theorem State.rdNat_eq (s : State) (pa n : Nat) : s.rdNat pa n = leNat ((List.range n).map fun i => s.rdByte (pa + i)) := rfl

theorem State.rdNat_congr {s t : State} {pa n : Nat} (h : ∀ i, i < n → t.rdByte (pa + i) = s.rdByte (pa + i)) : t.rdNat pa n = s.rdNat pa n := by
  rw [State.rdNat_eq, State.rdNat_eq, List.map_congr_left fun i hi => h i (List.mem_range.mp hi)]

/-- The low half of a word of 64 bits is its first four bytes. -/
theorem State.rdNat_low (s : State) (pa : Nat) : field (s.rdNat pa 8) 0 32 = s.rdNat pa 4 := by
  have hlow := leNat_lt ((List.range 4).map fun i => s.rdByte (pa + i))
  rw [State.rdNat_eq, State.rdNat_eq, show List.range 8 = List.range 4 ++ (List.range 4).map (4 + ·) from rfl, List.map_append, leNat_append]
  simp only [List.length_map, List.length_range] at hlow ⊢
  simp only [field]
  omega

/-- A number within a block that a unit wrote is the one of the bytes written there. -/
theorem BlockReads.rdNat {pa : Nat} {bs : List Byte} {s t : State} (h : BlockReads pa bs s t) {j n : Nat} (hn : j + n ≤ bs.length) :
    t.rdNat (pa + j) n = leNat ((bs.drop j).take n) := by
  rw [State.rdNat_eq]
  congr 1
  refine List.ext_getElem? fun i => ?_
  by_cases hi : i < n
  · have hb : bs[j + i]? = some (bs[j + i]'(by omega)) := List.getElem?_eq_getElem (by omega)
    rw [List.getElem?_take_of_lt hi, List.getElem?_drop, hb, List.getElem?_map, List.getElem?_range hi, Option.map_some, Nat.add_assoc,
      h.within _ _ hb]
  · rw [List.getElem?_eq_none (by simpa using hi), List.getElem?_eq_none (by simp; omega)]

theorem BlockReads.rdNat_outside {pa : Nat} {bs : List Byte} {s t : State} (h : BlockReads pa bs s t) {p n : Nat}
    (hout : ∀ i j, i < n → j < bs.length → canonPA (p + i) ≠ canonPA (pa + j)) : t.rdNat p n = s.rdNat p n :=
  State.rdNat_congr fun i hi => h.outside _ fun j hj => hout i j hi hj

/-! ## The words of a record -/

/-- The bytes of words of 64 bits. -/
def wordBytes (ws : List DWord) : List Byte := ws.flatMap fun w => natLe 8 w.toNat

theorem wordBytes_length (ws : List DWord) : (wordBytes ws).length = 8 * ws.length := by
  induction ws with
  | nil => rfl
  | cons w ws ih => rw [wordBytes, List.flatMap_cons, List.length_append, natLe_length, ← wordBytes, ih, List.length_cons]; omega

theorem wordBytes_word {ws : List DWord} {k : Nat} {w : DWord} (h : ws[k]? = some w) : ((wordBytes ws).drop (8 * k)).take 8 = natLe 8 w.toNat := by
  induction ws generalizing k with
  | nil => simp at h
  | cons x ws ih =>
    rw [wordBytes, List.flatMap_cons]
    cases k with
    | zero =>
      obtain rfl : x = w := by simpa using h
      exact List.take_left' (natLe_length _ _)
    | succ k =>
      rw [show 8 * (k + 1) = (natLe 8 x.toNat).length + 8 * k by rw [natLe_length]; omega, ← List.drop_drop, List.drop_left]
      exact ih (by simpa using h)

theorem BlockReads.word {pa : Nat} {ws : List DWord} {s t : State} (h : BlockReads pa (wordBytes ws) s t) {k : Nat} {w : DWord}
    (hw : ws[k]? = some w) : t.rdNat (pa + 8 * k) 8 = w.toNat := by
  have hk : k < ws.length := (List.getElem?_eq_some_iff.mp hw).1
  rw [h.rdNat (by rw [wordBytes_length]; omega), wordBytes_word hw, leNat_natLe]
  exact Nat.mod_eq_of_lt w.isLt

/-! ## A record in the area (R380, R381) -/

/-- Word 1 of a fault record (R380). -/
def recordWord1 (cls : Cls) (parked ends : Bool) (src fid : Nat) : Nat :=
  cls.code * 2 ^ 56 + bit01 parked * 2 ^ 51 + bit01 ends * 2 ^ 50 + src * 2 ^ 32 + fid

theorem Cls.code_lt (c : Cls) : c.code < 2 ^ 8 := by cases c <;> decide

theorem bit01_le (b : Bool) : bit01 b ≤ 1 := by cases b <;> decide

theorem recordWord1_fields {cls : Cls} {parked ends : Bool} {src fid : Nat} (hsrc : src < 2 ^ 16) (hfid : fid < 2 ^ 32) :
    let w := (w64 (recordWord1 cls parked ends src fid)).toNat
    field w 56 8 = cls.code ∧ field w 51 1 = bit01 parked ∧ field w 50 1 = bit01 ends ∧ field w 32 16 = src ∧ field w 0 32 = fid := by
  have hc := cls.code_lt
  have hp := bit01_le parked
  have he := bit01_le ends
  have hw : (w64 (recordWord1 cls parked ends src fid)).toNat = recordWord1 cls parked ends src fid := by
    rw [w64, BitVec.toNat_ofNat, Nat.mod_eq_of_lt]
    unfold recordWord1
    omega
  dsimp only
  rw [hw]
  simp only [field, recordWord1]
  omega

theorem State.flog_aligned (s : State) (asid : Nat) : s.flog asid % 64 = 0 := Nat.mul_mod_left _ _

/-- The place in an ASID's area that its next record takes (R381). -/
def recordPlace (s : State) (f : Nat) : Nat := f + 64 + 64 * (wrAt s f % slotsAt s f)

/-- The area has no room. -/
def areaFull (s : State) (f : Nat) : Prop := (wrAt s f + 2 ^ 32 - rdAt s f) % 2 ^ 32 = slotsAt s f

theorem wrAt_eq (s : State) (f : Nat) : wrAt s f = s.rdNat (f + 8) 4 := State.rdNat_low _ _
theorem rdAt_eq (s : State) (f : Nat) : rdAt s f = s.rdNat (f + 16) 4 := State.rdNat_low _ _
theorem lostAt_eq (s : State) (f : Nat) : lostAt s f = s.rdNat (f + 24) 4 := State.rdNat_low _ _

theorem State.writeRecord_full {s : State} {asid : Nat} (hv : s.ctxValid asid = true) (ws : List DWord) (hfull : areaFull s (s.flog asid)) :
    s.writeRecord asid ws = s.agentWrite (s.flog asid + 24) (natLe 4 (lostAt s (s.flog asid) + 1)) := by
  unfold State.writeRecord
  rw [if_neg (by simp [hv])]
  exact if_pos hfull

theorem State.writeRecord_room {s : State} {asid : Nat} (hv : s.ctxValid asid = true) (ws : List DWord) (hroom : ¬ areaFull s (s.flog asid)) :
    s.writeRecord asid ws =
      (s.agentWrite (s.flog asid + 8) (natLe 4 (wrAt s (s.flog asid) + 1))).agentWrite (recordPlace s (s.flog asid)) (wordBytes ws) := by
  unfold State.writeRecord
  rw [if_neg (by simp [hv])]
  exact if_neg hroom

/-- The head words of an area do not overlap: its bytes have canonical addresses that follow each other. -/
theorem flog_bytes (s : State) (asid : Nat) {i j : Nat} (hi : i < 64) (hj : j < 64) (h : i ≠ j) : canonPA (s.flog asid + i) ≠ canonPA (s.flog asid + j) := by
  have := s.flog_aligned asid
  rw [canonPA_add (by omega), canonPA_add (by omega)]
  omega

section
variable {s : State} {asid : Nat} {ws : List DWord} (hs : NoUnitWrites s) (hv : s.ctxValid asid = true)
include hs hv

/-- Without room the record is counted in LOST, and nothing else is written (R381). -/
theorem State.writeRecord_lost (hfull : areaFull s (s.flog asid)) :
    BlockReads (s.flog asid + 24) (natLe 4 (lostAt s (s.flog asid) + 1)) s (s.writeRecord asid ws) := by
  have := s.flog_aligned asid
  rw [State.writeRecord_full hv ws hfull]
  exact (State.agentWrite_first (by rw [natLe_length]; omega) hs (by simp [natLe])).2

/-- With room WR moves on, and then the record is written at its place (R381). -/
theorem State.writeRecord_placed (hws : ws.length = 8) (hroom : ¬ areaFull s (s.flog asid)) :
    ∃ t, BlockReads (s.flog asid + 8) (natLe 4 (wrAt s (s.flog asid) + 1)) s t ∧
      BlockReads (recordPlace s (s.flog asid)) (wordBytes ws) t (s.writeRecord asid ws) := by
  have hf := s.flog_aligned asid
  have hplace : recordPlace s (s.flog asid) % 64 = 0 := by unfold recordPlace; omega
  have hlen : (wordBytes ws).length = 64 := by rw [wordBytes_length, hws]
  have hone := State.agentWrite_first (pa := s.flog asid + 8) (bs := natLe 4 (wrAt s (s.flog asid) + 1)) (by rw [natLe_length]; omega) hs
    (by simp [natLe])
  rw [State.writeRecord_room hv ws hroom]
  refine ⟨_, hone.2, State.agentWrite_second (by omega) hone.1 fun h => ?_⟩
  rw [h] at hlen
  cases hlen

/-- What a record without room leaves: LOST one greater, and every other byte as it was. -/
theorem State.writeRecord_lost_words (hfull : areaFull s (s.flog asid)) :
    lostAt (s.writeRecord asid ws) (s.flog asid) = (lostAt s (s.flog asid) + 1) % 2 ^ 32 ∧
    ∀ a, (∀ i, i < 4 → canonPA a ≠ canonPA (s.flog asid + 24 + i)) → (s.writeRecord asid ws).rdByte a = s.rdByte a := by
  have h := State.writeRecord_lost hs hv (ws := ws) hfull
  refine ⟨?_, fun a ha => h.outside a fun i hi => ha i (by rwa [natLe_length] at hi)⟩
  rw [lostAt_eq, ← Nat.add_zero (s.flog asid + 24), h.rdNat (by rw [natLe_length]), List.drop_zero, List.take_of_length_le (by rw [natLe_length]),
    leNat_natLe_four]

/-- What a record with room leaves: WR one greater, the record at its place, and every other byte as it was. -/
theorem State.writeRecord_placed_words (hws : ws.length = 8) (hroom : ¬ areaFull s (s.flog asid))
    (hapart : ∀ i j, i < 64 → j < 64 → canonPA (s.flog asid + i) ≠ canonPA (recordPlace s (s.flog asid) + j)) :
    let f := s.flog asid
    let u := s.writeRecord asid ws
    wrAt u f = (wrAt s f + 1) % 2 ^ 32 ∧ lostAt u f = lostAt s f ∧ rdAt u f = rdAt s f ∧ slotsAt u f = slotsAt s f ∧
    (∀ k w, ws[k]? = some w → u.rdNat (recordPlace s f + 8 * k) 8 = w.toNat) ∧
    (∀ a, (∀ i, i < 4 → canonPA a ≠ canonPA (f + 8 + i)) → (∀ i, i < 64 → canonPA a ≠ canonPA (recordPlace s f + i)) →
      u.rdByte a = s.rdByte a) := by
  intro f u
  obtain ⟨t, hwr, hrec⟩ := State.writeRecord_placed hs hv hws hroom
  have hlen : (wordBytes ws).length = 64 := by rw [wordBytes_length, hws]
  have outside {p n : Nat} (hp : p + n ≤ 64) (hn : p + n ≤ 8 ∨ 12 ≤ p) : u.rdNat (f + p) n = s.rdNat (f + p) n := by
    rw [hrec.rdNat_outside fun i j hi hj => ?_, hwr.rdNat_outside fun i j hi hj => ?_]
    · rw [natLe_length] at hj
      rw [Nat.add_assoc, Nat.add_assoc]
      exact flog_bytes s asid (by omega) (by omega) (by omega)
    · rw [Nat.add_assoc]
      exact hapart _ _ (by omega) (by omega)
  refine ⟨?_, ?_, ?_, ?_, fun k w hw => hrec.word hw, fun a ha1 ha2 => ?_⟩
  · rw [wrAt_eq, hrec.rdNat_outside fun i j hi hj => by rw [Nat.add_assoc]; exact hapart _ _ (by omega) (by omega), ← Nat.add_zero (f + 8),
      hwr.rdNat (by rw [natLe_length]), List.drop_zero, List.take_of_length_le (by rw [natLe_length]), leNat_natLe_four]
  · rw [lostAt_eq, lostAt_eq, outside (by omega) (by omega)]
  · rw [rdAt_eq, rdAt_eq, outside (by omega) (by omega)]
  · rw [slotsAt, slotsAt, ← Nat.add_zero f, outside (by omega) (by omega)]
  · rw [hrec.outside a fun i hi => ha2 i (by omega), hwr.outside a fun i hi => ha1 i (by rwa [natLe_length] at hi)]

end

/-! ## The record under the next FID of its region -/

@[simp] theorem State.takeFid_rdByte (s : State) (r? : Option Region) (a : Nat) : (s.takeFid r?).2.rdByte a = s.rdByte a := by cases r? <;> rfl

@[simp] theorem State.takeFid_rdNat (s : State) (r? : Option Region) (pa n : Nat) : (s.takeFid r?).2.rdNat pa n = s.rdNat pa n := by
  cases r? <;> rfl

@[simp] theorem State.takeFid_flog (s : State) (r? : Option Region) (asid : Nat) : (s.takeFid r?).2.flog asid = s.flog asid := by
  cases r? <;> rfl

@[simp] theorem State.takeFid_ctxValid (s : State) (r? : Option Region) (asid : Nat) : (s.takeFid r?).2.ctxValid asid = s.ctxValid asid := by
  cases r? <;> rfl

theorem NoUnitWrites.takeFid {s : State} (h : NoUnitWrites s) (r? : Option Region) : NoUnitWrites (s.takeFid r?).2 := by
  cases r? <;> exact h

/-- The words of a record of a region or of none. -/
def recordWords (stamp : Nat) (cls : Cls) (parked ends : Bool) (src fid : Nat) (tail : List DWord) : List DWord :=
  [w64 stamp, w64 (recordWord1 cls parked ends src fid)] ++ tail

theorem State.recordFor_eq (s : State) (r? : Option Region) (asid src stamp : Nat) (cls : Cls) (parked ends : Bool) (tail : List DWord) :
    s.recordFor r? asid src stamp cls parked ends tail =
      ((s.takeFid r?).1, (s.takeFid r?).2.writeRecord asid (recordWords stamp cls parked ends src (s.takeFid r?).1 tail)) := rfl

section
variable {s : State} {asid : Nat} {ws : List DWord} (r? : Option Region) (hs : NoUnitWrites s) (hv : s.ctxValid asid = true)
include hs hv

theorem State.record_lost (hfull : areaFull s (s.flog asid)) :
    let u := (s.takeFid r?).2.writeRecord asid ws
    lostAt u (s.flog asid) = (lostAt s (s.flog asid) + 1) % 2 ^ 32 ∧
    ∀ a, (∀ i, i < 4 → canonPA a ≠ canonPA (s.flog asid + 24 + i)) → u.rdByte a = s.rdByte a := by
  have h := State.writeRecord_lost_words (ws := ws) (NoUnitWrites.takeFid hs r?) ((s.takeFid_ctxValid r? asid).trans hv)
  simp only [areaFull, wrAt, rdAt, lostAt, slotsAt, State.takeFid_rdNat, State.takeFid_flog, State.takeFid_rdByte] at h hfull ⊢
  exact h hfull

theorem State.record_placed (hws : ws.length = 8) (hroom : ¬ areaFull s (s.flog asid))
    (hapart : ∀ i j, i < 64 → j < 64 → canonPA (s.flog asid + i) ≠ canonPA (recordPlace s (s.flog asid) + j)) :
    let f := s.flog asid
    let u := (s.takeFid r?).2.writeRecord asid ws
    wrAt u f = (wrAt s f + 1) % 2 ^ 32 ∧ lostAt u f = lostAt s f ∧ rdAt u f = rdAt s f ∧ slotsAt u f = slotsAt s f ∧
    (∀ k w, ws[k]? = some w → u.rdNat (recordPlace s f + 8 * k) 8 = w.toNat) ∧
    (∀ a, (∀ i, i < 4 → canonPA a ≠ canonPA (f + 8 + i)) → (∀ i, i < 64 → canonPA a ≠ canonPA (recordPlace s f + i)) →
      u.rdByte a = s.rdByte a) := by
  have h := State.writeRecord_placed_words (NoUnitWrites.takeFid hs r?) ((s.takeFid_ctxValid r? asid).trans hv) hws
  simp only [areaFull, recordPlace, wrAt, rdAt, lostAt, slotsAt, State.takeFid_rdNat, State.takeFid_flog, State.takeFid_rdByte] at h hroom hapart ⊢
  exact h hroom hapart

end

/-! ## Its handler token (R384) -/

theorem State.sendHandler_off (s : State) (r : Region) (fid cls parked ends : Nat) (who : Option Nat) (hoff : field r.flth.toNat 31 1 = 0) :
    s.sendHandler r fid cls parked ends who = s := if_pos hoff

/-- The token at the input of the handler block's home core. -/
def State.handlerToken (s : State) (r : Region) (fid cls parked ends ci : Nat) : InTok :=
  let col := r.colour (field r.flth.toNat 16 12)
  { tok := { kind := .handler, blk := BitVec.ofNat 12 (field r.flth.toNat 0 12), slot := 0, colour := BitVec.ofNat 12 (field r.flth.toNat 16 12),
             wlog := BitVec.ofNat 3 (if col.live then col.wlog else 0), rscope := .dev, tag := w32 (s.core ci).cfg.core,
             payload := [w32 fid, w32 (cls * 2 ^ 24 + parked * 2 ^ 19 + ends * 2 ^ 18)] },
    key := BitVec.ofNat 16 r.key, inc := s.dev.inc, tasid := r.asid, srcDev := s.dev.devNum, srcCore := srcOfCore ci, counted := false,
    grp := none, frame := none, after := s.arrivals }

theorem State.sendHandler_on {s : State} {r : Region} (fid cls parked ends : Nat) {ci dst : Nat} (hon : field r.flth.toNat 31 1 = 1)
    (hdst : s.homeCore r ci (field r.flth.toNat 0 12) (s.core ci).cfg.core = some dst) (hstop : s.handlerStop r (some ci) dst = none) :
    s.sendHandler r fid cls parked ends (some ci) = s.toInbox dst (s.handlerToken r fid cls parked ends ci) := by
  refine (if_neg fun h => absurd (hon.symm.trans h) Nat.one_ne_zero).trans ?_
  simp only [Option.getD_some, hdst, hstop] <;> rfl

end Sys2Proof.Machine

namespace Sys2Proof.Proofs

open Sys2Proof.Machine Sys2Proof.Safety Sys2Proof.Claims

/-- Settles O60: the words of a record with room by `State.record_placed`, the count of one without by `State.record_lost`, and the handler token
by `State.sendHandler_on`. -/
theorem faultRecordsReachTheArea : Obligations.FaultRecordsReachTheArea := by
  intro s asid src stamp cls parked ends tail r? hv htail hsrc hstamp hfids hs f n rec_ u fid full hapart
  have hfid : fid < 2 ^ 32 := by
    cases r? with
    | none => exact Nat.two_pow_pos _
    | some r => exact hfids r rfl
  have hlen : (recordWords stamp cls parked ends src fid tail).length = 8 := by simp [recordWords, htail]
  have hkept := s.recordFor_slicesOnly r? asid src stamp cls parked ends tail
  have hcores : u.cores = s.cores := hkept.cores.trans (s.takeFid_cores r?)
  have hcore (ci : Nat) : u.core ci = s.core ci := by rw [State.core, hcores]; rfl
  refine ⟨hcores, ?_, ?_, ?_, State.record_lost r? hs hv, ?_, ?_⟩
  · rintro rfl
    exact ⟨rfl, hkept.dev⟩
  · rintro r rfl
    exact ⟨rfl, (congrArg Device.regions hkept.dev).trans (List.map_congr_left fun x _ => by simp only [beq_iff_eq]; rfl)⟩
  · intro hroom
    obtain ⟨hwr, hlost, hrd, hslots, hwords, hothers⟩ := State.record_placed r? hs hv hlen hroom hapart
    obtain ⟨hcls, hparked, hends, hfrom, hnum⟩ := recordWord1_fields (cls := cls) (parked := parked) (ends := ends) hsrc hfid
    rw [← hwords 1 _ rfl] at hcls hparked hends hfrom hnum
    refine ⟨hwr, hlost, hrd, hslots, ?_, hcls, hparked, hends, hfrom, hnum, fun i w hw => ?_, hothers⟩
    · exact (hwords 0 _ rfl).trans (by rw [w64, BitVec.toNat_ofNat, Nat.mod_eq_of_lt hstamp])
    · rw [Nat.add_assoc, show 16 + 8 * i = 8 * (i + 2) by omega]
      exact hwords (i + 2) w hw
  · rintro r ci rfl hoff
    rw [State.raiseFor_some_loud, State.sendHandler_off _ _ _ _ _ _ _ hoff]
  · rintro r ci dst rfl hon hdst hstop
    rw [State.raiseFor_some_loud]
    rw [← hcore] at hdst
    rw [State.sendHandler_on r.fid cls.code (bit01 parked) (bit01 ends) hon hdst hstop]
    refine ⟨u.handlerToken r r.fid cls.code (bit01 parked) (bit01 ends) ci, ?_, fun cj hj => ?_, rfl, ?_, rfl, ?_, rfl, ?_, rfl, rfl⟩
    · exact (congrArg Core.inbox (State.core_modCore_same _ _ _)).trans (by rw [hcore])
    · exact (State.core_modCore_other _ _ _ _ hj).trans (hcore cj)
    · exact Nat.mod_eq_of_lt (Nat.mod_lt _ (Nat.two_pow_pos 12))
    · exact Nat.mod_eq_of_lt (Nat.mod_lt _ (Nat.two_pow_pos 12))
    · exact congrArg (fun c : Core => w32 c.cfg.core) (hcore ci)

end Sys2Proof.Proofs
end

section
/-! SUPPORT. The configuration stream of a tile (R349 to R353): the command at the head of a receiver, the verdict, and ARM. -/

namespace Sys2Proof.Machine

open Sys2Proof.Safety Sys2Proof.Claims

/-! ## The command at the head of a receiver -/

/-- A receiver with its first command taken off. -/
def CfgStream.after (t : CfgStream) (rest : List Word) : CfgStream := { t with cmds := rest }

/-- The state in which a tile's receiver has its first command taken off. -/
def State.cmdTaken (s : State) (tile : Nat) (rest : List Word) : State :=
  s.setCore tile { s.core tile with stream := (s.core tile).stream.after rest }

section
variable {s : State} {tile : Nat} {w : Word} {rest : List Word} {k : CmdKind} (hcmds : (s.core tile).stream.cmds = w :: rest)
include hcmds

theorem withCmd_head (hk : cmdKind w = k) (f : State → Core → CfgStream → Word → State) :
    withCmd s tile k f = .next (f (s.cmdTaken tile rest) (s.core tile) ((s.core tile).stream.after rest) w) := by
  unfold withCmd
  simp only [hcmds, ne_eq, hk, not_true_eq_false, if_false] <;> rfl

theorem controlCmd_act (hk : cmdKind w = k) (hclosed : (s.core tile).stream.state ≠ .open_) (hval : cmdVal w = 1)
    (act : State → CoreCfg → CfgStream → State) :
    controlCmd s tile k act = .next (act (s.cmdTaken tile rest) (s.core tile).cfg ((s.core tile).stream.after rest)) := by
  rw [controlCmd, withCmd_head hcmds hk]
  refine congrArg Host.Outcome.next ((if_neg fun h => hclosed (beq_iff_eq.mp h)).trans (if_pos hval))

end

/-! ## The verdict -/

theorem CfgStream.finish_accepted (t : CfgStream) (live : CoreCfg) (w : Word) : (t.finish live w).state = .accepted ↔
    (~~~t.crc).toNat = cmdVal w * 65536 + t.crcLow.getD 0 ∧ t.firstBad (t.shadow.getD live) = Option.none := by
  unfold CfgStream.finish
  dsimp only
  by_cases hcrc : (~~~t.crc).toNat = cmdVal w * 65536 + t.crcLow.getD 0
  · rw [if_neg (not_not.mpr hcrc)]
    cases t.firstBad (t.shadow.getD live) <;> simp [hcrc]
  · rw [if_pos hcrc]
    exact iff_of_false StreamState.noConfusion fun h => hcrc h.1

/-! ## ARM (R353) -/

theorem mem_leaveLoose_slices (s : State) (tile : Nat) : (s.leaveLoose tile).slices = s.slices := by
  unfold State.leaveLoose
  split
  · rfl
  · dsimp only
    split <;> rfl

theorem State.rdBytes_congr {s t : State} (hm : t.mem = s.mem) (hs : t.slices = s.slices) (pa n : Nat) : t.rdBytes pa n = s.rdBytes pa n := by
  unfold State.rdBytes State.agentQueue agentByte State.memByte
  rw [hm, hs]

theorem State.fetchSlots_congr {s t : State} (hm : t.mem = s.mem) (hs : t.slices = s.slices) (cfg : CoreCfg) : t.fetchSlots cfg = s.fetchSlots cfg := by
  have h (pa n : Nat) : t.rdBytes pa n = s.rdBytes pa n := State.rdBytes_congr hm hs pa n
  simp only [State.fetchSlots, State.recHdr, State.rd64, State.rdNat, h]

/-- A tile that no loose region has stays where it is. -/
theorem State.leaveLoose_bound {s : State} {tile : Nat} (h : ∀ r, s.coreRegion? tile = some r → r.loose = false) : s.leaveLoose tile = s := by
  have hnone : (s.coreRegion? tile).filter Region.loose = none := Option.filter_eq_none_iff.mpr fun r hr => by simp [h r hr]
  unfold State.leaveLoose
  simp only [hnone]

/-- A core that has left its region. -/
def Core.leave (c : Core) : Core := { c with region := none }

theorem State.leaveLoose_left {s : State} {tile : Nat} {r : Region} (hr : s.coreRegion? tile = some r) (hloose : r.loose = true) :
    (s.leaveLoose tile).core tile = (s.core tile).leave := by
  have hcore := State.core_modCore_same s tile Core.leave
  unfold State.leaveLoose
  simp only [hr, Option.filter_some, hloose, if_true]
  split <;> exact hcore

theorem State.leaveLoose_stream (s : State) (tile : Nat) : ((s.leaveLoose tile).core tile).stream = (s.core tile).stream := by
  by_cases h : ∀ r, s.coreRegion? tile = some r → r.loose = false
  · rw [State.leaveLoose_bound h]
  · obtain ⟨r, h⟩ := not_forall.mp h
    obtain ⟨hr, hloose⟩ := Classical.not_imp.mp h
    rw [State.leaveLoose_left hr (by simpa using hloose)]
    rfl

def Core.withStream (c : Core) (t : CfgStream) : Core := { c with stream := t }

/-- A core as ARM leaves it (R353). -/
def Core.armed (c : Core) (cfg : CoreCfg) (start : Nat) : Core :=
  { Core.empty with cfg := cfg, stream := { c.stream with shadow := none, state := .armed }, region := c.region,
                    consts := c.consts, nextNum := c.nextNum, rlStart := start }

theorem State.armCore_core (s : State) (ci : Nat) (cfg : CoreCfg) : (s.armCore ci cfg).core ci = (s.core ci).armed (s.fetchSlots cfg) s.arith :=
  State.core_modCore_same _ _ _

/-- A tile that has left its loose region, with a receiver. -/
def State.loosened (s : State) (tile : Nat) (t : CfgStream) : State := (s.modCore tile fun c => c.withStream t).leaveLoose tile

theorem State.loosened_stream (s : State) (tile : Nat) (t : CfgStream) : ((s.loosened tile t).core tile).stream = t := by
  rw [State.loosened, State.leaveLoose_stream, State.core_modCore_same]
  rfl

theorem State.loosened_fetchSlots (s : State) (tile : Nat) (t : CfgStream) (cfg : CoreCfg) :
    (s.loosened tile t).fetchSlots cfg = s.fetchSlots cfg :=
  State.fetchSlots_congr (State.leaveLoose_mem _ _) (mem_leaveLoose_slices _ _) _

theorem State.mem_setRegion {s : State} {r x : Region} (hx : x ∈ s.dev.regions) (h : x.num = r.num) : r ∈ (s.setRegion r).dev.regions :=
  List.mem_map.mpr ⟨x, hx, if_pos (beq_iff_eq.mpr h)⟩

theorem looseBase_le_looseNum (s : State) : looseBase ≤ s.looseNum := by
  have hfold (l : List Nat) (n : Nat) : n ≤ l.foldl max n :=
    List.foldlRecOn (motive := fun m => n ≤ m) _ _ (le_refl n) fun m h x _ => h.trans (Nat.le_max_left m x)
  exact hfold _ _

/-- A tile joins a region of its ASID and KEY that a steward graph's tiles make (log entry 110). -/
theorem State.joinLoose_joins (s : State) (tile : Nat) :
    ∃ r ∈ (s.joinLoose tile).dev.regions, r.loose = true ∧ tile ∈ r.cores ∧ r.asid = (s.core tile).cfg.asid ∧ r.key = (s.core tile).cfg.key ∧
      (s.joinLoose tile).core tile = { s.core tile with region := some r.num } := by
  unfold State.joinLoose
  dsimp only [State.fresh]
  cases hold : s.dev.regions.find? fun r => r.loose && r.asid == (s.core tile).cfg.asid && r.key == (s.core tile).cfg.key && r.ending.isNone with
  | some r =>
    have hr := List.mem_of_find?_eq_some hold
    have hsame := List.find?_some hold
    simp only [Bool.and_eq_true, beq_iff_eq] at hsame
    obtain ⟨⟨⟨hloose, hasid⟩, hkey⟩, -⟩ := hsame
    simp only [Option.getD_some, Option.isSome_some, if_true]
    refine ⟨_, State.mem_setRegion (s := { s with freeCount := s.freeCount + 1 }) hr ?_, ?_, ?_, ?_, ?_, State.core_modCore_same _ _ _⟩
    · rfl
    · exact hloose
    · exact mem_sortBy.mpr (List.mem_append_right _ (List.mem_singleton.mpr rfl))
    · exact hasid
    · exact hkey
  | none =>
    refine ⟨_, List.mem_append_right _ (List.mem_singleton.mpr rfl), ?_, ?_, rfl, rfl, State.core_modCore_same _ _ _⟩
    · exact decide_eq_true (looseBase_le_looseNum s)
    · exact mem_sortBy.mpr (List.mem_append_right _ (List.mem_singleton.mpr rfl))

end Sys2Proof.Machine

namespace Sys2Proof.Machine

open Sys2Proof.Safety Sys2Proof.Claims

/-! ## The ARM of a committed stream -/

/-- A tile after ARM: with the shadow live, in a region of its own or of the loose tiles of its ASID and KEY. -/
def State.armedTile (s : State) (tile : Nat) (t : CfgStream) (live : CoreCfg) : State :=
  let v := (s.loosened tile t).armCore tile (t.shadow.getD live)
  if (v.core tile).region.isNone then v.joinLoose tile else v

theorem execArmTile_committed {s : State} {tile : Nat} {w : Word} {rest : List Word} (hcmds : (s.core tile).stream.cmds = w :: rest)
    (hk : cmdKind w = .arm) (hval : cmdVal w = 1) (hcommitted : (s.core tile).stream.state = .committed) (hfree : s.armBarred tile = false) :
    let u := (s.cmdTaken tile rest).armedTile tile ((s.core tile).stream.after rest) (s.core tile).cfg
    execArmTile tile s = .next (u.acknowledge tile (u.core tile).stream (u.core tile).stream.state.status) := by
  intro u
  unfold execArmTile
  rw [if_neg (by simp [hfree]), controlCmd_act hcmds hk (by simp [hcommitted]) hval]
  exact congrArg Host.Outcome.next (if_pos hcommitted)

/-- What ARM leaves on the tile, but for its region. -/
theorem State.armedTile_core (s : State) (tile : Nat) (t : CfgStream) (live : CoreCfg) :
    ∃ region, (s.armedTile tile t live).core tile =
      { ((s.loosened tile t).core tile).armed (s.fetchSlots (t.shadow.getD live)) (s.loosened tile t).arith with region := region } := by
  have harm := (s.loosened tile t).armCore_core tile (t.shadow.getD live)
  rw [State.loosened_fetchSlots] at harm
  unfold State.armedTile
  dsimp only
  split
  · obtain ⟨r, -, -, -, -, -, hr⟩ := State.joinLoose_joins ((s.loosened tile t).armCore tile (t.shadow.getD live)) tile
    exact ⟨_, hr.trans (by rw [harm])⟩
  · exact ⟨_, harm⟩

/-- A tile of a launched region keeps it. -/
theorem State.armedTile_bound {s : State} {tile : Nat} {t : CfgStream} {r : Region} (live : CoreCfg)
    (hr : (s.modCore tile fun c => c.withStream t).coreRegion? tile = some r) (hloose : r.loose = false) :
    ((s.armedTile tile t live).core tile).region = (s.core tile).region ∧ (s.armedTile tile t live).dev = s.dev := by
  have hstays : s.loosened tile t = s.modCore tile fun c => c.withStream t :=
    State.leaveLoose_bound fun x hx => by rw [hr] at hx; cases hx; exact hloose
  have hregion : ((s.modCore tile fun c => c.withStream t).core tile).region = (s.core tile).region := by
    rw [State.core_modCore_same]; rfl
  have harm := (s.loosened tile t).armCore_core tile (t.shadow.getD live)
  have hsome : ((((s.loosened tile t).armCore tile (t.shadow.getD live)).core tile).region).isNone = false := by
    rw [harm, hstays]
    cases hn : ((s.modCore tile fun c => c.withStream t).core tile).region with
    | none => rw [State.coreRegion?, hn] at hr; cases hr
    | some n => rw [Core.armed, hn]; rfl
  unfold State.armedTile
  dsimp only
  rw [if_neg (by simp [hsome]), harm, hstays]
  exact ⟨hregion, rfl⟩

/-- A tile of no launched region joins a loose one. -/
theorem State.armedTile_loose {s : State} {tile : Nat} {t : CfgStream} (live : CoreCfg)
    (hnone : ((s.loosened tile t).core tile).region = none) :
    let u := s.armedTile tile t live
    ∃ r ∈ u.dev.regions, r.loose = true ∧ tile ∈ r.cores ∧ r.asid = (u.core tile).cfg.asid ∧ r.key = (u.core tile).cfg.key ∧
      (u.core tile).region = some r.num := by
  have harm := (s.loosened tile t).armCore_core tile (t.shadow.getD live)
  have hjoin : s.armedTile tile t live = ((s.loosened tile t).armCore tile (t.shadow.getD live)).joinLoose tile := by
    unfold State.armedTile
    exact if_pos (by rw [harm, Core.armed, hnone]; rfl)
  obtain ⟨r, hr, hloose, hmem, hasid, hkey, hcore⟩ := State.joinLoose_joins ((s.loosened tile t).armCore tile (t.shadow.getD live)) tile
  intro u
  rw [show u = _ from hjoin, hcore]
  exact ⟨r, hr, hloose, hmem, hasid, hkey, rfl⟩

theorem State.acknowledge_core (s : State) (tile : Nat) (t : CfgStream) (status : Nat) :
    (s.acknowledge tile t status).core tile = (s.core tile).withStream t := by
  rw [State.acknowledge, State.core, (State.agentWrite_slicesOnly _ _ _).cores]
  exact State.core_modCore_same s tile fun c => c.withStream t

theorem State.acknowledge_dev (s : State) (tile : Nat) (t : CfgStream) (status : Nat) : (s.acknowledge tile t status).dev = s.dev :=
  (State.agentWrite_slicesOnly _ _ _).dev

/-- The region of a tile does not depend on its receiver. -/
theorem State.coreRegion?_withStream (s : State) (tile : Nat) (t : CfgStream) :
    (s.modCore tile fun c => c.withStream t).coreRegion? tile = s.coreRegion? tile := by
  rw [State.coreRegion?, State.coreRegion?, State.core_modCore_same]
  rfl

theorem State.cmdTaken_eq (s : State) (tile : Nat) (rest : List Word) :
    s.cmdTaken tile rest = s.modCore tile fun c => c.withStream (c.stream.after rest) := rfl

end Sys2Proof.Machine

namespace Sys2Proof.Proofs

open Sys2Proof.Machine Sys2Proof.Safety Sys2Proof.Claims

/-- Settles O46: each event takes its command (`withCmd_head`, `controlCmd_act`), and ARM by its own layer. -/
theorem configurationStreamEvents : Obligations.ConfigurationStreamEvents := by
  intro tile s w rest c t v isOpen hcmds
  simp only [exec_beginStream, exec_configFieldWrite, exec_crcEnd, exec_commitStream, exec_rollbackStream, exec_armTile]
  have hkept : CoresKept s v tile := fun cj hj => State.core_setCore_other _ _ _ _ hj
  have hv : v.core tile = { c with stream := t } := State.core_setCore_same _ _ _
  have hset (t' : CfgStream) : let u := v.modCore tile fun x => x.withStream t'
      (u.core tile).stream = t' ∧ (u.core tile).cfg = c.cfg ∧ CoresKept s u tile ∧ MemoryKept s u := by
    intro u
    have hu : u.core tile = (v.core tile).withStream t' := State.core_modCore_same _ _ _
    exact ⟨by rw [hu]; rfl, by rw [hu, hv]; rfl, hkept.trans (State.modCore_coresKept _ _ _), fun _ => rfl⟩
  refine ⟨fun hk => ?_, fun hk => ⟨fun hopen => ?_, fun hclosed => ?_⟩, fun hk => ⟨fun hopen => ⟨?_, ?_⟩, fun hclosed => ?_⟩,
    fun hk hclosed hval => ⟨fun hst => ?_, fun hst => ?_⟩, fun hk hclosed hval harmed hnone => ?_, fun hk hclosed hval hst => ?_,
    fun hk hclosed hval => ⟨fun hst hbar => ?_, fun hst hfree => ?_, fun hst => ?_⟩⟩
  · rw [execBeginStream, withCmd_head hcmds hk]
    exact ⟨_, rfl, hset _⟩
  · rw [execConfigFieldWrite, withCmd_head hcmds hk]
    refine ⟨_, congrArg Host.Outcome.next (if_pos (beq_iff_eq.mpr hopen)), ?_⟩
    obtain ⟨hstream, hrest⟩ := hset (t.write v tile c.cfg w)
    exact ⟨hstream, hrest⟩
  · rw [execConfigFieldWrite, withCmd_head hcmds hk]
    exact congrArg Host.Outcome.next (if_neg fun h => hclosed (beq_iff_eq.mp h))
  · rw [execCrcEnd, withCmd_head hcmds hk]
    exact congrArg Host.Outcome.next (if_pos (beq_iff_eq.mpr hopen))
  · exact CfgStream.finish_accepted _ _ _
  · rw [execCrcEnd, withCmd_head hcmds hk]
    exact congrArg Host.Outcome.next (if_neg fun h => hclosed (beq_iff_eq.mp h))
  · rw [execCommitStream, controlCmd_act hcmds hk hclosed hval]
    dsimp only
    rw [if_pos (show ((s.core tile).stream.after rest).state = .accepted from hst)]
    rfl
  · rw [execCommitStream, controlCmd_act hcmds hk hclosed hval]
    dsimp only
    rw [if_neg (show ((s.core tile).stream.after rest).state ≠ .accepted from hst)]
    rfl
  · rw [execRollbackStream, controlCmd_act hcmds hk hclosed hval]
    dsimp only
    split
    · next h => exact absurd h harmed
    · next h => exact absurd h hnone
    · rfl
  · rw [execRollbackStream, controlCmd_act hcmds hk hclosed hval]
    dsimp only
    split
    · rfl
    · rfl
    · next h1 h2 => exact (hst.elim h1 h2).elim
  · exact if_pos ⟨hst, hbar⟩
  · rw [execArmTile_committed hcmds hk hval hst hfree]
    refine ⟨_, rfl, ?_⟩
    have hack (x : State) (n : Nat) : (x.acknowledge tile (x.core tile).stream n).core tile = x.core tile := State.acknowledge_core _ _ _ _
    simp only [hack, State.acknowledge_dev]
    obtain ⟨region, hcore⟩ := State.armedTile_core v tile t c.cfg
    have hfetch : v.fetchSlots (t.shadow.getD c.cfg) = s.fetchSlots (t.shadow.getD c.cfg) := State.fetchSlots_congr rfl rfl _
    have hsame : (v.modCore tile fun c => c.withStream t).coreRegion? tile = s.coreRegion? tile := by
      rw [State.coreRegion?_withStream]
      exact State.coreRegion?_withStream s tile t
    refine ⟨?_, ?_, ?_, ?_, ?_, ?_, ?_, ?_, fun r hr hloose => ?_, fun hloose => ?_⟩
    · exact (congrArg Core.cfg hcore).trans hfetch
    · exact congrArg (fun c : Core => c.stream.state) hcore
    · exact congrArg Core.frame hcore
    · exact congrArg Core.bufW hcore
    · exact congrArg Core.bufA hcore
    · exact congrArg Core.bufC hcore
    · exact congrArg Core.absent hcore
    · exact congrArg Core.entries hcore
    · obtain ⟨hregion, hdev⟩ := State.armedTile_bound c.cfg (hsame.trans hr) hloose
      exact ⟨hregion.trans (by rw [hv]), congrArg Device.regions hdev⟩
    · refine State.armedTile_loose (s := v) (t := t) c.cfg ?_
      rcases hloose with hnone | ⟨r, hr, hloose⟩
      · have hbound : v.loosened tile t = v.modCore tile fun c => c.withStream t := State.leaveLoose_bound fun r hr => by
          rw [hsame, State.coreRegion?, show (s.core tile).region = none from hnone] at hr
          cases hr
        rw [hbound, State.core_modCore_same, hv]
        exact hnone
      · rw [State.loosened, State.leaveLoose_left (hsame.trans hr) hloose]
        rfl
  · rw [execArmTile, if_neg fun h => hst h.1, controlCmd_act hcmds hk hclosed hval]
    exact congrArg Host.Outcome.next (if_neg hst)

end Sys2Proof.Proofs
end

section
/-! SUPPORT. Switches, and combining fetch-and-add at them (R333 to R335, R337). -/

namespace Sys2Proof.Machine

open Sys2Proof.Safety Sys2Proof.Claims

/-! ## The switch of a number -/

@[simp] theorem State.switch_num (s : State) (n : Nat) : (s.switch n).num = n := by
  unfold State.switch
  cases h : s.switches.find? fun x => x.num == n with
  | none => rfl
  | some x =>
    have hx := List.find?_some h
    exact beq_iff_eq.mp hx

theorem find?_replaceIf_same {α : Type} {p : α → Bool} {a : α} (ha : p a = true) {l : List α} (hl : l.any p = true) :
    (replaceIf p (fun _ => a) l).find? p = some a := by
  induction l with
  | nil => simp at hl
  | cons b l ih =>
    rw [replaceIf, List.map_cons]
    by_cases hb : p b = true
    · rw [if_pos hb, List.find?_cons_of_pos ha]
    · rw [if_neg hb, List.find?_cons_of_neg hb]
      exact ih (by simpa [hb] using hl)

theorem State.switch_setSwitch (s : State) (x : Switch) : (s.setSwitch x).switch x.num = x := by
  unfold State.setSwitch
  split
  · next h => exact congrArg (Option.getD · _) (find?_replaceIf_same (p := fun y : Switch => y.num == x.num) (beq_self_eq_true x.num) h)
  · next h =>
    refine congrArg (Option.getD · _) (find?_insertBy_new (p := fun y : Switch => y.num == x.num) (beq_self_eq_true x.num) ?_)
    exact List.find?_eq_none.mpr fun y hy hsame => h (List.any_eq_true.mpr ⟨y, hy, hsame⟩)

theorem State.switch_setSwitch_of {s : State} {x : Switch} {n : Nat} (h : x.num = n) : (s.setSwitch x).switch n = x := h ▸ s.switch_setSwitch x

@[simp] theorem State.setSwitch_cores (s : State) (x : Switch) : (s.setSwitch x).cores = s.cores := by
  unfold State.setSwitch; split <;> rfl

/-! ## Packets that leave (R299) -/

theorem State.sendPacket_wire {s : State} {ci asid : Nat} {p : Packet} (h : s.leaveStop ci p.key p.dstDev = none) :
    (s.sendPacket ci asid p).2.wire = s.wire ++ [p] := by
  unfold State.sendPacket
  simp only [h]

/-! ## Requests that wait to combine -/

theorem Switch.nextAdd_packet {x : Switch} {port : Nat} {p : Packet} {e : Nat × Nat × Packet} (h : x.nextAdd port p = some e) : e.2.2 = p := by
  have := (Option.filter_eq_some_iff.mp h).2
  rw [Bool.and_eq_true, beq_iff_eq, beq_iff_eq] at this
  exact this.2

/-- A request that waits alone is full when it holds 64 constituents (log entry 99). -/
theorem Waiting.full_alone (e : Nat × Nat × Packet) : ({ inputs := [e] } : Waiting).full = decide (64 ≤ (consOf e.2.2).length) := by
  simp [Waiting.full, Waiting.cons, Waiting.packets, maxInputs, maxCons]

theorem Switch.goOn_alone (x : Switch) (e : Nat × Nat × Packet) : x.goOn { inputs := [e] } = { x with out := x.out ++ [e.2.2] } := rfl

/-- What a request that goes on leaves of its switch as it was. -/
theorem Switch.goOn_frame (x : Switch) (w : Waiting) : (x.goOn w).num = x.num ∧ (x.goOn w).waiting = x.waiting ∧ (x.goOn w).merged = x.merged ∧
    (x.goOn w).ovf = x.ovf := by
  unfold Switch.goOn
  split <;> exact ⟨rfl, rfl, rfl, rfl⟩

/-- A switch with an accepted request taken from its ports. -/
abbrev Switch.accepted (x : Switch) (e : Nat × Nat × Packet) : Switch := { x with arrived := x.arrived.erase e }

section
variable {sw port : Nat} {s : State} {p : Packet} {e : Nat × Nat × Packet} {wide : Bool} {cons : List Constituent}
  (hbody : p.body = .combine wide cons) (hnext : (s.switch sw).nextAdd port p = some e)
include hbody hnext

theorem combiningMerge_off (hcen : (s.switch sw).cen = false) : execCombiningMerge sw port p s =
    .next (s.setSwitch { (s.switch sw).accepted e with out := (s.switch sw).out ++ [p] }) := by
  unfold execCombiningMerge
  simp only [hnext, hbody]
  exact if_pos (by simp [hcen])

theorem combiningMerge_first (hcen : (s.switch sw).cen = true) (hpart : (s.switch sw).partner e.2.1 p = none) :
    execCombiningMerge sw port p s = .next (s.setSwitch (if 64 ≤ cons.length then { (s.switch sw).accepted e with out := (s.switch sw).out ++ [p] }
      else { (s.switch sw).accepted e with waiting := (s.switch sw).waiting ++ [{ inputs := [e] }] })) := by
  have hp := Switch.nextAdd_packet hnext
  have hcons : consOf e.2.2 = cons := by rw [hp, consOf, hbody]
  have hpart : ((s.switch sw).accepted e).partner e.2.1 p = none := hpart
  unfold execCombiningMerge
  simp only [hnext, hbody]
  rw [if_neg (by simp [hcen]), hpart]
  dsimp only
  rw [Waiting.full_alone, Switch.goOn_alone, hcons, hp]
  simp only [decide_eq_true_eq]

theorem combiningMerge_joins (hcen : (s.switch sw).cen = true) {i : Nat} {w : Waiting} (hpart : (s.switch sw).partner e.2.1 p = some i)
    (hw : (s.switch sw).waiting[i]? = some w) : execCombiningMerge sw port p s =
    .next (s.setSwitch (if (w.join e).needsRecord && !w.needsRecord && decide (recordTable ≤ (s.switch sw).recordsUsed) then
        { (s.switch sw).accepted e with ovf := (s.switch sw).ovf + 1, out := (s.switch sw).out ++ [p] }
      else if (w.join e).full then
        { (s.switch sw).accepted e with merged := (s.switch sw).merged + 1, waiting := (s.switch sw).waiting.eraseIdx i }.goOn (w.join e)
      else { (s.switch sw).accepted e with merged := (s.switch sw).merged + 1, waiting := (s.switch sw).waiting.set i (w.join e) })) := by
  have hpart : ((s.switch sw).accepted e).partner e.2.1 p = some i := hpart
  have hw : ((s.switch sw).accepted e).waiting[i]? = some w := hw
  unfold execCombiningMerge
  simp only [hnext, hbody]
  rw [if_neg (by simp [hcen]), hpart]
  dsimp only
  rw [hw]
  dsimp only
  exact (apply_ite (fun x => Host.Outcome.next (s.setSwitch x)) _ _ _).symm

end

/-! ## Replies (R334) -/

/-- A find that a record's number decides. -/
theorem records_none {x : Switch} {p : Packet} (h : ∀ r ∈ x.records, r.reqid ≠ p.reqid) : x.records.find? (fun r => r.reqid == p.reqid) = none :=
  List.find?_eq_none.mpr fun r hr => by simpa using h r hr

/-- A merge of two adds is split in their order, the second with the first's addend before it. -/
theorem splitReply_pair (p q1 q2 : Packet) (n1 n2 : Nat) (a b : DWord) (v : Nat) :
    splitReply p 0 0 v false [(n1, q1, a, true), (n2, q2, b, true)] =
      [{ p with dstDev := q1.srcDev, reqid := q1.reqid, body := .reply 0 0 [w32 v] },
       { p with dstDev := q2.srcDev, reqid := q2.reqid, body := .reply 0 0 [w32 (v + a.toNat)] }] := by
  have hw : w32 ((v + a.toNat) % 2 ^ 32) = w32 (v + a.toNat) := by
    exact BitVec.eq_of_toNat_eq (by simp only [w32, BitVec.toNat_ofNat, Nat.mod_mod])
  simp only [splitReply, dataWords, if_true, Bool.false_eq_true, if_false, hw, List.range_one, List.map_cons, List.map_nil, Nat.mul_zero, Nat.pow_zero,
    Nat.div_one, Nat.mul_one, List.append_nil, List.singleton_append]

end Sys2Proof.Machine

namespace Sys2Proof.Proofs

open Sys2Proof.Machine Sys2Proof.Safety Sys2Proof.Claims

/-- Settles O44: the cases of a merge, and each other event by its definition. -/
theorem combiningEvents : Obligations.CombiningEvents := by
  intro sw s p x
  have hnum : x.num = sw := s.switch_num sw
  have hset (y : Switch) (hy : y.num = x.num) : (s.setSwitch y).switch sw = y := State.switch_setSwitch_of (hy.trans hnum)
  refine ⟨fun port e wide cons hbody hnext => ⟨?_, ?_, ?_, ?_, ?_⟩, ?_, ?_, ?_, ?_, ?_, ?_, ?_, ?_, ?_⟩
  · exact combiningMerge_off hbody hnext
  · intro hcen hpart hfew
    exact (combiningMerge_first hbody hnext hcen hpart).trans (by rw [if_neg (by omega)])
  · intro hcen hpart hmany
    exact (combiningMerge_first hbody hnext hcen hpart).trans (by rw [if_pos hmany])
  · intro i w hcen hpart hw v hroom
    refine ⟨_, combiningMerge_joins hbody hnext hcen hpart hw, ?_⟩
    have hroom : ¬ ((w.join e).needsRecord && !w.needsRecord && decide (recordTable ≤ x.recordsUsed)) = true := by
      simp only [recordTable, Bool.and_eq_true, Bool.not_eq_true']
      rintro ⟨⟨h1, h2⟩, h3⟩
      rcases hroom with h | h | h
      · exact absurd (h1.symm.trans h) (by decide)
      · exact absurd (h2.symm.trans h) (by decide)
      · exact absurd (of_decide_eq_true h3) (Nat.not_le.mpr h)
    beta_reduce
    rw [if_neg hroom]
    by_cases hfull : (w.join e).full = true
    · obtain ⟨hn, hwait, hmerged, hovf⟩ := Switch.goOn_frame
        { x.accepted e with merged := x.merged + 1, waiting := x.waiting.eraseIdx i } (w.join e)
      rw [if_pos hfull, hset _ hn]
      exact ⟨hmerged, hovf, fun h => absurd (hfull.symm.trans h) (by decide), fun _ => hwait⟩
    · rw [if_neg hfull, hset]
      · exact ⟨rfl, rfl, fun _ => ⟨rfl, rfl⟩, fun h => absurd h hfull⟩
      · rfl
  · intro i w hcen hpart hw hneeds hnone hfull
    refine ⟨_, combiningMerge_joins hbody hnext hcen hpart hw, ?_⟩
    have hfull : ((w.join e).needsRecord && !w.needsRecord && decide (recordTable ≤ x.recordsUsed)) = true := by
      rw [hneeds, hnone]
      exact decide_eq_true hfull
    beta_reduce
    rw [if_pos hfull, hset]
    · exact ⟨rfl, rfl, rfl, rfl⟩
    · rfl
  · intro idx w hw
    have hw : (s.switch sw).waiting[idx]? = some w := hw
    rw [exec_combiningWindowExpiry, execCombiningWindowExpiry]
    simp only [hw]
    exact ⟨fun h => congrArg Host.Outcome.next (if_neg (Nat.not_lt.mpr h)), fun h => congrArg Host.Outcome.next (if_pos h)⟩
  · intro e st ca data harrived hbody
    have harrived : (s.switch sw).arrived.find? (fun e => e.2.2 == p) = some e := harrived
    rw [exec_decombineReply, execDecombineReply]
    simp only [harrived, hbody]
    refine ⟨fun r hr => ?_, fun hnone => ?_⟩
    · have hr : (s.switch sw).records.find? (fun r => r.reqid == p.reqid) = some r := hr
      simp only [hr]
      refine ⟨_, rfl, ?_⟩
      beta_reduce
      rw [hset]
      · exact ⟨rfl, rfl⟩
      · rfl
    · have hr : (s.switch sw).records.find? (fun r => r.reqid == p.reqid) = none := records_none hnone
      simp only [hr]
      refine ⟨_, rfl, ?_⟩
      beta_reduce
      rw [hset]
      · exact ⟨rfl, rfl⟩
      · rfl
  · exact fun n1 n2 q1 q2 a b v => splitReply_pair p q1 q2 n1 n2 a b v
  · intro idx hidx
    refine ⟨_, congrArg Host.Outcome.next (if_pos hidx), ?_⟩
    beta_reduce
    rw [hset]
    · exact ⟨rfl, rfl⟩
    · rfl
  · refine ⟨_, rfl, ?_⟩
    beta_reduce
    rw [State.modSwitch, hset]
    · exact ⟨rfl, rfl, rfl⟩
    · rfl
  · intro cen cwin
    refine ⟨_, rfl, ?_⟩
    beta_reduce
    rw [State.modSwitch, hset]
    · exact ⟨rfl, rfl, State.setSwitch_cores _ _, .of_mem (State.setSwitch_mem _ _)⟩
    · rfl
  · intro reqid r hr hkind now
    have hask : (r.kind != .cfaa || decide (now < r.lastAsk + queryPeriod)) = decide (now < r.lastAsk + 4000) := by
      rw [hkind]
      rfl
    rw [exec_cfaaQuery, execCfaaQuery]
    simp only [hr]
    refine ⟨fun hsoon => ?_, fun hdue hlate => ?_, fun hdue htime hleave => ?_⟩
    · exact if_pos (hask.trans (decide_eq_true hsoon))
    · rw [if_neg fun h => absurd (of_decide_eq_true (hask.symm.trans h)) (Nat.not_lt.mpr hdue)]
      exact if_pos hlate
    · rw [if_neg fun h => absurd (of_decide_eq_true (hask.symm.trans h)) (Nat.not_lt.mpr hdue), 
        if_neg (show ¬ r.left + requestTimeout ≤ now from Nat.not_le.mpr htime)]
      exact ⟨_, rfl, State.sendPacket_wire hleave⟩
  · intro die e n harrived hbody howner
    rw [exec_replyLogQuery, execReplyLogQuery]
    simp only [harrived, hbody, howner, beq_self_eq_true, Bool.not_true, Bool.false_eq_true, if_false]
    rfl
  · intro die
    refine ⟨_, rfl, ?_⟩
    beta_reduce
    rw [State.die_setDie_same]
    exact ⟨rfl, rfl, fun _ => rfl⟩

end Sys2Proof.Proofs
end

section
/-! SUPPORT. Packets at ports, requests at their target and their replies (R293 to R312, R337). -/

namespace Sys2Proof.Machine

open Sys2Proof.Safety Sys2Proof.Claims

/-! ## Packets that leave and arrive -/

theorem State.emit_leaves {s : State} {p : Packet} (h : s.leaveStop 0x3FF p.key p.dstDev = none) : s.emit p = { s with wire := s.wire ++ [p] } := by
  unfold State.emit
  simp only [h]

/-- A packet of another incarnation than the device holds for its source (R296). -/
theorem State.staleInc_iff (s : State) (p : Packet) : s.staleInc p = true ↔ p.body ≠ .management ∧ p.inc ≠ s.dev.incFor p.srcDev := by
  unfold State.staleInc
  cases p.body <;> simp

theorem linkArrival_port {s : State} {p : Packet} (hord : s.inOrder p = true) (hback : s.heldBack p = false) (port : Nat) :
    exec (.linkPacketArrival (.devPort port) p) s = .next ((s.takeFlight p).atDevPort port p) := by
  rw [exec_linkPacketArrival, execLinkPacketArrival]
  simp only [hord, hback, Bool.not_true, Bool.false_eq_true, if_false]

/-! ## A device's link port (R296, R297) -/

section
variable {v : State} {p : Packet} {port : Nat}

/-- A packet that the guard and the tables let pass meets the incarnation test. -/
theorem State.atDevPort_passed (h : p.key ≠ 0 → v.tenantOk p.key (v.dev.portTenant.atD port 0) = true ∧ v.dev.incExchanged = true ∧
    p.key ∈ v.dev.portKeys.atD port []) : v.atDevPort port p = if v.staleInc p then v.setDev { v.dev with stewardRecs := v.dev.stewardRecs ++
      [dropRecord (v.gtcAt (port / 9)) (srcPort port) dlIncarnation 1 (placePort port) p] } else v.acceptPacket port p := by
  unfold State.atDevPort
  dsimp only
  rw [if_neg fun hk => by simp [(h hk.1).1] at hk, if_neg fun hk => by simp [(h hk.1).2.1] at hk, if_neg fun hk => by simp [(h hk.1).2.2] at hk]

theorem State.atDevPort_guarded (hkey : p.key ≠ 0) (hok : v.tenantOk p.key (v.dev.portTenant.atD port 0) = false) :
    v.atDevPort port p = v.dropPacket (srcPort port) (v.gtcAt (port / 9)) dlParapet 4 (placeLinkGuard port) p :=
  if_pos ⟨hkey, by simp [hok]⟩

section
variable (hkey : p.key ≠ 0) (hok : v.tenantOk p.key (v.dev.portTenant.atD port 0) = true)
include hkey hok

theorem State.atDevPort_early (hinc : v.dev.incExchanged = false) : v.atDevPort port p = v.stewardLog 296 :=
  (if_neg fun h => by simp [hok] at h).trans (if_pos ⟨hkey, by simp [hinc]⟩)

theorem State.atDevPort_unlisted (hinc : v.dev.incExchanged = true) (hlist : p.key ∉ v.dev.portKeys.atD port []) :
    v.atDevPort port p = if v.orphan p && !v.staleInc p then v.acceptPacket port p else
      v.dropPacket (srcPort port) (v.gtcAt (port / 9)) dlKey 1 (placePort port) p :=
  ((if_neg fun h => by simp [hok] at h).trans (if_neg fun h => by simp [hinc] at h)).trans (if_pos ⟨hkey, by simpa using hlist⟩)

end

end

/-- A token goes on through a switch port whose keys have its own. -/
theorem State.atSwPort_token {v : State} {sw port : Nat} {p : Packet} {t : Token} (hbody : p.body = .token t)
    (hkey : p.key ∈ (v.switch sw).portKeys.atD port []) (hdead : p.dstDev ∉ (v.switch sw).dead) :
    v.atSwPort sw port p = v.setSwitch { v.switch sw with out := (v.switch sw).out ++ [p] } := by
  unfold State.atSwPort
  dsimp only
  rw [if_neg fun h => by simp [hkey] at h]
  simp only [hbody]
  exact if_neg (by simpa using hdead)

/-! ## Requests at their target (R306 to R310) -/

section
variable {s : State} {die idx : Nat} {r : IngressReq} {pa cache : Nat} (hplace : r.place = some (pa, cache))
include hplace

/-- A request that has ended at its target holds no place there. -/
def State.requestEnds (t : State) (die idx : Nat) (r : IngressReq) : State := (t.dropIngress die idx).dropWaits die r.num

theorem serveRemote_write {data : List (Nat × Byte)} {old : List Byte} {s' : State} (hbody : r.pkt.body = .write data)
    (hdone : s.writeAtOwner die r.num cache (plainLine (lineOf pa) (data.map fun b => (pa % 128 + b.1, b.2)) []) = (.done old, s')) :
    s.serveRemote die idx r = (s'.requestEnds die idx r).emit
      ((s'.requestEnds die idx r).ownPacket r.pkt.key r.pkt.srcDev r.pkt.reqid (.ack 0 0 0)) := by
  unfold State.serveRemote
  simp only [hplace, Option.getD_some, hbody, hdone, State.answer] <;> rfl

theorem serveRemote_atomic {fn : BitVec 4} {b c : DWord} {old : List Byte} {s' : State} (hbody : r.pkt.body = .atomic fn b c)
    (hdone : s.writeAtOwner die r.num cache (plainLine (lineOf pa) [] [{ addr := pa, fn := fn, b := b, c := c, word := 0, ret := none }]) =
      (.done old, s')) :
    s.serveRemote die idx r = (s'.requestEnds die idx r).emit ((s'.requestEnds die idx r).ownPacket r.pkt.key r.pkt.srcDev r.pkt.reqid
      (.reply 0 0 (dataWords (atomBytes fn.toNat / 4) (leNat old)))) := by
  unfold State.serveRemote
  simp only [hplace, Option.getD_some, hbody, hdone, State.answer] <;> rfl

theorem serveRemote_read {off n total : Nat} {bs : List Byte} {s' : State} (hbody : r.pkt.body = .read off n total)
    (hm : lineLeft pa (r.avail - r.done) ≠ 0) (hdone : s.readAtOwner die r.num pa cache (lineLeft pa (r.avail - r.done)) = (.done bs, s')) :
    s.serveRemote die idx r = if r.done + lineLeft pa (r.avail - r.done) < (if total = 0 then n else total) then
        (s'.setIngress die idx (r.past (lineLeft pa (r.avail - r.done)))).emit (s'.ownPacket r.pkt.key r.pkt.srcDev r.pkt.reqid (.part r.done bs))
      else (s'.requestEnds die idx r).emit ((s'.requestEnds die idx r).ownPacket r.pkt.key r.pkt.srcDev r.pkt.reqid (.reply 0 0 (wordsOf bs))) := by
  unfold State.serveRemote
  simp only [hplace, Option.getD_some, hbody, hm, if_false, hdone, bodyTotal, State.answer] <;> rfl

end

/-! ## Replies and time-outs (R304, R337) -/

/-- A lane of CFAA ends at the first wake of its loop of 4 µs after 50 µs (R337). -/
theorem Request.limit_cfaa {r : Request} (hkind : r.kind = .cfaa) (hask : r.lastAsk ≤ r.left + 50000) :
    ∃ n, r.limit = r.lastAsk + 4000 * n ∧ r.left + 50000 ≤ r.limit ∧ r.limit < r.left + 54000 := by
  have hlimit : r.limit = r.lastAsk + 4000 * ((r.left + 50000 - r.lastAsk + 4000 - 1) / 4000) := if_pos hkind
  exact ⟨_, hlimit, by omega, by omega⟩

section
variable {s : State} {p : Packet} {r : Request} (hr : s.dev.requests.find? (fun r => r.reqid == p.reqid && r.done.isNone) = some r)
include hr

theorem takeReply_shut (hshut : s.tileShut p.key r.core = true) : s.takeReply p = s.dropAtTile r.core p := by
  unfold State.takeReply
  simp only [hr, hshut, if_true]

theorem takeReply_late (hshut : s.tileShut p.key r.core = false) (hlate : s.overdue r = true) :
    s.takeReply p = (s.packetReqs r.reqid).foldl (fun s n => s.failReq n 9 0) s := by
  unfold State.takeReply
  simp only [hr, hshut, hlate, Bool.false_eq_true, if_false, if_true] <;> rfl

theorem takeReply_part (hshut : s.tileShut p.key r.core = false) (htime : s.overdue r = false) {off : Nat} {bs : List Byte}
    (hbody : p.body = .part off bs) (hget : r.bulk = some .rget) : s.takeReply p = s.modReq r.reqid fun q => q.addData off bs := by
  unfold State.takeReply
  simp only [hr, hshut, htime, hbody, hget, Bool.false_eq_true, if_false, if_true]

theorem takeReply_value (hshut : s.tileShut p.key r.core = false) (htime : s.overdue r = false) {st ca : Byte} {data : List Word}
    (hbody : p.body = .reply st ca data) (hlane : r.bulk = none) (hkind : r.kind ≠ .cfaa) :
    s.takeReply p = s.closeReq r.reqid st ca (w64 (wordsVal data)) := by
  unfold State.takeReply
  simp only [hr, hshut, htime, hbody, hlane, hkind, Bool.false_eq_true, if_false, false_and, reduceCtorEq]

end

end Sys2Proof.Machine

namespace Sys2Proof.Proofs

open Sys2Proof.Machine Sys2Proof.Safety Sys2Proof.Claims

/-- Settles O40: the tests of a port in their order, the ends of a request at its target, and the cases of a reply. -/
theorem packetAndRequestEvents : Obligations.PacketAndRequestEvents := by
  refine ⟨fun t q h => State.emit_leaves h, fun s p => ?_⟩
  intro v ok stale
  have hstale : v.staleInc p = true ↔ stale := v.staleInc_iff p
  refine ⟨fun port hord hback => ?_, fun place hord => ?_, fun port n total hbody => ?_, fun port st ca data hbody => ?_,
    fun sw port t hbody hord hkey hdead => ?_, fun tile edge hok => ?_, fun e record harrived hbody => ?_,
    fun die idx r hr hplace hfirst => ⟨?_, fun pa cache hpa => ?_⟩, fun e st ca data harrived hep hbody => ?_, fun hdone => ?_,
    fun r hr => ⟨takeReply_shut hr, fun hshut => ⟨takeReply_late hr hshut, fun off bs htime => takeReply_part hr hshut htime,
      fun st ca data htime => takeReply_value hr hshut htime⟩⟩,
    fun reqid r hr hbulk hleft => ?_, fun ci idx e he => ?_⟩
  · simp only [linkArrival_port hord hback, Host.Outcome.next.injEq]
    have hpass (h : p.key ≠ 0 → ok port = true ∧ v.dev.incExchanged = true ∧ p.key ∈ v.dev.portKeys.atD port []) :
        (¬ stale → v.atDevPort port p = v.acceptPacket port p) ∧ (stale → v.atDevPort port p = v.setDev { v.dev with
          stewardRecs := v.dev.stewardRecs ++ [dropRecord (v.gtcAt (port / 9)) (srcPort port) dlIncarnation 1 (placePort port) p] }) :=
      ⟨fun hs => (State.atDevPort_passed h).trans (if_neg (mt hstale.mp hs)), fun hs => (State.atDevPort_passed h).trans (if_pos (hstale.mpr hs))⟩
    refine ⟨fun hkey => hpass fun h => absurd hkey h, fun hkey hok => State.atDevPort_guarded hkey hok,
      fun hkey hok hinc => State.atDevPort_early hkey hok hinc, fun hkey hok hinc => ⟨fun hlist => ⟨fun horphan hs => ?_, fun hs => ?_⟩,
        fun hlist => hpass fun _ => ⟨hok, hinc, hlist⟩⟩⟩
    · refine (State.atDevPort_unlisted hkey hok hinc hlist).trans (if_pos ?_)
      simpa [horphan] using mt hstale.mp hs
    · refine (State.atDevPort_unlisted hkey hok hinc hlist).trans (if_neg ?_)
      rcases hs with horphan | hs
      · simp [horphan]
      · simp [hstale.mpr hs]
  · simp only [exec_linkPacketArrival, execLinkPacketArrival, hord, Bool.not_false, if_true]
  · intro d
    unfold State.acceptPacket
    simp only [hbody, if_true]
    rw [State.die_setDie_same]
    rfl
  · unfold State.acceptPacket
    simp only [hbody] <;> rfl
  · refine ⟨(s.takeFlight p).atSwPort sw port p, ?_, ?_⟩
    · simp only [exec_linkPacketArrival, execLinkPacketArrival, hord, Bool.not_true, Bool.false_eq_true, if_false]
    · beta_reduce
      rw [State.atSwPort_token hbody hkey hdead, State.switch_setSwitch_of]
      exact v.switch_num sw
  · simp only [exec_linkPacketArrival, execLinkPacketArrival, State.atGuard, hok, if_true, ite_self]
  · rw [exec_deadLetterNotice, execDeadLetterNotice]
    simp only [harrived, hbody]
  · rw [exec_remoteRequestAtTarget, execRemoteRequestAtTarget]
    simp only [hr, hplace, hfirst, Bool.false_or, Bool.false_eq_true, if_false]
  · refine ⟨fun data old s' hbody hdone => serveRemote_write hpa hbody hdone, fun fn b c old s' hbody hdone => serveRemote_atomic hpa hbody hdone,
      fun off n total bs s' hbody => ?_⟩
    intro m all hm hdone
    exact ⟨fun hmore => (serveRemote_read hpa hbody hm hdone).trans (if_pos hmore),
      fun hlast => (serveRemote_read hpa hbody hm hdone).trans (if_neg (Nat.not_lt.mpr hlast))⟩
  · rw [exec_remoteReply, execRemoteReply]
    simp only [harrived, hep, hbody, bne_self_eq_false, Bool.false_eq_true, if_false]
  · have hnone : s.dev.requests.find? (fun r => r.reqid == p.reqid && r.done.isNone) = none := List.find?_eq_none.mpr fun r hr h => by
      obtain ⟨hid, hopen⟩ := Bool.and_eq_true_iff.mp h
      exact hdone r hr (beq_iff_eq.mp hid) (Option.isNone_iff_eq_none.mp hopen)
    unfold State.takeReply
    simp only [hnone]
  · have hdue : s.overdue r = decide (r.limit ≤ s.gtcAt (dieOf r.core)) := by
      unfold State.overdue
      rw [hleft, bne_iff_ne.mpr hbulk]
      rfl
    rw [exec_remoteTimeout, execRemoteTimeout]
    simp only [hr, hdue, decide_eq_true_eq]
    exact ⟨fun h => congrArg Host.Outcome.next (if_pos h), fun h => congrArg Host.Outcome.next (if_neg (Nat.not_le.mpr h)),
      fun hkind => if_neg hkind, Request.limit_cfaa⟩
  · rw [exec_writeCombineDrain, execWriteCombineDrain]
    simp only [he]
    exact ⟨fun h => congrArg Host.Outcome.next (if_pos h), fun h => congrArg Host.Outcome.next (if_neg (Nat.not_le.mpr h))⟩

end Sys2Proof.Proofs
end

section
/-! SUPPORT. Events of a core's units (R158, R163, R216, R258, R376, R378): what each writes to its core. -/

namespace Sys2Proof.Machine

open Sys2Proof.Safety Sys2Proof.Claims

/-! ## Byte maps and lists -/

/-- A run of bytes reads back whole. -/
theorem NMap.readBytes_writeBytes (m : NMap Byte) (a : Nat) (bs : List Byte) : (m.writeBytes a bs).readBytes a bs.length = bs := by
  refine List.ext_getElem (by simp [NMap.readBytes]) fun i h1 h2 => ?_
  simp only [NMap.readBytes, List.getElem_map, List.getElem_range, NMap.atD_writeBytes _ _ _ _ h2, List.getElem?_eq_getElem h2, Option.getD_some]

theorem NMap.readBytes_length (m : NMap Byte) (a n : Nat) : (m.readBytes a n).length = n := by simp [NMap.readBytes]

/-- A run of bytes copied elsewhere reads the same there. -/
theorem NMap.readBytes_copied (m w : NMap Byte) (a off n : Nat) : (m.writeBytes a (w.readBytes off n)).readBytes a n = w.readBytes off n := by
  have h := NMap.readBytes_writeBytes m a (w.readBytes off n)
  rwa [NMap.readBytes_length] at h

/-- A map over the values of a store is a map at each key. -/
theorem NMap.at?_map_val {α : Type} (m : NMap α) (f : α → α) (k : Nat) :
    NMap.at? (List.map (fun e : Nat × α => (e.1, f e.2)) m) k = (m.at? k).map f := by
  induction m with
  | nil => rfl
  | cons e m ih =>
    obtain ⟨j, v⟩ := e
    simp only [List.map_cons, NMap.at?]
    split
    · rfl
    · exact ih

theorem mem_replaceIf_of {α : Type} {p : α → Bool} {f : α → α} {l : List α} {a : α} (h : a ∈ l) (hp : p a = true) : f a ∈ replaceIf p f l :=
  List.mem_map.mpr ⟨a, h, if_pos hp⟩

/-! ## Block fetch (R359, R376) -/

/-- The core in which the fetched block of a slot is resident and the tokens held for it are out of their hold. -/
def Core.fetched (c : Core) (k : Nat) (b : BlockSlot) : Core :=
  { c.setSlot k b with overlay := c.overlay.filter fun t => t.tok.blk.toNat != b.bid, overlayAsked := c.overlayAsked.filter (· != b.bid) }

theorem execBlockFetchComplete_opens {ci k : Nat} {s : State} (hbound : ((s.core ci).slot k).bid ≠ 0xFFF)
    (hstays : ((s.core ci).slot k).closing = false) (hnew : ((s.core ci).slot k).resident = false) :
    execBlockFetchComplete ci k s =
      let b := (s.core ci).slot k
      .next (((s.core ci).overlay.filter fun t => t.tok.blk.toNat == b.bid).foldl (fun s t => s.place ci t) (s.setCore ci ((s.core ci).fetched k
        { b with resident := true, body := (List.range (hdrLen b.hdr)).map fun i => s.rd64 (b.recPA + 8 * (4 + i)) }))) := by
  unfold execBlockFetchComplete
  simp only [hbound, hstays, hnew, Bool.false_eq_true, or_self, if_false, List.partition_eq_filter_filter] <;> rfl

/-! ## QWAIT's limit (R378) -/

theorem State.qwaitEnd_only (s : State) (ci gi : Nat) (f : F0) (g : Group) (v : Nat) : ∃ h, LaneWrite g h f.d 1 (g.active f.g) (fun _ => v) ∧
    OnlyGroup s ci gi h.advance (s.qwaitEnd ci gi f g v) :=
  ⟨_, Group.setLanes_write _ _ _ _ _, State.setGroup_only _ _ _ _⟩

/-! ## A table's copy (R216) -/

/-- The table image of n bytes that a TLOAD's source in W holds. -/
def Core.tableImage (c : Core) (off n : Nat) : TableVer := { bytes := NMap.writeBytes [] 0 (c.bufW.readBytes off n) }

theorem Core.tableImage_bytes (c : Core) (off n : Nat) : (c.tableImage off n).bytes.readBytes 0 n = c.bufW.readBytes off n :=
  NMap.readBytes_copied [] c.bufW 0 off n

/-- The core into which a table image is copied for the group of its TLOAD. -/
def Core.tableCopied (c : Core) (table : Nat) (x : TloadCmd) (img : TableVer) (gi : Nat) (g : Group) : Core :=
  ({ c with tables := c.tables.put TableVer.zero (tableKey table x.ver) img,
            tloads := c.tloads.filter fun y => y.num != x.num } : Core).setGroup gi (g.markReady x.num)

theorem execTloadCopy_copies {ci table gi : Nat} {s : State} {x : TloadCmd} {g : Group}
    (hx : (s.core ci).tloads.find? (fun x => x.table == table) = some x) (hg : (s.core ci).opSlot x.num = some (gi, g))
    (hfree : (s.core ci).boundTo table x.ver (some gi) = false) (hlines : ∀ ln ∈ x.lines, (s.core ci).presentFor x.num .w ln = true) :
    execTloadCopy ci table s = .next (s.setCore ci ((s.core ci).tableCopied table x ((s.core ci).tableImage x.off 4128) gi g)) := by
  have habsent : (x.lines.any fun ln => !(s.core ci).presentFor x.num .w ln) = false := by simpa using hlines
  unfold execTloadCopy
  simp only [hx, hg, Option.map_some, hfree, habsent, Bool.or_self, Bool.false_eq_true, if_false] <;> rfl

theorem Core.tableCopied_table (c : Core) (table : Nat) (x : TloadCmd) (img : TableVer) (gi : Nat) (g : Group) :
    (c.tableCopied table x img gi g).tables.atD (tableKey table x.ver) TableVer.zero = img := by
  rw [Core.tableCopied, Core.setGroup_tables]
  exact NMap.atD_put_same _ _ _ _

/-! ## A rendezvous that fails (R258) -/

theorem Core.failLatch_open {c : Core} {l : GangLatch} (hl : c.gang = some l) (hopen : l.full = false) :
    c.failLatch.gang = none ∧ c.failLatch.matq = c.matq ++ l.members ∧ ∀ m ms g, l.members = m :: ms → c.group? m.grp = some g →
      (c.failLatch.team g.team).gfails = min ((c.team g.team).gfails + 1) 255 := by
  unfold Core.failLatch
  simp only [hl, hopen, Bool.false_eq_true, if_false]
  refine ⟨by split <;> rfl, by split <;> rfl, fun m ms g hm hg => ?_⟩
  have hteam : (l.members.head?.bind fun m => (Core.group? { c with gang := none, matq := c.matq ++ l.members } m.grp).map fun g => g.team) =
      some g.team := by
    rw [hm, List.head?_cons, Option.bind_some]
    exact congrArg (Option.map fun g => g.team) hg
  simp only [hteam, Core.team_setTeam_same]
  rfl

/-! ## Deposits (R157, R163) -/

/-- The core to which a deposit's bytes are written. -/
def Core.deposited (c : Core) (d : Deposit) (ds : List Deposit) : Core :=
  { c.setBuf .a (d.bytes.foldl (fun m e => m.put 0 (d.line * 128 + e.1) e.2) c.bufA) with deposits := ds }

/-- The commit that sent a deposit counts it performed. -/
def Core.depositDone (d : Deposit) (c : Core) : Core :=
  { c with commits := replaceIf (fun r => r.num == d.commit) (fun r => { r with deposits := r.deposits.erase d.epoch }) c.commits }

section
variable {ci : Nat} {s : State} {d : Deposit} {ds : List Deposit} (hd : (s.core ci).deposits = d :: ds)
include hd

theorem execNeighbourDeposit_free (hthere : (s.core ci).presentFor (d.num.getD (s.core ci).nextNum) .a d.line = true)
    (hlocks : ∀ e ∈ (s.core ci).groups, e.2.locks .a d.line = false)
    (hidle : (s.core ci).lineBusy (d.num.getD (s.core ci).nextNum) none .a d.line true = false) :
    execNeighbourDeposit ci 0 s =
      .next (((s.setCore ci ((s.core ci).deposited d ds)).modCore d.tile (Core.depositDone d)).serveAll ci) := by
  have hunlocked : ((s.core ci).groups.any fun e => e.2.locks .a d.line) = false := by simpa using hlocks
  unfold execNeighbourDeposit
  simp only [hd, List.getElem?_cons_zero, List.take_zero, List.any_nil, Bool.false_eq_true, if_false, hthere, hunlocked, hidle, Bool.not_true,
    Bool.or_self, Core.setBuf_deposits, List.eraseIdx_cons_zero] <;> rfl

theorem execNeighbourDeposit_waits (hbusy : ¬ ((s.core ci).presentFor (d.num.getD (s.core ci).nextNum) .a d.line = true ∧
      (∀ e ∈ (s.core ci).groups, e.2.locks .a d.line = false) ∧
      (s.core ci).lineBusy (d.num.getD (s.core ci).nextNum) none .a d.line true = false)) :
    execNeighbourDeposit ci 0 s = .next (s.setCore ci { s.core ci with
      nextNum := max (s.core ci).nextNum (d.num.getD (s.core ci).nextNum + 1)
      deposits := { d with num := some (d.num.getD (s.core ci).nextNum) } :: ds }) := by
  unfold execNeighbourDeposit
  simp only [hd, List.getElem?_cons_zero, List.take_zero, List.any_nil, Bool.false_eq_true, if_false, List.nil_append, List.drop_succ_cons,
    List.drop_zero]
  refine if_pos ?_
  by_contra hfree
  refine hbusy ?_
  simpa [and_assoc] using hfree

end

/-! ## Presence (R158) -/

/-- The group of a slot after a line became present: ready where it was parked on it and no earlier copy holds it absent. -/
def Core.woken (c : Core) (b : Buf) (line : Nat) (g : Group) : Group :=
  if g.status == .parked b line && c.presentFor ((g.place.map Prod.fst).getD c.nextNum) b line then { g with status := .ready } else g

theorem Core.wakeParked_group? (c : Core) (b : Buf) (line gi : Nat) : (c.wakeParked b line).group? gi = (c.group? gi).map (c.woken b line) := by
  have hmap : (c.wakeParked b line).groups = List.map (fun e : Nat × Group => (e.1, c.woken b line e.2)) c.groups := by
    refine List.map_congr_left fun e _ => ?_
    obtain ⟨k, g⟩ := e
    unfold Core.woken
    cases hp : g.place <;> simp only [hp, Option.map_none, Option.map_some, Option.getD_none, Option.getD_some] <;> split <;> rfl
  rw [Core.group?, hmap]
  exact NMap.at?_map_val c.groups _ gi

end Sys2Proof.Machine

namespace Sys2Proof.Proofs

open Sys2Proof.Machine Sys2Proof.Safety Sys2Proof.Claims

/-- Settles O35: each event changes the core as one equation about its function says; the tokens held for a block, and the requests that
go on, are served from the state that it names. -/
theorem coreUnitEvents : Obligations.CoreUnitEvents := by
  intro ci s c
  refine ⟨?_, ?_, ?_, ?_, ?_, ?_⟩
  · intro k b hbound hnew hstays
    refine ⟨_, (exec_blockFetchComplete ci k s).trans (execBlockFetchComplete_opens hbound hstays hnew), ?_, ?_, ?_⟩
    · rw [State.core_setCore_same]
    · rw [State.core_setCore_same]; rfl
    · rw [State.core_setCore_same]; exact Core.slot_setSlot_same _ _ _
  · intro gi g f t hg hq hover
    obtain ⟨h, hw, honly⟩ := s.qwaitEnd_only ci gi f g 0
    refine ⟨h, hw, _, ?_, honly⟩
    rw [exec_qwaitTimeout, execQwaitTimeout]
    simp only [show (s.core ci).group? gi = some g from hg, show qwaitAt (s.core ci) g = some (f, t) from hq]
    rw [if_pos (by simpa [qwaitLimit] using hover)]
  · intro table x gi g hx hg hfree hlines
    refine ⟨_, (exec_tloadCopy ci table s).trans (execTloadCopy_copies hx hg hfree hlines), ?_, ?_, ?_, State.setCore_coresKept _ _ _, .of_mem rfl⟩
    · rw [State.core_setCore_same]
      rw [Core.tableCopied_table, Core.tableImage_bytes]
    · rw [State.core_setCore_same]
      exact Core.group?_setGroup_same _ _ _
    · intro y hy
      rw [State.core_setCore_same] at hy
      exact bne_iff_ne.mp (List.mem_filter.mp hy).2
  · intro l hl hopen hover
    refine ⟨?_, Core.failLatch_open hl hopen⟩
    rw [exec_gangRendezvousTimeout, execGangRendezvousTimeout]
    simp only [show (s.core ci).gang = some l from hl]
    rw [if_pos (by simpa [hopen] using hover)]
  · intro d ds hd num free
    refine ⟨fun hfree => ?_, fun hbusy => (exec_neighbourDeposit ci 0 s).trans (execNeighbourDeposit_waits hd hbusy)⟩
    obtain ⟨hthere, hlocks, hidle⟩ := hfree
    refine ⟨_, (exec_neighbourDeposit ci 0 s).trans (execNeighbourDeposit_free hd hthere hlocks hidle), ?_, ?_, ?_, ?_, .of_mem rfl⟩
    · rw [State.core_modCore_part Core.bufA (f := Core.depositDone d) (fun _ => rfl), State.core_setCore_same]; rfl
    · rw [State.core_modCore_part Core.deposits (f := Core.depositDone d) (fun _ => rfl), State.core_setCore_same]; rfl
    · intro r hr hnum
      rw [State.core_modCore_same]
      refine mem_replaceIf_of (f := fun r : CommitRec => { r with deposits := r.deposits.erase d.epoch }) ?_ (by simpa using hnum)
      by_cases hself : d.tile = ci
      · rw [hself, State.core_setCore_same]
        rw [hself] at hr
        exact hr
      · rw [State.core_setCore_other _ _ _ _ hself]
        exact hr
    · intro cj hci htile
      rw [State.core_modCore_other _ _ _ _ htile, State.core_setCore_other _ _ _ _ hci]
  · intro buf line
    refine ⟨_, exec_presenceSetResume ci buf line s, ?_, ?_, ?_⟩
    · rw [State.core_modCore_same]; rfl
    · intro gi g hg hparked
      rw [State.core_modCore_same, Core.wakeParked_group?, show (s.core ci).group? gi = some g from hg, Option.map_some, Core.woken, hparked]
      exact ⟨fun h => by rw [if_pos (by simpa using h)], fun h => by rw [if_neg (by simpa using h)]⟩
    · intro gi g hg hparked
      rw [State.core_modCore_same, Core.wakeParked_group?, show (s.core ci).group? gi = some g from hg, Option.map_some, Core.woken,
        if_neg (by simp [hparked])]

end Sys2Proof.Proofs

end

section
/-! SUPPORT. What a pre-emption marker does to a rendezvous latch that is complete (R258, R392). -/

namespace Sys2Proof.Machine

open Sys2Proof.Safety Sys2Proof.Claims

/-- A rendezvous latch with both its members, which only waits for room in the matrix queue. -/
def completeLatch : GangLatch := { members := [MatOp.plain 0 0 .mma 0 0, MatOp.plain 1 1 .mma 0 0], opened := 0, full := true }

/-- A region that is being saved. -/
def savedRegion : Region :=
  { num := 1, asid := 0, key := 0, tenant := 0, cores := [0], steward := false, recPA := 0, complPA := 0, seq := 0, armedAt := 0, colours := [],
    flth := 0, fid := 1, sinks := [], blocks := [], sweep := none, quiescent := false, stalled := none, ending := some (.saving 0x10000),
    reconfig := none, ports := [] }

/-- Core 0 of that region holds that latch. -/
def completeLatchState : State :=
  { State.reset with cores := [(0, { Core.empty with region := some 1, gang := some completeLatch })],
                     dev := { Device.reset with regions := [savedRegion] } }

theorem completeLatchState_region : completeLatchState.coreRegion? 0 = some savedRegion := rfl

/-- A latch that is complete does not fail. -/
theorem Core.failLatch_full {c : Core} {l : GangLatch} (hl : c.gang = some l) (hfull : l.full = true) : c.failLatch = c := by
  unfold Core.failLatch
  simp only [hl, hfull, if_true]

end Sys2Proof.Machine

namespace Sys2Proof.Proofs

open Sys2Proof.Machine Sys2Proof.Safety Sys2Proof.Claims

/-- Refutes O48: the marker reaches `completeLatchState`, and its latch, which is complete and so does not fail (R258), stays in place. -/
theorem not_preemptionAndClolasEvents : ¬ Obligations.PreemptionAndClolasEvents := by
  intro h
  obtain ⟨-, -, hmarker, -⟩ := h 0 completeLatchState
  obtain ⟨u, hu, -, hgang, -⟩ := hmarker savedRegion 0x10000 0 completeLatchState_region rfl
  have hlatch : (completeLatchState.core 0).gang = some completeLatch := rfl
  rw [exec_preemptionMarker, execPreemptionMarker] at hu
  simp only [completeLatchState_region, savedRegion, Host.Outcome.next.injEq] at hu
  rw [← hu, State.core_modCore_same, Core.failLatch_full hlatch rfl] at hgang
  exact absurd (hlatch.symm.trans hgang) (by simp)

end Sys2Proof.Proofs

end

section
/-! SUPPORT. A host's read at a slice where an access stands whose number is that of the read (R109, R428). -/

namespace Sys2Proof.Machine

open Sys2Proof.Safety Sys2Proof.Claims

/-- An access of another agent that stands at the slice of line 0 under the number of the next arrival: a write of 1 to byte 0. -/
def comingWrite : SliceEnt := { who := 0, at_ := 0, seq := 0, req := .agent 0 [(0, 1)] }

/-- The device after reset with that access in the queue of the line's home slice. -/
def comingWriteState : State := { State.reset with slices := [(permitHome State.reset 0, { Slice.empty with queue := [comingWrite] })] }

/-- The turn that a read of line 0 gives goes to that access. -/
theorem comingWriteState_read : (comingWriteState.lineAgent reqHost 0 []).memByte 0 = 1 := by
  decide +kernel

end Sys2Proof.Machine

namespace Sys2Proof.Proofs

open Sys2Proof.Machine Sys2Proof.Safety Sys2Proof.Claims

/-- Refutes O45: in `comingWriteState` a read of line 0 by the host performs the write that stands there under the read's number, so a byte of
memory changes. -/
theorem not_packageEvents : ¬ Obligations.PackageEvents := by
  intro h
  obtain ⟨-, -, -, -, -, -, -, -, -, -, -, -, -, hread, -⟩ := h comingWriteState
  obtain ⟨hkept, -⟩ := hread 0 (by decide)
  obtain ⟨-, hmem⟩ := hkept (by decide)
  have hzero : (1 : Byte) = 0 := comingWriteState_read.symm.trans (hmem 0)
  exact absurd hzero (by decide)

end Sys2Proof.Proofs

end

section
/-! SUPPORT. Memory as the device's units read it behind any accesses of other agents (R109, R381): the bytes of the last line that a unit wrote
are read at once. -/

namespace Sys2Proof.Machine

open Sys2Proof.Safety Sys2Proof.Claims

/-! ## Lists -/

/-- The entry of the greatest number is asked first. -/
theorem findSome?_sortBy_top {α β : Type} {g : Nat × α → Option β} {es : List (Nat × α)} {w : Nat × α} {b : β} (hw : w ∈ es) (hg : g w = some b)
    (htop : ∀ x ∈ es, x = w ∨ x.1 < w.1) : (sortBy descending es).findSome? g = some b := by
  cases hL : sortBy descending es with
  | nil => exact absurd (mem_sortBy (le := descending) |>.mpr hw) (hL ▸ List.not_mem_nil)
  | cons x L =>
    obtain ⟨hx, hhead⟩ := sortBy_head (le := descending) (fun a b => by simp only [descending, decide_eq_true_eq]; omega)
      (fun a b c => by simp only [descending, decide_eq_true_eq]; omega) hL
    have hle : w.1 ≤ x.1 := of_decide_eq_true (hhead w hw)
    obtain rfl : x = w := (htop x hx).resolve_right (by omega)
    rw [List.findSome?_cons, hg]

theorem dedup_concat {α : Type} [DecidableEq α] (l : List α) (x : α) : dedup (l ++ [x]) = if x ∈ l then dedup l else dedup l ++ [x] := by
  induction l with
  | nil => rfl
  | cons a l ih =>
    rw [List.cons_append, dedup, ih]
    by_cases hl : x ∈ l
    · rw [if_pos hl, if_pos (List.mem_cons_of_mem _ hl), dedup]
    · rw [if_neg hl]
      by_cases ha : x = a
      · rw [if_pos (ha ▸ List.mem_cons_self), List.filter_append, ha, dedup]
        simp
      · rw [if_neg (by simp [ha, hl]), dedup, List.filter_append, List.cons_append]
        simp [ha]

/-- The distinct values of an ascending function end with its last one. -/
theorem dedup_range_last {f : Nat → Nat} (hf : ∀ i j, i ≤ j → f i ≤ f j) (n : Nat) :
    ∃ ls, dedup ((List.range (n + 1)).map f) = ls ++ [f n] := by
  induction n with
  | zero => exact ⟨[], rfl⟩
  | succ n ih =>
    rw [List.range_succ, List.map_append, List.map_singleton, dedup_concat]
    split
    · next h =>
      obtain ⟨i, hi, hfi⟩ := List.mem_map.mp h
      have hle := hf i n (by have := List.mem_range.mp hi; omega)
      have hstep := hf n (n + 1) (by omega)
      rwa [show f (n + 1) = f n by omega]
    · exact ⟨_, rfl⟩

/-- The place of an element that stands once in a list. -/
theorem index_of_middle {α : Type} {l1 l2 : List α} {a : α} {idx : Nat} (h : (l1 ++ a :: l2)[idx]? = some a) (h1 : a ∉ l1) (h2 : a ∉ l2) :
    idx = l1.length := by
  rcases Nat.lt_trichotomy idx l1.length with hlt | heq | hgt
  · rw [List.getElem?_append_left hlt] at h
    exact absurd (List.mem_of_getElem? h) h1
  · exact heq
  · rw [List.getElem?_append_right (by omega), show idx - l1.length = idx - l1.length - 1 + 1 by omega, List.getElem?_cons_succ] at h
    exact absurd (List.mem_of_getElem? h) h2

/-! ## Writes of units that came before -/

theorem unitWrite_eq_some {q : SliceEnt} {w : Nat × List (Nat × Byte)} (h : unitWrite q = some w) :
    q.who = reqSteward ∧ q.seq = w.1 ∧ ∃ ln bs, q.req = .agent ln bs := by
  unfold unitWrite at h
  split at h
  · next ln bs hreq =>
    split at h
    · next hwho => exact ⟨hwho, congrArg Prod.fst (Option.some.inj h), ln, bs, hreq⟩
    · cases h
  · cases h

/-- Every write of a unit that is lined up came before now. -/
def UnitsPast (s : State) : Prop := ∀ w ∈ s.unitWrites, w.1 < s.arrivals

theorem unitsPast_of_others {s : State} (h : ∀ e ∈ s.slices, ∀ q ∈ e.2.queue, q.who ≠ reqSteward) : UnitsPast s := fun w hw => by
  obtain ⟨e, he, q, hq, hw⟩ := State.mem_unitWrites.mp hw
  rw [unitWrite_of_who (h e he q hq)] at hw
  cases hw

/-- What becomes of a unit's write to a line: it is lined up behind every other unit's; or it is performed, and no unit's is lined up. -/
structure UnitWaits (ln : Nat) (bs : List (Nat × Byte)) (s t : State) : Prop where
  stands : s.unitWriteNow ln bs ∈ t.unitWrites
  others : ∀ w ∈ t.unitWrites, w ∈ s.unitWrites ∨ w = s.unitWriteNow ln bs

structure UnitDone (ln : Nat) (bs : List (Nat × Byte)) (s t : State) : Prop where
  none : t.unitWrites = []
  mem : t.mem = lineStored s.mem ln bs

/-- An access with an earlier one of its agent lined up waits. -/
theorem State.tryAgent_behind {s : State} {k idx ln : Nat} {e q : SliceEnt} {bs bs' : List (Nat × Byte)} {ln' : Nat}
    (he : (s.slice k).queue[idx]? = some e) (hreq : e.req = .agent ln bs) {y : Nat × Slice} (hy : y ∈ s.slices) (hq : q ∈ y.2.queue)
    (hwho : q.who = e.who) (hseq : q.seq < e.seq) (hagent : q.req = .agent ln' bs') : s.tryAgent k idx = s := by
  unfold State.tryAgent
  simp only [he, hreq]
  exact if_pos (List.any_eq_true.mpr ⟨y, hy, List.any_eq_true.mpr ⟨q, hq, by simp [hwho, hseq, hagent]⟩⟩)

theorem State.tryAgent_other {s : State} {k idx : Nat} {e : SliceEnt} (he : (s.slice k).queue[idx]? = some e)
    (hreq : ∀ ln bs, e.req ≠ .agent ln bs) : s.tryAgent k idx = s := by
  unfold State.tryAgent
  simp only [he]

/-- A queue that a state lists or takes from another holds no more writes of units than both. -/
theorem State.unitWrites_of_listed {s t : State} {k : Nat}
    (h : ∀ e ∈ t.slices, e ∈ s.slices ∨ ∀ q ∈ e.2.queue, q ∈ (s.slice k).queue) {w : Nat × List (Nat × Byte)} (hw : w ∈ t.unitWrites) :
    w ∈ s.unitWrites := by
  obtain ⟨e, he, q, hq, hw⟩ := State.mem_unitWrites.mp hw
  rcases h e he with he | he
  · exact State.mem_unitWrites.mpr ⟨e, he, q, hq, hw⟩
  · exact State.unitWrite_listed (he q hq) hw

theorem QueueKept.unitWrites {s t : State} {k : Nat} (h : QueueKept k s t) {w : Nat × List (Nat × Byte)} (hw : w ∈ t.unitWrites) :
    w ∈ s.unitWrites :=
  State.unitWrites_of_listed (fun e he => (h.listed e he).imp_right fun he _ hq => he ▸ hq) hw

/-- The slices of a state out of one of whose queues an entry was taken. -/
theorem State.unqueue_listed {s t u : State} {k idx : Nat} {S : NMap Slice} (hS : ListedBeside k S s.slices) (hu : QueueKept k s u)
    (ht : QueueKept k (u.unqueue k idx) t) :
    (t.slice k).queue = (s.slice k).queue.eraseIdx idx ∧ ∀ e ∈ t.slices, e ∈ S ∨ e.2.queue = (t.slice k).queue := by
  have hunq : ((u.unqueue k idx).slice k).queue = (s.slice k).queue.eraseIdx idx := by
    rw [State.unqueue, State.slice_setSlice_same]
    exact congrArg (·.eraseIdx idx) hu.queue
  refine ⟨ht.queue.trans hunq, fun e he => ?_⟩
  rcases ht.listed e he with he | he
  · rcases (hu.beside S hS).mem_put he with rfl | he
    · refine .inr (Eq.trans ?_ ht.queue.symm)
      rw [State.unqueue, State.slice_setSlice_same]
    · exact .inl he
  · exact .inr (he.trans ht.queue.symm)

section
variable {s : State} (ln : Nat) (bs : List (Nat × Byte))

/-- A unit's write is lined up in its place, and a turn goes to an access under its number. -/
theorem State.lineAgent_turnOf (s : State) (ln : Nat) (bs : List (Nat × Byte)) :
    let k := permitHome s ln
    let v := s.enqueue k reqSteward (.agent ln bs)
    ∃ l1 l2 idx e, (s.slice k).queue = l1 ++ l2 ∧ (v.slice k).queue = l1 ++ s.agentEnt reqSteward ln bs :: l2 ∧
      (v.slice k).queue[idx]? = some e ∧ e.seq = s.arrivals ∧ s.lineAgent reqSteward ln bs = v.tryAgent k idx := by
  intro k v
  obtain ⟨l1, l2, hold, hnew⟩ := insertBy_split (fun a b : SliceEnt => a.at_ < b.at_ || (a.at_ == b.at_ && a.who < b.who))
    (s.agentEnt reqSteward ln bs) (s.slice k).queue
  have hqueue : (v.slice k).queue = l1 ++ s.agentEnt reqSteward ln bs :: l2 := by
    rw [← hnew]
    exact congrArg Slice.queue (State.slice_setSlice_same _ _ _)
  cases hidx : (v.slice k).queue.findIdx? fun q => q.seq + 1 == v.arrivals with
  | none =>
    have h := List.findIdx?_eq_none_iff.mp hidx (s.agentEnt reqSteward ln bs) (hqueue ▸ List.mem_append_right _ List.mem_cons_self)
    exact absurd h (by simp [State.agentEnt, v, State.enqueue, State.setSlice])
  | some idx =>
    obtain ⟨hlt, hseq, -⟩ := List.findIdx?_eq_some_iff_getElem.mp hidx
    refine ⟨l1, l2, idx, _, hold, hqueue, List.getElem?_eq_getElem hlt, ?_, ?_⟩
    · have h := beq_iff_eq.mp hseq
      simpa [v, State.enqueue, State.setSlice] using h
    · unfold State.lineAgent
      simp only [hidx, k, v]

/-- The writes of units after one is lined up: it and the earlier ones. -/
theorem State.enqueue_unitWrites {w : Nat × List (Nat × Byte)}
    (hw : w ∈ (s.enqueue (permitHome s ln) reqSteward (.agent ln bs)).unitWrites) : w ∈ s.unitWrites ∨ w = s.unitWriteNow ln bs := by
  obtain ⟨l1, l2, _, _, hold, hnew, -⟩ := s.lineAgent_turnOf ln bs
  obtain ⟨e, he, q, hq, hw⟩ := State.mem_unitWrites.mp hw
  have hqueue : q ∈ l1 ++ s.agentEnt reqSteward ln bs :: l2 ∨ e ∈ s.slices := by
    rcases State.mem_enqueue he with he | he
    · exact .inr he
    · exact .inl (hnew ▸ he ▸ hq)
  rcases hqueue with hq | he
  · rw [List.mem_append, List.mem_cons] at hq
    rcases hq with hq | rfl | hq
    · exact .inl (State.unitWrite_listed (hold ▸ List.mem_append_left _ hq) hw)
    · rw [unitWrite_agentEnt] at hw
      exact .inr (Option.some.inj hw).symm
    · exact .inl (State.unitWrite_listed (hold ▸ List.mem_append_right _ hq) hw)
  · exact .inl (State.mem_unitWrites.mpr ⟨e, he, q, hq, hw⟩)

/-- A unit's write is lined up or performed. -/
theorem State.lineAgent_unit (hs : UnitsPast s) :
    UnitWaits ln bs s (s.lineAgent reqSteward ln bs) ∨ UnitDone ln bs s (s.lineAgent reqSteward ln bs) := by
  obtain ⟨l1, l2, idx, e, hold, hnew, he, hseq, hrun⟩ := s.lineAgent_turnOf ln bs
  rw [hrun]
  generalize hk : permitHome s ln = k at *
  generalize hv : s.enqueue k reqSteward (.agent ln bs) = v at *
  have hwrites {w : Nat × List (Nat × Byte)} (hw : w ∈ v.unitWrites) : w ∈ s.unitWrites ∨ w = s.unitWriteNow ln bs :=
    State.enqueue_unitWrites ln bs (by rwa [hk, hv])
  have hent : s.agentEnt reqSteward ln bs ∈ (v.slice k).queue := hnew ▸ List.mem_append_right _ List.mem_cons_self
  have hfresh {q : SliceEnt} (hq : q ∈ (s.slice k).queue) : q ≠ s.agentEnt reqSteward ln bs := fun h => by
    have := hs _ (State.unitWrite_listed hq (h ▸ unitWrite_agentEnt s ln bs))
    exact absurd this (Nat.lt_irrefl _)
  have hstays : UnitWaits ln bs s v := ⟨State.unitWrite_listed hent (unitWrite_agentEnt s ln bs), fun _ => hwrites⟩
  by_cases hagent : ∀ ln' bs', e.req ≠ .agent ln' bs'
  · rw [State.tryAgent_other he hagent]
    exact .inl hstays
  obtain ⟨ln', bs', hreq⟩ : ∃ ln' bs', e.req = .agent ln' bs' := by simpa using hagent
  rcases State.tryAgent_cases he hreq with ⟨hkept, -⟩ | ⟨hmem, u, hu, ht⟩
  · exact .inl ⟨State.unitWrite_listed (hkept.queue ▸ hent) (unitWrite_agentEnt s ln bs), fun w hw => hwrites (hkept.unitWrites hw)⟩
  · obtain ⟨hqueue, hlisted⟩ := State.unqueue_listed (.self k v.slices) hu ht
    have hless {w : Nat × List (Nat × Byte)} (hw : w ∈ (v.tryAgent k idx).unitWrites) : w ∈ v.unitWrites :=
      State.unitWrites_of_listed (fun e he => (hlisted e he).imp_right fun h _ hq => List.mem_of_mem_eraseIdx (hqueue ▸ h ▸ hq)) hw
    by_cases hown : e = s.agentEnt reqSteward ln bs
    · have hidx : idx = l1.length := index_of_middle (by rw [← hnew, he, hown])
        (fun h => hfresh (hold ▸ List.mem_append_left _ h) rfl) fun h => hfresh (hold ▸ List.mem_append_right _ h) rfl
      have herased : ((v.tryAgent k idx).slice k).queue = l1 ++ l2 := by
        rw [hqueue, hnew, hidx, List.eraseIdx_append_of_length_le (le_refl _), Nat.sub_self, List.eraseIdx_cons_zero]
      have hbeside : ListedBeside k s.slices v.slices := hv ▸ (ListedBeside.self k s.slices).put _ _
      refine .inr ⟨List.eq_nil_iff_forall_not_mem.mpr fun w hw => ?_, ?_⟩
      · have hearlier : w ∈ s.unitWrites := State.unitWrites_of_listed (k := k) (fun y hy =>
          ((State.unqueue_listed hbeside hu ht).2 y hy).imp_right fun h q hq => by rwa [h, herased, ← hold] at hq) hw
        obtain ⟨y, hy, q, hq, hqw⟩ := State.mem_unitWrites.mp (hless hw)
        obtain ⟨hwho, hqseq, ln1, bs1, hqreq⟩ := unitWrite_eq_some hqw
        have hbehind : v.tryAgent k idx = v := State.tryAgent_behind he hreq hy hq (by rw [hwho, hown]; rfl)
          (by rw [hqseq, hseq]; exact hs w hearlier) hqreq
        rw [hbehind, hnew] at herased
        exact absurd (congrArg List.length herased) (by simp)
      · rw [hown] at hreq
        injection hreq with h1 h2
        rw [hmem, ← h1, ← h2, ← hv]
        rfl
    · have hplace : s.agentEnt reqSteward ln bs ∈ ((v.tryAgent k idx).slice k).queue := by
        rw [hqueue, List.mem_eraseIdx_iff_getElem?]
        obtain ⟨i, hi⟩ := List.getElem?_of_mem hent
        refine ⟨i, fun h => hown ?_, hi⟩
        rw [h, he] at hi
        exact Option.some.inj hi
      exact .inl ⟨State.unitWrite_listed hplace (unitWrite_agentEnt s ln bs), fun w hw => hwrites (hless hw)⟩

omit ln bs in
theorem State.tryAgent_arrivals (k idx : Nat) : (s.tryAgent k idx).arrivals = s.arrivals := by
  cases he : (s.slice k).queue[idx]? with
  | none => unfold State.tryAgent; simp only [he]
  | some e =>
    by_cases hagent : ∀ ln bs, e.req ≠ .agent ln bs
    · rw [State.tryAgent_other he hagent]
    · obtain ⟨ln, bs, hreq⟩ : ∃ ln bs, e.req = .agent ln bs := by simpa using hagent
      rcases State.tryAgent_cases he hreq with ⟨hkept, -⟩ | ⟨-, u, hu, ht⟩
      · exact hkept.arrivals
      · exact ht.arrivals.trans hu.arrivals

theorem State.lineAgent_arrivals (s : State) (ln : Nat) (bs : List (Nat × Byte)) : (s.lineAgent reqSteward ln bs).arrivals = s.arrivals + 1 := by
  obtain ⟨_, _, _, _, -, -, -, -, hrun⟩ := s.lineAgent_turnOf ln bs
  rw [hrun, State.tryAgent_arrivals]
  rfl

theorem UnitsPast.lineAgent (hs : UnitsPast s) : UnitsPast (s.lineAgent reqSteward ln bs) := fun w hw => by
  rw [State.lineAgent_arrivals]
  rcases State.lineAgent_unit ln bs hs with h | h
  · rcases h.others w hw with hold | rfl
    · exact Nat.lt_succ_of_lt (hs w hold)
    · exact Nat.lt_succ_self _
  · rw [h.none] at hw
    exact absurd hw List.not_mem_nil

/-- The bytes that a unit wrote to a line are read at once. -/
theorem State.lineAgent_reads (hs : UnitsPast s) (hbs : (bs.map Prod.fst).Nodup) {a : Nat} {b : Byte}
    (hb : byteAt? (lineBytes ln bs) (canonPA a) = some b) : (s.lineAgent reqSteward ln bs).rdByte a = b := by
  rw [State.rdByte_eq]
  rcases State.lineAgent_unit ln bs hs with h | h
  · rw [findSome?_sortBy_top h.stands hb fun w hw => (h.others w hw).symm.imp_right fun hold => hs w hold, Option.getD_some]
  · rw [h.none, State.memByte, h.mem, read_lineStored hbs, hb, Option.getD_some]
    rfl

end

/-! ## A unit's write of a block in the linear view of HBM -/

theorem UnitsPast.agentWrite {s : State} (hs : UnitsPast s) (pa : Nat) (bs : List Byte) : UnitsPast (s.agentWrite pa bs) :=
  List.foldlRecOn (motive := UnitsPast) _ _ hs fun _ hu ln _ => hu.lineAgent ln _

/-- Addresses of the linear view of HBM are canonical (R79). -/
theorem canonPA_linear {a : Nat} (h : a < 0x6000000000) : canonPA a = a := if_neg (by omega)

section
variable {pa : Nat} {bs : List Byte} (hlin : pa + bs.length ≤ 0x6000000000)
include hlin

theorem lineBytes_linePart_linear (ln : Nat) :
    lineBytes ln (linePart pa bs ln) = (blockBytes pa bs).filter fun e => lineOf e.1 == ln := by
  rw [lineBytes, linePart, List.map_filterMap, blockBytes, List.filter_map, ← List.filterMap_eq_map, ← List.filterMap_eq_filter, List.filterMap_filterMap]
  refine List.filterMap_congr fun e he => ?_
  have hi : e.2 < bs.length := (List.mem_zipIdx' he).1
  have hadd : canonPA (pa + e.2) = pa + e.2 := canonPA_linear (by omega)
  rw [hadd]
  by_cases hln : lineOf (pa + e.2) = ln
  · simp [hln, Option.guard]
    rw [← hln, lineOf]
    omega
  · simp [hln, Option.guard]

theorem byteAt?_linePart_linear {i : Nat} {b : Byte} (hb : bs[i]? = some b) :
    byteAt? (lineBytes (lineOf (pa + i)) (linePart pa bs (lineOf (pa + i)))) (pa + i) = some b := by
  rw [lineBytes_linePart_linear hlin, byteAt?, List.find?_filter]
  have hkey : (fun e : Nat × Byte => decide ((lineOf e.1 == lineOf (pa + i)) = true ∧ (e.1 == pa + i) = true)) = fun e => e.1 == pa + i := by
    funext e
    by_cases he : e.1 = pa + i <;> simp [he]
  rw [hkey]
  refine (byteAt?_blockBytes pa bs (pa + i)).trans ?_
  rw [if_pos (by omega), Nat.add_sub_cancel_left, hb]

theorem linePart_nodup_linear (ln : Nat) : ((linePart pa bs ln).map Prod.fst).Nodup := by
  have hkeys : ((lineBytes ln (linePart pa bs ln)).map Prod.fst).Nodup := by
    rw [lineBytes_linePart_linear hlin]
    refine List.Nodup.sublist (List.filter_sublist.map _) ?_
    rw [blockBytes, List.map_map]
    have h : (bs.zipIdx.map Prod.snd).Nodup := by rw [List.zipIdx_map_snd]; exact List.nodup_range'
    exact (List.map_map (f := Prod.snd) (g := fun n => pa + n) (l := bs.zipIdx)) ▸ h.map fun a b h => by simpa using h
  rw [lineBytes, List.map_map] at hkeys
  exact (List.map_map (f := Prod.fst) (g := fun n => ln * 128 + n) ▸ hkeys).of_map _

/-- A unit's write of a block: its bytes in the last line that it touches are read at once. -/
theorem State.agentWrite_lastLine {s : State} (hs : UnitsPast s) {i : Nat} {b : Byte} (hb : bs[i]? = some b)
    (hlast : lineOf (pa + i) = lineOf (pa + (bs.length - 1))) : (s.agentWrite pa bs).rdByte (pa + i) = b := by
  have hi : i < bs.length := (List.getElem?_eq_some_iff.mp hb).1
  obtain ⟨ls, hls⟩ := dedup_range_last (f := fun i => lineOf (pa + i)) (fun i j h => Nat.div_le_div_right (by omega)) (bs.length - 1)
  rw [Nat.sub_add_cancel (by omega : 1 ≤ bs.length)] at hls
  have hlines : (List.range bs.length).map (fun i => lineOf (canonPA (pa + i))) = (List.range bs.length).map fun i => lineOf (pa + i) :=
    List.map_congr_left fun j hj => by rw [canonPA_linear (by have := List.mem_range.mp hj; omega)]
  rw [State.agentWrite, State.lineWrite, hlines, hls, List.foldl_append, List.foldl_cons, List.foldl_nil, ← hlast]
  have hpast : UnitsPast (ls.foldl (fun s ln => s.lineAgent reqSteward ln (linePart pa bs ln)) s) :=
    List.foldlRecOn (motive := UnitsPast) _ _ hs fun u hu ln _ => hu.lineAgent ln _
  exact State.lineAgent_reads _ _ hpast (linePart_nodup_linear hlin _) (by
    rw [canonPA_linear (by omega)]
    exact byteAt?_linePart_linear hlin hb)

end

end Sys2Proof.Machine
end

section
/-! SUPPORT. What no routine work of the units changes: spans, switches, time, and of the device all but its regions, requests, bundles and logs. -/

namespace Sys2Proof.Machine

open Sys2Proof.Safety Sys2Proof.Claims

/-! ## The frame -/

/-- State s with what the units' routine work may change as t has it: memory, cores, dies, slices and packets, and of the device the regions,
requests, bundles and logs. -/
def State.under (s t : State) : State :=
  { s with
    freeCount := t.freeCount, arrivals := t.arrivals, mem := t.mem, stale := t.stale, poisoned := t.poisoned, memErr := t.memErr,
    cores := t.cores, dies := t.dies, slices := t.slices, poolState := t.poolState, hostState := t.hostState, recalls := t.recalls,
    transit := t.transit, wire := t.wire
    dev := { s.dev with regions := t.dev.regions, requests := t.dev.requests, bundles := t.dev.bundles, log := t.dev.log,
                        stewardRecs := t.dev.stewardRecs, nextReq := t.dev.nextReq } }

/-- Between the states nothing else changed. -/
structure Routine (s t : State) : Prop where
  eq : t = s.under t

theorem Routine.refl (s : State) : Routine s s := ⟨rfl⟩

theorem Routine.trans {s t u : State} (a : Routine s t) (b : Routine t u) : Routine s u :=
  ⟨b.eq.trans (congrArg (State.under · u) a.eq :)⟩

theorem Routine.foldl {α : Type} {f : State → α → State} (hf : ∀ s x, Routine s (f s x)) (xs : List α) (s : State) : Routine s (xs.foldl f s) :=
  List.foldlRecOn (motive := Routine s) _ _ (.refl s) fun u hu x _ => hu.trans (hf u x)

section
variable {s t : State} (h : Routine s t)
include h

theorem Routine.spans : t.spans = s.spans := (congrArg State.spans h.eq :)
theorem Routine.gtc : t.gtc = s.gtc := (congrArg State.gtc h.eq :)
theorem Routine.trihorn : t.dev.trihorn = s.dev.trihorn := (congrArg (·.dev.trihorn) h.eq :)
theorem Routine.onolo : t.dev.onolo = s.dev.onolo := (congrArg (·.dev.onolo) h.eq :)
theorem Routine.lost : t.dev.lost = s.dev.lost := (congrArg (·.dev.lost) h.eq :)
theorem Routine.incOf : t.dev.incOf = s.dev.incOf := (congrArg (·.dev.incOf) h.eq :)
theorem Routine.mcHeld : t.dev.mcHeld = s.dev.mcHeld := (congrArg (·.dev.mcHeld) h.eq :)
theorem Routine.inc : t.dev.inc = s.dev.inc := (congrArg (·.dev.inc) h.eq :)
theorem Routine.stage : t.dev.stage = s.dev.stage := (congrArg (·.dev.stage) h.eq :)
theorem Routine.mcTab : t.dev.mcTab = s.dev.mcTab := (congrArg (·.dev.mcTab) h.eq :)

end

theorem State.setCore_routine (s : State) (ci : Nat) (c : Core) : Routine s (s.setCore ci c) := ⟨rfl⟩
theorem State.modCore_routine (s : State) (ci : Nat) (f : Core → Core) : Routine s (s.modCore ci f) := ⟨rfl⟩
theorem State.setGroup_routine (s : State) (ci gi : Nat) (g : Group) : Routine s (s.setGroup ci gi g) := ⟨rfl⟩
theorem State.setSlice_routine (s : State) (k : Nat) (x : Slice) : Routine s (s.setSlice k x) := ⟨rfl⟩
theorem State.setDie_routine (s : State) (d : Nat) (x : Die) : Routine s (s.setDie d x) := ⟨rfl⟩
theorem State.setRegion_routine (s : State) (r : Region) : Routine s (s.setRegion r) := ⟨rfl⟩

/-! ## Lines at slices, and writes of units (R105 to R121, R428) -/

theorem State.keepStale_routine (s : State) (ln : Nat) : Routine s (s.keepStale ln) := by
  unfold State.keepStale; split <;> exact ⟨rfl⟩

theorem State.healLine_routine (s : State) (ln : Nat) (w : Bool) : Routine s (s.healLine ln w) := by
  unfold State.healLine; split <;> exact ⟨rfl⟩

theorem State.poolAcquire_routine (s : State) (ln : Nat) (w : Bool) : Routine s (s.poolAcquire ln w) := by
  unfold State.poolAcquire; split <;> exact ⟨rfl⟩

theorem State.hostAcquire_routine (s : State) (ln hs : Nat) (w : Bool) : Routine s (s.hostAcquire ln hs w) := by
  unfold State.hostAcquire
  split
  · refine Routine.foldl (fun s h => ?_) _ _
    split
    · exact ⟨rfl⟩
    · split <;> exact ⟨rfl⟩
  · exact ⟨rfl⟩

theorem State.homeClean_routine (s : State) (ln : Nat) : Routine s (s.homeClean ln) := by
  unfold State.homeClean
  split
  · exact ⟨rfl⟩
  · split
    · exact ⟨rfl⟩
    · refine Routine.foldl (fun s h => ?_) _ _
      split <;> exact ⟨rfl⟩
    · exact ⟨rfl⟩

theorem State.ask_routine (s : State) (k ln : Nat) (e : Bool) (pol : Nat) : Routine s (s.ask k ln e pol) := by
  unfold State.ask
  dsimp only
  split
  · exact ⟨rfl⟩
  · split <;> exact ⟨rfl⟩

theorem State.evictFor_routine {s t : State} {k ln : Nat} (h : s.evictFor k ln = some t) : Routine s t := by
  unfold State.evictFor at h
  dsimp only at h
  split at h
  · cases h; exact ⟨rfl⟩
  · obtain ⟨v, -, rfl⟩ := Option.map_eq_some_iff.mp h
    split
    · exact (State.setSlice_routine _ _ _).trans (State.homeClean_routine _ _)
    · exact ⟨rfl⟩

theorem State.placeLine_routine {s t : State} {k ln pol : Nat} (h : s.placeLine k ln pol = some t) : Routine s t := by
  unfold State.placeLine at h
  dsimp only at h
  obtain ⟨u, hu, rfl⟩ := Option.map_eq_some_iff.mp h
  have hsu : Routine s u := by
    split at hu
    · cases hu; exact ⟨rfl⟩
    · exact State.evictFor_routine hu
  refine hsu.trans ?_
  split
  · split <;> exact ⟨rfl⟩
  · exact ⟨rfl⟩

theorem State.seat_routine {s t : State} {k ln pol : Nat} {w b : Bool} (h : s.seat k ln pol w = (b, t)) : Routine s t := by
  unfold State.seat at h
  split at h
  · obtain ⟨-, rfl⟩ := Prod.mk.inj h; exact ⟨rfl⟩
  · next e => obtain ⟨-, rfl⟩ := Prod.mk.inj h; exact State.placeLine_routine e

theorem State.mayServe_routine {s t : State} {k i ln pol : Nat} {n : Need} {m : Option Nat} {b : Bool}
    (h : s.mayServe k i ln n pol m = (b, t)) : Routine s t := by
  unfold State.mayServe at h
  dsimp only at h
  split at h
  · obtain ⟨-, rfl⟩ := Prod.mk.inj h; exact ⟨rfl⟩
  · generalize (if (n == Need.read) = true then 1 else 32) = m at h
    split at h
    · obtain ⟨-, rfl⟩ := Prod.mk.inj h; exact State.ask_routine _ _ _ _ _
    · obtain ⟨-, rfl⟩ := Prod.mk.inj h; exact ⟨rfl⟩

theorem State.storeLine_routine (s : State) (k ln : Nat) (bytes : List (Nat × Byte)) : Routine s (s.storeLine k ln bytes) := by
  unfold State.storeLine
  dsimp only
  refine Routine.trans ?_ (State.setSlice_routine _ _ _)
  refine Routine.trans ?_ (State.healLine_routine _ _ _)
  refine Routine.trans ?_ (Routine.foldl (f := fun (s : State) (e : Nat × Byte) => { s with mem := Memory.write s.mem (ln * 128 + e.1) e.2 })
    (fun _ _ => ⟨rfl⟩) _ _)
  have acquired : Routine s (((s.keepStale ln).poolAcquire ln true).hostAcquire ln (halvesOf (bytes.map Prod.fst)) true) :=
    ((State.keepStale_routine _ _).trans (State.poolAcquire_routine _ _ _)).trans (State.hostAcquire_routine _ _ _ _)
  split
  · refine acquired.trans (Routine.foldl (fun s h => ?_) _ _)
    split <;> exact ⟨rfl⟩
  · exact acquired

theorem State.tryAgent_routine (s : State) (k idx : Nat) : Routine s (s.tryAgent k idx) := by
  unfold State.tryAgent
  split
  · split
    · dsimp only
      split
      · exact ⟨rfl⟩
      · split
        · next e => exact State.mayServe_routine e
        · next e =>
          split
          · next e' => exact (State.mayServe_routine e).trans (State.seat_routine e')
          · next u e' =>
            refine ((State.mayServe_routine e).trans (State.seat_routine e')).trans ?_
            have taken : Routine u (u.unqueue k idx) := ⟨rfl⟩
            refine (taken.trans ?_).trans (State.setSlice_routine _ _ _)
            split
            · exact ⟨rfl⟩
            · exact State.storeLine_routine _ _ _ _
    · exact ⟨rfl⟩
  · exact ⟨rfl⟩

theorem State.lineAgent_routine (s : State) (who ln : Nat) (bs : List (Nat × Byte)) : Routine s (s.lineAgent who ln bs) := by
  have queued : Routine s (s.enqueue (permitHome s ln) who (.agent ln bs)) := ⟨rfl⟩
  unfold State.lineAgent
  dsimp only
  split
  · exact queued.trans (State.tryAgent_routine _ _ _)
  · exact queued

theorem State.agentWrite_routine (s : State) (pa : Nat) (bs : List Byte) : Routine s (s.agentWrite pa bs) :=
  Routine.foldl (fun s ln => State.lineAgent_routine s _ ln _) _ _

/-! ## Records and faults (R380 to R386) -/

theorem State.writeRecord_routine (s : State) (asid : Nat) (ws : List DWord) : Routine s (s.writeRecord asid ws) := by
  unfold State.writeRecord
  split
  · exact ⟨rfl⟩
  · dsimp only
    split
    · exact State.agentWrite_routine _ _ _
    · exact (State.agentWrite_routine _ _ _).trans (State.agentWrite_routine _ _ _)

theorem State.takeFid_routine (s : State) (r? : Option Region) : Routine s (s.takeFid r?).2 := by
  cases r? <;> exact ⟨rfl⟩

theorem State.recordFor_routine (s : State) (r? : Option Region) (asid src stamp : Nat) (cls : Cls) (parked ends : Bool) (tail : List DWord) :
    Routine s (s.recordFor r? asid src stamp cls parked ends tail).2 :=
  (State.takeFid_routine s r?).trans (State.writeRecord_routine _ _ _)

theorem State.sendHandler_routine (s : State) (r : Region) (fid cls parked ends : Nat) (who : Option Nat) :
    Routine s (s.sendHandler r fid cls parked ends who) := by
  unfold State.sendHandler
  dsimp only
  split
  · exact ⟨rfl⟩
  · split
    · exact State.recordFor_routine _ _ _ _ _ _ _ _ _
    · exact State.modCore_routine _ _ _

theorem State.raiseFor_routine (s : State) (r? : Option Region) (asid src stamp : Nat) (cls : Cls) (parked ends : Bool) (tail : List DWord)
    (who : Option Nat) (quiet : Bool) : Routine s (s.raiseFor r? asid src stamp cls parked ends tail who quiet).2 := by
  have recorded := State.recordFor_routine s r? asid src stamp cls parked ends tail
  cases r? with
  | none => rwa [State.raiseFor_none]
  | some r =>
    cases quiet with
    | true => rwa [State.raiseFor_some_quiet]
    | false =>
      rw [State.raiseFor_some_loud]
      exact recorded.trans (State.sendHandler_routine _ _ _ _ _ _ _)

theorem State.raise_routine (s : State) (asid src die : Nat) (cls : Cls) (parked ends : Bool) (tail : List DWord) (who : Option Nat)
    (quiet : Bool) : Routine s (s.raise asid src die cls parked ends tail who quiet).2 := State.raiseFor_routine _ _ _ _ _ _ _ _ _ _ _

theorem State.lateRecord_routine (s : State) (ci : Nat) (cls : Cls) (tail : List DWord) : Routine s (s.lateRecord ci cls tail) :=
  State.raise_routine _ _ _ _ _ _ _ _ _ _

theorem State.deadLetter_routine (s : State) (asid src die : Nat) (tail : List DWord) (lost : Bool) (who : Option Nat) :
    Routine s (s.deadLetter asid src die tail lost who) := State.raise_routine _ _ _ _ _ _ _ _ _ _

/-- A record to every region. -/
theorem State.toRegions_routine (s : State) (src die : Nat) (cls : Cls) (tail : List DWord) : Routine s (s.toRegions src die cls tail) :=
  Routine.foldl (fun _ _ => State.raiseFor_routine _ _ _ _ _ _ _ _ _ _ _) _ _

theorem State.leaveSlot_routine (s : State) (ci gi : Nat) : Routine s (s.leaveSlot ci gi) := by
  unfold State.leaveSlot
  dsimp only
  split <;> exact ⟨rfl⟩

theorem State.discardGroup_routine (s : State) (ci gi : Nat) : Routine s (s.discardGroup ci gi) := by
  unfold State.discardGroup
  split
  · exact ⟨rfl⟩
  · exact (State.modCore_routine _ _ _).trans (State.leaveSlot_routine _ _ _)

theorem State.beginEnd_routine (s : State) (num : Nat) (how : Ending) : Routine s (s.beginEnd num how) := by
  unfold State.beginEnd
  split
  · exact ⟨rfl⟩
  · refine (State.setRegion_routine _ _).trans (Routine.foldl (fun s ci => ?_) _ _)
    exact (Routine.foldl (fun s gi => State.discardGroup_routine s ci gi) _ _).trans (State.modCore_routine _ _ _)

theorem State.faultRecord_routine (s : State) (ci gi word : Nat) (f : Flt) (g : Group) (ends : Bool) :
    Routine s (s.faultRecord ci gi word f g ends).2 :=
  (State.setCore_routine _ _ _).trans (State.raise_routine _ _ _ _ _ _ _ _ _ _)

theorem State.takeFault_routine (s : State) (ci gi word : Nat) (f : Flt) : Routine s (s.takeFault ci gi word f) := by
  cases hg : (s.core ci).group? gi with
  | none =>
    unfold State.takeFault
    simp only [hg]
    exact .refl _
  | some g =>
    cases hr : s.coreRegion? ci with
    | some r =>
      cases he : r.faultEnds g with
      | false =>
        rw [State.takeFault_of_handled hg hr he]
        exact ((State.faultRecord_routine _ _ _ _ _ _ _).trans (State.leaveSlot_routine _ _ _)).trans (State.modCore_routine _ _ _)
      | true =>
        obtain ⟨r', tail, h⟩ := State.takeFault_of_ends hg hr he (word := word) (f := f)
        rw [h]
        exact (((State.faultRecord_routine _ _ _ _ _ _ _).trans (State.raiseFor_routine _ _ _ _ _ _ _ _ _ _ _)).trans
          (State.discardGroup_routine _ _ _)).trans (State.beginEnd_routine _ _ _)
    | none =>
      unfold State.takeFault
      simp only [hg, hr, Nat.zero_div, Nat.zero_mod, decide_true, Bool.true_or, if_true]
      have recorded := (State.faultRecord_routine s ci gi word f g true)
      split
      · refine Routine.trans ?_ (State.beginEnd_routine _ _ _)
        exact (recorded.trans (State.raiseFor_routine _ _ _ _ _ _ _ _ _ _ _)).trans (State.discardGroup_routine _ _ _)
      · exact (recorded.trans (State.raiseFor_routine _ _ _ _ _ _ _ _ _ _ _)).trans (State.discardGroup_routine _ _ _)

/-! ## Loads and updates that fail at a slice (R100, R118) -/

theorem State.failOp_routine (s : State) (ci gi num : Nat) (f : Flt) : Routine s (s.failOp ci gi num f) := by
  unfold State.failOp
  split
  · exact .refl _
  · split
    · exact .refl _
    · dsimp only
      split
      · exact State.setGroup_routine _ _ _ _
      · exact (State.setGroup_routine _ _ _ _).trans (State.takeFault_routine _ _ _ _ _)

theorem State.faultLoad_routine (s : State) (ci ln num : Nat) (cls : Cls) : Routine s (s.faultLoad ci ln num cls) := by
  unfold State.faultLoad
  split
  · exact .refl _
  · exact State.failOp_routine _ _ _ _ _

theorem State.faultUses_routine (s : State) (ci ln : Nat) (cls : Cls) : Routine s (s.faultUses ci ln cls) := by
  unfold State.faultUses
  refine Routine.trans (State.modCore_routine s ci fun c => { c.l1Drop ln with renewals := c.renewals.filter fun r => r.line != ln })
    (Routine.foldl (fun s e => ?_) _ _)
  split
  · exact State.takeFault_routine _ _ _ _ _
  · exact .refl _

theorem State.renew_routine (s : State) (ci : Nat) (l : L1Line) (ll halves : Nat) (lru : Bool) (pol : Nat) :
    Routine s (s.renew ci l ll halves lru pol).2 := by
  unfold State.renew
  split <;> exact ⟨rfl⟩

theorem resolveAccess_routine (ci gi : Nat) (o : LongOp) (noAlloc lru : Bool) (ll : Nat) (acc : State × List Access) (a : Access) :
    Routine acc.1 (resolveAccess ci gi o noAlloc lru ll acc a).1 := by
  obtain ⟨s, done⟩ := acc
  unfold resolveAccess
  dsimp only
  split
  · exact .refl _
  · split
    · exact .refl _
    · split
      · exact .refl _
      · split
        · exact .refl _
        · exact ⟨rfl⟩
      · split
        · exact .refl _
        · split
          · exact (State.renew_routine _ _ _ _ _ _ _).trans (State.setGroup_routine _ _ _ _)
          · exact State.renew_routine _ _ _ _ _ _ _

theorem resolveFetch_routine (ci gi : Nat) (o : LongOp) (acc : State × List Access) (a : Access) :
    Routine acc.1 (resolveFetch ci gi o acc a).1 := by
  obtain ⟨s, done⟩ := acc
  unfold resolveFetch
  dsimp only
  split <;> exact ⟨rfl⟩

theorem Routine.foldl_fst {α β : Type} {f : State × β → α → State × β} (hf : ∀ p x, Routine p.1 (f p x).1) (xs : List α) (p : State × β) :
    Routine p.1 (xs.foldl f p).1 :=
  List.foldlRecOn (motive := fun q => Routine p.1 q.1) _ _ (.refl p.1) fun u hu x _ => hu.trans (hf u x)

theorem State.serveGlobal_routine (s : State) (ci gi num : Nat) : Routine s (s.serveGlobal ci gi num) := by
  unfold State.serveGlobal
  split
  · exact .refl _
  · split
    · exact .refl _
    · refine Routine.trans ?_ (State.modCore_routine _ _ _)
      split
      · exact Routine.foldl_fst (fun p x => resolveAccess_routine _ _ _ _ _ _ p x) _ (s, [])
      · exact Routine.foldl_fst (fun p x => resolveFetch_routine _ _ _ p x) _ (s, [])
      · exact .refl _

theorem State.retryLoads_routine (s : State) (ci : Nat) : Routine s (s.retryLoads ci) :=
  Routine.foldl (fun _ _ => Routine.foldl (fun _ _ => State.serveGlobal_routine _ _ _ _) _ _) _ _

theorem State.failUpdate_routine (s : State) (ci commit : Nat) (l : SbLine) (cls : Cls) : Routine s (s.failUpdate ci commit l cls) := by
  unfold State.failUpdate
  dsimp only
  refine Routine.trans ?_ (State.retryLoads_routine _ _)
  refine Routine.trans ?_ (State.modCore_routine _ _ _)
  exact (State.modCore_routine s ci fun c => (c.addVals commit l.ops none).settleRets commit).trans (State.lateRecord_routine _ _ _ _)

theorem State.failQueued_routine (s : State) (q : SliceReq) : Routine s (s.failQueued q) := by
  cases q with
  | load ci ln num ver =>
    unfold State.failQueued
    dsimp only
    split
    · exact State.faultUses_routine _ _ _ _
    · split
      · exact .refl _
      · exact State.faultLoad_routine _ _ _ _ _
  | fetch => exact State.faultLoad_routine _ _ _ _ _
  | update => exact State.failUpdate_routine _ _ _ _ _
  | turn => exact .refl _
  | agent => exact .refl _
  | permit => exact .refl _

theorem State.dropLost_routine (s : State) (k : Nat) : Routine s (s.dropLost k) :=
  (State.setSlice_routine _ _ _).trans (Routine.foldl (fun s (q : SliceEnt) => State.failQueued_routine s q.req) _ _)

/-! ## Packets, requests and bundles (R293 to R311, R324) -/

theorem State.sendPacket_routine (s : State) (ci asid : Nat) (p : Packet) : Routine s (s.sendPacket ci asid p).2 := by
  unfold State.sendPacket
  split
  · exact ⟨rfl⟩
  · exact State.deadLetter_routine _ _ _ _ _ _ _

theorem State.emit_routine (s : State) (p : Packet) : Routine s (s.emit p) := by
  unfold State.emit
  split
  · exact ⟨rfl⟩
  · dsimp only
    split
    · exact State.deadLetter_routine _ _ _ _ _ _ _
    · exact ⟨rfl⟩

theorem State.finishReq_routine (s : State) (reqid : Nat) (status cause : Byte) (val : DWord) : Routine s (s.finishReq reqid status cause val) := by
  unfold State.finishReq
  split <;> exact ⟨rfl⟩

theorem State.settleBundle_routine (s : State) (num : Nat) : Routine s (s.settleBundle num) := by
  unfold State.settleBundle
  split
  · exact .refl _
  · dsimp only
    split
    · exact .refl _
    · split
      · split <;> exact ⟨rfl⟩
      · refine Routine.trans ?_ (State.lateRecord_routine _ _ _ _)
        split <;> exact ⟨rfl⟩

theorem State.launchReq_routine (s : State) (reqid : Nat) : Routine s (s.launchReq reqid) := by
  unfold State.launchReq
  split
  · exact .refl _
  · next r _ =>
    have sent := State.sendPacket_routine s r.core (s.core r.core).cfg.asid r.pkt
    split
    · next h => rwa [h] at sent
    · next h =>
      rw [h] at sent
      exact sent.trans (State.finishReq_routine _ _ _ _ _)

theorem State.wakeReads_routine (s : State) (ci : Nat) : Routine s (s.wakeReads ci) := by
  unfold State.wakeReads
  refine Routine.foldl (fun s r => Routine.trans ?_ (State.settleBundle_routine _ _)) _ _
  exact Routine.trans ⟨rfl⟩ (State.launchReq_routine _ _)

theorem State.closeReq_routine (s : State) (reqid : Nat) (status cause : Byte) (val : DWord) : Routine s (s.closeReq reqid status cause val) := by
  unfold State.closeReq
  split
  · exact .refl _
  · exact ((State.finishReq_routine _ _ _ _ _).trans (State.settleBundle_routine _ _)).trans (State.wakeReads_routine _ _)

theorem State.dropReq_routine (s : State) (reqid : Nat) : Routine s (s.dropReq reqid) := by
  unfold State.dropReq
  split <;> exact ⟨rfl⟩

theorem State.disown_routine (s : State) (ci ln : Nat) : Routine s (s.disown ci ln) := by
  unfold State.disown
  dsimp only
  split
  · split <;> exact ⟨rfl⟩
  · exact .refl _

theorem State.disownAll_routine (s : State) (ci : Nat) (k : CopyCmd) : Routine s (s.disownAll ci k) := by
  unfold State.disownAll
  refine Routine.foldl (fun s ln => ?_) _ _
  split
  · exact .refl _
  · exact State.disown_routine _ _ _

theorem State.dropEngine_routine (s : State) (ci num : Nat) : Routine s (s.dropEngine ci num) := ⟨rfl⟩

theorem State.payDues_routine (s : State) (ci : Nat) (k : CopyCmd) (payload : List Word) : Routine s (s.payDues ci k payload) := by
  refine Routine.trans ?_ (State.modCore_routine _ _ _)
  refine Routine.trans ?_ (State.dropEngine_routine _ _ _)
  exact (State.disownAll_routine _ _ _).trans (State.modCore_routine _ _ _)

theorem State.giveReceipt_routine (s : State) (reqid : Nat) (words : List Word) : Routine s (s.giveReceipt reqid words) := by
  unfold State.giveReceipt
  split
  · exact .refl _
  · dsimp only
    refine (State.dropReq_routine s reqid).trans ?_
    split
    · split <;> exact ⟨rfl⟩
    · split
      · exact State.payDues_routine _ _ _ _
      · exact .refl _

/-- A request that fails. -/
theorem State.failReq_routine (s : State) (reqid status cause : Nat) : Routine s (s.failReq reqid status cause) := by
  unfold State.failReq
  split
  · exact .refl _
  · dsimp only
    split
    · exact State.giveReceipt_routine _ _ _
    · exact State.finishReq_routine _ _ _ _ _
    · exact State.closeReq_routine _ _ _ _ _

theorem State.releaseSlots_routine (s : State) (ci : Nat) : Routine s (s.releaseSlots ci) :=
  Routine.foldl (fun _ _ => State.leaveSlot_routine _ _ _) _ _

end Sys2Proof.Machine
end

section
/-! SUPPORT. Spans (R313 to R317): where a word goes, landing buffers, and the spans that a link's failure breaks. -/

namespace Sys2Proof.Machine

open Sys2Proof.Safety Sys2Proof.Claims

/-! ## Landing buffers -/

theorem Core.landingOf_span (c : Core) (i : Nat) : (c.landingOf i).span = i := by
  unfold Core.landingOf
  cases h : c.landing.find? fun y => y.span == i with
  | none => rfl
  | some y => exact beq_iff_eq.mp (List.find?_some (p := fun y : Landing => y.span == i) h)

theorem Core.landingOf_setLanding (c : Core) {y : Landing} {i : Nat} (hy : y.span = i) : (c.setLanding y).landingOf i = y := by
  subst hy
  have hnone : (c.landing.filter fun z => z.span != y.span).find? (fun z => z.span == y.span) = none :=
    List.find?_eq_none.mpr fun z hz => by simpa using (List.mem_filter.mp hz).2
  unfold Core.landingOf Core.setLanding
  dsimp only
  rw [List.find?_append, hnone, Option.none_or, List.find?_cons_of_pos (by simp), Option.getD_some]

/-- A landing buffer that changes in place. -/
theorem Core.landingOf_change (c : Core) (f : Landing → Landing) (hf : ∀ y, (f y).span = y.span) (i : Nat) :
    (c.setLanding (f (c.landingOf i))).landingOf i = f (c.landingOf i) :=
  c.landingOf_setLanding ((hf _).trans (c.landingOf_span i))

/-- A landing buffer of which a CPYSP.IN has taken n words, which its own record keeps. -/
def Landing.taken (y : Landing) (k : CopyCmd) (n : Nat) (ws : List Word) : Landing :=
  { y with words := y.words.drop n, saved := if y.owner = k.num then y.saved ++ ws else y.saved }

/-! ## Words in flight (R314, R316) -/

section
variable {s : State} {i : Nat} {x : Span} (hx : s.spans[i]? = some x)
include hx

theorem State.spans_setSpan (y : Span) : (s.setSpan i y).spans[i]? = some y := by
  have hi : i < s.spans.length := (List.getElem?_eq_some_iff.mp hx).1
  exact List.getElem?_set_self hi

/-- Whether a span is injected does not depend on the words of a span. -/
theorem State.injected_setSpan {y : Span} (hregion : y.region = x.region) (hadders : y.adders = x.adders) (z : Span) :
    (s.setSpan i y).injected z = s.injected z := by
  have hi : i < s.spans.length := (List.getElem?_eq_some_iff.mp hx).1
  have hget : s.spans[i] = x := (List.getElem?_eq_some_iff.mp hx).2
  unfold State.injected State.setSpan
  dsimp only
  let p : Span → Bool := fun y => y.region == z.region && y.adders.any fun a => a.2 == z.handle
  show (s.spans.set i y).any p = s.spans.any p
  have hp : p y = p s.spans[i] := by rw [hget]; simp only [p, hregion, hadders]
  rw [Bool.eq_iff_iff, List.any_eq_true, List.any_eq_true]
  constructor
  · rintro ⟨w, hw, hpw⟩
    rcases List.mem_or_eq_of_mem_set hw with hw | rfl
    · exact ⟨w, hw, hpw⟩
    · exact ⟨_, List.getElem_mem hi, hp ▸ hpw⟩
  · rintro ⟨w, hw, hpw⟩
    obtain ⟨j, hj, rfl⟩ := List.getElem_of_mem hw
    by_cases hij : i = j
    · subst hij
      exact ⟨y, List.mem_set hi _, hp.trans hpw⟩
    · exact ⟨s.spans[j], List.mem_iff_getElem.mpr ⟨j, by simpa using hj, List.getElem_set_ne hij _⟩, hpw⟩

end

/-- A span with other words in flight. -/
def Span.flying (x : Span) (ws : List Word) : Span := { x with flight := ws }

theorem State.spanForward_adder {s : State} {i k : Nat} {x : Span} {w : Word} (hx : s.spans[i]? = some x)
    (h : k < x.adders.length ∨ s.injected x = true) :
    s.spanForward i k w = s.setSpan i { x with atAdder := addAt x.atAdder k w } := by
  unfold State.spanForward
  simp only [hx, if_pos h]

theorem State.spanForward_lands {s : State} {i k : Nat} {x : Span} {w : Word} (hx : s.spans[i]? = some x)
    (h : ¬ (k < x.adders.length ∨ s.injected x = true)) :
    s.spanForward i k w = s.modCore x.consumer fun c => c.setLanding { c.landingOf i with words := (c.landingOf i).words ++ [w] } := by
  unfold State.spanForward
  simp only [hx, if_neg h]

/-! ## A broken link (R317) -/

/-- A span as its breaking leaves it. -/
def Span.broke (x : Span) : Span := { x with broken := true, flight := [], waiting := [], atAdder := x.atAdder.map fun _ => [] }

theorem State.breakSpan_idle {s : State} {link i : Nat} (h : ∀ x, s.spans[i]? = some x → x.broken = true ∨ link ∉ x.links ∨ x.region = 0) :
    s.breakSpan link i = s := by
  unfold State.breakSpan
  split
  · rfl
  · next x hx =>
    refine if_pos ?_
    simpa [or_assoc] using h x hx

theorem State.breakSpan_breaks {s : State} {link i : Nat} {x : Span} (hx : s.spans[i]? = some x) (hwhole : x.broken = false) (hlink : link ∈ x.links)
    (hregion : x.region ≠ 0) : Routine (s.setSpan i x.broke) (s.breakSpan link i) := by
  unfold State.breakSpan
  simp only [hx]
  rw [if_neg (by simp [hwhole, hlink, hregion])]
  split
  · exact (State.releaseSlots_routine _ _).trans (State.raiseFor_routine _ _ _ _ _ _ _ _ _ _ _)
  · exact State.releaseSlots_routine _ _

/-- What breaking the spans of a link does, span by span. -/
theorem State.breakSpan_cases (s : State) (link i : Nat) : s.breakSpan link i = s ∨ ∃ x, s.spans[i]? = some x ∧ x.broken = false ∧
    Routine (s.setSpan i x.broke) (s.breakSpan link i) := by
  by_cases h : ∀ x, s.spans[i]? = some x → x.broken = true ∨ link ∉ x.links ∨ x.region = 0
  · exact .inl (State.breakSpan_idle h)
  · obtain ⟨x, hx, hnot⟩ : ∃ x, s.spans[i]? = some x ∧ ¬ (x.broken = true ∨ link ∉ x.links ∨ x.region = 0) := by
      simpa only [Classical.not_forall, Classical.not_imp, exists_prop] using h
    rw [not_or, not_or, Classical.not_not, Bool.not_eq_true] at hnot
    exact .inr ⟨x, hx, hnot.1, State.breakSpan_breaks hx hnot.1 hnot.2.1 hnot.2.2⟩

theorem State.breakSpan_trihorn (s : State) (link i : Nat) : (s.breakSpan link i).dev.trihorn = s.dev.trihorn := by
  rcases s.breakSpan_cases link i with h | ⟨x, -, -, h⟩
  · rw [h]
  · exact h.trihorn

/-- A span that is broken stays so. -/
def State.spanBroke (s : State) (i : Nat) : Prop := ∃ y, s.spans[i]? = some y ∧ y.broken = true ∧ y.flight = []

theorem State.spanBroke.breakSpan {s : State} {i : Nat} (h : s.spanBroke i) (link j : Nat) : (s.breakSpan link j).spanBroke i := by
  rcases s.breakSpan_cases link j with heq | ⟨x, hx, hwhole, hroutine⟩
  · rwa [heq]
  · obtain ⟨y, hy, hbroken, hflight⟩ := h
    refine ⟨y, ?_, hbroken, hflight⟩
    have hij : j ≠ i := fun e => by
      rw [e, hy] at hx
      cases hx
      rw [hbroken] at hwhole
      cases hwhole
    rw [hroutine.spans]
    exact (List.getElem?_set_ne hij).trans hy

theorem State.breakSpan_other {s : State} {link i j : Nat} (hij : j ≠ i) : (s.breakSpan link j).spans[i]? = s.spans[i]? := by
  rcases s.breakSpan_cases link j with h | ⟨x, -, -, h⟩
  · rw [h]
  · rw [h.spans]
    exact List.getElem?_set_ne hij

/-- Every span that a failed link carries breaks. -/
theorem State.breakSpans_break {link i : Nat} {x : Span} (hwhole : x.broken = false) (hlink : link ∈ x.links) (hregion : x.region ≠ 0) {is : List Nat} :
    ∀ {s : State}, s.spans[i]? = some x → i ∈ is → (is.foldl (fun s i => s.breakSpan link i) s).spanBroke i := by
  induction is with
  | nil => exact fun _ hi => absurd hi List.not_mem_nil
  | cons j is ih =>
    intro s hx hi
    rw [List.foldl_cons]
    by_cases hj : j = i
    · subst hj
      have hbroke : (s.breakSpan link j).spanBroke j :=
        ⟨x.broke, by rw [(State.breakSpan_breaks hx hwhole hlink hregion).spans]; exact State.spans_setSpan hx _, rfl, rfl⟩
      exact List.foldlRecOn (motive := fun u : State => u.spanBroke j) _ _ hbroke fun u hu k _ => hu.breakSpan link k
    · exact ih ((State.breakSpan_other hj).trans hx) ((List.mem_cons.mp hi).resolve_left fun h => hj h.symm)

/-- A failed link's bit is cleared, and no other. -/
theorem cleared_link {n : Nat} (v : BitVec n) (link : Nat) (hlink : link < n) :
    (v &&& ~~~(BitVec.ofNat n (2 ^ link))).getLsbD link = false ∧
      ∀ k, k < n → k ≠ link → (v &&& ~~~(BitVec.ofNat n (2 ^ link))).getLsbD k = v.getLsbD k := by
  have hbit (k : Nat) (hk : k < n) : (BitVec.ofNat n (2 ^ link)).getLsbD k = decide (link = k) := by
    rw [BitVec.getLsbD_ofNat, Nat.testBit_two_pow]
    simp [hk]
  have hclear (k : Nat) (hk : k < n) : (v &&& ~~~(BitVec.ofNat n (2 ^ link))).getLsbD k = (v.getLsbD k && !decide (link = k)) := by
    rw [BitVec.getLsbD_and, BitVec.getLsbD_not, hbit k hk, decide_eq_true hk, Bool.true_and]
  exact ⟨by rw [hclear link hlink, decide_eq_true rfl, Bool.not_true, Bool.and_false], fun k hk hne => by
    rw [hclear k hk, decide_eq_false hne.symm, Bool.not_false, Bool.and_true]⟩

/-- The requests that left by a failed link have failed. -/
def State.linkRefused (s : State) (link : Nat) : State :=
  (s.dev.requests.filter fun r => s.hasLeft r && s.portTo r.core r.pkt.dstDev == some link).foldl (fun s r => s.failReq r.reqid stUnreachable 0) s

/-- What was on the link is lost too. -/
def State.linkLost (s : State) (link : Nat) : State :=
  { s.linkRefused link with
    wire := (s.linkRefused link).wire.filter fun p => !(p.srcDev == s.dev.devNum && s.portTo p.srcCore p.dstDev == some link) }

theorem State.linkLost_routine (s : State) (link : Nat) : Routine s (s.linkLost link) :=
  (Routine.foldl (fun s (r : Request) => State.failReq_routine s r.reqid stUnreachable 0) _ s).trans (u := s.linkLost link) ⟨rfl⟩

theorem execLinkFailure_eq (link : Nat) (s : State) : execLinkFailure link s =
    .next ((List.range s.spans.length).foldl (fun s i => s.breakSpan link i)
      ((s.linkLost link).setDev { (s.linkLost link).dev with trihorn := (s.linkLost link).dev.trihorn &&& ~~~(BitVec.ofNat 36 (2 ^ link)) })) := by
  rw [← (s.linkLost_routine link).spans]
  rfl

end Sys2Proof.Machine

namespace Sys2Proof.Proofs

open Sys2Proof.Machine Sys2Proof.Safety Sys2Proof.Claims

/-- Settles O41: a word goes where `spanForward` says; a link's failure fails requests, which leaves spans alone, and then breaks span after
span, each at its own place. -/
theorem spanEvents : Obligations.SpanEvents := by
  intro i s x hx
  refine ⟨?_, ?_, ?_, fun a b => rfl, ?_⟩
  · intro w ws hflight hwhole
    have hnext : exec (.spanWordArrival i) s = .next ((s.setSpan i (x.flying ws)).spanForward i 0 w) := by
      rw [exec_spanWordArrival, execSpanWordArrival]
      simp only [hx, hflight]
      rw [if_neg (by simp [hwhole])]
      rfl
    have hset : (s.setSpan i (x.flying ws)).spans[i]? = some (x.flying ws) := State.spans_setSpan hx _
    have hinj : (s.setSpan i (x.flying ws)).injected (x.flying ws) = s.injected x := State.injected_setSpan hx (y := x.flying ws) rfl rfl _
    refine ⟨fun hnone hends => ?_, fun hgoes => ?_⟩
    · have hlands := State.spanForward_lands (w := w) (k := 0) hset (by
        rw [hinj, hends, show (x.flying ws).adders = [] from hnone]
        simp)
      refine ⟨_, hnext.trans (congrArg _ hlands), hset, ?_, State.modCore_coresKept _ _ _, .of_mem rfl⟩
      rw [show (x.flying ws).consumer = x.consumer from rfl, State.core_modCore_same]
      exact congrArg Landing.words (Core.landingOf_change _ (fun y => { y with words := y.words ++ [w] }) (fun _ => rfl) i)
    · have hadder := State.spanForward_adder (w := w) (k := 0) hset (by
        rw [hinj]
        exact hgoes.imp_left fun h => List.length_pos_iff.mpr h)
      refine ⟨_, hnext.trans (congrArg _ hadder), State.spans_setSpan hset _, rfl, .of_mem rfl⟩
  · intro k s' hk hrun hagain y n hn hland
    have hland' : landBytes s x.consumer k (k.off + k.moved) (((s.core x.consumer).landingOf i).words.take
        (min (min ((s.core x.consumer).landingOf i).words.length 32) ((k.len - k.moved) / 4))) = some s' := hland
    refine ⟨s'.modCore x.consumer fun c => (c.setLanding ((c.landingOf i).taken k n (y.words.take n))).setCopy { k with moved := k.moved + 4 * n },
      ?_, ?_, State.modCore_coresKept _ _ _, .of_mem rfl⟩
    · rw [exec_spanCreditReturn, execSpanCreditReturn]
      simp only [hx, hk]
      rw [if_neg (by simp only [hrun, hagain, Bool.not_true, Bool.or_self, Bool.false_or, decide_eq_true_eq]; exact hn)]
      simp only [hland'] <;> rfl
    · rw [State.core_modCore_same]
      exact congrArg Landing.words (Core.landingOf_change _ (fun z => z.taken k n (y.words.take n)) (fun _ => rfl) i)
  · intro adder fmt other w ws j y z zs hadder hw hj hy hz hx1 hy1
    rw [exec_pierAdderSum, execPierAdderSum]
    simp only [hx, hadder, hw, hj, hy, hz, hx1, hy1, Bool.or_self, Bool.false_eq_true, if_false]
  · intro link hlink
    have hu := s.linkLost_routine link
    have hfail := execLinkFailure_eq link s
    generalize s.linkLost link = u at hu hfail
    have htrihorn : ((List.range s.spans.length).foldl (fun s i => s.breakSpan link i)
        (u.setDev { u.dev with trihorn := u.dev.trihorn &&& ~~~(BitVec.ofNat 36 (2 ^ link)) })).dev.trihorn =
        s.dev.trihorn &&& ~~~(BitVec.ofNat 36 (2 ^ link)) := by
      rw [← hu.trihorn]
      exact List.foldlRecOn (motive := fun v : State => v.dev.trihorn = _) _ _ rfl fun v hv k _ => (v.breakSpan_trihorn link k).trans hv
    obtain ⟨hdown, hothers⟩ := cleared_link s.dev.trihorn link hlink
    refine ⟨_, (exec_linkFailure link s).trans hfail, ?_, fun k hk hne => ?_, fun hwhole hon hregion => ?_⟩
    · rw [htrihorn]
      exact hdown
    · rw [htrihorn]
      exact hothers k hk hne
    · exact State.breakSpans_break hwhole hon hregion (hu.spans.symm ▸ hx) (List.mem_range.mpr (List.getElem?_eq_some_iff.mp hx).1)

end Sys2Proof.Proofs

end

section
/-! SUPPORT. A device that is declared dead (R391, R398), and a pool link that fails (R118, R396). -/

namespace Sys2Proof.Machine

open Sys2Proof.Safety Sys2Proof.Claims

/-! ## What the end of a region leaves alone -/

theorem State.discardGroup_poisoned (s : State) (ci gi : Nat) : (s.discardGroup ci gi).poisoned = s.poisoned := by
  unfold State.discardGroup
  split
  · rfl
  · unfold State.leaveSlot
    dsimp only
    split <;> rfl

theorem foldl_poisoned {α : Type} {f : State → α → State} (hf : ∀ s x, (f s x).poisoned = s.poisoned) (xs : List α) (s : State) :
    (xs.foldl f s).poisoned = s.poisoned :=
  List.foldlRecOn (motive := fun u : State => u.poisoned = s.poisoned) _ _ rfl fun u hu x _ => (hf u x).trans hu

theorem State.beginEnd_poisoned (s : State) (num : Nat) (how : Ending) : (s.beginEnd num how).poisoned = s.poisoned := by
  unfold State.beginEnd
  split
  · rfl
  · refine (foldl_poisoned (fun s ci => ?_) _ _).trans rfl
    exact foldl_poisoned (fun s gi => s.discardGroup_poisoned ci gi) _ s

theorem State.beginEnd_dev {s : State} {num : Nat} {r : Region} (hr : s.region? num = some r) (how : Ending) :
    (s.beginEnd num how).dev = (s.setRegion { r with ending := some how }).dev := by
  unfold State.beginEnd
  simp only [hr]
  refine foldl_dev (fun s ci => ?_) _ _
  exact foldl_dev (fun s gi => s.discardGroup_dev ci gi) _ s

theorem State.beginEnd_none {s : State} {num : Nat} (hr : s.region? num = none) (how : Ending) : s.beginEnd num how = s := by
  unfold State.beginEnd
  simp only [hr]

/-- The end of a region marks it, and no other region. -/
theorem State.beginEnd_regions (s : State) (num : Nat) (how : Ending) {x : Region} (hx : x ∈ (s.beginEnd num how).dev.regions) :
    x.ending = some how ∨ x ∈ s.dev.regions ∧ x.num ≠ num := by
  cases hr : s.region? num with
  | none =>
    rw [State.beginEnd_none hr] at hx
    exact .inr ⟨hx, fun h => by simpa [h] using List.find?_eq_none.mp hr x hx⟩
  | some r =>
    rw [State.beginEnd_dev hr] at hx
    have hnum : r.num = num := State.region?_num hr
    obtain ⟨y, hy, rfl⟩ := List.mem_map.mp hx
    split
    · exact .inl rfl
    · next h => exact .inr ⟨hy, fun e => h (by simp [e, hnum])⟩

theorem State.beginEnd_length (s : State) (num : Nat) (how : Ending) : (s.beginEnd num how).dev.regions.length = s.dev.regions.length := by
  cases hr : s.region? num with
  | none => rw [State.beginEnd_none hr]
  | some r =>
    rw [State.beginEnd_dev hr]
    exact List.length_map _

/-- The lines that a device held in state A are poisoned. -/
def State.scrubbed (s : State) : State := { s with poisoned := dedup (s.poisoned ++ (s.poolState.filter fun e => e.2 == .a).map Prod.fst) }

/-- Every region of a device that is declared dead ends. -/
def State.allEnd (s : State) : State := (s.dev.regions.map fun r => r.num).foldl (fun s n => s.beginEnd n .aborted) s

theorem beginEnds_regions (nums : List Nat) : ∀ s : State, ∀ x ∈ (nums.foldl (fun s n => s.beginEnd n .aborted) s).dev.regions,
    x.ending = some .aborted ∨ x ∈ s.dev.regions ∧ x.num ∉ nums := by
  induction nums with
  | nil => exact fun s x hx => .inr ⟨hx, List.not_mem_nil⟩
  | cons n nums ih =>
    intro s x hx
    rcases ih _ x hx with h | ⟨h, hout⟩
    · exact .inl h
    · exact (s.beginEnd_regions n .aborted h).imp_right fun h => ⟨h.1, fun hin => (List.mem_cons.mp hin).elim h.2 hout⟩

theorem State.allEnd_regions (s : State) {x : Region} (hx : x ∈ s.allEnd.dev.regions) : x.ending = some .aborted :=
  (beginEnds_regions _ s x hx).resolve_right fun h => h.2 (List.mem_map_of_mem h.1)

theorem State.allEnd_length (s : State) : s.allEnd.dev.regions.length = s.dev.regions.length :=
  List.foldlRecOn (motive := fun u : State => u.dev.regions.length = s.dev.regions.length) _ _ rfl
    fun u hu n _ => (u.beginEnd_length n .aborted).trans hu

theorem State.allEnd_poisoned (s : State) : s.allEnd.poisoned = s.poisoned := foldl_poisoned (fun s n => s.beginEnd_poisoned n .aborted) _ s

theorem State.allEnd_routine (s : State) : Routine s s.allEnd := Routine.foldl (fun s n => s.beginEnd_routine n .aborted) _ s

/-- A device that restarts, with this incarnation, once its last region has ended. -/
def State.restarting (s : State) (inc : Byte) : State := s.setDev { s.dev with restart := some inc }

theorem State.restartAs_eq (s : State) (inc : Byte) : s.restartAs inc = (s.allEnd.restarting inc).tryRestart := rfl

/-! ## The restart (R398, R437) -/

theorem State.tryRestart_waits {s : State} (h : s.dev.regions ≠ []) : s.tryRestart = s := by
  unfold State.tryRestart
  split
  · rfl
  · exact if_pos (by simpa using h)

/-- The pool is dropped when a device restarts; only memory tells. -/
theorem State.pokeBytes_routine (bs : List Byte) : ∀ (s : State) (pa : Nat), Routine s (s.pokeBytes pa bs) := by
  induction bs with
  | nil => exact fun s _ => .refl s
  | cons b bs ih => exact fun s pa => Routine.trans (t := { s with mem := Memory.write s.mem (canonPA pa) b }) ⟨rfl⟩ (ih _ _)

theorem State.pokeBytes_poisoned (bs : List Byte) : ∀ (s : State) (pa : Nat), (s.pokeBytes pa bs).poisoned = s.poisoned := by
  induction bs with
  | nil => exact fun _ _ => rfl
  | cons b bs ih => exact fun s pa => ih _ _

/-- The device as a restart leaves it. -/
def Device.restarted (d : Device) (inc : Byte) : Device :=
  { d with inc := inc, stage := .rom, cause := 0, keys := [], posted := 0, rejected := 0, launchq := [], stewardq := [],
           attBusy := false, attDone := false, attWritten := none, throttles := 0, incExchanged := false, restart := none }

theorem State.tryRestart_restarts {s : State} {inc : Byte} (hregions : s.dev.regions = []) (hrestart : s.dev.restart = some inc) :
    s.tryRestart = s.dropPool.setDev (s.dropPool.dev.restarted inc) := by
  unfold State.tryRestart
  simp only [hrestart, hregions, List.isEmpty_nil, Bool.not_true, Bool.false_eq_true, if_false] <;> rfl

theorem State.dropPool_poisoned (s : State) : s.dropPool.poisoned = s.poisoned :=
  foldl_poisoned (fun (s : State) (x : Nat × List Byte) => State.pokeBytes_poisoned x.2 s (x.1 * 128)) _ s

theorem State.restartAs_poisoned (s : State) (inc : Byte) : (s.restartAs inc).poisoned = s.poisoned := by
  rw [State.restartAs_eq]
  refine Eq.trans ?_ s.allEnd_poisoned
  by_cases h : s.allEnd.dev.regions = []
  · rw [State.tryRestart_restarts (s := s.allEnd.restarting inc) (inc := inc) h rfl]
    exact State.dropPool_poisoned _
  · rw [State.tryRestart_waits (s := s.allEnd.restarting inc) h]
    rfl

theorem State.restartAs_alone {s : State} {inc : Byte} (h : s.dev.regions = []) :
    s.restartAs inc = (s.restarting inc).dropPool.setDev ((s.restarting inc).dropPool.dev.restarted inc) := by
  have hend : s.allEnd = s := by rw [State.allEnd, h]; rfl
  rw [State.restartAs_eq, hend, State.tryRestart_restarts (s := s.restarting inc) (inc := inc) h rfl]

theorem execDeclaredDead_of {s : State} (inc : Byte) (h : s.dev.stage ≠ .recovery) :
    execDeclaredDead inc s = .next (s.scrubbed.restartAs inc) := if_neg h

theorem State.restartAs_waits {s : State} {inc : Byte} (h : s.dev.regions ≠ []) :
    s.restartAs inc = s.allEnd.restarting inc := by
  have hend : s.allEnd.dev.regions ≠ [] := fun hnone => h (List.eq_nil_of_length_eq_zero (by rw [← s.allEnd_length, hnone]; rfl))
  rw [State.restartAs_eq, State.tryRestart_waits (s := s.allEnd.restarting inc) hend]

/-! ## Switches and tables (R296, R397) -/

theorem State.switch_modSwitch {s : State} {n : Nat} {f : Switch → Switch} (hf : ∀ x, (f x).num = x.num) :
    (s.modSwitch n f).switch n = f (s.switch n) := State.switch_setSwitch_of ((hf _).trans (s.switch_num n))

/-- The line regions that a failed pool link takes with it (R118). -/
def State.poolLinkLost (s : State) (die : Nat) : State :=
  s.setDev { s.dev with
    lost := sortBy (· ≤ ·) (s.dev.lost ++ (List.range s.dev.poolRegions).filter fun r => r % 4 == die % 4 && !s.dev.lost.contains r)
    onolo := s.dev.onolo &&& ~~~(BitVec.ofNat 4 (2 ^ (die % 4))) }

/-- A trained link's bit is set. -/
theorem trained_link {n : Nat} (v : BitVec n) (link : Nat) (hlink : link < n) : (v ||| BitVec.ofNat n (2 ^ link)).getLsbD link = true := by
  rw [BitVec.getLsbD_or, BitVec.getLsbD_ofNat, Nat.testBit_two_pow_self, decide_eq_true hlink, Bool.and_self, Bool.or_true]

/-- What follows a pool link's failure changes neither the lost regions nor the links. -/
theorem execPoolLinkFailure_routine (die : Nat) (s : State) : Next (execPoolLinkFailure die s) fun u => Routine (s.poolLinkLost die) u := by
  refine ⟨_, rfl, ?_⟩
  refine Routine.trans ?_ (State.toRegions_routine _ _ _ _ _)
  refine Routine.trans ?_ (Routine.foldl (fun s k => s.dropLost_routine k) _ _)
  exact Routine.trans (Routine.foldl (fun s (x : Nat × List Byte) => State.pokeBytes_routine x.2 s (x.1 * 128)) _ _) ⟨rfl⟩

theorem State.scrub_routine (s : State) (dev : Nat) : Routine s (s.scrub dev) := ⟨rfl⟩

/-- What follows the death of another device changes no incarnation but its. -/
theorem execDeathNotice_routine {dev : Nat} {s : State} (h : dev ≠ s.dev.devNum) : Next (execDeathNotice dev s) fun u =>
    Routine (s.setDev { s.dev with incOf := s.dev.incOf.put 0 dev (s.dev.incOf.atD dev 0 + 1) }) u := by
  unfold execDeathNotice
  rw [if_neg h]
  refine ⟨_, rfl, ?_⟩
  refine Routine.trans ?_ (State.scrub_routine _ _)
  refine Routine.trans ?_ (State.toRegions_routine _ _ _ _ _)
  exact Routine.foldl (fun s (r : Request) => s.failReq_routine r.reqid stUnreachable 0) _ _

end Sys2Proof.Machine

namespace Sys2Proof.Proofs

open Sys2Proof.Machine Sys2Proof.Safety Sys2Proof.Claims

/-- Settles O42: what follows a death or a failed pool link is routine work, which leaves incarnations and lost regions alone; a device
declared dead restarts at once where it has no region, and else once the last has ended. -/
theorem domainMembershipEvents : Obligations.DomainMembershipEvents := by
  intro s
  refine ⟨?_, ?_, ?_, ?_, ?_, ?_, ?_, ?_, ?_, ?_, ?_⟩
  · intro sw dev
    refine ⟨_, exec_heartbeat sw dev s, ?_, State.setSwitch_cores _ _, .of_mem (State.setSwitch_mem _ _)⟩
    refine (congrArg (fun w : Switch => w.heard.at? dev)
      (State.switch_modSwitch (s := s) (f := fun w => { w with heard := w.heard.ins dev s.gtc }) fun _ => rfl)).trans ?_
    exact NMap.at?_ins_same _ _ _
  · intro sw dev t ht hlive
    rw [exec_heartbeatTimeout, execHeartbeatTimeout]
    simp only [ht, heartbeatLimit]
    refine ⟨fun hover => ?_, fun hearly => if_pos (.inl hearly)⟩
    have hnot : ¬ (s.gtc < t + 50000 ∨ (s.switch sw).dead.contains dev = true) := by simp [hlive, Nat.not_lt.mpr hover]
    refine ⟨_, if_neg hnot, fun y hy => ?_, List.length_map _, rfl, .of_mem rfl⟩
    obtain ⟨z, -, rfl⟩ := List.mem_map.mp hy
    split
    · next h => simpa using h
    · exact List.mem_append_right _ (List.mem_singleton.mpr rfl)
  · intro dev hdev
    obtain ⟨u, hu, hroutine⟩ := execDeathNotice_routine hdev
    refine ⟨u, (exec_deathNotice dev s).trans hu, ?_⟩
    refine (congrArg (fun m : NMap Byte => m.atD dev 0) hroutine.incOf).trans ?_
    exact NMap.atD_put_same _ _ _ _
  · intro inc hstage
    refine ⟨_, (exec_declaredDead inc s).trans (execDeclaredDead_of inc hstage), fun e he ha => ?_, fun hnone => ?_, fun hsome => ?_⟩
    · rw [State.restartAs_poisoned]
      exact mem_dedup.mpr (List.mem_append_right _ (List.mem_map_of_mem (List.mem_filter.mpr ⟨he, by simp [ha]⟩)))
    · rw [State.restartAs_alone (s := s.scrubbed) hnone]
      exact ⟨rfl, rfl, rfl, rfl, rfl⟩
    · rw [State.restartAs_waits (s := s.scrubbed) hsome]
      have hroutine := State.allEnd_routine (s.scrubbed)
      exact ⟨hroutine.inc, hroutine.stage, rfl, fun r hr => State.allEnd_regions s.scrubbed hr⟩
  · intro inc hstage
    rw [exec_declaredDead, execDeclaredDead, if_pos hstage]
  · intro own peers hstage
    rw [exec_incarnationExchange, execIncarnationExchange]
    simp only [hstage]
  · intro own peers hstage
    rw [exec_incarnationExchange, execIncarnationExchange]
    simp only [hstage]
  · intro port keys
    exact ⟨_, exec_membershipTableProgram _ _ s, NMap.atD_put_same _ _ _ _, fun q hq => NMap.atD_put_other _ _ _ _ _ _ hq, rfl, .of_mem rfl⟩
  · intro sw port keys
    refine ⟨_, exec_membershipTableProgram _ _ s, ?_, State.setSwitch_cores _ _, .of_mem (State.setSwitch_mem _ _)⟩
    refine (congrArg (fun w : Switch => w.portKeys.atD port [])
      (State.switch_modSwitch (s := s) (f := fun w => { w with portKeys := w.portKeys.put [] port (keys.take 256) }) fun _ => rfl)).trans ?_
    exact NMap.atD_put_same _ _ _ _
  · intro die
    obtain ⟨u, hu, hroutine⟩ := execPoolLinkFailure_routine die s
    refine ⟨u, (exec_poolLinkFailure die s).trans hu, ?_, fun r hr hdie => ?_, fun r hr => ?_⟩
    · rw [hroutine.onolo]
      exact (cleared_link s.dev.onolo (die % 4) (Nat.mod_lt _ (by decide))).1
    · rw [hroutine.lost]
      refine mem_sortBy.mpr (List.mem_append.mpr ?_)
      by_cases hin : r ∈ s.dev.lost
      · exact .inl hin
      · exact .inr (List.mem_filter.mpr ⟨List.mem_range.mpr hr, by simp [hdie, hin]⟩)
    · rw [hroutine.lost]
      exact mem_sortBy.mpr (List.mem_append_left _ hr)
  · intro die
    refine ⟨_, exec_poolLinkRetrain die s, ?_, rfl, rfl, .of_mem rfl⟩
    exact trained_link s.dev.onolo (die % 4) (Nat.mod_lt _ (by decide))

end Sys2Proof.Proofs

end

section
/-! SUPPORT. Launches, sweeps and the end of a region's hold (R341 to R345, R360 to R364, R373, R391). -/

namespace Sys2Proof.Machine

open Sys2Proof.Safety Sys2Proof.Claims

/-! ## Arming (R345) -/

/-- Two states that differ in their cores and in the free values taken. -/
structure Armed (s t : State) : Prop where
  eq : t = { s with cores := t.cores, freeCount := t.freeCount }

theorem Armed.refl (s : State) : Armed s s := ⟨rfl⟩

theorem Armed.trans {s t u : State} (a : Armed s t) (b : Armed t u) : Armed s u :=
  ⟨b.eq.trans (by rw [a.eq])⟩

theorem Armed.foldl {α : Type} {f : State → α → State} (hf : ∀ s x, Armed s (f s x)) (xs : List α) (s : State) : Armed s (xs.foldl f s) :=
  List.foldlRecOn (motive := Armed s) _ _ (.refl s) fun u hu x _ => hu.trans (hf u x)

section
variable {s t : State} (h : Armed s t)
include h

theorem Armed.dev : t.dev = s.dev := (congrArg State.dev h.eq :)
theorem Armed.gtc : t.gtc = s.gtc := (congrArg State.gtc h.eq :)
theorem Armed.spans : t.spans = s.spans := (congrArg State.spans h.eq :)
theorem Armed.slices : t.slices = s.slices := (congrArg State.slices h.eq :)
theorem Armed.arrivals : t.arrivals = s.arrivals := (congrArg State.arrivals h.eq :)

end

theorem State.armFor_armed (s : State) (p : Plan) (num k ci : Nat) : Armed s (s.armFor p num k ci) := by
  unfold State.armFor
  dsimp only
  split <;> exact ⟨rfl⟩

/-- The tile that is armed belongs to the region, and the other tiles to theirs. -/
theorem State.armFor_region (s : State) (p : Plan) (num k ci cj : Nat) :
    ((s.armFor p num k ci).core cj).region = if cj = ci then some num else (s.core cj).region := by
  unfold State.armFor
  by_cases h : cj = ci
  · rw [if_pos h, h, State.core_modCore_same]
  · rw [if_neg h, State.core_modCore_other _ _ _ _ h, State.armCore, State.core_modCore_other _ _ _ _ h]
    split
    · rfl
    · exact congrArg Core.region (State.core_modCore_other _ _ _ _ h)

/-- The tiles of a plan, armed. -/
def State.armTiles (s : State) (p : Plan) (num : Nat) (xs : List (Nat × Nat)) : State := xs.foldl (fun s x => s.armFor p num x.2 x.1) s

theorem State.armTiles_armed (s : State) (p : Plan) (num : Nat) (xs : List (Nat × Nat)) : Armed s (s.armTiles p num xs) :=
  Armed.foldl (fun s (x : Nat × Nat) => s.armFor_armed p num x.2 x.1) xs s

theorem State.armTiles_region (p : Plan) (num ci : Nat) (xs : List (Nat × Nat)) : ∀ (s : State),
    ci ∈ xs.map Prod.fst ∨ (s.core ci).region = some num → ((s.armTiles p num xs).core ci).region = some num := by
  induction xs with
  | nil => exact fun s h => h.resolve_left List.not_mem_nil
  | cons x xs ih =>
    refine fun s h => ih _ ?_
    rw [State.armFor_region]
    by_cases hx : ci = x.1
    · exact .inr (if_pos hx)
    · rw [if_neg hx]
      exact h.imp_left fun hm => (List.mem_cons.mp hm).resolve_left hx

/-- The state in which the report and the completion word of an arming are written. -/
def State.enrolled (s : State) (p : Plan) : State :=
  let num := s.regionNum
  let armed := s.armTiles p num p.cores.zipIdx
  let v := { armed with spans := armed.spans ++ p.newSpans num }.addKey p.key p.tenant
  v.setDev { v.dev with regions := v.dev.regions ++ [p.region num v.gtc v.trained], nextRegion := num % 65535 + 1 }

theorem State.armPlan_eq (s : State) (p : Plan) :
    (s.armPlan p).2 = ((s.enrolled p).agentWrite p.reportPA (reportBytes [])).completion p.complPA stArmed s.regionNum p.seq := by
  simp only [State.armPlan, State.enrolled, State.armTiles]

theorem State.enrolled_regions (s : State) (p : Plan) :
    (s.enrolled p).dev.regions = s.dev.regions ++ [p.region s.regionNum s.gtc s.trained] := by
  have h := s.armTiles_armed p s.regionNum p.cores.zipIdx
  have ht : (s.armTiles p s.regionNum p.cores.zipIdx).trained = s.trained := by rw [State.trained, h.dev]; rfl
  rw [← h.gtc, ← ht, ← h.dev]
  rfl

theorem State.enrolled_spans (s : State) (p : Plan) : (s.enrolled p).spans = s.spans ++ p.newSpans s.regionNum :=
  congrArg (· ++ p.newSpans s.regionNum) (s.armTiles_armed p s.regionNum p.cores.zipIdx).spans

theorem State.enrolled_keyTenant (s : State) (p : Plan) : (s.enrolled p).dev.keyTenant.atD p.key 0 = p.tenant := NMap.atD_put_same _ _ _ _

theorem State.enrolled_region (s : State) {p : Plan} {ci : Nat} (h : ci ∈ p.cores) : ((s.enrolled p).core ci).region = some s.regionNum :=
  State.armTiles_region p _ ci _ s (.inl (by rwa [List.zipIdx_map_fst]))

theorem State.enrolled_unitsPast {s : State} (hs : UnitsPast s) (p : Plan) : UnitsPast (s.enrolled p) := by
  have h := s.armTiles_armed p s.regionNum p.cores.zipIdx
  intro w hw
  have hslices : (s.enrolled p).unitWrites = s.unitWrites :=
    congrArg (fun m : NMap Slice => m.flatMap fun (x : Nat × Slice) => x.2.queue.filterMap unitWrite) h.slices
  have harrivals : (s.enrolled p).arrivals = s.arrivals := h.arrivals
  rw [harrivals]
  exact hs w (hslices ▸ hw)

/-! ## Completion words (R343) -/

theorem State.completion_slicesOnly (s : State) (pa st num seq : Nat) : SlicesOnly s (s.completion pa st num seq) := by
  unfold State.completion
  split
  · exact .refl s
  · exact s.agentWrite_slicesOnly _ _

theorem State.completion_routine (s : State) (pa st num seq : Nat) : Routine s (s.completion pa st num seq) := by
  unfold State.completion
  split
  · exact .refl s
  · exact s.agentWrite_routine _ _

/-- A unit's write of a block within a line is read at once. -/
theorem State.agentWrite_rdNat {s : State} (hs : UnitsPast s) {pa : Nat} {bs : List Byte} (hlin : pa + bs.length ≤ 0x6000000000)
    (hline : lineOf pa = lineOf (pa + (bs.length - 1))) : (s.agentWrite pa bs).rdNat pa bs.length = leNat bs := by
  rw [State.rdNat_eq]
  refine congrArg leNat (List.ext_getElem? fun i => ?_)
  by_cases hi : i < bs.length
  · have hb := List.getElem?_eq_getElem hi
    rw [List.getElem?_map, List.getElem?_range hi, hb, Option.map_some]
    refine congrArg some (State.agentWrite_lastLine hlin hs hb ?_)
    have hlow : lineOf pa ≤ lineOf (pa + i) := Nat.div_le_div_right (by omega)
    have hhigh : lineOf (pa + i) ≤ lineOf (pa + (bs.length - 1)) := Nat.div_le_div_right (by omega)
    omega
  · rw [List.getElem?_eq_none (by simpa using Nat.le_of_not_lt hi), List.getElem?_eq_none (Nat.le_of_not_lt hi)]

/-- The completion word of a region with a number of 16 bits reads as written. -/
theorem State.completion_rdNat {s : State} (hs : UnitsPast s) {pa st num seq : Nat} (haligned : pa % 8 = 0) (hlin : pa + 8 ≤ 0x6000000000)
    (hst : st < 256) (hnum : num < 65536) (hseq : seq < 2 ^ 32) :
    (s.completion pa st num seq).rdNat pa 8 = st * 2 ^ 56 + num * 2 ^ 32 + seq := by
  rw [State.completion, if_neg (by unfold looseBase; omega)]
  have h := State.agentWrite_rdNat (pa := pa) (bs := natLe 8 (st * 2 ^ 56 + num * 2 ^ 32 + seq)) hs (by rwa [natLe_length])
    (by rw [natLe_length]; unfold lineOf; omega)
  rw [natLe_length] at h
  rw [h, leNat_natLe]
  exact Nat.mod_eq_of_lt (by omega)

/-! ## The end of a region's hold (R361, R363, R391, R437) -/

theorem State.pokeBytes_dev (bs : List Byte) : ∀ (s : State) (pa : Nat), (s.pokeBytes pa bs).dev = s.dev := by
  induction bs with
  | nil => exact fun _ _ => rfl
  | cons b bs ih => exact fun s pa => ih _ _

theorem State.dropPool_dev (s : State) : s.dropPool.dev = s.dev :=
  foldl_dev (fun s (x : Nat × List Byte) => State.pokeBytes_dev x.2 s (x.1 * 128)) _ s

theorem State.pokeBytes_cores (bs : List Byte) : ∀ (s : State) (pa : Nat), (s.pokeBytes pa bs).cores = s.cores := by
  induction bs with
  | nil => exact fun _ _ => rfl
  | cons b bs ih => exact fun s pa => ih _ _

theorem State.dropPool_cores (s : State) : s.dropPool.cores = s.cores :=
  List.foldlRecOn (motive := fun u : State => u.cores = s.cores) _ _ rfl fun u hu x _ => (State.pokeBytes_cores x.2 u (x.1 * 128)).trans hu

/-- What a restart leaves: the regions and the cores. -/
theorem State.tryRestart_cases (s : State) :
    s.tryRestart = s ∨ s.dev.regions = [] ∧ ∃ inc, s.dev.restart = some inc ∧ s.tryRestart = s.dropPool.setDev (s.dropPool.dev.restarted inc) := by
  cases hinc : s.dev.restart with
  | none => exact .inl (by unfold State.tryRestart; simp only [hinc])
  | some inc =>
    by_cases h : s.dev.regions = []
    · exact .inr ⟨h, inc, rfl, State.tryRestart_restarts h hinc⟩
    · exact .inl (State.tryRestart_waits h)

theorem State.tryRestart_regions (s : State) : s.tryRestart.dev.regions = s.dev.regions := by
  rcases s.tryRestart_cases with h | ⟨-, inc, -, h⟩ <;> rw [h]
  exact (congrArg Device.regions s.dropPool_dev :)

theorem State.tryRestart_core (s : State) (ci : Nat) : s.tryRestart.core ci = s.core ci := by
  rcases s.tryRestart_cases with h | ⟨-, inc, -, h⟩ <;> rw [h]
  exact State.core_of_cores s.dropPool_cores ci

/-- The tiles of a region, released. -/
def State.emptied (s : State) (r : Region) : State := r.cores.foldl (fun s ci => s.modCore ci Core.release) s

/-- The keys that a region leaves behind. -/
def Region.leftKeys (r : Region) (keep : Nat) : List Nat :=
  if r.loose then [] else (r.key :: ((r.reconfig.map fun p => p.key).toList)).filter (· != keep)

/-- Spans of a region that bind no lanes. -/
def State.unspanned (s : State) (r : Region) : State :=
  { s with spans := s.spans.map fun x => if x.region = r.num then { x with region := 0 } else x }

/-- The state in which a device whose region has left restarts, where a restart waits. -/
def State.vacated (s : State) (r : Region) (keep : Nat) : State :=
  let t := (r.leftKeys keep).foldl (fun s k => s.removeKey k) ((s.emptied r).unspanned r)
  t.setDev { t.dev with regions := t.dev.regions.filter fun x => x.num != r.num,
                        requests := t.dev.requests.filter fun q => !r.cores.contains q.core,
                        bundles := t.dev.bundles.filter fun b => !r.cores.contains b.core }

theorem State.releaseRegion_eq (s : State) (r : Region) (keep : Nat) : s.releaseRegion r keep = (s.vacated r keep).tryRestart := rfl

theorem State.removeKey_eq (s : State) (k : Nat) : ∃ m, s.removeKey k = s.setDev { s.dev with portKeys := m } := ⟨_, rfl⟩

theorem State.removeKeys_eq (keys : List Nat) : ∀ s : State, ∃ m, keys.foldl (fun s k => s.removeKey k) s = s.setDev { s.dev with portKeys := m } := by
  induction keys with
  | nil => exact fun s => ⟨s.dev.portKeys, rfl⟩
  | cons k keys ih =>
    intro s
    obtain ⟨m, hm⟩ := ih (s.removeKey k)
    obtain ⟨m1, hm1⟩ := s.removeKey_eq k
    refine ⟨m, ?_⟩
    rw [List.foldl_cons, hm, hm1]
    rfl

theorem State.emptied_dev (s : State) (r : Region) : (s.emptied r).dev = s.dev := foldl_dev (f := fun s ci => s.modCore ci Core.release) (fun _ _ => rfl) _ s

theorem Core.release_release (c : Core) : c.release.release = c.release := rfl

/-- A core released any number of times is released. -/
theorem State.emptied_core (s : State) {r : Region} {ci : Nat} (h : ci ∈ r.cores) : (s.emptied r).core ci = (s.core ci).release := by
  have hfix : ((s.emptied r).core ci).release = (s.emptied r).core ci :=
    State.foldl_modCore_core (P := fun c => c.release = c) Core.release_release (.inl h)
  have hsame : ((s.emptied r).core ci).release = (s.core ci).release :=
    List.foldlRecOn (motive := fun u : State => (u.core ci).release = (s.core ci).release) _ _ rfl fun u hu cj _ =>
      (State.core_modCore_part Core.release Core.release_release u cj ci).trans hu
  exact hfix.symm.trans hsame

theorem State.vacated_dev (s : State) (r : Region) (keep : Nat) : (s.vacated r keep).dev.regions = (s.dev.regions.filter fun x => x.num != r.num) ∧
    (s.vacated r keep).dev.restart = s.dev.restart ∧ (s.vacated r keep).dev.stage = s.dev.stage := by
  obtain ⟨m, hm⟩ := State.removeKeys_eq (r.leftKeys keep) ((s.emptied r).unspanned r)
  have hdev : ((s.emptied r).unspanned r).dev = s.dev := s.emptied_dev r
  unfold State.vacated
  rw [hm]
  show ((s.emptied r).unspanned r).dev.regions.filter (fun x => x.num != r.num) = _ ∧ ((s.emptied r).unspanned r).dev.restart = _ ∧
    ((s.emptied r).unspanned r).dev.stage = _
  rw [hdev]
  exact ⟨rfl, rfl, rfl⟩

theorem State.vacated_core (s : State) {r : Region} (keep : Nat) {ci : Nat} (h : ci ∈ r.cores) : (s.vacated r keep).core ci = (s.core ci).release := by
  obtain ⟨m, hm⟩ := State.removeKeys_eq (r.leftKeys keep) ((s.emptied r).unspanned r)
  unfold State.vacated
  rw [hm]
  exact s.emptied_core h

theorem State.releaseRegion_regions (s : State) (r : Region) (keep : Nat) {x : Region} (hx : x ∈ (s.releaseRegion r keep).dev.regions) :
    x.num ≠ r.num := by
  rw [State.releaseRegion_eq, State.tryRestart_regions, (s.vacated_dev r keep).1] at hx
  simpa using (List.mem_filter.mp hx).2

/-- The last region has left, and the reset follows it. -/
theorem State.releaseRegion_restarts {s : State} {r : Region} (keep : Nat) {inc : Byte} (hinc : s.dev.restart = some inc)
    (hlast : ∀ x ∈ s.dev.regions, x.num = r.num) :
    (s.releaseRegion r keep).dev.stage = .rom ∧ (s.releaseRegion r keep).dev.inc = inc ∧ (s.releaseRegion r keep).dev.restart = none := by
  obtain ⟨hregions, hrestart, -⟩ := s.vacated_dev r keep
  have hnone : (s.vacated r keep).dev.regions = [] := by
    rw [hregions]
    exact List.filter_eq_nil_iff.mpr fun x hx => by simp [hlast x hx]
  rw [State.releaseRegion_eq, State.tryRestart_restarts hnone (hrestart.trans hinc)]
  exact ⟨rfl, rfl, rfl⟩

theorem State.releaseRegion_stage {s : State} {r : Region} (keep : Nat) (h : s.dev.restart = none ∨ ∃ x ∈ s.dev.regions, x.num ≠ r.num) :
    (s.releaseRegion r keep).dev.stage = s.dev.stage := by
  obtain ⟨hregions, hrestart, hstage⟩ := s.vacated_dev r keep
  refine Eq.trans (congrArg (fun u : State => u.dev.stage) ?_) hstage
  rcases (s.vacated r keep).tryRestart_cases with heq | ⟨hnone, inc, hinc, -⟩
  · exact heq
  · rcases h with h | ⟨x, hx, hnum⟩
    · exact absurd (hinc.symm.trans (hrestart.trans h)) (by simp)
    · rw [hregions] at hnone
      exact absurd (List.filter_eq_nil_iff.mp hnone x hx) (by simp [hnum])

/-! ## Launch and sweep (R341, R360) -/

theorem State.stewardTurn_some {s : State} {p : Plan} {ps : List Plan} (hq : s.dev.stewardq = p :: ps) (hfree : s.stewardFree none = true) :
    s.stewardTurn = some (p, s.setDev { s.dev with stewardq := ps }) := by
  unfold State.stewardTurn
  simp only [hq, hfree, if_true]

theorem State.stewardTurn_none {s : State} (h : s.dev.stewardq = [] ∨ s.stewardFree none = false) : s.stewardTurn = none := by
  unfold State.stewardTurn
  rcases h with h | h
  · simp only [h]
  · split
    · rfl
    · exact if_neg (by simp [h])

theorem State.modRegion_some {s : State} {r : Region} (h : s.region? r.num = some r) (f : Region → Region) : s.modRegion r.num f = s.setRegion (f r) := by
  unfold State.modRegion
  simp only [h]

/-- R360: what a sweep of a region finds. -/
def State.sweepIdle (s : State) (r : Region) : Prop :=
  (r.cores.all fun ci => s.coreIdle r.ending.isSome ci) = true ∧ (s.tokenTotals r).1 = (s.tokenTotals r).2

/-- No barrier of the region keeps its tokens, or the region is ending (R292). -/
def State.holdsNone (s : State) (r : Region) : Bool := !(!r.ending.isSome && r.cores.any fun ci => (s.core ci).barrierHold)

theorem State.holdsNone_eq (s : State) (r : Region) : s.holdsNone r = (r.ending.isSome || r.cores.all fun ci => !(s.core ci).barrierHold) := by
  rw [State.holdsNone, Bool.not_and, Bool.not_not, ← List.not_any_eq_all_not]

def State.sweepNow (s : State) (r : Region) : Sweep := ⟨s.gtc, s.tokenTotals r, s.holdsNone r⟩

section
variable {s : State} {num : Nat} {r : Region} (hr : s.region? num = some r) (hlater : r.armedAt < s.gtc)
  (htick : (s.gtc - r.armedAt) % 1024 = 0)
include hr hlater htick

omit hr in
theorem sweep_due : ¬ (s.gtc ≤ r.armedAt ∨ (s.gtc - r.armedAt) % sweepTicks ≠ 0) := fun h =>
  h.elim (Nat.not_le.mpr hlater) fun h => h htick

theorem execKeystoneSweep_busy (h : ¬ s.sweepIdle r) :
    execKeystoneSweep num s = .next (s.setRegion { r with sweep := none, quiescent := false }) := by
  have hnum : s.region? r.num = some r := by rwa [State.region?_num hr]
  unfold execKeystoneSweep
  simp only [hr]
  rw [if_neg (sweep_due hlater htick)]
  refine (if_neg h).trans ?_
  rw [State.modRegion_some hnum]

/-- The first of two sweeps, or one whose counts differ from the last one's. -/
theorem execKeystoneSweep_first (h : s.sweepIdle r) (hfirst : ∀ w, r.sweep = some w → w.at_ + 1024 ≠ s.gtc ∨ w.totals ≠ s.tokenTotals r) :
    execKeystoneSweep num s = .next (s.setRegion { r with sweep := some (s.sweepNow r), quiescent := false }) := by
  have hnum : s.region? r.num = some r := by rwa [State.region?_num hr]
  unfold execKeystoneSweep
  simp only [hr]
  rw [if_neg (sweep_due hlater htick)]
  refine (if_pos h).trans ?_
  cases hw : r.sweep with
  | none => simp only [Bool.false_and, Bool.false_eq_true, if_false, State.modRegion_some hnum] <;> rfl
  | some w =>
    have hnot : ¬ (w.at_ + sweepTicks = s.gtc ∧ w.totals = s.tokenTotals r) := fun hboth => (hfirst w hw).elim (· hboth.1) (· hboth.2)
    simp only [decide_eq_false hnot, Bool.false_and, Bool.false_eq_true, if_false, State.modRegion_some hnum] <;> rfl

/-- The second of two sweeps with equal counts. -/
theorem execKeystoneSweep_second (h : s.sweepIdle r) {w : Sweep} (hw : r.sweep = some w) (hat : w.at_ + 1024 = s.gtc)
    (htotals : w.totals = s.tokenTotals r) :
    let u := s.setRegion { r with sweep := some (s.sweepNow r), quiescent := w.idle && s.holdsNone r }
    execKeystoneSweep num s = .next (if !r.ending.isSome then u.reportStalled r else u) := by
  intro u
  have hnum : s.region? r.num = some r := by rwa [State.region?_num hr]
  unfold execKeystoneSweep
  simp only [hr]
  rw [if_neg (sweep_due hlater htick)]
  refine (if_pos h).trans ?_
  simp only [hw, decide_eq_true (show w.at_ + sweepTicks = s.gtc ∧ w.totals = s.tokenTotals r from ⟨hat, htotals⟩), Bool.true_and, State.modRegion_some hnum] <;> rfl

end

end Sys2Proof.Machine

namespace Sys2Proof.Proofs

open Sys2Proof.Machine Sys2Proof.Safety Sys2Proof.Claims

/-- Settles O47: arming changes cores, spans and the device's tables alone before its words are written; a region that leaves frees its
tiles, and a waiting reset follows the last. -/
theorem launchAndRegionEvents : Obligations.LaunchAndRegionEvents := by
  intro s
  refine ⟨?_, ?_, ?_, ?_, ?_, ?_, ?_, ?_, ?_, ?_⟩
  · intro p ps hq hfree
    rw [exec_launch, execLaunch]
    simp only [State.stewardTurn_some hq hfree]
  · intro recPA seq num s' hq hhead
    rw [exec_launch, execLaunch]
    simp only [State.stewardTurn_none hq, hhead]
    refine congrArg Host.Outcome.next ?_
    rcases s'.prepare recPA seq none with ⟨_ | p, v⟩
    · rfl
    · refine if_congr ?_ rfl rfl
      cases p.steward <;> cases v.stewardFree none <;> simp
  · intro p num u armed v
    have hu : u = (s.armPlan p).2 := rfl
    clear_value u
    have hdev : (s.armPlan p).2.dev = (s.enrolled p).dev := by
      rw [State.armPlan_eq, (State.completion_slicesOnly _ _ _ _ _).dev, (State.agentWrite_slicesOnly _ _ _).dev]
    have hcore (ci : Nat) : (s.armPlan p).2.core ci = (s.enrolled p).core ci := by
      rw [State.armPlan_eq, State.core_of_cores (State.completion_slicesOnly _ _ _ _ _).cores,
        State.core_of_cores (State.agentWrite_slicesOnly _ _ _).cores]
    refine ⟨hu.trans (s.armPlan_eq p), ?_, ?_, ?_, fun ci hci => ?_, fun hunits haligned hlin hnum hseq => ?_⟩
    · rw [hu, hdev]
      exact s.enrolled_regions p
    · refine Eq.trans ?_ (s.enrolled_spans p)
      rw [hu, State.armPlan_eq, (State.completion_routine _ _ _ _ _).spans, (State.agentWrite_routine _ _ _).spans]
    · rw [hu, hdev]
      exact s.enrolled_keyTenant p
    · rw [hu, hcore]
      exact s.enrolled_region hci
    · rw [hu, State.armPlan_eq, State.completion_rdNat ((State.enrolled_unitsPast (unitsPast_of_others hunits) p).agentWrite _ _) haligned hlin
        (by decide) hnum hseq]
      rfl
  · intro recPA seq r s' hhead hr hending hreconfig
    rw [exec_reconfig, execReconfig]
    simp only [hhead, hr, hending, hreconfig, Option.filter, Option.isNone_none, if_true, Option.any_some, Option.isSome_none,
      Bool.false_eq_true, if_false, Option.map_some, Option.getD_some] <;> rfl
  · intro num r p hr hreconfig hquiet hending v
    refine ⟨?_, fun x hx => State.releaseRegion_regions _ r p.key hx⟩
    rw [exec_reconfigSwap, execReconfigSwap]
    simp only [hr, hreconfig, hquiet, hending, Bool.not_true, Option.isSome_none, Bool.or_self, Bool.false_eq_true, if_false] <;> rfl
  · intro num r hr hlater htick t idle free now
    have hnow : s.sweepNow r = now := congrArg (Sweep.mk s.gtc t) (s.holdsNone_eq r)
    refine ⟨fun hidle hfirst => ?_, fun w hidle hw hat htotals => ?_, fun hbusy => ?_⟩
    · exact hnow ▸ execKeystoneSweep_first hr hlater htick (hidle.imp_left List.all_eq_true.mpr) hfirst
    · have hrun := execKeystoneSweep_second hr hlater htick (hidle.imp_left List.all_eq_true.mpr) hw hat htotals
      rw [hnow, s.holdsNone_eq r] at hrun
      refine ⟨fun hending => ?_, fun hending => ?_⟩
      · obtain ⟨how, hhow⟩ := Option.ne_none_iff_exists'.mp hending
        exact hrun.trans (congrArg Host.Outcome.next (if_neg (by simp [hhow])))
      · exact hrun.trans (congrArg Host.Outcome.next (if_pos (by simp [hending])))
    · exact execKeystoneSweep_busy hr hlater htick fun h => hbusy (h.imp_left List.all_eq_true.mp)
  · intro num r hr hquiet hsinks hending hreconfig hloose
    rw [exec_regionComplete, execRegionComplete]
    simp only [hr, hquiet, hsinks, hending, hreconfig, hloose, Bool.not_true, Option.isSome_none, Bool.or_self, Bool.false_eq_true, if_false] <;> rfl
  · intro num r hr hquiet
    rw [exec_regionEnd, execRegionEnd]
    refine ⟨fun hending => ?_, fun bid hending => ?_⟩
    · simp only [hr, hquiet, hending, Bool.not_true, Bool.false_eq_true, if_false] <;> rfl
    · simp only [hr, hquiet, hending, Bool.not_true, Bool.false_eq_true, if_false] <;> rfl
  · intro r keep
    exact ⟨fun x hx => s.releaseRegion_regions r keep hx,
      fun ci hci => (State.tryRestart_core _ ci).trans (s.vacated_core keep hci),
      fun inc hinc hlast => State.releaseRegion_restarts keep hinc hlast, State.releaseRegion_stage keep⟩
  · intro ci c
    refine ⟨fun h => ?_, fun h => ?_, fun r ids hr hfew => ?_⟩
    · exact (exec_rateLimitWindow ci s).trans (if_neg (Nat.not_lt.mpr h))
    · exact (exec_rateLimitWindow ci s).trans (if_pos h)
    · rw [exec_colourReserveRefill, execColourReserveRefill]
      simp only [hr]
      refine ⟨_, if_neg (Nat.not_le.mpr hfew), ?_, fun k hk => ?_, fun k hk => ?_, State.setCore_coresKept _ _ _, .of_mem rfl⟩
      · rw [State.core_setCore_same]
        refine (sortBy_length _ _).trans_le ?_
        rw [List.length_append, List.length_take]
        show c.reserve.length + min (32 - c.reserve.length) _ ≤ 32
        omega
      · rw [State.core_setCore_same] at hk
        refine (List.mem_append.mp (mem_sortBy.mp hk)).imp_right fun hnew => ?_
        exact List.mem_filter.mp (mem_dedup.mp (List.mem_of_mem_take hnew))
      · rw [State.core_setCore_same]
        exact mem_sortBy.mpr (List.mem_append_left _ hk)

end Sys2Proof.Proofs

end

section
/-! SUPPORT. Sequenced multicast (R318 to R324): the tree at a root, held messages, and a group's entry in the table. -/

namespace Sys2Proof.Machine

open Sys2Proof.Safety Sys2Proof.Claims

/-! ## The root (R320) -/

/-- A tree that a stamp changes has the next postmark. -/
theorem Switch.stamp_tree (x : Switch) (now : Nat) (t : McTree) (p : Packet) (m : McMsg) {r : McTree}
    (hr : (x.stamp now t p m).tree t.group = some r) : r.next = t.next + 1 := by
  obtain ⟨y, -, rfl⟩ := List.mem_map.mp (List.mem_of_find?_eq_some hr)
  have hgroup := List.find?_some hr
  by_cases h : (y.group == t.group) = true
  · rw [if_pos h]
  · rw [if_neg h] at hgroup
    exact absurd hgroup h

theorem Switch.stamp_num (x : Switch) (now : Nat) (t : McTree) (p : Packet) (m : McMsg) : (x.stamp now t p m).num = x.num := rfl

/-- A message that comes next, whole, of a group with room and no message that waits, is stamped. -/
theorem execMulticastStamp_stamps {sw : Nat} {s : State} {p : Packet} {m w : McMsg} {e : Nat × Nat × Packet} {t : McTree} (hbody : p.body = .multicast m)
    (hnext : (s.switch sw).nextMessage p = some e) (hwhole : wholeMessage p m ((s.switch sw).arrived.map fun y => y.2.2) = some w)
    (htree : (s.switch sw).tree w.group = some t) (hroom : ((s.switch sw).flights.filter fun f => f.group == w.group).length < 64)
    (hnone : (s.switch sw).waits w.group = []) : execMulticastStamp sw p s =
      .next (s.setSwitch (((s.switch sw).takeMessage p).stamp s.gtc t { p with body := .multicast w } w)) := by
  have htaken : ((s.switch sw).takeMessage p).tree w.group = some t := htree
  have hopen : ¬ (rootLimit ≤ (((s.switch sw).takeMessage p).flights.filter fun f => f.group == w.group).length ∨
      (!(((s.switch sw).takeMessage p).waits w.group).isEmpty) = true) := by
    rintro (h | h)
    · exact absurd hroom (Nat.not_lt.mpr h)
    · rw [show ((s.switch sw).takeMessage p).waits w.group = [] from hnone] at h
      simp at h
  unfold execMulticastStamp
  simp only [hbody, hnext, hwhole, htaken]
  rw [if_neg (by rwa [Bool.or_eq_true, decide_eq_true_iff])]

theorem find?_uprooted (ts : List McTree) (group : Nat) : (ts.filter fun y => y.group != group).find? (fun y => y.group == group) = none :=
  List.find?_eq_none.mpr fun y hy => by simpa using (List.mem_filter.mp hy).2

/-- A switch whose tree of a group is programmed. -/
def Switch.programmed (x : Switch) (t : McTree) : Switch :=
  let rest := x.trees.filter fun y => y.group != t.group
  { x with trees := if t.members.isEmpty then rest else rest ++ [t] }

theorem Switch.programmed_tree (x : Switch) (t : McTree) : (x.programmed t).tree t.group = if t.members = [] then none else some t := by
  unfold Switch.tree Switch.programmed
  by_cases h : t.members = []
  · rw [if_pos h]
    dsimp only
    rw [if_pos (by simpa using h)]
    exact find?_uprooted x.trees t.group
  · rw [if_neg h]
    dsimp only
    rw [if_neg (by simpa using h), List.find?_append, find?_uprooted, Option.none_or, List.find?_singleton, if_pos (beq_self_eq_true _)]

/-! ## Held messages (R321, R322) -/

theorem State.mcAnswer_routine (s : State) (p : Packet) (group : Nat) (postmark : Word) (status : Nat) :
    Routine s (s.mcAnswer p group postmark status) := s.emit_routine _

theorem State.mcWrite_routine (s : State) (group n v : Nat) : Routine s (s.mcWrite group n v) := s.agentWrite_routine _ _

theorem State.mcGapRestart_mcHeld (s : State) (group : Nat) : (s.mcGapRestart group).dev.mcHeld = s.dev.mcHeld := by
  unfold State.mcGapRestart
  split <;> rfl

theorem State.mcDrop_mcHeld (s : State) (h : McHeld) :
    (s.mcDrop h).dev.mcHeld = s.dev.mcHeld.filter fun y => !(y.group == h.group && y.postmark == h.postmark) := rfl

/-- Messages that are answered and dropped stand no more, and none comes. -/
theorem answered_mcHeld (group status : Nat) (hs : List McHeld) : ∀ (s : State) {x : McHeld},
    x ∈ (hs.foldl (fun s h => (s.mcAnswer h.pkt group h.postmark status).mcDrop h) s).dev.mcHeld → x ∈ s.dev.mcHeld ∧ x ∉ hs := by
  induction hs with
  | nil => exact fun s x hx => ⟨hx, List.not_mem_nil⟩
  | cons h hs ih =>
    intro s x hx
    obtain ⟨hold, hout⟩ := ih _ hx
    rw [State.mcDrop_mcHeld, (s.mcAnswer_routine _ _ _ _).mcHeld] at hold
    obtain ⟨hold, hother⟩ := List.mem_filter.mp hold
    refine ⟨hold, fun hin => ?_⟩
    rcases List.mem_cons.mp hin with rfl | hin
    · simp at hother
    · exact hout hin

/-- R322: no message of a group is held once the group is flushed. -/
theorem State.mcFlush_mcHeld (s : State) (group status : Nat) {x : McHeld} (hx : x ∈ (s.mcFlush group status).dev.mcHeld) : x.group ≠ group := by
  unfold State.mcFlush at hx
  rw [State.mcGapRestart_mcHeld] at hx
  obtain ⟨hold, hout⟩ := answered_mcHeld _ _ _ s hx
  exact fun h => hout (List.mem_filter.mpr ⟨hold, by simp [h]⟩)

/-- A message as a member holds it (R322). -/
def State.heldAs (s : State) (port : Nat) (p : Packet) (m : McMsg) : McHeld :=
  let d := m.postmark - (s.mcEntry m.group).nextpm
  let header := d != 0 && decide ((s.mcEntry m.group).cap < m.len)
  { group := m.group, postmark := m.postmark, pkt := p, port := port, header := header,
    inStore := d != 0 && s.storeTakes (if header then 0 else m.len), done := 0 }

/-- A message is held. -/
def State.holding (s : State) (h : McHeld) : State := s.setDev { s.dev with mcHeld := s.dev.mcHeld ++ [h] }

/-- The gap timer of a group runs. -/
def State.gapStarted (s : State) (group : Nat) : State :=
  if (s.dev.mcGap.at? group).isSome then s else s.setDev { s.dev with mcGap := s.dev.mcGap.ins group s.gtc }

theorem State.gapStarted_mcHeld (s : State) (group : Nat) : (s.gapStarted group).dev.mcHeld = s.dev.mcHeld := by
  unfold State.gapStarted
  split <;> rfl

section
variable {s : State} {port : Nat} {p : Packet} {m : McMsg} (hmember : (s.mcEntry m.group).member = true)
  (hvalid : (s.mcEntry m.group).valid = true) (hkey : (s.mcEntry m.group).key = p.key.toNat)
include hmember hvalid hkey

/-- A member of a valid entry with the message's key. -/
theorem State.mcArrive_member : s.mcArrive port p m =
    if (s.mcEntry m.group).broken then s.mcAnswer p m.group m.postmark stBroken
    else if 2 ^ 31 ≤ (m.postmark - (s.mcEntry m.group).nextpm).toNat then s.stewardLog 321
    else if m.postmark - (s.mcEntry m.group).nextpm = 0 then s.holding (s.heldAs port p m)
    else (s.holding (s.heldAs port p m)).gapStarted m.group := if_neg (by simp [hmember, hvalid, hkey])

/-- A message that a member takes is held. -/
theorem State.mcArrive_held (hwhole : (s.mcEntry m.group).broken = false)
    (hnear : (m.postmark - (s.mcEntry m.group).nextpm).toNat < 2 ^ 31) :
    (s.mcArrive port p m).dev.mcHeld = s.dev.mcHeld ++ [s.heldAs port p m] := by
  rw [State.mcArrive_member hmember hvalid hkey, hwhole, if_neg Bool.false_ne_true, if_neg (Nat.not_le.mpr hnear)]
  split
  · rfl
  · exact State.gapStarted_mcHeld _ _

end

/-! ## Receipts (R324) -/

/-- FULL of a receipt. -/
def fullReceipt (words : List Word) : Bool := ((words[2]?).getD 0).getLsbD 31

/-- The state after a receipt's run of records, where it has one. -/
def State.receiptRun (v : State) (port : Nat) (r : Request) (words : List Word) (ms : List Byte) : State :=
  if fullReceipt words && !ms.isEmpty then
    v.mcStatusRun (v.core r.core).cfg.asid (srcPort port) (port / 9) ((words[1]?).getD 0) (groupOf r.pkt) ms
  else v

theorem State.receiptRun_short {v : State} {port : Nat} {r : Request} {words : List Word} {ms : List Byte} (h : fullReceipt words = false) :
    v.receiptRun port r words ms = v := if_neg (by simp [h])

theorem State.receiptRun_full {v : State} {port : Nat} {r : Request} {words : List Word} {ms : List Byte} (h : fullReceipt words = true)
    (hms : ms ≠ []) : v.receiptRun port r words ms =
      v.mcStatusRun (v.core r.core).cfg.asid (srcPort port) (port / 9) ((words[1]?).getD 0) (groupOf r.pkt) ms := if_pos (by simp [h, hms])

/-- A receipt that came leaves those that came. -/
def State.receiptTaken (s : State) (e : Nat × Packet) : State := s.setDev { s.dev with arrived := s.dev.arrived.erase e }

theorem execReturnReceipt_found {s : State} {q : Packet} {e : Nat × Packet} {words : List Word} {ms : List Byte} {r : Request}
    (he : s.dev.arrived.find? (fun e => e.2 == q) = some e) (hq : q.body = .receipt words ms)
    (hr : s.dev.requests.find? (fun r => r.reqid == q.reqid && r.bulk == some .mcput) = some r) : execReturnReceipt q s =
      if (s.receiptTaken e).tileShut q.key r.core then .next ((s.receiptTaken e).dropAtTile r.core q)
      else
        let w := (s.receiptTaken e).receiptRun e.1 r words ms
        if fullReceipt words && !w.agentDone w.arrivals then
          .next (w.setDev { w.dev with arrived := w.dev.arrived ++ [(e.1, { q with body := .receipt words [] })] })
        else .next (w.giveReceipt q.reqid words) := by
  have hreq : (s.setDev { s.dev with arrived := s.dev.arrived.erase e }).dev.requests.find?
    (fun r => r.reqid == q.reqid && r.bulk == some .mcput) = some r := hr
  unfold execReturnReceipt
  simp only [he, hq, hreq]
  rfl

/-! ## A group's entry (R318) -/

/-- The highest byte of a word in memory, as the word's fields show it. -/
theorem State.field_top_byte (s : State) (pa : Nat) (j : Nat) :
    field (s.rd64 pa).toNat (56 + j) 1 = (s.rdByte (pa + 7)).toNat / 2 ^ j % 2 := by
  have hlow : leNat ((List.range 7).map fun i => s.rdByte (pa + i)) < 2 ^ 56 :=
    (leNat_lt _).trans_eq (by rw [List.length_map, List.length_range]; rfl)
  have hbyte := (s.rdByte (pa + 7)).isLt
  have hword : s.rdNat pa 8 = leNat ((List.range 7).map fun i => s.rdByte (pa + i)) + 2 ^ 56 * (s.rdByte (pa + 7)).toNat := by
    rw [State.rdNat_eq, List.range_succ, List.map_append, leNat_append, List.length_map, List.length_range]
    rfl
  rw [State.rd64, w64, BitVec.toNat_ofNat, Nat.mod_eq_of_lt (by omega), field, hword, Nat.pow_add, ← Nat.div_div_eq_div_mul,
    Nat.add_mul_div_left _ _ (by decide), Nat.div_eq_of_lt hlow, Nat.zero_add, pow_one]

/-- The highest byte of a word of a group's entry that is written. -/
theorem State.mcWrite_top_byte {s : State} (hs : UnitsPast s) {group n v : Nat} (hlin : s.mcAt group n + 8 ≤ 0x6000000000) :
    (s.mcWrite group n v).rdByte (s.mcAt group n + 7) = BitVec.ofNat 8 (v / 2 ^ 56) :=
  State.agentWrite_lastLine (by rwa [natLe_length]) hs (i := 7) (by
    simp [natLe, Nat.div_div_eq_div_mul]) (by rw [natLe_length])

/-- Clearing bit 61 of a word leaves bit 63. -/
theorem cleared_member {v : Nat} (hv : v < 2 ^ 64) : setField v 61 1 0 / 2 ^ 56 % 256 / 2 ^ 5 % 2 = 0 ∧ setField v 61 1 0 / 2 ^ 56 % 256 / 2 ^ 7 % 2 = v / 2 ^ 63 % 2 := by
  unfold setField
  omega

/-- R318: the flags of an entry lie in the highest byte of its first word. -/
theorem State.mcEntry_flags (s : State) (group : Nat) :
    (s.mcEntry group).member = ((s.rdByte (s.mcAt group 0 + 7)).toNat / 2 ^ 5 % 2 == 1) ∧
    (s.mcEntry group).valid = ((s.rdByte (s.mcAt group 0 + 7)).toNat / 2 ^ 7 % 2 == 1) :=
  ⟨congrArg (· == 1) (s.field_top_byte _ 5), congrArg (· == 1) (s.field_top_byte _ 7)⟩

theorem State.revoke_entry {s : State} (hs : UnitsPast s) (hlin : s.dev.mcTab + 2 ^ 17 ≤ 0x6000000000) {v : DWord} :
    ((s.revoke v).mcEntry (field v.toNat 0 12)).member = false ∧
    ((s.revoke v).mcEntry (field v.toNat 0 12)).valid = (s.mcEntry (field v.toNat 0 12)).valid := by
  generalize hn : field v.toNat 0 12 = n
  have hat : (s.revoke v).mcAt n 0 = s.mcAt n 0 := by
    rw [State.mcAt, State.mcAt, State.revoke, (State.mcWrite_routine _ _ _ _).mcTab]
  have hplace : s.mcAt n 0 + 8 ≤ 0x6000000000 := by unfold State.mcAt; omega
  have hold : (s.mcEntry n).valid = ((s.rd64 (s.mcAt n 0)).toNat / 2 ^ 63 % 2 == 1) := rfl
  obtain ⟨hclear, hkeep⟩ := cleared_member (s.rd64 (s.mcAt n 0)).isLt
  obtain ⟨hmember, hvalid⟩ := (s.revoke v).mcEntry_flags n
  have hbyte : (s.revoke v).rdByte (s.mcAt n 0 + 7) = BitVec.ofNat 8 (setField (s.rd64 (s.mcAt n 0)).toNat 61 1 0 / 2 ^ 56) :=
    hn ▸ State.mcWrite_top_byte hs (by rwa [hn])
  rw [hat, hbyte, BitVec.toNat_ofNat] at hmember hvalid
  rw [hmember, hvalid, hold, hclear, hkeep]
  exact ⟨rfl, rfl⟩

end Sys2Proof.Machine

namespace Sys2Proof.Proofs

open Sys2Proof.Machine Sys2Proof.Safety Sys2Proof.Claims

/-- Settles O43: a root stamps by its tree; a member holds or refuses by its entry, whose bits of membership lie in the last byte that
a revocation writes. -/
theorem multicastEvents : Obligations.MulticastEvents := by
  intro sw s p m hbody x
  refine ⟨?_, ?_, ?_, ?_, ?_, ?_, ?_, ?_, ?_, ?_⟩
  · intro e t w hnext hwhole htree hroom hnone q
    have hgroup : t.group = w.group := by simpa using List.find?_some htree
    refine ⟨_, (exec_multicastStamp sw p s).trans (execMulticastStamp_stamps hbody hnext hwhole htree hroom hnone), ?_⟩
    have hsw := State.switch_setSwitch_of (s := s) (x := ((s.switch sw).takeMessage p).stamp s.gtc t q w) (s.switch_num sw)
    beta_reduce
    rw [hsw]
    refine ⟨rfl, fun r hr => ?_, rfl, State.setSwitch_cores _ _, .of_mem (State.setSwitch_mem _ _)⟩
    exact Switch.stamp_tree _ s.gtc t _ w (by rwa [hgroup])
  · intro e hnext hwhole
    rw [exec_multicastStamp, execMulticastStamp]
    simp only [hbody, show (s.switch sw).nextMessage p = some e from hnext,
      show wholeMessage p m ((s.switch sw).arrived.map fun y => y.2.2) = none from hwhole] <;> rfl
  · intro group next members
    refine ⟨_, exec_replicationTreeProgram sw group next members s, ?_, State.setSwitch_cores _ _, .of_mem (State.setSwitch_mem _ _)⟩
    have hsw := State.switch_setSwitch_of (s := s) (x := (s.switch sw).programmed { group := group, next := next, members := members }) (s.switch_num sw)
    exact (congrArg (Switch.tree · group) hsw).trans (Switch.programmed_tree _ _)
  · intro e he
    rw [exec_multicastArrival, execMulticastArrival]
    refine ⟨fun w hw => ?_, fun hw => ?_⟩ <;> simp only [hbody, he, hw] <;> rfl
  · intro port e ack
    refine ⟨fun hout => if_pos ?_, fun hmember hvalid hkey => ⟨fun hbroken => ?_, fun hwhole hfar => ?_, fun hwhole hnear => ?_⟩⟩
    · rcases hout with h | h | h <;> simp [e] at h <;> simp [h]
    · rw [State.mcArrive_member hmember hvalid hkey]
      exact if_pos hbroken
    · rw [State.mcArrive_member hmember hvalid hkey]
      exact (if_neg (by rw [show (s.mcEntry m.group).broken = false from hwhole]; exact Bool.false_ne_true)).trans (if_pos hfar)
    · exact ⟨s.heldAs port p m, State.mcArrive_held hmember hvalid hkey hwhole hnear, rfl, rfl, rfl, rfl⟩
  · intro group t hgap hover hturn low hlow b
    refine ⟨?_, fun h hh => State.mcFlush_mcHeld _ _ _ hh⟩
    have hnot : ¬ ((decide (s.gtc < t + gapLimit) ||
        (s.dev.mcHeld.filter fun h => h.group == group).any fun h => h.postmark == (s.mcEntry group).nextpm) = true) := by
      rw [Bool.or_eq_true, decide_eq_true_iff, List.any_eq_true]
      rintro (h | ⟨h, hin, hpost⟩)
      · exact absurd h (Nat.not_lt.mpr hover)
      · obtain ⟨hheld, hgroup⟩ := List.mem_filter.mp hin
        exact hturn h hheld (beq_iff_eq.mp hgroup) (beq_iff_eq.mp hpost)
    rw [exec_gapTimerExpiry, execGapTimerExpiry]
    simp only [hgap]
    refine (if_neg hnot).trans ?_
    simp only [hlow] <;> rfl
  · intro group postmark midx status f k hf hk hdev hnew hearly g y
    have hmine : (k.dev == s.dev.devNum) = false := beq_false_of_ne hdev
    have hgo : ¬ (((f.answers.any fun a => a.1 == midx) || (false && (s.ownAnswer f status).isNone) || decide (f.stamped + answerLimit ≤ s.gtc)) = true) := by
      have hanswers : (f.answers.any fun a => a.1 == midx) = false := List.any_eq_false.mpr fun a ha => by simpa using hnew a ha
      rw [hanswers, Bool.false_and, Bool.or_self, Bool.false_or, decide_eq_true_iff]
      exact Nat.not_le.mpr hearly
    rw [exec_memberAnswer, execMemberAnswer]
    simp only [show (s.switch sw).flights.find? (fun f => f.group == group && f.postmark == postmark) = some f from hf,
      show ((s.switch sw).tree group).bind (fun t => t.members.find? fun k => k.midx == midx) = some k from hk, hmine]
    exact if_neg hgo
  · intro group postmark f hf
    rw [exec_memberAnswerTimeout, execMemberAnswerTimeout]
    simp only [show (s.switch sw).flights.find? (fun f => f.group == group && f.postmark == postmark) = some f from hf]
    exact ⟨fun h => congrArg Host.Outcome.next (if_neg (Nat.not_lt.mpr h)), fun h => congrArg Host.Outcome.next (if_pos h)⟩
  · intro q e words ms r he hq hr v full
    rw [exec_returnReceipt, execReturnReceipt_found he hq hr]
    refine ⟨fun hshut => if_pos hshut, fun hopen hfull => ?_, fun hopen hfull hms => ?_⟩
    · refine (if_neg (ne_true_of_eq_false hopen)).trans ?_
      rw [State.receiptRun_short hfull, show fullReceipt words = false from hfull]
      rfl
    · rw [State.receiptRun_full hfull hms, show fullReceipt words = true from hfull]
      exact ⟨fun hdone => (if_neg (ne_true_of_eq_false hopen)).trans (if_neg (by rw [Bool.true_and, Bool.not_eq_true']; exact ne_false_of_eq_true hdone)),
        fun hwait => (if_neg (ne_true_of_eq_false hopen)).trans (if_pos (by rw [Bool.true_and, Bool.not_eq_true']; exact hwait))⟩
  · intro v hlin hunits
    exact ⟨_, exec_mcgrpRevoke v s, State.revoke_entry (unitsPast_of_others hunits) hlin⟩

end Sys2Proof.Proofs

end
